-- ==== Sys2Proof/Word.lean ====
section
/-! DEFINITION. The words of the Tabiq machine (R4, R5): the bit-vector widths the manual names, and nothing else. -/

namespace Sys2Proof

/-- A byte of memory, of code or of a record (R5). -/
abbrev Byte := BitVec 8

/-- A 32-bit element: one lane of a vector register, a mask register, a memory word (R54, R58). -/
abbrev Word := BitVec 32

/-- A 64-bit value: a scalar register, a virtual address, a descriptor (R56, R378). -/
abbrev DWord := BitVec 64

/-- A set of lanes of one hoist: bit `l` stands for lane `l` (R58). -/
abbrev LaneMask := BitVec 32

end Sys2Proof
end

