-- ==== Sys2Proof/Config.lean ====
section
/-! DEFINITION. What the manual leaves open and the model leaves free: opaque constants with no body. No proof can see
a value of one, so a statement holds whatever the device gives. -/

namespace Sys2Proof.Config

/-- FRCP on an operand whose result R168 does not decide: the choice among the values within 1 ulp of 1 ÷ a. -/
opaque frcpFree : Word → Word
/-- FRSQ where R168 does not decide the result. -/
opaque frsqFree : Word → Word
/-- FEXP2 where R168 does not decide the result. -/
opaque fexp2Free : Word → Word
/-- FLOG2 where R168 does not decide the result. -/
opaque flog2Free : Word → Word
/-- FSIN where R168 does not decide the result. -/
opaque fsinFree : Word → Word
/-- FCOS where R168 does not decide the result. -/
opaque fcosFree : Word → Word
/-- FTANH where R168 does not decide the result. -/
opaque ftanhFree : Word → Word

/-- The verdict of the boot ROM on a firmware image (R425), by a digest of its bytes: 0 runs, 1 signature, 2 rollback.
The keys, the fuses and the image format are not in the manual. -/
opaque imageVerdict : List Byte → Nat
/-- The version of a verified image (FWVER, R427). -/
opaque imageVersion : List Byte → Word
/-- SHA-256 (R425, R426), whose definition is not in the manual. -/
opaque sha256 : List Byte → BitVec 256
/-- What the fields of an attestation report hold that depend on fuses and keys (R426): the field is named by its offset; the further
arguments are the bytes that the signature covers, and for the fuses' fields the package, for the signature the number of signatures
made before. -/
opaque attestField : Nat → List Byte → Nat → List Byte
/-- The hottest junction temperature that TEMP reports (R427), by the package and the clock. -/
opaque temperature : Nat → Nat → Word
/-- The bytes of a section of a dump (R423) whose layout the manual does not give: the counters, the launch state, and the
windows with the registers of Bellows; by the package, the number of dumps written before, the hearth and the kind. -/
opaque dumpSection : Nat → Nat → Nat → Nat → List Byte

end Sys2Proof.Config
end

