-- ==== Sys2Proof/Machine/Sparse.lean ====
section
/-! DEFINITION. Sparse tables as plain data: a list of (key, value) pairs in one canonical form, with keys strictly
rising and no entry equal to what an unlisted key reads as. Memory, register files and every numbered part use it. -/

namespace Sys2Proof.Sparse

variable {α : Type}

/-- The value at key `k`; `d` is what an unlisted key reads as. -/
def get (d : α) : List (Nat × α) → Nat → α
  | [], _ => d
  | (k', v) :: t, k => if k = k' then v else get d t k

/-- Drop key `k` from a table. -/
def erase (l : List (Nat × α)) (k : Nat) : List (Nat × α) := l.filter fun p => decide (k ≠ p.1)

/-- Put `v` at key `k`, keeping the keys in rising order. -/
def insert : List (Nat × α) → Nat → α → List (Nat × α)
  | [], k, v => [(k, v)]
  | (k', v') :: t, k, v =>
    if k < k' then (k, v) :: (k', v') :: t
    else if k = k' then (k, v) :: t
    else (k', v') :: insert t k v

/-- Write `v` at key `k`; writing what an unlisted key reads as removes the entry. -/
def set [DecidableEq α] (d : α) (l : List (Nat × α)) (k : Nat) (v : α) : List (Nat × α) :=
  if v = d then erase l k else insert l k v

/-- Every key of the list is above `k`. -/
def above (k : Nat) (l : List (Nat × α)) : Bool := l.all fun p => decide (k < p.1)

/-- The canonical form: keys strictly rising, and no entry equal to the default `d`. -/
def wf [DecidableEq α] (d : α) : List (Nat × α) → Bool
  | [] => true
  | (k, v) :: t => decide (v ≠ d) && above k t && wf d t

end Sys2Proof.Sparse
end

