-- ==== Sys2Proof/Syntax.lean ====
section
/-! DEFINITION. The instruction terms of Tabiq version 1: operands, modifiers, and one constructor of `Instr` for each row of
the table of operations and events (R93 and the entries of each chapter; the events are the device's own steps). -/

namespace Sys2Proof

/-- The three lengths of an instruction (R76). -/
inductive Form where
  | f64 | f96 | f128
  deriving DecidableEq, Repr

/-- The type codes of R92. -/
inductive Ty where
  | b32 | n32 | i32 | n64 | i64 | b64 | n16 | i16 | n8 | i8 | b16 | b8
  | f32 | f16 | bf16 | tf32 | e4m3 | e5m2 | e2m1 | e3m5 | f16x2 | bf16x2 | n24 | i24
  deriving DecidableEq, Repr

/-- An operand (R84), or `none` where the instruction has no such operand. `lit` is the literal word that replaces
source B (R81, R82). -/
inductive Opnd where
  | none
  | v (i : BitVec 6)
  | s (i : BitVec 6)
  | q (i : BitVec 4)
  | p (i : BitVec 4)
  | m (i : BitVec 4)
  | zr
  | lit (x : Word)
  deriving DecidableEq, Repr

/-- The five operand fields of an instruction (R79, R80). -/
structure Ops where
  d  : Opnd
  d2 : Opnd
  a  : Opnd
  b  : Opnd
  c  : Opnd
  deriving DecidableEq, Repr

/-- What every instruction carries: its form, its guard (R86) and its empty-behaviour bits (R61, R89). -/
structure Hdr where
  form : Form
  gn   : Bool
  gp   : BitVec 4
  ea   : Bool
  eb   : Bool
  ec   : Bool
  deriving DecidableEq, Repr

/-- The rounding modes of R123. -/
inductive Rm where
  | rne | rtz | rup | rdn | sr
  deriving DecidableEq, Repr

/-- The conditions of ICMP and ICMP64 (R152), and with `num` and `nan` those of FCMP and PKCMP (R166, R170). -/
inductive Cond where
  | eq | ne | lt | le | gt | ge | num | nan
  deriving DecidableEq, Repr

/-- The merges of a predicate combining type (R87). -/
inductive Merge where
  | set | and | or | gate
  deriving DecidableEq, Repr

/-- A predicate combining type: its merge and its inversion (R87). -/
structure Pct where
  merge : Merge
  inv   : Bool
  deriving DecidableEq, Repr

/-- The six scopes (R8, R91). -/
inductive Scope where
  | hoist | cast | core | hearth | package | domain
  deriving DecidableEq, Repr

/-- The orders of the scope-and-order byte (R91). -/
inductive MemOrder where
  | relaxed | acquire | release | acqRel
  deriving DecidableEq, Repr

/-- The scope-and-order byte (R91). -/
structure ScopeOrder where
  scope   : Scope
  order   : MemOrder
  promote : Bool
  pass    : Bool
  deriving DecidableEq, Repr

/-- The fields that a memory operand adds: live-set selector, scope and order, scale and displacement count
(R90, R91, R243). -/
structure MemX where
  lsel  : BitVec 4
  so    : ScopeOrder
  scale : BitVec 2
  disp  : BitVec 8
  deriving DecidableEq, Repr

/-- The modes of PMOV (R154). -/
inductive PmovMode where
  | bit | pack | unpack
  deriving DecidableEq, Repr

/-- How XLANE finds the partner lane (R155). -/
inductive XlaneMode where
  | pick | back | ahead | flip
  deriving DecidableEq, Repr

/-- The tests of LTEST (R157). -/
inductive LTest where
  | every | some | same32 | same64 | odd
  deriving DecidableEq, Repr

/-- The operations of SCAN and LFOLD (R158). -/
inductive FoldOp where
  | add | min | max | and | or | xor
  deriving DecidableEq, Repr

/-- The operations of ATOM, ATOMS and RED (R250). -/
inductive AtomOp where
  | add | min | max | and | or | xor | exch
  deriving DecidableEq, Repr

/-- The words per lane of LDX and STX (R246). -/
inductive XCount where
  | x2 | x4 | x8
  deriving DecidableEq, Repr

/-- The fields QSTAT reads (R270). -/
inductive QField where
  | count | free | bind
  deriving DecidableEq, Repr

/-- The modes of MSET (R348). -/
inductive MsetMode where
  | em | mov | or | andn
  deriving DecidableEq, Repr

/-- The targets of RFT and HALT (R400). -/
inductive RftTo where
  | retry | next | to
  deriving DecidableEq, Repr

/-- The extents of TLBINV and ICINV (R407). -/
inductive InvExtent where
  | page | ctx | part
  deriving DecidableEq, Repr

/-- The contexts MWAIT names (R204). -/
inductive MwaitSel where
  | c0 | c1 | both
  deriving DecidableEq, Repr

/-- One row of the table of operations and events for each constructor. The instructions come first, in the table's
order, each with its header `h`, its operands `o` and its modifiers as the instruction's entry names them. The events
follow; a natural number names the part concerned (a fragment, a cast, a hearth, a position in the network). -/
inductive Instr where
  -- Integer arithmetic (R141 to R143)
  | iadd (h : Hdr) (o : Ops) (t : Ty) (sat : Bool)
  | isub (h : Hdr) (o : Ops) (t : Ty) (sat : Bool)
  | iaddc (h : Hdr) (o : Ops) (t : Ty)
  | isubb (h : Hdr) (o : Ops) (t : Ty)
  | ineg (h : Hdr) (o : Ops) (t : Ty) (sat : Bool)
  | iabs (h : Hdr) (o : Ops) (t : Ty) (sat : Bool)
  | imin (h : Hdr) (o : Ops) (t : Ty)
  | imax (h : Hdr) (o : Ops) (t : Ty)
  | imul24 (h : Hdr) (o : Ops) (t : Ty) (hi : Bool)
  | imad24 (h : Hdr) (o : Ops) (t : Ty)
  | imul (h : Hdr) (o : Ops) (t : Ty)
  | imulhi (h : Hdr) (o : Ops) (t : Ty)
  | imad (h : Hdr) (o : Ops) (t : Ty)
  | idot4 (h : Hdr) (o : Ops) (aSigned bSigned sat : Bool)
  | isad (h : Hdr) (o : Ops) (t : Ty)
  | iclamp (h : Hdr) (o : Ops) (t : Ty)
  -- Logic, shifts and bit fields (R144 to R146); `w64` selects B64
  | and (h : Hdr) (o : Ops) (w64 : Bool)
  | or (h : Hdr) (o : Ops) (w64 : Bool)
  | xor (h : Hdr) (o : Ops) (w64 : Bool)
  | not (h : Hdr) (o : Ops) (w64 : Bool)
  | andn (h : Hdr) (o : Ops) (w64 : Bool)
  | bool3 (h : Hdr) (o : Ops) (w64 : Bool) (table : BitVec 8)
  | shl (h : Hdr) (o : Ops) (wrap : Bool)
  | shr (h : Hdr) (o : Ops) (wrap : Bool)
  | sar (h : Hdr) (o : Ops) (wrap : Bool)
  | rotl (h : Hdr) (o : Ops)
  | funnel (h : Hdr) (o : Ops) (left : Bool)
  | bfe (h : Hdr) (o : Ops) (signed : Bool)
  | bfi (h : Hdr) (o : Ops)
  | popc (h : Hdr) (o : Ops) (w64 : Bool)
  | clz (h : Hdr) (o : Ops) (w64 : Bool)
  | brev (h : Hdr) (o : Ops) (w64 : Bool)
  | ctz (h : Hdr) (o : Ops) (w64 : Bool)
  -- Moves, address arithmetic and special registers (R147 to R151)
  | mov (h : Hdr) (o : Ops) (w64 : Bool) (lsel : BitVec 4)
  | movi (h : Hdr) (o : Ops) (w64 hi : Bool)
  | sel (h : Hdr) (o : Ops) (w64 : Bool)
  | add64 (h : Hdr) (o : Ops) (t : Ty)
  | sub64 (h : Hdr) (o : Ops) (t : Ty)
  | lea (h : Hdr) (o : Ops) (signed : Bool) (scale : BitVec 2)
  | shl64 (h : Hdr) (o : Ops) (wrap : Bool)
  | shr64 (h : Hdr) (o : Ops) (wrap arith : Bool)
  -- Compares and predicate logic (R152 to R154)
  | icmp (h : Hdr) (o : Ops) (t : Ty) (cond : Cond) (pct : Pct)
  | icmp64 (h : Hdr) (o : Ops) (t : Ty) (cond : Cond) (pct : Pct)
  | pbool (h : Hdr) (o : Ops) (table : BitVec 8) (pct : Pct)
  | pmov (h : Hdr) (o : Ops) (mode : PmovMode)
  | movs (h : Hdr) (o : Ops) (num : BitVec 8)
  | rdlane (h : Hdr) (o : Ops) (w64 : Bool)
  | wrlane (h : Hdr) (o : Ops) (w64 : Bool)
  -- Cross-lane instructions (R155 to R159)
  | xlane (h : Hdr) (o : Ops) (w64 : Bool) (mode : XlaneMode) (seg : BitVec 3)
  | bfly (h : Hdr) (o : Ops) (w64 hi : Bool)
  | pmask (h : Hdr) (o : Ops)
  | ltest (h : Hdr) (o : Ops) (test : LTest) (pct : Pct)
  | scan (h : Hdr) (o : Ops) (t : Ty) (op : FoldOp) (excl : Bool)
  | lfold (h : Hdr) (o : Ops) (t : Ty) (op : FoldOp)
  | matchKeys (h : Hdr) (o : Ops) (t : Ty) (num : Bool)
  -- Floating point (R164 to R171)
  | fadd (h : Hdr) (o : Ops) (t : Ty) (rm : Rm) (sat : Bool)
  | fsub (h : Hdr) (o : Ops) (t : Ty) (rm : Rm) (sat : Bool)
  | fmul (h : Hdr) (o : Ops) (t : Ty) (rm : Rm) (sat : Bool)
  | ffma (h : Hdr) (o : Ops) (t : Ty) (rm : Rm) (sat : Bool)
  | fmin (h : Hdr) (o : Ops) (t : Ty) (nanp : Bool)
  | fmax (h : Hdr) (o : Ops) (t : Ty) (nanp : Bool)
  | fcmp (h : Hdr) (o : Ops) (t : Ty) (cond : Cond) (pct : Pct)
  | fclass (h : Hdr) (o : Ops) (t : Ty) (val : Bool) (pct : Pct)
  | frnd (h : Hdr) (o : Ops) (t : Ty) (rm : Rm)
  | frcp (h : Hdr) (o : Ops)
  | frsq (h : Hdr) (o : Ops)
  | fsqrt (h : Hdr) (o : Ops) (rm : Rm) (sat : Bool)
  | fexp2 (h : Hdr) (o : Ops)
  | flog2 (h : Hdr) (o : Ops)
  | fsin (h : Hdr) (o : Ops)
  | fcos (h : Hdr) (o : Ops)
  | ftanh (h : Hdr) (o : Ops)
  | fdiv (h : Hdr) (o : Ops) (rm : Rm) (sat : Bool)
  | fldexp (h : Hdr) (o : Ops) (t : Ty) (rm : Rm) (sat : Bool)
  | pkadd (h : Hdr) (o : Ops) (bf : Bool) (rm : Rm) (sat : Bool)
  | pkmul (h : Hdr) (o : Ops) (bf : Bool) (rm : Rm) (sat : Bool)
  | pkfma (h : Hdr) (o : Ops) (bf : Bool) (rm : Rm) (sat : Bool)
  | pkmin (h : Hdr) (o : Ops) (bf : Bool) (nanp : Bool)
  | pkmax (h : Hdr) (o : Ops) (bf : Bool) (nanp : Bool)
  | pkcmp (h : Hdr) (o : Ops) (bf : Bool) (cond : Cond)
  | fdot2 (h : Hdr) (o : Ops) (bf : Bool) (rm : Rm) (sat : Bool)
  | fdot4 (h : Hdr) (o : Ops) (e5 : Bool) (rm : Rm) (sat balt : Bool)
  -- Conversions and packing (R172 to R179)
  | cvt (h : Hdr) (o : Ops) (t src : Ty) (rm : Rm) (sat tfp : Bool)
  | pack8 (h : Hdr) (o : Ops) (e5 : Bool) (rm : Rm) (sat hi : Bool)
  | pack4 (h : Hdr) (o : Ops) (rm : Rm)
  | unpack8 (h : Hdr) (o : Ops) (t : Ty) (byte : BitVec 2) (e5 : Bool)
  | unpack4 (h : Hdr) (o : Ops) (t : Ty) (elt : BitVec 3)
  | bscale (h : Hdr) (o : Ops)
  | hash32 (h : Hdr) (o : Ops)
  -- The matrix engine (R192 to R206)
  | mma (h : Hdr) (o : Ops) (ctx pair : Bool) (lsel : BitVec 4)
  | mmas (h : Hdr) (o : Ops) (ctx pair : Bool) (first : BitVec 6) (lsel : BitVec 4)
  | mmal (h : Hdr) (o : Ops) (ctx pair : Bool) (lsel : BitVec 4)
  | lutb (h : Hdr) (o : Ops) (signed : Bool) (lsel : BitVec 4)
  | comp48 (h : Hdr) (o : Ops) (t : Ty) (hi : Bool)
  | aclr (h : Hdr) (o : Ops) (ctx : Bool) (lsel : BitVec 4)
  | alds (h : Hdr) (o : Ops) (t : Ty) (ctx : Bool) (lsel : BitVec 4)
  | asts (h : Hdr) (o : Ops) (t : Ty) (ctx : Bool) (lsel : BitVec 4)
  | amrg (h : Hdr) (o : Ops) (ctx : Bool) (so : ScopeOrder) (lsel : BitVec 4)
  | mbind (h : Hdr) (o : Ops) (ctx pctx : Bool) (lsel : BitVec 4)
  | mfree (h : Hdr) (o : Ops) (ctx : Bool) (lsel : BitVec 4)
  | mwait (h : Hdr) (o : Ops) (which : MwaitSel) (lsel : BitVec 4)
  | ard (h : Hdr) (o : Ops) (t : Ty) (ctx : Bool) (lsel : BitVec 4)
  -- Memory, atomics and engines (R243 to R270)
  | ld (h : Hdr) (o : Ops) (t : Ty) (x : MemX)
  | st (h : Hdr) (o : Ops) (t : Ty) (x : MemX)
  | lds (h : Hdr) (o : Ops) (t : Ty) (x : MemX)
  | sts (h : Hdr) (o : Ops) (t : Ty) (x : MemX)
  | ldx (h : Hdr) (o : Ops) (n : XCount) (x : MemX)
  | stx (h : Hdr) (o : Ops) (n : XCount) (x : MemX)
  | atom (h : Hdr) (o : Ops) (t : Ty) (op : AtomOp) (x : MemX)
  | atoms (h : Hdr) (o : Ops) (t : Ty) (op : AtomOp) (x : MemX)
  | red (h : Hdr) (o : Ops) (t : Ty) (op : AtomOp) (x : MemX)
  | cas (h : Hdr) (o : Ops) (t : Ty) (x : MemX)
  | fence (h : Hdr) (o : Ops) (so : ScopeOrder)
  | waita (h : Hdr) (o : Ops) (t : Ty) (x : MemX)
  | poll (h : Hdr) (o : Ops) (t : Ty) (x : MemX)
  | home (h : Hdr) (o : Ops) (scale : BitVec 2) (disp : BitVec 8)
  | go (h : Hdr) (o : Ops) (scale : BitVec 2) (disp : BitVec 8) (lsel : BitVec 4)
  | goAnchor (h : Hdr) (o : Ops) (lsel : BitVec 4)
  | cpy (h : Hdr) (o : Ops) (lsel : BitVec 4)
  | puts (h : Hdr) (o : Ops) (t : Ty) (x : MemX)
  | bkop (h : Hdr) (o : Ops) (lsel : BitVec 4)
  | coll (h : Hdr) (o : Ops) (lsel : BitVec 4)
  | enq (h : Hdr) (o : Ops) (w64 nb : Bool) (lsel : BitVec 4)
  | enqBind (h : Hdr) (o : Ops) (lsel : BitVec 4)
  | deq (h : Hdr) (o : Ops) (w64 nb : Bool) (lsel : BitVec 4)
  | qstat (h : Hdr) (o : Ops) (field : QField) (lsel : BitVec 4)
  -- Control flow, divergence and synchronisation (R333 to R358)
  | bra (h : Hdr) (o : Ops) (brk : Bool) (pri : BitVec 8)
  | brx (h : Hdr) (o : Ops) (pri : BitVec 8)
  | call (h : Hdr) (o : Ops) (sh : BitVec 3) (pri : BitVec 8) (lsel : BitVec 4)
  | callx (h : Hdr) (o : Ops) (sh : BitVec 3) (pri : BitVec 8) (lsel : BitVec 4)
  | ret (h : Hdr) (o : Ops) (lsel : BitVec 4)
  | loop (h : Hdr) (o : Ops) (pri : BitVec 8)
  | rep (h : Hdr) (o : Ops) (sd sa sb sc : BitVec 2)
  | join (h : Hdr) (o : Ops) (lsel : BitVec 4)
  | leave (h : Hdr) (o : Ops) (lsel : BitVec 4)
  | waitm (h : Hdr) (o : Ops) (lsel : BitVec 4)
  | mset (h : Hdr) (o : Ops) (mode : MsetMode) (lsel : BitVec 4)
  | emset (h : Hdr) (o : Ops) (lsel : BitVec 4)
  | bar (h : Hdr) (o : Ops) (num : BitVec 4) (arv : Bool)
  | yield (h : Hdr) (o : Ops)
  | exit (h : Hdr) (o : Ops)
  | raise (h : Hdr) (o : Ops)
  | pour (h : Hdr) (o : Ops)
  | pourw (h : Hdr) (o : Ops) (lsel : BitVec 4)
  | nop (h : Hdr) (o : Ops)
  | trap (h : Hdr) (o : Ops) (code : BitVec 8)
  | bkpt (h : Hdr) (o : Ops)
  | sleep (h : Hdr) (o : Ops)
  -- System instructions (R399 to R414)
  | movspRead (h : Hdr) (o : Ops) (num : BitVec 8)
  | movspWrite (h : Hdr) (o : Ops) (num : BitVec 8)
  | rft (h : Hdr) (o : Ops) (tgt : RftTo)
  | tlbinv (h : Hdr) (o : Ops) (ext : InvExtent) (scope : Scope)
  | icinv (h : Hdr) (o : Ops) (ext : InvExtent) (scope : Scope)
  | park (h : Hdr) (o : Ops)
  | unpark (h : Hdr) (o : Ops)
  | govset (h : Hdr) (o : Ops)
  | errrd (h : Hdr) (o : Ops)
  | halt (h : Hdr) (o : Ops) (tgt : RftTo)
  | preq (h : Hdr) (o : Ops) (resume all : Bool)
  | kill (h : Hdr) (o : Ops)
  -- Events: fragments, homes and packets
  | fragmentDeparture (f : Nat)
  | ingotArrival (n : Nat)
  | parkedArrivalPlacement (gh : Nat)
  | holdRelease (f : Nat)
  | postedStore (n : Nat)
  | postedReduction (n : Nat)
  | signalAdd (n : Nat)
  | pennant (n : Nat)
  | castRelease (n : Nat)
  | engineCompletionWrite (n : Nat)
  | engineCommand (n : Nat)
  | hostWrite (pkg pa : Nat) (bytes : List Byte) (ep : Bool)
  | exitNotice (n : Nat)
  | engineRead (n : Nat)
  | drainRequest (n : Nat)
  | acknowledgement (n : Nat)
  | readData (n : Nat)
  | drainAnswer (n : Nat)
  | stallHint (n : Nat)
  | landing (n : Nat)
  | acknowledgementRequest (n : Nat)
  | contribution (n : Nat)
  | mergedResult (n : Nat)
  | ackTimeout (n : Nat)
  | flitCrcFailure (n : Nat) (eighth link : Bool) (unit : Nat)
  | stallHintRaise (gc switch out : Nat)
  | stallHintLapse (gc target : Nat)
  | wflushExpiry (pkg switch win elt : Nat)
  | windowTreeFreed (pkg win : Nat)
  | sweep (pkg ctx : Nat) (domain : Bool)
  | contextFatal (pkg ctx : Nat)
  | routeUpdate (entries : List (Nat × Nat))
  | injectionFlip (source : Nat)
  -- Events: launch, scheduling and synchronisation
  | launch (pkg hearth : Nat) (word : DWord) (size : Nat)
  | slotGrant (gh : Nat)
  | castStart (gh : Nat)
  | quantumExpiry (cast : Nat)
  | activeSetExchange (gc part : Nat)
  | hoistReady (f : Nat)
  | pollBackoffExpiry (f : Nat)
  | sleepExpiry (f : Nat)
  | waitaWake (f : Nat)
  | pourwWake (f : Nat)
  | joinComplete (f : Nat)
  | barrierOpen (cast num : Nat)
  | loopEndTest (f : Nat)
  | castRetirement (cast : Nat)
  | earlyPennant (cast : Nat)
  | pourCompletion (pour : Nat)
  | unparkApply (n : Nat)
  | killApply (n : Nat)
  -- Events: matrix engine and engines
  | matrixStart (gc : Nat)
  | matrixRetire (gc : Nat)
  | mbindEffect (f : Nat)
  | amrgTicketReady (f : Nat)
  | amrgRetire (gc : Nat) (ctx : Bool)
  | engineCommandTake (cast queue : Nat)
  | copySegment (cmd : Nat)
  | bankRowStep (cmd row : Nat)
  | bankResultWrite (cmd : Nat)
  | engineCompletion (cmd : Nat)
  | feedPush (cmd : Nat)
  | collectiveCompletion (cmd : Nat)
  | tlbWalkComplete (gh ctx vpage : Nat)
  | pinRetry (cmd : Nat)
  -- Events: Bellows
  | bellowsWindowEnd (pkg : Nat)
  | ballastAdmit (pkg : Nat)
  | pinnedAdmit (pkg : Nat)
  -- Events: pre-emption, windows and the runner control page
  | preemptSave (pkg : Nat)
  | preemptResume (pkg : Nat)
  | preemptCompletion (pkg : Nat)
  | fwpreq (pkg : Nat) (word : DWord)
  | windowDeclare (pkg win : Nat)
  | windowClear (pkg win : Nat)
  | controlPageWrite (pkg offset : Nat) (bytes : List Byte) (writer : Option (BitVec 8))
  -- Events: bring-up, host registers and errors
  | doorbellLoadImage (pkg : Nat)
  | doorbellApplyConfiguration (pkg : Nat)
  | doorbellCopyDump (pkg : Nat)
  | doorbellAttest (pkg : Nat)
  | doorbellWarmReset (pkg : Nat)
  | doorbellColdReset (pkg : Nat)
  | hostRegisterWrite (pkg offset : Nat) (value : DWord) (size : Nat)
  | auxRailOn (pkg : Nat)
  | powerRailsOn (pkg : Nat)
  | perstRelease (pkg : Nat)
  | thermal (pkg : Nat)
  | hostLinkLoss (pkg : Nat)
  | controlCheck (pkg : Nat)
  | scrub (gh : Nat) (bad : Option Bool) (fast : Bool)
  | linkRetrain (pkg bundle : Nat)
  | pcieError (pkg : Nat) (corrected : Bool)
  deriving DecidableEq, Repr

end Sys2Proof
end

