-- ==== Sys2Proof/Machine/State.lean ====
section
/-! DEFINITION. The state of a Yilsen domain of Beynis Q9 packages, as plain data: every piece of state the manual
gives the machine, the reasons a step can stop, and the state right after reset.

Numbering used throughout: hearth `gh` = 16 × package + hearth, core `gc` = 128 × package + core, and the sources of
packets by the 30-bit SRC layout of R273. A sparse table (`Sparse`) lists only what differs from its default. -/

namespace Sys2Proof.Machine

/-- A sparse table keyed by a number. -/
abbrev Tab (α : Type) := List (Nat × α)

/-! ### Fragments and hoists -/

/-- One loop-stack entry (R46, R340). -/
structure LoopEnt where
  count : BitVec 24
  prio  : BitVec 8
  start : DWord
  stop  : DWord
  deriving DecidableEq, Repr

/-- Why a frontier entry waits (R311 and the entries of the instructions). -/
inductive Wait where
  /-- an empty register, or an empty destination (R61, R62) -/
  | full
  /-- a queue with too few elements or too little room, a rebind of a command queue (R65, R268) -/
  | queue (q : BitVec 4)
  /-- a context queue that is full, or a follower context bound by another cast (R182, R196) -/
  | context (c : Bool)
  /-- MWAIT: the number of acceptances to retire on each context (R204) -/
  | mwait (c0 c1 : Nat)
  /-- a scratchpad access held for an accepted matrix instruction of its hoist (R190) -/
  | tile
  /-- MBIND: its own context, and the follower's cast and context, until both are unbound and empty, and the address of the
  next instruction (R196) -/
  | mbind (own : Bool) (peer : Nat) (theirs : Bool) (next : DWord)
  /-- AMRG: the physical address of the ticket word, and the value it must hold (R206) -/
  | ticket (pa seq : Nat)
  /-- a page-table walk (R384) -/
  | walk (ctx : BitVec 8) (vpage : Nat)
  /-- the hold at an arriving home (R50) -/
  | hold
  /-- WAITA, until a write is applied to `size` bytes at one of the physical addresses listed; `hit` once one has been
  (R255) -/
  | waita (addrs : List Nat) (size : Nat) (hit : Bool)
  /-- a JOIN on a mask register (R350) -/
  | join (k : BitVec 4)
  /-- WAITM (R351) -/
  | waitm (k : BitVec 4)
  /-- BAR (R352) -/
  | bar (b : BitVec 4)
  /-- a release or fence wait (R230, R238), or the wait before a post of R224 -/
  | release
  /-- a PROMOTE acquire held for a drain (R237): the drain's core and packet count -/
  | promote (gc count : Nat)
  /-- an engine's in-flight limit (R260) -/
  | engine
  /-- a full waiting list (R356) -/
  | slots
  /-- POURW, until the record's status is final (R357); the physical address of the record -/
  | pourw (rec : Nat)
  /-- TLBINV: the packets (source and number), the engine commands and the accepted AMRGs (cast, context and acceptance number)
  that still use what it dropped (R390, R407) -/
  | invalidate (packets : List (Nat × Word)) (cmds : List Nat) (merges : List (Nat × Bool × Nat))
  /-- a stall hint on a target (R290) -/
  | stall (target deadline : Nat)
  /-- a pin step that found PINS = 255 (R388) -/
  | pin
  deriving DecidableEq, Repr

/-- A frontier entry: block priority, PC, lane mask (R34), why it waits if it does, and whether the wait that its instruction is
about has ended: a WAITA that has been woken (R255), an MWAIT whose acceptances have retired (R204), a TLBINV whose users are
gone (R407). A later wait of the same instruction, for a drain or a walk, keeps that. -/
structure Entry where
  prio : BitVec 8
  pc   : DWord
  mask : LaneMask
  wait : Option Wait
  woken : Bool := false
  deriving DecidableEq, Repr

/-- A posted-sequence entry (R45, R49): target hearth, posting source (SRC of R273), last sequence. -/
structure PSeq where
  tgt : Nat
  src : Nat
  seq : Word
  deriving DecidableEq, Repr

/-- The registers of a trap in progress (R394, R398). -/
structure TrapRegs where
  cause : Word
  pc    : DWord
  pc0   : DWord
  prio0 : BitVec 8
  lanes : LaneMask
  addr  : DWord
  prio  : BitVec 8
  em    : LaneMask
  scr0  : DWord
  scr1  : DWord
  scr2  : DWord
  scr3  : DWord
  deriving DecidableEq, Repr

/-- An asynchronous cause that waits for the fragment's next instruction (R393, R396). -/
structure Async where
  code : BitVec 8
  addr : DWord
  deriving DecidableEq, Repr

/-- Where a fragment is. -/
inductive Place where
  /-- standing on core `gc` in hoist slot `slot` -/
  | core (gc slot : Nat)
  /-- waiting on core `gc` to leave it (R49, R63, R231) for hearth `dest`, or for its anchor slot; `park` when it
  leaves for the parking area of its own hearth -/
  | departing (gc slot dest : Nat) (lsel : BitVec 8) (anchor park : Bool)
  /-- in an ingot (R45) -/
  | flight
  /-- parked in the parking area of hearth `gh`; `arrival` while it waits in the queue of parked arrivals (R39), `anchor`
  when it left its own anchor slot (R52) -/
  | parked (gh : Nat) (arrival anchor : Bool)
  deriving DecidableEq, Repr

/-- A register write still to come: the destination is empty until it is made (R60). Keys are
32 × allotment register + lane. -/
structure Fill where
  vregs : List (Nat × Word × Bool)
  empty : BitVec 256
  sreg  : Option (BitVec 6 × DWord × Bool)
  deriving DecidableEq, Repr

/-- A fragment of a hoist: the state R53 gives to the fragment. The lanes' own elements and predicates stand in `Hoist`. DESIGN CHOICE (log 11, 56). -/
structure Frag where
  live    : Bool
  hoist   : Nat
  lanes   : LaneMask
  place   : Place
  entries : List Entry
  frozen  : List Entry
  /-- lanes that have completed the end instruction of the innermost loop, at the PC after it (R341) -/
  atEnd   : List Entry
  /-- `atEnd` of the program while the fragment is in handler mode (R394) -/
  frozenEnd : List Entry
  sregs   : Tab DWord
  spoison : BitVec 64
  vempty  : BitVec 256
  sempty  : BitVec 64
  vabsent : BitVec 256
  sabsent : BitVec 64
  mcopy   : Tab LaneMask
  wbase   : Nat
  loops   : List LoopEnt
  repc    : Word
  /-- the priority and PC of the repeating entry (R346) -/
  rep     : Option (BitVec 8 × DWord)
  pseq    : List PSeq
  drain   : Option Nat
  /-- the largest packet count that a core-class release of this core, which the fragment has read here, stands with (R232, R234) -/
  seen    : Option Nat
  backoff : Nat
  fills   : List Fill
  trap    : Option TrapRegs
  async   : List Async
  /-- walks that failed for an entry that waited for them: its priority and PC, and the virtual page (R384) -/
  badWalk : List (BitVec 8 × DWord × Nat)
  /-- table entries that a bank command at issue has pinned while it waits for another: its priority and PC (R388) -/
  pinned  : List (BitVec 8 × DWord × List Nat)
  /-- the priority and PC of each instruction that has already been deferred by a stall hint (R290) -/
  hinted  : List (BitVec 8 × DWord)
  /-- the address in its lowest lane of the instruction that sent it away (R387) -/
  aim     : DWord
  /-- PARK or HALT: the fragment issues nothing until the cast's launch hearth has answered (R408) -/
  asking  : Bool
  /-- SLEEP: the core clock at which the fragment issues again (R353) -/
  sleep   : Option Nat
  /-- POLL: the core clock at which the fragment issues again (R256) -/
  pause   : Option Nat
  deriving DecidableEq, Repr

/-- A hoist: the state R53 gives to its lanes and to the hoist. `vregs` and `vpoison` are keyed by
32 × allotment register + lane, `preds` by predicate, `masks` by mask register. DESIGN CHOICE (log 11). -/
structure Hoist where
  live    : Bool
  cast    : Nat
  index   : Nat
  slot    : Nat
  vregs   : Tab Word
  vpoison : Tab Bool
  preds   : Tab LaneMask
  masks   : Tab LaneMask
  /-- predicates and mask registers whose stored word has failed its check beyond correction (R416) -/
  pmarks  : BitVec 16
  mmarks  : BitVec 16
  exited  : LaneMask
  /-- lanes parked by EMSET; they belong to no fragment (R347) -/
  held    : LaneMask
  /-- lanes that have executed RAISE (R355) -/
  raised  : LaneMask
  split   : Bool
  deriving DecidableEq, Repr

/-! ### Casts and pours -/

/-- The states of a cast (R323), in the order of their codes. -/
inductive CastState where
  | notReleased | released | placed | running | raised | retired | parked
  deriving DecidableEq, Repr

/-- A queue: its binding word, its head and its tail (R64). -/
structure Queue where
  bind : DWord
  head : Nat
  tail : Nat
  deriving DecidableEq, Repr

/-- Lanes of a hoist that wait at a barrier: the BAR at which they stand, and the PC to which they go when it opens (R352). -/
structure BarWait where
  hoist : Nat
  pc    : DWord
  next  : DWord
  lanes : LaneMask
  deriving DecidableEq, Repr

/-- A cast barrier (R352): the lanes that have arrived in this phase, keyed by hoist; those of them that wait; and the phase's count,
`none` when no lane has arrived. -/
structure Barrier where
  arrived : Tab LaneMask
  waits   : List BarWait
  count   : Option Nat
  deriving DecidableEq, Repr

/-- The multiply-accumulate instructions (R192). -/
inductive MacKind where
  | mma | mmas | mmal
  deriving DecidableEq, Repr

/-- A context instruction as accepted, with the operand values read at acceptance (R182). -/
inductive MOp where
  | mac (kind : MacKind) (da db : DWord) (fmt : Word) (mregs : List Word) (pair : Bool)
  | aclr
  | alds (t : Ty) (d : DWord)
  | asts (t : Ty) (d : DWord) (fmt : Word)
  | ard (t : Ty) (reg : Nat) (pos fmt : Word) (lanes own : LaneMask)
  | amrg (rec : BitVec 256) (fmt : Word) (so : ScopeOrder) (pages : List (Nat × Nat)) (ticket : Nat)
  | mfree
  deriving DecidableEq, Repr

/-- Scratchpad bytes and marks as an instruction has read them (R190). -/
structure Snap where
  cells : List Host.Cell
  marks : Tab Bool
  deriving DecidableEq, Repr

/-- How an accepted instruction stands in a cast image (R404): the instruction in F128 form, and the values of SA, SB and SC
as read at acceptance. -/
structure MWord where
  word : BitVec 128
  sa   : DWord
  sb   : DWord
  sc   : Word
  deriving DecidableEq, Repr

/-- An accepted instruction in a context's queue (R182): what it is, its form in an image, the hoist that issued it, its
acceptance number, whether it runs on the array, for AMRG the number of its ticket store once its posts are out, the
operand tiles it has read, and for a paired instruction whether this is the leader's half and the context that holds the other
(R197). -/
structure MInst where
  op      : MOp
  saved   : MWord
  hoist   : Nat
  num     : Nat
  running : Bool
  posted  : Option Word
  a       : Snap
  b       : Snap
  mate    : Option (Bool × Nat × Bool)
  deriving DecidableEq, Repr

/-- A matrix context of a cast (R180): its bank and marks, keyed by 256 × row + column, its queue in acceptance order,
the count of acceptances and of retirements, and its binding (R196) as leader or follower of another cast's context. -/
structure MCtx where
  bank     : Tab Word
  marks    : Tab Bool
  queue    : List MInst
  accepted : Nat
  retired  : Nat
  leads    : Option (Nat × Bool)
  follows  : Option (Nat × Bool)
  deriving DecidableEq, Repr

/-- A cast (R29, R53): its pour, its linear index, its anchor core, its scratchpad with marks, its queues, barriers and
matrix contexts, and the bits its launch hearth and its image keep (R404, R408). DESIGN CHOICE (log 56). -/
structure Cast where
  st       : CastState
  pour     : Nat
  index    : Nat
  anchor   : Nat
  started  : Bool
  psent    : Bool
  wake     : Bool
  held     : Bool
  /-- its fragments are parking (R51) -/
  parking  : Bool
  /-- parked by a save of its context, and not yet released to its queue -/
  saved    : Bool
  /-- the stamp at which the quantum ended, if it has (R310) -/
  quantum  : Option Nat
  /-- the granules of the anchor core's pool it takes (R73, R75) -/
  granules : BitVec 96
  spad     : List Host.Cell
  spoison  : Tab Bool
  queues   : Tab Queue
  bars     : Tab Barrier
  c0       : MCtx
  c1       : MCtx
  /-- RAISE executed by some hoist (R327) -/
  raiser   : Bool
  /-- the stamp at which the cast was parked (R316) -/
  parkedAt : Nat
  /-- the stamp at which the cast was released (R362) -/
  released : Nat
  /-- the clock at which the cast started or resumed last (R310) -/
  startedAt : Nat
  /-- it has resumed, and its pending matrix instructions run before its fragments are admitted (R405) -/
  resuming : Bool
  deriving DecidableEq, Repr

/-- How far a pour has come (R299, R303, R315, R322, R414): `pinning` while pages of its scoreboard are still to be pinned,
`writing` while the scoreboard's writes are on their way, `finishing` and `stopped` while its final STATUS is. -/
inductive PourState where
  | none | pinning | writing | accepted | finishing | done | killing | stopped | killed
  deriving DecidableEq, Repr

/-- A pour: its record as read at acceptance (R302), its number and launch count (R304), and the launch hearth's
bookkeeping. -/
structure Pour where
  st      : PourState
  pkg     : Nat
  hearth  : Nat
  ctx     : BitVec 8
  recPa   : Nat
  raw     : BitVec 1024
  count   : Nat
  ncast   : Nat
  nrel    : Nat
  nret    : Nat
  aff     : Option DWord
  caddr   : Option Nat
  /-- the 64 KiB virtual pages of the scoreboard area with their physical addresses, and the table entries pinned for
  them (R322, R388) -/
  sbPages : List (Nat × Nat)
  pins    : List Nat
  /-- table entries still to be pinned, with their leaves (R388), and the scoreboard's writes by target and number (R322) -/
  unpinned : List (Nat × DWord)
  writes  : List (Nat × Word)
  staged  : Bool
  /-- the casts admitted, in admission order (R366) -/
  admits  : List Nat
  /-- the casts that a RESIDENT pour has reserved room for on each core (R309) -/
  resv    : Tab Nat
  /-- the number of the packet that carries the final STATUS (R315, R414) -/
  lastSeq : Word
  deriving DecidableEq, Repr

/-! ### Packets and engines -/

/-- One write of a packet or of an instruction: physical address, bytes, value, and the poison marks of its first word and, for
8 bytes, of its second (R417). -/
structure WriteOp where
  pa     : Nat
  size   : Nat
  val    : DWord
  poison : Bool
  poisonHi : Bool := poison
  deriving DecidableEq, Repr

/-- An element of a window in a contribution: its offset in the home hearth, its round, its value and its mark (R281, R282). -/
structure Contrib where
  ofs    : Nat
  round  : Nat
  val    : DWord
  poison : Bool
  deriving DecidableEq, Repr

/-- What a packet carries (R272, R273), and the requests that travel between the hearths (R326, R409, R414). -/
inductive Body where
  | store (ws : List WriteOp)
  | reduction (op : AtomOp) (t : Ty) (ws : List WriteOp)
  | signal (pa : Nat) (after : List (Nat × Word))
  | pennant (pour cast : Nat)
  | release (pour cast : Nat)
  | engineWrite (cmd : Nat) (pa : Nat) (val : DWord) (add : Bool)
  | engineCmd (cmd : Nat)
  | exitNotice (hoist : Nat) (lanes : LaneMask)
  | unpark (recPa : Nat) (index : Word) (issuer : BitVec 8) (managing : Bool)
  | kill (recPa : Nat) (issuer : BitVec 8) (managing : Bool)
  | pinDown (pa : Nat)
  /-- lanes of a hoist that arrive at a barrier of the cast from another core, with what `BarWait` keeps of those that wait (R352) -/
  | arrive (cast bar hoist : Nat) (lanes : LaneMask) (count : Nat) (sync : Bool) (pc next : DWord)
  /-- a pour request on its way to the waiting list of the record's hearth (R299, R356) -/
  | pourRequest (recPa : Nat) (ctx : BitVec 8) (reserved : Bool)
  /-- PARK or HALT of a fragment asks the cast's launch hearth, which keeps the wake bit and the held bit (R408) -/
  | parkNote (cast frag : Nat)
  | ingot (frag : Nat) (lsel : BitVec 8) (len : Nat) (anchor : Bool)
  | engineRead (cmd : Nat) (pas : List Nat)
  | drainRequest (gc count frag : Nat)
  | ack (src tgt : Nat) (seq : Word) (refused : Bool)
  /-- what an engine has asked for; `coll` says that it is the collective engine -/
  | readData (cmd : Nat) (coll : Bool) (bytes : List (Byte × Bool))
  | drainAnswer (frag : Nat)
  | stallHint (targets : List Nat)
  | landing (frag : Nat)
  | ackRequest (src tgt requester : Nat)
  /-- what the launch hearth answers to PARK or HALT: the cast parks, or the wake bit was there to be consumed (R408) -/
  | parkAnswer (cast frag : Nat) (parks : Bool)
  /-- a barrier has opened for lanes that wait away from the anchor (R352) -/
  | opened (hoist : Nat) (lanes : LaneMask) (pc next : DWord)
  | contribution (win : Nat) (wgen : Byte) (home port : Nat) (elems : List Contrib) (replace : Option Bool) (flushed : Bool)
  | merged (win : Nat) (wgen : Byte) (home ofs round : Nat) (val : DWord) (poison replace flushed : Bool)
  deriving DecidableEq, Repr

/-- A packet in the fabric (R273): source (SRC), sequence, target hearth (1024 + package for that package's host link,
2048 + core for a core, 65536 + 16 × package + position for a switch), context, PASS, GEN, the sending core's packet
count (R231), and the cast it counts for (R324). -/
structure Packet where
  src  : Nat
  seq  : Word
  tgt  : Nat
  ctx  : BitVec 8
  pass : Bool
  gen  : Bool
  ord  : Nat
  cast : Option Nat
  /-- dropped after eight replays (R278): it is never applied, and holds the source's later packets -/
  lost : Bool
  /-- the failures of its flits so far (R278) -/
  fails : Nat := 0
  /-- a write with a core-class release: the releasing core and its count of packets sent (R236) -/
  rel  : Option (Nat × Nat)
  body : Body
  /-- an ingot that has found the parking area of its home full (R432) -/
  waited : Bool := false
  deriving DecidableEq, Repr

/-- A posted packet not yet acknowledged to its source (R275): source, target, sequence, the core's packet count, the
virtual address of its lowest lane and the fragment that sent it (R387), its context, the cast it counts for (R324), and its
routing generation (R295). -/
structure Unacked where
  src  : Nat
  tgt  : Nat
  seq  : Word
  ord  : Nat
  addr : DWord
  cast : Option Nat
  frag : Option Nat := none
  ctx  : BitVec 8 := 0
  gen  : Bool := false
  /-- the clock at which it was sent, or at which its source last asked for it (R275) -/
  sentAt : Nat := 0
  deriving DecidableEq, Repr

/-- The engines of a core that take commands (R260). -/
inductive Engine where
  | copy | bank | coll
  deriving DecidableEq, Repr

/-- Where a command stands. -/
inductive CmdStage where
  | active | pinning | sent | results | finishing | feeding | done
  deriving DecidableEq, Repr

/-- A command an engine has accepted (R260): its 64-byte record, its progress, its status (R261), the translated completion
word, the table entries it has pinned and those it has still to pin (R388), and the 64 KiB virtual pages it has translated.
Progress is, for a copy, a row and a byte of it; for a bank command, the results written; for a collective, the elements
contributed and then the results written. `buf` holds what has been read of the segment in hand, `asked` while a read of
remote memory is out; `rows` the DRAM rows that bank engines have read, or a participant's own source; `results` the results
of a bank command, or, for each contributed element that has not landed, its round; `posted` the payload packets sent, by target and
number; `inst` the instance of a collective (R286). -/
structure Cmd where
  eng     : Engine
  stage   : CmdStage
  gc      : Nat
  cast    : Nat
  ctx     : BitVec 8
  raw     : BitVec 512
  row     : Nat
  pos     : Nat
  buf     : Option (List (Byte × Bool))
  asked   : Bool
  status  : Nat
  caddr   : Option Nat
  pins    : List Nat
  unpinned : List (Nat × DWord)
  pages   : List (Nat × Nat)
  rows    : List (Nat × List (Byte × Bool))
  results : Tab (Word × Bool)
  posted  : List (Nat × Word)
  inst    : Nat
  /-- the clock at which a collective was issued (R285, R288) -/
  since   : Nat
  deriving DecidableEq, Repr

/-! ### Cores and hearths -/

/-- A valid leaf translation held by a TLB (R384): context, page number at its own size, log2 of the page size, leaf. -/
structure TlbEnt where
  ctx  : BitVec 8
  page : Nat
  bits : Nat
  leaf : DWord
  deriving DecidableEq, Repr

/-- A stall hint active at a core (R289, R290): target hearth, and the clock at which it lapses. -/
structure Hint where
  target   : Nat
  deadline : Nat
  deriving DecidableEq, Repr

/-- A record of a core-class release (R236): the location and its bytes, the releasing core, its packet count. -/
structure RelRec where
  pa    : Nat
  size  : Nat
  gc    : Nat
  count : Nat
  deriving DecidableEq, Repr

/-- What a core keeps beside its hoists (R14): the count of packets sent toward each hearth, the posted packets not yet
acknowledged, the users of its slots and of its visitor pool, the active sets with their times (R312, R313), its TLB and
instruction cache, hints, the array's turn (R183), and its error counters (R419). -/
structure Core where
  sent    : Nat
  unacked : List Unacked
  anchors : Tab (Option Nat)
  visitors : Tab (Option Nat)
  blocks  : Tab (Option Nat)
  active  : Tab (List Nat)
  activeAt : Tab Nat
  readyAt : Tab Nat
  issuedAt : Tab Nat
  /-- the clock of the last exchange of each partition (R312) -/
  swapped : Tab Nat
  tlb     : List TlbEnt
  icache  : Tab (Option (BitVec 256))
  /-- the blocks of the instruction cache that hold a word whose check failed (R416, R418) -/
  icbad   : List Nat
  /-- HOST of contexts as the core knows it, until its next TLBINV that covers them (R377) -/
  hosts   : List (BitVec 8 × Bool)
  hints   : List Hint
  /-- the context instruction on the array: cast and context -/
  running : Option (Nat × Bool)
  /-- the clock at which the instruction on the array has run its clocks (R183, R186) -/
  arrayEnd : Nat
  /-- the context whose instruction ended last, for taking turns -/
  last    : Option (Nat × Bool)
  /-- an array given to a paired instruction that waits for the other array -/
  given   : Option (Nat × Bool)
  /-- the array has run no program instruction for a whole window, and its wake is not admitted (R361) -/
  asleep  : Bool
  /-- the instruction (cast, context, acceptance number) whose wake has been eligible at a window end without being admitted (R373) -/
  waited  : Option (Nat × Bool × Nat)
  /-- program energy of the core in the open Bellows window, in fJ (R360), and whether its array ran an instruction -/
  work    : Nat
  arrayUsed : Bool
  /-- multiply-accumulates per clock of the instruction on the array (R360) -/
  arrayMacs : Nat
  /-- in the clock that is not over yet: the energy of issue, of stack bytes and of link flits, in fJ, and the partitions that
  have issued (R360, R367) -/
  spent   : Nat
  issued  : List Nat
  /-- the ballast credits of the array (4) and of the partitions (0 to 3) (R367) -/
  credit  : Tab Rat
  counters : Tab Nat
  /-- the clock of its last record of a corrected error (R421) -/
  noted   : Option Nat
  /-- records of core-class releases on scratchpads of the core's casts (R236), keyed by 2²⁴ × cast key + offset -/
  records : List RelRec
  deriving DecidableEq, Repr

/-- A launch request in a waiting list (R299). -/
structure LaunchReq where
  ctx      : BitVec 8
  reserved : Bool
  recPa    : Nat
  deriving DecidableEq, Repr

/-- An entry of a placement queue (R308): the casts of a cast or gang, whether they resume, its admission state. -/
structure QEnt where
  pour    : Nat
  casts   : List Nat
  resume  : Bool
  order   : Nat
  waited  : Bool
  deriving DecidableEq, Repr

/-- Whose image stands in a parking area (R45, R51, R404): a parked fragment, the anchor slot of a hoist, a cast, or the
commands of an engine of a core in a context that is being saved. -/
inductive ImgOwner where
  | ingot (frag : Nat)
  | anchor (hoist : Nat)
  | cast (cast : Nat)
  | engine (gc : Nat) (eng : Engine) (ctx : BitVec 8)
  deriving DecidableEq, Repr

/-- Where an image stands: its physical address and its bytes. -/
structure Image where
  owner : ImgOwner
  pa    : Nat
  len   : Nat
  deriving DecidableEq, Repr

/-- A hearth (R12): its launch slots and lists, its placement queue, its parked arrivals, the images in its parking area, the
last sequence applied from each source, release records, walks in progress, error counters and ring counts (R419, R428). -/
structure Hearth where
  waiting  : List LaunchReq
  slots    : List Nat
  pqueue   : List QEnt
  arrivals : List Nat
  images   : List Image
  applied  : Tab Word
  records  : List RelRec
  walks    : List (BitVec 8 × Nat)
  counters : Tab Nat
  errCount : Nat
  trCount  : Nat
  /-- the clock of its last record of a corrected error (R421) -/
  noted    : Option Nat
  /-- the DRAM block that the scrub reads next (R416) -/
  scrubbed : Nat
  deriving DecidableEq, Repr

/-! ### Packages -/

/-- The ordering codes (R1). -/
inductive Grade where
  | p768 | p576 | m768
  deriving DecidableEq, Repr

/-- STATE of the host registers (R427), in the order of its codes. -/
inductive HostState where
  | reset | waitImg | verify | ready | rejected | fatal | dumpReady
  deriving DecidableEq, Repr

/-- A context descriptor (R375). -/
structure CtxDesc where
  root : DWord
  part : Byte
  flags : Byte
  deriving DecidableEq, Repr

/-- A trap-table entry (R392). -/
structure TrapEnt where
  handler : DWord
  harea   : DWord
  tpoison : Bool
  deriving DecidableEq, Repr

/-- What an input port of a switch has delivered to a round: a value with its poison mark, whether it replaces the home
word (`none` when contributions behind it disagree), and whether a part of it was flushed (R283 to R285). -/
structure RoundVal where
  port    : Nat
  val     : DWord
  poison  : Bool
  replace : Option Bool
  flushed : Bool
  deriving DecidableEq, Repr

/-- A partial round of a window element held at a switch (R282, R283, R285): window, home, offset, round, and the values
that each input port has delivered. -/
structure Round where
  win   : Nat
  home  : Nat
  ofs   : Nat
  round : Nat
  vals  : List RoundVal
  /-- the clock at which its first contribution arrived (R285) -/
  since : Nat
  deriving DecidableEq, Repr

/-- A switch of the runner (R16): its two routing banks (target key to port, R294), the rounds it holds, the rounds it has
flushed (window, home, offset, port, round; R285), and its counters (R419). -/
structure Switch where
  bank0    : Tab Nat
  bank1    : Tab Nat
  rounds   : List Round
  flushed  : List (Nat × Nat × Nat × Nat × Nat)
  counters : Tab Nat
  deriving DecidableEq, Repr

/-- A path of a window's tree at a switch (R283): the home hearth, the input ports and the output port. -/
structure TreeNode where
  switch : Nat
  home   : Nat
  ins    : List Nat
  out    : Nat
  deriving DecidableEq, Repr

/-- A reduction window at one package (R280): the 64-byte descriptor, whether it is accepted, its tree and the rounds of
each contributor so far (key: hearth and element), the instances of collectives, and those of them that end with status 5: their
participants disagree, or one of them was ended by a flush (R286, R288). -/
structure Window where
  raw     : BitVec 512
  /-- the descriptor as it was accepted, which the packets of a cleared window still go by (R280) -/
  held    : BitVec 512
  valid   : Bool
  tree    : List TreeNode
  sent    : List (Nat × Nat × Nat × Nat)
  landed  : List (Nat × Nat × Nat)
  insts   : List (Nat × Nat)
  failed  : List Nat
  deriving DecidableEq, Repr

/-- Bellows (R360 to R373): its registers and counters, the calibration firmware sets at bring-up, and the state of the
open window. Powers are in mW. -/
structure Bellows where
  riseCap  : Nat
  fallCap  : Nat
  riseLim  : Nat
  fallLim  : Nat
  /-- caps and limits written since the last window end (R371) -/
  nextRise : Nat
  nextFall : Nat
  wakeW    : Nat
  estW     : Nat
  balW     : Nat
  budget   : Nat
  windows  : Nat
  starts   : Nat
  wakes    : Nat
  defers   : Nat
  pinAdm   : Nat
  rampFlts : Nat
  balWin   : Nat
  fallOvr  : Nat
  ballast  : Tab Nat
  prevE    : Nat
  floor    : Nat
  idle     : Nat
  wMac     : Nat
  wIssue   : Nat
  wByte    : Nat
  wFlit    : Nat
  /-- the clock at which the open window began -/
  opened   : Nat
  /-- ballast energy of the open window, in fJ, and whether its capacity fell short in a clock (R367) -/
  balNow   : Nat
  shortfall : Bool
  /-- charges admitted under ballast in the open window, in mW (R364) -/
  admitted : Nat
  /-- those admitted in the clock that is not over yet, which count from the next clock (R364) -/
  soon     : Nat
  /-- unmetered admissions: the pour, the cast, the window, and the place in the admission order (R366) -/
  unmet    : List (Nat × Nat × Nat × Nat)
  deriving DecidableEq, Repr

/-- What the detector of a context's phases keeps (R291 to R293): the totals of the last sweep, how many sweeps in a row
have given them, how many have given those of the posted, request and completion classes, and whether they are balanced. -/
structure Sweep where
  totals   : List Nat
  same     : Nat
  quiet    : Nat
  balanced : Bool
  deriving DecidableEq, Repr

/-- A pre-emption request (R402): save or resume of the contexts listed, and where its completion goes. -/
structure PreReq where
  resume : Bool
  ctxs   : List (BitVec 8)
  done   : Option Nat
  fw     : Bool
  owner  : BitVec 8
  deriving DecidableEq, Repr

/-- A package (R1, R16, R19): its grade and hearth map, host registers, launch count, control-page tables, windows,
switches, Bellows, pre-emption requests, and the counters of its links (R419, R427, R428). -/
structure Pkg where
  present   : Bool
  grade     : Grade
  hmap      : BitVec 128
  aux       : Bool
  rails     : Bool
  perst     : Bool
  hostLink  : Bool
  st        : HostState
  fwver     : Word
  dbResult  : Byte
  dbBusy    : Bool
  imgAddr   : DWord
  imgLen    : DWord
  cfgAddr   : DWord
  dumpAddr  : DWord
  dumpLen   : DWord
  bufAddr   : DWord
  configured : Bool
  launches  : Nat
  ctxs      : Tab CtxDesc
  parts     : Tab Byte
  managing  : BitVec 256
  traps     : Tab TrapEnt
  wflush    : Nat
  fwpreq    : DWord
  windows   : Tab Window
  switches  : Tab Switch
  bank      : Bool
  routing   : Option (List Nat)
  bellows   : Bellows
  preempt   : List PreReq
  saving    : Bool
  completing : Option (PreReq)
  savedCtxs : BitVec 256
  fatalCtxs : BitVec 256
  links     : Tab Nat
  linkCtrs  : Tab Nat
  hostCtrs  : Tab Nat
  sweeps    : Tab Sweep
  otpCtr    : Nat
  attests   : Nat
  /-- a signature leaf of this boot is there (R426) -/
  leaf      : Bool
  /-- the SHA-256 of the image and of the configuration block in force (R426) -/
  fwHash    : BitVec 256
  cfgHash   : BitVec 256
  /-- the last reset was a warm one (R431) -/
  warm      : Bool
  /-- the clock at which its cores left reset (R28) -/
  started   : Nat
  dumpCause : Byte
  dumpScope : Byte
  /-- dumps written (R422) -/
  dumps     : Nat
  deriving DecidableEq, Repr

/-! ### Turns and the whole state -/

/-- Stored bits whose check fails when they are read (R416): a 32-byte block of DRAM; a 64-bit word of a core's scratchpads, of
a vector register, of a scalar register or of a matrix context, by its even element; a pair of predicates or of mask registers of a
hoist, by its even register; a block of a core's instruction cache; or a translation that its TLB holds. -/
inductive Soft where
  | dram (pa : Nat)
  | spad (cast ofs : Nat)
  | vreg (hoist reg lane : Nat)
  | sreg (frag reg : Nat)
  | acc (cast : Nat) (ctx : Bool) (pos : Nat)
  | preds (hoist reg : Nat)
  | masks (hoist reg : Nat)
  | icache (gc key : Nat)
  | tlb (gc entry : Nat)
  deriving DecidableEq, Repr

/-- Which agent moves next. DESIGN CHOICE (log 1). -/
inductive Turn where
  /-- partition `part` of core `gc` issues (R313) -/
  | issue (gc part : Nat)
  /-- the same, and the sequencer of its hearth accepts the local stores of the instruction before it applies them (R224, R241) -/
  | issueLate (gc part : Nat)
  /-- several partitions issue in one clock, in this order (R14, R313) -/
  | together (ps : List (Nat × Nat))
  /-- a packet reaches a port with its CLASS, its KIND or a reserved field out of range (R273): its place among the packets in
  flight, and where it is -/
  | badHeader (n place : Nat)
  /-- the host link of a package has trained again (R424) -/
  | linkUp (pkg : Nat)
  /-- the oldest pending register write of fragment `f` is made (R60) -/
  | fill (f : Nat)
  /-- clocks pass -/
  | clocks (n : Nat)
  /-- a check of stored bits fails; `lost` when it cannot be corrected (R416), and `fast` when the unit's oscillator is ahead of its nominal
  rate (R28, R421) -/
  | soft (w : Soft) (lost fast : Bool)
  /-- a step of the device or of the world outside it -/
  | event (i : Instr)
  deriving DecidableEq, Repr

/-- The frontier entry whose instruction issues: its fragment, priority and PC (R34). -/
structure Issue where
  frag : Nat
  prio : BitVec 8
  pc   : DWord
  deriving DecidableEq, Repr

/-- The state of the domain. -/
structure State where
  /-- the bytes of device memory, keyed by the physical address of R20, and of host memory with bit 49 set -/
  mem      : List Host.Cell
  /-- poison marks of memory, keyed by physical address ÷ 4 (R417) -/
  marks    : Tab Bool
  frags    : Tab Frag
  hoists   : Tab Hoist
  casts    : Tab Cast
  pours    : Tab Pour
  cores    : Tab Core
  hearths  : Tab Hearth
  pkgs     : Tab Pkg
  cmds     : Tab Cmd
  /-- the packets in flight, in the order in which they were sent -/
  net      : List Packet
  /-- the next sequence number of each source, by SRC (R274) -/
  seqs     : Tab Word
  /-- SENT and RECV of each endpoint, for each context, class and routing generation (R291, R295), keyed by
  2 × (4 × (256 × endpoint + context) + class) + generation; an endpoint is numbered like a source -/
  sentCnt  : Tab Nat
  recvCnt  : Tab Nat
  /-- posted packets of sequencers, bank engines, switches and host links that are not yet acknowledged (R275) -/
  unacked  : List Unacked
  /-- the sweeps of the old generation's counters during a change of routes (R295) -/
  oldSweep : Sweep
  nextFrag : Nat
  nextPour : Nat
  nextCmd  : Nat
  nextOrd  : Nat
  /-- clocks since reset -/
  now      : Nat
  iss      : Issue
  /-- the sequencer accepts the local stores of the instruction that issues, and applies them later (R224, R241) -/
  late     : Bool
  agenda   : List Turn
  deriving DecidableEq, Repr

/-! ### Defaults -/

/-- An unused place for a fragment. -/
def Frag.dead : Frag :=
  { live := false, hoist := 0, lanes := 0, place := .flight, entries := [], frozen := [], atEnd := [], frozenEnd := [],
    sregs := [],
    spoison := 0, vempty := 0, sempty := 0, vabsent := 0, sabsent := 0, mcopy := [], wbase := 0, loops := [], repc := 0, rep := none,
    pseq := [], drain := none, seen := none, backoff := 64, fills := [], trap := none, async := [], badWalk := [], asking := false, hinted := [],
    aim := 0, sleep := none, pause := none, pinned := [] }

/-- A hoist that does not exist. -/
def Hoist.dead : Hoist :=
  { live := false, cast := 0, index := 0, slot := 0, vregs := [], vpoison := [], preds := [], masks := [], pmarks := 0,
    mmarks := 0, exited := 0,
    held := 0, raised := 0, split := false }

/-- A context as a cast starts (R180). -/
def MCtx.empty : MCtx :=
  { bank := [], marks := [], queue := [], accepted := 0, retired := 0, leads := none, follows := none }

/-- An unbound queue (R64). -/
def Queue.unbound : Queue := { bind := 0, head := 0, tail := 0 }

/-- A barrier before its first arrival (R352). -/
def Barrier.idle : Barrier := { arrived := [], waits := [], count := none }

/-- A cast that has not been released (R323). -/
def Cast.fresh : Cast :=
  { st := .notReleased, pour := 0, index := 0, anchor := 0, started := false, psent := false, wake := false,
    held := false, parking := false, saved := false, quantum := none, granules := 0, spad := [], spoison := [], queues := [], bars := [],
    c0 := .empty, c1 := .empty, raiser := false, parkedAt := 0,
    released := 0, startedAt := 0, resuming := false }

/-- No pour. -/
def Pour.none : Pour :=
  { st := .none, pkg := 0, hearth := 0, ctx := 0, recPa := 0, raw := 0, count := 0, ncast := 0, nrel := 0, nret := 0,
    aff := .none, caddr := .none, sbPages := [], pins := [], unpinned := [], writes := [], staged := false, admits := [], resv := [],
    lastSeq := 0 }

/-- A core right after reset. DESIGN CHOICE (log 8). -/
def Core.reset : Core :=
  { sent := 0, unacked := [], anchors := [], visitors := [], blocks := [], active := [], activeAt := [],
    readyAt := [], issuedAt := [], swapped := [], tlb := [], icache := [], icbad := [], hosts := [], hints := [], running := none,
    arrayEnd := 0, last := none, given := none, asleep := true, waited := none, work := 0, arrayUsed := false, arrayMacs := 0,
    spent := 0, issued := [], credit := [], counters := [], noted := none, records := [] }

/-- A hearth right after reset. DESIGN CHOICE (log 8). -/
def Hearth.reset : Hearth :=
  { waiting := [], slots := [], pqueue := [], arrivals := [], images := [], applied := [], records := [], walks := [], counters := [],
    errCount := 0, trCount := 0, noted := none, scrubbed := 0 }

/-- No command. -/
def Cmd.none : Cmd :=
  { eng := .copy, stage := .done, gc := 0, cast := 0, ctx := 0, raw := 0, row := 0, pos := 0, buf := .none, asked := false,
    status := 0,
    caddr := .none, pins := [], unpinned := [], pages := [], rows := [], results := [], posted := [],
    inst := 0, since := 0 }

/-- Before the first sweep. -/
def Sweep.none : Sweep := { totals := [], same := 0, quiet := 0, balanced := false }

/-- A context without a partition (R375). -/
def CtxDesc.none : CtxDesc := { root := 0, part := 0xFF, flags := 0 }

/-- No handler (R392). -/
def TrapEnt.none : TrapEnt := { handler := 0, harea := 0, tpoison := false }

/-- A switch with empty routing banks. -/
def Switch.reset : Switch := { bank0 := [], bank1 := [], rounds := [], flushed := [], counters := [] }

/-- A window that is not declared. -/
def Window.clear : Window := { raw := 0, held := 0, valid := false, tree := [], sent := [], landed := [], insts := [], failed := [] }

/-- Bellows at package reset (R371, R373): limits at their caps, counters zero; the calibration holds the typical
weights of R360. DESIGN CHOICE (log 10). -/
def Bellows.reset : Bellows :=
  { riseCap := 50, fallCap := 75, riseLim := 50, fallLim := 75, nextRise := 50, nextFall := 75, wakeW := 9, estW := 0,
    balW := 0, budget := 50000, windows := 0, starts := 0, wakes := 0, defers := 0, pinAdm := 0, rampFlts := 0,
    balWin := 0, fallOvr := 0, ballast := [], prevE := 0, floor := 0, idle := 0, wMac := 250, wIssue := 1000,
    wByte := 7800, wFlit := 1300000, opened := 0, balNow := 0, shortfall := false, admitted := 0, soon := 0,
    unmet := [] }

/-- HMAP of the full grade: byte `h` holds `h` (R17). -/
def fullHmap : BitVec 128 := 0x0F0E0D0C0B0A09080706050403020100

/-- A package before any rail is up: STATE is RESET (R427), no context has a partition (R375). DESIGN CHOICE (log 6). DEDUCED (log 9). -/
def Pkg.reset : Pkg :=
  { present := true, grade := .p768, hmap := fullHmap, aux := false, rails := false, perst := false, hostLink := true,
    st := .reset, fwver := 0, dbResult := 0, dbBusy := false, imgAddr := 0, imgLen := 0, cfgAddr := 0, dumpAddr := 0,
    dumpLen := 0, bufAddr := 0, configured := false, launches := 0, ctxs := [], parts := [], managing := 0, traps := [],
    wflush := 1000, fwpreq := 0, windows := [], switches := [], bank := false, routing := none, bellows := .reset,
    preempt := [], saving := false, completing := none, savedCtxs := 0, fatalCtxs := 0, links := [], linkCtrs := [],
    hostCtrs := [], sweeps := [], otpCtr := 0, attests := 0, leaf := false, fwHash := 0, cfgHash := 0,
    warm := false, started := 0, dumpCause := 0, dumpScope := 0, dumps := 0 }

/-- A package number of the domain at which no package stands. -/
def Pkg.absent : Pkg := { Pkg.reset with present := false }

/-! ### Why a step can stop -/

/-- The reasons a step stops with a fault. DESIGN CHOICE (log 3). -/
inductive Fault where
  /-- Raised by `step` when the agenda names an instruction as if it were an event: no device does so, and the model
  leaves such an agenda without a meaning. Safe: a claim about runs holds of every agenda of events. -/
  | agendaNamesInstruction
  deriving DecidableEq, Repr

/-- The reasons a step is refused. -/
inductive Refusal where
  /-- Raised by `exec` for a row of the table whose meaning is not written yet. Safe: nothing is claimed of it. -/
  | notModelled (mnemonic : String)
  deriving DecidableEq, Repr

/-! ### Reset -/

/-- The machine right after reset: one package, no rail up, nothing in memory, no work anywhere. DESIGN CHOICE (log 5, 6). -/
def State.reset : State :=
  { mem := [], marks := [], frags := [], hoists := [], casts := [], pours := [], cores := [], hearths := [],
    pkgs := [(0, Pkg.reset)], cmds := [], net := [], seqs := [], sentCnt := [], recvCnt := [],
    unacked := [], oldSweep := .none, nextFrag := 0,
    nextPour := 0, nextCmd := 0, nextOrd := 0, now := 0, iss := { frag := 0, prio := 0, pc := 0 }, late := false,
    agenda := [] }

end Sys2Proof.Machine
end

