-- ==== Sys2Proof/WellFormed.lean ====
section
/-! DEFINITION. Which instruction terms are instructions: for each one the operand kinds, the types, the modifiers and
the shortest form that its entry accepts (R76 to R95 and the entries), checked in one place with a name for each
reason. Events are not instructions and are never well formed. -/

namespace Sys2Proof

/-- Why a word is not an instruction (R95). Each raises ILLEGAL. -/
inductive Illegal where
  /-- LEN = 0b11 (R76) -/
  | badLength
  /-- it extends past its fetch block (R77) -/
  | beyondBlock
  /-- a reserved major opcode (R93), or an event of the device -/
  | reservedMajor
  /-- a form shorter than the shortest form (R94) -/
  | shortForm
  /-- a MINOR or XMOD value the entry does not define -/
  | badModifier
  /-- a type code that is reserved or not accepted (R92) -/
  | badType
  /-- a reserved operand specifier (R84) -/
  | reservedSpecifier
  /-- a kind of operand the entry does not accept, or an odd register of a pair (R55, R85) -/
  | badKind
  /-- a queue named in an F64 encoding (R64) -/
  | queueForm
  /-- one predicate other than p0 as both destinations (R88) -/
  | samePredicate
  /-- LIT or IMM against R81 -/
  | badLiteral
  /-- a scope or order that is reserved or not accepted (R91) -/
  | badScopeOrder
  /-- a reserved or unused field that is not zero (R83) -/
  | reservedField
  deriving DecidableEq, Repr

/-- The kinds of operand an entry can accept. `v n` is a vector register whose number is a multiple of `n`. -/
inductive Kind where
  | v (n : Nat)
  | s | q | p | m | z | l
  deriving DecidableEq, Repr

/-- An operand field of an entry: reserved, or one of the kinds listed. -/
inductive Slot where
  | absent
  | kinds (ks : List Kind)
  deriving DecidableEq, Repr

/-- Does an operand have the kind? -/
def Opnd.isKind : Opnd → Kind → Bool
  | .v i, .v n => i.toNat % n = 0
  | .s _, .s => true
  | .q _, .q => true
  | .p _, .p => true
  | .m i, .m => i.toNat ≤ 11
  | .zr, .z => true
  | .lit _, .l => true
  | _, _ => false

/-- Does an operand fit the field? A reserved field has no operand. -/
def Slot.fits (sl : Slot) (o : Opnd) : Bool :=
  match sl with
  | .absent => decide (o = Opnd.none)
  | .kinds ks => ks.any o.isKind

/-- The bits of a type (R92). -/
def Ty.bits : Ty → Nat
  | .b32 | .n32 | .i32 | .f32 | .tf32 | .f16x2 | .bf16x2 => 32
  | .n64 | .i64 | .b64 => 64
  | .n16 | .i16 | .b16 | .f16 | .bf16 => 16
  | .n8 | .i8 | .b8 | .e4m3 | .e5m2 | .e3m5 => 8
  | .e2m1 => 4
  | .n24 | .i24 => 24

/-- INT of R138. -/
def Ty.isInt (t : Ty) : Bool := t ∈ [.i8, .n8, .i16, .n16, .i32, .n32]
/-- INT24 of R138. -/
def Ty.isInt24 (t : Ty) : Bool := t ∈ [.i24, .n24]
/-- I32 and N32. -/
def Ty.is32 (t : Ty) : Bool := t ∈ [.i32, .n32]
/-- F32, F16 and BF16. -/
def Ty.isFlt (t : Ty) : Bool := t ∈ [.f32, .f16, .bf16]
/-- The types of CVT (R172). -/
def Ty.isCvt (t : Ty) : Bool :=
  t ∈ [.f32, .f16, .bf16, .e4m3, .e5m2, .i8, .n8, .i16, .n16, .i24, .n24, .i32, .n32, .i64, .n64]
/-- The types of ASTS and ARD (R202). -/
def Ty.isAsts (t : Ty) : Bool :=
  t ∈ [.f32, .f16, .bf16, .e4m3, .e5m2, .i32, .n32, .i16, .n16, .i8, .n8, .b32]
/-- The types of LD (R246). -/
def Ty.isLd (t : Ty) : Bool := t ∈ [.b8, .i8, .n8, .b16, .i16, .n16, .b32, .b64]
/-- The types of ST (R246). -/
def Ty.isSt (t : Ty) : Bool := t ∈ [.b8, .b16, .b32, .b64]
/-- B32 and B64. -/
def Ty.isBw (t : Ty) : Bool := t ∈ [.b32, .b64]
/-- Whether a type is 64 bits wide. -/
def Ty.wide (t : Ty) : Bool := t.bits = 64

/-- What an entry asks of an instruction: its operand fields, its shortest form without a literal, whether LSEL is
meaningful (R90), and whether its types and modifiers are accepted. -/
structure Rule where
  d : Slot := .absent
  d2 : Slot := .absent
  a : Slot := .absent
  b : Slot := .absent
  c : Slot := .absent
  short : Form := .f64
  bad : Option Illegal := Option.none
  deriving DecidableEq, Repr

/-- A value operand (R137). -/
def Slot.val (w64 : Bool) : Slot := .kinds (if w64 then [.v 2, .s, .z] else [.v 1, .s, .p, .m, .z])
/-- A value source B (R137). -/
def Slot.valB (w64 : Bool) : Slot := .kinds (if w64 then [.v 2, .s, .z, .l] else [.v 1, .s, .p, .m, .z, .l])
/-- A predicate-role operand (R137). -/
def Slot.pred : Slot := .kinds [.p, .z]
/-- A uniform source B (R137). -/
def Slot.uni : Slot := .kinds [.s, .m, .z, .l]
/-- A vector, a scalar or zr, of one register or a pair. -/
def Slot.vsz (w64 : Bool) : Slot := .kinds [.v (if w64 then 2 else 1), .s, .z]
/-- A scalar register. -/
def Slot.sreg : Slot := .kinds [.s]
/-- The index of a memory operand (R243). -/
def Slot.index : Slot := .kinds [.v 1, .s, .z, .l]
/-- A link, an even pair or zr (R333). -/
def Slot.link : Slot := .kinds [.v 2, .z]
/-- A link source or target: an even pair or a scalar (R333). -/
def Slot.target : Slot := .kinds [.v 2, .s]
/-- An even pair or a scalar (R149, R412). -/
def Slot.pairOrS : Slot := .kinds [.v 2, .s]
/-- A literal only (R333). -/
def Slot.literal : Slot := .kinds [.l]
/-- A mask register. -/
def Slot.mask : Slot := .kinds [.m]

/-- `none` when `b` holds, else the reason. -/
def must (b : Bool) (e : Illegal) : Option Illegal := if b then Option.none else some e

/-- The scope-and-order byte is accepted: the orders listed, and PROMOTE only with an acquire (R91). -/
def ScopeOrder.ok (x : ScopeOrder) (orders : List MemOrder) : Bool :=
  (x.order ∈ orders) && (!x.promote || x.order = .acquire || x.order = .acqRel)

/-- Both reasons, the first first. -/
def both (x y : Option Illegal) : Option Illegal := x.orElse fun _ => y

/-- The predicate D2 of an instruction whose F64 form has none (R78). -/
def d2In (f : Form) (sl : Slot) : Slot := if f = .f64 then .absent else sl

/-- The words that a count of LDX or STX stands for. -/
def XCount.n : XCount → Nat
  | .x2 => 2 | .x4 => 4 | .x8 => 8

/-- A type and operation of ATOM and RED go together (R250). -/
def AtomOp.accepts (op : AtomOp) (t : Ty) : Bool :=
  match op with
  | .add | .min | .max => t ∈ [.i32, .n32, .i64, .n64, .f32]
  | .and | .or | .xor | .exch => t ∈ [.b32, .b64]

/-- An operation and type of SCAN and LFOLD go together (R158). -/
def FoldOp.accepts (op : FoldOp) (t : Ty) : Bool :=
  match op with
  | .add | .min | .max => t ∈ [.i32, .n32, .f32]
  | .and | .or | .xor => t = .b32

/-- The two-source shape D, A, B of 32-bit values. -/
def Rule.dab (w64 : Bool) (bad : Option Illegal) : Rule :=
  { d := .val w64, a := .val w64, b := .valB w64, bad }
/-- The three-source shape D, A, B, C. -/
def Rule.dabc (w64 : Bool) (bad : Option Illegal) : Rule :=
  { d := .val w64, a := .val w64, b := .valB w64, c := .val w64, bad }
/-- The one-source shape D, A. -/
def Rule.da (w64 : Bool) (bad : Option Illegal) : Rule := { d := .val w64, a := .val w64, bad }
/-- The shape of a compare: two predicate destinations and two sources (R152). -/
def Rule.cmp (w64 : Bool) (bad : Option Illegal) : Rule :=
  { d := .pred, d2 := .pred, a := .val w64, b := .valB w64, short := .f96, bad }
/-- A context instruction without operands (R201). -/
def Rule.bare : Rule := { short := .f96 }
/-- A memory operand with its own destination and sources (R243). -/
def Rule.mem (d d2 c : Slot) (bad : Option Illegal) : Rule :=
  { d, d2, a := .sreg, b := .index, c, short := .f96, bad }

/-- LSEL of an instruction that cannot migrate is reserved (R90). -/
def noLsel (l : BitVec 4) : Option Illegal := must (l = 0) .reservedField

/-- The rounding modes that R162 accepts. -/
def Rm.plain (r : Rm) : Bool := r ≠ .sr

/-- A special register of R71, by number. -/
def isSpecial (n : BitVec 8) : Bool := n.toNat ≤ 0x13 || (0x20 ≤ n.toNat && n.toNat ≤ 0x23)
/-- A special register that is 64 bits wide (R71). -/
def wideSpecial (n : BitVec 8) : Bool := n = 0x06 || n = 0x0F || n = 0x21 || n = 0x23
/-- A system register that MOVSP reads beside those of R71 (R398). -/
def isSystem (n : BitVec 8) : Bool :=
  n = 0x24 || n = 0x25 || (0x28 ≤ n.toNat && n.toNat ≤ 0x2C) || n = 0x30
/-- A system register that is 64 bits wide (R398). -/
def wideSystem (n : BitVec 8) : Bool := wideSpecial n || (0x28 ≤ n.toNat && n.toNat ≤ 0x2C)
/-- A system register that MOVSP writes (R398). -/
def isWritable (n : BitVec 8) : Bool := n = 0x21 || n = 0x24 || (0x28 ≤ n.toNat && n.toNat ≤ 0x2B)

/-- The rule of each instruction in form `f`; `none` for an event. DEDUCED (log 104). DESIGN CHOICE (log 126). -/
def Instr.rule (f : Form) : Instr → Option Rule
  | .iadd _ _ t _ | .isub _ _ t _ | .imin _ _ t | .imax _ _ t => some (.dab false (must t.isInt .badType))
  | .iaddc _ _ t | .isubb _ _ t =>
    some { Rule.dab false (must t.is32 .badType) with d2 := .pred, c := .pred, short := .f96 }
  | .ineg _ _ t _ => some (.da false (must t.isInt .badType))
  | .iabs _ _ t _ => some (.da false (must (t ∈ [.i8, .i16, .i32]) .badType))
  | .imul24 _ _ t _ => some (.dab false (must t.isInt24 .badType))
  | .imad24 _ _ t => some (.dabc false (must t.isInt24 .badType))
  | .imul _ _ t | .imulhi _ _ t => some (.dab false (must t.is32 .badType))
  | .imad _ _ t => some (.dabc false (must t.is32 .badType))
  | .idot4 _ _ _ _ _ => some (.dabc false none)
  | .isad _ _ t | .iclamp _ _ t => some (.dabc false (must t.isInt .badType))
  | .and _ _ w | .or _ _ w | .xor _ _ w | .andn _ _ w => some (.dab w none)
  | .not _ _ w | .brev _ _ w => some (.da w none)
  | .bool3 _ _ w _ => some (.dabc w none)
  | .shl _ _ _ | .shr _ _ _ | .sar _ _ _ | .rotl _ _ => some (.dab false none)
  | .funnel _ _ _ | .bfi _ _ => some (.dabc false none)
  | .bfe _ _ _ => some (.dab false none)
  | .popc _ _ w | .clz _ _ w | .ctz _ _ w => some { d := .val false, a := .val w }
  | .mov _ o w l =>
    let q : Bool := (match o.d with | .q _ => true | _ => false) != (match o.a with | .q _ => true | _ => false)
    let ks : List Kind := if w then [.v 2, .s, .z, .q] else [.v 1, .s, .p, .m, .z, .q]
    let qq : Bool := match o.d, o.a with | .q _, .q _ => true | _, _ => false
    some { d := .kinds ks, a := .kinds ks, short := if q then .f96 else .f64,
           bad := both (must (!qq) .badKind) (must (q || l = 0) .reservedField) }
  | .movi _ _ w hi => some { d := .val w, b := .literal, bad := must (w || !hi) .badModifier }
  | .sel _ _ w => some { Rule.dab w none with c := .pred }
  | .add64 _ _ t | .sub64 _ _ t => some (.dab true (must (t ∈ [.i64, .n64, .b64]) .badType))
  | .lea _ _ _ _ => some { d := .val true, a := .val true, b := .valB false }
  | .shl64 _ _ _ | .shr64 _ _ _ _ => some (.dab true none)
  | .icmp _ _ t c _ =>
    some (.cmp false (both (must (t.isInt || t = .b32) .badType)
      (must (c ∉ [.num, .nan] && (t ≠ .b32 || c = .eq || c = .ne)) .badModifier)))
  | .icmp64 _ _ t c _ =>
    some (.cmp true (both (must (t ∈ [.i64, .n64, .b64]) .badType)
      (must (c ∉ [.num, .nan] && (t ≠ .b64 || c = .eq || c = .ne)) .badModifier)))
  | .pbool _ _ _ _ => some { d := .pred, d2 := .pred, a := .pred, b := .pred, c := .pred, short := .f96 }
  | .pmov _ _ .bit => some { d := .pred, a := .val false }
  | .pmov _ _ .pack => some { d := .val false, a := .kinds [.z] }
  | .pmov _ _ .unpack => some { a := .val false }
  | .movs _ _ n => some { d := if wideSpecial n then .pairOrS else .val false, bad := must (isSpecial n) .badModifier }
  | .rdlane _ _ w => some { d := .val w, a := .kinds [.v (if w then 2 else 1)], b := .uni }
  | .wrlane _ _ w =>
    some { d := .kinds [.v (if w then 2 else 1)], a := .kinds (if w then [.s, .z] else [.s, .m, .z]), b := .uni }
  | .xlane _ _ w _ seg =>
    some { d := .val w, d2 := d2In f .pred, a := .val w, b := .valB false, c := .val w,
           bad := must (seg.toNat ≤ 5) .badModifier }
  | .bfly _ _ w _ => some { d := .val w, d2 := d2In f .pred, a := .val w, b := .uni, c := .val w }
  | .pmask _ _ => some { d := .kinds [.v 1, .s, .m, .z], a := .pred }
  | .ltest _ _ tst _ =>
    some { d := .pred, d2 := .pred, short := .f96,
           a := match tst with | .same32 => .val false | .same64 => .val true | _ => .pred }
  | .scan _ _ t op _ => some (.da false (must (op.accepts t) .badType))
  | .lfold _ _ t op => some (.da false (must (op.accepts t) .badType))
  | .matchKeys _ _ t num =>
    some { d := .kinds [.v 1, .s, .m], d2 := d2In f .pred, a := .val t.wide,
           bad := must (if num then t.isFlt else t.isBw) .badType }
  | .fadd _ _ t r _ | .fsub _ _ t r _ | .fmul _ _ t r _ | .fldexp _ _ t r _ =>
    some (.dab false (both (must t.isFlt .badType) (must r.plain .badModifier)))
  | .ffma _ _ t r _ => some (.dabc false (both (must t.isFlt .badType) (must r.plain .badModifier)))
  | .fmin _ _ t _ | .fmax _ _ t _ => some (.dab false (must t.isFlt .badType))
  | .fcmp _ _ t _ _ => some (.cmp false (must t.isFlt .badType))
  | .fclass _ _ t true pct =>
    some { d := .val false, a := .val false, bad := both (must t.isFlt .badType) (must (pct = ⟨.set, false⟩) .reservedField) }
  | .fclass _ _ t false _ =>
    some { d := .pred, d2 := .pred, a := .val false, b := .valB false, short := .f96, bad := must t.isFlt .badType }
  | .frnd _ _ t r => some (.da false (both (must t.isFlt .badType) (must r.plain .badModifier)))
  | .frcp _ _ | .frsq _ _ | .fexp2 _ _ | .flog2 _ _ | .fsin _ _ | .fcos _ _ | .ftanh _ _ => some (.da false none)
  | .fsqrt _ _ r _ => some (.da false (must r.plain .badModifier))
  | .fdiv _ _ r _ => some (.dab false (must r.plain .badModifier))
  | .pkadd _ _ _ r _ | .pkmul _ _ _ r _ => some (.dab false (must r.plain .badModifier))
  | .pkfma _ _ _ r _ | .fdot2 _ _ _ r _ | .fdot4 _ _ _ r _ _ => some (.dabc false (must r.plain .badModifier))
  | .pkmin _ _ _ _ | .pkmax _ _ _ _ => some (.dab false none)
  | .pkcmp _ _ _ _ => some (.cmp false none)
  | .cvt _ _ t s r _ tfp =>
    some { d := .val t.wide, a := .val s.wide, c := if r = .sr then .val false else .absent, short := .f96,
           bad := both (must (t.isCvt && s.isCvt) .badType) (must (!tfp || (t = .f32 && s = .f32)) .badModifier) }
  | .pack8 _ _ _ r _ _ => some (.dabc false (must r.plain .badModifier))
  | .pack4 _ _ r =>
    some { d := .val false, d2 := d2In f (.val false), a := .val false, b := .valB false,
           bad := must r.plain .badModifier }
  | .unpack8 _ _ t _ _ => some (.da false (must t.isFlt .badType))
  | .unpack4 _ _ t _ => some (.dab false (must t.isFlt .badType))
  | .bscale _ _ => some (.da false none)
  | .hash32 _ _ => some (.dab false none)
  | .mma _ _ _ _ _ | .mmas _ _ _ _ _ _ | .mmal _ _ _ _ _ =>
    some { a := .sreg, b := .sreg, c := .vsz false, short := .f96 }
  | .lutb _ _ _ _ => some { a := .kinds [.v 1], b := .uni, short := .f96 }
  | .comp48 _ _ t _ =>
    some { d := .kinds [.v 1], d2 := .kinds [.v 1], a := .kinds [.v 1], b := .kinds [.v 1], c := .kinds [.v 1, .z],
           short := .f96, bad := must (t ∈ [.i8, .n8, .e4m3, .e5m2]) .badType }
  | .aclr _ _ _ _ | .mfree _ _ _ _ | .mwait _ _ _ _ => some .bare
  | .alds _ _ t _ _ => some { a := .sreg, short := .f96, bad := must (t ∈ [.b32, .f16, .bf16, .i16, .i8]) .badType }
  | .asts _ _ t _ _ => some { a := .sreg, c := .vsz false, short := .f96, bad := must t.isAsts .badType }
  | .amrg _ _ _ so _ =>
    some { b := .uni, c := .vsz false, short := .f96,
           bad := must (so.ok [.relaxed, .release] && !so.promote && !so.pass) .badScopeOrder }
  | .mbind _ _ _ _ _ => some { b := .uni, short := .f96 }
  | .ard _ _ t _ _ => some { d := .kinds [.v 1], b := .uni, c := .vsz false, short := .f96, bad := must t.isAsts .badType }
  | .ld _ _ t x | .lds _ _ t x =>
    some (.mem (.val t.wide) .absent .absent (both (must t.isLd .badType) (must (x.so.ok [.relaxed, .acquire]) .badScopeOrder)))
  | .st _ _ t x =>
    some (.mem .absent .absent (.val t.wide)
      (both (must t.isSt .badType) (both (must (x.so.ok [.relaxed, .release]) .badScopeOrder) (noLsel x.lsel))))
  | .sts _ _ t x =>
    some (.mem .absent .absent (.val t.wide)
      (both (must t.isSt .badType) (must (x.so.ok [.relaxed, .release]) .badScopeOrder)))
  | .ldx _ _ n x =>
    some (.mem (.kinds [.v n.n, .z]) .absent .absent (must (x.so.ok [.relaxed, .acquire]) .badScopeOrder))
  | .stx _ _ n x =>
    some (.mem .absent .absent (.kinds [.v n.n, .z])
      (both (must (x.so.ok [.relaxed, .release]) .badScopeOrder) (noLsel x.lsel)))
  | .atom _ _ t op x | .atoms _ _ t op x =>
    some (.mem (.val t.wide) .absent (.val t.wide)
      (both (must (op.accepts t) .badType)
        (must (x.so.ok [.relaxed, .acquire, .release, .acqRel]) .badScopeOrder)))
  | .red _ _ t op x =>
    some (.mem .absent .absent (.val t.wide)
      (both (both (must (op ≠ .exch) .badModifier) (must (op.accepts t) .badType))
        (both (must (x.so.ok [.relaxed, .release]) .badScopeOrder) (noLsel x.lsel))))
  | .cas _ _ t x =>
    some (.mem (.vsz t.wide) .pred (.val t.wide)
      (both (must t.isBw .badType) (must (x.so.ok [.relaxed, .acquire, .release, .acqRel]) .badScopeOrder)))
  | .fence _ _ so =>
    some { short := .f96,
           bad := must (so.ok [.acquire, .release, .acqRel] && !so.promote && !so.pass) .badScopeOrder }
  | .waita _ _ t x | .poll _ _ t x =>
    some (.mem (.val t.wide) .pred (.val t.wide)
      (both (must t.isBw .badType) (must (x.so.ok [.relaxed, .acquire]) .badScopeOrder)))
  | .home _ _ _ _ => some (.mem (.val false) .absent .absent none)
  | .go _ _ _ _ _ => some (.mem .absent .absent .absent none)
  | .goAnchor _ _ _ => some { a := .kinds [.z], b := .kinds [.z], short := .f96 }
  | .cpy _ _ _ | .bkop _ _ _ | .coll _ _ _ => some { b := .uni, short := .f96 }
  | .puts _ _ t x =>
    some (.mem .sreg .absent (.val t.wide)
      (both (must t.isBw .badType) (both (must (x.so.ok [.relaxed, .release]) .badScopeOrder) (noLsel x.lsel))))
  | .enq _ _ w nb _ =>
    some { d := .kinds [.q], d2 := if nb then .pred else .absent, a := .val w, short := .f96 }
  | .enqBind _ _ _ => some { d := .kinds [.q], a := .sreg, short := .f96 }
  | .deq _ _ w nb _ => some { d := .val w, d2 := if nb then .pred else .absent, a := .kinds [.q], short := .f96 }
  | .qstat _ _ fld _ => some { d := .val (fld = .bind), a := .kinds [.q], short := .f96 }
  | .bra _ _ _ _ => some { b := .literal, short := .f96 }
  | .brx _ _ _ => some { d := .link, a := .target, short := .f96 }
  | .call _ _ sh _ _ => some { d := .link, b := .literal, short := .f96, bad := must (sh ≠ 0) .badModifier }
  | .callx _ _ sh _ _ => some { d := .link, a := .target, short := .f96, bad := must (sh ≠ 0) .badModifier }
  | .ret _ _ _ => some { a := .target, short := .f96 }
  | .loop _ o _ =>
    some { a := .kinds [.s, .m, .z], b := .literal, short := .f96,
           bad := match o.b with
             | .lit x => must (decide (16 ≤ x.toInt) && x.toNat % 4 = 0) .badModifier
             | _ => none }
  | .rep _ _ _ _ _ _ => some { b := .uni }
  | .join _ _ _ | .leave _ _ _ | .waitm _ _ _ => some { a := .mask, short := .f96 }
  | .mset _ _ mode _ => some { d := .mask, b := if mode = .em then .absent else .uni, short := .f96 }
  | .emset _ _ _ => some { b := .uni, short := .f96 }
  | .bar _ _ _ _ | .sleep _ _ => some { b := .uni }
  | .yield _ _ | .exit _ _ | .raise _ _ | .nop _ _ | .trap _ _ _ | .bkpt _ _ | .park _ _ => some {}
  | .pour _ _ => some { a := .sreg }
  | .pourw _ _ _ => some { d := .vsz false, a := .sreg, short := .f96 }
  | .movspRead _ _ n =>
    some { d := .vsz (wideSystem n), short := .f96, bad := must (isSpecial n || isSystem n) .badModifier }
  | .movspWrite _ _ n => some { b := .uni, short := .f96, bad := must (isWritable n) .badModifier }
  | .rft _ _ t | .halt _ _ t => some { a := if t = .to then .sreg else .absent }
  | .tlbinv _ _ _ sc | .icinv _ _ _ sc =>
    some { a := .kinds [.s, .z], b := .uni, short := .f96, bad := must (sc ≠ .hoist && sc ≠ .cast) .badScopeOrder }
  | .unpark _ _ => some { a := .sreg, b := .uni }
  | .govset _ _ => some { d := .vsz false, b := .uni }
  | .errrd _ _ => some { d := .pairOrS, b := .uni }
  | .preq _ _ _ _ => some { a := .kinds [.s, .z], b := .uni }
  | .kill _ _ => some { a := .sreg }
  | _ => Option.none

/-- The header and the operands of an instruction; `none` for an event of the device. -/
def Instr.head : Instr → Option (Hdr × Ops)
  | .rotl h o | .bfi h o | .pmask h o | .frcp h o | .frsq h o | .fexp2 h o | .flog2 h o | .fsin h o | .fcos h o
  | .ftanh h o | .bscale h o | .hash32 h o | .yield h o | .exit h o | .raise h o | .pour h o | .nop h o
  | .bkpt h o | .sleep h o | .park h o | .unpark h o | .govset h o | .errrd h o | .kill h o => some (h, o)
  | .iaddc h o _ | .isubb h o _ | .imin h o _ | .imax h o _ | .imad24 h o _ | .imul h o _ | .imulhi h o _
  | .imad h o _ | .isad h o _ | .iclamp h o _ | .and h o _ | .or h o _ | .xor h o _ | .not h o _ | .andn h o _
  | .shl h o _ | .shr h o _ | .sar h o _ | .funnel h o _ | .bfe h o _ | .popc h o _ | .clz h o _ | .brev h o _
  | .ctz h o _ | .sel h o _ | .add64 h o _ | .sub64 h o _ | .shl64 h o _ | .pmov h o _ | .movs h o _
  | .rdlane h o _ | .wrlane h o _ | .pack4 h o _ | .fence h o _ | .goAnchor h o _ | .cpy h o _ | .bkop h o _
  | .coll h o _ | .enqBind h o _ | .brx h o _ | .ret h o _ | .loop h o _ | .join h o _ | .leave h o _
  | .waitm h o _ | .emset h o _ | .pourw h o _ | .trap h o _ | .movspRead h o _ | .movspWrite h o _
  | .rft h o _ | .halt h o _ => some (h, o)
  | .iadd h o _ _ | .isub h o _ _ | .ineg h o _ _ | .iabs h o _ _ | .imul24 h o _ _ | .bool3 h o _ _
  | .mov h o _ _ | .movi h o _ _ | .lea h o _ _ | .shr64 h o _ _ | .pbool h o _ _ | .bfly h o _ _
  | .ltest h o _ _ | .lfold h o _ _ | .matchKeys h o _ _ | .fmin h o _ _ | .fmax h o _ _ | .frnd h o _ _
  | .fsqrt h o _ _ | .fdiv h o _ _ | .pkmin h o _ _ | .pkmax h o _ _ | .pkcmp h o _ _ | .unpack4 h o _ _
  | .lutb h o _ _ | .comp48 h o _ _ | .aclr h o _ _ | .mfree h o _ _ | .mwait h o _ _ | .ld h o _ _
  | .st h o _ _ | .lds h o _ _ | .sts h o _ _ | .ldx h o _ _ | .stx h o _ _ | .cas h o _ _ | .waita h o _ _
  | .poll h o _ _ | .home h o _ _ | .puts h o _ _ | .qstat h o _ _ | .bra h o _ _ | .mset h o _ _
  | .bar h o _ _ | .tlbinv h o _ _ | .icinv h o _ _ | .preq h o _ _ => some (h, o)
  | .idot4 h o _ _ _ | .icmp h o _ _ _ | .icmp64 h o _ _ _ | .xlane h o _ _ _ | .scan h o _ _ _
  | .fadd h o _ _ _ | .fsub h o _ _ _ | .fmul h o _ _ _ | .ffma h o _ _ _ | .fcmp h o _ _ _ | .fclass h o _ _ _
  | .fldexp h o _ _ _ | .pkadd h o _ _ _ | .pkmul h o _ _ _ | .pkfma h o _ _ _ | .fdot2 h o _ _ _
  | .unpack8 h o _ _ _ | .mma h o _ _ _ | .mmal h o _ _ _ | .alds h o _ _ _ | .asts h o _ _ _ | .amrg h o _ _ _
  | .mbind h o _ _ _ | .ard h o _ _ _ | .atom h o _ _ _ | .atoms h o _ _ _ | .red h o _ _ _ | .go h o _ _ _
  | .enq h o _ _ _ | .deq h o _ _ _ | .call h o _ _ _ | .callx h o _ _ _ => some (h, o)
  | .fdot4 h o _ _ _ _ | .pack8 h o _ _ _ _ | .mmas h o _ _ _ _ | .rep h o _ _ _ _ => some (h, o)
  | .cvt h o _ _ _ _ _ => some (h, o)
  | _ => Option.none

/-- The length of a form in bytes (R76). -/
def Form.bytes : Form → Nat
  | .f64 => 8 | .f96 => 12 | .f128 => 16

/-- Whether an operand is a queue. -/
def Opnd.isQ : Opnd → Bool
  | .q _ => true | _ => false

/-- Whether an operand is the literal. -/
def Opnd.isLit : Opnd → Bool
  | .lit _ => true | _ => false

/-- A predicate other than p0 named in both places (R88). -/
def Opnd.samePred : Opnd → Opnd → Bool
  | .p i, .p j => i = j && i ≠ 0
  | _, _ => false

/-- Mask registers m12 to m15 do not exist (R84). -/
def Opnd.reservedMask : Opnd → Bool
  | .m i => 11 < i.toNat | _ => false

/-- Whether the instruction writes two complementary predicates (R87, R88; PKCMP under R170). -/
def Instr.twoPreds : Instr → Bool
  | .icmp .. | .icmp64 .. | .pbool .. | .ltest .. | .fcmp .. | .pkcmp .. => true
  | .fclass _ _ _ val _ => !val
  | _ => false

/-- The reasons, in a fixed order, for which an instruction with header `h`, operands `o` and rule `r` is not one. -/
def Rule.check (r : Rule) (h : Hdr) (o : Ops) (two : Bool) : Option Illegal :=
  both (must (decide (r.short.bytes ≤ h.form.bytes)) .shortForm) <|
  both (must (!(o.b.isLit && h.form ≠ .f128)) .badLiteral) <|
  both (must (!((o.d.isQ || o.a.isQ) && h.form = .f64)) .queueForm) <|
  both (must (!(o.d.reservedMask || o.d2.reservedMask || o.a.reservedMask || o.b.reservedMask || o.c.reservedMask))
    .reservedSpecifier) <|
  both r.bad <|
  both (must (r.d.fits o.d && r.d2.fits o.d2 && r.a.fits o.a && r.b.fits o.b && r.c.fits o.c) .badKind) <|
  both (must (!(two && o.d.samePred o.d2)) .samePredicate) <|
  must ((r.a ≠ .absent || !h.ea) && (r.b ≠ .absent || !h.eb) && (r.c ≠ .absent || !h.ec)) .reservedField

/-- `none` when the term is an instruction, else the first reason against it. DEDUCED (log 105). -/
def Instr.check (i : Instr) : Option Illegal :=
  match i.head with
  | Option.none => some .reservedMajor
  | some (h, o) =>
    match i.rule h.form with
    | Option.none => some .reservedMajor
    | some r => r.check h o i.twoPreds

/-- The term is an instruction. DEDUCED (log 105). -/
def WellFormed (i : Instr) : Prop := i.check = Option.none

end Sys2Proof
end

