-- ==== Sys2Proof/Machine/Ops.lean ====
section
/-! DEFINITION. The named operations that every meaning is built from: access to the parts of the state, bytes and
poison marks of memory, error records, the frontier of a fragment (R34), waiting, ending a pour, taking a trap and
returning from one (R394, R395, R400). -/

namespace Sys2Proof.Machine

/-! ### Parts of the state -/

/-- Fragment `f`. -/
def State.frag (s : State) (f : Nat) : Frag := Sparse.get .dead s.frags f
/-- Hoist `k` (32 × cast key + index). -/
def State.hoist (s : State) (k : Nat) : Hoist := Sparse.get .dead s.hoists k
/-- Cast `c` (pour × 2⁶⁴ + linear index). -/
def State.cast (s : State) (c : Nat) : Cast := Sparse.get .fresh s.casts c
/-- Pour `p`, by the model's own number. -/
def State.pour (s : State) (p : Nat) : Pour := Sparse.get .none s.pours p
/-- Core `gc`. -/
def State.core (s : State) (gc : Nat) : Core := Sparse.get .reset s.cores gc
/-- Hearth `gh`. -/
def State.hearth (s : State) (gh : Nat) : Hearth := Sparse.get .reset s.hearths gh
/-- Package `p`. -/
def State.pkg (s : State) (p : Nat) : Pkg := Sparse.get .absent s.pkgs p
/-- Engine command `c`. -/
def State.cmd (s : State) (c : Nat) : Cmd := Sparse.get .none s.cmds c

/-- Replace a fragment. -/
def State.setFrag (s : State) (f : Nat) (x : Frag) : State := { s with frags := Sparse.set .dead s.frags f x }
/-- Replace a hoist. -/
def State.setHoist (s : State) (k : Nat) (x : Hoist) : State := { s with hoists := Sparse.set .dead s.hoists k x }
/-- Replace a cast. -/
def State.setCast (s : State) (c : Nat) (x : Cast) : State := { s with casts := Sparse.set .fresh s.casts c x }
/-- Replace a pour. -/
def State.setPour (s : State) (p : Nat) (x : Pour) : State := { s with pours := Sparse.set .none s.pours p x }
/-- Replace a core. -/
def State.setCore (s : State) (gc : Nat) (x : Core) : State := { s with cores := Sparse.set .reset s.cores gc x }
/-- Replace a hearth. -/
def State.setHearth (s : State) (gh : Nat) (x : Hearth) : State :=
  { s with hearths := Sparse.set .reset s.hearths gh x }
/-- Replace a package. -/
def State.setPkg (s : State) (p : Nat) (x : Pkg) : State := { s with pkgs := Sparse.set .absent s.pkgs p x }
/-- Replace a command. -/
def State.setCmd (s : State) (c : Nat) (x : Cmd) : State := { s with cmds := Sparse.set .none s.cmds c x }

/-- Change a fragment. -/
def State.modFrag (s : State) (f : Nat) (g : Frag → Frag) : State := s.setFrag f (g (s.frag f))
/-- Change a hoist. -/
def State.modHoist (s : State) (k : Nat) (g : Hoist → Hoist) : State := s.setHoist k (g (s.hoist k))
/-- Change a cast. -/
def State.modCast (s : State) (c : Nat) (g : Cast → Cast) : State := s.setCast c (g (s.cast c))
/-- Change a pour. -/
def State.modPour (s : State) (p : Nat) (g : Pour → Pour) : State := s.setPour p (g (s.pour p))
/-- Change a core. -/
def State.modCore (s : State) (gc : Nat) (g : Core → Core) : State := s.setCore gc (g (s.core gc))
/-- Change a hearth. -/
def State.modHearth (s : State) (gh : Nat) (g : Hearth → Hearth) : State := s.setHearth gh (g (s.hearth gh))
/-- Change a package. -/
def State.modPkg (s : State) (p : Nat) (g : Pkg → Pkg) : State := s.setPkg p (g (s.pkg p))
/-- Change a command. -/
def State.modCmd (s : State) (c : Nat) (g : Cmd → Cmd) : State := s.setCmd c (g (s.cmd c))

/-- The key of cast `i` of pour `p`. DEDUCED (log 31). -/
def castKey (p i : Nat) : Nat := p * 2 ^ 64 + i
/-- The key of hoist `i` of the cast with key `c`. DEDUCED (log 31). -/
def hoistKey (c i : Nat) : Nat := c * 32 + i

/-- The lanes of a mask, in ascending order. -/
def lanesOf (m : LaneMask) : List Nat := (List.range 32).filter fun l => m.getLsbD l
/-- The mask of one lane. -/
def laneBit (l : Nat) : LaneMask := BitVec.ofNat 32 (2 ^ l)
/-- The mask of the lanes for which `p` holds. -/
def maskOf (p : Nat → Bool) : LaneMask :=
  BitVec.ofNat 32 ((List.range 32).foldl (fun a l => if p l then a + 2 ^ l else a) 0)
/-- The lowest lane of a mask, or 32. -/
def lowestLane (m : LaneMask) : Nat := (lanesOf m).headD 32

/-- Bits `hi` to `lo` of a number. -/
def field (x hi lo : Nat) : Nat := x / 2 ^ lo % 2 ^ (hi + 1 - lo)

/-- The two's complement value of the low `w` bits of `x`. -/
def signedVal (x w : Nat) : Int :=
  let y := x % 2 ^ w
  if y < 2 ^ (w - 1) then (y : Int) else (y : Int) - 2 ^ w

/-- An integer as `w` bits. -/
def wrapTo (x : Int) (w : Nat) : Nat := (x % (2 ^ w : Int)).toNat

/-! ### Bytes and marks of memory -/

/-- The byte at a physical address; a byte that nothing has written reads as zero. DESIGN CHOICE (log 7). -/
def State.byte (s : State) (pa : Nat) : Byte := Sparse.get 0 s.mem pa
/-- Write a byte. -/
def State.setByte (s : State) (pa : Nat) (b : Byte) : State := { s with mem := Sparse.set 0 s.mem pa b }

/-- `n` bytes from a physical address, as a little-endian number (R5). -/
def State.readLE (s : State) (pa : Nat) : Nat → Nat
  | 0 => 0
  | n + 1 => (s.byte pa).toNat + 256 * s.readLE (pa + 1) n

/-- Write the `n` low bytes of a number, little-endian (R5). -/
def State.writeLE (s : State) (pa : Nat) : Nat → Nat → State
  | 0, _ => s
  | n + 1, v => (s.setByte pa (BitVec.ofNat 8 v)).writeLE (pa + 1) n (v / 256)

/-- The poison mark of word `w` (address ÷ 4). -/
def State.mark (s : State) (w : Nat) : Bool := Sparse.get false s.marks w
/-- Write a mark. -/
def State.setMark (s : State) (w : Nat) (b : Bool) : State := { s with marks := Sparse.set false s.marks w b }

/-- The words that `n` bytes at `pa` touch. -/
def wordsOf (pa n : Nat) : List Nat :=
  if n = 0 then [] else (List.range ((pa + n - 1) / 4 + 1 - pa / 4)).map fun i => pa / 4 + i

/-- Whether some word that the bytes touch is poisoned. -/
def State.poisoned (s : State) (pa n : Nat) : Bool := (wordsOf pa n).any s.mark

/-- The marks after a write of `n` bytes: a whole word takes the mark of the value, part of a word is only ever marked
(R417). -/
def markWrite (get : Nat → Bool) (pa n : Nat) (poison : Bool) (w : Nat) : Bool :=
  if pa ≤ 4 * w && 4 * w + 4 ≤ pa + n then poison else poison || get w

/-- Fragments that WAITA holds on these bytes have seen a write (R255). -/
def Entry.hitBy (pa n : Nat) (e : Entry) : Entry :=
  match e.wait with
  | some (.waita addrs size hit) =>
    { e with wait := some (.waita addrs size (hit || addrs.any fun a => decide (a < pa + n ∧ pa < a + size))) }
  | _ => e

/-- Every WAITA that waits on the bytes is marked. -/
def State.wakeWaiters (s : State) (pa n : Nat) : State :=
  { s with frags := s.frags.map fun (k, x) =>
      (k, { x with entries := x.entries.map (Entry.hitBy pa n), frozen := x.frozen.map (Entry.hitBy pa n) }) }

/-- The entry issues again if its wait is of this kind; `woken` when that ends what its instruction waits for. -/
def Entry.release (p : Wait → Bool) (woken : Bool) (e : Entry) : Entry :=
  match e.wait with
  | some w => if p w then { e with wait := none, woken := e.woken || woken } else e
  | none => e

/-- Entries of a fragment whose wait is of this kind issue again, frozen ones when the program is next selected (R394). -/
def Frag.release (x : Frag) (p : Wait → Bool) (woken : Bool) : Frag :=
  { x with entries := x.entries.map (Entry.release p woken), frozen := x.frozen.map (Entry.release p woken) }

/-- Apply a write of `n` bytes with a poison mark to memory (R216, R417), and mark the waiters (R255). -/
def State.writeMem (s : State) (pa n v : Nat) (poison : Bool) : State :=
  let s1 := (wordsOf pa n).foldl (fun a w => a.setMark w (markWrite s.mark pa n poison w)) s
  (s1.writeLE pa n v).wakeWaiters pa n

/-! ### Where things are -/

/-- The physical address with package, hearth and offset (R20). -/
def paOf (gh ofs : Nat) : Nat := gh * 2 ^ 39 + ofs
/-- The hearth of a physical address (R20). -/
def paHearth (pa : Nat) : Nat := pa / 2 ^ 39 % 1024
/-- The offset of a physical address in its hearth (R20). -/
def paOfs (pa : Nat) : Nat := pa % 2 ^ 39
/-- Whether a physical address has the host flag (R20). -/
def paHost (pa : Nat) : Bool := pa / 2 ^ 49 % 2 = 1

/-- The bytes that a record names and the bytes of an access meet. -/
def meets (a n b m : Nat) : Bool := decide (a < b + m ∧ b < a + n)

/-- A write of device memory removes the records of its location (R236). -/
def State.dropRecords (s : State) (pa n : Nat) : State :=
  let old := (s.hearth (paHearth pa)).records
  let new := old.filter fun r => !meets r.pa r.size pa n
  if paHost pa || new = old then s else s.modHearth (paHearth pa) fun h => { h with records := new }

/-- A write of device memory that no release performs. -/
def State.rewrite (s : State) (pa n v : Nat) (poison : Bool) : State := (s.writeMem pa n v poison).dropRecords pa n

/-- PINS := PINS − 1 at a table entry (R388). -/
def State.unpin (s : State) (at_ : Nat) : State :=
  s.rewrite (at_ + 1) 1 (((s.byte (at_ + 1)).toNat + 255) % 256) false

/-- The core of a fragment that stands on one. -/
def Frag.gc (x : Frag) : Nat :=
  match x.place with
  | .core gc _ => gc
  | .departing gc _ _ _ _ _ => gc
  | _ => 0

/-- The hoist slot of a fragment that stands on a core. -/
def Frag.slot (x : Frag) : Nat :=
  match x.place with
  | .core _ k => k
  | .departing _ k _ _ _ _ => k
  | _ => 0

/-- Whether the fragment stands on a core and may issue. -/
def Frag.onCore (x : Frag) : Bool :=
  match x.place with
  | .core _ _ => x.live
  | _ => false

/-- The hearth of a core. -/
def coreHearth (gc : Nat) : Nat := gc / 8
/-- The package of a core. -/
def corePkg (gc : Nat) : Nat := gc / 128

/-- The cast of a fragment. -/
def State.castOf (s : State) (x : Frag) : Nat := (s.hoist x.hoist).cast
/-- The pour of a fragment. -/
def State.pourOf (s : State) (x : Frag) : Nat := (s.cast (s.castOf x)).pour
/-- The context of a fragment. -/
def State.ctxOf (s : State) (x : Frag) : BitVec 8 := (s.pour (s.pourOf x)).ctx
/-- The anchor core of a fragment's cast (R35). -/
def State.anchorOf (s : State) (x : Frag) : Nat := (s.cast (s.castOf x)).anchor
/-- Whether the fragment stands on its anchor core. -/
def State.atAnchor (s : State) (x : Frag) : Bool := x.onCore && x.gc = s.anchorOf x

/-- A field of a pour record: `n` bytes at offset `ofs` (R300). -/
def Pour.word (p : Pour) (ofs n : Nat) : Nat := (p.raw.toNat >>> (8 * ofs)) % 2 ^ (8 * n)
/-- A pour's FLAGS bit (R301). -/
def Pour.flag (p : Pour) (b : Nat) : Bool := (p.word 0x36 2).testBit b
/-- The registers of a hoist's allotment (R43). -/
def Pour.allot (p : Pour) : Nat := 64 * (p.word 0x31 1 % 4 + 1)
/-- The scratchpad of each cast in bytes (R73). -/
def Pour.spad (p : Pour) : Nat := field (p.word 0x38 4) 13 7 * 65536
/-- Casts of a pour (R32). -/
def Pour.extent (p : Pour) (k : Nat) : Nat := p.word (0x28 + 2 * k) 2 + 1
/-- Hoists per cast. -/
def Pour.hoists (p : Pour) : Nat := p.word 0x30 1

/-- The fragment runs in debug mode (R112). -/
def State.debug (s : State) (x : Frag) : Bool := (s.pour (s.pourOf x)).flag 3
/-- The fragment is in handler mode (R394). -/
def Frag.handler (x : Frag) : Bool := x.trap.isSome
/-- The fragment's context is a managing context of the package where it stands (R391, R392). -/
def State.managing (s : State) (x : Frag) : Bool := (s.pkg (corePkg x.gc)).managing.getLsbD (s.ctxOf x).toNat
/-- A context's partition, by the tables of a package; 0xFF for none (R375). -/
def Pkg.part (p : Pkg) (ctx : Nat) : Nat := (Sparse.get CtxDesc.none p.ctxs ctx).part.toNat
/-- The partition of hearth `gh`, by the map of a package (R375). -/
def Pkg.hearthPart (p : Pkg) (gh : Nat) : Nat := (Sparse.get 0xFF p.parts gh).toNat
/-- The trap-table entry of a context, of the package where the fragment stands (R392). -/
def State.trapEnt (s : State) (x : Frag) : TrapEnt :=
  Sparse.get .none (s.pkg (corePkg x.gc)).traps (s.ctxOf x).toNat

/-- The package's grade has 12 hearths (R1). -/
def Pkg.short (p : Pkg) : Bool := decide (p.grade = .p576)
/-- A hearth of the package is enabled: HMAP gives it a position, and on the grade with 12 hearths bytes 12 to 15 of HMAP give
none (R2, R17). -/
def Pkg.enabled (p : Pkg) (h : Nat) : Bool :=
  p.present && decide (h < (if p.short then 12 else 16)) && decide (p.hmap.toNat / 2 ^ (8 * h) % 256 ≠ 0xFF)
/-- Enabled hearths of the package, as numbers of the domain. -/
def State.enabledHearths (s : State) (pkg : Nat) : List Nat :=
  ((List.range 16).filter (s.pkg pkg).enabled).map fun h => 16 * pkg + h

/-! ### Counters and error records -/

/-- Add one to an error counter of a core (R419). -/
def State.countCore (s : State) (gc ctr : Nat) : State :=
  s.modCore gc fun c => { c with counters := Sparse.set 0 c.counters ctr (Sparse.get 0 c.counters ctr + 1) }
/-- Add one to an error counter of a hearth (R419). -/
def State.countHearth (s : State) (gh ctr : Nat) : State :=
  s.modHearth gh fun c => { c with counters := Sparse.set 0 c.counters ctr (Sparse.get 0 c.counters ctr + 1) }
/-- Add one to a counter of a switch (R419). -/
def State.countSwitch (s : State) (pkg sw ctr : Nat) : State :=
  s.modPkg pkg fun p =>
    let w := Sparse.get .reset p.switches sw
    let w' : Switch := { w with counters := Sparse.set 0 w.counters ctr (Sparse.get 0 w.counters ctr + 1) }
    { p with switches := Sparse.set .reset p.switches sw w' }

/-- Counter number of R419. -/
def counterNumber (kind inst ctr : Nat) : Nat := kind * 2 ^ 24 + inst * 2 ^ 8 + ctr

/-- The base of a hearth's error ring: behind the parking area of 768 MiB (R432). -/
def errBase (gh : Nat) : Nat := paOf gh 0xBF0000000
/-- The base of a hearth's trace ring, behind the error ring (R432). -/
def traceBase (gh : Nat) : Nat := paOf gh 0xBF1000000

/-- The last sequence number of a source (R48, R274), or of the records of a source (R27, R420), whose counters are kept
apart at 2³² + source. -/
def State.lastSeq (s : State) (src : Nat) : Word := Sparse.get 0 s.seqs src
/-- Take the next sequence number. -/
def State.bumpSeq (s : State) (src : Nat) : State := { s with seqs := Sparse.set 0 s.seqs src (s.lastSeq src + 1) }

/-- A source of a core in the SRC layout of R273: slot `slot` for unit 0. -/
def coreSrc (gc slot unit : Nat) : Nat := gc * 2 ^ 17 + slot * 2 ^ 10 + unit * 2 ^ 6
/-- A source of a hearth, or of the switch at a position (unit 5), in the SRC layout of R273. -/
def hearthSrc (gh unit : Nat) : Nat := gh * 2 ^ 20 + unit * 2 ^ 6
/-- The host link of a package as a source. -/
def hostSrc (pkg : Nat) : Nat := pkg * 2 ^ 24 + 6 * 2 ^ 6
/-- The source of a core's records: its control unit. -/
def recordSrc (gc : Nat) : Nat := coreSrc gc 0 7
/-- The source of a hearth's own records: its sequencer. -/
def seqrSrc (gh : Nat) : Nat := hearthSrc gh 4

/-- One error record, as 32 bytes (R420). -/
def recordVal (src : Nat) (seq : Word) (cls ctx flags cnt addr detail : Nat) : Nat :=
  src + seq.toNat * 2 ^ 32 + cls * 2 ^ 64 + ctx * 2 ^ 72 + flags * 2 ^ 80 + cnt * 2 ^ 96 + addr * 2 ^ 128 + detail * 2 ^ 192

/-- A hearth writes an error record to its ring (R420, R421); the oldest record is overwritten when the ring is full. -/
def State.record (s : State) (gh src cls ctx flags cnt addr detail : Nat) : State :=
  let n := (s.hearth gh).errCount
  let s1 := if 524288 ≤ n then s.countHearth gh 6 else s
  let v := recordVal src (s.lastSeq (2 ^ 32 + src) + 1) cls ctx flags cnt (addr % 2 ^ 64) (detail % 2 ^ 64)
  ((s1.bumpSeq (2 ^ 32 + src)).writeMem (errBase gh + 32 * (n % 524288)) 32 v false).modHearth gh
    fun h => { h with errCount := n + 1 }

/-- A hearth writes a trace record of a TRACE pour, or drops it when the ring is full (R421). DESIGN CHOICE (log 98). -/
def State.traceRecord (s : State) (gh src cls ctx addr detail : Nat) : State :=
  let n := (s.hearth gh).trCount
  if 1572864 ≤ n then s.countHearth gh 7
  else
    ((s.bumpSeq (2 ^ 32 + src)).writeMem (traceBase gh + 32 * n) 32
      (recordVal src (s.lastSeq (2 ^ 32 + src) + 1) cls ctx 0 0 (addr % 2 ^ 64) (detail % 2 ^ 64)) false).modHearth gh
      fun h => { h with trCount := n + 1 }

/-! ### The frontier (R34) -/

/-- Lanes join an entry at a (priority, PC), and an entry that waited there issues again (R34). -/
def addEntry (es : List Entry) (prio : BitVec 8) (pc : DWord) (lanes : LaneMask) : List Entry :=
  if lanes = 0 then es
  else match es with
    | [] => [{ prio, pc, mask := lanes, wait := none }]
    | e :: t =>
      if e.prio = prio ∧ e.pc = pc then { e with mask := e.mask ||| lanes, wait := none, woken := false } :: t
      else e :: addEntry t prio pc lanes

/-- Lanes leave the entry at a (priority, PC); an entry without lanes is gone. -/
def takeLanes (es : List Entry) (prio : BitVec 8) (pc : DWord) (lanes : LaneMask) : List Entry :=
  match es with
  | [] => []
  | e :: t =>
    if e.prio = prio ∧ e.pc = pc then
      (if e.mask &&& ~~~lanes = 0 then t else { e with mask := e.mask &&& ~~~lanes } :: t)
    else e :: takeLanes t prio pc lanes

/-- The entry at a (priority, PC). -/
def findEntry (es : List Entry) (prio : BitVec 8) (pc : DWord) : Option Entry :=
  es.find? fun e => decide (e.prio = prio ∧ e.pc = pc)

/-- Lanes go on past the instruction at `pc`: to `next`, or, past the end instruction of the innermost loop, to its end
test (R331, R341). DEDUCED (log 19). -/
def Frag.goNext (x : Frag) (pc next : DWord) (prio : BitVec 8) (lanes : LaneMask) : Frag :=
  match x.loops with
  | lp :: _ =>
    if lp.stop = pc then { x with atEnd := addEntry x.atEnd prio next lanes }
    else { x with entries := addEntry x.entries prio next lanes }
  | [] => { x with entries := addEntry x.entries prio next lanes }

/-- Lanes go to a target with a priority. -/
def Frag.goTo (x : Frag) (prio : BitVec 8) (pc : DWord) (lanes : LaneMask) : Frag :=
  { x with entries := addEntry x.entries prio pc lanes }

/-- Lanes leave the entry at a (priority, PC). -/
def Frag.take (x : Frag) (prio : BitVec 8) (pc : DWord) (lanes : LaneMask) : Frag :=
  { x with entries := takeLanes x.entries prio pc lanes }

/-- The entry at a (priority, PC) waits; that what its instruction is about has ended already stays known. -/
def Frag.waitAt (x : Frag) (prio : BitVec 8) (pc : DWord) (w : Wait) : Frag :=
  { x with entries := x.entries.map fun e => if e.prio = prio ∧ e.pc = pc then { e with wait := some w } else e }

/-- The lanes of a list of entries. -/
def entryLanes (es : List Entry) : LaneMask := es.foldl (fun a e => a ||| e.mask) 0

/-- The entry repeats under REP (R346). -/
def Frag.repeats (x : Frag) (prio : BitVec 8) (pc : DWord) : Bool :=
  decide (x.rep = some (prio, pc)) && decide (x.repc.toNat / 256 % 256 ≠ 0)

/-- The lanes of an entry have completed its instruction and go on, or begin the next repetition (R346). -/
def Frag.complete (x : Frag) (prio : BitVec 8) (pc next : DWord) (lanes : LaneMask) : Frag :=
  if x.repeats prio pc then
    if x.repc.toNat % 256 + 1 < x.repc.toNat / 256 % 256 then { x with repc := x.repc + 1 }
    else ({ (x.take prio pc lanes) with repc := 0, rep := none }).goNext pc next prio lanes
  else (x.take prio pc lanes).goNext pc next prio lanes

/-! ### Ending a fragment, a pour -/

/-- Take a fragment's slot and visitor block away from core `gc` (R42, R75). -/
def Core.dropVisitor (c : Core) (f : Nat) : Core :=
  { c with visitors := c.visitors.filter fun p => p.2 ≠ some f, blocks := c.blocks.filter fun p => p.2 ≠ some f }

/-- The hoists of a cast give up their slots on its anchor core. -/
def Core.dropCast (c : Core) (cast : Nat) : Core :=
  { c with anchors := c.anchors.filter fun p => match p.2 with | some k => k / 32 ≠ cast | none => true }

/-- The pins that an instruction of the fragment holds while it waits for another are released (R388). -/
def Frag.pinsHeld (x : Frag) : List Nat := x.pinned.flatMap fun q => q.2.2

/-- The pins held for the instruction of an entry. -/
def Frag.pinsAt (x : Frag) (prio : BitVec 8) (pc : DWord) : List Nat :=
  ((x.pinned.find? fun q => q.1 = prio && q.2.1 = pc).map fun q => q.2.2).getD []

/-- The instruction of an entry holds these pins now. -/
def Frag.setPins (x : Frag) (prio : BitVec 8) (pc : DWord) (l : List Nat) : Frag :=
  { x with pinned := (x.pinned.filter fun q => !(q.1 = prio && q.2.1 = pc)) ++ if l.isEmpty then [] else [(prio, pc, l)] }

/-- The pins of an entry's instruction are released (R388). -/
def State.dropPins (s : State) (f : Nat) (prio : BitVec 8) (pc : DWord) : State :=
  let l := (s.frag f).pinsAt prio pc
  if l.isEmpty then s else l.foldl State.unpin (s.modFrag f fun x => x.setPins prio pc [])

/-- Every pin of a fragment is released, as when it leaves its core (R388). -/
def State.dropAllPins (s : State) (f : Nat) : State :=
  let l := (s.frag f).pinsHeld
  if l.isEmpty then s else l.foldl State.unpin (s.modFrag f fun x => { x with pinned := [] })

/-- A fragment ends: nothing of it remains (R42). -/
def State.endFrag (s : State) (f : Nat) : State :=
  (((s.frag f).pinsHeld.foldl State.unpin s).modCore (s.frag f).gc fun c => c.dropVisitor f).setFrag f .dead

/-- Whether a cast key belongs to a pour. -/
def ofPour (p c : Nat) : Bool := c / 2 ^ 64 = p

/-- An image belongs to a cast with the fragments `fs` (R404). -/
def Image.ofCast (m : Image) (c : Nat) (fs : List Nat) : Bool :=
  match m.owner with
  | .ingot f => fs.contains f
  | .anchor hk => decide (hk / 32 = c)
  | .cast k => decide (k = c)
  | .engine .. => false

/-- The hoists, fragments and images of a cast are gone. -/
def State.clearCast (s : State) (c : Nat) : State :=
  let fs := (s.frags.filter fun q => (s.hoist q.2.hoist).cast = c).map Prod.fst
  let s1 := fs.foldl State.endFrag s
  let s2 := s1.modCore (s.cast c).anchor fun k => k.dropCast c
  let s3 := (s2.hearths.map Prod.fst).foldl
    (fun a gh => a.modHearth gh fun h => { h with
      arrivals := h.arrivals.filter fun f => !fs.contains f, images := h.images.filter fun m => !m.ofCast c fs }) s2
  { s3 with hoists := s3.hoists.filter fun q => q.2.cast ≠ c }

/-- A cast that holds nothing any more: no granules, no scratchpad, no queues, no contexts. -/
def Cast.emptied (c : Cast) : Cast :=
  { c with granules := 0, spad := [], spoison := [], queues := [], bars := [], c0 := .empty, c1 := .empty,
           saved := false, held := false, parking := false, resuming := false }

/-- The pour has a slot, and neither its last cast has retired nor has it been killed (R414). -/
def PourState.live (st : PourState) : Bool := st ∈ [.pinning, .writing, .accepted]

/-- KILL is applied to a live pour: it releases and starts no further cast, its hoists and their handlers end, its copy
and bank commands fail, and the pour waits for its packets to land (R414, steps 1 to 3). DEDUCED (log 61). -/
def State.beginKill (s : State) (p : Nat) : State :=
  let q := s.pour p
  if q.st.live then
    let cs := (s.casts.filter fun c => c.2.pour = p ∧ ofPour p c.1).map Prod.fst
    let s1 := s.setPour p { q with st := .killing, unpinned := [] }
    let s2 := (s1.hearths.map Prod.fst).foldl
      (fun a gh => a.modHearth gh fun h => { h with pqueue := h.pqueue.filter fun e => e.pour ≠ p }) s1
    let s3 := cs.foldl State.clearCast s2
    { s3 with
      casts := s3.casts.map fun (k, c) =>
        if c.pour = p ∧ ofPour p k then (k, c.emptied) else (k, c)
      cmds := s3.cmds.map fun (k, c) =>
        if ofPour p c.cast ∧ c.eng ≠ .coll ∧ c.stage ≠ .done ∧ c.stage ≠ .finishing ∧ c.stage ≠ .feeding then
          (k, { c with stage := .finishing, status := 1 }) else (k, c)
      cores := s3.cores.map fun (k, c) =>
        let mine : Option (Nat × Bool) → Option (Nat × Bool) := fun r => r.filter fun x => !ofPour p x.1
        (k, { c with running := mine c.running, given := mine c.given }) }
  else s

/-! ### Traps (R393 to R397) -/

/-- The number of a cause (R393). -/
def Cause.illegal : BitVec 8 := 0x01
/-- WINDOW. -/
def Cause.window : BitVec 8 := 0x02
/-- EMPTY. -/
def Cause.empty : BitVec 8 := 0x03
/-- ALIGN. -/
def Cause.align : BitVec 8 := 0x04
/-- ACCESS. -/
def Cause.access : BitVec 8 := 0x05
/-- SCRATCH. -/
def Cause.scratch : BitVec 8 := 0x06
/-- FORMAT. -/
def Cause.format : BitVec 8 := 0x07
/-- MDATA. -/
def Cause.mdata : BitVec 8 := 0x08
/-- POISON. -/
def Cause.poison : BitVec 8 := 0x09
/-- LOOPEND. -/
def Cause.loopend : BitVec 8 := 0x0A
/-- ABSENT. -/
def Cause.absent : BitVec 8 := 0x0B
/-- PRIO. -/
def Cause.prio : BitVec 8 := 0x0C
/-- RAMP. -/
def Cause.ramp : BitVec 8 := 0x0D
/-- PARTITION. -/
def Cause.partition : BitVec 8 := 0x0F
/-- QUEUE. -/
def Cause.queue : BitVec 8 := 0x10
/-- SWTRAP. -/
def Cause.swtrap : BitVec 8 := 0x11
/-- BKPT. -/
def Cause.bkpt : BitVec 8 := 0x12

/-- A double fault: an error record of class 7 names both causes and both PCs, and the pour ends as by KILL (R395). -/
def State.doubleFault (s : State) (f : Nat) (first : BitVec 8) (firstPc : DWord) (second : BitVec 8) (secondPc : DWord) :
    State :=
  let x := s.frag f
  let detail := first.toNat * 2 ^ 56 + second.toNat * 2 ^ 48 + secondPc.toNat % 2 ^ 48
  let s1 := s.countCore x.gc 3
  let s2 := s1.record (coreHearth x.gc) (recordSrc x.gc) 7 (s.ctxOf x).toNat 0 (counterNumber 1 x.gc 3)
    firstPc.toNat detail
  s2.beginKill (s.pourOf x)

/-- Taking a trap (R394): the trap registers are set, the other entries are frozen, and one handler entry holds
the lanes of the issuing entry at priority 0xFF, at HANDLER with its bits 1 and 0 cleared, since the PC is always a multiple of 4 (R76).
A cause in handler mode, or a table without a handler, is a double fault (R395). DEDUCED (log 15). DESIGN CHOICE (log 108). -/
def State.raise (s : State) (f : Nat) (e : Entry) (cause : BitVec 8) (addr : DWord) (lanes : LaneMask) : State :=
  let x := s.frag f
  match x.trap with
  | some t => s.doubleFault f (t.cause.setWidth 8) t.pc0 cause e.pc
  | none =>
    let h := (s.trapEnt x).handler &&& ~~~3
    if h = 0 then s.doubleFault f cause e.pc 0 0
    else s.setFrag f { x with
      trap := some { cause := cause.setWidth 32, pc := e.pc, pc0 := e.pc, prio0 := e.prio, lanes, addr, prio := e.prio,
                     em := e.mask, scr0 := 0, scr1 := 0, scr2 := 0, scr3 := 0 }
      frozen := takeLanes x.entries e.prio e.pc e.mask
      frozenEnd := x.atEnd
      atEnd := []
      entries := [{ prio := 0xFF, pc := h, mask := e.mask, wait := none }] }

/-- The fragment leaves handler mode when no lane remains in a handler entry (R394). DEDUCED (log 15). -/
def Frag.leaveHandler (x : Frag) : Frag :=
  if x.trap.isSome && x.entries.isEmpty && x.atEnd.isEmpty then
    { x with trap := none, entries := x.frozen, frozen := [], atEnd := x.frozenEnd, frozenEnd := [] }
  else x

/-- Lanes return from handler mode to a target with `%trapprio`, and merge with a frozen entry there (R400). -/
def Frag.returnLanes (x : Frag) (t : TrapRegs) (hprio : BitVec 8) (hpc target : DWord) (lanes : LaneMask) : Frag :=
  ({ (x.take hprio hpc lanes) with
     frozen := addEntry x.frozen t.prio target lanes }).leaveHandler

end Sys2Proof.Machine
end

