-- ==== Sys2Proof/Machine/Operands.lean ====
section
/-! DEFINITION. Every operand form of Tabiq (R54 to R58, R82, R84): the issue of an instruction with its guard (R86), the
reading of sources lane by lane, the checks for empty, absent and poisoned registers (R61, R62, R112, R392), and the
writing of destinations. -/

namespace Sys2Proof.Machine

/-- A value with its poison mark. A 32-bit operand stands in the low bits. A value read as two words keeps the mark of each. -/
structure Val where
  bits   : DWord
  poison : Bool
  words  : Option (Bool × Bool) := none
  deriving DecidableEq, Repr

/-- The mark of the low word. -/
def Val.lo (v : Val) : Bool := (v.words.map Prod.fst).getD v.poison
/-- The mark of the high word. -/
def Val.hi (v : Val) : Bool := (v.words.map Prod.snd).getD v.poison
/-- The low and the high word, each with its mark. -/
def Val.halves (v : Val) : List Val :=
  [{ bits := v.bits, poison := v.lo }, { bits := v.bits.ushiftRight 32, poison := v.hi }]
/-- A value of two words with a mark each. DEDUCED (log 124). -/
def Val.pair (bits : DWord) (lo hi : Bool) : Val := { bits, poison := lo || hi, words := some (lo, hi) }

/-- The value as the result of an instruction that reads another source, whose mark it takes too (R135). -/
def Val.also (v : Val) (p : Bool) : Val := { bits := v.bits, poison := v.poison || p }

/-- Zero, clean. -/
def Val.zero : Val := { bits := 0, poison := false }
/-- A clean value. -/
def Val.ofNat (n : Nat) : Val := { bits := BitVec.ofNat 64 n, poison := false }
/-- The low 32 bits. -/
def Val.word (v : Val) : Word := v.bits.setWidth 32

/-- The issue of one instruction: the state, the fragment and its hoist, the issuing entry, the guard-true lanes G, and
the address of the next instruction. -/
structure Ix where
  s    : State
  f    : Nat
  x    : Frag
  h    : Hoist
  e    : Entry
  g    : LaneMask
  next : DWord
  deriving DecidableEq, Repr

/-- A predicate of every lane; p0 is true (R57). -/
def Hoist.pred (h : Hoist) (p : BitVec 4) : LaneMask :=
  if p = 0 then BitVec.allOnes 32 else Sparse.get 0 h.preds p.toNat

/-- Lanes for which the guard is true (R86). -/
def Hoist.guard (h : Hoist) (hd : Hdr) : LaneMask :=
  if hd.gn then ~~~(h.pred hd.gp) else h.pred hd.gp

/-- The issue that the state names: the execute mask is the issuing entry's, or empty when there is no such entry. DESIGN CHOICE (log 4). -/
def Ix.of (s : State) (hd : Hdr) : Ix :=
  let x := s.frag s.iss.frag
  let h := s.hoist x.hoist
  let e := (findEntry x.entries s.iss.prio s.iss.pc).getD { prio := s.iss.prio, pc := s.iss.pc, mask := 0, wait := none }
  { s, f := s.iss.frag, x, h, e, g := e.mask &&& h.guard hd, next := s.iss.pc + BitVec.ofNat 64 hd.form.bytes }

/-- The instruction is complete for every lane of its entry, which go on (R331, R346). -/
def Ix.done (i : Ix) (s : State) : State :=
  s.modFrag i.f fun x => x.complete i.e.prio i.e.pc i.next i.e.mask

/-- Why an instruction does not take effect now. -/
inductive Stop where
  /-- the entry waits, and the instruction issues again when the wait ends -/
  | wait (w : Wait)
  /-- a synchronous trap -/
  | trap (cause : BitVec 8) (addr : DWord) (lanes : LaneMask)
  /-- the fragment travels to its anchor first (R40) -/
  | anchor (lsel : BitVec 4)
  deriving DecidableEq, Repr

/-! ### Registers -/

/-- The allotment register that window register `i` names (R54). -/
def Ix.areg (i : Ix) (r : Nat) : Nat := i.x.wbase + r

/-- The element of allotment register `r` in lane `l`. -/
def Hoist.elem (h : Hoist) (r l : Nat) : Word := Sparse.get 0 h.vregs (32 * r + l)
/-- The mark of an element. -/
def Hoist.elemMark (h : Hoist) (r l : Nat) : Bool := Sparse.get false h.vpoison (32 * r + l)
/-- Write an element and its mark. -/
def Hoist.setElem (h : Hoist) (r l : Nat) (w : Word) (p : Bool) : Hoist :=
  { h with vregs := Sparse.set 0 h.vregs (32 * r + l) w, vpoison := Sparse.set false h.vpoison (32 * r + l) p }
/-- Write a predicate of the lanes `m` to the bits of `b`; p0 discards it (R57). -/
def Hoist.setPred (h : Hoist) (p : BitVec 4) (m b : LaneMask) : Hoist :=
  if p = 0 then h
  else { h with preds := Sparse.set 0 h.preds p.toNat ((h.pred p &&& ~~~m) ||| (b &&& m))
                pmarks := if m = BitVec.allOnes 32 then h.pmarks &&& ~~~(BitVec.ofNat 16 (2 ^ p.toNat)) else h.pmarks }
/-- Write a mask register. -/
def Hoist.setMask (h : Hoist) (k : BitVec 4) (m : LaneMask) : Hoist :=
  { h with masks := Sparse.set 0 h.masks k.toNat m, mmarks := h.mmarks &&& ~~~(BitVec.ofNat 16 (2 ^ k.toNat)) }

/-- A mask register as a fragment reads it: the anchor slot's, or, while the hoist is split and the fragment away, the
copy that the fragment took (R41). -/
def Ix.mask (i : Ix) (k : BitVec 4) : LaneMask :=
  if i.h.split && !i.s.atAnchor i.x then Sparse.get 0 i.x.mcopy k.toNat else Sparse.get 0 i.h.masks k.toNat

/-- A scalar register of the fragment. -/
def Frag.sreg (x : Frag) (r : Nat) : DWord := Sparse.get 0 x.sregs r

/-- Lane `l` belongs to the issuing fragment (R138). -/
def Ix.present (i : Ix) (l : Nat) : Bool := i.x.lanes.getLsbD l

/-! ### Reading -/

/-- How a source is read: 64 bits wide, and whether a literal is sign-extended to that (R82). -/
structure Wd where
  w64 : Bool
  sgn : Bool
  deriving DecidableEq, Repr

/-- A 32-bit operand. -/
def Wd.w32 : Wd := { w64 := false, sgn := false }
/-- The width of an operand of a type. -/
def Wd.of (t : Ty) : Wd := { w64 := t.wide, sgn := decide (t = .i64) }
/-- A bit-pattern operand. -/
def Wd.bw (w64 : Bool) : Wd := { w64, sgn := false }

/-- The element of a vector operand in lane `l`, of one register or a pair (R55). -/
def Ix.vval (i : Ix) (r : Nat) (w64 : Bool) (l : Nat) : Val :=
  let a := i.areg r
  if w64 then
    Val.pair (i.h.elem (a + 1) l ++ i.h.elem a l : BitVec 64) (i.h.elemMark a l) (i.h.elemMark (a + 1) l)
  else { bits := (i.h.elem a l).setWidth 64, poison := i.h.elemMark a l }

/-- The mark of a predicate or mask operand whose stored word has failed its check (R416, R417). DEDUCED (log 97). -/
def Ix.bitMark (i : Ix) (o : Opnd) : Bool :=
  match o with
  | .p p => p ≠ 0 && i.h.pmarks.getLsbD p.toNat
  | .m k => i.h.mmarks.getLsbD k.toNat
  | _ => false

/-- A source operand as lane `l` sees it (R55 to R58, R82, R84). -/
def Ix.read (i : Ix) (o : Opnd) (w : Wd) (l : Nat) : Val :=
  match o with
  | .v r => i.vval r.toNat w.w64 l
  | .s r =>
    let b := i.x.sreg r.toNat
    { bits := if w.w64 then b else (b.setWidth 32 : Word).setWidth 64, poison := i.x.spoison.getLsbD r.toNat }
  | .p p => { bits := if (i.h.pred p).getLsbD l then 1 else 0, poison := i.bitMark o }
  | .m k => { bits := (i.mask k).setWidth 64, poison := i.bitMark o }
  | .lit v => { bits := if w.sgn then v.signExtend 64 else v.setWidth 64, poison := false }
  | _ => .zero

/-- A predicate-role source in every lane; zr reads false (R137). -/
def Ix.predOf (i : Ix) (o : Opnd) : LaneMask :=
  match o with
  | .p p => i.h.pred p
  | _ => 0

/-- A uniform source (R137). -/
def Ix.uniform (i : Ix) (o : Opnd) (w : Wd) : Val := i.read o w 0

/-- The element of lane `j` for a cross-lane read: zero, clean, unless the lane is present (R139). -/
def Ix.readLane (i : Ix) (o : Opnd) (w : Wd) (j : Nat) : Val :=
  if i.present j then i.read o w j else .zero

/-! ### Checks -/

/-- A use of a register operand: the operand, the consecutive registers of a vector operand, and its empty bit. -/
structure Use where
  o   : Opnd
  n   : Nat
  bit : Bool
  deriving DecidableEq, Repr

/-- The registers of a width. -/
def Wd.regs (w : Wd) : Nat := if w.w64 then 2 else 1

/-- Some register of the operand is set in the bit vectors of vector and scalar registers. -/
def Ix.anyReg (i : Ix) (v : BitVec 256) (s : BitVec 64) (o : Opnd) (n : Nat) : Bool :=
  match o with
  | .v r => (List.range n).any fun k => v.getLsbD (i.areg (r.toNat + k))
  | .s r => s.getLsbD r.toNat
  | _ => false

/-- The operand names an empty register (R60). -/
def Ix.isEmpty (i : Ix) (o : Opnd) (n : Nat) : Bool := i.anyReg i.x.vempty i.x.sempty o n

/-- Lanes of `m` whose read of the operand is poisoned; a scalar counts for every lane. -/
def Ix.poisonLanes (i : Ix) (o : Opnd) (n : Nat) (m : LaneMask) : LaneMask :=
  match o with
  | .v r => m &&& maskOf fun l => (List.range n).any fun k => i.h.elemMark (i.areg (r.toNat + k)) l
  | .s r => if i.x.spoison.getLsbD r.toNat then m else 0
  | _ => if i.bitMark o then m else 0

/-- Pass, or stop. -/
def guardStop (b : Bool) (st : Stop) : Except Stop Unit := if b then .error st else .ok ()

/-- EMPTY, or a wait, at the first empty source in source order (R61). -/
def Ix.checkEmpty (i : Ix) : List Use → Except Stop Unit
  | [] => .ok ()
  | u :: us =>
    if i.isEmpty u.o u.n then .error (if u.bit then .trap Cause.empty 0 i.g else .wait .full) else i.checkEmpty us

/-- The checks of register sources: EMPTY or a wait (R61), ABSENT in debug mode (R112), and POISON for the lanes read
when the context traps on poison (R392). -/
def Ix.checkSources (i : Ix) (us : List Use) (rd : LaneMask) : Except Stop Unit := do
  i.checkEmpty us
  guardStop (i.s.debug i.x && us.any fun u => i.anyReg i.x.vabsent i.x.sabsent u.o u.n) (.trap Cause.absent 0 i.g)
  let bad := us.foldl (fun a u => a ||| i.poisonLanes u.o u.n rd) 0
  guardStop ((i.s.trapEnt i.x).tpoison && bad ≠ 0) (.trap Cause.poison 0 bad)

/-- The checks of register sources that are each read in lanes of their own: empty registers first, in source order, then
absent ones, then the poisoned elements that are read. A register none of whose elements is read, as when every partner lane is
absent, is not checked (R139). DEDUCED (log 17, 119). -/
def Ix.checkReads (i : Ix) (all : List (Use × LaneMask)) : Except Stop Unit := do
  let us := all.filter fun u => u.2 ≠ 0
  i.checkEmpty (us.map Prod.fst)
  guardStop (i.s.debug i.x && us.any fun u => i.anyReg i.x.vabsent i.x.sabsent u.1.o u.1.n) (.trap Cause.absent 0 i.g)
  let bad := us.foldl (fun a u => a ||| i.poisonLanes u.1.o u.1.n u.2) 0
  guardStop ((i.s.trapEnt i.x).tpoison && bad ≠ 0) (.trap Cause.poison 0 bad)

/-- A destination that is empty makes the instruction wait (R62). DEDUCED (log 17). -/
def Ix.checkDests (i : Ix) (ds : List (Opnd × Nat)) : Except Stop Unit :=
  guardStop (ds.any fun d => i.isEmpty d.1 d.2) (.wait .full)

/-- An instruction that the handler may not execute is a double fault with ILLEGAL as its cause (R395). -/
def Ix.notInHandler (i : Ix) : Except Stop Unit := guardStop i.x.handler (.trap Cause.illegal 0 i.e.mask)

/-! ### Writing -/

/-- Whether a type is signed (R55). -/
def Ty.signed (t : Ty) : Bool := t ∈ [.i8, .i16, .i24, .i32, .i64]

/-- The low bits of a type as a 32-bit element: I types by sign, others by zeros (R55). -/
def ext32 (t : Ty) (x : DWord) : Word :=
  if 32 ≤ t.bits then x.setWidth 32
  else BitVec.ofNat 32 (if Ty.signed t then wrapTo (signedVal x.toNat t.bits) 32 else x.toNat % 2 ^ t.bits)

/-- The low bits of a type as a scalar register's 64 bits (R56). -/
def ext64 (t : Ty) (x : DWord) : DWord :=
  if 64 ≤ t.bits then x
  else BitVec.ofNat 64 (if Ty.signed t then wrapTo (signedVal x.toNat t.bits) 64 else x.toNat % 2 ^ t.bits)

/-- Write one element, or a pair, of allotment register `a` in lane `l`. -/
def Hoist.writeLane (h : Hoist) (a : Nat) (t : Ty) (l : Nat) (v : Val) : Hoist :=
  if t.wide then (h.setElem a l (v.bits.setWidth 32) v.lo).setElem (a + 1) l (v.bits.extractLsb' 32 32) v.hi
  else h.setElem a l (ext32 t v.bits) v.poison

/-- A write of the fragment's register clears its absent mark (R112). -/
def clearBits (v : BitVec 256) (a n : Nat) : BitVec 256 :=
  (List.range n).foldl (fun b k => b &&& ~~~(BitVec.ofNat 256 (2 ^ (a + k)))) v

/-- Write results, lane by lane in ascending order, to a value destination (R54 to R58): every lane of a vector or a
predicate, the lowest lane's value of a scalar or a mask. -/
def Ix.write (i : Ix) (s : State) (o : Opnd) (t : Ty) (rs : List (Nat × Val)) : State :=
  match o with
  | .v r =>
    let a := i.areg r.toNat
    (s.modHoist i.x.hoist fun h => rs.foldl (fun h p => h.writeLane a t p.1 p.2) h).modFrag i.f fun x =>
      { x with vabsent := if rs.isEmpty then x.vabsent else clearBits x.vabsent a (if t.wide then 2 else 1) }
  | .s r =>
    match rs with
    | [] => s
    | p :: _ =>
      let b : BitVec 64 := BitVec.ofNat 64 (2 ^ r.toNat)
      s.modFrag i.f fun x => { x with
        sregs := Sparse.set 0 x.sregs r.toNat (ext64 t p.2.bits)
        spoison := if p.2.poison then x.spoison ||| b else x.spoison &&& ~~~b
        sabsent := x.sabsent &&& ~~~b }
  | .p q =>
    s.modHoist i.x.hoist fun h =>
      h.setPred q (maskOf fun l => rs.any fun p => p.1 = l) (maskOf fun l => rs.any fun p => p.1 = l && p.2.bits.getLsbD 0)
  | .m k =>
    match rs with
    | [] => s
    | p :: _ => s.modHoist i.x.hoist fun h => h.setMask k (ext32 t p.2.bits)
  | _ => s

/-- Write the bits of `b` for the lanes of `m` to a predicate-role destination. -/
def Ix.writePred (i : Ix) (s : State) (o : Opnd) (m b : LaneMask) : State :=
  match o with
  | .p q => s.modHoist i.x.hoist fun h => h.setPred q m b
  | _ => s

/-- Whether a destination drops the mark of a poisoned result: a predicate or a mask (R417). DEDUCED (log 24). -/
def dropsMark (o : Opnd) : Bool :=
  match o with
  | .p _ | .m _ => true
  | _ => false

/-- Count a use of a poisoned source for a result without a mark (R417, R419). DEDUCED (log 24). -/
def Ix.countUse (i : Ix) (used : Bool) (s : State) : State := if used then s.countCore i.x.gc 2 else s

end Sys2Proof.Machine
end

