-- ==== Sys2Proof/Machine/Flags.lean ====
section
/-! DEFINITION. The flag computations: the predicates are the flags of Tabiq, and an instruction that produces one bit
for each lane writes two of them under a combining type (R87, R88). -/

namespace Sys2Proof.Machine

/-- The value that a predicate receives in every lane that takes part (R87): `old` is its value, `v` the lane's bit, `q`
the qualifying predicate of GATE. -/
def Merge.apply (m : Merge) (old v q : LaneMask) : LaneMask :=
  match m with
  | .set => v
  | .and => old &&& v
  | .or => old ||| v
  | .gate => q &&& v

/-- The lanes that take part: the guard-true lanes, or under GATE every lane of the execute mask (R87). -/
def Ix.part (i : Ix) (p : Pct) : Ix :=
  match p.merge with
  | .gate => { i with g := i.e.mask }
  | _ => i

/-- The old value of a predicate destination. -/
def Ix.oldPred (i : Ix) (o : Opnd) : LaneMask := i.predOf o

/-- Write the outcome `c` of the lanes that take part to both predicate destinations (R87, R88). -/
def Ix.writePct (i : Ix) (s : State) (hd : Hdr) (o : Ops) (p : Pct) (c : LaneMask) : State :=
  let v := if p.inv then ~~~c else c
  let q := i.h.guard hd
  let s1 := i.writePred s o.d i.g (Merge.apply p.merge (i.oldPred o.d) v q)
  i.writePred s1 o.d2 i.g (Merge.apply p.merge (i.oldPred o.d2) (~~~v) q)

/-- The two complementary predicates of a plain write (R170, R246). -/
def Ix.writeBoth (i : Ix) (s : State) (o : Ops) (c : LaneMask) : State :=
  i.writePred (i.writePred s o.d i.g c) o.d2 i.g (~~~c)

end Sys2Proof.Machine
end

