-- ==== Sys2Proof/Machine/Issue.lean ====
section
/-! DEFINITION. How the issue of an instruction ends: it takes effect, it waits, it traps, or lanes leave for another
place (R38, R40); and the shape that the lane-by-lane instructions share (R54, R86, R138). -/

namespace Sys2Proof.Machine

/-! ### Lanes that leave (R38, R40, R41) -/

/-- The part of a pending register write that belongs to the lanes of `m` (R63). -/
def Fill.restrict (w : Fill) (m : LaneMask) : Fill :=
  { w with vregs := w.vregs.filter fun p => m.getLsbD (p.1 % 32) }

/-- The mask registers as the fragment reads them, as a copy (R41). -/
def State.maskCopy (s : State) (x : Frag) : Tab LaneMask :=
  let h := s.hoist x.hoist
  if h.split && !s.atAnchor x then x.mcopy else h.masks

/-- The new fragment that a group of lanes becomes (R38): it takes copies of the state held per fragment, and the lanes'
own part of the register writes still to come. -/
def Frag.splitOff (x : Frag) (lanes : LaneMask) (es : List Entry) (copy : Tab LaneMask) (place : Place) : Frag :=
  { x with lanes, entries := es, frozen := [], atEnd := [], frozenEnd := [], mcopy := copy, place,
           fills := x.fills.map fun w => w.restrict lanes, trap := none, async := [], badWalk := [], asking := false, hinted := [],
           sleep := none, pause := none, pinned := [] }

/-- The repetition stays with the lanes of the entry that repeats, and otherwise ends (R346). -/
def Frag.keepRep (x : Frag) (keep : Bool) : Frag := if keep then x else { x with rep := none, repc := 0 }

/-- Lanes of the issuing entry leave for a hearth or for the anchor (R38, R40): the fragment travels whole when they are
all it has, and otherwise they become a new fragment at the same instruction. DEDUCED (log 13). -/
def Ix.sendLanes (i : Ix) (s : State) (lanes : LaneMask) (dest : Nat) (lsel : BitVec 8) (anchor : Bool) (aim : Nat) :
    State :=
  if lanes = 0 then s
  else
    let x := s.frag i.f
    let copy := s.maskCopy x
    let place : Place := .departing x.gc x.slot dest lsel anchor false
    if lanes = x.lanes then s.setFrag i.f { x with place, mcopy := copy, aim := BitVec.ofNat 64 aim, hinted := [] }
    else
      let n := s.nextFrag
      let y := x.splitOff lanes [{ prio := i.e.prio, pc := i.e.pc, mask := lanes, wait := none }] copy place
      let reps := x.repeats i.e.prio i.e.pc
      let y : Frag := { y.keepRep reps with aim := BitVec.ofNat 64 aim }
      let x' : Frag := { (x.take i.e.prio i.e.pc lanes).keepRep !(reps && decide (i.e.mask &&& ~~~lanes = 0)) with
        lanes := x.lanes &&& ~~~lanes, mcopy := copy, fills := x.fills.map fun w => w.restrict (~~~lanes) }
      (({ s with nextFrag := n + 1 }.setFrag n y).setFrag i.f x').modHoist x.hoist fun h => { h with split := true }

/-! ### The end of an issue -/

/-- The instruction does not take effect now: the entry waits, its lanes trap, or they travel to the anchor first. A
fragment in handler mode never leaves its core: that is a double fault with ILLEGAL (R395). DEDUCED (log 13, 14, 16). -/
def Ix.stop (i : Ix) (st : Stop) : State :=
  match st with
  | .wait w => i.s.modFrag i.f fun x => x.waitAt i.e.prio i.e.pc w
  | .trap c a l => i.s.raise i.f i.e c a l
  | .anchor lsel =>
    if i.x.handler then i.s.raise i.f i.e Cause.illegal 0 i.e.mask
    else i.sendLanes i.s i.e.mask (coreHearth (i.s.anchorOf i.x)) (lsel.setWidth 8) true 0

/-- ILLEGAL at the instruction, for every lane of the issuing entry (R97). -/
def Ix.illegal (i : Ix) : State := i.s.raise i.f i.e Cause.illegal 0 i.e.mask

/-- An instruction with no guard-true lane only advances the PC; otherwise its body decides (R86). -/
def Ix.run (i : Ix) (body : Except Stop State) : State :=
  if i.g = 0 then i.done i.s
  else match body with
    | .ok s => s
    | .error st => i.stop st

/-- A stall hint defers an instruction that would post or migrate to a target, once (R290). DEDUCED (log 41). -/
def Ix.checkHints (i : Ix) (homes : List Nat) : Except Stop Unit :=
  let c := i.s.core i.x.gc
  match c.hints.find? fun h => homes.contains h.target && decide (i.s.now < h.deadline) with
  | some h => guardStop (!i.x.hinted.contains (i.e.prio, i.e.pc)) (.wait (.stall h.target h.deadline))
  | none => .ok ()

/-- An instruction that needs the anchor core migrates there first (R40), unless a stall hint on the anchor's hearth defers it
(R290). A handler leaves no core, so that no hint concerns it (R395). -/
def Ix.needAnchor (i : Ix) (lsel : BitVec 4) : Except Stop Unit :=
  if i.s.atAnchor i.x then .ok ()
  else do
    if i.x.handler then pure () else i.checkHints [coreHearth (i.s.anchorOf i.x)]
    .error (.anchor lsel)

/-- An instruction of the anchor core makes its checks where its fragment stands, so that it traps before it moves. Away from the anchor
it then migrates there, and makes them again, behind `room`: what it waits for at the anchor before its checks (R40, R182, R188, R214,
R260). DESIGN CHOICE (log 111). -/
def Ix.anchored {α : Type} (i : Ix) (lsel : BitVec 4) (room : Except Stop Unit) (checks : Except Stop α) : Except Stop α := do
  if i.s.atAnchor i.x then room
  else do
    let _ ← checks
    i.needAnchor lsel
  checks

/-- A write of a mask register by a fragment that is away while the hoist is split migrates to the anchor first (R40), with
the live set that the instruction names, and selector 0 where it has no selector. DEDUCED (log 14). -/
def Ix.maskHome (i : Ix) (d : Opnd) (lsel : BitVec 4 := 0) : Except Stop Unit :=
  match d with
  | .m _ => if i.h.split then i.needAnchor lsel else .ok ()
  | _ => .ok ()

/-! ### Lane-by-lane instructions -/

/-- The sources of an instruction with their widths. -/
def Ix.uses (_ : Ix) (hd : Hdr) (o : Ops) (wa wb wc : Wd) : List Use :=
  [{ o := o.a, n := wa.regs, bit := hd.ea }, { o := o.b, n := wb.regs, bit := hd.eb },
   { o := o.c, n := wc.regs, bit := hd.ec }]

/-- The registers of a destination of a type. -/
def Ty.regs (t : Ty) : Nat := if t.wide then 2 else 1

/-- The results lane by lane of a function of the three sources. -/
def Ix.map3 (i : Ix) (o : Ops) (wa wb wc : Wd) (f : DWord → DWord → DWord → DWord) : List (Nat × Val) :=
  (lanesOf i.g).map fun l =>
    let a := i.read o.a wa l
    let b := i.read o.b wb l
    let c := i.read o.c wc l
    (l, { bits := f a.bits b.bits c.bits, poison := a.poison || b.poison || c.poison })

/-- Write lane results and go on; a mark that the destination drops is counted (R417). -/
def Ix.finish (i : Ix) (o : Opnd) (t : Ty) (rs : List (Nat × Val)) : State :=
  i.done (i.countUse (dropsMark o && rs.any fun r => r.2.poison) (i.write i.s o t rs))

/-- Write lane results, then a bit for each lane of G to a second, predicate-role destination, and go on (R155, R156). -/
def Ix.finish2 (i : Ix) (o d2 : Opnd) (t : Ty) (rs : List (Nat × Val)) (b : LaneMask) : State :=
  i.done (i.writePred (i.countUse (dropsMark o && rs.any fun r => r.2.poison) (i.write i.s o t rs)) d2 i.g b)

/-- An instruction that computes D lane by lane from A, B and C: checks, effect, and on to the next instruction. -/
def Ix.alu (i : Ix) (hd : Hdr) (o : Ops) (wa wb wc : Wd) (t : Ty) (f : DWord → DWord → DWord → DWord) : State :=
  i.run do
    i.checkSources (i.uses hd o wa wb wc) i.g
    i.checkDests [(o.d, Ty.regs t)]
    i.maskHome o.d
    pure (i.finish o.d t (i.map3 o wa wb wc f))

/-- A compare: one bit for each lane from A, B and C, written to two predicates under PCT (R87). -/
def Ix.compare (i : Ix) (hd : Hdr) (o : Ops) (p : Pct) (wa wb wc : Wd) (f : DWord → DWord → DWord → Bool) : State :=
  let j := i.part p
  j.run do
    j.checkSources (j.uses hd o wa wb wc) j.g
    let rs := j.map3 o wa wb wc fun a b c => if f a b c then 1 else 0
    let c := maskOf fun l => rs.any fun r => r.1 = l && r.2.bits.getLsbD 0
    pure (j.done (j.countUse (rs.any fun r => r.2.poison) (j.writePct j.s hd o p c)))

end Sys2Proof.Machine
end

