-- ==== Sys2Proof/Machine/Queues.lean ====
section
/-! DEFINITION. Scratchpad bytes and marks of a cast (R219, R417), the records of releases on them (R236), and queues (R64 to R67). -/

namespace Sys2Proof.Machine

/-! ### Scratchpad -/

/-- `n` bytes of scratchpad from an offset, little-endian. -/
def Cast.sread (c : Cast) (ofs : Nat) : Nat → Nat
  | 0 => 0
  | n + 1 => (Sparse.get (0 : Byte) c.spad ofs).toNat + 256 * c.sread (ofs + 1) n

/-- The bytes written, least significant first. -/
def spadWrite (l : List Host.Cell) (ofs : Nat) : Nat → Nat → List Host.Cell
  | 0, _ => l
  | n + 1, v => spadWrite (Sparse.set (0 : Byte) l ofs (BitVec.ofNat 8 v)) (ofs + 1) n (v / 256)

/-- The mark of the scratchpad word at offset 4w. -/
def Cast.smark (c : Cast) (w : Nat) : Bool := Sparse.get false c.spoison w
/-- Some word that the bytes touch is poisoned. -/
def Cast.spoisoned (c : Cast) (ofs n : Nat) : Bool := (wordsOf ofs n).any c.smark

/-- Write `n` bytes with a mark (R417). -/
def Cast.swriteOne (c : Cast) (ofs n v : Nat) (poison : Bool) : Cast :=
  { c with
    spad := spadWrite c.spad ofs n v
    spoison := (wordsOf ofs n).foldl (fun m w => Sparse.set false m w (markWrite c.smark ofs n poison w)) c.spoison }

/-- Write `n` bytes; the words of an 8-byte value have marks of their own (R417). -/
def Cast.swrite (c : Cast) (ofs n v : Nat) (poison : Bool) (hi : Bool := poison) : Cast :=
  if n = 8 ∧ hi ≠ poison then (c.swriteOne ofs 4 v poison).swriteOne (ofs + 4) 4 (v / 2 ^ 32) hi else c.swriteOne ofs n v poison

/-- `n` bytes of scratchpad as a value; 8 bytes have a mark for each word (R417). -/
def Cast.sval (c : Cast) (ofs n : Nat) : Val :=
  { bits := BitVec.ofNat 64 (c.sread ofs n), poison := c.spoisoned ofs n
    words := if n = 8 then some (c.spoisoned ofs 4, c.spoisoned (ofs + 4) 4) else none }

/-- The bytes of a cast's allocation (R73, R219). -/
def State.spadBytes (s : State) (c : Nat) : Nat := (s.pour (s.cast c).pour).spad

/-! ### Queues -/

/-- KIND of a binding word (R64). -/
def Queue.kind (q : Queue) : Nat := field q.bind.toNat 3 0
/-- CAP of a binding word. -/
def Queue.cap (q : Queue) : Nat := field q.bind.toNat 23 8
/-- The bytes of an element. -/
def Queue.esize (q : Queue) : Nat := if q.bind.getLsbD 4 then 8 else 4
/-- BASE of a binding word. -/
def Queue.base (q : Queue) : Nat := field q.bind.toNat 54 32
/-- The elements that the ring holds; the counters are 32 bits wide (R404). -/
def Queue.count (q : Queue) : Nat := (q.tail + 2 ^ 32 - q.head) % 2 ^ 32
/-- The scratchpad offset of ring position `k`. -/
def Queue.slot (q : Queue) (k : Nat) : Nat := q.base + (k % q.cap) * q.esize

/-- Queue `q` of a cast. -/
def Cast.queue (c : Cast) (q : Nat) : Queue := Sparse.get .unbound c.queues q
/-- Replace a queue. -/
def Cast.setQueue (c : Cast) (q : Nat) (x : Queue) : Cast := { c with queues := Sparse.set .unbound c.queues q x }

/-- Put elements at the tail of a queue, in order. -/
def Cast.push (c : Cast) (q : Nat) : List Val → Cast
  | [] => c
  | v :: vs =>
    let x := c.queue q
    ((c.swrite (x.slot x.tail) x.esize v.bits.toNat v.lo v.hi).setQueue q { x with tail := (x.tail + 1) % 2 ^ 32 }).push q vs

/-- The element at ring position `k`. -/
def Cast.element (c : Cast) (x : Queue) (k : Nat) : Val := c.sval (x.slot k) x.esize

/-- The first `n` elements of a queue. -/
def Cast.heads (c : Cast) (q n : Nat) : List Val :=
  let x := c.queue q
  (List.range n).map fun k => c.element x (x.head + k)

/-- The key of a scratchpad location among the records of its anchor core. -/
def spadKey (cast ofs : Nat) : Nat := cast * 2 ^ 24 + ofs

/-- A write at the anchor replaces or removes the records of its scratchpad location (R236). -/
def State.noteSpad (s : State) (gc cast ofs n : Nat) (rel : Option (Nat × Nat)) : State :=
  let old := (s.core gc).records
  let kept := old.filter fun r => !meets r.pa r.size (spadKey cast ofs) n
  let new : List RelRec := match rel with
    | some (g, count) => kept.drop (kept.length - 63) ++ [{ pa := spadKey cast ofs, size := n, gc := g, count }]
    | none => kept
  if new = old then s else s.modCore gc fun c => { c with records := new }

/-- Elements are put at the tail of a queue of a cast, as writes of its scratchpad (R64, R236). -/
def State.pushQueue (s : State) (c q : Nat) (vs : List Val) : State :=
  let x := (s.cast c).queue q
  (List.range vs.length).foldl (fun a k => a.noteSpad (s.cast c).anchor c (x.slot (x.tail + k)) x.esize none)
    (s.modCast c fun k => k.push q vs)

/-- Take `n` elements from the head of a queue. -/
def Cast.pop (c : Cast) (q n : Nat) : Cast :=
  let x := c.queue q
  c.setQueue q { x with head := (x.head + n) % 2 ^ 32 }

end Sys2Proof.Machine
end

