-- ==== Sys2Proof/Machine/IntAlu.lean ====
section
/-! DEFINITION. The meanings of the integer, logic, move and compare instructions (R136 to R154). -/

namespace Sys2Proof.Machine

/-! ### Arithmetic of R138 -/

/-- The integer that the low bits of a value stand for under a type. -/
def intVal (t : Ty) (x : DWord) : Int :=
  if Ty.signed t then signedVal x.toNat t.bits else ((x.toNat % 2 ^ t.bits : Nat) : Int)

/-- The least value of a type. -/
def tyMin (t : Ty) : Int := if Ty.signed t then -(2 ^ (t.bits - 1) : Int) else 0
/-- The greatest value of a type. -/
def tyMax (t : Ty) : Int := if Ty.signed t then (2 ^ (t.bits - 1) : Int) - 1 else (2 ^ t.bits : Int) - 1

/-- x as the bit pattern of a type (Wrap). -/
def wrapTy (t : Ty) (x : Int) : DWord := BitVec.ofNat 64 (wrapTo x t.bits)
/-- x limited to the range of a type (Clamp). -/
def clampTy (t : Ty) (x : Int) : DWord := wrapTy t (max (tyMin t) (min (tyMax t) x))
/-- Clamp with SAT, and Wrap without it (Fit). -/
def fit (t : Ty) (sat : Bool) (x : Int) : DWord := if sat then clampTy t x else wrapTy t x

/-- The low 32 bits of an integer. -/
def low32 (x : Int) : DWord := BitVec.ofNat 64 (wrapTo x 32)

/-- The 32-bit type with the sign of an INT24 type: the result of the 24-bit products is 32 bits wide (R141). -/
def wide24 (t : Ty) : Ty := if t = .i24 then .i32 else .n32

/-- The two-source shape with an integer function. -/
def intOp2 (h : Hdr) (o : Ops) (t r : Ty) (f : Int → Int → DWord) (s : State) : State :=
  (Ix.of s h).alu h o .w32 .w32 .w32 r fun a b _ => f (intVal t a) (intVal t b)

/-- The three-source shape with an integer function; C is read as 32 bits. -/
def intOp3 (h : Hdr) (o : Ops) (t r : Ty) (f : Int → Int → DWord → DWord) (s : State) : State :=
  (Ix.of s h).alu h o .w32 .w32 .w32 r fun a b c => f (intVal t a) (intVal t b) c

/-- The one-source shape with an integer function. -/
def intOp1 (h : Hdr) (o : Ops) (t : Ty) (f : Int → DWord) (s : State) : State :=
  (Ix.of s h).alu h o .w32 .w32 .w32 t fun a _ _ => f (intVal t a)

/-- IADD (R141). -/
def execIadd (h : Hdr) (o : Ops) (t : Ty) (sat : Bool) (s : State) : Host.Outcome State Fault Refusal :=
  .next (intOp2 h o t t (fun a b => fit t sat (a + b)) s)

/-- ISUB (R141). -/
def execIsub (h : Hdr) (o : Ops) (t : Ty) (sat : Bool) (s : State) : Host.Outcome State Fault Refusal :=
  .next (intOp2 h o t t (fun a b => fit t sat (a - b)) s)

/-- The carry forms: D from A, B and the predicate C as 32-bit unsigned values, and the carry or borrow to D2 (R142). -/
def carryOp (h : Hdr) (o : Ops) (t : Ty) (f : Nat → Nat → Nat → Nat × Bool) (s : State) : State :=
  let i := Ix.of s h
  i.run do
    i.checkSources (i.uses h o .w32 .w32 .w32) i.g
    i.checkDests [(o.d, 1)]
    i.maskHome o.d
    let cin := i.predOf o.c
    let rs := (lanesOf i.g).map fun l =>
      let a := i.read o.a .w32 l
      let b := i.read o.b .w32 l
      (l, f a.bits.toNat b.bits.toNat (if cin.getLsbD l then 1 else 0), a.poison || b.poison || i.bitMark o.c)
    let ds := rs.map fun r => (r.1, ({ bits := BitVec.ofNat 64 r.2.1.1, poison := r.2.2 } : Val))
    let cs := maskOf fun l => rs.any fun r => r.1 = l && r.2.1.2
    let used := rs.any fun r => r.2.2
    pure (i.done (i.countUse (used && (dropsMark o.d || dropsMark o.d2))
      (i.writePred (i.write i.s o.d t ds) o.d2 i.g cs)))

/-- IADDC (R142). -/
def execIaddc (h : Hdr) (o : Ops) (t : Ty) (s : State) : Host.Outcome State Fault Refusal :=
  .next (carryOp h o t (fun a b c => ((a + b + c) % 2 ^ 32, decide (2 ^ 32 ≤ a + b + c))) s)

/-- ISUBB (R142). -/
def execIsubb (h : Hdr) (o : Ops) (t : Ty) (s : State) : Host.Outcome State Fault Refusal :=
  .next (carryOp h o t (fun a b c => ((a + 2 ^ 33 - b - c) % 2 ^ 32, decide (a < b + c))) s)

/-- INEG (R141). -/
def execIneg (h : Hdr) (o : Ops) (t : Ty) (sat : Bool) (s : State) : Host.Outcome State Fault Refusal :=
  .next (intOp1 h o t (fun a => fit t sat (-a)) s)

/-- IABS (R141). -/
def execIabs (h : Hdr) (o : Ops) (t : Ty) (sat : Bool) (s : State) : Host.Outcome State Fault Refusal :=
  .next (intOp1 h o t (fun a => fit t sat (if a < 0 then -a else a)) s)

/-- IMIN (R141). -/
def execImin (h : Hdr) (o : Ops) (t : Ty) (s : State) : Host.Outcome State Fault Refusal :=
  .next (intOp2 h o t t (fun a b => wrapTy t (min a b)) s)

/-- IMAX (R141). -/
def execImax (h : Hdr) (o : Ops) (t : Ty) (s : State) : Host.Outcome State Fault Refusal :=
  .next (intOp2 h o t t (fun a b => wrapTy t (max a b)) s)

/-- IMUL24: bits 31 to 0 of the product, or with HI bits 47 to 16 (R141). -/
def execImul24 (h : Hdr) (o : Ops) (t : Ty) (hi : Bool) (s : State) : Host.Outcome State Fault Refusal :=
  .next (intOp2 h o t (wide24 t)
    (fun a b => if hi then BitVec.ofNat 64 (wrapTo (a * b) 48 / 2 ^ 16) else low32 (a * b)) s)

/-- IMAD24 (R141). -/
def execImad24 (h : Hdr) (o : Ops) (t : Ty) (s : State) : Host.Outcome State Fault Refusal :=
  .next (intOp3 h o t (wide24 t) (fun a b c => low32 (a * b + (c.toNat % 2 ^ 32 : Nat))) s)

/-- IMUL (R141). -/
def execImul (h : Hdr) (o : Ops) (t : Ty) (s : State) : Host.Outcome State Fault Refusal :=
  .next (intOp2 h o t t (fun a b => low32 (a * b)) s)

/-- IMULHI (R141). -/
def execImulhi (h : Hdr) (o : Ops) (t : Ty) (s : State) : Host.Outcome State Fault Refusal :=
  .next (intOp2 h o t t (fun a b => BitVec.ofNat 64 (wrapTo (a * b) 64 / 2 ^ 32)) s)

/-- IMAD (R141). -/
def execImad (h : Hdr) (o : Ops) (t : Ty) (s : State) : Host.Outcome State Fault Refusal :=
  .next (intOp3 h o t t (fun a b c => low32 (a * b + (c.toNat % 2 ^ 32 : Nat))) s)

/-- Byte `k` of a word, signed or not (R143). -/
def byteOf (x : DWord) (k : Nat) (signed : Bool) : Int :=
  let b := x.toNat / 2 ^ (8 * k) % 256
  if signed then signedVal b 8 else (b : Int)

/-- IDOT4 (R143). -/
def execIdot4 (h : Hdr) (o : Ops) (aSigned bSigned sat : Bool) (s : State) : Host.Outcome State Fault Refusal :=
  .next ((Ix.of s h).alu h o .w32 .w32 .w32 .i32 (fun a b c =>
    fit .i32 sat ((List.range 4).foldl (fun acc k => acc + byteOf a k aSigned * byteOf b k bSigned)
      (signedVal c.toNat 32))))

/-- ISAD: the absolute difference and C, modulo 2³² (R141). -/
def execIsad (h : Hdr) (o : Ops) (t : Ty) (s : State) : Host.Outcome State Fault Refusal :=
  .next (intOp3 h o t (if Ty.signed t then .i32 else .n32)
    (fun a b c => low32 ((if a < b then b - a else a - b) + (c.toNat % 2 ^ 32 : Nat))) s)

/-- ICLAMP (R141). -/
def execIclamp (h : Hdr) (o : Ops) (t : Ty) (s : State) : Host.Outcome State Fault Refusal :=
  .next (intOp3 h o t t (fun a b c => wrapTy t (min (max a b) (intVal t c))) s)

/-! ### Logic, shifts, bit fields (R144 to R146) -/

/-- B32 or B64. -/
def bwTy (w64 : Bool) : Ty := if w64 then .b64 else .b32

/-- A bitwise function of two sources (R144). -/
def logic2 (h : Hdr) (o : Ops) (w64 : Bool) (f : DWord → DWord → DWord) (s : State) : State :=
  (Ix.of s h).alu h o (.bw w64) (.bw w64) (.bw w64) (bwTy w64) fun a b _ => f a b

/-- AND (R144). -/
def execAnd (h : Hdr) (o : Ops) (w64 : Bool) (s : State) : Host.Outcome State Fault Refusal :=
  .next (logic2 h o w64 (fun a b => a &&& b) s)

/-- OR (R144). -/
def execOr (h : Hdr) (o : Ops) (w64 : Bool) (s : State) : Host.Outcome State Fault Refusal :=
  .next (logic2 h o w64 (fun a b => a ||| b) s)

/-- XOR (R144). -/
def execXor (h : Hdr) (o : Ops) (w64 : Bool) (s : State) : Host.Outcome State Fault Refusal :=
  .next (logic2 h o w64 (fun a b => a ^^^ b) s)

/-- NOT (R144). -/
def execNot (h : Hdr) (o : Ops) (w64 : Bool) (s : State) : Host.Outcome State Fault Refusal :=
  .next (logic2 h o w64 (fun a _ => ~~~a) s)

/-- ANDN (R144). -/
def execAndn (h : Hdr) (o : Ops) (w64 : Bool) (s : State) : Host.Outcome State Fault Refusal :=
  .next (logic2 h o w64 (fun a b => a &&& ~~~b) s)

/-- The bitwise function of three sources with truth table `f`: the index takes A as bit 0, B as bit 1, C as bit 2
(R144). -/
def tableOf (f : BitVec 8) (a b c : DWord) : DWord :=
  (List.range 8).foldl (fun acc k =>
    if f.getLsbD k then
      acc ||| ((if k.testBit 0 then a else ~~~a) &&& (if k.testBit 1 then b else ~~~b) &&&
        (if k.testBit 2 then c else ~~~c))
    else acc) 0

/-- BOOL3 (R144). -/
def execBool3 (h : Hdr) (o : Ops) (w64 : Bool) (table : BitVec 8) (s : State) : Host.Outcome State Fault Refusal :=
  .next ((Ix.of s h).alu h o (.bw w64) (.bw w64) (.bw w64) (bwTy w64) (tableOf table))

/-- A shift of `w` bits to the left: the count of R145, modulo the width with WRAP, and zero from the width up. -/
def shiftLeft (w : Nat) (wrap : Bool) (a n : Nat) : Nat :=
  let k := if wrap then n % w else n
  if w ≤ k then 0 else a * 2 ^ k % 2 ^ w

/-- A shift of `w` bits to the right with zero fill (R145). -/
def shiftRight (w : Nat) (wrap : Bool) (a n : Nat) : Nat :=
  let k := if wrap then n % w else n
  if w ≤ k then 0 else a / 2 ^ k

/-- A shift of `w` bits to the right with sign fill (R145). -/
def shiftArith (w : Nat) (wrap : Bool) (a n : Nat) : Nat :=
  let k := min (if wrap then n % w else n) (w - 1)
  wrapTo (signedVal a w / (2 ^ k : Int)) w

/-- A shift of 32 bits whose count is B. -/
def shift32 (h : Hdr) (o : Ops) (f : Nat → Nat → Nat) (s : State) : State :=
  (Ix.of s h).alu h o .w32 .w32 .w32 .b32 fun a b _ => BitVec.ofNat 64 (f (a.toNat % 2 ^ 32) (b.toNat % 2 ^ 32))

/-- SHL (R145). -/
def execShl (h : Hdr) (o : Ops) (wrap : Bool) (s : State) : Host.Outcome State Fault Refusal :=
  .next (shift32 h o (shiftLeft 32 wrap) s)

/-- SHR (R145). -/
def execShr (h : Hdr) (o : Ops) (wrap : Bool) (s : State) : Host.Outcome State Fault Refusal :=
  .next (shift32 h o (shiftRight 32 wrap) s)

/-- SAR (R145). -/
def execSar (h : Hdr) (o : Ops) (wrap : Bool) (s : State) : Host.Outcome State Fault Refusal :=
  .next (shift32 h o (shiftArith 32 wrap) s)

/-- ROTL (R144). -/
def execRotl (h : Hdr) (o : Ops) (s : State) : Host.Outcome State Fault Refusal :=
  .next (shift32 h o (fun a b => (a * 2 ^ (b % 32)) % 2 ^ 32 + a / 2 ^ (32 - b % 32)) s)

/-- FUNNEL: C above A, shifted by B modulo 32 (R145). -/
def execFunnel (h : Hdr) (o : Ops) (left : Bool) (s : State) : Host.Outcome State Fault Refusal :=
  .next ((Ix.of s h).alu h o .w32 .w32 .w32 .b32 (fun a b c =>
    let v := c.toNat % 2 ^ 32 * 2 ^ 32 + a.toNat % 2 ^ 32
    let n := b.toNat % 32
    BitVec.ofNat 64 (if left then v * 2 ^ n / 2 ^ 32 % 2 ^ 32 else v / 2 ^ n % 2 ^ 32)))

/-- The field of BFE (R146). -/
def bfeOf (signed : Bool) (a b : Nat) : Nat :=
  let p := min (b % 256) 32
  let n := min (b / 256 % 256) 32
  let x : Int := if signed then signedVal a 32 else ((a % 2 ^ 32 : Nat) : Int)
  let f := wrapTo (x / (2 ^ p : Int)) n
  if n = 0 then 0 else if signed then wrapTo (signedVal f n) 32 else f

/-- BFE (R146). -/
def execBfe (h : Hdr) (o : Ops) (signed : Bool) (s : State) : Host.Outcome State Fault Refusal :=
  .next ((Ix.of s h).alu h o .w32 .w32 .w32 (if signed then .i32 else .n32)
    (fun a b _ => BitVec.ofNat 64 (bfeOf signed a.toNat b.toNat)))

/-- The bits that BFI replaces: positions p to p + n − 1 that stay below 32 (R146). -/
def bfiOf (a b c : Nat) : Nat :=
  let p := b % 256
  let n := b / 256 % 256
  (List.range 32).foldl (fun acc k =>
    let bit := if p ≤ k ∧ k < p + n then a.testBit (k - p) else c.testBit k
    if bit then acc + 2 ^ k else acc) 0

/-- BFI (R146). -/
def execBfi (h : Hdr) (o : Ops) (s : State) : Host.Outcome State Fault Refusal :=
  .next ((Ix.of s h).alu h o .w32 .w32 .w32 .b32
    (fun a b c => BitVec.ofNat 64 (bfiOf a.toNat b.toNat c.toNat)))

/-- The number of set bits among the low `w`. -/
def popcount (w x : Nat) : Nat := ((List.range w).filter fun k => x.testBit k).length
/-- The number of zeros above the highest set bit of `w` bits. -/
def leadingZeros (w x : Nat) : Nat := if x % 2 ^ w = 0 then w else w - 1 - Nat.log2 (x % 2 ^ w)
/-- The number of zeros below the lowest set bit of `w` bits. -/
def trailingZeros (w x : Nat) : Nat := ((List.range w).find? fun k => x.testBit k).getD w
/-- The low `w` bits in the opposite order. -/
def bitReverse (w x : Nat) : Nat :=
  (List.range w).foldl (fun acc k => if x.testBit (w - 1 - k) then acc + 2 ^ k else acc) 0

/-- A count of bits, 32 bits wide whatever the type (R144). -/
def countOp (h : Hdr) (o : Ops) (w64 : Bool) (f : Nat → Nat → Nat) (s : State) : State :=
  (Ix.of s h).alu h o (.bw w64) .w32 .w32 .n32 fun a _ _ => BitVec.ofNat 64 (f (if w64 then 64 else 32) a.toNat)

/-- POPC (R144). -/
def execPopc (h : Hdr) (o : Ops) (w64 : Bool) (s : State) : Host.Outcome State Fault Refusal :=
  .next (countOp h o w64 popcount s)

/-- CLZ (R144). -/
def execClz (h : Hdr) (o : Ops) (w64 : Bool) (s : State) : Host.Outcome State Fault Refusal :=
  .next (countOp h o w64 leadingZeros s)

/-- CTZ (R144, R147). -/
def execCtz (h : Hdr) (o : Ops) (w64 : Bool) (s : State) : Host.Outcome State Fault Refusal :=
  .next (countOp h o w64 trailingZeros s)

/-- BREV (R144). -/
def execBrev (h : Hdr) (o : Ops) (w64 : Bool) (s : State) : Host.Outcome State Fault Refusal :=
  .next (logic2 h o w64 (fun a _ => BitVec.ofNat 64 (bitReverse (if w64 then 64 else 32) a.toNat)) s)

/-! ### Moves and address arithmetic (R147, R148, R151) -/

/-- MOVI writes its literal; with HI it replaces the high half and keeps the low half with its marks (R148): of a pair it
writes the second register alone. -/
def execMovi (h : Hdr) (o : Ops) (w64 hi : Bool) (s : State) : Host.Outcome State Fault Refusal :=
  let i := Ix.of s h
  .next (if hi then i.run do
      i.checkDests [(o.d, 2)]
      let lit := (i.uniform o.b .w32).bits
      pure (match o.d with
        | .v r => i.finish (.v (r + 1)) .b32 ((lanesOf i.g).map fun l => (l, { bits := lit, poison := false }))
        | d =>
          let old := i.uniform d (.bw true)
          i.finish d .b64 ((lanesOf i.g).map fun l =>
            (l, { bits := (lit.setWidth 32 : Word) ++ (old.bits.setWidth 32 : Word), poison := old.poison })))
    else i.alu h o .w32 (.bw w64) .w32 (bwTy w64) fun _ b _ => b)

/-- SEL: A where the predicate C holds, else B (R147). -/
def execSel (h : Hdr) (o : Ops) (w64 : Bool) (s : State) : Host.Outcome State Fault Refusal :=
  let i := Ix.of s h
  .next (i.run do
    i.checkSources (i.uses h o (.bw w64) (.bw w64) .w32) i.g
    i.checkDests [(o.d, Ty.regs (bwTy w64))]
    i.maskHome o.d
    let c := i.predOf o.c
    let rs := (lanesOf i.g).map fun l =>
      let a := i.read o.a (.bw w64) l
      let b := i.read o.b (.bw w64) l
      (l, ({ bits := if c.getLsbD l then a.bits else b.bits, poison := a.poison || b.poison || i.bitMark o.c } : Val))
    pure (i.finish o.d (bwTy w64) rs))

/-- A 64-bit function of two 64-bit sources; the type extends a literal (R82, R147). -/
def wideOp (h : Hdr) (o : Ops) (t : Ty) (f : DWord → DWord → DWord) (s : State) : State :=
  (Ix.of s h).alu h o (.of t) (.of t) .w32 t fun a b _ => f a b

/-- ADD64 (R147). -/
def execAdd64 (h : Hdr) (o : Ops) (t : Ty) (s : State) : Host.Outcome State Fault Refusal :=
  .next (wideOp h o t (fun a b => a + b) s)

/-- SUB64 (R147). -/
def execSub64 (h : Hdr) (o : Ops) (t : Ty) (s : State) : Host.Outcome State Fault Refusal :=
  .next (wideOp h o t (fun a b => a - b) s)

/-- LEA: a 64-bit base and a scaled 32-bit index (R148). -/
def execLea (h : Hdr) (o : Ops) (signed : Bool) (scale : BitVec 2) (s : State) : Host.Outcome State Fault Refusal :=
  .next ((Ix.of s h).alu h o (.bw true) .w32 .w32 .b64 (fun a b _ =>
    let k : DWord := if signed then (b.setWidth 32 : Word).signExtend 64 else (b.setWidth 32 : Word).setWidth 64
    a + k * BitVec.ofNat 64 (2 ^ scale.toNat)))

/-- SHL64 (R147). -/
def execShl64 (h : Hdr) (o : Ops) (wrap : Bool) (s : State) : Host.Outcome State Fault Refusal :=
  .next (wideOp h o .b64 (fun a b => BitVec.ofNat 64 (shiftLeft 64 wrap a.toNat (b.toNat % 2 ^ 32))) s)

/-- SHR64 (R147). -/
def execShr64 (h : Hdr) (o : Ops) (wrap arith : Bool) (s : State) : Host.Outcome State Fault Refusal :=
  .next (wideOp h o .b64 (fun a b =>
    BitVec.ofNat 64 ((if arith then shiftArith else shiftRight) 64 wrap a.toNat (b.toNat % 2 ^ 32))) s)

/-! ### Compares and predicate logic (R152 to R154) -/

/-- A condition of ICMP on two integers (R152). -/
def Cond.holds (c : Cond) (a b : Int) : Bool :=
  match c with
  | .eq => a = b
  | .ne => a ≠ b
  | .lt => a < b
  | .le => a ≤ b
  | .gt => b < a
  | .ge => b ≤ a
  | .num | .nan => false

/-- ICMP (R152). -/
def execIcmp (h : Hdr) (o : Ops) (t : Ty) (cond : Cond) (pct : Pct) (s : State) : Host.Outcome State Fault Refusal :=
  .next ((Ix.of s h).compare h o pct .w32 .w32 .w32 (fun a b _ => Cond.holds cond (intVal t a) (intVal t b)))

/-- ICMP64 (R152). -/
def execIcmp64 (h : Hdr) (o : Ops) (t : Ty) (cond : Cond) (pct : Pct) (s : State) : Host.Outcome State Fault Refusal :=
  .next ((Ix.of s h).compare h o pct (.of t) (.of t) .w32 (fun a b _ => Cond.holds cond (intVal t a) (intVal t b)))

/-- PBOOL (R153). -/
def execPbool (h : Hdr) (o : Ops) (table : BitVec 8) (pct : Pct) (s : State) : Host.Outcome State Fault Refusal :=
  let i := (Ix.of s h).part pct
  let v (m : LaneMask) : DWord := m.setWidth 64
  .next (i.run do
    i.checkSources (i.uses h o .w32 .w32 .w32) i.g
    pure (i.done (i.countUse (i.bitMark o.a || i.bitMark o.b || i.bitMark o.c) (i.writePct i.s h o pct
      ((tableOf table (v (i.predOf o.a)) (v (i.predOf o.b)) (v (i.predOf o.c))).setWidth 32)))))

/-- The sixteen predicates of a lane, p0 as bit 0 (R154). -/
def Hoist.packed (h : Hoist) (l : Nat) : Nat :=
  (List.range 16).foldl (fun a p => if (h.pred (BitVec.ofNat 4 p)).getLsbD l then a + 2 ^ p else a) 0

/-- The sixteen predicates as sources. -/
def allPreds : List Use := (List.range 16).map fun k => { o := .p (BitVec.ofNat 4 k), n := 1, bit := false }

/-- PMOV (R154). PMOV.BIT with a predicate as source A, for which the table gives no effect, takes the predicate's bit of the
lane, as a predicate reads in a B32 operand (R57). DESIGN CHOICE (log 120). -/
def execPmov (h : Hdr) (o : Ops) (mode : PmovMode) (s : State) : Host.Outcome State Fault Refusal :=
  let i := Ix.of s h
  .next (match mode with
    | .bit => i.run do
        i.checkSources (i.uses h o .w32 .w32 .w32) i.g
        let pick (l : Nat) : Bool := match o.a with
          | .s _ | .m _ => (i.read o.a .w32 l).bits.getLsbD l
          | _ => (i.read o.a .w32 l).bits.getLsbD 0
        let used := (lanesOf i.g).any fun l => (i.read o.a .w32 l).poison
        pure (i.done (i.countUse used (i.writePred i.s o.d i.g (maskOf pick))))
    | .pack => i.run do
        i.checkSources allPreds i.g
        i.checkDests [(o.d, 1)]
        i.maskHome o.d
        let bad := allPreds.any fun u => i.bitMark u.o
        pure (i.finish o.d .b32 ((lanesOf i.g).map fun l => (l, { bits := BitVec.ofNat 64 (i.h.packed l), poison := bad })))
    | .unpack => i.run do
        i.checkSources (i.uses h o .w32 .w32 .w32) i.g
        let used := (lanesOf i.g).any fun l => (i.read o.a .w32 l).poison
        let s1 := (List.range 16).foldl (fun a p =>
          i.writePred a (.p (BitVec.ofNat 4 p)) i.g (maskOf fun l => (i.read o.a .w32 l).bits.getLsbD p)) i.s
        pure (i.done (i.countUse used s1)))

end Sys2Proof.Machine
end

