-- ==== Sys2Proof/Machine/Float.lean ====
section
/-! DEFINITION. The floating-point formats and their exact values (R114 to R118), rounding (R123 to R126) and the exact
arithmetic of the floating-point instructions (R127, R164, R165). -/

namespace Sys2Proof.Machine

/-- The formats of R114 that carry a sign. -/
inductive Fmt where
  | fp32 | fp16 | bf16 | tf32 | e4m3 | e5m2 | e2m1
  deriving DecidableEq, Repr

/-- An exact value: NaN, an infinity, or (−1)^neg × m × 2^e; m = 0 is a signed zero. -/
inductive FV where
  | nan
  | inf (neg : Bool)
  | fin (neg : Bool) (m : Nat) (e : Int)
  deriving DecidableEq, Repr

/-- Mantissa width (R114); TF32 keeps 10 bits. -/
def Fmt.mbits : Fmt → Nat
  | .fp32 => 23 | .fp16 => 10 | .bf16 => 7 | .tf32 => 10 | .e4m3 => 3 | .e5m2 => 2 | .e2m1 => 1
/-- Exponent width (R114). -/
def Fmt.ebits : Fmt → Nat
  | .fp32 => 8 | .fp16 => 5 | .bf16 => 8 | .tf32 => 8 | .e4m3 => 4 | .e5m2 => 5 | .e2m1 => 2
/-- Exponent bias (R114). -/
def Fmt.bias : Fmt → Int
  | .fp32 => 127 | .fp16 => 15 | .bf16 => 127 | .tf32 => 127 | .e4m3 => 7 | .e5m2 => 15 | .e2m1 => 1
/-- Least exponent of a normal number (R114). -/
def Fmt.emin (f : Fmt) : Int := 1 - f.bias
/-- Whether the format has infinities (R114). -/
def Fmt.hasInf : Fmt → Bool
  | .e4m3 | .e2m1 => false
  | _ => true
/-- The low bits of the container below the mantissa: 13 for TF32 (R116). -/
def Fmt.low : Fmt → Nat
  | .tf32 => 13
  | _ => 0
/-- MaxFinite as a mantissa and an exponent (R114). -/
def Fmt.maxFin : Fmt → Nat × Int
  | .e4m3 => (14, 5)
  | .e2m1 => (3, 1)
  | f => (2 ^ (f.mbits + 1) - 1, (2 ^ f.ebits - 2 : Int) - f.bias - f.mbits)
/-- The canonical NaN (R114); E2M1 has none. -/
def Fmt.canonNan : Fmt → Nat
  | .fp32 => 0x7FC00000 | .fp16 => 0x7E00 | .bf16 => 0x7FC0 | .tf32 => 0x7FC00000 | .e4m3 => 0x7F | .e5m2 => 0x7E
  | .e2m1 => 0

/-- The format of a floating type; other types are never asked. -/
def Fmt.ofTy : Ty → Fmt
  | .f16 => .fp16 | .bf16 => .bf16 | .tf32 => .tf32 | .e4m3 => .e4m3 | .e5m2 => .e5m2 | .e2m1 => .e2m1 | _ => .fp32

/-- The exact value of a code (R114 to R117). -/
def Fmt.val (f : Fmt) (c : Nat) : FV :=
  let x := c / 2 ^ f.low
  let m := x % 2 ^ f.mbits
  let e := x / 2 ^ f.mbits % 2 ^ f.ebits
  let s := (x / 2 ^ (f.mbits + f.ebits)) % 2 = 1
  if f.hasInf && e = 2 ^ f.ebits - 1 then (if m = 0 then .inf s else .nan)
  else if f = .e4m3 && e = 15 && m = 7 then .nan
  else if e = 0 then .fin s m (f.emin - f.mbits)
  else .fin s (2 ^ f.mbits + m) ((e : Int) - f.bias - f.mbits)

/-- The code of a NaN. -/
def Fmt.isNan (f : Fmt) (c : Nat) : Bool := decide (f.val c = .nan)

/-- A sign bit of the format. -/
def Fmt.signBit (f : Fmt) (neg : Bool) : Nat := if neg then 2 ^ (f.low + f.mbits + f.ebits) else 0
/-- The code of an infinity. -/
def Fmt.infCode (f : Fmt) (neg : Bool) : Nat :=
  f.signBit neg + (2 ^ f.ebits - 1) * 2 ^ (f.low + f.mbits)

/-- m × 2^k for any integer k, rounding toward zero. -/
def scale2 (m : Nat) (k : Int) : Nat := if 0 ≤ k then m * 2 ^ k.toNat else m / 2 ^ (-k).toNat

/-- The code of a value that the format holds exactly. -/
def Fmt.encode (f : Fmt) (neg : Bool) (m : Nat) (e : Int) : Nat :=
  let ex := (Nat.log2 m : Int) + e
  let body :=
    if m = 0 then 0
    else if ex < f.emin then scale2 m (e - (f.emin - f.mbits))
    else (ex + f.bias).toNat * 2 ^ f.mbits + (scale2 m ((f.mbits : Int) - Nat.log2 m) - 2 ^ f.mbits)
  f.signBit neg + body * 2 ^ f.low

/-- Whether m × 2^e exceeds MaxFinite. -/
def Fmt.exceeds (f : Fmt) (m : Nat) (e : Int) : Bool :=
  let k := min e f.maxFin.2
  decide (f.maxFin.1 * 2 ^ (f.maxFin.2 - k).toNat < m * 2 ^ (e - k).toNat)

/-- MaxFinite with a sign. -/
def Fmt.maxCode (f : Fmt) (neg : Bool) : Nat := f.encode neg f.maxFin.1 f.maxFin.2

/-- Overflow (R125). -/
def Fmt.overflow (f : Fmt) (neg : Bool) (mode : Rm) (sat : Bool) : Nat :=
  if sat then f.maxCode neg
  else match f with
    | .e4m3 => 0x7F
    | .e2m1 => f.maxCode neg
    | _ =>
      match mode with
      | .rne | .sr => f.infCode neg
      | .rtz => f.maxCode neg
      | .rup => if neg then f.maxCode true else f.infCode false
      | .rdn => if neg then f.infCode true else f.maxCode false

/-- Whether the magnitude goes to the upper neighbour: `lo` the lower one in quanta, `rem ÷ den` the fraction (R124). -/
def roundsUp (mode : Rm) (neg : Bool) (lo rem den rnd : Nat) : Bool :=
  match mode with
  | .rne => decide (den < 2 * rem) || (decide (2 * rem = den) && lo % 2 = 1)
  | .rtz => false
  | .rup => !neg && decide (rem ≠ 0)
  | .rdn => neg && decide (rem ≠ 0)
  | .sr => decide (2 ^ 32 ≤ rem * 2 ^ 32 / den + rnd)

/-- m × 2^e in quanta of 2^q, rounded to an integer (R124). Far below the quantum, any nonzero fraction stands for it. -/
def roundQ (mode : Rm) (neg : Bool) (m : Nat) (e q : Int) (rnd : Nat) : Nat :=
  if q ≤ e then m * 2 ^ (e - q).toNat
  else
    let sh := (q - e).toNat
    if Nat.log2 m + 40 < sh then (if roundsUp mode neg 0 1 (2 ^ 40) rnd && m ≠ 0 then 1 else 0)
    else
      let lo := m / 2 ^ sh
      if roundsUp mode neg lo (m % 2 ^ sh) (2 ^ sh) rnd then lo + 1 else lo

/-- Round(x, T, mode, sat, rnd) for a floating T (R124). -/
def Fmt.round (f : Fmt) (x : FV) (mode : Rm) (sat : Bool) (rnd : Nat) : Nat :=
  match x with
  | .nan => f.canonNan
  | .inf neg => if !sat && f.hasInf then f.infCode neg else f.overflow neg mode sat
  | .fin neg m e =>
    if m = 0 then f.signBit neg
    else
      let q := max ((Nat.log2 m : Int) + e) f.emin - f.mbits
      let r := roundQ mode neg m e q rnd
      if f.exceeds r q then f.overflow neg mode sat else f.encode neg r q

/-- Round(x, T, mode, 0, rnd) for an integer T: quantum 1, clamped, and 0 for NaN (R124). -/
def roundInt (t : Ty) (x : FV) (mode : Rm) (rnd : Nat) : DWord :=
  match x with
  | .nan => 0
  | .inf neg => wrapTy t (if neg then tyMin t else tyMax t)
  | .fin neg m e =>
    if 70 < (Nat.log2 m : Int) + e then wrapTy t (if neg then tyMin t else tyMax t)
    else
      let r : Int := roundQ mode neg m e 0 rnd
      clampTy t (if neg then -r else r)

/-! ### Exact arithmetic (R127) -/

/-- The sign of a value. -/
def FV.neg : FV → Bool
  | .nan => false
  | .inf s => s
  | .fin s _ _ => s

/-- The value with the opposite sign. -/
def FV.negate : FV → FV
  | .nan => .nan
  | .inf s => .inf !s
  | .fin s m e => .fin (!s) m e

/-- A signed integer in units of 2^k. -/
def signedAt (neg : Bool) (m : Nat) (e k : Int) : Int :=
  let x : Int := m * 2 ^ (e - k).toNat
  if neg then -x else x

/-- x + y, exactly; a zero sum is −0 under RDN and when both are −0, and otherwise +0 (R127). -/
def FV.add (rdn : Bool) : FV → FV → FV
  | .nan, _ => .nan
  | _, .nan => .nan
  | .inf a, .inf b => if a = b then .inf a else .nan
  | .inf a, _ => .inf a
  | _, .inf b => .inf b
  | .fin a m e, .fin b n k =>
    let c := min e k
    let x := signedAt a m e c + signedAt b n k c
    if x = 0 then .fin (rdn || (decide (m = 0 ∧ n = 0) && a && b)) 0 0
    else .fin (decide (x < 0)) x.natAbs c

/-- x − y, exactly; a difference that is exactly zero has the sign of the rounding mode, since R127 excepts sums alone. DEDUCED (log 26). -/
def FV.sub (rdn : Bool) (x y : FV) : FV :=
  match x.add rdn y.negate with
  | .fin s m e => if m = 0 then .fin rdn 0 0 else .fin s m e
  | v => v

/-- x × y, exactly (R127). -/
def FV.mul : FV → FV → FV
  | .nan, _ => .nan
  | _, .nan => .nan
  | .inf a, .inf b => .inf (a != b)
  | .inf a, .fin b n _ => if n = 0 then .nan else .inf (a != b)
  | .fin a m _, .inf b => if m = 0 then .nan else .inf (a != b)
  | .fin a m e, .fin b n k => .fin (a != b) (m * n) (e + k)

/-- x ÷ y with at least 40 bits of quotient and a bit that stands for any remainder (R164). -/
def FV.div : FV → FV → FV
  | .nan, _ => .nan
  | _, .nan => .nan
  | .inf _, .inf _ => .nan
  | .inf a, .fin b _ _ => .inf (a != b)
  | .fin a _ _, .inf b => .fin (a != b) 0 0
  | .fin a m e, .fin b n k =>
    if n = 0 then (if m = 0 then .nan else .inf (a != b))
    else
      let c := 40 + Nat.log2 n
      let q := m * 2 ^ c / n
      .fin (a != b) (2 * q + (if m * 2 ^ c % n = 0 then 0 else 1)) (e - k - c - 1)

/-- The integer square root, bit by bit from 2^k down. -/
def isqrt (x : Nat) : Nat → Nat → Nat
  | 0, r => r
  | k + 1, r => isqrt x k (if (r + 2 ^ k) * (r + 2 ^ k) ≤ x then r + 2 ^ k else r)

/-- √x with more than 30 bits and a bit that stands for any remainder (R164). -/
def FV.sqrt : FV → FV
  | .nan => .nan
  | .inf neg => if neg then .nan else .inf false
  | .fin neg m e =>
    if m = 0 then .fin neg 0 0
    else if neg then .nan
    else
      let odd : Nat := (e % 2).toNat
      let y := m * 2 ^ (60 + odd)
      let r := isqrt y 50 0
      .fin false (2 * r + (if r * r = y then 0 else 1)) ((e - odd) / 2 - 31)

/-- x × 2^n (FLDEXP). -/
def FV.ldexp (x : FV) (n : Int) : FV :=
  match x with
  | .fin s m e => .fin s m (e + n)
  | y => y

/-- x < y for values that are not NaN; the zeros are equal. -/
def FV.lt : FV → FV → Bool
  | .nan, _ => false
  | _, .nan => false
  | .inf a, .inf b => a && !b
  | .inf a, _ => a
  | _, .inf b => !b
  | .fin a m e, .fin b n k =>
    let c := min e k
    decide (signedAt a m e c < signedAt b n k c)

/-- x = y for values that are not NaN; the zeros are equal. -/
def FV.eq (x y : FV) : Bool := decide (x ≠ .nan) && decide (y ≠ .nan) && !x.lt y && !y.lt x

/-- Numerical equality of two codes (R159). -/
def Fmt.eqVal (f : Fmt) (a b : Nat) : Bool := (f.val a).eq (f.val b)

/-- A condition of FCMP on two values (R166). -/
def FV.cond (c : Cond) (x y : FV) : Bool :=
  let num := decide (x ≠ .nan) && decide (y ≠ .nan)
  match c with
  | .eq => num && x.eq y
  | .ne => !(num && x.eq y)
  | .lt => x.lt y
  | .le => num && !y.lt x
  | .gt => y.lt x
  | .ge => num && !x.lt y
  | .num => num
  | .nan => !num

/-- Whether the code orders below the other; −0 orders below +0 (R165). -/
def Fmt.below (f : Fmt) (a b : Nat) : Bool :=
  (f.val a).lt (f.val b) || ((f.val a).eq (f.val b) && (f.val a).neg && !(f.val b).neg)

/-- FMIN and FMAX on codes (R165). -/
def Fmt.minMax (f : Fmt) (isMax nanp : Bool) (a b : Nat) : Nat :=
  if f.isNan a || f.isNan b then
    (if nanp || (f.isNan a && f.isNan b) then f.canonNan else if f.isNan a then b else a)
  else if isMax then (if f.below a b then b else a)
  else (if f.below b a then b else a)

/-- Round to an integer, kept in the format (FRND, R164). -/
def Fmt.toInteger (f : Fmt) (mode : Rm) (c : Nat) : Nat :=
  match f.val c with
  | .nan => f.canonNan
  | .inf _ => c
  | .fin neg m e => if 0 ≤ e then c else f.encode neg (roundQ mode neg m e 0 0) 0

/-- Class(a) of R167. -/
def Fmt.classOf (f : Fmt) (c : Nat) : Nat :=
  match f.val c with
  | .nan => 8
  | .inf neg => if neg then 0 else 7
  | .fin neg m _ =>
    if m = 0 then (if neg then 3 else 4)
    else if m < 2 ^ f.mbits then (if neg then 2 else 5)
    else (if neg then 1 else 6)

/-- Whether the mode is RDN. -/
def Rm.isRdn (r : Rm) : Bool := decide (r = .rdn)

/-- The FADD step of SCAN, LFOLD and the atomics: round to nearest (R158, R250). -/
def F32.add (x y : DWord) : DWord :=
  BitVec.ofNat 64 (Fmt.round .fp32 ((Fmt.val .fp32 (x.toNat % 2 ^ 32)).add false (Fmt.val .fp32 (y.toNat % 2 ^ 32)))
    .rne false 0)
/-- The FMIN step without NANP. -/
def F32.minNum (x y : DWord) : DWord :=
  BitVec.ofNat 64 (Fmt.minMax .fp32 false false (x.toNat % 2 ^ 32) (y.toNat % 2 ^ 32))
/-- The FMAX step without NANP. -/
def F32.maxNum (x y : DWord) : DWord :=
  BitVec.ofNat 64 (Fmt.minMax .fp32 true false (x.toNat % 2 ^ 32) (y.toNat % 2 ^ 32))

/-! ### Scales (R118) -/

/-- The value of an E3M5 code other than 0x00 and 0xFF (R118). -/
def e3m5 (c : Nat) : FV := .fin false (32 + c % 32) ((c / 32 : Int) - 4 - 5)

end Sys2Proof.Machine
end

