-- ==== Sys2Proof/Machine/Gang.lean ====
section
/-! DEFINITION. Gangs (R36, R187): the casts of a gang, the end of its bindings (R198) and of its room on its cores; coordinates and
dependence vectors of casts (R32, R317). -/

namespace Sys2Proof.Machine

/-- The fragments of a hoist that exist. -/
def State.hoistFrags (s : State) (hk : Nat) : List Nat :=
  (s.frags.filter fun q => q.2.live && q.2.hoist = hk).map Prod.fst

/-- The hoists of a cast that are live. -/
def State.castHoists (s : State) (c : Nat) : List Nat := (s.hoists.filter fun q => q.2.live && q.2.cast = c).map Prod.fst

/-- The casts of one gang: the product P of the extents below the gang boundary (R36, R187). -/
def Pour.gangSize (p : Pour) : Nat := ((List.range (p.word 0x33 1 - 2)).map p.extent).foldl (· * ·) 1

/-- The lowest linear index of the gang of cast `i`. -/
def Pour.gangBase (p : Pour) (i : Nat) : Nat := i / p.gangSize * p.gangSize

/-- The keys of the casts of the gang of a cast, in ascending order. -/
def State.gangOf (s : State) (c : Nat) : List Nat :=
  let p := s.pour (c / 2 ^ 64)
  (List.range p.gangSize).map fun k => castKey (c / 2 ^ 64) (p.gangBase (c % 2 ^ 64) + k)

/-- The key of the cast of a gang rank (R187). -/
def State.peerOf (s : State) (c rank : Nat) : Nat :=
  castKey (c / 2 ^ 64) ((s.pour (c / 2 ^ 64)).gangBase (c % 2 ^ 64) + rank)

/-- The fragments of a cast, in order. -/
def State.castFrags (s : State) (c : Nat) : List Nat :=
  (s.frags.filter fun q => q.2.live && (s.hoist q.2.hoist).cast = c).map Prod.fst

/-- Every hoist of a cast that has started has exited (R324). -/
def State.castExited (s : State) (c : Nat) : Bool := (s.cast c).started && (s.castHoists c).isEmpty

/-- A context of a cast. -/
def Cast.ctx (c : Cast) (k : Bool) : MCtx := if k then c.c1 else c.c0
/-- Replace a context of a cast. -/
def Cast.setCtx (c : Cast) (k : Bool) (x : MCtx) : Cast := if k then { c with c1 := x } else { c with c0 := x }
/-- Change a context of a cast. -/
def State.modCtx (s : State) (c : Nat) (k : Bool) (f : MCtx → MCtx) : State :=
  s.modCast c fun x => x.setCtx k (f (x.ctx k))

/-- A leader context leads no more, and the other follows no more (R198). -/
def State.endBinding (s : State) (c : Nat) (k : Bool) : State :=
  match ((s.cast c).ctx k).leads with
  | some (d, j) => (s.modCtx c k fun x => { x with leads := none }).modCtx d j fun x => { x with follows := none }
  | none => s

/-- The binding that a leader context holds ends when the queues of both contexts are empty (R198). -/
def State.unbind (s : State) (c : Nat) (k : Bool) : State :=
  match ((s.cast c).ctx k).leads with
  | some (d, j) =>
    if ((s.cast c).ctx k).queue.isEmpty && ((s.cast d).ctx j).queue.isEmpty then s.endBinding c k else s
  | none => s

/-- The exit of a leader cast's last hoist frees every binding that it still holds (R198). -/
def State.freeBindings (s : State) (c : Nat) : State :=
  if s.castExited c then (s.unbind c false).unbind c true else s

/-- The head of a context's queue is an MFREE: what was accepted before it has retired (R182, R198). -/
def MCtx.freeDue (m : MCtx) : Bool :=
  match m.queue with
  | { op := .mfree, .. } :: _ => true
  | _ => false

/-- The head of a context retires. -/
def State.popInst (s : State) (q : Nat × Bool) : State :=
  s.modCtx q.1 q.2 fun x => { x with queue := x.queue.drop 1, retired := x.retired + 1 }

/-- MFREEs at the head of a context end its binding and retire; they take no turn of an array (R183, R198). A queue holds two
instructions at most (R182). -/
def State.retireFrees (s : State) (q : Nat × Bool) : State :=
  let one (a : State) : State := if ((a.cast q.1).ctx q.2).freeDue then (a.endBinding q.1 q.2).popInst q else a
  one (one s)

/-- A cast keeps its room no longer: its hoists have exited, no binding names it, its contexts have nothing accepted, and
no engine works for it. DEDUCED (log 57). -/
def State.castIdle (s : State) (c : Nat) : Bool :=
  let x := s.cast c
  let free (m : MCtx) : Bool := m.queue.isEmpty && m.leads.isNone && m.follows.isNone
  s.castExited c && free x.c0 && free x.c1 && s.cmds.all fun q => q.2.cast ≠ c || q.2.stage = .done

/-- The scratchpads and banks of a gang are given back when every cast of it has exited and no binding names them
(R187). DEDUCED (log 57). -/
def State.settleCast (s : State) (c : Nat) : State :=
  let s1 := s.freeBindings c
  let g := s1.gangOf c
  if g.all s1.castIdle then g.foldl (fun a k => a.modCast k Cast.emptied) s1 else s1

/-! ### Coordinates and dependences -/

/-- Coordinate k of the cast with linear index `n` (R32). -/
def Pour.coord (p : Pour) (n : Nat) : Nat → Nat
  | 0 => n % p.extent 0
  | 1 => n / p.extent 0 % p.extent 1
  | 2 => n / (p.extent 0 * p.extent 1) % p.extent 2
  | _ => n / (p.extent 0 * p.extent 1 * p.extent 2) % p.extent 3

/-- The pour releases its casts along dependence vectors (R301). -/
def Pour.deps (p : Pour) : Bool := p.flag 2

/-- The number of used vectors. -/
def Pour.depCount (p : Pour) : Nat := p.word 0x50 1
/-- Component `j` of vector `k`. -/
def Pour.dep (p : Pour) (k j : Nat) : Int := signedVal (p.word (0x40 + 4 * k + j) 1) 8

/-- The cast at a vector's offset from cast `i`, forwards or backwards, if it lies in range (R317). -/
def Pour.neighbour (p : Pour) (i : Nat) (back : Bool) (k : Nat) : Option Nat :=
  let c := (List.range 4).map fun j => (p.coord i j : Int) + (if back then - p.dep k j else p.dep k j)
  if (List.range 4).all fun j => decide (0 ≤ c.getD j 0 ∧ c.getD j 0 < p.extent j) then
    some ((c.getD 0 0 + p.extent 0 * (c.getD 1 0 + p.extent 1 * (c.getD 2 0 + p.extent 2 * c.getD 3 0))).toNat)
  else .none

/-- Insert into a rising list. -/
def insertRising (x : Nat) : List Nat → List Nat
  | [] => [x]
  | y :: ys => if x ≤ y then x :: y :: ys else y :: insertRising x ys

/-- The predecessors of a cast. -/
def Pour.preds (p : Pour) (i : Nat) : List Nat := (List.range p.depCount).filterMap (p.neighbour i false)
/-- The successors of a cast, in ascending order (R325). -/
def Pour.succs (p : Pour) (i : Nat) : List Nat :=
  ((List.range p.depCount).filterMap (p.neighbour i true)).foldr insertRising []

end Sys2Proof.Machine
end

