-- ==== Sys2Proof/Machine/Lane.lean ====
section
/-! DEFINITION. The meanings of MOVS, RDLANE and WRLANE (R149, R150) and of the cross-lane instructions (R155 to R159). -/

namespace Sys2Proof.Machine

/-! ### Special registers (R71) -/

/-- The bits of work-identifier field k: the lowest bit, from the widths of the record (R30). -/
def Pour.fieldBit (p : Pour) (k : Nat) : Nat := (List.range k).foldl (fun a j => a + p.word (0x20 + j) 1) 0

/-- The work identifier of a lane (R30). -/
def workId (p : Pour) (cast hoist lane : Nat) : Nat :=
  lane + hoist * 2 ^ p.fieldBit 1 + p.coord cast 0 * 2 ^ p.fieldBit 2 + p.coord cast 1 * 2 ^ p.fieldBit 3 +
    p.coord cast 2 * 2 ^ p.fieldBit 4 + p.coord cast 3 * 2 ^ p.fieldBit 5

/-- Clocks of a core since it left reset (R28, R71). -/
def State.clock (s : State) (gc : Nat) : Nat := s.now - (s.pkg (corePkg gc)).started

/-- The value of special register `n` in lane `l` (R71, R72). -/
def Ix.special (i : Ix) (n : Nat) (l : Nat) : Nat :=
  let c := i.s.cast i.h.cast
  let p := i.s.pour c.pour
  let k := i.s.pkg (corePkg i.x.gc)
  let t : TrapRegs := i.x.trap.getD
    { cause := 0, pc := 0, pc0 := 0, prio0 := 0, lanes := 0, addr := 0, prio := 0, em := 0, scr0 := 0, scr1 := 0,
      scr2 := 0, scr3 := 0 }
  match n with
  | 0x00 => l
  | 0x01 => i.h.index
  | 0x02 => p.coord c.index 0
  | 0x03 => p.coord c.index 1
  | 0x04 => p.coord c.index 2
  | 0x05 => p.coord c.index 3
  | 0x06 => workId p c.index i.h.index l % 2 ^ 64
  | 0x07 => c.index % 2 ^ 32
  | 0x08 => i.x.gc % 128
  | 0x09 => coreHearth i.x.gc % 16
  | 0x0A => corePkg i.x.gc
  | 0x0B => if k.short then 96 else 128
  | 0x0C => if k.short then 12 else 16
  | 0x0D => c.anchor % 128
  | 0x0E => i.x.slot
  | 0x0F => i.s.clock i.x.gc % 2 ^ 64
  | 0x10 => i.e.mask.toNat
  | 0x11 => i.x.wbase
  | 0x12 => p.ctx.toNat
  | 0x13 => p.count % 2 ^ 32
  | 0x20 => t.cause.toNat
  | 0x21 => t.pc.toNat
  | 0x22 => t.lanes.toNat
  | 0x23 => t.addr.toNat
  | _ => 0

/-- A handler register (R71). -/
def handlerReg (n : Nat) : Bool := decide (0x20 ≤ n ∧ n ≤ 0x23)

/-- MOVS (R149); a handler register outside handler mode raises ILLEGAL before any other check. -/
def execMovs (h : Hdr) (o : Ops) (num : BitVec 8) (s : State) : Host.Outcome State Fault Refusal :=
  let i := Ix.of s h
  let t : Ty := if wideSpecial num then .b64 else .n32
  if handlerReg num.toNat && !i.x.handler then .next (i.illegal)
  else .next (i.run do
    i.checkDests [(o.d, Ty.regs t)]
    i.maskHome o.d
    pure (i.finish o.d t ((lanesOf i.g).map fun l => (l, Val.ofNat (i.special num.toNat l)))))

/-! ### Lanes by number (R150) -/

/-- RDLANE: the element of lane B[4:0] of vector A, to every lane of G (R150). DEDUCED (log 119). -/
def execRdlane (h : Hdr) (o : Ops) (w64 : Bool) (s : State) : Host.Outcome State Fault Refusal :=
  let i := Ix.of s h
  .next (i.run do
    let j := (i.uniform o.b .w32).bits.toNat % 32
    i.checkReads [({ o := o.a, n := (Wd.bw w64).regs, bit := h.ea }, laneBit j &&& i.x.lanes),
      ({ o := o.b, n := 1, bit := h.eb }, i.g)]
    i.checkDests [(o.d, Ty.regs (bwTy w64))]
    i.maskHome o.d
    let v := i.readLane o.a (.bw w64) j
    let r := v.also (i.uniform o.b .w32).poison
    pure (i.finish o.d (bwTy w64) ((lanesOf i.g).map fun l => (l, r))))

/-- WRLANE: the uniform value A into lane B[4:0] of vector D, once, when that lane is present (R150). DEDUCED (log 104). -/
def execWrlane (h : Hdr) (o : Ops) (w64 : Bool) (s : State) : Host.Outcome State Fault Refusal :=
  let i := Ix.of s h
  .next (i.run do
    i.checkSources (i.uses h o (.bw w64) .w32 .w32) i.g
    i.checkDests [(o.d, Ty.regs (bwTy w64))]
    let j := (i.uniform o.b .w32).bits.toNat % 32
    let a := i.uniform o.a (.bw w64)
    let r := a.also (i.uniform o.b .w32).poison
    pure (i.finish o.d (bwTy w64) (if i.present j then [(j, r)] else [])))

/-! ### Exchange (R155, R156) -/

/-- The partner of lane `l` at distance or index `k` in segments of `n` lanes: the lane, or none outside the segment
(R155). -/
def partner (mode : XlaneMode) (n l k : Nat) : Option Nat :=
  let base := l - l % n
  match mode with
  | .pick => some (base + k % n)
  | .back => if k + base ≤ l then some (l - k) else none
  | .ahead => if l + k < base + n then some (l + k) else none
  | .flip => some (base + (l ^^^ k) % n)

/-- XLANE (R155). -/
def execXlane (h : Hdr) (o : Ops) (w64 : Bool) (mode : XlaneMode) (seg : BitVec 3) (s : State) :
    Host.Outcome State Fault Refusal :=
  let i := Ix.of s h
  let wd := Wd.bw w64
  .next (i.run do
    let from_ (l : Nat) : Option Nat := partner mode (2 ^ seg.toNat) l ((i.read o.b .w32 l).bits.toNat % 2 ^ 32)
    let ps := (lanesOf i.g).map fun l => (l, from_ l)
    let rd := maskOf fun j => i.present j && ps.any fun p => p.2 = some j
    let fill := maskOf fun l => ps.any fun p => p.1 = l && p.2.isNone
    i.checkReads [({ o := o.a, n := wd.regs, bit := h.ea }, rd), ({ o := o.b, n := 1, bit := h.eb }, i.g),
      ({ o := o.c, n := wd.regs, bit := h.ec }, fill)]
    i.checkDests [(o.d, Ty.regs (bwTy w64))]
    i.maskHome o.d
    let rs := ps.map fun p =>
      let v := match p.2 with
        | some j => i.readLane o.a wd j
        | none => i.read o.c wd p.1
      (p.1, v.also (i.read o.b .w32 p.1).poison)
    let d2 := maskOf fun l => ps.any fun p => p.1 = l && match p.2 with | some j => i.g.getLsbD j | none => false
    pure (i.finish2 o.d o.d2 (bwTy w64) rs d2))

/-- BFLY: an exchange over the 64 elements of A and C (R156). -/
def execBfly (h : Hdr) (o : Ops) (w64 hi : Bool) (s : State) : Host.Outcome State Fault Refusal :=
  let i := Ix.of s h
  let wd := Wd.bw w64
  .next (i.run do
    let k := (i.uniform o.b .w32).bits.toNat % 64
    let e (l : Nat) : Nat := (if hi then 32 else 0) + l
    let src (l : Nat) : Opnd := if e l ^^^ k < 32 then o.a else o.c
    let lane (l : Nat) : Nat := (e l ^^^ k) % 32
    let rdOf (x : Bool) : LaneMask :=
      maskOf fun j => i.present j && (lanesOf i.g).any fun l => lane l = j && (decide (e l ^^^ k < 32) == x)
    i.checkReads [({ o := o.a, n := wd.regs, bit := h.ea }, rdOf true), ({ o := o.b, n := 1, bit := h.eb }, i.g),
      ({ o := o.c, n := wd.regs, bit := h.ec }, rdOf false)]
    i.checkDests [(o.d, Ty.regs (bwTy w64))]
    i.maskHome o.d
    let rs := (lanesOf i.g).map fun l =>
      let v := i.readLane (src l) wd (lane l)
      (l, v.also (i.uniform o.b .w32).poison)
    let lower := maskOf fun l => k = 0 || !(e l).testBit (Nat.log2 k)
    pure (i.finish2 o.d o.d2 (bwTy w64) rs lower))

/-! ### Masks and tests (R157) -/

/-- PMASK: the lanes of G whose predicate holds, as a uniform value (R157). -/
def execPmask (h : Hdr) (o : Ops) (s : State) : Host.Outcome State Fault Refusal :=
  let i := Ix.of s h
  .next (i.run do
    i.checkSources (i.uses h o .w32 .w32 .w32) i.g
    i.checkDests [(o.d, 1)]
    i.maskHome o.d
    let m := i.g &&& i.predOf o.a
    pure (i.finish o.d .b32 ((lanesOf i.g).map fun l => (l, { bits := m.setWidth 64, poison := i.bitMark o.a }))))

/-- The bit that LTEST computes over G (R157). -/
def Ix.ltest (i : Ix) (o : Ops) (test : LTest) : Bool :=
  let t := i.g &&& i.predOf o.a
  let same (w64 : Bool) : Bool :=
    (lanesOf i.g).all fun l => (i.read o.a (.bw w64) l).bits = (i.read o.a (.bw w64) (lowestLane i.g)).bits
  match test with
  | .every => t = i.g
  | .some => t ≠ 0
  | .odd => (lanesOf t).length % 2 = 1
  | .same32 => same false
  | .same64 => same true

/-- LTEST (R157). -/
def execLtest (h : Hdr) (o : Ops) (test : LTest) (pct : Pct) (s : State) : Host.Outcome State Fault Refusal :=
  let i := (Ix.of s h).part pct
  let wd := Wd.bw (decide (test = .same64))
  .next (i.run do
    i.checkSources (i.uses h o wd .w32 .w32) i.g
    let used := (i.poisonLanes o.a wd.regs i.g) ≠ 0
    let c : LaneMask := if i.ltest o test then BitVec.allOnes 32 else 0
    pure (i.done (i.countUse used (i.writePct i.s h o pct c))))

/-! ### Folds (R158) -/

/-- The identity of an operation (R158). -/
def FoldOp.identity (op : FoldOp) (t : Ty) : DWord :=
  match op with
  | .add => if t = .f32 then 0x80000000 else 0
  | .min => if t = .f32 then 0x7F800000 else wrapTy t (tyMax t)
  | .max => if t = .f32 then 0xFF800000 else wrapTy t (tyMin t)
  | .and => 0xFFFFFFFF
  | .or | .xor => 0

/-- One step of an operation (R158); the steps on F32 are those of FADD, FMIN and FMAX. -/
def FoldOp.step (op : FoldOp) (t : Ty) (x y : DWord) : DWord :=
  match op with
  | .add => if t = .f32 then F32.add x y else wrapTy t (intVal t x + intVal t y)
  | .min => if t = .f32 then F32.minNum x y else wrapTy t (min (intVal t x) (intVal t y))
  | .max => if t = .f32 then F32.maxNum x y else wrapTy t (max (intVal t x) (intVal t y))
  | .and => x &&& y
  | .or => x ||| y
  | .xor => x ^^^ y

/-- A value as SCAN and LFOLD write it: every NaN of F32 as the canonical NaN (R158). -/
def foldOut (t : Ty) (x : DWord) : DWord :=
  if t = .f32 ∧ Fmt.isNan .fp32 (x.toNat % 2 ^ 32) then 0x7FC00000 else x

/-- The running results over a list of lanes, exclusive or inclusive, and the final result (R158). -/
def foldRun (op : FoldOp) (t : Ty) (excl : Bool) (acc : Option Val) : List (Nat × Val) → List (Nat × Val) × Option Val
  | [] => ([], acc)
  | (l, v) :: rest =>
    let before : Val := acc.getD { bits := FoldOp.identity op t, poison := false }
    let now : Val := match acc with
      | none => v
      | some a => { bits := FoldOp.step op t a.bits v.bits, poison := a.poison || v.poison }
    let r := foldRun op t excl (some now) rest
    ((l, if excl then before else now) :: r.1, r.2)

/-- The values of A over G. -/
def Ix.column (i : Ix) (o : Opnd) : List (Nat × Val) := (lanesOf i.g).map fun l => (l, i.read o .w32 l)

/-- SCAN (R158). -/
def execScan (h : Hdr) (o : Ops) (t : Ty) (op : FoldOp) (excl : Bool) (s : State) : Host.Outcome State Fault Refusal :=
  let i := Ix.of s h
  .next (i.run do
    i.checkSources (i.uses h o .w32 .w32 .w32) i.g
    i.checkDests [(o.d, 1)]
    i.maskHome o.d
    let rs := (foldRun op t excl none (i.column o.a)).1.map fun r =>
      (r.1, ({ r.2 with bits := foldOut t r.2.bits } : Val))
    pure (i.finish o.d t rs))

/-- LFOLD (R158). -/
def execLfold (h : Hdr) (o : Ops) (t : Ty) (op : FoldOp) (s : State) : Host.Outcome State Fault Refusal :=
  let i := Ix.of s h
  .next (i.run do
    i.checkSources (i.uses h o .w32 .w32 .w32) i.g
    i.checkDests [(o.d, 1)]
    i.maskHome o.d
    let acc := ((foldRun op t false none (i.column o.a)).2).getD .zero
    let r : Val := { acc with bits := foldOut t acc.bits }
    pure (i.finish o.d t ((lanesOf i.g).map fun l => (l, r))))

/-! ### MATCH (R159) -/

/-- Two keys are equal: as bit patterns, or numerically under a floating type (R159). -/
def keysEqual (t : Ty) (num : Bool) (x y : DWord) : Bool :=
  if num then Fmt.eqVal (Fmt.ofTy t) (x.toNat % 2 ^ t.bits) (y.toNat % 2 ^ t.bits)
  else decide (x.toNat % 2 ^ t.bits = y.toNat % 2 ^ t.bits)

/-- MATCH: the lanes of G with the same key, and D2 in the lowest of them (R159). D is 32 bits wide under B64 too. DESIGN CHOICE (log 127). -/
def execMatchKeys (h : Hdr) (o : Ops) (t : Ty) (num : Bool) (s : State) : Host.Outcome State Fault Refusal :=
  let i := Ix.of s h
  let wd := Wd.bw t.wide
  .next (i.run do
    i.checkSources (i.uses h o wd .w32 .w32) i.g
    i.checkDests [(o.d, 1)]
    i.maskHome o.d
    let key (l : Nat) : Val := i.read o.a wd l
    let group (l : Nat) : LaneMask := maskOf fun j => i.g.getLsbD j && (j = l || keysEqual t num (key j).bits (key l).bits)
    let used := (lanesOf i.g).any fun l => (key l).poison
    let rs := (lanesOf i.g).map fun l => (l, ({ bits := (group l).setWidth 64, poison := used } : Val))
    pure (i.finish2 o.d o.d2 .b32 rs (maskOf fun l => lowestLane (group l) = l)))

end Sys2Proof.Machine
end

