-- ==== Sys2Proof/Machine/Translate.lean ====
section
/-! DEFINITION. Translation of virtual addresses (R378 to R385): the walk of the page tables, the translations that a core
holds, permissions (R382), the home of an address and the partition check (R386), and pins (R388). -/

namespace Sys2Proof.Machine

/-! ### Addresses (R20, R21, R376, R432) -/

/-- The first reserved offset of every hearth (R432). -/
def reservedOfs : Nat := 0xBC0000000
/-- The offset of the runner control page in hearth 0 of a package (R376). -/
def cpageOfs : Nat := 0xBFFFF0000
/-- The physical address of a package's runner control page. -/
def cpagePa (pkg : Nat) : Nat := paOf (16 * pkg) cpageOfs
/-- A physical address lies in a runner control page. -/
def isCpage (pa : Nat) : Bool :=
  !paHost pa && paHearth pa % 16 = 0 && decide (cpageOfs ≤ paOfs pa ∧ paOfs pa < cpageOfs + 65536)

/-- A hearth of the domain is enabled (R2, R21). -/
def State.hearthOn (s : State) (gh : Nat) : Bool := (s.pkg (gh / 16)).enabled (gh % 16)

/-- The routing tables of a package name another: a switch of it has an entry, in the bank in use, for a hearth of that package. Its own
hearths need none (R21, R294). DEDUCED (log 43). -/
def State.routed (s : State) (pkg other : Nat) : Bool :=
  let p := s.pkg pkg
  pkg = other || p.switches.any fun w => (if p.bank then w.2.bank1 else w.2.bank0).any fun e => e.1 / 16 = other

/-- R21, for an access that a package issues: the address lies past the hearth's DRAM, its package is absent from the package's routing
tables, or its hearth does not exist. -/
def State.noHome (s : State) (pkg pa : Nat) : Bool :=
  !paHost pa && (decide (0xC00000000 ≤ paOfs pa) || !s.hearthOn (paHearth pa) || !s.routed pkg (paHearth pa / 16))

/-! ### Leaves (R380) -/

/-- Bits of a leaf: R. -/
def leafR (e : DWord) : Bool := e.getLsbD 2
/-- W. -/
def leafW (e : DWord) : Bool := e.getLsbD 3
/-- X. -/
def leafX (e : DWord) : Bool := e.getLsbD 4
/-- REPL. -/
def leafRepl (e : DWord) : Bool := e.getLsbD 5
/-- PINS. -/
def leafPins (e : DWord) : Nat := field e.toNat 15 8
/-- The physical address of the page. -/
def leafPa (e : DWord) : Nat := field e.toNat 49 16 * 65536

/-! ### The walk (R375, R378 to R381) -/

/-- The index of a virtual address at a level (R378). -/
def vaIndex (va lvl : Nat) : Nat :=
  match lvl with
  | 0 => field va 47 39
  | 1 => field va 38 30
  | 2 => field va 29 21
  | _ => field va 20 16

/-- log2 of the page that a leaf at a level maps (R378). -/
def leafBits (lvl : Nat) : Nat :=
  match lvl with
  | 1 => 30
  | 2 => 21
  | _ => 16

/-- Bytes of a table at a level (R378). -/
def tableBytes (lvl : Nat) : Nat := if lvl = 3 then 256 else 4096

/-- A table may stand at the address for the walks of a package: in the context's partition, and outside the reserved region (R381). -/
def State.tableOk (s : State) (pkg part tbl lvl : Nat) : Bool :=
  !paHost tbl && decide ((s.pkg pkg).hearthPart (paHearth tbl) = part) && tbl % tableBytes lvl = 0 && !s.noHome pkg tbl &&
    decide (paOfs tbl + tableBytes lvl ≤ reservedOfs)

/-- A leaf's own conditions (R381). -/
def leafOk (e : DWord) (lvl : Nat) : Bool :=
  let pa := leafPa e
  decide (1 ≤ lvl) && decide (field e.toNat 63 50 = 0) && decide (field e.toNat 7 6 = 0) && pa % 2 ^ leafBits lvl = 0 &&
    !(leafRepl e && (leafW e || paHost pa)) &&
    (paHost pa || decide (paOfs pa + 2 ^ leafBits lvl ≤ reservedOfs) ||
      (lvl = 3 && isCpage pa && !leafRepl e))

/-- The walk from a table at a level: the leaf, the log2 of its page and the address of its entry, or none when the walk
fails (R381). `n` is the number of levels left. -/
def State.walkFrom (s : State) (pkg part va : Nat) : Nat → Nat → Nat → Option (DWord × Nat × Nat)
  | 0, _, _ => none
  | n + 1, lvl, tbl =>
    if !s.tableOk pkg part tbl lvl then none
    else
      let at_ := tbl + 8 * vaIndex va lvl
      let e : DWord := BitVec.ofNat 64 (s.readLE at_ 8)
      if s.poisoned at_ 8 || !e.getLsbD 0 then none
      else if e.getLsbD 1 then (if leafOk e lvl then some (e, leafBits lvl, at_) else none)
      else if field e.toNat 63 50 ≠ 0 ∨ field e.toNat 7 2 ≠ 0 then none
      else s.walkFrom pkg part va n (lvl + 1) (field e.toNat 49 8 * 256)

/-- The descriptor of a context, in the tables of a package (R375). -/
def Pkg.ctxDesc (p : Pkg) (ctx : Nat) : CtxDesc := Sparse.get .none p.ctxs ctx

/-- The walk of a virtual address in a context, by the tables of package `pkg` (R375, R378). -/
def State.walk (s : State) (pkg ctx va : Nat) : Option (DWord × Nat × Nat) :=
  let p := s.pkg pkg
  let d := p.ctxDesc ctx
  if va / 2 ^ 48 % 2 ^ 16 ≠ 0 ∨ !d.flags.getLsbD 0 ∨ d.part = 0xFF ∨ field d.root.toNat 63 50 ≠ 0 then none
  else s.walkFrom pkg d.part.toNat va 4 0 (field d.root.toNat 49 0)

/-! ### What a core holds (R384) -/

/-- What a core knows of a virtual address. -/
inductive Tr where
  /-- the leaf and the physical address -/
  | ok (leaf : DWord) (pa : Nat)
  /-- no translation is held: a walk is needed -/
  | miss
  /-- the walk failed -/
  | fail
  deriving DecidableEq, Repr

/-- The replica of a page in the hearth where the reader stands (R212). -/
def replicaPa (pa gh : Nat) : Nat := paOf gh (paOfs pa)

/-- The physical address of a virtual address under a leaf, for a party in hearth `gh`. -/
def leafAddr (e : DWord) (bits va gh : Nat) : Nat :=
  let pa := leafPa e / 2 ^ bits * 2 ^ bits + va % 2 ^ bits
  if leafRepl e then replicaPa pa gh else pa

/-- The translation that a core's TLB holds (R384). DEDUCED (log 27). -/
def Core.lookup (c : Core) (ctx : BitVec 8) (va : Nat) : Option TlbEnt :=
  c.tlb.find? fun t => decide (t.ctx = ctx ∧ t.page = va / 2 ^ t.bits)

/-- The virtual page by which walks are known: 64 KiB. -/
def walkPage (va : Nat) : Nat := va / 65536

/-- The walk for this page has failed while the entry waited for it (R384). -/
def Ix.walkFailed (i : Ix) (va : Nat) : Bool := i.x.badWalk.contains (i.e.prio, i.e.pc, walkPage va)

/-- Translation of a virtual address for the issuing fragment (R383, R384). DEDUCED (log 27). -/
def Ix.translate (i : Ix) (va : Nat) : Tr :=
  let ctx := i.s.ctxOf i.x
  if va / 2 ^ 48 ≠ 0 then .fail
  else match (i.s.core i.x.gc).lookup ctx va with
    | some t => .ok t.leaf (leafAddr t.leaf t.bits va (coreHearth i.x.gc))
    | none => if i.walkFailed va then .fail else .miss

/-- The entry waits for a walk of the page (R384). -/
def Ix.walkWait (i : Ix) (va : Nat) : Stop := .wait (.walk (i.s.ctxOf i.x) (walkPage va))

/-- What an access asks of its leaf (R382). -/
structure Need where
  r : Bool
  w : Bool
  x : Bool
  deriving DecidableEq, Repr

/-- The leaf grants what the access needs. -/
def Need.grants (n : Need) (e : DWord) : Bool := (!n.r || leafR e) && (!n.w || leafW e) && (!n.x || leafX e)

/-- HOST: the context may reach host memory (R375). -/
def State.hostOk (s : State) (pkg ctx : Nat) : Bool := ((s.pkg pkg).ctxDesc ctx).flags.getLsbD 1

/-- HOST of a context as a core goes by it: as it was before a change that no TLBINV on the core has covered since (R377). -/
def State.hostAt (s : State) (gc ctx : Nat) : Bool :=
  match (s.core gc).hosts.find? fun q => q.1.toNat = ctx with
  | some q => q.2
  | none => s.hostOk (corePkg gc) ctx

/-- A leaf that a context may not use at all, given its HOST: a host page without HOST, a control page by a context that is not a
managing one, or an address without a home (R21, R376, R381). -/
def State.barred (s : State) (host : Bool) (pkg ctx pa : Nat) : Bool :=
  (paHost pa && !host) || (isCpage pa && !(s.pkg pkg).managing.getLsbD ctx) || s.noHome pkg pa

/-- A leaf that an engine or a launch hearth of a package may not use for a context. -/
def State.leafBarred (s : State) (pkg ctx pa : Nat) : Bool := s.barred (s.hostOk pkg ctx) pkg ctx pa

/-- A leaf that a core may not use for a context. -/
def State.coreBarred (s : State) (gc ctx pa : Nat) : Bool := s.barred (s.hostAt gc ctx) (corePkg gc) ctx pa

/-- The home of a physical address lies outside the context's partition (R386); host memory is not checked. -/
def State.outside (s : State) (pkg ctx pa : Nat) : Bool :=
  !paHost pa && decide ((s.pkg pkg).hearthPart (paHearth pa) ≠ (s.pkg pkg).part ctx)

/-! ### Engines and the launch hearth translate for themselves (R385) -/

/-- How the translation of a virtual address by an engine or a hearth of package `pkg` ends. -/
inductive EngTr where
  | ok (pa : Nat) (entry : Nat) (leaf : DWord) (bits : Nat)
  /-- status 1 of R261 -/
  | access
  /-- status 4 of R261 -/
  | partition
  deriving DecidableEq, Repr

/-- The translation of an address by an engine in hearth `gh` acting for a context, if the context may use it so: the physical
address, the table entry, the leaf and the log2 of its page (R381, R382, R385). -/
def State.engLeaf (s : State) (gh ctx va : Nat) (n : Need) : Option (Nat × Nat × DWord × Nat) :=
  match s.walk (gh / 16) ctx va with
  | none => none
  | some (e, bits, at_) =>
    let pa := leafAddr e bits va gh
    if !n.grants e || s.leafBarred (gh / 16) ctx pa || (n.w && leafRepl e) then none else some (pa, at_, e, bits)

/-- Translation with its checks, the partition check among them (R386). DEDUCED (log 74). -/
def State.engTranslate (s : State) (gh ctx va : Nat) (n : Need) : EngTr :=
  match s.engLeaf gh ctx va n with
  | none => .access
  | some (pa, at_, e, bits) => if s.outside (gh / 16) ctx pa then .partition else .ok pa at_ e bits

/-- Every page of `n` bytes at a virtual address, as the first address in each. -/
def pagesOf (va n : Nat) : List Nat :=
  if n = 0 then []
  else (List.range ((va + n - 1) / 65536 + 1 - va / 65536)).map fun k => max va ((va / 65536 + k) * 65536)

/-! ### Pins (R388) -/

/-- The outcome of a pin step. -/
inductive PinStep where
  | pinned | busy | failed
  deriving DecidableEq, Repr

/-- One indivisible pin step on the table entry at `at_` whose leaf was translated as `e` (R388). DEDUCED (log 76). -/
def State.pin (s : State) (at_ : Nat) (e : DWord) : PinStep × State :=
  let cur : DWord := BitVec.ofNat 64 (s.readLE at_ 8)
  if cur.getLsbD 0 && leafPa cur = leafPa e && decide (leafPins cur < 255) then
    (.pinned, s.writeMem (at_ + 1) 1 (leafPins cur + 1) false)
  else if leafPins cur = 255 then (.busy, s)
  else (.failed, s)

end Sys2Proof.Machine
end

