-- ==== Sys2Proof/Machine/Send.lean ====
section
/-! DEFINITION. Packets: their classes, sources and numbers (R272 to R275), sending (R48, R226, R231, R291), and the order
in which packets of one source or one core may be applied (R276). -/

namespace Sys2Proof.Machine

/-- The class of a packet (R272, R273). -/
def Body.cls : Body → Nat
  | .store _ | .reduction .. | .signal .. | .pennant .. | .release .. | .engineWrite .. | .engineCmd _ | .exitNotice ..
  | .unpark .. | .kill .. | .pinDown _ | .arrive .. | .pourRequest .. | .parkNote .. => 0
  | .ingot .. | .engineRead .. | .drainRequest .. => 1
  | .ack .. | .readData .. | .drainAnswer _ | .stallHint _ | .landing _ | .ackRequest .. | .opened .. | .parkAnswer .. => 2
  | .contribution .. | .merged .. => 3

/-- The unit of a source (R273). -/
def srcUnit (src : Nat) : Nat := field src 9 6
/-- The core of a source of a core. -/
def srcCore (src : Nat) : Nat := src / 2 ^ 17
/-- The hearth of a source. -/
def srcHearth (src : Nat) : Nat := src / 2 ^ 20
/-- The package of a source. -/
def srcPkg (src : Nat) : Nat := src / 2 ^ 24
/-- The model's own unit, one the layout of R273 reserves: the local stores of a hoist slot that the sequencer of its hearth has accepted
and has not applied yet, which take no number of the slot (R215, R224). DESIGN CHOICE (log 138). -/
def lateUnit : Nat := 9
/-- A source that belongs to a core: its slots, copy and collective engines, control unit and matrix array. -/
def srcOfCore (src : Nat) : Bool := srcUnit src ∈ [0, 1, 3, 7, 8, 9]
/-- The source by which packets are held in order: the slot's own for its local stores. -/
def orderSrc (src : Nat) : Nat := if srcUnit src = lateUnit then src - lateUnit * 64 else src
/-- Two sources of one core (R226). -/
def sameCore (a b : Nat) : Bool := a = b || (srcOfCore a && srcOfCore b && srcCore a = srcCore b)

/-- The endpoint of a source, at which packets are counted and change their route (R291, R295): the core of its slots, control unit
and array, and otherwise the engine, sequencer, switch or host link itself. -/
def endpoint (src : Nat) : Nat :=
  if srcUnit src ∈ [0, 7, 8, 9] then coreSrc (srcCore src) 0 7 else src

/-- The routing generation that a source gives to a packet of a class (R294, R295): during a change of routes the new one, which
completions take once their endpoint has flipped. Reduction packets use no bank. -/
def State.genOf (s : State) (src cls : Nat) : Bool :=
  let p := s.pkg (srcPkg src)
  match p.routing with
  | some flipped => if cls = 3 then false else if cls = 2 && !flipped.contains (endpoint src) then p.bank else !p.bank
  | none => if cls = 3 then false else p.bank

/-- The package of a target: a hearth, a host link, a core or a switch. -/
def tgtPkg (tgt : Nat) : Nat :=
  if tgt < 1024 then tgt / 16 else if tgt < 2048 then tgt - 1024 else if tgt < 65536 then (tgt - 2048) / 128
  else (tgt - 65536) / 16

/-- The endpoint at a target. -/
def tgtEndpoint (tgt : Nat) : Nat :=
  if tgt < 1024 then seqrSrc tgt else if tgt < 2048 then hostSrc (tgt - 1024) else if tgt < 65536 then coreSrc (tgt - 2048) 0 7
  else hearthSrc (tgt - 65536) 5

/-- A packet of a collective engine, or an answer to one, which a save leaves out of its sweeps (R403). -/
def Packet.ofColl (p : Packet) : Bool :=
  srcUnit p.src = 3 ||
    match p.body with
    | .ack src .. | .ackRequest src .. => srcUnit src = 3
    | .readData _ coll _ => coll
    | _ => false

/-- The key of a counter of R291: endpoint, context, class, routing generation, and whether it counts the packets of collective
engines. -/
def cntKey (ep : Nat) (ctx : BitVec 8) (cls : Nat) (gen coll : Bool) : Nat :=
  2 * (8 * (256 * ep + ctx.toNat) + cls + if coll then 4 else 0) + if gen then 1 else 0

/-- One more in a counter of 48 bits (R291). -/
def countUp (t : Tab Nat) (k : Nat) : Tab Nat := Sparse.set 0 t k ((Sparse.get 0 t k + 1) % 2 ^ 48)

/-- The sequence number that a source's next packet takes. -/
def State.nextSeq (s : State) (src : Nat) : Word := s.lastSeq src + 1

/-- A packet that its core sends only when others are acknowledged (R259, R279): until then it holds the later packets of
its own source alone. DEDUCED (log 39). -/
def Body.held : Body → Bool
  | .signal _ after => !after.isEmpty
  | _ => false

/-- A packet that its endpoint holds until it has flipped to the new routes (R295). -/
def State.uninjected (s : State) (p : Packet) : Bool :=
  match (s.pkg (srcPkg p.src)).routing with
  | some flipped => decide (p.body.cls < 2) && p.gen ≠ (s.pkg (srcPkg p.src)).bank && !flipped.contains (endpoint p.src)
  | none => false

/-- A packet leaves its source: it counts as sent (R291). -/
def State.countSent (s : State) (p : Packet) : State :=
  { s with sentCnt := countUp s.sentCnt (cntKey (endpoint p.src) p.ctx p.body.cls p.gen p.ofColl) }
/-- A packet is applied, parked or accepted: it counts as received (R291). -/
def State.countRecv (s : State) (p : Packet) : State :=
  { s with recvCnt := countUp s.recvCnt (cntKey (tgtEndpoint p.tgt) p.ctx p.body.cls p.gen p.ofColl) }

/-- A packet that its source still holds (R259, R295). -/
def State.unsent (s : State) (p : Packet) : Bool := p.body.held || s.uninjected p

/-- A packet stands behind a signal that its core holds: one of the same slot to the same target (R48, R259). -/
def State.behindHeld (s : State) (p : Packet) : Bool :=
  decide (p.body.cls < 2) && s.net.any fun x => x.body.held && x.src = p.src && x.tgt = p.tgt && decide ((p.seq - x.seq).toNat < 2 ^ 31)

/-- A packet has not left its source. -/
def State.atSource (s : State) (p : Packet) : Bool := s.unsent p || s.behindHeld p

/-- The packet counts as sent now, unless it is still at its source. -/
def State.countLeft (s : State) (p : Packet) : State := if s.atSource p then s else s.countSent p

/-- Every packet takes the next number of its source, but those of a hoist slot that are not posted (R48, R274). -/
def numbered (src cls : Nat) : Bool := srcUnit src ≠ 0 || cls = 0

/-- A posted packet is remembered until its acknowledgement, at its core, or for the source of no core at that source (R275). -/
def State.remember (s : State) (u : Unacked) : State :=
  if srcOfCore u.src then s.modCore (srcCore u.src) fun c => { c with unacked := c.unacked ++ [u] }
  else { s with unacked := s.unacked ++ [u] }

/-- A packet of a source enters the fabric. A source of a core counts it among the packets of the core (R226, R231), and a posted
one is remembered until its acknowledgement (R275). `rel` is the mark of a core-class release (R236). DESIGN CHOICE (log 42). -/
def State.send (s : State) (src tgt : Nat) (ctx : BitVec 8) (pass : Bool) (cast : Option Nat) (body : Body)
    (rel : Option (Nat × Nat) := none) : State :=
  let num := numbered src body.cls
  let seq := if num then s.nextSeq src else s.lastSeq src
  let gc := srcCore src
  let counted := srcOfCore src && body.cls < 2
  let ord := if counted then (s.core gc).sent + 1 else 0
  let gen := s.genOf src body.cls
  let p : Packet := { src, seq, tgt, ctx, pass, gen, ord, cast, lost := false, rel, body }
  let s1 : State := { s with net := s.net ++ [p] }
  let s2 := (if num then s1.bumpSeq src else s1).countLeft p
  let s3 := if counted then s2.modCore gc fun c => { c with sent := ord } else s2
  if body.cls = 0 then s3.remember { src, tgt, seq, ord, addr := 0, cast, ctx, gen, sentAt := s.now } else s3

/-- The core remembers the virtual address and the fragment of the packet that it has sent last (R387). -/
def State.noteAddr (s : State) (gc : Nat) (src : Nat) (seq : Word) (va f : Nat) : State :=
  s.modCore gc fun c => { c with unacked := c.unacked.map fun u =>
    if u.src = src ∧ u.seq = seq then { u with addr := BitVec.ofNat 64 va, frag := some f } else u }

/-- A completion or a control message that takes no number of a source's posted order. -/
def State.answer (s : State) (src tgt : Nat) (ctx : BitVec 8) (body : Body) : State :=
  s.send src tgt ctx false none body

/-- Whether Y must wait for an earlier packet X (R48, R276). DEDUCED (log 38). -/
def blocks (x y : Packet) : Bool :=
  x.tgt = y.tgt &&
    (match x.body.cls, y.body.cls with
     | 0, 0 | 0, 1 => orderSrc x.src = orderSrc y.src || (sameCore x.src y.src && !y.pass && !x.body.held)
     | 1, 1 => sameCore x.src y.src
     | _, _ => false)

/-- The packet at position `n` of the fabric may be applied now: it has left its source, it is not lost, and no earlier packet
holds it. DEDUCED (log 38). -/
def State.ready (s : State) (n : Nat) : Option Packet :=
  match s.net[n]? with
  | some p => if p.lost || p.body.held || s.uninjected p || (s.net.take n).any fun x => blocks x p then none else some p
  | none => none

/-- Take the packet at position `n` out of the fabric. -/
def State.dropPacket (s : State) (n : Nat) : State := { s with net := s.net.eraseIdx n }

/-- A posted packet's writes and reductions stand among the packets of the fabric that no later read of its fragment may
overtake: some packet of a source to a hearth with a sequence number up to `seq` is still to be applied (R50). -/
def State.pendingTo (s : State) (src tgt : Nat) (seq : Word) : Bool :=
  s.net.any fun p => p.src = src && p.tgt = tgt && p.body.cls = 0 && decide ((seq - p.seq).toNat < 2 ^ 31)

/-- Packets leave their sources now, after all that have left before: they stand behind those, in their order, and count as sent
(R226, R276, R291). -/
def State.leaveNow (s : State) (f : Packet → Bool) (g : Packet → Packet) : State :=
  let out := (s.net.filter f).map g
  out.foldl State.countLeft { s with net := s.net.filter (fun p => !f p) ++ out }

/-- Every posted packet of the core up to a count has been acknowledged (R231, R237). -/
def Core.drainedTo (c : Core) (count : Nat) : Bool := c.unacked.all fun u => decide (count < u.ord)

/-- Entries of a posted-sequence table after new ones are recorded: one for each target and source (R49). -/
def recordPSeq (l : List PSeq) (e : PSeq) : List PSeq :=
  (l.filter fun x => !(x.tgt = e.tgt && x.src = e.src)) ++ [e]

/-- An error record of a hearth (R420) for an address of its own. -/
def State.hearthRecord (s : State) (gh cls ctx cnt addr detail : Nat) : State :=
  s.record gh (seqrSrc gh) cls ctx 0 cnt addr detail

end Sys2Proof.Machine
end

