-- ==== Sys2Proof/Machine/Switch.lean ====
section
/-! DEFINITION. The runner's switches: the grid and its ports (R16, R17, R283), routes (R294), reduction windows, their
trees, rounds and folds (R280 to R285). A switch is numbered by its position; a switch of the domain by
16 × package + position. -/

namespace Sys2Proof.Machine

/-! ### The grid (R16, R17) -/

/-- The position of hearth `h` of a package (R17). -/
def Pkg.posOf (p : Pkg) (h : Nat) : Nat := p.hmap.toNat / 2 ^ (8 * h) % 256
/-- The switch of a hearth of the domain. -/
def State.switchOf (s : State) (gh : Nat) : Nat := gh / 16 * 16 + (s.pkg (gh / 16)).posOf (gh % 16)
/-- The positions with link bundles, in the order of the bundles: two to each switch on the edge of the grid (R16). DESIGN CHOICE (log 44). -/
def edgePositions : List Nat := [0, 1, 2, 3, 4, 7, 8, 11, 12, 13, 14, 15]
/-- The bundle at a port of a position. -/
def bundleOf (pos port : Nat) : Nat := 2 * edgePositions.idxOf pos + (port - 5)
/-- The position and port of a bundle. DESIGN CHOICE (log 44). -/
def bundlePlace (b : Nat) : Nat × Nat := (edgePositions.getD (b / 2) 0, 5 + b % 2)

/-- Where a port leads: the next switch and the port by which it is entered (R283). The wiring between packages is the
system's: the table of the package's bundles holds 1 + 24 × package + bundle of the far end. -/
def State.hop (s : State) (sw port : Nat) : Option (Nat × Nat) :=
  let x := sw % 16 % 4
  let y := sw % 16 / 4
  let link (b : Nat) : Option (Nat × Nat) :=
    match Sparse.get 0 (s.pkg (sw / 16)).links b with
    | 0 => none
    | n + 1 => some (n / 24 * 16 + (bundlePlace (n % 24)).1, (bundlePlace (n % 24)).2)
  match port with
  | 1 => if 0 < y then some (sw - 4, 3) else none
  | 2 => if x < 3 then some (sw + 1, 4) else none
  | 3 => if y < 3 then some (sw + 4, 1) else none
  | 4 => if 0 < x then some (sw - 1, 2) else none
  | 5 | 6 => if edgePositions.contains (sw % 16) then link (bundleOf (sw % 16) port) else none
  | _ => none

/-- The route inside a package that firmware has not changed: along x, then along y. -/
def gridPort (a b : Nat) : Nat :=
  if a % 4 < b % 4 then 2 else if b % 4 < a % 4 then 4 else if a / 4 < b / 4 then 3 else if b / 4 < a / 4 then 1 else 0

/-- The output port of a switch for a target hearth, by the bank of a generation (R294). DEDUCED (log 43). -/
def State.port (s : State) (gen : Bool) (sw gh : Nat) : Nat :=
  let w := Sparse.get .reset (s.pkg (sw / 16)).switches (sw % 16)
  match Sparse.get 0 (if gen then w.bank1 else w.bank0) gh with
  | n + 1 => n
  | 0 => if sw / 16 = gh / 16 then gridPort (sw % 16) ((s.pkg (gh / 16)).posOf (gh % 16)) else 0

/-- The path from a switch to a hearth: (switch, entered by, left by), as far as routes go, by the bank of each package that `gen`
names (R283, R294). -/
def State.path (s : State) (gen : Nat → Bool) (gh : Nat) : Nat → Nat → Nat → List (Nat × Nat × Nat)
  | 0, _, _ => []
  | n + 1, sw, inp =>
    let out := s.port (gen (sw / 16)) sw gh
    if out = 0 then (if sw = s.switchOf gh then [(sw, inp, 0)] else [])
    else match s.hop sw out with
      | some (sw', inp') => (sw, inp, out) :: s.path gen gh n sw' inp'
      | none => [(sw, inp, out)]

/-! ### Window descriptors (R280) -/

/-- A field of a descriptor: `n` bytes at an offset. -/
def Window.fld (w : Window) (ofs n : Nat) : Nat := w.raw.toNat / 2 ^ (8 * ofs) % 2 ^ (8 * n)
/-- The descriptor with a byte replaced. -/
def Window.setByte (w : Window) (ofs v : Nat) : Window :=
  { w with raw := BitVec.ofNat 512 (w.raw.toNat - w.fld ofs 1 * 2 ^ (8 * ofs) + v % 256 * 2 ^ (8 * ofs)) }
/-- BASE. -/
def Window.base (w : Window) : Nat := w.fld 0x18 8
/-- LEN. -/
def Window.len (w : Window) : Nat := w.fld 0x20 8
/-- ETYPE. -/
def Window.etype (w : Window) : Nat := w.fld 0x28 1
/-- OP. -/
def Window.op (w : Window) : Nat := w.fld 0x29 1
/-- CTX. -/
def Window.ctx (w : Window) : Nat := w.fld 0x2A 1
/-- WGEN. -/
def Window.wgen (w : Window) : Nat := w.fld 0x2B 1
/-- VALID. -/
def Window.validBit (w : Window) : Bool := w.fld 0x2C 1 % 2 = 1
/-- STATUS. -/
def Window.status (w : Window) : Nat := w.fld 0x2D 1
/-- UNS. -/
def Window.uns (w : Window) : Bool := w.fld 0x2E 1 % 2 = 1
/-- Bytes of a home word. -/
def Window.width (w : Window) : Nat := if w.etype = 3 then 8 else 4
/-- The type of the elements as the instructions name it (R281). -/
def Window.ty (w : Window) : Ty :=
  match w.etype with
  | 2 => if w.uns then .n32 else .i32
  | 3 => if w.uns then .n64 else .i64
  | _ => .f32
/-- The operation. -/
def Window.fold (w : Window) : FoldOp :=
  match w.op with
  | 1 => .min
  | 2 => .max
  | _ => .add

/-- The members of a package mask and a hearth mask, as hearths of the domain in ascending order. -/
def maskHearths (pkgs hearths : Nat) : List Nat :=
  ((List.range 64).filter pkgs.testBit).flatMap fun p =>
    ((List.range 16).filter hearths.testBit).map fun h => 16 * p + h

/-- The home hearths. -/
def Window.homes (w : Window) : List Nat := maskHearths (w.fld 0 8) (w.fld 8 2)
/-- The contributor hearths. -/
def Window.contributors (w : Window) : List Nat := maskHearths (w.fld 0x10 8) (w.fld 0x0A 2)
/-- A physical address lies in the window (R281). -/
def Window.holds (w : Window) (pa : Nat) : Bool :=
  w.valid && !paHost pa && w.homes.contains (paHearth pa) && decide (w.base ≤ paOfs pa ∧ paOfs pa < w.base + w.len)

/-- The window as it was accepted: its packets go by that, also while it is cleared (R280). -/
def Window.accepted (w : Window) : Window := { w with raw := w.held }

/-- Window `k` as package `p` holds it. -/
def Pkg.window (p : Pkg) (k : Nat) : Window := Sparse.get .clear p.windows k
/-- Replace a window. -/
def Pkg.setWindow (p : Pkg) (k : Nat) (w : Window) : Pkg := { p with windows := Sparse.set .clear p.windows k w }
/-- Replace a window of a package. -/
def State.modWindow (s : State) (pkg k : Nat) (f : Window → Window) : State :=
  s.modPkg pkg fun p => p.setWindow k (f (p.window k))

/-- The window of a package that holds an address. -/
def Pkg.windowAt (p : Pkg) (pa : Nat) : Option Nat := (List.range 16).find? fun k => (p.window k).holds pa

/-- Two home ranges overlap (R280). -/
def Window.overlaps (a b : Window) : Bool :=
  (a.homes.any fun h => b.homes.contains h) && decide (a.base < b.base + b.len ∧ b.base < a.base + a.len)

/-- The descriptor is malformed: the cases of R280. A mask that names an absent package or a disabled hearth is out of range. DESIGN CHOICE (log 134). -/
def State.badWindow (s : State) (p : Pkg) (k : Nat) : Bool :=
  let w := p.window k
  let all := w.homes ++ w.contributors
  w.homes.isEmpty || w.contributors.isEmpty || all.any (fun gh => !s.hearthOn gh) ||
    decide (w.fld 0x0C 4 ≠ 0 ∨ w.fld 0x2F 17 ≠ 0 ∨ 2 ^ 39 ≤ w.base ∨ w.base % 256 ≠ 0 ∨ w.len % 256 ≠ 0 ∨ w.len < 256 ∨
      2 ^ 30 < w.len ∨ 0xC00000000 < w.base + w.len ∨ 3 < w.etype ∨ 2 < w.op ∨ 1 < w.fld 0x2C 1 ∨ 1 < w.fld 0x2E 1) ||
    (w.uns && decide (w.etype < 2)) ||
    (List.range 16).any fun j => j ≠ k && (p.window j).valid && w.overlaps (p.window j)

/-- One path into a tree. -/
def addNode (t : List TreeNode) (pos home inp out : Nat) : List TreeNode :=
  match t with
  | [] => [{ switch := pos, home, ins := [inp], out }]
  | n :: r =>
    if n.switch = pos ∧ n.home = home then
      (if n.ins.contains inp then n else { n with ins := n.ins ++ [inp] }) :: r
    else n :: addNode r pos home inp out

/-- The part of a window's tree that stands in package `pkg`, by the routes current now (R283). DEDUCED (log 84). -/
def State.windowTree (s : State) (pkg : Nat) (w : Window) : List TreeNode :=
  let hops := w.homes.flatMap fun home =>
    (w.contributors.flatMap fun c => s.path (fun k => (s.pkg k).bank) home 256 (s.switchOf c) 0).map fun st => (home, st)
  (hops.filter fun q => decide (q.2.1 / 16 = pkg)).foldl
    (fun t q => addNode t (q.2.1 % 16) q.1 q.2.2.1 q.2.2.2) []

/-! ### Folds (R283, R284) -/

/-- The value that stands for a poisoned one (R283). -/
def Window.identity (w : Window) : DWord := FoldOp.identity w.fold w.ty

/-- One step of a fold (R283). -/
def Window.step (w : Window) (x y : DWord) : DWord := FoldOp.step w.fold w.ty x y

/-- The fold of the values of a round from the tree ports, in ascending order; a poisoned value, and one that a port has not
delivered, enters as the identity (R283, R285). DEDUCED (log 83). -/
def Window.foldVals (w : Window) (ports : List Nat) (vs : List RoundVal) : DWord × Bool :=
  let v (k : Nat) : DWord :=
    match vs.find? fun q => q.port = k with
    | some q => if q.poison then w.identity else q.val
    | none => w.identity
  match (List.range 8).filter ports.contains with
  | [] => (w.identity, false)
  | k :: ks => (ks.foldl (fun a j => w.step a (v j)) (v k), vs.any RoundVal.poison)

/-- The node of a switch for a home in a window's tree. DEDUCED (log 84). -/
def Window.node (w : Window) (pos home : Nat) : Option TreeNode :=
  w.tree.find? fun n => decide (n.switch = pos ∧ n.home = home)

/-- The hearth whose ring takes the records of a switch: the one above it, or hearth 0 where no stack stands. -/
def Pkg.ringHearth (p : Pkg) (pos : Nat) : Nat :=
  ((List.range 16).find? fun h => p.enabled h && decide (p.posOf h = pos)).getD 0

/-- A window event at a switch: its counter, and a record of class 10 (R416, R419). -/
def State.windowEvent (s : State) (pkg pos ctr ctx pa : Nat) : State :=
  (s.countSwitch pkg pos ctr).record (16 * pkg + (s.pkg pkg).ringHearth pos) (hearthSrc (16 * pkg + pos) 5) 10 ctx 0
    (counterNumber 2 (16 * pkg + pos) ctr) pa 0

/-- REPLACE of a round: as its contributions say, and `none` when they disagree (R284). -/
def roundReplace (vs : List RoundVal) : Option Bool :=
  if vs.all fun q => q.replace = some true then some true
  else if vs.all fun q => q.replace = some false then some false else none

/-- A switch forwards the fold of a round: to the next switch, or, at the home's switch, as the merged result. A round
whose contributions disagree in REPLACE is counted there (R284). `cut` marks a fold that did not wait (R285). DEDUCED (log 83). -/
def State.forwardRound (s : State) (pkg pos : Nat) (r : Round) (cut : Bool) : State :=
  let w := ((s.pkg pkg).window r.win).accepted
  let ctx : BitVec 8 := BitVec.ofNat 8 w.ctx
  let wgen : Byte := BitVec.ofNat 8 w.wgen
  let src := hearthSrc (16 * pkg + pos) 5
  let flushed := cut || r.vals.any RoundVal.flushed
  let rep := roundReplace r.vals
  match w.node pos r.home with
  | none => s
  | some n =>
    let (v, poison) := w.foldVals n.ins r.vals
    let bad := poison || cut
    if n.out = 0 then
      let s1 := if rep = none then s.windowEvent pkg pos 6 w.ctx (paOf r.home r.ofs) else s
      s1.send src r.home ctx false none (.merged r.win wgen r.home r.ofs r.round v bad (rep.getD false) flushed)
    else match s.hop (16 * pkg + pos) n.out with
      | none => s
      | some (sw, inp) =>
        s.send src (65536 + sw) ctx false none
          (.contribution r.win wgen r.home inp [{ ofs := r.ofs, round := r.round, val := v, poison := bad }] rep flushed)

/-- The rounds a switch holds. -/
def Pkg.switch (p : Pkg) (pos : Nat) : Switch := Sparse.get .reset p.switches pos
/-- Replace a switch. -/
def State.modSwitch (s : State) (pkg pos : Nat) (f : Switch → Switch) : State :=
  s.modPkg pkg fun p => { p with switches := Sparse.set .reset p.switches pos (f (p.switch pos)) }

/-- The element of a round. -/
def sameElement (a b : Round) : Bool := a.win = b.win && a.home = b.home && a.ofs = b.ofs

/-- A switch gives up waiting for a round: it forwards what it holds, poisoned and flushed, and records the ports that
have not delivered (R285). -/
def State.flushRound (s : State) (pkg pos : Nat) (r : Round) : State :=
  let w := ((s.pkg pkg).window r.win).accepted
  let missing := ((w.node pos r.home).map fun n => n.ins.filter fun p => !(r.vals.any fun q => q.port = p)).getD []
  let s1 := s.modSwitch pkg pos fun k => { k with
    rounds := k.rounds.filter (· ≠ r)
    flushed := k.flushed ++ missing.map fun p => (r.win, r.home, r.ofs, p, r.round) }
  (s1.windowEvent pkg pos 4 w.ctx (paOf r.home r.ofs)).forwardRound pkg pos r true

/-- A switch accepts a contribution: it joins its round, and a complete round is forwarded (R282, R283). A contribution
of a flushed round is discarded (R285). -/
def State.joinRound (s : State) (pkg pos : Nat) (r : Round) (v : RoundVal) : State :=
  let k := (s.pkg pkg).switch pos
  let w := ((s.pkg pkg).window r.win).accepted
  if k.flushed.contains (r.win, r.home, r.ofs, v.port, r.round) then s.windowEvent pkg pos 5 w.ctx (paOf r.home r.ofs)
  else
    let old := k.rounds.find? fun q => sameElement q r && decide (q.round = r.round)
    let vals := ((old.map Round.vals).getD []) ++ [v]
    let r' : Round := { r with vals, since := (old.map Round.since).getD s.now }
    let rest := match old with | some q => k.rounds.filter (· ≠ q) | none => k.rounds
    let full := match w.node pos r.home with
      | some n => n.ins.all fun p => vals.any fun q => q.port = p
      | none => false
    if full then (s.modSwitch pkg pos fun x => { x with rounds := rest }).forwardRound pkg pos r' false
    else s.modSwitch pkg pos fun x => { x with rounds := rest ++ [r'] }

/-! ### Declaring and clearing a window (R280) -/

/-- VALID is written to 1: the runner accepts the descriptor and forms its tree, or rejects it with STATUS 1 (R280,
R283). The rounds of its elements start again; the instances of its collectives and those that have failed are counted on. DESIGN CHOICE (log 118). -/
def State.declareWindow (s : State) (pkg k : Nat) : State :=
  let s1 := s.modWindow pkg k fun w => w.setByte 0x2C (w.fld 0x2C 1 / 2 * 2 + 1)
  if s1.badWindow (s1.pkg pkg) k then s1.modWindow pkg k fun w => (w.setByte 0x2C 0).setByte 0x2D 1
  else
    let s2 := s1.modWindow pkg k fun w =>
      let t := s1.windowTree pkg w
      { (w.setByte 0x2D 0) with held := (w.setByte 0x2D 0).raw, valid := true, tree := t, sent := [], landed := [] }
    s2.modPkg pkg fun p => { p with switches := p.switches.map fun (q : Nat × Switch) =>
      (q.1, { q.2 with flushed := q.2.flushed.filter fun f => f.1 ≠ k }) }

/-- The rounds of a window that the switches of a package hold, with their positions. -/
def Pkg.heldRounds (p : Pkg) (k : Nat) : List (Nat × Round) :=
  (List.range 16).flatMap fun pos => ((p.switch pos).rounds.filter fun r => r.win = k).map fun r => (pos, r)

/-- VALID is cleared: with rounds pending at a switch of the package, STATUS becomes 2 and each round is flushed at once
along the tree, which is kept (R280). -/
def State.clearWindow (s : State) (pkg k : Nat) : State :=
  let held := (s.pkg pkg).heldRounds k
  let s1 := s.modWindow pkg k fun w => { (w.setByte 0x2C 0) with valid := false }
  if held.isEmpty then s1.modWindow pkg k fun w => { w with tree := [] }
  else
    let s2 := s1.modWindow pkg k fun w => w.setByte 0x2D 2
    held.foldl (fun a q => a.flushRound pkg q.1 q.2) s2

end Sys2Proof.Machine
end

