-- ==== Sys2Proof/Machine/ControlPage.lean ====
section
/-! DEFINITION. The runner control page (R280, R373, R375, R376, R391, R392, R428): its bytes as a party reads them, and
writes with their checks. The page is a view of the package's own state. -/

namespace Sys2Proof.Machine

/-! ### Reading -/

/-- Byte `k` of a number. -/
def nthByte (v k : Nat) : Byte := BitVec.ofNat 8 (v / 256 ^ k)

/-- BUSY of FWPREQ: a firmware request is being applied (R402, R428). -/
def Pkg.fwBusy (p : Pkg) : Bool := (p.preempt ++ p.completing.toList).any PreReq.fw

/-- FWPREQ as it reads. -/
def Pkg.fwpreqVal (p : Pkg) : Nat := p.fwpreq.toNat % 2 ^ 16 + if p.fwBusy then 2 ^ 63 else 0

/-- Bellows registers from offset 0x000 to 0x05F (R373). -/
def Bellows.regs (b : Bellows) : Nat :=
  let f (ofs v n : Nat) : Nat := v % 2 ^ (8 * n) * 2 ^ (8 * ofs)
  f 0 b.riseCap 2 + f 2 b.fallCap 2 + f 4 b.riseLim 2 + f 6 b.fallLim 2 + f 8 b.wakeW 2 + f 0x10 (b.estW / 1000) 4 +
    f 0x14 (b.balW / 1000) 4 + f 0x18 b.budget 4 + f 0x20 b.windows 8 + f 0x28 b.starts 8 + f 0x30 b.wakes 8 +
    f 0x38 b.defers 8 + f 0x40 b.pinAdm 8 + f 0x48 b.rampFlts 8 + f 0x50 b.balWin 8 + f 0x58 b.fallOvr 8

/-- The ring descriptor of hearth `h` (R428). DESIGN CHOICE (log 142). -/
def State.ringDesc (s : State) (pkg h : Nat) : Nat :=
  let gh := 16 * pkg + h
  if (s.pkg pkg).enabled h then
    errBase gh + (s.hearth gh).errCount % 2 ^ 64 * 2 ^ 64 + traceBase gh * 2 ^ 128 + (s.hearth gh).trCount % 2 ^ 64 * 2 ^ 192
  else 0

/-- A context descriptor as a number (R375). -/
def CtxDesc.val (d : CtxDesc) : Nat := d.root.toNat + d.part.toNat * 2 ^ 64 + d.flags.toNat * 2 ^ 72
/-- A trap-table entry as a number (R392). -/
def TrapEnt.val (t : TrapEnt) : Nat := t.handler.toNat + t.harea.toNat * 2 ^ 64 + (if t.tpoison then 2 ^ 128 else 0)

/-- A party reads the entries of a context: firmware those of every one, and a managing context those of its partition (R376). -/
def Pkg.sharesPart (p : Pkg) (who : Option (BitVec 8)) (ctx : Nat) : Bool :=
  match who with
  | none => true
  | some c => decide (p.part c.toNat = p.part ctx) && decide (p.part c.toNat ≠ 0xFF)

/-- A party writes the entries of a context: a managing context of its partition, and not firmware (R375, R376, R392). -/
def Pkg.mayWrite (p : Pkg) (who : Option (BitVec 8)) (ctx : Nat) : Bool :=
  match who with
  | none => false
  | some c => p.managing.getLsbD c.toNat && p.sharesPart who ctx

/-- A byte of the control page as a party reads it; firmware is `none` (R376, R428). DESIGN CHOICE (log 142). -/
def State.cpByte (s : State) (pkg : Nat) (who : Option (BitVec 8)) (ofs : Nat) : Byte :=
  let p := s.pkg pkg
  if ofs < 0x400 then
    let w := p.window (ofs / 64)
    if p.sharesPart who w.ctx then nthByte w.raw.toNat (ofs % 64) else 0
  else if ofs < 0x404 then (if who = none then nthByte p.wflush (ofs - 0x400) else 0)
  else if 0x408 ≤ ofs ∧ ofs < 0x410 then (if who = none then nthByte p.fwpreqVal (ofs - 0x408) else 0)
  else if 0x800 ≤ ofs ∧ ofs < 0xA00 then
    let h := (ofs - 0x800) / 32
    let mine : Bool := match who with
      | none => true
      | some c => decide (p.hearthPart (16 * pkg + h) = p.part c.toNat) && decide (p.part c.toNat ≠ 0xFF)
    if mine then nthByte (s.ringDesc pkg h) (ofs % 32) else 0
  else if 0xA00 ≤ ofs ∧ ofs < 0xA10 then nthByte p.hmap.toNat (ofs - 0xA00)
  else if 0x1000 ≤ ofs ∧ ofs < 0x1060 then nthByte p.bellows.regs (ofs - 0x1000)
  else if 0x1100 ≤ ofs ∧ ofs < 0x1500 then nthByte (Sparse.get 0 p.bellows.ballast ((ofs - 0x1100) / 8)) (ofs % 8)
  else if 0x2000 ≤ ofs ∧ ofs < 0x3000 then
    let c := (ofs - 0x2000) / 16
    if p.sharesPart who c then nthByte (p.ctxDesc c).val (ofs % 16) else 0
  else if 0x3000 ≤ ofs ∧ ofs < 0x3400 then BitVec.ofNat 8 (p.hearthPart (ofs - 0x3000))
  else if 0x3400 ≤ ofs ∧ ofs < 0x3420 then (if who = none then nthByte p.managing.toNat (ofs - 0x3400) else 0)
  else if 0x4000 ≤ ofs ∧ ofs < 0x6000 then
    let c := (ofs - 0x4000) / 32
    if p.sharesPart who c then nthByte (Sparse.get TrapEnt.none p.traps c).val (ofs % 32) else 0
  else 0

/-- `n` bytes of the control page. -/
def State.cpRead (s : State) (pkg : Nat) (who : Option (BitVec 8)) (ofs : Nat) : Nat → Nat
  | 0 => 0
  | n + 1 => (s.cpByte pkg who ofs).toNat + 256 * s.cpRead pkg who (ofs + 1) n

/-! ### Writing -/

/-- What becomes of a byte written to the control page. -/
inductive Auth where
  | taken | ignored | refused
  deriving DecidableEq, Repr

/-- The managing contexts that R411 names: their partition holds every enabled hearth of the package. -/
def State.ownsPackage (s : State) (pkg ctx : Nat) : Bool :=
  let p := s.pkg pkg
  p.managing.getLsbD ctx && decide (p.part ctx ≠ 0xFF) && (s.enabledHearths pkg).all fun gh => p.hearthPart gh = p.part ctx

/-- Who may write a byte of the control page outside the window descriptors (R375, R376, R392, R428). -/
def State.cpAuth (s : State) (pkg : Nat) (who : Option (BitVec 8)) (ofs : Nat) : Auth :=
  let p := s.pkg pkg
  let fw : Auth := if who = none then .taken else .refused
  let mine (c : Nat) : Auth := if p.mayWrite who c then .taken else .refused
  let spare (c : Nat) : Auth := if p.mayWrite who c then .ignored else .refused
  if ofs < 0x404 then fw
  else if 0x408 ≤ ofs ∧ ofs < 0x410 then fw
  else if 0x800 ≤ ofs ∧ ofs < 0xA10 then .refused
  else if 0x1000 ≤ ofs ∧ ofs < 0x1004 then fw
  else if 0x1004 ≤ ofs ∧ ofs < 0x1008 then
    match who with
    | none => .refused
    | some c => if s.ownsPackage pkg c.toNat then .taken else .refused
  else if 0x1008 ≤ ofs ∧ ofs < 0x100A then fw
  else if 0x2000 ≤ ofs ∧ ofs < 0x3000 then
    let b := ofs % 16
    if b = 8 then fw else if b < 8 ∨ b = 9 then mine ((ofs - 0x2000) / 16) else spare ((ofs - 0x2000) / 16)
  else if 0x3000 ≤ ofs ∧ ofs < 0x3420 then fw
  else if 0x4000 ≤ ofs ∧ ofs < 0x6000 then
    let b := ofs % 32
    if b < 0x14 then mine ((ofs - 0x4000) / 32) else spare ((ofs - 0x4000) / 32)
  else .ignored

/-- A number with its byte `k` replaced. -/
def withByte (v k : Nat) (b : Byte) : Nat := v - v / 256 ^ k % 256 * 256 ^ k + b.toNat * 256 ^ k

/-- Register `k` of the first five of Bellows. -/
def Bellows.reg (b : Bellows) (k : Nat) : Nat :=
  match k with
  | 0 => b.riseCap
  | 1 => b.fallCap
  | 2 => b.nextRise
  | 3 => b.nextFall
  | _ => b.wakeW

/-- A Bellows cap, limit or charge is written: a value out of range leaves it unchanged, a limit above its cap stores the
cap, and a limit above a lowered cap falls to it (R371). DEDUCED (log 123). -/
def Bellows.setReg (b : Bellows) (k x : Nat) : Bellows :=
  match k with
  | 0 => if 1 ≤ x ∧ x ≤ 50 then { b with riseCap := x, nextRise := min b.nextRise x } else b
  | 1 => if 1 ≤ x ∧ x ≤ 75 then { b with fallCap := x, nextFall := min b.nextFall x } else b
  | 2 => if x = 0 then b else { b with nextRise := min x b.riseCap, riseLim := max b.riseLim (min x b.riseCap) }
  | 3 => if x = 0 then b else { b with nextFall := min x b.fallCap, fallLim := max b.fallLim (min x b.fallCap) }
  | _ => if x ≤ 9 then { b with wakeW := x } else b

/-- The registers of Bellows after the bytes of one write (R371). -/
def Bellows.setBytes (b : Bellows) (bs : List (Nat × Byte)) : Bellows :=
  (List.range 5).foldl (fun r k =>
    match bs.filter fun x => (x.1 - 0x1000) / 2 = k with
    | [] => r
    | ys => r.setReg k (ys.foldl (fun v y => withByte v (y.1 % 2) y.2) (r.reg k))) b

/-- The package after a byte that its writer may write (R375, R392, R428); reserved bits stay zero (R6). WFLUSH outside 10 µs to 100 ms leaves the
register unchanged (R285). -/
def Pkg.setCp (p : Pkg) (ofs : Nat) (b : Byte) : Pkg :=
  if ofs < 0x404 then
    { p with wflush := withByte p.wflush (ofs - 0x400) b }
  else if 0x2000 ≤ ofs ∧ ofs < 0x3000 then
    let c := (ofs - 0x2000) / 16
    let d := p.ctxDesc c
    let k := ofs % 16
    let d' : CtxDesc :=
      if k < 8 then { d with root := BitVec.ofNat 64 (withByte d.root.toNat k b % 2 ^ 50) }
      else if k = 8 then { d with part := b } else { d with flags := b &&& 3 }
    { p with ctxs := Sparse.set .none p.ctxs c d' }
  else if 0x3000 ≤ ofs ∧ ofs < 0x3400 then { p with parts := Sparse.set 0xFF p.parts (ofs - 0x3000) b }
  else if 0x3400 ≤ ofs ∧ ofs < 0x3420 then
    { p with managing := BitVec.ofNat 256 (withByte p.managing.toNat (ofs - 0x3400) b) }
  else if 0x4000 ≤ ofs ∧ ofs < 0x6000 then
    let c := (ofs - 0x4000) / 32
    let t := Sparse.get TrapEnt.none p.traps c
    let k := ofs % 32
    let t' : TrapEnt :=
      if k < 8 then { t with handler := BitVec.ofNat 64 (withByte t.handler.toNat k b) }
      else if k < 16 then { t with harea := BitVec.ofNat 64 (withByte t.harea.toNat (k - 8) b) }
      else if k = 16 then { t with tpoison := b.getLsbD 0 } else t
    { p with traps := Sparse.set .none p.traps c t' }
  else p

/-- A refused write is discarded, counted and recorded, with the context, the offset and, as `det`, the SRC and SEQ of its packet
(R376, R420). DESIGN CHOICE (log 122). -/
def State.cpRefuse (s : State) (pkg : Nat) (who : Option (BitVec 8)) (ofs det : Nat) : State :=
  (s.countHearth (16 * pkg) 2).hearthRecord (16 * pkg) 6 (match who with | some c => c.toNat | none => 0xFF)
    (counterNumber 0 (16 * pkg) 2) (cpagePa pkg + ofs) det

/-- A core goes on with the HOST of a context that it knows (R377). -/
def Core.keepHost (c : Core) (ctx : BitVec 8) (old : Bool) : Core :=
  if c.hosts.any fun q => q.1 = ctx then c else { c with hosts := c.hosts ++ [(ctx, old)] }

/-- HOST of a valid descriptor has changed: each core of the package goes by the old one until its next TLBINV that covers the
context (R377). DEDUCED (log 114). -/
def State.hostChanged (s : State) (pkg ctx : Nat) (old : CtxDesc) : State :=
  if old.flags.getLsbD 0 && old.flags.getLsbD 1 ≠ s.hostOk pkg ctx then
    (List.range 128).foldl (fun a k => a.modCore (128 * pkg + k) fun c =>
      c.keepHost (BitVec.ofNat 8 ctx) (old.flags.getLsbD 1)) s
  else s

/-- A request to save or resume contexts reaches the runner (R402). DEDUCED (log 94). -/
def State.requestPreempt (s : State) (pkg : Nat) (r : PreReq) : State :=
  s.modPkg pkg fun p => { p with preempt := p.preempt ++ [r] }

/-- The contexts of a partition (R402). -/
def Pkg.partCtxs (p : Pkg) (part : Nat) : List (BitVec 8) :=
  ((List.range 256).filter fun c => decide (p.part c = part) && decide (part ≠ 0xFF)).map fun c => BitVec.ofNat 8 c

/-- A write of FWPREQ starts a request (R402, R428). -/
def State.fwRequest (s : State) (pkg : Nat) (word : DWord) : State :=
  let p := s.pkg pkg
  let ctxs := if word.getLsbD 9 then p.partCtxs (field word.toNat 15 10) else [word.setWidth 8]
  (s.setPkg pkg { p with fwpreq := word }).requestPreempt pkg
    { resume := word.getLsbD 8, ctxs, done := none, fw := true, owner := 0xFF }

/-- A write into a window descriptor: by a managing context whose partition holds the owning context before and after
it; a valid descriptor takes only the clearing of VALID, and a write that sets VALID while STATUS reads 2 is discarded
(R280, R376). -/
def State.writeWindow (s : State) (pkg k : Nat) (who : Option (BitVec 8)) (ofs det : Nat) (bs : List (Nat × Byte)) : State :=
  let p := s.pkg pkg
  let w := p.window k
  let put (w : Window) : Window :=
    bs.foldl (fun a b => if b.1 = 0x2C ∨ b.1 = 0x2D then a else a.setByte b.1 b.2.toNat) w
  let valid := (bs.find? fun b => b.1 = 0x2C).map fun b => b.2
  if !p.mayWrite who w.ctx || !p.mayWrite who (put w).ctx then s.cpRefuse pkg who ofs det
  else if w.validBit then
    match valid with
    | some b => if b.getLsbD 0 then s.cpRefuse pkg who ofs det else s.clearWindow pkg k
    | none => s.cpRefuse pkg who ofs det
  else
    match valid with
    | none => s.modWindow pkg k put
    | some b =>
      if b.getLsbD 0 then
        (if w.status = 2 then s else (s.modWindow pkg k fun w => (put w).setByte 0x2C b.toNat).declareWindow pkg k)
      else s.modWindow pkg k fun w => (put w).setByte 0x2C b.toNat

/-- A write of up to 8 bytes, inside one aligned 8-byte unit, to the control page of a package (R376, R428). One that touches a
byte which its writer may not write is discarded whole. `det` names the packet that carries it, if one does. -/
def State.cpWrite (s : State) (pkg : Nat) (who : Option (BitVec 8)) (ofs : Nat) (bytes : List Byte) (det : Nat := 0) : State :=
  let bs := (List.range bytes.length).zip bytes |>.map fun b => (ofs + b.1, b.2)
  if ofs < 0x400 then s.writeWindow pkg (ofs / 64) who ofs det (bs.map fun b => (b.1 % 64, b.2))
  else if bs.any fun b => s.cpAuth pkg who b.1 = .refused then s.cpRefuse pkg who ofs det
  else
    let ok := bs.filter fun b => s.cpAuth pkg who b.1 = .taken
    if 0x408 ≤ ofs ∧ ofs < 0x410 then
      (if ok.isEmpty then s
       else s.fwRequest pkg (BitVec.ofNat 64 (ok.foldl (fun v b => withByte v (b.1 - 0x408) b.2) (s.pkg pkg).fwpreq.toNat)))
    else if 0x1000 ≤ ofs ∧ ofs < 0x1010 then s.modPkg pkg fun p => { p with bellows := p.bellows.setBytes ok }
    else
      let s1 := s.modPkg pkg fun p =>
        let q := ok.foldl (fun a b => a.setCp b.1 b.2) p
        if 10 ≤ q.wflush ∧ q.wflush ≤ 100000 then q else { q with wflush := p.wflush }
      if 0x2000 ≤ ofs ∧ ofs < 0x3000 then s1.hostChanged pkg ((ofs - 0x2000) / 16) ((s.pkg pkg).ctxDesc ((ofs - 0x2000) / 16)) else s1

end Sys2Proof.Machine
end

