-- ==== Sys2Proof/Machine/Access.lean ====
section
/-! DEFINITION. What the memory instructions share: the memory operand (R243, R244), the checks of R214, the homes of the
lanes (R38, R213), orders and scopes (R225, R229 to R231, R236, R237), stall hints (R290), reads and writes at a home
(R216, R218), and register writes still to come (R60). -/

namespace Sys2Proof.Machine

/-! ### The memory operand (R243, R244) -/

/-- The effective address of a lane: base, index × scale, displacement count × unit, exactly (R244). -/
def Ix.ea (i : Ix) (o : Ops) (scale : BitVec 2) (disp : BitVec 8) (unit l : Nat) : Int :=
  signedVal (i.uniform o.a (.bw true)).bits.toNat 64 +
    signedVal (i.read o.b .w32 l).bits.toNat 32 * 2 ^ scale.toNat + signedVal disp.toNat 8 * unit

/-- The virtual address of a lane. -/
def Ix.va (i : Ix) (o : Ops) (x : MemX) (unit l : Nat) : Nat := wrapTo (i.ea o x.scale x.disp unit l) 64

/-- Whether the address of some lane of G comes from a poisoned register (R417). -/
def Ix.addrPoison (i : Ix) (o : Ops) : Bool := (i.poisonLanes o.a 1 i.g ||| i.poisonLanes o.b 1 i.g) ≠ 0

/-- The lanes of G that satisfy a condition. -/
def Ix.lanesIf (i : Ix) (p : Nat → Bool) : LaneMask := maskOf fun l => i.g.getLsbD l && p l

/-- A trap for the lanes of G that satisfy a condition, with the address of the lowest of them (R214). -/
def Ix.trapLanes (i : Ix) (cause : BitVec 8) (bad : Nat → Bool) (addr : Nat → Nat) : Except Stop Unit :=
  let m := i.lanesIf bad
  guardStop (m ≠ 0) (.trap cause (BitVec.ofNat 64 (addr (lowestLane m))) m)

/-! ### Checks of an access to device or host memory (R214) -/

/-- What an access asks: its leaf's permissions (R382), and whether host memory, replicated pages and the control page may
be named (R212, R213, R376). -/
structure Acc where
  need  : Need
  host  : Bool
  repl  : Bool
  cpage : Bool
  deriving DecidableEq, Repr

/-- A read. -/
def Acc.read (cpage : Bool) : Acc := { need := { r := true, w := false, x := false }, host := false, repl := true, cpage }
/-- A wait on a location. -/
def Acc.watch : Acc := { need := { r := true, w := false, x := false }, host := false, repl := false, cpage := false }
/-- A posted store. -/
def Acc.store (cpage : Bool) : Acc := { need := { r := false, w := true, x := false }, host := true, repl := false, cpage }
/-- The payload and the signal of PUTS. -/
def Acc.put (cpage : Bool) : Acc := { need := { r := false, w := true, x := false }, host := false, repl := false, cpage }
/-- A read-modify-write. -/
def Acc.rmw : Acc := { need := { r := true, w := true, x := false }, host := false, repl := false, cpage := false }
/-- GO: a valid translation is enough (R258). -/
def Acc.go : Acc := { need := { r := false, w := false, x := false }, host := false, repl := true, cpage := true }

/-- A translated address that the access may not use (R212 to R214, R376, R382). DEDUCED (log 33). -/
def Ix.denied (i : Ix) (k : Acc) (leaf : DWord) (pa : Nat) : Bool :=
  !k.need.grants leaf || i.s.coreBarred i.x.gc (i.s.ctxOf i.x).toNat pa || (paHost pa && !k.host) ||
    (leafRepl leaf && !k.repl) || (isCpage pa && !k.cpage)

/-- A lane's translation fails, or it may not be used. DEDUCED (log 33). -/
def Ix.accessBad (i : Ix) (k : Acc) (va : Nat) : Bool :=
  match i.translate va with
  | .ok leaf pa => i.denied k leaf pa
  | .miss => false
  | .fail => true

/-- The physical address of a translated virtual address. -/
def Ix.pa (i : Ix) (va : Nat) : Nat :=
  match i.translate va with
  | .ok _ pa => pa
  | _ => 0

/-- The home lies outside the context's partition (R386). -/
def Ix.outside (i : Ix) (pa : Nat) : Bool := i.s.outside (corePkg i.x.gc) (i.s.ctxOf i.x).toNat pa

/-- ALIGN (R214). -/
def Ix.checkAlign (i : Ix) (size : Nat) (va : Nat → Nat) : Except Stop Unit :=
  i.trapLanes Cause.align (fun l => va l % size ≠ 0) va

/-- Wait for the walks that some lane needs (R384). -/
def Ix.checkWalks (i : Ix) (va : Nat → Nat) : Except Stop Unit :=
  match (lanesOf i.g).find? fun l => i.translate (va l) = .miss with
  | some l => .error (i.walkWait (va l))
  | none => .ok ()

/-- The checks of R214 after EMPTY for an access of `size` bytes, with more reasons for ACCESS if the instruction has any. -/
def Ix.checkMem (i : Ix) (k : Acc) (size : Nat) (va : Nat → Nat) (more : Nat → Bool := fun _ => false) :
    Except Stop Unit := do
  i.checkAlign size va
  i.checkWalks va
  i.trapLanes Cause.access (fun l => i.accessBad k (va l) || more l) va
  i.trapLanes Cause.partition (fun l => i.outside (i.pa (va l))) va

/-! ### Homes (R38, R213) -/

/-- The hearth where the fragment stands. -/
def Ix.here (i : Ix) : Nat := coreHearth i.x.gc

/-- The homes of the lanes of G other than the current hearth, in ascending order; host memory, last, is 1024 (R215). -/
def Ix.homesOf (i : Ix) (pa : Nat → Nat) : List Nat :=
  let hs := (lanesOf i.g).map fun l => if paHost (pa l) then 1024 else paHearth (pa l)
  (List.range 1025).filter fun h => hs.contains h && h ≠ i.here

/-- The lanes of G homed at a hearth, or in host memory (1024). -/
def Ix.homedAt (i : Ix) (pa : Nat → Nat) (h : Nat) : LaneMask :=
  i.lanesIf fun l => (if paHost (pa l) then 1024 else paHearth (pa l)) = h

/-- The lanes of G at remote homes travel there, and the rest of the entry stays; a handler never leaves its core (R38,
R395). -/
def Ix.migrate (i : Ix) (va pa : Nat → Nat) (lsel : BitVec 4) : Except Stop (Ix × LaneMask) := do
  let hs := i.homesOf pa
  i.checkHints hs
  let away := hs.foldl (fun m h => m ||| i.homedAt pa h) 0
  guardStop (i.x.handler && away ≠ 0) (.trap Cause.illegal 0 i.e.mask)
  let s := hs.foldl (fun s h => i.sendLanes s (i.homedAt pa h) h (lsel.setWidth 8) false (va (lowestLane (i.homedAt pa h)))) i.s
  pure ({ i with s, g := i.g &&& ~~~away }, i.e.mask &&& ~~~away)

/-- The lanes `m` of the issuing entry are complete. -/
def Ix.doneFor (i : Ix) (s : State) (m : LaneMask) : State :=
  if m = 0 then s
  else s.modFrag i.f fun x => { (x.complete i.e.prio i.e.pc i.next m) with hinted := x.hinted.filter (· ≠ (i.e.prio, i.e.pc)) }

/-- The core has local stores that its sequencer has accepted and not applied yet (R226). -/
def State.lateAt (s : State) (gc : Nat) : Bool :=
  s.net.any fun p => srcUnit p.src = lateUnit && srcCore p.src = gc && p.body.cls = 0

/-- R50 at a home: the fragment's access waits for its own posted operations to this hearth, and behind the local stores of its core
(R226). -/
def Ix.checkHold (i : Ix) : Except Stop Unit :=
  guardStop ((i.x.pseq.any fun e => e.tgt = i.here && i.s.pendingTo e.src e.tgt e.seq) || i.s.lateAt i.x.gc) (.wait .hold)

/-! ### Orders and scopes (R228 to R231, R236, R237) -/

/-- The access has an acquire. -/
def ScopeOrder.acq (x : ScopeOrder) : Bool := x.order = .acquire || x.order = .acqRel
/-- The access has a release. -/
def ScopeOrder.rel (x : ScopeOrder) : Bool := x.order = .release || x.order = .acqRel

/-- The scope is of the wide cost class where the fragment stands: HOIST and CAST count as DOMAIN away from the anchor
(R229). -/
def Ix.wideScope (i : Ix) (sc : Scope) : Bool :=
  match sc with
  | .hoist | .cast => !i.s.atAnchor i.x
  | .core => false
  | _ => true

/-- The source of the fragment's posted packets: its slot (R48). -/
def Frag.src (x : Frag) : Nat := coreSrc x.gc x.slot 0

/-- The posted packets that a source's side still waits for: those of a core, or of the sources of no core (R275). -/
def State.unackedOf (s : State) (src : Nat) : List Unacked :=
  if srcOfCore src then (s.core (srcCore src)).unacked else s.unacked

/-- A posted packet of a source to a target, or one before it, has not been acknowledged (R275). -/
def State.awaits (s : State) (src tgt : Nat) (seq : Word) : Bool :=
  (s.unackedOf src).any fun u => u.src = src && u.tgt = tgt && decide ((seq - u.seq).toNat < 2 ^ 31)

/-- Everything that the fragment has sent from its slot to the host, or to reduction windows, has left for the host or has been
accepted by a switch (R224, R230, R281). A fragment leaves its slot only then, so that no earlier slot has more of it. DEDUCED (log 110). -/
def State.othersSent (s : State) (x : Frag) : Bool :=
  !(s.net.any fun p => p.src = x.src && (p.body.cls = 3 || p.tgt / 1024 = 1))

/-- Every earlier access of the fragment has been performed at a wide scope: its posted packets are acknowledged, its host
packets are sent, its contributions are accepted, and its drain mark is met (R230, R231). DEDUCED (log 23). -/
def State.performed (s : State) (x : Frag) : Bool :=
  x.pseq.all (fun e => !s.awaits e.src e.tgt e.seq) && s.othersSent x &&
    (match x.drain with | some n => (s.core x.gc).drainedTo n | none => true)

/-- Every earlier write of the fragment has been performed at a scope of the core class: what another core has posted for it is
acknowledged, what its own hearth is the home of is applied, and its core has sent the rest (R230). -/
def State.coreDone (s : State) (x : Frag) : Bool :=
  x.pseq.all (fun e =>
    if srcCore e.src ≠ x.gc then !s.awaits e.src e.tgt e.seq
    else if e.tgt = coreHearth x.gc then !s.pendingTo e.src e.tgt e.seq
    else !(s.net.any fun p => p.src = e.src && p.tgt = e.tgt && s.unsent p && decide ((e.seq - p.seq).toNat < 2 ^ 31))) &&
  !(s.net.any fun p => p.src = x.src && s.unsent p)

/-- The wait of a release at a scope (R230). -/
def Ix.checkRelease (i : Ix) (rel : Bool) (sc : Scope) : Except Stop Unit :=
  guardStop (rel && !(if i.wideScope sc then i.s.performed i.x else i.s.coreDone i.x)) (.wait .release)

/-- The larger of two packet counts. -/
def laterCount : Option Nat → Option Nat → Option Nat
  | some m, some n => some (max m n)
  | some m, none => some m
  | none, d => d

/-- The drain mark after an access or fence: a core-class acquire sets it, a wide-class release clears it (R231). An acquire of the
wide class sets it to the counts of the core-class releases of this core that the fragment has read, with which it synchronises too
(R232, R234). DEDUCED (log 139). -/
def Ix.drainAfter (i : Ix) (acq rel : Bool) (sc : Scope) (x : Frag) : Frag :=
  let x1 : Frag := if rel && i.wideScope sc then { x with drain := none } else x
  if acq && !i.wideScope sc then
    { x1 with drain := some (max (x1.drain.getD 0) (i.s.core i.x.gc).sent) }
  else if acq then { x1 with drain := laterCount x1.drain x1.seen }
  else x1

/-- The fragment has read locations with these records: those of its own core count (R232, R234). DEDUCED (log 139). -/
def Frag.reads (x : Frag) (recs : List RelRec) : Frag :=
  { x with seen := (recs.filter fun r => r.gc = x.gc).foldl (fun a r => laterCount a (some r.count)) x.seen }

/-- What a write with a core-class release records: the core and its count of packets sent (R236). -/
def Ix.relMark (i : Ix) (so : ScopeOrder) : Option (Nat × Nat) :=
  if ScopeOrder.rel so && !i.wideScope so.scope then some (i.x.gc, (i.s.core i.x.gc).sent) else none

/-- The posted-sequence entries of a fragment that name the hearth where it stands, and whose packets are applied there, are gone (R49). -/
def State.seenHere (s : State) (gh : Nat) (l : List PSeq) : List PSeq :=
  l.filter fun e => e.tgt ≠ gh || s.pendingTo e.src e.tgt e.seq

/-- The posted-sequence entries that a fragment still keeps: its own core's are gone once acknowledged, and those of its own hearth once
applied (R49). -/
def State.keptPSeq (s : State) (x : Frag) : List PSeq :=
  s.seenHere (coreHearth x.gc) (x.pseq.filter fun e => srcCore e.src ≠ x.gc || s.awaits e.src e.tgt e.seq)

/-- The core asks the targets of other cores' entries how far they have come (R49). -/
def State.askAcks (s : State) (gc : Nat) (ctx : BitVec 8) (l : List PSeq) : State :=
  l.foldl (fun a e =>
    let q : Body := .ackRequest e.src e.tgt (2048 + gc)
    if srcCore e.src = gc || (a.net.any fun p => !p.lost && p.body = q) then a else a.answer (coreSrc gc 0 7) e.tgt ctx q) s

/-- A write that may have to wait for another source of the same fragment toward the same home, or for the fragment's own packets
to the hearth where it stands (R224). DEDUCED (log 23). -/
def Ix.checkSources2 (i : Ix) (tgts : List Nat) : Except Stop Unit :=
  guardStop (i.x.pseq.any fun e =>
      tgts.contains e.tgt && (e.src ≠ i.x.src || e.tgt = i.here) && i.s.pendingTo e.src e.tgt e.seq)
    (.wait .release)

/-- A PROMOTE acquire whose location carries a record that is not yet drained asks the recorded core to drain, and holds
(R237). DEDUCED (log 35). -/
def Ix.promoteStop (i : Ix) (recs : List RelRec) : Option (Nat × Nat) :=
  (recs.find? fun r => !(i.s.core r.gc).drainedTo r.count).map fun r => (r.gc, r.count)

/-- The drain request of a held PROMOTE acquire is sent once (R237). DEDUCED (log 35). -/
def Ix.askDrain (i : Ix) (gc count : Nat) : State :=
  let w : Wait := .promote gc count
  let s := i.s.modFrag i.f fun x => x.waitAt i.e.prio i.e.pc w
  s.send (recordSrc i.x.gc) (2048 + gc) (i.s.ctxOf i.x) false none (.drainRequest gc count i.f)

/-! ### Reads and writes at a home -/

/-- A write at a home replaces or removes the record of its location (R236). -/
def State.noteRelease (s : State) (gh pa n : Nat) (rel : Option (Nat × Nat)) : State :=
  let old := (s.hearth gh).records
  let kept := old.filter fun r => !meets r.pa r.size pa n
  let new : List RelRec := match rel with
    | some (gc, count) => kept.drop (kept.length - 255) ++ [{ pa, size := n, gc, count }]
    | none => kept
  if new = old then s else s.modHearth gh fun h => { h with records := new }

/-- Some of the oldest records, which `n` more records need the room of, are not drained (R236). DEDUCED (log 34). -/
def State.oldHeld (s : State) (l : List RelRec) (cap n : Nat) : Bool :=
  (l.take (l.length + n - cap)).any fun r => !(s.core r.gc).drainedTo r.count

/-- The home has no room for `n` more records until its oldest have drained; they are dropped then (R236). DEDUCED (log 34). -/
def State.recordsFull (s : State) (gh n : Nat) : Bool := s.oldHeld (s.hearth gh).records 256 n

/-- A write to memory; the words of an 8-byte value have marks of their own (R417). -/
def State.putWrite (s : State) (w : WriteOp) : State :=
  if w.size = 8 ∧ w.poisonHi ≠ w.poison then
    (s.writeMem w.pa 4 w.val.toNat w.poison).writeMem (w.pa + 4) 4 (w.val.toNat / 2 ^ 32) w.poisonHi
  else s.writeMem w.pa w.size w.val.toNat w.poison

/-- A write is applied at its home: to memory, or to the control page (R216, R376); `det` is the SRC and SEQ of its packet, or the
SRC of the hoist slot where it is no packet (R420). DESIGN CHOICE (log 122). -/
def State.applyWrite (s : State) (ctx : BitVec 8) (w : WriteOp) (rel : Option (Nat × Nat)) (det : Nat := 0) : State :=
  if isCpage w.pa then
    s.cpWrite (paHearth w.pa / 16) (some ctx) (paOfs w.pa - cpageOfs) ((List.range w.size).map (nthByte w.val.toNat)) det
  else if paHost w.pa then s.putWrite w
  else (s.putWrite w).noteRelease (paHearth w.pa) w.pa w.size rel

/-- The writes of a packet or of an instruction, in order (R218). DEDUCED (log 32). -/
def State.applyWrites (s : State) (ctx : BitVec 8) (ws : List WriteOp) (rel : Option (Nat × Nat)) (det : Nat := 0) : State :=
  ws.foldl (fun a w => a.applyWrite ctx w rel det) s

/-- A write of a value at an address. -/
def Val.at_ (v : Val) (pa size : Nat) : WriteOp := { pa, size, val := v.bits, poison := v.lo, poisonHi := v.hi }

/-- A read at a home of at most 8 bytes (R216, R376). DEDUCED (log 124). -/
def State.readAt (s : State) (ctx : BitVec 8) (pa n : Nat) : Val :=
  if isCpage pa then Val.ofNat (s.cpRead (paHearth pa / 16) (some ctx) (paOfs pa - cpageOfs) n)
  else { bits := BitVec.ofNat 64 (s.readLE pa n), poison := s.poisoned pa n
         words := if n = 8 then some (s.poisoned pa 4, s.poisoned (pa + 4) 4) else none }

/-- A step of a read-modify-write (R250). -/
def AtomOp.step (op : AtomOp) (t : Ty) (o v : DWord) : DWord :=
  match op with
  | .add => FoldOp.step .add t o v
  | .min => FoldOp.step .min t o v
  | .max => FoldOp.step .max t o v
  | .and => o &&& v
  | .or => o ||| v
  | .xor => o ^^^ v
  | .exch => v

/-- Reductions are applied in order, each to the value before it (R251). DEDUCED (log 32). -/
def State.applyReductions (s : State) (op : AtomOp) (t : Ty) (ws : List WriteOp) (rel : Option (Nat × Nat)) : State :=
  ws.foldl (fun a w =>
    let old := a.readAt 0 w.pa w.size
    let bad := old.poison || w.poison || w.poisonHi
    a.applyWrite 0 { w with val := AtomOp.step op t old.bits w.val, poison := bad, poisonHi := bad } rel) s

/-! ### Register writes still to come (R60) -/

/-- The allotment registers from `a`, as bits. -/
def regBits (a n : Nat) : BitVec 256 :=
  (List.range n).foldl (fun b k => b ||| BitVec.ofNat 256 (2 ^ (a + k))) 0

/-- A load's results: the destination is empty until they are written; a predicate or a mask has no empty bit and is
written at once (R60). Each result is a list of 32-bit elements for a vector. -/
def Ix.pendVec (i : Ix) (s : State) (r n : Nat) (rs : List (Nat × List Val)) : State :=
  let a := i.areg r
  let w : Fill :=
    { vregs := rs.flatMap fun p => (List.range n).zip p.2 |>.map fun q => (32 * (a + q.1) + p.1, q.2.word, q.2.poison)
      empty := regBits a n, sreg := none }
  s.modFrag i.f fun x => { x with vempty := x.vempty ||| w.empty, fills := x.fills ++ [w] }

/-- The results of a load or a fetching atomic (R60, R247). -/
def Ix.pend (i : Ix) (s : State) (o : Opnd) (t : Ty) (rs : List (Nat × Val)) : State :=
  match o with
  | .v r =>
    i.pendVec s r.toNat (Ty.regs t) (rs.map fun p =>
      (p.1, if t.wide then p.2.halves
            else [{ p.2 with bits := (ext32 t p.2.bits).setWidth 64 }]))
  | .s r =>
    match rs with
    | [] => s
    | p :: _ =>
      s.modFrag i.f fun x => { x with
        sempty := x.sempty ||| BitVec.ofNat 64 (2 ^ r.toNat)
        fills := x.fills ++ [{ vregs := [], empty := 0, sreg := some (r, ext64 t p.2.bits, p.2.poison) }] }
  | _ => i.write s o t rs

/-- One pending register write is made: every lane's value, and the register is full (R60). -/
def State.applyFill (s : State) (f : Nat) : State :=
  let x := s.frag f
  match x.fills with
  | [] => s
  | w :: rest =>
    let s1 := s.modHoist x.hoist fun h => w.vregs.foldl (fun h p => h.setElem (p.1 / 32) (p.1 % 32) p.2.1 p.2.2) h
    s1.modFrag f fun y =>
      let y1 : Frag := { y with fills := rest, vempty := y.vempty &&& ~~~w.empty, vabsent := y.vabsent &&& ~~~w.empty }
      match w.sreg with
      | none => y1
      | some (r, v, p) =>
        let b : BitVec 64 := BitVec.ofNat 64 (2 ^ r.toNat)
        { y1 with
          sregs := Sparse.set 0 y1.sregs r.toNat v
          spoison := if p then y1.spoison ||| b else y1.spoison &&& ~~~b
          sempty := y1.sempty &&& ~~~b
          sabsent := y1.sabsent &&& ~~~b }

/-- A fragment whose lanes are gone ends, after the writes that are still to come to their registers (R42, R60, R448). -/
def State.leaveFrag (s : State) (f : Nat) : State := ((s.frag f).fills.foldl (fun a _ => a.applyFill f) s).endFrag f

end Sys2Proof.Machine
end

