-- ==== Sys2Proof/Machine/Tile.lean ====
section
/-! DEFINITION. The matrix format word (R128, R129), tile descriptors and their layout (R184, R185), the elements of a tile
with their scales (R118, R119, R130), and the scratchpad accesses that an accepted instruction holds (R190). -/

namespace Sys2Proof.Machine

/-! ### The format word (R128, R129) -/

/-- ATYPE. -/
def fmtA (w : Word) : Nat := field w.toNat 3 0
/-- BTYPE. -/
def fmtB (w : Word) : Nat := field w.toNat 7 4
/-- ACCT is INT32. -/
def fmtInt (w : Word) : Bool := field w.toNat 9 8 = 1
/-- SPAR. -/
def fmtSpar (w : Word) : Nat := field w.toNat 11 10
/-- ASCL. -/
def fmtAscl (w : Word) : Nat := field w.toNat 13 12
/-- BSCL. -/
def fmtBscl (w : Word) : Nat := field w.toNat 15 14
/-- SAT. -/
def fmtSat (w : Word) : Bool := w.getLsbD 16
/-- RBRND. -/
def fmtRm (w : Word) : Rm :=
  match field w.toNat 19 17 with
  | 0 => .rne
  | 1 => .rtz
  | 2 => .rup
  | _ => .rdn

/-- E4M3 or E5M2. -/
def isFp8 (c : Nat) : Bool := decide (c ≤ 1)
/-- INT8, signed or unsigned. -/
def isInt8 (c : Nat) : Bool := c = 6 || c = 7
/-- A weight plane. -/
def isPlane (c : Nat) : Bool := c = 8 || c = 9

/-- The word satisfies R128 and names a combination of R129. -/
def fmtLegal (w : Word) : Bool :=
  let a := fmtA w
  let b := fmtB w
  let i := fmtInt w
  let s := fmtSpar w
  let p := fmtAscl w
  let q := fmtBscl w
  decide (w.toNat < 2 ^ 20 ∧ field w.toNat 19 17 ≤ 3 ∧ field w.toNat 9 8 ≤ 1 ∧ s ≤ 1) &&
    (if isFp8 a then isFp8 b && !i && decide (p ≤ 1 ∧ q ≤ 1)
     else if a = 2 then b = 2 && !i && s = 0 && p = 2 && q = 2
     else if a = 3 ∨ a = 4 ∨ a = 5 then b = a && !i && s = 0 && p = 0 && q = 0
     else if isInt8 a then i && p = 0 && q = 0 && (isInt8 b || (isPlane b && s = 0))
     else false)

/-- A multiply-accumulate instruction accepts the combination (R189). -/
def MacKind.accepts (k : MacKind) (w : Word) : Bool :=
  match k with
  | .mma => fmtSpar w = 0 && !isPlane (fmtB w)
  | .mmas => fmtSpar w = 1
  | .mmal => isPlane (fmtB w)

/-! ### Descriptors (R184) -/

/-- PV. -/
def tilePv (d : DWord) : Bool := d.getLsbD 63
/-- PEER. -/
def tilePeer (d : DWord) : Nat := field d.toNat 62 53
/-- The K extent, or the columns. -/
def tileK (d : DWord) : Nat := field d.toNat 52 43 + 1
/-- The row extent. -/
def tileRows (d : DWord) : Nat := field d.toNat 42 34 + 1
/-- The row stride in bytes. -/
def tileStride (d : DWord) : Nat := 64 * field d.toNat 33 23
/-- OFS. -/
def tileOfs (d : DWord) : Nat := field d.toNat 22 0

/-- Pad64 (R185). -/
def pad64 (x : Nat) : Nat := (x + 63) / 64 * 64

/-- The bytes of `k` elements of a type code. -/
def elemBytes (c k : Nat) : Nat :=
  if c = 2 then k / 2 else if c = 3 ∨ c = 4 then 2 * k else if c = 5 then 4 * k else k

/-- The scale area of a dense or compressed tile (R185). -/
def scaleArea (mode rows k : Nat) : Nat :=
  match mode with
  | 0 => 0
  | 1 => 64
  | _ => 64 + pad64 (rows * (k / 8))

/-- A tile's scale area H and row length L (R185). -/
structure Layout where
  h : Nat
  l : Nat
  deriving DecidableEq, Repr

/-- The layout of the A tile. -/
def layoutA (k : MacKind) (w : Word) (d : DWord) : Layout :=
  match k with
  | .mma => { h := scaleArea (fmtAscl w) (tileRows d) (tileK d), l := elemBytes (fmtA w) (tileK d) }
  | .mmas => { h := scaleArea (fmtAscl w) (tileRows d) (tileK d), l := tileK d / 2 }
  | .mmal => { h := 0, l := 8 * tileK d }

/-- The layout of the B tile. -/
def layoutB (k : MacKind) (w : Word) (d : DWord) : Layout :=
  match k with
  | .mmal => if fmtB w = 8 then { h := 0, l := tileK d / 8 } else { h := pad64 (tileRows d), l := tileK d / 4 }
  | _ => { h := scaleArea (fmtBscl w) (tileRows d) (tileK d), l := elemBytes (fmtB w) (tileK d) }

/-- The layout of an ALDS or ASTS tile (R202). -/
def layoutT (t : Ty) (d : DWord) : Layout := { h := 0, l := tileK d * (t.bits / 8) }

/-- The first offset past a tile. -/
def tileEnd (d : DWord) (y : Layout) : Nat := tileOfs d + y.h + tileStride d * (tileRows d - 1) + y.l
/-- The offset of a row. -/
def tileRow (d : DWord) (y : Layout) (r : Nat) : Nat := tileOfs d + y.h + tileStride d * r

/-! ### Elements (R115 to R119, R130) -/

/-- Bytes of a reading of scratchpad, little-endian. -/
def Snap.read (x : Snap) (ofs n : Nat) : Nat :=
  (List.range n).foldl (fun a k => a + (Sparse.get (0 : Byte) x.cells (ofs + k)).toNat * 256 ^ k) 0
/-- Whether some word of the bytes is marked. -/
def Snap.bad (x : Snap) (ofs n : Nat) : Bool := (wordsOf ofs n).any (Sparse.get false x.marks)
/-- The scratchpad of a cast as it stands. -/
def Cast.snap (c : Cast) : Snap := { cells := c.spad, marks := c.spoison }
/-- Nothing read. -/
def Snap.none : Snap := { cells := [], marks := [] }

/-- The format of a floating type code. -/
def fmtOfCode (c : Nat) : Fmt :=
  match c with
  | 0 => .e4m3
  | 1 => .e5m2
  | 2 => .e2m1
  | 3 => .bf16
  | 4 => .fp16
  | _ => .tf32

/-- An exact value with its poison. -/
abbrev Elem := FV × Bool

/-- Position `p` of row `r` of a tile of floating elements, without scales. -/
def rawElem (x : Snap) (c row p : Nat) : Elem :=
  if c = 2 then
    let b := row + p / 2
    ((Fmt.val .e2m1 (x.read b 1 / 16 ^ (p % 2) % 16)), x.bad b 1)
  else
    let n := elemBytes c 1
    let f := fmtOfCode c
    (f.val (x.read (row + n * p) n), x.bad (row + n * p) n)

/-- An element with its scales: `k` its position along K, `p` its position in the stored row (R119, R185). An element of a
zero block is +0 (R118), and its band scale multiplies it as any other (R119). -/
def scaledElem (x : Snap) (c mode : Nat) (d : DWord) (y : Layout) (r k p : Nat) : Elem :=
  let e := rawElem x c (tileRow d y r) p
  let o := tileOfs d
  match mode with
  | 0 => e
  | 1 => (e.1.mul (Fmt.val .fp32 (x.read o 4)), e.2 || x.bad o 4)
  | _ =>
    let band := o + 2 * (r / 64)
    let blk := o + 64 + r * (tileK d / 8) + k / 8
    let s := x.read blk 1
    let u : FV := if s = 0 then .fin false 0 0 else e.1.mul (e3m5 s)
    let v : FV := u.mul (Fmt.val .bf16 (x.read band 2))
    (v, e.2 || x.bad band 2 || x.bad blk 1 || s = 0xFF)

/-- An integer element, signed or unsigned by its code. -/
def intElem (x : Snap) (c row p : Nat) : Int × Bool :=
  let v := x.read (row + p) 1
  (if c = 6 then signedVal v 8 else v, x.bad (row + p) 1)

/-! ### Sums (R131, R133) -/

/-- Floor(Log2) of a nonzero value. -/
def FV.exp (x : FV) : Int :=
  match x with
  | .fin _ m e => (Nat.log2 m : Int) + e
  | _ => 0

/-- A zero of either sign. -/
def FV.isZero (x : FV) : Bool :=
  match x with
  | .fin _ m _ => m = 0
  | _ => false

/-- The greatest exponent of the nonzero terms. -/
def maxExp : List FV → Option Int
  | [] => none
  | x :: xs =>
    if x.isZero then maxExp xs
    else match maxExp xs with
      | some e => some (max e x.exp)
      | none => some x.exp

/-- A term in units of the window's lowest bit, truncated toward zero (R131). -/
def FV.inWindow (x : FV) (q : Int) : Int :=
  match x with
  | .fin neg m e => if neg then -(scale2 m (e - q) : Int) else scale2 m (e - q)
  | _ => 0

/-- WindowSum over all its terms, the accumulator among them (R131). -/
def windowSum (ts : List FV) : Nat :=
  let z0 : Nat := if ts.all FV.neg then 0x80000000 else 0
  if ts.contains .nan || (ts.contains (.inf false) && ts.contains (.inf true)) then Fmt.canonNan .fp32
  else if ts.contains (.inf false) then Fmt.infCode .fp32 false
  else if ts.contains (.inf true) then Fmt.infCode .fp32 true
  else match maxExp ts with
    | none => z0
    | some e =>
      let q := e - 63
      let sum : Int := (ts.map fun t => t.inWindow q).foldl (· + ·) 0
      if sum = 0 then z0 else Fmt.round .fp32 (.fin (decide (sum < 0)) sum.natAbs q) .rne false 0

/-- A product and its poison: a poisoned product enters as +0 (R130, R135). -/
def mulElem (a b : Elem) : Elem := if a.2 || b.2 then (.fin false 0 0, true) else (a.1.mul b.1, false)

/-- The products of one K-block: 32 for FP8, 64 for E2M1, 16 for BF16 and FP16, 8 for TF32 (R129). -/
def blockSize (w : Word) : Nat :=
  match fmtA w with
  | 2 => 64
  | 3 | 4 => 16
  | 5 => 8
  | _ => if fmtSpar w = 1 then 64 else 32

/-! ### Scratchpad held for accepted instructions (R190) -/

/-- The bytes of a cast's scratchpad that an accepted instruction will read. -/
def State.tileReads (s : State) (c : Nat) (op : MOp) : List (Nat × Nat × Nat) :=
  let at_ (d : DWord) : Nat := if tilePv d then s.peerOf c (tilePeer d) else c
  match op with
  | .mac k da db w _ _ =>
    [(at_ da, tileOfs da, tileEnd da (layoutA k w da)), (at_ db, tileOfs db, tileEnd db (layoutB k w db))]
  | .alds t d => [(at_ d, tileOfs d, tileEnd d (layoutT t d))]
  | _ => []

/-- The bytes that it will write. -/
def tileWrites (c : Nat) (op : MOp) : List (Nat × Nat × Nat) :=
  match op with
  | .asts t d _ => [(c, tileOfs d, tileEnd d (layoutT t d))]
  | _ => []

/-- The accepted instructions of the hoist in its cast's contexts. -/
def Cast.accepted (c : Cast) (hk : Nat) : List MInst := (c.c0.queue ++ c.c1.queue).filter fun m => m.hoist = hk

/-- A scratchpad access of a hoist is held: a write to a byte that an accepted instruction of the hoist has still to read, or
any access of a byte that its ASTS has still to write (R190). DEDUCED (log 67). -/
def State.tileHeld (s : State) (hk : Nat) (write : Bool) (ofs n : Nat) : Bool :=
  let c := hk / 32
  ((s.cast c).accepted hk).any fun m =>
    (write && !m.running && (s.tileReads c m.op).any fun r => r.1 = c && decide (ofs < r.2.2 ∧ r.2.1 < ofs + n)) ||
      (tileWrites c m.op).any fun r => decide (ofs < r.2.2 ∧ r.2.1 < ofs + n)

end Sys2Proof.Machine
end

