-- ==== Sys2Proof/Machine/QueueAccess.lean ====
section
/-! DEFINITION. Pushes and pops of queues by an instruction (R65 to R67, R190), and MOV, which a queue operand makes one (R147,
R151). -/

namespace Sys2Proof.Machine

/-- Elements that an operand moves: one for each lane for a vector or a predicate, one for any other (R65). -/
def Ix.elements (i : Ix) (o : Opnd) : List Nat :=
  match o with
  | .v _ | .p _ => lanesOf i.g
  | _ => [lowestLane i.g]

/-- The checks of a push or a pop of `n` elements of `sz` bytes: bound, of a kind that allows it, of the size of the
type, and no more than CAP (R65, R66, R151). -/
def Ix.checkQueue (i : Ix) (x : Queue) (kinds : List Nat) (sz n : Nat) : Except Stop Unit :=
  guardStop (!kinds.contains x.kind || x.esize ≠ sz || decide (x.cap < n)) (.trap Cause.queue 0 i.g)

/-- The engine of a command queue (R66). -/
def engineOf (kind : Nat) : Option Engine :=
  match kind with
  | 2 => some .copy
  | 3 => some .bank
  | 4 => some .coll
  | _ => none

/-- The scope of the release that the issue of a command makes: CORE for a copy and a bank command, which follow the core's packets,
and DOMAIN for a collective (R239). DEDUCED (log 112). -/
def Engine.relScope : Engine → Scope
  | .coll => .domain
  | _ => .core

/-- The fragment after the issue of a command for an engine (R231, R239). -/
def Ix.afterIssue (i : Ix) (e : Option Engine) (s : State) : State :=
  match e with
  | some .coll => s.modFrag i.f (i.drainAfter false true Engine.coll.relScope)
  | _ => s

/-- A push at the anchor core: the state after it, or a wait while the ring lacks room (R65 to R67), for the release that a push of a
command makes (R239, R260), or while an accepted instruction of the hoist has still to read or write the bytes (R190); before a copy, the
operand reads that the hoist has still to make come first (R239). DEDUCED (log 112). DESIGN CHOICE (log 132). -/
def Ix.pushTo (i : Ix) (q : BitVec 4) (o : Opnd) (w64 : Bool) : Except Stop State := do
  let c := i.s.castOf i.x
  let x := (i.s.cast c).queue q.toNat
  let ls := i.elements o
  i.checkQueue x [1, 2, 3, 4] (if w64 then 8 else 4) ls.length
  guardStop (decide (x.cap < x.count + ls.length)) (.wait (.queue q))
  i.checkRelease (engineOf x.kind).isSome (((engineOf x.kind).map Engine.relScope).getD .core)
  guardStop ((List.range ls.length).any fun k => i.s.tileHeld i.x.hoist true (x.slot (x.tail + k)) x.esize) (.wait .tile)
  guardStop (decide (engineOf x.kind = some .copy) && i.s.tileHeld i.x.hoist true 0 (i.s.spadBytes c)) (.wait .tile)
  pure (i.afterIssue (engineOf x.kind) (i.s.pushQueue c q.toNat (ls.map (i.read o (.bw w64)))))

/-- A pop at the anchor core: the values for the lanes and the state after it; with too few elements, a wait or EMPTY
(R65); while an ASTS of the hoist has still to write them, a wait (R190). DESIGN CHOICE (log 111, 132). -/
def Ix.popFrom (i : Ix) (q : BitVec 4) (d : Opnd) (w64 bit : Bool) : Except Stop (List (Nat × Val) × State) := do
  let c := i.s.castOf i.x
  let x := (i.s.cast c).queue q.toNat
  let ls := i.elements d
  i.checkQueue x [1, 5] (if w64 then 8 else 4) ls.length
  guardStop (decide (x.count < ls.length)) (if bit then .trap Cause.empty 0 i.g else .wait (.queue q))
  guardStop ((List.range ls.length).any fun k => i.s.tileHeld i.x.hoist false (x.slot (x.head + k)) x.esize) (.wait .tile)
  pure (ls.zip ((i.s.cast c).heads q.toNat ls.length), i.s.modCast c fun k => k.pop q.toNat ls.length)

/-- MOV: a copy, a push when D is a queue, or a pop when A is one (R147, R151). -/
def execMov (h : Hdr) (o : Ops) (w64 : Bool) (lsel : BitVec 4) (s : State) : Host.Outcome State Fault Refusal :=
  let i := Ix.of s h
  .next (match o.d, o.a with
    | .q q, _ => i.run do
        i.checkSources (i.uses h o (.bw w64) .w32 .w32) i.g
        i.needAnchor lsel
        let s1 ← i.pushTo q o.a w64
        pure (i.done s1)
    | _, .q q => i.run do
        i.checkDests [(o.d, Ty.regs (bwTy w64))]
        i.needAnchor lsel
        let r ← i.popFrom q o.d w64 h.ea
        pure (({ i with s := r.2 } : Ix).finish o.d (bwTy w64) r.1)
    | _, _ => logic2 h o w64 (fun a _ => a) s)

end Sys2Proof.Machine
end

