-- ==== Sys2Proof/Decode.lean ====
section
/-! DEFINITION. The decoder of Tabiq (R76 to R97), total on any bytes and rejecting by name, and after it the encoder.

Decoding takes the fields of a word apart, builds the term they name, and accepts it when it is well formed and its own
fields are those of the word, so that no bit of a word is dropped. -/

namespace Sys2Proof

/-! ### Codes -/

/-- The code of a type (R92). -/
def Ty.code : Ty → BitVec 6
  | .b32 => 0
  | .n32 => 1
  | .i32 => 2
  | .n64 => 3
  | .i64 => 4
  | .b64 => 5
  | .n16 => 6
  | .i16 => 7
  | .n8 => 8
  | .i8 => 9
  | .b16 => 10
  | .b8 => 11
  | .f32 => 16
  | .f16 => 17
  | .bf16 => 18
  | .tf32 => 19
  | .e4m3 => 20
  | .e5m2 => 21
  | .e2m1 => 22
  | .e3m5 => 23
  | .f16x2 => 24
  | .bf16x2 => 25
  | .n24 => 26
  | .i24 => 27

/-- A type (R92) with a code, if the code is assigned. -/
def Ty.ofCode (c : BitVec 6) : Option Ty :=
  if c = 0 then some .b32
  else if c = 1 then some .n32
  else if c = 2 then some .i32
  else if c = 3 then some .n64
  else if c = 4 then some .i64
  else if c = 5 then some .b64
  else if c = 6 then some .n16
  else if c = 7 then some .i16
  else if c = 8 then some .n8
  else if c = 9 then some .i8
  else if c = 10 then some .b16
  else if c = 11 then some .b8
  else if c = 16 then some .f32
  else if c = 17 then some .f16
  else if c = 18 then some .bf16
  else if c = 19 then some .tf32
  else if c = 20 then some .e4m3
  else if c = 21 then some .e5m2
  else if c = 22 then some .e2m1
  else if c = 23 then some .e3m5
  else if c = 24 then some .f16x2
  else if c = 25 then some .bf16x2
  else if c = 26 then some .n24
  else if c = 27 then some .i24
  else none

/-- The code of a condition (R152, R166). -/
def Cond.code : Cond → BitVec 3
  | .eq => 0
  | .ne => 1
  | .lt => 2
  | .le => 3
  | .gt => 4
  | .ge => 5
  | .num => 6
  | .nan => 7

/-- A condition (R152, R166) with a code, if the code is assigned. -/
def Cond.ofCode (c : BitVec 3) : Option Cond :=
  if c = 0 then some .eq
  else if c = 1 then some .ne
  else if c = 2 then some .lt
  else if c = 3 then some .le
  else if c = 4 then some .gt
  else if c = 5 then some .ge
  else if c = 6 then some .num
  else if c = 7 then some .nan
  else none

/-- The code of a rounding mode (R123). -/
def Rm.code : Rm → BitVec 3
  | .rne => 0
  | .rtz => 1
  | .rup => 2
  | .rdn => 3
  | .sr => 4

/-- A rounding mode (R123) with a code, if the code is assigned. -/
def Rm.ofCode (c : BitVec 3) : Option Rm :=
  if c = 0 then some .rne
  else if c = 1 then some .rtz
  else if c = 2 then some .rup
  else if c = 3 then some .rdn
  else if c = 4 then some .sr
  else none

/-- The code of a scope (R91). -/
def Scope.code : Scope → BitVec 3
  | .hoist => 0
  | .cast => 1
  | .core => 2
  | .hearth => 3
  | .package => 4
  | .domain => 5

/-- A scope (R91) with a code, if the code is assigned. -/
def Scope.ofCode (c : BitVec 3) : Option Scope :=
  if c = 0 then some .hoist
  else if c = 1 then some .cast
  else if c = 2 then some .core
  else if c = 3 then some .hearth
  else if c = 4 then some .package
  else if c = 5 then some .domain
  else none

/-- The code of an order (R91). -/
def MemOrder.code : MemOrder → BitVec 2
  | .relaxed => 0
  | .acquire => 1
  | .release => 2
  | .acqRel => 3

/-- An order (R91) with a code, if the code is assigned. -/
def MemOrder.ofCode (c : BitVec 2) : Option MemOrder :=
  if c = 0 then some .relaxed
  else if c = 1 then some .acquire
  else if c = 2 then some .release
  else if c = 3 then some .acqRel
  else none

/-- The code of a mode of PMOV (R154). -/
def PmovMode.code : PmovMode → BitVec 2
  | .bit => 0
  | .pack => 1
  | .unpack => 2

/-- A mode of PMOV (R154) with a code, if the code is assigned. -/
def PmovMode.ofCode (c : BitVec 2) : Option PmovMode :=
  if c = 0 then some .bit
  else if c = 1 then some .pack
  else if c = 2 then some .unpack
  else none

/-- The code of a mode of XLANE (R155). -/
def XlaneMode.code : XlaneMode → BitVec 2
  | .pick => 0
  | .back => 1
  | .ahead => 2
  | .flip => 3

/-- A mode of XLANE (R155) with a code, if the code is assigned. -/
def XlaneMode.ofCode (c : BitVec 2) : Option XlaneMode :=
  if c = 0 then some .pick
  else if c = 1 then some .back
  else if c = 2 then some .ahead
  else if c = 3 then some .flip
  else none

/-- The code of an operation of SCAN (R158). -/
def FoldOp.code : FoldOp → BitVec 3
  | .add => 0
  | .min => 1
  | .max => 2
  | .and => 3
  | .or => 4
  | .xor => 5

/-- An operation of SCAN (R158) with a code, if the code is assigned. -/
def FoldOp.ofCode (c : BitVec 3) : Option FoldOp :=
  if c = 0 then some .add
  else if c = 1 then some .min
  else if c = 2 then some .max
  else if c = 3 then some .and
  else if c = 4 then some .or
  else if c = 5 then some .xor
  else none

/-- The code of an operation of ATOM (R250). -/
def AtomOp.code : AtomOp → BitVec 4
  | .add => 0
  | .min => 1
  | .max => 2
  | .and => 3
  | .or => 4
  | .xor => 5
  | .exch => 6

/-- An operation of ATOM (R250) with a code, if the code is assigned. -/
def AtomOp.ofCode (c : BitVec 4) : Option AtomOp :=
  if c = 0 then some .add
  else if c = 1 then some .min
  else if c = 2 then some .max
  else if c = 3 then some .and
  else if c = 4 then some .or
  else if c = 5 then some .xor
  else if c = 6 then some .exch
  else none

/-- The code of a count of LDX (R246). -/
def XCount.code : XCount → BitVec 2
  | .x2 => 0
  | .x4 => 1
  | .x8 => 2

/-- A count of LDX (R246) with a code, if the code is assigned. -/
def XCount.ofCode (c : BitVec 2) : Option XCount :=
  if c = 0 then some .x2
  else if c = 1 then some .x4
  else if c = 2 then some .x8
  else none

/-- The code of a field of QSTAT (R270). -/
def QField.code : QField → BitVec 2
  | .count => 0
  | .free => 1
  | .bind => 2

/-- A field of QSTAT (R270) with a code, if the code is assigned. -/
def QField.ofCode (c : BitVec 2) : Option QField :=
  if c = 0 then some .count
  else if c = 1 then some .free
  else if c = 2 then some .bind
  else none

/-- The code of a mode of MSET (R348). -/
def MsetMode.code : MsetMode → BitVec 2
  | .em => 0
  | .mov => 1
  | .or => 2
  | .andn => 3

/-- A mode of MSET (R348) with a code, if the code is assigned. -/
def MsetMode.ofCode (c : BitVec 2) : Option MsetMode :=
  if c = 0 then some .em
  else if c = 1 then some .mov
  else if c = 2 then some .or
  else if c = 3 then some .andn
  else none

/-- The code of a target of RFT (R400). -/
def RftTo.code : RftTo → BitVec 2
  | .retry => 0
  | .next => 1
  | .to => 2

/-- A target of RFT (R400) with a code, if the code is assigned. -/
def RftTo.ofCode (c : BitVec 2) : Option RftTo :=
  if c = 0 then some .retry
  else if c = 1 then some .next
  else if c = 2 then some .to
  else none

/-- The code of an extent of TLBINV (R407). -/
def InvExtent.code : InvExtent → BitVec 2
  | .page => 0
  | .ctx => 1
  | .part => 2

/-- An extent of TLBINV (R407) with a code, if the code is assigned. -/
def InvExtent.ofCode (c : BitVec 2) : Option InvExtent :=
  if c = 0 then some .page
  else if c = 1 then some .ctx
  else if c = 2 then some .part
  else none

/-- The code of a selection of MWAIT (R204). -/
def MwaitSel.code : MwaitSel → BitVec 2
  | .c0 => 1
  | .c1 => 2
  | .both => 3

/-- A selection of MWAIT (R204) with a code, if the code is assigned. -/
def MwaitSel.ofCode (c : BitVec 2) : Option MwaitSel :=
  if c = 1 then some .c0
  else if c = 2 then some .c1
  else if c = 3 then some .both
  else none

/-- The code of a test of LTEST (R157). -/
def LTest.code : LTest → BitVec 2
  | .every => 0 | .some => 1 | .same32 => 2 | .same64 => 2 | .odd => 3

/-- The code of a merge (R87). -/
def Merge.code : Merge → BitVec 2
  | .set => 0 | .and => 1 | .or => 2 | .gate => 3

/-- The merge of a code (R87): all four are legal. -/
def Merge.ofCode (c : BitVec 2) : Merge :=
  if c = 0 then .set else if c = 1 then .and else if c = 2 then .or else .gate

/-- PCT (R87). -/
def Pct.code (p : Pct) : BitVec 3 := BitVec.ofBool p.inv ++ p.merge.code

/-- The combining type of a PCT field: all eight are legal (R87). -/
def Pct.ofCode (c : BitVec 3) : Pct := { merge := .ofCode (c.extractLsb' 0 2), inv := c.getLsbD 2 }

/-- The scope-and-order byte (R91). -/
def ScopeOrder.code (x : ScopeOrder) : BitVec 8 :=
  x.scope.code ++ x.order.code ++ BitVec.ofBool x.promote ++ BitVec.ofBool x.pass ++ (0 : BitVec 1)

/-- The TYPE of the bit-pattern instructions (BW of R138). -/
def bwCode (w64 : Bool) : BitVec 6 := (if w64 then Ty.b64 else Ty.b32).code

/-- The code of a form (R76). -/
def Form.code : Form → BitVec 2
  | .f64 => 0 | .f96 => 1 | .f128 => 2

/-- The form that LEN names (R76). -/
def Form.ofCode (c : BitVec 2) : Option Form :=
  if c = 0 then some .f64 else if c = 1 then some .f96 else if c = 2 then some .f128 else none

/-- The specifier of an operand (R84); a literal has 0xFF in its place (R81), a reserved field zero (R83). -/
def Opnd.code : Opnd → BitVec 8
  | .none => 0
  | .v i => (0 : BitVec 2) ++ i
  | .s i => (1 : BitVec 2) ++ i
  | .q i => (8 : BitVec 4) ++ i
  | .p i => (10 : BitVec 4) ++ i
  | .m i => (11 : BitVec 4) ++ i
  | .zr => 0xFF
  | .lit _ => 0xFF

/-- The operand that a specifier names (R84). -/
def Opnd.ofCode (c : BitVec 8) : Except Illegal Opnd :=
  if c.extractLsb' 6 2 = 0 then .ok (.v (c.extractLsb' 0 6))
  else if c.extractLsb' 6 2 = 1 then .ok (.s (c.extractLsb' 0 6))
  else if c.extractLsb' 4 4 = 8 then .ok (.q (c.extractLsb' 0 4))
  else if c.extractLsb' 4 4 = 10 then .ok (.p (c.extractLsb' 0 4))
  else if c.extractLsb' 4 4 = 11 && (c.extractLsb' 0 4).toNat ≤ 11 then .ok (.m (c.extractLsb' 0 4))
  else if c = 0xFF then .ok .zr
  else .error .reservedSpecifier

/-! ### Fields -/

/-- The fields of an instruction (R79 to R81); those that its form lacks are zero. -/
structure Fields where
  form  : Form
  major : BitVec 8
  gp    : BitVec 4
  gn    : Bool
  dst   : BitVec 8
  sa    : BitVec 8
  sb    : BitVec 8
  sc    : BitVec 8
  ea    : Bool
  eb    : Bool
  ec    : Bool
  minor : BitVec 8
  ty    : BitVec 6
  dst2  : BitVec 8
  pct   : BitVec 3
  lsel  : BitVec 4
  pri   : BitVec 8
  lit   : Bool
  xmod  : BitVec 8
  imm   : Word
  deriving DecidableEq, Repr

/-- The fields of the word of an instruction of form `f` (R79 to R81). -/
def Fields.ofWord (f : Form) (w : BitVec 128) : Fields :=
  let second : Bool := f ≠ .f64
  let third : Bool := f = .f128
  { form := f, major := w.extractLsb' 2 8, gp := w.extractLsb' 10 4, gn := w.getLsbD 14, dst := w.extractLsb' 15 8,
    sa := w.extractLsb' 23 8, sb := w.extractLsb' 31 8, sc := w.extractLsb' 39 8, ea := w.getLsbD 47,
    eb := w.getLsbD 48, ec := w.getLsbD 49, minor := w.extractLsb' 50 8, ty := w.extractLsb' 58 6,
    dst2 := if second then w.extractLsb' 64 8 else 0, pct := if second then w.extractLsb' 72 3 else 0,
    lsel := if second then w.extractLsb' 75 4 else 0, pri := if second then w.extractLsb' 79 8 else 0,
    lit := second && w.getLsbD 87, xmod := if second then w.extractLsb' 88 8 else 0,
    imm := if third then w.extractLsb' 96 32 else 0 }

/-- The word that the fields make (R79 to R81). -/
def Fields.word (f : Fields) : BitVec 128 :=
  f.imm ++ f.xmod ++ BitVec.ofBool f.lit ++ f.pri ++ f.lsel ++ f.pct ++ f.dst2 ++ f.ty ++ f.minor ++
  BitVec.ofBool f.ec ++ BitVec.ofBool f.eb ++ BitVec.ofBool f.ea ++ f.sc ++ f.sb ++ f.sa ++ f.dst ++
  BitVec.ofBool f.gn ++ f.gp ++ f.major ++ f.form.code

/-- What an instruction's entry puts into the fields other than its header and operands. -/
structure Code where
  major : BitVec 8
  minor : BitVec 8 := 0
  ty    : BitVec 6 := 0
  pct   : BitVec 3 := 0
  lsel  : BitVec 4 := 0
  pri   : BitVec 8 := 0
  xmod  : BitVec 8 := 0
  deriving DecidableEq, Repr

/-- The entry's fields of each instruction (R93 and the entries); `none` for an event. -/
def Instr.code : Instr → Option Code
  | .iadd _ _ t sat => some { major := 0x00, minor := (0 : BitVec 7) ++ BitVec.ofBool sat, ty := t.code }
  | .isub _ _ t sat => some { major := 0x01, minor := (0 : BitVec 7) ++ BitVec.ofBool sat, ty := t.code }
  | .iaddc _ _ t => some { major := 0x02, ty := t.code }
  | .isubb _ _ t => some { major := 0x03, ty := t.code }
  | .ineg _ _ t sat => some { major := 0x04, minor := (0 : BitVec 7) ++ BitVec.ofBool sat, ty := t.code }
  | .iabs _ _ t sat => some { major := 0x05, minor := (0 : BitVec 7) ++ BitVec.ofBool sat, ty := t.code }
  | .imin _ _ t => some { major := 0x06, ty := t.code }
  | .imax _ _ t => some { major := 0x07, ty := t.code }
  | .imul24 _ _ t hi => some { major := 0x08, minor := (0 : BitVec 7) ++ BitVec.ofBool hi, ty := t.code }
  | .imad24 _ _ t => some { major := 0x09, ty := t.code }
  | .imul _ _ t => some { major := 0x0A, ty := t.code }
  | .imulhi _ _ t => some { major := 0x0B, ty := t.code }
  | .imad _ _ t => some { major := 0x0C, ty := t.code }
  | .idot4 _ _ aSigned bSigned sat => some { major := 0x0D, minor := (0 : BitVec 5) ++ BitVec.ofBool sat ++ BitVec.ofBool bSigned ++ BitVec.ofBool aSigned, ty := Ty.code .i32 }
  | .isad _ _ t => some { major := 0x0E, ty := t.code }
  | .iclamp _ _ t => some { major := 0x0F, ty := t.code }
  | .and _ _ w64 => some { major := 0x10, ty := bwCode w64 }
  | .or _ _ w64 => some { major := 0x11, ty := bwCode w64 }
  | .xor _ _ w64 => some { major := 0x12, ty := bwCode w64 }
  | .not _ _ w64 => some { major := 0x13, ty := bwCode w64 }
  | .andn _ _ w64 => some { major := 0x14, ty := bwCode w64 }
  | .bool3 _ _ w64 table => some { major := 0x15, minor := table, ty := bwCode w64 }
  | .shl _ _ wrap => some { major := 0x16, minor := (0 : BitVec 7) ++ BitVec.ofBool wrap, ty := Ty.code .b32 }
  | .shr _ _ wrap => some { major := 0x17, minor := (0 : BitVec 7) ++ BitVec.ofBool wrap, ty := Ty.code .b32 }
  | .sar _ _ wrap => some { major := 0x18, minor := (0 : BitVec 7) ++ BitVec.ofBool wrap, ty := Ty.code .b32 }
  | .rotl _ _ => some { major := 0x19, ty := Ty.code .b32 }
  | .funnel _ _ left => some { major := 0x1A, minor := (0 : BitVec 7) ++ BitVec.ofBool left, ty := Ty.code .b32 }
  | .bfe _ _ signed => some { major := 0x1B, ty := (if signed then Ty.i32 else Ty.n32).code }
  | .bfi _ _ => some { major := 0x1C, ty := Ty.code .b32 }
  | .popc _ _ w64 => some { major := 0x1D, ty := bwCode w64 }
  | .clz _ _ w64 => some { major := 0x1E, ty := bwCode w64 }
  | .brev _ _ w64 => some { major := 0x1F, ty := bwCode w64 }
  | .ctz _ _ w64 => some { major := 0x2F, ty := bwCode w64 }
  | .mov _ _ w64 lsel => some { major := 0x20, ty := bwCode w64, lsel := lsel }
  | .movi _ _ w64 hi => some { major := 0x21, minor := (0 : BitVec 7) ++ BitVec.ofBool hi, ty := bwCode w64 }
  | .sel _ _ w64 => some { major := 0x22, ty := bwCode w64 }
  | .add64 _ _ t => some { major := 0x23, ty := t.code }
  | .sub64 _ _ t => some { major := 0x24, ty := t.code }
  | .lea _ _ signed scale => some { major := 0x25, minor := (0 : BitVec 6) ++ scale, ty := (if signed then Ty.i32 else Ty.n32).code }
  | .shl64 _ _ wrap => some { major := 0x26, minor := (0 : BitVec 7) ++ BitVec.ofBool wrap, ty := Ty.code .b64 }
  | .shr64 _ _ wrap arith => some { major := 0x27, minor := (0 : BitVec 6) ++ BitVec.ofBool arith ++ BitVec.ofBool wrap, ty := Ty.code .b64 }
  | .icmp _ _ t cond pct => some { major := 0x28, minor := (0 : BitVec 5) ++ cond.code, ty := t.code, pct := pct.code }
  | .icmp64 _ _ t cond pct => some { major := 0x29, minor := (0 : BitVec 5) ++ cond.code, ty := t.code, pct := pct.code }
  | .pbool _ _ table pct => some { major := 0x2A, minor := table, pct := pct.code }
  | .pmov _ _ mode => some { major := 0x2B, minor := (0 : BitVec 6) ++ mode.code }
  | .movs _ _ num => some { major := 0x2C, minor := num }
  | .rdlane _ _ w64 => some { major := 0x2D, ty := bwCode w64 }
  | .wrlane _ _ w64 => some { major := 0x2E, ty := bwCode w64 }
  | .xlane _ _ w64 mode seg => some { major := 0x30, minor := (0 : BitVec 3) ++ seg ++ mode.code, ty := bwCode w64 }
  | .bfly _ _ w64 hi => some { major := 0x31, minor := (0 : BitVec 7) ++ BitVec.ofBool hi, ty := bwCode w64 }
  | .pmask _ _ => some { major := 0x32 }
  | .ltest _ _ test pct => some { major := 0x33, minor := (0 : BitVec 6) ++ test.code, ty := if test = .same64 then Ty.b64.code else 0, pct := pct.code }
  | .scan _ _ t op excl => some { major := 0x34, minor := (0 : BitVec 4) ++ BitVec.ofBool excl ++ op.code, ty := t.code }
  | .lfold _ _ t op => some { major := 0x35, minor := (0 : BitVec 5) ++ op.code, ty := t.code }
  | .matchKeys _ _ t num => some { major := 0x36, minor := (0 : BitVec 7) ++ BitVec.ofBool num, ty := t.code }
  | .fadd _ _ t rm sat => some { major := 0x40, minor := (0 : BitVec 4) ++ BitVec.ofBool sat ++ rm.code, ty := t.code }
  | .fsub _ _ t rm sat => some { major := 0x41, minor := (0 : BitVec 4) ++ BitVec.ofBool sat ++ rm.code, ty := t.code }
  | .fmul _ _ t rm sat => some { major := 0x42, minor := (0 : BitVec 4) ++ BitVec.ofBool sat ++ rm.code, ty := t.code }
  | .ffma _ _ t rm sat => some { major := 0x43, minor := (0 : BitVec 4) ++ BitVec.ofBool sat ++ rm.code, ty := t.code }
  | .fmin _ _ t nanp => some { major := 0x44, minor := (0 : BitVec 7) ++ BitVec.ofBool nanp, ty := t.code }
  | .fmax _ _ t nanp => some { major := 0x45, minor := (0 : BitVec 7) ++ BitVec.ofBool nanp, ty := t.code }
  | .fcmp _ _ t cond pct => some { major := 0x46, minor := (0 : BitVec 5) ++ cond.code, ty := t.code, pct := pct.code }
  | .fclass _ _ t val pct => some { major := 0x47, minor := (0 : BitVec 7) ++ BitVec.ofBool val, ty := t.code, pct := pct.code }
  | .frnd _ _ t rm => some { major := 0x48, minor := (0 : BitVec 5) ++ rm.code, ty := t.code }
  | .frcp _ _ => some { major := 0x49, ty := Ty.code .f32 }
  | .frsq _ _ => some { major := 0x4A, ty := Ty.code .f32 }
  | .fsqrt _ _ rm sat => some { major := 0x4B, minor := (0 : BitVec 4) ++ BitVec.ofBool sat ++ rm.code, ty := Ty.code .f32 }
  | .fexp2 _ _ => some { major := 0x4C, ty := Ty.code .f32 }
  | .flog2 _ _ => some { major := 0x4D, ty := Ty.code .f32 }
  | .fsin _ _ => some { major := 0x4E, ty := Ty.code .f32 }
  | .fcos _ _ => some { major := 0x4F, ty := Ty.code .f32 }
  | .ftanh _ _ => some { major := 0x50, ty := Ty.code .f32 }
  | .fdiv _ _ rm sat => some { major := 0x51, minor := (0 : BitVec 4) ++ BitVec.ofBool sat ++ rm.code, ty := Ty.code .f32 }
  | .fldexp _ _ t rm sat => some { major := 0x52, minor := (0 : BitVec 4) ++ BitVec.ofBool sat ++ rm.code, ty := t.code }
  | .pkadd _ _ bf rm sat => some { major := 0x53, minor := (0 : BitVec 4) ++ BitVec.ofBool sat ++ rm.code, ty := (if bf then Ty.bf16x2 else Ty.f16x2).code }
  | .pkmul _ _ bf rm sat => some { major := 0x54, minor := (0 : BitVec 4) ++ BitVec.ofBool sat ++ rm.code, ty := (if bf then Ty.bf16x2 else Ty.f16x2).code }
  | .pkfma _ _ bf rm sat => some { major := 0x55, minor := (0 : BitVec 4) ++ BitVec.ofBool sat ++ rm.code, ty := (if bf then Ty.bf16x2 else Ty.f16x2).code }
  | .pkmin _ _ bf nanp => some { major := 0x56, minor := (0 : BitVec 7) ++ BitVec.ofBool nanp, ty := (if bf then Ty.bf16x2 else Ty.f16x2).code }
  | .pkmax _ _ bf nanp => some { major := 0x57, minor := (0 : BitVec 7) ++ BitVec.ofBool nanp, ty := (if bf then Ty.bf16x2 else Ty.f16x2).code }
  | .pkcmp _ _ bf cond => some { major := 0x58, minor := (0 : BitVec 5) ++ cond.code, ty := (if bf then Ty.bf16x2 else Ty.f16x2).code }
  | .fdot2 _ _ bf rm sat => some { major := 0x59, minor := (0 : BitVec 4) ++ BitVec.ofBool sat ++ rm.code, ty := (if bf then Ty.bf16x2 else Ty.f16x2).code }
  | .fdot4 _ _ e5 rm sat balt => some { major := 0x5A, minor := (0 : BitVec 3) ++ BitVec.ofBool balt ++ BitVec.ofBool sat ++ rm.code, ty := (if e5 then Ty.e5m2 else Ty.e4m3).code }
  | .cvt _ _ t src rm sat tfp => some { major := 0x60, minor := (0 : BitVec 4) ++ BitVec.ofBool sat ++ rm.code, ty := t.code, xmod := (0 : BitVec 1) ++ BitVec.ofBool tfp ++ src.code }
  | .pack8 _ _ e5 rm sat hi => some { major := 0x61, minor := (0 : BitVec 3) ++ BitVec.ofBool hi ++ BitVec.ofBool sat ++ rm.code, ty := (if e5 then Ty.e5m2 else Ty.e4m3).code }
  | .pack4 _ _ rm => some { major := 0x62, minor := (0 : BitVec 5) ++ rm.code, ty := Ty.code .e2m1 }
  | .unpack8 _ _ t byte e5 => some { major := 0x63, minor := (0 : BitVec 5) ++ BitVec.ofBool e5 ++ byte, ty := t.code }
  | .unpack4 _ _ t elt => some { major := 0x64, minor := (0 : BitVec 5) ++ elt, ty := t.code }
  | .bscale _ _ => some { major := 0x65, ty := Ty.code .e3m5 }
  | .hash32 _ _ => some { major := 0x66, ty := Ty.code .b32 }
  | .mma _ _ ctx pair lsel => some { major := 0x70, minor := (0 : BitVec 6) ++ BitVec.ofBool pair ++ BitVec.ofBool ctx, lsel := lsel }
  | .mmas _ _ ctx pair first lsel => some { major := 0x71, minor := (0 : BitVec 6) ++ BitVec.ofBool pair ++ BitVec.ofBool ctx, xmod := (0 : BitVec 2) ++ first, lsel := lsel }
  | .mmal _ _ ctx pair lsel => some { major := 0x72, minor := (0 : BitVec 6) ++ BitVec.ofBool pair ++ BitVec.ofBool ctx, lsel := lsel }
  | .lutb _ _ signed lsel => some { major := 0x73, ty := (if signed then Ty.i8 else Ty.n8).code, lsel := lsel }
  | .comp48 _ _ t hi => some { major := 0x74, minor := (0 : BitVec 7) ++ BitVec.ofBool hi, ty := t.code }
  | .aclr _ _ ctx lsel => some { major := 0x75, minor := (0 : BitVec 7) ++ BitVec.ofBool ctx, lsel := lsel }
  | .alds _ _ t ctx lsel => some { major := 0x76, minor := (0 : BitVec 7) ++ BitVec.ofBool ctx, ty := t.code, lsel := lsel }
  | .asts _ _ t ctx lsel => some { major := 0x77, minor := (0 : BitVec 7) ++ BitVec.ofBool ctx, ty := t.code, lsel := lsel }
  | .amrg _ _ ctx so lsel => some { major := 0x78, minor := (0 : BitVec 7) ++ BitVec.ofBool ctx, pri := so.code, lsel := lsel }
  | .mbind _ _ ctx pctx lsel => some { major := 0x79, minor := (0 : BitVec 6) ++ BitVec.ofBool pctx ++ BitVec.ofBool ctx, lsel := lsel }
  | .mfree _ _ ctx lsel => some { major := 0x7A, minor := (0 : BitVec 7) ++ BitVec.ofBool ctx, lsel := lsel }
  | .mwait _ _ which lsel => some { major := 0x7B, minor := (0 : BitVec 6) ++ which.code, lsel := lsel }
  | .ard _ _ t ctx lsel => some { major := 0x7C, minor := (0 : BitVec 7) ++ BitVec.ofBool ctx, ty := t.code, lsel := lsel }
  | .ld _ _ t x => some { major := 0x90, minor := (0 : BitVec 6) ++ x.scale, ty := t.code, lsel := x.lsel, pri := x.so.code, xmod := x.disp }
  | .st _ _ t x => some { major := 0x91, minor := (0 : BitVec 6) ++ x.scale, ty := t.code, lsel := x.lsel, pri := x.so.code, xmod := x.disp }
  | .lds _ _ t x => some { major := 0x92, minor := (0 : BitVec 6) ++ x.scale, ty := t.code, lsel := x.lsel, pri := x.so.code, xmod := x.disp }
  | .sts _ _ t x => some { major := 0x93, minor := (0 : BitVec 6) ++ x.scale, ty := t.code, lsel := x.lsel, pri := x.so.code, xmod := x.disp }
  | .ldx _ _ n x => some { major := 0x94, minor := (0 : BitVec 4) ++ n.code ++ x.scale, ty := Ty.code .b32, lsel := x.lsel, pri := x.so.code, xmod := x.disp }
  | .stx _ _ n x => some { major := 0x95, minor := (0 : BitVec 4) ++ n.code ++ x.scale, ty := Ty.code .b32, lsel := x.lsel, pri := x.so.code, xmod := x.disp }
  | .atom _ _ t op x => some { major := 0x96, minor := (0 : BitVec 2) ++ op.code ++ x.scale, ty := t.code, lsel := x.lsel, pri := x.so.code, xmod := x.disp }
  | .atoms _ _ t op x => some { major := 0x97, minor := (0 : BitVec 2) ++ op.code ++ x.scale, ty := t.code, lsel := x.lsel, pri := x.so.code, xmod := x.disp }
  | .red _ _ t op x => some { major := 0x98, minor := (0 : BitVec 2) ++ op.code ++ x.scale, ty := t.code, lsel := x.lsel, pri := x.so.code, xmod := x.disp }
  | .cas _ _ t x => some { major := 0x99, minor := (0 : BitVec 6) ++ x.scale, ty := t.code, lsel := x.lsel, pri := x.so.code, xmod := x.disp }
  | .fence _ _ so => some { major := 0x9A, pri := so.code }
  | .waita _ _ t x => some { major := 0x9B, minor := (0 : BitVec 6) ++ x.scale, ty := t.code, lsel := x.lsel, pri := x.so.code, xmod := x.disp }
  | .poll _ _ t x => some { major := 0x9C, minor := (0 : BitVec 6) ++ x.scale, ty := t.code, lsel := x.lsel, pri := x.so.code, xmod := x.disp }
  | .home _ _ scale disp => some { major := 0x9D, minor := (0 : BitVec 6) ++ scale, xmod := disp }
  | .go _ _ scale disp lsel => some { major := 0x9E, minor := (0 : BitVec 6) ++ scale, xmod := disp, lsel := lsel }
  | .goAnchor _ _ lsel => some { major := 0x9E, minor := (0 : BitVec 5) ++ (1 : BitVec 1) ++ (0 : BitVec 2), lsel := lsel }
  | .cpy _ _ lsel => some { major := 0xA0, lsel := lsel }
  | .puts _ _ t x => some { major := 0xA1, minor := (0 : BitVec 6) ++ x.scale, ty := t.code, lsel := x.lsel, pri := x.so.code, xmod := x.disp }
  | .bkop _ _ lsel => some { major := 0xA2, lsel := lsel }
  | .coll _ _ lsel => some { major := 0xA3, lsel := lsel }
  | .enq _ _ w64 nb lsel => some { major := 0xA4, minor := (0 : BitVec 5) ++ BitVec.ofBool nb ++ (0 : BitVec 2), ty := bwCode w64, lsel := lsel }
  | .enqBind _ _ lsel => some { major := 0xA4, minor := (0 : BitVec 4) ++ (1 : BitVec 1) ++ (0 : BitVec 3), lsel := lsel }
  | .deq _ _ w64 nb lsel => some { major := 0xA5, minor := (0 : BitVec 5) ++ BitVec.ofBool nb ++ (0 : BitVec 2), ty := bwCode w64, lsel := lsel }
  | .qstat _ _ field lsel => some { major := 0xA6, minor := (0 : BitVec 4) ++ field.code ++ (0 : BitVec 2), lsel := lsel }
  | .bra _ _ brk pri => some { major := 0xC0, minor := (0 : BitVec 7) ++ BitVec.ofBool brk, pri := pri }
  | .brx _ _ pri => some { major := 0xC1, pri := pri }
  | .call _ _ sh pri lsel => some { major := 0xC2, minor := (0 : BitVec 5) ++ sh, pri := pri, lsel := lsel }
  | .callx _ _ sh pri lsel => some { major := 0xC3, minor := (0 : BitVec 5) ++ sh, pri := pri, lsel := lsel }
  | .ret _ _ lsel => some { major := 0xC4, lsel := lsel }
  | .loop _ _ pri => some { major := 0xC5, pri := pri }
  | .rep _ _ sd sa sb sc => some { major := 0xC6, minor := sc ++ sb ++ sa ++ sd }
  | .join _ _ lsel => some { major := 0xC7, lsel := lsel }
  | .leave _ _ lsel => some { major := 0xC8, lsel := lsel }
  | .waitm _ _ lsel => some { major := 0xC9, lsel := lsel }
  | .mset _ _ mode lsel => some { major := 0xCA, minor := (0 : BitVec 6) ++ mode.code, lsel := lsel }
  | .emset _ _ lsel => some { major := 0xCB, lsel := lsel }
  | .bar _ _ num arv => some { major := 0xCC, minor := (0 : BitVec 3) ++ BitVec.ofBool arv ++ num }
  | .yield _ _ => some { major := 0xCD }
  | .exit _ _ => some { major := 0xCE }
  | .raise _ _ => some { major := 0xCF }
  | .pour _ _ => some { major := 0xD0 }
  | .pourw _ _ lsel => some { major := 0xD1, lsel := lsel }
  | .nop _ _ => some { major := 0xD2 }
  | .trap _ _ code => some { major := 0xD3, minor := code }
  | .bkpt _ _ => some { major := 0xD4 }
  | .sleep _ _ => some { major := 0xD5 }
  | .movspRead _ _ num => some { major := 0xE0, minor := num }
  | .movspWrite _ _ num => some { major := 0xE0, minor := num, xmod := 1 }
  | .rft _ _ tgt => some { major := 0xE1, minor := (0 : BitVec 6) ++ tgt.code }
  | .tlbinv _ _ ext scope => some { major := 0xE2, minor := (0 : BitVec 6) ++ ext.code, pri := ScopeOrder.code ⟨scope, .relaxed, false, false⟩ }
  | .icinv _ _ ext scope => some { major := 0xE3, minor := (0 : BitVec 6) ++ ext.code, pri := ScopeOrder.code ⟨scope, .relaxed, false, false⟩ }
  | .park _ _ => some { major := 0xE4 }
  | .unpark _ _ => some { major := 0xE5 }
  | .govset _ _ => some { major := 0xE6 }
  | .errrd _ _ => some { major := 0xE7 }
  | .halt _ _ tgt => some { major := 0xE8, minor := (0 : BitVec 6) ++ tgt.code }
  | .preq _ _ resume all => some { major := 0xE9, minor := (0 : BitVec 6) ++ BitVec.ofBool all ++ BitVec.ofBool resume }
  | .kill _ _ => some { major := 0xEA }
  | _ => none

/-- The fields of an instruction: header, operands and the entry's own (R79 to R81). -/
def fieldsOf (h : Hdr) (o : Ops) (c : Code) : Fields :=
  { form := h.form, major := c.major, gp := h.gp, gn := h.gn, dst := o.d.code, sa := o.a.code, sb := o.b.code,
    sc := o.c.code, ea := h.ea, eb := h.eb, ec := h.ec, minor := c.minor, ty := c.ty, dst2 := o.d2.code, pct := c.pct,
    lsel := c.lsel, pri := c.pri, lit := o.b.isLit, xmod := c.xmod,
    imm := match o.b with | .lit x => x | _ => 0 }

/-- The fields of an instruction; `none` for an event. -/
def Instr.fields (i : Instr) : Option Fields :=
  match i.head, i.code with
  | some (h, o), some c => some (fieldsOf h o c)
  | _, _ => none

/-! ### From fields to a term -/

/-- The header of the fields. -/
def Fields.hdr (f : Fields) : Hdr := { form := f.form, gn := f.gn, gp := f.gp, ea := f.ea, eb := f.eb, ec := f.ec }

/-- Bit `n` of MINOR. -/
def Fields.bit (f : Fields) (n : Nat) : Bool := f.minor.getLsbD n

/-- The value, or the error for a code that is not assigned. -/
def orElse {α : Type} (x : Option α) (e : Illegal) : Except Illegal α :=
  match x with
  | some a => .ok a
  | none => .error e

/-- TYPE as a type (R92). -/
def Fields.type (f : Fields) : Except Illegal Ty := orElse (Ty.ofCode f.ty) .badType

/-- TYPE as one of two types: false for the first. -/
def Fields.either (f : Fields) (x y : Ty) : Except Illegal Bool :=
  if f.ty = x.code then .ok false else if f.ty = y.code then .ok true else .error .badType

/-- TYPE as B32 or B64. -/
def Fields.wide (f : Fields) : Except Illegal Bool := f.either .b32 .b64

/-- The test of LTEST; only SAME takes a type (R157). -/
def Fields.ltest (f : Fields) : Except Illegal LTest :=
  let c := f.minor.extractLsb' 0 2
  if c = 2 then (if f.ty = Ty.b64.code then .ok .same64 else .ok .same32)
  else if c = 0 then .ok .every else if c = 1 then .ok .some else .ok .odd

/-- The scope-and-order byte; scopes 6 and 7 are reserved (R91). -/
def Fields.so (f : Fields) : Except Illegal ScopeOrder := do
  let scope ← orElse (Scope.ofCode (f.pri.extractLsb' 5 3)) .badScopeOrder
  let order ← orElse (MemOrder.ofCode (f.pri.extractLsb' 3 2)) .badScopeOrder
  pure { scope, order, promote := f.pri.getLsbD 2, pass := f.pri.getLsbD 1 }

/-- The fields of a memory operand (R243). -/
def Fields.memx (f : Fields) : Except Illegal MemX := do
  let so ← f.so
  pure { lsel := f.lsel, so, scale := f.minor.extractLsb' 0 2, disp := f.xmod }

/-- The instructions with major opcodes 0x00 to 0x0F. -/
def Fields.build0 (f : Fields) (o : Ops) : Except Illegal Instr :=
  match f.major.toNat % 16 with
  | 0x0 => do let t ← f.type; pure (.iadd f.hdr o t (f.bit 0))
  | 0x1 => do let t ← f.type; pure (.isub f.hdr o t (f.bit 0))
  | 0x2 => do let t ← f.type; pure (.iaddc f.hdr o t)
  | 0x3 => do let t ← f.type; pure (.isubb f.hdr o t)
  | 0x4 => do let t ← f.type; pure (.ineg f.hdr o t (f.bit 0))
  | 0x5 => do let t ← f.type; pure (.iabs f.hdr o t (f.bit 0))
  | 0x6 => do let t ← f.type; pure (.imin f.hdr o t)
  | 0x7 => do let t ← f.type; pure (.imax f.hdr o t)
  | 0x8 => do let t ← f.type; pure (.imul24 f.hdr o t (f.bit 0))
  | 0x9 => do let t ← f.type; pure (.imad24 f.hdr o t)
  | 0xA => do let t ← f.type; pure (.imul f.hdr o t)
  | 0xB => do let t ← f.type; pure (.imulhi f.hdr o t)
  | 0xC => do let t ← f.type; pure (.imad f.hdr o t)
  | 0xD => pure (.idot4 f.hdr o (f.bit 0) (f.bit 1) (f.bit 2))
  | 0xE => do let t ← f.type; pure (.isad f.hdr o t)
  | 0xF => do let t ← f.type; pure (.iclamp f.hdr o t)
  | _ => .error .reservedMajor

/-- The instructions with major opcodes 0x10 to 0x1F. -/
def Fields.build1 (f : Fields) (o : Ops) : Except Illegal Instr :=
  match f.major.toNat % 16 with
  | 0x0 => do let w64 ← f.wide; pure (.and f.hdr o w64)
  | 0x1 => do let w64 ← f.wide; pure (.or f.hdr o w64)
  | 0x2 => do let w64 ← f.wide; pure (.xor f.hdr o w64)
  | 0x3 => do let w64 ← f.wide; pure (.not f.hdr o w64)
  | 0x4 => do let w64 ← f.wide; pure (.andn f.hdr o w64)
  | 0x5 => do let w64 ← f.wide; pure (.bool3 f.hdr o w64 f.minor)
  | 0x6 => pure (.shl f.hdr o (f.bit 0))
  | 0x7 => pure (.shr f.hdr o (f.bit 0))
  | 0x8 => pure (.sar f.hdr o (f.bit 0))
  | 0x9 => pure (.rotl f.hdr o)
  | 0xA => pure (.funnel f.hdr o (f.bit 0))
  | 0xB => do let sg ← f.either .n32 .i32; pure (.bfe f.hdr o sg)
  | 0xC => pure (.bfi f.hdr o)
  | 0xD => do let w64 ← f.wide; pure (.popc f.hdr o w64)
  | 0xE => do let w64 ← f.wide; pure (.clz f.hdr o w64)
  | 0xF => do let w64 ← f.wide; pure (.brev f.hdr o w64)
  | _ => .error .reservedMajor

/-- The instructions with major opcodes 0x20 to 0x2F. -/
def Fields.build2 (f : Fields) (o : Ops) : Except Illegal Instr :=
  match f.major.toNat % 16 with
  | 0x0 => do let w64 ← f.wide; pure (.mov f.hdr o w64 f.lsel)
  | 0x1 => do let w64 ← f.wide; pure (.movi f.hdr o w64 (f.bit 0))
  | 0x2 => do let w64 ← f.wide; pure (.sel f.hdr o w64)
  | 0x3 => do let t ← f.type; pure (.add64 f.hdr o t)
  | 0x4 => do let t ← f.type; pure (.sub64 f.hdr o t)
  | 0x5 => do let sg ← f.either .n32 .i32; pure (.lea f.hdr o sg (f.minor.extractLsb' 0 2))
  | 0x6 => pure (.shl64 f.hdr o (f.bit 0))
  | 0x7 => pure (.shr64 f.hdr o (f.bit 0) (f.bit 1))
  | 0x8 => do let t ← f.type; let x_cond ← orElse (Cond.ofCode (f.minor.extractLsb' 0 3)) .badModifier; pure (.icmp f.hdr o t x_cond (Pct.ofCode f.pct))
  | 0x9 => do let t ← f.type; let x_cond ← orElse (Cond.ofCode (f.minor.extractLsb' 0 3)) .badModifier; pure (.icmp64 f.hdr o t x_cond (Pct.ofCode f.pct))
  | 0xA => pure (.pbool f.hdr o f.minor (Pct.ofCode f.pct))
  | 0xB => do let x_mode ← orElse (PmovMode.ofCode (f.minor.extractLsb' 0 2)) .badModifier; pure (.pmov f.hdr o x_mode)
  | 0xC => pure (.movs f.hdr o f.minor)
  | 0xD => do let w64 ← f.wide; pure (.rdlane f.hdr o w64)
  | 0xE => do let w64 ← f.wide; pure (.wrlane f.hdr o w64)
  | 0xF => do let w64 ← f.wide; pure (.ctz f.hdr o w64)
  | _ => .error .reservedMajor

/-- The instructions with major opcodes 0x30 to 0x3F. -/
def Fields.build3 (f : Fields) (o : Ops) : Except Illegal Instr :=
  match f.major.toNat % 16 with
  | 0x0 => do let w64 ← f.wide; let x_mode ← orElse (XlaneMode.ofCode (f.minor.extractLsb' 0 2)) .badModifier; pure (.xlane f.hdr o w64 x_mode (f.minor.extractLsb' 2 3))
  | 0x1 => do let w64 ← f.wide; pure (.bfly f.hdr o w64 (f.bit 0))
  | 0x2 => pure (.pmask f.hdr o)
  | 0x3 => do let lt ← f.ltest; pure (.ltest f.hdr o lt (Pct.ofCode f.pct))
  | 0x4 => do let t ← f.type; let x_op ← orElse (FoldOp.ofCode (f.minor.extractLsb' 0 3)) .badModifier; pure (.scan f.hdr o t x_op (f.bit 3))
  | 0x5 => do let t ← f.type; let x_op ← orElse (FoldOp.ofCode (f.minor.extractLsb' 0 3)) .badModifier; pure (.lfold f.hdr o t x_op)
  | 0x6 => do let t ← f.type; pure (.matchKeys f.hdr o t (f.bit 0))
  | _ => .error .reservedMajor

/-- The instructions with major opcodes 0x40 to 0x4F. -/
def Fields.build4 (f : Fields) (o : Ops) : Except Illegal Instr :=
  match f.major.toNat % 16 with
  | 0x0 => do let t ← f.type; let x_rm ← orElse (Rm.ofCode (f.minor.extractLsb' 0 3)) .badModifier; pure (.fadd f.hdr o t x_rm (f.bit 3))
  | 0x1 => do let t ← f.type; let x_rm ← orElse (Rm.ofCode (f.minor.extractLsb' 0 3)) .badModifier; pure (.fsub f.hdr o t x_rm (f.bit 3))
  | 0x2 => do let t ← f.type; let x_rm ← orElse (Rm.ofCode (f.minor.extractLsb' 0 3)) .badModifier; pure (.fmul f.hdr o t x_rm (f.bit 3))
  | 0x3 => do let t ← f.type; let x_rm ← orElse (Rm.ofCode (f.minor.extractLsb' 0 3)) .badModifier; pure (.ffma f.hdr o t x_rm (f.bit 3))
  | 0x4 => do let t ← f.type; pure (.fmin f.hdr o t (f.bit 0))
  | 0x5 => do let t ← f.type; pure (.fmax f.hdr o t (f.bit 0))
  | 0x6 => do let t ← f.type; let x_cond ← orElse (Cond.ofCode (f.minor.extractLsb' 0 3)) .badModifier; pure (.fcmp f.hdr o t x_cond (Pct.ofCode f.pct))
  | 0x7 => do let t ← f.type; pure (.fclass f.hdr o t (f.bit 0) (Pct.ofCode f.pct))
  | 0x8 => do let t ← f.type; let x_rm ← orElse (Rm.ofCode (f.minor.extractLsb' 0 3)) .badModifier; pure (.frnd f.hdr o t x_rm)
  | 0x9 => pure (.frcp f.hdr o)
  | 0xA => pure (.frsq f.hdr o)
  | 0xB => do let x_rm ← orElse (Rm.ofCode (f.minor.extractLsb' 0 3)) .badModifier; pure (.fsqrt f.hdr o x_rm (f.bit 3))
  | 0xC => pure (.fexp2 f.hdr o)
  | 0xD => pure (.flog2 f.hdr o)
  | 0xE => pure (.fsin f.hdr o)
  | 0xF => pure (.fcos f.hdr o)
  | _ => .error .reservedMajor

/-- The instructions with major opcodes 0x50 to 0x5F. -/
def Fields.build5 (f : Fields) (o : Ops) : Except Illegal Instr :=
  match f.major.toNat % 16 with
  | 0x0 => pure (.ftanh f.hdr o)
  | 0x1 => do let x_rm ← orElse (Rm.ofCode (f.minor.extractLsb' 0 3)) .badModifier; pure (.fdiv f.hdr o x_rm (f.bit 3))
  | 0x2 => do let t ← f.type; let x_rm ← orElse (Rm.ofCode (f.minor.extractLsb' 0 3)) .badModifier; pure (.fldexp f.hdr o t x_rm (f.bit 3))
  | 0x3 => do let e ← f.either .f16x2 .bf16x2; let x_rm ← orElse (Rm.ofCode (f.minor.extractLsb' 0 3)) .badModifier; pure (.pkadd f.hdr o e x_rm (f.bit 3))
  | 0x4 => do let e ← f.either .f16x2 .bf16x2; let x_rm ← orElse (Rm.ofCode (f.minor.extractLsb' 0 3)) .badModifier; pure (.pkmul f.hdr o e x_rm (f.bit 3))
  | 0x5 => do let e ← f.either .f16x2 .bf16x2; let x_rm ← orElse (Rm.ofCode (f.minor.extractLsb' 0 3)) .badModifier; pure (.pkfma f.hdr o e x_rm (f.bit 3))
  | 0x6 => do let e ← f.either .f16x2 .bf16x2; pure (.pkmin f.hdr o e (f.bit 0))
  | 0x7 => do let e ← f.either .f16x2 .bf16x2; pure (.pkmax f.hdr o e (f.bit 0))
  | 0x8 => do let e ← f.either .f16x2 .bf16x2; let x_cond ← orElse (Cond.ofCode (f.minor.extractLsb' 0 3)) .badModifier; pure (.pkcmp f.hdr o e x_cond)
  | 0x9 => do let e ← f.either .f16x2 .bf16x2; let x_rm ← orElse (Rm.ofCode (f.minor.extractLsb' 0 3)) .badModifier; pure (.fdot2 f.hdr o e x_rm (f.bit 3))
  | 0xA => do let e ← f.either .e4m3 .e5m2; let x_rm ← orElse (Rm.ofCode (f.minor.extractLsb' 0 3)) .badModifier; pure (.fdot4 f.hdr o e x_rm (f.bit 3) (f.bit 4))
  | _ => .error .reservedMajor

/-- The instructions with major opcodes 0x60 to 0x6F. -/
def Fields.build6 (f : Fields) (o : Ops) : Except Illegal Instr :=
  match f.major.toNat % 16 with
  | 0x0 => do let t ← f.type; let x_rm ← orElse (Rm.ofCode (f.minor.extractLsb' 0 3)) .badModifier; let s ← orElse (Ty.ofCode (f.xmod.extractLsb' 0 6)) .badType; pure (.cvt f.hdr o t s x_rm (f.bit 3) (f.xmod.getLsbD 6))
  | 0x1 => do let e ← f.either .e4m3 .e5m2; let x_rm ← orElse (Rm.ofCode (f.minor.extractLsb' 0 3)) .badModifier; pure (.pack8 f.hdr o e x_rm (f.bit 3) (f.bit 4))
  | 0x2 => do let x_rm ← orElse (Rm.ofCode (f.minor.extractLsb' 0 3)) .badModifier; pure (.pack4 f.hdr o x_rm)
  | 0x3 => do let t ← f.type; pure (.unpack8 f.hdr o t (f.minor.extractLsb' 0 2) (f.bit 2))
  | 0x4 => do let t ← f.type; pure (.unpack4 f.hdr o t (f.minor.extractLsb' 0 3))
  | 0x5 => pure (.bscale f.hdr o)
  | 0x6 => pure (.hash32 f.hdr o)
  | _ => .error .reservedMajor

/-- The instructions with major opcodes 0x70 to 0x7F. -/
def Fields.build7 (f : Fields) (o : Ops) : Except Illegal Instr :=
  match f.major.toNat % 16 with
  | 0x0 => pure (.mma f.hdr o (f.bit 0) (f.bit 1) f.lsel)
  | 0x1 => pure (.mmas f.hdr o (f.bit 0) (f.bit 1) (f.xmod.extractLsb' 0 6) f.lsel)
  | 0x2 => pure (.mmal f.hdr o (f.bit 0) (f.bit 1) f.lsel)
  | 0x3 => do let e ← f.either .n8 .i8; pure (.lutb f.hdr o e f.lsel)
  | 0x4 => do let t ← f.type; pure (.comp48 f.hdr o t (f.bit 0))
  | 0x5 => pure (.aclr f.hdr o (f.bit 0) f.lsel)
  | 0x6 => do let t ← f.type; pure (.alds f.hdr o t (f.bit 0) f.lsel)
  | 0x7 => do let t ← f.type; pure (.asts f.hdr o t (f.bit 0) f.lsel)
  | 0x8 => do let so ← f.so; pure (.amrg f.hdr o (f.bit 0) so f.lsel)
  | 0x9 => pure (.mbind f.hdr o (f.bit 0) (f.bit 1) f.lsel)
  | 0xA => pure (.mfree f.hdr o (f.bit 0) f.lsel)
  | 0xB => do let x_which ← orElse (MwaitSel.ofCode (f.minor.extractLsb' 0 2)) .badModifier; pure (.mwait f.hdr o x_which f.lsel)
  | 0xC => do let t ← f.type; pure (.ard f.hdr o t (f.bit 0) f.lsel)
  | _ => .error .reservedMajor

/-- The instructions with major opcodes 0x90 to 0x9F. -/
def Fields.build9 (f : Fields) (o : Ops) : Except Illegal Instr :=
  match f.major.toNat % 16 with
  | 0x0 => do let t ← f.type; let x ← f.memx; pure (.ld f.hdr o t x)
  | 0x1 => do let t ← f.type; let x ← f.memx; pure (.st f.hdr o t x)
  | 0x2 => do let t ← f.type; let x ← f.memx; pure (.lds f.hdr o t x)
  | 0x3 => do let t ← f.type; let x ← f.memx; pure (.sts f.hdr o t x)
  | 0x4 => do let x_n ← orElse (XCount.ofCode (f.minor.extractLsb' 2 2)) .badModifier; let x ← f.memx; pure (.ldx f.hdr o x_n x)
  | 0x5 => do let x_n ← orElse (XCount.ofCode (f.minor.extractLsb' 2 2)) .badModifier; let x ← f.memx; pure (.stx f.hdr o x_n x)
  | 0x6 => do let t ← f.type; let x_op ← orElse (AtomOp.ofCode (f.minor.extractLsb' 2 4)) .badModifier; let x ← f.memx; pure (.atom f.hdr o t x_op x)
  | 0x7 => do let t ← f.type; let x_op ← orElse (AtomOp.ofCode (f.minor.extractLsb' 2 4)) .badModifier; let x ← f.memx; pure (.atoms f.hdr o t x_op x)
  | 0x8 => do let t ← f.type; let x_op ← orElse (AtomOp.ofCode (f.minor.extractLsb' 2 4)) .badModifier; let x ← f.memx; pure (.red f.hdr o t x_op x)
  | 0x9 => do let t ← f.type; let x ← f.memx; pure (.cas f.hdr o t x)
  | 0xA => do let so ← f.so; pure (.fence f.hdr o so)
  | 0xB => do let t ← f.type; let x ← f.memx; pure (.waita f.hdr o t x)
  | 0xC => do let t ← f.type; let x ← f.memx; pure (.poll f.hdr o t x)
  | 0xD => pure (.home f.hdr o (f.minor.extractLsb' 0 2) f.xmod)
  | 0xE => if f.bit 2 then pure (.goAnchor f.hdr o f.lsel) else pure (.go f.hdr o (f.minor.extractLsb' 0 2) f.xmod f.lsel)
  | _ => .error .reservedMajor

/-- The instructions with major opcodes 0xA0 to 0xAF. -/
def Fields.buildA (f : Fields) (o : Ops) : Except Illegal Instr :=
  match f.major.toNat % 16 with
  | 0x0 => pure (.cpy f.hdr o f.lsel)
  | 0x1 => do let t ← f.type; let x ← f.memx; pure (.puts f.hdr o t x)
  | 0x2 => pure (.bkop f.hdr o f.lsel)
  | 0x3 => pure (.coll f.hdr o f.lsel)
  | 0x4 => if f.bit 3 then pure (.enqBind f.hdr o f.lsel) else do let w64 ← f.wide; pure (.enq f.hdr o w64 (f.bit 2) f.lsel)
  | 0x5 => do let w64 ← f.wide; pure (.deq f.hdr o w64 (f.bit 2) f.lsel)
  | 0x6 => do let x_field ← orElse (QField.ofCode (f.minor.extractLsb' 2 2)) .badModifier; pure (.qstat f.hdr o x_field f.lsel)
  | _ => .error .reservedMajor

/-- The instructions with major opcodes 0xC0 to 0xCF. -/
def Fields.buildC (f : Fields) (o : Ops) : Except Illegal Instr :=
  match f.major.toNat % 16 with
  | 0x0 => pure (.bra f.hdr o (f.bit 0) f.pri)
  | 0x1 => pure (.brx f.hdr o f.pri)
  | 0x2 => pure (.call f.hdr o (f.minor.extractLsb' 0 3) f.pri f.lsel)
  | 0x3 => pure (.callx f.hdr o (f.minor.extractLsb' 0 3) f.pri f.lsel)
  | 0x4 => pure (.ret f.hdr o f.lsel)
  | 0x5 => pure (.loop f.hdr o f.pri)
  | 0x6 => pure (.rep f.hdr o (f.minor.extractLsb' 0 2) (f.minor.extractLsb' 2 2) (f.minor.extractLsb' 4 2) (f.minor.extractLsb' 6 2))
  | 0x7 => pure (.join f.hdr o f.lsel)
  | 0x8 => pure (.leave f.hdr o f.lsel)
  | 0x9 => pure (.waitm f.hdr o f.lsel)
  | 0xA => do let x_mode ← orElse (MsetMode.ofCode (f.minor.extractLsb' 0 2)) .badModifier; pure (.mset f.hdr o x_mode f.lsel)
  | 0xB => pure (.emset f.hdr o f.lsel)
  | 0xC => pure (.bar f.hdr o (f.minor.extractLsb' 0 4) (f.bit 4))
  | 0xD => pure (.yield f.hdr o)
  | 0xE => pure (.exit f.hdr o)
  | 0xF => pure (.raise f.hdr o)
  | _ => .error .reservedMajor

/-- The instructions with major opcodes 0xD0 to 0xDF. -/
def Fields.buildD (f : Fields) (o : Ops) : Except Illegal Instr :=
  match f.major.toNat % 16 with
  | 0x0 => pure (.pour f.hdr o)
  | 0x1 => pure (.pourw f.hdr o f.lsel)
  | 0x2 => pure (.nop f.hdr o)
  | 0x3 => pure (.trap f.hdr o f.minor)
  | 0x4 => pure (.bkpt f.hdr o)
  | 0x5 => pure (.sleep f.hdr o)
  | _ => .error .reservedMajor

/-- The instructions with major opcodes 0xE0 to 0xEF. -/
def Fields.buildE (f : Fields) (o : Ops) : Except Illegal Instr :=
  match f.major.toNat % 16 with
  | 0x0 => if f.xmod.getLsbD 0 then pure (.movspWrite f.hdr o f.minor) else pure (.movspRead f.hdr o f.minor)
  | 0x1 => do let x_tgt ← orElse (RftTo.ofCode (f.minor.extractLsb' 0 2)) .badModifier; pure (.rft f.hdr o x_tgt)
  | 0x2 => do let x_ext ← orElse (InvExtent.ofCode (f.minor.extractLsb' 0 2)) .badModifier; let so ← f.so; pure (.tlbinv f.hdr o x_ext so.scope)
  | 0x3 => do let x_ext ← orElse (InvExtent.ofCode (f.minor.extractLsb' 0 2)) .badModifier; let so ← f.so; pure (.icinv f.hdr o x_ext so.scope)
  | 0x4 => pure (.park f.hdr o)
  | 0x5 => pure (.unpark f.hdr o)
  | 0x6 => pure (.govset f.hdr o)
  | 0x7 => pure (.errrd f.hdr o)
  | 0x8 => do let x_tgt ← orElse (RftTo.ofCode (f.minor.extractLsb' 0 2)) .badModifier; pure (.halt f.hdr o x_tgt)
  | 0x9 => pure (.preq f.hdr o (f.bit 0) (f.bit 1))
  | 0xA => pure (.kill f.hdr o)
  | _ => .error .reservedMajor

/-- The term that the fields name, with the operands `o`. -/
def Fields.build (f : Fields) (o : Ops) : Except Illegal Instr :=
  match f.major.toNat / 16 with
  | 0x0 => f.build0 o
  | 0x1 => f.build1 o
  | 0x2 => f.build2 o
  | 0x3 => f.build3 o
  | 0x4 => f.build4 o
  | 0x5 => f.build5 o
  | 0x6 => f.build6 o
  | 0x7 => f.build7 o
  | 0x9 => f.build9 o
  | 0xA => f.buildA o
  | 0xC => f.buildC o
  | 0xD => f.buildD o
  | 0xE => f.buildE o
  | _ => .error .reservedMajor

/-- No operands. -/
def Ops.bare : Ops := { d := .none, d2 := .none, a := .none, b := .none, c := .none }

/-- The operand of one field: none where the entry reserves it. -/
def Slot.read (sl : Slot) (c : BitVec 8) : Except Illegal Opnd :=
  if sl = .absent then .ok .none else Opnd.ofCode c

/-- The operands of the fields, where the entry has operands (R79, R80); a set LIT makes B the literal (R81). -/
def Fields.ops (f : Fields) (r : Rule) : Except Illegal Ops := do
  let d ← r.d.read f.dst
  let d2 ← r.d2.read f.dst2
  let a ← r.a.read f.sa
  let b ← if f.lit && r.b ≠ .absent then pure (Opnd.lit f.imm) else r.b.read f.sb
  let c ← r.c.read f.sc
  pure { d, d2, a, b, c }

/-- Which reason to name when the fields of the term are not those of the word. -/
def Fields.mismatch (f g : Fields) : Illegal :=
  if f.lit ≠ g.lit || f.imm ≠ g.imm || (f.lit && f.sb ≠ g.sb) then .badLiteral
  else if f.ty ≠ g.ty then .badType
  else if f.minor ≠ g.minor || f.xmod ≠ g.xmod then .badModifier
  else if f.pri ≠ g.pri then .badScopeOrder
  else .reservedField

/-- What the decoder accepts: the well-formed terms. -/
def accepts (i : Instr) : Option Illegal := i.check

/-- The instruction of the fields, or the reason why there is none. -/
def Fields.decode (f : Fields) : Except Illegal Instr := do
  let shape ← f.build .bare
  match shape.rule f.form with
  | none => .error .reservedMajor
  | some r =>
    let o ← f.ops r
    let i ← f.build o
    match accepts i with
    | some e => .error e
    | none =>
      match i.fields with
      | none => .error .reservedMajor
      | some g => if g = f then .ok i else .error (f.mismatch g)

/-! ### Bytes -/

/-- The number that bytes make, the first the lowest (R5). -/
def bytesVal : List Byte → Nat
  | [] => 0
  | b :: t => b.toNat + 256 * bytesVal t

/-- The `n` low bytes of a number, the lowest first (R5). -/
def valBytes : Nat → Nat → List Byte
  | 0, _ => []
  | n + 1, x => BitVec.ofNat 8 x :: valBytes n (x / 256)

/-- The instruction at the head of `bs`, the bytes from its address to the end of its fetch block (R76, R77). -/
def decode (bs : List Byte) : Except Illegal Instr :=
  match bs with
  | [] => .error .beyondBlock
  | b :: _ =>
    match Form.ofCode (b.extractLsb' 0 2) with
    | none => .error .badLength
    | some f =>
      if bs.length < f.bytes then .error .beyondBlock
      else (Fields.ofWord f (BitVec.ofNat 128 (bytesVal (bs.take f.bytes)))).decode

/-- The bytes of a well-formed instruction (R76, R79 to R84). -/
def encode (i : Instr) : Option (List Byte) :=
  match accepts i, i.fields with
  | none, some f => some (valBytes f.form.bytes f.word.toNat)
  | _, _ => none

/-- The instruction that the decoder reads from the `nbits` low bits of `w`, with zero bits above, at the start of a
fetch block. -/
def decodeTableWord (nbits w : Nat) : Option Instr :=
  (decode (valBytes 16 (w % 2 ^ nbits))).toOption

end Sys2Proof
end

