-- ==== Sys2Proof/Machine/Post.lean ====
section
/-! DEFINITION. Posting (R215, R224, R225, R230, R259), contributions to reduction windows (R281, R282), and accesses that
are performed at a home or migrate there (R38, R213). -/

namespace Sys2Proof.Machine

/-! ### Posting (R215) -/

/-- The target of packets for a home: a hearth, or the package's host link. -/
def Ix.tgtOf (i : Ix) (home : Nat) : Nat := if home = 1024 then 1024 + corePkg i.x.gc else home

/-- One posted packet from a source of the fragment to a home; a device hearth takes a posted-sequence entry (R49, R215). -/
def Ix.postFrom (i : Ix) (s : State) (src home : Nat) (pass : Bool) (body : Body) (rel : Option (Nat × Nat)) (va : Nat) : State :=
  let s0 := s.send src (i.tgtOf home) (s.ctxOf i.x) pass (some (s.castOf i.x)) body rel
  let s1 := s0.noteAddr i.x.gc src (s0.lastSeq src) va i.f
  if home = 1024 then s1
  else s1.modFrag i.f fun x => { x with pseq := recordPSeq x.pseq { tgt := home, src, seq := s1.lastSeq src } }

/-- One posted packet of the fragment's slot to a home (R48, R215). -/
def Ix.post (i : Ix) (s : State) (home : Nat) (pass : Bool) (body : Body) (rel : Option (Nat × Nat)) (va : Nat) : State :=
  i.postFrom s i.x.src home pass body rel va

/-- The local lanes of a posting instruction: `now` applies their writes at once (R215), or the sequencer accepts them and applies them
later, so that a packet of another home may come first (R224, R225, R241). DESIGN CHOICE (log 138). -/
def Ix.storeHere (i : Ix) (body : Body) (ws : List WriteOp) (rel : Option (Nat × Nat)) (va : Nat) (now : State → State) : State :=
  if i.s.late && !ws.isEmpty then i.postFrom i.s (coreSrc i.x.gc i.x.slot lateUnit) i.here false body rel va else now i.s

/-- The order of checks of a posting instruction after R214: stall hints (R290), earlier posts of the fragment from other
slots toward the same homes, and toward its own hearth where it has `n` local writes to make (R224, R226), a release (R230), and room
for its records (R236). -/
def Ix.checkPost (i : Ix) (homes : List Nat) (so : ScopeOrder) (n : Nat) : Except Stop Unit := do
  i.checkHints homes
  i.checkSources2 (if n = 0 then homes else i.here :: homes)
  guardStop (decide (n ≠ 0) && i.s.lateAt i.x.gc) (.wait .hold)
  i.checkRelease (ScopeOrder.rel so) so.scope
  guardStop ((i.relMark so).isSome && i.s.recordsFull i.here n) (.wait .release)

/-- The writes of the lanes `m`, in ascending lane order: `vals` gives a lane's words with their offsets. -/
def Ix.laneWrites (pa : Nat → Nat) (size : Nat) (vals : Nat → List Val) (m : LaneMask) : List WriteOp :=
  (lanesOf m).flatMap fun l =>
    let vs := vals l
    (List.range vs.length).zip vs |>.map fun q => q.2.at_ (pa l + size * q.1) size

/-- The lanes of `m` whose store stays: of the lanes that name one location, the highest (R218). -/
def lastLanes (pa : Nat → Nat) (m : LaneMask) : LaneMask :=
  maskOf fun l => m.getLsbD l && !(lanesOf m).any fun k => decide (l < k) && pa k = pa l

/-- The writes of a store by the lanes `m` (R218). -/
def Ix.storeWrites (pa : Nat → Nat) (size : Nat) (vals : Nat → List Val) (m : LaneMask) : List WriteOp :=
  Ix.laneWrites pa size vals (lastLanes pa m)

/-- The fragment after a posting instruction: its release has cleared the drain mark (R231). -/
def Ix.posted (i : Ix) (so : ScopeOrder) (s : State) : State :=
  i.doneFor (s.modFrag i.f (i.drainAfter false (ScopeOrder.rel so) so.scope)) i.e.mask

/-- ST and STX: local lanes are written at once, or accepted so, and each other home gets one packet (R215, R248). -/
def Ix.store (i : Ix) (h : Hdr) (o : Ops) (x : MemX) (size unit regs : Nat) (cpage : Bool) (vals : Nat → List Val) : State :=
  i.run do
    i.checkSources [{ o := o.a, n := 1, bit := h.ea }, { o := o.b, n := 1, bit := h.eb },
                    { o := o.c, n := regs, bit := h.ec }] i.g
    let va := i.va o x unit
    i.checkMem (.store cpage) unit va
    let pa := fun l => i.pa (va l)
    let homes := i.homesOf pa
    let ws := Ix.storeWrites pa size vals (i.homedAt pa i.here)
    i.checkPost homes x.so ws.length
    let rel := i.relMark x.so
    let ctx := i.s.ctxOf i.x
    let s1 := i.storeHere (.store ws) ws rel (va (lowestLane (i.homedAt pa i.here))) fun s => s.applyWrites ctx ws rel i.x.src
    let s2 := homes.foldl (fun s hm =>
      i.post s hm x.so.pass (.store (Ix.storeWrites pa size vals (i.homedAt pa hm))) rel
        (va (lowestLane (i.homedAt pa hm)))) s1
    pure (i.posted x.so (i.countUse (i.addrPoison o) s2))

/-! ### Reduction windows (R281, R282) -/

/-- A RED at an address of a window is barred: another context, a hearth that does not contribute, or another type or
operation (R281). -/
def Window.barsRed (w : Window) (ctx here : Nat) (op : AtomOp) (t : Ty) : Bool :=
  let opOk := match w.op, op with
    | 0, .add | 1, .min | 2, .max => true
    | _, _ => false
  let tyOk := match w.etype with
    | 2 => if w.op = 0 then t = .i32 || t = .n32 else t = w.ty
    | 3 => if w.op = 0 then t = .i64 || t = .n64 else t = w.ty
    | _ => t = .f32
  decide (ctx ≠ w.ctx) || !w.contributors.contains here || !opOk || !tyOk

/-- The rounds that a hearth has sent to an element. -/
def Window.sentTo (w : Window) (gh home ofs : Nat) : Nat :=
  ((w.sent.find? fun q => decide (q.1 = gh ∧ q.2.1 = home ∧ q.2.2.1 = ofs)).map fun q => q.2.2.2).getD 0

/-- One more round of a hearth to an element. -/
def Window.countSent (w : Window) (gh home ofs : Nat) : Window :=
  { w with sent := (w.sent.filter fun q => !(decide (q.1 = gh ∧ q.2.1 = home ∧ q.2.2.1 = ofs))) ++
                     [(gh, home, ofs, w.sentTo gh home ofs + 1)] }

/-- The elements of a contribution with their rounds: the k-th of a hearth to an element belongs to round k, and two to one element
are successive (R282). -/
def Window.rounds (w : Window) (gh home : Nat) : List (Nat × Val) → Window × List Contrib
  | [] => (w, [])
  | e :: es =>
    let r := Window.rounds (w.countSent gh home e.1) gh home es
    (r.1, { ofs := e.1, round := w.sentTo gh home e.1, val := e.2.bits, poison := e.2.poison } :: r.2)

/-- Contributions of a hearth to elements of window `k` in one home hearth, by their offsets, go in one packet to the hearth's own
switch (R281 to R283). That of a hoist slot takes no number, and that of a collective engine its next (R274, R281). DEDUCED (log 40). -/
def State.contribute (s : State) (src gh k home : Nat) (ctx : BitVec 8) (cast : Option Nat) (es : List (Nat × Val))
    (replace : Bool) : State :=
  let pkg := gh / 16
  let w := (s.pkg pkg).window k
  let q := w.rounds gh home es
  let num := numbered src 3
  let p : Packet :=
    { src, seq := if num then s.nextSeq src else 0, tgt := 65536 + s.switchOf gh, ctx, pass := false, gen := false, ord := 0, cast,
      lost := false, rel := none,
      body := .contribution k (BitVec.ofNat 8 w.wgen) home 0 q.2 (some replace) false }
  let s1 : State := { s with net := s.net ++ [p] }
  ((if num then s1.bumpSeq src else s1).countSent p).modWindow pkg k fun _ => q.1

/-- RED (R251, R252, R281). DEDUCED (log 40). -/
def Ix.reduce (i : Ix) (h : Hdr) (o : Ops) (t : Ty) (op : AtomOp) (x : MemX) : State :=
  i.run do
    let size := t.bits / 8
    let pkg := corePkg i.x.gc
    i.checkSources [{ o := o.a, n := 1, bit := h.ea }, { o := o.b, n := 1, bit := h.eb },
                    { o := o.c, n := Ty.regs t, bit := h.ec }] i.g
    let va := i.va o x size
    let ctx := i.s.ctxOf i.x
    let pa := fun l => i.pa (va l)
    let win := fun l => (i.s.pkg pkg).windowAt (pa l)
    i.checkMem .rmw size va fun l => match win l with
      | some k => ((i.s.pkg pkg).window k).barsRed ctx.toNat i.here op t
      | none => false
    let plain : Ix := { i with g := i.lanesIf fun l => (win l).isNone }
    let homes := plain.homesOf pa
    i.checkPost homes x.so (lanesOf (plain.homedAt pa i.here)).length
    let rel := i.relMark x.so
    let val := fun l => [i.read o.c (.bw t.wide) l]
    let ws := Ix.laneWrites pa size val (plain.homedAt pa i.here)
    let s1 := i.storeHere (.reduction op t ws) ws rel (va (lowestLane (plain.homedAt pa i.here))) fun s => s.applyReductions op t ws rel
    let s2 := homes.foldl (fun s hm =>
      i.post s hm x.so.pass (.reduction op t (Ix.laneWrites pa size val (plain.homedAt pa hm))) rel
        (va (lowestLane (plain.homedAt pa hm)))) s1
    let groups := ((lanesOf i.g).filterMap fun l => (win l).map fun k => (k, paHearth (pa l))).eraseDups
    let s3 := groups.foldl (fun s q =>
      let ls := (lanesOf i.g).filter fun l => win l = some q.1 && paHearth (pa l) = q.2
      s.contribute i.x.src i.here q.1 q.2 ctx (some i.h.cast)
        (ls.map fun l => (paOfs (pa l), i.read o.c (.bw t.wide) l)) false) s2
    pure (i.posted x.so (i.countUse (i.addrPoison o) s3))

/-! ### Signalled puts (R259) -/

/-- A cause that may apply to lanes, to the signal, or to both (R259). -/
def Ix.trapSignal (i : Ix) (cause : BitVec 8) (bad : Nat → Bool) (addr : Nat → Nat) (sigBad : Bool) (sig : Nat) :
    Except Stop Unit := do
  i.trapLanes cause bad addr
  guardStop sigBad (.trap cause (BitVec.ofNat 64 sig) i.g)

/-- PUTS (R259). -/
def Ix.puts (i : Ix) (h : Hdr) (o : Ops) (t : Ty) (x : MemX) : State :=
  i.run do
    let size := t.bits / 8
    i.checkSources [{ o := o.a, n := 1, bit := h.ea }, { o := o.b, n := 1, bit := h.eb },
                    { o := o.c, n := Ty.regs t, bit := h.ec }, { o := o.d, n := 1, bit := false }] i.g
    let va := i.va o x size
    let sig := (i.uniform o.d (.bw true)).bits.toNat
    i.trapSignal Cause.align (fun l => va l % size ≠ 0) va (decide (sig % 8 ≠ 0)) sig
    i.checkWalks va
    guardStop (i.translate sig = .miss) (i.walkWait sig)
    i.trapSignal Cause.access (fun l => i.accessBad (.put true) (va l)) va (i.accessBad (.put false) sig) sig
    i.trapSignal Cause.partition (fun l => i.outside (i.pa (va l))) va (i.outside (i.pa sig)) sig
    let pa := fun l => i.pa (va l)
    let homes := i.homesOf pa
    let sigHome := paHearth (i.pa sig)
    i.checkPost (homes ++ [sigHome]) x.so (lanesOf (i.homedAt pa i.here)).length
    let rel := i.relMark x.so
    let val := fun l => [i.read o.c (.bw t.wide) l]
    let ws := Ix.storeWrites pa size val (i.homedAt pa i.here)
    let s1 := i.s.applyWrites (i.s.ctxOf i.x) ws rel i.x.src
    let (s2, after) := homes.foldl (fun q hm =>
      let s' := i.post q.1 hm x.so.pass (.store (Ix.storeWrites pa size val (i.homedAt pa hm))) rel
        (va (lowestLane (i.homedAt pa hm)))
      (s', if hm = sigHome then q.2 else q.2 ++ [(hm, s'.lastSeq i.x.src)])) (s1, ([] : List (Nat × Word)))
    let s3 := i.post s2 sigHome x.so.pass (.signal (i.pa sig) after) rel sig
    let used := i.addrPoison o || i.poisonLanes o.d 1 i.g ≠ 0
    pure (i.posted x.so (i.countUse used s3))

/-! ### Accesses that migrate (R38, R213) -/

/-- A record of the hearth that an access of the lanes `m` meets (R237). -/
def Ix.recordsAt (i : Ix) (pa : Nat → Nat) (size : Nat) (m : LaneMask) : List RelRec :=
  (i.s.hearth i.here).records.filter fun r => (lanesOf m).any fun l => meets r.pa r.size (pa l) size

/-- What an access at its home does with the lanes that stand there: the new state, and the wait that keeps the entry. -/
abbrev Perform := Ix → State → (Nat → Nat) → State × Option Wait

/-- Before an access is performed at the current hearth: the hold of R50, earlier posts (R224), a release (R230), a record's
drain (R237). The last asks the recorded core. -/
def Ix.checkLocal (i : Ix) (locals : LaneMask) (write : Bool) (so : ScopeOrder) : Except Stop Unit := do
  if locals = 0 then pure ()
  else
    i.checkHold
    i.checkSources2 (if write then [i.here] else [])
    i.checkRelease (ScopeOrder.rel so) so.scope
    guardStop (write && (i.relMark so).isSome && i.s.recordsFull i.here (lanesOf locals).length) (.wait .release)

/-- An access whose remote lanes migrate and whose local lanes perform it (R38). -/
def Ix.visit (i : Ix) (us : List Use) (ds : List (Opnd × Nat)) (masks : Opnd) (o : Ops) (x : MemX) (acc : Acc)
    (size unit : Nat) (write : Bool) (perform : Perform) : State :=
  i.run do
    i.checkSources us i.g
    i.checkDests ds
    let va := i.va o x unit
    i.checkMem acc size va
    i.maskHome masks x.lsel
    let pa := fun l => i.pa (va l)
    let locals := i.homedAt pa i.here
    i.checkLocal locals write x.so
    let recs := i.recordsAt pa size locals
    match i.promoteStop (if x.so.promote then recs else []) with
    | some (gc, count) => pure (i.askDrain gc count)
    | none =>
      let (j, stay) ← i.migrate va pa x.lsel
      if j.g = 0 then pure (j.doneFor j.s stay)
      else
        let (s, w) := perform j (j.countUse (j.addrPoison o) j.s) pa
        match w with
        | some w => pure (s.modFrag j.f fun y => y.waitAt j.e.prio j.e.pc w)
        | none =>
          pure (j.doneFor (s.modFrag j.f fun y =>
            j.drainAfter (ScopeOrder.acq x.so) (ScopeOrder.rel x.so) x.so.scope (y.reads recs)) stay)

/-- The sources of a memory operand. -/
def memUses (h : Hdr) (o : Ops) (cRegs : Nat) : List Use :=
  [{ o := o.a, n := 1, bit := h.ea }, { o := o.b, n := 1, bit := h.eb }, { o := o.c, n := cRegs, bit := h.ec }]

/-- Lanes of a local read-modify-write, one at a time in ascending order: `f` gives the value fetched, a predicate bit and
the value to write, if any, from the old value (R251, R253). -/
def Ix.rmwLanes (i : Ix) (s : State) (ctx : BitVec 8) (pa : Nat → Nat) (size : Nat) (rel : Option (Nat × Nat))
    (f : Nat → Val → Bool × Option Val) : State × List (Nat × Val × Bool) :=
  (lanesOf i.g).foldl (fun q l =>
    let cur := q.1.readAt ctx (pa l) size
    let r := f l cur
    let s' := match r.2 with
      | some v => q.1.applyWrite ctx (v.at_ (pa l) size) rel
      | none => q.1
    (s', q.2 ++ [(l, cur, r.1)])) (s, [])

end Sys2Proof.Machine
end

