-- ==== Sys2Proof/Machine/Memory.lean ====
section
/-! DEFINITION. The meanings of the memory instructions, atomics, fences, waits, HOME, GO and PUTS (R243 to R259). -/

namespace Sys2Proof.Machine

/-! ### Device memory -/

/-- LD (R247). -/
def execLd (h : Hdr) (o : Ops) (t : Ty) (x : MemX) (s : State) : Host.Outcome State Fault Refusal :=
  let i := Ix.of s h
  let size := t.bits / 8
  .next (i.visit (memUses h o 0) [(o.d, Ty.regs t)] o.d o x (.read true) size size false fun j s pa =>
    let rs := (lanesOf j.g).map fun l => (l, s.readAt (s.ctxOf j.x) (pa l) size)
    (j.pend (j.countUse (dropsMark o.d && rs.any fun r => r.2.poison) s) o.d t rs, none))

/-- ST (R248). -/
def execSt (h : Hdr) (o : Ops) (t : Ty) (x : MemX) (s : State) : Host.Outcome State Fault Refusal :=
  let i := Ix.of s h
  let size := t.bits / 8
  .next (i.store h o x size size (Ty.regs t) true fun l => [i.read o.c (.bw t.wide) l])

/-- Word `j` of a lane of consecutive vector registers, or of zr. -/
def Ix.wordOf (i : Ix) (o : Opnd) (j l : Nat) : Val :=
  match o with
  | .v r => i.vval (r.toNat + j) false l
  | _ => .zero

/-- LDX: word j of the lane's bytes to register D + j (R247). -/
def execLdx (h : Hdr) (o : Ops) (n : XCount) (x : MemX) (s : State) : Host.Outcome State Fault Refusal :=
  let i := Ix.of s h
  let k := XCount.n n
  .next (i.visit (memUses h o 0) [(o.d, k)] o.d o x (.read false) (4 * k) (4 * k) false fun j s pa =>
    let rs := (lanesOf j.g).map fun l =>
      (l, (List.range k).map fun w => s.readAt (s.ctxOf j.x) (pa l + 4 * w) 4)
    (match o.d with
     | .v r => j.pendVec s r.toNat k rs
     | _ => s, none))

/-- STX (R248). -/
def execStx (h : Hdr) (o : Ops) (n : XCount) (x : MemX) (s : State) : Host.Outcome State Fault Refusal :=
  let i := Ix.of s h
  let k := XCount.n n
  .next (i.store h o x 4 (4 * k) k false fun l => (List.range k).map fun w => i.wordOf o.c w l)

/-- ATOM (R249 to R251). -/
def execAtom (h : Hdr) (o : Ops) (t : Ty) (op : AtomOp) (x : MemX) (s : State) : Host.Outcome State Fault Refusal :=
  let i := Ix.of s h
  let size := t.bits / 8
  .next (i.visit (memUses h o (Ty.regs t)) [(o.d, Ty.regs t)] o.d o x .rmw size size true fun j s pa =>
    let (s1, rs) := j.rmwLanes s (s.ctxOf j.x) pa size (j.relMark x.so) fun l cur =>
      let v := i.read o.c (.bw t.wide) l
      (false, some { bits := AtomOp.step op t cur.bits v.bits, poison := cur.poison || v.poison })
    let ds := rs.map fun r => (r.1, r.2.1)
    (j.pend (j.countUse (dropsMark o.d && ds.any fun r => r.2.poison) s1) o.d t ds, none))

/-- RED (R249 to R252). -/
def execRed (h : Hdr) (o : Ops) (t : Ty) (op : AtomOp) (x : MemX) (s : State) : Host.Outcome State Fault Refusal :=
  .next ((Ix.of s h).reduce h o t op x)

/-- The compare value of CAS and WAITA in a lane, as the low bits of the type. -/
def Ix.expected (i : Ix) (o : Opnd) (t : Ty) (l : Nat) : Val :=
  match o with
  | .zr => .zero
  | _ => i.read o (.bw t.wide) l

/-- CAS (R253). -/
def execCas (h : Hdr) (o : Ops) (t : Ty) (x : MemX) (s : State) : Host.Outcome State Fault Refusal :=
  let i := Ix.of s h
  let size := t.bits / 8
  .next (i.visit (memUses h o (Ty.regs t) ++ [{ o := o.d, n := Ty.regs t, bit := false }]) [(o.d, Ty.regs t)] .none o x .rmw
    size size true fun j s pa =>
    let (s1, rs) := j.rmwLanes s (s.ctxOf j.x) pa size (j.relMark x.so) fun l cur =>
      let ok := decide (cur.bits = (i.expected o.d t l).bits)
      (ok, if ok then some (i.read o.c (.bw t.wide) l) else none)
    let used := rs.any fun r => r.2.1.poison || (i.expected o.d t r.1).poison
    let s2 := j.writePred (j.countUse (used && o.d2 ≠ .zr) s1) o.d2 j.g (maskOf fun l => rs.any fun r => r.1 = l && r.2.2)
    (j.pend s2 o.d t (rs.map fun r => (r.1, r.2.1)), none))

/-! ### Scratchpad (R219, R220) -/

/-- The offset of a lane in the scratchpad. -/
def Ix.ofs (i : Ix) (o : Ops) (x : MemX) (size l : Nat) : Int := i.ea o x.scale x.disp size l

/-- The checks of R214 for a scratchpad access: ALIGN, then SCRATCH. -/
def Ix.checkSpad (i : Ix) (size : Nat) (ofs : Nat → Int) : Except Stop Unit := do
  let cap := i.s.spadBytes (i.s.castOf i.x)
  let addr := fun l => wrapTo (ofs l) 64
  i.trapLanes Cause.align (fun l => ofs l % size ≠ 0) addr
  i.trapLanes Cause.scratch (fun l => decide (ofs l < 0 ∨ (cap : Int) < ofs l + size)) addr

/-- The anchor core has no room for `n` more records until its oldest have drained (R236). -/
def State.spadFull (s : State) (gc n : Nat) : Bool := s.oldHeld (s.core gc).records 64 n

/-- A scratchpad access at the anchor core (R213, R219, R220). -/
def Ix.spad (i : Ix) (us : List Use) (ds : List (Opnd × Nat)) (masks : Opnd) (o : Ops) (x : MemX) (size : Nat) (write : Bool)
    (perform : Ix → State → (Nat → Nat) → State) : State :=
  i.run do
    i.checkSources us i.g
    i.checkDests ds
    let ofs := i.ofs o x size
    i.checkSpad size ofs
    i.maskHome masks x.lsel
    i.needAnchor x.lsel
    guardStop ((lanesOf i.g).any fun l => i.s.tileHeld i.x.hoist write (ofs l).toNat size) (.wait .tile)
    i.checkRelease (ScopeOrder.rel x.so) x.so.scope
    let rel := i.relMark x.so
    guardStop (write && rel.isSome && i.s.spadFull i.x.gc (lanesOf i.g).length) (.wait .release)
    let cast := i.s.castOf i.x
    let at_ := fun l => (ofs l).toNat
    let recs := (i.s.core i.x.gc).records.filter fun r => (lanesOf i.g).any fun l => meets r.pa r.size (spadKey cast (at_ l)) size
    match i.promoteStop (if x.so.promote then recs else []) with
    | some (gc, count) => pure (i.askDrain gc count)
    | none =>
      let s1 := perform i (i.countUse (i.addrPoison o) i.s) at_
      let s2 := if write then (lanesOf i.g).foldl (fun s l => s.noteSpad i.x.gc cast (at_ l) size rel) s1 else s1
      pure (i.done (s2.modFrag i.f fun y => i.drainAfter (ScopeOrder.acq x.so) (ScopeOrder.rel x.so) x.so.scope (y.reads recs)))

/-- A read of the scratchpad of a cast. -/
def State.spadRead (s : State) (cast ofs n : Nat) : Val := (s.cast cast).sval ofs n

/-- LDS (R247). -/
def execLds (h : Hdr) (o : Ops) (t : Ty) (x : MemX) (s : State) : Host.Outcome State Fault Refusal :=
  let i := Ix.of s h
  let size := t.bits / 8
  .next (i.spad (memUses h o 0) [(o.d, Ty.regs t)] o.d o x size false fun j s ofs =>
    let rs := (lanesOf j.g).map fun l => (l, s.spadRead (s.castOf j.x) (ofs l) size)
    j.pend (j.countUse (dropsMark o.d && rs.any fun r => r.2.poison) s) o.d t rs)

/-- STS (R248). -/
def execSts (h : Hdr) (o : Ops) (t : Ty) (x : MemX) (s : State) : Host.Outcome State Fault Refusal :=
  let i := Ix.of s h
  let size := t.bits / 8
  .next (i.spad (memUses h o (Ty.regs t)) [] .none o x size true fun j s ofs =>
    s.modCast (s.castOf j.x) fun c => (lanesOf (lastLanes ofs j.g)).foldl (fun c l =>
      let v := j.read o.c (.bw t.wide) l
      c.swrite (ofs l) size v.bits.toNat v.lo v.hi) c)

/-- ATOMS (R249 to R251). -/
def execAtoms (h : Hdr) (o : Ops) (t : Ty) (op : AtomOp) (x : MemX) (s : State) : Host.Outcome State Fault Refusal :=
  let i := Ix.of s h
  let size := t.bits / 8
  .next (i.spad (memUses h o (Ty.regs t)) [(o.d, Ty.regs t)] o.d o x size true fun j s ofs =>
    let cast := s.castOf j.x
    let r := (lanesOf j.g).foldl (fun (q : State × List (Nat × Val)) l =>
      let cur := q.1.spadRead cast (ofs l) size
      let v := j.read o.c (.bw t.wide) l
      (q.1.modCast cast fun c =>
        c.swrite (ofs l) size (AtomOp.step op t cur.bits v.bits).toNat (cur.poison || v.poison), q.2 ++ [(l, cur)]))
      (s, [])
    j.pend (j.countUse (dropsMark o.d && r.2.any fun p => p.2.poison) r.1) o.d t r.2)

/-! ### Fences (R238, R254) -/

/-- FENCE (R254). -/
def execFence (h : Hdr) (_ : Ops) (so : ScopeOrder) (s : State) : Host.Outcome State Fault Refusal :=
  let i := Ix.of s h
  .next (i.run do
    i.checkRelease (ScopeOrder.rel so) so.scope
    pure (i.done (i.s.modFrag i.f (i.drainAfter (ScopeOrder.acq so) (ScopeOrder.rel so) so.scope))))

/-! ### Waiting and polling (R255, R256) -/

/-- The lanes whose value differs from the expected one. -/
def Ix.differing (i : Ix) (o : Ops) (t : Ty) (rs : List (Nat × Val)) : LaneMask :=
  maskOf fun l => rs.any fun r => r.1 = l && decide (r.2.bits ≠ (i.expected o.c t l).bits)

/-- WAITA (R255). -/
def execWaita (h : Hdr) (o : Ops) (t : Ty) (x : MemX) (s : State) : Host.Outcome State Fault Refusal :=
  let i := Ix.of s h
  let size := t.bits / 8
  .next (i.visit (memUses h o (Ty.regs t)) [(o.d, Ty.regs t)] o.d o x .watch size size false fun j s pa =>
    let rs := (lanesOf j.g).map fun l => (l, s.readAt (s.ctxOf j.x) (pa l) size)
    let ne := i.differing o t rs
    if ne = 0 ∧ !i.e.woken then (s, some (.waita ((lanesOf j.g).map pa) size false))
    else
      let used := (dropsMark o.d || o.d2 ≠ .zr) && rs.any fun r => r.2.poison || (i.expected o.c t r.1).poison
      (j.writePred (j.write (j.countUse used s) o.d t rs) o.d2 j.g ne, none))

/-- POLL: the read, the compare, and the back-off of the fragment (R256). -/
def execPoll (h : Hdr) (o : Ops) (t : Ty) (x : MemX) (s : State) : Host.Outcome State Fault Refusal :=
  let i := Ix.of s h
  let size := t.bits / 8
  .next (i.visit (memUses h o (Ty.regs t)) [(o.d, Ty.regs t)] o.d o x { Acc.watch with repl := false } size size false
    fun j s pa =>
    let rs := (lanesOf j.g).map fun l => (l, s.readAt (s.ctxOf j.x) (pa l) size)
    let ne := i.differing o t rs
    let used := (dropsMark o.d || o.d2 ≠ .zr) && rs.any fun r => r.2.poison || (i.expected o.c t r.1).poison
    let s1 := j.writePred (j.write (j.countUse used s) o.d t rs) o.d2 j.g ne
    (s1.modFrag j.f fun y =>
      if ne ≠ 0 then { y with backoff := 64 }
      else { y with pause := some (s.now + y.backoff), backoff := min (2 * y.backoff) 65536 }, none))

/-! ### HOME, GO, PUTS (R257 to R259) -/

/-- The description of the home of an address (R257). -/
def Ix.homeWord (i : Ix) (va : Nat) : Nat :=
  match i.translate va with
  | .ok _ pa =>
    if i.s.coreBarred i.x.gc (i.s.ctxOf i.x).toNat pa then 2 ^ 30
    else if paHost pa then 2 ^ 31
    else (if i.outside pa then 2 ^ 29 else 0) + paHearth pa
  | _ => 2 ^ 30

/-- HOME (R257). -/
def execHome (h : Hdr) (o : Ops) (scale : BitVec 2) (disp : BitVec 8) (s : State) : Host.Outcome State Fault Refusal :=
  let i := Ix.of s h
  .next (i.run do
    i.checkSources (memUses h o 0) i.g
    i.checkDests [(o.d, 1)]
    i.maskHome o.d
    let va := fun l => wrapTo (i.ea o scale disp 1 l) 64
    i.checkWalks va
    let rs := (lanesOf i.g).map fun l => (l, Val.ofNat (i.homeWord (va l)))
    pure (i.doneFor (i.countUse (i.addrPoison o) (i.write i.s o.d .b32 rs)) i.e.mask))

/-- GO: the lanes of G move to the homes of their addresses (R258). -/
def execGo (h : Hdr) (o : Ops) (scale : BitVec 2) (disp : BitVec 8) (lsel : BitVec 4) (s : State) :
    Host.Outcome State Fault Refusal :=
  let i := Ix.of s h
  let x : MemX := { lsel, so := { scope := .domain, order := .relaxed, promote := false, pass := false }, scale, disp }
  .next (i.visit (memUses h o 0) [] .none o x .go 1 1 false fun _ s _ => (s, none))

/-- GO.ANCHOR (R258). -/
def execGoAnchor (h : Hdr) (_ : Ops) (lsel : BitVec 4) (s : State) : Host.Outcome State Fault Refusal :=
  let i := Ix.of s h
  .next (i.run do
    i.needAnchor lsel
    pure (i.doneFor i.s i.e.mask))

/-- PUTS (R259). -/
def execPuts (h : Hdr) (o : Ops) (t : Ty) (x : MemX) (s : State) : Host.Outcome State Fault Refusal :=
  .next ((Ix.of s h).puts h o t x)

end Sys2Proof.Machine
end

