-- ==== Sys2Proof/Machine/Fetch.lean ====
section
/-! DEFINITION. Fetching (R15, R77, R97, R212), the length of an instruction (R76), and the instruction that a repetition
issues (R344, R345). -/

namespace Sys2Proof.Machine

/-! ### Fetch blocks (R77) -/

/-- The fetch block that holds an address. -/
def blockOf (pc : DWord) : Nat := pc.toNat / 32 * 32

/-- The key of a fetch block in a core's instruction cache: context and block. -/
def icKey (ctx : BitVec 8) (block : Nat) : Nat := ctx.toNat * 2 ^ 59 + block / 32

/-- A fetch block in memory. -/
def State.blockAt (s : State) (pa : Nat) : BitVec 256 := BitVec.ofNat 256 (s.readLE pa 32)

/-- The bytes of a block from an offset to its end. -/
def blockBytes (b : BitVec 256) (ofs : Nat) : List Byte :=
  (List.range (32 - ofs)).map fun k => b.extractLsb' (8 * (ofs + k)) 8

/-- How a fetch ends. -/
inductive Fetched where
  /-- the block, and whether the core must still keep it -/
  | block (b : BitVec 256) (fresh : Bool)
  /-- no translation is held -/
  | walk
  /-- it cannot be read with execute permission -/
  | access
  /-- it is poisoned (R418): the physical address, and whether the core had kept it -/
  | poison (pa : Nat) (kept : Bool)
  deriving DecidableEq, Repr

/-- The physical address is one that fetch can reach: it never leaves the core's hearth (R15). DEDUCED (log 29). -/
def Ix.fetchable (i : Ix) (leaf : DWord) (pa : Nat) : Bool :=
  leafX leaf && !i.s.coreBarred i.x.gc (i.s.ctxOf i.x).toNat pa && !paHost pa && !isCpage pa &&
    paHearth pa = i.here && !i.outside pa

/-- The physical address of a block that the core has kept, or 0 where its page is no longer mapped. -/
def Ix.blockPa (i : Ix) (blk : Nat) : Nat :=
  match i.s.walk (corePkg i.x.gc) (i.s.ctxOf i.x).toNat blk with
  | some (e, bits, _) => leafAddr e bits blk i.here
  | none => 0

/-- The fetch of the block at the PC (R77): a block that the core keeps, or one that it reads now. DESIGN CHOICE (log 28). DEDUCED (log 29). -/
def Ix.fetch (i : Ix) : Fetched :=
  let blk := blockOf i.e.pc
  match Sparse.get none (i.s.core i.x.gc).icache (icKey (i.s.ctxOf i.x) blk) with
  | some b => if (i.s.core i.x.gc).icbad.contains (icKey (i.s.ctxOf i.x) blk) then .poison (i.blockPa blk) true else .block b false
  | none =>
    match i.translate blk with
    | .miss => .walk
    | .fail => .access
    | .ok leaf pa =>
      if !i.fetchable leaf pa then .access
      else if i.s.poisoned pa 32 then .poison pa false
      else .block (i.s.blockAt pa) true

/-- The blocks of 32 bytes that an instruction cache of 128 KiB holds (R14). -/
def icBlocks : Nat := 4096

/-- A core with another block in its instruction cache; a full one gives up the block with the lowest key (R14). DESIGN CHOICE (log 28). -/
def Core.keepBlock (c : Core) (key : Nat) (b : BitVec 256) : Core :=
  let room := decide (c.icache.length < icBlocks) || c.icache.any fun q => q.1 = key
  let gone : Option Nat := if room then none else c.icache.head?.map Prod.fst
  { c with
    icache := Sparse.set none (if room then c.icache else c.icache.drop 1) key (some b)
    icbad := c.icbad.filter fun k => some k ≠ gone }

/-- The core keeps a block it has read. -/
def Ix.keepBlock (i : Ix) (b : BitVec 256) : State :=
  i.s.modCore i.x.gc fun c => c.keepBlock (icKey (i.s.ctxOf i.x) (blockOf i.e.pc)) b

/-- The bytes of code at another address, as the core would fetch them, without waiting for a walk. -/
def Ix.codeAt (i : Ix) (pc : DWord) : Option (List Byte) :=
  let blk := blockOf pc
  match Sparse.get none (i.s.core i.x.gc).icache (icKey (i.s.ctxOf i.x) blk) with
  | some b => some (blockBytes b (pc.toNat - blk))
  | none =>
    match i.s.walk (corePkg i.x.gc) (i.s.ctxOf i.x).toNat blk with
    | none => none
    | some (e, bits, _) =>
      let pa := leafAddr e bits blk i.here
      if i.fetchable e pa && !i.s.poisoned pa 32 then some (blockBytes (i.s.blockAt pa) (pc.toNat - blk)) else none

/-- The length that the LEN bits of the instruction at an address give (R76). -/
def Ix.lengthAt (i : Ix) (pc : DWord) : Option Nat :=
  match i.codeAt pc with
  | some (b :: _) => (Form.ofCode (b.extractLsb' 0 2)).map Form.bytes
  | _ => none

/-! ### Repetitions (R344, R345) -/

/-- The stride of a code (R344). -/
def strideOf (c : BitVec 2) : Nat :=
  match c.toNat with
  | 0 => 0
  | 1 => 1
  | 2 => 2
  | _ => 4

/-- The strides of the operand fields D, A, B and C. -/
structure Strides where
  d : Nat
  a : Nat
  b : Nat
  c : Nat
  deriving DecidableEq, Repr

/-- The strides that the MINOR byte of REP names (R333). -/
def Strides.ofByte (m : Nat) : Strides :=
  { d := strideOf (BitVec.ofNat 2 m), a := strideOf (BitVec.ofNat 2 (m / 4)), b := strideOf (BitVec.ofNat 2 (m / 16)),
    c := strideOf (BitVec.ofNat 2 (m / 64)) }

/-- A stride may be given for an operand: none, or one for a vector register, even for a pair (R345). -/
def Opnd.takes (o : Opnd) (sl : Slot) (st : Nat) : Bool :=
  st = 0 ||
    match o, sl with
    | .v _, .kinds ks => !ks.contains (.v 2) || st % 2 = 0
    | _, _ => false

/-- An operand names an index of at most 63 after `k` strides (R344). -/
def Opnd.inWindow (o : Opnd) (st k : Nat) : Bool :=
  match o with
  | .v r => decide (r.toNat + k * st ≤ 63)
  | _ => true

/-- An instruction may follow a REP with these strides (R345). -/
def repeatable (i : Instr) (st : Strides) : Bool :=
  match i.head, i.code with
  | some (h, o), some c =>
    match i.rule h.form with
    | some r =>
      decide (c.major.toNat ≤ 0x66) && !(o.d.isQ || o.a.isQ) &&
        Opnd.takes o.d r.d st.d && Opnd.takes o.a r.a st.a && Opnd.takes o.b r.b st.b && Opnd.takes o.c r.c st.c
    | none => false
  | _, _ => false

/-- Every repetition up to `k` stays in the window (R344). -/
def repInWindow (i : Instr) (st : Strides) (k : Nat) : Bool :=
  match i.head with
  | some (_, o) => Opnd.inWindow o.d st.d k && Opnd.inWindow o.a st.a k && Opnd.inWindow o.b st.b k && Opnd.inWindow o.c st.c k
  | none => false

/-- A specifier at index + k strides. -/
def specPlus (c : BitVec 8) (st k : Nat) : BitVec 8 := c + BitVec.ofNat 8 (st * k)

/-- The fields of repetition `k` (R344). -/
def repFields (f : Fields) (st : Strides) (k : Nat) : Fields :=
  { f with dst := specPlus f.dst st.d k, sa := specPlus f.sa st.a k, sb := specPlus f.sb st.b k, sc := specPlus f.sc st.c k }

/-- The instruction of repetition `k`. -/
def repetition (i : Instr) (st : Strides) (k : Nat) : Except Illegal Instr :=
  match i.fields with
  | some f => (repFields f st k).decode
  | none => .ok i

end Sys2Proof.Machine
end

