-- ==== Sys2Proof/Machine/Ready.lean ====
section
/-! DEFINITION. When an entry, a fragment and the hoist in a slot can issue (R311, R314, R341, R344). -/

namespace Sys2Proof.Machine

/-- An address lies in the body of a loop, its end instruction included. -/
def LoopEnt.holds (lp : LoopEnt) (pc : DWord) : Bool := decide (lp.start.toNat ≤ pc.toNat ∧ pc.toNat ≤ lp.stop.toNat)

/-- An entry of a frontier can issue. -/
def Entry.ready (e : Entry) : Bool := e.wait = none

/-- An entry at the end instruction of the innermost loop is held while another entry stands in the body before it
(R341). -/
def Frag.loopHeld (x : Frag) (e : Entry) : Bool :=
  match x.loops with
  | lp :: _ => e.pc = lp.stop && x.entries.any fun d => decide (lp.start.toNat ≤ d.pc.toNat ∧ d.pc.toNat < lp.stop.toNat)
  | [] => false

/-- The entry in the middle of a sequence of repetitions: no other entry of the fragment issues between them (R344). -/
def Frag.repeating (x : Frag) : Option Entry :=
  match x.rep with
  | some (p, pc) => if x.repeats p pc then findEntry x.entries p pc else none
  | none => none

/-- The entries of a fragment that can issue now (R311, R341, R344). -/
def Frag.issuable (x : Frag) : List Entry :=
  match x.repeating with
  | some e => if e.ready then [e] else []
  | none => x.entries.filter fun e => e.ready && !x.loopHeld e

/-- The end test is due: lanes stand past the end instruction of the innermost loop, and none remains in its body (R341). -/
def Frag.endDue (x : Frag) : Bool :=
  match x.loops with
  | [] => false
  | lp :: _ => !x.atEnd.isEmpty && !(x.entries.any fun e => lp.holds e.pc)

/-- The fragment stands on a core with an entry that can issue, and has no end test to make first (R311, R341). -/
def Frag.canIssue (x : Frag) : Bool := x.onCore && !x.endDue && !x.issuable.isEmpty

/-- The fragment makes its hoist wait where it stands: it sleeps, it backs off after a POLL, a stall hint defers an instruction
of it (R314), or its PARK or HALT awaits the launch hearth (R408). DEDUCED (log 140). -/
def Frag.rests (x : Frag) : Bool :=
  x.sleep.isSome || x.pause.isSome || x.asking || x.entries.any fun e => match e.wait with | some (.stall ..) => true | _ => false

/-- The fragments in a slot of a core. -/
def State.slotFrags (s : State) (gc slot : Nat) : List Nat :=
  (s.frags.filter fun q => q.2.onCore && q.2.gc = gc && q.2.slot = slot).map Prod.fst

/-- The hoist in a slot is ready: some entry of it can issue, and nothing makes the whole hoist wait (R311, R314). -/
def State.slotReady (s : State) (gc slot : Nat) : Bool :=
  let xs := (s.slotFrags gc slot).map s.frag
  !xs.any Frag.rests && xs.any Frag.canIssue

/-- The hoist in a slot has something to do: it is ready, or an end test of a loop is due, which is no wait (R311, R341). -/
def State.slotBusy (s : State) (gc slot : Nat) : Bool :=
  let xs := (s.slotFrags gc slot).map s.frag
  !xs.any Frag.rests && xs.any fun x => x.canIssue || x.endDue

/-- A fragment becomes ready at this clock (R312, rule 4). -/
def State.noteReady (s : State) (f : Nat) : State :=
  let x := s.frag f
  if s.slotReady x.gc x.slot then s
  else s.modCore x.gc fun c => { c with readyAt := Sparse.set 0 c.readyAt x.slot s.now }

end Sys2Proof.Machine
end

