-- ==== Sys2Proof/Machine/Control.lean ====
section
/-! DEFINITION. The meanings of the control, divergence and synchronisation instructions (R331 to R353, R358), but for those
that end lanes or launch pours. -/

namespace Sys2Proof.Machine

/-! ### Transfers -/

/-- LOOPEND: a transfer at the end instruction of any open loop (R343). DEDUCED (log 16). -/
def Ix.checkLoopEnd (i : Ix) : Except Stop Unit :=
  guardStop (i.x.loops.any fun lp => lp.stop = i.e.pc) (.trap Cause.loopend 0 i.g)

/-- ALIGN for lanes whose target is not a multiple of 4 (R76, R332). -/
def Ix.checkTarget (i : Ix) (target : Nat → DWord) : Except Stop Unit :=
  i.trapLanes Cause.align (fun l => (target l).toNat % 4 ≠ 0) fun l => (target l).toNat

/-- PRIO in debug mode: lanes sent forward to a higher priority (R112); the trap names those of G (R332). -/
def Ix.checkPrio (i : Ix) (lanes : LaneMask) (pri : BitVec 8) (target : Nat → DWord) : Except Stop Unit :=
  let bad := maskOf fun l => lanes.getLsbD l && decide (i.e.pc.toNat < (target l).toNat) && decide (i.e.prio.toNat < pri.toNat)
  guardStop (i.s.debug i.x && bad ≠ 0) (.trap Cause.prio (target (lowestLane bad)) (bad &&& i.g))

/-- Lanes leave the issuing entry for a target each (R331, R334, R335). -/
def Ix.sendTo (i : Ix) (lanes : LaneMask) (to_ : Nat → BitVec 8 × DWord) (x : Frag) : Frag :=
  (lanesOf lanes).foldl (fun y l => Frag.goTo y (to_ l).1 (to_ l).2 (laneBit l)) (x.take i.e.prio i.e.pc lanes)

/-- The lanes of the entry outside G go to the next PC (R331). -/
def Ix.restNext (i : Ix) (x : Frag) : Frag :=
  let rest := i.e.mask &&& ~~~i.g
  if rest = 0 then x else (x.take i.e.prio i.e.pc rest).goNext i.e.pc i.next i.e.prio rest

/-- The literal offset of a transfer from its own address (R333). -/
def Ix.literalTarget (i : Ix) (o : Ops) : DWord :=
  match o.b with
  | .lit v => i.e.pc + v.signExtend 64
  | _ => i.e.pc

/-- BRK: the innermost loop is popped when the branch lies in its body and no lane remains there (R342). -/
def Frag.brk (x : Frag) (pc : DWord) : Frag :=
  match x.loops with
  | lp :: rest =>
    if lp.holds pc && !(x.entries.any fun e => lp.holds e.pc) && x.atEnd.isEmpty then { x with loops := rest } else x
  | [] => x

/-- BRA (R334). -/
def execBra (h : Hdr) (o : Ops) (brk : Bool) (pri : BitVec 8) (s : State) : Host.Outcome State Fault Refusal :=
  let i := Ix.of s h
  .next (i.run do
    i.checkLoopEnd
    let t := i.literalTarget o
    i.checkTarget fun _ => t
    i.checkPrio i.g pri fun _ => t
    pure (i.s.modFrag i.f fun x =>
      let y := i.sendTo i.g (fun _ => (pri, t)) (i.restNext x)
      if brk then y.brk i.e.pc else y))

/-- The link word of R336. -/
def linkWord (shift : Nat) (prio : BitVec 8) (rpc : DWord) : DWord :=
  BitVec.ofNat 64 (shift * 2 ^ 61 + prio.toNat * 2 ^ 53 + rpc.toNat % 2 ^ 53)

/-- BRX (R335). -/
def execBrx (h : Hdr) (o : Ops) (pri : BitVec 8) (s : State) : Host.Outcome State Fault Refusal :=
  let i := Ix.of s h
  .next (i.run do
    i.checkSources [{ o := o.a, n := 2, bit := h.ea }] i.g
    i.checkLoopEnd
    let t := fun l => (i.read o.a (.bw true) l).bits
    i.checkTarget t
    i.checkPrio i.g pri t
    i.checkDests [(o.d, 2)]
    let link : Val := { bits := linkWord 0 i.e.prio i.next, poison := false }
    let s1 := i.countUse (i.poisonLanes o.a 2 i.g ≠ 0) (i.write i.s o.d .b64 ((lanesOf i.g).map fun l => (l, link)))
    pure (s1.modFrag i.f fun x => i.sendTo i.g (fun l => (pri, t l)) (i.restNext x)))

/-! ### Calls and returns (R336 to R339) -/

/-- The lanes of a fragment's frontier, with the entries that a handler has set aside. -/
def Frag.frontier (x : Frag) : LaneMask :=
  entryLanes x.entries ||| entryLanes x.atEnd ||| entryLanes x.frozen ||| entryLanes x.frozenEnd

/-- A change of the window base would split a fragment in handler mode: a double fault with ILLEGAL (R339, R395). -/
def Ix.splitsHandler (i : Ix) : Except Stop Unit :=
  guardStop (i.x.handler && i.x.frontier ≠ i.g) (.trap Cause.illegal 0 i.e.mask)

/-- The lanes of G move to their targets with a new window base. When they are all that the fragment's frontier holds the
fragment shifts whole, and otherwise they become a new fragment in the anchor slot (R339). -/
def Ix.shiftLanes (i : Ix) (s : State) (base : Nat) (to_ : Nat → BitVec 8 × DWord) : State :=
  let x := s.frag i.f
  if base = x.wbase then s.modFrag i.f fun x => i.sendTo i.g to_ (i.restNext x)
  else if x.frontier = i.g then s.setFrag i.f { (i.sendTo i.g to_ x) with wbase := base }
  else
    let n := s.nextFrag
    let moved : Frag := i.sendTo i.g to_ { x with entries := [], loops := [] }
    let y : Frag := { (x.splitOff i.g moved.entries x.mcopy x.place) with wbase := base }
    let x' : Frag := { (i.restNext (x.take i.e.prio i.e.pc i.g)) with
      lanes := x.lanes &&& ~~~i.g, fills := x.fills.map fun w => w.restrict (~~~i.g) }
    (({ s with nextFrag := n + 1 }.setFrag n y).setFrag i.f x').modHoist x.hoist fun h => { h with split := true }

/-- CALL and CALLX after their targets are known (R337). -/
def Ix.callTo (i : Ix) (o : Ops) (sh : BitVec 3) (pri : BitVec 8) (lsel : BitVec 4) (t : Nat → DWord) :
    Except Stop State := do
  i.checkLoopEnd
  let base := i.x.wbase + 8 * sh.toNat
  guardStop (decide ((i.s.pour (i.s.pourOf i.x)).allot < base + 64)) (.trap Cause.window 0 i.g)
  i.checkTarget t
  guardStop (decide (2 ^ 53 ≤ i.next.toNat)) (.trap Cause.access i.next i.g)
  i.checkPrio i.g pri t
  i.needAnchor lsel
  i.splitsHandler
  let j : Ix := { i with x := { i.x with wbase := base } }
  j.checkDests [(o.d, 2)]
  let link : Val := { bits := linkWord sh.toNat i.e.prio i.next, poison := false }
  pure (i.shiftLanes (j.write i.s o.d .b64 ((lanesOf i.g).map fun l => (l, link))) base fun l => (pri, t l))

/-- CALL (R337). -/
def execCall (h : Hdr) (o : Ops) (sh : BitVec 3) (pri : BitVec 8) (lsel : BitVec 4) (s : State) :
    Host.Outcome State Fault Refusal :=
  let i := Ix.of s h
  .next (i.run (i.callTo o sh pri lsel fun _ => i.literalTarget o))

/-- CALLX (R337). -/
def execCallx (h : Hdr) (o : Ops) (sh : BitVec 3) (pri : BitVec 8) (lsel : BitVec 4) (s : State) :
    Host.Outcome State Fault Refusal :=
  let i := Ix.of s h
  .next (i.run do
    i.checkSources [{ o := o.a, n := 2, bit := h.ea }] i.g
    let r ← i.callTo o sh pri lsel fun l => (i.read o.a (.bw true) l).bits
    pure (i.countUse (i.poisonLanes o.a 2 i.g ≠ 0) r))

/-- RET (R338). -/
def execRet (h : Hdr) (o : Ops) (lsel : BitVec 4) (s : State) : Host.Outcome State Fault Refusal :=
  let i := Ix.of s h
  .next (i.run do
    i.checkSources [{ o := o.a, n := 2, bit := h.ea }] i.g
    i.checkLoopEnd
    let w := fun l => (i.read o.a (.bw true) l).bits
    let shift := fun l => field (w l).toNat 63 61
    let rpc := fun l => (BitVec.ofNat 64 (field (w l).toNat 52 0) : DWord)
    let sh := shift (lowestLane i.g)
    let bad := i.lanesIf fun l => shift l ≠ sh
    guardStop (bad ≠ 0) (.trap Cause.window 0 bad)
    guardStop (decide (i.x.wbase < 8 * sh)) (.trap Cause.window 0 i.g)
    i.checkTarget rpc
    i.needAnchor lsel
    if sh = 0 then pure () else i.splitsHandler
    let s1 := i.countUse (i.poisonLanes o.a 2 i.g ≠ 0) i.s
    pure (i.shiftLanes s1 (i.x.wbase - 8 * sh) fun l => (BitVec.ofNat 8 (field (w l).toNat 60 53), rpc l)))

/-! ### Hardware loops and REP (R340 to R346) -/

/-- LOOP (R340). DEDUCED (log 18). -/
def execLoop (h : Hdr) (o : Ops) (pri : BitVec 8) (s : State) : Host.Outcome State Fault Refusal :=
  let i := Ix.of s h
  .next (i.run do
    i.checkSources [{ o := o.a, n := 1, bit := h.ea }] i.g
    i.checkLoopEnd
    let count := (i.uniform o.a .w32).bits.toNat % 2 ^ 24
    guardStop (count ≠ 0 && decide (4 ≤ i.x.loops.length)) (.trap Cause.loopend 0 i.g)
    let stop := i.literalTarget o
    let after := stop + BitVec.ofNat 64 ((i.lengthAt stop).getD 0)
    let skip := if count = 0 then i.e.mask else i.e.mask &&& ~~~i.g
    i.checkPrio skip pri fun _ => after
    let s1 := i.countUse (i.poisonLanes o.a 1 i.g ≠ 0) i.s
    pure (s1.modFrag i.f fun x =>
      let y := i.sendTo skip (fun _ => (pri, after)) x
      if count = 0 then y
      else
        let z := (y.take i.e.prio i.e.pc i.g).goTo i.e.prio i.next i.g
        { z with loops := { count := BitVec.ofNat 24 count, prio := i.e.prio, start := i.next, stop } :: z.loops }))

/-- The instruction that stands at an address, as the core would fetch it. -/
def Ix.instrAt (i : Ix) (pc : DWord) : Option Instr :=
  match i.codeAt pc with
  | some bs => (decode bs).toOption
  | none => none

/-- The MINOR byte of a REP (R333). -/
def repMinor (sd sa sb sc : BitVec 2) : Nat := sd.toNat + 4 * sa.toNat + 16 * sb.toNat + 64 * sc.toNat

/-- REP (R344 to R346). Where the next instruction cannot be read the fetch there raises its ACCESS, and REP makes no check of it (R96). DEDUCED (log 18). -/
def execRep (h : Hdr) (o : Ops) (sd sa sb sc : BitVec 2) (s : State) : Host.Outcome State Fault Refusal :=
  let i := Ix.of s h
  let minor := repMinor sd sa sb sc
  let st := Strides.ofByte minor
  let bad : Bool := match i.codeAt i.next with
    | none => false
    | some bs => match decode bs with
      | .ok nx => !repeatable nx st
      | .error _ => true
  if bad then .next i.illegal
  else .next (i.run do
      i.checkSources [{ o := o.b, n := 1, bit := h.eb }] i.g
      i.checkLoopEnd
      let n := (i.uniform o.b .w32).bits.toNat % 256
      guardStop (((i.instrAt i.next).map fun nx => !repInWindow nx st (n - 1)).getD false) (.trap Cause.window 0 i.g)
      let s1 := i.countUse (i.poisonLanes o.b 1 i.g ≠ 0) i.s
      let after := i.next + BitVec.ofNat 64 ((i.lengthAt i.next).getD 0)
      pure (s1.modFrag i.f fun x =>
        if n = 0 then (x.take i.e.prio i.e.pc i.e.mask).goNext i.next after i.e.prio i.e.mask
        else { ((x.take i.e.prio i.e.pc i.e.mask).goTo i.e.prio i.next i.e.mask) with
               repc := BitVec.ofNat 32 (n * 256 + minor * 2 ^ 24), rep := some (i.e.prio, i.next) }))

/-! ### Mask registers, held lanes and joins (R347 to R351) -/

/-- The fragment stands in its anchor slot. -/
def State.home (s : State) (x : Frag) : Bool := s.atAnchor x

/-- Lanes held on mask register `k`: entries that wait at a JOIN on it, and for m11 the lanes parked by EMSET (R347). -/
def State.heldOn (s : State) (hk : Nat) (k : BitVec 4) : LaneMask :=
  let waits := (s.hoistFrags hk).foldl (fun m f =>
    ((s.frag f).entries.filter fun e => e.wait = some (.join k)).foldl (fun m e => m ||| e.mask) m) 0
  if k = 11 then waits ||| (s.hoist hk).held else waits

/-- The lanes of a hoist that any JOIN or EMSET holds. -/
def State.heldLanes (s : State) (hk : Nat) : LaneMask :=
  (s.hoistFrags hk).foldl (fun m f =>
    ((s.frag f).entries.filter fun e => match e.wait with | some (.join _) => true | _ => false).foldl
      (fun m e => m ||| e.mask) m) (s.hoist hk).held

/-- Mask register `k` of a hoist at its anchor. -/
def Hoist.mreg (h : Hoist) (k : BitVec 4) : LaneMask := Sparse.get 0 h.masks k.toNat

/-- A wait at a JOIN ends: some lane of the entry is not named any more, or every named lane is held (R350). -/
def State.joinDue (s : State) (hk : Nat) (k : BitVec 4) (lanes : LaneMask) : Bool :=
  let m := (s.hoist hk).mreg k
  lanes &&& ~~~m ≠ 0 || m &&& ~~~(s.heldOn hk k) = 0

/-- The entry of a posted-sequence table for one target and source, the later of two. -/
def laterPSeq (l : List PSeq) (e : PSeq) : List PSeq :=
  match l.find? fun x => x.tgt = e.tgt && x.src = e.src with
  | some x => if (e.seq - x.seq).toNat < 2 ^ 31 then recordPSeq l e else l
  | none => recordPSeq l e

/-- The fragments that hold lanes of a join, lowest lane first (R69). DEDUCED (log 107). -/
def State.joinParts (s : State) (hk : Nat) (lanes : LaneMask) : List Nat :=
  let fs := (s.hoistFrags hk).filter fun f => (s.frag f).lanes &&& lanes ≠ 0
  match fs.find? fun f => (s.frag f).lanes.getLsbD (lowestLane (lanes &&& fs.foldl (fun m g => m ||| (s.frag g).lanes) 0)) with
  | some f => f :: fs.filter (· ≠ f)
  | none => fs

/-- The joined fragment of a list, the first giving the state held per fragment (R41, R69, R112). DEDUCED (log 20). -/
def joinFrags (x : Frag) (ys : List Frag) : Frag :=
  ys.foldl (fun a y => { a with
    lanes := a.lanes ||| y.lanes
    entries := y.entries.foldl (fun es e =>
      if (findEntry es e.prio e.pc).isSome then addEntry es e.prio e.pc e.mask else es ++ [e]) a.entries
    atEnd := y.atEnd.foldl (fun es e => addEntry es e.prio e.pc e.mask) a.atEnd
    vabsent := a.vabsent ||| y.vabsent
    sabsent := a.sabsent ||| y.sabsent
    pseq := y.pseq.foldl laterPSeq a.pseq
    drain := laterCount a.drain y.drain
    seen := laterCount a.seen y.seen
    asking := a.asking || y.asking
    async := y.async.foldl (fun l c => if l.any fun d => d.code = c.code then l else l ++ [c]) a.async }) x

/-- A register of some fragment is empty (R63). -/
def Frag.hasEmpty (x : Frag) : Bool := x.vempty ≠ 0 || x.sempty ≠ 0

/-- The split flag of a hoist whose fragments have come together (R41). DESIGN CHOICE (log 125). -/
def State.settleSplit (s : State) (hk : Nat) : State :=
  if (s.hoistFrags hk).length ≤ 1 && (s.net.all fun p => match p.body with | .exitNotice k _ => k ≠ hk | _ => true) then
    s.modHoist hk fun h => { h with split := false }
  else s

/-- The posted-sequence entries that the fragments of a join still keep, as one table (R41, R49). -/
def State.joinedPSeq (s : State) (parts : List Nat) : List PSeq :=
  parts.foldl (fun l f => (s.keptPSeq (s.frag f)).foldl laterPSeq l) []

/-- JOIN completes: the lanes held on the register, and the lanes that go on with them, form one entry of one fragment at
the next PC (R350, R41, R69). Pins that entries of the other fragments hold while they wait are released, and taken again when
their instructions issue (R388). DEDUCED (log 20). -/
def Ix.joinAll (i : Ix) (k : BitVec 4) (lanes : LaneMask) : State :=
  let hk := i.x.hoist
  let parts := i.s.joinParts hk lanes
  let s0 := (parts.drop 1).foldl State.dropAllPins i.s
  let clean (y : Frag) : Frag := { y with entries :=
    (y.entries.filter fun e => e.wait ≠ some (.join k)).filterMap fun e =>
      if e.prio = i.e.prio ∧ e.pc = i.e.pc ∧ e.mask &&& ~~~lanes = 0 then none else some e }
  match parts with
  | [] => i.s
  | f :: fs =>
    let y := joinFrags (clean (s0.frag f)) (fs.map fun g => clean (s0.frag g))
    let held : LaneMask := if k = 11 then (s0.hoist hk).held else 0
    let y1 := ({ y with lanes := y.lanes ||| held, pseq := i.s.joinedPSeq parts }).goNext i.e.pc i.next i.e.prio lanes
    let s1 := fs.foldl (fun s g => s.setFrag g .dead) s0
    ((s1.setFrag f y1).modHoist hk fun h => { h with held := h.held &&& ~~~held }).settleSplit hk

/-- Too many posted-sequence entries remain for one fragment (R49). -/
def Ix.joinCrowded (i : Ix) (lanes : LaneMask) : Bool := decide (4 < (i.s.joinedPSeq (i.s.joinParts i.x.hoist lanes)).length)

/-- A JOIN whose lanes are all held waits still, for empty registers or for posted-sequence entries to go (R49, R63). -/
def Ix.joinWaits (i : Ix) (lanes : LaneMask) : Bool :=
  ((i.s.joinParts i.x.hoist lanes).any fun f => (i.s.frag f).hasEmpty) || i.joinCrowded lanes

/-- It asks the targets of other cores' entries how far they have come (R49). -/
def Ix.joinAsks (i : Ix) (lanes : LaneMask) (s : State) : State :=
  if i.joinCrowded lanes then s.askAcks i.x.gc (s.ctxOf i.x) (i.s.joinedPSeq (i.s.joinParts i.x.hoist lanes)) else s

/-- The hoist's lanes have all exited or are held, and no waiting JOIN is due: the hoist exits, its slot is free, and lanes
still held end with it (R42). -/
def State.checkHoistExit (s : State) (hk : Nat) : State :=
  let h := s.hoist hk
  let fs := s.hoistFrags hk
  let joinable := fs.any fun f => (s.frag f).entries.any fun e => match e.wait with
    | some (.join k) => s.joinDue hk k e.mask
    | _ => false
  if h.live && fs.all (fun f => s.home (s.frag f)) && h.exited ||| s.heldLanes hk = BitVec.allOnes 32 && !joinable then
    let s1 := fs.foldl State.leaveFrag s
    let gc := (s.cast h.cast).anchor
    let s2 := (s1.modHoist hk fun k => { k with live := false, held := 0, exited := BitVec.allOnes 32 }).modCore gc fun c =>
      { c with anchors := c.anchors.filter fun p => p.2 ≠ some hk }
    s2.settleCast h.cast
  else s

/-- The pennant of a cast can still be sent early, and has somewhere to go, so a hoist's RAISE or exit performs the release of R327. -/
def State.mustRelease (s : State) (cast : Nat) : Bool :=
  let c := s.cast cast
  let p := s.pour c.pour
  p.deps && !c.psent && !(p.succs c.index).isEmpty

/-- The same for the fragment's cast. DEDUCED (log 22). -/
def Ix.mustRelease (i : Ix) : Bool := i.s.mustRelease i.h.cast

/-- A hoist whose last lanes are gone or held ends, unless its end still waits for the release of R327 (R42, R328). -/
def State.endHoist (s : State) (hk : Nat) : State :=
  if s.mustRelease (s.hoist hk).cast && !((s.hoistFrags hk).all fun f => s.performed (s.frag f)) then s else s.checkHoistExit hk

/-- A hoist that ends while its cast's pennant can still leave early performs the same release first, for every fragment of it: `t` is
the state in which it has ended (R327, R328). -/
def Ix.exitRelease (i : Ix) (t : State) : Except Stop State := do
  guardStop (i.mustRelease && i.h.live && !(t.hoist i.x.hoist).live &&
    !((i.s.hoistFrags i.x.hoist).all fun f => i.s.performed (i.s.frag f))) (.wait .release)
  pure t

/-- The number of a mask operand. -/
def maskNum (o : Opnd) : BitVec 4 :=
  match o with
  | .m k => k
  | _ => 0

/-- JOIN, LEAVE, WAITM, MSET and EMSET work at the anchor slot while the hoist is split (R40, R41, R351). -/
def Ix.atSlot (i : Ix) (lsel : BitVec 4) : Except Stop Unit :=
  if i.h.split then i.needAnchor lsel else .ok ()

/-- JOIN (R350). -/
def execJoin (h : Hdr) (o : Ops) (lsel : BitVec 4) (s : State) : Host.Outcome State Fault Refusal :=
  let i := Ix.of s h
  let k := maskNum o.a
  .next (i.run do
    i.notInHandler
    i.needAnchor lsel
    let m := i.h.mreg k
    let named := i.g &&& m
    let held := i.s.heldOn i.x.hoist k ||| named
    let all := held ||| (i.e.mask &&& ~~~named)
    if m &&& ~~~held = 0 then
      if i.joinWaits all then pure (i.joinAsks all (i.s.modFrag i.f fun x => x.waitAt i.e.prio i.e.pc (.join k)))
      else pure (i.joinAll k all)
    else
      let go := i.e.mask &&& ~~~named
      let s1 := i.s.modFrag i.f fun x =>
        let y := if go = 0 then x else (x.take i.e.prio i.e.pc go).goNext i.e.pc i.next i.e.prio go
        y.waitAt i.e.prio i.e.pc (.join k)
      i.exitRelease (s1.checkHoistExit i.x.hoist))

/-- A mask register of the hoist is written at its slot (R41, R348). -/
def Ix.setMask (i : Ix) (s : State) (k : BitVec 4) (m : LaneMask) : State :=
  s.modHoist i.x.hoist fun h => h.setMask k m

/-- LEAVE (R351). -/
def execLeave (h : Hdr) (o : Ops) (lsel : BitVec 4) (s : State) : Host.Outcome State Fault Refusal :=
  let i := Ix.of s h
  .next (i.run do
    i.atSlot lsel
    pure (i.done (i.setMask i.s (maskNum o.a) (i.mask (maskNum o.a) &&& ~~~i.g))))

/-- WAITM (R351). -/
def execWaitm (h : Hdr) (o : Ops) (lsel : BitVec 4) (s : State) : Host.Outcome State Fault Refusal :=
  let i := Ix.of s h
  let k := maskNum o.a
  .next (i.run do
    i.notInHandler
    i.atSlot lsel
    guardStop (i.mask k &&& ~~~i.g ≠ 0) (.wait (.waitm k))
    pure (i.done i.s))

/-- MSET (R348). -/
def execMset (h : Hdr) (o : Ops) (mode : MsetMode) (lsel : BitVec 4) (s : State) : Host.Outcome State Fault Refusal :=
  let i := Ix.of s h
  let k := maskNum o.d
  .next (i.run do
    i.checkSources [{ o := o.b, n := 1, bit := h.eb }] i.g
    i.atSlot lsel
    let b : LaneMask := (i.uniform o.b .w32).bits.setWidth 32
    let old := i.mask k
    let v := match mode with
      | .em => i.g
      | .mov => b
      | .or => old ||| b
      | .andn => old &&& ~~~b
    pure (i.done (i.countUse (i.poisonLanes o.b 1 i.g ≠ 0) (i.setMask i.s k v))))

/-- EMSET (R349). The lanes that it parks leave the fragment, and its posted-sequence entries stay with that. While the hoist is
split another fragment may join the lanes, so that EMSET waits then until nothing of the fragment is still to be performed. DEDUCED (log 107). -/
def execEmset (h : Hdr) (o : Ops) (lsel : BitVec 4) (s : State) : Host.Outcome State Fault Refusal :=
  let i := Ix.of s h
  .next (i.run do
    i.checkSources [{ o := o.b, n := 1, bit := h.eb }] i.g
    i.notInHandler
    i.atSlot lsel
    let b : LaneMask := (i.uniform o.b .w32).bits.setWidth 32
    let park := i.g &&& ~~~b
    guardStop (park ≠ 0 && i.h.split && !i.s.performed i.x) (.wait .release)
    let s1 := i.countUse (i.poisonLanes o.b 1 i.g ≠ 0) (i.setMask i.s 11 (i.mask 11 ||| park))
    let s2 := s1.modFrag i.f fun x =>
      let y : Frag := { (x.take i.e.prio i.e.pc park) with lanes := x.lanes &&& ~~~park }
      y.complete i.e.prio i.e.pc i.next (i.e.mask &&& ~~~park)
    let s3 := s2.modHoist i.x.hoist fun h => { h with held := h.held ||| park }
    let s4 := if (s3.frag i.f).lanes = 0 then s3.leaveFrag i.f else s3
    i.exitRelease (s4.checkHoistExit i.x.hoist))

/-! ### Barriers (R352) -/

/-- Barrier `b` of a cast. -/
def Cast.bar (c : Cast) (b : Nat) : Barrier := Sparse.get .idle c.bars b
/-- Lanes of a hoist in a table of lanes. -/
def lanesIn (t : Tab LaneMask) (hoist : Nat) : LaneMask := Sparse.get 0 t hoist
/-- How many lanes a table holds. -/
def laneCount (t : Tab LaneMask) : Nat := t.foldl (fun n p => n + (lanesOf p.2).length) 0
/-- Add lanes of a hoist to a table. -/
def addLanes (t : Tab LaneMask) (hoist : Nat) (m : LaneMask) : Tab LaneMask := Sparse.set 0 t hoist (lanesIn t hoist ||| m)

/-- The lanes of a cast that have not exited (R352). -/
def State.aliveLanes (s : State) (c : Nat) : Nat :=
  (s.castHoists c).foldl (fun n hk => n + (lanesOf (~~~(s.hoist hk).exited)).length) 0

/-- The count of a phase from a count operand (R352). -/
def barCount (n : Nat) : Nat := min (n % 2 ^ 11) 1024

/-- The arrivals of barrier `b` reach its count (R352). -/
def State.barFull (s : State) (c b : Nat) : Bool :=
  match (s.cast c).bar b with
  | { arrived, count := some n, .. } => decide ((if n = 0 then s.aliveLanes c else n) ≤ laneCount arrived)
  | _ => false

/-- Lanes that wait at a BAR go to its next PC (R352). -/
def passEntries (w : BarWait) (l : List Entry) : List Entry × List Entry :=
  l.foldl (fun q e =>
    let m := e.mask &&& w.lanes
    if e.pc = w.pc ∧ m ≠ 0 then (takeLanes q.1 e.prio e.pc m, addEntry q.2 e.prio w.next m) else q) (l, [])

/-- Lanes of a fragment that wait at a BAR go on, frozen ones when the program is next selected (R341, R352, R394). -/
def Frag.passBar (x : Frag) (w : BarWait) : Frag :=
  let p := passEntries w x.entries
  let q := passEntries w x.frozen
  let join (l m : List Entry) : List Entry := m.foldl (fun a e => addEntry a e.prio e.pc e.mask) l
  match x.loops with
  | lp :: _ =>
    if lp.stop = w.pc then
      { x with entries := p.1, atEnd := join x.atEnd p.2, frozen := q.1, frozenEnd := join x.frozenEnd q.2 }
    else { x with entries := join p.1 p.2, frozen := join q.1 q.2 }
  | [] => { x with entries := join p.1 p.2, frozen := join q.1 q.2 }

/-- A fragment whose lanes wait at a BAR that has opened goes on. -/
def State.passFrag (s : State) (w : BarWait) (f : Nat) : State :=
  (if (s.frag f).onCore then s.noteReady f else s).modFrag f fun x => x.passBar w

/-- A barrier has opened for lanes that wait: those at the anchor go on at once, and the core of the others is told (R272, R352). DESIGN CHOICE (log 136). -/
def State.passWait (s : State) (w : BarWait) : State :=
  ((s.hoistFrags w.hoist).filter fun f => (s.frag f).lanes &&& w.lanes ≠ 0).foldl (fun a f =>
    let x := a.frag f
    if a.atAnchor x then a.passFrag w f
    else a.answer (recordSrc (a.anchorOf x)) (2048 + x.gc) (a.ctxOf x) (.opened w.hoist (x.lanes &&& w.lanes) w.pc w.next)) s

/-- The word that a barrier has opened reaches the lanes that wait away from the anchor. -/
def State.passAway (s : State) (w : BarWait) : State :=
  ((s.hoistFrags w.hoist).filter fun f => (s.frag f).lanes &&& w.lanes ≠ 0).foldl (fun a f => a.passFrag w f) s

/-- The acquire at CAST scope of the fragments at the anchor that have arrived at a barrier (R231, R239). -/
def State.barAcquire (s : State) (cast hk : Nat) (lanes : LaneMask) : State :=
  let n := (s.core (s.cast cast).anchor).sent
  ((s.hoistFrags hk).filter fun f => s.atAnchor (s.frag f) && (s.frag f).lanes &&& lanes ≠ 0).foldl
    (fun a f => a.modFrag f fun x => { x with drain := some (max (x.drain.getD 0) n) }) s

/-- The arrivals of a barrier have reached its count: every lane that waits goes to the next PC, and a new phase begins (R352, R239).
A cast that parks finds it so when it has resumed. DESIGN CHOICE (log 136). -/
def State.openBarrier (s : State) (cast num : Nat) : State :=
  let c := s.cast cast
  if !s.barFull cast num || c.parking || c.st = .parked then s
  else
    let b := c.bar num
    let s1 := s.setCast cast { c with bars := Sparse.set .idle c.bars num .idle }
    b.waits.foldl State.passWait (b.arrived.foldl (fun a q => a.barAcquire cast (hoistKey cast q.1) q.2) s1)

/-- Lanes of a hoist arrive at a barrier, and under SYNC wait there (R352). -/
def State.arriveBar (s : State) (cast num : Nat) (w : BarWait) (count : Nat) (sync : Bool) : State :=
  let c := s.cast cast
  let b := c.bar num
  let b' : Barrier :=
    { arrived := addLanes b.arrived (w.hoist % 32) w.lanes
      waits := if sync then b.waits ++ [w] else b.waits
      count := some (b.count.getD count) }
  s.setCast cast { c with bars := Sparse.set .idle c.bars num b' }

/-- Lanes of a hoist that have arrived at a barrier in this phase, on their way there too. -/
def State.barArrived (s : State) (cast num hk : Nat) : LaneMask :=
  s.net.foldl (fun m p => match p.body with
    | .arrive c k h lanes _ _ _ _ => if c = cast ∧ k = num ∧ h = hk then m ||| lanes else m
    | _ => m) (lanesIn ((s.cast cast).bar num).arrived (hk % 32))

/-- Lanes of a hoist that wait at the BAR at an address already, for the barrier or for the word that it has opened. -/
def State.barWaiting (s : State) (cast num hk : Nat) (pc : DWord) : LaneMask :=
  s.net.foldl (fun m p => match p.body with
    | .arrive c k h lanes _ true q _ => if c = cast ∧ k = num ∧ h = hk ∧ q = pc then m ||| lanes else m
    | .opened h lanes q _ => if h = hk ∧ q = pc then m ||| lanes else m
    | _ => m)
    (((s.cast cast).bar num).waits.foldl (fun m w => if w.hoist = hk ∧ w.pc = pc then m ||| w.lanes else m) 0)

/-- Barriers of a cast whose count has been reached open, as when lanes have exited (R352, R354). -/
def State.openBarriers (s : State) (cast : Nat) : State :=
  ((s.cast cast).bars.map Prod.fst).foldl (fun a k => a.openBarrier cast k) s

/-- The lanes of G that arrive by this issue, or under SYNC begin to wait by it: a lane arrives once in a phase, and one that issues BAR
again after a park waits already (R352). -/
def Ix.barLanes (i : Ix) (num : Nat) (arv : Bool) : LaneMask :=
  i.g &&& ~~~(if arv then i.s.barArrived i.h.cast num i.x.hoist else i.s.barWaiting i.h.cast num i.x.hoist i.e.pc)

/-- The arrival of lanes: at the anchor at once, and from another core by a packet to the anchor's hearth (R272, R352). -/
def Ix.arrive (i : Ix) (s : State) (num count : Nat) (arv : Bool) : State :=
  let m := i.barLanes num arv
  let ck := i.h.cast
  if m = 0 then s
  else if s.atAnchor i.x then s.arriveBar ck num { hoist := i.x.hoist, pc := i.e.pc, next := i.next, lanes := m } count (!arv)
  else s.send (recordSrc i.x.gc) (coreHearth (s.anchorOf i.x)) (s.ctxOf i.x) false (some ck)
    (.arrive ck num i.x.hoist m count (!arv) i.e.pc i.next)

/-- The issue after a full barrier has opened, if its entry is still there. -/
def Ix.reopened (i : Ix) (num : Nat) : Option Ix :=
  let s := i.s.openBarrier i.h.cast num
  (findEntry (s.frag i.f).entries i.e.prio i.e.pc).map fun e => { i with s, x := s.frag i.f, e, g := i.g &&& e.mask }

/-- BAR: lanes arrive, and under SYNC wait until the barrier opens (R352, R239). -/
def execBar (h : Hdr) (o : Ops) (num : BitVec 4) (arv : Bool) (s : State) : Host.Outcome State Fault Refusal :=
  let i := Ix.of s h
  let b := num.toNat
  .next (i.run do
    i.checkSources [{ o := o.b, n := 1, bit := h.eb }] i.g
    i.notInHandler
    i.checkRelease true .cast
    let n := barCount (i.uniform o.b .w32).bits.toNat
    match i.reopened b with
    | none => pure (i.s.openBarrier i.h.cast b)
    | some i =>
      let s1 := i.arrive (i.countUse (i.poisonLanes o.b 1 i.g ≠ 0) i.s) b n arv
      let stay : LaneMask := if arv then 0 else i.g
      let go := i.e.mask &&& ~~~stay
      let s2 := s1.modFrag i.f fun x =>
        let y := i.drainAfter false true .cast x
        let z := if go = 0 then y else y.complete i.e.prio i.e.pc i.next go
        if stay = 0 then z else z.waitAt i.e.prio i.e.pc (.bar num)
      pure (s2.openBarrier i.h.cast b))

/-! ### Yield, sleep, NOP and the software traps (R94, R314, R353, R358) -/

/-- YIELD: the hoist moves to the pending set, ready from this clock (R314). -/
def execYield (h : Hdr) (_ : Ops) (s : State) : Host.Outcome State Fault Refusal :=
  let i := Ix.of s h
  let part := i.x.slot / 32
  .next (i.run (.ok (i.done (i.s.modCore i.x.gc fun c => { c with
    active := Sparse.set [] c.active part ((Sparse.get [] c.active part).filter (· ≠ i.x.slot))
    readyAt := Sparse.set 0 c.readyAt i.x.slot i.s.now }))))

/-- SLEEP (R353). -/
def execSleep (h : Hdr) (o : Ops) (s : State) : Host.Outcome State Fault Refusal :=
  let i := Ix.of s h
  .next (i.run do
    i.checkSources [{ o := o.b, n := 1, bit := h.eb }] i.g
    let n := (i.uniform o.b .w32).bits.toNat % 2 ^ 24
    let s1 := i.done (i.countUse (i.poisonLanes o.b 1 i.g ≠ 0) i.s)
    pure (if n = 0 then s1 else s1.modFrag i.f fun x => { x with sleep := some (i.s.now + n) }))

/-- NOP (R94). -/
def execNop (h : Hdr) (_ : Ops) (s : State) : Host.Outcome State Fault Refusal :=
  let i := Ix.of s h
  .next (i.done i.s)

/-- TRAP (R358); the handler reads the code from the instruction itself. -/
def execTrap (h : Hdr) (_ : Ops) (_ : BitVec 8) (s : State) : Host.Outcome State Fault Refusal :=
  let i := Ix.of s h
  .next (i.run (.error (.trap Cause.swtrap 0 i.g)))

/-- BKPT (R358). -/
def execBkpt (h : Hdr) (_ : Ops) (s : State) : Host.Outcome State Fault Refusal :=
  let i := Ix.of s h
  .next (i.run (.error (.trap Cause.bkpt 0 i.g)))

end Sys2Proof.Machine
end

