-- ==== Sys2Proof/Machine/Image.lean ====
section
/-! DEFINITION. The parking areas of the hearths (R51, R404, R432): the images of parked fragments, of anchor slots and of
casts, byte by byte as R45, R46 and R404 lay them out; where they stand, and whether one of them is poisoned (R418). The
fragments and the casts themselves stay in the state beside their images. -/

namespace Sys2Proof.Machine

/-- The accumulator banks that each cast takes (R73). -/
def Pour.banks (p : Pour) : Nat := field (p.word 0x38 4) 15 14

/-! ### The parking area (R51, R432) -/

/-- The bytes of a parking area (R432). -/
def parkingArea : Nat := 768 * 2 ^ 20

/-- The parking area of a hearth: the first part of its reserved space (R432). -/
def parkingBase (gh : Nat) : Nat := paOf gh 0xBC0000000

/-- The place behind an image, at a multiple of 32 bytes. -/
def Image.stop (m : Image) : Nat := (m.pa + m.len + 31) / 32 * 32

/-- An image and the bytes from `pa` on have none in common. -/
def Image.apart (m : Image) (pa len : Nat) : Bool := decide (pa + len ≤ m.pa ∨ m.pa + m.len ≤ pa)

/-- The lowest number of a list. -/
def lowest : List Nat → Option Nat
  | [] => none
  | a :: l => some (l.foldl min a)

/-- Where an image of `len` bytes goes in the parking area of a hearth: at its start or behind an image, as low as it can.
DESIGN CHOICE (log 56). -/
def State.spot (s : State) (gh len : Nat) : Option Nat :=
  let l := (s.hearth gh).images
  lowest ((l.map Image.stop ++ [parkingBase gh]).filter fun a =>
    decide (parkingBase gh ≤ a ∧ a + len ≤ parkingBase gh + parkingArea) && l.all fun m => m.apart a len)

/-- Bytes of a hearth's parking area in use. -/
def State.parkedBytes (s : State) (gh : Nat) : Nat := (s.hearth gh).images.foldl (fun n m => n + m.len) 0

/-! ### Writing an image -/

/-- A field of an image: its offset, its bytes and its value. -/
structure Piece where
  ofs  : Nat
  size : Nat
  val  : Nat
  deriving DecidableEq, Repr

/-- The bytes from `pa` on hold zero, and no mark. -/
def State.clearRange (s : State) (pa len : Nat) : State :=
  let hit (a : Nat) : Bool := decide (pa ≤ a ∧ a < pa + len)
  { s with mem := s.mem.filter fun c => !hit c.1, marks := s.marks.filter fun m => !hit (4 * m.1) }

/-- The fields of an image of `len` bytes are written; everything else in it is zero. -/
def State.putPieces (s : State) (pa len : Nat) (ps : List Piece) : State :=
  ps.foldl (fun a q => if q.val = 0 ∨ len < q.ofs + q.size then a else a.writeLE (pa + q.ofs) q.size q.val) s

/-- An image is written to the parking area of a hearth. -/
def State.putImage (s : State) (gh : Nat) (owner : ImgOwner) (len : Nat) (ps : List Piece) : State :=
  match s.spot gh len with
  | some pa => ((s.clearRange pa len).putPieces pa len ps).modHearth gh fun h => { h with images := h.images ++ [{ owner, pa, len }] }
  | none => s

/-- Images of a hearth are read for the last time: their space is free. -/
def State.dropImages (s : State) (gh : Nat) (p : ImgOwner → Bool) : State :=
  s.modHearth gh fun h => { h with images := h.images.filter fun m => !p m.owner }

/-- The address of a poisoned word in an image (R418). -/
def State.badWord (s : State) (m : Image) : Option Nat :=
  (s.marks.find? fun q => q.2 && decide (m.pa ≤ 4 * q.1 ∧ 4 * q.1 < m.pa + m.len)).map fun q => 4 * q.1

/-- The first poisoned word in the images of a hearth that have certain owners (R418). -/
def State.badImage (s : State) (gh : Nat) (p : ImgOwner → Bool) : Option Nat :=
  ((s.hearth gh).images.filter fun m => p m.owner).findSome? s.badWord

/-- The sequence number that a core gives to an image (R27, R45, R404). -/
def State.imageSeq (s : State) (gc : Nat) : Word := s.nextSeq (coreSrc gc 0 7)

/-- A core has numbered an image. -/
def State.numberImage (s : State) (gc : Nat) : State := s.bumpSeq (coreSrc gc 0 7)

/-! ### Ingots (R45, R46, R51) -/

/-- A posted-sequence entry (R45). -/
def PSeq.word (e : PSeq) : Nat := 2 ^ 63 + e.tgt * 2 ^ 53 + e.src / 2 ^ 10 * 2 ^ 33 + e.seq.toNat

/-- The header of an ingot (R45). -/
def State.ingotHead (s : State) (kind hk : Nat) (lanes : LaneMask) (nent len sender : Nat) (seq : Word) (ps : List PSeq) :
    List Piece :=
  let h := s.hoist hk
  let c := s.cast h.cast
  let p := s.pour c.pour
  let flag (b : Bool) (k : Nat) : Nat := if b then k else 0
  [{ ofs := 0, size := 1, val := kind }, { ofs := 1, size := 1, val := p.ctx.toNat }, { ofs := 2, size := 1, val := 0xFF },
   { ofs := 3, size := 1, val := flag (p.flag 3) 1 + flag h.split 2 + flag (p.flag 4) 4 },
   { ofs := 4, size := 4, val := lanes.toNat }, { ofs := 8, size := 1, val := c.anchor / 128 },
   { ofs := 9, size := 1, val := c.anchor % 128 }, { ofs := 0xA, size := 1, val := h.slot }, { ofs := 0xB, size := 1, val := nent },
   { ofs := 0xC, size := 2, val := len }, { ofs := 0xE, size := 2, val := sender }, { ofs := 0x10, size := 4, val := p.count },
   { ofs := 0x14, size := 4, val := seq.toNat }, { ofs := 0x18, size := 8, val := workId p c.index h.index 0 }] ++
    (List.range ps.length).zipWith (fun k e => { ofs := 0x20 + 8 * k, size := 8, val := e.word }) ps

/-- The frontier as an ingot carries it: the repeating entry first (R346), then the others, and those that wait at the end of
the innermost loop. -/
def Frag.carried (x : Frag) : List Entry :=
  let mine (e : Entry) : Bool := x.repeats e.prio e.pc
  x.entries.filter mine ++ (x.entries.filter fun e => !mine e) ++ x.atEnd

/-- The mask registers in the hidden state (R46). -/
def maskPieces (masks : Tab LaneMask) : List Piece :=
  (List.range 12).map fun k => { ofs := 0x58 + 4 * k, size := 4, val := (Sparse.get 0 masks k).toNat }

/-- A loop-stack entry in the hidden state (R46, R340). -/
def LoopEnt.pieces (e : LoopEnt) (ofs : Nat) : List Piece :=
  [{ ofs, size := 4, val := e.count.toNat + e.prio.toNat * 2 ^ 24 }, { ofs := ofs + 4, size := 8, val := e.start.toNat },
   { ofs := ofs + 12, size := 8, val := e.stop.toNat }]

/-- The predicates behind the hidden state (R46): the lanes that an ingot carries. -/
def Hoist.predPieces (h : Hoist) (lanes : LaneMask) : List Piece :=
  (List.range 16).map fun k => { ofs := 224 + 4 * k, size := 4, val := (h.pred (BitVec.ofNat 4 k) &&& lanes).toNat }

/-- The registers of lanes of a hoist from allotment register `base` on, `n` of them, 4 bytes for each lane in ascending
order (R46). -/
def Hoist.regPieces (h : Hoist) (base n : Nat) (lanes : LaneMask) (ofs : Nat) : List Piece :=
  let count := (lanesOf lanes).length
  h.vregs.filterMap fun q =>
    let r := q.1 / 32
    let l := q.1 % 32
    if base ≤ r ∧ r < base + n ∧ lanes.getLsbD l then
      some { ofs := ofs + 4 * ((r - base) * count + ((lanesOf lanes).filter fun j => decide (j < l)).length), size := 4,
             val := q.2.toNat }
    else none

/-- Bytes of a parked ingot (R46, R51). -/
def Frag.parkedBytes (x : Frag) : Nat :=
  (288 + 256 * (lanesOf x.lanes).length + 512 + 16 * (x.carried.length - 1) + 31) / 32 * 32

/-- A parked ingot: header, hidden state, predicates, the whole window, the scalars and the further entries (R45, R46, R51). DEDUCED (log 106). -/
def State.ingotPieces (s : State) (f : Nat) (anchor : Bool) (sender : Nat) (seq : Word) : List Piece :=
  let x := s.frag f
  let h := s.hoist x.hoist
  let es := x.carried
  let n := 256 * (lanesOf x.lanes).length
  let e := es.headD { prio := 0, pc := 0, mask := 0, wait := none }
  s.ingotHead 1 x.hoist x.lanes es.length x.parkedBytes sender seq x.pseq ++
    [{ ofs := 0x40, size := 8, val := e.pc.toNat }, { ofs := 0x48, size := 4, val := e.mask.toNat },
     { ofs := 0x4C, size := 1, val := e.prio.toNat }, { ofs := 0x4D, size := 1, val := x.wbase / 8 },
     { ofs := 0x4E, size := 1, val := x.loops.length }, { ofs := 0x50, size := 4, val := x.repc.toNat }] ++
    maskPieces (if h.split && !anchor then x.mcopy else h.masks) ++
    ((List.range x.loops.length).zipWith (fun k (e : LoopEnt) => e.pieces (0x88 + 20 * k)) x.loops).flatten ++
    h.predPieces x.lanes ++ h.regPieces x.wbase 64 x.lanes 288 ++
    x.sregs.map (fun q => { ofs := 288 + n + 8 * q.1, size := 8, val := q.2.toNat }) ++
    ((List.range (es.length - 1)).zipWith (fun k (e : Entry) =>
      let o := 800 + n + 16 * k
      [{ ofs := o, size := 8, val := e.pc.toNat }, { ofs := o + 8, size := 4, val := e.mask.toNat },
       { ofs := o + 12, size := 1, val := e.prio.toNat }]) (es.drop 1)).flatten

/-- A parked fragment is written to the parking area of a hearth: by a core, with its next number, or as an ingot that a core
had sent, with the number of that ingot (R45, R51, R52). -/
def State.putIngot (s : State) (f gh : Nat) (anchor : Bool) (sender : Nat) (seq : Word) : State :=
  s.putImage gh (.ingot f) (s.frag f).parkedBytes (s.ingotPieces f anchor sender seq)

/-- The window base of a hoist at its anchor: that of the fragment that stands there. -/
def State.anchorBase (s : State) (hk : Nat) : Nat :=
  let fs := s.hoistFrags hk
  let own (f : Nat) : Bool := match (s.frag f).place with | .parked _ _ a => a | _ => false
  match fs.find? own with
  | some f => (s.frag f).wbase
  | none => match fs with
    | f :: _ => (s.frag f).wbase
    | [] => 0

/-- Bytes of an anchor image for an allotment (R46). -/
def anchorBytes (allot : Nat) : Nat := (288 + 128 * (allot - 64) + 31) / 32 * 32

/-- An anchor image: header, hidden state, the predicates, and the registers of the allotment below and above the window, for
all 32 lanes (R46, R51). DEDUCED (log 106). -/
def State.anchorPieces (s : State) (hk : Nat) (seq : Word) : List Piece :=
  let h := s.hoist hk
  let c := s.cast h.cast
  let allot := (s.pour c.pour).allot
  let b := s.anchorBase hk
  s.ingotHead 2 hk (BitVec.allOnes 32) 0 (anchorBytes allot) c.anchor seq [] ++ [{ ofs := 0x4D, size := 1, val := b / 8 }] ++
    maskPieces h.masks ++ h.predPieces (BitVec.allOnes 32) ++ h.regPieces 0 b (BitVec.allOnes 32) 288 ++
    h.regPieces (b + 64) (allot - 64 - b) (BitVec.allOnes 32) (288 + 128 * b)

/-! ### Cast images (R404) -/

/-- Bits at the places listed, from a byte offset on. -/
def bitPieces (ofs : Nat) (ks : List Nat) : List Piece :=
  ks.map fun k => { ofs := ofs + k / 8, size := 1,
                    val := (List.range 8).foldl (fun n j => if ks.contains (k / 8 * 8 + j) then n + 2 ^ j else n) 0 }

/-- The places of the marks of a table. -/
def markedAt (t : Tab Bool) : List Nat := (t.filter Prod.snd).map Prod.fst

/-- The accepted instructions of a context that have not started, with their positions (R208, R404). -/
def MCtx.pending (m : MCtx) : List (Nat × MInst) :=
  ((List.range m.queue.length).zip m.queue).filter fun q => !q.2.running && q.2.posted.isNone

/-- The metadata registers of an instruction (R194). -/
def MOp.metaWords : MOp → List Word
  | .mac _ _ _ _ ws _ => ws
  | _ => []

/-- A pending matrix instruction (R404). -/
def pendingPieces (ofs : Nat) (k : Bool) (q : Nat × MInst) : List Piece :=
  let v := q.2.saved
  let ws := q.2.op.metaWords
  [{ ofs, size := 16, val := v.word.toNat }, { ofs := ofs + 16, size := 8, val := v.sa.toNat },
   { ofs := ofs + 24, size := 8, val := v.sb.toNat }, { ofs := ofs + 32, size := 4, val := v.sc.toNat },
   { ofs := ofs + 36, size := 1, val := if k then 1 else 0 }, { ofs := ofs + 37, size := 1, val := q.1 }] ++
    (List.range ws.length).zipWith (fun j (w : Word) => { ofs := ofs + 64 + 4 * j, size := 4, val := w.toNat }) ws

/-- A bank with its marks (R404). -/
def MCtx.pieces (m : MCtx) (ofs : Nat) : List Piece :=
  m.bank.map (fun q => { ofs := ofs + 4 * q.1, size := 4, val := q.2.toNat }) ++ bitPieces (ofs + 131072) (markedAt m.marks)

/-- The peer of a context in a binding: its gang rank and its context (R404). -/
def State.bindPeer (s : State) (c : Nat) (m : MCtx) : Nat :=
  let rank (q : Nat × Bool) : Nat := q.1 % 2 ^ 64 - (s.pour (c / 2 ^ 64)).gangBase (c % 2 ^ 64) + if q.2 then 2 ^ 10 else 0
  match m.leads, m.follows with
  | some q, _ => rank q
  | none, some q => rank q
  | none, none => 0

/-- The accumulator banks in a cast's image. -/
def State.imageBanks (s : State) (c : Nat) : Nat := (s.pour (s.cast c).pour).banks

/-- The pending instructions in a cast's image. -/
def Cast.pending (x : Cast) : List (Bool × Nat × MInst) :=
  x.c0.pending.map (fun q => (false, q)) ++ x.c1.pending.map (fun q => (true, q))

/-- The offset of the pending instructions in a cast's image, and of its scratchpad. -/
def State.pendingOfs (s : State) (c : Nat) : Nat := 2624 + 135168 * s.imageBanks c
/-- The offset of the scratchpad in a cast's image. -/
def State.spadOfs (s : State) (c : Nat) : Nat := s.pendingOfs c + 16448 * (s.cast c).pending.length

/-- Bytes of a cast image (R404). -/
def State.imageBytes (s : State) (c : Nat) : Nat :=
  let n := (s.pour (s.cast c).pour).spad
  s.spadOfs c + n + n / 32

/-- A cast image (R404). -/
def State.castPieces (s : State) (c : Nat) (seq : Word) : List Piece :=
  let x := s.cast c
  let p := s.pour x.pour
  let bit (b : Bool) (k : Nat) : Nat := if b then k else 0
  [{ ofs := 0, size := 4, val := p.count }, { ofs := 4, size := 4, val := x.index }, { ofs := 8, size := 1, val := p.ctx.toNat },
   { ofs := 9, size := 1, val := x.anchor % 128 }, { ofs := 0xA, size := 1, val := p.spad / 65536 },
   { ofs := 0xB, size := 1, val := p.banks }, { ofs := 0xC, size := 1, val := p.hoists },
   { ofs := 0xD, size := 1, val := bit x.psent 1 + bit x.wake 2 + bit x.held 4 + bit (p.flag 0) 8 },
   { ofs := 0xE, size := 1, val := x.pending.length },
   { ofs := 0xF, size := 1, val := bit x.c0.leads.isSome 1 + bit x.c1.leads.isSome 2 + bit x.c0.follows.isSome 4 +
                                   bit x.c1.follows.isSome 8 },
   { ofs := 0x10, size := 4, val := seq.toNat }, { ofs := 0x14, size := 2, val := s.bindPeer c x.c0 },
   { ofs := 0x16, size := 2, val := s.bindPeer c x.c1 }, { ofs := 0x18, size := 8, val := s.imageBytes c }] ++
    x.queues.flatMap (fun q =>
      [{ ofs := 64 + 16 * q.1, size := 8, val := q.2.bind.toNat }, { ofs := 72 + 16 * q.1, size := 4, val := q.2.head },
       { ofs := 76 + 16 * q.1, size := 4, val := q.2.tail }]) ++
    x.bars.flatMap (fun q =>
      q.2.arrived.map (fun r => { ofs := 320 + 144 * q.1 + 4 * r.1, size := 4, val := r.2.toNat }) ++
        [{ ofs := 448 + 144 * q.1, size := 2, val := q.2.count.getD 0 }]) ++
    (if 1 ≤ s.imageBanks c then x.c0.pieces 2624 else []) ++ (if 2 ≤ s.imageBanks c then x.c1.pieces (2624 + 135168) else []) ++
    ((List.range x.pending.length).zipWith (fun k q => pendingPieces (s.pendingOfs c + 16448 * k) q.1 q.2) x.pending).flatten ++
    x.spad.map (fun q => { ofs := s.spadOfs c + q.1, size := 1, val := q.2.toNat }) ++
    bitPieces (s.spadOfs c + p.spad) (markedAt x.spoison)

/-- A parked cast leaves its image and the images of its anchor slots with the hearth of its anchor core (R51, R404). -/
def State.putCast (s : State) (c : Nat) : State :=
  let gc := (s.cast c).anchor
  let gh := coreHearth gc
  let s1 := (s.putImage gh (.cast c) (s.imageBytes c) (s.castPieces c (s.imageSeq gc))).numberImage gc
  (s1.castHoists c).foldl (fun a hk =>
    (a.putImage gh (.anchor hk) (anchorBytes (a.pour (a.cast c).pour).allot) (a.anchorPieces hk (a.imageSeq gc))).numberImage gc) s1

/-! ### What a resumption reads (R405, R418) -/

/-- The images that a cast's resumption reads: its own, those of its anchor slots, and those of the fragments that had left
their anchor slots. -/
def State.readsAt (s : State) (c : Nat) (o : ImgOwner) : Bool :=
  match o with
  | .cast k => decide (k = c)
  | .anchor hk => decide (hk / 32 = c)
  | .ingot f => let x := s.frag f
    decide ((s.hoist x.hoist).cast = c) && (match x.place with | .parked _ _ a => a | _ => false)
  | .engine .. => false

/-- The first poisoned word that the resumption of casts would read. -/
def State.badCasts (s : State) (gh : Nat) (cs : List Nat) : Option Nat :=
  cs.findSome? fun c => s.badImage gh (s.readsAt c)

end Sys2Proof.Machine
end

