-- ==== Sys2Proof/Machine/Place.lean ====
section
/-! DEFINITION. Room on cores (R35, R75, R308, R309), the states of a cast (R323), the state of a new hoist (R70),
placement queues (R308), and parking (R51, R63, R208, R397). -/

namespace Sys2Proof.Machine

/-! ### Fields of a pour record (R300) -/

/-- The granules that each cast takes (R73). -/
def Pour.granules (p : Pour) : Nat :=
  field (p.word 0x38 4) 6 0 + field (p.word 0x38 4) 13 7 + 2 * field (p.word 0x38 4) 15 14
/-- The hoists of a cast that take a slot in a partition (R35). -/
def Pour.inPart (p : Pour) (part : Nat) : Nat := (p.hoists + 3 - part) / 4
/-- The number of casts (R32). -/
def Pour.casts (p : Pour) : Nat := p.extent 0 * p.extent 1 * p.extent 2 * p.extent 3
/-- The pour was launched RESIDENT (R301). -/
def Pour.resident (p : Pour) : Bool := p.flag 0
/-- The pour is live: it has been accepted and has not ended (R304). -/
def Pour.live (p : Pour) : Bool := !(p.st ∈ [.none, .done, .killed])

/-! ### Room (R35, R75, R308, R309) -/

/-- The granules of a core that its casts hold (R73). -/
def State.castGranules (s : State) (gc : Nat) : BitVec 96 :=
  s.casts.foldl (fun a q => if q.2.anchor = gc then a ||| q.2.granules else a) 0

/-- The granules of a core that hold a visitor block: eight blocks of 8 KiB to a granule (R75). -/
def Core.visitorGranules (c : Core) : BitVec 96 :=
  c.blocks.foldl (fun a q => a ||| BitVec.ofNat 96 (2 ^ (q.1 / 8))) 0

/-- The free granules of a core, in ascending order (R75). -/
def State.freeGranules (s : State) (gc : Nat) : List Nat :=
  let used := s.castGranules gc ||| (s.core gc).visitorGranules
  (List.range 96).filter fun g => !used.getLsbD g

/-- The accumulator banks of a core that its casts hold (R75). -/
def State.banksUsed (s : State) (gc : Nat) : Nat :=
  s.casts.foldl (fun n q => if q.2.anchor = gc ∧ q.2.granules ≠ 0 then n + (s.pour q.2.pour).banks else n) 0

/-- A hoist slot of a core is free. -/
def Core.slotFree (c : Core) (k : Nat) : Bool :=
  (Sparse.get none c.anchors k).isNone && (Sparse.get none c.visitors k).isNone

/-- The free slots of a partition of a core, in ascending order (R35). -/
def Core.freeSlots (c : Core) (part : Nat) : List Nat :=
  ((List.range 32).map fun k => 32 * part + k).filter c.slotFree

/-- The casts of a pour that hold room on a core. -/
def State.holdsOn (s : State) (p gc : Nat) : Nat :=
  (s.casts.filter fun q => q.2.pour = p && ofPour p q.1 && q.2.anchor = gc && q.2.granules ≠ 0).length

/-- The room that other RESIDENT pours have reserved on a core and not filled: each with its number of casts (R309). -/
def State.heldBack (s : State) (p gc : Nat) : List (Pour × Nat) :=
  (s.pours.filter fun q => q.1 ≠ p && q.2.live && decide (s.holdsOn q.1 gc < Sparse.get 0 q.2.resv gc)).map fun q =>
    (q.2, Sparse.get 0 q.2.resv gc - s.holdsOn q.1 gc)

/-- The sum of a need over reservations. -/
def needOf (f : Pour → Nat) (l : List (Pour × Nat)) : Nat := l.foldl (fun n q => n + q.2 * f q.1) 0

/-- A core has the room that one more cast of a pour needs (R75, R308, R309). -/
def State.coreFits (s : State) (p gc : Nat) : Bool :=
  let q := s.pour p
  let back := s.heldBack p gc
  decide (q.granules + needOf Pour.granules back ≤ (s.freeGranules gc).length) &&
    decide (q.banks + needOf Pour.banks back + s.banksUsed gc ≤ 2) &&
    (List.range 4).all fun part =>
      decide (q.inPart part + needOf (fun x => x.inPart part) back ≤ ((s.core gc).freeSlots part).length)

/-- The cores of a hearth. -/
def coresOf (gh : Nat) : List Nat := (List.range 8).map fun k => 8 * gh + k

/-- The element of a list that is best by a measure; the first among equals. -/
def bestBy (f : Nat → Nat) : List Nat → Option Nat
  | [] => .none
  | x :: xs =>
    match bestBy f xs with
    | some y => if f x < f y then some y else some x
    | .none => some x

/-- The anchor core of a cast to start: the core that fits with the most free granules, the lowest among equals (R308). -/
def State.anchorFor (s : State) (p gh : Nat) : Option Nat :=
  bestBy (fun gc => (s.freeGranules gc).length) ((coresOf gh).filter (s.coreFits p))

/-- Bits of a list of granules. -/
def granuleBits (l : List Nat) : BitVec 96 := l.foldl (fun a g => a ||| BitVec.ofNat 96 (2 ^ g)) 0

/-- A cast takes its granules on a core: the lowest that are free. DESIGN CHOICE (log 52). -/
def State.takeGranules (s : State) (c gc : Nat) : State :=
  let n := (s.pour (s.cast c).pour).granules
  let bits := granuleBits ((s.freeGranules gc).take n)
  s.modCast c fun x => { x with anchor := gc, granules := bits }

/-- A RESIDENT pour whose cast has started on a core beyond its reservation there moves one from another core of the hearth: what it has
reserved is room on the hearth (R308, R309). DEDUCED (log 53). -/
def State.fillResv (s : State) (p gc : Nat) : State :=
  let q := s.pour p
  if !q.resident || decide (s.holdsOn p gc ≤ Sparse.get 0 q.resv gc) then s
  else match (coresOf (coreHearth gc)).find? fun k => decide (s.holdsOn p k < Sparse.get 0 q.resv k) with
    | some k => s.setPour p { q with
        resv := Sparse.set 0 (Sparse.set 0 q.resv k (Sparse.get 0 q.resv k - 1)) gc (Sparse.get 0 q.resv gc + 1) }
    | none => s

/-! ### The life of a cast (R320, R323) -/

/-- The code of a state. -/
def CastState.code : CastState → Nat
  | .notReleased => 0
  | .released => 1
  | .placed => 2
  | .running => 3
  | .raised => 4
  | .retired => 5
  | .parked => 6

/-- The physical address of a byte of the scoreboard area, by the pages pinned at acceptance (R322). -/
def Pour.sbPa (p : Pour) (ofs : Nat) : Nat :=
  let va := p.word 0x68 8 + ofs
  match p.sbPages.find? fun q => q.1 = va / 65536 with
  | some q => q.2 + va % 65536
  | .none => 0

/-- The offset of a cast's entry (R320). -/
def sbEntry (i : Nat) : Nat := 64 + 8 * i

/-- A hearth's sequencer posts writes to their home (R323). -/
def State.postWrites (s : State) (gh : Nat) (ctx : BitVec 8) (ws : List WriteOp) : State :=
  match ws with
  | [] => s
  | w :: _ => s.send (seqrSrc gh) (if paHost w.pa then 1024 + gh / 16 else paHearth w.pa) ctx false none (.store ws)

/-- A plain write. -/
def WriteOp.clean (pa size v : Nat) : WriteOp := { pa, size, val := BitVec.ofNat 64 v, poison := false }

/-- A cast changes its state; the placement hearth posts the change to the entry of a DEPS pour, and traces it for a TRACE
pour (R323, R421). -/
def State.setCastState (s : State) (gh c : Nat) (st : CastState) : State :=
  let s1 := s.modCast c fun x => { x with st }
  let x := s1.cast c
  let p := s1.pour x.pour
  let s2 :=
    if p.flag 4 && decide (3 ≤ st.code) then
      s1.traceRecord gh (seqrSrc gh) (0x80 + st.code) p.ctx.toNat 0 0
    else s1
  if p.deps then
    let a := p.sbPa (sbEntry (c % 2 ^ 64))
    s2.postWrites gh p.ctx
      (WriteOp.clean a 1 (st.code + if x.psent then 8 else 0) ::
        (if st = .running then [WriteOp.clean (a + 2) 1 (x.anchor % 128)] else []))
  else s2

/-! ### Placement queues (R307, R308) -/

/-- The context of a pour is being saved, or is saved, on its package (R402). -/
def State.ctxSaved (s : State) (pkg : Nat) (ctx : BitVec 8) : Bool := (s.pkg pkg).savedCtxs.getLsbD ctx.toNat

/-- An entry joins the tail of a placement queue (R308). -/
def State.enqueue (s : State) (gh p : Nat) (casts : List Nat) (resume : Bool) : State :=
  if casts.isEmpty then s
  else
    let e : QEnt := { pour := p, casts, resume, order := s.nextOrd, waited := false }
    { (s.modHearth gh fun h => { h with pqueue := h.pqueue ++ [e] }) with nextOrd := s.nextOrd + 1 }

/-- The entry of a placement queue that acts as head (R308). -/
def State.head (s : State) (gh : Nat) : Option QEnt :=
  (s.hearth gh).pqueue.find? fun e => !s.ctxSaved (gh / 16) (s.pour e.pour).ctx

/-- The slots of a parked cast's hoists are free on its anchor core (R29). DEDUCED (log 54). -/
def State.ownSlotsFree (s : State) (c : Nat) : Bool :=
  (s.castHoists c).all fun hk => (s.core (s.cast c).anchor).slotFree (s.hoist hk).slot

/-- A parked cast can return to its anchor core. DEDUCED (log 54). -/
def State.canReturn (s : State) (c : Nat) : Bool :=
  let x := s.cast c
  let p := s.pour x.pour
  let back := s.heldBack x.pour x.anchor
  decide (p.granules + needOf Pour.granules back ≤ (s.freeGranules x.anchor).length) &&
    decide (p.banks + needOf Pour.banks back + s.banksUsed x.anchor ≤ 2) && s.ownSlotsFree c &&
    (List.range 4).all fun part =>
      decide (p.inPart part + needOf (fun y => y.inPart part) back ≤ ((s.core x.anchor).freeSlots part).length)

/-! ### New hoists (R35, R70) -/

/-- A hoist as it is created (R70). -/
def Hoist.new (cast index slot : Nat) : Hoist := { Hoist.dead with live := true, cast, index, slot }

/-- The fragment of a new hoist (R70). -/
def Frag.new (p : Pour) (hk gc slot i : Nat) : Frag :=
  { Frag.dead with
    live := true, hoist := hk, lanes := BitVec.allOnes 32, place := .core gc slot
    entries := [{ prio := BitVec.ofNat 8 (p.word 0x26 1), pc := BitVec.ofNat 64 (p.word 0 8), mask := BitVec.allOnes 32,
                  wait := none }]
    sregs := Sparse.set 0 (Sparse.set 0 [] 0 (BitVec.ofNat 64 (p.word 8 8))) 1 (BitVec.ofNat 64 i) }

/-- Hoist `h` of a cast is created in the lowest free slot of its partition (R35). DESIGN CHOICE (log 52). -/
def State.newHoist (s : State) (c h : Nat) : State :=
  let x := s.cast c
  let slot := ((s.core x.anchor).freeSlots (h % 4)).headD 0
  let hk := hoistKey c h
  let s1 := (s.setHoist hk (Hoist.new c h slot)).setFrag s.nextFrag (Frag.new (s.pour x.pour) hk x.anchor slot (c % 2 ^ 64))
  { s1.modCore x.anchor fun k => { k with
      anchors := Sparse.set none k.anchors slot (some hk)
      readyAt := Sparse.set 0 k.readyAt slot s.now
      issuedAt := Sparse.set 0 k.issuedAt slot 0 } with nextFrag := s.nextFrag + 1 }

/-- The acquire of R240 is of the core class for some edge of a cast that starts on core `gc`: the edge scope is, and so is the
pair's, because a predecessor has its anchor there. DEDUCED (log 58). -/
def State.nearEdge (s : State) (c gc : Nat) : Bool :=
  let p := s.pour (c / 2 ^ 64)
  p.deps && decide (p.word 0x51 1 ≤ 2) &&
    (p.preds (c % 2 ^ 64)).any fun i => decide ((s.cast (castKey (c / 2 ^ 64) i)).anchor = gc)

/-- A cast starts on its anchor core: its hoists are created, with its scratchpad and its banks zero (R70, R180, R219). The
successor's acquire of R240 leaves a drain mark when the pair's scope is of the core class (R231). DEDUCED (log 58). -/
def State.newCast (s : State) (gh c gc : Nat) : State :=
  let s1 := ((s.takeGranules c gc).fillResv (c / 2 ^ 64) gc).modCast c fun x => { x with
    started := true, quantum := none, spad := [], spoison := [], queues := [], bars := [], c0 := .empty, c1 := .empty
    startedAt := s.now }
  let p := s.pour (s.cast c).pour
  let s2 := (List.range p.hoists).foldl (fun a h => a.newHoist c h) s1
  let s3 :=
    if s.nearEdge c gc then
      { s2 with frags := s2.frags.map fun q =>
          if (s2.hoist q.2.hoist).cast = c ∧ q.2.live then (q.1, { q.2 with drain := some (s2.core gc).sent }) else q }
    else s2
  s3.setCastState gh c .running

/-! ### Resumption (R52, R308, R330, R405) -/

/-- A parked fragment of a cast returns to its anchor slot, or joins the parked arrivals of its hearth; where the hearth's package saves
the context it stays until that resumes (R52). -/
def State.readmit (s : State) (f : Nat) : State :=
  let x := s.frag f
  match x.place with
  | .parked gh false true =>
    let h := s.hoist x.hoist
    let gc := (s.cast h.cast).anchor
    if coreHearth gc = gh then
      let t := (s.dropImages gh (· = .ingot f)).setFrag f { x with place := .core gc h.slot, backoff := 64 }
      if s.slotReady gc h.slot then t
      else t.modCore gc fun k => { k with readyAt := Sparse.set 0 k.readyAt h.slot s.now }
    else s
  | .parked gh false false =>
    if s.ctxSaved (gh / 16) (s.ctxOf x) then s
    else (s.setFrag f { x with place := .parked gh true false }).modHearth gh fun k => { k with arrivals := k.arrivals ++ [f] }
  | _ => s

/-- The fragments of a cast in the order in which they are admitted again: those that had left their anchor slots, and then the
others in the order in which their ingots reached the hearths (R39, R52). -/
def State.admitOrder (s : State) (c : Nat) : List Nat :=
  let fs := s.castFrags c
  let own (f : Nat) : Bool := match (s.frag f).place with | .parked _ _ a => a | _ => false
  let ingot (m : Image) : Option Nat := match m.owner with | .ingot f => some f | _ => none
  let imaged := (s.hearths.flatMap fun q => q.2.images.filterMap ingot).filter fun f => fs.contains f && !own f
  fs.filter own ++ imaged ++ fs.filter fun f => !own f && !imaged.contains f

/-- The saved matrix instructions of a resumed cast have run, and its fragments are admitted (R208, R405). -/
def State.admitResumed (s : State) (c : Nat) : State :=
  let x := s.cast c
  if x.resuming && x.c0.queue.isEmpty && x.c1.queue.isEmpty then
    (s.admitOrder c).foldl State.readmit (s.modCast c fun y => { y with resuming := false })
  else s

/-- A parked cast resumes on its anchor core, which reads its images; its fragments follow once its saved matrix instructions have
run (R308, R330, R405). -/
def State.resumeCast (s : State) (gh c : Nat) : State :=
  let gc := (s.cast c).anchor
  let whole (o : ImgOwner) : Bool := match o with | .ingot _ => false | _ => s.readsAt c o
  let s0 := s.dropImages gh whole
  let s1 := (s0.takeGranules c gc).modCast c fun x => { x with
    quantum := none, held := false, saved := false, startedAt := s.now, resuming := true }
  let s2 := (s1.castHoists c).foldl (fun a hk => a.modCore gc fun k => { k with
    anchors := Sparse.set none k.anchors (a.hoist hk).slot (some hk)
    readyAt := Sparse.set 0 k.readyAt (a.hoist hk).slot s.now
    issuedAt := Sparse.set 0 k.issuedAt (a.hoist hk).slot 0 }) s1
  (((s2.setCastState gh c (if (s2.cast c).psent then .raised else .running)).retireFrees (c, false)).retireFrees (c, true)).admitResumed c

/-! ### Starting an entry of a queue (R308) -/

/-- The casts of an entry take their room one after another, or the entry has no room (R308). -/
def State.startCasts (s : State) (gh : Nat) (resume : Bool) : List Nat → Option State
  | [] => some s
  | c :: cs =>
    if resume then (if s.canReturn c then (s.resumeCast gh c).startCasts gh resume cs else none)
    else match s.anchorFor (s.cast c).pour gh with
      | some gc => (s.newCast gh c gc).startCasts gh resume cs
      | none => none

/-- The head starts, without regard to Bellows: it leaves the queue, and its casts run. -/
def State.startHead (s : State) (gh : Nat) (e : QEnt) : Option State :=
  let s1 := s.modHearth gh fun h => { h with pqueue := h.pqueue.filter fun q => q.order ≠ e.order }
  (s1.startCasts gh e.resume e.casts).map fun s2 =>
    s2.modPour e.pour fun p => { p with admits := p.admits ++ e.casts }

/-! ### Parking (R51, R63, R208, R397) -/

/-- An instruction of a cast is on an array, or has been given one. -/
def State.onArray (s : State) (c : Nat) : Bool :=
  let mine : Option (Nat × Bool) → Bool := fun r => match r with | some q => q.1 = c | none => false
  s.cores.any fun q => mine q.2.running

/-- A context holds an accepted ARD (R208). -/
def MCtx.hasArd (m : MCtx) : Bool := m.queue.any fun i => match i.op with | .ard .. => true | _ => false
/-- A context holds an instruction that has started and has not retired. -/
def MCtx.started (m : MCtx) : Bool := m.queue.any fun i => i.running || i.posted.isSome

/-- A copy engine works for the cast at a segment that it has begun to read: it stops between segments only (R220, R271). -/
def State.engineWrites (s : State) (c : Nat) : Bool :=
  s.cmds.any fun q => q.2.cast = c && q.2.eng = .copy && q.2.stage = .active && q.2.buf.isSome

/-- Everything of a cast that must reach a park has done so: no fragment stands on a core or travels, no instruction runs
on the array, no accepted ARD waits, and no engine is writing its scratchpad (R52, R208, R220). -/
def State.parkDone (s : State) (c : Nat) : Bool :=
  let x := s.cast c
  x.parking && !s.onArray c && !x.c0.hasArd && !x.c1.hasArd && !x.c0.started && !x.c1.started && !s.engineWrites c &&
    (s.castFrags c).all fun f => match (s.frag f).place with | .parked .. => true | _ => false

/-- The gang of a parked cast joins the tail of its placement queue as a whole, once none of it is held or still parks (R36, R208, R308,
R310, R405). DEDUCED (log 55). -/
def State.requeueGang (s : State) (c : Nat) : State :=
  let x := s.cast c
  let gh := coreHearth x.anchor
  let gang := s.gangOf c
  let go := gang.filter fun k =>
    (s.cast k).st = .parked && !((s.hearth gh).pqueue.any fun e => e.casts.contains k)
  if go.isEmpty || gang.any fun k => (s.cast k).held || (s.cast k).parking then s
  else (go.foldl (fun a k => a.modCast k fun y => { y with saved := false }) s).enqueue gh x.pour go true

/-- A parked cast leaves its images and gives up its room; it is held, or waits for the resumption of its context, or joins the tail of its
placement queue, a gang together (R308, R310, R316, R404, R408). DEDUCED (log 55). -/
def State.finishPark (s : State) (c : Nat) : State :=
  if !s.parkDone c then s
  else
    let x := s.cast c
    let gh := coreHearth x.anchor
    let s1 := (s.putCast c).modCore x.anchor fun k => { k.dropCast c with given := k.given.filter fun q => q.1 ≠ c }
    let saved := s.ctxSaved (gh / 16) (s.pour x.pour).ctx
    let s2 := { s1.modCast c fun y => { y with
      parking := false, granules := 0, quantum := none, parkedAt := s.nextOrd, saved := saved && !y.held
      resuming := false } with
      nextOrd := s.nextOrd + 1 }
    let s3 := s2.setCastState gh c .parked
    if saved then s3 else s3.requeueGang c

/-- A fragment starts to park where it stands (R51). -/
def Frag.startPark (x : Frag) (anchor : Nat) : Frag :=
  match x.place with
  | .core gc slot => { x with place := .departing gc slot (coreHearth gc) 0xFF (gc = anchor) true }
  | .departing gc slot _ _ _ _ => { x with place := .departing gc slot (coreHearth gc) 0xFF (gc = anchor) true }
  | .parked gh _ a => { x with place := .parked gh false a }
  | .flight => x

/-- A running cast parks: its fragments stop at their instruction boundaries, and each parks where it stands (R51). -/
def State.beginPark (s : State) (c : Nat) : State :=
  let x := s.cast c
  if x.st ≠ .running ∧ x.st ≠ .raised ∨ x.parking then s
  else
    let fs := s.castFrags c
    let s1 := fs.foldl (fun a f => a.modFrag f fun y => y.startPark x.anchor) (s.modCast c fun y => { y with parking := true })
    let s2 : State := { s1 with hearths := s1.hearths.map fun (q : Nat × Hearth) =>
      (q.1, { q.2 with arrivals := q.2.arrivals.filter fun f => !fs.contains f }) }
    s2.finishPark c

/-- The gang of a cast parks with it (R36, R208). -/
def State.parkGang (s : State) (c : Nat) : State := (s.gangOf c).foldl State.beginPark s

/-- The frontier of a fragment as it parks: handler lanes that have not returned go to the place of the trap (R397), and
every wait, sleep and delay ends (R271, R353). DESIGN CHOICE (log 109). -/
def Frag.parkedForm (x : Frag) : Frag :=
  let y : Frag := match x.trap with
    | none => x
    | some t =>
      { x with
        trap := none
        entries := addEntry x.frozen t.prio0 t.pc0 (entryLanes x.entries ||| entryLanes x.atEnd)
        atEnd := x.frozenEnd, frozen := [], frozenEnd := [] }
  { y with entries := y.entries.map fun e => { e with wait := none, woken := false }, sleep := none, pause := none, hinted := [], seen := none,
           badWalk := [], pinned := [] }

/-- The resident casts of a hearth whose quantum has ended, with the stamp (R310). -/
def State.expired (s : State) (gh : Nat) : List (Nat × Nat) :=
  s.casts.filterMap fun q =>
    match q.2.quantum with
    | some t =>
      if (q.2.st = .running ∨ q.2.st = .raised) ∧ !q.2.parking ∧ coreHearth q.2.anchor = gh ∧ !(s.pour q.2.pour).resident then
        some (t, q.1) else none
    | none => none

/-- The cast whose quantum ended longest ago. -/
def oldest : List (Nat × Nat) → Option Nat
  | [] => none
  | (t, c) :: r =>
    match r.find? fun q => decide (q.1 < t) with
    | some _ => oldest r
    | none => some c

/-- The head of a placement queue lacks room: the resident cast whose quantum ended longest ago parks, with its gang
(R36, R310). -/
def State.makePlace (s : State) (gh : Nat) : State :=
  match s.head gh with
  | none => s
  | some e =>
    if (s.startHead gh e).isSome || s.casts.any (fun q => q.2.parking && coreHearth q.2.anchor = gh) then s
    else match oldest (s.expired gh) with
      | some c => s.parkGang c
      | none => s

end Sys2Proof.Machine
end

