-- ==== Sys2Proof/Machine/Record.lean ====
section
/-! DEFINITION. The pour record at acceptance: the checks of R303 and R318 in their order, dependence vectors (R317), placement
(R306, R307), the RESIDENT check (R309), the scoreboard (R320, R322) and launch counts (R304). -/

namespace Sys2Proof.Machine

/-! ### STATUS values (R303) -/

/-- ACCEPTED. -/
def stAccepted : Nat := 0x0001
/-- DONE. -/
def stDone : Nat := 0x0002
/-- KILLED. -/
def stKilled : Nat := 0x0003
/-- GEOMETRY. -/
def stGeometry : Nat := 0x8001
/-- GANGSIZE. -/
def stGangSize : Nat := 0x8002
/-- ALLOT. -/
def stAllot : Nat := 0x8003
/-- PARTWORD. -/
def stPartWord : Nat := 0x8004
/-- RESERVED. -/
def stReserved : Nat := 0x8005
/-- DEPS. -/
def stDeps : Nat := 0x8006
/-- NORESIDE. -/
def stNoReside : Nat := 0x8007
/-- ACCESS. -/
def stAccess : Nat := 0x8008
/-- FULL. -/
def stFull : Nat := 0x8009
/-- DEP.CYCLE. -/
def stDepCycle : Nat := 0x800E
/-- PARTITION. -/
def stPartition : Nat := 0x800F

/-! ### The checks (R31, R74, R303, R318) -/

/-- A reserved field is set, or a code is out of range. -/
def Pour.badReserved (p : Pour) (launchBits : Bool) : Bool :=
  launchBits || decide (p.word 0x27 1 ≠ 0 ∨ p.word 0x3C 4 ≠ 0 ∨ p.word 0x54 4 ≠ 0 ∨ p.word 0x70 16 ≠ 0 ∨
    32 ≤ p.word 0x36 2 ∨ 5 < p.word 0x51 1)

/-- The first four items of R31. -/
def Pour.badGeometry (p : Pour) : Bool :=
  let w (k : Nat) : Nat := p.word (0x20 + k) 1
  decide (w 0 ≠ 5 ∨ 5 < w 1 ∨ 64 < w 0 + w 1 + w 2 + w 3 + w 4 + w 5) ||
    decide (p.hoists = 0 ∨ 32 < p.hoists ∨ 2 ^ w 1 < p.hoists) ||
    (List.range 4).any (fun k => decide (2 ^ w (k + 2) < p.extent k)) ||
    decide (p.word 0x33 1 < 2 ∨ 6 < p.word 0x33 1)

/-- The items of R74. -/
def Pour.badPartWord (p : Pour) : Bool :=
  decide (65536 ≤ p.word 0x38 4) || decide (p.banks = 3 ∨ p.banks ≠ p.word 0x32 1) || decide (96 < p.granules) ||
    decide (field (p.word 0x38 4) 6 0 * 65536 < p.hoists * p.allot * 128)

/-- The casts that one core holds at once, with `g` granules, `b` banks and slots `t` free. -/
def Pour.perCore (p : Pour) (g b : Nat) (t : Nat → Nat) : Nat :=
  let bySlots := (List.range 4).foldl
    (fun n k => if p.inPart k = 0 then n else min n (t k / p.inPart k)) (g / max 1 p.granules)
  if p.banks = 0 then bySlots else min bySlots (b / p.banks)

/-- One gang does not fit on an empty hearth (R31). -/
def Pour.badGang (p : Pour) : Bool := decide (8 * p.perCore 96 2 (fun _ => 32) < p.gangSize)

/-- DEPS disagrees with the rest of the record (R303, R318). -/
def Pour.badDeps (p : Pour) : Bool :=
  let n := p.depCount
  let sb := p.word 0x68 8
  let g := p.word 0x33 1
  decide (4 < n) || (p.deps != decide (0 < n)) ||
    (if p.deps then
      decide (sb = 0) || decide (2 ^ 26 < p.casts) ||
      (List.range n).any (fun k => (List.range k).any fun j => decide (p.word (0x40 + 4 * k) 4 = p.word (0x40 + 4 * j) 4)) ||
      (decide (2 < g) && (List.range n).any fun k => (List.range 4).all fun j => decide (j < g - 2) || decide (p.dep k j = 0))
    else decide (sb ≠ 0))

/-- A used vector is not lexicographically negative, d3 most significant (R318). -/
def Pour.badCycle (p : Pour) : Bool :=
  (List.range p.depCount).any fun k =>
    match [3, 2, 1, 0].find? fun j => p.dep k j ≠ 0 with
    | some j => decide (0 ≤ p.dep k j)
    | _ => true

/-- An address of the record fails in the pour's context (R303, R382); `cpage` says that it may lie on the control page, where a leaf of the
context may map that (R376). -/
def State.recordBad (s : State) (p : Pour) (va align : Nat) (n : Need) (repl : Bool) (cpage : Bool := false) : Bool :=
  va % align ≠ 0 ||
    match s.walk p.pkg p.ctx.toNat va with
    | none => true
    | some (e, bits, _) =>
      let pa := leafAddr e bits va (16 * p.pkg + p.hearth)
      !n.grants e || (isCpage pa && !cpage) || s.leafBarred p.pkg p.ctx.toNat pa || (leafRepl e && !repl)

/-- The bytes of the scoreboard area (R320). -/
def Pour.sbBytes (p : Pour) : Nat := 64 + 8 * p.casts

/-- Some page of the scoreboard area may not be used (R318). -/
def State.scoreboardBad (s : State) (p : Pour) : Bool :=
  let rw : Need := { r := true, w := true, x := false }
  decide (p.word 0x68 8 % 4096 ≠ 0) || (pagesOf (p.word 0x68 8) p.sbBytes).any fun va =>
    s.recordBad p va 1 rw false ||
      match s.walk p.pkg p.ctx.toNat va with
      | some (e, _, _) => paHost (leafPa e) || s.outside p.pkg p.ctx.toNat (leafPa e)
      | none => true

/-- ACCESS (R303, R318, R382). -/
def State.badAccess (s : State) (p : Pour) : Bool :=
  s.recordBad p (p.word 0 8) 4 { r := false, w := false, x := true } true ||
    s.recordBad p (p.word 8 8) 8 { r := false, w := false, x := false } true true ||
    s.recordBad p (p.word 0x58 8) 16 { r := true, w := false, x := false } true ||
    (p.word 0x10 8 ≠ 0 && s.recordBad p (p.word 0x10 8) 8 { r := false, w := true, x := false } false true) ||
    (p.deps && s.scoreboardBad p)

/-! ### Placement (R306, R307) -/

/-- The hearths of a context's partition on a package, in ascending order. -/
def State.partHearths (s : State) (pkg ctx : Nat) : List Nat :=
  (s.enabledHearths pkg).filter fun gh => decide ((s.pkg pkg).hearthPart gh = (s.pkg pkg).part ctx)

/-- Step 1 of R306. -/
def State.spreadHearth (s : State) (p : Pour) (i : Nat) : Nat :=
  let l := s.partHearths p.pkg p.ctx.toNat
  l.getD ((l.idxOf (16 * p.pkg + p.hearth) + i) % max 1 l.length) (16 * p.pkg + p.hearth)

/-- The hearth that the affinity address of a cast names (R306, step 2). DEDUCED (log 51). -/
def State.affinityHearth (s : State) (p : Pour) (i : Nat) : Option Nat :=
  match p.aff with
  | .none => .none
  | some a =>
    let va := wrapTo (a.toNat + i * signedVal (p.word 0x60 8) 64) 64
    match s.walk p.pkg p.ctx.toNat va with
    | some (e, _, _) =>
      let pa := leafPa e
      if !paHost pa && paHearth pa / 16 = p.pkg && !s.noHome p.pkg pa && !s.outside p.pkg p.ctx.toNat pa then some (paHearth pa)
      else .none
    | none => .none

/-- The placement hearth of the gang of a cast, and whether a placement miss is counted (R306, R307). DEDUCED (log 51). -/
def State.placementHearth (s : State) (p : Pour) (i : Nat) : Nat × Bool :=
  let k := p.gangBase i
  if p.word 0x34 1 = 0xFF then (s.spreadHearth p k, false)
  else match s.affinityHearth p k with
    | some gh => (gh, false)
    | none => (s.spreadHearth p k, true)

/-! ### RESIDENT pours (R309) -/

/-- The casts of a pour placed on a hearth. -/
def State.placedOn (s : State) (p : Pour) (gh : Nat) : Nat :=
  ((List.range p.casts).filter fun i => (s.placementHearth p i).1 = gh).length

/-- The casts that a core takes beside the reservations of other RESIDENT pours. -/
def State.reserveOn (s : State) (p : Pour) (gc want : Nat) : Nat :=
  let others := (s.pours.filter fun q => q.2.live && q.2.resident).map fun q => (q.2, Sparse.get 0 q.2.resv gc)
  let slots (k : Nat) : Nat := 32 - needOf (fun x => x.inPart k) others
  min want (p.perCore (96 - needOf Pour.granules others) (2 - needOf Pour.banks others) slots)

/-- Reservations on the cores of a hearth for `n` casts, and how many find none. -/
def State.reserveHearth (s : State) (p : Pour) (gh n : Nat) (t : Tab Nat) : Tab Nat × Nat :=
  (coresOf gh).foldl (fun q gc =>
    let k := s.reserveOn p gc q.2
    (Sparse.set 0 q.1 gc k, q.2 - k)) (t, n)

/-- The reservation of a whole RESIDENT pour, if every hearth can hold its casts at once. -/
def State.reservation (s : State) (p : Pour) : Option (Tab Nat) :=
  (s.partHearths p.pkg p.ctx.toNat).foldl (fun acc gh =>
    match acc with
    | none => none
    | some t =>
      let (t', left) := s.reserveHearth p gh (s.placedOn p gh) t
      if left = 0 then some t' else none) (some [])

/-! ### Acceptance (R302 to R305, R322, R388) -/

/-- The first refusal that applies, in the order of R303; 0 for none. -/
def State.refusal (s : State) (p : Pour) (launchBits poisoned : Bool) : Nat :=
  if poisoned then stAccess
  else if p.badReserved launchBits then stReserved
  else if (s.pkg p.pkg).part p.ctx.toNat = 0xFF ∨
      (s.pkg p.pkg).hearthPart (16 * p.pkg + p.hearth) ≠ (s.pkg p.pkg).part p.ctx.toNat then stPartition
  else if p.badGeometry then stGeometry
  else if 4 ≤ p.word 0x31 1 then stAllot
  else if p.badPartWord then stPartWord
  else if p.badGang then stGangSize
  else if p.badDeps then stDeps
  else if p.badCycle then stDepCycle
  else if s.badAccess p then stAccess
  else if p.resident && (s.reservation p).isNone then stNoReside
  else 0

/-- The affinity word, read once at acceptance, from the runner where it lies on the control page (R306, R376). -/
def State.affinityWord (s : State) (p : Pour) : Option DWord :=
  if p.word 0x34 1 = 0xFF then .none
  else
    let va := wrapTo (p.word 8 8 + 8 * p.word 0x34 1) 64
    match s.engTranslate (16 * p.pkg + p.hearth) p.ctx.toNat va { r := true, w := false, x := false } with
    | .ok pa _ _ _ => let v := s.readAt p.ctx pa 8; if v.poison then .none else some v.bits
    | _ => .none

/-- The pour is live, and it has taken its launch count. -/
def Pour.counted (p : Pour) : Bool := p.live && decide (0 < p.ncast)

/-- The next launch count whose low 32 bits no live pour of the package holds (R304). -/
def State.freeCount (s : State) (pkg : Nat) : Nat → Nat → Nat
  | 0, n => n
  | fuel + 1, n =>
    if s.pours.any fun q => q.2.pkg = pkg && q.2.counted && q.2.count % 2 ^ 32 = n % 2 ^ 32 then s.freeCount pkg fuel (n + 1)
    else n

/-- A posted 2-byte STATUS store of the launch hearth (R303). -/
def State.postStatus (s : State) (gh : Nat) (ctx : BitVec 8) (recPa v : Nat) : State :=
  s.postWrites gh ctx [WriteOp.clean (recPa + 0x52) 2 v]

/-- A cast is released: it waits for its gang, and the whole gang joins the placement queue (R307, R308). -/
def State.arrive (s : State) (p i gh : Nat) : State :=
  let q := s.pour p
  if q.st ≠ .accepted then s
  else
    let s1 := { s.modCast (castKey p i) fun c => { c with st := .released, pour := p, index := i, released := s.nextOrd } with
      nextOrd := s.nextOrd + 1 }
    let gang := s1.gangOf (castKey p i)
    if gang.all fun c => (s1.cast c).st = .released ∧ (s1.cast c).pour = p then
      (gang.foldl (fun a c => a.setCastState gh c .placed) s1).enqueue gh p gang false
    else s1

/-- A cast is released from hearth `at_`: at once at acceptance without DEPS, and by a posted packet to the placement
hearth otherwise (R305, R326). -/
def State.releaseCast (s : State) (p i at_ : Nat) : State :=
  let q := s.pour p
  let (gh, miss) := s.placementHearth q i
  let s1 := if miss then s.countHearth (16 * q.pkg + q.hearth) 3 else s
  if q.deps then s1.send (seqrSrc at_) gh q.ctx false none (.release p i) else s1.arrive p i gh

/-- The home of an entry releases the cast: STATE becomes RELEASED, the release is sent, and NREL goes up (R323, R325). -/
def State.releaseEntry (s : State) (p i gh : Nat) : State :=
  let q := s.pour p
  let a := q.sbPa (sbEntry i)
  let s1 := ((s.rewrite a 1 (s.readLE a 1 + 1) false).modPour p fun x => { x with nrel := x.nrel + 1 }).releaseCast p i gh
  s1.send (seqrSrc gh) (paHearth (q.sbPa 8)) q.ctx false none (.reduction .add .n64 [WriteOp.clean (q.sbPa 8) 8 1])

/-- The scoreboard as the launch hearth writes it: the header, and an entry for each cast (R320, R322). -/
def Pour.boardWrites (q : Pour) : List WriteOp :=
  (List.range 8).map (fun k => WriteOp.clean (q.sbPa (8 * k)) 8 (match k with | 0 => q.casts | 3 => q.count % 2 ^ 32 | _ => 0)) ++
    (List.range q.casts).map fun i => WriteOp.clean (q.sbPa (sbEntry i)) 8 ((q.preds i).length * 256 + 0xFF * 65536)

/-- The launch hearth posts the scoreboard, a packet for each page, and keeps their targets and numbers (R322). DEDUCED (log 48). -/
def State.postBoard (s : State) (p : Nat) : State :=
  let q := s.pour p
  let ws := q.boardWrites
  let gh := 16 * q.pkg + q.hearth
  q.sbPages.foldl (fun a g =>
    let mine := ws.filter fun w => w.pa / 65536 = g.2 / 65536
    if mine.isEmpty then a
    else
      let b := a.postWrites gh q.ctx mine
      b.modPour p fun x => { x with writes := x.writes ++ [(paHearth g.2, b.lastSeq (seqrSrc gh))] }) s

/-- What an accepted pour releases at once: its casts without predecessors, at the homes of their entries, or all of them where it
has no DEPS (R305, R322). -/
def State.releaseFirst (s : State) (p : Nat) : State :=
  let q := s.pour p
  if q.deps then
    ((List.range q.casts).filter fun i => (q.preds i).isEmpty).foldl
      (fun a i => a.releaseEntry p i (paHearth (q.sbPa (sbEntry i)))) s
  else (List.range q.casts).foldl (fun a i => a.releaseCast p i (16 * q.pkg + q.hearth)) s

/-- A pour whose pages are pinned is accepted: it takes its launch count, its status is posted, and its scoreboard before any
release (R302 to R305, R322). DEDUCED (log 48). -/
def State.beginPour (s : State) (p : Nat) : State :=
  let q := s.pour p
  let gh := 16 * q.pkg + q.hearth
  let count := s.freeCount q.pkg (s.pours.length + 1) (s.pkg q.pkg).launches
  let s1 := (s.setPour p { q with st := if q.deps then .writing else .accepted, count, ncast := q.casts }).modPkg q.pkg
    fun k => { k with launches := count + 1 }
  let s2 := s1.postStatus gh q.ctx q.recPa stAccepted
  if q.deps then s2.postBoard p else s2.releaseFirst p

/-- Every write of a pour's scoreboard has been acknowledged (R322). -/
def State.boardWritten (s : State) (q : Pour) : Bool :=
  q.writes.all fun w => !s.awaits (seqrSrc (16 * q.pkg + q.hearth)) w.1 w.2

/-- The scoreboard stands, and the pour releases its first casts (R322). -/
def State.startBoard (s : State) (p : Nat) : State :=
  (s.modPour p fun q => { q with st := .accepted, writes := [] }).releaseFirst p

/-- The leaves of a scoreboard's pages, each once, by their table entries (R388). -/
def State.boardLeaves (s : State) (q : Pour) (pages : List Nat) : List (Nat × DWord) :=
  (pages.filterMap fun va => (s.walk q.pkg q.ctx.toNat va).map fun t => (t.2.2, t.1)).foldl
    (fun l e => if l.any fun x => x.1 = e.1 then l else l ++ [e]) []

/-- One step of pinning a scoreboard (R322, R388): the next leaf is pinned, or waits for a free count; where it has changed, the pour is
refused and its pins are released. DEDUCED (log 49). -/
def State.pinBoard (s : State) (p : Nat) : State :=
  let q := s.pour p
  match q.unpinned with
  | [] => s.beginPour p
  | (a, e) :: l =>
    match s.pin a e with
    | (.pinned, s1) =>
      let s2 := s1.setPour p { q with unpinned := l, pins := q.pins ++ [a] }
      if l.isEmpty then s2.beginPour p else s2
    | (.busy, _) => s
    | (.failed, _) =>
      let gh := 16 * q.pkg + q.hearth
      ((q.pins.foldl State.unpin (s.setPour p .none)).modHearth gh fun h => { h with slots := h.slots.filter (· ≠ p) }).postStatus
        gh q.ctx q.recPa stAccess

/-- A request takes a slot: the record is read once and checked, and the pour is refused, or goes on to pin its scoreboard and to be
accepted (R299, R302, R303, R322). -/
def State.accept (s : State) (gh : Nat) (r : LaunchReq) : State :=
  let raw : BitVec 1024 := BitVec.ofNat 1024 (s.readLE r.recPa 128)
  let q0 : Pour := { Pour.none with pkg := gh / 16, hearth := gh % 16, ctx := r.ctx, recPa := r.recPa, raw }
  let q : Pour := { q0 with aff := s.affinityWord q0 }
  let s0 := s.modHearth gh fun h => { h with waiting := h.waiting.erase r }
  let code := s.refusal q r.reserved (s.poisoned r.recPa 128)
  if code ≠ 0 then s0.postStatus gh r.ctx r.recPa code
  else
    let p := s.nextPour
    let pages := if q.deps then pagesOf (q.word 0x68 8) q.sbBytes else []
    let phys (va : Nat) : Option Nat := (s.walk q.pkg q.ctx.toNat va).map fun t => leafAddr t.1 t.2.1 va gh
    let q1 : Pour := { q with
      st := .pinning
      caddr := if q.word 0x10 8 = 0 then .none else phys (q.word 0x10 8)
      sbPages := pages.filterMap fun va => (phys (va / 65536 * 65536)).map fun a => (va / 65536, a)
      unpinned := s.boardLeaves q pages
      resv := if q.resident then (s.reservation q).getD [] else [] }
    let s1 := ({ s0.setPour p q1 with nextPour := p + 1 }).modHearth gh fun h => { h with slots := h.slots ++ [p] }
    if q1.unpinned.isEmpty then s1.beginPour p else s1

end Sys2Proof.Machine
end

