-- ==== Sys2Proof/Machine/Engine.lean ====
section
/-! DEFINITION. Engine commands (R260 to R267): their records, the checks at issue and at take, pins (R388); and the meanings
of CPY, BKOP, COLL, ENQ, DEQ and QSTAT (R260, R268 to R270). -/

namespace Sys2Proof.Machine

/-! ### Records (R261, R262, R265, R267) -/

/-- A field of a command's record: `n` bytes at offset `ofs`. -/
def Cmd.fld (c : Cmd) (ofs n : Nat) : Nat := c.raw.toNat / 2 ^ (8 * ofs) % 2 ^ (8 * n)

/-- CADDR. -/
def Cmd.complAddr (c : Cmd) : Nat := c.fld (match c.eng with | .copy => 0x28 | .bank => 0x18 | .coll => 0x10) 8
/-- CVAL. -/
def Cmd.cval (c : Cmd) : Nat := c.fld (match c.eng with | .copy => 0x30 | .bank => 0x20 | .coll => 0x18) 8
/-- FLAGS. -/
def Cmd.flags (c : Cmd) : Nat := c.fld (match c.eng with | .copy => 0x38 | .bank => 0x34 | .coll => 0x28) 4
/-- CADD. -/
def Cmd.cadd (c : Cmd) : Bool := c.flags.testBit 0
/-- FEED. -/
def Cmd.feed (c : Cmd) : Bool := c.flags.testBit 1
/-- FEEDQ. -/
def Cmd.feedq (c : Cmd) : Nat := field c.flags 11 8
/-- SSP of a copy, YSP of a bank command. -/
def Cmd.ssp (c : Cmd) : Bool := c.flags.testBit 2
/-- DSP. -/
def Cmd.dsp (c : Cmd) : Bool := c.flags.testBit 3
/-- PASS. -/
def Cmd.pass (c : Cmd) : Bool := c.flags.testBit 4

/-- LEN of a copy. -/
def Cmd.len (c : Cmd) : Nat := c.fld 0x10 4
/-- ROWS of a copy. -/
def Cmd.rowCount (c : Cmd) : Nat := c.fld 0x14 4
/-- The first source byte of row `i`, exactly. -/
def Cmd.srcRow (c : Cmd) (i : Nat) : Int := (c.fld 0 8 : Int) + i * signedVal (c.fld 0x18 8) 64
/-- The first destination byte of row `i`, exactly. -/
def Cmd.dstRow (c : Cmd) (i : Nat) : Int := (c.fld 8 8 : Int) + i * signedVal (c.fld 0x20 8) 64

/-- WADDR. -/
def Cmd.waddr (c : Cmd) : Nat := c.fld 0 8
/-- XADDR. -/
def Cmd.xaddr (c : Cmd) : Nat := c.fld 8 8
/-- YADDR. -/
def Cmd.yaddr (c : Cmd) : Nat := c.fld 0x10 8
/-- WSTRIDE. -/
def Cmd.wstride (c : Cmd) : Nat := c.fld 0x28 4
/-- K of a bank command. -/
def Cmd.kk (c : Cmd) : Nat := c.fld 0x2C 2
/-- N of a bank command. -/
def Cmd.nn (c : Cmd) : Nat := c.fld 0x2E 2 + 1
/-- FMT. -/
def Cmd.fmt (c : Cmd) : Word := BitVec.ofNat 32 (c.fld 0x30 4)
/-- Bytes of a row of W. -/
def Cmd.wBytes (c : Cmd) : Nat := elemBytes (fmtA c.fmt) c.kk
/-- Bytes of x. -/
def Cmd.xBytes (c : Cmd) : Nat := elemBytes (fmtB c.fmt) c.kk

/-- SRC of a collective. -/
def Cmd.csrc (c : Cmd) : Nat := c.fld 0 8
/-- DST of a collective. -/
def Cmd.cdst (c : Cmd) : Nat := c.fld 8 8
/-- COUNT. -/
def Cmd.count (c : Cmd) : Nat := c.fld 0x20 4
/-- WIN. -/
def Cmd.win (c : Cmd) : Nat := c.fld 0x24 1
/-- OP. -/
def Cmd.op (c : Cmd) : Nat := c.fld 0x25 1
/-- ROOT. -/
def Cmd.root (c : Cmd) : Nat := c.fld 0x26 2

/-- The bytes of a source element (R287). -/
def Window.srcSize (w : Window) : Nat := match w.etype with | 1 => 2 | 3 => 8 | _ => 4

/-- The bytes of a collective's source. -/
def Cmd.srcBytes (c : Cmd) (w : Window) : Nat := c.count * w.srcSize
/-- The bytes of a collective's result (R287). -/
def Cmd.dstBytes (c : Cmd) (w : Window) : Nat :=
  match c.op with
  | 0 => c.count * w.width
  | 1 => c.count / max 1 w.contributors.length * w.width
  | 2 => w.contributors.length * c.count * w.srcSize
  | _ => c.count * w.srcSize

/-! ### Malformed records -/

/-- Reserved bits of FLAGS are set (R261). -/
def Cmd.badFlags (c : Cmd) : Bool :=
  decide (c.flags / 2 ^ 12 ≠ 0 ∨ field c.flags 7 5 ≠ 0) ||
    match c.eng with
    | .copy => false
    | .bank => decide (field c.flags 4 3 ≠ 0)
    | .coll => decide (field c.flags 4 2 ≠ 0)

/-- The contents of a copy record that its table forbids (R262). -/
def Cmd.badCopy (c : Cmd) : Bool :=
  decide (c.len = 0 ∨ 2 ^ 30 < c.len ∨ c.rowCount = 0 ∨ 65536 < c.rowCount ∨ c.fld 0x3C 4 ≠ 0)

/-- The format word of a bank record (R265). -/
def bankFmtOk (w : Word) : Bool :=
  fmtLegal w && fmtSpar w = 0 && fmtAscl w = 0 && fmtBscl w = 0 && decide (w.toNat / 2 ^ 16 = 0) && fmtA w ≠ 2 && fmtA w ≠ 5 &&
    !isPlane (fmtB w)

/-- The contents of a bank record that its table forbids (R265). -/
def Cmd.badBank (c : Cmd) : Bool :=
  !bankFmtOk c.fmt || decide (c.wstride % 256 ≠ 0 ∨ c.wstride < c.wBytes ∨ c.kk = 0 ∨ 8192 < c.kk ∨ 16384 < c.wBytes ∨
    16384 < c.xBytes ∨ c.fld 0x38 8 ≠ 0)

/-- The contents of a collective record that its table forbids, at a hearth (R267, R286, R287). -/
def State.badColl (s : State) (c : Cmd) : Bool :=
  let gh := coreHearth c.gc
  let w := (s.pkg (gh / 16)).window c.win
  let parts := w.contributors
  decide (16 ≤ c.win ∨ 4 < c.op ∨ c.fld 0x2C 20 ≠ 0 ∨ c.count = 0 ∨ 2 ^ 24 < c.count) || !w.valid ||
    !parts.contains gh || w.fld 0 8 ≠ w.fld 0x10 8 || w.fld 8 2 ≠ w.fld 0x0A 2 ||
    (if c.op = 3 then decide (parts.length ≤ c.root) else decide (c.root ≠ 0)) ||
    (match c.op with
     | 0 | 1 => decide (c.count % parts.length ≠ 0 ∨ w.len < c.count / parts.length * w.width)
     | 4 => decide (c.count ≠ 1 ∨ c.csrc ≠ 0 ∨ c.cdst ≠ 0)
     | _ => false)

/-! ### Translation (R376, R385, R386) -/

/-- How a command's checks fail (R260, R261). DEDUCED (log 81). -/
inductive CmdBad where
  | queue
  | align (addr : Nat)
  | scratch (addr : Nat)
  | access (addr : Nat)
  | partition (addr : Nat)
  deriving DecidableEq, Repr

/-- STATUS of a failure at take (R261). -/
def CmdBad.status : CmdBad → Nat
  | .queue => 5
  | .align _ => 3
  | .scratch _ => 2
  | .access _ => 1
  | .partition _ => 4

/-- The trap of a failure at issue (R260). DEDUCED (log 81). -/
def CmdBad.trap (b : CmdBad) (g : LaneMask) : Stop :=
  match b with
  | .queue => .trap Cause.queue 0 g
  | .align a => .trap Cause.align (BitVec.ofNat 64 a) g
  | .scratch a => .trap Cause.scratch (BitVec.ofNat 64 a) g
  | .access a => .trap Cause.access (BitVec.ofNat 64 a) g
  | .partition a => .trap Cause.partition (BitVec.ofNat 64 a) g

/-- Pass, or fail. -/
def guardBad (b : Bool) (e : CmdBad) : Except CmdBad Unit := if b then .error e else .ok ()

/-- Read permission. -/
def Need.rd : Need := { r := true, w := false, x := false }
/-- Write permission. -/
def Need.wr : Need := { r := false, w := true, x := false }

/-- An address that a command names, as an engine has translated it: the physical address, the table entry and the leaf, and
whether its home lies outside the context's partition. -/
structure CmdLeaf where
  va      : Nat
  pa      : Nat
  entry   : Nat
  leaf    : DWord
  outside : Bool
  deriving DecidableEq, Repr

/-- The page of a translated address, as (virtual page, physical page). -/
def CmdLeaf.page (t : CmdLeaf) : Nat × Nat := (walkPage t.va, t.pa / 65536 * 65536)

/-- The translation of one address by an engine for a command, with every cause of ACCESS. The control page cannot be named (R376). -/
def State.cmdLeaf (s : State) (c : Cmd) (n : Need) (va : Nat) : Except CmdBad CmdLeaf :=
  match s.engLeaf (coreHearth c.gc) c.ctx.toNat (va % 2 ^ 64) n with
  | none => .error (.access (va % 2 ^ 64))
  | some (pa, at_, leaf, _) =>
    if isCpage pa then .error (.access (va % 2 ^ 64))
    else .ok { va := va % 2 ^ 64, pa, entry := at_, leaf, outside := s.outside (corePkg c.gc) c.ctx.toNat pa }

/-- The translations of a list of addresses, in order. DEDUCED (log 74). -/
def State.cmdLeaves (s : State) (c : Cmd) (n : Need) : List Nat → Except CmdBad (List CmdLeaf)
  | [] => .ok []
  | va :: vs => do
    let t ← s.cmdLeaf c n va
    let rest ← s.cmdLeaves c n vs
    pure (t :: rest)

/-- PARTITION, after every ACCESS (R260, R386). -/
def checkParts (ts : List CmdLeaf) : Except CmdBad Unit :=
  match ts.find? CmdLeaf.outside with
  | some t => .error (.partition t.va)
  | none => .ok ()

/-- The translation of one address, with the partition check. -/
def State.cmdTranslate (s : State) (c : Cmd) (va : Nat) (n : Need) : Except CmdBad Nat := do
  let t ← s.cmdLeaf c n va
  checkParts [t]
  pure t.pa

/-- The physical address of a virtual address, by the pages that a command holds. -/
def Cmd.pa (c : Cmd) (va : Nat) : Nat :=
  match c.pages.find? fun q => q.1 = walkPage va with
  | some q => q.2 + va % 65536
  | .none => 0

/-- The pages of W and x of a bank command, each once (R266). -/
def Cmd.bankPages (c : Cmd) : List Nat :=
  ((List.range c.nn).flatMap (fun n => pagesOf (c.waddr + n * c.wstride) c.wBytes) ++ pagesOf c.xaddr c.xBytes).foldl
    (fun l a => if l.any fun b => walkPage b = walkPage a then l else l ++ [a]) []

/-- The window of a collective belongs to the command's context, which may reach its home regions: none lies in the reserved part of its
hearth, and every one in the context's partition (R374, R386). DESIGN CHOICE (log 143). -/
def State.windowOwned (s : State) (c : Cmd) (w : Window) : Except CmdBad Unit := do
  guardBad (decide (w.ctx ≠ c.ctx.toNat) || decide (reservedOfs < w.base + w.len)) (.access c.csrc)
  guardBad (w.homes.any fun gh => s.outside (corePkg c.gc) c.ctx.toNat (paOf gh w.base)) (.partition c.csrc)

/-- The translations that a command makes at issue, with every cause of ACCESS: those of a bank command lie in one hearth, and those
of a collective in no host memory (R213, R266, R267). -/
def State.cmdNames (s : State) (c : Cmd) : Except CmdBad (List CmdLeaf) :=
  match c.eng with
  | .copy => pure []
  | .bank => do
    let ts ← s.cmdLeaves c .rd c.bankPages
    let home := (ts.head?.map fun t => paHearth t.pa).getD 0
    match ts.find? fun t => paHost t.pa || decide (paHearth t.pa ≠ home) with
    | some t => .error (.access t.va)
    | none => pure ts
  | .coll => do
    let w := (s.pkg (corePkg c.gc)).window c.win
    s.windowOwned c w
    if c.op = 4 then pure []
    else
      let src ← s.cmdLeaves c .rd (pagesOf c.csrc (c.srcBytes w))
      let dst ← s.cmdLeaves c .wr (pagesOf c.cdst (c.dstBytes w))
      match (src ++ dst).find? fun t => paHost t.pa with
      | some t => .error (.access t.va)
      | none => pure (src ++ dst)

/-- The leaves of a bank command, each once, by their table entries (R388). -/
def Cmd.leavesOf (c : Cmd) (ts : List CmdLeaf) : List (Nat × DWord) :=
  if c.eng = .bank then
    ts.foldl (fun l t => if l.any fun e => e.1 = t.entry then l else l ++ [(t.entry, t.leaf)]) []
  else []

/-- The checks of the record in the order of R260, and the translations: the command with its completion word and pages. -/
def State.checkCmd (s : State) (c : Cmd) : Except CmdBad Cmd := do
  let k := s.cast c.cast
  let q := k.queue c.feedq
  let bytes := s.spadBytes c.cast
  let hostAdd := c.complAddr ≠ 0 && c.cadd && (match s.cmdLeaf c .wr c.complAddr with
    | .ok t => paHost t.pa
    | .error _ => false)
  guardBad (c.badFlags || hostAdd || (match c.eng with | .copy => c.badCopy | .bank => c.badBank | .coll => s.badColl c) ||
    (c.feed && decide (q.kind ≠ 5 ∨ q.esize ≠ 8))) .queue
  match c.eng with
  | .bank => do
    guardBad (decide (c.waddr % 256 ≠ 0)) (.align c.waddr)
    guardBad (decide (c.xaddr % 64 ≠ 0)) (.align c.xaddr)
    guardBad (decide (c.yaddr % 4 ≠ 0)) (.align c.yaddr)
  | _ => pure ()
  guardBad (decide (c.complAddr % 8 ≠ 0)) (.align c.complAddr)
  let range (row : Nat → Int) : Except CmdBad Unit :=
    let bad (i : Nat) : Bool := decide (row i < 0 ∨ (bytes : Int) < row i + c.len)
    if bad 0 then .error (.scratch (wrapTo (row 0) 64))
    else if bad (c.rowCount - 1) then .error (.scratch (wrapTo (row (c.rowCount - 1)) 64)) else .ok ()
  match c.eng with
  | .copy => do
    if c.ssp then range c.srcRow else pure ()
    if c.dsp then range c.dstRow else pure ()
  | .bank => guardBad (c.ssp && decide (bytes < c.yaddr + 4 * c.nn)) (.scratch c.yaddr)
  | .coll => pure ()
  let ts ← s.cmdNames c
  let word ← if c.complAddr = 0 then pure [] else s.cmdLeaves c .wr [c.complAddr]
  checkParts (ts ++ word)
  pure { c with pages := ts.map CmdLeaf.page, unpinned := c.leavesOf ts, caddr := word.head?.map CmdLeaf.pa }

/-! ### Pins (R388) -/

/-- The leaves that a command has pinned are released: a posted decrement to the home of each entry. -/
def State.unpinCmd (s : State) (c : Cmd) : State :=
  let src := hearthSrc (paHearth ((c.pages.head?.map Prod.snd).getD 0)) 2
  c.pins.foldl (fun a p => a.send src (paHearth p) c.ctx false none (.pinDown p)) s

/-! ### In flight (R260) -/

/-- The commands of an engine of a core in flight. -/
def State.inFlight (s : State) (gc : Nat) (e : Engine) : Nat :=
  (s.cmds.filter fun q => q.2.gc = gc && q.2.eng = e && q.2.stage ≠ .done).length

/-- The limit of an engine (R260). -/
def Engine.limit : Engine → Nat
  | .copy => 512
  | .bank => 32
  | .coll => 16

/-- The number of a source of a core's engine (R273). -/
def Engine.unit : Engine → Nat
  | .copy => 1
  | .bank => 1
  | .coll => 3

/-- The source of a command's packets: the copy engine of its core, which also writes bank results, or the collective
engine. DEDUCED (log 77). -/
def Cmd.src (c : Cmd) : Nat := coreSrc c.gc 0 c.eng.unit

/-- A posted packet of the engine's core to its own hearth is still to be applied: no read of the engine there goes before it (R48,
R226, R263). -/
def State.readBlocked (s : State) (c : Cmd) : Bool :=
  s.net.any fun p => p.tgt = coreHearth c.gc && p.body.cls = 0 && sameCore p.src c.src && !p.body.held

/-- A read that a command makes: in its own hearth as soon as no posted packet of its core stands before it, by a packet elsewhere; at
most the run of addresses in one home (R263, R272). DEDUCED (log 75). -/
def State.askRead (s : State) (k : Nat) (pas : List Nat) : State :=
  match pas with
  | [] => s
  | a :: _ =>
    let c := s.cmd k
    let home (p : Nat) : Nat := if paHost p then 1024 + corePkg c.gc else paHearth p
    let run := pas.takeWhile fun p => home p = home a
    if home a = coreHearth c.gc then
      if s.readBlocked c then s else
      let bs := run.map fun p => (s.byte p, s.mark (p / 4))
      s.setCmd k { c with buf := some (c.buf.getD [] ++ bs) }
    else
      (s.setCmd k { c with buf := some (c.buf.getD []), asked := true }).send c.src (home a) c.ctx false none
        (.engineRead k run)

/-- The addresses of one segment of a collective's source, of at most 256 bytes, from byte `pos`. -/
def Cmd.srcSegment (c : Cmd) (w : Window) (pos : Nat) : List Nat :=
  (List.range (min 256 (c.srcBytes w - pos))).map fun k => c.pa (c.csrc + pos + k)

/-- A participant reads its source: at the root alone for a broadcast, never for a barrier (R287). -/
def Cmd.contributes (c : Cmd) (w : Window) : Bool :=
  match c.op with
  | 3 => w.contributors.idxOf (coreHearth c.gc) = c.root
  | 4 => false
  | _ => true

/-- An accepted command begins: a bank command travels to its hearth, and a collective takes its number among the COLLs of
its hearth on the window (R266, R286). -/
def State.startCmd (s : State) (k : Nat) : State :=
  let c := s.cmd k
  match c.eng with
  | .copy => s.setCmd k { c with stage := .active }
  | .bank =>
    let tgt := paHearth ((c.pages.head?.map Prod.snd).getD 0)
    (s.setCmd k { c with stage := .sent, posted := c.posted ++ [(tgt, s.nextSeq c.src)] }).send c.src tgt c.ctx false
      (some c.cast) (.engineCmd k)
  | .coll =>
    let gh := coreHearth c.gc
    let w := (s.pkg (gh / 16)).window c.win
    let n := ((w.insts.find? fun q => q.1 = gh).map Prod.snd).getD 0
    let s1 := s.modWindow (gh / 16) c.win fun x => { x with insts := (x.insts.filter fun q => q.1 ≠ gh) ++ [(gh, n + 1)] }
    s1.setCmd k { c with stage := .active, inst := n, since := s.now }

/-- A new command of a core for a cast. -/
def Cmd.new (e : Engine) (gc cast : Nat) (ctx : BitVec 8) (raw : BitVec 512) : Cmd :=
  { Cmd.none with eng := e, stage := .active, gc, cast, ctx, raw }

/-- The address that a command names by way of a table entry. -/
def State.leafVa (s : State) (c : Cmd) (at_ : Nat) : Nat :=
  (c.bankPages.find? fun va => match s.cmdLeaf c .rd va with | .ok t => t.entry = at_ | .error _ => false).getD c.waddr

/-! ### CPY, BKOP and COLL at issue (R260) -/

/-- A command whose leaves are pinned is accepted: it holds their pins, and the entry, which held them, goes on (R260, R388). -/
def Ix.acceptCmd (i : Ix) (s : State) (c : Cmd) (used : Bool) : State :=
  let k := s.nextCmd
  let leaves := c.unpinned.map Prod.fst
  let held := i.x.pinsAt i.e.prio i.e.pc
  let s1 : State := { s.setCmd k { c with pins := leaves, unpinned := [] } with nextCmd := k + 1 }
  let s2 := if held.isEmpty then s1
    else (held.filter fun a => !leaves.contains a).foldl State.unpin (s1.modFrag i.f fun x => x.setPins i.e.prio i.e.pc [])
  i.done (i.countUse used (i.afterIssue (some c.eng) (s2.startCmd k)))

/-- One step of pinning at issue (R388): the next leaf that the entry does not hold is pinned, and the command is accepted with the last;
a full count makes the entry wait, and a changed leaf raises ACCESS with the address of its page. DEDUCED (log 76). -/
def Ix.pinCommand (i : Ix) (c : Cmd) (used : Bool) : Except Stop State :=
  let held := i.x.pinsAt i.e.prio i.e.pc
  match c.unpinned.filter fun l => !held.contains l.1 with
  | [] => .ok (i.acceptCmd i.s c used)
  | (a, e) :: rest =>
    match i.s.pin a e with
    | (.pinned, s1) =>
      if rest.isEmpty then .ok (i.acceptCmd s1 c used)
      else .ok (s1.modFrag i.f fun x => (x.setPins i.e.prio i.e.pc (held ++ [a])).waitAt i.e.prio i.e.pc .pin)
    | (.busy, _) => .error (.wait .pin)
    | (.failed, _) => .error (.trap Cause.access (BitVec.ofNat 64 (i.s.leafVa c a)) i.g)

/-- The first checks of a command: EMPTY, then ALIGN and SCRATCH of the record's offset, which they give (R260). -/
def Ix.checkRecord (i : Ix) (h : Hdr) (o : Ops) : Except Stop Nat := do
  i.checkSources [{ o := o.b, n := 1, bit := h.eb }] i.g
  let ofs := (i.uniform o.b .w32).bits.toNat % 2 ^ 23
  guardStop (decide (ofs % 64 ≠ 0)) (.trap Cause.align (BitVec.ofNat 64 ofs) i.g)
  guardStop (decide (i.s.spadBytes (i.s.castOf i.x) < ofs + 64)) (.trap Cause.scratch (BitVec.ofNat 64 ofs) i.g)
  pure ofs

/-- A copy meets tiles that accepted instructions of the issuing hoist have still to read or to write (R190, R239). DEDUCED (log 67). -/
def Ix.copyHeld (i : Ix) (c : Cmd) : Bool :=
  decide (c.eng = .copy) && (List.range c.rowCount).any fun r =>
    (c.dsp && i.s.tileHeld i.x.hoist true (c.dstRow r).toNat c.len) || (c.ssp && i.s.tileHeld i.x.hoist false (c.srcRow r).toNat c.len)

/-- The hearth that a bank command is posted to (R266, R290). -/
def Cmd.hintHomes (c : Cmd) : List Nat :=
  if c.eng = .bank then [paHearth ((c.pages.head?.map Prod.snd).getD 0)] else []

/-- The checks of a command at issue in the order of R260, a stall hint on the hearth of a bank command (R290), its release (R239), and a step
of its pins (R388). -/
def Ix.issueCommand (i : Ix) (h : Hdr) (o : Ops) (lsel : BitVec 4) (e : Engine) : Except Stop State := do
  let ofs ← i.anchored lsel (guardStop (decide (e.limit ≤ i.s.inFlight i.x.gc e)) (.wait .engine)) (i.checkRecord h o)
  guardStop (i.s.tileHeld i.x.hoist false ofs 64) (.wait .tile)
  let cast := i.s.castOf i.x
  let raw : BitVec 512 := BitVec.ofNat 512 ((i.s.cast cast).sread ofs 64)
  match i.s.checkCmd (Cmd.new e i.x.gc cast (i.s.ctxOf i.x) raw) with
  | .error b => .error (b.trap i.g)
  | .ok c => do
    guardStop (i.copyHeld c) (.wait .tile)
    i.checkHints c.hintHomes
    i.checkRelease true e.relScope
    i.pinCommand c (i.poisonLanes o.b 1 i.g ≠ 0)

/-- A command at issue; one that traps releases the pins that its entry holds (R388). -/
def Ix.command (i : Ix) (h : Hdr) (o : Ops) (lsel : BitVec 4) (e : Engine) : State :=
  i.run (match i.issueCommand h o lsel e with
    | .error (.trap c a l) => .ok (({ i with s := i.s.dropPins i.f i.e.prio i.e.pc } : Ix).stop (.trap c a l))
    | r => r)

/-- CPY (R260, R262). -/
def execCpy (h : Hdr) (o : Ops) (lsel : BitVec 4) (s : State) : Host.Outcome State Fault Refusal :=
  .next ((Ix.of s h).command h o lsel .copy)

/-- BKOP (R260, R265). -/
def execBkop (h : Hdr) (o : Ops) (lsel : BitVec 4) (s : State) : Host.Outcome State Fault Refusal :=
  .next ((Ix.of s h).command h o lsel .bank)

/-- COLL (R260, R267). -/
def execColl (h : Hdr) (o : Ops) (lsel : BitVec 4) (s : State) : Host.Outcome State Fault Refusal :=
  .next ((Ix.of s h).command h o lsel .coll)

/-! ### Taking commands from a queue (R66, R260) -/

/-- The completion word of a command that fails at take, if it can be written (R261). DESIGN CHOICE (log 133). -/
def State.takeCaddr (s : State) (c : Cmd) : Option Nat :=
  if c.complAddr = 0 ∨ c.complAddr % 8 ≠ 0 then none
  else match s.cmdTranslate c c.complAddr .wr with
    | .ok pa => if paHost pa && c.cadd then none else some pa
    | .error _ => none

/-- One step of pinning at take (R388): the next leaf is pinned, and the command starts with the last; a full count leaves it to retry,
and a changed leaf ends it with status 1. -/
def State.pinCmd (s : State) (k : Nat) : State :=
  let c := s.cmd k
  match c.unpinned with
  | [] => s.startCmd k
  | (a, e) :: l =>
    match s.pin a e with
    | (.pinned, s1) =>
      let s2 := s1.setCmd k { c with stage := .pinning, unpinned := l, pins := c.pins ++ [a] }
      if l.isEmpty then s2.startCmd k else s2
    | (.busy, _) => s.setCmd k { c with stage := .pinning }
    | (.failed, _) => s.setCmd k { c with stage := .finishing, status := 1, unpinned := [] }

/-- ENGINE_COMMAND_TAKE: an engine takes the next element of its command queue, reads the record and makes the checks, whose
failure its completion reports (R66, R260). Where the offset itself is wrong there is no record, and so neither a completion word nor a
feed element: the command ends as an engine error alone. DESIGN CHOICE (log 113). -/
def execEngineCommandTake (cast queue : Nat) (s : State) : Host.Outcome State Fault Refusal :=
  let x := s.cast cast
  let q := x.queue queue
  .next (
    match engineOf q.kind with
    | none => s
    | some e =>
      if q.count = 0 ∨ x.granules = 0 ∨ x.parking ∨ e.limit ≤ s.inFlight x.anchor e then s
      else
        let ofs := (x.element q q.head).bits.toNat % 2 ^ 23
        let s1 := s.modCast cast fun y => y.pop queue 1
        let bad : Option CmdBad :=
          if ofs % 64 ≠ 0 then some (.align ofs) else if s.spadBytes cast < ofs + 64 then some (.scratch ofs) else none
        let raw : BitVec 512 := if bad.isSome then 0 else BitVec.ofNat 512 (x.sread ofs 64)
        let c := Cmd.new e x.anchor cast (s.pour x.pour).ctx raw
        let k := s1.nextCmd
        let s2 : State := { s1 with nextCmd := k + 1 }
        match bad with
        | some b => s2.setCmd k { c with stage := .finishing, status := b.status }
        | none =>
          match s2.checkCmd c with
          | .error b => s2.setCmd k { c with stage := .finishing, status := b.status, caddr := s2.takeCaddr c }
          | .ok d => (s2.setCmd k d).pinCmd k)

/-- PIN_RETRY: a command that is being taken makes its next pin step (R388). -/
def execPinRetry (cmd : Nat) (s : State) : Host.Outcome State Fault Refusal :=
  .next (if (s.cmd cmd).stage = .pinning then s.pinCmd cmd else s)

/-! ### Queues (R64, R268 to R270) -/

/-- The number of a queue operand. -/
def queueNum (o : Opnd) : BitVec 4 := match o with | .q k => k | _ => 0

/-- ENQ (R268). -/
def execEnq (h : Hdr) (o : Ops) (w64 nb : Bool) (lsel : BitVec 4) (s : State) : Host.Outcome State Fault Refusal :=
  let i := Ix.of s h
  let q := queueNum o.d
  .next (i.run do
    i.checkSources [{ o := o.a, n := (Wd.bw w64).regs, bit := h.ea }] i.g
    i.needAnchor lsel
    if nb then
      let x := (i.s.cast (i.s.castOf i.x)).queue q.toNat
      i.checkQueue x [1, 2, 3, 4] (if w64 then 8 else 4) (i.elements o.a).length
      if x.cap < x.count + (i.elements o.a).length then pure (i.done (i.writePred i.s o.d2 i.g 0))
      else
        let s1 ← i.pushTo q o.a w64
        pure (i.done (i.writePred s1 o.d2 i.g i.g))
    else
      let s1 ← i.pushTo q o.a w64
      pure (i.done s1))

/-- The fields of a binding word that QUEUE checks (R64). -/
def badBinding (w : DWord) : Bool :=
  let q : Queue := { bind := w, head := 0, tail := 0 }
  decide (field w.toNat 63 55 ≠ 0 ∨ field w.toNat 31 24 ≠ 0 ∨ field w.toNat 7 5 ≠ 0) ||
    (q.kind ≠ 0 && (decide (5 < q.kind ∨ q.base % 256 ≠ 0 ∨ q.cap < 32 ∨ 32768 < q.cap) ||
      !(List.range 16).any fun k => q.cap = 2 ^ k))

/-- ENQ.BIND (R64, R268). -/
def execEnqBind (h : Hdr) (o : Ops) (lsel : BitVec 4) (s : State) : Host.Outcome State Fault Refusal :=
  let i := Ix.of s h
  let k := (queueNum o.d).toNat
  .next (i.run do
    let w := (i.uniform o.a (.bw true)).bits
    let q : Queue := { bind := w, head := 0, tail := 0 }
    let c := i.s.castOf i.x
    i.anchored lsel (pure ()) do
      i.checkSources [{ o := o.a, n := 1, bit := h.ea }] i.g
      guardStop (badBinding w) (.trap Cause.queue 0 i.g)
      guardStop (q.kind ≠ 0 && decide (i.s.spadBytes c < q.base + q.cap * q.esize))
        (.trap Cause.scratch (BitVec.ofNat 64 q.base) i.g)
    let old := (i.s.cast c).queue k
    guardStop ((engineOf old.kind).isSome && old.count ≠ 0) (.wait (.queue (queueNum o.d)))
    let s1 := i.s.modCast c fun x => x.setQueue k (if q.kind = 0 then .unbound else q)
    pure (i.done (i.countUse (i.poisonLanes o.a 1 i.g ≠ 0) s1)))

/-- DEQ (R269). -/
def execDeq (h : Hdr) (o : Ops) (w64 nb : Bool) (lsel : BitVec 4) (s : State) : Host.Outcome State Fault Refusal :=
  let i := Ix.of s h
  let q := queueNum o.a
  let t : Ty := if w64 then .b64 else .b32
  .next (i.run do
    i.checkDests [(o.d, Ty.regs t)]
    i.needAnchor lsel
    if nb then
      let x := (i.s.cast (i.s.castOf i.x)).queue q.toNat
      i.checkQueue x [1, 5] (if w64 then 8 else 4) (i.elements o.d).length
      if x.count < (i.elements o.d).length then pure (i.done (i.writePred i.s o.d2 i.g 0))
      else
        let r ← i.popFrom q o.d w64 false
        let s1 := i.countUse (dropsMark o.d && r.1.any fun p => p.2.poison) (i.write r.2 o.d t r.1)
        pure (i.done (i.writePred s1 o.d2 i.g i.g))
    else
      let r ← i.popFrom q o.d w64 h.ea
      pure (({ i with s := r.2 } : Ix).finish o.d t r.1))

/-- A field of a queue (R270). -/
def Queue.stat (q : Queue) (f : QField) : DWord :=
  if q.kind = 0 then 0
  else match f with
    | .count => BitVec.ofNat 64 q.count
    | .free => BitVec.ofNat 64 (q.cap - q.count)
    | .bind => q.bind

/-- QSTAT (R270). -/
def execQstat (h : Hdr) (o : Ops) (f : QField) (lsel : BitVec 4) (s : State) : Host.Outcome State Fault Refusal :=
  let i := Ix.of s h
  let t : Ty := if f = .bind then .b64 else .n32
  .next (i.run do
    i.checkDests [(o.d, Ty.regs t)]
    i.needAnchor lsel
    let q := (i.s.cast (i.s.castOf i.x)).queue (queueNum o.a).toNat
    let v : Val := { bits := q.stat f, poison := false }
    pure (i.finish o.d t ((lanesOf i.g).map fun l => (l, v))))

end Sys2Proof.Machine
end

