-- ==== Sys2Proof/Machine/Approx.lean ====
section
/-! DEFINITION. The approximated functions of R168. Their decided values are computed exactly. Every other result is a
free value (`Config`) that the error bound of R168 limits: a choice outside the bound is replaced by the nearest code of
a computation with 120 bits of fraction. -/

namespace Sys2Proof.Machine

/-- The fraction bits of the computations. -/
def fxBits : Nat := 120
/-- One, in units of 2^−120. -/
def fxOne : Int := 2 ^ 120
/-- Product of two fixed-point numbers. -/
def fxMul (x y : Int) : Int := x * y / fxOne
/-- Quotient of two fixed-point numbers. -/
def fxDiv (x y : Int) : Int := x * fxOne / y

/-- m × 2^e as a fixed-point number. -/
def fxOf (neg : Bool) (m : Nat) (e : Int) : Int :=
  let x : Int := scale2 m (e + 120)
  if neg then -x else x

/-- The sum of x^k ÷ k! from term `t`, `n` terms (the exponential series). -/
def expSeries (x : Int) : Nat → Nat → Int → Int
  | 0, _, _ => 0
  | n + 1, k, t => t + expSeries x n (k + 1) (fxMul t x / (k + 1 : Int))

/-- The sum of z^(2k+1) ÷ (2k+1) from term `p`, `n` terms (the series of artanh). -/
def artanhSeries (z2 : Int) : Nat → Nat → Int → Int
  | 0, _, _ => 0
  | n + 1, k, p => p / (2 * k + 1 : Int) + artanhSeries z2 n (k + 1) (fxMul p z2)

/-- The alternating series of sine and cosine from term `t` of degree `k`, `n` terms. -/
def trigSeries (x2 : Int) : Nat → Nat → Int → Int
  | 0, _, _ => 0
  | n + 1, k, t => t + trigSeries x2 n (k + 2) (-(fxMul t x2 / ((k + 1) * (k + 2) : Int)))

/-- ln x for 1 ≤ x < 2. -/
def fxLn (x : Int) : Int :=
  let z := fxDiv (x - fxOne) (x + fxOne)
  2 * artanhSeries (fxMul z z) 45 0 z
/-- ln 2. -/
def fxLn2 : Int := 2 * artanhSeries (fxDiv fxOne (9 * fxOne)) 45 0 (fxDiv fxOne (3 * fxOne))
/-- π, by Machin's formula. -/
def fxPi : Int :=
  let atanInv (n : Int) : Int := (List.range 60).foldl (fun a k =>
    let t := fxOne / n ^ (2 * k + 1 : Nat) / ((2 * k + 1 : Nat) : Int)
    if k % 2 = 0 then a + t else a - t) 0
  4 * (4 * atanInv 5 - atanInv 239)

/-- 2^x as a fixed-point mantissa from 1 to 2 and an exponent. -/
def fxExp2 (x : Int) : Int × Int :=
  let n := x / fxOne
  (expSeries (fxMul (x - n * fxOne) fxLn2) 40 0 fxOne, n)

/-- sin(π × x) for x in half-turns. -/
def fxSinPi (x : Int) : Int :=
  let r := x % (2 * fxOne)
  let (y, s) : Int × Int := if fxOne ≤ r then (r - fxOne, -1) else (r, 1)
  let z := if fxOne < 2 * y then fxOne - y else y
  let a := fxMul z fxPi
  s * trigSeries (fxMul a a) 30 1 a

/-- An approximation as a value: mantissa in units of 2^−120 and a power of two. -/
def fxVal (x : Int) (e : Int) : FV := .fin (decide (x < 0)) x.natAbs (e - 120)

/-- The spacing of FP32 values at a value, as an exponent of two (R168). -/
def ulpExp (x : FV) : Int :=
  match x with
  | .fin _ m e => if m = 0 then -149 else max ((Nat.log2 m : Int) + e) (-126) - 23
  | _ => 0

/-- |x − y| ≤ n × 2^k for finite values. -/
def within (x y : FV) (n : Nat) (k : Int) : Bool :=
  match x.add false y.negate with
  | .fin _ m e => let c := min e k; decide (m * 2 ^ (e - c).toNat ≤ n * 2 ^ (k - c).toNat)
  | _ => false

/-- The free choice when it lies within the bound n × 2^k of the approximation, else the nearest code. DEDUCED (log 25). -/
def pickFree (choice : Word) (approx : FV) (n : Nat) (k : Int) : Nat :=
  if within (Fmt.val .fp32 choice.toNat) approx n k then choice.toNat else Fmt.round .fp32 approx .rne true 0

/-- The finite FP32 codes in ascending order of value, from the most negative. -/
def risingCode (k : Nat) : Word :=
  if k < 0x7F800000 then BitVec.ofNat 32 (0xFF7FFFFF - k) else BitVec.ofNat 32 (k - 0x7F800000)

/-- A function on codes is non-decreasing over the finite inputs (R168). -/
def rising (f : Word → Nat) : Bool :=
  Nat.all 0xFEFFFFFF fun k _ => !((Fmt.val .fp32 (f (risingCode (k + 1)))).lt (Fmt.val .fp32 (f (risingCode k))))

/-- The result of a function that R168 makes monotonic: with the free choice when that gives a non-decreasing function, and
otherwise, or where both agree, with none, for which `pickFree` takes the nearest code. DEDUCED (log 25). -/
def risingChoice (f : (Word → Word) → Word → Nat) (free : Word → Word) (a : Word) : Nat :=
  let chosen := f free a
  let nearest := f (fun _ => 0x7FC00000) a
  if chosen = nearest then nearest else if rising (f free) then chosen else nearest

/-- A power of two: the exponent of m × 2^e when m is one. -/
def powerOfTwo (m : Nat) : Bool := decide (m = 2 ^ Nat.log2 m)

/-- FRCP on a code (R168). -/
def frcpOf (a : Word) : Nat :=
  match Fmt.val .fp32 a.toNat with
  | .nan => Fmt.canonNan .fp32
  | .inf s => Fmt.signBit .fp32 s
  | .fin s m e =>
    let q := (FV.fin false 1 0).div (.fin s m e)
    let big := match q with | .fin _ qm qe => Fmt.exceeds .fp32 qm qe | _ => true
    if m = 0 || big then Fmt.infCode .fp32 s
    else if powerOfTwo m then Fmt.round .fp32 q .rne false 0
    else pickFree (Config.frcpFree a) q 1 (ulpExp q)

/-- FRSQ on a code (R168). -/
def frsqOf (a : Word) : Nat :=
  match Fmt.val .fp32 a.toNat with
  | .nan => Fmt.canonNan .fp32
  | .inf s => if s then Fmt.canonNan .fp32 else 0
  | .fin s m e =>
    if m = 0 then Fmt.infCode .fp32 s
    else if s then Fmt.canonNan .fp32
    else
      let r := (FV.fin false 1 0).div (FV.sqrt (.fin s m e))
      if powerOfTwo m && ((Nat.log2 m : Int) + e) % 2 = 0 then Fmt.round .fp32 r .rne false 0
      else pickFree (Config.frsqFree a) r 2 (ulpExp r)

/-- Whether m × 2^e is an integer. -/
def isInteger (m : Nat) (e : Int) : Bool := decide (0 ≤ e) || decide (m % 2 ^ (-e).toNat = 0)

/-- FEXP2 on a code with a choice where R168 does not decide the result. -/
def fexp2With (free : Word → Word) (a : Word) : Nat :=
  match Fmt.val .fp32 a.toNat with
  | .nan => Fmt.canonNan .fp32
  | .inf s => if s then 0 else Fmt.infCode .fp32 false
  | .fin s m e =>
    let x := FV.fin s m e
    if m = 0 then 0x3F800000
    else if (FV.fin false 127 0).lt x && !(x.lt (.fin false 128 0)) then Fmt.infCode .fp32 false
    else if x.lt (.fin true 150 0) then 0
    else if x.eq (.fin true 150 0) then pickFree (free a) (.fin false 1 (-150)) 2 (-149)
    else if isInteger m e then Fmt.round .fp32 (.fin false 1 (if s then -(scale2 m e : Int) else scale2 m e)) .rne false 0
    else
      let p := fxExp2 (fxOf s m e)
      pickFree (free a) (fxVal p.1 p.2) 2 (ulpExp (fxVal p.1 p.2))

/-- FEXP2 on a code: non-decreasing over the finite inputs (R168). -/
def fexp2Of (a : Word) : Nat := risingChoice fexp2With Config.fexp2Free a

/-- FLOG2 on a code with a choice where R168 does not decide the result. -/
def flog2With (free : Word → Word) (a : Word) : Nat :=
  match Fmt.val .fp32 a.toNat with
  | .nan => Fmt.canonNan .fp32
  | .inf s => if s then Fmt.canonNan .fp32 else Fmt.infCode .fp32 false
  | .fin s m e =>
    if m = 0 then Fmt.infCode .fp32 true
    else if s then Fmt.canonNan .fp32
    else
      let ex := (Nat.log2 m : Int) + e
      if powerOfTwo m then Fmt.round .fp32 (.fin (decide (ex < 0)) ex.natAbs 0) .rne false 0
      else
        let y := fxVal (ex * fxOne + fxDiv (fxLn (scale2 m (120 - Nat.log2 m))) fxLn2) 0
        let x := FV.fin s m e
        if x.lt (.fin false 1 (-1)) || (FV.fin false 2 0).lt x then pickFree (free a) y 2 (ulpExp y)
        else pickFree (free a) y 1 (-22)

/-- FLOG2 on a code: non-decreasing over the finite inputs (R168). -/
def flog2Of (a : Word) : Nat := risingChoice flog2With Config.flog2Free a

/-- FSIN on a code (R168). -/
def fsinOf (a : Word) : Nat :=
  match Fmt.val .fp32 a.toNat with
  | .nan | .inf _ => Fmt.canonNan .fp32
  | .fin s m e =>
    if isInteger m e then Fmt.signBit .fp32 s
    else if isInteger m (e + 1) then
      let k := scale2 m (e + 1) % 4
      Fmt.round .fp32 (.fin (s != decide (k = 3)) 1 0) .rne false 0
    else
      pickFree (Config.fsinFree a) (fxVal (fxSinPi (fxOf s m e)) 0) 1 (-22)

/-- FCOS on a code (R168). -/
def fcosOf (a : Word) : Nat :=
  match Fmt.val .fp32 a.toNat with
  | .nan | .inf _ => Fmt.canonNan .fp32
  | .fin s m e =>
    if isInteger m e then
      Fmt.round .fp32 (.fin (decide (scale2 m e % 2 = 1)) 1 0) .rne false 0
    else if isInteger m (e + 1) then 0
    else
      let x := fxOf s m e
      pickFree (Config.fcosFree a) (fxVal (fxSinPi (x + fxOne / 2)) 0) 1 (-22)

/-- FTANH on a code with a choice where R168 does not decide the result. -/
def ftanhWith (free : Word → Word) (a : Word) : Nat :=
  match Fmt.val .fp32 a.toNat with
  | .nan => Fmt.canonNan .fp32
  | .inf s => Fmt.round .fp32 (.fin s 1 0) .rne false 0
  | .fin s m e =>
    if m = 0 then Fmt.signBit .fp32 s
    else if !((FV.fin false m e).lt (.fin false 10 0)) then Fmt.round .fp32 (.fin s 1 0) .rne false 0
    else
      let x := fxOf false m e
      let p := fxExp2 (fxDiv (2 * x) fxLn2)
      let big := p.1 * 2 ^ p.2.toNat
      let y := fxDiv (big - fxOne) (big + fxOne)
      let v := fxVal (if s then -y else y) 0
      pickFree (free a) v 1 (max (ulpExp v + 1) (-23))

/-- FTANH on a code: non-decreasing over the finite inputs (R168). -/
def ftanhOf (a : Word) : Nat := risingChoice ftanhWith Config.ftanhFree a

end Sys2Proof.Machine
end

