-- ==== Sys2Proof/Machine/FloatAlu.lean ====
section
/-! DEFINITION. The meanings of the floating-point, packed and conversion instructions (R160 to R179). -/

namespace Sys2Proof.Machine

/-! ### Shapes -/

/-- A code as a lane result. -/
def codeOf (n : Nat) : DWord := BitVec.ofNat 64 n
/-- The low 32 bits of an element as a code. -/
def code32 (x : DWord) : Nat := x.toNat % 2 ^ 32

/-- A function of codes of a format, lane by lane (R161). -/
def floatOp (h : Hdr) (o : Ops) (t : Ty) (f : Nat → Nat → Nat → Nat) (s : State) : State :=
  (Ix.of s h).alu h o .w32 .w32 .w32 t fun a b c =>
    codeOf (f (a.toNat % 2 ^ t.bits) (b.toNat % 2 ^ t.bits) (c.toNat % 2 ^ t.bits))

/-- An exact function of values, rounded once into the type (R161, R162). -/
def roundedOp (h : Hdr) (o : Ops) (t : Ty) (rm : Rm) (sat : Bool) (f : FV → FV → FV → FV) (s : State) : State :=
  let m := Fmt.ofTy t
  floatOp h o t (fun a b c => m.round (f (m.val a) (m.val b) (m.val c)) rm sat 0) s

/-! ### Scalar arithmetic (R164 to R167) -/

/-- FADD (R164). -/
def execFadd (h : Hdr) (o : Ops) (t : Ty) (rm : Rm) (sat : Bool) (s : State) : Host.Outcome State Fault Refusal :=
  .next (roundedOp h o t rm sat (fun a b _ => a.add (Rm.isRdn rm) b) s)

/-- FSUB (R164). A difference that is exactly zero is +0, or −0 under RDN (R127). DEDUCED (log 26). -/
def execFsub (h : Hdr) (o : Ops) (t : Ty) (rm : Rm) (sat : Bool) (s : State) : Host.Outcome State Fault Refusal :=
  .next (roundedOp h o t rm sat (fun a b _ => a.sub (Rm.isRdn rm) b) s)

/-- FMUL (R164). -/
def execFmul (h : Hdr) (o : Ops) (t : Ty) (rm : Rm) (sat : Bool) (s : State) : Host.Outcome State Fault Refusal :=
  .next (roundedOp h o t rm sat (fun a b _ => a.mul b) s)

/-- FFMA: one rounding (R164). -/
def execFfma (h : Hdr) (o : Ops) (t : Ty) (rm : Rm) (sat : Bool) (s : State) : Host.Outcome State Fault Refusal :=
  .next (roundedOp h o t rm sat (fun a b c => (a.mul b).add (Rm.isRdn rm) c) s)

/-- FMIN (R165). -/
def execFmin (h : Hdr) (o : Ops) (t : Ty) (nanp : Bool) (s : State) : Host.Outcome State Fault Refusal :=
  .next (floatOp h o t (fun a b _ => (Fmt.ofTy t).minMax false nanp a b) s)

/-- FMAX (R165). -/
def execFmax (h : Hdr) (o : Ops) (t : Ty) (nanp : Bool) (s : State) : Host.Outcome State Fault Refusal :=
  .next (floatOp h o t (fun a b _ => (Fmt.ofTy t).minMax true nanp a b) s)

/-- FCMP (R166). -/
def execFcmp (h : Hdr) (o : Ops) (t : Ty) (cond : Cond) (pct : Pct) (s : State) : Host.Outcome State Fault Refusal :=
  let m := Fmt.ofTy t
  .next ((Ix.of s h).compare h o pct .w32 .w32 .w32 fun a b _ => FV.cond cond (m.val a.toNat) (m.val b.toNat))

/-- FCLASS: with VAL the class as a bit of D, else whether its bit of B is set (R167). -/
def execFclass (h : Hdr) (o : Ops) (t : Ty) (val : Bool) (pct : Pct) (s : State) : Host.Outcome State Fault Refusal :=
  let m := Fmt.ofTy t
  if val then
    .next ((Ix.of s h).alu h o .w32 .w32 .w32 .n32 fun a _ _ => codeOf (2 ^ m.classOf a.toNat))
  else
    .next ((Ix.of s h).compare h o pct .w32 .w32 .w32 fun a b _ => b.toNat.testBit (m.classOf a.toNat))

/-- FRND (R164). -/
def execFrnd (h : Hdr) (o : Ops) (t : Ty) (rm : Rm) (s : State) : Host.Outcome State Fault Refusal :=
  .next (floatOp h o t (fun a _ _ => (Fmt.ofTy t).toInteger rm a) s)

/-- FSQRT (R164). -/
def execFsqrt (h : Hdr) (o : Ops) (rm : Rm) (sat : Bool) (s : State) : Host.Outcome State Fault Refusal :=
  .next (roundedOp h o .f32 rm sat (fun a _ _ => a.sqrt) s)

/-- FDIV (R164). -/
def execFdiv (h : Hdr) (o : Ops) (rm : Rm) (sat : Bool) (s : State) : Host.Outcome State Fault Refusal :=
  .next (roundedOp h o .f32 rm sat (fun a b _ => a.div b) s)

/-- FLDEXP: a × 2^B with B as I32 (R164). -/
def execFldexp (h : Hdr) (o : Ops) (t : Ty) (rm : Rm) (sat : Bool) (s : State) : Host.Outcome State Fault Refusal :=
  let m := Fmt.ofTy t
  .next ((Ix.of s h).alu h o .w32 .w32 .w32 t fun a b _ =>
    codeOf (m.round ((m.val a.toNat).ldexp (max (-1000) (min 1000 (signedVal b.toNat 32)))) rm sat 0))

/-! ### Approximated functions (R168) -/

/-- A function of one F32 code. -/
def approxOp (h : Hdr) (o : Ops) (f : Word → Nat) (s : State) : State :=
  (Ix.of s h).alu h o .w32 .w32 .w32 .f32 fun a _ _ => codeOf (f (a.setWidth 32))

/-- FRCP (R168). -/
def execFrcp (h : Hdr) (o : Ops) (s : State) : Host.Outcome State Fault Refusal := .next (approxOp h o frcpOf s)
/-- FRSQ (R168). -/
def execFrsq (h : Hdr) (o : Ops) (s : State) : Host.Outcome State Fault Refusal := .next (approxOp h o frsqOf s)
/-- FEXP2 (R168). -/
def execFexp2 (h : Hdr) (o : Ops) (s : State) : Host.Outcome State Fault Refusal := .next (approxOp h o fexp2Of s)
/-- FLOG2 (R168). -/
def execFlog2 (h : Hdr) (o : Ops) (s : State) : Host.Outcome State Fault Refusal := .next (approxOp h o flog2Of s)
/-- FSIN (R168). -/
def execFsin (h : Hdr) (o : Ops) (s : State) : Host.Outcome State Fault Refusal := .next (approxOp h o fsinOf s)
/-- FCOS (R168). -/
def execFcos (h : Hdr) (o : Ops) (s : State) : Host.Outcome State Fault Refusal := .next (approxOp h o fcosOf s)
/-- FTANH (R168). -/
def execFtanh (h : Hdr) (o : Ops) (s : State) : Host.Outcome State Fault Refusal := .next (approxOp h o ftanhOf s)

/-! ### Packed arithmetic (R169, R170) -/

/-- The element format of a packed type. -/
def halfFmt (bf : Bool) : Fmt := if bf then .bf16 else .fp16
/-- The packed type. -/
def halfTy (bf : Bool) : Ty := if bf then .bf16x2 else .f16x2
/-- Element `e` of a packed value. -/
def halfOf (x : DWord) (e : Nat) : Nat := x.toNat / 2 ^ (16 * e) % 2 ^ 16

/-- A function of codes applied to both elements (R169). -/
def packedOp (h : Hdr) (o : Ops) (bf : Bool) (f : Nat → Nat → Nat → Nat) (s : State) : State :=
  (Ix.of s h).alu h o .w32 .w32 .w32 (halfTy bf) fun a b c =>
    codeOf (f (halfOf a 0) (halfOf b 0) (halfOf c 0) + 2 ^ 16 * f (halfOf a 1) (halfOf b 1) (halfOf c 1))

/-- An exact function, rounded in each element (R169). -/
def packedRounded (h : Hdr) (o : Ops) (bf : Bool) (rm : Rm) (sat : Bool) (f : FV → FV → FV → FV) (s : State) : State :=
  let m := halfFmt bf
  packedOp h o bf (fun a b c => m.round (f (m.val a) (m.val b) (m.val c)) rm sat 0) s

/-- PKADD (R169). -/
def execPkadd (h : Hdr) (o : Ops) (bf : Bool) (rm : Rm) (sat : Bool) (s : State) : Host.Outcome State Fault Refusal :=
  .next (packedRounded h o bf rm sat (fun a b _ => a.add (Rm.isRdn rm) b) s)

/-- PKMUL (R169). -/
def execPkmul (h : Hdr) (o : Ops) (bf : Bool) (rm : Rm) (sat : Bool) (s : State) : Host.Outcome State Fault Refusal :=
  .next (packedRounded h o bf rm sat (fun a b _ => a.mul b) s)

/-- PKFMA (R169). -/
def execPkfma (h : Hdr) (o : Ops) (bf : Bool) (rm : Rm) (sat : Bool) (s : State) : Host.Outcome State Fault Refusal :=
  .next (packedRounded h o bf rm sat (fun a b c => (a.mul b).add (Rm.isRdn rm) c) s)

/-- PKMIN (R169). -/
def execPkmin (h : Hdr) (o : Ops) (bf : Bool) (nanp : Bool) (s : State) : Host.Outcome State Fault Refusal :=
  .next (packedOp h o bf (fun a b _ => (halfFmt bf).minMax false nanp a b) s)

/-- PKMAX (R169). -/
def execPkmax (h : Hdr) (o : Ops) (bf : Bool) (nanp : Bool) (s : State) : Host.Outcome State Fault Refusal :=
  .next (packedOp h o bf (fun a b _ => (halfFmt bf).minMax true nanp a b) s)

/-- PKCMP: the outcome of element 0 to D and of element 1 to D2 (R170). -/
def execPkcmp (h : Hdr) (o : Ops) (bf : Bool) (cond : Cond) (s : State) : Host.Outcome State Fault Refusal :=
  let i := Ix.of s h
  let m := halfFmt bf
  let c (e : Nat) : LaneMask := maskOf fun l =>
    FV.cond cond (m.val (halfOf (i.read o.a .w32 l).bits e)) (m.val (halfOf (i.read o.b .w32 l).bits e))
  .next (i.run do
    i.checkSources (i.uses h o .w32 .w32 .w32) i.g
    let used := (i.poisonLanes o.a 1 i.g ||| i.poisonLanes o.b 1 i.g) ≠ 0
    pure (i.done (i.countUse used (i.writePred (i.writePred i.s o.d i.g (c 0)) o.d2 i.g (c 1)))))

/-! ### Small dot products (R171) -/

/-- The exact sum of C and the products of the elements, rounded once to F32; the zero of an empty sum follows R127. -/
def dotOp (h : Hdr) (o : Ops) (n w : Nat) (fa fb : Fmt) (rm : Rm) (sat : Bool) (s : State) : State :=
  (Ix.of s h).alu h o .w32 .w32 .w32 .f32 fun a b c =>
    let el (x : DWord) (k : Nat) : Nat := x.toNat / 2 ^ (w * k) % 2 ^ w
    let sum := (List.range n).foldl
      (fun acc k => acc.add (Rm.isRdn rm) ((fa.val (el a k)).mul (fb.val (el b k)))) (Fmt.val .fp32 (code32 c))
    codeOf (Fmt.round .fp32 sum rm sat 0)

/-- FDOT2 (R171). -/
def execFdot2 (h : Hdr) (o : Ops) (bf : Bool) (rm : Rm) (sat : Bool) (s : State) : Host.Outcome State Fault Refusal :=
  .next (dotOp h o 2 16 (halfFmt bf) (halfFmt bf) rm sat s)

/-- The FP8 format. -/
def fp8 (e5 : Bool) : Fmt := if e5 then .e5m2 else .e4m3

/-- FDOT4; BALT gives B the other FP8 type (R171). -/
def execFdot4 (h : Hdr) (o : Ops) (e5 : Bool) (rm : Rm) (sat balt : Bool) (s : State) :
    Host.Outcome State Fault Refusal :=
  .next (dotOp h o 4 8 (fp8 e5) (fp8 (e5 != balt)) rm sat s)

/-! ### Conversions (R172, R173) -/

/-- Whether a type is a floating type of CVT. -/
def Ty.isFloat (t : Ty) : Bool := t ∈ [.f32, .f16, .bf16, .tf32, .e4m3, .e5m2, .e2m1]

/-- An integer as an exact value. -/
def FV.ofInt (x : Int) : FV := .fin (decide (x < 0)) x.natAbs 0

/-- One conversion (R173). With S = T and SAT, an infinity becomes MaxFinite: R173 says of such a conversion both that it
returns its operand unchanged and that it gives MaxFinite. DESIGN CHOICE (log 121). -/
def convert (t src : Ty) (rm : Rm) (sat tfp : Bool) (a : DWord) (rnd : Nat) : DWord :=
  if Ty.isFloat src then
    let v := (Fmt.ofTy src).val (a.toNat % 2 ^ src.bits)
    if Ty.isFloat t then codeOf ((if tfp then Fmt.tf32 else Fmt.ofTy t).round v rm sat rnd)
    else roundInt t v rm rnd
  else
    let v := intVal src a
    if Ty.isFloat t then codeOf ((Fmt.ofTy t).round (FV.ofInt v) rm sat rnd)
    else fit t sat v

/-- CVT; under SR source C gives the random bits (R172, R173). -/
def execCvt (h : Hdr) (o : Ops) (t src : Ty) (rm : Rm) (sat tfp : Bool) (s : State) : Host.Outcome State Fault Refusal :=
  .next ((Ix.of s h).alu h o (.of src) .w32 .w32 t fun a _ c =>
    convert t src rm sat tfp a (if rm = .sr then code32 c else 0))

/-! ### FP8 packing (R174, R175) -/

/-- PACK8 (R174). -/
def execPack8 (h : Hdr) (o : Ops) (e5 : Bool) (rm : Rm) (sat hi : Bool) (s : State) : Host.Outcome State Fault Refusal :=
  .next ((Ix.of s h).alu h o .w32 .w32 .w32 .b32 fun a b c =>
    let q (x : DWord) : Nat := (fp8 e5).round (Fmt.val .fp32 (code32 x)) rm sat 0
    let p := q b * 2 ^ 8 + q a
    codeOf (if hi then p * 2 ^ 16 + halfOf c 0 else halfOf c 1 * 2 ^ 16 + p))

/-- UNPACK8 (R175). -/
def execUnpack8 (h : Hdr) (o : Ops) (t : Ty) (byte : BitVec 2) (e5 : Bool) (s : State) :
    Host.Outcome State Fault Refusal :=
  .next ((Ix.of s h).alu h o .w32 .w32 .w32 t fun a _ _ =>
    codeOf ((Fmt.ofTy t).round ((fp8 e5).val (a.toNat / 2 ^ (8 * byte.toNat) % 2 ^ 8)) .rne false 0))

/-! ### Block-scaled FP4 (R176 to R178) -/

/-- The elements of the group of lane `l` (R176): a lane not present gives +0. -/
def Ix.group8 (i : Ix) (o : Opnd) (l : Nat) : List Val :=
  (List.range 8).map fun t => i.readLane o .w32 (8 * (l / 8) + t)

/-- The lanes whose elements the groups of G read. -/
def Ix.groupLanes (i : Ix) : LaneMask :=
  maskOf fun j => i.present j && (lanesOf i.g).any fun l => l / 8 = j / 8

/-- x ≤ y for finite values. -/
def FV.le (x y : FV) : Bool := !y.lt x

/-- The scale code of eight elements (R176). -/
def blockScale (xs : List FV) : Nat :=
  let mag : FV → FV := fun v => match v with | .fin _ m e => .fin false m e | y => y
  let m := xs.foldl (fun a v => if a.lt (mag v) then mag v else a) (.fin false 0 0)
  if xs.any fun v => match v with | .fin .. => false | _ => true then 0xFF
  else if m.eq (.fin false 0 0) then 0
  else
    let ok (c : Nat) : Bool := m.le ((FV.fin false 6 0).mul (e3m5 c))
    ((List.range 254).map (· + 1)).find? ok |>.getD 0xFE

/-- BSCALE (R176). DESIGN CHOICE (log 128). -/
def execBscale (h : Hdr) (o : Ops) (s : State) : Host.Outcome State Fault Refusal :=
  let i := Ix.of s h
  .next (i.run do
    i.checkSources (i.uses h o .w32 .w32 .w32) i.groupLanes
    i.checkDests [(o.d, 1)]
    i.maskHome o.d
    let rs := (lanesOf i.g).map fun l =>
      let vs := i.group8 o.a l
      (l, ({ bits := codeOf (blockScale (vs.map fun v => Fmt.val .fp32 (code32 v.bits))),
             poison := vs.any Val.poison } : Val))
    pure (i.finish o.d .n8 rs))

/-- One E2M1 element of PACK4 (R177). -/
def pack4Elt (sc : Nat) (rm : Rm) (x : FV) : Nat :=
  if sc = 0 ∨ sc = 0xFF then 0
  else match x with
    | .nan => 0
    | _ => Fmt.round .e2m1 (x.div (e3m5 sc)) rm true 0

/-- The block of eight elements, and whether a NaN poisons it (R177). -/
def pack4Block (sc : Nat) (rm : Rm) (xs : List FV) : Nat × Bool :=
  (xs.foldr (fun x acc => acc * 16 + pack4Elt sc rm x) 0, decide (sc ≠ 0 ∧ sc ≠ 0xFF) && xs.contains .nan)

/-- PACK4 (R177). DESIGN CHOICE (log 128). -/
def execPack4 (h : Hdr) (o : Ops) (rm : Rm) (s : State) : Host.Outcome State Fault Refusal :=
  let i := Ix.of s h
  .next (i.run do
    i.checkEmpty (i.uses h o .w32 .w32 .w32)
    i.checkSources [{ o := o.a, n := 1, bit := h.ea }] i.groupLanes
    i.checkSources [{ o := o.b, n := 1, bit := h.eb }] i.g
    i.checkDests [(o.d, 1), (o.d2, 1)]
    i.maskHome o.d
    i.maskHome o.d2
    let res := (lanesOf i.g).map fun l =>
      let vs := i.group8 o.a l
      let b := i.read o.b .w32 l
      let sc := b.bits.toNat % 256
      let r := pack4Block sc rm (vs.map fun v => Fmt.val .fp32 (code32 v.bits))
      (l, ({ bits := codeOf r.1, poison := vs.any Val.poison || b.poison } : Val),
          ({ bits := codeOf (if r.2 then 0xFF else sc), poison := vs.any Val.poison || b.poison } : Val))
    let s1 := i.write i.s o.d .b32 (res.map fun r => (r.1, r.2.1))
    let used := dropsMark o.d || dropsMark o.d2
    let s2 := i.countUse (used && res.any fun r => r.2.1.poison) s1
    pure (i.done (i.write s2 o.d2 .n8 (res.map fun r => (r.1, r.2.2)))))

/-- UNPACK4: a poisoned block gives the canonical NaN, marked (R178). -/
def execUnpack4 (h : Hdr) (o : Ops) (t : Ty) (elt : BitVec 3) (s : State) : Host.Outcome State Fault Refusal :=
  let i := Ix.of s h
  let m := Fmt.ofTy t
  .next (i.run do
    i.checkSources (i.uses h o .w32 .w32 .w32) i.g
    i.checkDests [(o.d, 1)]
    i.maskHome o.d
    let rs := (lanesOf i.g).map fun l =>
      let a := i.read o.a .w32 l
      let b := i.read o.b .w32 l
      let sc := b.bits.toNat % 256
      let x := Fmt.val .e2m1 (a.bits.toNat / 2 ^ (4 * elt.toNat) % 16)
      let r : Nat := if sc = 0 then 0 else if sc = 0xFF then m.canonNan else m.round (x.mul (e3m5 sc)) .rne false 0
      (l, ({ bits := codeOf r, poison := a.poison || b.poison || decide (sc = 0xFF) } : Val))
    pure (i.finish o.d t rs))

/-! ### HASH32 (R179) -/

/-- Four rounds of the hash (R179). -/
def hash32 : Nat → Nat → Nat → Nat
  | 0, x, _ => x
  | n + 1, x, k =>
    let y := (x ^^^ k) * 0x2C1B3C6D % 2 ^ 32
    hash32 n (y ^^^ (y / 2 ^ 15)) ((k + 0x9E3779B9) % 2 ^ 32)

/-- HASH32 (R179). -/
def execHash32 (h : Hdr) (o : Ops) (s : State) : Host.Outcome State Fault Refusal :=
  .next ((Ix.of s h).alu h o .w32 .w32 .w32 .b32 fun a b _ => codeOf (hash32 4 (code32 a) (code32 b)))

end Sys2Proof.Machine
end

