-- ==== Sys2Proof/Machine/Launch.lean ====
section
/-! DEFINITION. The meanings of EXIT, RAISE, POUR and POURW (R354 to R357), of the events of launch requests and slots (R297
to R299), of waits that end (R311 to R314), of joins, barriers and loop ends (R341, R350, R352), and of the end of a cast and
of a pour (R315, R324, R325, R327). -/

namespace Sys2Proof.Machine

/-! ### EXIT (R42, R354) -/

/-- Lanes of a hoist have exited, as its anchor slot knows it: their bits in the mask registers are clear (R354). DEDUCED (log 21). -/
def Hoist.exitLanes (h : Hoist) (m : LaneMask) : Hoist :=
  { h with exited := h.exited ||| m, masks := (List.range 12).foldl (fun t k =>
      Sparse.set 0 t k (Sparse.get 0 t k &&& ~~~m)) h.masks }

/-- EXIT (R354). DEDUCED (log 21). -/
def execExit (h : Hdr) (_ : Ops) (s : State) : Host.Outcome State Fault Refusal :=
  let i := Ix.of s h
  .next (i.run do
    guardStop (i.mustRelease && !i.s.performed i.x) (.wait .release)
    let home := i.s.atAnchor i.x
    if home || i.x.handler then pure () else i.checkHints [coreHearth (i.s.anchorOf i.x)]
    let y : Frag := (i.restNext { (i.x.take i.e.prio i.e.pc i.g) with lanes := i.x.lanes &&& ~~~i.g }).leaveHandler
    let s1 := i.s.setFrag i.f y
    let s2 := if y.lanes = 0 then s1.leaveFrag i.f else s1
    if home then
      let s3 := s2.modHoist i.x.hoist fun k => k.exitLanes i.g
      let s4 ← i.exitRelease ((s3.settleSplit i.x.hoist).checkHoistExit i.x.hoist)
      pure (s4.openBarriers i.h.cast)
    else
      let s3 := if i.h.split then s2 else s2.modHoist i.x.hoist fun k => { k with masks := (k.exitLanes i.g).masks }
      pure (s3.send (recordSrc i.x.gc) (coreHearth (i.s.anchorOf i.x)) (i.s.ctxOf i.x) false (some i.h.cast)
        (.exitNotice i.x.hoist i.g)))

/-! ### RAISE (R327, R355) -/

/-- RAISE (R327, R355). DEDUCED (log 22). -/
def execRaise (h : Hdr) (_ : Ops) (s : State) : Host.Outcome State Fault Refusal :=
  let i := Ix.of s h
  .next (i.run do
    i.notInHandler
    let c := i.s.cast i.h.cast
    let raised := (i.h.raised ||| i.h.exited) = BitVec.allOnes 32
    if !(i.s.pour c.pour).deps || c.psent || raised then pure (i.done i.s)
    else
      guardStop (i.mustRelease && !i.s.performed i.x) (.wait .release)
      let s1 := (i.s.modHoist i.x.hoist fun k => { k with raised := k.raised ||| i.g }).modCast i.h.cast
        fun x => { x with raiser := true }
      pure (i.done (if i.mustRelease then s1.modFrag i.f (i.drainAfter false true .domain) else s1)))

/-! ### POUR and POURW (R356, R357) -/

/-- What POUR asks of the record's page. -/
def Acc.record : Acc := Acc.rmw

/-- A request of POUR joins a waiting list (R299). -/
def State.addRequest (s : State) (gh : Nat) (ctx : BitVec 8) (recPa : Nat) : State :=
  s.modHearth gh fun k => { k with waiting := k.waiting ++ [{ ctx, reserved := false, recPa }] }

/-- A waiting list has no place, with the requests on their way to it (R356). DEDUCED (log 59). -/
def State.listFull (s : State) (gh : Nat) : Bool :=
  let coming := s.net.filter fun p => p.tgt = gh && match p.body with | .pourRequest .. => true | _ => false
  decide (64 ≤ (s.hearth gh).waiting.length + coming.length)

/-- POUR: the request goes to the hearth of the record, in a packet when that is another one (R272, R356). DEDUCED (log 59). -/
def execPour (h : Hdr) (o : Ops) (s : State) : Host.Outcome State Fault Refusal :=
  let i := Ix.of s h
  .next (i.run do
    i.checkSources [{ o := o.a, n := 2, bit := h.ea }] i.g
    let va := (i.uniform o.a (.bw true)).bits.toNat
    guardStop (decide (va % 128 ≠ 0)) (.trap Cause.align (BitVec.ofNat 64 va) i.g)
    guardStop (i.translate va = .miss) (i.walkWait va)
    guardStop (i.accessBad Acc.record va) (.trap Cause.access (BitVec.ofNat 64 va) i.g)
    guardStop (i.outside (i.pa va)) (.trap Cause.partition (BitVec.ofNat 64 va) i.g)
    i.checkRelease true .domain
    let gh := paHearth (i.pa va)
    guardStop (i.s.listFull gh) (.wait .slots)
    let ctx := i.s.ctxOf i.x
    let s1 :=
      if gh = i.here then i.s.addRequest gh ctx (i.pa va)
      else i.s.send (recordSrc i.x.gc) gh ctx false (some i.h.cast) (.pourRequest (i.pa va) ctx false)
    pure (i.done ((i.countUse (i.poisonLanes o.a 2 i.g ≠ 0) s1).modFrag i.f (i.drainAfter false true .domain))))

/-- A STATUS at which POURW ends (R357). -/
def finalStatus (v : Nat) : Bool := v = 2 || v = 3 || decide (0x8000 ≤ v)

/-- POURW (R357). -/
def execPourw (h : Hdr) (o : Ops) (lsel : BitVec 4) (s : State) : Host.Outcome State Fault Refusal :=
  let i := Ix.of s h
  let x : MemX :=
    { lsel, so := { scope := .domain, order := .relaxed, promote := false, pass := false }, scale := 0, disp := 0 }
  .next (i.visit [{ o := o.a, n := 2, bit := h.ea }] [(o.d, 1)] o.d { o with b := .none } x Acc.record 128 1 false
    fun j s pa =>
      let rec_ := pa (lowestLane j.g)
      let v := s.readAt (s.ctxOf j.x) (rec_ + 0x52) 2
      if finalStatus v.bits.toNat then (j.write s o.d .n32 ((lanesOf j.g).map fun l => (l, v)), none)
      else (s, some (.pourw rec_)))

/-! ### Launch requests and slots (R297 to R299) -/

/-- Add one to a counter of a package's host link (R419). -/
def State.countHost (s : State) (pkg ctr : Nat) : State :=
  s.modPkg pkg fun p => { p with hostCtrs := Sparse.set 0 p.hostCtrs ctr (Sparse.get 0 p.hostCtrs ctr + 1) }

/-- Host-link errors are counted, and recorded under class 11 (R416). -/
def State.hostError (s : State) (pkg : Nat) : State :=
  (s.countHost pkg 0).record (16 * pkg) (hostSrc pkg) 11 0xFF 0 (counterNumber 4 pkg 0) 0 0

/-- A write of the host to a launch window makes a launch request, or is discarded (R297 to R299, R427). -/
def State.launchWrite (s : State) (pkg hearth : Nat) (word : DWord) (size : Nat) : State :=
  let p := s.pkg pkg
  let gh := 16 * pkg + hearth
  let pa := field word.toNat 49 0
  if !p.present || !p.perst || !p.hostLink then s
  else if p.st ≠ .ready ∨ size ≠ 8 ∨ !p.enabled hearth ∨ paHost pa ∨ pa % 128 ≠ 0 ∨ s.noHome pkg pa ∨ isCpage pa then s.hostError pkg
  else
    let ctx : BitVec 8 := BitVec.ofNat 8 (field word.toNat 63 56)
    if 64 ≤ (s.hearth gh).waiting.length then s.postStatus gh ctx pa stFull
    else s.modHearth gh fun h => { h with
      waiting := h.waiting ++ [{ ctx, reserved := decide (field word.toNat 55 50 ≠ 0), recPa := pa }] }

/-- LAUNCH: a write to a hearth's launch window (R297). -/
def execLaunch (pkg hearth : Nat) (word : DWord) (size : Nat) (s : State) : Host.Outcome State Fault Refusal :=
  .next (s.launchWrite pkg hearth word size)

/-- The pour of a hearth that can go a step on towards its first release: a page of its scoreboard can be pinned, or has changed, or
every write of the scoreboard is acknowledged (R322, R388). DEDUCED (log 49). -/
def State.nextPinning (s : State) (gh : Nat) : Option Nat :=
  (s.hearth gh).slots.find? fun p =>
    let q := s.pour p
    !s.ctxSaved q.pkg q.ctx &&
      match q.st, q.unpinned with
      | .pinning, (a, e) :: _ => (s.pin a e).1 ≠ .busy
      | .writing, _ => s.boardWritten q
      | _, _ => false

/-- SLOT_GRANT: a pour that holds a slot goes a step on towards its first release; or a free slot goes to the head of the waiting list,
and its record is judged (R299, R302, R322). DEDUCED (log 47). -/
def execSlotGrant (gh : Nat) (s : State) : Host.Outcome State Fault Refusal :=
  let h := s.hearth gh
  .next (
    match s.nextPinning gh with
    | some p => if (s.pour p).st = .writing then s.startBoard p else s.pinBoard p
    | none =>
      match h.waiting.find? fun r => !s.ctxSaved (gh / 16) r.ctx with
      | some r => if h.slots.length < 64 then s.accept gh r else s
      | none => s)

/-- The quantum of a resident cast: 20 µs, in clocks (R28, R310). -/
def quantumClocks : Nat := 22000

/-- QUANTUM_EXPIRY: a resident cast's quantum ends, and the head of the queue may take its room (R310). DESIGN CHOICE (log 37). -/
def execQuantumExpiry (cast : Nat) (s : State) : Host.Outcome State Fault Refusal :=
  let c := s.cast cast
  .next (
    if (c.st = .running ∨ c.st = .raised) ∧ c.quantum.isNone ∧ !(s.pour c.pour).resident ∧
        c.startedAt + quantumClocks ≤ s.now then
      ({ s.modCast cast fun x => { x with quantum := some s.nextOrd } with nextOrd := s.nextOrd + 1 }).makePlace
        (coreHearth c.anchor)
    else s)

/-! ### Active sets (R311, R312) -/

/-- The slots of a partition with a ready hoist outside its active set, longest ready first (R312). -/
def State.pendingReady (s : State) (gc part : Nat) : List Nat :=
  let c := s.core gc
  let act := Sparse.get [] c.active part
  ((List.range 32).map (fun k => 32 * part + k)).filter fun k => !act.contains k && s.slotReady gc k

/-- The least slot by a time; the lowest number among equals. -/
def earliest (t : Nat → Nat) : List Nat → Option Nat
  | [] => none
  | k :: ks =>
    match earliest t ks with
    | some j => if t j < t k then some j else some k
    | none => some k

/-- Rules 1 and 2 of R312: hoists that wait leave the active set, and the pending hoists that have been ready longest take
the free places. DEDUCED (log 60). -/
def State.fillActive (s : State) (gc part : Nat) : Nat → State
  | 0 => s
  | n + 1 =>
    let c := s.core gc
    let act := (Sparse.get [] c.active part).filter (s.slotBusy gc)
    let s1 := s.setCore gc { c with active := Sparse.set [] c.active part act }
    if 8 ≤ act.length then s1
    else match earliest (fun k => Sparse.get 0 c.readyAt k) (s1.pendingReady gc part) with
      | some k => (s1.setCore gc { c with active := Sparse.set [] c.active part (act ++ [k])
                                          activeAt := Sparse.set 0 c.activeAt k s.now }).fillActive gc part n
      | none => s1

/-- Rule 1 of R312: a hoist of the active set that waits leaves it at once. -/
def State.leaveActive (s : State) (gc part : Nat) : State :=
  s.modCore gc fun c => { c with active := Sparse.set [] c.active part ((Sparse.get [] c.active part).filter (s.slotBusy gc)) }

/-- The exchange of R312, rule 3, that is due in a partition: the pending hoist ready longest, for at least 512 clocks, and the
active hoist that has been active longest, 64 clocks after the last exchange. -/
def State.exchangeDue (s : State) (gc part : Nat) : Option (Nat × Nat) :=
  let c := s.core gc
  match earliest (fun k => Sparse.get 0 c.readyAt k) (s.pendingReady gc part),
        earliest (fun k => Sparse.get 0 c.activeAt k) (Sparse.get [] c.active part) with
  | some k, some j =>
    let last := Sparse.get 0 c.swapped part
    if Sparse.get 0 c.readyAt k + 512 ≤ s.now ∧ (last = 0 ∨ last + 64 ≤ s.now) then some (k, j) else none
  | _, _ => none

/-- The exchange of R312, rule 3, takes place if it is due. -/
def State.exchange (s : State) (gc part : Nat) : State :=
  let c := s.core gc
  match s.exchangeDue gc part with
  | some (k, j) =>
    s.setCore gc { c with
      active := Sparse.set [] c.active part ((Sparse.get [] c.active part).filter (· ≠ j) ++ [k])
      activeAt := Sparse.set 0 c.activeAt k s.now
      readyAt := Sparse.set 0 c.readyAt j s.now
      swapped := Sparse.set 0 c.swapped part s.now }
  | none => s

/-- ACTIVE_SET_EXCHANGE (R312, rule 3). -/
def execActiveSetExchange (gc part : Nat) (s : State) : Host.Outcome State Fault Refusal := .next (s.exchange gc part)

/-! ### Waits that end (R312) -/

/-- A packet with this number of this source is still to be applied. DEDUCED (log 45). -/
def State.inFlightNum (s : State) (src : Nat) (seq : Word) : Bool := s.net.any fun p => p.src = src && p.seq = seq && !p.lost

/-- A copy command holds translations of a segment in hand, or a collective those of its record, or what the command has posted to
translated addresses is still to be applied (R407). DEDUCED (log 45). -/
def State.cmdUses (s : State) (k : Nat) : Bool :=
  let c := s.cmd k
  (match c.eng with
   | .copy => c.stage = .active && (c.asked || c.buf.isSome)
   | .bank => false
   | .coll => c.stage = .active || c.stage = .results) ||
  (c.eng ≠ .bank && c.posted.any fun q => s.inFlightNum (coreSrc c.gc 0 (if c.eng = .copy then 1 else 3)) q.2)

/-- The wait of an entry has ended, as far as the state beside the instruction's own operands tells: the waits on registers,
queues, contexts and engines are asked again by issuing the instruction. -/
def State.waitOver (s : State) (x : Frag) (w : Wait) : Bool :=
  match w with
  | .full => x.fills.isEmpty || x.vempty = 0 && x.sempty = 0
  | .queue _ | .context _ | .tile | .engine | .pin => true
  | .invalidate ps ks ms => ps.all (fun p => !s.inFlightNum p.1 p.2) && ks.all (fun k => !s.cmdUses k) &&
      ms.all fun m => !(((s.cast m.1).ctx m.2.1).queue.any fun q => q.num = m.2.2)
  | .ticket pa n => s.readLE pa 8 = n
  | .mwait a b =>
    let c := s.cast (s.castOf x)
    decide (a ≤ c.c0.retired) && decide (b ≤ c.c1.retired)
  | .walk ctx p => !((s.hearth (coreHearth x.gc)).walks.contains (ctx, p))
  | .hold => !s.lateAt x.gc && x.pseq.all fun e => e.tgt ≠ coreHearth x.gc || !s.pendingTo e.src e.tgt e.seq
  | .waita .. | .mbind .. | .pourw _ | .join _ | .bar _ | .promote .. => false
  | .waitm _ => true
  | .release => s.performed x || s.coreDone x || x.pseq.all fun e => !s.pendingTo e.src e.tgt e.seq
  | .slots => true
  | .stall t d => decide (d ≤ s.now) || !((s.core x.gc).hints.any fun h => h.target = t)

/-- What MWAIT and TLBINV are about has come about when their wait ends, and they do not wait again. -/
def Wait.ends (w : Wait) : Bool :=
  match w with
  | .mwait .. | .invalidate .. => true
  | _ => false

/-- HOIST_READY: the waits of a fragment's entries that have ended are over (R312, rule 4). A stall hint that has lapsed does
not defer the same instruction again (R290). -/
def execHoistReady (f : Nat) (s : State) : Host.Outcome State Fault Refusal :=
  let x := s.frag f
  let ended (e : Entry) : Bool := match e.wait with | some w => s.waitOver x w | none => false
  let stalled := x.entries.filter fun e => match e.wait with | some (.stall ..) => ended e | _ => false
  .next (
    if x.onCore && x.entries.any ended then
      (s.noteReady f).setFrag f { x with
        entries := x.entries.map fun e =>
          if ended e then { e with wait := none, woken := e.woken || (e.wait.map Wait.ends).getD false } else e
        hinted := x.hinted ++ stalled.map fun e => (e.prio, e.pc) }
    else s)

/-- POLL_BACKOFF_EXPIRY (R256). -/
def execPollBackoffExpiry (f : Nat) (s : State) : Host.Outcome State Fault Refusal :=
  let x := s.frag f
  .next (
    match x.pause with
    | some t => if t ≤ s.now then (s.noteReady f).setFrag f { x with pause := none } else s
    | none => s)

/-- SLEEP_EXPIRY (R353). -/
def execSleepExpiry (f : Nat) (s : State) : Host.Outcome State Fault Refusal :=
  let x := s.frag f
  .next (
    match x.sleep with
    | some t => if t ≤ s.now then (s.noteReady f).setFrag f { x with sleep := none } else s
    | none => s)

/-- WAITA_WAKE: a write has been applied to a location that a WAITA waits on; its final reads follow (R255). -/
def execWaitaWake (f : Nat) (s : State) : Host.Outcome State Fault Refusal :=
  let x := s.frag f
  let hit (w : Wait) : Bool := match w with | .waita _ _ b => b | _ => false
  .next (
    if x.onCore && x.entries.any fun e => match e.wait with | some w => hit w | none => false then
      (s.noteReady f).setFrag f (x.release hit true)
    else s)

/-- POURW_WAKE: the STATUS that a POURW waits for is final (R357). -/
def execPourwWake (f : Nat) (s : State) : Host.Outcome State Fault Refusal :=
  let x := s.frag f
  let due (w : Wait) : Bool := match w with | .pourw r => finalStatus (s.readLE (r + 0x52) 2) | _ => false
  .next (
    if x.onCore && x.entries.any fun e => match e.wait with | some w => due w | none => false then
      (s.noteReady f).setFrag f (x.release due false)
    else s)

/-- JOIN_COMPLETE: a waiting JOIN is asked again, because its register has been written or another lane is held; when every
named lane is held it completes; and a hoist whose end has waited for its release ends (R327, R350). -/
def execJoinComplete (f : Nat) (s : State) : Host.Outcome State Fault Refusal :=
  let x := s.frag f
  .next (
    if !x.onCore then s
    else match x.entries.find? fun e => match e.wait with | some (.join k) => s.joinDue x.hoist k e.mask | _ => false with
      | some e => (s.noteReady f).setFrag f { x with
          entries := x.entries.map fun d => if d.prio = e.prio ∧ d.pc = e.pc then { d with wait := none } else d }
      | none => s.endHoist x.hoist)

/-- BARRIER_OPEN: the arrivals of a barrier reach its count (R352). -/
def execBarrierOpen (cast num : Nat) (s : State) : Host.Outcome State Fault Refusal := .next (s.openBarrier cast num)

/-! ### Loop ends (R341) -/

/-- The end test of the innermost loop, and of the loops that end at the same instruction (R341). DEDUCED (log 19). -/
def Frag.endTest (x : Frag) : Nat → Frag
  | 0 => x
  | n + 1 =>
    match x.loops with
    | [] => x
    | lp :: rest =>
      let ended := x.atEnd
      if 1 < lp.count.toNat then
        (Frag.goTo { x with atEnd := [], loops := { lp with count := lp.count - 1 } :: rest } lp.prio lp.start
          (entryLanes ended))
      else
        match rest with
        | [] => ended.foldl (fun y e => Frag.goTo y e.prio e.pc e.mask) { x with atEnd := [], loops := [] }
        | l2 :: _ =>
          if l2.stop = lp.stop then Frag.endTest { x with loops := rest } n
          else ended.foldl (fun y e => Frag.goTo y e.prio e.pc e.mask) { x with atEnd := [], loops := rest }

/-- LOOP_END_TEST (R341). -/
def execLoopEndTest (f : Nat) (s : State) : Host.Outcome State Fault Refusal :=
  let x := s.frag f
  .next (if x.live && x.endDue then s.setFrag f (x.endTest 4) else s)

/-! ### The end of a cast (R324, R325, R327) -/

/-- Nothing that a cast has sent is still on its way: its posted packets are acknowledged, its ingots have landed, and its
contributions are accepted (R292, R324). An accepted matrix instruction may still post (R206). -/
def State.castBalanced (s : State) (c : Nat) : Bool :=
  (s.cast c).c0.queue.isEmpty && (s.cast c).c1.queue.isEmpty &&
  !(s.net.any fun p => p.cast = some c) && !(s.cores.any fun q => q.2.unacked.any fun u => u.cast = some c) &&
    !(s.unacked.any fun u => u.cast = some c)

/-- The pennant of a cast: one posted packet for each successor, from the anchor core's control unit (R325). -/
def State.sendPennant (s : State) (c : Nat) : State :=
  let x := s.cast c
  let p := s.pour x.pour
  let s1 := s.modCast c fun y => { y with psent := true }
  if !p.deps then s1
  else (p.succs x.index).foldl (fun a k =>
    a.send (recordSrc x.anchor) (paHearth (p.sbPa (sbEntry k))) p.ctx false (some c) (.pennant x.pour k)) s1

/-- CAST_RETIREMENT (R324): the pennant goes out unless it has been sent; the placement hearth writes RETIRED, and the launch
hearth counts the cast in NRET. -/
def execCastRetirement (cast : Nat) (s : State) : Host.Outcome State Fault Refusal :=
  let c := s.cast cast
  let p := s.pour c.pour
  let gh := coreHearth c.anchor
  .next (
    if p.st ≠ .accepted ∨ !(c.st = .running ∨ c.st = .raised) ∨ c.parking ∨ !s.castExited cast ∨ !s.castBalanced cast then s
    else
      let s1 := if c.psent then s else s.sendPennant cast
      let s2 := (s1.modCast cast fun x => { x with psent := true }).setCastState gh cast .retired
      let s3 := s2.modPour c.pour fun q => { q with nret := q.nret + 1 }
      let s4 :=
        if p.deps then
          s3.send (seqrSrc (16 * p.pkg + p.hearth)) (paHearth (p.sbPa 0x10)) p.ctx false none
            (.reduction .add .n64 [WriteOp.clean (p.sbPa 0x10) 8 1])
        else s3
      s4.settleCast cast)

/-- A hoist is raised: every lane has executed RAISE or exited (R355). -/
def Hoist.isRaised (h : Hoist) : Bool := h.raised ||| h.exited = BitVec.allOnes 32

/-- EARLY_PENNANT (R327). -/
def execEarlyPennant (cast : Nat) (s : State) : Host.Outcome State Fault Refusal :=
  let c := s.cast cast
  .next (
    if (s.pour c.pour).st = .accepted ∧ (s.pour c.pour).deps ∧ c.st = .running ∧ !c.parking ∧ c.raiser ∧ !c.psent ∧
        (s.castHoists cast).all (fun hk => (s.hoist hk).isRaised) then
      (s.sendPennant cast).setCastState (coreHearth c.anchor) cast .raised
    else s)

/-! ### The end of a pour (R315) -/

/-- A packet of a source is settled: it has been applied and its acknowledgement has arrived (R275). -/
def State.settled (s : State) (src tgt : Nat) (seq : Word) : Bool := !s.awaits src tgt seq

/-- Step 3 of R315: the slot and the reservation are free, and the scoreboard's pages are unpinned (R322). -/
def State.freePour (s : State) (p : Nat) (st : PourState) : State :=
  let q := s.pour p
  let s1 := q.pins.foldl State.unpin s
  (s1.modHearth (16 * q.pkg + q.hearth) fun h => { h with slots := h.slots.filter (· ≠ p) }).setPour p
    { q with st, resv := [], pins := [] }

/-- The completion word of a pour is posted, to device or host memory (R315). -/
def State.postCompletion (s : State) (p v : Nat) : State :=
  let q := s.pour p
  match q.caddr with
  | some pa => s.postWrites (16 * q.pkg + q.hearth) q.ctx [WriteOp.clean pa 8 v]
  | none => s

/-- What the casts of a killed pour have sent has landed, and its copy and bank commands have ended (R414, steps 3 and 4). -/
def State.killQuiet (s : State) (p : Nat) : Bool :=
  let mine : Option Nat → Bool := fun c => match c with | some k => ofPour p k | none => false
  !(s.net.any fun x => mine x.cast) && !(s.cores.any fun q => q.2.unacked.any fun u => mine u.cast) &&
    !(s.unacked.any fun u => mine u.cast) &&
    s.cmds.all fun q => !ofPour p q.2.cast || q.2.eng = .coll || q.2.stage = .done

/-- POUR_COMPLETION: DONE is posted once every cast has retired; when that store is acknowledged the completion word follows,
and the slot is free (R315). A killed pour ends in the same way, with KILLED and the complement of its value (R414, step 5). -/
def execPourCompletion (pour : Nat) (s : State) : Host.Outcome State Fault Refusal :=
  let q := s.pour pour
  let gh := 16 * q.pkg + q.hearth
  .next (
    match q.st with
    | .accepted =>
      if q.nret = q.ncast then
        let s1 := s.postStatus gh q.ctx q.recPa stDone
        s1.modPour pour fun x => { x with st := .finishing, lastSeq := s1.lastSeq (seqrSrc gh) }
      else s
    | .finishing =>
      if s.settled (seqrSrc gh) (paHearth q.recPa) q.lastSeq then
        (s.postCompletion pour (q.word 0x18 8)).freePour pour .done
      else s
    | .killing =>
      if s.killQuiet pour then
        let s1 := s.postStatus gh q.ctx q.recPa stKilled
        s1.modPour pour fun x => { x with st := .stopped, lastSeq := s1.lastSeq (seqrSrc gh) }
      else s
    | .stopped =>
      if s.settled (seqrSrc gh) (paHearth q.recPa) q.lastSeq then
        (s.postCompletion pour (2 ^ 64 - 1 - q.word 0x18 8)).freePour pour .killed
      else s
    | _ => s)

end Sys2Proof.Machine
end

