-- ==== Sys2Proof/Machine/Matrix.lean ====
section
/-! DEFINITION. The matrix instructions at issue (R181, R182, R188, R189, R192 to R206): their checks in order, and their
acceptance; COMP48 and LUTB (R199, R200), and the bindings of MBIND and MFREE (R196, R198). -/

namespace Sys2Proof.Machine

/-! ### Contexts at issue (R181, R182) -/

/-- The cast holds context `k` (R180). -/
def State.holdsCtx (s : State) (c : Nat) (k : Bool) : Bool :=
  decide ((if k then 1 else 0) < (s.pour (s.cast c).pour).banks)

/-- The queue of a context is full (R182). -/
def MCtx.full (m : MCtx) : Bool := decide (2 ≤ m.queue.length)

/-- The context that an instruction accepted next would find bound to a leader: an MFREE in the queue ends the binding first (R198). -/
def MCtx.leader (m : MCtx) : Option (Nat × Bool) := if m.queue.any fun q => q.op = .mfree then none else m.leads

/-- Before its checks a context instruction waits while the queue is full, or the context is bound as a follower; a paired
one also while the follower's queue is full (R182, R196, R197). -/
def Ix.checkRoom (i : Ix) (k pair : Bool) : Except Stop Unit :=
  let c := i.s.castOf i.x
  let m := (i.s.cast c).ctx k
  let far := match m.leader with
    | some (d, j) => pair && ((i.s.cast d).ctx j).full
    | none => false
  guardStop (i.s.holdsCtx c k && (m.follows.isSome || m.full || far)) (.wait (.context k))

/-- EMPTY, ABSENT and POISON for the register sources of a matrix instruction; the lanes of these causes are those of G (R61,
R112, R188, R207). -/
def Ix.checkOperands (i : Ix) (us : List Use) : Except Stop Unit := do
  i.checkEmpty us
  guardStop (i.s.debug i.x && us.any fun u => i.anyReg i.x.vabsent i.x.sabsent u.o u.n) (.trap Cause.absent 0 i.g)
  guardStop ((i.s.trapEnt i.x).tpoison && us.any fun u => i.poisonLanes u.o u.n i.g ≠ 0) (.trap Cause.poison 0 i.g)

/-- FORMAT for the lanes of G. DEDUCED (log 68). -/
def Ix.checkFormat (i : Ix) (bad : Bool) : Except Stop Unit := guardStop bad (.trap Cause.format 0 i.g)

/-- The vote over the format word, and its contents (R189). DEDUCED (log 68). -/
def Ix.vote (i : Ix) (o : Opnd) : Except Stop Word := do
  let w := (i.read o .w32 (lowestLane i.g)).word
  let bad := i.lanesIf fun l => (i.read o .w32 l).word ≠ w
  guardStop (bad ≠ 0) (.trap Cause.format 0 bad)
  i.checkFormat !(fmtLegal w)
  pure w

/-- A use of a register without an empty-behaviour choice of its own. -/
def Ix.useC (_ : Ix) (h : Hdr) (o : Ops) : Use := { o := o.c, n := 1, bit := h.ec }

/-! ### Tiles at issue (R184 to R188) -/

/-- STRIDE is 0, or a row is longer than the stride. -/
def badStride (d : DWord) (y : Layout) : Bool := decide (tileStride d = 0 ∨ tileStride d < y.l)

/-- ALIGN: OFS is not a multiple of 64 (R188). -/
def Ix.checkTileAlign (i : Ix) (d : DWord) : Except Stop Unit :=
  guardStop (decide (tileOfs d % 64 ≠ 0)) (.trap Cause.align (BitVec.ofNat 64 (tileOfs d)) i.g)

/-- SCRATCH: a tile outside its cast's allocation, or a breach of R187. -/
def Ix.checkTile (i : Ix) (d : DWord) (y : Layout) (write : Bool) : Except Stop Unit :=
  let c := i.s.castOf i.x
  let p := i.s.pour (i.s.cast c).pour
  let bad := if tilePv d then write || decide (p.gangSize ≤ tilePeer d) else decide (tilePeer d ≠ 0)
  guardStop (bad || decide (p.spad < tileEnd d y)) (.trap Cause.scratch (BitVec.ofNat 64 (tileOfs d)) i.g)

/-- R190: the bytes of the issuing hoist's own cast that earlier instructions of the hoist have still to read or write. -/
def Ix.checkHeld (i : Ix) (write : Bool) (ofs n : Nat) : Except Stop Unit :=
  guardStop (i.s.tileHeld i.x.hoist write ofs n) (.wait .tile)

/-- The same for a tile, if it lies in the own cast's scratchpad. -/
def Ix.checkTileHeld (i : Ix) (d : DWord) (y : Layout) (write : Bool) : Except Stop Unit :=
  if tilePv d && i.s.peerOf (i.s.castOf i.x) (tilePeer d) ≠ i.s.castOf i.x then pure ()
  else i.checkHeld write (tileOfs d) (tileEnd d y - tileOfs d)

/-- The extents of R186. -/
def extentsOk (k : MacKind) (w : Word) (pair : Bool) (m n kk : Nat) : Bool :=
  let eight (hi : Nat) : Bool := decide (8 ≤ kk ∧ kk ≤ hi ∧ kk % 8 = 0)
  decide (m ≤ 128 ∧ n ≤ if pair then 512 else 256) &&
    (match k with
     | .mmas => eight 512
     | .mmal => if fmtB w = 8 then eight 1024 else eight 512
     | .mma =>
       match fmtA w with
       | 2 => eight 512
       | 3 | 4 => decide (kk ≤ 128)
       | 5 => decide (kk ≤ 64)
       | _ => decide (kk ≤ 256))

/-! ### Metadata of MMAS (R194) -/

/-- The groups of an A tile. -/
def metaGroups (da : DWord) : Nat := tileRows da * tileK da / 8

/-- The registers that the metadata occupy: ⌈Q ÷ 64⌉ for Q = M × K ÷ 8. -/
def metaRegs (da : DWord) : Nat := (tileRows da * tileK da + 511) / 512

/-- The metadata as read at acceptance: an element of each register for each lane, absent lanes zero (R139, R194). -/
def Ix.metaWords (i : Ix) (first n : Nat) : List Word :=
  (List.range n).flatMap fun r => (List.range 32).map fun l =>
    if i.present l then i.h.elem (i.x.wbase + first + r) l else 0

/-- Index `j` of group `q`. -/
def metaIndex (ws : List Word) (q j : Nat) : Nat :=
  let w := (ws.getD (32 * (q / 64) + q % 32) 0).toNat
  w / 2 ^ (12 * (q / 32 % 2) + 3 * j) % 8

/-- The indices of a group rise. -/
def metaRises (ws : List Word) (q : Nat) : Bool :=
  decide (metaIndex ws q 0 < metaIndex ws q 1 ∧ metaIndex ws q 1 < metaIndex ws q 2 ∧ metaIndex ws q 2 < metaIndex ws q 3)

/-- The metadata run lies within the allotment (R188, step 2, R194). -/
def Ix.checkRun (i : Ix) (first : Nat) (da : DWord) : Except Stop Unit :=
  guardStop (decide ((i.s.pour (i.s.pourOf i.x)).allot < i.x.wbase + first + metaRegs da)) (.trap Cause.window 0 i.g)

/-- Step 2 of R188 at the anchor: WINDOW, then the registers, which wait while empty; a poisoned one is read like any register. -/
def Ix.metadata (i : Ix) (first : Nat) (da : DWord) : Except Stop (List Word) := do
  let n := metaRegs da
  let base := i.x.wbase + first
  i.checkRun first da
  let regs := (List.range n).map (base + ·)
  guardStop (regs.any i.x.vempty.getLsbD) (.wait .full)
  guardStop (i.s.debug i.x && regs.any i.x.vabsent.getLsbD) (.trap Cause.absent 0 i.g)
  guardStop ((i.s.trapEnt i.x).tpoison && regs.any fun r => (lanesOf i.x.lanes).any (i.h.elemMark r))
    (.trap Cause.poison 0 i.g)
  pure (i.metaWords first n)

/-- Step 6 of R188: the lanes that carry a group whose indices do not rise (R194). -/
def Ix.checkMeta (_ : Ix) (ws : List Word) (groups : Nat) : Except Stop Unit :=
  let bad := maskOf fun l => (List.range groups).any fun q => q % 32 = l && !metaRises ws q
  guardStop (bad ≠ 0) (.trap Cause.mdata 0 bad)

/-! ### Acceptance (R182, R191) -/

/-- An instruction in its F128 form (R78). -/
def Instr.longForm (ins : Instr) : BitVec 128 :=
  match ins.fields with
  | some f => ({ f with form := .f128 } : Fields).word
  | none => 0

/-- What an image keeps of an instruction at its acceptance (R404). -/
def Ix.saved (i : Ix) (ins : Instr) (o : Ops) : MWord :=
  let l := lowestLane i.g
  { word := Instr.longForm ins, sa := (i.read o.a (.bw true) l).bits, sb := (i.read o.b (.bw true) l).bits
    sc := (i.read o.c .w32 l).word }

/-- An instruction joins the queue of a context. -/
def State.acceptInst (s : State) (c : Nat) (k : Bool) (op : MOp) (saved : MWord) (hk : Nat) (mate : Option (Bool × Nat × Bool)) :
    State :=
  s.modCtx c k fun m => { m with
    queue := m.queue ++ [{ op, saved, hoist := hk, num := m.accepted, running := false, posted := none, a := .none, b := .none, mate }]
    accepted := m.accepted + 1 }

/-- The instruction is accepted, and the entry goes on. -/
def Ix.accepted (i : Ix) (k : Bool) (op : MOp) (saved : MWord) (s : State) : State :=
  i.done (s.acceptInst (i.s.castOf i.x) k op saved i.x.hoist none)

/-- A multiply-accumulate instruction joins the queue of its context, and a paired one the follower's as well (R197). -/
def State.acceptMac (s : State) (c : Nat) (k pair : Bool) (op : MOp) (saved : MWord) (hk : Nat) : State :=
  match pair, ((s.cast c).ctx k).leader with
  | true, some (d, j) => (s.acceptInst c k op saved hk (some (true, d, j))).acceptInst d j op saved hk (some (false, c, k))
  | _, _ => s.acceptInst c k op saved hk none

/-! ### MMA, MMAS and MMAL (R192 to R197) -/

/-- Steps 1 to 5 of R188 for a multiply-accumulate instruction: the two descriptors, the metadata and the format word. The metadata
are read at the anchor (R194). -/
def Ix.macChecks (i : Ix) (h : Hdr) (o : Ops) (kind : MacKind) (k pair : Bool) (first : Nat) :
    Except Stop (DWord × DWord × List Word × Word) := do
  i.checkOperands [{ o := o.a, n := 1, bit := h.ea }, { o := o.b, n := 1, bit := h.eb }, i.useC h o]
  let c := i.s.castOf i.x
  let da := (i.uniform o.a (.bw true)).bits
  let db := (i.uniform o.b (.bw true)).bits
  let ws ← if kind ≠ .mmas then pure []
    else if i.s.atAnchor i.x then i.metadata first da
    else do i.checkRun first da; pure []
  let w ← i.vote o.c
  let ya := layoutA kind w da
  let yb := layoutB kind w db
  i.checkFormat (!kind.accepts w || !i.s.holdsCtx c k || !extentsOk kind w pair (tileRows da) (tileRows db) (tileK da) ||
    tileK da ≠ tileK db || badStride da ya || badStride db yb || (pair && ((i.s.cast c).ctx k).leader.isNone))
  i.checkTileAlign da
  i.checkTileAlign db
  i.checkTile da ya false
  i.checkTile db yb false
  pure (da, db, ws, w)

/-- A multiply-accumulate instruction at issue. -/
def Ix.mac (i : Ix) (h : Hdr) (o : Ops) (kind : MacKind) (k pair : Bool) (first : Nat) (lsel : BitVec 4) (ins : Instr) : State :=
  i.run do
    let (da, db, ws, w) ← i.anchored lsel (i.checkRoom k pair) (i.macChecks h o kind k pair first)
    if kind = .mmas then i.checkMeta ws (metaGroups da) else pure ()
    i.checkTileHeld da (layoutA kind w da) false
    i.checkTileHeld db (layoutB kind w db) false
    let op : MOp := .mac kind da db w ws pair
    let s1 := i.countUse (i.poisonLanes o.a 1 i.g ≠ 0 || i.poisonLanes o.b 1 i.g ≠ 0 || i.poisonLanes o.c 1 i.g ≠ 0) i.s
    pure (i.done (s1.acceptMac (i.s.castOf i.x) k pair op (i.saved ins o) i.x.hoist))

/-- MMA (R192, R193). -/
def execMma (h : Hdr) (o : Ops) (ctx pair : Bool) (lsel : BitVec 4) (s : State) : Host.Outcome State Fault Refusal :=
  .next ((Ix.of s h).mac h o .mma ctx pair 0 lsel (.mma h o ctx pair lsel))

/-- MMAS (R192, R194). -/
def execMmas (h : Hdr) (o : Ops) (ctx pair : Bool) (first : BitVec 6) (lsel : BitVec 4) (s : State) :
    Host.Outcome State Fault Refusal :=
  .next ((Ix.of s h).mac h o .mmas ctx pair first.toNat lsel (.mmas h o ctx pair first lsel))

/-- MMAL (R192, R195). -/
def execMmal (h : Hdr) (o : Ops) (ctx pair : Bool) (lsel : BitVec 4) (s : State) : Host.Outcome State Fault Refusal :=
  .next ((Ix.of s h).mac h o .mmal ctx pair 0 lsel (.mmal h o ctx pair lsel))

/-! ### LUTB (R200) -/

/-- Entry `x` of the table of four activations (R121). -/
def lutEntry (a : Nat → Int) (x : Nat) : Int :=
  (List.range 4).foldl (fun n t => if x / 2 ^ t % 2 = 1 then n + a t else n - a t) 0

/-- The 32 bytes of a table, as a number. -/
def lutTable (signed : Bool) (w : Nat) : Nat :=
  let a (t : Nat) : Int := if signed then signedVal (w / 2 ^ (8 * t)) 8 else ((w / 2 ^ (8 * t) % 256 : Nat) : Int)
  (List.range 16).foldl (fun n x => n + wrapTo (lutEntry a x) 16 * 2 ^ (16 * x)) 0

/-- LUTB (R200). DESIGN CHOICE (log 131). -/
def execLutb (h : Hdr) (o : Ops) (signed : Bool) (lsel : BitVec 4) (s : State) : Host.Outcome State Fault Refusal :=
  let i := Ix.of s h
  .next (i.run do
    let b := (i.uniform o.b .w32).bits.toNat % 2 ^ 23
    let c := i.s.castOf i.x
    let ofs := fun l => b + 32 * l
    i.anchored lsel (pure ()) do
      i.checkOperands [{ o := o.a, n := 1, bit := h.ea }, { o := o.b, n := 1, bit := h.eb }]
      guardStop (decide (b % 32 ≠ 0)) (.trap Cause.align (BitVec.ofNat 64 b) i.g)
      i.trapLanes Cause.scratch (fun l => decide (i.s.spadBytes c < ofs l + 32)) ofs
    guardStop ((lanesOf i.g).any fun l => i.s.tileHeld i.x.hoist true (ofs l) 32) (.wait .tile)
    let s1 := (lanesOf i.g).foldl (fun s l =>
      let v := i.read o.a .w32 l
      (s.modCast c fun k => k.swrite (ofs l) 32 (lutTable signed v.bits.toNat) v.poison).noteSpad i.x.gc c (ofs l) 32 none) i.s
    pure (i.done (i.countUse (i.poisonLanes o.b 1 i.g ≠ 0) s1)))

/-! ### COMP48 (R199) -/

/-- The magnitude of an element as a class and a value to compare in it (R199). -/
def compMag (t : Ty) (e : Nat) : Nat × FV :=
  match t with
  | .i8 => (0, .fin false (signedVal e 8).natAbs 0)
  | .n8 => (0, .fin false e 0)
  | _ =>
    match (Fmt.ofTy t).val e with
    | .nan => (2, .fin false 0 0)
    | .inf _ => (1, .fin false 0 0)
    | .fin _ m x => (0, .fin false m x)

/-- Element `a` at index `i` goes before element `b` at index `j`: the larger magnitude, then the lower index (R199). -/
def compBefore (t : Ty) (a b i j : Nat) : Bool :=
  let x := compMag t a
  let y := compMag t b
  decide (y.1 < x.1) || (x.1 = y.1 && (y.2.lt x.2 || (!x.2.lt y.2 && decide (i < j))))

/-- The indices of the four elements kept of eight, in ascending order (R199). -/
def compKeep (t : Ty) (es : List Nat) : List Nat :=
  (List.range 8).filter fun i =>
    decide (((List.range 8).filter fun j => j ≠ i && compBefore t (es.getD j 0) (es.getD i 0) j i).length < 4)

/-- The kept elements packed. -/
def compPack (es ks : List Nat) : Nat :=
  (List.range 4).foldl (fun n j => n + es.getD (ks.getD j 0) 0 * 2 ^ (8 * j)) 0
/-- The metadata of a group. -/
def compMeta (ks : List Nat) : Nat := (List.range 4).foldl (fun n j => n + ks.getD j 0 * 2 ^ (3 * j)) 0

/-- The two words of the group of lane `l` (R139, R199). DEDUCED (log 71). -/
def Ix.compSources (i : Ix) (o : Ops) (l : Nat) : Val × Val :=
  let src := if l < 16 then o.a else o.b
  (i.readLane src .w32 (2 * (l % 16)), i.readLane src .w32 (2 * (l % 16) + 1))

/-- COMP48 (R199). DEDUCED (log 71). -/
def execComp48 (h : Hdr) (o : Ops) (t : Ty) (hi : Bool) (s : State) : Host.Outcome State Fault Refusal :=
  let i := Ix.of s h
  let readA := maskOf fun j => i.present j && (lanesOf i.g).any fun l => decide (l < 16) && l % 16 = j / 2
  let readB := maskOf fun j => i.present j && (lanesOf i.g).any fun l => decide (16 ≤ l) && l % 16 = j / 2
  .next (i.run do
    i.checkEmpty (i.uses h o .w32 .w32 .w32)
    i.checkSources [{ o := o.a, n := 1, bit := h.ea }] readA
    i.checkSources [{ o := o.b, n := 1, bit := h.eb }] readB
    i.checkSources [i.useC h o] i.g
    i.checkDests [(o.d, 1), (o.d2, 1)]
    let res := (lanesOf i.g).map fun l =>
      let (x, y) := i.compSources o l
      let es := (List.range 8).map fun k => (x.bits.toNat + y.bits.toNat * 2 ^ 32) / 2 ^ (8 * k) % 256
      let ks := compKeep t es
      let c := i.read o.c .w32 l
      let old := c.bits.toNat
      let m := compMeta ks
      let d2 := if hi then old - old / 2 ^ 12 % 2 ^ 12 * 2 ^ 12 + m * 2 ^ 12 else old - old % 2 ^ 12 + m
      (l, ({ bits := BitVec.ofNat 64 (compPack es ks), poison := x.poison || y.poison } : Val),
          ({ bits := BitVec.ofNat 64 d2, poison := x.poison || y.poison || c.poison } : Val))
    let s1 := i.write i.s o.d .b32 (res.map fun r => (r.1, r.2.1))
    pure (i.done (i.write s1 o.d2 .b32 (res.map fun r => (r.1, r.2.2)))))

/-! ### ACLR, ALDS, ASTS and ARD (R201 to R203) -/

/-- ACLR (R201). -/
def execAclr (h : Hdr) (o : Ops) (ctx : Bool) (lsel : BitVec 4) (s : State) : Host.Outcome State Fault Refusal :=
  let i := Ix.of s h
  .next (i.run do
    i.anchored lsel (i.checkRoom ctx false) (i.checkFormat !(i.s.holdsCtx (i.s.castOf i.x) ctx))
    pure (i.accepted ctx .aclr (i.saved (.aclr h o ctx lsel) o) i.s))

/-- ALDS (R202). DESIGN CHOICE (log 129). -/
def execAlds (h : Hdr) (o : Ops) (t : Ty) (ctx : Bool) (lsel : BitVec 4) (s : State) : Host.Outcome State Fault Refusal :=
  let i := Ix.of s h
  .next (i.run do
    let d := (i.uniform o.a (.bw true)).bits
    let y := layoutT t d
    i.anchored lsel (i.checkRoom ctx false) do
      i.checkOperands [{ o := o.a, n := 1, bit := h.ea }]
      i.checkFormat (!i.s.holdsCtx (i.s.castOf i.x) ctx || decide (128 < tileRows d ∨ 256 < tileK d) || badStride d y)
      i.checkTileAlign d
      i.checkTile d y false
    i.checkTileHeld d y false
    pure (i.accepted ctx (.alds t d) (i.saved (.alds h o t ctx lsel) o) (i.countUse (i.poisonLanes o.a 1 i.g ≠ 0) i.s)))

/-- The accumulator type and the TYPE of a readback agree (R202). -/
def readbackOk (t : Ty) (w : Word) : Bool := t = .b32 || Ty.isFloat t != fmtInt w

/-- ASTS (R202). DESIGN CHOICE (log 129). -/
def execAsts (h : Hdr) (o : Ops) (t : Ty) (ctx : Bool) (lsel : BitVec 4) (s : State) : Host.Outcome State Fault Refusal :=
  let i := Ix.of s h
  .next (i.run do
    let d := (i.uniform o.a (.bw true)).bits
    let y := layoutT t d
    let w ← i.anchored lsel (i.checkRoom ctx false) do
      i.checkOperands [{ o := o.a, n := 1, bit := h.ea }, i.useC h o]
      let w ← i.vote o.c
      i.checkFormat (!readbackOk t w || !i.s.holdsCtx (i.s.castOf i.x) ctx || decide (128 < tileRows d ∨ 256 < tileK d) ||
        badStride d y)
      i.checkTileAlign d
      i.checkTile d y true
      pure w
    i.checkTileHeld d y true
    let s1 := i.countUse (i.poisonLanes o.a 1 i.g ≠ 0 || i.poisonLanes o.c 1 i.g ≠ 0) i.s
    pure (i.accepted ctx (.asts t d w) (i.saved (.asts h o t ctx lsel) o) s1))

/-- ARD: the destination is empty from acceptance until it runs (R203). -/
def execArd (h : Hdr) (o : Ops) (t : Ty) (ctx : Bool) (lsel : BitVec 4) (s : State) : Host.Outcome State Fault Refusal :=
  let i := Ix.of s h
  .next (i.run do
    let w ← i.anchored lsel (i.checkRoom ctx false) do
      i.checkOperands [{ o := o.b, n := 1, bit := h.eb }, i.useC h o]
      i.checkDests [(o.d, 1)]
      let w ← i.vote o.c
      i.checkFormat (!readbackOk t w || !i.s.holdsCtx (i.s.castOf i.x) ctx)
      pure w
    match o.d with
    | .v r =>
      let reg := i.areg r.toNat
      let pos : Word := (i.uniform o.b .w32).word
      let s1 := i.countUse (i.poisonLanes o.b 1 i.g ≠ 0 || i.poisonLanes o.c 1 i.g ≠ 0) i.s
      let s2 := s1.modFrag i.f fun x => { x with vempty := x.vempty ||| regBits reg 1 }
      pure (i.accepted ctx (.ard t reg pos w i.g i.x.lanes) (i.saved (.ard h o t ctx lsel) o) s2)
    | _ => pure (i.done i.s))

/-! ### AMRG (R205, R206) -/

/-- A field of a merge record. -/
def recField (r : BitVec 256) (ofs n : Nat) : Nat := r.toNat / 2 ^ (8 * ofs) % 2 ^ (8 * n)
/-- DEST. -/
def recDest (r : BitVec 256) : Nat := recField r 0 8
/-- TICKET. -/
def recTicket (r : BitVec 256) : Nat := recField r 8 8
/-- STRIDE. -/
def recStride (r : BitVec 256) : Nat := recField r 0x10 4
/-- M. -/
def recM (r : BitVec 256) : Nat := recField r 0x14 2
/-- N. -/
def recN (r : BitVec 256) : Nat := recField r 0x16 2
/-- SEQ. -/
def recSeq (r : BitVec 256) : Nat := recField r 0x18 4

/-- The virtual address of destination element (m, n). -/
def recElem (r : BitVec 256) (m n : Nat) : Nat := (recDest r + recStride r * m + 4 * n) % 2 ^ 64

/-- The first destination element of every row and of every page that a row enters, in ascending order of rows and
columns, and the ticket word. -/
def recHeads (r : BitVec 256) : List Nat :=
  ((List.range (recM r)).flatMap fun m =>
    (List.range (recN r)).filterMap fun n =>
      let a := recElem r m n
      if n = 0 ∨ walkPage a ≠ walkPage (recElem r m (n - 1)) then some a else none) ++ [recTicket r]

/-- The address cannot serve the merge: translation, R21, the host flag, or a home other than DEST's (R205). -/
def Ix.mergeBad (i : Ix) (home va : Nat) : Bool :=
  match i.translate va with
  | .ok leaf pa => i.denied Acc.rmw leaf pa || decide (paHearth pa ≠ home)
  | .miss => false
  | .fail => true

/-- AMRG (R205, R206). -/
def execAmrg (h : Hdr) (o : Ops) (ctx : Bool) (so : ScopeOrder) (lsel : BitVec 4) (s : State) :
    Host.Outcome State Fault Refusal :=
  let i := Ix.of s h
  .next (i.run do
    let c := i.s.castOf i.x
    let ofs := (i.uniform o.b .w32).bits.toNat % 2 ^ 23
    let w ← i.anchored lsel (i.checkRoom ctx false) do
      i.checkOperands [{ o := o.b, n := 1, bit := h.eb }, i.useC h o]
      let w ← i.vote o.c
      i.checkFormat !(i.s.holdsCtx c ctx)
      guardStop (decide (ofs % 32 ≠ 0)) (.trap Cause.align (BitVec.ofNat 64 ofs) i.g)
      guardStop (decide (i.s.spadBytes c < ofs + 32)) (.trap Cause.scratch (BitVec.ofNat 64 ofs) i.g)
      pure w
    i.checkHeld false ofs 32
    let r : BitVec 256 := BitVec.ofNat 256 ((i.s.cast c).sread ofs 32)
    i.checkFormat (decide (recM r = 0 ∨ 128 < recM r ∨ recN r = 0 ∨ 256 < recN r ∨ recField r 0x1C 4 ≠ 0))
    let align (bad : Bool) (a : Nat) : Except Stop Unit := guardStop bad (.trap Cause.align (BitVec.ofNat 64 a) i.g)
    align (decide (recDest r % 4 ≠ 0)) (recDest r)
    align (decide (recStride r % 4 ≠ 0)) (recDest r + recStride r)
    align (decide (recTicket r % 8 ≠ 0)) (recTicket r)
    let heads := recHeads r
    match heads.find? fun a => i.translate a = .miss with
    | some a => .error (i.walkWait a)
    | none =>
      let home := paHearth (i.pa (recDest r))
      match heads.find? (i.mergeBad home) with
      | some a => .error (.trap Cause.access (BitVec.ofNat 64 a) i.g)
      | none =>
        guardStop (i.outside (i.pa (recDest r))) (.trap Cause.partition (BitVec.ofNat 64 (recDest r)) i.g)
        i.checkRelease (ScopeOrder.rel so) so.scope
        let ticket := i.pa (recTicket r)
        guardStop (i.s.readLE ticket 8 ≠ recSeq r) (.wait (.ticket ticket (recSeq r)))
        let pages := heads.map fun a => (walkPage a, i.pa a / 65536 * 65536)
        let s1 := i.countUse (i.poisonLanes o.b 1 i.g ≠ 0 || i.poisonLanes o.c 1 i.g ≠ 0) i.s
        let s2 := s1.modFrag i.f (i.drainAfter false (ScopeOrder.rel so) so.scope)
        pure (i.accepted ctx (.amrg r w so pages ticket) (i.saved (.amrg h o ctx so lsel) o) s2))

/-- AMRG_TICKET_READY: a ticket word holds the value that an AMRG waits for (R206). -/
def execAmrgTicketReady (f : Nat) (s : State) : Host.Outcome State Fault Refusal :=
  let x := s.frag f
  let due (w : Wait) : Bool := match w with | .ticket pa n => s.readLE pa 8 = n | _ => false
  .next (
    if x.onCore && x.entries.any fun e => match e.wait with | some w => due w | none => false then
      (s.noteReady f).setFrag f (x.release due false)
    else s)

/-! ### MBIND, MFREE and MWAIT (R196, R198, R204) -/

/-- A context is unbound, and its queue is empty (R196). -/
def MCtx.idle (m : MCtx) : Bool := m.leads.isNone && m.follows.isNone && m.queue.isEmpty

/-- Context `k` of cast `c` becomes leader of context `j` of cast `d` (R196). -/
def State.bind (s : State) (c : Nat) (k : Bool) (d : Nat) (j : Bool) : State :=
  (s.modCtx c k fun m => { m with leads := some (d, j) }).modCtx d j fun m => { m with follows := some (c, k) }

/-- The rank that an MBIND names. -/
def Ix.bindRank (i : Ix) (o : Ops) : Nat := (i.uniform o.b .w32).bits.toNat % 2 ^ 10

/-- The checks of MBIND (R188, R196). DESIGN CHOICE (log 130). -/
def Ix.bindChecks (i : Ix) (h : Hdr) (o : Ops) (ctx pctx : Bool) : Except Stop Unit := do
  i.checkOperands [{ o := o.b, n := 1, bit := h.eb }]
  let c := i.s.castOf i.x
  let rank := i.bindRank o
  let p := i.s.pour (i.s.cast c).pour
  let d := i.s.peerOf c rank
  i.checkFormat (!i.s.holdsCtx c ctx || (decide (rank < p.gangSize) &&
    (!i.s.holdsCtx d pctx || d = c || (i.s.cast d).anchor = (i.s.cast c).anchor)))
  guardStop (decide (p.gangSize ≤ rank)) (.trap Cause.scratch 0 i.g)

/-- MBIND: the binding takes effect at once, or when both contexts are unbound and empty (R196). DEDUCED (log 69). -/
def execMbind (h : Hdr) (o : Ops) (ctx pctx : Bool) (lsel : BitVec 4) (s : State) : Host.Outcome State Fault Refusal :=
  let i := Ix.of s h
  .next (i.run do
    i.anchored lsel (pure ()) (i.bindChecks h o ctx pctx)
    let c := i.s.castOf i.x
    let d := i.s.peerOf c (i.bindRank o)
    let s1 := i.countUse (i.poisonLanes o.b 1 i.g ≠ 0) i.s
    if ((i.s.cast c).ctx ctx).idle && ((i.s.cast d).ctx pctx).idle then pure (i.done (s1.bind c ctx d pctx))
    else pure (s1.modFrag i.f fun x => x.waitAt i.e.prio i.e.pc (.mbind ctx d pctx i.next)))

/-- The entries of a list that wait for one thing go on to an address, with those at the end of a loop. -/
def Frag.passAll (x : Frag) (es : List Entry) (w : Wait) (next : DWord) : Frag :=
  es.foldl (fun y e => if e.wait = some w then (y.take e.prio e.pc e.mask).goNext e.pc next e.prio e.mask else y) x

/-- What an instruction waited for has come about without it: one entry that waits for it goes on to the next instruction, a frozen entry as
the program's (R394), and others wait again (R196). -/
def Frag.pass (x : Frag) (w : Wait) (next : DWord) : Frag :=
  let first (es : List Entry) : List Entry := (es.find? fun e => e.wait = some w).toList
  if x.trap.isNone || !(first x.entries).isEmpty then x.passAll (first x.entries) w next
  else
    let z := Frag.passAll { x with entries := x.frozen, atEnd := x.frozenEnd } (first x.frozen) w next
    { z with entries := x.entries, atEnd := x.atEnd, frozen := z.entries, frozenEnd := z.atEnd }

/-- MBIND_EFFECT: both contexts that a waiting MBIND names are unbound and empty; the binding takes effect, and MBIND is complete
(R196). -/
def execMbindEffect (f : Nat) (s : State) : Host.Outcome State Fault Refusal :=
  let x := s.frag f
  let c := s.castOf x
  let due (w : Wait) : Bool := match w with
    | .mbind k d j _ => ((s.cast c).ctx k).idle && ((s.cast d).ctx j).idle
    | _ => false
  .next (
    if !x.onCore then s
    else match ((x.entries ++ x.frozen).filterMap Entry.wait).find? due with
      | some (.mbind k d j next) => ((s.noteReady f).setFrag f (x.pass (.mbind k d j next) next)).bind c k d j
      | _ => s)

/-- MFREE: it is accepted on its context, and ends the binding there when what was accepted before it has retired (R182, R198).
DEDUCED (log 69). DEDUCED (log 69). -/
def execMfree (h : Hdr) (o : Ops) (ctx : Bool) (lsel : BitVec 4) (s : State) : Host.Outcome State Fault Refusal :=
  let i := Ix.of s h
  .next (i.run do
    let c := i.s.castOf i.x
    i.anchored lsel (i.checkRoom ctx false) (i.checkFormat !(i.s.holdsCtx c ctx))
    pure ((i.accepted ctx .mfree (i.saved (.mfree h o ctx lsel) o) i.s).retireFrees (c, ctx)))

/-- The contexts that MWAIT names (R204). -/
def MwaitSel.names (w : MwaitSel) (k : Bool) : Bool :=
  match w with
  | .c0 => !k
  | .c1 => k
  | .both => true

/-- MWAIT (R204). -/
def execMwait (h : Hdr) (_ : Ops) (which : MwaitSel) (lsel : BitVec 4) (s : State) : Host.Outcome State Fault Refusal :=
  let i := Ix.of s h
  .next (i.run do
    let c := i.s.castOf i.x
    let named := [false, true].filter (MwaitSel.names which)
    i.anchored lsel (pure ()) (i.checkFormat (named.any fun k => !i.s.holdsCtx c k))
    let upTo (k : Bool) : Nat := if MwaitSel.names which k then ((i.s.cast c).ctx k).accepted else 0
    let late (k : Bool) : Bool := decide (((i.s.cast c).ctx k).retired < upTo k)
    guardStop (!i.e.woken && (late false || late true)) (.wait (.mwait (upTo false) (upTo true)))
    pure (i.done i.s))

end Sys2Proof.Machine
end

