-- ==== Sys2Proof/Machine/EngineRun.lean ====
section
/-! DEFINITION. The engines at work: copies (R263), bank operations (R264, R266, R222), collectives (R286 to R288), and how a
command ends (R261, R279, R388). -/

namespace Sys2Proof.Machine

/-! ### Writing payload (R263, R417) -/

/-- The pieces of `n` bytes at an address that lie in one word each: offset and length. -/
def pieces (d n : Nat) : List (Nat × Nat) :=
  (wordsOf d n).map fun w => (max d (4 * w) - d, min (d + n) (4 * w + 4) - max d (4 * w))

/-- The number that bytes form, little-endian. -/
def leVal (bs : List (Byte × Bool)) : Nat := bs.foldr (fun b n => b.1.toNat + 256 * n) 0

/-- The writes of bytes with marks at an address: one for each word touched. -/
def payload (pa : Nat) (bs : List (Byte × Bool)) : List WriteOp :=
  (pieces pa bs.length).map fun q =>
    let p := (bs.drop q.1).take q.2
    { pa := pa + q.1, size := q.2, val := BitVec.ofNat 64 (leVal p), poison := p.any Prod.snd }

/-- One posted payload packet of a command, in the context that its destination was translated for. -/
def State.postPayload (s : State) (k pa : Nat) (ctx : BitVec 8) (pass : Bool) (bs : List (Byte × Bool)) : State :=
  let c := s.cmd k
  let tgt := if paHost pa then 1024 + corePkg c.gc else paHearth pa
  let s1 := s.send c.src tgt ctx pass (some c.cast) (.store (payload pa bs))
  s1.modCmd k fun d => { d with posted := d.posted ++ [(tgt, s1.lastSeq c.src)] }

/-- Payload into the cast's scratchpad (R219). -/
def State.spadPayload (s : State) (c : Cmd) (ofs : Nat) (bs : List (Byte × Bool)) : State :=
  (s.modCast c.cast fun x => (payload ofs bs).foldl (fun y w => y.swrite w.pa w.size w.val.toNat w.poison) x).noteSpad c.gc c.cast
    ofs bs.length none

/-- A command comes to its end with a status (R261). -/
def State.finishCmd (s : State) (k status : Nat) : State := s.modCmd k fun c => { c with stage := .finishing, status, buf := none }

/-! ### Copies (R263) -/

/-- The next segment: destination address, source address and length. -/
def Cmd.segment (c : Cmd) : Int × Int × Nat :=
  let d := c.dstRow c.row + c.pos
  (d, c.srcRow c.row + c.pos, min (c.len - c.pos) (256 - (d % 256).toNat))

/-- The source addresses of a segment, by the pages translated for it. -/
def Cmd.segmentPas (c : Cmd) (src : Int) (n : Nat) : List Nat := (List.range n).map fun (k : Nat) => c.pa (wrapTo (src + k) 64)

/-- The scratchpad of a command's cast stands on its anchor core: the cast is neither parked nor parking (R220). -/
def State.spadStands (s : State) (c : Cmd) : Bool := (s.cast c.cast).granules ≠ 0 && !(s.cast c.cast).parking

/-- A segment begins: its pages are translated, and its source is read or asked for (R263). DEDUCED (log 75). -/
def State.beginSegment (s : State) (k : Nat) : State :=
  let c := s.cmd k
  let (d, src, n) := c.segment
  let pages : Except CmdBad (List (Nat × Nat)) := do
    let a ← if c.ssp then pure [] else s.cmdLeaves c .rd (pagesOf (wrapTo src 64) n)
    let b ← if c.dsp then pure [] else s.cmdLeaves c .wr [wrapTo d 64]
    checkParts (a ++ b)
    pure ((a ++ b).map CmdLeaf.page)
  match pages with
  | .error b => s.finishCmd k b.status
  | .ok ps =>
    if c.ssp then
      let x := s.cast c.cast
      s.setCmd k { c with
        pages := ps
        buf := some ((List.range n).map fun j => (Sparse.get 0 x.spad (src.toNat + j), x.smark ((src.toNat + j) / 4))) }
    else (s.setCmd k { c with pages := ps }).askRead k (({ c with pages := ps } : Cmd).segmentPas src n)

/-- A segment that has been read is written, and the copy goes on to the next; a cast that waited for it may park (R220, R263). -/
def State.writeSegment (s : State) (k : Nat) (bs : List (Byte × Bool)) : State :=
  let c := s.cmd k
  let (d, _, n) := c.segment
  let s1 := if c.dsp then s.spadPayload c d.toNat bs else s.postPayload k (c.pa (wrapTo d 64)) c.ctx c.pass bs
  (s1.modCmd k fun e => { e with
    buf := none, pages := []
    row := if c.pos + n < c.len then c.row else c.row + 1
    pos := if c.pos + n < c.len then c.pos + n else 0 }).finishPark c.cast

/-- COPY_SEGMENT: one segment is read and then written; under pre-emption a copy stops between segments (R263, R271). -/
def execCopySegment (cmd : Nat) (s : State) : Host.Outcome State Fault Refusal :=
  let c := s.cmd cmd
  .next (
    if c.eng ≠ .copy ∨ c.stage ≠ .active ∨ c.asked then s
    else match c.buf with
      | none =>
        if s.ctxSaved (corePkg c.gc) c.ctx then s
        else if c.rowCount ≤ c.row then s.finishCmd cmd 0
        else if (c.ssp || c.dsp) && !s.spadStands c then s
        else s.beginSegment cmd
      | some bs =>
        let (_, src, n) := c.segment
        if bs.length < n then s.askRead cmd ((c.segmentPas src n).drop bs.length) else s.writeSegment cmd bs)

/-! ### Bank operations (R264, R266) -/

/-- The DRAM row of a physical address: ROW, BANK and PCH (R264). -/
def dramRow (pa : Nat) : Nat := field (paOfs pa) 38 20 * 1024 + field (paOfs pa) 19 16 * 64 + field (paOfs pa) 13 8

/-- The offset in its hearth of byte `j` of a DRAM row. -/
def dramOfs (row j : Nat) : Nat := row / 1024 * 2 ^ 20 + row / 64 % 16 * 2 ^ 16 + j / 256 * 2 ^ 14 + row % 64 * 2 ^ 8 + j % 256
/-- The place in its DRAM row of a physical address. -/
def dramByte (pa : Nat) : Nat := field (paOfs pa) 15 14 * 256 + pa % 256

/-- The addresses of row `n` of W. -/
def Cmd.wPas (c : Cmd) (n : Nat) : List Nat := (List.range c.wBytes).map fun k => c.pa (c.waddr + n * c.wstride + k)
/-- The addresses of x. -/
def Cmd.xPas (c : Cmd) : List Nat := (List.range c.xBytes).map fun k => c.pa (c.xaddr + k)

/-- The hearth of a bank command's data. DEDUCED (log 77). -/
def Cmd.bankHome (c : Cmd) : Nat := paHearth ((c.pages.head?.map Prod.snd).getD 0)

/-- The DRAM rows that a bank command needs, each once. -/
def Cmd.bankRows (c : Cmd) : List Nat :=
  ((List.range c.nn).flatMap c.wPas ++ c.xPas).foldl
    (fun l pa => if l.contains (dramRow pa) then l else l ++ [dramRow pa]) []

/-- Bytes as the row steps have read them. -/
def Cmd.rowBytes (c : Cmd) (pas : List Nat) : Snap :=
  let at_ (pa : Nat) : Byte × Bool :=
    match c.rows.find? fun r => r.1 = dramRow pa with
    | some r => r.2.getD (dramByte pa) (0, false)
    | .none => (0, false)
  let bs := (List.range pas.length).zip pas |>.map fun q => (q.1, at_ q.2)
  { cells := bs.map fun q => (q.1, q.2.1)
    marks := (bs.filter fun q => q.1 % 4 = 0).map fun q => (q.1 / 4, q.2.2) }

/-- The K-blocks of one result (R266). -/
def bankBlocks (w : Word) (a x : Snap) (k : Nat) : Nat → Nat → Word × Bool → Word × Bool
  | 0, _, acc => acc
  | fuel + 1, lo, acc =>
    if k ≤ lo then acc
    else
      let ps := (List.range (min (blockSize w) (k - lo))).map fun j =>
        mulElem (rawElem a (fmtA w) 0 (lo + j)) (rawElem x (fmtB w) 0 (lo + j))
      let v := windowSum (Fmt.val .fp32 acc.1.toNat :: ps.map Prod.fst)
      bankBlocks w a x k fuel (lo + blockSize w) (BitVec.ofNat 32 v, acc.2 || ps.any Prod.snd)

/-- Result `y[n]` with its mark (R266). -/
def Cmd.bankResult (c : Cmd) (x : Snap) (n : Nat) : Word × Bool :=
  let a := c.rowBytes (c.wPas n)
  if fmtInt c.fmt then
    let term (k : Nat) : Int × Bool :=
      let p := intElem a (fmtA c.fmt) 0 k
      let q := intElem x (fmtB c.fmt) 0 k
      if p.2 || q.2 then (0, true) else (p.1 * q.1, false)
    let ts := (List.range c.kk).map term
    (BitVec.ofNat 32 (wrapTo ((ts.map Prod.fst).foldl (· + ·) 0) 32), ts.any Prod.snd)
  else bankBlocks c.fmt a x c.kk c.kk 0 (0, false)

/-- The results of a bank command as bytes, as they travel to its core. -/
def Cmd.bankData (c : Cmd) : List (Byte × Bool) :=
  let x := c.rowBytes c.xPas
  (List.range c.nn).flatMap fun n =>
    let y := c.bankResult x n
    (List.range 4).map fun k => (nthByte y.1.toNat k, y.2)

/-- BANK_ROW_STEP: the bank engines read one DRAM row indivisibly; after the last they send the results to the core (R222,
R264, R266). -/
def execBankRowStep (cmd row : Nat) (s : State) : Host.Outcome State Fault Refusal :=
  let c := s.cmd cmd
  let gh := c.bankHome
  .next (
    if c.eng ≠ .bank ∨ c.stage ≠ .active ∨ c.asked ∨ s.ctxSaved (corePkg c.gc) c.ctx ∨ !c.bankRows.contains row ∨
        c.rows.any (fun r => r.1 = row) then s
    else
      let bs := (List.range 1024).map fun j =>
        let pa := paOf gh (dramOfs row j)
        (s.byte pa, s.mark (pa / 4))
      let d : Cmd := { c with rows := c.rows ++ [(row, bs)] }
      if d.bankRows.all fun r => d.rows.any fun q => q.1 = r then
        (s.setCmd cmd { d with asked := true }).answer (hearthSrc gh 2) (2048 + c.gc) c.ctx (.readData cmd false d.bankData)
      else s.setCmd cmd d)

/-- The results of a command from number `n` on, `k` of them, as bytes. -/
def Cmd.resultBytes (c : Cmd) (n k : Nat) : List (Byte × Bool) :=
  (List.range k).flatMap fun j =>
    let y := Sparse.get (0, false) c.results (n + j)
    (List.range 4).map fun b => (nthByte y.1.toNat b, y.2)

/-- BANK_RESULT_WRITE: the copy engine of the core writes results, up to a boundary of 256 bytes, or all of them into
scratchpad while its cast stands on the core (R220, R266). -/
def execBankResultWrite (cmd : Nat) (s : State) : Host.Outcome State Fault Refusal :=
  let c := s.cmd cmd
  .next (
    if c.eng ≠ .bank ∨ c.stage ≠ .results ∨ s.ctxSaved (corePkg c.gc) c.ctx then s
    else if c.ssp then if !s.spadStands c then s else (s.spadPayload c c.yaddr (c.resultBytes 0 c.nn)).finishCmd cmd 0
    else
      let va := c.yaddr + 4 * c.pos
      let n := min (c.nn - c.pos) ((256 - va % 256) / 4)
      match s.cmdTranslate c va .wr with
      | .error b => s.finishCmd cmd b.status
      | .ok pa =>
        let s1 := (s.postPayload cmd pa c.ctx false (c.resultBytes c.pos n)).modCmd cmd fun d => { d with pos := c.pos + n }
        if c.nn ≤ c.pos + n then s1.finishCmd cmd 0 else s1)

/-! ### Collectives (R286 to R288) -/

/-- The window of a collective, as its package holds it. -/
def State.collWindow (s : State) (c : Cmd) : Window := (s.pkg (corePkg c.gc)).window c.win

/-- The live commands of the instance of a collective. DEDUCED (log 78). -/
def State.instance_ (s : State) (c : Cmd) : List (Nat × Cmd) :=
  let w := s.collWindow c
  s.cmds.filter fun q => q.2.eng = .coll && q.2.win = c.win && q.2.inst = c.inst && (q.2.stage = .active || q.2.stage = .results) &&
    w.contributors.contains (coreHearth q.2.gc)

/-- Participants disagree in OP, COUNT or ROOT (R286). -/
def State.disagree (s : State) (c : Cmd) : Bool :=
  (s.instance_ c).any fun q => q.2.op ≠ c.op || q.2.count ≠ c.count || q.2.root ≠ c.root

/-- The instance of a collective ends with status 5 for every participant (R286, R288). DEDUCED (log 80). -/
def State.broken (s : State) (c : Cmd) : Bool := (s.collWindow c).failed.contains c.inst

/-- An instance fails: every package knows it, for the participants that have still to issue. -/
def State.failInstance (s : State) (win inst : Nat) : State :=
  (s.pkgs.map Prod.fst).foldl (fun a p => a.modWindow p win fun w => { w with failed := inst :: w.failed.filter (· ≠ inst) }) s

/-- Every participant has issued its part of an instance (R286). -/
def State.allIssued (s : State) (c : Cmd) : Bool :=
  (s.collWindow c).contributors.all fun gh =>
    ((s.pkg (gh / 16)).window c.win).insts.any fun q => q.1 = gh && decide (c.inst < q.2)

/-- An earlier collective of the same hearth on the same window has not ended: its results stand in the home regions. DEDUCED (log 78). -/
def State.collBehind (s : State) (c : Cmd) : Bool :=
  s.cmds.any fun q => q.2.eng = .coll && q.2.win = c.win && coreHearth q.2.gc = coreHearth c.gc && decide (q.2.inst < c.inst) &&
    (q.2.stage = .active || q.2.stage = .results)

/-- Elements of a block (R287). -/
def Cmd.block (c : Cmd) (w : Window) : Nat := c.count / max 1 w.contributors.length

/-- The home of element `e` of a reduction: the physical address of its word (R287). -/
def Cmd.homeWord (c : Cmd) (w : Window) (e : Nat) : Nat :=
  paOf (w.contributors.getD (e / c.block w) 0) (w.base + e % c.block w * w.width)

/-- The elements of a source segment, with their homes; BF16 is widened exactly (R287). -/
def Cmd.segmentElems (c : Cmd) (w : Window) (bs : List (Byte × Bool)) : List (Nat × Nat × Val) :=
  (List.range (bs.length / w.srcSize)).map fun j =>
    let e := c.pos / w.srcSize + j
    let b := (bs.drop (j * w.srcSize)).take w.srcSize
    let v := leVal b
    (e, c.homeWord w e, { bits := BitVec.ofNat 64 (if w.etype = 1 then v * 2 ^ 16 else v), poison := b.any Prod.snd })

/-- A source segment is contributed, with one packet for each home hearth, and the command keeps the rounds of its elements (R281, R282,
R287). -/
def State.contributeSegment (s : State) (k : Nat) (bs : List (Byte × Bool)) : State :=
  let c := s.cmd k
  let w := s.collWindow c
  let gh := coreHearth c.gc
  let es := c.segmentElems w bs
  let s1 := ((es.map fun e => paHearth e.2.1).eraseDups).foldl (fun a g =>
    a.contribute c.src gh c.win g c.ctx (some c.cast)
      ((es.filter fun e => paHearth e.2.1 = g).map fun e => (paOfs e.2.1, e.2.2)) true) s
  s1.modCmd k fun d => { d with results := es.foldl (fun t e =>
    Sparse.set (0, false) t e.1 (BitVec.ofNat 32 (w.sentTo gh (paHearth e.2.1) (paOfs e.2.1)), true)) d.results }

/-- A source segment that has been read is contributed, or kept for the other participants. -/
def State.takeSegment (s : State) (k : Nat) (bs : List (Byte × Bool)) : State :=
  let c := s.cmd k
  let s1 :=
    if c.op ≤ 1 then s.contributeSegment k bs
    else s.setCmd k { c with rows := [(0, (c.rows.flatMap Prod.snd) ++ bs)] }
  s1.modCmd k fun d => { d with buf := none, pos := c.pos + bs.length }

/-- A participant's source has been read whole. -/
def Cmd.sourceDone (c : Cmd) (w : Window) : Bool := !c.contributes w || decide (c.srcBytes w ≤ c.pos)

/-- The bytes that a participant of a gather or a broadcast sends: its source, to every participant (R287). -/
def Cmd.sendBytes (c : Cmd) (w : Window) : Nat := if c.contributes w then w.contributors.length * c.srcBytes w else 0

/-- A participant of a gather or a broadcast sends the next piece of its source, up to a boundary of 256 bytes, as a posted packet to the
place of its rank in the DST of the participant whose turn it is (R272, R287). DEDUCED (log 79). -/
def State.scatter (s : State) (k : Nat) : State :=
  let c := s.cmd k
  let w := s.collWindow c
  let n := c.srcBytes w
  let ofs := c.row % n
  match (s.instance_ c).find? fun q => coreHearth q.2.gc = w.contributors.getD (c.row / n) 0 with
  | none => s
  | some q =>
    let va := q.2.cdst + (if c.op = 2 then w.contributors.idxOf (coreHearth c.gc) * n else 0) + ofs
    let m := min (n - ofs) (256 - va % 256)
    (s.postPayload k (q.2.pa va) q.2.ctx false (((c.rows.flatMap Prod.snd).drop ofs).take m)).modCmd k
      fun d => { d with row := c.row + m }

/-- The byte of result `b` of a reduction, as a physical address in its home region. -/
def Cmd.resultPa (c : Cmd) (w : Window) (b : Nat) : Nat :=
  let e := b / w.width
  let first := if c.op = 1 then w.contributors.idxOf (coreHearth c.gc) * c.block w else 0
  c.homeWord w (first + e) + b % w.width

/-- The next result segment to be written: its length, up to a boundary of 256 bytes. -/
def Cmd.resultSegment (c : Cmd) (w : Window) : Nat := min (c.dstBytes w - c.row) (256 - (c.cdst + c.row) % 256)

/-- The results of a reduction go to DST, segment by segment, and the collective ends after the last byte (R287). DEDUCED (log 79). -/
def State.deliver (s : State) (k : Nat) : State :=
  let c := s.cmd k
  let w := s.collWindow c
  let n := c.resultSegment w
  if c.dstBytes w ≤ c.row then s.finishCmd k c.status
  else
    let pas := (List.range n).map fun j => c.resultPa w (c.row + j)
    match c.buf with
    | none => s.askRead k pas
    | some bs =>
      if bs.length < n then s.askRead k (pas.drop bs.length)
      else (s.postPayload k (c.pa (c.cdst + c.row)) c.ctx false bs).modCmd k fun d => { d with row := c.row + n, buf := none }

/-- A participant reads its source, segment by segment. -/
def State.readSource (s : State) (k : Nat) : State :=
  let c := s.cmd k
  let pas := c.srcSegment (s.collWindow c) c.pos
  match c.buf with
  | none => s.askRead k pas
  | some bs => if bs.length < pas.length then s.askRead k (pas.drop bs.length) else s.takeSegment k bs

/-- Every payload packet of a command that is named has been acknowledged (R275). -/
def State.payloadAcked (s : State) (c : Cmd) (l : List (Nat × Word)) : Bool := l.all fun p => !s.awaits c.src p.1 p.2

/-- A participant of a gather or a broadcast has sent all it has to send, and it has been applied. -/
def State.scattered (s : State) (c : Cmd) : Bool :=
  c.stage = .results && decide (c.sendBytes (s.collWindow c) ≤ c.row) && s.payloadAcked c c.posted

/-- COLLECTIVE_COMPLETION: a participant's part goes one step on: its source, its rounds, its result, its end (R286, R287). DEDUCED (log 80). -/
def execCollectiveCompletion (cmd : Nat) (s : State) : Host.Outcome State Fault Refusal :=
  let c := s.cmd cmd
  let w := s.collWindow c
  .next (
    if c.eng ≠ .coll ∨ c.asked ∨ s.collBehind c then s
    else match c.stage with
      | .active =>
        let s := if s.disagree c then s.failInstance c.win c.inst else s
        if !c.sourceDone w then s.readSource cmd
        else if s.broken c then s.finishCmd cmd 5
        else if c.op = 4 then (if s.allIssued c then s.finishCmd cmd 0 else s)
        else if 2 ≤ c.op then
          (if s.allIssued c && (s.instance_ c).length = w.contributors.length &&
              (s.instance_ c).all (fun q => q.2.sourceDone w) then s.modCmd cmd fun d => { d with stage := .results, row := 0 }
          else s)
        else if !c.results.isEmpty then s
        else if c.status ≠ 0 then s.finishCmd cmd c.status
        else s.modCmd cmd fun d => { d with stage := .results, row := 0 }
      | .results =>
        if c.op ≤ 1 then s.deliver cmd
        else if c.row < c.sendBytes w then s.scatter cmd
        else if (s.instance_ c).all fun q => s.scattered q.2 then s.finishCmd cmd c.status
        else s
      | _ => s)

/-- A merged result has landed: the contributions of its round are done, and with FLUSHED they fail (R287, R288). -/
def State.landRound (s : State) (win home ofs round : Nat) (flushed : Bool) : State :=
  s.cmds.foldl (fun a q =>
    let c := q.2
    if c.eng ≠ .coll ∨ c.win ≠ win ∨ c.stage ≠ .active then a
    else
      match c.results.find? fun r =>
          c.homeWord (s.collWindow c) r.1 = paOf home ofs && r.2.1 = BitVec.ofNat 32 round with
      | some r =>
        let a1 := a.modCmd q.1 fun d => { d with results := Sparse.erase d.results r.1, status := if flushed then 5 else d.status }
        if flushed then a1.failInstance win c.inst else a1
      | none => a) s

/-- Since a clock WFLUSH has passed on a package (R285). -/
def State.flushDue (s : State) (pkg since : Nat) : Bool := decide (since + 1100 * (s.pkg pkg).wflush ≤ s.now)

/-- A collective that some participant has not issued ends with status 5 once it has waited for WFLUSH (R285, R288). -/
def State.abandon (s : State) (win : Nat) : State :=
  s.cmds.foldl (fun a q =>
    if q.2.eng = .coll ∧ q.2.win = win ∧ q.2.stage = .active ∧ s.flushDue (corePkg q.2.gc) q.2.since ∧ !s.allIssued q.2 then
      a.failInstance win q.2.inst
    else a) s

/-! ### The end of a command (R261, R279, R388) -/

/-- Every payload packet of a command has been acknowledged, also those that its completion follows to one home, so that the completion
knows of a refusal (R279, R387). DEDUCED (log 82). -/
def State.payloadSettled (s : State) (c : Cmd) : Bool := s.payloadAcked c c.posted

/-- An engine error: ENGERR of the hearth, and a record of class 9 (R416, R419). -/
def State.engineError (s : State) (c : Cmd) : State :=
  let gh := coreHearth c.gc
  (s.countHearth gh 4).hearthRecord gh 9 c.ctx.toNat (counterNumber 0 gh 4) (c.caddr.getD 0) 0

/-- A command is over. -/
def State.endCmd (s : State) (k : Nat) : State := (s.setCmd k .none).settleCast (s.cmd k).cast

/-- ENGINE_COMPLETION: the pins are released, and the completion store or add is posted (R261, R279, R388). Copy and bank engines make no
completion while the context is saved, but for the commands that KILL ends (R271, R414). -/
def execEngineCompletion (cmd : Nat) (s : State) : Host.Outcome State Fault Refusal :=
  let c := s.cmd cmd
  .next (
    if c.stage ≠ .finishing ∨ !s.payloadSettled c ∨
        (c.eng ≠ .coll ∧ s.ctxSaved (corePkg c.gc) c.ctx ∧ (s.pour (s.cast c.cast).pour).st ≠ .killing) then s
    else
      let failed := c.status ≠ 0
      let s1 := (s.unpinCmd c).modCmd cmd fun d => { d with pins := [] }
      let s2 := if failed then s1.engineError c else s1
      let v : DWord :=
        if failed then (if c.cadd then 0x8000000000000000 else ~~~(BitVec.ofNat 64 c.cval)) else BitVec.ofNat 64 c.cval
      let s3 := match c.caddr with
        | some pa =>
          let tgt := if paHost pa then 1024 + corePkg c.gc else paHearth pa
          let t := s2.send c.src tgt c.ctx false (some c.cast) (.engineWrite cmd pa v c.cadd)
          t.modCmd cmd fun d => { d with posted := d.posted ++ [(tgt, t.lastSeq c.src)] }
        | none => s2
      if c.feed then s3.modCmd cmd fun d => { d with stage := .feeding } else s3.endCmd cmd)

/-- The feed element of a command (R261). -/
def Cmd.feedElement (c : Cmd) : DWord :=
  BitVec.ofNat 64 ((match c.eng with | .copy => 1 | .bank => 2 | .coll => 3) * 2 ^ 60 + c.status * 2 ^ 56 + c.cval % 2 ^ 32)

/-- FEED_PUSH: once the completion word has been acknowledged, so that the element can tell of its refusal (R387), the feed element joins its
queue when there is room, or is discarded when the queue is no longer bound for it (R261). DEDUCED (log 82). -/
def execFeedPush (cmd : Nat) (s : State) : Host.Outcome State Fault Refusal :=
  let c := s.cmd cmd
  let q := (s.cast c.cast).queue c.feedq
  .next (
    if c.stage ≠ .feeding ∨ !s.payloadSettled c then s
    else if q.kind ≠ 5 ∨ q.esize ≠ 8 then (s.engineError c).endCmd cmd
    else if q.cap ≤ q.count ∨ (s.cast c.cast).granules = 0 ∨ (s.cast c.cast).parking then s
    else (s.pushQueue c.cast c.feedq [{ bits := c.feedElement, poison := false }]).endCmd cmd)

end Sys2Proof.Machine
end

