-- ==== Sys2Proof/Machine/MatrixRun.lean ====
section
/-! DEFINITION. The matrix array at work (R183, R190 to R195, R197, R201 to R208): turns, the operands that an instruction
reads when it starts, and what it does to its bank, to scratchpad, registers and memory. -/

namespace Sys2Proof.Machine

/-! ### Turns (R183, R197, R208) -/

/-- The head of a context's queue. -/
def State.headInst (s : State) (q : Nat × Bool) : Option MInst := ((s.cast q.1).ctx q.2).queue.head?

/-- The other context of a paired instruction at the head of a context (R197). -/
def State.partner (s : State) (q : Nat × Bool) : Option (Nat × Bool) := ((s.headInst q).bind MInst.mate).map Prod.snd

/-- A context holds an accepted ARD, which runs before its cast parks, or the other half of its paired head stands before one (R208). -/
def State.mustRun (s : State) (q : Nat × Bool) : Bool :=
  ((s.cast q.1).ctx q.2).hasArd || (match s.partner q with | some r => ((s.cast r.1).ctx r.2).hasArd | none => false)

/-- A context of a cast has an instruction that may start: its cast stands on its core, or parks with an ARD still to run
(R208). -/
def State.runnable (s : State) (q : Nat × Bool) : Bool :=
  let x := s.cast q.1
  (x.st = .running || x.st = .raised || x.st = .retired) && (!x.parking || s.mustRun q) &&
    match (x.ctx q.2).queue with
    | i :: _ => !i.running && i.posted.isNone && i.op ≠ .mfree
    | [] => false

/-- The two halves of a paired instruction stand at the heads of their queues (R197). -/
def State.paired (s : State) (q r : Nat × Bool) : Bool := s.runnable q && s.runnable r && s.partner q = some r && s.partner r = some q

/-- The contexts of a core whose head may have its turn. -/
def State.ctxsOn (s : State) (gc : Nat) : List (Nat × Bool) :=
  ((s.casts.filter fun q => q.2.anchor = gc).flatMap fun q => [(q.1, false), (q.1, true)]).filter s.runnable

/-- A core waits, along arrays that have given a turn to a paired instruction, for core `gc`; at most the arrays of a hearth stand in
such a chain (R183, R197). -/
def State.waitsFor (s : State) (gc : Nat) : Nat → Nat → Bool
  | 0, _ => false
  | n + 1, far => decide (far = gc) ||
    match (s.core far).given.bind s.partner with
    | some r => s.waitsFor gc n (s.cast r.1).anchor
    | none => false

/-- To give the turn to a context would close a circle of arrays that wait for each other: the array of the other half has given its own
turn to another instruction, and so waits for this one (R183, R197). DEDUCED (log 73). -/
def State.closesCircle (s : State) (gc : Nat) (q : Nat × Bool) : Bool :=
  match s.partner q with
  | some r =>
    let far := (s.cast r.1).anchor
    (s.core far).given.isSome && (s.core far).given ≠ some r &&
      (match (s.core far).given.bind s.partner with
       | some t => s.waitsFor gc 8 (s.cast t.1).anchor
       | none => false)
  | none => false

/-- The context whose turn it is on a free array: the one that it has been given to, or else not the one that ran last, if another has a
head (R183). Where that would close a circle of arrays that wait for each other, the circle's own context goes first. DEDUCED (log 73). -/
def State.turnOf (s : State) (gc : Nat) : Option (Nat × Bool) :=
  let k := s.core gc
  if k.running.isSome then none
  else match k.given.filter s.runnable with
    | some q => some q
    | none =>
      let l := s.ctxsOn gc
      match (l.find? fun q => some q ≠ k.last).orElse fun _ => l.head? with
      | some q => if s.closesCircle gc q then (l.find? fun r => r ≠ q).orElse fun _ => some q else some q
      | none => none

/-! ### Clocks (R183, R186) -/

/-- Array clocks of a multiply-accumulate instruction of extent K (R186). -/
def macClocks (k : MacKind) (w : Word) (kk : Nat) : Nat :=
  match k with
  | .mmas => kk / 2
  | .mmal => if fmtB w = 8 then kk / 4 else kk / 2
  | .mma =>
    match fmtA w with
    | 2 => (kk + 3) / 4
    | 3 | 4 => 2 * kk
    | 5 => 4 * kk
    | _ => kk

/-- The clocks that an instruction occupies the array (R183). -/
def MOp.clocks : MOp → Nat
  | .mac k da _ w _ _ => macClocks k w (tileK da)
  | .ard .. => 1
  | .amrg r _ _ _ _ => (recM r * recN r + 255) / 256
  | _ => 128

/-- Multiply-accumulates at FP8 rate, or their equivalent, in each clock on one array: 256 columns at most, and for the follower's half
of a paired instruction those from 256 on (R197, R360). -/
def MInst.macs (m : MInst) : Nat :=
  match m.op with
  | .mac _ da db _ _ _ =>
    let n := tileRows db
    tileRows da * (match m.mate with | some (false, _) => n - 256 | _ => min 256 n)
  | _ => 0

/-! ### Starting (R190, R197) -/

/-- A tile as it stands. DEDUCED (log 66). -/
def State.snapTile (s : State) (c : Nat) (d : DWord) (y : Layout) : Snap :=
  let x := s.cast (if tilePv d then s.peerOf c (tilePeer d) else c)
  let lo := tileOfs d
  let hi := tileEnd d y
  { cells := x.spad.filter fun q => decide (lo ≤ q.1 ∧ q.1 < hi)
    marks := x.spoison.filter fun q => decide (lo / 4 ≤ q.1 ∧ 4 * q.1 < hi) }

/-- The operand tiles that an instruction reads when it starts (R190). DEDUCED (log 66). -/
def State.operands (s : State) (c : Nat) (op : MOp) : Snap × Snap :=
  match op with
  | .mac k da db w _ _ => (s.snapTile c da (layoutA k w da), s.snapTile c db (layoutB k w db))
  | .alds t d => (s.snapTile c d (layoutT t d), .none)
  | _ => (.none, .none)

/-- The head of a context starts on its array. -/
def State.startHeadInst (s : State) (q : Nat × Bool) : State :=
  match s.headInst q with
  | none => s
  | some m =>
    let t := s.operands q.1 m.op
    let s1 := s.modCtx q.1 q.2 fun x => { x with queue := { m with running := true, a := t.1, b := t.2 } :: x.queue.drop 1 }
    s1.modCore (s.cast q.1).anchor fun k => { k with
      running := some q, given := none, asleep := false, arrayUsed := true, arrayEnd := s.now + m.op.clocks, arrayMacs := m.macs }

/-- A context has its turn on an awake array: its head starts, or, paired, waits for the other array (R197). -/
def State.giveTurn (s : State) (gc : Nat) (q : Nat × Bool) : State :=
  match s.partner q with
  | none => s.startHeadInst q
  | some r =>
    let far := s.core (s.cast r.1).anchor
    if far.given = some r && far.running.isNone && s.paired q r then (s.startHeadInst q).startHeadInst r
    else s.modCore gc fun k => { k with given := some q }

/-! ### Products (R130, R131, R133, R193 to R195) -/

/-- What a multiply-accumulate instruction works on. -/
structure MacJob where
  kind : MacKind
  da   : DWord
  db   : DWord
  fmt  : Word
  ws   : List Word
  a    : Snap
  b    : Snap
  deriving DecidableEq, Repr

/-- The layout of A. -/
def MacJob.ya (j : MacJob) : Layout := layoutA j.kind j.fmt j.da
/-- The layout of B. -/
def MacJob.yb (j : MacJob) : Layout := layoutB j.kind j.fmt j.db

/-- The kept positions of group `g` of row `m` under MMAS: stored position and position along K (R194). -/
def MacJob.kept (j : MacJob) (m g : Nat) : List (Nat × Nat) :=
  (List.range 4).map fun t => (4 * g + t, 8 * g + metaIndex j.ws (m * (tileK j.da / 8) + g) t)

/-- The stored positions in A and the positions along K of one K-block, from `lo`, of `n` positions. -/
def MacJob.positions (j : MacJob) (m lo n : Nat) : List (Nat × Nat) :=
  match j.kind with
  | .mmas => (List.range (n / 8)).flatMap fun g => j.kept m (lo / 8 + g)
  | _ => (List.range n).map fun k => (lo + k, lo + k)

/-- The products of a floating K-block. -/
def MacJob.products (j : MacJob) (m n lo len : Nat) : List Elem :=
  (j.positions m lo len).map fun p =>
    mulElem (scaledElem j.a (fmtA j.fmt) (fmtAscl j.fmt) j.da j.ya m p.2 p.1)
      (scaledElem j.b (fmtB j.fmt) (fmtBscl j.fmt) j.db j.yb n p.2 p.2)

/-- An integer product and its poison (R133, R135). -/
def mulInt (a b : Int × Bool) : Int × Bool := if a.2 || b.2 then (0, true) else (a.1 * b.1, false)

/-- The integer products of a whole instruction. -/
def MacJob.intProducts (j : MacJob) (m n : Nat) : List (Int × Bool) :=
  (j.positions m 0 (tileK j.da)).map fun p =>
    mulInt (intElem j.a (fmtA j.fmt) (tileRow j.da j.ya m) p.1) (intElem j.b (fmtB j.fmt) (tileRow j.db j.yb n) p.2)

/-- Entry `x` of table `g` of row `m` (R185, R195). -/
def MacJob.table (j : MacJob) (m g x : Nat) : Int × Bool :=
  let o := tileRow j.da j.ya m + 32 * g + 2 * x
  (signedVal (j.a.read o 2) 16, j.a.bad o 2)

/-- The index that a plane gives for group `g`: the plane begins at byte `base` (R121). -/
def MacJob.plane (j : MacJob) (base g : Nat) : Nat × Bool :=
  (j.b.read (base + g / 2) 1 / 16 ^ (g % 2) % 16, j.b.bad (base + g / 2) 1)

/-- The term of group `g` (R195). DEDUCED (log 70). -/
def MacJob.lookup (j : MacJob) (m n g : Nat) : Int × Bool :=
  let row := tileRow j.db j.yb n
  if fmtB j.fmt = 8 then
    let x := j.plane row g
    let t := j.table m g x.1
    if x.2 || t.2 then (0, true) else (t.1, false)
  else
    let h := j.plane row g
    let l := j.plane (row + tileK j.db / 8) g
    let o := tileOfs j.db + n
    let ov := signedVal (j.b.read o 1) 8
    let th := j.table m g h.1
    let tl := j.table m g l.1
    let tf := j.table m g 15
    if h.2 || l.2 || j.b.bad o 1 || th.2 || tl.2 || tf.2 then (0, true) else (2 * th.1 + tl.1 + ov * tf.1, false)

/-- The integer terms of an output element. -/
def MacJob.intTerms (j : MacJob) (m n : Nat) : List (Int × Bool) :=
  match j.kind with
  | .mmal => (List.range (tileK j.da / 4)).map (j.lookup m n)
  | _ => j.intProducts m n

/-- The K-blocks of an output element from `lo` on, applied to the accumulator (R131). -/
def MacJob.blocks (j : MacJob) (m n : Nat) : Nat → Nat → Word × Bool → Word × Bool
  | 0, _, acc => acc
  | fuel + 1, lo, acc =>
    let k := tileK j.da
    if k ≤ lo then acc
    else
      let len := min (blockSize j.fmt) (k - lo)
      let ps := j.products m n lo len
      let v := windowSum (Fmt.val .fp32 acc.1.toNat :: ps.map Prod.fst)
      j.blocks m n fuel (lo + blockSize j.fmt) (BitVec.ofNat 32 v, acc.2 || ps.any Prod.snd)

/-- The accumulator of output (m, n) after the instruction, with its mark (R193, R207). DEDUCED (log 70). -/
def MacJob.element (j : MacJob) (m n : Nat) (acc : Word × Bool) : Word × Bool :=
  if fmtInt j.fmt then
    let ts := j.intTerms m n
    (BitVec.ofNat 32 (wrapTo ((ts.map Prod.fst).foldl (· + ·) (acc.1.toNat : Int)) 32), acc.2 || ts.any Prod.snd)
  else j.blocks m n (tileK j.da) 0 acc

/-! ### Banks (R180) -/

/-- An element of a bank with its mark. -/
def MCtx.elem (x : MCtx) (m n : Nat) : Word × Bool := (Sparse.get 0 x.bank (256 * m + n), Sparse.get false x.marks (256 * m + n))
/-- Write an element. -/
def MCtx.setElem (x : MCtx) (m n : Nat) (v : Word × Bool) : MCtx :=
  { x with bank := Sparse.set 0 x.bank (256 * m + n) v.1, marks := Sparse.set false x.marks (256 * m + n) v.2 }

/-- Every (row, column) of an extent, in order. -/
def cellsOf (m n : Nat) : List (Nat × Nat) := (List.range m).flatMap fun r => (List.range n).map fun c => (r, c)

/-- The multiply-accumulate on one bank: columns `base` to `base + 255` of the output (R193, R197). -/
def MacJob.onBank (j : MacJob) (base : Nat) (x : MCtx) : MCtx :=
  (cellsOf (tileRows j.da) (min 256 (tileRows j.db - base))).foldl
    (fun y q => y.setElem q.1 q.2 (j.element q.1 (base + q.2) (x.elem q.1 q.2))) x

/-- A bank element from a scratchpad element (R202). -/
def loadElem (t : Ty) (v : Nat) : Word :=
  match t with
  | .f16 | .bf16 => BitVec.ofNat 32 (Fmt.round .fp32 ((Fmt.ofTy t).val v) .rne false 0)
  | .i16 => BitVec.ofNat 32 (wrapTo (signedVal v 16) 32)
  | .i8 => BitVec.ofNat 32 (wrapTo (signedVal v 8) 32)
  | _ => BitVec.ofNat 32 v

/-- Readback of an element (R134). -/
def readback (t : Ty) (w : Word) (v : Word) : DWord :=
  if t = .b32 then v.setWidth 64
  else if fmtInt w then
    (if t.bits = 32 then v.setWidth 64 else fit t (fmtSat w) (signedVal v.toNat 32))
  else codeOf ((Fmt.ofTy t).round (Fmt.val .fp32 v.toNat) (fmtRm w) (fmtSat w) 0)

/-- ALDS on its bank (R202). -/
def aldsBank (t : Ty) (d : DWord) (a : Snap) (x : MCtx) : MCtx :=
  let b := t.bits / 8
  let y := layoutT t d
  (cellsOf (tileRows d) (tileK d)).foldl (fun z q =>
    let o := tileRow d y q.1 + b * q.2
    z.setElem q.1 q.2 (loadElem t (a.read o b), a.bad o b)) x

/-- ASTS to the scratchpad of its cast (R202). -/
def astsSpad (t : Ty) (d : DWord) (w : Word) (x : MCtx) (c : Cast) : Cast :=
  let b := t.bits / 8
  let y := layoutT t d
  (cellsOf (tileRows d) (tileK d)).foldl (fun k q =>
    let e := x.elem q.1 q.2
    k.swrite (tileRow d y q.1 + b * q.2) b ((readback t w e.1).toNat % 2 ^ t.bits) e.2) c

/-- The lanes that an ARD writes (R203). -/
def ardWrites (pos : Word) (lanes : LaneMask) : LaneMask :=
  maskOf fun l => lanes.getLsbD l && decide (l < field pos.toNat 20 16 + 1 ∧ field pos.toNat 15 8 + l ≤ 255)

/-- ARD to the lanes of its hoist (R203). -/
def ardLanes (t : Ty) (reg : Nat) (pos w : Word) (lanes : LaneMask) (x : MCtx) (h : Hoist) : Hoist :=
  let r := field pos.toNat 6 0
  let c := field pos.toNat 15 8
  let n := field pos.toNat 20 16 + 1
  (lanesOf lanes).foldl (fun k l =>
    if l < n ∧ c + l ≤ 255 then
      let e := x.elem r (c + l)
      k.setElem reg l (ext32 t (readback t w e.1)) e.2
    else k) h

/-! ### AMRG at its run (R206) -/

/-- The core class of a release by the array of the anchor core (R229, R236). -/
def arrayRel (so : ScopeOrder) (gc sent : Nat) : Option (Nat × Nat) :=
  if ScopeOrder.rel so && (so.scope = .hoist || so.scope = .cast || so.scope = .core) then some (gc, sent) else none

/-- The physical address of a destination address, by the pages translated at issue. DEDUCED (log 72). -/
def mergePa (pages : List (Nat × Nat)) (va : Nat) : Nat :=
  match pages.find? fun q => q.1 = walkPage va with
  | some q => q.2 + va % 65536
  | none => 0

/-- The adds in order, then the ticket store (R206, steps 3 and 4). DEDUCED (log 72). -/
def State.postMerge (s : State) (gc c : Nat) (x : MCtx) (r : BitVec 256) (w : Word) (so : ScopeOrder)
    (pages : List (Nat × Nat)) (ticket : Nat) : State :=
  let src := coreSrc gc 0 8
  let home := paHearth ticket
  let ctx := (s.pour (s.cast c).pour).ctx
  let t : Ty := if fmtInt w then .n32 else .f32
  let s1 := (cellsOf (recM r) (recN r)).foldl (fun a q =>
    let e := x.elem q.1 q.2
    a.send src home ctx false (some c)
      (.reduction .add t [{ pa := mergePa pages (recElem r q.1 q.2), size := 4, val := e.1.setWidth 64, poison := e.2 }])) s
  s1.send src home ctx false (some c) (.store [WriteOp.clean ticket 8 (recSeq r + 1)]) (arrayRel so gc (s1.core gc).sent)

/-! ### Retiring (R182, R193, R206) -/

/-- The array of a core is free again. -/
def State.freeArray (s : State) (gc : Nat) (q : Nat × Bool) : State :=
  s.modCore gc fun k => { k with running := none, last := some q }

/-- What an instruction at the head of a context does when it has run (R193 to R195, R201 to R203). -/
def State.instEffect (s : State) (q : Nat × Bool) (m : MInst) : State :=
  let x := (s.cast q.1).ctx q.2
  match m.op with
  | .mac kind da db fmt ws _ =>
    let j : MacJob := { kind, da, db, fmt, ws, a := m.a, b := m.b }
    let s1 := s.modCtx q.1 q.2 (j.onBank 0)
    match m.mate with
    | some (true, d, k) => if 256 < tileRows db then s1.modCtx d k (j.onBank 256) else s1
    | _ => s1
  | .aclr => s.modCtx q.1 q.2 fun y => { y with bank := [], marks := [] }
  | .alds t d => s.modCtx q.1 q.2 (aldsBank t d m.a)
  | .asts t d w =>
    let n := tileEnd d (layoutT t d) - tileOfs d
    (s.modCast q.1 (astsSpad t d w x)).noteSpad (s.cast q.1).anchor q.1 (tileOfs d) n none
  | .ard t reg pos w lanes own =>
    if !(s.hoist m.hoist).live then s
    else
      let s1 := s.modHoist m.hoist (ardLanes t reg pos w lanes x)
      (s1.hoistFrags m.hoist).foldl (fun a f =>
        if (a.frag f).lanes &&& own = 0 then a
        else if ardWrites pos lanes = 0 then a.modFrag f fun y => { y with vempty := clearBits y.vempty reg 1 }
        else a.modFrag f fun y => { y with vempty := clearBits y.vempty reg 1, vabsent := clearBits y.vabsent reg 1 }) s1
  | .amrg .. | .mfree => s

/-- What follows the retirement of an instruction: an MFREE behind it may be due (R198), and a cast may have parked, or resumed whole,
or given up its room (R52, R187, R405). -/
def State.afterRetire (s : State) (q : Nat × Bool) : State :=
  let s1 := if (s.cast q.1).parking && !s.mustRun q then s else s.retireFrees q
  ((s1.finishPark q.1).admitResumed q.1).settleCast q.1

/-- MATRIX_RETIRE: the instruction on an array ends (R182, R193, R206). A paired instruction ends on both arrays, by the
leader's (R197). -/
def execMatrixRetire (gc : Nat) (s : State) : Host.Outcome State Fault Refusal :=
  let k := s.core gc
  .next (
    match k.running with
    | none => s
    | some q =>
      match s.headInst q with
      | none => s.freeArray gc q
      | some m =>
        let x := (s.cast q.1).ctx q.2
        if s.now < k.arrayEnd then s
        else match m.op with
          | .amrg r w so pages ticket =>
            let s1 := s.postMerge gc q.1 x r w so pages ticket
            let s2 := s1.modCtx q.1 q.2 fun y => { y with queue :=
              { m with running := false, posted := some (s1.lastSeq (coreSrc gc 0 8)) } :: y.queue.drop 1 }
            s2.freeArray gc q
          | _ =>
            match m.mate with
            | some (true, r) =>
              let s1 := ((s.instEffect q m).popInst q).popInst r
              let s2 := (s1.freeArray gc q).freeArray (s.cast r.1).anchor r
              (s2.afterRetire q).afterRetire r
            | some (false, _) => s
            | none => (((s.instEffect q m).popInst q).freeArray gc q).afterRetire q)

/-- The posts of an AMRG at the head of a context have all been acknowledged (R206). -/
def State.mergeAcked (s : State) (gc : Nat) (q : Nat × Bool) : Bool :=
  match s.headInst q with
  | some { op := .amrg _ _ _ _ ticket, posted := some n, .. } =>
    !((s.core gc).unacked.any fun u =>
      u.src = coreSrc gc 0 8 && u.tgt = paHearth ticket && decide ((n - u.seq).toNat < 2 ^ 31))
  | _ => false

/-- AMRG_RETIRE: every add and the ticket store have been acknowledged (R206). -/
def execAmrgRetire (gc : Nat) (ctx : Bool) (s : State) : Host.Outcome State Fault Refusal :=
  .next (
    match s.casts.find? fun q => q.2.anchor = gc && s.mergeAcked gc (q.1, ctx) with
    | some q => (s.popInst (q.1, ctx)).afterRetire (q.1, ctx)
    | none => s)

end Sys2Proof.Machine
end

