-- ==== Sys2Proof/Machine/System.lean ====
section
/-! DEFINITION. The meanings of the system instructions (R391, R398 to R401, R406 to R414): system registers, returning from a
handler, invalidation, parking by program, Bellows limits, error counters, requests for pre-emption, and KILL. -/

namespace Sys2Proof.Machine

/-! ### Privilege (R391) -/

/-- The issuing fragment runs in handler mode, or belongs to a managing context. -/
def Ix.privileged (i : Ix) : Bool := i.x.handler || i.s.managing i.x

/-- An instruction that its fragment may not run raises ILLEGAL (R391). -/
def Ix.runIf (i : Ix) (ok : Bool) (body : Except Stop State) : State := if ok then i.run body else i.illegal

/-! ### MOVSP (R398, R399) -/

/-- HAREA + 1 MiB × %hearth + 128 KiB × (%core mod 8) + 1 KiB × %slot (R398). -/
def Ix.hframe (i : Ix) : DWord :=
  (i.s.trapEnt i.x).harea +
    BitVec.ofNat 64 (2 ^ 20 * (coreHearth i.x.gc % 16) + 2 ^ 17 * (i.x.gc % 8) + 2 ^ 10 * i.x.slot)

/-- The value of system register `n` in lane `l` (R398). -/
def Ix.system (i : Ix) (n l : Nat) : Nat :=
  match n, i.x.trap with
  | 0x24, some t => t.prio.toNat
  | 0x25, some t => t.em.toNat
  | 0x28, some t => t.scr0.toNat
  | 0x29, some t => t.scr1.toNat
  | 0x2A, some t => t.scr2.toNat
  | 0x2B, some t => t.scr3.toNat
  | 0x2C, _ => i.hframe.toNat
  | 0x30, _ => (if i.x.handler then 1 else 0) + if i.s.managing i.x then 2 else 0
  | _, _ => i.special n l

/-- The register may be read only by a handler (R398). -/
def handlerOnly (n : Nat) : Bool := decide (0x20 ≤ n ∧ n ≤ 0x2C)

/-- MOVSP, reading (R399). -/
def execMovspRead (h : Hdr) (o : Ops) (num : BitVec 8) (s : State) : Host.Outcome State Fault Refusal :=
  let i := Ix.of s h
  let t : Ty := if wideSystem num then .b64 else .n32
  .next (i.runIf (!handlerOnly num.toNat || i.x.handler) do
    i.checkDests [(o.d, Ty.regs t)]
    pure (i.finish o.d t ((lanesOf i.g).map fun l => (l, Val.ofNat (i.system num.toNat l)))))

/-- A write of a system register (R398). -/
def TrapRegs.write (t : TrapRegs) (n : Nat) (v : DWord) : TrapRegs :=
  match n with
  | 0x21 => { t with pc := v }
  | 0x24 => { t with prio := v.setWidth 8 }
  | 0x28 => { t with scr0 := v }
  | 0x29 => { t with scr1 := v }
  | 0x2A => { t with scr2 := v }
  | 0x2B => { t with scr3 := v }
  | _ => t

/-- MOVSP, writing (R399). -/
def execMovspWrite (h : Hdr) (o : Ops) (num : BitVec 8) (s : State) : Host.Outcome State Fault Refusal :=
  let i := Ix.of s h
  .next (i.runIf i.x.handler do
    i.checkSources [{ o := o.b, n := 1, bit := h.eb }] i.g
    let v := (i.uniform o.b (.bw true)).bits
    let s1 := i.countUse (i.poisonLanes o.b 1 i.g ≠ 0) i.s
    pure (i.done (s1.modFrag i.f fun x => { x with trap := x.trap.map fun t => t.write num.toNat v })))

/-! ### RFT and HALT (R400, R401) -/

/-- Where the lanes of G return to (R400). DEDUCED (log 64). -/
def Ix.returnTarget (i : Ix) (o : Ops) (tgt : RftTo) (t : TrapRegs) : Except Stop DWord := do
  let target ← match tgt with
    | .retry => pure t.pc
    | .to => pure (i.uniform o.a (.bw true)).bits
    | .next => do
      guardStop (i.codeAt t.pc).isNone (.trap Cause.access (BitVec.ofNat 64 (blockOf t.pc)) i.g)
      match i.lengthAt t.pc with
      | some n => pure (t.pc + BitVec.ofNat 64 n)
      | none => .error (.trap Cause.align t.pc i.g)
  guardStop (decide (target.toNat % 4 ≠ 0)) (.trap Cause.align target i.g)
  pure target

/-- The repeat counter after a return: a retried instruction goes on repeating (R346), any other target clears it. DEDUCED (log 64). -/
def Frag.returnRep (x : Frag) (tgt : RftTo) (t : TrapRegs) : Frag :=
  match tgt with
  | .retry => { x with rep := x.rep.map fun p => if p = (t.prio0, t.pc0) then (t.prio, t.pc) else p }
  | _ => { x with repc := 0, rep := none }

/-- The lanes of G return from handler mode, and the rest of the entry goes on (R400). -/
def Ix.returnFrom (i : Ix) (h : Hdr) (o : Ops) (tgt : RftTo) : Except Stop State := do
  i.checkSources [{ o := o.a, n := 1, bit := h.ea }] i.g
  match i.x.trap with
  | none => pure i.s
  | some t =>
    let target ← i.returnTarget o tgt t
    let s1 := i.countUse (i.poisonLanes o.a 1 i.g ≠ 0) i.s
    pure (s1.modFrag i.f fun x =>
      (Frag.returnRep (i.restNext x) tgt t).returnLanes t i.e.prio i.e.pc target i.g)

/-- RFT (R400). -/
def execRft (h : Hdr) (o : Ops) (tgt : RftTo) (s : State) : Host.Outcome State Fault Refusal :=
  let i := Ix.of s h
  .next (i.runIf i.x.handler (i.returnFrom h o tgt))

/-- The launch hearth takes a PARK: it consumes the wake bit, or else sets the held bit, and says whether the cast parks (R408). -/
def State.takePark (s : State) (c : Nat) : Bool × State :=
  if (s.cast c).wake then (false, s.modCast c fun x => { x with wake := false })
  else (true, s.modCast c fun x => { x with held := true })

/-- The cast parks by its own wish, and its gang with it, unless the wake bit is there to be consumed (R208, R408). Away from the
launch hearth, which keeps the two bits, the fragment asks, and issues nothing until it has the answer (R272). DEDUCED (log 62). -/
def Ix.park (i : Ix) (s : State) : State :=
  let c := i.h.cast
  let p := s.pour (c / 2 ^ 64)
  let gh := 16 * p.pkg + p.hearth
  if coreHearth i.x.gc = gh then
    let (parks, s1) := s.takePark c
    if parks then s1.parkGang c else s1
  else (i.post s gh false (.parkNote c i.f) none 0).modFrag i.f fun x => { x with asking := true }

/-- The launch hearth's answer reaches the fragment, which goes on, or parks (R408). -/
def State.parkAnswered (s : State) (c f : Nat) (parks : Bool) : State :=
  let s1 := (s.noteReady f).modFrag f fun x => { x with asking := false }
  if parks then s1.parkGang c else s1

/-- HALT (R401). -/
def execHalt (h : Hdr) (o : Ops) (tgt : RftTo) (s : State) : Host.Outcome State Fault Refusal :=
  let i := Ix.of s h
  .next (i.runIf i.x.handler do
    let s1 ← i.returnFrom h o tgt
    pure (i.park s1))

/-- PARK (R408, R410). -/
def execPark (h : Hdr) (_ : Ops) (s : State) : Host.Outcome State Fault Refusal :=
  let i := Ix.of s h
  .next (i.run do
    i.notInHandler
    pure (i.park (i.done i.s)))

/-! ### Invalidation (R407) -/

/-- The core lies in a scope measured from core `gc` (R407). -/
def inScope (sc : Scope) (gc other : Nat) : Bool :=
  match sc with
  | .hoist | .cast | .core => other = gc
  | .hearth => other / 8 = gc / 8
  | .package => other / 128 = gc / 128
  | .domain => true

/-- The context is covered. DEDUCED (log 46). -/
def Ix.covers (i : Ix) (ext : InvExtent) (b : Nat) (ctx : BitVec 8) : Bool :=
  let p := i.s.pkg (corePkg i.x.gc)
  match ext with
  | .part => decide (p.part ctx.toNat = p.part (i.s.ctxOf i.x).toNat)
  | _ => decide (ctx.toNat = b)

/-- What TLBINV and ICINV read and check (R407): the address and the context. DEDUCED (log 46). -/
def Ix.invalidation (i : Ix) (h : Hdr) (o : Ops) (ext : InvExtent) : Except Stop (Nat × Nat) := do
  let useA : List Use := if ext = .page then [{ o := o.a, n := 1, bit := h.ea }] else []
  let useB : List Use := if ext = .part then [] else [{ o := o.b, n := 1, bit := h.eb }]
  i.checkSources (useA ++ useB) i.g
  let a := if ext = .page then (i.uniform o.a (.bw true)).bits else 0
  let b := (i.uniform o.b .w32).bits.toNat % 256
  let p := i.s.pkg (corePkg i.x.gc)
  let own := i.s.ctxOf i.x
  let foreign : Bool :=
    match ext with
    | .part => !i.s.managing i.x && (p.partCtxs (p.part own.toNat)).any fun c => c ≠ own
    | _ => decide (p.part b ≠ p.part own.toNat) || (!i.s.managing i.x && decide (b ≠ own.toNat))
  guardStop foreign (.trap Cause.access a i.g)
  pure (a.toNat, b)

/-- The use of a poisoned address or context (R417). -/
def Ix.invalidationUse (i : Ix) (o : Ops) (ext : InvExtent) : Bool :=
  (decide (ext = .page) && decide (i.poisonLanes o.a 1 i.g ≠ 0)) || (decide (ext ≠ .part) && decide (i.poisonLanes o.b 1 i.g ≠ 0))

/-- Every core in scope gives up the translations covered, and goes by HOST as it stands when the whole context is (R377). DEDUCED (log 114). -/
def Ix.dropTlb (i : Ix) (s : State) (ext : InvExtent) (sc : Scope) (a b : Nat) : State :=
  let covered (t : TlbEnt) : Bool := i.covers ext b t.ctx && (ext ≠ .page || decide (t.page = a / 2 ^ t.bits))
  { s with cores := s.cores.map fun (q : Nat × Core) =>
      if inScope sc i.x.gc q.1 then
        (q.1, { q.2 with
          tlb := q.2.tlb.filter fun t => !covered t
          hosts := q.2.hosts.filter fun t => ext = .page || !i.covers ext b t.1 })
      else q }

/-- The packets of covered contexts that cores in scope have sent and that are still to be applied. -/
def Ix.usingPackets (i : Ix) (ext : InvExtent) (sc : Scope) (b : Nat) : List (Nat × Word) :=
  (i.s.net.filter fun p =>
    srcOfCore p.src && inScope sc i.x.gc (srcCore p.src) && i.covers ext b p.ctx && !p.lost && p.body.cls ≠ 2).map
      fun p => (p.src, p.seq)

/-- The engine commands of covered contexts on cores in scope that hold translations. -/
def Ix.usingCmds (i : Ix) (ext : InvExtent) (sc : Scope) (b : Nat) : List Nat :=
  (i.s.cmds.filter fun q => inScope sc i.x.gc q.2.gc && i.covers ext b q.2.ctx && i.s.cmdUses q.1).map Prod.fst

/-- The accepted AMRGs of covered contexts on cores in scope, which keep the pages of their records (R206, R390). -/
def Ix.usingMerges (i : Ix) (ext : InvExtent) (sc : Scope) (b : Nat) : List (Nat × Bool × Nat) :=
  (i.s.casts.filter fun q => inScope sc i.x.gc q.2.anchor && i.covers ext b (i.s.pour q.2.pour).ctx).flatMap fun q =>
    [false, true].flatMap fun k =>
      ((q.2.ctx k).queue.filter fun m => match m.op with | .amrg .. => true | _ => false).map fun m => (q.1, k, m.num)

/-- Waits that keep an address under a translation: WAITA before its write, POURW, and the ticket wait of AMRG (R206, R255, R357). -/
def Wait.keepsAddress : Wait → Bool
  | .waita _ _ hit => !hit
  | .pourw _ | .ticket .. => true
  | _ => false

/-- The waits of covered contexts on cores in scope that keep an address end: their instructions issue again and translate again, as
ingots in flight do on arrival (R390, R407). -/
def Ix.reissue (i : Ix) (s : State) (ext : InvExtent) (sc : Scope) (b : Nat) : State :=
  (s.frags.filter fun q => q.2.live && inScope sc i.x.gc q.2.gc && i.covers ext b (s.ctxOf q.2)).foldl
    (fun a q => if (q.2.entries ++ q.2.frozen).any fun e => (e.wait.map Wait.keepsAddress).getD false then
        (a.noteReady q.1).modFrag q.1 fun x => x.release Wait.keepsAddress false
      else a) s

/-- TLBINV (R407). -/
def execTlbinv (h : Hdr) (o : Ops) (ext : InvExtent) (sc : Scope) (s : State) : Host.Outcome State Fault Refusal :=
  let i := Ix.of s h
  .next (i.runIf i.privileged do
    if i.e.woken then pure (i.done i.s)
    else
      let q ← i.invalidation h o ext
      let s1 := i.reissue (i.dropTlb (i.countUse (i.invalidationUse o ext) i.s) ext sc q.1 q.2) ext sc q.2
      let ps := i.usingPackets ext sc q.2
      let ks := i.usingCmds ext sc q.2
      let ms := i.usingMerges ext sc q.2
      if ps.isEmpty && ks.isEmpty && ms.isEmpty then pure (i.done s1)
      else pure (s1.modFrag i.f fun x => x.waitAt i.e.prio i.e.pc (.invalidate ps ks ms)))

/-- The page that holds an address in a context, as ICINV takes it: log2 of its size, and 30 where nothing maps it. -/
def Ix.pageBits (i : Ix) (ctx va : Nat) : Nat :=
  match i.s.walk (corePkg i.x.gc) ctx va with
  | some q => q.2.1
  | none => 30

/-- Every core in scope gives up the instruction-cache lines covered. -/
def Ix.dropIcache (i : Ix) (s : State) (ext : InvExtent) (sc : Scope) (a b : Nat) : State :=
  let bits := i.pageBits b a
  let covered (k : Nat) : Bool :=
    i.covers ext b (BitVec.ofNat 8 (k / 2 ^ 59)) && (ext ≠ .page || decide (k % 2 ^ 59 * 32 / 2 ^ bits = a / 2 ^ bits))
  { s with cores := s.cores.map fun (q : Nat × Core) =>
      if inScope sc i.x.gc q.1 then
        (q.1, { q.2 with icache := q.2.icache.filter fun t => !covered t.1, icbad := q.2.icbad.filter fun k => !covered k })
      else q }

/-- ICINV (R407). -/
def execIcinv (h : Hdr) (o : Ops) (ext : InvExtent) (sc : Scope) (s : State) : Host.Outcome State Fault Refusal :=
  let i := Ix.of s h
  .next (i.runIf (i.s.managing i.x) do
    let q ← i.invalidation h o ext
    pure (i.done (i.dropIcache (i.countUse (i.invalidationUse o ext) i.s) ext sc q.1 q.2)))

/-! ### UNPARK and KILL (R409, R414) -/

/-- The physical address of the pour record that a virtual address names (R386, R409). DEDUCED (log 63). -/
def Ix.recordAt (i : Ix) (o : Ops) : Except Stop Nat := do
  let va := (i.uniform o.a (.bw true)).bits.toNat
  guardStop (decide (va % 128 ≠ 0)) (.trap Cause.align (BitVec.ofNat 64 va) i.g)
  guardStop (i.translate va = .miss) (i.walkWait va)
  guardStop (i.accessBad Acc.go va) (.trap Cause.access (BitVec.ofNat 64 va) i.g)
  guardStop (i.outside (i.pa va)) (.trap Cause.partition (BitVec.ofNat 64 va) i.g)
  i.checkHints [paHearth (i.pa va)]
  i.checkSources2 [paHearth (i.pa va)]
  pure (i.pa va)

/-- UNPARK: a release at DOMAIN scope, then a packet to the record's home (R409). DEDUCED (log 63). -/
def execUnpark (h : Hdr) (o : Ops) (s : State) : Host.Outcome State Fault Refusal :=
  let i := Ix.of s h
  .next (i.run do
    i.checkSources [{ o := o.a, n := 1, bit := h.ea }, { o := o.b, n := 1, bit := h.eb }] i.g
    let pa ← i.recordAt o
    i.checkRelease true .domain
    let index := (i.uniform o.b .w32).word
    let s1 := i.countUse (i.poisonLanes o.a 1 i.g ≠ 0 || i.poisonLanes o.b 1 i.g ≠ 0) i.s
    let s2 := i.post s1 (paHearth pa) false (.unpark pa index (i.s.ctxOf i.x) (i.s.managing i.x)) none
      (i.uniform o.a (.bw true)).bits.toNat
    pure (i.done (s2.modFrag i.f (i.drainAfter false true .domain))))

/-- KILL: a packet to the record's home (R414). DEDUCED (log 61). -/
def execKill (h : Hdr) (o : Ops) (s : State) : Host.Outcome State Fault Refusal :=
  let i := Ix.of s h
  .next (i.runIf i.privileged do
    i.checkSources [{ o := o.a, n := 1, bit := h.ea }] i.g
    let pa ← i.recordAt o
    let s1 := i.countUse (i.poisonLanes o.a 1 i.g ≠ 0) i.s
    pure (i.done (i.post s1 (paHearth pa) false (.kill pa (i.s.ctxOf i.x) (i.s.managing i.x)) none
      (i.uniform o.a (.bw true)).bits.toNat)))

/-! ### GOVSET, ERRRD and PREQ (R411 to R413) -/

/-- GOVSET (R411): D takes the limits in force, and the limits of the issuer's package are written. DEDUCED (log 123). -/
def execGovset (h : Hdr) (o : Ops) (s : State) : Host.Outcome State Fault Refusal :=
  let i := Ix.of s h
  let pkg := corePkg i.x.gc
  .next (i.runIf (i.s.ownsPackage pkg (i.s.ctxOf i.x).toNat) do
    i.checkSources [{ o := o.b, n := 1, bit := h.eb }] i.g
    i.checkDests [(o.d, 1)]
    let v := (i.uniform o.b .w32).bits.toNat
    let b := (i.s.pkg pkg).bellows
    let s1 := i.countUse (i.poisonLanes o.b 1 i.g ≠ 0) i.s
    let s2 := s1.modPkg pkg fun p => { p with bellows := (p.bellows.setReg 2 (field v 15 0)).setReg 3 (field v 31 16) }
    let old : Val := Val.ofNat (b.fallLim * 2 ^ 16 + b.riseLim)
    pure (i.done (i.write s2 o.d .b32 ((lanesOf i.g).map fun l => (l, old)))))

/-- The error counter with a number, as context `ctx` on package `pkg` may read it (R412, R419). DEDUCED (log 65). -/
def State.errorCounter (s : State) (pkg ctx n : Nat) : Nat :=
  let kind := field n 27 24
  let inst := field n 23 8
  let ctr := field n 7 0
  let p := s.pkg pkg
  let mine (gh : Nat) : Bool := p.hearthPart gh = p.part ctx && decide (p.part ctx ≠ 0xFF)
  let all (k : Nat) : Bool := s.ownsPackage k ctx
  let sw := Sparse.get Switch.reset (s.pkg (inst / 16)).switches (inst % 16)
  match kind with
  | 0 => if inst < 1024 ∧ ctr ≤ 8 ∧ mine inst then Sparse.get 0 (s.hearth inst).counters ctr else 0
  | 1 => if inst < 8192 ∧ ctr ≤ 4 ∧ mine (coreHearth inst) then Sparse.get 0 (s.core inst).counters ctr else 0
  | 2 => if inst < 1024 ∧ ctr ≤ 6 ∧ all (inst / 16) then Sparse.get 0 sw.counters ctr else 0
  | 3 => if inst < 1536 ∧ ctr ≤ 3 ∧ all (inst / 24) then Sparse.get 0 (s.pkg (inst / 24)).linkCtrs (4 * (inst % 24) + ctr) else 0
  | 4 => if inst < 64 ∧ ctr ≤ 3 ∧ all inst then Sparse.get 0 (s.pkg inst).hostCtrs ctr else 0
  | _ => 0

/-- ERRRD (R412). DEDUCED (log 65). -/
def execErrrd (h : Hdr) (o : Ops) (s : State) : Host.Outcome State Fault Refusal :=
  let i := Ix.of s h
  .next (i.runIf i.privileged do
    i.checkSources [{ o := o.b, n := 1, bit := h.eb }] i.g
    i.checkDests [(o.d, 2)]
    let n := (i.uniform o.b .w32).bits.toNat
    let v : Val := Val.ofNat (i.s.errorCounter (corePkg i.x.gc) (i.s.ctxOf i.x).toNat n)
    let s1 := i.countUse (i.poisonLanes o.b 1 i.g ≠ 0) i.s
    pure (i.done (i.write s1 o.d .b64 ((lanesOf i.g).map fun l => (l, v)))))

/-- The completion address of PREQ: a multiple of 8, writable and not replicated (R413). -/
def Ix.preqAddr (i : Ix) (o : Ops) : Except Stop (Option Nat) :=
  match o.a with
  | .s _ => do
    let va := (i.uniform o.a (.bw true)).bits.toNat
    guardStop (decide (va % 8 ≠ 0)) (.trap Cause.align (BitVec.ofNat 64 va) i.g)
    guardStop (i.translate va = .miss) (i.walkWait va)
    guardStop (i.accessBad (Acc.store false) va) (.trap Cause.access (BitVec.ofNat 64 va) i.g)
    pure (some (i.pa va))
  | _ => pure none

/-- PREQ (R413). -/
def execPreq (h : Hdr) (o : Ops) (resume all : Bool) (s : State) : Host.Outcome State Fault Refusal :=
  let i := Ix.of s h
  let pkg := corePkg i.x.gc
  .next (i.runIf (i.s.managing i.x) do
    i.checkSources [{ o := o.a, n := 1, bit := h.ea }, { o := o.b, n := 1, bit := h.eb }] i.g
    let done ← i.preqAddr o
    let p := i.s.pkg pkg
    let own := i.s.ctxOf i.x
    let c : BitVec 8 := (i.uniform o.b .w32).bits.setWidth 8
    guardStop (!all && decide (p.part c.toNat ≠ p.part own.toNat)) (.trap Cause.access 0 i.g)
    match done with
    | some pa => guardStop (i.outside pa) (.trap Cause.partition (i.uniform o.a (.bw true)).bits i.g)
    | none => pure ()
    let ctxs := if all then p.partCtxs (p.part own.toNat) else [c]
    let s1 := i.countUse (i.poisonLanes o.a 1 i.g ≠ 0 || i.poisonLanes o.b 1 i.g ≠ 0) i.s
    pure (i.done (s1.requestPreempt pkg { resume, ctxs, done, fw := false, owner := own })))

end Sys2Proof.Machine
end

