-- ==== Sys2Proof/Machine/Fabric.lean ====
section
/-! DEFINITION. Fragments on their way (R38, R39, R44 to R52), and packets as they are applied at their homes and answered
(R215 to R218, R272 to R279, R386, R387). -/

namespace Sys2Proof.Machine

/-! ### Records of the fabric -/

/-- A trace record of a TRACE pour about a fragment (R421). DESIGN CHOICE (log 98). -/
def State.traceFrag (s : State) (f gh code : Nat) : State :=
  let x := s.frag f
  let p := s.pour (s.pourOf x)
  if p.flag 4 then s.traceRecord gh (seqrSrc gh) code p.ctx.toNat 0 0 else s

/-- The SRC and SEQ of a packet, as the DETAIL of a record (R420). -/
def Packet.detail (p : Packet) : Nat := p.src + p.seq.toNat * 2 ^ 32

/-- A STATUS store that tells of a refused launch (R303). -/
def Packet.tellsRefusal (p : Packet) : Bool :=
  match p.body with
  | .store [w] => srcUnit p.src = 4 && w.size = 2 && decide (0x8000 ≤ w.val.toNat)
  | _ => false

/-- The home compares the partition of a packet's context with its own (R386); a write of the host is in no context. The STATUS of a refused launch is judged by no partition,
because PARTITION is one of the refusals that it tells of (R303). DEDUCED (log 50). -/
def State.refuses (s : State) (p : Packet) : Bool :=
  let pkg := s.pkg (p.tgt / 16)
  decide (p.tgt < 1024) && decide (srcUnit p.src ≠ 6) && !p.tellsRefusal && decide (pkg.hearthPart p.tgt ≠ pkg.part p.ctx.toNat)

/-- A physical address that a packet names (R273). -/
def Body.addr : Body → Nat
  | .store (w :: _) => w.pa
  | .reduction _ _ (w :: _) => w.pa
  | .signal pa _ => pa
  | .engineWrite _ pa _ _ => pa
  | .unpark pa .. => pa
  | .kill pa .. => pa
  | .pinDown pa => pa
  | .engineRead _ (pa :: _) => pa
  | .pourRequest pa .. => pa
  | .merged _ _ home ofs .. => paOf home ofs
  | _ => 0

/-- A refused packet is counted and recorded (R387). -/
def State.noteRefused (s : State) (p : Packet) : State :=
  (s.countHearth p.tgt 2).hearthRecord p.tgt 6 p.ctx.toNat (counterNumber 0 p.tgt 2) p.body.addr p.detail

/-! ### Where a fragment can stand (R39, R75) -/

/-- The visitor block that a core would give next: in the lowest granule that has a used and a free block, or in the lowest
free granule (R75). -/
def State.visitorBlock (s : State) (gc : Nat) : Option Nat :=
  let used := (s.core gc).blocks.map Prod.fst
  let opened := (List.range 96).find? fun g =>
    used.any (fun b => b / 8 = g) && (List.range 8).any fun j => !used.contains (8 * g + j)
  match opened with
  | some g => ((List.range 8).find? fun j => !used.contains (8 * g + j)).map fun j => 8 * g + j
  | none => (s.freeGranules gc).head?.map fun g => 8 * g

/-- The free hoist slots of a core. -/
def Core.freeCount (c : Core) : Nat := ((List.range 4).map fun k => (c.freeSlots k).length).foldl (· + ·) 0

/-- A core can accept a fragment from another core (R39). DEDUCED (log 53). -/
def State.canAccept (s : State) (gc : Nat) : Bool := decide (0 < (s.core gc).freeCount) && (s.visitorBlock gc).isSome

/-- The core of a hearth that takes the next arrival (R39). -/
def State.pickCore (s : State) (gh : Nat) : Option Nat :=
  bestBy (fun gc => (s.core gc).freeCount) ((coresOf gh).filter s.canAccept)

/-- A fragment stands in a slot of a core: its back-off is reset, and the entries whose packets this home has applied are gone (R49,
R256). A hoist that it brings to the core issues as if it had never issued, and is ready from now unless it was before (R312, R313). DEDUCED (log 60). -/
def State.settleAt (s : State) (f gc slot : Nat) : State :=
  let busy := s.slotReady gc slot
  let there := !(s.slotFrags gc slot).isEmpty
  (s.modFrag f fun x => { x with
    place := .core gc slot, backoff := 64, seen := none, pseq := s.seenHere (coreHearth gc) x.pseq
    entries := x.entries.map fun e => { e with wait := none, woken := false } }).modCore gc fun c =>
      { c with readyAt := if busy then c.readyAt else Sparse.set 0 c.readyAt slot s.now
               issuedAt := if there then c.issuedAt else Sparse.set 0 c.issuedAt slot 0 }

/-- A fragment takes its place on a core: the hoist's own slot on its anchor core, and otherwise the lowest free slot of the
partition with the most, with a visitor block (R39, R75). -/
def State.admitOn (s : State) (f gc : Nat) : State :=
  let h := s.hoist (s.frag f).hoist
  if gc = (s.cast h.cast).anchor then s.settleAt f gc h.slot
  else
    let c := s.core gc
    match bestBy (fun k => (c.freeSlots k).length) (List.range 4), s.visitorBlock gc with
    | some part, some b =>
      match (c.freeSlots part).head? with
      | some slot =>
        (s.setCore gc { c with visitors := Sparse.set none c.visitors slot (some f)
                               blocks := Sparse.set none c.blocks b (some f) }).settleAt f gc slot
      | none => s
    | _, _ => s

/-- A fragment is written to the parking area of a hearth, as the ingot with a sender and a number (R51, R421). -/
def State.parkFrag (s : State) (f gh : Nat) (arrival anchor : Bool) (sender : Nat) (seq : Word) : State :=
  let s1 := (s.modFrag f fun x => { x.parkedForm with place := .parked gh arrival anchor }).putIngot f gh anchor sender seq
  (if arrival then s1.modHearth gh fun h => { h with arrivals := h.arrivals ++ [f] } else s1).traceFrag f gh 0x82

/-- A fragment may not stand at a hearth: its cast is parking, or the hearth's package saves its context (R51, R52). -/
def State.mustPark (s : State) (f gh : Nat) : Bool :=
  (s.cast (s.castOf (s.frag f))).parking || s.ctxSaved (gh / 16) (s.ctxOf (s.frag f))

/-- An arriving fragment parks: it may not stand there, or it finds no room on a core, or others wait before it (R39, R52). -/
def State.parksAt (s : State) (f gh : Nat) (bound : Bool) : Bool :=
  s.mustPark f gh || (!bound && ((s.pickCore gh).isNone || !(s.hearth gh).arrivals.isEmpty))

/-- A fragment that reaches a hearth in the ingot with a sender and a number is placed, or joins its parked arrivals (R39);
while its cast parks, or the package saves its context, it is parked there (R52). -/
def State.takeIn (s : State) (f gh : Nat) (bound : Bool) (sender : Nat) (seq : Word) : State :=
  let c := s.castOf (s.frag f)
  if s.mustPark f gh then (s.parkFrag f gh false bound sender seq).finishPark c
  else if bound then s.settleAt f (s.cast c).anchor (s.hoist (s.frag f).hoist).slot
  else if s.parksAt f gh bound then s.parkFrag f gh true false sender seq
  else
    match s.pickCore gh with
    | some gc => s.admitOn f gc
    | none => s

/-- A refused ingot is back at the core that sent it, which admits the fragment, or its hearth parks it (R387). -/
def State.takeBack (s : State) (f gc : Nat) (seq : Word) : State :=
  let gh := coreHearth gc
  if s.mustPark f gh || gc = s.anchorOf (s.frag f) then s.takeIn f gh (gc = s.anchorOf (s.frag f)) gc seq
  else if s.canAccept gc && (s.hearth gh).arrivals.isEmpty then s.admitOn f gc
  else s.parkFrag f gh true false gc seq

/-! ### Leaving (R44, R49, R63, R231) -/

/-- Nothing but its posted-sequence entries keeps the fragment on its core: every register is full (R63), the drain mark is met (R231),
and what it has sent to the host and to reduction windows has left (R224, R281). DEDUCED (log 110). -/
def State.mayLeave (s : State) (x : Frag) : Bool :=
  x.fills.isEmpty && !x.hasEmpty && !x.asking && s.othersSent x && (match x.drain with | some n => (s.core x.gc).drainedTo n | none => true)

/-- Every bit of a live set. -/
def fullLive : BitVec 64 := BitVec.allOnes 64

/-- The live set that a fragment ships: the registers v0 to v63 and s0 to s63, with the counts of R44 and R418. -/
def State.liveSet (s : State) (x : Frag) (lsel : BitVec 8) : BitVec 64 × BitVec 64 × BitVec 8 × State :=
  let p := s.pour (s.pourOf x)
  let gh := coreHearth x.gc
  let va := wrapTo (p.word 0x58 8 + 16 * lsel.toNat) 64
  let bad (ctr : Nat) : BitVec 64 × BitVec 64 × BitVec 8 × State := (fullLive, fullLive, 0xFF, s.countCore x.gc ctr)
  if lsel = 0xFF then (fullLive, fullLive, 0xFF, s)
  else match s.engTranslate gh p.ctx.toNat va { r := true, w := false, x := false } with
    | .ok pa _ _ _ =>
      if paHost pa || isCpage pa then bad 4
      else if s.poisoned pa 16 then bad 2
      else (BitVec.ofNat 64 (s.readLE pa 8), BitVec.ofNat 64 (s.readLE (pa + 8) 8), lsel, s)
    | _ => bad 4

/-- The registers of the window that a live set leaves behind. -/
def unshipped (live : BitVec 64) : List Nat := (List.range 64).filter fun r => !live.getLsbD r

/-- The elements that do not travel read as zero for the travelling lanes (R44). DEDUCED (log 12). -/
def Hoist.dropRegs (h : Hoist) (base : Nat) (live : BitVec 64) (lanes : LaneMask) : Hoist :=
  (unshipped live).foldl (fun k r => (lanesOf lanes).foldl (fun k l => k.setElem (base + r) l 0 false) k) h

/-- The fragment as it travels: the registers that it does not ship are zero, full and absent (R44). DEDUCED (log 12). DESIGN CHOICE (log 109). -/
def Frag.travelling (x : Frag) (vl sl : BitVec 64) : Frag :=
  let gone : BitVec 256 := (unshipped vl).foldl (fun b r => b ||| BitVec.ofNat 256 (2 ^ (x.wbase + r))) 0
  { x with
    place := .flight, drain := none, sleep := none, pause := none, hinted := [], seen := none, badWalk := []
    entries := x.entries.map fun e => { e with wait := none, woken := false }
    sregs := x.sregs.filter fun q => sl.getLsbD q.1
    spoison := x.spoison &&& sl, sabsent := x.sabsent ||| ~~~sl, vabsent := x.vabsent ||| gone }

/-- Bytes of a migrating ingot (R47). -/
def ingotBytes (lanes : LaneMask) (vl sl : BitVec 64) : Nat :=
  let bits (b : BitVec 64) : Nat := ((List.range 64).filter fun r => b.getLsbD r).length
  (288 + 4 * (lanesOf lanes).length * bits vl + 8 * bits sl + 31) / 32 * 32

/-- The mask registers that a fragment takes along as it leaves: of the hoist's own where they are at hand, at the anchor or with a whole
hoist, and otherwise the copy that it has (R41). -/
def State.leavingMasks (s : State) (x : Frag) : Tab LaneMask :=
  let h := s.hoist x.hoist
  if h.split && x.gc ≠ s.anchorOf x then x.mcopy else h.masks

/-- The fragment's ingot leaves for a hearth (R38, R41, R44, R45). -/
def State.migrateFrag (s : State) (f dest : Nat) (lsel : BitVec 8) (anchor : Bool) : State :=
  let x : Frag := { s.frag f with mcopy := s.leavingMasks (s.frag f) }
  let gc := x.gc
  let (vl, sl, sel, s1) := s.liveSet x lsel
  let s2 := (s1.modHoist x.hoist fun h => h.dropRegs x.wbase vl x.lanes).setFrag f (x.travelling vl sl)
  let s3 := (s2.modCore gc fun c => c.dropVisitor f).send (coreSrc gc 0 7) dest (s.ctxOf x) false (some (s.castOf x))
    (.ingot f sel (ingotBytes x.lanes vl sl) anchor)
  s3.traceFrag f (coreHearth gc) 0x80

/-- FRAGMENT_DEPARTURE: a fragment leaves its core, by migrating or by parking, once it may; pins that it holds for an instruction are
released (R49, R51, R63, R231, R388). -/
def execFragmentDeparture (f : Nat) (s : State) : Host.Outcome State Fault Refusal :=
  let x := s.frag f
  .next (
    match x.place with
    | .departing gc _ dest lsel anchor park =>
      let l := s.keptPSeq x
      if !x.live || !s.mayLeave x then s
      else if 4 < l.length then (s.setFrag f { x with pseq := l }).askAcks gc (s.ctxOf x) l
      else
        let s1 := (s.setFrag f { x with pseq := l, drain := none }).dropAllPins f
        if park then
          (((s1.modCore gc fun c => c.dropVisitor f).numberImage gc).parkFrag f (coreHearth gc) false anchor gc
            (s.imageSeq gc)).finishPark (s.castOf x)
        else s1.migrateFrag f dest lsel anchor
    | _ => s)

/-! ### Arriving (R39, R52, R387, R432) -/

/-- A landing completion goes back to the core that sent an ingot (R275). -/
def State.landed (s : State) (p : Packet) (f : Nat) : State :=
  (s.countRecv p).answer (seqrSrc p.tgt) (2048 + srcCore p.src) p.ctx (.landing f)

/-- INGOT_ARRIVAL: the fragment is placed or parked; one that fails the home's check returns to its sender, where it raises
PARTITION (R39, R52, R387). One that finds the parking area full waits, and counts its wait once (R432). -/
def execIngotArrival (n : Nat) (s : State) : Host.Outcome State Fault Refusal :=
  .next (
    match s.ready n with
    | some p =>
      match p.body with
      | .ingot f _ _ bound =>
        let x := s.frag f
        if !x.live then (s.dropPacket n).landed p f
        else if s.refuses p then
          let g := srcCore p.src
          let s1 := ((s.dropPacket n).noteRefused p).landed p f
          let s2 := s1.modFrag f fun y => { y with async :=
            if (y.async.any fun c => c.code = Cause.partition) then y.async
            else y.async ++ [{ code := Cause.partition, addr := y.aim }] }
          s2.takeBack f g p.seq
        else if s.parksAt f p.tgt bound && (s.spot p.tgt x.parkedBytes).isNone then
          if p.waited then s else { s.countHearth p.tgt 5 with net := s.net.set n { p with waited := true } }
        else (((s.dropPacket n).traceFrag f p.tgt 0x81).landed p f).takeIn f p.tgt bound (srcCore p.src) p.seq
      | _ => s
    | none => s)

/-- Poison in what the device itself depends on ends the pour as by KILL, with a record that says so (FLAGS[1]): a scoreboard entry, a
parked ingot, or a cast image (R418, R420). -/
def State.poisonedEntry (s : State) (pour gh pa : Nat) : State :=
  ((s.countHearth gh 1).record gh (seqrSrc gh) 2 (s.pour pour).ctx.toNat 2 (counterNumber 0 gh 1) pa 0).beginKill pour

/-- PARKED_ARRIVAL_PLACEMENT: the head of a hearth's parked arrivals is placed (R39); a poisoned ingot ends its pour (R418). -/
def execParkedArrivalPlacement (gh : Nat) (s : State) : Host.Outcome State Fault Refusal :=
  .next (
    match (s.hearth gh).arrivals, s.pickCore gh with
    | f :: r, some gc =>
      match s.badImage gh (· = .ingot f) with
      | some pa => s.poisonedEntry (s.pourOf (s.frag f)) gh pa
      | none => ((s.dropImages gh (· = .ingot f)).modHearth gh fun h => { h with arrivals := r }).admitOn f gc
    | _, _ => s)

/-- HOLD_RELEASE: the home has applied what the fragment posted here, so its entries are gone and its access begins (R49,
R50). -/
def execHoldRelease (f : Nat) (s : State) : Host.Outcome State Fault Refusal :=
  let x := s.frag f
  let here := coreHearth x.gc
  let l := s.seenHere here x.pseq
  .next (
    if x.onCore && l.length < x.pseq.length then
      let y : Frag := { x with pseq := l }
      if (l.any fun e => e.tgt = here) then s.setFrag f y
      else (s.noteReady f).setFrag f (y.release (fun w => w = .hold) false)
    else s)

/-! ### Applying posted packets (R216, R275, R276, R387) -/

/-- Where answers to a source go: its core, hearth, switch or host link. -/
def srcPlace (src : Nat) : Nat :=
  if srcOfCore src then 2048 + srcCore src
  else match srcUnit src with
    | 5 => 65536 + srcHearth src
    | 6 => 1024 + srcPkg src
    | _ => srcHearth src

/-- The source of answers of a target: its sequencer, or switch (0, 0) for the host link (R275). -/
def tgtSrc (tgt : Nat) : Nat := if tgt < 1024 then seqrSrc tgt else hearthSrc (16 * (tgt - 1024)) 5

/-- A packet has been applied, or refused: it is counted, and acknowledged (R275, R291). -/
def State.acknowledge (s : State) (p : Packet) (refused : Bool) : State :=
  ((s.modHearth p.tgt fun h => { h with applied := Sparse.set 0 h.applied p.src p.seq }).countRecv p).answer (tgtSrc p.tgt) (srcPlace p.src) p.ctx (.ack p.src p.tgt p.seq refused)

/-- The home of a core-class release has no room for its record (R236). -/
def State.noRoom (s : State) (p : Packet) : Bool :=
  let n := match p.body with
    | .store ws | .reduction _ _ ws => ws.length
    | _ => 1
  p.rel.isSome && decide (p.tgt < 1024) && s.recordsFull p.tgt n

/-- The posted packet at position `n` is applied at its home, which then acknowledges it; `f` says what it does. A packet that
fails the home's check is refused (R387). -/
def State.applyPosted (s : State) (n : Nat) (f : Packet → State → Option State) : State :=
  match s.ready n with
  | none => s
  | some p =>
    if s.noRoom p then s
    else match f p (s.dropPacket n) with
      | none => s
      | some s1 =>
        if s.refuses p then ((s.dropPacket n).noteRefused p).acknowledge p true else s1.acknowledge p false

/-- Lanes of a live hoist arrive at a barrier from another core (R352). -/
def State.barArrive (s : State) (cast num : Nat) (w : BarWait) (count : Nat) (sync : Bool) : State :=
  if (s.hoist w.hoist).live then (s.arriveBar cast num w count sync).openBarrier cast num else s

/-- PARK or HALT of a cast reaches its launch hearth, which answers (R408). DEDUCED (log 62). DESIGN CHOICE (log 137). -/
def State.parkAsked (s : State) (c f : Nat) (p : Packet) : State :=
  let (parks, s1) := s.takePark c
  s1.answer (seqrSrc p.tgt) (srcPlace p.src) p.ctx (.parkAnswer c f parks)

/-- POSTED_STORE (R216, R218), and the posted packets that bring an arrival at a barrier, a request of POUR, or PARK or HALT to their
hearth (R272). DESIGN CHOICE (log 137). -/
def execPostedStore (n : Nat) (s : State) : Host.Outcome State Fault Refusal :=
  .next (s.applyPosted n fun p a => match p.body with
    | .store ws => some (a.applyWrites p.ctx ws p.rel p.detail)
    | .arrive cast num hoist lanes count sync pc next => some (a.barArrive cast num { hoist, pc, next, lanes } count sync)
    | .pourRequest recPa ctx _ => if 64 ≤ (a.hearth p.tgt).waiting.length then none else some (a.addRequest p.tgt ctx recPa)
    | .parkNote cast frag => some (a.parkAsked cast frag p)
    | _ => none)

/-- POSTED_REDUCTION: reductions in order, or the decrement of a pin (R251, R388). -/
def execPostedReduction (n : Nat) (s : State) : Host.Outcome State Fault Refusal :=
  .next (s.applyPosted n fun p a => match p.body with
    | .reduction op t ws => some (a.applyReductions op t ws p.rel)
    | .pinDown pa => some (a.unpin pa)
    | _ => none)

/-- The 8-byte add of a signal or of a completion. -/
def State.addWord (s : State) (ctx : BitVec 8) (pa : Nat) (v : DWord) (rel : Option (Nat × Nat)) : State :=
  let old := s.readAt ctx pa 8
  s.applyWrites ctx [{ pa, size := 8, val := old.bits + v, poison := old.poison }] rel

/-- SIGNAL_ADD: once the payload has been acknowledged, the signal word goes up by 1 (R259). -/
def execSignalAdd (n : Nat) (s : State) : Host.Outcome State Fault Refusal :=
  .next (s.applyPosted n fun p a => match p.body with
    | .signal pa [] => some (a.addWord p.ctx pa 1 p.rel)
    | _ => none)

/-- A pennant is applied to a successor's entry: PEND falls, and at 0 the cast is released (R325). -/
def State.applyPennant (s : State) (pour cast gh : Nat) : State :=
  let p := s.pour pour
  let pa := p.sbPa (sbEntry cast)
  let state := s.readLE pa 1
  let pend := (s.readLE (pa + 1) 1 + 255) % 256
  if p.st ≠ .accepted then s
  else if s.poisoned pa 8 then s.poisonedEntry pour gh pa
  else
    let s1 := s.rewrite (pa + 1) 1 pend false
    if pend = 0 ∧ state % 8 = 0 then s1.releaseEntry pour cast gh else s1

/-- PENNANT (R325). -/
def execPennant (n : Nat) (s : State) : Host.Outcome State Fault Refusal :=
  .next (s.applyPosted n fun p a => match p.body with
    | .pennant pour cast => some (a.applyPennant pour cast p.tgt)
    | _ => none)

/-- CAST_RELEASE: the cast joins the placement queue, with its gang (R307, R308, R326). -/
def execCastRelease (n : Nat) (s : State) : Host.Outcome State Fault Refusal :=
  .next (s.applyPosted n fun p a => match p.body with
    | .release pour cast => some (a.arrive pour cast p.tgt)
    | _ => none)

/-- ENGINE_COMPLETION_WRITE (R261). -/
def execEngineCompletionWrite (n : Nat) (s : State) : Host.Outcome State Fault Refusal :=
  .next (s.applyPosted n fun p a => match p.body with
    | .engineWrite _ pa v true => some (a.addWord p.ctx pa v none)
    | .engineWrite _ pa v false => some (a.applyWrites p.ctx [{ pa, size := 8, val := v, poison := false }] none)
    | _ => none)

/-- ENGINE_COMMAND: a bank command reaches its hearth (R266). -/
def execEngineCommand (n : Nat) (s : State) : Host.Outcome State Fault Refusal :=
  .next (s.applyPosted n fun p a => match p.body with
    | .engineCmd k => some (if (a.cmd k).stage = .sent then a.modCmd k fun c => { c with stage := .active } else a)
    | _ => none)

/-- EXIT_NOTICE: lanes of an away fragment have exited; a hoist that ends by it ends after the release of R327 (R42, R354). -/
def execExitNotice (n : Nat) (s : State) : Host.Outcome State Fault Refusal :=
  .next (s.applyPosted n fun p a => match p.body with
    | .exitNotice hk lanes =>
      if (a.hoist hk).live then
        some ((((a.modHoist hk fun h => h.exitLanes lanes).settleSplit hk).endHoist hk).openBarriers (hk / 32))
      else some a
    | _ => none)

/-- A host write of bytes, word by word; with EP every word is marked (R417). -/
def State.hostBytes (s : State) (pa : Nat) (bytes : List Byte) (ep : Bool) : State :=
  (payload pa (bytes.map fun b => (b, ep))).foldl (fun a w =>
    (a.writeMem w.pa w.size w.val.toNat w.poison).noteRelease (paHearth pa) w.pa w.size none) s

/-- A host write as a packet of the host link (R221, R272 to R275): it takes the link's next number, is remembered until its
acknowledgement, and counts as sent. It belongs to no context, and carries 0. DESIGN CHOICE (log 115). -/
def State.hostPacket (s : State) (pkg gh : Nat) : Packet × State :=
  let src := hostSrc pkg
  let p : Packet := { src, seq := s.nextSeq src, tgt := gh, ctx := 0, pass := false, gen := s.genOf src 0, ord := 0, cast := none,
                      lost := false, rel := none, body := .store [] }
  (p, ((s.bumpSeq src).countSent p).remember
    { src, tgt := gh, seq := p.seq, ord := 0, addr := 0, cast := none, ctx := 0, gen := p.gen, sentAt := s.now })

/-- The host link holds a write: during a change of routes until it has flipped, and behind what it has held to the same hearth (R276,
R295). DESIGN CHOICE (log 115). -/
def State.hostHolds (s : State) (pkg gh : Nat) : Bool :=
  (match (s.pkg pkg).routing with | some l => !l.contains (hostSrc pkg) | none => false) ||
    s.net.any fun p => p.src = hostSrc pkg && p.tgt = gh && p.body.cls = 0

/-- HOST_WRITE: a write of the host to device memory is applied at its home, which acknowledges it (R221, R227, R275, R417), or travels
later as a packet that the host link holds until it has flipped to new routes (R295); one that names no device memory is discarded and
counted. -/
def execHostWrite (pkg pa : Nat) (bytes : List Byte) (ep : Bool) (s : State) : Host.Outcome State Fault Refusal :=
  let p := s.pkg pkg
  .next (
    if !p.present || !p.perst || !p.hostLink || bytes.isEmpty then s
    else
      let s1 := if ep then s.countHost pkg 1 else s
      if paHost pa || paHost (pa + bytes.length - 1) || s.noHome pkg pa || s.noHome pkg (pa + bytes.length - 1) ||
          paHearth pa ≠ paHearth (pa + bytes.length - 1) || isCpage pa || isCpage (pa + bytes.length - 1) then s1.hostError pkg
      else if s1.hostHolds pkg (paHearth pa) then
        s1.send (hostSrc pkg) (paHearth pa) 0 false none (.store (payload pa (bytes.map fun b => (b, ep))))
      else
        let (q, s2) := s1.hostPacket pkg (paHearth pa)
        (s2.hostBytes pa bytes ep).acknowledge q false)

/-! ### Acknowledgements (R49, R259, R275, R387) -/

/-- An acknowledgement covers a number. -/
def covers (seq u : Word) : Bool := decide ((seq - u).toNat < 2 ^ 31)

/-- The entries of a fragment that an acknowledgement removes (R49). -/
def Frag.acked (x : Frag) (src tgt : Nat) (seq : Word) : Frag :=
  { x with pseq := x.pseq.filter fun e => !(e.src = src && e.tgt = tgt && covers seq e.seq) }

/-- A held signal of a source waits no longer for the packets that are acknowledged (R259). -/
def Packet.acked (p : Packet) (src tgt : Nat) (seq : Word) : Packet :=
  match p.body with
  | .signal pa after =>
    if p.src = src then { p with body := .signal pa (after.filter fun q => !(q.1 = tgt && covers seq q.2)) } else p
  | _ => p

/-- Held signals that an acknowledgement has freed leave their source behind all that has left before, and so do the later posted
packets of the source to their targets, which stood behind them (R48, R226, R259, R276). DEDUCED (log 39). -/
def State.freeSignals (s : State) (src tgt : Nat) (seq : Word) : State :=
  let freed := s.net.filter fun p => p.body.held && !(p.acked src tgt seq).body.held
  let moves (p : Packet) : Bool := freed.any fun q => q.src = p.src && q.tgt = p.tgt && p.body.cls = 0 && covers p.seq q.seq
  let out := (s.net.filter moves).map fun p => p.acked src tgt seq
  out.foldl State.countLeft
    { s with net := (s.net.filter fun p => !moves p).map (fun p => p.acked src tgt seq) ++ out }

/-- The fragment stands in the slot of a source (R387). -/
def Frag.standsIn (x : Frag) (src : Nat) : Bool :=
  x.live && (match x.place with
    | .core gc k => coreSrc gc k 0 = src
    | .departing gc k _ _ _ _ => coreSrc gc k 0 = src
    | _ => false)

/-- A refused packet of a hoist slot: the fragment that sent it raises PARTITION before its next instruction, if it still stands there;
a refused packet of an engine ends its command with status 4 (R387). -/
def State.refusedAt (s : State) (src tgt : Nat) (seq : Word) (addr : DWord) (frag : Option Nat) : State :=
  if srcUnit (orderSrc src) = 0 then
    match frag with
    | some f =>
      if (s.frag f).standsIn (orderSrc src) then
        s.modFrag f fun x => { x with async :=
          if (x.async.any fun c => c.code = Cause.partition) then x.async
          else x.async ++ [{ code := Cause.partition, addr }] }
      else s
    | none => s
  else
    s.cmds.foldl (fun a q =>
      if q.2.src = src ∧ q.2.posted.contains (tgt, seq) then
        (match q.2.stage with
         | .done => a
         | .feeding => a.modCmd q.1 fun c => { c with status := 4 }
         | _ => a.finishCmd q.1 4)
      else a) s

/-- The packets that are still to be acknowledged after an acknowledgement of a source at a target (R275). -/
def stillUnacked (l : List Unacked) (src tgt : Nat) (seq : Word) : List Unacked :=
  l.filter fun u => !(u.src = src && u.tgt = tgt && covers seq u.seq)

/-- The core of a source learns that its packets to a target up to a number are applied. -/
def State.coreAck (s : State) (src tgt : Nat) (seq : Word) (refused : Bool) : State :=
  let gc := srcCore src
  let sent := (s.core gc).unacked.find? fun u => u.src = src && u.tgt = tgt && u.seq = seq
  let s1 := (s.modCore gc fun c => { c with unacked := stillUnacked c.unacked src tgt seq }).freeSignals src tgt seq
  if refused then s1.refusedAt src tgt seq ((sent.map Unacked.addr).getD 0) (sent.bind Unacked.frag) else s1

/-- The side of a source learns that its packets to a target up to a number are applied (R275). -/
def State.sourceAck (s : State) (src tgt : Nat) (seq : Word) (refused : Bool) : State :=
  if srcOfCore src then s.coreAck src tgt seq refused else { s with unacked := stillUnacked s.unacked src tgt seq }

/-- ACKNOWLEDGEMENT: the posting source, or the core that asked, learns how far a home has come (R49, R231, R259, R275). -/
def execAcknowledgement (n : Nat) (s : State) : Host.Outcome State Fault Refusal :=
  .next (
    match s.ready n with
    | some p =>
      match p.body with
      | .ack src tgt seq refused =>
        let gc := p.tgt - 2048
        let s1 := (s.dropPacket n).countRecv p
        let s2 := if srcPlace src = p.tgt then s1.sourceAck src tgt seq refused else s1
        if p.tgt < 2048 ∨ 65536 ≤ p.tgt then s2
        else
          { s2 with frags := s2.frags.map fun q =>
              if q.2.gc = gc && (match q.2.place with | .core .. => true | .departing .. => true | _ => false) then
                (q.1, q.2.acked src tgt seq) else q }
      | _ => s
    | none => s)

/-- The clocks that a source waits for an acknowledgement before it asks: 2 µs (R28, R275). DEDUCED (log 36). -/
def ackClocks : Nat := 2200

/-- A posted packet of a source has waited so long. -/
def Unacked.late (u : Unacked) (src now : Nat) : Bool := u.src = src && decide (u.sentAt + ackClocks ≤ now)

/-- The packets of a source that have waited begin to wait anew. -/
def State.askAgain (s : State) (src : Nat) : State :=
  let again (l : List Unacked) : List Unacked := l.map fun u => if u.late src s.now then { u with sentAt := s.now } else u
  if srcOfCore src then s.modCore (srcCore src) fun c => { c with unacked := again c.unacked }
  else { s with unacked := again s.unacked }

/-- ACK_TIMEOUT: a source that has waited asks the homes of its packets (R275). A request of a hoist slot takes no number (R48). DEDUCED (log 36). -/
def execAckTimeout (n : Nat) (s : State) : Host.Outcome State Fault Refusal :=
  .next (((s.unackedOf n).filter fun u => u.late n s.now).foldl (fun a u =>
    let q : Body := .ackRequest n u.tgt (srcPlace n)
    if (a.net.any fun p => !p.lost && p.body = q) then a else a.answer n u.tgt u.ctx q) (s.askAgain n))

/-- ACKNOWLEDGEMENT_REQUEST: the target answers with the last number of the source that it has applied (R49, R275). One that
fails the home's check is counted and recorded, and answered all the same, so that no departure waits for ever (R386, R387). DEDUCED (log 50). -/
def execAcknowledgementRequest (n : Nat) (s : State) : Host.Outcome State Fault Refusal :=
  .next (
    match s.ready n with
    | some p =>
      match p.body with
      | .ackRequest src tgt requester =>
        let s1 := if s.refuses p then (s.dropPacket n).noteRefused p else s.dropPacket n
        (s1.countRecv p).answer (tgtSrc tgt) requester p.ctx
          (.ack src tgt (Sparse.get 0 (s.hearth tgt).applied src) false)
      | _ => s
    | none => s)

/-! ### Requests and their answers (R237, R263, R272) -/

/-- ENGINE_READ: the home, or the host, answers with bytes and marks (R216, R221, R272). -/
def execEngineRead (n : Nat) (s : State) : Host.Outcome State Fault Refusal :=
  .next (
    match s.ready n with
    | some p =>
      match p.body with
      | .engineRead k pas =>
        let s1 := (s.dropPacket n).countRecv p
        if s.refuses p then
          (s1.noteRefused p).modCmd k fun c => if c.stage = .done then c else { c with stage := .finishing, status := 4, buf := .none }
        else
          let src := if p.tgt < 1024 then seqrSrc p.tgt else hostSrc (p.tgt - 1024)
          s1.answer src (2048 + srcCore p.src) p.ctx (.readData k (srcUnit p.src = 3) (pas.map fun a => (s.byte a, s.mark (a / 4))))
      | _ => s
    | none => s)

/-- The results of a bank command, from the bytes that its hearth has sent. -/
def resultWords : Nat → List (Byte × Bool) → Nat → Tab (Word × Bool)
  | 0, _, _ => []
  | n + 1, bs, k =>
    match bs with
    | [] => []
    | _ => (k, (BitVec.ofNat 32 (leVal (bs.take 4)), (bs.take 4).any Prod.snd)) :: resultWords n (bs.drop 4) (k + 1)

/-- READ_DATA: what an engine has asked for arrives (R263, R266). -/
def execReadData (n : Nat) (s : State) : Host.Outcome State Fault Refusal :=
  .next (
    match s.ready n with
    | some p =>
      match p.body with
      | .readData k _ bs =>
        let s1 := (s.dropPacket n).countRecv p
        let c := s.cmd k
        match c.eng, c.stage with
        | .bank, .active =>
          s1.setCmd k { c with
            results := (resultWords bs.length bs 0).filter fun r => r.2 ≠ (0, false), stage := .results, pos := 0, asked := false }
        | .bank, _ => s1
        | _, .done => s1
        | _, _ => if c.asked then s1.setCmd k { c with buf := c.buf.map fun b => b ++ bs, asked := false } else s1
      | _ => s
    | none => s)

/-- DRAIN_REQUEST: the core answers once every posted packet up to the count has been acknowledged (R237). -/
def execDrainRequest (n : Nat) (s : State) : Host.Outcome State Fault Refusal :=
  .next (
    match s.ready n with
    | some p =>
      match p.body with
      | .drainRequest gc count f =>
        if (s.core gc).drainedTo count then
          ((s.dropPacket n).countRecv p).answer (coreSrc gc 0 7) (srcPlace p.src) p.ctx (.drainAnswer f)
        else s
      | _ => s
    | none => s)

/-- DRAIN_ANSWER: the acquire that was held goes on (R237). -/
def execDrainAnswer (n : Nat) (s : State) : Host.Outcome State Fault Refusal :=
  let held (w : Wait) : Bool := match w with | .promote .. => true | _ => false
  .next (
    match s.ready n with
    | some p =>
      match p.body with
      | .drainAnswer f =>
        let s1 := (s.dropPacket n).countRecv p
        if (s.frag f).onCore then (s1.noteReady f).modFrag f fun x => x.release held false else s1
      | _ => s
    | none => s)

/-- LANDING: the sender learns that an ingot has been placed or parked (R275); or lanes away from the anchor learn that their barrier has
opened (R272, R352). -/
def execLanding (n : Nat) (s : State) : Host.Outcome State Fault Refusal :=
  .next (
    match s.ready n with
    | some p =>
      match p.body with
      | .landing _ => (s.dropPacket n).countRecv p
      | .parkAnswer c f parks =>
        let s1 := (s.dropPacket n).countRecv p
        if (s.frag f).live && (s.frag f).asking then s1.parkAnswered c f parks else s1
      | .opened hoist lanes pc next => ((s.dropPacket n).countRecv p).passAway { hoist, pc, next, lanes }
      | _ => s
    | none => s)

/-! ### Stall hints (R289, R290) -/

/-- A posted packet of a core in the queue of an output port of a switch: its route leaves the switch there (R289, R294). -/
def State.queuedAt (s : State) (gc sw out : Nat) : Option Packet :=
  s.net.find? fun p => p.body.cls = 0 && srcOfCore p.src && srcCore p.src = gc && decide (p.tgt < 1024) && !s.atSource p &&
    (s.path (fun _ => p.gen) p.tgt 256 (s.switchOf (coreHearth gc)) 0).any fun h => h.1 = sw && h.2.2 = out

/-- The hearths beyond a port of a switch, by the routes of a generation (R289, R294). -/
def State.beyond (s : State) (gen : Bool) (sw out : Nat) : List Nat :=
  ((s.pkgs.map Prod.fst).flatMap fun p => s.enabledHearths p).filter fun gh => s.port gen sw gh = out

/-- STALL_HINT_RAISE: the switch `switch` of the domain, whose posted queue at the port `out` has been full, tells a core whose packets
stand in it: it names the hearth of such a packet, or at a link port every hearth beyond (R289). DEDUCED (log 41). -/
def execStallHintRaise (gc switch out : Nat) (s : State) : Host.Outcome State Fault Refusal :=
  .next (
    match s.queuedAt gc switch out with
    | some p => s.answer (hearthSrc switch 5) (2048 + gc) p.ctx (.stallHint (if out = 5 ∨ out = 6 then s.beyond p.gen switch out else [p.tgt]))
    | none => s)

/-- STALL_HINT: the hint is active at the core for 4,096 of its clocks, from now, for every hearth that it names (R289). -/
def execStallHint (n : Nat) (s : State) : Host.Outcome State Fault Refusal :=
  .next (
    match s.ready n with
    | some p =>
      match p.body with
      | .stallHint ts =>
        ((s.dropPacket n).countRecv p).modCore (p.tgt - 2048) fun c => { c with
          hints := (c.hints.filter fun h => !ts.contains h.target) ++ ts.map fun t => { target := t, deadline := s.now + 4096 } }
      | _ => s
    | none => s)

/-- STALL_HINT_LAPSE (R290). -/
def execStallHintLapse (gc target : Nat) (s : State) : Host.Outcome State Fault Refusal :=
  .next (s.modCore gc fun c => { c with
    hints := c.hints.filter fun h => h.target ≠ target || decide (s.now < h.deadline) })

/-! ### The walkers (R384) -/

/-- A TLB with one more entry: 2,048 at most. -/
def Core.fillTlb (c : Core) (t : TlbEnt) : Core :=
  if c.tlb.contains t then c
  else { c with tlb := (if 2048 ≤ c.tlb.length then c.tlb.drop 1 else c.tlb) ++ [t] }

/-- The entries of a fragment that wait for a walk, frozen ones among them (R394). -/
def Frag.walking (x : Frag) (ctx : BitVec 8) (vpage : Nat) : List Entry :=
  (x.entries ++ x.frozen).filter fun e => e.wait = some (.walk ctx vpage)

/-- What a walk leaves with a fragment that waited for it: its entries issue again, and remember a walk that failed. -/
def Frag.walked (x : Frag) (ctx : BitVec 8) (vpage : Nat) (ok : Bool) : Frag :=
  { x.release (fun w => w = .walk ctx vpage) false with
    badWalk := if ok then x.badWalk else x.badWalk ++ (x.walking ctx vpage).map fun e => (e.prio, e.pc, vpage) }

/-- The walks that a hearth's walker makes at once: the 64 that have waited longest (R12, R384). -/
def Hearth.walksNow (h : Hearth) : List (BitVec 8 × Nat) := h.walks.take 64

/-- TLB_WALK_COMPLETE: a walk of a hearth ends, and every entry that waited for it issues again (R378, R384). -/
def execTlbWalkComplete (gh ctx vpage : Nat) (s : State) : Host.Outcome State Fault Refusal :=
  let c : BitVec 8 := BitVec.ofNat 8 ctx
  .next (
    if !(s.hearth gh).walksNow.contains (c, vpage) then s
    else
      let s1 := s.modHearth gh fun h => { h with walks := h.walks.filter (· ≠ (c, vpage)) }
      let r := s.walk (gh / 16) ctx (vpage * 65536)
      let fs := (s.frags.filter fun q =>
        q.2.onCore && coreHearth q.2.gc = gh && !(q.2.walking c vpage).isEmpty).map Prod.fst
      fs.foldl (fun a f =>
        let b := a.noteReady f
        let b' := match r with
          | some (leaf, bits, _) =>
            b.modCore (b.frag f).gc fun k => k.fillTlb { ctx := c, page := vpage * 65536 / 2 ^ bits, bits, leaf }
          | none => b
        b'.modFrag f fun x => x.walked c vpage r.isSome) s1)

/-! ### Requests that reach a launch hearth (R409, R414) -/

/-- The live pour whose record stands at an address. -/
def State.pourAt (s : State) (recPa : Nat) : Option Nat := (s.pours.find? fun q => q.2.live && q.2.recPa = recPa).map Prod.fst

/-- The issuer of UNPARK or KILL may act on a context: its own, or one of its partition for a managing issuer. -/
def State.mayActOn (s : State) (pkg : Nat) (issuer : BitVec 8) (managing : Bool) (ctx : BitVec 8) : Bool :=
  let p := s.pkg pkg
  issuer = ctx || (managing && decide (p.part issuer.toNat = p.part ctx.toNat))

/-- UNPARK at the launch hearth: a held cast joins its placement queue, a gang as a whole, and for another the wake bit is set (R36, R409). -/
def State.unpark (s : State) (p index : Nat) : State :=
  let c := castKey p index
  let x := s.cast c
  if x.held then
    let s1 := s.modCast c fun y => { y with held := false }
    if x.st = .parked ∧ !x.parking then
      (if s.ctxSaved (s.pour p).pkg (s.pour p).ctx then s1.modCast c fun y => { y with saved := true }
       else s1.requeueGang c)
    else s1
  else s.modCast c fun y => { y with wake := true }

/-- UNPARK_APPLY (R409). -/
def execUnparkApply (n : Nat) (s : State) : Host.Outcome State Fault Refusal :=
  .next (s.applyPosted n fun q a => match q.body with
    | .unpark recPa index issuer managing =>
      match a.pourAt recPa with
      | some p =>
        let x := a.pour p
        if index.toNat < x.ncast ∧ a.mayActOn (q.tgt / 16) issuer managing x.ctx then some (a.unpark p index.toNat) else some a
      | none => some a
    | _ => none)

/-- KILL_APPLY: a waiting request is removed, and a live pour begins to end (R414). -/
def execKillApply (n : Nat) (s : State) : Host.Outcome State Fault Refusal :=
  .next (s.applyPosted n fun q a => match q.body with
    | .kill recPa issuer managing =>
      let ok (ctx : BitVec 8) : Bool := a.mayActOn (q.tgt / 16) issuer managing ctx
      let a1 := a.modHearth q.tgt fun h => { h with waiting := h.waiting.filter fun r => r.recPa ≠ recPa || !ok r.ctx }
      match a1.pourAt recPa with
      | some p => if ok (a1.pour p).ctx then some (a1.beginKill p) else some a1
      | none => some a1
    | _ => none)

end Sys2Proof.Machine
end

