-- ==== Sys2Proof/Machine/Rounds.lean ====
section
/-! DEFINITION. Reduction rounds at the switches and the homes (R280 to R285), lost flits (R278), the detector of phase ends
(R291 to R293, R422), changes of route (R294, R295), and writes of the runner control page (R376). -/

namespace Sys2Proof.Machine

/-! ### Rounds (R280 to R285) -/

/-- The partial rounds that a switch holds (R285). -/
def roundsHeld : Nat := 8192

/-- A switch that keeps the tree of a window whose VALID is clear forwards what reaches it at once, flushed (R280). -/
def State.passFlushed (s : State) (pkg pos : Nat) (r : Round) (v : RoundVal) : State :=
  if ((s.pkg pkg).switch pos).flushed.contains (r.win, r.home, r.ofs, v.port, r.round) then
    s.windowEvent pkg pos 5 ((s.pkg pkg).window r.win).accepted.ctx (paOf r.home r.ofs)
  else s.flushRound pkg pos { r with vals := [v] }

/-- One element of a contribution joins its round, or goes on at once where the window is cleared (R280, R282). -/
def State.takeElem (s : State) (pkg pos win home port : Nat) (valid : Bool) (replace : Option Bool) (flushed : Bool) (e : Contrib) :
    State :=
  let r : Round := { win, home, ofs := e.ofs, round := e.round, vals := [], since := s.now }
  let v : RoundVal := { port, val := e.val, poison := e.poison, replace, flushed }
  if valid then s.joinRound pkg pos r v else s.passFlushed pkg pos r v

/-- The partial rounds that the elements of a contribution would add to a switch (R285). -/
def Switch.newRounds (k : Switch) (win home : Nat) (es : List Contrib) : Nat :=
  (es.filter fun e => !k.rounds.any fun q => decide (q.win = win ∧ q.home = home ∧ q.ofs = e.ofs ∧ q.round = e.round)).length

/-- CONTRIBUTION: a switch accepts a contribution, which it acknowledges by taking it; one of another generation, or of a
window that the switch does not know, is discarded (R280 to R283, R285). One that finds no room for its elements waits. -/
def execContribution (n : Nat) (s : State) : Host.Outcome State Fault Refusal :=
  .next (
    match s.ready n with
    | some p =>
      match p.body with
      | .contribution win wgen home port elems replace flushed =>
        let sw := p.tgt - 65536
        let pkg := sw / 16
        let pos := sw % 16
        let w := ((s.pkg pkg).window win).accepted
        let k := (s.pkg pkg).switch pos
        let more := k.newRounds win home elems
        let s1 := (s.dropPacket n).countRecv p
        if w.wgen ≠ wgen.toNat ∨ (w.node pos home).isNone then
          s1.windowEvent pkg pos 3 p.ctx.toNat (paOf home ((elems.head?.map Contrib.ofs).getD 0))
        else if w.valid ∧ 0 < more ∧ roundsHeld < k.rounds.length + more then s
        else elems.foldl (fun a e => a.takeElem pkg pos win home port w.valid replace flushed e) s1
      | _ => s
    | none => s)

/-- The merged results of an element that its home has applied. -/
def Window.landedAt (w : Window) (home ofs : Nat) : Nat :=
  ((w.landed.find? fun q => decide (q.1 = home ∧ q.2.1 = ofs)).map fun q => q.2.2).getD 0

/-- One more merged result of an element. DEDUCED (log 85). -/
def Window.land (w : Window) (home ofs : Nat) : Window :=
  { w with landed := (w.landed.filter fun q => !(decide (q.1 = home ∧ q.2.1 = ofs))) ++ [(home, ofs, w.landedAt home ofs + 1)] }

/-- The home word after a merged result (R284): replaced, or one step of the window's operation. DEDUCED (log 85). -/
def Window.merge (w : Window) (old : Val) (val : DWord) (poison replace : Bool) : WriteOp :=
  if replace then { pa := 0, size := w.width, val, poison }
  else { pa := 0, size := w.width, val := w.step old.bits val, poison := poison || old.poison }

/-- MERGED_RESULT: the home applies the merged result of a round, in the order of rounds, and acknowledges it to the switch
(R284, R287); one of another generation is discarded (R280). -/
def execMergedResult (n : Nat) (s : State) : Host.Outcome State Fault Refusal :=
  .next (
    match s.ready n with
    | some p =>
      match p.body with
      | .merged win wgen home ofs round val poison replace flushed =>
        let pkg := home / 16
        let w := ((s.pkg pkg).window win).accepted
        let pa := paOf home ofs
        let bad := s.refuses p
        if w.wgen ≠ wgen.toNat ∨ (!w.valid ∧ w.tree.isEmpty) then
          (((s.dropPacket n).countRecv p).windowEvent pkg ((s.pkg pkg).posOf (home % 16)) 3 p.ctx.toNat pa).answer (seqrSrc home)
            (srcPlace p.src) p.ctx (.ack p.src home p.seq false)
        else if w.landedAt home ofs ≠ round then s
        else
          let s1 := ((s.dropPacket n).countRecv p).modWindow pkg win fun w => w.land home ofs
          let s2 :=
            if bad then s1.noteRefused p
            else s1.applyWrites p.ctx [{ w.merge (s.readAt p.ctx pa w.width) val poison replace with pa }] none
          (s2.landRound win home ofs round flushed).answer (seqrSrc home) (srcPlace p.src) p.ctx
            (.ack p.src home p.seq bad)
      | _ => s
    | none => s)

/-- WFLUSH_EXPIRY: a switch has held a partial round for WFLUSH, which it forwards then, or a collective of the window has waited so long for
a participant (R285, R288). -/
def execWflushExpiry (pkg switch win elt : Nat) (s : State) : Host.Outcome State Fault Refusal :=
  .next (
    match (((s.pkg pkg).switch switch).rounds.filter fun r => r.win = win)[elt]? with
    | some r => if s.flushDue pkg r.since then s.flushRound pkg switch r else s
    | none => s.abandon win)

/-- Some packet of window `k` is on its way to a switch of the package, or from one of them to a home. -/
def State.windowBusy (s : State) (pkg k : Nat) : Bool :=
  s.net.any fun p => !p.lost && (match p.body with
    | .contribution win .. => win = k && tgtPkg p.tgt = pkg
    | .merged win _ home .. => win = k && (srcPkg p.src = pkg || home / 16 = pkg)
    | _ => false)

/-- WINDOW_TREE_FREED: every switch of the package has freed the tree of a cleared window, and STATUS becomes 0 (R280). -/
def execWindowTreeFreed (pkg win : Nat) (s : State) : Host.Outcome State Fault Refusal :=
  let w := (s.pkg pkg).window win
  .next (
    if w.status = 2 ∧ !w.valid ∧ !s.windowBusy pkg win ∧ ((s.pkg pkg).heldRounds win).isEmpty then
      s.modWindow pkg win fun w => { (w.setByte 0x2D 0) with tree := [] }
    else s)

/-! ### Lost flits (R278) -/

/-- Add one to a counter of a link bundle (R419). -/
def State.countLink (s : State) (pkg bundle ctr : Nat) : State :=
  s.modPkg pkg fun p =>
    let k := 4 * bundle + ctr
    { p with linkCtrs := Sparse.set 0 p.linkCtrs k (Sparse.get 0 p.linkCtrs k + 1) }

/-- A packet is dropped: it is never applied, and holds what may not pass it (R278). -/
def State.losePacket (s : State) (n : Nat) (p : Packet) : State := { s with net := s.net.set n { p with lost := true } }

/-- The place of a failure: a link bundle or a switch. -/
def crcPlace (link : Bool) (unit : Nat) : Nat := 2 * unit + if link then 1 else 0

/-- The hearth where a packet enters the fabric; none for one of the host link. -/
def Packet.entersAt (p : Packet) : Option Nat :=
  if srcOfCore p.src then some (coreHearth (srcCore p.src)) else if srcUnit p.src = 6 then none else some (srcHearth p.src)
/-- The hearth where it leaves it; none for the host link, or a switch. -/
def Packet.leavesAt (p : Packet) : Option Nat :=
  if p.tgt < 1024 then some p.tgt else if 2048 ≤ p.tgt ∧ p.tgt < 65536 then some (coreHearth (p.tgt - 2048)) else none

/-- A packet that has left its source may pass a place, a link bundle or a switch: its route by the banks does, or, where the banks do not
route it, the place lies in its own packages (R278, R283, R294). -/
def State.passesPlace (s : State) (p : Packet) (link : Bool) (unit : Nat) : Bool :=
  let per := if link then 24 else 16
  !s.atSource p &&
    match p.entersAt, p.leavesAt, decide (p.body.cls = 3 ∨ srcUnit p.src = 5) with
    | some a, some b, false => (s.path (fun _ => p.gen) b 256 (s.switchOf a) 0).any fun h =>
        if link then
          let q := bundlePlace (unit % 24)
          h.1 = 16 * (unit / 24) + q.1 && (h.2.1 = q.2 || h.2.2 = q.2)
        else h.1 = unit
    | _, _, _ => unit / per = srcPkg p.src || unit / per = tgtPkg p.tgt

/-- How often a packet has failed at a place in a row, as `fails` keeps it: 16 × place + count (R278). -/
def Packet.failsAt (p : Packet) (place : Nat) : Nat := if p.fails / 16 = place then p.fails % 16 else 0

/-- FLIT_CRC_FAILURE: a flit of the packet at position `n` fails its check at a link bundle (`unit` = 24 × package + bundle) or
at a switch (16 × package + position), and is replayed; after the eighth failure of one flit the packet is dropped, counted and recorded
(R278, R416, R420). A failure after seven that is no eighth is the first of another flit. DEDUCED (log 86). -/
def execFlitCrcFailure (n : Nat) (eighth link : Bool) (unit : Nat) (s : State) : Host.Outcome State Fault Refusal :=
  .next (
    match s.net[n]? with
    | some p =>
      let per := if link then 24 else 16
      let pkg := unit / per
      let place := crcPlace link unit
      if p.lost || !(s.pkg pkg).present || !s.passesPlace p link unit || (eighth && p.failsAt place ≠ 7) then s
      else
        let k := unit % per
        let count (a : State) (onLink onSwitch : Nat) : State :=
          if link then a.countLink pkg k onLink else a.countSwitch pkg k onSwitch
        let s1 := if link then s.countLink pkg k 0 else s
        if !eighth then count { s1 with net := s1.net.set n { p with fails := 16 * place + p.failsAt place % 7 + 1 } } 1 1
        else
          let pos := if link then (bundlePlace k).1 else k
          let cnt := if link then counterNumber 3 unit 2 else counterNumber 2 unit 2
          ((count s1 2 2).losePacket n p).record (16 * pkg + (s.pkg pkg).ringHearth pos) (hearthSrc (16 * pkg + pos) 5) 5
            p.ctx.toNat 0 cnt p.body.addr p.detail
    | none => s)

/-- A packet reaches a port of a switch with its CLASS, its KIND or a reserved field out of range: the port discards it and counts a link
error, which a record tells (R273, R415, R419). DEDUCED (log 86). -/
def State.badHeader (s : State) (n sw : Nat) : State :=
  match s.net[n]? with
  | some p =>
    let pkg := sw / 16
    if p.lost || !(s.pkg pkg).present || !s.passesPlace p false sw then s
    else ((s.countSwitch pkg (sw % 16) 0).losePacket n p).record (16 * pkg + (s.pkg pkg).ringHearth (sw % 16)) (hearthSrc sw 5) 5
      p.ctx.toNat 0 (counterNumber 2 sw 0) p.body.addr p.detail
  | none => s

/-! ### Phase ends (R291 to R293, R422) -/

/-- The endpoint, the context, the class and the generation of a counter (R291); the classes from 4 on count the packets of collective
engines. -/
def cntParts (key : Nat) : Nat × Nat × Nat × Bool := (key / 4096, key / 16 % 256, key / 2 % 8, key % 2 = 1)

/-- The sum of the counters of some endpoints, contexts, classes and generations: 48 bits wide (R291). -/
def cntSum (t : Tab Nat) (f : Nat → Nat → Nat → Bool → Bool) : Nat :=
  (t.filter fun q => f (cntParts q.1).1 (cntParts q.1).2.1 (cntParts q.1).2.2.1 (cntParts q.1).2.2.2).foldl (fun n q => n + q.2) 0 % 2 ^ 48

/-- The counters of a context and some classes at the endpoints of some packages. -/
def sweepTotal (t : Tab Nat) (pkgs : List Nat) (ctx : BitVec 8) (cls : List Nat) : Nat :=
  cntSum t fun ep c k _ => pkgs.contains (srcPkg ep) && c = ctx.toNat && cls.contains k

/-- The packages that a sweep reads. -/
def State.swept (s : State) (pkg : Nat) (domain : Bool) : List Nat :=
  if domain then (s.pkgs.filter fun q => q.2.present).map Prod.fst else [pkg]

/-- What a sweep reads: SENT and RECV of each class (R291), and then those of the posted, request and completion classes without the
collective engine, which a save goes by (R403). -/
def State.sweepTotals (s : State) (pkg : Nat) (ctx : BitVec 8) (domain : Bool) : List (Nat × Nat) :=
  ([[0, 4], [1, 5], [2, 6], [3, 7], [0], [1], [2]] : List (List Nat)).map fun cls =>
    (sweepTotal s.sentCnt (s.swept pkg domain) ctx cls, sweepTotal s.recvCnt (s.swept pkg domain) ctx cls)

/-- The detector of a package for a context after another sweep (R292). DESIGN CHOICE (log 87). -/
def Sweep.next (w : Sweep) (ts : List (Nat × Nat)) : Sweep :=
  let flat := ts.flatMap fun t => [t.1, t.2]
  { totals := flat, same := if w.totals = flat then w.same + 1 else 1
    quiet := if w.totals.drop 8 = flat.drop 8 then w.quiet + 1 else 1, balanced := (ts.take 4).all fun t => t.1 = t.2 }

/-- The key of a detector: a context's sweeps of the package, or of the domain. -/
def sweepKey (ctx : Nat) (domain : Bool) : Nat := ctx % 256 + if domain then 256 else 0

/-- The record of an imbalance names the context; CNT holds the class and the difference, and DETAIL the first packet that
was lost (R293, R420). Of several classes out of balance it names the lowest. DESIGN CHOICE (log 87, 116). -/
def State.imbalanceRecord (s : State) (pkg : Nat) (ctx : BitVec 8) (ts : List (Nat × Nat)) : State :=
  let cls := ((List.range 4).find? fun k => (ts.getD k (0, 0)).1 ≠ (ts.getD k (0, 0)).2).getD 0
  let d := ts.getD cls (0, 0)
  let missing := ((s.net.find? fun p => p.lost && p.ctx = ctx).map Packet.detail).getD 0
  s.hearthRecord (16 * pkg) 8 ctx.toNat (cls * 2 ^ 28 + ((d.1 : Int) - d.2).natAbs % 2 ^ 28) 0 missing

/-- What a domain sweep reads of the counters of the old generation: SENT and RECV of each class that the banks route (R295). -/
def State.oldTotals (s : State) : List (Nat × Nat) :=
  (List.range 3).map fun cls =>
    let old (ep _ : Nat) (k : Nat) (gen : Bool) : Bool := k % 4 = cls && gen = (s.pkg (srcPkg ep)).bank
    (cntSum s.sentCnt old, cntSum s.recvCnt old)

/-- The old bank of every switch is retired, and the packages route by the new one (R295). -/
def State.retireRoutes (s : State) : State :=
  { s with pkgs := s.pkgs.map fun (q : Nat × Pkg) =>
      (q.1, if q.2.routing.isSome then { q.2 with bank := !q.2.bank, routing := none } else q.2) }

/-- Every endpoint that has ever sent has flipped (R295). -/
def State.allFlipped (s : State) : Bool :=
  s.seqs.all fun q => decide (2 ^ 30 ≤ q.1) || (match (s.pkg (srcPkg q.1)).routing with
    | some l => l.contains (endpoint q.1)
    | none => true)

/-- A domain sweep during a change of routes reads the counters of the old generation too; once every endpoint has flipped and two in a row
agree and balance, the old bank retires (R295). -/
def State.sweepRoutes (s : State) : State :=
  if s.pkgs.any fun q => q.2.routing.isSome then
    let w := if s.allFlipped then s.oldSweep.next s.oldTotals else .none
    let s1 : State := { s with oldSweep := w }
    if 2 ≤ w.same ∧ w.balanced then { s1.retireRoutes with oldSweep := .none } else s1
  else s

/-- SWEEP: the counters of a context are summed; 64 sweeps in a row that agree and do not balance leave a record (R291 to
R293). Sweeps of the domain end an update of the routes that every endpoint follows (R295). -/
def execSweep (pkg ctx : Nat) (domain : Bool) (s : State) : Host.Outcome State Fault Refusal :=
  let c : BitVec 8 := BitVec.ofNat 8 ctx
  let k := sweepKey ctx domain
  let ts := s.sweepTotals pkg c domain
  let w := (Sparse.get .none (s.pkg pkg).sweeps k).next ts
  .next (
    if !(s.pkg pkg).present then s
    else
      let s1 := s.modPkg pkg fun p => { p with sweeps := Sparse.set .none p.sweeps k w }
      let s2 := if w.same = 64 ∧ !w.balanced then s1.imbalanceRecord pkg c ts else s1
      if domain then s2.sweepRoutes else s2)

/-- Two sweeps in a row agree and balance in every class: a phase has ended (R292). -/
def Sweep.ended (w : Sweep) : Bool := decide (2 ≤ w.same) && w.balanced

/-- Two sweeps in a row agree and balance in the posted, request and completion classes, the collective engine left out, which is what a save
asks for (R292, R403). DEDUCED (log 93). -/
def Sweep.settled (w : Sweep) : Bool :=
  decide (2 ≤ w.quiet) && (List.range 3).all fun k => w.totals.getD (8 + 2 * k) 0 = w.totals.getD (9 + 2 * k) 0

/-- A context has quiesced on a package for a save: two sweeps agree, and balance (R292, R403). -/
def Pkg.phaseEnded (p : Pkg) (ctx : BitVec 8) : Bool :=
  [false, true].any fun d => (Sparse.get .none p.sweeps (sweepKey ctx.toNat d)).settled

/-- A command whose read is lost asks again when its context resumes: a copy or a collective for the bytes that it lacks, and a bank command
for its results. -/
def State.giveUpRead (s : State) (k : Nat) : State :=
  s.modCmd k fun c => { c with asked := false, buf := if c.eng = .bank then c.buf else .none
                               rows := if c.eng = .bank ∧ c.stage = .active then [] else c.rows }

/-- The home of a lost posted packet skips its number, and counts it (R422). -/
def State.skipPosted (s : State) (p : Packet) : State :=
  let s1 := if p.tgt < 2048 then s.modHearth p.tgt fun h => { h with applied := Sparse.set 0 h.applied p.src p.seq } else s
  if p.tgt < 1024 then s1.countHearth p.tgt 8 else s1

/-- A lost packet of the context is given up, and counts as received: its home skips its number or its round, and counts it (R422). The
fragment of a lost ingot is gone. DEDUCED (log 88). -/
def State.skipLost (s : State) (p : Packet) : State :=
  let s0 := s.countRecv p
  match p.body with
  | .ingot f .. => (s0.setFrag f .dead).countHearth p.tgt 8
  | .merged win _ home ofs .. => (s0.modWindow (home / 16) win fun w => w.land home ofs).countHearth home 8
  | .engineRead k _ => (s0.giveUpRead k).countHearth p.tgt 8
  | .readData k .. => s0.giveUpRead k
  | .drainRequest gc .. => s0.countHearth (coreHearth gc) 8
  | .parkAnswer _ f _ => s0.modFrag f fun x => { x with asking := false }
  | .parkNote _ f => ((s0.modFrag f fun x => { x with asking := false }).skipPosted p)
  | _ => if p.body.cls = 0 then s0.skipPosted p else s0

/-- CONTEXT_FATAL: the imbalance of a context has persisted, so that firmware saves the context, the homes skip the gaps they
hold, and a dump follows the save (R293, R422). DEDUCED (log 88). -/
def execContextFatal (pkg ctx : Nat) (s : State) : Host.Outcome State Fault Refusal :=
  let p := s.pkg pkg
  let c : BitVec 8 := BitVec.ofNat 8 ctx
  let stuck (w : Sweep) : Bool := decide (64 ≤ w.same) && !w.balanced
  .next (
    if (p.st = .ready || p.st = .fatal) && !p.fatalCtxs.getLsbD c.toNat &&
        (stuck (Sparse.get .none p.sweeps (sweepKey ctx false)) || stuck (Sparse.get .none p.sweeps (sweepKey ctx true))) then
      let gaps := s.net.filter fun x => x.lost && x.ctx = c
      let s1 := gaps.foldl State.skipLost { s with net := s.net.filter fun x => !(x.lost && x.ctx = c) }
      let s2 := s1.modPkg pkg fun q => { q with
        fatalCtxs := q.fatalCtxs ||| BitVec.ofNat 256 (2 ^ c.toNat)
        dumpCause := if q.dumpCause = 0 then 8 else q.dumpCause }
      s2.requestPreempt pkg { resume := false, ctxs := [c], done := none, fw := true, owner := 0xFF }
    else s)

/-! ### Routes (R294, R295) -/

/-- A bank from a list of entries: the key is 1024 × switch of the domain + hearth, and the bank of a switch holds 1 + port. -/
def bankOf (entries : List (Nat × Nat)) (sw : Nat) : Tab Nat :=
  (entries.filter fun e => e.1 / 1024 = sw).foldl (fun t e => Sparse.set 0 t (e.1 % 1024) (e.2 % 8 + 1)) []

/-- ROUTE_UPDATE: firmware writes a table into the inactive bank of every switch and orders every endpoint to flip; it begins no
update before the last is done (R295). DEDUCED (log 89). -/
def execRouteUpdate (entries : List (Nat × Nat)) (s : State) : Host.Outcome State Fault Refusal :=
  .next (
    if s.pkgs.any fun q => q.2.routing.isSome then s
    else { s with oldSweep := .none, pkgs := s.pkgs.map fun (q : Nat × Pkg) =>
      let sws := (List.range 16).foldl (fun t k =>
        let w := Sparse.get Switch.reset t k
        let b := bankOf entries (16 * q.1 + k)
        Sparse.set .reset t k (if q.2.bank then { w with bank0 := b } else { w with bank1 := b })) q.2.switches
      (q.1, if q.2.present then { q.2 with switches := sws, routing := some [] } else q.2) })

/-- A completion that answers a request of a core (R272). -/
def Body.answers (b : Body) : Bool :=
  match b with
  | .landing _ | .readData .. | .drainAnswer _ | .parkAnswer .. => true
  | _ => false

/-- Nothing that an endpoint has sent under the old generation is still to be acknowledged or answered (R295). -/
def State.endpointIdle (s : State) (ep : Nat) (old : Bool) : Bool :=
  !(s.net.any fun p => endpoint p.src = ep && decide (p.body.cls < 2) && p.gen = old) &&
    !((s.unackedOf ep).any fun u => endpoint u.src = ep && u.gen = old) &&
    !(srcOfCore ep && s.net.any fun p => p.tgt = 2048 + srcCore ep && p.body.answers)

/-- INJECTION_FLIP: an endpoint with nothing of the old generation outstanding sends under the new one from now on, first what it has
held back (R295). DEDUCED (log 89). -/
def execInjectionFlip (source : Nat) (s : State) : Host.Outcome State Fault Refusal :=
  let ep := endpoint source
  let pkg := srcPkg source
  .next (
    match (s.pkg pkg).routing with
    | some l =>
      if l.contains ep || !s.endpointIdle ep (s.pkg pkg).bank then s
      else (s.modPkg pkg fun p => { p with routing := some (l ++ [ep]) }).leaveNow
        (fun p => endpoint p.src = ep && s.uninjected p) id
    | none => s)

/-! ### The runner control page (R280, R376) -/

/-- WINDOW_DECLARE: VALID of a descriptor is written to 1 (R280). -/
def execWindowDeclare (pkg win : Nat) (s : State) : Host.Outcome State Fault Refusal :=
  let w := (s.pkg pkg).window win
  .next (if !(s.pkg pkg).present || decide (16 ≤ win) || w.validBit || w.status = 2 then s else s.declareWindow pkg win)

/-- WINDOW_CLEAR: VALID of a descriptor is cleared (R280). -/
def execWindowClear (pkg win : Nat) (s : State) : Host.Outcome State Fault Refusal :=
  .next (if ((s.pkg pkg).window win).validBit then s.clearWindow pkg win else s)

/-- CONTROL_PAGE_WRITE: a write of up to eight bytes inside one aligned unit of eight; firmware is no context (R376, R428). -/
def execControlPageWrite (pkg offset : Nat) (bytes : List Byte) (writer : Option (BitVec 8)) (s : State) :
    Host.Outcome State Fault Refusal :=
  .next (
    if !(s.pkg pkg).present || bytes.isEmpty || decide (8 < offset % 8 + bytes.length) || decide (65536 ≤ offset) then s
    else s.cpWrite pkg writer offset bytes)

end Sys2Proof.Machine
end

