-- ==== Sys2Proof/Machine/Bellows.lean ====
section
/-! DEFINITION. Bellows, the load-step governor (R360 to R373): requests and their order, admission, windows and ballast, and
the two events that ask it: the start of a cast (R308) and the start of an instruction on an array (R183).

Powers are in mW and energies in fJ: 1 mW over a window of 1 µs is 10⁶ fJ. -/

namespace Sys2Proof.Machine

/-- The cores of a package (R1). -/
def State.pkgCores (s : State) (pkg : Nat) : List Nat := (s.enabledHearths pkg).flatMap coresOf

/-- Change Bellows of a package. -/
def State.modBellows (s : State) (pkg : Nat) (f : Bellows → Bellows) : State :=
  s.modPkg pkg fun p => { p with bellows := f p.bellows }

/-! ### Requests (R361, R362) -/

/-- A request that nothing but Bellows stops: the start of the head of a placement queue, or the wake of a core's array for a
context. -/
inductive Ask where
  | start (gh : Nat) (e : QEnt)
  | wake (gc : Nat) (q : Nat × Bool)
  deriving DecidableEq, Repr

/-- The pour of a request. -/
def State.askPour (s : State) : Ask → Nat
  | .start _ e => e.pour
  | .wake _ q => (s.cast q.1).pour

/-- The charge of a request in W (R361). -/
def State.charge (s : State) (pkg : Nat) : Ask → Nat
  | .start _ e => (s.pour e.pour).word 0x35 1 * e.casts.length
  | .wake _ _ => (s.pkg pkg).bellows.wakeW

/-- When the last cast of a start was released (R362). -/
def State.releasedAt (s : State) (casts : List Nat) : Nat := casts.foldl (fun n c => max n (s.cast c).released) 0

/-- The place of a request in the admission order: the launch count, then starts by release and wakes by the index of the
cast (R362). DEDUCED (log 117). -/
def State.askKey (s : State) (a : Ask) : Nat × Nat × Nat :=
  match a with
  | .start _ e => ((s.pour e.pour).count, 0, s.releasedAt e.casts)
  | .wake _ q => ((s.pour (s.cast q.1).pour).count, 1, (s.cast q.1).index)

/-- The place of a request among those of its pour, as a number. -/
def State.askPlace (s : State) (a : Ask) : Nat := (s.askKey a).2.1 * 2 ^ 64 + (s.askKey a).2.2

/-- One place comes before another. -/
def beforeKey (a b : Nat × Nat × Nat) : Bool :=
  decide (a.1 < b.1) || (a.1 = b.1 && (decide (a.2.1 < b.2.1) || (a.2.1 = b.2.1 && decide (a.2.2 < b.2.2))))

/-- The start that a hearth asks for, if its head has room (R308). DEDUCED (log 91). -/
def State.startAsk (s : State) (gh : Nat) : Option Ask :=
  match s.head gh with
  | some e => if (s.startHead gh e).isSome then some (.start gh e) else none
  | none => none

/-- The wake that a core asks for, if its array sleeps and a context has its turn (R361). DEDUCED (log 91). -/
def State.wakeAsk (s : State) (gc : Nat) : Option Ask :=
  if (s.core gc).asleep then (s.turnOf gc).map fun q => .wake gc q else none

/-- The eligible requests of a package. -/
def State.asks (s : State) (pkg : Nat) : List Ask :=
  (s.enabledHearths pkg).filterMap s.startAsk ++ (s.pkgCores pkg).filterMap s.wakeAsk

/-- The first of a list in admission order. -/
def State.firstAsk (s : State) : List Ask → Option Ask
  | [] => none
  | a :: l =>
    match s.firstAsk l with
    | some b => if beforeKey (s.askKey b) (s.askKey a) then some b else some a
    | none => some a

/-- A pour's requests are exempt from the budget (R365, R366). -/
def Pour.unmetered (p : Pour) : Bool := p.flag 1 && !p.staged

/-! ### Power in a clock, and ballast (R360, R364, R367, R368)

A clock of the core is 1 ÷ 1,100 of a window, so that 1 mW for a clock is 10⁶ ÷ 1,100 fJ. -/

/-- The array runs an instruction of a program in this clock (R368). -/
def Core.arrayBusy (c : Core) (now : Nat) : Bool := c.running.isSome && decide (now < c.arrayEnd)

/-- fJ that a core has spent in this clock: what it has counted of issue, stack bytes and link flits, and its array (R360). DEDUCED (log 90). -/
def State.clockEnergy (s : State) (b : Bellows) (gc : Nat) : Nat :=
  let c := s.core gc
  c.spent + if c.arrayBusy s.now then c.arrayMacs * b.wMac else 0

/-- p(c): mW of program power in this clock, with the charges admitted under ballast (R364, R367). -/
def State.clockPower (s : State) (pkg : Nat) : Nat :=
  let b := (s.pkg pkg).bellows
  b.idle + ((s.pkgCores pkg).map (s.clockEnergy b)).foldl (· + ·) 0 * 1100 / 10 ^ 6 + b.admitted

/-- The ballast units of a core: its partitions, and the array as number 4, each with its weight in mW (R368). -/
def ballastUnits : List (Nat × Nat) := [(0, 1000), (1, 1000), (2, 1000), (3, 1000), (4, 9000)]

/-- A unit of a core is idle in this clock (R368). -/
def Core.unitIdle (c : Core) (now u : Nat) : Bool := if u = 4 then !c.arrayBusy now else !c.issued.contains u

/-- C(c): mW that the idle units of a package can draw as ballast in this clock (R367, R368). -/
def State.capacity (s : State) (pkg : Nat) : Nat :=
  ((s.pkgCores pkg).map fun gc =>
    ((ballastUnits.filter fun u => (s.core gc).unitIdle s.now u.1).map Prod.snd).foldl (· + ·) 0).foldl (· + ·) 0

/-- mW of ballast in this clock, less what has been admitted under it in the same clock (R364, R367). DESIGN CHOICE (log 141). -/
def State.ballastNow (s : State) (pkg : Nat) : Nat :=
  let b := (s.pkg pkg).bellows
  if b.floor = 0 then 0 else min (b.floor - (s.clockPower pkg + b.soon)) (s.capacity pkg)

/-- The credits of a core's idle units after a clock of duty `d`, and the weights of the units that issue ballast in it (R367). -/
def Core.ballast (c : Core) (now : Nat) (d : Rat) : Tab Rat × List Nat :=
  (ballastUnits.filter fun u => c.unitIdle now u.1).foldl (fun q u =>
    let x := Sparse.get 0 q.1 u.1 + d
    if 1 ≤ x then (Sparse.set 0 q.1 u.1 (x - 1), q.2 ++ [u.2]) else (Sparse.set 0 q.1 u.1 x, q.2)) (c.credit, [])

/-- Ballast fills what a clock falls short of the floor, unit by unit (R367, R369, R373). -/
def State.ballastClock (s : State) (pkg : Nat) : State :=
  let b := (s.pkg pkg).bellows
  if b.floor = 0 then s
  else
    let short := b.floor - s.clockPower pkg
    let cap := s.capacity pkg
    let d : Rat := if cap = 0 then 0 else min 1 ((short : Rat) / cap)
    let s1 := if cap < short then s.modBellows pkg fun x => { x with shortfall := true } else s
    if short = 0 then s1
    else (s.pkgCores pkg).foldl (fun t gc =>
      let r := (t.core gc).ballast s.now d
      let t1 := t.modCore gc fun c => { c with credit := r.1 }
      if r.2.isEmpty then t1
      else t1.modBellows pkg fun x => { x with
        balNow := x.balNow + r.2.foldl (· + ·) 0 * 10 ^ 6 / 1100
        ballast := Sparse.set 0 x.ballast (gc % 128) (Sparse.get 0 x.ballast (gc % 128) + 1) }) s1

/-- A core after `n` clocks: what it has spent joins the energy of the window (R360). -/
def Core.pass (c : Core) (now wMac n : Nat) : Core :=
  if n = 0 then c
  else { c with
    work := c.work + c.spent + (if c.running.isSome then min n (c.arrayEnd - now) else 0) * c.arrayMacs * wMac
    spent := 0, issued := [] }

/-- Charges admitted under ballast count from the next clock on (R364). DEDUCED (log 90). DESIGN CHOICE (log 141). -/
def Bellows.pass (b : Bellows) (n : Nat) : Bellows :=
  if n = 0 ∨ b.soon = 0 then b else { b with admitted := b.admitted + b.soon, soon := 0 }

/-- `n` clocks pass without ballast. -/
def State.plainClocks (s : State) (n : Nat) : State :=
  { s with
    now := s.now + n
    pkgs := s.pkgs.map fun (q : Nat × Pkg) => (q.1, { q.2 with bellows := q.2.bellows.pass n })
    cores := s.cores.map fun (q : Nat × Core) => (q.1, q.2.pass s.now (s.pkg (corePkg q.1)).bellows.wMac n) }

/-- Clocks pass, each with its ballast. -/
def State.ballastClocks (s : State) : Nat → State
  | 0 => s
  | n + 1 => (((s.pkgs.map Prod.fst).foldl State.ballastClock s).plainClocks 1).ballastClocks n

/-- `n` clocks pass (R28, R360, R367). -/
def State.passClocks (s : State) (n : Nat) : State :=
  if s.pkgs.any fun q => q.2.bellows.floor ≠ 0 then s.ballastClocks n else s.plainClocks n

/-! ### Activity that is counted (R360) -/

/-- A core counts bytes of traffic of its hearth's stack. -/
def State.countBytes (s : State) (gc n : Nat) : State :=
  if n = 0 then s else s.modCore gc fun c => { c with spent := c.spent + n * (s.pkg (corePkg gc)).bellows.wByte }
/-- A core counts flits of a link. -/
def State.countFlits (s : State) (gc n : Nat) : State :=
  if n = 0 then s else s.modCore gc fun c => { c with spent := c.spent + n * (s.pkg (corePkg gc)).bellows.wFlit }

/-- The bytes of the home's stack that a packet reads or writes. -/
def Body.stackBytes : Body → Nat
  | .store ws | .reduction _ _ ws => (ws.map WriteOp.size).foldl (· + ·) 0
  | .signal .. | .engineWrite .. | .pennant .. | .merged .. | .pinDown _ => 8
  | .engineRead _ pas => pas.length
  | .pourRequest .. => 128
  | _ => 0

/-- The flits of a packet: its header, and its payload of 32 bytes each (R273). -/
def Body.flits (b : Body) : Nat :=
  1 + match b with
    | .ingot _ _ len _ => (len + 31) / 32
    | .readData _ _ bytes => (bytes.length + 31) / 32
    | .engineRead .. => 0
    | .contribution _ _ _ _ es .. => (8 * es.length + 31) / 32
    | b => (b.stackBytes + 31) / 32

/-- The core that counts what passes at a hearth: the first of it. -/
def Packet.fromCore (p : Packet) : Nat := if srcOfCore p.src then srcCore p.src else 8 * (p.entersAt.getD (16 * srcPkg p.src))
/-- The core that counts what reaches a target. -/
def Packet.toCore (p : Packet) : Nat := if 2048 ≤ p.tgt ∧ p.tgt < 65536 then p.tgt - 2048 else 8 * (p.leavesAt.getD (16 * tgtPkg p.tgt))

/-- Two entries of the list of packets in flight are one packet. -/
def Packet.same (p q : Packet) : Bool :=
  p.src = q.src && p.tgt = q.tgt && p.seq = q.seq && p.ord = q.ord && p.body.cls = q.body.cls

/-- What a turn has done to the packets in flight is counted: the flits of a packet that leaves for another package, those of one that has
come from another, and the bytes of a home's stack (R360). `old` is the state before the turn. DESIGN CHOICE (log 92). -/
def State.meter (s old : State) : State :=
  let came := s.net.filter fun p => !old.net.any p.same
  let gone := old.net.filter fun p => !p.lost && !s.net.any p.same
  let far (p : Packet) : Bool := srcPkg p.src ≠ tgtPkg p.tgt
  let s1 := (came.filter far).foldl (fun a p => a.countFlits p.fromCore p.body.flits) s
  gone.foldl (fun a p =>
    let b := if far p then a.countFlits p.toCore p.body.flits else a
    if p.tgt < 1024 then b.countBytes p.toCore p.body.stackBytes else b) s1

/-! ### Admission (R361 to R366) -/

/-- How a request is admitted: out of the budget, out of the ballast, or unmetered. -/
inductive Grant where
  | metered | ballast | pinned
  deriving DecidableEq, Repr

/-- What a request asks for takes place: the casts start, or the array is awake. A resumption that reads a poisoned image ends
the pour instead (R405, R418). -/
def State.carryOut (s : State) : Ask → State
  | .start gh e =>
    match if e.resume then s.badCasts gh e.casts else none with
    | some pa => s.poisonedEntry e.pour gh pa
    | none => (s.startHead gh e).getD s
  | .wake gc _ => s.modCore gc fun c => { c with asleep := false, waited := none, arrayUsed := true }

/-- The instruction that a wake would start: cast, context and acceptance number. -/
def State.wakeOf (s : State) (q : Nat × Bool) : Option (Nat × Bool × Nat) := (s.headInst q).map fun m => (q.1, q.2, m.num)

/-- The request has been eligible at a window end, and still is the same one (R373). -/
def State.askWaited (s : State) : Ask → Bool
  | .start _ e => e.waited
  | .wake gc q => (s.core gc).waited.isSome && (s.core gc).waited = s.wakeOf q

/-- The casts that an unmetered admission names, with their places in the admission order (R366). -/
def State.askCasts (s : State) (a : Ask) : List (Nat × Nat) :=
  match a with
  | .start _ e => e.casts.map fun c => (c, (s.cast c).released)
  | .wake _ q => [(q.1, s.askPlace a)]

/-- The registers of Bellows after an admission (R362, R364, R365, R373). -/
def Bellows.granted (b : Bellows) (g : Grant) (mw pour : Nat) (a : Ask) (casts : List (Nat × Nat)) (waited : Bool) : Bellows :=
  { b with
    budget := match g with | .ballast => b.budget | _ => b.budget - mw
    soon := match g with | .ballast => b.soon + mw | _ => b.soon
    starts := match a with | .start _ e => b.starts + e.casts.length | .wake .. => b.starts
    wakes := match a with | .start .. => b.wakes | .wake .. => b.wakes + 1
    defers := if waited then b.defers + 1 else b.defers
    pinAdm := if g = .pinned then b.pinAdm + 1 else b.pinAdm
    unmet := if g = .pinned then b.unmet ++ casts.map (fun c => (pour, c.1, b.windows, c.2)) else b.unmet }

/-- A request is admitted, and what it asks for takes place in the same step (R308). -/
def State.admitAsk (s : State) (pkg : Nat) (g : Grant) (a : Ask) : State :=
  (s.modBellows pkg fun b => b.granted g (1000 * s.charge pkg a) (s.askPour a) a (s.askCasts a) (s.askWaited a)).carryOut a

/-- How a request is admitted now: one of a pinned pour at once, and the oldest eligible one out of the ballast that covers its charge, or
out of the budget (R362, R364, R365). -/
def State.grantOf (s : State) (pkg : Nat) (a : Ask) : Option Grant :=
  let mw := 1000 * s.charge pkg a
  if (s.pour (s.askPour a)).unmetered then some .pinned
  else if s.firstAsk (s.asks pkg) ≠ some a then none
  else if 0 < mw ∧ mw ≤ s.ballastNow pkg then some .ballast
  else if mw ≤ (s.pkg pkg).bellows.budget then some .metered
  else none

/-- Admit the oldest eligible requests while ballast or the budget holds their charges (R362, R364). -/
def State.admitAll (s : State) (pkg : Nat) : Nat → State
  | 0 => s
  | n + 1 =>
    match s.firstAsk (s.asks pkg) with
    | some a =>
      match s.grantOf pkg a with
      | some g => (s.admitAsk pkg g a).admitAll pkg n
      | none => s
    | none => s

/-- CAST_START: the head of a placement queue starts once it has room and Bellows admits it; a head without room makes
resident casts park (R308, R310, R361). -/
def execCastStart (gh : Nat) (s : State) : Host.Outcome State Fault Refusal :=
  .next (
    match s.startAsk gh with
    | some a =>
      match s.grantOf (gh / 16) a with
      | some g => s.admitAsk (gh / 16) g a
      | none => s
    | none => s.makePlace gh)

/-- MATRIX_START: the context whose turn it is starts its head on the array, which Bellows may have to wake first (R183, R197,
R361). -/
def execMatrixStart (gc : Nat) (s : State) : Host.Outcome State Fault Refusal :=
  .next (
    match s.turnOf gc with
    | some q =>
      if (s.core gc).asleep then
        match s.grantOf (corePkg gc) (.wake gc q) with
        | some g => (s.admitAsk (corePkg gc) g (.wake gc q)).giveTurn gc q
        | none => s
      else s.giveTurn gc q
    | none => s)

/-- BALLAST_ADMIT: the oldest eligible request is admitted out of no budget when ballast covers its charge (R364). -/
def execBallastAdmit (pkg : Nat) (s : State) : Host.Outcome State Fault Refusal :=
  .next (
    match s.firstAsk (s.asks pkg) with
    | some a => if 1000 * s.charge pkg a ≤ s.ballastNow pkg then s.admitAsk pkg .ballast a else s
    | none => s)

/-- PINNED_ADMIT: the first eligible request of a pinned pour is admitted at once (R365). -/
def execPinnedAdmit (pkg : Nat) (s : State) : Host.Outcome State Fault Refusal :=
  .next (
    match s.firstAsk ((s.asks pkg).filter fun a => (s.pour (s.askPour a)).unmetered) with
    | some a => s.admitAsk pkg .pinned a
    | none => s)

/-! ### The end of a window (R360, R362, R366, R367) -/

/-- The last element of a list that meets a condition. -/
def lastThat (p : Nat → Bool) (l : List Nat) : Option Nat := l.reverse.find? p

/-- The fragment of a hoist that holds its lowest lane. -/
def State.lowestFrag (s : State) (hk : Nat) : Option Nat :=
  ((s.frags.filter fun q => q.2.live && q.2.hoist = hk).map fun q => (lowestLane q.2.lanes, q.1)).foldl
    (fun m q => match m with
      | some r => if q.1 < r.1 then some q else some r
      | none => some q) none |>.map Prod.snd

/-- The running cast whose admission came last in the admission order, of a list of casts with their places (R366). -/
def lastAdmitted (running : Nat → Bool) (l : List (Nat × Nat)) : Option Nat :=
  (l.foldl (fun m u =>
    if !running u.1 then m
    else match m with
      | some r => if r.2 ≤ u.2 then some u else some r
      | none => some u) none).map Prod.fst

/-- A pinned pour that broke the limit is staged, and a hoist of it raises RAMP (R366). -/
def State.rampFault (s : State) (pkg pour : Nat) (casts : List (Nat × Nat)) : State :=
  let running (c : Nat) : Bool := (s.cast c).pour = pour && ((s.cast c).st = .running || (s.cast c).st = .raised)
  let s1 := (s.modBellows pkg fun b => { b with rampFlts := b.rampFlts + 1 }).modPour pour fun p => { p with staged := true }
  match (lastAdmitted running casts).orElse fun _ => lastThat running (s.pour pour).admits with
  | some c =>
    match s.lowestFrag (hoistKey c 0) with
    | some f => s1.modFrag f fun x => { x with async := x.async ++ [{ code := Cause.ramp, addr := 0 }] }
    | none => s1
  | none => s1

/-- Remove the repeats of a list. -/
def distinct : List Nat → List Nat
  | [] => []
  | a :: l => a :: (distinct l).filter fun b => b ≠ a

/-- A core begins a new window; an array that ran no instruction of a program in the last one sleeps, unless its wake has been admitted for one
that waits for another array (R361, R367). -/
def Core.newWindow (c : Core) : Core :=
  { c with work := 0, arrayUsed := c.running.isSome, asleep := !c.arrayUsed && c.running.isNone && c.given.isNone, credit := [] }

/-- The clocks of the open window. -/
def State.windowClocks (s : State) (b : Bellows) : Nat := s.now - b.opened

/-- mW of an energy in fJ over a number of clocks. -/
def meanPower (fj clocks : Nat) : Nat := fj * 1100 / (max 1 clocks * 10 ^ 6)

/-- mW of program power in the window: the idle floor and the weighted activity (R360). -/
def State.programPower (s : State) (pkg : Nat) : Nat :=
  let b := (s.pkg pkg).bellows
  b.idle + meanPower (((s.pkgCores pkg).map fun gc => (s.core gc).work).foldl (· + ·) 0) (s.windowClocks b)

/-- The registers of Bellows at the end of a window with program power `p` and ballast `bal` (R362, R367, R371). `head` is the charge of
the oldest eligible request. -/
def Bellows.windowEnd (b : Bellows) (p bal head now : Nat) : Bellows :=
  let e := p + bal
  let rise := min b.nextRise b.riseCap
  let fall := min b.nextFall b.fallCap
  { b with
    riseLim := rise, fallLim := fall
    estW := e, balW := bal, prevE := e, floor := e - 1000 * fall
    budget := min (b.budget + 1000 * rise) (max (1000 * rise) (1000 * head))
    windows := b.windows + 1
    balWin := if b.balNow = 0 then b.balWin else b.balWin + 1
    fallOvr := if b.shortfall then b.fallOvr + 1 else b.fallOvr
    opened := now, balNow := 0, shortfall := false, admitted := 0, soon := 0
    unmet := b.unmet.filter fun u => decide (b.windows ≤ u.2.2.1) }

/-- Requests that stay eligible at the window end have waited; a wake that is not eligible then has not (R361, R373). -/
def State.markWaited (s : State) (pkg : Nat) : State :=
  (s.asks pkg).foldl (fun t a => match a with
    | .start gh e => t.modHearth gh fun h => { h with
        pqueue := h.pqueue.map fun q => if q.order = e.order then { q with waited := true } else q }
    | .wake gc q => t.modCore gc fun c => { c with waited := s.wakeOf q })
    ((s.pkgCores pkg).foldl (fun t gc => if (t.core gc).waited.isSome then t.modCore gc fun c => { c with waited := none } else t) s)

/-- The open window has lasted 1 µs (R360). -/
def State.windowOver (s : State) (pkg : Nat) : Bool :=
  (s.pkg pkg).present && decide ((s.pkg pkg).bellows.opened + 1100 ≤ s.now)

/-- BELLOWS_WINDOW_END: once the window is over, the estimate is formed, breaches by pinned pours are raised, the budget grows, the floor
of the next window is set, and requests are admitted (R360 to R367). DESIGN CHOICE (log 37). -/
def execBellowsWindowEnd (pkg : Nat) (s : State) : Host.Outcome State Fault Refusal :=
  let b := (s.pkg pkg).bellows
  let cs := s.pkgCores pkg
  let s1 := s.markWaited pkg
  let head := ((s1.firstAsk (s1.asks pkg)).map (s1.charge pkg)).getD 0
  let b' := b.windowEnd (s.programPower pkg) (meanPower b.balNow (s.windowClocks b)) head s.now
  let late := b.unmet.filter fun u => decide (b.windows ≤ u.2.2.1 + 1)
  let s2 := s1.modBellows pkg fun _ => b'
  let s3 :=
    if b.prevE + 1000 * b'.riseLim < b'.estW then
      (distinct (late.map Prod.fst)).foldl (fun t q =>
        if (t.pour q).staged || (t.pour q).st = .none then t
        else t.rampFault pkg q ((late.filter fun u => u.1 = q).map fun u => (u.2.1, u.2.2.2))) s2
    else s2
  let s4 := cs.foldl (fun t gc => t.modCore gc Core.newWindow) s3
  .next (if s.windowOver pkg then s4.admitAll pkg (s4.asks pkg).length else s)

end Sys2Proof.Machine
end

