-- ==== Sys2Proof/Machine/Preempt.lean ====
section
/-! DEFINITION. Pre-emption (R402 to R405, R413, R329, R330): the runner applies requests one after another; a save halts and
parks the casts of the contexts, waits until nothing of them moves, and marks the scoreboards; a resume gives the parked casts
back to their queues. Behind a save that a fatal error asked for, firmware writes the dump (R422, R423). -/

namespace Sys2Proof.Machine

/-! ### The dump (R423) -/

/-- The dump region of a hearth: behind the trace ring (R432). -/
def dumpBase (gh : Nat) : Nat := paOf gh 0xBF4000000

/-- Bytes of a number, lowest first. -/
def leBytes : Nat → Nat → List Byte
  | 0, _ => []
  | n + 1, v => BitVec.ofNat 8 v :: leBytes n (v / 256)

/-- The directory of a dump: one entry of 16 bytes for each section, with its offset from the header. DEDUCED (log 95). -/
def dumpDirectory : Nat → List (Nat × Nat × List (Byte × Bool)) → List Byte
  | _, [] => []
  | ofs, (t, h, bs) :: l =>
    leBytes 2 t ++ leBytes 1 h ++ leBytes 1 0 ++ leBytes 4 bs.length ++ leBytes 8 ofs ++ dumpDirectory (ofs + bs.length) l

/-- Bytes of memory with their marks, from a physical address on. -/
def State.bytesFrom (s : State) (pa n : Nat) : List (Byte × Bool) := (List.range n).map fun k => (s.byte (pa + k), s.mark ((pa + k) / 4))

/-- Bytes without a mark. -/
def unmarked (l : List Byte) : List (Byte × Bool) := l.map fun b => (b, false)

/-- An image is of a context that a package has saved: of a fragment or a cast of its pours, or of an engine. -/
def State.ownerSaved (s : State) (pkg : Nat) (o : ImgOwner) : Bool :=
  let ofCast (c : Nat) : Bool := s.ctxSaved pkg (s.pour (s.cast c).pour).ctx
  match o with
  | .ingot f => ofCast (s.castOf (s.frag f))
  | .anchor hk => ofCast (s.hoist hk).cast
  | .cast c => ofCast c
  | .engine _ _ ctx => s.ctxSaved pkg ctx

/-- Copies of the images of a hearth that stand in its parking area: the kinds 3, 4 and 6 of the sections of a dump (R423). -/
def State.imageBytesOf (s : State) (pkg gh kind : Nat) : List (Byte × Bool) :=
  let kindOf (o : ImgOwner) : Nat := match o with
    | .cast _ => 3
    | .anchor _ => 3
    | .ingot _ => 4
    | .engine .. => 6
  ((s.hearth gh).images.filter fun m => kindOf m.owner = kind && s.ownerSaved pkg m.owner).flatMap fun m => s.bytesFrom m.pa m.len

/-- Copies of the scoreboard areas of the live DEPS pours of the saved contexts that were launched at a hearth (R423). -/
def State.boardBytesOf (s : State) (pkg gh : Nat) : List (Byte × Bool) :=
  (s.pours.filter fun q => q.2.live && q.2.deps && 16 * q.2.pkg + q.2.hearth = gh && s.ctxSaved pkg q.2.ctx).flatMap fun q =>
    (List.range q.2.sbBytes).map fun k => (s.byte (q.2.sbPa k), s.mark (q.2.sbPa k / 4))

/-- The bytes of a section of a dump for a hearth: records, images, parked ingots, scoreboard areas and engine commands are copies
of memory; the counters, the launch state, and the windows and Bellows have no layout in the manual (R423). -/
def State.sectionBytes (s : State) (pkg gh kind : Nat) : List (Byte × Bool) :=
  match kind with
  | 2 => s.bytesFrom (errBase gh) (32 * min 524288 (s.hearth gh).errCount)
  | 3 => s.imageBytesOf pkg gh 3
  | 4 => s.imageBytesOf pkg gh 4
  | 5 => s.boardBytesOf pkg gh
  | 6 => s.imageBytesOf pkg gh 6
  | k => unmarked (Config.dumpSection pkg (s.pkg pkg).dumps gh k)

/-- The sections of a dump: each kind in turn, and of a kind each hearth that has bytes of it. -/
def State.dumpSections (s : State) (pkg : Nat) : List (Nat × Nat × List (Byte × Bool)) :=
  ((List.range 8).flatMap fun k => (s.enabledHearths pkg).map fun gh => (k + 1, gh % 16, s.sectionBytes pkg gh (k + 1))).filter
    fun q => !q.2.2.isEmpty

/-- The header, the directory and the sections of a package's dump (R423). DEDUCED (log 95). -/
def State.dumpBytes (s : State) (pkg : Nat) : List (Byte × Bool) :=
  let p := s.pkg pkg
  let secs := s.dumpSections pkg
  let first := 64 + 16 * secs.length
  let body := unmarked (dumpDirectory first secs) ++ secs.flatMap fun q => q.2.2
  unmarked (leBytes 4 0x504D5544 ++ leBytes 2 1 ++ [p.dumpScope, p.dumpCause] ++ leBytes 1 pkg ++ leBytes 3 0 ++ leBytes 4 secs.length ++
    leBytes 8 (64 + body.length) ++ leBytes 4 p.fwver.toNat ++ leBytes 4 0 ++ leBytes 32 p.savedCtxs.toNat) ++ body

/-- Put bytes with their marks at a physical address, one word after another (R417). -/
def State.putBytes (s : State) (pa : Nat) (bs : List (Byte × Bool)) : State :=
  (payload pa bs).foldl (fun a w => a.writeMem w.pa w.size w.val.toNat w.poison) s

/-- Firmware writes the dump; behind a package-fatal error STATE becomes DUMPREADY (R422, R427). -/
def State.writeDump (s : State) (pkg : Nat) : State :=
  let bs := s.dumpBytes pkg
  (s.putBytes (dumpBase (16 * pkg)) bs).modPkg pkg fun p => { p with
    dumps := p.dumps + 1, dumpLen := BitVec.ofNat 64 bs.length
    dumpCause := if p.fatalCtxs &&& ~~~p.savedCtxs = 0 then 0 else p.dumpCause
    st := if p.st = .fatal then .dumpReady else p.st }

/-! ### Saving (R329, R403) -/

/-- The set of a list of contexts. -/
def ctxSet (l : List (BitVec 8)) : BitVec 256 := l.foldl (fun a c => a ||| BitVec.ofNat 256 (2 ^ c.toNat)) 0

/-- A context is in a set. -/
def inSet (m : BitVec 256) (c : BitVec 8) : Bool := m.getLsbD c.toNat

/-- The contexts of a package that have a partition. -/
def Pkg.allCtxs (p : Pkg) : List (BitVec 8) :=
  ((List.range 256).filter fun c => decide (p.part c ≠ 0xFF)).map fun c => BitVec.ofNat 8 c

/-- The casts of a package's pours in one of the contexts, by key. -/
def State.ctxCasts (s : State) (pkg : Nat) (m : BitVec 256) : List Nat :=
  (s.casts.filter fun q => let p := s.pour q.2.pour; p.pkg = pkg && p.live && inSet m p.ctx).map Prod.fst

/-- A cast of the contexts has still to stop: it runs with hoists left, or parks. -/
def State.unquiet (s : State) (c : Nat) : Bool :=
  let x := s.cast c
  x.parking || x.st = .running || x.st = .raised

/-- Nothing of a context is on its way from or to a package: no posted, request or completion packet, those of the collective engine left
out (R292, R403). -/
def State.ctxIdle (s : State) (pkg : Nat) (ctx : BitVec 8) : Bool :=
  !(s.net.any fun p => p.ctx = ctx && p.body.cls ≠ 3 && !p.ofColl && (srcPkg p.src = pkg || tgtPkg p.tgt = pkg))

/-- The package of the hearth where a fragment stands or is parked. -/
def Place.pkg : Place → Option Nat
  | .core gc _ => some (corePkg gc)
  | .departing gc .. => some (corePkg gc)
  | .parked gh _ _ => some (gh / 16)
  | .flight => none

/-- The fragments of the contexts that visit a package from casts with their anchors on other packages (R51). -/
def State.visitorsOf (s : State) (pkg : Nat) (m : BitVec 256) : List Nat :=
  (s.frags.filter fun q => q.2.live && q.2.place.pkg = some pkg && inSet m (s.ctxOf q.2) &&
    corePkg (s.anchorOf q.2) ≠ pkg).map Prod.fst

/-- No engine of the package is inside a segment or a row step of a command of the context: they suspend between them (R271, R403). -/
def State.enginesRest (s : State) (pkg : Nat) (ctx : BitVec 8) : Bool :=
  s.cmds.all fun q => !(q.2.ctx = ctx && corePkg q.2.gc = pkg && q.2.eng ≠ .coll && (q.2.asked || (q.2.stage = .active && q.2.buf.isSome)))

/-- The scoreboard header's SAVE byte of the DEPS pours of some contexts (R320, R329, R330). -/
def State.markSaved (s : State) (pkg : Nat) (m : BitVec 256) (v : Nat) : State :=
  (s.pours.filter fun q => q.2.pkg = pkg && q.2.live && decide (0 < q.2.ncast) && q.2.deps && inSet m q.2.ctx).foldl
    (fun a q => a.writeMem (q.2.sbPa 0x1C) 1 v false) s

/-- The visitors of a package in the contexts start to park where they stand (R51, R403). -/
def State.parkVisitors (s : State) (pkg : Nat) (m : BitVec 256) : State :=
  let fs := s.visitorsOf pkg m
  let s1 := fs.foldl (fun a f => a.modFrag f fun x => x.startPark (a.anchorOf x)) s
  { s1 with hearths := s1.hearths.map fun (q : Nat × Hearth) =>
      (q.1, { q.2 with arrivals := q.2.arrivals.filter fun f => !fs.contains f }) }

/-- A save begins: no cast of the contexts starts any more, and those that run park, with the visitors of other casts; a cast whose last
hoist has exited goes on to its retirement (R51, R329, R403, steps 1 to 3). -/
def State.beginSave (s : State) (pkg : Nat) (fresh : BitVec 256) : State :=
  let s1 := s.modPkg pkg fun p => { p with
    savedCtxs := p.savedCtxs ||| fresh, saving := true
    sweeps := p.sweeps.filter fun (q : Nat × Sweep) => !fresh.getLsbD (q.1 % 256) }
  ((s1.ctxCasts pkg fresh).foldl (fun a c => if a.castExited c then a else a.beginPark c) s1).parkVisitors pkg fresh

/-- Everything of a context that a save waits for has come to rest (R403, steps 3 to 5). DEDUCED (log 93). -/
def State.saveDone (s : State) (pkg : Nat) (ctxs : List (BitVec 8)) : Bool :=
  let m := ctxSet ctxs
  (s.ctxCasts pkg m).all (fun c => !s.unquiet c) &&
    (s.visitorsOf pkg m).all (fun f => match (s.frag f).place with | .parked .. => true | _ => false) &&
    ctxs.all fun c => s.ctxIdle pkg c && s.enginesRest pkg c && (s.pkg pkg).phaseEnded c

/-- How far a command has come: the segments of a copy, or the row steps of a bank command (R404). -/
def Cmd.progress (c : Cmd) : Nat :=
  if c.eng = .copy then
    let segs (row upTo : Nat) : Nat := ((c.dstRow row % 256).toNat + upTo + 255) / 256
    (List.range c.row).foldl (fun n r => n + segs r c.len) 0 + (if c.pos = 0 then 0 else segs c.row c.pos)
  else c.rows.length

/-- The commands of an engine of a core in a context that are under way. -/
def State.heldCmds (s : State) (gc : Nat) (eng : Engine) (ctx : BitVec 8) : List Cmd :=
  (s.cmds.filter fun q => q.2.gc = gc && q.2.eng = eng && q.2.ctx = ctx && q.2.stage ≠ .done).map Prod.snd

/-- The commands of the copy and bank engines of a package's cores in saved contexts are written to the parking areas: for each
engine, the record of each command and its progress (R404). -/
def State.putEngines (s : State) (pkg : Nat) (ctxs : List (BitVec 8)) : State :=
  (s.pkgCores pkg).foldl (fun a gc => [Engine.copy, Engine.bank].foldl (fun a eng => ctxs.foldl (fun a ctx =>
    let l := s.heldCmds gc eng ctx
    if l.isEmpty then a
    else a.putImage (coreHearth gc) (.engine gc eng ctx) (72 * l.length)
      ((List.range l.length).zipWith (fun k (c : Cmd) =>
        [{ ofs := 72 * k, size := 64, val := c.raw.toNat }, { ofs := 72 * k + 64, size := 8, val := c.progress }]) l).flatten) a) a) s

/-- The images of engine commands of contexts are gone (R405). -/
def State.dropEngines (s : State) (pkg : Nat) (m : BitVec 256) : State :=
  let gone (o : ImgOwner) : Bool := match o with | .engine _ _ ctx => inSet m ctx | _ => false
  (s.enabledHearths pkg).foldl (fun a gh => a.dropImages gh gone) s

/-- PREEMPT_SAVE: the save at the head of the requests begins, or ends (R402, R403). -/
def execPreemptSave (pkg : Nat) (s : State) : Host.Outcome State Fault Refusal :=
  let p := s.pkg pkg
  .next (
    match p.preempt with
    | r :: rest =>
      if r.resume || p.completing.isSome then s
      else
        let fresh := ctxSet r.ctxs &&& ~~~p.savedCtxs
        if p.saving then
          (if s.saveDone pkg r.ctxs then
            ((s.markSaved pkg (ctxSet r.ctxs) 1).putEngines pkg r.ctxs).modPkg pkg fun q => { q with
              preempt := rest, saving := false, completing := some r }
           else s)
        else if fresh = 0 then s.modPkg pkg fun q => { q with preempt := rest, completing := some r }
        else s.beginSave pkg fresh
    | [] => s)

/-! ### Resuming (R330, R405) -/

/-- The casts that a resume releases, in the order in which they were parked: those that a save has parked, and those that parked before it
and stand in no queue, as their gang had not done so (R36, R405). -/
def State.releasable (s : State) (pkg : Nat) (m : BitVec 256) : List Nat :=
  let cs := (s.ctxCasts pkg m).filter fun c => (s.cast c).st = .parked && !(s.cast c).held &&
    ((s.cast c).saved || !((s.hearth (coreHearth (s.cast c).anchor)).pqueue.any fun e => e.casts.contains c))
  let rec place (c : Nat) : List Nat → List Nat
    | [] => [c]
    | d :: l => if (s.cast c).parkedAt < (s.cast d).parkedAt then c :: d :: l else d :: place c l
  cs.foldl (fun l c => place c l) []

/-- A parked cast is saved no more, and joins its placement queue with its gang (R36, R405). -/
def State.releaseParked (s : State) (c : Nat) : State := (s.modCast c fun y => { y with saved := false }).requeueGang c

/-- A cast's fragments may stand on cores: it runs on its anchor core, and its saved matrix instructions have run. -/
def State.castStands (s : State) (c : Nat) : Bool :=
  let x := s.cast c
  (x.st = .running || x.st = .raised) && !x.parking && x.granules ≠ 0 && !x.resuming

/-- The visitors that a save has parked on a package are admitted again where their casts run, in the order in which they were parked at
each hearth (R39, R52). -/
def State.admitVisitors (s : State) (pkg : Nat) (m : BitVec 256) : State :=
  let parked (h : Hearth) : List Nat := h.images.filterMap fun i => match i.owner with | .ingot f => some f | _ => none
  let fs := s.visitorsOf pkg m
  (((s.hearths.filter fun q => q.1 / 16 = pkg).flatMap fun q => parked q.2).filter fun f =>
    fs.contains f && s.castStands (s.castOf (s.frag f))).foldl State.readmit s

/-- PREEMPT_RESUME: the resume at the head of the requests takes place; it completes at once for contexts that are not saved
(R402, R405). -/
def execPreemptResume (pkg : Nat) (s : State) : Host.Outcome State Fault Refusal :=
  let p := s.pkg pkg
  .next (
    match p.preempt with
    | r :: rest =>
      if !r.resume || p.completing.isSome || p.saving || p.st ≠ .ready then s
      else
        let m := ctxSet r.ctxs &&& p.savedCtxs
        let s1 := ((s.markSaved pkg m 0).dropEngines pkg m).modPkg pkg fun q => { q with
          savedCtxs := q.savedCtxs &&& ~~~m, fatalCtxs := q.fatalCtxs &&& ~~~m, preempt := rest, completing := some r }
        ((s1.releasable pkg m).foldl State.releaseParked s1).admitVisitors pkg m
    | [] => s)

/-! ### The end of a request (R413) -/

/-- PREEMPT_COMPLETION: the runner posts 1 after a save and 2 after a resume to the address that the request names, from the
control hearth of the package; after the save that a fatal error asked for, the dump is written (R413, R422). DEDUCED (log 94). -/
def execPreemptCompletion (pkg : Nat) (s : State) : Host.Outcome State Fault Refusal :=
  let p := s.pkg pkg
  .next (
    match p.completing with
    | some r =>
      let s1 := s.modPkg pkg fun q => { q with completing := none }
      let s2 := match r.done with
        | some pa => s1.postWrites (16 * pkg) r.owner [WriteOp.clean pa 8 (if r.resume then 2 else 1)]
        | none => s1
      let due := if p.st = .fatal then p.allCtxs.all fun c => inSet p.savedCtxs c else decide (ctxSet r.ctxs &&& p.fatalCtxs ≠ 0)
      let dump := !r.resume && p.dumpCause ≠ 0 && due
      if dump then s2.writeDump pkg else s2
    | none => s)

/-- FWPREQ: firmware writes the request register (R402, R428). -/
def execFwpreq (pkg : Nat) (word : DWord) (s : State) : Host.Outcome State Fault Refusal :=
  .next (if (s.pkg pkg).present then s.fwRequest pkg word else s)

end Sys2Proof.Machine
end

