-- ==== Sys2Proof/Machine/Recovery.lean ====
section
/-! DEFINITION. Errors of stored bits and of the links (R416, R417, R421), package-fatal errors (R422), the host registers and
their doorbells (R425 to R427, R429), bring-up and resets (R430, R431). -/

namespace Sys2Proof.Machine

/-! ### Package-fatal errors (R422) -/

/-- Firmware saves every context of the package, before any request that still waits. -/
def Pkg.saveAll (p : Pkg) : Pkg :=
  let r : PreReq := { resume := false, ctxs := p.allCtxs, done := none, fw := true, owner := 0xFF }
  { p with preempt := if p.saving then p.preempt.take 1 ++ r :: p.preempt.drop 1 else r :: p.preempt }

/-- A package-fatal event: a record with its fatal flag, STATE FATAL, and a save of every context, behind which the dump follows;
a configuration that still waits is refused.
One that comes during a dump is recorded beside the first (R420, R422). DEDUCED (log 96). -/
def State.packageFatal (s : State) (pkg cls cnt : Nat) : State :=
  let p := s.pkg pkg
  if p.st = .ready ∨ p.st = .fatal ∨ p.st = .dumpReady then
    let s1 := s.record (16 * pkg) (seqrSrc (16 * pkg)) cls 0xFF 1 cnt 0 0
    if p.st = .ready then
      s1.modPkg pkg fun q => { q.saveAll with
        st := .fatal, dbBusy := false, dbResult := if q.dbBusy then 3 else q.dbResult, dumpScope := 1
        dumpCause := if q.dumpCause = 0 then BitVec.ofNat 8 cls else q.dumpCause }
    else s1
  else s

/-- THERMAL: a junction at or above 105 °C (R416, R422). -/
def execThermal (pkg : Nat) (s : State) : Host.Outcome State Fault Refusal := .next (s.packageFatal pkg 13 0)

/-- HOST_LINK_LOSS (R422). -/
def execHostLinkLoss (pkg : Nat) (s : State) : Host.Outcome State Fault Refusal :=
  .next (if (s.pkg pkg).hostLink then (s.packageFatal pkg 11 0).modPkg pkg fun p => { p with hostLink := false } else s)

/-- The host link of a package has trained again, so that the host reaches the package: it retrieves the dump and resets (R422, R424). DEDUCED (log 96). -/
def State.linkUp (s : State) (pkg : Nat) : State :=
  if (s.pkg pkg).present then s.modPkg pkg fun p => { p with hostLink := true } else s

/-- CONTROL_CHECK: the control processor's check, or an error in a firmware region (R416, R422). -/
def execControlCheck (pkg : Nat) (s : State) : Host.Outcome State Fault Refusal := .next (s.packageFatal pkg 12 0)

/-! ### Checks of stored bits (R416, R417, R421) -/

/-- A unit records a corrected error: by its oscillator, which is accurate to 200 ppm, the last one that it has recorded lies a millisecond
back. `fast` says that it reaches the millisecond as early as it may, and otherwise it does so as late (R28, R421). -/
def mayNote (last : Option Nat) (now : Nat) (fast : Bool) : Bool :=
  match last with
  | some n => decide (n + (if fast then 1099780 else 1100220) ≤ now)
  | none => true

/-- A 32-byte block of DRAM fails its check: one symbol is corrected, and recorded at most once in a millisecond; two leave all eight words
marked, and in a firmware region the error is package-fatal (R416, R421). -/
def State.dramError (s : State) (pa : Nat) (lost fast : Bool) : State :=
  let block := pa / 32 * 32
  let gh := paHearth pa
  if paHost pa || s.noHome (gh / 16) pa then s
  else if !lost then
    let s1 := s.countHearth gh 0
    if mayNote (s.hearth gh).noted s.now fast then
      (s1.record gh (seqrSrc gh) 1 0xFF 0 (counterNumber 0 gh 0) block 0).modHearth gh fun h => { h with noted := some s.now }
    else s1
  else
    let s1 := ((List.range 8).foldl (fun a k => a.setMark (block / 4 + k) true) s).countHearth gh 1
    let s2 := s1.record gh (seqrSrc gh) 2 0xFF 2 (counterNumber 0 gh 1) block 0
    if 0xBFC000000 ≤ paOfs pa then s2.packageFatal (gh / 16) 12 0 else s2

/-- A core counts a failed check of its SRAM, and its hearth records it, a corrected one at most once in a millisecond (R421). -/
def State.sramEvent (s : State) (gc : Nat) (lost fast : Bool) : State :=
  let ctr := if lost then 1 else 0
  let s1 := s.countCore gc ctr
  let rec_ (a : State) : State :=
    a.record (coreHearth gc) (recordSrc gc) (if lost then 4 else 3) 0xFF (if lost then 2 else 0) (counterNumber 1 gc ctr) 0 0
  if lost then rec_ s1
  else if mayNote (s.core gc).noted s.now fast then (rec_ s1).modCore gc fun c => { c with noted := some s.now }
  else s1

/-- A core that holds lanes of a hoist: that of the fragment with its lowest lane on a core. -/
def State.hoistCore (s : State) (hk : Nat) : Option Nat :=
  (s.frags.find? fun q => q.2.live && q.2.onCore && q.2.hoist = hk).map fun q => q.2.gc

/-- A pair of bits is set, the even one first. -/
def pairSet (m : BitVec 16) (k : Nat) : BitVec 16 := m ||| BitVec.ofNat 16 (3 * 2 ^ (k / 2 * 2))

/-- A 64-bit word of SRAM fails its check: one bit is corrected, and otherwise both halves are marked; what the core can read again, a
translation or a block of its instruction cache, is given up (R416). DEDUCED (log 97). -/
def State.softError (s : State) (w : Soft) (lost fast : Bool) : State :=
  let both (t : Tab Bool) (k : Nat) : Tab Bool := Sparse.set false (Sparse.set false t (k / 2 * 2) true) (k / 2 * 2 + 1) true
  match w with
  | .dram pa => s.dramError pa lost fast
  | .spad c ofs =>
    if (s.cast c).granules = 0 ∨ s.spadBytes c ≤ ofs then s
    else
      let s1 := if lost then s.modCast c fun x => { x with spoison := both x.spoison (ofs / 4) } else s
      s1.sramEvent (s.cast c).anchor lost fast
  | .vreg hk reg lane =>
    match s.frags.find? fun q => q.2.onCore && q.2.hoist = hk && q.2.lanes.getLsbD lane with
    | some q =>
      if 256 ≤ reg ∨ 32 ≤ lane then s
      else
        let s1 := if lost then s.modHoist hk fun h => { h with vpoison := both h.vpoison (32 * reg + lane) } else s
        s1.sramEvent q.2.gc lost fast
    | none => s
  | .sreg f reg =>
    let x := s.frag f
    if !x.onCore || decide (64 ≤ reg) then s
    else
      let s1 := if lost then s.setFrag f { x with spoison := x.spoison ||| BitVec.ofNat 64 (2 ^ reg) } else s
      s1.sramEvent x.gc lost fast
  | .acc c k pos =>
    if (s.cast c).granules = 0 ∨ 32768 ≤ pos then s
    else
      let s1 := if lost then s.modCtx c k fun m => { m with marks := both m.marks pos } else s
      s1.sramEvent (s.cast c).anchor lost fast
  | .preds hk reg =>
    match s.hoistCore hk with
    | some gc =>
      if 16 ≤ reg then s
      else
        let s1 := if lost then s.modHoist hk fun h => { h with pmarks := pairSet h.pmarks reg } else s
        s1.sramEvent gc lost fast
    | none => s
  | .masks hk reg =>
    match s.hoistCore hk with
    | some gc =>
      if 16 ≤ reg then s
      else
        let s1 := if lost then s.modHoist hk fun h => { h with mmarks := pairSet h.mmarks reg } else s
        s1.sramEvent gc lost fast
    | none => s
  | .icache gc key =>
    if !s.hearthOn (coreHearth gc) || (Sparse.get none (s.core gc).icache key).isNone then s
    else
      let s1 := if lost then s.modCore gc fun c => { c with icbad := if c.icbad.contains key then c.icbad else key :: c.icbad } else s
      s1.sramEvent gc lost fast
  | .tlb gc entry =>
    if !s.hearthOn (coreHearth gc) || decide ((s.core gc).tlb.length ≤ entry) then s
    else
      let s1 := if lost then s.modCore gc fun c => { c with tlb := c.tlb.eraseIdx entry } else s
      s1.sramEvent gc lost fast

/-- SCRUB: the next block of a hearth's DRAM is read and written back, so that its value is unchanged; `bad` says whether its
check fails, and beyond correction (R416). DEDUCED (log 103). -/
def execScrub (gh : Nat) (bad : Option Bool) (fast : Bool) (s : State) : Host.Outcome State Fault Refusal :=
  let pa := paOf gh (32 * (s.hearth gh).scrubbed)
  .next (
    if !s.hearthOn gh || (s.pkg (gh / 16)).st ≠ .ready then s
    else
      let s1 := match bad with | some lost => s.dramError pa lost fast | none => s
      s1.modHearth gh fun h => { h with scrubbed := (h.scrubbed + 1) % 0x60000000 })

/-- LINK_RETRAIN (R419). DEDUCED (log 103). -/
def execLinkRetrain (pkg bundle : Nat) (s : State) : Host.Outcome State Fault Refusal :=
  .next (if (s.pkg pkg).present ∧ bundle < 24 then s.countLink pkg bundle 3 else s)

/-- PCIE_ERROR: counted, and recorded under class 11 (R416, R419). -/
def execPcieError (pkg : Nat) (corrected : Bool) (s : State) : Host.Outcome State Fault Refusal :=
  let ctr := if corrected then 2 else 3
  .next (
    if (s.pkg pkg).present then
      (s.countHost pkg ctr).record (16 * pkg) (hostSrc pkg) 11 0xFF 0 (counterNumber 4 pkg ctr) 0 0
    else s)

/-! ### Host memory and the regions of DRAM -/

/-- The physical address of a host bus address. -/
def hostPa (a : Nat) : Nat := 2 ^ 49 + a
/-- A buffer lies in the host addresses that the device can name (R20). -/
def hostRange (a n : Nat) : Bool := decide (a + n ≤ 2 ^ 49)
/-- Bytes of host memory. -/
def State.hostRead (s : State) (a n : Nat) : List Byte := (List.range n).map fun k => s.byte (hostPa (a + k))
/-- A number from bytes, lowest first. -/
def bytesNat (bs : List Byte) : Nat := bs.foldr (fun b n => b.toNat + 256 * n) 0

/-- DRAM of a package from an offset of each hearth on is zero, with its marks clear (R430, R431). -/
def State.zeroDram (s : State) (pkg first : Nat) : State :=
  let hit (pa : Nat) : Bool := !paHost pa && paHearth pa / 16 = pkg && decide (first ≤ paOfs pa)
  { s with mem := s.mem.filter fun c => !hit c.1, marks := s.marks.filter fun m => !hit (4 * m.1) }

/-! ### Resets (R424, R431) -/

/-- The pour survives a warm reset: its context has been saved, and the dump has its launch state (R424). -/
def State.survives (s : State) (pkg : Nat) (warm : Bool) (p : Nat) : Bool :=
  let q := s.pour p
  q.pkg ≠ pkg || (warm && q.live && s.ctxSaved pkg q.ctx)

/-- What a reset at a clock leaves of a package, whose cores count from then on (R28). DEDUCED (log 100). DESIGN CHOICE (log 135). -/
def Pkg.afterReset (p : Pkg) (warm : Bool) (now : Nat) : Pkg :=
  { Pkg.reset with
    present := p.present, grade := p.grade, hmap := p.hmap, aux := p.aux, rails := p.rails, perst := true, st := .waitImg
    links := p.links, otpCtr := p.otpCtr, dumps := p.dumps, warm
    started := now, bellows := { Bellows.reset with opened := now }
    launches := if warm then p.launches else 0
    savedCtxs := if warm then p.savedCtxs else 0
    fatalCtxs := if warm then p.fatalCtxs else 0 }

/-- What a reset leaves of a hearth: behind a warm reset, the launch state of the pours that survive. -/
def Hearth.afterReset (h : Hearth) (warm : Bool) (keep : Nat → Bool) (saved : BitVec 256) (owns : ImgOwner → Bool) : Hearth :=
  if warm then
    { Hearth.reset with
      images := h.images.filter fun m => owns m.owner
      waiting := h.waiting.filter fun r => inSet saved r.ctx, slots := h.slots.filter keep
      pqueue := h.pqueue.filter fun e => keep e.pour, applied := h.applied }
  else { Hearth.reset with applied := h.applied }

/-- A package resets: cores, switches, tables and registers return to their state after reset. A warm reset keeps what has been
saved, and a cold one clears DRAM (R424, R431). DEDUCED (log 100). -/
def State.resetPkg (s : State) (pkg : Nat) (warm : Bool) : State :=
  let keep := s.survives pkg warm
  let saved := (s.pkg pkg).savedCtxs
  let castOk (c : Nat) : Bool := keep (c / 2 ^ 64)
  let fragOk (x : Frag) : Bool := castOk (s.hoist x.hoist).cast && (match x.place with
    | .core gc _ => corePkg gc ≠ pkg
    | .departing gc .. => corePkg gc ≠ pkg
    | .parked gh _ _ => gh / 16 ≠ pkg || warm
    | .flight => true)
  let owns (o : ImgOwner) : Bool := match o with
    | .ingot f => fragOk (s.frag f)
    | .anchor hk => castOk (hk / 32)
    | .cast c => castOk c
    | .engine _ _ ctx => inSet saved ctx
  let s1 : State := { s with
    frags := s.frags.filter fun q => fragOk q.2
    hoists := s.hoists.filter fun q => castOk q.2.cast
    casts := s.casts.filter fun q => castOk q.1
    pours := s.pours.filter fun q => keep q.1
    cores := s.cores.filter fun q => corePkg q.1 ≠ pkg
    hearths := s.hearths.map fun (q : Nat × Hearth) =>
      (q.1, if q.1 / 16 = pkg then q.2.afterReset warm keep saved owns else q.2)
    cmds := s.cmds.filter fun q => castOk q.2.cast && (corePkg q.2.gc ≠ pkg || q.2.eng ≠ .coll)
    net := s.net.filter fun p => decide (srcPkg p.src ≠ pkg ∧ tgtPkg p.tgt ≠ pkg)
    unacked := s.unacked.filter fun u => srcPkg u.src ≠ pkg }
  let s2 := s1.modPkg pkg fun p => p.afterReset warm s.now
  if warm then s2 else s2.zeroDram pkg 0

/-! ### Doorbells (R425 to R427, R429) -/

/-- The host reaches a package's registers. -/
def Pkg.hostUp (p : Pkg) : Bool := p.present && p.perst && p.hostLink

/-- The result of a doorbell (DBSTAT). -/
def State.dbEnd (s : State) (pkg : Nat) (r : Byte) : State :=
  s.modPkg pkg fun p => { p with dbResult := r, dbBusy := false }

/-- A doorbell is written: ignored and counted while another is busy (R427). -/
def State.doorbell (s : State) (pkg : Nat) (f : State → State) : State :=
  let p := s.pkg pkg
  if !p.hostUp then s else if p.dbBusy then s.hostError pkg else f s

/-- The offset of the firmware image and data region of every hearth, and its bytes below the control page (R376, R432). -/
def imageOfs : Nat := 0xBFC000000
/-- The bytes of the region below the runner control page. -/
def imageRoom : Nat := cpageOfs - imageOfs

/-- The image that the host names. -/
def State.hostImage (s : State) (pkg : Nat) : List Byte := s.hostRead (s.pkg pkg).imgAddr.toNat (s.pkg pkg).imgLen.toNat

/-- The image is loaded: DRAM is zeroed, the whole of it or after a warm reset the region of the image, into which hearth 0 takes the image
again (R424, R430, R431). DESIGN CHOICE (log 99). -/
def State.placeImage (s : State) (pkg : Nat) (image : List Byte) : State :=
  (s.zeroDram pkg (if (s.pkg pkg).warm then imageOfs else 0)).putBytes (paOf (16 * pkg) imageOfs) (unmarked (image.take imageRoom))

/-- What a package knows of an image that runs: each boot takes a leaf of the device key tree, if one is left (R426). -/
def Pkg.boot (p : Pkg) (image : List Byte) : Pkg :=
  { p with
    st := .ready, fwver := Config.imageVersion image, fwHash := Config.sha256 image
    otpCtr := if p.otpCtr < 32768 then p.otpCtr + 1 else p.otpCtr, leaf := decide (p.otpCtr < 32768), attests := 0 }

/-- DOORBELL 1: STATE becomes VERIFY while the boot ROM reads and verifies the image (R427, R430). While an image runs there is nothing to
load, and the doorbell ends at once. DESIGN CHOICE (log 101). -/
def State.loadImage (s : State) (pkg : Nat) : State :=
  let p := s.pkg pkg
  if p.st ≠ .waitImg ∧ p.st ≠ .rejected then s.dbEnd pkg 0
  else if !hostRange p.imgAddr.toNat p.imgLen.toNat then s.dbEnd pkg 5
  else s.modPkg pkg fun q => { q with st := .verify, dbBusy := true }

/-- The verification ends: a verified image brings the package up, and STATE becomes READY; any other is not run, and STATE becomes REJECTED
(R425, R430, R431). -/
def State.verifyImage (s : State) (pkg : Nat) : State :=
  let image := s.hostImage pkg
  match Config.imageVerdict image with
  | 0 => ((s.placeImage pkg image).modPkg pkg fun q => q.boot image).dbEnd pkg 0
  | v => (s.modPkg pkg fun q => { q with st := .rejected }).dbEnd pkg (if v = 1 then 1 else 2)

/-- DOORBELL_LOAD_IMAGE: the doorbell is written, or the verification that it has begun ends. DESIGN CHOICE (log 101). -/
def execDoorbellLoadImage (pkg : Nat) (s : State) : Host.Outcome State Fault Refusal :=
  .next (
    if (s.pkg pkg).st = .verify then s.verifyImage pkg
    else s.doorbell pkg fun a => a.loadImage pkg)

/-- The configuration block (R429). -/
structure CfgBlock where
  parts    : List Byte
  ctxParts : List Byte
  managing : Nat
  wflush   : Nat
  riseCap  : Nat
  fallCap  : Nat
  reserved : Nat
  deriving DecidableEq, Repr

/-- The fields of a configuration block. -/
def CfgBlock.of (bs : List Byte) : CfgBlock :=
  { parts := bs.take 1024, ctxParts := (bs.drop 1024).take 256, managing := bytesNat ((bs.drop 1280).take 32)
    wflush := bytesNat ((bs.drop 1312).take 4), riseCap := bytesNat ((bs.drop 1316).take 2)
    fallCap := bytesNat ((bs.drop 1318).take 2), reserved := bytesNat ((bs.drop 1320).take 20) }

/-- A partition number, or none (R375). -/
def partOk (b : Byte) : Bool := decide (b.toNat < 64) || b = 0xFF

/-- A table entry that is pinned, or the page that it maps, lies at a hearth (R377, R388). -/
def State.pinsAt (s : State) (gh : Nat) (entries : List Nat) : Bool :=
  entries.any fun a => paHearth a = gh || paHearth (leafPa (BitVec.ofNat 64 (s.readLE a 8))) = gh

/-- Nothing of the contexts of a partition stands at a hearth: no cast, ingot, queue entry, request or pinned page, and two sweeps of
the domain in a row find their counters equal and balanced (R292, R377). -/
def State.hearthFree (s : State) (pkg gh part : Nat) : Bool :=
  let p := s.pkg pkg
  let mine (ctx : BitVec 8) : Bool := decide (p.part ctx.toNat = part)
  let ours (q : Nat) : Bool := (s.pour q).live && mine (s.pour q).ctx
  part = 0xFF ||
  ((s.hearth gh).waiting.all (fun r => !mine r.ctx) && (s.hearth gh).pqueue.all (fun e => !ours e.pour) &&
    s.casts.all (fun q => !(ours q.2.pour && coreHearth q.2.anchor = gh && decide (q.2.granules ≠ 0 ∨ q.2.st = .parked))) &&
    s.frags.all (fun q => match q.2.place with
      | .parked k _ _ => k ≠ gh || !mine (s.ctxOf q.2)
      | .core gc _ => coreHearth gc ≠ gh || !mine (s.ctxOf q.2)
      | .departing gc .. => coreHearth gc ≠ gh || !mine (s.ctxOf q.2)
      | .flight => true) &&
    s.frags.all (fun q => !(q.2.live && mine (s.ctxOf q.2) && q.2.pinned.any fun e => s.pinsAt gh e.2.2)) &&
    s.pours.all (fun q => !(mine q.2.ctx && s.pinsAt gh q.2.pins)) &&
    s.cmds.all (fun q => !(mine q.2.ctx && !q.2.pins.isEmpty && (s.pinsAt gh q.2.pins || q.2.pages.any fun x => paHearth x.2 = gh))) &&
    s.net.all (fun x => !(mine x.ctx && (x.tgt = gh || srcHearth x.src = gh))) &&
    (p.partCtxs part).all fun c => (Sparse.get .none p.sweeps (sweepKey c.toNat true)).ended)

/-- The block keeps R377 and every stated range (R429). DEDUCED (log 102). -/
def State.cfgOk (s : State) (pkg : Nat) (c : CfgBlock) : Bool :=
  let p := s.pkg pkg
  c.parts.all partOk && c.ctxParts.all partOk && c.reserved = 0 &&
    decide (10 ≤ c.wflush ∧ c.wflush ≤ 100000 ∧ 1 ≤ c.riseCap ∧ c.riseCap ≤ 50 ∧ 1 ≤ c.fallCap ∧ c.fallCap ≤ 75) &&
    ((List.range 1024).all fun gh =>
      p.hearthPart gh = (c.parts.getD gh 0xFF).toNat || s.hearthFree pkg gh (p.hearthPart gh)) &&
    ((List.range 256).all fun k =>
      p.part k = (c.ctxParts.getD k 0xFF).toNat ||
        !(s.pours.any fun q => q.2.live && q.2.ctx.toNat = k))

/-- The tables and registers after a configuration (R429). -/
def Pkg.configure (p : Pkg) (c : CfgBlock) : Pkg :=
  { p with
    parts := (List.range 1024).foldl (fun t gh => Sparse.set 0xFF t gh (c.parts.getD gh 0xFF)) p.parts
    ctxs := (List.range 256).foldl (fun t k =>
      Sparse.set .none t k { p.ctxDesc k with part := c.ctxParts.getD k 0xFF }) p.ctxs
    managing := BitVec.ofNat 256 c.managing, wflush := c.wflush
    bellows := (p.bellows.setReg 0 c.riseCap).setReg 1 c.fallCap, configured := true }

/-- The contexts of the partitions that lose a hearth by a configuration, whose counters firmware sweeps twice before it (R377). -/
def State.sweptFor (s : State) (pkg : Nat) (c : CfgBlock) : List (BitVec 8) :=
  let p := s.pkg pkg
  (((List.range 1024).filter fun gh => p.hearthPart gh ≠ (c.parts.getD gh 0xFF).toNat).map p.hearthPart).eraseDups.flatMap p.partCtxs

/-- DOORBELL 2: the configuration is applied whole, or not at all with status 3, once firmware has swept the contexts that R377 names, for
which the doorbell stays busy; without running firmware the status is 3 too (R429). DEDUCED (log 102). -/
def State.applyConfig (s : State) (pkg : Nat) : State :=
  let p := s.pkg pkg
  if p.st ≠ .ready then s.dbEnd pkg 3
  else if !hostRange p.cfgAddr.toNat 1340 then s.dbEnd pkg 5
  else
    let bytes := s.hostRead p.cfgAddr.toNat 1340
    let c := CfgBlock.of bytes
    let keys := (s.sweptFor pkg c).map fun x => sweepKey x.toNat true
    if !p.dbBusy && !keys.isEmpty then
      s.modPkg pkg fun q => { q with dbBusy := true, sweeps := q.sweeps.filter fun w => !keys.contains w.1 }
    else if keys.any fun k => (Sparse.get .none p.sweeps k).same < 2 then s
    else if s.cfgOk pkg c then (s.modPkg pkg fun q => { q.configure c with cfgHash := Config.sha256 bytes }).dbEnd pkg 0
    else s.dbEnd pkg 3

/-- DOORBELL_APPLY_CONFIGURATION: the doorbell is written, or the configuration that waits for its sweeps goes on. -/
def execDoorbellApplyConfiguration (pkg : Nat) (s : State) : Host.Outcome State Fault Refusal :=
  .next (if (s.pkg pkg).dbBusy && (s.pkg pkg).st = .ready then s.applyConfig pkg else s.doorbell pkg fun a => a.applyConfig pkg)

/-- DOORBELL 3: the dump is copied to the host; while STATE is FATAL the copy waits for the dump (R427). -/
def State.copyDump (s : State) (pkg : Nat) : State :=
  let p := s.pkg pkg
  let n := p.dumpLen.toNat
  if p.st = .fatal then s.modPkg pkg fun q => { q with dbBusy := true }
  else if n = 0 then s.dbEnd pkg 4
  else if !hostRange p.dumpAddr.toNat n then s.dbEnd pkg 5
  else
    (s.putBytes (hostPa p.dumpAddr.toNat) (s.bytesFrom (dumpBase (16 * pkg)) n)).dbEnd pkg 0

/-- DOORBELL_COPY_DUMP: the doorbell is written, or the copy that waited for the dump goes on. -/
def execDoorbellCopyDump (pkg : Nat) (s : State) : Host.Outcome State Fault Refusal :=
  .next (if (s.pkg pkg).hostUp then s.copyDump pkg else s)

/-- A field of a report: so many bytes. -/
def fitBytes (n : Nat) (bs : List Byte) : List Byte := (List.range n).map fun k => bs.getD k 0

/-- No signature of R426's tree of two levels is longer: that with the longest one-time signatures of 32-byte hashes. PRESUMED
(log 99). -/
def signatureMax : Nat := 4 + (4 + 8516 + 4 + 15 * 32) + 56 + (4 + 8516 + 4 + 10 * 32)

/-- The bytes of an attestation report that its signature covers (R426): the nonce, the hash of the running image, the fuses, the OTP
counter, and the hash of the configuration in force, if there is one. -/
def Pkg.reportBody (p : Pkg) (pkg : Nat) (nonce : List Byte) : List Byte :=
  let fuse (ofs n : Nat) : List Byte := fitBytes n (Config.attestField ofs [] pkg)
  fitBytes 32 nonce ++ leBytes 32 p.fwHash.toNat ++ fuse 0x40 16 ++ fuse 0x50 4 ++ leBytes 4 p.otpCtr ++
    (if p.configured then leBytes 32 p.cfgHash.toNat else fuse 0x58 32)

/-- An attestation report (R426), which ends with its signature; the number of signatures before it stands for the one-time key. -/
def Pkg.report (p : Pkg) (pkg : Nat) (nonce : List Byte) : List Byte :=
  let body := p.reportBody pkg nonce
  body ++ (Config.attestField 0x78 body (1024 * p.otpCtr + p.attests)).take signatureMax

/-- The leaf that signs the next report: every 1,024 reports take another one, while one is left (R426). -/
def Pkg.signer (p : Pkg) : Option Pkg :=
  if !p.leaf then none
  else if p.attests < 1024 then some p
  else if p.otpCtr < 32768 then some { p with otpCtr := p.otpCtr + 1, attests := 0 } else none

/-- DOORBELL 4: a report is written into the host's buffer; without a leaf, or before firmware runs, the status is 6 (R426). DESIGN CHOICE
(log 99). DESIGN CHOICE (log 99). -/
def State.attest (s : State) (pkg : Nat) : State :=
  let p := s.pkg pkg
  let a := p.bufAddr.toNat
  match p.signer with
  | none => s.dbEnd pkg 6
  | some q =>
    let report := q.report pkg (s.hostRead a 32)
    if !hostRange a report.length then s.dbEnd pkg 5
    else
      ((s.putBytes (hostPa a) (unmarked report)).modPkg pkg fun r => { r with
        otpCtr := q.otpCtr, attests := q.attests + 1 }).dbEnd pkg 0

/-- DOORBELL_ATTEST. -/
def execDoorbellAttest (pkg : Nat) (s : State) : Host.Outcome State Fault Refusal :=
  .next (s.doorbell pkg fun a => a.attest pkg)

/-- DOORBELL_WARM_RESET: doorbell 5 (R431). -/
def execDoorbellWarmReset (pkg : Nat) (s : State) : Host.Outcome State Fault Refusal :=
  .next (s.doorbell pkg fun a => a.resetPkg pkg true)

/-- DOORBELL_COLD_RESET: doorbell 6 (R431). -/
def execDoorbellColdReset (pkg : Nat) (s : State) : Host.Outcome State Fault Refusal :=
  .next (s.doorbell pkg fun a => a.resetPkg pkg false)

/-! ### Host registers (R427) -/

/-- The code of STATE. -/
def HostState.code : HostState → Nat
  | .reset => 0
  | .waitImg => 1
  | .verify => 2
  | .ready => 3
  | .rejected => 4
  | .fatal => 5
  | .dumpReady => 6

/-- The code of a grade in ID. -/
def Grade.code : Grade → Nat
  | .p768 => 0
  | .p576 => 1
  | .m768 => 2

/-- A byte of the host registers as the host reads it; write-only and unnamed offsets read as zero. -/
def State.hostReg (s : State) (pkg ofs : Nat) : Byte :=
  let p := s.pkg pkg
  let f (base v : Nat) : Byte := nthByte v (ofs - base)
  if ofs < 4 then f 0 (0x51390000 + p.grade.code)
  else if ofs < 8 then f 4 p.fwver.toNat
  else if ofs < 0xC then f 8 p.st.code
  else if ofs < 0x10 then f 0xC (p.dbResult.toNat + if p.dbBusy then 2 ^ 31 else 0)
  else if ofs < 0x18 then f 0x10 p.imgAddr.toNat
  else if ofs < 0x20 then f 0x18 p.imgLen.toNat
  else if ofs < 0x28 then f 0x20 p.cfgAddr.toNat
  else if 0x30 ≤ ofs ∧ ofs < 0x38 then f 0x30 (cpagePa pkg)
  else if 0x38 ≤ ofs ∧ ofs < 0x40 then f 0x38 p.dumpAddr.toNat
  else if 0x40 ≤ ofs ∧ ofs < 0x48 then f 0x40 p.dumpLen.toNat
  else if 0x48 ≤ ofs ∧ ofs < 0x50 then f 0x48 p.bufAddr.toNat
  else if 0x50 ≤ ofs ∧ ofs < 0x54 then f 0x50 (Config.temperature pkg s.now).toNat
  else if 0x54 ≤ ofs ∧ ofs < 0x58 then f 0x54 (p.bellows.estW / 1000)
  else if 0x58 ≤ ofs ∧ ofs < 0x68 then f 0x58 p.hmap.toNat
  else 0

/-- A register with some of its bytes written. -/
def putField (old : DWord) (at_ size : Nat) (v : DWord) : DWord :=
  BitVec.ofNat 64 ((List.range size).foldl (fun n k => withByte n (at_ + k) (nthByte v.toNat k)) old.toNat)

/-- A write inside an 8-byte register. -/
def inReg (ofs size base : Nat) : Bool := decide (base ≤ ofs ∧ 1 ≤ size ∧ ofs + size ≤ base + 8)

/-- HOST_REGISTER_WRITE: a write of the host to its registers. A doorbell with a listed value rings, a launch window launches, and
a write to anything that the host may not write is ignored and counted (R427). -/
def execHostRegisterWrite (pkg offset : Nat) (value : DWord) (size : Nat) (s : State) : Host.Outcome State Fault Refusal :=
  let reg (base : Nat) : Bool := inReg offset size base
  let put (base : Nat) (old : DWord) : DWord := putField old (offset - base) size value
  .next (
    if !(s.pkg pkg).hostUp then s
    else if reg 0x10 then s.modPkg pkg fun p => { p with imgAddr := put 0x10 p.imgAddr }
    else if reg 0x18 then s.modPkg pkg fun p => { p with imgLen := put 0x18 p.imgLen }
    else if reg 0x20 then s.modPkg pkg fun p => { p with cfgAddr := put 0x20 p.cfgAddr }
    else if reg 0x38 then s.modPkg pkg fun p => { p with dumpAddr := put 0x38 p.dumpAddr }
    else if reg 0x48 then s.modPkg pkg fun p => { p with bufAddr := put 0x48 p.bufAddr }
    else if offset = 0x28 ∧ size = 4 then
      match value.toNat % 2 ^ 32 with
      | 1 => s.doorbell pkg fun a => a.loadImage pkg
      | 2 => s.doorbell pkg fun a => a.applyConfig pkg
      | 3 => s.doorbell pkg fun a => a.copyDump pkg
      | 4 => s.doorbell pkg fun a => a.attest pkg
      | 5 => s.doorbell pkg fun a => a.resetPkg pkg true
      | 6 => s.doorbell pkg fun a => a.resetPkg pkg false
      | _ => s.hostError pkg
    else if 0x10000 ≤ offset ∧ offset < 0x20000 ∧ offset % 0x1000 = 0 then
      s.launchWrite pkg ((offset - 0x10000) / 0x1000) value size
    else s.hostError pkg)

/-! ### Bring-up (R430) -/

/-- AUX_RAIL_ON: the 3.3 V rail comes first. -/
def execAuxRailOn (pkg : Nat) (s : State) : Host.Outcome State Fault Refusal :=
  .next (if (s.pkg pkg).present then s.modPkg pkg fun p => { p with aux := true } else s)

/-- POWER_RAILS_ON: the 48 V input, or the core, link and memory rails, behind the auxiliary rail. -/
def execPowerRailsOn (pkg : Nat) (s : State) : Host.Outcome State Fault Refusal :=
  .next (if (s.pkg pkg).aux then s.modPkg pkg fun p => { p with rails := true } else s)

/-- PERST_RELEASE: STATE becomes WAITIMG, and the cores leave reset (R28, R430). -/
def execPerstRelease (pkg : Nat) (s : State) : Host.Outcome State Fault Refusal :=
  .next (
    if (s.pkg pkg).rails && !(s.pkg pkg).perst then
      s.modPkg pkg fun p => { p with perst := true, st := .waitImg, started := s.now, bellows := { p.bellows with opened := s.now } }
    else s)

end Sys2Proof.Machine
end

