-- ==== Sys2Proof/Machine/Dispatch.lean ====
section
/-! DEFINITION. One arm for each row of the table of operations and events: a direct call of its meaning. -/

namespace Sys2Proof.Machine

/-- The meaning of every instruction and event. DESIGN CHOICE (log 4). -/
def exec (i : Instr) (s : State) : Host.Outcome State Fault Refusal :=
  match i with
  | .iadd h o t sat => Sys2Proof.Machine.execIadd h o t sat s
  | .isub h o t sat => Sys2Proof.Machine.execIsub h o t sat s
  | .iaddc h o t => Sys2Proof.Machine.execIaddc h o t s
  | .isubb h o t => Sys2Proof.Machine.execIsubb h o t s
  | .ineg h o t sat => Sys2Proof.Machine.execIneg h o t sat s
  | .iabs h o t sat => Sys2Proof.Machine.execIabs h o t sat s
  | .imin h o t => Sys2Proof.Machine.execImin h o t s
  | .imax h o t => Sys2Proof.Machine.execImax h o t s
  | .imul24 h o t hi => Sys2Proof.Machine.execImul24 h o t hi s
  | .imad24 h o t => Sys2Proof.Machine.execImad24 h o t s
  | .imul h o t => Sys2Proof.Machine.execImul h o t s
  | .imulhi h o t => Sys2Proof.Machine.execImulhi h o t s
  | .imad h o t => Sys2Proof.Machine.execImad h o t s
  | .idot4 h o aSigned bSigned sat => Sys2Proof.Machine.execIdot4 h o aSigned bSigned sat s
  | .isad h o t => Sys2Proof.Machine.execIsad h o t s
  | .iclamp h o t => Sys2Proof.Machine.execIclamp h o t s
  | .and h o w64 => Sys2Proof.Machine.execAnd h o w64 s
  | .or h o w64 => Sys2Proof.Machine.execOr h o w64 s
  | .xor h o w64 => Sys2Proof.Machine.execXor h o w64 s
  | .not h o w64 => Sys2Proof.Machine.execNot h o w64 s
  | .andn h o w64 => Sys2Proof.Machine.execAndn h o w64 s
  | .bool3 h o w64 table => Sys2Proof.Machine.execBool3 h o w64 table s
  | .shl h o wrap => Sys2Proof.Machine.execShl h o wrap s
  | .shr h o wrap => Sys2Proof.Machine.execShr h o wrap s
  | .sar h o wrap => Sys2Proof.Machine.execSar h o wrap s
  | .rotl h o => Sys2Proof.Machine.execRotl h o s
  | .funnel h o left => Sys2Proof.Machine.execFunnel h o left s
  | .bfe h o signed => Sys2Proof.Machine.execBfe h o signed s
  | .bfi h o => Sys2Proof.Machine.execBfi h o s
  | .popc h o w64 => Sys2Proof.Machine.execPopc h o w64 s
  | .clz h o w64 => Sys2Proof.Machine.execClz h o w64 s
  | .brev h o w64 => Sys2Proof.Machine.execBrev h o w64 s
  | .ctz h o w64 => Sys2Proof.Machine.execCtz h o w64 s
  | .mov h o w64 lsel => Sys2Proof.Machine.execMov h o w64 lsel s
  | .movi h o w64 hi => Sys2Proof.Machine.execMovi h o w64 hi s
  | .sel h o w64 => Sys2Proof.Machine.execSel h o w64 s
  | .add64 h o t => Sys2Proof.Machine.execAdd64 h o t s
  | .sub64 h o t => Sys2Proof.Machine.execSub64 h o t s
  | .lea h o signed scale => Sys2Proof.Machine.execLea h o signed scale s
  | .shl64 h o wrap => Sys2Proof.Machine.execShl64 h o wrap s
  | .shr64 h o wrap arith => Sys2Proof.Machine.execShr64 h o wrap arith s
  | .icmp h o t cond pct => Sys2Proof.Machine.execIcmp h o t cond pct s
  | .icmp64 h o t cond pct => Sys2Proof.Machine.execIcmp64 h o t cond pct s
  | .pbool h o table pct => Sys2Proof.Machine.execPbool h o table pct s
  | .pmov h o mode => Sys2Proof.Machine.execPmov h o mode s
  | .movs h o num => Sys2Proof.Machine.execMovs h o num s
  | .rdlane h o w64 => Sys2Proof.Machine.execRdlane h o w64 s
  | .wrlane h o w64 => Sys2Proof.Machine.execWrlane h o w64 s
  | .xlane h o w64 mode seg => Sys2Proof.Machine.execXlane h o w64 mode seg s
  | .bfly h o w64 hi => Sys2Proof.Machine.execBfly h o w64 hi s
  | .pmask h o => Sys2Proof.Machine.execPmask h o s
  | .ltest h o test pct => Sys2Proof.Machine.execLtest h o test pct s
  | .scan h o t op excl => Sys2Proof.Machine.execScan h o t op excl s
  | .lfold h o t op => Sys2Proof.Machine.execLfold h o t op s
  | .matchKeys h o t num => Sys2Proof.Machine.execMatchKeys h o t num s
  | .fadd h o t rm sat => Sys2Proof.Machine.execFadd h o t rm sat s
  | .fsub h o t rm sat => Sys2Proof.Machine.execFsub h o t rm sat s
  | .fmul h o t rm sat => Sys2Proof.Machine.execFmul h o t rm sat s
  | .ffma h o t rm sat => Sys2Proof.Machine.execFfma h o t rm sat s
  | .fmin h o t nanp => Sys2Proof.Machine.execFmin h o t nanp s
  | .fmax h o t nanp => Sys2Proof.Machine.execFmax h o t nanp s
  | .fcmp h o t cond pct => Sys2Proof.Machine.execFcmp h o t cond pct s
  | .fclass h o t val pct => Sys2Proof.Machine.execFclass h o t val pct s
  | .frnd h o t rm => Sys2Proof.Machine.execFrnd h o t rm s
  | .frcp h o => Sys2Proof.Machine.execFrcp h o s
  | .frsq h o => Sys2Proof.Machine.execFrsq h o s
  | .fsqrt h o rm sat => Sys2Proof.Machine.execFsqrt h o rm sat s
  | .fexp2 h o => Sys2Proof.Machine.execFexp2 h o s
  | .flog2 h o => Sys2Proof.Machine.execFlog2 h o s
  | .fsin h o => Sys2Proof.Machine.execFsin h o s
  | .fcos h o => Sys2Proof.Machine.execFcos h o s
  | .ftanh h o => Sys2Proof.Machine.execFtanh h o s
  | .fdiv h o rm sat => Sys2Proof.Machine.execFdiv h o rm sat s
  | .fldexp h o t rm sat => Sys2Proof.Machine.execFldexp h o t rm sat s
  | .pkadd h o bf rm sat => Sys2Proof.Machine.execPkadd h o bf rm sat s
  | .pkmul h o bf rm sat => Sys2Proof.Machine.execPkmul h o bf rm sat s
  | .pkfma h o bf rm sat => Sys2Proof.Machine.execPkfma h o bf rm sat s
  | .pkmin h o bf nanp => Sys2Proof.Machine.execPkmin h o bf nanp s
  | .pkmax h o bf nanp => Sys2Proof.Machine.execPkmax h o bf nanp s
  | .pkcmp h o bf cond => Sys2Proof.Machine.execPkcmp h o bf cond s
  | .fdot2 h o bf rm sat => Sys2Proof.Machine.execFdot2 h o bf rm sat s
  | .fdot4 h o e5 rm sat balt => Sys2Proof.Machine.execFdot4 h o e5 rm sat balt s
  | .cvt h o t src rm sat tfp => Sys2Proof.Machine.execCvt h o t src rm sat tfp s
  | .pack8 h o e5 rm sat hi => Sys2Proof.Machine.execPack8 h o e5 rm sat hi s
  | .pack4 h o rm => Sys2Proof.Machine.execPack4 h o rm s
  | .unpack8 h o t byte e5 => Sys2Proof.Machine.execUnpack8 h o t byte e5 s
  | .unpack4 h o t elt => Sys2Proof.Machine.execUnpack4 h o t elt s
  | .bscale h o => Sys2Proof.Machine.execBscale h o s
  | .hash32 h o => Sys2Proof.Machine.execHash32 h o s
  | .mma h o ctx pair lsel => Sys2Proof.Machine.execMma h o ctx pair lsel s
  | .mmas h o ctx pair first lsel => Sys2Proof.Machine.execMmas h o ctx pair first lsel s
  | .mmal h o ctx pair lsel => Sys2Proof.Machine.execMmal h o ctx pair lsel s
  | .lutb h o signed lsel => Sys2Proof.Machine.execLutb h o signed lsel s
  | .comp48 h o t hi => Sys2Proof.Machine.execComp48 h o t hi s
  | .aclr h o ctx lsel => Sys2Proof.Machine.execAclr h o ctx lsel s
  | .alds h o t ctx lsel => Sys2Proof.Machine.execAlds h o t ctx lsel s
  | .asts h o t ctx lsel => Sys2Proof.Machine.execAsts h o t ctx lsel s
  | .amrg h o ctx so lsel => Sys2Proof.Machine.execAmrg h o ctx so lsel s
  | .mbind h o ctx pctx lsel => Sys2Proof.Machine.execMbind h o ctx pctx lsel s
  | .mfree h o ctx lsel => Sys2Proof.Machine.execMfree h o ctx lsel s
  | .mwait h o which lsel => Sys2Proof.Machine.execMwait h o which lsel s
  | .ard h o t ctx lsel => Sys2Proof.Machine.execArd h o t ctx lsel s
  | .ld h o t x => Sys2Proof.Machine.execLd h o t x s
  | .st h o t x => Sys2Proof.Machine.execSt h o t x s
  | .lds h o t x => Sys2Proof.Machine.execLds h o t x s
  | .sts h o t x => Sys2Proof.Machine.execSts h o t x s
  | .ldx h o n x => Sys2Proof.Machine.execLdx h o n x s
  | .stx h o n x => Sys2Proof.Machine.execStx h o n x s
  | .atom h o t op x => Sys2Proof.Machine.execAtom h o t op x s
  | .atoms h o t op x => Sys2Proof.Machine.execAtoms h o t op x s
  | .red h o t op x => Sys2Proof.Machine.execRed h o t op x s
  | .cas h o t x => Sys2Proof.Machine.execCas h o t x s
  | .fence h o so => Sys2Proof.Machine.execFence h o so s
  | .waita h o t x => Sys2Proof.Machine.execWaita h o t x s
  | .poll h o t x => Sys2Proof.Machine.execPoll h o t x s
  | .home h o scale disp => Sys2Proof.Machine.execHome h o scale disp s
  | .go h o scale disp lsel => Sys2Proof.Machine.execGo h o scale disp lsel s
  | .goAnchor h o lsel => Sys2Proof.Machine.execGoAnchor h o lsel s
  | .cpy h o lsel => Sys2Proof.Machine.execCpy h o lsel s
  | .puts h o t x => Sys2Proof.Machine.execPuts h o t x s
  | .bkop h o lsel => Sys2Proof.Machine.execBkop h o lsel s
  | .coll h o lsel => Sys2Proof.Machine.execColl h o lsel s
  | .enq h o w64 nb lsel => Sys2Proof.Machine.execEnq h o w64 nb lsel s
  | .enqBind h o lsel => Sys2Proof.Machine.execEnqBind h o lsel s
  | .deq h o w64 nb lsel => Sys2Proof.Machine.execDeq h o w64 nb lsel s
  | .qstat h o field lsel => Sys2Proof.Machine.execQstat h o field lsel s
  | .bra h o brk pri => Sys2Proof.Machine.execBra h o brk pri s
  | .brx h o pri => Sys2Proof.Machine.execBrx h o pri s
  | .call h o sh pri lsel => Sys2Proof.Machine.execCall h o sh pri lsel s
  | .callx h o sh pri lsel => Sys2Proof.Machine.execCallx h o sh pri lsel s
  | .ret h o lsel => Sys2Proof.Machine.execRet h o lsel s
  | .loop h o pri => Sys2Proof.Machine.execLoop h o pri s
  | .rep h o sd sa sb sc => Sys2Proof.Machine.execRep h o sd sa sb sc s
  | .join h o lsel => Sys2Proof.Machine.execJoin h o lsel s
  | .leave h o lsel => Sys2Proof.Machine.execLeave h o lsel s
  | .waitm h o lsel => Sys2Proof.Machine.execWaitm h o lsel s
  | .mset h o mode lsel => Sys2Proof.Machine.execMset h o mode lsel s
  | .emset h o lsel => Sys2Proof.Machine.execEmset h o lsel s
  | .bar h o num arv => Sys2Proof.Machine.execBar h o num arv s
  | .yield h o => Sys2Proof.Machine.execYield h o s
  | .exit h o => Sys2Proof.Machine.execExit h o s
  | .raise h o => Sys2Proof.Machine.execRaise h o s
  | .pour h o => Sys2Proof.Machine.execPour h o s
  | .pourw h o lsel => Sys2Proof.Machine.execPourw h o lsel s
  | .nop h o => Sys2Proof.Machine.execNop h o s
  | .trap h o code => Sys2Proof.Machine.execTrap h o code s
  | .bkpt h o => Sys2Proof.Machine.execBkpt h o s
  | .sleep h o => Sys2Proof.Machine.execSleep h o s
  | .movspRead h o num => Sys2Proof.Machine.execMovspRead h o num s
  | .movspWrite h o num => Sys2Proof.Machine.execMovspWrite h o num s
  | .rft h o tgt => Sys2Proof.Machine.execRft h o tgt s
  | .tlbinv h o ext scope => Sys2Proof.Machine.execTlbinv h o ext scope s
  | .icinv h o ext scope => Sys2Proof.Machine.execIcinv h o ext scope s
  | .park h o => Sys2Proof.Machine.execPark h o s
  | .unpark h o => Sys2Proof.Machine.execUnpark h o s
  | .govset h o => Sys2Proof.Machine.execGovset h o s
  | .errrd h o => Sys2Proof.Machine.execErrrd h o s
  | .halt h o tgt => Sys2Proof.Machine.execHalt h o tgt s
  | .preq h o resume all => Sys2Proof.Machine.execPreq h o resume all s
  | .kill h o => Sys2Proof.Machine.execKill h o s
  | .fragmentDeparture f => Sys2Proof.Machine.execFragmentDeparture f s
  | .ingotArrival n => Sys2Proof.Machine.execIngotArrival n s
  | .parkedArrivalPlacement gh => Sys2Proof.Machine.execParkedArrivalPlacement gh s
  | .holdRelease f => Sys2Proof.Machine.execHoldRelease f s
  | .postedStore n => Sys2Proof.Machine.execPostedStore n s
  | .postedReduction n => Sys2Proof.Machine.execPostedReduction n s
  | .signalAdd n => Sys2Proof.Machine.execSignalAdd n s
  | .pennant n => Sys2Proof.Machine.execPennant n s
  | .castRelease n => Sys2Proof.Machine.execCastRelease n s
  | .engineCompletionWrite n => Sys2Proof.Machine.execEngineCompletionWrite n s
  | .engineCommand n => Sys2Proof.Machine.execEngineCommand n s
  | .hostWrite pkg pa bytes ep => Sys2Proof.Machine.execHostWrite pkg pa bytes ep s
  | .exitNotice n => Sys2Proof.Machine.execExitNotice n s
  | .engineRead n => Sys2Proof.Machine.execEngineRead n s
  | .drainRequest n => Sys2Proof.Machine.execDrainRequest n s
  | .acknowledgement n => Sys2Proof.Machine.execAcknowledgement n s
  | .readData n => Sys2Proof.Machine.execReadData n s
  | .drainAnswer n => Sys2Proof.Machine.execDrainAnswer n s
  | .stallHint n => Sys2Proof.Machine.execStallHint n s
  | .landing n => Sys2Proof.Machine.execLanding n s
  | .acknowledgementRequest n => Sys2Proof.Machine.execAcknowledgementRequest n s
  | .contribution n => Sys2Proof.Machine.execContribution n s
  | .mergedResult n => Sys2Proof.Machine.execMergedResult n s
  | .ackTimeout n => Sys2Proof.Machine.execAckTimeout n s
  | .flitCrcFailure n eighth link unit => Sys2Proof.Machine.execFlitCrcFailure n eighth link unit s
  | .stallHintRaise gc switch out => Sys2Proof.Machine.execStallHintRaise gc switch out s
  | .stallHintLapse gc target => Sys2Proof.Machine.execStallHintLapse gc target s
  | .wflushExpiry pkg switch win elt => Sys2Proof.Machine.execWflushExpiry pkg switch win elt s
  | .windowTreeFreed pkg win => Sys2Proof.Machine.execWindowTreeFreed pkg win s
  | .sweep pkg ctx domain => Sys2Proof.Machine.execSweep pkg ctx domain s
  | .contextFatal pkg ctx => Sys2Proof.Machine.execContextFatal pkg ctx s
  | .routeUpdate entries => Sys2Proof.Machine.execRouteUpdate entries s
  | .injectionFlip source => Sys2Proof.Machine.execInjectionFlip source s
  | .launch pkg hearth word size => Sys2Proof.Machine.execLaunch pkg hearth word size s
  | .slotGrant gh => Sys2Proof.Machine.execSlotGrant gh s
  | .castStart gh => Sys2Proof.Machine.execCastStart gh s
  | .quantumExpiry cast => Sys2Proof.Machine.execQuantumExpiry cast s
  | .activeSetExchange gc part => Sys2Proof.Machine.execActiveSetExchange gc part s
  | .hoistReady f => Sys2Proof.Machine.execHoistReady f s
  | .pollBackoffExpiry f => Sys2Proof.Machine.execPollBackoffExpiry f s
  | .sleepExpiry f => Sys2Proof.Machine.execSleepExpiry f s
  | .waitaWake f => Sys2Proof.Machine.execWaitaWake f s
  | .pourwWake f => Sys2Proof.Machine.execPourwWake f s
  | .joinComplete f => Sys2Proof.Machine.execJoinComplete f s
  | .barrierOpen cast num => Sys2Proof.Machine.execBarrierOpen cast num s
  | .loopEndTest f => Sys2Proof.Machine.execLoopEndTest f s
  | .castRetirement cast => Sys2Proof.Machine.execCastRetirement cast s
  | .earlyPennant cast => Sys2Proof.Machine.execEarlyPennant cast s
  | .pourCompletion pour => Sys2Proof.Machine.execPourCompletion pour s
  | .unparkApply n => Sys2Proof.Machine.execUnparkApply n s
  | .killApply n => Sys2Proof.Machine.execKillApply n s
  | .matrixStart gc => Sys2Proof.Machine.execMatrixStart gc s
  | .matrixRetire gc => Sys2Proof.Machine.execMatrixRetire gc s
  | .mbindEffect f => Sys2Proof.Machine.execMbindEffect f s
  | .amrgTicketReady f => Sys2Proof.Machine.execAmrgTicketReady f s
  | .amrgRetire gc ctx => Sys2Proof.Machine.execAmrgRetire gc ctx s
  | .engineCommandTake cast queue => Sys2Proof.Machine.execEngineCommandTake cast queue s
  | .copySegment cmd => Sys2Proof.Machine.execCopySegment cmd s
  | .bankRowStep cmd row => Sys2Proof.Machine.execBankRowStep cmd row s
  | .bankResultWrite cmd => Sys2Proof.Machine.execBankResultWrite cmd s
  | .engineCompletion cmd => Sys2Proof.Machine.execEngineCompletion cmd s
  | .feedPush cmd => Sys2Proof.Machine.execFeedPush cmd s
  | .collectiveCompletion cmd => Sys2Proof.Machine.execCollectiveCompletion cmd s
  | .tlbWalkComplete gh ctx vpage => Sys2Proof.Machine.execTlbWalkComplete gh ctx vpage s
  | .pinRetry cmd => Sys2Proof.Machine.execPinRetry cmd s
  | .bellowsWindowEnd pkg => Sys2Proof.Machine.execBellowsWindowEnd pkg s
  | .ballastAdmit pkg => Sys2Proof.Machine.execBallastAdmit pkg s
  | .pinnedAdmit pkg => Sys2Proof.Machine.execPinnedAdmit pkg s
  | .preemptSave pkg => Sys2Proof.Machine.execPreemptSave pkg s
  | .preemptResume pkg => Sys2Proof.Machine.execPreemptResume pkg s
  | .preemptCompletion pkg => Sys2Proof.Machine.execPreemptCompletion pkg s
  | .fwpreq pkg word => Sys2Proof.Machine.execFwpreq pkg word s
  | .windowDeclare pkg win => Sys2Proof.Machine.execWindowDeclare pkg win s
  | .windowClear pkg win => Sys2Proof.Machine.execWindowClear pkg win s
  | .controlPageWrite pkg offset bytes writer => Sys2Proof.Machine.execControlPageWrite pkg offset bytes writer s
  | .doorbellLoadImage pkg => Sys2Proof.Machine.execDoorbellLoadImage pkg s
  | .doorbellApplyConfiguration pkg => Sys2Proof.Machine.execDoorbellApplyConfiguration pkg s
  | .doorbellCopyDump pkg => Sys2Proof.Machine.execDoorbellCopyDump pkg s
  | .doorbellAttest pkg => Sys2Proof.Machine.execDoorbellAttest pkg s
  | .doorbellWarmReset pkg => Sys2Proof.Machine.execDoorbellWarmReset pkg s
  | .doorbellColdReset pkg => Sys2Proof.Machine.execDoorbellColdReset pkg s
  | .hostRegisterWrite pkg offset value size => Sys2Proof.Machine.execHostRegisterWrite pkg offset value size s
  | .auxRailOn pkg => Sys2Proof.Machine.execAuxRailOn pkg s
  | .powerRailsOn pkg => Sys2Proof.Machine.execPowerRailsOn pkg s
  | .perstRelease pkg => Sys2Proof.Machine.execPerstRelease pkg s
  | .thermal pkg => Sys2Proof.Machine.execThermal pkg s
  | .hostLinkLoss pkg => Sys2Proof.Machine.execHostLinkLoss pkg s
  | .controlCheck pkg => Sys2Proof.Machine.execControlCheck pkg s
  | .scrub gh bad fast => Sys2Proof.Machine.execScrub gh bad fast s
  | .linkRetrain pkg bundle => Sys2Proof.Machine.execLinkRetrain pkg bundle s
  | .pcieError pkg corrected => Sys2Proof.Machine.execPcieError pkg corrected s

end Sys2Proof.Machine
end

