-- ==== Sys2Proof/Machine/Schedule.lean ====
section
/-! DEFINITION. Which hoist and which entry a partition issues (R34, R313). -/

namespace Sys2Proof.Machine

/-! ### The choice of an entry (R34, R313) -/

/-- An entry comes before another: the higher priority, then the lower PC, then the fragment with the lowest lane (R34). -/
def beforeEntry (a : Frag × Entry) (b : Frag × Entry) : Bool :=
  decide (b.2.prio.toNat < a.2.prio.toNat) ||
    (a.2.prio = b.2.prio &&
      (decide (a.2.pc.toNat < b.2.pc.toNat) ||
        (a.2.pc = b.2.pc && decide (lowestLane a.1.lanes < lowestLane b.1.lanes))))

/-- The first of a list in the order of R34. -/
def firstEntry : List (Nat × Frag × Entry) → Option (Nat × Frag × Entry)
  | [] => none
  | q :: qs =>
    match firstEntry qs with
    | some r => if beforeEntry r.2 q.2 then some r else some q
    | none => some q

/-- The entry that the hoist in a slot issues (R34). -/
def State.entryOf (s : State) (gc slot : Nat) : Option Issue :=
  let es := (s.slotFrags gc slot).flatMap fun f =>
    let x := s.frag f
    if x.canIssue then x.issuable.map fun e => (f, x, e) else []
  (firstEntry es).map fun q => { frag := q.1, prio := q.2.2.prio, pc := q.2.2.pc }

/-- Slot `j` issues before slot `k`: it issued less recently, then has been ready longer, then has the lower number (R313). -/
def Core.issuesFirst (c : Core) (j k : Nat) : Bool :=
  let i (n : Nat) : Nat := Sparse.get 0 c.issuedAt n
  let r (n : Nat) : Nat := Sparse.get 0 c.readyAt n
  decide (i j < i k) || (i j = i k && (decide (r j < r k) || (r j = r k && decide (j < k))))

/-- The first slot in the order of R313. -/
def Core.firstSlot (c : Core) : List Nat → Option Nat
  | [] => none
  | k :: ks =>
    match c.firstSlot ks with
    | some j => if c.issuesFirst j k then some j else some k
    | none => some k

/-- The entry that a partition issues in this clock, after the moves of its active set (R312, R313). -/
def State.choose (s : State) (gc part : Nat) : Option Issue :=
  match (s.core gc).firstSlot ((Sparse.get [] (s.core gc).active part).filter (s.slotReady gc)) with
  | some k => s.entryOf gc k
  | none => none

/-! ### The default schedule

The manual leaves open which agent moves next. The agenda says it, and when the agenda is empty the turns listed here take place in
rotation. A turn that is not due changes nothing, so that the list may name too many. -/

/-- The event that applies a packet. -/
def Body.event (n : Nat) : Body → Instr
  | .store _ | .arrive .. | .pourRequest .. | .parkNote .. => .postedStore n
  | .reduction .. => .postedReduction n
  | .pinDown _ => .postedReduction n
  | .signal .. => .signalAdd n
  | .pennant .. => .pennant n
  | .release .. => .castRelease n
  | .engineWrite .. => .engineCompletionWrite n
  | .engineCmd _ => .engineCommand n
  | .exitNotice .. => .exitNotice n
  | .unpark .. => .unparkApply n
  | .kill .. => .killApply n
  | .ingot .. => .ingotArrival n
  | .engineRead .. => .engineRead n
  | .drainRequest .. => .drainRequest n
  | .ack .. => .acknowledgement n
  | .readData .. => .readData n
  | .drainAnswer _ => .drainAnswer n
  | .stallHint _ => .stallHint n
  | .landing _ | .opened .. | .parkAnswer .. => .landing n
  | .ackRequest .. => .acknowledgementRequest n
  | .contribution .. => .contribution n
  | .merged .. => .mergedResult n

/-- Turns that the packets in flight may take. -/
def State.netTurns (s : State) : List Turn :=
  (List.range s.net.length).filterMap fun n => (s.ready n).map fun p => .event (p.body.event n)

/-- Turns that a waiting entry may take. -/
def Wait.turn (f : Nat) : Wait → Turn
  | .waita .. => .event (.waitaWake f)
  | .pourw _ => .event (.pourwWake f)
  | .join _ => .event (.joinComplete f)
  | .mbind .. => .event (.mbindEffect f)
  | .ticket .. => .event (.amrgTicketReady f)
  | _ => .event (.hoistReady f)

/-- Turns that a fragment may take. -/
def Frag.turns (f : Nat) (x : Frag) : List Turn :=
  (if x.fills.isEmpty then [] else [.fill f]) ++
    (match x.place with | .departing .. => [.event (.fragmentDeparture f)] | _ => []) ++
    x.entries.filterMap (fun e => e.wait.map (Wait.turn f)) ++
    (if x.onCore && x.pseq.any fun e => e.tgt = coreHearth x.gc then [.event (.holdRelease f)] else []) ++
    (if x.endDue then [.event (.loopEndTest f)] else []) ++
    (if x.pause.isSome then [.event (.pollBackoffExpiry f)] else []) ++
    (if x.sleep.isSome then [.event (.sleepExpiry f)] else [])

/-- The partitions with a hoist that is ready. -/
def State.readyParts (s : State) : List (Nat × Nat) :=
  (s.cores.map Prod.fst).flatMap fun gc =>
    ((List.range 4).filter fun k => (List.range 32).any fun j => s.slotReady gc (32 * k + j)).map fun k => (gc, k)

/-- Turns that a core may take: the exchanges of its active sets (R312), hints that lapse, and the array's. -/
def State.coreTurns (s : State) (gc : Nat) : List Turn :=
    ((List.range 4).filter fun k => (s.exchangeDue gc k).isSome).map (fun k => .event (.activeSetExchange gc k)) ++
    ((s.core gc).hints.filter fun h => decide (h.deadline ≤ s.now)).map (fun h => .event (.stallHintLapse gc h.target)) ++
    (if (s.turnOf gc).isSome then [.event (.matrixStart gc)] else []) ++
    (if (s.core gc).running.isSome then [.event (.matrixRetire gc)] else []) ++
    (([false, true].filter fun x => s.casts.any fun q =>
      q.2.anchor = gc && ((q.2.ctx x).queue.head?.bind MInst.posted).isSome).map fun x => .event (.amrgRetire gc x))

/-- Turns that a hearth may take. -/
def Hearth.turns (gh : Nat) (h : Hearth) : List Turn :=
  (if h.waiting.isEmpty && h.slots.isEmpty then [] else [.event (.slotGrant gh)]) ++
    (if h.pqueue.isEmpty then [] else [.event (.castStart gh)]) ++
    (if h.arrivals.isEmpty then [] else [.event (.parkedArrivalPlacement gh)]) ++
    h.walksNow.map fun w => .event (.tlbWalkComplete gh w.1.toNat w.2)

/-- Turns that a cast may take at a clock. -/
def Cast.turns (now c : Nat) (x : Cast) : List Turn :=
  (if x.quantum.isNone && decide (x.startedAt + quantumClocks ≤ now) && (x.st = .running || x.st = .raised) then
    [.event (.quantumExpiry c)] else []) ++
  (if x.st = .running ∨ x.st = .raised then [.event (.earlyPennant c), .event (.castRetirement c)] else []) ++
    x.bars.map (fun b => .event (.barrierOpen c b.1)) ++ x.queues.map fun q => .event (.engineCommandTake c q.1)

/-- The turn that an engine command may take. -/
def Cmd.turns (k : Nat) (c : Cmd) : List Turn :=
  match c.stage with
  | .pinning => [.event (.pinRetry k)]
  | .finishing => [.event (.engineCompletion k)]
  | .feeding => [.event (.feedPush k)]
  | .active =>
    (match c.eng with
    | .copy => [.event (.copySegment k)]
    | .bank => c.bankRows.map fun r => .event (.bankRowStep k r)
    | .coll => [.event (.collectiveCompletion k)])
  | .results => (match c.eng with | .bank => [.event (.bankResultWrite k)] | _ => [.event (.collectiveCompletion k)])
  | _ => []

/-- The sweeps of a context of a package, and what firmware does when they stay out of balance (R292, R293, R422). -/
def sweepTurns (k : Nat) (c : BitVec 8) : List Turn :=
  [.event (.sweep k c.toNat false), .event (.sweep k c.toNat true), .event (.contextFatal k c.toNat)]

/-- The partial rounds that switch `k` of a package has held for WFLUSH (R285). -/
def State.flushTurns (s : State) (pkg k : Nat) : List Turn :=
  (List.range 16).flatMap fun win =>
    let rs := ((s.pkg pkg).switch k).rounds.filter fun r => r.win = win
    ((List.range rs.length).filter fun j => match rs[j]? with | some r => s.flushDue pkg r.since | none => false).map
      fun j => .event (.wflushExpiry pkg k win j)

/-- Collectives that have waited for WFLUSH (R285, R288). -/
def State.abandonTurns (s : State) : List Turn :=
  s.cmds.filterMap fun q =>
    if q.2.eng = .coll ∧ q.2.stage = .active ∧ s.flushDue (corePkg q.2.gc) q.2.since ∧ !s.allIssued q.2 then
      let pkg := corePkg q.2.gc
      some (.event (.wflushExpiry pkg 0 q.2.win ((s.pkg pkg).switch 0).rounds.length))
    else none

/-- Sources whose posted packets have waited for an acknowledgement (R275). -/
def State.ackTurns (s : State) : List Turn :=
  ((s.cores.flatMap fun q => q.2.unacked.filter fun u => u.late u.src s.now) ++ s.unacked.filter fun u => u.late u.src s.now).map
    fun u => .event (.ackTimeout u.src)

/-- The sweeps of contexts that have lost a packet, behind which firmware acts (R293, R422). -/
def State.lossTurns (s : State) (pkg : Nat) : List Turn :=
  (s.net.filter fun p => p.lost && (srcPkg p.src = pkg || tgtPkg p.tgt = pkg)).flatMap fun p => sweepTurns pkg p.ctx

/-- Turns of a package's runner and of its firmware. -/
def State.pkgTurns (s : State) (k : Nat) (p : Pkg) : List Turn :=
  (if p.preempt.isEmpty then []
   else [.event (.preemptSave k), .event (.preemptResume k)] ++ p.preempt.flatMap fun r => r.ctxs.flatMap (sweepTurns k)) ++
    (if p.completing.isSome then [.event (.preemptCompletion k)] else []) ++
    ((p.windows.filter fun w => w.2.status = 2).map fun w => .event (.windowTreeFreed k w.1)) ++
    (match p.routing with
     | some l => .event (.sweep k 0 true) ::
        ((s.seqs.map fun q => endpoint q.1).filter fun e => srcPkg e = k && !l.contains e).map fun e => .event (.injectionFlip e)
     | none => []) ++
    (if p.st = .ready && s.windowOver k then [.event (.bellowsWindowEnd k)] else []) ++
    (if p.st = .verify then [.event (.doorbellLoadImage k)] else []) ++
    (if p.st = .ready && p.dbBusy then .event (.doorbellApplyConfiguration k) ::
      (p.allCtxs.map fun c => .event (.sweep k c.toNat true)) else []) ++
    (p.switches.flatMap fun w => s.flushTurns k w.1) ++ s.lossTurns k

/-- Every turn that may be due beside the issues. -/
def State.dueTurns (s : State) : List Turn :=
  s.frags.flatMap (fun q => Frag.turns q.1 q.2) ++ s.netTurns ++ (s.cores.map Prod.fst).flatMap s.coreTurns ++
    s.hearths.flatMap (fun q => Hearth.turns q.1 q.2) ++ s.casts.flatMap (fun q => Cast.turns s.now q.1 q.2) ++
    s.pours.filterMap (fun q => if q.2.live then some (.event (.pourCompletion q.1)) else none) ++
    s.cmds.flatMap (fun q => Cmd.turns q.1 q.2) ++ s.abandonTurns ++ s.ackTurns ++ s.pkgs.flatMap fun q => s.pkgTurns q.1 q.2

/-- The turn that comes when the agenda names none: in every other clock each partition with a ready hoist issues (R313), and between them
the other due turns take place in rotation. DESIGN CHOICE (log 1). -/
def State.nextTurn (s : State) : Turn :=
  let ps := s.readyParts
  let l := s.dueTurns
  if !ps.isEmpty && (s.now % 2 = 0 || l.isEmpty) then .together ps
  else l.getD (s.now / 2 % max 1 l.length) (.clocks 1)

end Sys2Proof.Machine
end

