-- ==== Sys2Proof/Machine/Cycle.lean ====
section
/-! DEFINITION. The issue of one entry: fetch, decode, and the meaning of the instruction (R77, R97, R396, R418). -/

namespace Sys2Proof.Machine

/-- The issue that the state names, before its instruction is known. -/
def State.bare (s : State) : Ix := Ix.of s { form := .f64, gn := false, gp := 0, ea := false, eb := false, ec := false }

/-- The walk that an entry waits for stands in its hearth's queue, once (R384). -/
def State.queueWalk (s : State) (f : Nat) (prio : BitVec 8) (pc : DWord) : State :=
  let x := s.frag f
  match findEntry x.entries prio pc with
  | some { wait := some (.walk ctx p), .. } =>
    s.modHearth (coreHearth x.gc) fun h => if h.walks.contains (ctx, p) then h else { h with walks := h.walks ++ [(ctx, p)] }
  | _ => s

/-- The failed walks of an entry are forgotten once it has issued without waiting for another. -/
def State.clearWalks (s : State) (f : Nat) (prio : BitVec 8) (pc : DWord) : State :=
  let x := s.frag f
  match findEntry x.entries prio pc with
  | some { wait := some (.walk ..), .. } => s
  | _ => if x.badWalk.isEmpty then s else s.setFrag f { x with badWalk := x.badWalk.filter fun q => !(q.1 = prio && q.2.1 = pc) }

/-- What follows every issue of an entry. -/
def State.afterIssue (s : State) (is : Issue) : State :=
  (s.queueWalk is.frag is.prio is.pc).clearWalks is.frag is.prio is.pc

/-- Continue after a next state. -/
def onNext (r : Host.Outcome State Fault Refusal) (f : State → State) : Host.Outcome State Fault Refusal :=
  match r with
  | .next s => .next (f s)
  | .fault e => .fault e
  | .refused e => .refused e

/-- A fetch block is poisoned: the pour ends as by KILL, with a record of class 2, or of class 4 for a block that the core had kept; in a
handler it is a double fault (R395, R418). DEDUCED (log 30). -/
def Ix.fetchPoison (i : Ix) (pa : Nat) (kept : Bool) : State :=
  let ctr := if kept then counterNumber 1 i.x.gc 1 else counterNumber 0 i.here 1
  if i.x.handler then i.s.raise i.f i.e Cause.poison 0 i.e.mask
  else
    let s1 := i.s.record i.here (recordSrc i.x.gc) (if kept then 4 else 2) (i.s.ctxOf i.x).toNat 2 ctr pa 0
    (if kept then s1.countCore i.x.gc 1 else s1.countHearth i.here 1).beginKill (i.s.pourOf i.x)

/-- The instruction that the entry issues: the decoded one, or its repetition under REP (R344, R346). -/
def Ix.issued (i : Ix) (n : Instr) : Except (BitVec 8) Instr :=
  if i.x.repeats i.e.prio i.e.pc then
    let st := Strides.ofByte (i.x.repc.toNat / 2 ^ 24)
    let k := i.x.repc.toNat % 256
    if !repeatable n st then .error Cause.illegal
    else if !repInWindow n st k then .error Cause.window
    else match repetition n st k with
      | .ok r => .ok r
      | .error _ => .error Cause.illegal
  else .ok n

/-- The pins that an entry's instruction holds are released, because it traps before it issues (R388). -/
def Ix.unpinned (i : Ix) : Ix := { i with s := i.s.dropPins i.f i.e.prio i.e.pc }

/-- The operands of a memory access of an instruction, with the bytes of a lane and the unit of its scaling. -/
def accessOf : Instr → Option (Ops × MemX × Nat × Nat)
  | .ld _ o t x | .st _ o t x | .atom _ o t _ x | .red _ o t _ x | .cas _ o t x | .waita _ o t x | .poll _ o t x | .puts _ o t x =>
    some (o, x, t.bits / 8, t.bits / 8)
  | .ldx _ o n x | .stx _ o n x => some (o, x, 4 * XCount.n n, 4 * XCount.n n)
  | _ => none

/-- The instruction at the entry has been performed in the state `t`: nothing of it waits, no trap has been taken, and the fragment stands
where it stood. -/
def Ix.performedIn (i : Ix) (t : State) : Bool :=
  let y := t.frag i.f
  y.onCore && y.gc = i.x.gc && decide (y.trap = i.x.trap) &&
    match findEntry y.entries i.e.prio i.e.pc with
    | some e => e.wait = none
    | none => true

/-- The bytes of its own hearth's stack that an instruction has read or written are counted (R360). DESIGN CHOICE (log 92). -/
def Ix.countAccess (i : Ix) (n : Instr) (t : State) : State :=
  match accessOf n with
  | some (o, x, size, unit) =>
    if i.performedIn t then t.countBytes i.x.gc (size * (lanesOf (i.homedAt (fun l => i.pa (i.va o x unit l)) i.here)).length) else t
  | none => t

/-- An instruction issues from a block that has been read. -/
def Ix.runBlock (i : Ix) (b : BitVec 256) : Host.Outcome State Fault Refusal :=
  match decode (blockBytes b (i.e.pc.toNat % 32)) with
  | .error _ => .next i.unpinned.illegal
  | .ok n =>
    match i.issued n with
    | .error c => .next (i.unpinned.s.raise i.f i.e c 0 i.e.mask)
    | .ok k => onNext (exec k i.s) (i.countAccess k)

/-- The fetch of an entry, and what follows it (R77). -/
def Ix.fetchAndRun (i : Ix) : Host.Outcome State Fault Refusal :=
  match i.fetch with
  | .walk => .next (i.stop (i.walkWait (blockOf i.e.pc)))
  | .access => .next (i.unpinned.s.raise i.f i.e Cause.access (BitVec.ofNat 64 (blockOf i.e.pc)) i.e.mask)
  | .poison pa kept => .next (i.fetchPoison pa kept)
  | .block b fresh => if fresh then Ix.runBlock { i with s := i.keepBlock b } b else i.runBlock b

/-- One entry issues: a waiting asynchronous cause first, and otherwise its instruction (R396). -/
def State.runEntry (s : State) (is : Issue) : Host.Outcome State Fault Refusal :=
  let s1 := { s with iss := is }
  let x := s.frag is.frag
  let lanes := (((findEntry x.entries is.prio is.pc).map fun e => (lanesOf e.mask).length).getD 0)
  let s2 := s1.modCore x.gc fun c => { c with
    issuedAt := Sparse.set 0 c.issuedAt x.slot s.now
    issued := (x.slot / 32) :: c.issued
    spent := c.spent + lanes * ((s.pkg (corePkg x.gc)).bellows.wIssue * 10 ^ 6 / 35200) }
  let i := s2.bare
  match i.x.trap, i.x.async with
  | none, c :: cs =>
    .next ((i.unpinned.s.modFrag i.f fun y => { y with async := cs }).raise i.f i.e c.code c.addr i.e.mask)
  | _, _ => onNext i.fetchAndRun fun t => t.afterIssue is

/-- A partition issues, after the moves of its active set, the due exchange among them; the hoist leaves the active set at once when it waits
then (R296, R312, R313). -/
def State.issueTurn (s : State) (gc part : Nat) : Host.Outcome State Fault Refusal :=
  let s1 := (s.fillActive gc part 9).exchange gc part
  match s1.choose gc part with
  | some is => onNext (s1.runEntry is) fun t => t.leaveActive gc part
  | none => .next s1

/-- Partitions issue in one clock, each once (R14, R313). DESIGN CHOICE (log 2). -/
def State.issueAll (s : State) : List (Nat × Nat) → Host.Outcome State Fault Refusal
  | [] => .next s
  | q :: l =>
    if (s.core q.1).issued.contains q.2 then s.issueAll l
    else match s.issueTurn q.1 q.2 with
      | .next t => t.issueAll l
      | r => r

/-- A partition issues, and the sequencer of its hearth accepts the instruction's local stores before it applies them (R224, R241). DESIGN
CHOICE (log 138). -/
def State.issueLate (s : State) (gc part : Nat) : Host.Outcome State Fault Refusal :=
  onNext (State.issueTurn { s with late := true } gc part) fun t => { t with late := false }

/-- An event of the agenda: an instruction is none. DESIGN CHOICE (log 3). -/
def State.eventTurn (s : State) (i : Instr) : Host.Outcome State Fault Refusal :=
  match i.head with
  | some _ => .fault .agendaNamesInstruction
  | none => exec i s

/-- What a turn does. -/
def State.move (s : State) (t : Turn) : Host.Outcome State Fault Refusal :=
  match t with
  | .issue gc part => s.issueTurn gc part
  | .issueLate gc part => s.issueLate gc part
  | .together ps => s.issueAll ps
  | .badHeader n sw => .next (s.badHeader n sw)
  | .linkUp pkg => .next (s.linkUp pkg)
  | .fill f => .next (s.applyFill f)
  | .clocks n => .next (s.passClocks n)
  | .soft w lost fast => .next (s.softError w lost fast)
  | .event i => s.eventTurn i

/-- The turn that comes next takes place, and Bellows counts what it has moved (R360). DESIGN CHOICE (log 2). -/
def State.turn (s : State) (t : Turn) : Host.Outcome State Fault Refusal := onNext (s.move t) fun r => r.meter s

/-! ### Placing an instruction (the host's own fetch test) -/

/-- The virtual address at which a placed instruction stands. -/
def placedPc : DWord := 0x10000

/-- The record of the pour that runs a placed instruction: ENTRY is the placed address, W0 is 5, EPRIO is 0x10, HOISTS is 1,
GANG is 2, AFFSLOT is 0xFF, and PART gives one granule to registers and one to scratchpad. -/
def placedRecord : BitVec 1024 :=
  0x81000000ff02000001000000000000000000100000000000050000000000000000000000000000000000000000000000000000000000010000

/-- Context 0 belongs to partition 0, which hearth 0 of package 0 forms; the package is ready. -/
def Pkg.placed (p : Pkg) : Pkg :=
  { p with present := true, grade := .p768, hmap := fullHmap, st := .ready
           ctxs := Sparse.set .none p.ctxs 0 { root := 0, part := 0, flags := 1 }
           parts := Sparse.set 0xFF p.parts 0 0 }

/-- A state whose next step issues, on core 0, the instruction whose bytes stand at the placed address: a cast of one hoist
runs there, and the core holds the translation of its page. -/
def State.placed (s : State) (bytes : List Byte) : State :=
  let pa := 0x10000
  let hk := hoistKey (castKey 0 0) 0
  let s1 := s.writeMem pa bytes.length (bytesVal bytes) false
  let p : Pour := { Pour.none with st := .accepted, ncast := 1, nrel := 1, recPa := 0x20000, raw := placedRecord }
  let c : Cast := { Cast.fresh with st := .running, started := true, granules := 3 }
  let x : Frag := Frag.new p hk 0 0 0
  let s2 : State := { s1 with frags := s1.frags.filter fun q => q.2.gc ≠ 0 || !q.2.onCore }
  let s3 := (((s2.setPour 0 p).setCast (castKey 0 0) c).setHoist hk (Hoist.new (castKey 0 0) 0 0)).setFrag 0 x
  let s4 := s3.modPkg 0 Pkg.placed
  { s4.setCore 0 { Core.reset with
      anchors := [(0, some hk)], active := [(0, [0])]
      tlb := [{ ctx := 0, page := 1, bits := 16, leaf := BitVec.ofNat 64 (pa + 0x1F) }] } with
    agenda := [.issue 0 0], nextFrag := max s.nextFrag 1, nextPour := max s.nextPour 1 }

end Sys2Proof.Machine
end

