-- ==== Sys2Proof/Machine/Step.lean ====
section
/-! DEFINITION. One step of the domain: one clock passes, and the turn that the agenda names takes place. -/

namespace Sys2Proof.Machine

/-- One step. The agenda says which agent moves; with an empty agenda the schedule of `State.nextTurn` does. -/
def step (s : State) : Host.Outcome State Fault Refusal :=
  match s.agenda with
  | t :: ts => State.turn { s.passClocks 1 with agenda := ts } t
  | [] => State.turn (s.passClocks 1) s.nextTurn

/-- `s` with the instruction whose low bits are `w` where the next step issues. DESIGN CHOICE (log 5). -/
def State.withFetchWord (s : State) (nbits w : Nat) : State := s.placed (valBytes 16 (w % 2 ^ nbits))

end Sys2Proof.Machine
end

