-- ==== Sys2Proof/Safety.lean ====
section
/-! DEFINITION. What counts as a good state of the domain, in the terms that the statements use: the tables and the memory
keep their canonical form. -/

namespace Sys2Proof.Machine

/-- The canonical form of a memory: addresses strictly rising, and no byte listed that an unlisted one reads as. DESIGN CHOICE (log 7). -/
def Memory.wf (m : List Host.Cell) : Bool := Sparse.wf (0 : Byte) m

/-- Device and host memory, and its poison marks, are in canonical form. -/
def State.memOk (s : State) : Bool := Memory.wf s.mem && Sparse.wf false s.marks

end Sys2Proof.Machine
end

