-- ==== Sys2Proof/Claims.lean ====
section
/-! DEFINITION. The words in which the statements are written: when an instruction may take effect, what its destinations
hold afterwards, and what stays as it was. Each is said through the machine's own reads. -/

namespace Sys2Proof.Claims

open Sys2Proof.Machine

/-! ### When an instruction takes effect -/

/-- The registers that an instruction reads can be read: none is empty (R61), in debug mode none is absent (R112), and no lane
that is read is poisoned in a context that traps on poison (R392). -/
structure Readable (i : Ix) (us : List Use) (rd : LaneMask) : Prop where
  full  : ∀ u ∈ us, i.isEmpty u.o u.n = false
  known : i.s.debug i.x = true → ∀ u ∈ us, i.anyReg i.x.vabsent i.x.sabsent u.o u.n = false
  clean : (i.s.trapEnt i.x).tpoison = true → ∀ u ∈ us, i.poisonLanes u.o u.n rd = 0

/-- The destination can be written: it is not empty (R62), and a mask register is written at the anchor when the hoist is
split (R40). -/
structure Writable (i : Ix) (d : Opnd) (n : Nat) : Prop where
  full : i.isEmpty d n = false
  home : ∀ k, d = .m k → i.h.split = true → i.s.atAnchor i.x = true

/-- Some lane is guard-true, the sources can be read and the destination written (R61, R62, R86). -/
structure Able (i : Ix) (us : List Use) (d : Opnd) (n : Nat) : Prop where
  lanes : i.g ≠ 0
  reads : Readable i us i.g
  dest  : Writable i d n

/-- The uses of an instruction with sources A, B and C of the widths given. -/
def uses3 (hd : Hdr) (o : Ops) (wa wb wc : Wd) : List Use :=
  [{ o := o.a, n := wa.regs, bit := hd.ea }, { o := o.b, n := wb.regs, bit := hd.eb },
   { o := o.c, n := wc.regs, bit := hd.ec }]

/-! ### What a destination holds afterwards -/

/-- The destination `d` of type `ty` holds the results `r` of the guard-true lanes (R54 to R58): each lane of a vector
register or of a predicate, and the lowest lane's in a scalar or a mask register. The null destination and p0 hold nothing. -/
def Gets (t : State) (i : Ix) (d : Opnd) (ty : Ty) (r : Nat → Val) : Prop :=
  match d with
  | .v q => ∀ l, i.g.getLsbD l = true →
      if ty.wide then
        (t.hoist i.x.hoist).elem (i.areg q.toNat) l = (r l).bits.setWidth 32 ∧
        (t.hoist i.x.hoist).elem (i.areg q.toNat + 1) l = (r l).bits.extractLsb' 32 32 ∧
        (t.hoist i.x.hoist).elemMark (i.areg q.toNat) l = (r l).lo ∧
        (t.hoist i.x.hoist).elemMark (i.areg q.toNat + 1) l = (r l).hi
      else
        (t.hoist i.x.hoist).elem (i.areg q.toNat) l = ext32 ty (r l).bits ∧
        (t.hoist i.x.hoist).elemMark (i.areg q.toNat) l = (r l).poison
  | .s q =>
      (t.frag i.f).sreg q.toNat = ext64 ty (r (lowestLane i.g)).bits ∧
      (t.frag i.f).spoison.getLsbD q.toNat = (r (lowestLane i.g)).poison
  | .p q => q ≠ 0 → ∀ l, i.g.getLsbD l = true → ((t.hoist i.x.hoist).pred q).getLsbD l = (r l).bits.getLsbD 0
  | .m q => Sparse.get 0 (t.hoist i.x.hoist).masks q.toNat = ext32 ty (r (lowestLane i.g)).bits
  | _ => True

/-- The predicate destination `d` holds the bits `c` in the guard-true lanes (R87); the null destination and p0 discard
them. -/
def GetsPred (t : State) (i : Ix) (d : Opnd) (c : Nat → Bool) : Prop :=
  match d with
  | .p q => q ≠ 0 → ∀ l, i.g.getLsbD l = true → ((t.hoist i.x.hoist).pred q).getLsbD l = c l
  | _ => True

/-- What a predicate receives in a lane under a merge (R87): `old` is its value, `v` the lane's bit, and `q` the qualifying
predicate of GATE. -/
def merged (m : Merge) (old v q : Bool) : Bool :=
  match m with
  | .set => v
  | .and => old && v
  | .or => old || v
  | .gate => q && v

/-- Both predicate destinations of a compare hold the bit `c` and its complement under the combining type (R87): `i` has the
lanes that take part. -/
def GetsBoth (t : State) (i : Ix) (hd : Hdr) (o : Ops) (p : Pct) (c : Nat → Bool) : Prop :=
  (o.d ≠ o.d2 → GetsPred t i o.d fun l =>
    merged p.merge ((i.predOf o.d).getLsbD l) (c l != p.inv) ((i.h.guard hd).getLsbD l)) ∧
  GetsPred t i o.d2 fun l =>
    merged p.merge ((i.predOf o.d2).getLsbD l) (!(c l != p.inv)) ((i.h.guard hd).getLsbD l)

/-! ### What stays as it was -/

/-- Allotment register `a` in lane `l` belongs to a destination of the guard-true lanes. -/
def Written (i : Ix) (ds : List (Opnd × Nat)) (a l : Nat) : Prop :=
  i.g.getLsbD l = true ∧ ∃ q n, (Opnd.v q, n) ∈ ds ∧ i.areg q.toNat ≤ a ∧ a < i.areg q.toNat + n

/-- Everything except the destinations `ds` (each with its number of registers) in the guard-true lanes, the absent marks of
registers written, the place where the fragment's lanes go on, and the counter of uses of poison is as before. -/
structure Kept (s t : State) (i : Ix) (ds : List (Opnd × Nat)) : Prop where
  memory : ∀ a, t.byte a = s.byte a
  marks  : ∀ w, t.mark w = s.mark w
  frags  : ∀ f, f ≠ i.f → t.frag f = s.frag f
  hoists : ∀ k, k ≠ i.x.hoist → t.hoist k = s.hoist k
  elems  : ∀ a l, l < 32 → ¬ Written i ds a l →
    (t.hoist i.x.hoist).elem a l = (s.hoist i.x.hoist).elem a l ∧
    (t.hoist i.x.hoist).elemMark a l = (s.hoist i.x.hoist).elemMark a l
  preds  : ∀ q l, ¬ (i.g.getLsbD l = true ∧ ∃ n, (Opnd.p q, n) ∈ ds) →
    ((t.hoist i.x.hoist).pred q).getLsbD l = ((s.hoist i.x.hoist).pred q).getLsbD l
  masks  : ∀ q : BitVec 4, ¬ (∃ n, (Opnd.m q, n) ∈ ds) →
    Sparse.get 0 (t.hoist i.x.hoist).masks q.toNat = Sparse.get 0 (s.hoist i.x.hoist).masks q.toNat
  bits   : ∀ q : BitVec 4,
    (¬ (∃ n, (Opnd.p q, n) ∈ ds) →
      (t.hoist i.x.hoist).pmarks.getLsbD q.toNat = (s.hoist i.x.hoist).pmarks.getLsbD q.toNat) ∧
    (¬ (∃ n, (Opnd.m q, n) ∈ ds) →
      (t.hoist i.x.hoist).mmarks.getLsbD q.toNat = (s.hoist i.x.hoist).mmarks.getLsbD q.toNat)
  hoist  : { t.hoist i.x.hoist with
               vregs := (s.hoist i.x.hoist).vregs, vpoison := (s.hoist i.x.hoist).vpoison,
               preds := (s.hoist i.x.hoist).preds, masks := (s.hoist i.x.hoist).masks,
               pmarks := (s.hoist i.x.hoist).pmarks, mmarks := (s.hoist i.x.hoist).mmarks } = s.hoist i.x.hoist
  sregs  : ∀ q : BitVec 6, ¬ (∃ n, (Opnd.s q, n) ∈ ds) →
    (t.frag i.f).sreg q.toNat = (s.frag i.f).sreg q.toNat ∧
    (t.frag i.f).spoison.getLsbD q.toNat = (s.frag i.f).spoison.getLsbD q.toNat
  frag   : { t.frag i.f with
               entries := (s.frag i.f).entries, atEnd := (s.frag i.f).atEnd, rep := (s.frag i.f).rep,
               repc := (s.frag i.f).repc, sregs := (s.frag i.f).sregs, spoison := (s.frag i.f).spoison,
               vabsent := (s.frag i.f).vabsent, sabsent := (s.frag i.f).sabsent } = s.frag i.f
  cores  : ∀ c, { t.core c with counters := (s.core c).counters } = s.core c
  rest   : { t with frags := s.frags, hoists := s.hoists, cores := s.cores } = s

/-- The instruction's lanes have gone on past it (R331), or to its next repetition (R346). -/
def WentOn (s t : State) (i : Ix) : Prop :=
  (t.frag i.f).entries = ((s.frag i.f).complete i.e.prio i.e.pc i.next i.e.mask).entries

/-! ### Instructions that work lane by lane -/

/-- A source operand as lane `l` of the issue sees it, and its mark. -/
def lane3 (i : Ix) (o : Ops) (wa wb wc : Wd) (f : DWord → DWord → DWord → DWord) (l : Nat) : Val :=
  { bits := f (i.read o.a wa l).bits (i.read o.b wb l).bits (i.read o.c wc l).bits
    poison := (i.read o.a wa l).poison || (i.read o.b wb l).poison || (i.read o.c wc l).poison }

/-- Whenever its sources can be read and its destination written, the instruction completes: D receives `f` of A, B and C in
each guard-true lane, poisoned when a source is (R54 to R58, R417), the lanes go on, and nothing else changes. -/
def Computes (n : Instr) (hd : Hdr) (o : Ops) (wa wb wc : Wd) (ty : Ty) (f : DWord → DWord → DWord → DWord) : Prop :=
  ∀ s : State, Able (Ix.of s hd) (uses3 hd o wa wb wc) o.d (Ty.regs ty) →
    ∃ t, exec n s = .next t ∧ Gets t (Ix.of s hd) o.d ty (lane3 (Ix.of s hd) o wa wb wc f) ∧
      Kept s t (Ix.of s hd) [(o.d, Ty.regs ty)] ∧ WentOn s t (Ix.of s hd)

/-- Whenever its sources can be read, the instruction completes: both predicate destinations receive the bit `c` of the lanes
that take part and its complement under the combining type (R87), the lanes go on, and nothing else changes. -/
def Tests (n : Instr) (hd : Hdr) (o : Ops) (p : Pct) (us : List Use) (c : Ix → Nat → Bool) : Prop :=
  ∀ s : State, ((Ix.of s hd).part p).g ≠ 0 → Readable ((Ix.of s hd).part p) us ((Ix.of s hd).part p).g →
    ∃ t, exec n s = .next t ∧ GetsBoth t ((Ix.of s hd).part p) hd o p (c ((Ix.of s hd).part p)) ∧
      Kept s t ((Ix.of s hd).part p) [(o.d, 1), (o.d2, 1)] ∧ WentOn s t (Ix.of s hd)

/-- The bit of a compare in a lane. -/
def laneBit3 (o : Ops) (wa wb wc : Wd) (f : DWord → DWord → DWord → Bool) (i : Ix) (l : Nat) : Bool :=
  f (i.read o.a wa l).bits (i.read o.b wb l).bits (i.read o.c wc l).bits

/-- Whenever the registers of `us` can be read in the lanes `rd` and D can be written, the instruction completes: D receives
the results `r`, the lanes go on, and nothing else changes. -/
def Yields (n : Instr) (hd : Hdr) (us : Ix → List Use) (rd : Ix → LaneMask) (d : Opnd) (ty : Ty) (r : Ix → Nat → Val) : Prop :=
  ∀ s : State, (Ix.of s hd).g ≠ 0 → Readable (Ix.of s hd) (us (Ix.of s hd)) (rd (Ix.of s hd)) →
    Writable (Ix.of s hd) d (Ty.regs ty) →
    ∃ t, exec n s = .next t ∧ Gets t (Ix.of s hd) d ty (r (Ix.of s hd)) ∧ Kept s t (Ix.of s hd) [(d, Ty.regs ty)] ∧
      WentOn s t (Ix.of s hd)

/-- The low 32 bits of an operand. -/
def lo (x : DWord) : Word := x.setWidth 32

/-- A 32-bit result. -/
def up (x : Word) : DWord := x.setWidth 64

/-- Two 16-bit elements as a packed value (R169). -/
def both16 (f : Nat → Nat) : DWord := up ((BitVec.ofNat 16 (f 1) ++ BitVec.ofNat 16 (f 0) : Word))

/-! ### Accesses to memory -/

/-- Each guard-true lane's access of `size` bytes at the virtual address `va` passes the checks of R214: it is aligned, its page
is translated and grants it, and its home lies in the context's partition. -/
structure Granted (i : Ix) (k : Acc) (size : Nat) (va : Nat → Nat) : Prop where
  aligned : ∀ l, i.g.getLsbD l = true → va l % size = 0
  mapped  : ∀ l, i.g.getLsbD l = true → ∃ leaf, i.translate (va l) = .ok leaf (i.pa (va l)) ∧
    i.denied k leaf (i.pa (va l)) = false
  inside  : ∀ l, i.g.getLsbD l = true → i.outside (i.pa (va l)) = false

/-- The home of each guard-true lane is the hearth `gh`. -/
def HomedAt (i : Ix) (va : Nat → Nat) (gh : Nat) : Prop :=
  ∀ l, i.g.getLsbD l = true → paHost (i.pa (va l)) = false ∧ paHearth (i.pa (va l)) = gh

/-- A release of this order finds what it waits for done (R230): at a wide scope everything performed, and at one of the core class every
earlier write performed there. -/
def Released (i : Ix) (so : ScopeOrder) : Prop :=
  ScopeOrder.rel so = true → (if i.wideScope so.scope then i.s.performed i.x else i.s.coreDone i.x) = true

/-- No order holds the access back at its home: the fragment's own posted packets toward it are applied (R50, R224), no local store
that its core has accepted is still to be applied (R226), a release
finds what it waits for done (R230), a write with a core-class release finds room for its record (R236), and a PROMOTE acquire
meets no record that is not drained (R237). -/
structure Orderly (i : Ix) (so : ScopeOrder) (write : Bool) (size : Nat) (va : Nat → Nat) : Prop where
  hold    : ∀ e ∈ i.x.pseq, e.tgt = i.here → i.s.pendingTo e.src e.tgt e.seq = false
  late    : i.s.lateAt i.x.gc = false
  release : Released i so
  room    : write = true → (i.relMark so).isSome = true → i.s.recordsFull i.here (lanesOf i.g).length = false
  promote : so.promote = true → ∀ r ∈ i.recordsAt (fun l => i.pa (va l)) size i.g,
    (i.s.core r.gc).drainedTo r.count = true

/-- No order holds a posted packet back: no stall hint is active toward a target (R290), no packet of another source of the
fragment is pending toward one, nor any toward the hearth where it stands when it has `n` local writes to make there, and no local store
that its core has accepted is then still to be applied (R224, R226), a release finds what it waits for done (R230), and
the records of its `n` local writes find room (R236). -/
structure MayPost (i : Ix) (so : ScopeOrder) (tgts : List Nat) (n : Nat) : Prop where
  hints   : i.x.hinted.contains (i.e.prio, i.e.pc) = true ∨
    ∀ h ∈ (i.s.core i.x.gc).hints, tgts.contains h.target = true → h.deadline ≤ i.s.now
  sources : ∀ e ∈ i.x.pseq, (if n = 0 then tgts else i.here :: tgts).contains e.tgt = true → (e.src ≠ i.x.src ∨ e.tgt = i.here) →
    i.s.pendingTo e.src e.tgt e.seq = false
  late    : n ≠ 0 → i.s.lateAt i.x.gc = false
  release : Released i so
  room    : (i.relMark so).isSome = true → i.s.recordsFull i.here n = false

/-- Everything but what a memory instruction writes is as before: the bytes `stored` of memory and `spad` of scratchpads with
the marks of their words, the destinations `ds` in the guard-true lanes, the issuing fragment's frontier, pending register
writes, drain mark, the counts of releases it has read, hint, back-off and pause, the release records, the waiters on stored bytes, and counters. -/
structure KeptMem (s t : State) (i : Ix) (ds : List (Opnd × Nat)) (stored : Nat → Prop) (spad : Nat → Nat → Prop) : Prop where
  memory : ∀ a, ¬ stored a → t.byte a = s.byte a
  marks  : ∀ w, (∀ a, stored a → a / 4 ≠ w) → t.mark w = s.mark w
  frags  : ∀ f, f ≠ i.f →
    { t.frag f with entries := (s.frag f).entries, frozen := (s.frag f).frozen } = s.frag f ∧
    ((∀ a, ¬ stored a) → t.frag f = s.frag f)
  hoists : ∀ k, k ≠ i.x.hoist → t.hoist k = s.hoist k
  elems  : ∀ a l, l < 32 → ¬ Written i ds a l →
    (t.hoist i.x.hoist).elem a l = (s.hoist i.x.hoist).elem a l ∧
    (t.hoist i.x.hoist).elemMark a l = (s.hoist i.x.hoist).elemMark a l
  preds  : ∀ q l, ¬ (i.g.getLsbD l = true ∧ ∃ n, (Opnd.p q, n) ∈ ds) →
    ((t.hoist i.x.hoist).pred q).getLsbD l = ((s.hoist i.x.hoist).pred q).getLsbD l
  masks  : ∀ q : BitVec 4, ¬ (∃ n, (Opnd.m q, n) ∈ ds) →
    Sparse.get 0 (t.hoist i.x.hoist).masks q.toNat = Sparse.get 0 (s.hoist i.x.hoist).masks q.toNat
  bits   : ∀ q : BitVec 4,
    (¬ (∃ n, (Opnd.p q, n) ∈ ds) →
      (t.hoist i.x.hoist).pmarks.getLsbD q.toNat = (s.hoist i.x.hoist).pmarks.getLsbD q.toNat) ∧
    (¬ (∃ n, (Opnd.m q, n) ∈ ds) →
      (t.hoist i.x.hoist).mmarks.getLsbD q.toNat = (s.hoist i.x.hoist).mmarks.getLsbD q.toNat)
  hoist  : { t.hoist i.x.hoist with
               vregs := (s.hoist i.x.hoist).vregs, vpoison := (s.hoist i.x.hoist).vpoison,
               preds := (s.hoist i.x.hoist).preds, masks := (s.hoist i.x.hoist).masks,
               pmarks := (s.hoist i.x.hoist).pmarks, mmarks := (s.hoist i.x.hoist).mmarks } = s.hoist i.x.hoist
  sregs  : ∀ q : BitVec 6, ¬ (∃ n, (Opnd.s q, n) ∈ ds) →
    (t.frag i.f).sreg q.toNat = (s.frag i.f).sreg q.toNat ∧
    (t.frag i.f).spoison.getLsbD q.toNat = (s.frag i.f).spoison.getLsbD q.toNat
  frag   : { t.frag i.f with
               entries := (s.frag i.f).entries, frozen := (s.frag i.f).frozen, atEnd := (s.frag i.f).atEnd,
               rep := (s.frag i.f).rep, repc := (s.frag i.f).repc, sregs := (s.frag i.f).sregs,
               spoison := (s.frag i.f).spoison, vabsent := (s.frag i.f).vabsent, sabsent := (s.frag i.f).sabsent,
               fills := (s.frag i.f).fills, vempty := (s.frag i.f).vempty, sempty := (s.frag i.f).sempty,
               drain := (s.frag i.f).drain, seen := (s.frag i.f).seen, hinted := (s.frag i.f).hinted, backoff := (s.frag i.f).backoff,
               pause := (s.frag i.f).pause } = s.frag i.f
  casts  : ∀ c, { t.cast c with spad := (s.cast c).spad, spoison := (s.cast c).spoison } = s.cast c
  spads  : ∀ c a, ¬ spad c a → Sparse.get (0 : Byte) (t.cast c).spad a = Sparse.get (0 : Byte) (s.cast c).spad a
  smarks : ∀ c w, (∀ a, spad c a → a / 4 ≠ w) → (t.cast c).smark w = (s.cast c).smark w
  cores  : ∀ c, { t.core c with counters := (s.core c).counters, records := (s.core c).records } = s.core c
  hearths : ∀ g, { t.hearth g with records := (s.hearth g).records } = s.hearth g
  rest   : { t with mem := s.mem, marks := s.marks, frags := s.frags, hoists := s.hoists, casts := s.casts,
                    cores := s.cores, hearths := s.hearths } = s

/-- Nothing is stored. -/
def nothing : Nat → Prop := fun _ => False
/-- No scratchpad byte is stored. -/
def nowhere : Nat → Nat → Prop := fun _ _ => False

/-- The bytes that the guard-true lanes store: `size` bytes at `at_ l` for each lane. -/
def laneBytes (i : Ix) (size : Nat) (at_ : Nat → Nat) : Nat → Prop :=
  fun a => ∃ l, i.g.getLsbD l = true ∧ at_ l ≤ a ∧ a < at_ l + size

/-- The destination receives the results `r`: at once for a predicate or a mask, and otherwise when the register write that
is still to come is made (R60). -/
def Loads (s t : State) (i : Ix) (d : Opnd) (ty : Ty) (r : Nat → Val) : Prop :=
  (s.frag i.f).fills = [] → Gets (t.applyFill i.f) i d ty r

/-- The value that the low `n` bytes of `v` leave at address `at_`, byte by byte (R5). -/
def Holds (t : State) (at_ n : Nat) (v : DWord) : Prop := ∀ k, k < n → t.byte (at_ + k) = BitVec.ofNat 8 (v.toNat / 256 ^ k)

/-- The lanes below `l` that access the same address, in ascending order: what a read-modify-write of lane `l` follows. -/
def earlier (i : Ix) (at_ : Nat → Nat) (l : Nat) : List Nat :=
  (lanesOf i.g).filter fun m => decide (m < l ∧ at_ m = at_ l)

/-- A scratchpad access may take effect: lanes are guard-true and their sources readable, each offset is aligned and inside
the cast's allocation (R214, R219), the fragment stands at its anchor (R213), no accepted matrix instruction of the hoist
holds the bytes (R190), and no order holds the access back (R230, R236, R237). -/
structure SpadOk (i : Ix) (us : List Use) (o : Ops) (so : ScopeOrder) (size : Nat) (write : Bool) (at_ : Nat → Nat)
    (ofs : Nat → Int) : Prop where
  lanes   : i.g ≠ 0
  reads   : Readable i us i.g
  aligned : ∀ l, i.g.getLsbD l = true → ofs l % size = 0
  bounds  : ∀ l, i.g.getLsbD l = true → 0 ≤ ofs l ∧ ofs l + size ≤ (i.s.spadBytes (i.s.castOf i.x) : Int)
  anchor  : i.s.atAnchor i.x = true
  free    : ∀ l, i.g.getLsbD l = true → i.s.tileHeld i.x.hoist write (at_ l) size = false
  release : Released i so
  room    : write = true → (i.relMark so).isSome = true → i.s.spadFull i.x.gc (lanesOf i.g).length = false
  promote : so.promote = true → ∀ r ∈ (i.s.core i.x.gc).records,
    (∃ l, i.g.getLsbD l = true ∧ meets r.pa r.size (spadKey (i.s.castOf i.x) (at_ l)) size = true) →
    (i.s.core r.gc).drainedTo r.count = true

/-- No lane above `l` stores to a byte of lane `l`. -/
def LastWriter (i : Ix) (size : Nat) (at_ : Nat → Nat) (l : Nat) : Prop :=
  ∀ m, i.g.getLsbD m = true → l < m → at_ m + size ≤ at_ l ∨ at_ l + size ≤ at_ m

/-! ### The frontier -/

/-- The lanes that entries hold at a priority and PC. -/
def lanesAt (es : List Entry) (prio : BitVec 8) (pc : DWord) : LaneMask :=
  entryLanes (es.filter fun e => decide (e.prio = prio ∧ e.pc = pc))

/-- The lanes of the entry `e` have left it, each for the priority and PC that `to_` gives it, if any; lanes that meet at one
pair are in one place (R34), and every other lane is where it was. -/
def Frontier (before after : List Entry) (e : Entry) (to_ : Nat → Option (BitVec 8 × DWord)) : Prop :=
  ∀ p pc l, (lanesAt after p pc).getLsbD l =
    ((lanesAt (before.erase e) p pc).getLsbD l || (e.mask.getLsbD l && decide (to_ l = some (p, pc))))

/-- Only the frontier, the loop stack and the repeat counter of the issuing fragment, and counters, have changed. -/
structure Steered (s t : State) (i : Ix) : Prop where
  frags : ∀ f, f ≠ i.f → t.frag f = s.frag f
  frag  : { t.frag i.f with
              entries := (s.frag i.f).entries, atEnd := (s.frag i.f).atEnd, loops := (s.frag i.f).loops,
              rep := (s.frag i.f).rep, repc := (s.frag i.f).repc } = s.frag i.f
  cores : ∀ c, { t.core c with counters := (s.core c).counters } = s.core c
  rest  : { t with frags := s.frags, cores := s.cores } = s

/-- No loop of the fragment ends at the instruction (R343). -/
def InBody (i : Ix) : Prop := ∀ lp ∈ i.x.loops, lp.stop ≠ i.e.pc

/-- In debug mode no lane goes forward to a higher priority (R112). -/
def NoPrio (i : Ix) (lanes : LaneMask) (pri : BitVec 8) (target : Nat → DWord) : Prop :=
  i.s.debug i.x = true → ∀ l, lanes.getLsbD l = true → i.e.pc.toNat < (target l).toNat → pri.toNat ≤ i.e.prio.toNat

/-- The lanes of G go to the places of `to_`, and the others of the entry to the next PC (R331). -/
def forks (i : Ix) (to_ : Nat → BitVec 8 × DWord) (l : Nat) : Option (BitVec 8 × DWord) :=
  some (if i.g.getLsbD l then to_ l else (i.e.prio, i.next))

/-- The window base of the lanes of G has become `base` (R339): the whole fragment shifts when they are its whole frontier,
and otherwise they are a new fragment in the same slot with copies of the scalars, the loop stack, the repeat counter and the
posted-sequence entries. -/
structure Shifted (s t : State) (i : Ix) (base : Nat) (to_ : Nat → BitVec 8 × DWord) : Prop where
  whole : i.x.frontier = i.g → (t.frag i.f).wbase = base ∧ (t.frag i.f).lanes = i.x.lanes ∧
    Frontier i.x.entries (t.frag i.f).entries i.e (forks i to_)
  old   : i.x.frontier ≠ i.g → i.f ≠ s.nextFrag → (t.frag i.f).wbase = i.x.wbase ∧
    (t.frag i.f).lanes = i.x.lanes &&& ~~~i.g ∧
    Frontier i.x.entries (t.frag i.f).entries i.e fun l => if i.g.getLsbD l then none else some (i.e.prio, i.next)
  new   : i.x.frontier ≠ i.g → i.f ≠ s.nextFrag →
    let y := t.frag s.nextFrag
    y.live = i.x.live ∧ y.hoist = i.x.hoist ∧ y.place = i.x.place ∧ y.lanes = i.g ∧ y.wbase = base ∧
    y.sregs = i.x.sregs ∧ y.loops = i.x.loops ∧ y.repc = i.x.repc ∧ y.pseq = i.x.pseq ∧
    (∀ p pc l, (lanesAt y.entries p pc).getLsbD l = (i.g.getLsbD l && decide (to_ l = (p, pc)))) ∧
    (t.hoist i.x.hoist).split = true ∧ t.nextFrag = s.nextFrag + 1
  frags : ∀ f, f ≠ i.f → f ≠ s.nextFrag → t.frag f = s.frag f
  hoists : ∀ k, k ≠ i.x.hoist → t.hoist k = s.hoist k
  rest  : { t with frags := s.frags, hoists := s.hoists, cores := s.cores, nextFrag := s.nextFrag } = s

/-- Taking a trap (R394): the trap registers hold the cause, the PC, the lanes and the address, the other entries are set
aside, and one entry at the handler's address with priority 0xFF holds the lanes of the issuing entry; nothing else changes. -/
def Enters (s t : State) (i : Ix) (cause : BitVec 8) (addr : DWord) (lanes : LaneMask) : Prop :=
  t = s.setFrag i.f { i.x with
    trap := some { cause := cause.setWidth 32, pc := i.e.pc, pc0 := i.e.pc, prio0 := i.e.prio, lanes, addr, prio := i.e.prio,
                   em := i.e.mask, scr0 := 0, scr1 := 0, scr2 := 0, scr3 := 0 }
    frozen := (t.frag i.f).frozen, frozenEnd := i.x.atEnd, atEnd := []
    entries := [{ prio := 0xFF, pc := (s.trapEnt i.x).handler &&& ~~~3, mask := i.e.mask, wait := none }] } ∧
  Frontier i.x.entries (t.frag i.f).frozen i.e fun _ => none

/-- The fragment can take a trap: it is not in handler mode, and its context names a handler, at a multiple of 4 (R76, R395). -/
def Trappable (i : Ix) : Prop := i.x.trap = none ∧ (i.s.trapEnt i.x).handler &&& ~~~3 ≠ 0

/-- An instruction that changes its hoist's and its fragment's state and no memory. -/
structure KeptBytes (s t : State) : Prop where
  memory : ∀ a, t.byte a = s.byte a
  marks  : ∀ w, t.mark w = s.mark w

/-- Memory outside the parking areas of the hearths (R432) is as before. -/
structure KeptOutside (s t : State) : Prop where
  memory : ∀ a, (paOfs a < 0xBC0000000 ∨ 0xBF0000000 ≤ paOfs a) → t.byte a = s.byte a
  marks  : ∀ w, (paOfs (4 * w) < 0xBC0000000 ∨ 0xBF0000000 ≤ paOfs (4 * w)) → t.mark w = s.mark w

/-! ### Matrix instructions -/

/-- A context instruction may be accepted on context `k`: lanes are guard-true, the fragment stands at its anchor, the cast
holds the context, which follows no other, and its queue has a free place (R181, R182). -/
structure CtxOk (i : Ix) (k : Bool) : Prop where
  lanes  : i.g ≠ 0
  anchor : i.s.atAnchor i.x = true
  holds  : i.s.holdsCtx (i.s.castOf i.x) k = true
  free   : ((i.s.cast (i.s.castOf i.x)).ctx k).follows = none
  room   : ((i.s.cast (i.s.castOf i.x)).ctx k).queue.length < 2

/-- A tile may be used (R187, R188, R190): its stride and alignment are good, it lies in the allocation of its cast, which is
the own cast unless the descriptor names a peer of the gang, and no accepted instruction of the hoist holds it. -/
structure TileOk (i : Ix) (d : DWord) (y : Layout) (write : Bool) : Prop where
  stride : tileStride d ≠ 0 ∧ y.l ≤ tileStride d
  align  : tileOfs d % 64 = 0
  inside : tileEnd d y ≤ (i.s.pour (i.s.cast (i.s.castOf i.x)).pour).spad
  peer   : if tilePv d then write = false ∧ tilePeer d < (i.s.pour (i.s.cast (i.s.castOf i.x)).pour).gangSize
           else tilePeer d = 0
  held   : (tilePv d = true ∧ i.s.peerOf (i.s.castOf i.x) (tilePeer d) ≠ i.s.castOf i.x) ∨
           i.s.tileHeld i.x.hoist write (tileOfs d) (tileEnd d y - tileOfs d) = false

/-- Every guard-true lane gives the format word `w`, which names a legal combination (R189). -/
def Votes (i : Ix) (o : Opnd) (w : Word) : Prop :=
  (∀ l, i.g.getLsbD l = true → lo (i.read o .w32 l).bits = w) ∧ fmtLegal w = true

/-- The context with one more accepted instruction (R182), kept in its F128 form with the values of its sources (R404); `mate` is its
other half when it is paired (R197). -/
def queued (m : MCtx) (op : MOp) (saved : MWord) (hk : Nat) (mate : Option (Bool × Nat × Bool) := none) : MCtx :=
  { m with
    queue := m.queue ++ [{ op, saved, hoist := hk, num := m.accepted, running := false, posted := none, a := .none, b := .none, mate }]
    accepted := m.accepted + 1 }

/-- The instruction has been accepted on context `k` of the fragment's cast, the lanes have gone on, and nothing else has
changed but counters, the destination of ARD, which is empty, and the drain mark under the release of AMRG. -/
structure Accepted (s t : State) (i : Ix) (k : Bool) (op : MOp) (saved : MWord) : Prop where
  queue : t.cast (s.castOf i.x) =
    (s.cast (s.castOf i.x)).setCtx k (queued ((s.cast (s.castOf i.x)).ctx k) op saved i.x.hoist)
  casts : ∀ c, c ≠ s.castOf i.x → t.cast c = s.cast c
  went  : WentOn s t i
  frags : ∀ f, f ≠ i.f → t.frag f = s.frag f
  frag  : { t.frag i.f with
              entries := (s.frag i.f).entries, atEnd := (s.frag i.f).atEnd, rep := (s.frag i.f).rep,
              repc := (s.frag i.f).repc, drain := (s.frag i.f).drain, vempty := (s.frag i.f).vempty } = s.frag i.f
  full  : (∀ ty r p w l m, op ≠ .ard ty r p w l m) → (t.frag i.f).vempty = (s.frag i.f).vempty
  drain : (∀ r w so p n, op ≠ .amrg r w so p n) → (t.frag i.f).drain = (s.frag i.f).drain
  cores : ∀ c, { t.core c with counters := (s.core c).counters } = s.core c
  rest  : { t with frags := s.frags, casts := s.casts, cores := s.cores } = s

/-! ### Queues -/

/-- A bound queue's ring is in order (R64): its capacity is a power of two of at most 16 bits, its elements lie at whole words,
and its counters are 32 bits wide and no further apart than the capacity. -/
structure RingOk (x : Queue) : Prop where
  cap   : x.cap ∣ 2 ^ 32
  size  : 0 < x.cap
  base  : x.base % 8 = 0
  head  : x.head < 2 ^ 32
  tail  : x.tail < 2 ^ 32
  count : x.count ≤ x.cap

/-- The elements that a queue holds, in the order in which they were pushed (R67). -/
def contents (c : Cast) (q : Nat) : List Val := c.heads q (c.queue q).count

/-- A value as an element of `n` bytes, with a mark for each of its words (R417). -/
def elementOf (n : Nat) (v : Val) : Val :=
  let bits := BitVec.ofNat 64 (v.bits.toNat % 256 ^ n)
  if n = 8 then Val.pair bits v.lo v.hi else { bits, poison := v.lo }

/-- A push or a pop of `n` elements of `sz` bytes is allowed on a queue (R65, R66). -/
def Allows (x : Queue) (kinds : List Nat) (sz n : Nat) : Prop := x.kind ∈ kinds ∧ x.esize = sz ∧ n ≤ x.cap

/-- No accepted matrix instruction of the hoist holds the bytes of `n` elements of a queue from ring position `k` (R190). -/
def RingFree (i : Ix) (write : Bool) (x : Queue) (k n : Nat) : Prop :=
  ∀ j, j < n → i.s.tileHeld i.x.hoist write (x.slot (k + j)) x.esize = false

/-- The issue of a command for an engine finds what its release waits for done (R239): at the core's scope for a copy and a bank
command, and at DOMAIN for a collective. -/
def IssueFree (i : Ix) (e : Engine) : Prop := (if e = .coll then i.s.performed i.x else i.s.coreDone i.x) = true

/-- Only the issuing fragment, its cast, counters and the records of releases have changed. -/
structure KeptQueue (s t : State) (i : Ix) : Prop where
  frags : ∀ f, f ≠ i.f → t.frag f = s.frag f
  casts : ∀ c, c ≠ s.castOf i.x → t.cast c = s.cast c
  cores : ∀ c, { t.core c with counters := (s.core c).counters, records := (s.core c).records } = s.core c
  rest  : { t with frags := s.frags, hoists := s.hoists, casts := s.casts, cores := s.cores } = s

/-! ### Packets -/

/-- The posted packet `p` has been applied, or refused, at its home, which keeps its number and acknowledges it last
(R275). -/
structure Answers (t : State) (p : Packet) (refused : Bool) : Prop where
  number : Sparse.get 0 (t.hearth p.tgt).applied p.src = p.seq
  ack    : ∃ q, t.net.getLast? = some q ∧ q.src = tgtSrc p.tgt ∧ q.tgt = srcPlace p.src ∧ q.ctx = p.ctx ∧
             q.body = .ack p.src p.tgt p.seq refused

/-- A byte that one of the writes stores. -/
def StoredBytes (ws : List WriteOp) (a : Nat) : Prop := ∃ w ∈ ws, w.pa ≤ a ∧ a < w.pa + w.size

/-- Only the bytes `stored` and their marks, the waiters on them, what a home keeps of packets, and the packets in flight have
changed. -/
structure OnlyMemory (s t : State) (stored : Nat → Prop) : Prop where
  memory : ∀ a, ¬ stored a → t.byte a = s.byte a
  marks  : ∀ w, (∀ a, stored a → a / 4 ≠ w) → t.mark w = s.mark w
  frags  : ∀ f, { t.frag f with entries := (s.frag f).entries, frozen := (s.frag f).frozen } = s.frag f
  rest   : t.hoists = s.hoists ∧ t.casts = s.casts ∧ t.pours = s.pours ∧ t.cores = s.cores ∧ t.pkgs = s.pkgs ∧ t.cmds = s.cmds

/-- The packet at position `n` left the fabric, and `q` is the only one that has joined it. -/
def Replies (s t : State) (n : Nat) (q : Packet) : Prop := t.net = s.net.eraseIdx n ++ [q]

/-! ### Steps -/

/-- An entry of core `gc` issues after a clock has passed: the state names it, the turn has left the agenda, and on its core the active set,
the times and the energy of issues, and the blocks of code that the core keeps may have changed. `s` is the state after the clock. -/
structure Issues (s t : State) (gc : Nat) (ts : List Turn) (is : Issue) : Prop where
  named  : t.iss = is
  agenda : t.agenda = ts
  cores  : ∀ c, { t.core c with active := (s.core c).active, activeAt := (s.core c).activeAt,
                                readyAt := (s.core c).readyAt, swapped := (s.core c).swapped,
                                issuedAt := (s.core c).issuedAt, issued := (s.core c).issued,
                                spent := (s.core c).spent, icache := (s.core c).icache, icbad := (s.core c).icbad } = s.core c
  others : ∀ c, c ≠ gc → c ≠ (s.frag is.frag).gc → t.core c = s.core c
  rest   : { t with iss := s.iss, agenda := s.agenda, cores := s.cores } = s

/-- The entry `e` that `is` names issues the instruction that `bytes`, the code from its PC to the end of the block, begin
with: the instruction itself, or its repetition under REP (R344, R345), which raises ILLEGAL where the instruction may not be repeated,
and WINDOW outside the window; bytes that begin with no instruction raise ILLEGAL (R97).
What follows an issue comes after it: the bytes of its own stack that the instruction has moved are counted (R360), a walk that the
entry now waits for is queued once (R384), and the turn ends as `fin` says. -/
def Runs (r : Host.Outcome State Fault Refusal) (t : State) (fin : State → State) (x : Frag) (is : Issue) (e : Entry)
    (bytes : List Byte) : Prop :=
  let st := Strides.ofByte (x.repc.toNat / 2 ^ 24)
  let k := x.repc.toNat % 256
  let after (u : State) : State := fin (u.afterIssue is)
  let traps (c : BitVec 8) : Prop := r = .next (after ((t.dropPins is.frag is.prio is.pc).raise is.frag e c 0 e.mask))
  (∀ n, decode bytes = .ok n → x.repeats is.prio is.pc = false → r = onNext (exec n t) fun u => after (t.bare.countAccess n u)) ∧
  (∀ n, decode bytes = .ok n → x.repeats is.prio is.pc = true →
    (repeatable n st = false → traps 0x01) ∧ (repeatable n st = true → repInWindow n st k = false → traps Cause.window) ∧
    (repeatable n st = true → repInWindow n st k = true →
      (∀ m, repetition n st k = .ok m → r = onNext (exec m t) fun u => after (t.bare.countAccess m u)) ∧
      (∀ err, repetition n st k = .error err → traps 0x01))) ∧
  (∀ err, decode bytes = .error err → traps 0x01)

/-- The instructions that may raise ILLEGAL for their whole entry whatever its guard: those that name a system register, the
privileged ones (R391, R398), and REP, which looks at the instruction that follows it (R345). -/
def maybeIllegal : Instr → Bool
  | .movs .. | .movspRead .. | .movspWrite .. | .rft .. | .tlbinv .. | .icinv .. | .govset .. | .errrd .. | .halt ..
  | .preq .. | .kill .. | .rep .. => true
  | _ => false

end Sys2Proof.Claims

namespace Sys2Proof.Machine

/-- (−1)^neg × m × 2^e as a rational number. -/
def FV.ratOf (neg : Bool) (m : Nat) (e : Int) : ℚ := (if neg then -1 else 1) * m * (2 : ℚ) ^ e

/-- A finite value as a rational number. -/
def FV.rat : FV → Option ℚ
  | .fin neg m e => some (FV.ratOf neg m e)
  | _ => none

end Sys2Proof.Machine
end

