-- ==== Sys2Proof/Certificates/Slice0/Obligations.lean ====
section
/-! DEFINITION. The statements of this model for the provers, one for each group of instructions, events and rules. A clause
that rests on a choice or a reading of the model, and not on a rule, names the entry of the assumption log. -/

section Statements

open Sys2Proof Sys2Proof.Machine Sys2Proof.Claims

/-- O1. R141, R143: the integer arithmetic instructions, over the integers that the types name (R138). R138: Val, Wrap, Clamp and
Fit of the integer types, as the integers they stand for. -/
def Obligations.IntegerArithmetic : Prop :=
  (
  (∀ h o t sat, Computes (.iadd h o t sat) h o .w32 .w32 .w32 t fun a b _ => fit t sat (intVal t a + intVal t b)) ∧
  (∀ h o t sat, Computes (.isub h o t sat) h o .w32 .w32 .w32 t fun a b _ => fit t sat (intVal t a - intVal t b)) ∧
  (∀ h o t sat, Computes (.ineg h o t sat) h o .w32 .w32 .w32 t fun a _ _ => fit t sat (0 - intVal t a)) ∧
  (∀ h o t sat, Computes (.iabs h o t sat) h o .w32 .w32 .w32 t fun a _ _ => fit t sat |intVal t a|) ∧
  (∀ h o t, Computes (.imin h o t) h o .w32 .w32 .w32 t fun a b _ =>
    wrapTy t (if intVal t a ≤ intVal t b then intVal t a else intVal t b)) ∧
  (∀ h o t, Computes (.imax h o t) h o .w32 .w32 .w32 t fun a b _ =>
    wrapTy t (if intVal t a ≤ intVal t b then intVal t b else intVal t a)) ∧
  (∀ h o t, Computes (.iclamp h o t) h o .w32 .w32 .w32 t fun a b c =>
    wrapTy t (min (max (intVal t a) (intVal t b)) (intVal t c))) ∧
  (∀ h o t, t = .i32 ∨ t = .n32 → Computes (.imul h o t) h o .w32 .w32 .w32 t fun a b _ => up (lo a * lo b)) ∧
  (∀ h o t, t = .i32 ∨ t = .n32 → Computes (.imad h o t) h o .w32 .w32 .w32 t fun a b c => up (lo a * lo b + lo c)) ∧
  (∀ h o, Computes (.imulhi h o .n32) h o .w32 .w32 .w32 .n32 fun a b _ =>
    up (((lo a).setWidth 64 * (lo b).setWidth 64 : DWord).extractLsb' 32 32)) ∧
  (∀ h o, Computes (.imulhi h o .i32) h o .w32 .w32 .w32 .i32 fun a b _ =>
    up (((lo a).signExtend 64 * (lo b).signExtend 64 : DWord).extractLsb' 32 32)) ∧
  (∀ h o, Computes (.imul24 h o .n24 false) h o .w32 .w32 .w32 .n32 fun a b _ =>
    up ((a.setWidth 24 : BitVec 24).setWidth 32 * (b.setWidth 24 : BitVec 24).setWidth 32)) ∧
  (∀ h o, Computes (.imul24 h o .i24 false) h o .w32 .w32 .w32 .i32 fun a b _ =>
    up ((a.setWidth 24 : BitVec 24).signExtend 32 * (b.setWidth 24 : BitVec 24).signExtend 32)) ∧
  (∀ h o, Computes (.imul24 h o .n24 true) h o .w32 .w32 .w32 .n32 fun a b _ =>
    up (((a.setWidth 24 : BitVec 24).setWidth 48 * (b.setWidth 24 : BitVec 24).setWidth 48 : BitVec 48).extractLsb' 16 32)) ∧
  (∀ h o, Computes (.imul24 h o .i24 true) h o .w32 .w32 .w32 .i32 fun a b _ =>
    up (((a.setWidth 24 : BitVec 24).signExtend 48 * (b.setWidth 24 : BitVec 24).signExtend 48 : BitVec 48).extractLsb' 16 32)) ∧
  (∀ h o, Computes (.imad24 h o .n24) h o .w32 .w32 .w32 .n32 fun a b c =>
    up ((a.setWidth 24 : BitVec 24).setWidth 32 * (b.setWidth 24 : BitVec 24).setWidth 32 + lo c)) ∧
  (∀ h o, Computes (.imad24 h o .i24) h o .w32 .w32 .w32 .i32 fun a b c =>
    up ((a.setWidth 24 : BitVec 24).signExtend 32 * (b.setWidth 24 : BitVec 24).signExtend 32 + lo c)) ∧
  (∀ h o t, Computes (.isad h o t) h o .w32 .w32 .w32 (if Ty.signed t then .i32 else .n32) fun a b c =>
    BitVec.ofInt 64 ((|intVal t a - intVal t b| + (lo c).toNat) % 2 ^ 32)) ∧
  (∀ h o sa sb sat, Computes (.idot4 h o sa sb sat) h o .w32 .w32 .w32 .i32 fun a b c =>
    let byte (x : DWord) (k : Nat) (signed : Bool) : Int :=
      if signed then (x.extractLsb' (8 * k) 8).toInt else (x.extractLsb' (8 * k) 8).toNat
    fit .i32 sat ((lo c).toInt + byte a 0 sa * byte b 0 sb + byte a 1 sa * byte b 1 sb + byte a 2 sa * byte b 2 sb +
      byte a 3 sa * byte b 3 sb))
  ) ∧
  (
  ∀ t ∈ [Ty.i8, .n8, .i16, .n16, .i24, .n24, .i32, .n32, .i64, .n64],
    (∀ x, tyMin t ≤ intVal t x ∧ intVal t x ≤ tyMax t) ∧
    (∀ x, (intVal t (fit t false x) - x) % 2 ^ t.bits = 0) ∧
    (∀ x, tyMin t ≤ x → x ≤ tyMax t → ∀ sat, intVal t (fit t sat x) = x) ∧
    (∀ x, x < tyMin t → intVal t (fit t true x) = tyMin t) ∧
    (∀ x, tyMax t < x → intVal t (fit t true x) = tyMax t)
  )

/-- O2. R142: IADDC and ISUBB take the carry or borrow from predicate C, treat A and B as unsigned 32-bit values, and write the
carry or borrow out to D2. -/
def Obligations.CarryInstructions : Prop :=
  ∀ h o t, t = .i32 ∨ t = .n32 → ∀ s : State, Able (Ix.of s h) (uses3 h o .w32 .w32 .w32) o.d 1 →
    let i := Ix.of s h
    let a (l : Nat) : Nat := (lo (i.read o.a .w32 l).bits).toNat
    let b (l : Nat) : Nat := (lo (i.read o.b .w32 l).bits).toNat
    let c (l : Nat) : Nat := if (i.predOf o.c).getLsbD l then 1 else 0
    let mark (l : Nat) : Bool := (i.read o.a .w32 l).poison || (i.read o.b .w32 l).poison || i.bitMark o.c
    (∃ u, exec (.iaddc h o t) s = .next u ∧
      (o.d ≠ o.d2 → Gets u i o.d t fun l => { bits := BitVec.ofNat 64 ((a l + b l + c l) % 2 ^ 32), poison := mark l }) ∧
      GetsPred u i o.d2 (fun l => decide (2 ^ 32 ≤ a l + b l + c l)) ∧ Kept s u i [(o.d, 1), (o.d2, 1)] ∧ WentOn s u i) ∧
    (∃ u, exec (.isubb h o t) s = .next u ∧
      (o.d ≠ o.d2 → Gets u i o.d t fun l =>
        { bits := BitVec.ofInt 64 (((a l : Int) - b l - c l) % 2 ^ 32), poison := mark l }) ∧
      GetsPred u i o.d2 (fun l => decide (a l < b l + c l)) ∧ Kept s u i [(o.d, 1), (o.d2, 1)] ∧ WentOn s u i)

/-- O3. R144, R145: the logic instructions and the shifts, as operations on bit vectors of the width. R144, R146: the bit-field
and bit-count instructions, bit by bit. -/
def Obligations.LogicShiftsAndBitFields : Prop :=
  (
  (∀ h o w, Computes (.and h o w) h o (.bw w) (.bw w) (.bw w) (bwTy w) fun a b _ => a &&& b) ∧
  (∀ h o w, Computes (.or h o w) h o (.bw w) (.bw w) (.bw w) (bwTy w) fun a b _ => a ||| b) ∧
  (∀ h o w, Computes (.xor h o w) h o (.bw w) (.bw w) (.bw w) (bwTy w) fun a b _ => a ^^^ b) ∧
  (∀ h o w, Computes (.not h o w) h o (.bw w) (.bw w) (.bw w) (bwTy w) fun a _ _ => ~~~a) ∧
  (∀ h o w, Computes (.andn h o w) h o (.bw w) (.bw w) (.bw w) (bwTy w) fun a b _ => a &&& ~~~b) ∧
  (∀ h o w f, ∃ g : DWord → DWord → DWord → DWord, Computes (.bool3 h o w f) h o (.bw w) (.bw w) (.bw w) (bwTy w) g ∧
    ∀ a b c k, k < 64 → (g a b c).getLsbD k =
      f.getLsbD ((if a.getLsbD k then 1 else 0) + (if b.getLsbD k then 2 else 0) + (if c.getLsbD k then 4 else 0))) ∧
  (∀ h o wrap, Computes (.shl h o wrap) h o .w32 .w32 .w32 .b32 fun a b _ =>
    up (lo a <<< (if wrap then (lo b).toNat % 32 else (lo b).toNat))) ∧
  (∀ h o wrap, Computes (.shr h o wrap) h o .w32 .w32 .w32 .b32 fun a b _ =>
    up (lo a >>> (if wrap then (lo b).toNat % 32 else (lo b).toNat))) ∧
  (∀ h o wrap, Computes (.sar h o wrap) h o .w32 .w32 .w32 .b32 fun a b _ =>
    up ((lo a).sshiftRight (if wrap then (lo b).toNat % 32 else (lo b).toNat))) ∧
  (∀ h o, Computes (.rotl h o) h o .w32 .w32 .w32 .b32 fun a b _ => up ((lo a).rotateLeft ((lo b).toNat % 32))) ∧
  (∀ h o, Computes (.funnel h o true) h o .w32 .w32 .w32 .b32 fun a b c =>
    up (((lo c ++ lo a : DWord) <<< ((lo b).toNat % 32)).extractLsb' 32 32)) ∧
  (∀ h o, Computes (.funnel h o false) h o .w32 .w32 .w32 .b32 fun a b c =>
    up (((lo c ++ lo a : DWord) >>> ((lo b).toNat % 32)).setWidth 32)) ∧
  (∀ h o wrap, Computes (.shl64 h o wrap) h o (.of .b64) (.of .b64) .w32 .b64 fun a b _ =>
    a <<< (if wrap then (lo b).toNat % 64 else (lo b).toNat)) ∧
  (∀ h o wrap, Computes (.shr64 h o wrap false) h o (.of .b64) (.of .b64) .w32 .b64 fun a b _ =>
    a >>> (if wrap then (lo b).toNat % 64 else (lo b).toNat)) ∧
  (∀ h o wrap, Computes (.shr64 h o wrap true) h o (.of .b64) (.of .b64) .w32 .b64 fun a b _ =>
    a.sshiftRight (if wrap then (lo b).toNat % 64 else (lo b).toNat))
  ) ∧
  (
  (∀ h o, ∃ g : DWord → DWord → DWord → DWord, Computes (.bfe h o false) h o .w32 .w32 .w32 .n32 g ∧
    ∀ a b c, let p := min (b.toNat % 256) 32
             let n := min (b.toNat / 256 % 256) 32
             ∀ k, k < 32 → (g a b c).getLsbD k = (decide (k < n) && (lo a).getLsbD (p + k))) ∧
  (∀ h o, ∃ g : DWord → DWord → DWord → DWord, Computes (.bfe h o true) h o .w32 .w32 .w32 .i32 g ∧
    ∀ a b c, let p := min (b.toNat % 256) 32
             let n := min (b.toNat / 256 % 256) 32
             ∀ k, k < 32 → (g a b c).getLsbD k =
               (decide (n ≠ 0) && (lo a).getLsbD (min (p + (if k < n then k else n - 1)) 31))) ∧
  (∀ h o, ∃ g : DWord → DWord → DWord → DWord, Computes (.bfi h o) h o .w32 .w32 .w32 .b32 g ∧
    ∀ a b c, let p := b.toNat % 256
             let n := b.toNat / 256 % 256
             ∀ k, k < 32 → (g a b c).getLsbD k = if p ≤ k ∧ k < p + n then a.getLsbD (k - p) else c.getLsbD k) ∧
  (∀ h o w, Computes (.popc h o w) h o (.bw w) .w32 .w32 .n32 fun a _ _ =>
    BitVec.ofNat 64 ((List.range (if w then 64 else 32)).countP fun k => a.getLsbD k)) ∧
  (∀ h o w, ∃ g : DWord → Nat, Computes (.clz h o w) h o (.bw w) .w32 .w32 .n32 (fun a _ _ => BitVec.ofNat 64 (g a)) ∧
    ∀ a, let n := if w then 64 else 32
         g a ≤ n ∧ (∀ k, n - g a ≤ k → k < n → a.getLsbD k = false) ∧ (g a < n → a.getLsbD (n - 1 - g a) = true)) ∧
  (∀ h o w, ∃ g : DWord → Nat, Computes (.ctz h o w) h o (.bw w) .w32 .w32 .n32 (fun a _ _ => BitVec.ofNat 64 (g a)) ∧
    ∀ a, let n := if w then 64 else 32
         g a ≤ n ∧ (∀ k, k < g a → a.getLsbD k = false) ∧ (g a < n → a.getLsbD (g a) = true)) ∧
  (∀ h o w, ∃ g : DWord → DWord, Computes (.brev h o w) h o (.bw w) (.bw w) (.bw w) (bwTy w) (fun a _ _ => g a) ∧
    ∀ a k, let n := if w then 64 else 32
           k < n → (g a).getLsbD k = a.getLsbD (n - 1 - k))
  )

/-- O4. R147, R148: moves, selection and 64-bit arithmetic. MOV here has no queue operand. -/
def Obligations.MovesAndWideArithmetic : Prop :=
  (∀ h o w ls, (∀ q, o.d ≠ .q q) → (∀ q, o.a ≠ .q q) →
    Computes (.mov h o w ls) h o (.bw w) (.bw w) (.bw w) (bwTy w) fun a _ _ => a) ∧
  (∀ h o w, Computes (.movi h o w false) h o .w32 (.bw w) .w32 (bwTy w) fun _ b _ => b) ∧
  (∀ h o w, (∃ q, o.d = .s q) ∨ (∃ q, o.d = .v q ∧ q.toNat % 2 = 0) →
    Yields (.movi h o w true) h (fun _ => []) (fun i => i.g) o.d .b64 fun i l =>
      { bits := lo (i.read o.b (.bw true) l).bits ++ lo (i.read o.d (.bw true) l).bits
        poison := (i.read o.d (.bw true) l).poison
        words := match o.d with | .v _ => some ((i.read o.d (.bw true) l).lo, false) | _ => none }) ∧
  (∀ h o w, Yields (.sel h o w) h (fun _ => uses3 h o (.bw w) (.bw w) .w32) (fun i => i.g) o.d (bwTy w) fun i l =>
    { bits := if (i.predOf o.c).getLsbD l then (i.read o.a (.bw w) l).bits else (i.read o.b (.bw w) l).bits
      poison := (i.read o.a (.bw w) l).poison || (i.read o.b (.bw w) l).poison || i.bitMark o.c }) ∧
  (∀ h o t, Computes (.add64 h o t) h o (.of t) (.of t) .w32 t fun a b _ => a + b) ∧
  (∀ h o t, Computes (.sub64 h o t) h o (.of t) (.of t) .w32 t fun a b _ => a - b) ∧
  (∀ h o k, Computes (.lea h o false k) h o (.bw true) .w32 .w32 .b64 fun a b _ => a + (lo b).setWidth 64 <<< k.toNat) ∧
  (∀ h o k, Computes (.lea h o true k) h o (.bw true) .w32 .w32 .b64 fun a b _ => a + (lo b).signExtend 64 <<< k.toNat)

/-- O5. R152, R153, R157, R166, R167, R170: compares and predicate logic write a bit and its complement to two predicates under
the combining type (R87), but for PKCMP, which writes one predicate for each element. -/
def Obligations.ComparesAndPredicates : Prop :=
  (∀ h o t cond p, Tests (.icmp h o t cond p) h o p (uses3 h o .w32 .w32 .w32) (laneBit3 o .w32 .w32 .w32 fun a b _ =>
    Cond.holds cond (intVal t a) (intVal t b))) ∧
  (∀ h o t cond p, Tests (.icmp64 h o t cond p) h o p (uses3 h o (.of t) (.of t) .w32)
    (laneBit3 o (.of t) (.of t) .w32 fun a b _ => Cond.holds cond (intVal t a) (intVal t b))) ∧
  (∀ h o t cond p, Tests (.fcmp h o t cond p) h o p (uses3 h o .w32 .w32 .w32) (laneBit3 o .w32 .w32 .w32 fun a b _ =>
    FV.cond cond ((Fmt.ofTy t).val a.toNat) ((Fmt.ofTy t).val b.toNat))) ∧
  (∀ h o t p, Tests (.fclass h o t false p) h o p (uses3 h o .w32 .w32 .w32) (laneBit3 o .w32 .w32 .w32 fun a b _ =>
    b.getLsbD ((Fmt.ofTy t).classOf a.toNat))) ∧
  (∀ h o t p, Computes (.fclass h o t true p) h o .w32 .w32 .w32 .n32 fun a _ _ =>
    1#64 <<< (Fmt.ofTy t).classOf a.toNat) ∧
  (∀ h o f p, Tests (.pbool h o f p) h o p (uses3 h o .w32 .w32 .w32) fun i l =>
    f.getLsbD ((if (i.predOf o.a).getLsbD l then 1 else 0) + (if (i.predOf o.b).getLsbD l then 2 else 0) +
      (if (i.predOf o.c).getLsbD l then 4 else 0))) ∧
  (∀ h o p, Tests (.ltest h o .every p) h o p (uses3 h o .w32 .w32 .w32) fun i _ =>
    (lanesOf i.g).all fun l => (i.predOf o.a).getLsbD l) ∧
  (∀ h o p, Tests (.ltest h o .some p) h o p (uses3 h o .w32 .w32 .w32) fun i _ =>
    (lanesOf i.g).any fun l => (i.predOf o.a).getLsbD l) ∧
  (∀ h o p, Tests (.ltest h o .odd p) h o p (uses3 h o .w32 .w32 .w32) fun i _ =>
    decide (((lanesOf i.g).countP fun l => (i.predOf o.a).getLsbD l) % 2 = 1)) ∧
  (∀ h o p, Tests (.ltest h o .same32 p) h o p (uses3 h o .w32 .w32 .w32) fun i _ =>
    decide (∀ l ∈ lanesOf i.g, ∀ m ∈ lanesOf i.g, (i.read o.a .w32 l).bits = (i.read o.a .w32 m).bits)) ∧
  (∀ h o p, Tests (.ltest h o .same64 p) h o p (uses3 h o (.bw true) .w32 .w32) fun i _ =>
    decide (∀ l ∈ lanesOf i.g, ∀ m ∈ lanesOf i.g, (i.read o.a (.bw true) l).bits = (i.read o.a (.bw true) m).bits)) ∧
  (∀ h o bf cond, ∀ s : State, (Ix.of s h).g ≠ 0 → Readable (Ix.of s h) (uses3 h o .w32 .w32 .w32) (Ix.of s h).g →
    let i := Ix.of s h
    let m := halfFmt bf
    let bit (e : Nat) (l : Nat) : Bool := FV.cond cond (m.val ((i.read o.a .w32 l).bits.extractLsb' (16 * e) 16).toNat)
      (m.val ((i.read o.b .w32 l).bits.extractLsb' (16 * e) 16).toNat)
    ∃ t, exec (.pkcmp h o bf cond) s = .next t ∧ (o.d ≠ o.d2 → GetsPred t i o.d (bit 0)) ∧ GetsPred t i o.d2 (bit 1) ∧
      Kept s t i [(o.d, 1), (o.d2, 1)] ∧ WentOn s t i)

/-- O6. R71, R72, R149: MOVS delivers the special register in every guard-true lane, 64 bits wide where R71 says so; a handler
register outside handler mode raises ILLEGAL. R150, R154, R157: single lanes, packed predicates and predicate masks. The
model's own readings and choices here: log 119, 120. -/
def Obligations.SpecialRegistersAndLanes : Prop :=
  (
  (∀ h o n, ∀ s : State, (0x20 ≤ n.toNat ∧ n.toNat ≤ 0x23 → ((Ix.of s h).x.trap).isSome = true) →
    (Ix.of s h).g ≠ 0 → Writable (Ix.of s h) o.d (Ty.regs (if wideSpecial n then .b64 else .n32)) →
    ∃ t, exec (.movs h o n) s = .next t ∧
      Gets t (Ix.of s h) o.d (if wideSpecial n then .b64 else .n32) (fun l => Val.ofNat ((Ix.of s h).special n.toNat l)) ∧
      Kept s t (Ix.of s h) [(o.d, Ty.regs (if wideSpecial n then .b64 else .n32))] ∧ WentOn s t (Ix.of s h)) ∧
  (∀ h o n, ∀ s : State, 0x20 ≤ n.toNat → n.toNat ≤ 0x23 → (Ix.of s h).x.trap = none →
    exec (.movs h o n) s = .next (s.raise (Ix.of s h).f (Ix.of s h).e Cause.illegal 0 (Ix.of s h).e.mask)) ∧
  (∀ h (s : State) (l : Nat),
    let i := Ix.of s h
    let c := s.cast i.h.cast
    let p := s.pour c.pour
    i.special 0x00 l = l ∧ i.special 0x01 l = i.h.index ∧
    i.special 0x02 l = c.index % p.extent 0 ∧ i.special 0x03 l = c.index / p.extent 0 % p.extent 1 ∧
    i.special 0x04 l = c.index / (p.extent 0 * p.extent 1) % p.extent 2 ∧
    i.special 0x05 l = c.index / (p.extent 0 * p.extent 1 * p.extent 2) % p.extent 3 ∧
    (let w (k : Nat) : Nat := p.word (0x20 + k) 1
     i.special 0x06 l = (l + i.h.index * 2 ^ w 0 + i.special 0x02 l * 2 ^ (w 0 + w 1) +
       i.special 0x03 l * 2 ^ (w 0 + w 1 + w 2) + i.special 0x04 l * 2 ^ (w 0 + w 1 + w 2 + w 3) +
       i.special 0x05 l * 2 ^ (w 0 + w 1 + w 2 + w 3 + w 4)) % 2 ^ 64) ∧
    i.special 0x0B l = (if (s.pkg (i.x.gc / 128)).grade = .p576 then 96 else 128) ∧
    i.special 0x0C l = (if (s.pkg (i.x.gc / 128)).grade = .p576 then 12 else 16) ∧
    i.special 0x07 l = c.index % 2 ^ 32 ∧ i.special 0x08 l = i.x.gc % 128 ∧ i.special 0x09 l = i.x.gc / 8 % 16 ∧
    i.special 0x0A l = i.x.gc / 128 ∧ i.special 0x0D l = c.anchor % 128 ∧ i.special 0x0E l = i.x.slot ∧
    i.special 0x0F l = (s.now - (s.pkg (i.x.gc / 128)).started) % 2 ^ 64 ∧ i.special 0x10 l = i.e.mask.toNat ∧
    i.special 0x11 l = i.x.wbase ∧ i.special 0x12 l = p.ctx.toNat ∧ i.special 0x13 l = p.count % 2 ^ 32 ∧
    (∀ t, i.x.trap = some t → i.special 0x20 l = t.cause.toNat ∧ i.special 0x21 l = t.pc.toNat ∧
      i.special 0x22 l = t.lanes.toNat ∧ i.special 0x23 l = t.addr.toNat))
  ) ∧
  (
  (∀ h o w, ∀ s : State,
    let i := Ix.of s h
    let j := (i.read o.b .w32 0).bits.toNat % 32
    i.g ≠ 0 → (laneBit j &&& i.x.lanes ≠ 0 → Readable i [{ o := o.a, n := (Wd.bw w).regs, bit := h.ea }] (laneBit j &&& i.x.lanes)) →
    Readable i [{ o := o.b, n := 1, bit := h.eb }] i.g → Writable i o.d (Ty.regs (bwTy w)) →
    ∃ t, exec (.rdlane h o w) s = .next t ∧
      (Gets t i o.d (bwTy w) fun _ =>
        if i.x.lanes.getLsbD j then
          { bits := (i.read o.a (.bw w) j).bits, poison := (i.read o.a (.bw w) j).poison || (i.read o.b .w32 0).poison }
        else { bits := 0, poison := (i.read o.b .w32 0).poison }) ∧
      Kept s t i [(o.d, Ty.regs (bwTy w))] ∧ WentOn s t i) ∧
  (∀ h o w, ∀ s : State, Able (Ix.of s h) (uses3 h o (.bw w) .w32 .w32) o.d (Ty.regs (bwTy w)) →
    let i := Ix.of s h
    let j := (i.read o.b .w32 0).bits.toNat % 32
    let one : Ix := { i with g := if i.x.lanes.getLsbD j then laneBit j else 0 }
    ∃ t, exec (.wrlane h o w) s = .next t ∧
      (i.x.lanes.getLsbD j = true → Gets t one o.d (bwTy w) fun _ =>
        { bits := (i.read o.a (.bw w) 0).bits, poison := (i.read o.a (.bw w) 0).poison || (i.read o.b .w32 0).poison }) ∧
      Kept s t one [(o.d, Ty.regs (bwTy w))] ∧ WentOn s t i) ∧
  (∀ h o, Yields (.pmask h o) h (fun _ => uses3 h o .w32 .w32 .w32) (fun i => i.g) o.d .b32 fun i _ =>
    { bits := (i.g &&& i.predOf o.a).setWidth 64, poison := i.bitMark o.a }) ∧
  (∀ h o, ∀ s : State, (Ix.of s h).g ≠ 0 → Readable (Ix.of s h) (uses3 h o .w32 .w32 .w32) (Ix.of s h).g →
    ∃ t, exec (.pmov h o .bit) s = .next t ∧
      GetsPred t (Ix.of s h) o.d (fun l => ((Ix.of s h).read o.a .w32 l).bits.getLsbD
        (match o.a with | .s _ => l | .m _ => l | _ => 0)) ∧
      Kept s t (Ix.of s h) [(o.d, 1)] ∧ WentOn s t (Ix.of s h)) ∧
  (∀ h o, ∃ r : Ix → Nat → DWord,
    Yields (.pmov h o .pack) h (fun _ => allPreds) (fun i => i.g) o.d .b32
      (fun i l => { bits := r i l, poison := allPreds.any fun u => i.bitMark u.o }) ∧
    ∀ i l k, (r i l).getLsbD k = (decide (k < 16) && (i.h.pred (BitVec.ofNat 4 k)).getLsbD l)) ∧
  (∀ h o, ∀ s : State, (Ix.of s h).g ≠ 0 → Readable (Ix.of s h) (uses3 h o .w32 .w32 .w32) (Ix.of s h).g →
    ∃ t, exec (.pmov h o .unpack) s = .next t ∧
      (∀ q : BitVec 4, GetsPred t (Ix.of s h) (.p q) fun l => ((Ix.of s h).read o.a .w32 l).bits.getLsbD q.toNat) ∧
      Kept s t (Ix.of s h) ((List.range 16).map fun k => (.p (BitVec.ofNat 4 k), 1)) ∧ WentOn s t (Ix.of s h))
  )

/-- O7. R155, R156, R139: the exchanges. XLANE takes A from the partner in the segment of 2^SEG lanes and C where there is none;
BFLY exchanges over the 64 elements of A and C at the distance B. A lane that is not present gives zero. R158, R159: SCAN and
LFOLD fold the guard-true lanes in ascending order, and MATCH gives each lane the lanes with its key. The model's own
readings and choices here: log 119. -/
def Obligations.LaneExchangesAndFolds : Prop :=
  (
  (∀ h o w mode (seg : BitVec 3), ∀ s : State,
    let i := Ix.of s h
    let n := 2 ^ seg.toNat
    let dist (l : Nat) : Nat := (lo (i.read o.b .w32 l).bits).toNat
    let base (l : Nat) : Nat := l - l % n
    let from' (l : Nat) : Option Nat := match mode with
      | .pick => some (base l + dist l % n)
      | .back => if base l + dist l ≤ l then some (l - dist l) else none
      | .ahead => if l + dist l < base l + n then some (l + dist l) else none
      | .flip => some (base l + (l ^^^ dist l) % n)
    let rd := maskOf fun j => i.x.lanes.getLsbD j && (lanesOf i.g).any fun l => decide (from' l = some j)
    let alone := maskOf fun l => i.g.getLsbD l && decide (from' l = none)
    i.g ≠ 0 → (rd ≠ 0 → Readable i [{ o := o.a, n := (Wd.bw w).regs, bit := h.ea }] rd) →
    Readable i [{ o := o.b, n := 1, bit := h.eb }] i.g →
    (alone ≠ 0 → Readable i [{ o := o.c, n := (Wd.bw w).regs, bit := h.ec }] alone) →
    Writable i o.d (Ty.regs (bwTy w)) →
    ∃ t, exec (.xlane h o w mode seg) s = .next t ∧
      (o.d ≠ o.d2 → Gets t i o.d (bwTy w) fun l =>
        let v := match from' l with
          | some j => if i.x.lanes.getLsbD j then i.read o.a (.bw w) j else .zero
          | none => i.read o.c (.bw w) l
        { bits := v.bits, poison := v.poison || (i.read o.b .w32 l).poison }) ∧
      (GetsPred t i o.d2 fun l => match from' l with | some j => i.g.getLsbD j | none => false) ∧
      Kept s t i [(o.d, Ty.regs (bwTy w)), (o.d2, 1)] ∧ WentOn s t i) ∧
  (∀ h o w hi, ∀ s : State,
    let i := Ix.of s h
    let k := (i.read o.b .w32 0).bits.toNat % 64
    let el (l : Nat) : Nat := (if hi then 32 + l else l) ^^^ k
    let rd (lower : Bool) : LaneMask := maskOf fun j => i.x.lanes.getLsbD j &&
      (lanesOf i.g).any fun l => decide (el l % 32 = j) && (decide (el l < 32) == lower)
    i.g ≠ 0 → (rd true ≠ 0 → Readable i [{ o := o.a, n := (Wd.bw w).regs, bit := h.ea }] (rd true)) →
    (rd false ≠ 0 → Readable i [{ o := o.c, n := (Wd.bw w).regs, bit := h.ec }] (rd false)) →
    Readable i [{ o := o.b, n := 1, bit := h.eb }] i.g → Writable i o.d (Ty.regs (bwTy w)) →
    ∃ t, exec (.bfly h o w hi) s = .next t ∧
      (o.d ≠ o.d2 → Gets t i o.d (bwTy w) fun l =>
        let v := if i.x.lanes.getLsbD (el l % 32) then i.read (if el l < 32 then o.a else o.c) (.bw w) (el l % 32) else .zero
        { bits := v.bits, poison := v.poison || (i.read o.b .w32 0).poison }) ∧
      (GetsPred t i o.d2 fun l =>
        decide (k = 0) || !((if hi then 32 + l else l).testBit (Nat.log2 k))) ∧
      Kept s t i [(o.d, Ty.regs (bwTy w)), (o.d2, 1)] ∧ WentOn s t i)
  ) ∧
  (
  (∀ h o t op excl, Yields (.scan h o t op excl) h (fun _ => uses3 h o .w32 .w32 .w32) (fun i => i.g) o.d t fun i l =>
    let vs := ((lanesOf i.g).filter fun m => if excl then decide (m < l) else decide (m ≤ l)).map fun m => i.read o.a .w32 m
    { bits := foldOut t (match vs with
        | [] => FoldOp.identity op t
        | v :: rest => rest.foldl (fun x y => FoldOp.step op t x y.bits) v.bits)
      poison := vs.any Val.poison }) ∧
  (∀ h o t op, Yields (.lfold h o t op) h (fun _ => uses3 h o .w32 .w32 .w32) (fun i => i.g) o.d t fun i _ =>
    let vs := (lanesOf i.g).map fun m => i.read o.a .w32 m
    { bits := foldOut t (match vs with
        | [] => FoldOp.identity op t
        | v :: rest => rest.foldl (fun x y => FoldOp.step op t x y.bits) v.bits)
      poison := vs.any Val.poison }) ∧
  (∀ h o t num, ∀ s : State, o.d ≠ o.d2 → Able (Ix.of s h) (uses3 h o (.bw t.wide) .w32 .w32) o.d 1 →
    let i := Ix.of s h
    let same (l m : Nat) : Bool := decide (m = l) ||
      keysEqual t num (i.read o.a (.bw t.wide) m).bits (i.read o.a (.bw t.wide) l).bits
    ∃ u, exec (.matchKeys h o t num) s = .next u ∧
      (∃ r : Nat → DWord, (∀ l m, (r l).getLsbD m = (i.g.getLsbD m && same l m)) ∧
        Gets u i o.d .b32 fun l =>
          { bits := r l, poison := (lanesOf i.g).any fun m => (i.read o.a (.bw t.wide) m).poison }) ∧
      GetsPred u i o.d2 (fun l => (lanesOf i.g).all fun m => decide (l ≤ m) || !same l m) ∧
      Kept s u i [(o.d, 1), (o.d2, 1)] ∧ WentOn s u i)
  )

/-- O8. R161 to R165: each floating-point instruction rounds one exact function of its sources once into its format. The model's
own readings and choices here: log 26. -/
def Obligations.FloatArithmetic : Prop :=
  (∀ h o t rm sat, Computes (.fadd h o t rm sat) h o .w32 .w32 .w32 t fun a b _ =>
    let v (x : DWord) : FV := (Fmt.ofTy t).val (x.toNat % 2 ^ t.bits)
    codeOf ((Fmt.ofTy t).round ((v a).add (rm = .rdn) (v b)) rm sat 0)) ∧
  (∀ h o t rm sat, Computes (.fsub h o t rm sat) h o .w32 .w32 .w32 t fun a b _ =>
    let v (x : DWord) : FV := (Fmt.ofTy t).val (x.toNat % 2 ^ t.bits)
    codeOf ((Fmt.ofTy t).round ((v a).sub (rm = .rdn) (v b)) rm sat 0)) ∧
  (∀ h o t rm sat, Computes (.fmul h o t rm sat) h o .w32 .w32 .w32 t fun a b _ =>
    let v (x : DWord) : FV := (Fmt.ofTy t).val (x.toNat % 2 ^ t.bits)
    codeOf ((Fmt.ofTy t).round ((v a).mul (v b)) rm sat 0)) ∧
  (∀ h o t rm sat, Computes (.ffma h o t rm sat) h o .w32 .w32 .w32 t fun a b c =>
    let v (x : DWord) : FV := (Fmt.ofTy t).val (x.toNat % 2 ^ t.bits)
    codeOf ((Fmt.ofTy t).round (((v a).mul (v b)).add (rm = .rdn) (v c)) rm sat 0)) ∧
  (∀ h o t nanp, Computes (.fmin h o t nanp) h o .w32 .w32 .w32 t fun a b _ =>
    codeOf ((Fmt.ofTy t).minMax false nanp (a.toNat % 2 ^ t.bits) (b.toNat % 2 ^ t.bits))) ∧
  (∀ h o t nanp, Computes (.fmax h o t nanp) h o .w32 .w32 .w32 t fun a b _ =>
    codeOf ((Fmt.ofTy t).minMax true nanp (a.toNat % 2 ^ t.bits) (b.toNat % 2 ^ t.bits))) ∧
  (∀ h o t rm, Computes (.frnd h o t rm) h o .w32 .w32 .w32 t fun a _ _ =>
    codeOf ((Fmt.ofTy t).toInteger rm (a.toNat % 2 ^ t.bits))) ∧
  (∀ h o rm sat, Computes (.fsqrt h o rm sat) h o .w32 .w32 .w32 .f32 fun a _ _ =>
    codeOf (Fmt.round .fp32 (Fmt.val .fp32 (a.toNat % 2 ^ 32)).sqrt rm sat 0)) ∧
  (∀ h o rm sat, Computes (.fdiv h o rm sat) h o .w32 .w32 .w32 .f32 fun a b _ =>
    codeOf (Fmt.round .fp32 ((Fmt.val .fp32 (a.toNat % 2 ^ 32)).div (Fmt.val .fp32 (b.toNat % 2 ^ 32))) rm sat 0)) ∧
  (∀ h o t rm sat, Computes (.fldexp h o t rm sat) h o .w32 .w32 .w32 t fun a b _ =>
    codeOf ((Fmt.ofTy t).round (((Fmt.ofTy t).val a.toNat).ldexp (max (-1000) (min 1000 (lo b).toInt))) rm sat 0))

/-- O9. R114 to R117, R127: the sums and products of finite values are exact, and the special values follow the tables. R124:
Round keeps every value that its format holds, and the directed modes never cross the exact value. The model's own readings
and choices here: log 26. -/
def Obligations.RoundingAndExactSums : Prop :=
  (
  (∀ rdn a m e b n k, (FV.add rdn (.fin a m e) (.fin b n k)).rat =
    some (FV.ratOf a m e + FV.ratOf b n k)) ∧
  (∀ rdn a m e b n k, (FV.sub rdn (.fin a m e) (.fin b n k)).rat = some (FV.ratOf a m e - FV.ratOf b n k)) ∧
  (∀ a m e b n k, (FV.mul (.fin a m e) (.fin b n k)).rat = some (FV.ratOf a m e * FV.ratOf b n k)) ∧
  (∀ a m e, (FV.negate (.fin a m e)).rat = some (-FV.ratOf a m e)) ∧
  (∀ a m e n, (FV.ldexp (.fin a m e) n).rat = some (FV.ratOf a m e * (2 : ℚ) ^ n)) ∧
  (∀ rdn, FV.add rdn (.inf false) (.inf true) = .nan) ∧ (∀ a e, FV.mul (.inf a) (.fin false 0 e) = .nan) ∧
  (∀ rdn x, FV.add rdn .nan x = .nan ∧ FV.add rdn x .nan = .nan ∧ FV.mul .nan x = .nan ∧ FV.mul x .nan = .nan) ∧
  (∀ a e b k, (FV.add true (.fin a 0 e) (.fin b 0 k)).neg = true ∧
    (FV.add false (.fin a 0 e) (.fin b 0 k)).neg = (a && b)) ∧
  (∀ rdn a b m e n k, FV.ratOf a m e = FV.ratOf b n k → (FV.sub rdn (.fin a m e) (.fin b n k)).neg = rdn) ∧
  (∀ f : Fmt, ∀ rm sat rnd, f.round .nan rm sat rnd = f.canonNan) ∧
  (∀ f : Fmt, ∀ neg e rm sat rnd, f.round (.fin neg 0 e) rm sat rnd = f.signBit neg)
  ) ∧
  (
  (∀ f : Fmt, ∀ c, c < 2 ^ (f.low + f.mbits + f.ebits + 1) → c % 2 ^ f.low = 0 → (f.val c).rat.isSome = true →
    ∀ rm sat rnd, rnd < 2 ^ 32 → f.round (f.val c) rm sat rnd = c) ∧
  (∀ f : Fmt, ∀ neg m e rnd r, (f.val (f.round (.fin neg m e) .rdn false rnd)).rat = some r → f.hasInf = true →
    r ≤ FV.ratOf neg m e) ∧
  (∀ f : Fmt, ∀ neg m e rnd r, (f.val (f.round (.fin neg m e) .rup false rnd)).rat = some r → f.hasInf = true →
    FV.ratOf neg m e ≤ r) ∧
  (∀ f : Fmt, ∀ neg m e rnd r, (f.val (f.round (.fin neg m e) .rtz false rnd)).rat = some r →
    |r| ≤ |FV.ratOf neg m e|)
  )

/-- O10. R168: the approximated functions are fixed functions of a's bit pattern, with the values that the table decides. R169,
R171: the packed instructions work on each 16-bit element, and the small dot products round their exact sum once. The model's
own readings and choices here: log 25, 26. -/
def Obligations.ApproximatedAndPacked : Prop :=
  (
  (∃ g : Word → Nat, (∀ h o, Computes (.frcp h o) h o .w32 .w32 .w32 .f32 fun a _ _ => codeOf (g (lo a))) ∧
    (∀ a : Word, Fmt.isNan .fp32 a.toNat = true → g a = 0x7FC00000) ∧ g 0xFF800000 = 0x80000000 ∧ g 0x7F800000 = 0 ∧
    g 0 = 0x7F800000 ∧ g 0x80000000 = 0xFF800000 ∧
    ∀ e, 1 ≤ e → e ≤ 253 → g (BitVec.ofNat 32 (e * 2 ^ 23)) = (254 - e) * 2 ^ 23) ∧
  (∃ g : Word → Nat, (∀ h o, Computes (.frsq h o) h o .w32 .w32 .w32 .f32 fun a _ _ => codeOf (g (lo a))) ∧
    (∀ a : Word, Fmt.isNan .fp32 a.toNat = true → g a = 0x7FC00000) ∧ g 0xFF800000 = 0x7FC00000 ∧ g 0x7F800000 = 0 ∧
    g 0 = 0x7F800000 ∧ g 0x80000000 = 0xFF800000 ∧ g 0x40800000 = 0x3F000000 ∧ g 0xBF800000 = 0x7FC00000) ∧
  (∃ g : Word → Nat, (∀ h o, Computes (.fexp2 h o) h o .w32 .w32 .w32 .f32 fun a _ _ => codeOf (g (lo a))) ∧
    (∀ a : Word, Fmt.isNan .fp32 a.toNat = true → g a = 0x7FC00000) ∧ g 0xFF800000 = 0 ∧ g 0x7F800000 = 0x7F800000 ∧
    g 0 = 0x3F800000 ∧ g 0x80000000 = 0x3F800000 ∧ g 0x43000000 = 0x7F800000 ∧ g 0x40400000 = 0x41000000) ∧
  (∃ g : Word → Nat, (∀ h o, Computes (.flog2 h o) h o .w32 .w32 .w32 .f32 fun a _ _ => codeOf (g (lo a))) ∧
    (∀ a : Word, Fmt.isNan .fp32 a.toNat = true → g a = 0x7FC00000) ∧ g 0xFF800000 = 0x7FC00000 ∧
    g 0x7F800000 = 0x7F800000 ∧ g 0 = 0xFF800000 ∧ g 0x80000000 = 0xFF800000 ∧ g 0x41000000 = 0x40400000 ∧
    g 1 = 0xC3150000) ∧
  (∃ g : Word → Nat, (∀ h o, Computes (.fsin h o) h o .w32 .w32 .w32 .f32 fun a _ _ => codeOf (g (lo a))) ∧
    (∀ a : Word, Fmt.isNan .fp32 a.toNat = true → g a = 0x7FC00000) ∧ g 0xFF800000 = 0x7FC00000 ∧
    g 0x7F800000 = 0x7FC00000 ∧ g 0 = 0 ∧ g 0x80000000 = 0x80000000 ∧ g 0x3F000000 = 0x3F800000 ∧ g 0x4B000001 = 0) ∧
  (∃ g : Word → Nat, (∀ h o, Computes (.fcos h o) h o .w32 .w32 .w32 .f32 fun a _ _ => codeOf (g (lo a))) ∧
    (∀ a : Word, Fmt.isNan .fp32 a.toNat = true → g a = 0x7FC00000) ∧ g 0xFF800000 = 0x7FC00000 ∧
    g 0x7F800000 = 0x7FC00000 ∧ g 0 = 0x3F800000 ∧ g 0x3F000000 = 0 ∧ g 0x3F800000 = 0xBF800000) ∧
  (∃ g : Word → Nat, (∀ h o, Computes (.ftanh h o) h o .w32 .w32 .w32 .f32 fun a _ _ => codeOf (g (lo a))) ∧
    (∀ a : Word, Fmt.isNan .fp32 a.toNat = true → g a = 0x7FC00000) ∧ g 0xFF800000 = 0xBF800000 ∧
    g 0x7F800000 = 0x3F800000 ∧ g 0 = 0 ∧ g 0x80000000 = 0x80000000 ∧ g 0x41200000 = 0x3F800000)
  ) ∧
  (
  (∀ h o bf rm sat, Computes (.pkadd h o bf rm sat) h o .w32 .w32 .w32 (halfTy bf) fun a b _ => both16 fun e =>
    let v (x : DWord) : FV := (halfFmt bf).val (x.extractLsb' (16 * e) 16).toNat
    (halfFmt bf).round ((v a).add (rm = .rdn) (v b)) rm sat 0) ∧
  (∀ h o bf rm sat, Computes (.pkmul h o bf rm sat) h o .w32 .w32 .w32 (halfTy bf) fun a b _ => both16 fun e =>
    let v (x : DWord) : FV := (halfFmt bf).val (x.extractLsb' (16 * e) 16).toNat
    (halfFmt bf).round ((v a).mul (v b)) rm sat 0) ∧
  (∀ h o bf rm sat, Computes (.pkfma h o bf rm sat) h o .w32 .w32 .w32 (halfTy bf) fun a b c => both16 fun e =>
    let v (x : DWord) : FV := (halfFmt bf).val (x.extractLsb' (16 * e) 16).toNat
    (halfFmt bf).round (((v a).mul (v b)).add (rm = .rdn) (v c)) rm sat 0) ∧
  (∀ h o bf nanp, Computes (.pkmin h o bf nanp) h o .w32 .w32 .w32 (halfTy bf) fun a b _ => both16 fun e =>
    (halfFmt bf).minMax false nanp (a.extractLsb' (16 * e) 16).toNat (b.extractLsb' (16 * e) 16).toNat) ∧
  (∀ h o bf nanp, Computes (.pkmax h o bf nanp) h o .w32 .w32 .w32 (halfTy bf) fun a b _ => both16 fun e =>
    (halfFmt bf).minMax true nanp (a.extractLsb' (16 * e) 16).toNat (b.extractLsb' (16 * e) 16).toNat) ∧
  (∀ h o bf rm sat, Computes (.fdot2 h o bf rm sat) h o .w32 .w32 .w32 .f32 fun a b c =>
    let p (e : Nat) : FV := ((halfFmt bf).val (a.extractLsb' (16 * e) 16).toNat).mul
      ((halfFmt bf).val (b.extractLsb' (16 * e) 16).toNat)
    codeOf (Fmt.round .fp32 (((Fmt.val .fp32 (lo c).toNat).add (rm = .rdn) (p 0)).add (rm = .rdn) (p 1)) rm sat 0)) ∧
  (∀ h o e5 rm sat balt, Computes (.fdot4 h o e5 rm sat balt) h o .w32 .w32 .w32 .f32 fun a b c =>
    let p (e : Nat) : FV := ((fp8 e5).val (a.extractLsb' (8 * e) 8).toNat).mul
      ((fp8 (e5 != balt)).val (b.extractLsb' (8 * e) 8).toNat)
    codeOf (Fmt.round .fp32 (((((Fmt.val .fp32 (lo c).toNat).add (rm = .rdn) (p 0)).add (rm = .rdn) (p 1)).add (rm = .rdn)
      (p 2)).add (rm = .rdn) (p 3)) rm sat 0))
  )

/-- O11. R172 to R179: conversions, FP8 and block-scaled FP4 packing, and HASH32. The model's own readings and choices here: log
121. -/
def Obligations.Conversions : Prop :=
  (∀ h o t src rm sat tfp, Computes (.cvt h o t src rm sat tfp) h o (.of src) .w32 .w32 t fun a _ c =>
    let rnd := if rm = .sr then (lo c).toNat else 0
    if Ty.isFloat src then
      let v := (Fmt.ofTy src).val (a.toNat % 2 ^ src.bits)
      if Ty.isFloat t then codeOf ((if tfp then Fmt.tf32 else Fmt.ofTy t).round v rm sat rnd) else roundInt t v rm rnd
    else if Ty.isFloat t then
      codeOf ((Fmt.ofTy t).round (.fin (decide (intVal src a < 0)) (intVal src a).natAbs 0) rm sat rnd)
    else fit t sat (intVal src a)) ∧
  (∀ h o e5 rm sat hi, Computes (.pack8 h o e5 rm sat hi) h o .w32 .w32 .w32 .b32 fun a b c =>
    let q (x : DWord) : BitVec 8 := BitVec.ofNat 8 ((fp8 e5).round (Fmt.val .fp32 (lo x).toNat) rm sat 0)
    if hi then up (q b ++ q a ++ (lo c).setWidth 16) else up ((lo c).extractLsb' 16 16 ++ q b ++ q a)) ∧
  (∀ h o t b e5, Computes (.unpack8 h o t b e5) h o .w32 .w32 .w32 t fun a _ _ =>
    codeOf ((Fmt.ofTy t).round ((fp8 e5).val (a.extractLsb' (8 * b.toNat) 8).toNat) .rne false 0)) ∧
  (∀ h o, ∀ s : State,
    let i := Ix.of s h
    let member (l k : Nat) : Val := if i.x.lanes.getLsbD (8 * (l / 8) + k) then i.read o.a .w32 (8 * (l / 8) + k) else .zero
    i.g ≠ 0 → Readable i (uses3 h o .w32 .w32 .w32) i.groupLanes → Writable i o.d 1 →
    ∃ t, exec (.bscale h o) s = .next t ∧
      Gets t i o.d .n8 (fun l =>
        { bits := codeOf (blockScale ((List.range 8).map fun k => Fmt.val .fp32 (lo (member l k).bits).toNat))
          poison := (List.range 8).any fun k => (member l k).poison }) ∧
      Kept s t i [(o.d, 1)] ∧ WentOn s t i) ∧
  (∀ h o rm, ∀ s : State, o.d ≠ o.d2 →
    let i := Ix.of s h
    let member (l k : Nat) : Val := if i.x.lanes.getLsbD (8 * (l / 8) + k) then i.read o.a .w32 (8 * (l / 8) + k) else .zero
    let mark (l : Nat) : Bool := ((List.range 8).any fun k => (member l k).poison) || (i.read o.b .w32 l).poison
    let block (l : Nat) : Nat × Bool := pack4Block ((i.read o.b .w32 l).bits.toNat % 256) rm
      ((List.range 8).map fun k => Fmt.val .fp32 (lo (member l k).bits).toNat)
    i.g ≠ 0 → (∀ u ∈ uses3 h o .w32 .w32 .w32, i.isEmpty u.o u.n = false) →
    Readable i [{ o := o.a, n := 1, bit := h.ea }] i.groupLanes → Readable i [{ o := o.b, n := 1, bit := h.eb }] i.g →
    Writable i o.d 1 → Writable i o.d2 1 →
    ∃ t, exec (.pack4 h o rm) s = .next t ∧
      Gets t i o.d .b32 (fun l => { bits := codeOf (block l).1, poison := mark l }) ∧
      Gets t i o.d2 .n8 (fun l =>
        { bits := codeOf (if (block l).2 then 0xFF else (i.read o.b .w32 l).bits.toNat % 256), poison := mark l }) ∧
      Kept s t i [(o.d, 1), (o.d2, 1)] ∧ WentOn s t i) ∧
  (∀ h o t elt, Yields (.unpack4 h o t elt) h (fun _ => uses3 h o .w32 .w32 .w32) (fun i => i.g) o.d t fun i l =>
    let sc := (i.read o.b .w32 l).bits.toNat % 256
    let x := Fmt.val .e2m1 ((i.read o.a .w32 l).bits.extractLsb' (4 * elt.toNat) 4).toNat
    { bits := codeOf (if sc = 0 then 0 else if sc = 0xFF then (Fmt.ofTy t).canonNan
        else (Fmt.ofTy t).round (x.mul (e3m5 sc)) .rne false 0)
      poison := (i.read o.a .w32 l).poison || (i.read o.b .w32 l).poison || decide (sc = 0xFF) }) ∧
  (∀ h o, Computes (.hash32 h o) h o .w32 .w32 .w32 .b32 fun a b _ =>
    let round (x k : Word) : Word := let y := (x ^^^ k) * 0x2C1B3C6D; y ^^^ (y >>> 15)
    let k : Word := lo b
    up (round (round (round (round (lo a) k) (k + 0x9E3779B9)) (k + 0x9E3779B9 + 0x9E3779B9))
      (k + 0x9E3779B9 + 0x9E3779B9 + 0x9E3779B9)))

/-- O12. R5, R216, R417: memory is little-endian, a write changes the bytes it names and no others, a whole word takes the mark
of the value, and a part of a word is only ever marked. R388: a pin step adds one to PINS of a leaf that is still the one
translated, and reports a full count or a changed leaf instead; an unpin step takes one away; nothing else of memory changes. -/
def Obligations.MemoryAndPins : Prop :=
  (
  ∀ (s : State) (pa n v : Nat) (p : Bool),
    (s.writeMem pa n v p).readLE pa n = v % 256 ^ n ∧
    (∀ k, k < n → (s.writeMem pa n v p).byte (pa + k) = BitVec.ofNat 8 (v / 256 ^ k)) ∧
    (∀ a, a < pa ∨ pa + n ≤ a → (s.writeMem pa n v p).byte a = s.byte a) ∧
    (∀ w, pa ≤ 4 * w → 4 * w + 4 ≤ pa + n → (s.writeMem pa n v p).mark w = p) ∧
    (∀ w, 4 * w < pa + n → pa < 4 * w + 4 → ¬ (pa ≤ 4 * w ∧ 4 * w + 4 ≤ pa + n) → 0 < n →
      (s.writeMem pa n v p).mark w = (p || s.mark w)) ∧
    (∀ w, 4 * w + 4 ≤ pa ∨ pa + n ≤ 4 * w → (s.writeMem pa n v p).mark w = s.mark w)
  ) ∧
  (
  ∀ (s : State) (at_ : Nat) (e : DWord),
    let now : DWord := BitVec.ofNat 64 (s.readLE at_ 8)
    let pins := (s.byte (at_ + 1)).toNat
    let same := now.getLsbD 0 = true ∧ leafPa now = leafPa e
    (same → pins < 255 → ∃ t, s.pin at_ e = (.pinned, t) ∧ (t.byte (at_ + 1)).toNat = pins + 1 ∧
      ∀ a, a ≠ at_ + 1 → t.byte a = s.byte a) ∧
    (pins = 255 → s.pin at_ e = (.busy, s)) ∧
    (¬ same → pins < 255 → s.pin at_ e = (.failed, s)) ∧
    (0 < pins → ((s.unpin at_).byte (at_ + 1)).toNat = pins - 1) ∧ (∀ a, a ≠ at_ + 1 → (s.unpin at_).byte a = s.byte a)
  )

/-- O13. R213, R216, R247: LD and LDX, where every lane's home is the hearth at which the fragment stands. -/
def Obligations.LoadsAtTheirHome : Prop :=
  (∀ h o ty x, ∀ s : State,
    let i := Ix.of s h
    let size := ty.bits / 8
    let va := i.va o x size
    i.g ≠ 0 → Readable i (memUses h o 0) i.g → Writable i o.d (Ty.regs ty) → Granted i (.read true) size va →
    HomedAt i va i.here → Orderly i x.so false size va →
    ∃ t, exec (.ld h o ty x) s = .next t ∧ Loads s t i o.d ty (fun l => s.readAt (s.ctxOf i.x) (i.pa (va l)) size) ∧
      KeptMem s t i [(o.d, Ty.regs ty)] nothing nowhere) ∧
  (∀ h o n x, ∀ s : State,
    let i := Ix.of s h
    let k := XCount.n n
    let va := i.va o x (4 * k)
    i.g ≠ 0 → Readable i (memUses h o 0) i.g → Writable i o.d k → Granted i (.read false) (4 * k) va →
    HomedAt i va i.here → Orderly i x.so false (4 * k) va →
    ∃ t, exec (.ldx h o n x) s = .next t ∧
      (∀ q, o.d = .v q → ∀ j, j < k → ∀ l, i.g.getLsbD l = true → (s.frag i.f).fills = [] →
        ((t.applyFill i.f).hoist i.x.hoist).elem (i.areg (q.toNat + j)) l =
          lo (s.readAt (s.ctxOf i.x) (i.pa (va l) + 4 * j) 4).bits ∧
        ((t.applyFill i.f).hoist i.x.hoist).elemMark (i.areg (q.toNat + j)) l =
          (s.readAt (s.ctxOf i.x) (i.pa (va l) + 4 * j) 4).poison) ∧
      KeptMem s t i [(o.d, k)] nothing nowhere) ∧
  (∀ (s : State) ctx pa n, isCpage pa = false →
    (s.readAt ctx pa n).bits = BitVec.ofNat 64 (s.readLE pa n) ∧ (s.readAt ctx pa n).poison = s.poisoned pa n)

/-- O14. R215, R218, R248: ST and STX store each lane's value at its home when that is the hearth at which the fragment stands;
of lanes that meet, the highest is last. In a turn in which the sequencer accepts local stores to apply them later (R224),
they leave as one packet to the own hearth, behind its own number, and change no memory yet. The model's own readings and
choices here: log 32, 34, 138. -/
def Obligations.StoresAtTheirHome : Prop :=
  (∀ h o ty x, ∀ s : State,
    let i := Ix.of s h
    let size := ty.bits / 8
    let va := i.va o x size
    let pa (l : Nat) : Nat := i.pa (va l)
    i.g ≠ 0 → Readable i (memUses h o (Ty.regs ty)) i.g → Granted i (.store true) size va →
    HomedAt i va i.here → MayPost i x.so [] (lanesOf i.g).length →
    (s.late = false → (∀ l, i.g.getLsbD l = true → isCpage (pa l) = false) →
      ∃ t, exec (.st h o ty x) s = .next t ∧
        (∀ l, i.g.getLsbD l = true → LastWriter i size pa l → Holds t (pa l) size (i.read o.c (.bw ty.wide) l).bits) ∧
        KeptMem s t i [] (laneBytes i size pa) nowhere) ∧
    (s.late = true →
      ∃ t p, exec (.st h o ty x) s = .next t ∧ KeptBytes s t ∧ t.hoists = s.hoists ∧ t.casts = s.casts ∧ t.net = s.net ++ [p] ∧
        p.src = coreSrc i.x.gc i.x.slot lateUnit ∧ p.tgt = i.here ∧ p.seq = s.lastSeq p.src + 1 ∧
        p.body = .store (((lanesOf i.g).filter fun l => (lanesOf i.g).all fun m => decide (l < m → pa m ≠ pa l)).map
          fun l => (i.read o.c (.bw ty.wide) l).at_ (pa l) size) ∧
        (t.frag i.f).pseq = recordPSeq i.x.pseq { tgt := i.here, src := p.src, seq := p.seq })) ∧
  (∀ h o n x, ∀ s : State,
    let i := Ix.of s h
    let k := XCount.n n
    let va := i.va o x (4 * k)
    let pa (l : Nat) : Nat := i.pa (va l)
    i.g ≠ 0 → Readable i (memUses h o k) i.g → Granted i (.store true) (4 * k) va →
    HomedAt i va i.here → MayPost i x.so [] ((lanesOf i.g).length * k) → s.late = false →
    (∀ l, i.g.getLsbD l = true → isCpage (pa l) = false) →
    ∃ t, exec (.stx h o n x) s = .next t ∧
      (∀ l, i.g.getLsbD l = true → LastWriter i (4 * k) pa l → ∀ j, j < k →
        Holds t (pa l + 4 * j) 4 (match o.c with | .v r => (i.vval (r.toNat + j) false l).bits | _ => 0)) ∧
      KeptMem s t i [] (laneBytes i (4 * k) pa) nowhere)

/-- O15. R48, R49, R215, R218: a store and a reduction whose lanes are all homed at one remote hearth leave as one posted packet
with the lanes' writes in ascending order, a store's with the highest of the lanes that name one location, take the source's
next number, and change no memory. -/
def Obligations.RemoteStoresArePosted : Prop :=
  (∀ h o ty x home, ∀ s : State,
    let i := Ix.of s h
    let size := ty.bits / 8
    let va := i.va o x size
    i.g ≠ 0 → home < 1024 → home ≠ i.here → Readable i (memUses h o (Ty.regs ty)) i.g → Granted i (.store true) size va →
    HomedAt i va home → MayPost i x.so [home] 0 →
    ∃ t p, exec (.st h o ty x) s = .next t ∧ t.net = s.net ++ [p] ∧ p.src = i.x.src ∧ p.tgt = home ∧
      p.seq = s.lastSeq i.x.src + 1 ∧ p.pass = x.so.pass ∧
      p.body = .store (((lanesOf i.g).filter fun l => (lanesOf i.g).all fun m => decide (l < m → i.pa (va m) ≠ i.pa (va l))).map
        fun l => (i.read o.c (.bw ty.wide) l).at_ (i.pa (va l)) size) ∧
      (t.frag i.f).pseq = recordPSeq i.x.pseq { tgt := home, src := i.x.src, seq := p.seq } ∧
      (∀ a, t.byte a = s.byte a) ∧ (∀ w, t.mark w = s.mark w) ∧ t.hoists = s.hoists ∧ t.casts = s.casts) ∧
  (∀ h o ty op x home, ∀ s : State,
    let i := Ix.of s h
    let size := ty.bits / 8
    let va := i.va o x size
    i.g ≠ 0 → home < 1024 → home ≠ i.here → Readable i (memUses h o (Ty.regs ty)) i.g → Granted i .rmw size va →
    HomedAt i va home → MayPost i x.so [home] 0 →
    (∀ l, i.g.getLsbD l = true → (s.pkg (corePkg i.x.gc)).windowAt (i.pa (va l)) = none) →
    ∃ t p, exec (.red h o ty op x) s = .next t ∧ t.net = s.net ++ [p] ∧ p.src = i.x.src ∧ p.tgt = home ∧
      p.seq = s.lastSeq i.x.src + 1 ∧ p.pass = x.so.pass ∧
      p.body = .reduction op ty ((lanesOf i.g).map fun l => (i.read o.c (.bw ty.wide) l).at_ (i.pa (va l)) size) ∧
      (t.frag i.f).pseq = recordPSeq i.x.pseq { tgt := home, src := i.x.src, seq := p.seq } ∧
      (∀ a, t.byte a = s.byte a) ∧ (∀ w, t.mark w = s.mark w) ∧ t.hoists = s.hoists ∧ t.casts = s.casts)

/-- O16. R249 to R253: the atomics at their home: each lane reads what the lanes below it have left, in ascending order. The
model's own readings and choices here: log 32, 138. -/
def Obligations.AtomicsAtTheirHome : Prop :=
  (∀ h o ty op x, ty.bits = 32 ∨ ty.bits = 64 → ∀ s : State,
    let i := Ix.of s h
    let size := ty.bits / 8
    let va := i.va o x size
    let pa (l : Nat) : Nat := i.pa (va l)
    let v (l : Nat) : Val := i.read o.c (.bw ty.wide) l
    let after (c : Val) (m : Nat) : Val := { bits := AtomOp.step op ty c.bits (v m).bits, poison := c.poison || (v m).poison }
    let fetched (l : Nat) : Val := (earlier i pa l).foldl after (s.readAt (s.ctxOf i.x) (pa l) size)
    i.g ≠ 0 → Readable i (memUses h o (Ty.regs ty)) i.g → Writable i o.d (Ty.regs ty) → Granted i .rmw size va →
    HomedAt i va i.here → Orderly i x.so true size va →
    ∃ t, exec (.atom h o ty op x) s = .next t ∧ Loads s t i o.d ty fetched ∧
      (∀ l, i.g.getLsbD l = true → LastWriter i size pa l →
        Holds t (pa l) size (after (fetched l) l).bits) ∧
      KeptMem s t i [(o.d, Ty.regs ty)] (laneBytes i size pa) nowhere) ∧
  (∀ h o ty op x, ty.bits = 32 ∨ ty.bits = 64 → ∀ s : State,
    let i := Ix.of s h
    let size := ty.bits / 8
    let va := i.va o x size
    let pa (l : Nat) : Nat := i.pa (va l)
    let v (l : Nat) : Val := i.read o.c (.bw ty.wide) l
    let after (c : Val) (m : Nat) : Val := { bits := AtomOp.step op ty c.bits (v m).bits, poison := c.poison || (v m).poison }
    i.g ≠ 0 → Readable i (memUses h o (Ty.regs ty)) i.g → Granted i .rmw size va →
    HomedAt i va i.here → MayPost i x.so [] (lanesOf i.g).length →
    (∀ l, i.g.getLsbD l = true → (s.pkg (corePkg i.x.gc)).windowAt (pa l) = none) →
    (s.late = false →
      ∃ t, exec (.red h o ty op x) s = .next t ∧
        (∀ l, i.g.getLsbD l = true → LastWriter i size pa l →
          Holds t (pa l) size (after ((earlier i pa l).foldl after (s.readAt (s.ctxOf i.x) (pa l) size)) l).bits) ∧
        KeptMem s t i [] (laneBytes i size pa) nowhere) ∧
    (s.late = true →
      ∃ t p, exec (.red h o ty op x) s = .next t ∧ KeptBytes s t ∧ t.hoists = s.hoists ∧ t.casts = s.casts ∧ t.net = s.net ++ [p] ∧
        p.src = coreSrc i.x.gc i.x.slot lateUnit ∧ p.tgt = i.here ∧
        p.body = .reduction op ty ((lanesOf i.g).map fun l => (v l).at_ (pa l) size))) ∧
  (∀ h o ty x, ty.bits = 32 ∨ ty.bits = 64 → ∀ s : State,
    let i := Ix.of s h
    let size := ty.bits / 8
    let va := i.va o x size
    let pa (l : Nat) : Nat := i.pa (va l)
    let hit (c : Val) (m : Nat) : Bool := decide (c.bits = (i.expected o.d ty m).bits)
    let after (c : Val) (m : Nat) : Val := if hit c m then i.read o.c (.bw ty.wide) m else c
    let fetched (l : Nat) : Val := (earlier i pa l).foldl after (s.readAt (s.ctxOf i.x) (pa l) size)
    o.d ≠ o.d2 → i.g ≠ 0 →
    Readable i (memUses h o (Ty.regs ty) ++ [{ o := o.d, n := Ty.regs ty, bit := false }]) i.g → Writable i o.d (Ty.regs ty) →
    Granted i .rmw size va → HomedAt i va i.here → Orderly i x.so true size va →
    ∃ t, exec (.cas h o ty x) s = .next t ∧ Loads s t i o.d ty fetched ∧
      GetsPred t i o.d2 (fun l => hit (fetched l) l) ∧
      (∀ l, i.g.getLsbD l = true → LastWriter i size pa l → Holds t (pa l) size (after (fetched l) l).bits) ∧
      KeptMem s t i [(o.d, Ty.regs ty), (o.d2, 1)] (laneBytes i size pa) nowhere)

/-- O17. R219, R220, R247 to R251: LDS, STS and ATOMS in the cast's scratchpad at the anchor core. The model's own readings and
choices here: log 67. -/
def Obligations.ScratchpadAccesses : Prop :=
  (∀ h o ty x, ∀ s : State,
    let i := Ix.of s h
    let size := ty.bits / 8
    let at_ (l : Nat) : Nat := (i.ea o x.scale x.disp size l).toNat
    SpadOk i (memUses h o 0) o x.so size false at_ (i.ea o x.scale x.disp size) →
    Writable i o.d (Ty.regs ty) →
    ∃ t, exec (.lds h o ty x) s = .next t ∧
      Loads s t i o.d ty (fun l => (s.cast (s.castOf i.x)).sval (at_ l) size) ∧
      KeptMem s t i [(o.d, Ty.regs ty)] nothing nowhere) ∧
  (∀ h o ty x, ∀ s : State,
    let i := Ix.of s h
    let size := ty.bits / 8
    let at_ (l : Nat) : Nat := (i.ea o x.scale x.disp size l).toNat
    SpadOk i (memUses h o (Ty.regs ty)) o x.so size true at_ (i.ea o x.scale x.disp size) →
    ∃ t, exec (.sts h o ty x) s = .next t ∧
      (∀ l, i.g.getLsbD l = true → LastWriter i size at_ l → ∀ k, k < size →
        Sparse.get (0 : Byte) (t.cast (s.castOf i.x)).spad (at_ l + k) =
          BitVec.ofNat 8 ((i.read o.c (.bw ty.wide) l).bits.toNat / 256 ^ k)) ∧
      KeptMem s t i [] nothing (fun c a => c = s.castOf i.x ∧ laneBytes i size at_ a)) ∧
  (∀ h o ty op x, ty.bits = 32 ∨ ty.bits = 64 → ∀ s : State,
    let i := Ix.of s h
    let size := ty.bits / 8
    let at_ (l : Nat) : Nat := (i.ea o x.scale x.disp size l).toNat
    let v (l : Nat) : Val := i.read o.c (.bw ty.wide) l
    let after (c : Val) (m : Nat) : Val := { bits := AtomOp.step op ty c.bits (v m).bits, poison := c.poison || (v m).poison }
    let fetched (l : Nat) : Val := (earlier i at_ l).foldl after ((s.cast (s.castOf i.x)).sval (at_ l) size)
    SpadOk i (memUses h o (Ty.regs ty)) o x.so size true at_ (i.ea o x.scale x.disp size) →
    Writable i o.d (Ty.regs ty) →
    ∃ t, exec (.atoms h o ty op x) s = .next t ∧ Loads s t i o.d ty fetched ∧
      (∀ l, i.g.getLsbD l = true → LastWriter i size at_ l → ∀ k, k < size →
        Sparse.get (0 : Byte) (t.cast (s.castOf i.x)).spad (at_ l + k) =
          BitVec.ofNat 8 ((after (fetched l) l).bits.toNat / 256 ^ k)) ∧
      KeptMem s t i [(o.d, Ty.regs ty)] nothing (fun c a => c = s.castOf i.x ∧ laneBytes i size at_ a))

/-- O18. R238, R254 to R257: FENCE sets and clears the drain mark, WAITA waits while every lane reads its expected value and goes
on otherwise, POLL reads once and backs off, and HOME describes the home of an address. The model's own readings and choices
here: log 139. -/
def Obligations.FencesWaitsAndHomes : Prop :=
  (∀ h o so, ∀ s : State,
    let i := Ix.of s h
    i.g ≠ 0 → Released i so →
    ∃ t, exec (.fence h o so) s = .next t ∧ KeptMem s t i [] nothing nowhere ∧
      (t.frag i.f).drain =
        (let kept := if ScopeOrder.rel so && i.wideScope so.scope then none else i.x.drain
         if ScopeOrder.acq so && !i.wideScope so.scope then some (max (kept.getD 0) (s.core i.x.gc).sent)
         else if ScopeOrder.acq so then laterCount kept i.x.seen else kept)) ∧
  (∀ h o ty x, ∀ s : State,
    let i := Ix.of s h
    let size := ty.bits / 8
    let va := i.va o x size
    let val (l : Nat) : Val := s.readAt (s.ctxOf i.x) (i.pa (va l)) size
    let ne (l : Nat) : Bool := decide ((val l).bits ≠ (i.expected o.c ty l).bits)
    o.d ≠ o.d2 → i.g ≠ 0 → Readable i (memUses h o (Ty.regs ty)) i.g → Writable i o.d (Ty.regs ty) → Granted i .watch size va →
    HomedAt i va i.here → Orderly i x.so false size va →
    ((lanesOf i.g).any ne = true ∨ i.e.woken = true →
      ∃ t, exec (.waita h o ty x) s = .next t ∧ Gets t i o.d ty val ∧ GetsPred t i o.d2 ne ∧
        KeptMem s t i [(o.d, Ty.regs ty), (o.d2, 1)] nothing nowhere) ∧
    ((lanesOf i.g).any ne = false → i.e.woken = false →
      ∃ t, exec (.waita h o ty x) s = .next t ∧ KeptMem s t i [] nothing nowhere ∧
        (t.frag i.f).entries = (i.x.waitAt i.e.prio i.e.pc
          (.waita ((lanesOf i.g).map fun l => i.pa (va l)) size false)).entries)) ∧
  (∀ h o ty x, ∀ s : State,
    let i := Ix.of s h
    let size := ty.bits / 8
    let va := i.va o x size
    let val (l : Nat) : Val := s.readAt (s.ctxOf i.x) (i.pa (va l)) size
    let ne (l : Nat) : Bool := decide ((val l).bits ≠ (i.expected o.c ty l).bits)
    o.d ≠ o.d2 → i.g ≠ 0 → Readable i (memUses h o (Ty.regs ty)) i.g → Writable i o.d (Ty.regs ty) →
    Granted i { Acc.watch with repl := false } size va → HomedAt i va i.here → Orderly i x.so false size va →
    ∃ t, exec (.poll h o ty x) s = .next t ∧ Gets t i o.d ty val ∧ GetsPred t i o.d2 ne ∧
      KeptMem s t i [(o.d, Ty.regs ty), (o.d2, 1)] nothing nowhere ∧
      ((lanesOf i.g).any ne = true → (t.frag i.f).backoff = 64 ∧ (t.frag i.f).pause = i.x.pause) ∧
      ((lanesOf i.g).any ne = false → (t.frag i.f).pause = some (s.now + i.x.backoff) ∧
        (t.frag i.f).backoff = min (2 * i.x.backoff) 65536)) ∧
  (∀ h o sc disp, ∀ s : State,
    let i := Ix.of s h
    let va (l : Nat) : Nat := wrapTo (i.ea o sc disp 1 l) 64
    i.g ≠ 0 → Readable i (memUses h o 0) i.g → Writable i o.d 1 →
    (∀ l, i.g.getLsbD l = true → i.translate (va l) ≠ .miss) →
    ∃ t, exec (.home h o sc disp) s = .next t ∧ KeptMem s t i [(o.d, 1)] nothing nowhere ∧
      Gets t i o.d .b32 fun l => Val.ofNat (match i.translate (va l) with
        | .ok _ pa =>
          if s.coreBarred i.x.gc (s.ctxOf i.x).toNat pa then 2 ^ 30
          else if paHost pa then 2 ^ 31
          else if i.outside pa then 2 ^ 29 + paHearth pa else paHearth pa
        | _ => 2 ^ 30))

/-- O19. R38, R40, R213, R258: a fragment whose lanes all access one remote hearth leaves its core for it, whole, before the
access takes effect; GO does the same for its address, and goes on where it already stands; GO.ANCHOR leaves for the anchor.
The model's own readings and choices here: log 13. -/
def Obligations.RemoteAccessesMigrate : Prop :=
  (∀ h o ty x home, ∀ s : State,
    let i := Ix.of s h
    let size := ty.bits / 8
    let va := i.va o x size
    i.g ≠ 0 → i.g = i.x.lanes → i.e.mask = i.g → home < 1024 → home ≠ i.here → i.x.trap = none →
    Readable i (memUses h o 0) i.g → Writable i o.d (Ty.regs ty) → Granted i (.read true) size va → HomedAt i va home →
    (∀ c ∈ (s.core i.x.gc).hints, c.target ≠ home) →
    ∃ t, exec (.ld h o ty x) s = .next t ∧ (∀ a, t.byte a = s.byte a) ∧ t.hoists = s.hoists ∧ t.net = s.net ∧
      (t.frag i.f).place = .departing i.x.gc i.x.slot home (x.lsel.setWidth 8) false false ∧
      (t.frag i.f).entries = i.x.entries) ∧
  (∀ h o sc disp lsel home, ∀ s : State,
    let i := Ix.of s h
    let va (l : Nat) : Nat := wrapTo (i.ea o sc disp 1 l) 64
    i.g ≠ 0 → i.g = i.x.lanes → i.e.mask = i.g → home < 1024 → i.x.trap = none →
    Readable i (memUses h o 0) i.g → Granted i .go 1 va → HomedAt i va home →
    (home = i.here → s.lateAt i.x.gc = false ∧ ∀ e ∈ i.x.pseq, e.tgt = i.here → s.pendingTo e.src e.tgt e.seq = false) →
    (∀ c ∈ (s.core i.x.gc).hints, c.target ≠ home) →
    ∃ t, exec (.go h o sc disp lsel) s = .next t ∧ (∀ a, t.byte a = s.byte a) ∧ t.hoists = s.hoists ∧ t.net = s.net ∧
      (home ≠ i.here → (t.frag i.f).place = .departing i.x.gc i.x.slot home (lsel.setWidth 8) false false ∧
        (t.frag i.f).entries = i.x.entries) ∧
      (home = i.here → (t.frag i.f).place = i.x.place ∧ WentOn s t i)) ∧
  (∀ h o lsel, ∀ s : State,
    let i := Ix.of s h
    i.g ≠ 0 →
    (s.atAnchor i.x = true → ∃ t, exec (.goAnchor h o lsel) s = .next t ∧ WentOn s t i ∧ KeptMem s t i [] nothing nowhere) ∧
    (s.atAnchor i.x = false → i.x.trap = none → i.e.mask = i.x.lanes → i.e.mask ≠ 0 →
      (∀ c ∈ (s.core i.x.gc).hints, c.target ≠ s.anchorOf i.x / 8) →
      ∃ t, exec (.goAnchor h o lsel) s = .next t ∧ (∀ a, t.byte a = s.byte a) ∧ t.hoists = s.hoists ∧ t.net = s.net ∧
        (t.frag i.f).place = .departing i.x.gc i.x.slot (s.anchorOf i.x / 8) (lsel.setWidth 8) true false ∧
        (t.frag i.f).entries = i.x.entries))

/-- O20. R331, R334, R335, R336, R342: BRA and BRX move the guard-true lanes to their targets with the priority PRI and the
others to the next instruction; BRX may leave a link; BRK pops the innermost loop when no lane remains in its body. -/
def Obligations.BranchesMoveLanes : Prop :=
  (∀ h o brk pri, ∀ s : State,
    let i := Ix.of s h
    let target := i.literalTarget o
    i.g ≠ 0 → InBody i → target.toNat % 4 = 0 → NoPrio i i.g pri (fun _ => target) →
    ∃ t, exec (.bra h o brk pri) s = .next t ∧ Steered s t i ∧
      Frontier i.x.entries (t.frag i.f).entries i.e (forks i fun _ => (pri, target)) ∧
      (t.frag i.f).loops =
        (match brk, i.x.loops with
         | true, lp :: rest =>
           if lp.holds i.e.pc = true ∧ (∀ e ∈ (t.frag i.f).entries, lp.holds e.pc = false) ∧ i.x.atEnd = [] then rest
           else i.x.loops
         | _, _ => i.x.loops)) ∧
  (∀ h o pri, ∀ s : State,
    let i := Ix.of s h
    let target (l : Nat) : DWord := (i.read o.a (.bw true) l).bits
    i.g ≠ 0 → Readable i [{ o := o.a, n := 2, bit := h.ea }] i.g → InBody i →
    (∀ l, i.g.getLsbD l = true → (target l).toNat % 4 = 0) → NoPrio i i.g pri target → i.isEmpty o.d 2 = false →
    (∀ k, o.d ≠ .m k) →
    ∃ t, exec (.brx h o pri) s = .next t ∧
      Gets t i o.d .b64 (fun _ => { bits := (BitVec.ofNat 11 i.e.prio.toNat ++ (i.next.setWidth 53 : BitVec 53) : DWord),
                                    poison := false }) ∧
      Kept s t i [(o.d, 2)] ∧ Frontier i.x.entries (t.frag i.f).entries i.e (forks i fun l => (pri, target l)))

/-- O21. R336 to R339: CALL and CALLX raise the window base, write the link word to D in the new window, and send the guard-true
lanes to their targets; RET sends them back and lowers the base. The model's own readings and choices here: log 16. -/
def Obligations.CallsAndReturns : Prop :=
  (∀ h o sh pri lsel, ∀ s : State,
    let i := Ix.of s h
    let base := i.x.wbase + 8 * sh.toNat
    let j : Ix := { i with x := { i.x with wbase := base } }
    let link : DWord := sh ++ i.e.prio ++ (i.next.setWidth 53 : BitVec 53)
    let ok (target : Nat → DWord) : Prop :=
      sh ≠ 0 ∧ i.g ≠ 0 ∧ InBody i ∧ base + 64 ≤ (s.pour (s.pourOf i.x)).allot ∧
      (∀ l, i.g.getLsbD l = true → (target l).toNat % 4 = 0) ∧ i.next.toNat < 2 ^ 53 ∧ NoPrio i i.g pri target ∧
      s.atAnchor i.x = true ∧ (i.x.handler = true → i.x.frontier = i.g) ∧ j.isEmpty o.d 2 = false
    (ok (fun _ => i.literalTarget o) →
      ∃ t, exec (.call h o sh pri lsel) s = .next t ∧
        (∀ q, o.d = .v q → Gets t j o.d .b64 fun _ => { bits := link, poison := false }) ∧ KeptBytes s t ∧
        Shifted s t i base fun _ => (pri, i.literalTarget o)) ∧
    (Readable i [{ o := o.a, n := 2, bit := h.ea }] i.g → ok (fun l => (i.read o.a (.bw true) l).bits) →
      ∃ t, exec (.callx h o sh pri lsel) s = .next t ∧
        (∀ q, o.d = .v q → Gets t j o.d .b64 fun _ => { bits := link, poison := false }) ∧ KeptBytes s t ∧
        Shifted s t i base fun l => (pri, (i.read o.a (.bw true) l).bits))) ∧
  (∀ h o lsel sh, ∀ s : State,
    let i := Ix.of s h
    let w (l : Nat) : DWord := (i.read o.a (.bw true) l).bits
    let rpc (l : Nat) : DWord := ((w l).setWidth 53 : BitVec 53).setWidth 64
    i.g ≠ 0 → Readable i [{ o := o.a, n := 2, bit := h.ea }] i.g → InBody i →
    (∀ l, i.g.getLsbD l = true → (w l).toNat / 2 ^ 61 = sh) → 8 * sh ≤ i.x.wbase →
    (∀ l, i.g.getLsbD l = true → (rpc l).toNat % 4 = 0) → s.atAnchor i.x = true →
    (sh ≠ 0 → i.x.handler = true → i.x.frontier = i.g) →
    ∃ t, exec (.ret h o lsel) s = .next t ∧ KeptBytes s t ∧
      (sh = 0 → Steered s t i ∧
        Frontier i.x.entries (t.frag i.f).entries i.e (forks i fun l => ((w l).extractLsb' 53 8, rpc l))) ∧
      (sh ≠ 0 → Shifted s t i (i.x.wbase - 8 * sh) fun l => ((w l).extractLsb' 53 8, rpc l)))

/-- O22. R340, R344, R346: LOOP pushes a loop whose body is the next instruction through the end instruction, or skips it; REP
sets the repeat counter for the next instruction, or skips it. Where the next instruction cannot be read REP asks nothing of
it, since the fetch there raises its own trap. R331, R346: lanes that complete an instruction go on past it, to the end test
of a loop whose end instruction it is (R341), or stay for the next repetition. The model's own readings and choices here: log
18, 19. -/
def Obligations.LoopsAndRepeats : Prop :=
  (
  (∀ h o pri, ∀ s : State,
    let i := Ix.of s h
    let count := (i.uniform o.a .w32).bits.toNat % 2 ^ 24
    let stop := i.literalTarget o
    let after := stop + BitVec.ofNat 64 ((i.lengthAt stop).getD 0)
    let skip : LaneMask := if count = 0 then i.e.mask else i.e.mask &&& ~~~i.g
    i.g ≠ 0 → Readable i [{ o := o.a, n := 1, bit := h.ea }] i.g → InBody i →
    (count ≠ 0 → i.x.loops.length < 4) → NoPrio i skip pri (fun _ => after) →
    ∃ t, exec (.loop h o pri) s = .next t ∧ Steered s t i ∧
      Frontier i.x.entries (t.frag i.f).entries i.e
        (fun l => some (if skip.getLsbD l then (pri, after) else (i.e.prio, i.next))) ∧
      (t.frag i.f).loops = (if count = 0 then i.x.loops
        else { count := BitVec.ofNat 24 count, prio := i.e.prio, start := i.next, stop } :: i.x.loops)) ∧
  (∀ h o sd sa sb sc, ∀ s : State,
    let i := Ix.of s h
    let st : Strides := { d := strideOf sd, a := strideOf sa, b := strideOf sb, c := strideOf sc }
    let n := (i.uniform o.b .w32).bits.toNat % 256
    i.g ≠ 0 → (∀ bs, i.codeAt i.next = some bs →
      ∃ nx, decode bs = .ok nx ∧ repeatable nx st = true ∧ repInWindow nx st (n - 1) = true) →
    Readable i [{ o := o.b, n := 1, bit := h.eb }] i.g → InBody i →
    ∃ t, exec (.rep h o sd sa sb sc) s = .next t ∧ Steered s t i ∧ (t.frag i.f).loops = i.x.loops ∧
      (n ≠ 0 → Frontier i.x.entries (t.frag i.f).entries i.e (fun _ => some (i.e.prio, i.next)) ∧
        (t.frag i.f).rep = some (i.e.prio, i.next) ∧ (t.frag i.f).repc = sc ++ sb ++ sa ++ sd ++ 0#8 ++ BitVec.ofNat 8 n ++ 0#8) ∧
      (n = 0 → (t.frag i.f).rep = i.x.rep ∧ (t.frag i.f).repc = i.x.repc ∧
        Frontier (i.x.entries ++ i.x.atEnd) ((t.frag i.f).entries ++ (t.frag i.f).atEnd) i.e
          (fun _ => some (i.e.prio, i.next + BitVec.ofNat 64 ((i.lengthAt i.next).getD 0)))))
  ) ∧
  (
  ∀ (x : Frag) (e : Entry) (next : DWord), findEntry x.entries e.prio e.pc = some e →
    let y := x.complete e.prio e.pc next e.mask
    (x.repeats e.prio e.pc = false → (∀ lp ∈ x.loops.head?, lp.stop ≠ e.pc) →
      Frontier x.entries y.entries e (fun _ => some (e.prio, next)) ∧ y.atEnd = x.atEnd) ∧
    (x.repeats e.prio e.pc = false → (∃ lp ∈ x.loops.head?, lp.stop = e.pc) →
      Frontier x.entries y.entries e (fun _ => none) ∧
      ∀ p pc l, (lanesAt y.atEnd p pc).getLsbD l =
        ((lanesAt x.atEnd p pc).getLsbD l || (e.mask.getLsbD l && decide ((e.prio, next) = (p, pc))))) ∧
    (x.repeats e.prio e.pc = true → x.repc.toNat % 256 + 1 < x.repc.toNat / 256 % 256 →
      y = { x with repc := x.repc + 1 }) ∧
    (x.repeats e.prio e.pc = true → ¬ x.repc.toNat % 256 + 1 < x.repc.toNat / 256 % 256 → y.rep = none ∧ y.repc = 0)
  )

/-- O23. R348, R349, R350, R351: MSET, LEAVE and WAITM at the slot of the masks, EMSET, and a JOIN that completes. The model's
own readings and choices here: log 20, 107. -/
def Obligations.MasksAndJoins : Prop :=
  (∀ h o mode lsel k, o.d = .m k → ∀ s : State,
    let i := Ix.of s h
    let b : LaneMask := (i.uniform o.b .w32).bits.setWidth 32
    let old : LaneMask := Sparse.get 0 i.h.masks k.toNat
    i.g ≠ 0 → Readable i [{ o := o.b, n := 1, bit := h.eb }] i.g → (i.h.split = true → s.atAnchor i.x = true) →
    ∃ t, exec (.mset h o mode lsel) s = .next t ∧ Kept s t i [(.m k, 1)] ∧ WentOn s t i ∧
      Sparse.get 0 (t.hoist i.x.hoist).masks k.toNat =
        (match mode with | .em => i.g | .mov => b | .or => old ||| b | .andn => old &&& ~~~b)) ∧
  (∀ h o lsel k, o.a = .m k → ∀ s : State,
    let i := Ix.of s h
    let m : LaneMask := Sparse.get 0 i.h.masks k.toNat
    i.g ≠ 0 → (i.h.split = true → s.atAnchor i.x = true) →
    (∃ t, exec (.leave h o lsel) s = .next t ∧ Kept s t i [(.m k, 1)] ∧ WentOn s t i ∧
      Sparse.get 0 (t.hoist i.x.hoist).masks k.toNat = m &&& ~~~i.g) ∧
    (i.x.handler = false → m &&& ~~~i.g = 0 →
      ∃ t, exec (.waitm h o lsel) s = .next t ∧ Kept s t i [] ∧ WentOn s t i) ∧
    (i.x.handler = false → m &&& ~~~i.g ≠ 0 →
      exec (.waitm h o lsel) s = .next (s.setFrag i.f (i.x.waitAt i.e.prio i.e.pc (.waitm k))))) ∧
  (∀ h o lsel, ∀ s : State,
    let i := Ix.of s h
    let park : LaneMask := i.g &&& ~~~(i.uniform o.b .w32).bits.setWidth 32
    i.g ≠ 0 → Readable i [{ o := o.b, n := 1, bit := h.eb }] i.g → i.x.handler = false →
    (i.h.split = true → s.atAnchor i.x = true ∧ (park ≠ 0 → s.performed i.x = true)) →
    (i.x.lanes &&& ~~~park = 0 → i.x.pinned = []) →
    (∃ l, l < 32 ∧ i.h.exited.getLsbD l = false ∧ (s.heldLanes i.x.hoist).getLsbD l = false ∧ park.getLsbD l = false) →
    ∃ t, exec (.emset h o lsel) s = .next t ∧ KeptBytes s t ∧
      Sparse.get 0 (t.hoist i.x.hoist).masks 11 = Sparse.get 0 i.h.masks 11 ||| park ∧
      (t.hoist i.x.hoist).held = i.h.held ||| park ∧
      (∀ q : BitVec 4, q ≠ 11 → Sparse.get 0 (t.hoist i.x.hoist).masks q.toNat = Sparse.get 0 i.h.masks q.toNat) ∧
      { t.hoist i.x.hoist with masks := i.h.masks, held := i.h.held, mmarks := i.h.mmarks, vregs := i.h.vregs,
                               vpoison := i.h.vpoison } = i.h ∧
      (i.x.lanes &&& ~~~park ≠ 0 ∨ i.x.fills = [] →
        (t.hoist i.x.hoist).vregs = i.h.vregs ∧ (t.hoist i.x.hoist).vpoison = i.h.vpoison) ∧
      (i.x.lanes &&& ~~~park = 0 → t.frag i.f = .dead) ∧
      (i.x.lanes &&& ~~~park ≠ 0 → (t.frag i.f).lanes = i.x.lanes &&& ~~~park ∧
        (i.x.repeats i.e.prio i.e.pc = false → InBody i →
          Frontier i.x.entries (t.frag i.f).entries i.e
            fun l => if park.getLsbD l then none else some (i.e.prio, i.next)))) ∧
  (∀ h o lsel k, o.a = .m k → ∀ s : State,
    let i := Ix.of s h
    let m : LaneMask := Sparse.get 0 i.h.masks k.toNat
    let held := s.heldOn i.x.hoist k ||| (i.g &&& m)
    let all := held ||| i.e.mask
    i.g ≠ 0 → i.e.mask &&& i.x.lanes ≠ 0 → i.x.handler = false → s.atAnchor i.x = true → m &&& ~~~held = 0 →
    (∀ f ∈ s.joinParts i.x.hoist all, (s.frag f).hasEmpty = false ∧ (s.frag f).pinned = []) →
    (s.joinedPSeq (s.joinParts i.x.hoist all)).length ≤ 4 →
    ∃ t f, exec (.join h o lsel) s = .next t ∧ KeptBytes s t ∧ f ∈ s.joinParts i.x.hoist all ∧
      (∀ l, all.getLsbD l = true →
        (lanesAt ((t.frag f).entries ++ (t.frag f).atEnd) i.e.prio i.next).getLsbD l = true) ∧
      (∀ g ∈ s.joinParts i.x.hoist all, ∀ l, (s.frag g).lanes.getLsbD l = true → (t.frag f).lanes.getLsbD l = true) ∧
      (∀ g ∈ s.joinParts i.x.hoist all, g ≠ f → t.frag g = .dead) ∧
      (∀ e ∈ (t.frag f).entries, e.wait ≠ some (.join k)) ∧
      (t.frag f).pseq = s.joinedPSeq (s.joinParts i.x.hoist all) ∧
      (t.hoist i.x.hoist).masks = i.h.masks ∧
      (k = 11 → (t.hoist i.x.hoist).held = 0) ∧ (k ≠ 11 → (t.hoist i.x.hoist).held = i.h.held))

/-- O24. R94, R231, R239, R272, R314, R352, R353: BAR records arrivals at the anchor, or sends them there, and, under SYNC, waits
until its barrier opens; the arrival that reaches the count opens it, lanes that wait go to the next PC, those that have
arrived have an acquire, and a new phase begins; YIELD makes its hoist pending; SLEEP stops it for a number of clocks; NOP
only goes on. The model's own readings and choices here: log 136. -/
def Obligations.BarriersAndPauses : Prop :=
  (∀ h o num arv, ∀ s : State,
    let i := Ix.of s h
    let ck := i.h.cast
    let b := (s.cast ck).bar num.toNat
    let n := b.count.getD (min ((i.uniform o.b .w32).bits.toNat % 2048) 1024)
    let new := i.barLanes num.toNat arv
    let w : BarWait := { hoist := i.x.hoist, pc := i.e.pc, next := i.next, lanes := new }
    let b' : Barrier := if new = 0 then b else
      { arrived := addLanes b.arrived (i.x.hoist % 32) new, waits := if arv then b.waits else b.waits ++ [w], count := some n }
    let opens : Prop := new ≠ 0 ∧ (if n = 0 then s.aliveLanes ck else n) ≤ laneCount (addLanes b.arrived (i.x.hoist % 32) new)
    let stands (t : State) : Prop :=
      (arv = true → (t.frag i.f).entries = (i.x.complete i.e.prio i.e.pc i.next i.e.mask).entries) ∧
      (arv = false → i.g = i.e.mask → (t.frag i.f).entries = (i.x.waitAt i.e.prio i.e.pc (.bar num)).entries)
    i.g ≠ 0 → Readable i [{ o := o.b, n := 1, bit := h.eb }] i.g → i.x.handler = false →
    (if i.wideScope .cast then s.performed i.x else s.coreDone i.x) = true → s.barFull ck num.toNat = false →
    (s.cast ck).parking = false → (s.cast ck).st ≠ .parked →
    (s.atAnchor i.x = true → ¬ opens →
      ∃ t, exec (.bar h o num arv) s = .next t ∧ { t with frags := s.frags, casts := s.casts, cores := s.cores } = s ∧
        (t.cast ck).bar num.toNat = b' ∧ (∀ k, k ≠ num.toNat → (t.cast ck).bar k = (s.cast ck).bar k) ∧ stands t) ∧
    (s.atAnchor i.x = true → opens →
      ∃ t, exec (.bar h o num arv) s = .next t ∧ KeptBytes s t ∧ t.hoists = s.hoists ∧ (t.cast ck).bar num.toNat = .idle ∧
        (∀ k, k ≠ num.toNat → (t.cast ck).bar k = (s.cast ck).bar k) ∧
        (arv = true → b.waits = [] → (t.frag i.f).entries = (i.x.complete i.e.prio i.e.pc i.next i.e.mask).entries) ∧
        (arv = false → new = i.g → i.g &&& ~~~i.x.lanes = 0 → (∀ v ∈ b.waits, v.hoist ≠ i.x.hoist) →
          ∀ l, i.g.getLsbD l = true →
            (lanesAt ((t.frag i.f).entries ++ (t.frag i.f).atEnd) i.e.prio i.next).getLsbD l = true) ∧
        (i.x.hoist / 32 = ck → new &&& i.x.lanes ≠ 0 → ∃ m, (t.frag i.f).drain = some m ∧ (s.core i.x.gc).sent ≤ m)) ∧
    (s.atAnchor i.x = false →
      ∃ t l, exec (.bar h o num arv) s = .next t ∧ KeptBytes s t ∧ t.hoists = s.hoists ∧ t.casts = s.casts ∧
        t.net = s.net ++ l ∧ stands t ∧ (new = 0 → l = []) ∧
        (new ≠ 0 → ∃ p, l = [p] ∧ p.tgt = s.anchorOf i.x / 8 ∧
          p.body = .arrive ck num.toNat i.x.hoist new (min ((i.uniform o.b .w32).bits.toNat % 2048) 1024) (!arv) i.e.pc i.next))) ∧
  (∀ h o, ∀ s : State,
    let i := Ix.of s h
    i.g ≠ 0 →
    ∃ t, exec (.yield h o) s = .next t ∧
      { t with frags := s.frags, cores := s.cores } = s ∧ WentOn s t i ∧
      i.x.slot ∉ Sparse.get [] (t.core i.x.gc).active (i.x.slot / 32) ∧
      (∀ k ∈ Sparse.get [] (s.core i.x.gc).active (i.x.slot / 32), k ≠ i.x.slot →
        k ∈ Sparse.get [] (t.core i.x.gc).active (i.x.slot / 32)) ∧
      Sparse.get 0 (t.core i.x.gc).readyAt i.x.slot = s.now) ∧
  (∀ h o, ∀ s : State,
    let i := Ix.of s h
    let n := (i.uniform o.b .w32).bits.toNat % 2 ^ 24
    i.g ≠ 0 → Readable i [{ o := o.b, n := 1, bit := h.eb }] i.g →
    ∃ t, exec (.sleep h o) s = .next t ∧ { t with frags := s.frags, cores := s.cores } = s ∧ WentOn s t i ∧
      (t.frag i.f).sleep = if n = 0 then i.x.sleep else some (s.now + n)) ∧
  (∀ h o, ∀ s : State, let i := Ix.of s h; ∃ t, exec (.nop h o) s = .next t ∧ Kept s t i [] ∧ WentOn s t i)

/-- O25. R42, R327, R354, R355: EXIT ends the guard-true lanes and clears their mask bits at the anchor, or sends a notice there;
the last lanes end the hoist; RAISE counts its lanes. The model's own readings and choices here: log 21, 22. -/
def Obligations.LanesExitAndRaise : Prop :=
  (∀ h o, ∀ s : State,
    let i := Ix.of s h
    let free := (i.mustRelease = true → s.performed i.x = true) ∧ (i.x.lanes &&& ~~~i.g = 0 → i.x.pinned = [])
    (i.g ≠ 0 → free → s.atAnchor i.x = true → i.x.trap = none →
      (∃ l, l < 32 ∧ i.h.exited.getLsbD l = false ∧ (s.heldLanes i.x.hoist).getLsbD l = false ∧ i.g.getLsbD l = false) →
      ∃ t, exec (.exit h o) s = .next t ∧ KeptBytes s t ∧ (t.hoist i.x.hoist).exited = i.h.exited ||| i.g ∧
        (∀ q : Nat, q < 12 → Sparse.get 0 (t.hoist i.x.hoist).masks q = Sparse.get 0 i.h.masks q &&& ~~~i.g) ∧
        (i.x.lanes &&& ~~~i.g = 0 → t.frag i.f = .dead) ∧
        (i.x.lanes &&& ~~~i.g ≠ 0 → (t.frag i.f).lanes = i.x.lanes &&& ~~~i.g ∧
          (InBody i → (∀ b ∈ (s.cast i.h.cast).bars, ∀ w ∈ b.2.waits, w.hoist = i.x.hoist → w.lanes &&& i.x.lanes = 0) →
            Frontier i.x.entries (t.frag i.f).entries i.e
              fun l => if i.g.getLsbD l then none else some (i.e.prio, i.next)))) ∧
    (i.g ≠ 0 → free → s.atAnchor i.x = true → i.h.live = true → i.x.lanes = i.g → s.hoistFrags i.x.hoist = [i.f] →
      i.h.exited ||| i.g = BitVec.allOnes 32 →
      ∃ t, exec (.exit h o) s = .next t ∧ KeptBytes s t ∧ t.frag i.f = .dead ∧ (t.hoist i.x.hoist).live = false ∧
        (∀ p ∈ (t.core (s.cast i.h.cast).anchor).anchors, p.2 ≠ some i.x.hoist)) ∧
    (i.g ≠ 0 → free → s.atAnchor i.x = false →
      (∀ c ∈ (s.core i.x.gc).hints, c.target ≠ s.anchorOf i.x / 8) →
      ∃ t p, exec (.exit h o) s = .next t ∧ KeptBytes s t ∧ t.net = s.net ++ [p] ∧ p.tgt = s.anchorOf i.x / 8 ∧
        p.body = .exitNotice i.x.hoist i.g ∧ p.cast = some i.h.cast ∧
        (t.hoist i.x.hoist).exited = i.h.exited ∧
        (i.x.lanes &&& ~~~i.g = 0 → t.frag i.f = .dead) ∧
        (i.x.lanes &&& ~~~i.g ≠ 0 → (t.frag i.f).lanes = i.x.lanes &&& ~~~i.g))) ∧
  (∀ h o, ∀ s : State,
    let i := Ix.of s h
    let c := s.cast i.h.cast
    let counts := (s.pour c.pour).deps = true ∧ c.psent = false ∧ (i.h.raised ||| i.h.exited) ≠ BitVec.allOnes 32
    (i.g ≠ 0 → i.x.handler = false → ¬ counts → ∃ t, exec (.raise h o) s = .next t ∧ Kept s t i [] ∧ WentOn s t i) ∧
    (i.g ≠ 0 → i.x.handler = false → counts → (i.mustRelease = true → s.performed i.x = true) →
      ∃ t, exec (.raise h o) s = .next t ∧ KeptBytes s t ∧ WentOn s t i ∧
        (t.hoist i.x.hoist).raised = i.h.raised ||| i.g ∧ { t.hoist i.x.hoist with raised := i.h.raised } = i.h ∧
        t.cast i.h.cast = { c with raiser := true } ∧
        { t with frags := s.frags, hoists := s.hoists, casts := s.casts } = s))

/-- O26. R272, R356, R357: POUR adds a launch request to the waiting list of the record's hearth, or sends it there from another;
POURW at the record's home delivers the final STATUS, or waits for it. The model's own readings and choices here: log 50, 59,
137. -/
def Obligations.LaunchInstructions : Prop :=
  (∀ h o, ∀ s : State,
    let i := Ix.of s h
    let a := (i.uniform o.a (.bw true)).bits.toNat
    let gh := paHearth (i.pa a)
    i.g ≠ 0 → Readable i [{ o := o.a, n := 2, bit := h.ea }] i.g → Granted i .rmw 128 (fun _ => a) →
    (i.wideScope .domain = true → s.performed i.x = true) → s.listFull gh = false →
    ∃ t, exec (.pour h o) s = .next t ∧ KeptBytes s t ∧ WentOn s t i ∧ (t.frag i.f).drain = none ∧ t.hoists = s.hoists ∧
      (∀ k, k ≠ gh → t.hearth k = s.hearth k) ∧
      (gh = i.here → t.net = s.net ∧ t.hearth gh = { s.hearth gh with
        waiting := (s.hearth gh).waiting ++ [{ ctx := s.ctxOf i.x, reserved := false, recPa := i.pa a }] }) ∧
      (gh ≠ i.here → t.hearth gh = s.hearth gh ∧
        ∃ p, t.net = s.net ++ [p] ∧ p.tgt = gh ∧ p.body = .pourRequest (i.pa a) (s.ctxOf i.x) false)) ∧
  (∀ h o lsel, ∀ s : State,
    let i := Ix.of s h
    let a := (i.uniform o.a (.bw true)).bits.toNat
    let v := s.readAt (s.ctxOf i.x) (i.pa a + 0x52) 2
    let st := v.bits.toNat
    i.g ≠ 0 → (∀ k, o.d ≠ .m k) → (∀ k, o.d ≠ .p k) →
    Readable i [{ o := o.a, n := 2, bit := h.ea }] i.g → Writable i o.d 1 → Granted i .rmw 128 (fun _ => a) →
    HomedAt i (fun _ => a) i.here → s.lateAt i.x.gc = false → (∀ e ∈ i.x.pseq, e.tgt = i.here → s.pendingTo e.src e.tgt e.seq = false) →
    (st = 2 ∨ st = 3 ∨ 0x8000 ≤ st →
      ∃ t, exec (.pourw h o lsel) s = .next t ∧ Gets t i o.d .n32 (fun _ => v) ∧ KeptMem s t i [(o.d, 1)] nothing nowhere ∧
        (t.frag i.f).entries = (i.x.complete i.e.prio i.e.pc i.next i.e.mask).entries) ∧
    (¬ (st = 2 ∨ st = 3 ∨ 0x8000 ≤ st) →
      ∃ t, exec (.pourw h o lsel) s = .next t ∧ KeptMem s t i [] nothing nowhere ∧
        (t.frag i.f).entries = (i.x.waitAt i.e.prio i.e.pc (.pourw (i.pa a))).entries))

/-- O27. R358, R394, R395, R414, R420: TRAP and BKPT take their traps, with the address of the instruction and the guard-true
lanes; without a guard-true lane they only go on. R395, R414, R420: a trap in handler mode, or one that finds no handler, is
a double fault: it is counted and recorded with both causes and both PCs, the pour ends as by KILL, and its fragment is gone.
The model's own readings and choices here: log 98, 108. -/
def Obligations.SoftwareTrapsAndDoubleFaults : Prop :=
  (
  ∀ h o code, ∀ s : State,
    let i := Ix.of s h
    (i.g ≠ 0 → Trappable i →
      (∃ t, exec (.trap h o code) s = .next t ∧ Enters s t i 0x11 0 i.g) ∧
      (∃ t, exec (.bkpt h o) s = .next t ∧ Enters s t i 0x12 0 i.g)) ∧
    (i.g = 0 →
      (∃ t, exec (.trap h o code) s = .next t ∧ Kept s t i [] ∧ WentOn s t i) ∧
      (∃ t, exec (.bkpt h o) s = .next t ∧ Kept s t i [] ∧ WentOn s t i))
  ) ∧
  (
  ∀ h o code, ∀ s : State,
    let i := Ix.of s h
    let p := s.pourOf i.x
    let gh := i.here
    let n := (s.hearth gh).errCount
    let at_ := errBase gh + 32 * (n % 524288)
    i.g ≠ 0 → i.x.gc < 8192 → (i.x.trap ≠ none ∨ (s.trapEnt i.x).handler &&& ~~~3 = 0) → (s.pour p).st = .accepted → ofPour p (s.castOf i.x) = true →
    (∃ q ∈ s.casts, q.1 = s.castOf i.x) → (∀ f, (s.frag f).pinned = []) →
    ∃ t, exec (.trap h o code) s = .next t ∧ (t.pour p).st = .killing ∧ t.frag i.f = .dead ∧
      Sparse.get 0 (t.core i.x.gc).counters 3 = Sparse.get 0 (s.core i.x.gc).counters 3 + 1 ∧
      (t.hearth gh).errCount = n + 1 ∧ t.byte (at_ + 8) = 7 ∧ t.byte (at_ + 9) = (s.ctxOf i.x) ∧
      (∀ r, i.x.trap = some r → t.readLE (at_ + 16) 8 = r.pc0.toNat ∧
        t.readLE (at_ + 24) 8 = r.cause.toNat % 256 * 2 ^ 56 + 0x11 * 2 ^ 48 + i.e.pc.toNat % 2 ^ 48) ∧
      (i.x.trap = none → t.readLE (at_ + 16) 8 = i.e.pc.toNat ∧ t.readLE (at_ + 24) 8 = 0x11 * 2 ^ 56)
  )

/-- O28. R61, R112, R392: an empty source traps or waits as its empty bit says; in debug mode an absent one traps; in a context
that traps on poison a poisoned one traps, for the lanes that read it. R214, R384, R386: a load with a misaligned address,
with an address that may not be read, or with one outside its partition takes ALIGN, ACCESS or PARTITION, in this order, for
the lanes to which it applies and with the address of the lowest; one without a translation waits for a walk. The model's own
readings and choices here: log 17. -/
def Obligations.ChecksTrapOrWait : Prop :=
  (
  ∀ h o t sat, ∀ s : State,
    let i := Ix.of s h
    let us := uses3 h o .w32 .w32 .w32
    let run := exec (.iadd h o t sat) s
    i.g ≠ 0 →
    (∀ u ∈ us.head?, i.isEmpty u.o u.n = true → u.bit = true → Trappable i →
      ∃ t', run = .next t' ∧ Enters s t' i 0x03 0 i.g) ∧
    (∀ u ∈ us.head?, i.isEmpty u.o u.n = true → u.bit = false →
      run = .next (s.setFrag i.f (i.x.waitAt i.e.prio i.e.pc .full))) ∧
    ((∀ u ∈ us, i.isEmpty u.o u.n = false) → i.isEmpty o.d 1 = true → s.debug i.x = false →
      (s.trapEnt i.x).tpoison = false → (∀ k, o.d ≠ .m k) →
      run = .next (s.setFrag i.f (i.x.waitAt i.e.prio i.e.pc .full))) ∧
    ((∀ u ∈ us, i.isEmpty u.o u.n = false) → s.debug i.x = true →
      (∃ u ∈ us, i.anyReg i.x.vabsent i.x.sabsent u.o u.n = true) → Trappable i →
      ∃ t', run = .next t' ∧ Enters s t' i 0x0B 0 i.g) ∧
    ((∀ u ∈ us, i.isEmpty u.o u.n = false) → s.debug i.x = false → (s.trapEnt i.x).tpoison = true → Trappable i →
      ∀ m : LaneMask, (∀ l, l < 32 → m.getLsbD l = (i.g.getLsbD l &&
        ((i.read o.a .w32 l).poison || (i.read o.b .w32 l).poison || (i.read o.c .w32 l).poison))) → m ≠ 0 →
      ∃ t', run = .next t' ∧ Enters s t' i 0x09 0 m)
  ) ∧
  (
  ∀ h o ty x, ∀ s : State,
    let i := Ix.of s h
    let size := ty.bits / 8
    let va := i.va o x size
    let mis (l : Nat) : Prop := va l % size ≠ 0
    let bad (l : Nat) : Prop := i.translate (va l) = .fail ∨
      ∃ leaf pa, i.translate (va l) = .ok leaf pa ∧ i.denied (.read true) leaf pa = true
    let out (l : Nat) : Prop := i.outside (i.pa (va l)) = true
    let only (m : LaneMask) (p : Nat → Prop) : Prop :=
      m ≠ 0 ∧ ∀ l, l < 32 → (m.getLsbD l = true ↔ i.g.getLsbD l = true ∧ p l)
    let none_ (p : Nat → Prop) : Prop := ∀ l, i.g.getLsbD l = true → ¬ p l
    i.g ≠ 0 → Readable i (memUses h o 0) i.g → Writable i o.d (Ty.regs ty) → Trappable i →
    (∀ m, only m mis →
      ∃ t, exec (.ld h o ty x) s = .next t ∧ Enters s t i 0x04 (BitVec.ofNat 64 (va (lowestLane m))) m) ∧
    (∀ m, none_ mis → none_ (fun l => i.translate (va l) = .miss) → only m bad →
      ∃ t, exec (.ld h o ty x) s = .next t ∧ Enters s t i 0x05 (BitVec.ofNat 64 (va (lowestLane m))) m) ∧
    (∀ m, none_ mis → none_ (fun l => i.translate (va l) = .miss) → none_ bad → only m out →
      ∃ t, exec (.ld h o ty x) s = .next t ∧ Enters s t i 0x0F (BitVec.ofNat 64 (va (lowestLane m))) m) ∧
    (∀ l, none_ mis → i.g.getLsbD l = true → i.translate (va l) = .miss →
      (∀ m, m < l → i.g.getLsbD m = true → i.translate (va m) ≠ .miss) →
      exec (.ld h o ty x) s =
        .next (s.setFrag i.f (i.x.waitAt i.e.prio i.e.pc (.walk (s.ctxOf i.x) (va l / 65536)))))
  )

/-- O29. R391, R398, R399: MOVSP reads the system registers, those of a trap in handler mode only, and a handler writes the ones
that are writable; elsewhere both raise ILLEGAL. -/
def Obligations.SystemRegisters : Prop :=
  (∀ h o n, ∀ s : State,
    let i := Ix.of s h
    let ty : Ty := if wideSystem n then .b64 else .n32
    (i.g ≠ 0 → (handlerOnly n.toNat = true → i.x.trap ≠ none) → i.isEmpty o.d (Ty.regs ty) = false → (∀ k, o.d ≠ .m k) →
      ∃ t, exec (.movspRead h o n) s = .next t ∧ Gets t i o.d ty (fun l => Val.ofNat (i.system n.toNat l)) ∧
        Kept s t i [(o.d, Ty.regs ty)] ∧ WentOn s t i) ∧
    (handlerOnly n.toNat = true → i.x.trap = none →
      exec (.movspRead h o n) s = .next (s.raise i.f i.e 0x01 0 i.e.mask))) ∧
  (∀ h (s : State) (l : Nat),
    let i := Ix.of s h
    (∀ r, i.x.trap = some r → i.system 0x20 l = r.cause.toNat ∧ i.system 0x21 l = r.pc.toNat ∧
      i.system 0x22 l = r.lanes.toNat ∧ i.system 0x23 l = r.addr.toNat ∧ i.system 0x24 l = r.prio.toNat ∧
      i.system 0x25 l = r.em.toNat ∧ i.system 0x28 l = r.scr0.toNat ∧ i.system 0x29 l = r.scr1.toNat ∧
      i.system 0x2A l = r.scr2.toNat ∧ i.system 0x2B l = r.scr3.toNat) ∧
    i.system 0x2C l = ((s.trapEnt i.x).harea.toNat + 2 ^ 20 * (i.x.gc / 8 % 16) + 2 ^ 17 * (i.x.gc % 8) +
      2 ^ 10 * i.x.slot) % 2 ^ 64 ∧
    i.system 0x30 l = (if i.x.trap = none then 0 else 1) + (if s.managing i.x then 2 else 0)) ∧
  (∀ h o n, ∀ s : State,
    let i := Ix.of s h
    let v := (i.uniform o.b (.bw true)).bits
    (∀ r, i.x.trap = some r → i.g ≠ 0 → Readable i [{ o := o.b, n := 1, bit := h.eb }] i.g →
      ∃ t, exec (.movspWrite h o n) s = .next t ∧ WentOn s t i ∧ { t with frags := s.frags, cores := s.cores } = s ∧
        (t.frag i.f).trap = some (match n.toNat with
          | 0x21 => { r with pc := v }
          | 0x24 => { r with prio := v.setWidth 8 }
          | 0x28 => { r with scr0 := v }
          | 0x29 => { r with scr1 := v }
          | 0x2A => { r with scr2 := v }
          | 0x2B => { r with scr3 := v }
          | _ => r)) ∧
    (i.x.trap = none → exec (.movspWrite h o n) s = .next (s.raise i.f i.e 0x01 0 i.e.mask)))

/-- O30. R391, R394, R400, R401, R408: RFT sends the guard-true lanes back among the entries set aside, at the priority that
returning lanes take; when no lane remains in the handler those entries issue again. HALT returns in the same way and parks
the cast with its gang; PARK parks it, or takes back a wake bit. Away from the launch hearth, which keeps the bits, both ask
it. The model's own readings and choices here: log 62, 64. -/
def Obligations.ReturnsFromTraps : Prop :=
  (∀ h o tgt, ∀ s : State,
    let i := Ix.of s h
    i.x.trap = none → exec (.rft h o tgt) s = .next (s.raise i.f i.e 0x01 0 i.e.mask) ∧
      exec (.halt h o tgt) s = .next (s.raise i.f i.e 0x01 0 i.e.mask)) ∧
  (∀ h o tgt r target, ∀ s : State,
    let i := Ix.of s h
    let c := i.h.cast
    let gh := 16 * (s.pour (c / 2 ^ 64)).pkg + (s.pour (c / 2 ^ 64)).hearth
    let back (t : State) : Prop :=
      (i.x.entries = [i.e] → i.g = i.e.mask → i.x.atEnd = [] →
        (t.frag i.f).trap = none ∧ (t.frag i.f).frozen = [] ∧ (t.frag i.f).atEnd = i.x.frozenEnd ∧
        ∀ p pc l, (lanesAt (t.frag i.f).entries p pc).getLsbD l =
          ((lanesAt i.x.frozen p pc).getLsbD l || (i.g.getLsbD l && decide ((r.prio, target) = (p, pc))))) ∧
      (i.g ≠ i.e.mask → InBody i → (t.frag i.f).trap = some r ∧
        Frontier i.x.entries (t.frag i.f).entries i.e
          (fun l => if i.g.getLsbD l then none else some (i.e.prio, i.next)) ∧
        ∀ p pc l, (lanesAt (t.frag i.f).frozen p pc).getLsbD l =
          ((lanesAt i.x.frozen p pc).getLsbD l || (i.g.getLsbD l && decide ((r.prio, target) = (p, pc)))))
    i.x.trap = some r → i.g ≠ 0 → Readable i [{ o := o.a, n := 1, bit := h.ea }] i.g → target.toNat % 4 = 0 →
    (match tgt with
     | .retry => target = r.pc
     | .next => i.codeAt r.pc ≠ none ∧ ∃ n, i.lengthAt r.pc = some n ∧ target = r.pc + BitVec.ofNat 64 n
     | .to => target = (i.uniform o.a (.bw true)).bits) →
    (∃ t, exec (.rft h o tgt) s = .next t ∧ { t with frags := s.frags, cores := s.cores } = s ∧ back t ∧
      (tgt ≠ .retry → (t.frag i.f).rep = none ∧ (t.frag i.f).repc = 0)) ∧
    (i.here = gh → (s.cast c).wake = true →
      ∃ t, exec (.halt h o tgt) s = .next t ∧ KeptBytes s t ∧ back t ∧
        t.cast c = { s.cast c with wake := false }) ∧
    (i.here = gh → (s.cast c).wake = false → ((s.cast c).st = .running ∨ (s.cast c).st = .raised) →
      (s.cast c).parking = false → i.x.onCore = true → (∀ k ∈ s.gangOf c, ∃ f ∈ s.castFrags k, (s.frag f).onCore = true) →
      ∃ t gc slot, exec (.halt h o tgt) s = .next t ∧ KeptBytes s t ∧ back t ∧ i.x.place = .core gc slot ∧
        (t.cast c).held = true ∧
        (∀ k ∈ s.gangOf c, (s.cast k).st = .running ∨ (s.cast k).st = .raised → (t.cast k).parking = true) ∧
        (t.frag i.f).place = .departing gc slot (gc / 8) 0xFF (decide (gc = (s.cast c).anchor)) true) ∧
    (i.here ≠ gh → gh < 1024 →
      ∃ t q, exec (.halt h o tgt) s = .next t ∧ KeptBytes s t ∧ back t ∧ t.casts = s.casts ∧ (t.frag i.f).asking = true ∧
        t.net = s.net ++ [q] ∧ q.tgt = gh ∧ q.body = .parkNote c i.f)) ∧
  (∀ h o, ∀ s : State,
    let i := Ix.of s h
    let c := i.h.cast
    let gh := 16 * (s.pour (c / 2 ^ 64)).pkg + (s.pour (c / 2 ^ 64)).hearth
    i.g ≠ 0 → i.x.trap = none →
    (i.here = gh → (s.cast c).wake = true →
      ∃ t, exec (.park h o) s = .next t ∧ WentOn s t i ∧ t.cast c = { s.cast c with wake := false } ∧
        { t with frags := s.frags, casts := s.casts } = s) ∧
    (i.here = gh → (s.cast c).wake = false → ((s.cast c).st = .running ∨ (s.cast c).st = .raised) → (s.cast c).parking = false →
      i.x.onCore = true → (∀ k ∈ s.gangOf c, ∃ f ∈ s.castFrags k, (s.frag f).onCore = true) →
      ∃ t gc slot, exec (.park h o) s = .next t ∧ KeptBytes s t ∧ i.x.place = .core gc slot ∧ (t.cast c).held = true ∧
        (∀ k ∈ s.gangOf c, (s.cast k).st = .running ∨ (s.cast k).st = .raised → (t.cast k).parking = true) ∧
        (t.frag i.f).place = .departing gc slot (gc / 8) 0xFF (decide (gc = (s.cast c).anchor)) true ∧
        (t.frag i.f).entries = (i.x.complete i.e.prio i.e.pc i.next i.e.mask).entries) ∧
    (i.here ≠ gh → gh < 1024 →
      ∃ t q, exec (.park h o) s = .next t ∧ KeptBytes s t ∧ WentOn s t i ∧ t.casts = s.casts ∧ (t.frag i.f).asking = true ∧
        t.net = s.net ++ [q] ∧ q.tgt = gh ∧ q.body = .parkNote c i.f))

/-- O31. R390, R407: TLBINV and ICINV make every core in scope give up what it holds of the page or contexts covered; TLBINV
waits while packets, commands or accepted merges still use it, and waits that keep an address issue again. A context that is
not the issuer's to name raises ACCESS, and the instructions raise ILLEGAL without their privilege. The model's own readings
and choices here: log 45, 46. -/
def Obligations.Invalidations : Prop :=
  ∀ h o ext sc, ∀ s : State,
    let i := Ix.of s h
    let a := (i.uniform o.a (.bw true)).bits.toNat
    let b : BitVec 8 := (i.uniform o.b .w32).bits.setWidth 8
    let p := s.pkg (corePkg i.x.gc)
    let own := s.ctxOf i.x
    let us : List Use := (if ext = .page then [{ o := o.a, n := 1, bit := h.ea }] else []) ++
      (if ext = .part then [] else [{ o := o.b, n := 1, bit := h.eb }])
    let mine : Prop :=
      if ext = .part then s.managing i.x = true ∨ ∀ c : BitVec 8, p.part c.toNat = p.part own.toNat → c = own
      else p.part b.toNat = p.part own.toNat ∧ (s.managing i.x = true ∨ b = own)
    let covered (c : BitVec 8) : Prop := if ext = .part then p.part c.toNat = p.part own.toNat else c = b
    let foreign : Prop :=
      if ext = .part then s.managing i.x = false ∧ p.part own.toNat ≠ 0xFF ∧ ∃ c : BitVec 8, p.part c.toNat = p.part own.toNat ∧ c ≠ own
      else ¬ mine
    let named : DWord := if ext = .page then (i.uniform o.a (.bw true)).bits else 0
    let ps := i.usingPackets ext sc b.toNat
    let ks := i.usingCmds ext sc b.toNat
    let ms := i.usingMerges ext sc b.toNat
    i.g ≠ 0 → Readable i us i.g →
    (i.x.handler = true ∨ s.managing i.x = true → i.e.woken = false → mine →
      ∃ t, exec (.tlbinv h o ext sc) s = .next t ∧ KeptBytes s t ∧ t.hoists = s.hoists ∧ t.pkgs = s.pkgs ∧
        (∀ gc, ∀ e, e ∈ (t.core gc).tlb ↔ e ∈ (s.core gc).tlb ∧
          ¬ (inScope sc i.x.gc gc = true ∧ covered e.ctx ∧ (ext = .page → e.page = a / 2 ^ e.bits))) ∧
        (∀ f, (s.frag f).live = true → inScope sc i.x.gc (s.frag f).gc = true → covered (s.ctxOf (s.frag f)) →
          ∀ x ∈ (t.frag f).entries, ∀ w, x.wait = some w → w.keepsAddress = false) ∧
        (ps = [] ∧ ks = [] ∧ ms = [] → ∀ q pc l, (lanesAt (t.frag i.f).entries q pc).getLsbD l =
          (lanesAt (i.x.complete i.e.prio i.e.pc i.next i.e.mask).entries q pc).getLsbD l) ∧
        (¬ (ps = [] ∧ ks = [] ∧ ms = []) →
          ∃ x, findEntry (t.frag i.f).entries i.e.prio i.e.pc = some x ∧ x.mask = i.e.mask ∧ x.wait = some (.invalidate ps ks ms))) ∧
    (i.x.handler = true ∨ s.managing i.x = true → i.e.woken = false → foreign → Trappable i →
      ∃ t, exec (.tlbinv h o ext sc) s = .next t ∧ Enters s t i 0x05 named i.g) ∧
    (s.managing i.x = true → foreign → Trappable i →
      ∃ t, exec (.icinv h o ext sc) s = .next t ∧ Enters s t i 0x05 named i.g) ∧
    (i.x.handler = true ∨ s.managing i.x = true → i.e.woken = true →
      ∃ t, exec (.tlbinv h o ext sc) s = .next t ∧ Kept s t i [] ∧ WentOn s t i) ∧
    (s.managing i.x = true → mine →
      ∃ t, exec (.icinv h o ext sc) s = .next t ∧ KeptBytes s t ∧ t.hoists = s.hoists ∧ t.pkgs = s.pkgs ∧ WentOn s t i ∧
        ∀ gc, ∀ e, e ∈ (t.core gc).icache ↔ e ∈ (s.core gc).icache ∧
          ¬ (inScope sc i.x.gc gc = true ∧ covered (BitVec.ofNat 8 (e.1 / 2 ^ 59)) ∧
            (ext = .page → e.1 % 2 ^ 59 * 32 / 2 ^ i.pageBits b.toNat a = a / 2 ^ i.pageBits b.toNat a))) ∧
    (i.x.handler = false → s.managing i.x = false →
      exec (.tlbinv h o ext sc) s = .next (s.raise i.f i.e 0x01 0 i.e.mask)) ∧
    (s.managing i.x = false → exec (.icinv h o ext sc) s = .next (s.raise i.f i.e 0x01 0 i.e.mask))

/-- O32. R409, R411, R412, R413, R414: UNPARK and KILL post a packet to the record's home; GOVSET delivers the limits in force
and writes the next ones, which is the model's reading of R411 (log 123); ERRRD delivers an error counter; PREQ asks the
runner to save or resume contexts. The model's own readings and choices here: log 63, 65, 123. -/
def Obligations.SystemRequests : Prop :=
  (∀ h o, ∀ s : State,
    let i := Ix.of s h
    let a := (i.uniform o.a (.bw true)).bits.toNat
    let home := paHearth (i.pa a)
    let us : List Use := [{ o := o.a, n := 1, bit := h.ea }]
    let mark (rest : List Use) : Prop :=
      i.g ≠ 0 ∧ home < 1024 ∧ Readable i (us ++ rest) i.g ∧ Granted i .go 128 (fun _ => a) ∧
      (∀ c ∈ (s.core i.x.gc).hints, c.target ≠ home) ∧
      (∀ e ∈ i.x.pseq, e.tgt = home → (e.src = i.x.src ∧ home ≠ i.here) ∨ s.pendingTo e.src e.tgt e.seq = false)
    (mark [{ o := o.b, n := 1, bit := h.eb }] → s.performed i.x = true →
      ∃ t p, exec (.unpark h o) s = .next t ∧ KeptBytes s t ∧ t.hoists = s.hoists ∧ WentOn s t i ∧ t.net = s.net ++ [p] ∧
        p.tgt = home ∧ p.src = i.x.src ∧ p.seq = s.lastSeq i.x.src + 1 ∧
        p.body = .unpark (i.pa a) (lo (i.uniform o.b .w32).bits) (s.ctxOf i.x) (s.managing i.x)) ∧
    (mark [] → i.x.handler = true ∨ s.managing i.x = true →
      ∃ t p, exec (.kill h o) s = .next t ∧ KeptBytes s t ∧ t.hoists = s.hoists ∧ WentOn s t i ∧ t.net = s.net ++ [p] ∧
        p.tgt = home ∧ p.src = i.x.src ∧ p.seq = s.lastSeq i.x.src + 1 ∧
        p.body = .kill (i.pa a) (s.ctxOf i.x) (s.managing i.x)) ∧
    (i.x.handler = false → s.managing i.x = false →
      exec (.kill h o) s = .next (s.raise i.f i.e 0x01 0 i.e.mask))) ∧
  (∀ h o, ∀ s : State,
    let i := Ix.of s h
    let k := corePkg i.x.gc
    let v := (i.uniform o.b .w32).bits.toNat
    let b := (s.pkg k).bellows
    let rise := v % 65536
    let fall := v / 65536 % 65536
    i.g ≠ 0 → Readable i [{ o := o.b, n := 1, bit := h.eb }] i.g → i.isEmpty o.d 1 = false → (∀ q, o.d ≠ .m q) →
    (s.ownsPackage k (s.ctxOf i.x).toNat = true →
      ∃ t, exec (.govset h o) s = .next t ∧ WentOn s t i ∧
        Gets t i o.d .b32 (fun _ => Val.ofNat (b.fallLim * 65536 + b.riseLim)) ∧ KeptBytes s t ∧
        (t.pkg k).bellows.nextRise = (if rise = 0 then b.nextRise else min rise b.riseCap) ∧
        (t.pkg k).bellows.nextFall = (if fall = 0 then b.nextFall else min fall b.fallCap) ∧
        { t.pkg k with bellows := b } = s.pkg k ∧ (∀ q, q ≠ k → t.pkg q = s.pkg q)) ∧
    (s.ownsPackage k (s.ctxOf i.x).toNat = false →
      exec (.govset h o) s = .next (s.raise i.f i.e 0x01 0 i.e.mask))) ∧
  (∀ h o, ∀ s : State,
    let i := Ix.of s h
    let n := (i.uniform o.b .w32).bits.toNat
    i.g ≠ 0 → Readable i [{ o := o.b, n := 1, bit := h.eb }] i.g → i.isEmpty o.d 2 = false → (∀ q, o.d ≠ .m q) →
    (i.x.handler = true ∨ s.managing i.x = true) →
    ∃ t, exec (.errrd h o) s = .next t ∧ Kept s t i [(o.d, 2)] ∧ WentOn s t i ∧
      Gets t i o.d .b64 (fun _ => Val.ofNat (s.errorCounter (corePkg i.x.gc) (s.ctxOf i.x).toNat n))) ∧
  (∀ h o resume all, ∀ s : State,
    let i := Ix.of s h
    let k := corePkg i.x.gc
    let p := s.pkg k
    let c : BitVec 8 := (i.uniform o.b .w32).bits.setWidth 8
    let a := (i.uniform o.a (.bw true)).bits.toNat
    (∀ r, o.a = .s r → Granted i (.store false) 8 (fun _ => a)) → i.g ≠ 0 → s.managing i.x = true →
    Readable i [{ o := o.a, n := 1, bit := h.ea }, { o := o.b, n := 1, bit := h.eb }] i.g →
    (all = false → p.part c.toNat = p.part (s.ctxOf i.x).toNat) →
    ∃ t r, exec (.preq h o resume all) s = .next t ∧ KeptBytes s t ∧ WentOn s t i ∧ t.hoists = s.hoists ∧
      t.pkg k = { p with preempt := p.preempt ++ [r] } ∧ r.resume = resume ∧ r.fw = false ∧ r.done = (match o.a with | .s _ => some (i.pa a) | _ => none) ∧
      r.owner = s.ctxOf i.x ∧
      (∀ x : BitVec 8, x ∈ r.ctxs ↔ if all = true then p.part x.toNat = p.part (s.ctxOf i.x).toNat ∧ p.part x.toNat ≠ 0xFF
        else x = c))

/-- O33. R182, R189, R192, R194, R197: MMA, MMAS and MMAL are accepted on their context with the operands as read, a paired one
on the follower's context too. R201, R202, R203: ACLR, ALDS, ASTS and ARD are accepted on their context; the destination of
ARD is empty from then on. R205, R206: AMRG is accepted once the ticket word holds SEQ, and waits until then. -/
def Obligations.MatrixInstructionsAreAccepted : Prop :=
  (
  ∀ h o k pair first lsel kind w, ∀ s : State,
    let i := Ix.of s h
    let c := s.castOf i.x
    let da := (i.read o.a (.bw true) 0).bits
    let db := (i.read o.b (.bw true) 0).bits
    let ya := layoutA kind w da
    let n := (tileRows da * tileK da + 511) / 512
    let base := i.x.wbase + first.toNat
    let ws : List Word := if kind = .mmas then
      (List.range n).flatMap fun r => (List.range 32).map fun l => if i.x.lanes.getLsbD l then i.h.elem (base + r) l else 0
      else []
    let op : MOp := .mac kind da db w ws pair
    let instr : Instr := match kind with
      | .mma => .mma h o k pair lsel
      | .mmas => .mmas h o k pair first lsel
      | .mmal => .mmal h o k pair lsel
    CtxOk i k → Readable i (uses3 h o .w32 .w32 .w32) i.g →
    Votes i o.c w → kind.accepts w = true → extentsOk kind w pair (tileRows da) (tileRows db) (tileK da) = true →
    tileK da = tileK db → TileOk i da ya false → TileOk i db (layoutB kind w db) false →
    (kind = .mmas → base + n ≤ (s.pour (s.pourOf i.x)).allot ∧
      (∀ r, r < n → i.x.vempty.getLsbD (base + r) = false) ∧
      (s.debug i.x = true → ∀ r, r < n → i.x.vabsent.getLsbD (base + r) = false) ∧
      ((s.trapEnt i.x).tpoison = true → ∀ r, r < n → ∀ l, i.x.lanes.getLsbD l = true → i.h.elemMark (base + r) l = false) ∧
      ∀ q, q < tileRows da * tileK da / 8 → metaIndex ws q 0 < metaIndex ws q 1 ∧ metaIndex ws q 1 < metaIndex ws q 2 ∧
        metaIndex ws q 2 < metaIndex ws q 3) →
    (pair = false → ∃ t, exec instr s = .next t ∧ Accepted s t i k op (i.saved instr o)) ∧
    (∀ d j, pair = true → ((s.cast c).ctx k).leads = some (d, j) → (∀ q ∈ ((s.cast c).ctx k).queue, q.op ≠ .mfree) →
      ((s.cast d).ctx j).queue.length < 2 → d ≠ c →
      ∃ t, exec instr s = .next t ∧ WentOn s t i ∧ { t with frags := s.frags, casts := s.casts, cores := s.cores } = s ∧
        t.cast c = (s.cast c).setCtx k (queued ((s.cast c).ctx k) op (i.saved instr o) i.x.hoist (some (true, d, j))) ∧
        t.cast d = (s.cast d).setCtx j (queued ((s.cast d).ctx j) op (i.saved instr o) i.x.hoist (some (false, c, k))) ∧
        ∀ e, e ≠ c → e ≠ d → t.cast e = s.cast e)
  ) ∧
  (
  (∀ h o k lsel, ∀ s : State, let i := Ix.of s h
    CtxOk i k → ∃ t, exec (.aclr h o k lsel) s = .next t ∧ Accepted s t i k .aclr (i.saved (.aclr h o k lsel) o)) ∧
  (∀ h o ty k lsel, ∀ s : State,
    let i := Ix.of s h
    let d := (i.read o.a (.bw true) 0).bits
    CtxOk i k → Readable i [{ o := o.a, n := 1, bit := h.ea }] i.g → tileRows d ≤ 128 → tileK d ≤ 256 →
    TileOk i d (layoutT ty d) false →
    ∃ t, exec (.alds h o ty k lsel) s = .next t ∧ Accepted s t i k (.alds ty d) (i.saved (.alds h o ty k lsel) o)) ∧
  (∀ h o ty k lsel w, ∀ s : State,
    let i := Ix.of s h
    let d := (i.read o.a (.bw true) 0).bits
    CtxOk i k → Readable i [{ o := o.a, n := 1, bit := h.ea }, { o := o.c, n := 1, bit := h.ec }] i.g → Votes i o.c w →
    readbackOk ty w = true → tileRows d ≤ 128 → tileK d ≤ 256 → TileOk i d (layoutT ty d) true →
    ∃ t, exec (.asts h o ty k lsel) s = .next t ∧ Accepted s t i k (.asts ty d w) (i.saved (.asts h o ty k lsel) o)) ∧
  (∀ h o ty k lsel w q, o.d = .v q → ∀ s : State,
    let i := Ix.of s h
    CtxOk i k → Readable i [{ o := o.b, n := 1, bit := h.eb }, { o := o.c, n := 1, bit := h.ec }] i.g → Votes i o.c w →
    readbackOk ty w = true → i.isEmpty o.d 1 = false → i.areg q.toNat < 256 →
    ∃ t, exec (.ard h o ty k lsel) s = .next t ∧
      Accepted s t i k (.ard ty (i.areg q.toNat) (lo (i.read o.b .w32 0).bits) w i.g i.x.lanes)
        (i.saved (.ard h o ty k lsel) o) ∧
      (∀ a, a < 256 → (t.frag i.f).vempty.getLsbD a = (i.x.vempty.getLsbD a || decide (a = i.areg q.toNat))))
  ) ∧
  (
  ∀ h o k so lsel w, ∀ s : State,
    let i := Ix.of s h
    let c := s.castOf i.x
    let ofs := (i.read o.b .w32 0).bits.toNat % 2 ^ 23
    let r : BitVec 256 := BitVec.ofNat 256 ((s.cast c).sread ofs 32)
    let home := paHearth (i.pa (recDest r))
    let ticket := i.pa (recTicket r)
    let op : MOp := .amrg r w so ((recHeads r).map fun a => (a / 65536, i.pa a / 65536 * 65536)) ticket
    CtxOk i k → Readable i [{ o := o.b, n := 1, bit := h.eb }, { o := o.c, n := 1, bit := h.ec }] i.g → Votes i o.c w →
    ofs % 32 = 0 → ofs + 32 ≤ s.spadBytes c → s.tileHeld i.x.hoist false ofs 32 = false →
    1 ≤ recM r → recM r ≤ 128 → 1 ≤ recN r → recN r ≤ 256 → recField r 0x1C 4 = 0 →
    recDest r % 4 = 0 → recStride r % 4 = 0 → recTicket r % 8 = 0 →
    (∀ a ∈ recHeads r, ∃ leaf, i.translate a = .ok leaf (i.pa a) ∧ i.denied Acc.rmw leaf (i.pa a) = false ∧
      paHearth (i.pa a) = home) →
    i.outside (i.pa (recDest r)) = false →
    Released i so →
    (s.readLE ticket 8 = recSeq r →
      ∃ t, exec (.amrg h o k so lsel) s = .next t ∧ Accepted s t i k op (i.saved (.amrg h o k so lsel) o)) ∧
    (s.readLE ticket 8 ≠ recSeq r →
      exec (.amrg h o k so lsel) s = .next (s.setFrag i.f (i.x.waitAt i.e.prio i.e.pc (.ticket ticket (recSeq r)))))
  )

/-- O34. R199, R200: COMP48 keeps the four largest magnitudes of eight, the lower index first among equals, with their indices;
LUTB writes the sixteen signed sums of four activations for each lane. The model's own readings and choices here: log 71. -/
def Obligations.PruningAndTables : Prop :=
  (∀ h o t hi, t = .i8 ∨ t = .n8 ∨ t = .e4m3 ∨ t = .e5m2 → ∀ s : State,
    let i := Ix.of s h
    let el (j : Nat) (src : Opnd) (k : Nat) : Nat :=
      if i.x.lanes.getLsbD j then (i.read src .w32 j).bits.toNat / 2 ^ (8 * k) % 256 else 0
    let e (l k : Nat) : Nat :=
      let src := if l < 16 then o.a else o.b
      el (2 * (l % 16) + k / 4) src (k % 4)
    let mark (l : Nat) : Bool :=
      let src := if l < 16 then o.a else o.b
      (i.readLane src .w32 (2 * (l % 16))).poison || (i.readLane src .w32 (2 * (l % 16) + 1)).poison
    o.d ≠ o.d2 → i.g ≠ 0 → (∀ q, o.d ≠ .s q) → (∀ q, o.d ≠ .m q) → (∀ q, o.d2 ≠ .s q) → (∀ q, o.d2 ≠ .m q) →
    (∀ u ∈ uses3 h o .w32 .w32 .w32, i.isEmpty u.o u.n = false) → i.isEmpty o.d 1 = false → i.isEmpty o.d2 1 = false →
    s.debug i.x = false → (s.trapEnt i.x).tpoison = false →
    ∃ u, ∃ ks : Nat → List Nat, exec (.comp48 h o t hi) s = .next u ∧ WentOn s u i ∧ Kept s u i [(o.d, 1), (o.d2, 1)] ∧
      (∀ l, i.g.getLsbD l = true → (ks l).length = 4 ∧ (ks l).Pairwise (· < ·) ∧ (∀ k ∈ ks l, k < 8) ∧
        ∀ a ∈ ks l, ∀ b, b < 8 → b ∉ ks l → compBefore t (e l a) (e l b) a b = true) ∧
      Gets u i o.d .b32 (fun l => { bits := BitVec.ofNat 64 (e l ((ks l).getD 0 0) + e l ((ks l).getD 1 0) * 2 ^ 8 +
        e l ((ks l).getD 2 0) * 2 ^ 16 + e l ((ks l).getD 3 0) * 2 ^ 24), poison := mark l }) ∧
      Gets u i o.d2 .b32 (fun l =>
        let c := lo (i.read o.c .w32 l).bits
        let m : BitVec 12 := BitVec.ofNat 12 ((ks l).getD 0 0 + (ks l).getD 1 0 * 8 + (ks l).getD 2 0 * 64 + (ks l).getD 3 0 * 512)
        { bits := up (if hi then c.extractLsb' 24 8 ++ m ++ c.extractLsb' 0 12 else c.extractLsb' 12 20 ++ m)
          poison := mark l || (i.read o.c .w32 l).poison })) ∧
  (∀ h o signed lsel, ∀ s : State,
    let i := Ix.of s h
    let c := s.castOf i.x
    let b := (i.read o.b .w32 0).bits.toNat % 2 ^ 23
    let a (l t : Nat) : Int :=
      let x : BitVec 8 := (i.read o.a .w32 l).bits.extractLsb' (8 * t) 8
      if signed then x.toInt else x.toNat
    i.g ≠ 0 → s.atAnchor i.x = true → Readable i [{ o := o.a, n := 1, bit := h.ea }, { o := o.b, n := 1, bit := h.eb }] i.g →
    b % 32 = 0 → (∀ l, i.g.getLsbD l = true → b + 32 * l + 32 ≤ s.spadBytes c ∧
      s.tileHeld i.x.hoist true (b + 32 * l) 32 = false) →
    ∃ t, exec (.lutb h o signed lsel) s = .next t ∧ WentOn s t i ∧
      KeptMem s t i [] nothing (fun d p => d = c ∧ laneBytes i 32 (fun l => b + 32 * l) p) ∧
      (∀ l, i.g.getLsbD l = true → ∀ x, x < 16 →
        (BitVec.ofNat 16 ((t.cast c).sread (b + 32 * l + 2 * x) 2)).toInt =
          (if x.testBit 0 then a l 0 else - a l 0) + (if x.testBit 1 then a l 1 else - a l 1) +
          (if x.testBit 2 then a l 2 else - a l 2) + (if x.testBit 3 then a l 3 else - a l 3)) ∧
      (∀ l, i.g.getLsbD l = true → ∀ x, x < 32 → (t.cast c).spoisoned (b + 32 * l + x) 1 = (i.read o.a .w32 l).poison))

/-- O35. R196, R198, R204: MWAIT goes on when every instruction accepted before it has retired and waits otherwise; MBIND makes
one context the leader of another when both are free; MFREE is accepted on its context, and ends the binding there when what
was accepted before it has retired. The model's own readings and choices here: log 69. -/
def Obligations.BindingsAndMatrixWaits : Prop :=
  (∀ h o which lsel, ∀ s : State,
    let i := Ix.of s h
    let c := s.castOf i.x
    let named (k : Bool) : Prop := which = .both ∨ which = (if k then MwaitSel.c1 else MwaitSel.c0)
    let done (k : Bool) : Prop := ((s.cast c).ctx k).accepted ≤ ((s.cast c).ctx k).retired
    i.g ≠ 0 → s.atAnchor i.x = true → (∀ k, named k → s.holdsCtx c k = true) →
    ((∀ k, named k → done k) → ∃ t, exec (.mwait h o which lsel) s = .next t ∧ Kept s t i [] ∧ WentOn s t i) ∧
    ((∃ k, named k ∧ ¬ done k) → i.e.woken = false →
      ∃ a b, exec (.mwait h o which lsel) s = .next (s.setFrag i.f (i.x.waitAt i.e.prio i.e.pc (.mwait a b))) ∧
        (named false → a = ((s.cast c).ctx false).accepted) ∧ (named true → b = ((s.cast c).ctx true).accepted))) ∧
  (∀ h o k j lsel, ∀ s : State,
    let i := Ix.of s h
    let c := s.castOf i.x
    let rank := (i.read o.b .w32 0).bits.toNat % 1024
    let d := s.peerOf c rank
    let ok := i.g ≠ 0 ∧ s.atAnchor i.x = true ∧
      Readable i [{ o := o.b, n := 1, bit := h.eb }] i.g ∧ s.holdsCtx c k = true ∧ s.holdsCtx d j = true ∧ d ≠ c ∧
      (s.cast d).anchor ≠ (s.cast c).anchor ∧ rank < (s.pour (s.cast c).pour).gangSize
    let idle := ((s.cast c).ctx k).idle = true ∧ ((s.cast d).ctx j).idle = true
    (ok → idle → ∃ t, exec (.mbind h o k j lsel) s = .next t ∧ WentOn s t i ∧
      t.cast c = (s.cast c).setCtx k { (s.cast c).ctx k with leads := some (d, j) } ∧
      t.cast d = (s.cast d).setCtx j { (s.cast d).ctx j with follows := some (c, k) } ∧
      (∀ e, e ≠ c → e ≠ d → t.cast e = s.cast e) ∧ { t with frags := s.frags, casts := s.casts, cores := s.cores } = s) ∧
    (ok → ¬ idle → ∃ t, exec (.mbind h o k j lsel) s = .next t ∧ t = s.setFrag i.f (i.x.waitAt i.e.prio i.e.pc (.mbind k d j i.next)))) ∧
  (∀ h o k lsel, ∀ s : State,
    let i := Ix.of s h
    let c := s.castOf i.x
    let m := (s.cast c).ctx k
    let after := { m with accepted := m.accepted + 1, retired := m.retired + 1 }
    CtxOk i k → (∀ q ∈ m.queue, q.op ≠ .mfree) →
    (m.queue ≠ [] → ∃ t, exec (.mfree h o k lsel) s = .next t ∧ Accepted s t i k .mfree (i.saved (.mfree h o k lsel) o)) ∧
    (m.queue = [] → m.leads = none → ∃ t, exec (.mfree h o k lsel) s = .next t ∧ WentOn s t i ∧
      t.cast c = (s.cast c).setCtx k after ∧ (∀ e, e ≠ c → t.cast e = s.cast e) ∧
      { t with frags := s.frags, casts := s.casts } = s) ∧
    (∀ d j, m.leads = some (d, j) → d ≠ c → m.queue = [] →
      ∃ t, exec (.mfree h o k lsel) s = .next t ∧ WentOn s t i ∧
        t.cast c = (s.cast c).setCtx k { after with leads := none } ∧
        t.cast d = (s.cast d).setCtx j { (s.cast d).ctx j with follows := none } ∧
        (∀ e, e ≠ c → e ≠ d → t.cast e = s.cast e) ∧ { t with frags := s.frags, casts := s.casts } = s))

/-- O36. R64, R65, R67: a queue is a first-in, first-out ring: a push adds elements after those it holds, a pop takes the first
of them, both keep the ring in order, and a binding word that is accepted makes one. R65, R66, R151, R268 to R270: ENQ and
MOV push, DEQ and MOV pop, ENQ.BIND binds and QSTAT describes a queue of the cast, at the anchor; pushes wait for room and
pops for elements, and NB reports instead of waiting. -/
def Obligations.QueuesAndTheirInstructions : Prop :=
  (
  (∀ (c : Cast) (q : Nat) (vs : List Val), RingOk (c.queue q) → (c.queue q).count + vs.length ≤ (c.queue q).cap →
    RingOk ((c.push q vs).queue q) ∧
    contents (c.push q vs) q = contents c q ++ vs.map (elementOf (c.queue q).esize) ∧
    ∀ k, k ≠ q → (c.push q vs).queue k = c.queue k) ∧
  (∀ (c : Cast) (q n : Nat), RingOk (c.queue q) → n ≤ (c.queue q).count →
    RingOk ((c.pop q n).queue q) ∧ c.heads q n = (contents c q).take n ∧ contents (c.pop q n) q = (contents c q).drop n ∧
    (c.pop q n).spad = c.spad ∧ ∀ k, k ≠ q → (c.pop q n).queue k = c.queue k) ∧
  (∀ w : DWord, badBinding w = false → Queue.kind { bind := w, head := 0, tail := 0 } ≠ 0 →
    RingOk { bind := w, head := 0, tail := 0 } ∧ Queue.count { bind := w, head := 0, tail := 0 } = 0)
  ) ∧
  (
  (∀ h o w nb lsel q, o.d = .q q → ∀ s : State,
    let i := Ix.of s h
    let c := s.castOf i.x
    let x := (s.cast c).queue q.toNat
    let vs := (i.elements o.a).map (i.read o.a (.bw w))
    i.g ≠ 0 → Readable i [{ o := o.a, n := if w then 2 else 1, bit := h.ea }] i.g → s.atAnchor i.x = true →
    (Allows x [1, 2, 3, 4] (if w then 8 else 4) vs.length → x.count + vs.length ≤ x.cap → RingFree i true x x.tail vs.length →
      (∀ e, engineOf x.kind = some e → IssueFree i e) →
      (engineOf x.kind = some .copy → s.tileHeld i.x.hoist true 0 (s.spadBytes c) = false) →
      (∃ t, exec (.enq h o w nb lsel) s = .next t ∧ t.cast c = (s.cast c).push q.toNat vs ∧ WentOn s t i ∧ KeptQueue s t i ∧
        (nb = false → t.hoists = s.hoists) ∧ (nb = true → GetsPred t i o.d2 fun _ => true)) ∧
      (∃ t, exec (.mov h { o with b := .none, c := .none } w lsel) s = .next t ∧ t.cast c = (s.cast c).push q.toNat vs ∧
        WentOn s t i ∧ KeptQueue s t i ∧ t.hoists = s.hoists)) ∧
    (Allows x [1, 2, 3, 4] (if w then 8 else 4) vs.length → x.cap < x.count + vs.length →
      (nb = false → exec (.enq h o w nb lsel) s = .next (s.setFrag i.f (i.x.waitAt i.e.prio i.e.pc (.queue q)))) ∧
      (nb = true → ∃ t, exec (.enq h o w nb lsel) s = .next t ∧ GetsPred t i o.d2 (fun _ => false) ∧ WentOn s t i ∧
        KeptQueue s t i ∧ t.cast c = s.cast c)) ∧
    (¬ Allows x [1, 2, 3, 4] (if w then 8 else 4) vs.length → Trappable i →
      ∃ t, exec (.enq h o w nb lsel) s = .next t ∧ Enters s t i 0x10 0 i.g)) ∧
  (∀ h o w nb lsel q, o.a = .q q → ∀ s : State,
    let i := Ix.of s h
    let c := s.castOf i.x
    let x := (s.cast c).queue q.toNat
    let n := (i.elements o.d).length
    let ty := bwTy w
    let got (l : Nat) : Val := ((s.cast c).heads q.toNat n).getD ((lanesOf i.g).idxOf l) .zero
    i.g ≠ 0 → i.isEmpty o.d (Ty.regs ty) = false → s.atAnchor i.x = true → (∀ k, o.d ≠ .q k) →
    (Allows x [1, 5] (if w then 8 else 4) n → n ≤ x.count → RingFree i false x x.head n →
      (o.d ≠ o.d2 ∨ nb = false → ∃ t, exec (.deq h o w nb lsel) s = .next t ∧ t.cast c = (s.cast c).pop q.toNat n ∧
        Gets t i o.d ty got ∧ WentOn s t i ∧ KeptQueue s t i ∧ (nb = true → GetsPred t i o.d2 fun _ => true)) ∧
      (∃ t, exec (.mov h o w lsel) s = .next t ∧ t.cast c = (s.cast c).pop q.toNat n ∧ Gets t i o.d ty got ∧
        WentOn s t i ∧ KeptQueue s t i)) ∧
    (Allows x [1, 5] (if w then 8 else 4) n → x.count < n →
      (nb = true → ∃ t, exec (.deq h o w nb lsel) s = .next t ∧ GetsPred t i o.d2 (fun _ => false) ∧ WentOn s t i ∧
        KeptQueue s t i ∧ t.cast c = s.cast c) ∧
      (nb = false → h.ea = false →
        exec (.deq h o w nb lsel) s = .next (s.setFrag i.f (i.x.waitAt i.e.prio i.e.pc (.queue q)))) ∧
      (nb = false → h.ea = true → Trappable i →
        ∃ t, exec (.deq h o w nb lsel) s = .next t ∧ Enters s t i 0x03 0 i.g))) ∧
  (∀ h o f lsel q, o.a = .q q → ∀ s : State,
    let i := Ix.of s h
    let x := (s.cast (s.castOf i.x)).queue q.toNat
    let ty : Ty := if f = .bind then .b64 else .n32
    i.g ≠ 0 → i.isEmpty o.d (Ty.regs ty) = false → s.atAnchor i.x = true →
    ∃ t, exec (.qstat h o f lsel) s = .next t ∧ Kept s t i [(o.d, Ty.regs ty)] ∧ WentOn s t i ∧
      Gets t i o.d ty fun _ =>
        { bits := if x.kind = 0 then 0 else match f with
            | .count => BitVec.ofNat 64 x.count
            | .free => BitVec.ofNat 64 (x.cap - x.count)
            | .bind => x.bind
          poison := false }) ∧
  (∀ h o lsel q, o.d = .q q → ∀ s : State,
    let i := Ix.of s h
    let c := s.castOf i.x
    let w := (i.read o.a (.bw true) 0).bits
    let x : Queue := { bind := w, head := 0, tail := 0 }
    let old := (s.cast c).queue q.toNat
    i.g ≠ 0 → Readable i [{ o := o.a, n := 1, bit := h.ea }] i.g → s.atAnchor i.x = true →
    (badBinding w = false → (x.kind ≠ 0 → x.base + x.cap * x.esize ≤ s.spadBytes c) →
      (old.kind = 2 ∨ old.kind = 3 ∨ old.kind = 4 → old.count = 0) →
      ∃ t, exec (.enqBind h o lsel) s = .next t ∧ WentOn s t i ∧ KeptQueue s t i ∧ t.hoists = s.hoists ∧
        t.cast c = (s.cast c).setQueue q.toNat (if x.kind = 0 then .unbound else x)) ∧
    (badBinding w = false → (x.kind ≠ 0 → x.base + x.cap * x.esize ≤ s.spadBytes c) →
      (old.kind = 2 ∨ old.kind = 3 ∨ old.kind = 4) → old.count ≠ 0 →
      exec (.enqBind h o lsel) s = .next (s.setFrag i.f (i.x.waitAt i.e.prio i.e.pc (.queue q)))) ∧
    (badBinding w = true → Trappable i → ∃ t, exec (.enqBind h o lsel) s = .next t ∧ Enters s t i 0x10 0 i.g))
  )

/-- O37. R239, R260, R262, R266, R286, R388: CPY, BKOP and COLL read their 64-byte record from scratchpad and hand it to their
engine; a bank command pins its pages, one at each issue, and travels to its hearth, and a collective takes its number on its
window; at the in-flight limit they wait, a copy waits for the tiles that its hoist has still to read or write, and a record
that fails its checks traps. The model's own readings and choices here: log 67, 74, 76, 77, 78, 81, 111, 112, 143. -/
def Obligations.EngineCommandsAreIssued : Prop :=
  ∀ h o lsel (e : Engine), ∀ s : State,
    let i := Ix.of s h
    let c := s.castOf i.x
    let instr : Instr := match e with | .copy => .cpy h o lsel | .bank => .bkop h o lsel | .coll => .coll h o lsel
    let ofs := (i.read o.b .w32 0).bits.toNat % 2 ^ 23
    let raw : BitVec 512 := BitVec.ofNat 512 ((s.cast c).sread ofs 64)
    let c0 : Cmd := Cmd.new e i.x.gc c (s.ctxOf i.x) raw
    let n := s.nextCmd
    let limit := match e with | .copy => 512 | .bank => 32 | .coll => 16
    i.g ≠ 0 → s.atAnchor i.x = true → i.x.pinsAt i.e.prio i.e.pc = [] →
    (limit ≤ s.inFlight i.x.gc e → exec instr s = .next (s.setFrag i.f (i.x.waitAt i.e.prio i.e.pc .engine))) ∧
    (s.inFlight i.x.gc e < limit → Readable i [{ o := o.b, n := 1, bit := h.eb }] i.g →
      (ofs % 64 ≠ 0 → Trappable i → ∃ t, exec instr s = .next t ∧ Enters s t i 0x04 (BitVec.ofNat 64 ofs) i.g) ∧
      (ofs % 64 = 0 → s.spadBytes c < ofs + 64 → Trappable i →
        ∃ t, exec instr s = .next t ∧ Enters s t i 0x06 (BitVec.ofNat 64 ofs) i.g) ∧
      (ofs % 64 = 0 → ofs + 64 ≤ s.spadBytes c → s.tileHeld i.x.hoist false ofs 64 = false →
        (∀ b, s.checkCmd c0 = .error b → Trappable i →
          ∃ t, exec instr s = .next t ∧
            (match b with
             | .queue => Enters s t i 0x10 0 i.g
             | .align a => Enters s t i 0x04 (BitVec.ofNat 64 a) i.g
             | .scratch a => Enters s t i 0x06 (BitVec.ofNat 64 a) i.g
             | .access a => Enters s t i 0x05 (BitVec.ofNat 64 a) i.g
             | .partition a => Enters s t i 0x0F (BitVec.ofNat 64 a) i.g)) ∧
        (e = .copy → (∀ c1, s.checkCmd c0 = .ok c1 → i.copyHeld c1 = true →
          exec instr s = .next (s.setFrag i.f (i.x.waitAt i.e.prio i.e.pc .tile)))) ∧
        (e = .copy → IssueFree i e →
          (∀ k, k < c0.rowCount → (c0.dsp = true → s.tileHeld i.x.hoist true (c0.dstRow k).toNat c0.len = false) ∧
            (c0.ssp = true → s.tileHeld i.x.hoist false (c0.srcRow k).toNat c0.len = false)) →
          c0.flags < 4096 → c0.flags / 32 % 8 = 0 → 1 ≤ c0.len → c0.len ≤ 2 ^ 30 → 1 ≤ c0.rowCount →
          c0.rowCount ≤ 65536 → c0.fld 0x3C 4 = 0 →
          (c0.feed = true → ((s.cast c).queue c0.feedq).kind = 5 ∧ ((s.cast c).queue c0.feedq).esize = 8) →
          c0.complAddr % 8 = 0 →
          (c0.ssp = true → ∀ k, k < c0.rowCount → 0 ≤ c0.srcRow k ∧ c0.srcRow k + c0.len ≤ (s.spadBytes c : Int)) →
          (c0.dsp = true → ∀ k, k < c0.rowCount → 0 ≤ c0.dstRow k ∧ c0.dstRow k + c0.len ≤ (s.spadBytes c : Int)) →
          ∀ pa, (c0.complAddr ≠ 0 → s.cmdTranslate c0 c0.complAddr .wr = .ok pa ∧
            (paHost pa = true → c0.cadd = false)) →
          ∃ t, exec instr s = .next t ∧ WentOn s t i ∧ KeptBytes s t ∧ t.hoists = s.hoists ∧ t.nextCmd = n + 1 ∧
            t.cmd n = { c0 with caddr := if c0.complAddr = 0 then none else some pa } ∧
            (∀ k, k ≠ n → t.cmd k = s.cmd k)) ∧
        (∀ c1 a leaf rest, e = .bank → IssueFree i e → s.checkCmd c0 = .ok c1 → c1.unpinned = (a, leaf) :: rest →
          (i.x.hinted.contains (i.e.prio, i.e.pc) = true ∨
            ∀ n ∈ (s.core i.x.gc).hints, c1.hintHomes.contains n.target = true → n.deadline ≤ s.now) →
          (∀ s1, s.pin a leaf = (.pinned, s1) → rest = [] →
            ∃ t p, exec instr s = .next t ∧ WentOn s1 t i ∧ (∀ a, t.byte a = s1.byte a) ∧ t.hoists = s1.hoists ∧
              t.nextCmd = n + 1 ∧ p.tgt = paHearth ((c1.pages.head?.map Prod.snd).getD 0) ∧
              t.cmd n = { c1 with pins := [a], unpinned := [], stage := .sent
                                  posted := c1.posted ++ [(p.tgt, s.lastSeq c1.src + 1)] } ∧
              (∀ k, k ≠ n → t.cmd k = s.cmd k) ∧ t.net = s.net ++ [p] ∧ p.body = .engineCmd n ∧ p.cast = some c) ∧
          (∀ s1, s.pin a leaf = (.pinned, s1) → rest ≠ [] →
            exec instr s = .next (s1.setFrag i.f (((s1.frag i.f).setPins i.e.prio i.e.pc [a]).waitAt i.e.prio i.e.pc .pin))) ∧
          (s.pin a leaf = (.busy, s) → exec instr s = .next (s.setFrag i.f (i.x.waitAt i.e.prio i.e.pc .pin)))) ∧
        (∀ c1, e = .coll → IssueFree i e → s.checkCmd c0 = .ok c1 →
          let k := ((((s.pkg (i.here / 16)).window c1.win).insts.find? fun q => q.1 = i.here).map Prod.snd).getD 0
          ∃ t, exec instr s = .next t ∧ WentOn s t i ∧ KeptBytes s t ∧ t.hoists = s.hoists ∧ t.nextCmd = n + 1 ∧
            t.cmd n = { c1 with inst := k, since := s.now } ∧ (∀ m, m ≠ n → t.cmd m = s.cmd m) ∧
            ((((t.pkg (i.here / 16)).window c1.win).insts.find? fun q => q.1 = i.here).map Prod.snd) = some (k + 1))))

/-- O38. R48, R259, R279: PUTS stores its payload, at once at the fragment's own hearth or by a posted packet, and posts a signal
that waits for the payload's acknowledgement when its home is another. The model's own readings and choices here: log 39. -/
def Obligations.SignalledPuts : Prop :=
  ∀ h o ty x home, ∀ s : State,
    let i := Ix.of s h
    let size := ty.bits / 8
    let va := i.va o x size
    let pa (l : Nat) : Nat := i.pa (va l)
    let sig := (i.read o.d (.bw true) 0).bits.toNat
    let sigHome := paHearth (i.pa sig)
    let stored := ((lanesOf i.g).filter fun l => (lanesOf i.g).all fun m => decide (l < m → pa m ≠ pa l)).map
      fun l => (i.read o.c (.bw ty.wide) l).at_ (pa l) size
    i.g ≠ 0 → home < 1024 →
    Readable i (memUses h o (Ty.regs ty) ++ [{ o := o.d, n := 1, bit := false }]) i.g → Granted i (.put true) size va →
    HomedAt i va home → sig % 8 = 0 →
    (∃ leaf, i.translate sig = .ok leaf (i.pa sig) ∧ i.denied (.put false) leaf (i.pa sig) = false) →
    i.outside (i.pa sig) = false →
    (home = i.here → MayPost i x.so [sigHome] (lanesOf i.g).length →
      (∀ l, i.g.getLsbD l = true → isCpage (pa l) = false) →
      ∃ t p, exec (.puts h o ty x) s = .next t ∧ t.net = s.net ++ [p] ∧ p.src = i.x.src ∧ p.tgt = sigHome ∧
        p.seq = s.lastSeq i.x.src + 1 ∧ p.body = .signal (i.pa sig) [] ∧ t.hoists = s.hoists ∧ t.casts = s.casts ∧
        (∀ l, i.g.getLsbD l = true → LastWriter i size pa l → Holds t (pa l) size (i.read o.c (.bw ty.wide) l).bits) ∧
        ∀ a, ¬ laneBytes i size pa a → t.byte a = s.byte a) ∧
    (home ≠ i.here → MayPost i x.so [home, sigHome] 0 →
      ∃ t p r, exec (.puts h o ty x) s = .next t ∧ t.net = s.net ++ [p, r] ∧ KeptBytes s t ∧ t.hoists = s.hoists ∧
        t.casts = s.casts ∧ p.src = i.x.src ∧ p.tgt = home ∧ p.seq = s.lastSeq i.x.src + 1 ∧ p.body = .store stored ∧
        r.src = i.x.src ∧ r.tgt = sigHome ∧ r.seq = s.lastSeq i.x.src + 2 ∧
        r.body = .signal (i.pa sig) (if home = sigHome then [] else [(home, p.seq)]))

/-- O39. R215 to R218, R221, R227, R251, R259, R261, R275, R386 to R388: a posted packet that may be applied is applied at its
home, byte by byte, and acknowledged; one that fails the home's partition check is refused, counted and recorded; a signal
waits for its payload's acknowledgement; a write of the host is applied at its home, or held by its link while the routes
change (R276, R295). The model's own readings and choices here: log 38, 50, 115. -/
def Obligations.PostedWritesAreApplied : Prop :=
  (∀ (s : State) (n : Nat) (p : Packet), s.ready n = some p → s.noRoom p = false →
    (s.refuses p = false →
      (∀ ws, p.body = .store ws → (∀ w ∈ ws, isCpage w.pa = false) →
        ∃ t, exec (.postedStore n) s = .next t ∧ Answers t p false ∧ OnlyMemory s t (StoredBytes ws) ∧
          t.net.dropLast = s.net.eraseIdx n ∧
          ∀ pre w post, ws = pre ++ w :: post → (∀ v ∈ post, v.pa + v.size ≤ w.pa ∨ w.pa + w.size ≤ v.pa) →
            Holds t w.pa w.size w.val) ∧
      (∀ op ty w, p.body = .reduction op ty [w] → isCpage w.pa = false →
        ∃ t, exec (.postedReduction n) s = .next t ∧ Answers t p false ∧ OnlyMemory s t (StoredBytes [w]) ∧
          Holds t w.pa w.size (AtomOp.step op ty (BitVec.ofNat 64 (s.readLE w.pa w.size)) w.val)) ∧
      (∀ pa, p.body = .pinDown pa → 0 < (s.byte (pa + 1)).toNat →
        ∃ t, exec (.postedReduction n) s = .next t ∧ Answers t p false ∧
          (t.byte (pa + 1)).toNat = (s.byte (pa + 1)).toNat - 1 ∧ ∀ a, a ≠ pa + 1 → t.byte a = s.byte a) ∧
      (∀ pa, p.body = .signal pa [] → isCpage pa = false →
        ∃ t, exec (.signalAdd n) s = .next t ∧ Answers t p false ∧
          OnlyMemory s t (StoredBytes [{ pa, size := 8, val := 0, poison := false }]) ∧
          Holds t pa 8 (BitVec.ofNat 64 (s.readLE pa 8) + 1)) ∧
      (∀ k pa v add, p.body = .engineWrite k pa v add → isCpage pa = false →
        ∃ t, exec (.engineCompletionWrite n) s = .next t ∧ Answers t p false ∧
          OnlyMemory s t (StoredBytes [{ pa, size := 8, val := 0, poison := false }]) ∧
          Holds t pa 8 (if add then BitVec.ofNat 64 (s.readLE pa 8) + v else v))) ∧
    (s.refuses p = true → ∀ ws, p.body = .store ws →
      ∃ t, exec (.postedStore n) s = .next t ∧ Answers t p true ∧
        Sparse.get 0 (t.hearth p.tgt).counters 2 = Sparse.get 0 (s.hearth p.tgt).counters 2 + 1 ∧
        let ring := errBase p.tgt + 32 * ((s.hearth p.tgt).errCount % 524288)
        (t.hearth p.tgt).errCount = (s.hearth p.tgt).errCount + 1 ∧ ∀ a, a < ring ∨ ring + 32 ≤ a → t.byte a = s.byte a)) ∧
  (∀ (s : State) (n : Nat) (p : Packet) (pa : Nat) (after : List (Nat × Word)), s.net[n]? = some p → p.body = .signal pa after →
    after ≠ [] → exec (.signalAdd n) s = .next s) ∧
  (∀ (s : State) (pkg pa : Nat) (bytes : List Byte) (ep : Bool), (s.pkg pkg).present = true → (s.pkg pkg).perst = true →
    (s.pkg pkg).hostLink = true → bytes ≠ [] → paHost pa = false → paHost (pa + bytes.length - 1) = false →
    s.noHome pkg pa = false → s.noHome pkg (pa + bytes.length - 1) = false → paHearth pa = paHearth (pa + bytes.length - 1) →
    isCpage pa = false → isCpage (pa + bytes.length - 1) = false →
    ∃ t, exec (.hostWrite pkg pa bytes ep) s = .next t ∧ t.hoists = s.hoists ∧ t.casts = s.casts ∧
      (s.hostHolds pkg (paHearth pa) = false → (∀ k b, bytes[k]? = some b → t.byte (pa + k) = b) ∧
        ∀ a, a < pa ∨ pa + bytes.length ≤ a → t.byte a = s.byte a) ∧
      (s.hostHolds pkg (paHearth pa) = true → KeptBytes s t ∧ t.net.length = s.net.length + 1))

/-- O40. R42, R266, R299, R307, R320, R325, R326, R352, R354, R408, R409, R414: the requests that travel as posted packets take
effect where they arrive: a pennant lowers PEND and releases at 0, a release places its gang, a bank command reaches its
engines, an exit notice ends lanes, lanes arrive at a barrier, a launch request joins the list of its hearth, PARK asks for
the wake bit, UNPARK wakes a cast and KILL removes a request or begins to end a pour. The model's own readings and choices
here: log 61, 62, 136, 137. -/
def Obligations.PostedRequestsAreApplied : Prop :=
  ∀ (s : State) (n : Nat) (p : Packet), s.ready n = some p → s.noRoom p = false → s.refuses p = false →
    (∀ P c, p.body = .pennant P c → (s.pour P).st = .accepted → (s.pour P).deps = true →
      let pa := (s.pour P).sbPa (sbEntry c)
      let pend := (s.byte (pa + 1)).toNat
      let state := (s.byte pa).toNat
      s.poisoned pa 8 = false →
      ∃ t, exec (.pennant n) s = .next t ∧ Answers t p false ∧ (t.byte (pa + 1)).toNat = (pend + 255) % 256 ∧
        (∀ a, a ≠ pa → a ≠ pa + 1 → t.byte a = s.byte a) ∧
        (pend ≠ 1 ∨ state % 8 ≠ 0 → t.byte pa = s.byte pa ∧ t.net.dropLast = s.net.eraseIdx n) ∧
        (pend = 1 → state % 8 = 0 → (t.byte pa).toNat = (state + 1) % 256 ∧ (∃ r ∈ t.net, r.body = .release P c) ∧
          (t.pour P).nrel = (s.pour P).nrel + 1)) ∧
    (∀ P c, p.body = .release P c → (s.pour P).st = .accepted → (s.pour P).gangSize = 1 → c < 2 ^ 64 →
      ∃ t, exec (.castRelease n) s = .next t ∧ Answers t p false ∧ (t.cast (castKey P c)).st = .placed ∧
        (t.cast (castKey P c)).pour = P ∧ (t.cast (castKey P c)).index = c ∧
        (t.hearth p.tgt).pqueue = (s.hearth p.tgt).pqueue ++
          [{ pour := P, casts := [castKey P c], resume := false, order := s.nextOrd + 1, waited := false }]) ∧
    (∀ k, p.body = .engineCmd k → (s.cmd k).stage = .sent →
      ∃ t, exec (.engineCommand n) s = .next t ∧ Answers t p false ∧ KeptBytes s t ∧
        t.cmd k = { s.cmd k with stage := .active } ∧ ∀ j, j ≠ k → t.cmd j = s.cmd j) ∧
    (∀ hk lanes, p.body = .exitNotice hk lanes → (s.hoist hk).live = true → (∀ f, (s.frag f).pinned = []) →
      ∃ t, exec (.exitNotice n) s = .next t ∧ Answers t p false ∧ KeptBytes s t ∧
        (∀ l, ((s.hoist hk).exited ||| lanes).getLsbD l = true → (t.hoist hk).exited.getLsbD l = true) ∧
        ∀ k, k < 12 → Sparse.get 0 (t.hoist hk).masks k = Sparse.get 0 (s.hoist hk).masks k &&& ~~~lanes) ∧
    (∀ cast num hk lanes count sync pc next, p.body = .arrive cast num hk lanes count sync pc next → (s.hoist hk).live = true →
      let u := s.arriveBar cast num { hoist := hk, pc, next, lanes } count sync
      ∃ t, exec (.postedStore n) s = .next t ∧ Answers t p false ∧ KeptBytes s t ∧ t.hoists = s.hoists ∧
        (u.barFull cast num = false → t.cast cast = u.cast cast ∧ t.frags = s.frags) ∧
        (u.barFull cast num = true → (s.cast cast).parking = false → (s.cast cast).st ≠ .parked →
          (t.cast cast).bar num = .idle)) ∧
    (∀ recPa ctx res, p.body = .pourRequest recPa ctx res →
      ((s.hearth p.tgt).waiting.length < 64 → ∃ t, exec (.postedStore n) s = .next t ∧ Answers t p false ∧ KeptBytes s t ∧
        (t.hearth p.tgt).waiting = (s.hearth p.tgt).waiting ++ [{ ctx, reserved := false, recPa }]) ∧
      (64 ≤ (s.hearth p.tgt).waiting.length → exec (.postedStore n) s = .next s)) ∧
    (∀ c f, p.body = .parkNote c f →
      ∃ t q, exec (.postedStore n) s = .next t ∧ Answers t p false ∧ KeptBytes s t ∧ q ∈ t.net ∧ q.tgt = srcPlace p.src ∧
        q.body = .parkAnswer c f (!(s.cast c).wake) ∧ (t.cast c).wake = false ∧
        ((s.cast c).wake = false → (t.cast c).held = true)) ∧
    (∀ recPa index issuer managing P, p.body = .unpark recPa index issuer managing → s.pourAt recPa = some P →
      index.toNat < (s.pour P).ncast → s.mayActOn (p.tgt / 16) issuer managing (s.pour P).ctx = true →
      ∃ t, exec (.unparkApply n) s = .next t ∧ Answers t p false ∧ KeptBytes s t ∧
        ((s.cast (castKey P index.toNat)).held = false →
          t.cast (castKey P index.toNat) = { s.cast (castKey P index.toNat) with wake := true }) ∧
        ((s.cast (castKey P index.toNat)).held = true → (t.cast (castKey P index.toNat)).held = false)) ∧
    (∀ recPa issuer managing, p.body = .kill recPa issuer managing → (∀ f, (s.frag f).pinned = []) →
      ∃ t, exec (.killApply n) s = .next t ∧ Answers t p false ∧ KeptBytes s t ∧
        (∀ r ∈ (t.hearth p.tgt).waiting, r ∈ (s.hearth p.tgt).waiting ∧
          (r.recPa = recPa → s.mayActOn (p.tgt / 16) issuer managing r.ctx = false)) ∧
        ∀ P, s.pourAt recPa = some P → s.mayActOn (p.tgt / 16) issuer managing (s.pour P).ctx = true →
          (s.pour P).st = .accepted → (t.pour P).st = .killing)

/-- O41. R49, R237, R263, R266, R275, R289, R290, R352, R378, R384, R386, R408: completions and control messages do what they
announce: an acknowledgement clears what waits for it, a request is answered, read data reach their engine, a drained core
lets a held acquire go on, lanes away from the anchor pass a barrier that has opened, PARK has its answer, a stall hint
stands for 4,096 clocks, a source that has waited 2 µs asks for its acknowledgements, and a walk that ends fills the TLBs
that waited. The model's own readings and choices here: log 36, 41, 62, 136. -/
def Obligations.MessagesTakeEffect : Prop :=
  (∀ (s : State) (n : Nat) (p : Packet), s.ready n = some p →
    (∀ src tgt seq refused, p.body = .ack src tgt seq refused → srcOfCore src = true → p.tgt = 2048 + srcCore src →
      p.tgt < 65536 →
      ∃ t, exec (.acknowledgement n) s = .next t ∧ KeptBytes s t ∧
        (∀ u, u ∈ (t.core (srcCore src)).unacked ↔
          u ∈ (s.core (srcCore src)).unacked ∧ ¬ (u.src = src ∧ u.tgt = tgt ∧ covers seq u.seq = true)) ∧
        (∀ f k, (s.frag f).place = .core (srcCore src) k →
          (t.frag f).pseq = ((s.frag f).acked src tgt seq).pseq ∧
          (∀ u, ((s.core (srcCore src)).unacked.find? fun u => u.src = src && u.tgt = tgt && u.seq = seq) = some u →
            u.frag = some f → refused = true → srcUnit src = 0 → (s.frag f).live = true → coreSrc (srcCore src) k 0 = src →
            ∃ a ∈ (t.frag f).async, a.code = Cause.partition))) ∧
    (∀ src tgt place, p.body = .ackRequest src tgt place →
      ∃ t q, exec (.acknowledgementRequest n) s = .next t ∧ Replies s t n q ∧ q.tgt = place ∧
        q.body = .ack src tgt (Sparse.get 0 (s.hearth tgt).applied src) false ∧
        (s.refuses p = false → KeptBytes s t) ∧
        (s.refuses p = true →
          Sparse.get 0 (t.hearth p.tgt).counters 2 = Sparse.get 0 (s.hearth p.tgt).counters 2 + 1 ∧
          (t.hearth p.tgt).errCount = (s.hearth p.tgt).errCount + 1)) ∧
    (∀ k pas, p.body = .engineRead k pas → s.refuses p = false →
      ∃ t q, exec (.engineRead n) s = .next t ∧ KeptBytes s t ∧ Replies s t n q ∧ q.tgt = 2048 + srcCore p.src ∧
        q.body = .readData k (srcUnit p.src = 3) (pas.map fun a => (s.byte a, s.mark (a / 4)))) ∧
    (∀ k co bs, p.body = .readData k co bs →
      ∃ t, exec (.readData n) s = .next t ∧ KeptBytes s t ∧ t.net = s.net.eraseIdx n ∧
        (∀ j, j ≠ k → t.cmd j = s.cmd j) ∧
        ((s.cmd k).eng = .bank → (s.cmd k).stage = .active → (t.cmd k).stage = .results ∧
          ∀ j, 4 * j + 4 ≤ bs.length → Sparse.get (0, false) (t.cmd k).results j =
            (BitVec.ofNat 32 (leVal ((bs.drop (4 * j)).take 4)), ((bs.drop (4 * j)).take 4).any Prod.snd)) ∧
        (∀ old, (s.cmd k).eng = .copy → (s.cmd k).stage = .active → (s.cmd k).asked = true → (s.cmd k).buf = some old →
          t.cmd k = { s.cmd k with buf := some (old ++ bs), asked := false })) ∧
    (∀ gc count f, p.body = .drainRequest gc count f →
      ((s.core gc).drainedTo count = true →
        ∃ t q, exec (.drainRequest n) s = .next t ∧ KeptBytes s t ∧ Replies s t n q ∧ q.tgt = srcPlace p.src ∧
          q.body = .drainAnswer f) ∧
      ((s.core gc).drainedTo count = false → exec (.drainRequest n) s = .next s)) ∧
    (∀ f, p.body = .drainAnswer f → (s.frag f).onCore = true →
      ∃ t, exec (.drainAnswer n) s = .next t ∧ KeptBytes s t ∧ t.net = s.net.eraseIdx n ∧
        (t.frag f).entries = (s.frag f).entries.map fun e =>
          match e.wait with | some (.promote ..) => { e with wait := none } | _ => e) ∧
    (∀ tgs, p.body = .stallHint tgs →
      ∃ t, exec (.stallHint n) s = .next t ∧ KeptBytes s t ∧ t.net = s.net.eraseIdx n ∧
        (∀ h, h ∈ (t.core (p.tgt - 2048)).hints ↔
          (h ∈ (s.core (p.tgt - 2048)).hints ∧ h.target ∉ tgs) ∨ ∃ tg ∈ tgs, h = { target := tg, deadline := s.now + 4096 })) ∧
    (∀ f, p.body = .landing f →
      ∃ t, exec (.landing n) s = .next t ∧ KeptBytes s t ∧ t.net = s.net.eraseIdx n ∧ t.frags = s.frags) ∧
    (∀ hk lanes pc next, p.body = .opened hk lanes pc next → (s.hoistFrags hk).Nodup →
      ∃ t, exec (.landing n) s = .next t ∧ KeptBytes s t ∧ t.net = s.net.eraseIdx n ∧
        ∀ f, t.frag f = if f ∈ s.hoistFrags hk ∧ (s.frag f).lanes &&& lanes ≠ 0
          then (s.frag f).passBar { hoist := hk, pc, next, lanes } else s.frag f) ∧
    (∀ c f parks, p.body = .parkAnswer c f parks → (s.frag f).live = true → (s.frag f).asking = true →
      (parks = false → ∃ t, exec (.landing n) s = .next t ∧ KeptBytes s t ∧ t.net = s.net.eraseIdx n ∧ t.casts = s.casts ∧
        t.frag f = { s.frag f with asking := false } ∧ ∀ e, e ≠ f → t.frag e = s.frag e) ∧
      (parks = true → (∀ k ∈ s.gangOf c, ∃ e ∈ s.castFrags k, (s.frag e).onCore = true) →
        ∃ t, exec (.landing n) s = .next t ∧ KeptBytes s t ∧
          ∀ k ∈ s.gangOf c, (s.cast k).st = .running ∨ (s.cast k).st = .raised → (t.cast k).parking = true))) ∧
  (∀ (s : State) (src : Nat),
    ∃ t, exec (.ackTimeout src) s = .next t ∧ KeptBytes s t ∧
      (∀ u ∈ s.unackedOf src, u.src = src → u.sentAt + 2200 ≤ s.now →
        ∃ q ∈ t.net, q.lost = false ∧ q.body = .ackRequest src u.tgt (srcPlace src)) ∧
      ((∀ u ∈ s.unackedOf src, u.src = src → s.now < u.sentAt + 2200) → t.net = s.net)) ∧
  (∀ (s : State) (gc switch out : Nat) (p : Packet), s.queuedAt gc switch out = some p →
    ∃ t q, exec (.stallHintRaise gc switch out) s = .next t ∧ KeptBytes s t ∧ t.net = s.net ++ [q] ∧
      q.src = hearthSrc switch 5 ∧ q.tgt = 2048 + gc ∧
      q.body = .stallHint (if out = 5 ∨ out = 6 then s.beyond p.gen switch out else [p.tgt])) ∧
  (∀ (s : State) (gc target : Nat),
    ∃ t, exec (.stallHintLapse gc target) s = .next t ∧ KeptBytes s t ∧
      ∀ h, h ∈ (t.core gc).hints ↔ h ∈ (s.core gc).hints ∧ (h.target ≠ target ∨ s.now < h.deadline)) ∧
  (∀ (s : State) (gh ctx vpage : Nat), (BitVec.ofNat 8 ctx, vpage) ∈ (s.hearth gh).walks.take 64 →
    ∃ t, exec (.tlbWalkComplete gh ctx vpage) s = .next t ∧ KeptBytes s t ∧
      (BitVec.ofNat 8 ctx, vpage) ∉ (t.hearth gh).walks ∧
      ∀ f, (s.frag f).onCore = true → coreHearth (s.frag f).gc = gh →
        (∀ e ∈ (t.frag f).entries, e.wait ≠ some (.walk (BitVec.ofNat 8 ctx) vpage)) ∧
        ∀ e ∈ (s.frag f).entries, e.wait = some (.walk (BitVec.ofNat 8 ctx) vpage) →
          (∀ leaf bits at_, s.walk (gh / 16) ctx (vpage * 65536) = some (leaf, bits, at_) →
            ({ ctx := BitVec.ofNat 8 ctx, page := vpage * 65536 / 2 ^ bits, bits, leaf } : TlbEnt) ∈
              (t.core (s.frag f).gc).tlb) ∧
          (s.walk (gh / 16) ctx (vpage * 65536) = none → (e.prio, e.pc, vpage) ∈ (t.frag f).badWalk))

/-- O42. R38, R39, R41, R44 to R52, R63, R231, R275, R387, R432: a fragment leaves its core once its registers are full, its
drain mark is met and at most four posted-sequence entries remain; what its live set does not name reads zero; an ingot is
placed on the core of R39 or parked, and acknowledged, and the entries that its home has applied are gone; one that fails the
home's check goes back to the core that sent it, or joins the parked arrivals of its hearth, and raises PARTITION; parked
arrivals are placed in order; the mask registers that a fragment takes along are those at its departure. The model's own
readings and choices here: log 12, 52, 58, 109, 110. -/
def Obligations.FragmentsTravel : Prop :=
  (∀ (s : State) (f gc slot dest : Nat) (lsel : BitVec 8) (anchor : Bool),
    let x := s.frag f
    x.live = true → s.mayLeave x = true →
    (x.place = .departing gc slot dest lsel anchor false → (s.keptPSeq x).length ≤ 4 →
      (s.pour (s.pourOf x)).flag 4 = false → x.pinned = [] →
      let live := (s.liveSet { x with pseq := s.keptPSeq x, drain := none } lsel).1
      ∃ t q, exec (.fragmentDeparture f) s = .next t ∧ KeptBytes s t ∧ (t.frag f).place = .flight ∧ (t.frag f).live = true ∧
        (t.frag f).lanes = x.lanes ∧ (t.frag f).hoist = x.hoist ∧ (t.frag f).wbase = x.wbase ∧ (t.frag f).loops = x.loops ∧
        (t.frag f).pseq = s.keptPSeq x ∧ (t.frag f).entries = x.entries.map (fun e => { e with wait := none, woken := false }) ∧
        (t.frag f).mcopy = (if (s.hoist x.hoist).split = true ∧ gc ≠ s.anchorOf x then x.mcopy else (s.hoist x.hoist).masks) ∧
        (∀ v ∈ (t.core gc).visitors, v.2 ≠ some f) ∧ t.net = s.net ++ [q] ∧ q.src = coreSrc gc 0 7 ∧ q.tgt = dest ∧
        (∃ sel len, q.body = .ingot f sel len anchor) ∧
        (∀ a l, l < 32 → (t.hoist x.hoist).elem a l =
          if x.lanes.getLsbD l ∧ x.wbase ≤ a ∧ a < x.wbase + 64 ∧ live.getLsbD (a - x.wbase) = false then 0
          else (s.hoist x.hoist).elem a l) ∧
        (lsel = 0xFF → ∀ r, r < 64 → (t.frag f).sreg r = x.sreg r)) ∧
    (x.place = .departing gc slot dest lsel anchor true → (s.keptPSeq x).length ≤ 4 →
      ∃ t, exec (.fragmentDeparture f) s = .next t ∧ (t.frag f).place = .parked (coreHearth gc) false anchor ∧
        (t.frag f).lanes = x.lanes ∧ ∀ v ∈ (t.core gc).visitors, v.2 ≠ some f) ∧
    (∀ park, x.place = .departing gc slot dest lsel anchor park → 4 < (s.keptPSeq x).length →
      ∃ t, exec (.fragmentDeparture f) s = .next t ∧ KeptBytes s t ∧ (t.frag f).place = x.place ∧
        ∀ e ∈ s.keptPSeq x, srcCore e.src ≠ gc → ∃ q ∈ t.net, q.body = .ackRequest e.src e.tgt (2048 + gc))) ∧
  (∀ (s : State) (n : Nat) (p : Packet) (f : Nat) (lsel : BitVec 8) (len : Nat) (bound : Bool), s.ready n = some p →
    p.body = .ingot f lsel len bound →
    let x := s.frag f
    let lands (t : State) : Prop := ∃ q, t.net.getLast? = some q ∧ q.body = .landing f ∧ q.tgt = 2048 + srcCore p.src
    x.live = true → s.mustPark f p.tgt = false →
    (s.refuses p = false → bound = true →
      ∃ t, exec (.ingotArrival n) s = .next t ∧ lands t ∧
        (t.frag f).place = .core (s.anchorOf x) (s.hoist x.hoist).slot ∧
        (t.frag f).pseq = s.seenHere (coreHearth (s.anchorOf x)) x.pseq) ∧
    (∀ gc, s.refuses p = false → bound = false → s.pickCore p.tgt = some gc → (s.hearth p.tgt).arrivals = [] →
      ∃ t k, exec (.ingotArrival n) s = .next t ∧ lands t ∧ (t.frag f).place = .core gc k ∧
        (gc ≠ s.anchorOf x → Sparse.get none (t.core gc).visitors k = some f) ∧
        (t.frag f).pseq = s.seenHere (coreHearth gc) x.pseq) ∧
    (s.refuses p = false → bound = false → s.pickCore p.tgt = none → s.spot p.tgt x.parkedBytes ≠ none →
      ∃ t, exec (.ingotArrival n) s = .next t ∧ lands t ∧ (t.frag f).place = .parked p.tgt true false ∧
        (t.hearth p.tgt).arrivals = (s.hearth p.tgt).arrivals ++ [f]) ∧
    (s.refuses p = true →
      let g := srcCore p.src
      let back := coreHearth g
      ∃ t, exec (.ingotArrival n) s = .next t ∧ (∃ a ∈ (t.frag f).async, a.code = Cause.partition) ∧
        (s.mustPark f back = false → g = s.anchorOf x → (t.frag f).place = .core g (s.hoist x.hoist).slot) ∧
        (s.mustPark f back = false → g ≠ s.anchorOf x →
          (s.canAccept g = true → (s.hearth back).arrivals = [] → ∃ k, (t.frag f).place = .core g k) ∧
          (s.canAccept g = false ∨ (s.hearth back).arrivals ≠ [] → (t.frag f).place = .parked back true false)))) ∧
  (∀ (s : State) (gh f gc : Nat) (r : List Nat), (s.hearth gh).arrivals = f :: r → s.pickCore gh = some gc →
    s.badImage gh (· = .ingot f) = none →
    ∃ t k, exec (.parkedArrivalPlacement gh) s = .next t ∧ KeptBytes s t ∧ (t.frag f).place = .core gc k ∧
      (t.hearth gh).arrivals = r) ∧
  (∀ (s : State) (f : Nat),
    let x := s.frag f
    let here := coreHearth x.gc
    x.onCore = true → (∃ e ∈ x.pseq, e.tgt = here) →
    (∀ e ∈ x.pseq, e.tgt = here → s.pendingTo e.src e.tgt e.seq = false) →
    ∃ t, exec (.holdRelease f) s = .next t ∧ KeptBytes s t ∧ (∀ e, e ∈ (t.frag f).pseq ↔ e ∈ x.pseq ∧ e.tgt ≠ here) ∧
      (t.frag f).entries = x.entries.map fun e => if e.wait = some .hold then { e with wait := none } else e)

/-- O43. R45, R46, R51, R404, R405, R418, R432: a fragment that parks leaves a parked ingot with its lanes, its whole window and
its scalars in the parking area of its hearth, and a cast its image with its scratchpad; nothing outside the parking areas
changes; an image is gone once it has been read, and a poisoned one ends its pour. The model's own readings and choices here:
log 56. -/
def Obligations.ParkingLeavesImages : Prop :=
  (∀ (s : State) (f gc slot dest : Nat) (lsel : BitVec 8) (anchor : Bool),
    let x := s.frag f
    let gh := coreHearth gc
    let len := x.parkedForm.parkedBytes
    let n := (lanesOf x.lanes).length
    x.live = true → s.mayLeave x = true → x.place = .departing gc slot dest lsel anchor true → (s.keptPSeq x).length ≤ 4 →
    (s.pour (s.pourOf x)).flag 4 = false → x.pinned = [] → s.spot gh len ≠ none → x.loops.length ≤ 4 →
    Sparse.wf (0 : Word) (s.hoist x.hoist).vregs = true → Sparse.wf (0 : DWord) x.sregs = true → (∀ q ∈ x.sregs, q.1 < 64) →
    ∃ t pa, exec (.fragmentDeparture f) s = .next t ∧ KeptOutside s t ∧
      ({ owner := .ingot f, pa, len } : Image) ∈ (t.hearth gh).images ∧
      parkingBase gh ≤ pa ∧ pa + len ≤ parkingBase gh + parkingArea ∧
      t.readLE pa 1 = 1 ∧ t.readLE (pa + 4) 4 = x.lanes.toNat ∧ t.readLE (pa + 0xE) 2 = gc % 2 ^ 16 ∧
      (∀ r k l, r < 64 → (lanesOf x.lanes)[k]? = some l →
        t.readLE (pa + 288 + 4 * (r * n + k)) 4 = ((s.hoist x.hoist).elem (x.wbase + r) l).toNat) ∧
      (∀ r, r < 64 → t.readLE (pa + 288 + 256 * n + 8 * r) 8 = (x.sreg r).toNat)) ∧
  (∀ (s : State) (c : Nat),
    let x := s.cast c
    let p := s.pour x.pour
    let gh := coreHearth x.anchor
    s.parkDone c = true → p.flag 4 = false → s.spot gh (s.imageBytes c) ≠ none →
    (∀ q ∈ x.queues, q.1 < 16) → (∀ q ∈ x.bars, q.1 < 16 ∧ ∀ r ∈ q.2.arrived, r.1 < 32) →
    (∀ k, (∀ q ∈ (x.ctx k).bank, q.1 < 32768) ∧ (∀ q ∈ (x.ctx k).marks, q.1 < 32768) ∧
      ∀ m ∈ (x.ctx k).queue, (MOp.metaWords m.op).length ≤ 4096) →
    Sparse.wf (0 : Byte) x.spad = true →
    ∃ pa, KeptOutside s (s.finishPark c) ∧
      ({ owner := .cast c, pa, len := s.imageBytes c } : Image) ∈ ((s.finishPark c).hearth gh).images ∧
      (s.finishPark c).readLE (pa + 0xB) 1 = p.banks % 256 ∧
      (s.finishPark c).readLE (pa + 0x18) 8 = s.imageBytes c % 2 ^ 64 ∧
      (∀ a, a < p.spad → (s.finishPark c).byte (pa + s.spadOfs c + a) = Sparse.get (0 : Byte) x.spad a) ∧
      ((s.finishPark c).cast c).st = .parked ∧ ((s.finishPark c).cast c).granules = 0) ∧
  (∀ (s : State) (gh f gc pa : Nat) (r : List Nat), (s.hearth gh).arrivals = f :: r → s.pickCore gh = some gc →
    s.badImage gh (· = .ingot f) = some pa → (s.pour (s.pourOf (s.frag f))).st = .accepted →
    ∃ t, exec (.parkedArrivalPlacement gh) s = .next t ∧ (t.pour (s.pourOf (s.frag f))).st = .killing ∧
      (t.hearth gh).errCount = (s.hearth gh).errCount + 1) ∧
  (∀ (s : State) (gh : Nat) (e : QEnt) (u : State),
    let pkg := gh / 16
    let a := Ask.start gh e
    s.head gh = some e → s.startHead gh e = some u → (s.pour e.pour).unmetered = false → e.resume = true →
    s.firstAsk (s.asks pkg) = some a → 1000 * s.charge pkg a ≤ (s.pkg pkg).bellows.budget →
    (s.badCasts gh e.casts = none →
      ∃ t, exec (.castStart gh) s = .next t ∧ ∀ c ∈ e.casts, ∀ m ∈ (t.hearth gh).images, m.owner ≠ .cast c) ∧
    (∀ pa, s.badCasts gh e.casts = some pa → (s.pour e.pour).st = .accepted →
      ∃ t, exec (.castStart gh) s = .next t ∧ (t.pour e.pour).st = .killing ∧
        (t.hearth gh).errCount = (s.hearth gh).errCount + 1))

/-- O44. R278, R280 to R285, R287, R288, R376: a switch keeps a contribution until its round is whole and then forwards the fold;
the home applies merged results in the order of rounds; a round or a collective that has waited for WFLUSH is sent on,
poisoned and flushed, or fails; descriptors are declared, cleared and freed; a flit that fails is counted, and after the
eighth failure its packet is lost; a byte of the control page goes to its register. The model's own readings and choices
here: log 40, 83, 84, 85, 86, 118. -/
def Obligations.ReductionRounds : Prop :=
  (∀ (s : State) (n : Nat) (p : Packet) (win : Nat) (wgen : Byte) (home port : Nat) (elems : List Contrib) (rep : Option Bool)
      (fl : Bool) (nd : TreeNode), s.ready n = some p → p.body = .contribution win wgen home port elems rep fl →
    let pkg := (p.tgt - 65536) / 16
    let pos := (p.tgt - 65536) % 16
    let w := ((s.pkg pkg).window win).accepted
    let k := (s.pkg pkg).switch pos
    let old (e : Contrib) : Option Round :=
      k.rounds.find? fun q => decide (q.win = win ∧ q.home = home ∧ q.ofs = e.ofs ∧ q.round = e.round)
    let vals (e : Contrib) : List RoundVal :=
      ((old e).map Round.vals).getD [] ++ [{ port, val := e.val, poison := e.poison, replace := rep, flushed := fl }]
    w.node pos home = some nd →
    (w.wgen = wgen.toNat → w.valid = true → elems.Pairwise (fun x y => (x.ofs, x.round) ≠ (y.ofs, y.round)) →
      (∀ e ∈ elems, (win, home, e.ofs, port, e.round) ∉ k.flushed) → k.rounds.length + elems.length ≤ 8192 →
      ((∀ e ∈ elems, ∃ q ∈ nd.ins, ∀ v ∈ vals e, v.port ≠ q) →
        ∃ t, exec (.contribution n) s = .next t ∧ KeptBytes s t ∧ t.net = s.net.eraseIdx n ∧
          ∀ e ∈ elems, ({ win, home, ofs := e.ofs, round := e.round, vals := vals e, since := ((old e).map Round.since).getD s.now } : Round) ∈ ((t.pkg pkg).switch pos).rounds) ∧
      ((∀ e ∈ elems, (∀ q ∈ nd.ins, ∃ v ∈ vals e, v.port = q) ∧ roundReplace (vals e) ≠ none) → nd.out = 0 →
        ∃ t l, exec (.contribution n) s = .next t ∧ KeptBytes s t ∧ t.net = s.net.eraseIdx n ++ l ∧ l.length = elems.length ∧
          ∀ e ∈ elems, ∃ q ∈ l, q.tgt = home ∧ ∃ r, roundReplace (vals e) = some r ∧
            q.body = .merged win wgen home e.ofs e.round (w.foldVals nd.ins (vals e)).1 (w.foldVals nd.ins (vals e)).2 r
              ((vals e).any RoundVal.flushed))) ∧
    (∀ e, w.wgen = wgen.toNat → w.valid = false → elems = [e] → (win, home, e.ofs, port, e.round) ∉ k.flushed → nd.out = 0 →
      ∃ t q v r, exec (.contribution n) s = .next t ∧ t.net = s.net.eraseIdx n ++ [q] ∧ q.tgt = home ∧
        q.body = .merged win wgen home e.ofs e.round v true r true) ∧
    (w.wgen ≠ wgen.toNat →
      ∃ t, exec (.contribution n) s = .next t ∧ t.net = s.net.eraseIdx n ∧
        Sparse.get 0 ((t.pkg pkg).switch pos).counters 3 = Sparse.get 0 k.counters 3 + 1)) ∧
  (∀ (s : State) (n : Nat) (p : Packet) (win : Nat) (wgen : Byte) (home ofs round : Nat) (val : DWord) (poison rep fl : Bool),
    s.ready n = some p → p.body = .merged win wgen home ofs round val poison rep fl →
    let w := ((s.pkg (home / 16)).window win).accepted
    let pa := paOf home ofs
    (w.wgen = wgen.toNat → (w.valid = true ∨ w.tree ≠ []) →
      (w.landedAt home ofs ≠ round → exec (.mergedResult n) s = .next s) ∧
      (w.landedAt home ofs = round → s.refuses p = false → isCpage pa = false →
        ∃ t, exec (.mergedResult n) s = .next t ∧
          Holds t pa w.width (if rep then val else w.step (BitVec.ofNat 64 (s.readLE pa w.width)) val) ∧
          (∀ a, a < pa ∨ pa + w.width ≤ a → t.byte a = s.byte a) ∧
          ((t.pkg (home / 16)).window win).landedAt home ofs = round + 1 ∧
          ∃ q, t.net.getLast? = some q ∧ q.tgt = srcPlace p.src ∧ q.body = .ack p.src home p.seq false)) ∧
    (w.wgen ≠ wgen.toNat →
      ∃ t q, exec (.mergedResult n) s = .next t ∧ t.net = s.net.eraseIdx n ++ [q] ∧ q.tgt = srcPlace p.src ∧
        q.body = .ack p.src home p.seq false ∧ (t.pkg (home / 16)).windows = (s.pkg (home / 16)).windows)) ∧
  (∀ (s : State) (pkg pos win elt : Nat) (r : Round) (nd : TreeNode),
    (((s.pkg pkg).switch pos).rounds.filter fun q => decide (q.win = win))[elt]? = some r →
    ((s.pkg pkg).window r.win).node pos r.home = some nd → nd.out = 0 →
    (r.since + 1100 * (s.pkg pkg).wflush ≤ s.now →
      ∃ t q, exec (.wflushExpiry pkg pos win elt) s = .next t ∧ r ∉ ((t.pkg pkg).switch pos).rounds ∧
        t.net = s.net ++ [q] ∧ q.tgt = r.home ∧ (∃ g v rep, q.body = .merged r.win g r.home r.ofs r.round v true rep true) ∧
        Sparse.get 0 ((t.pkg pkg).switch pos).counters 4 = Sparse.get 0 ((s.pkg pkg).switch pos).counters 4 + 1) ∧
    (s.now < r.since + 1100 * (s.pkg pkg).wflush → exec (.wflushExpiry pkg pos win elt) s = .next s)) ∧
  (∀ (s : State) (pkg pos win elt k : Nat),
    (((s.pkg pkg).switch pos).rounds.filter fun q => decide (q.win = win))[elt]? = none →
    (k, s.cmd k) ∈ s.cmds → (s.cmd k).eng = .coll → (s.cmd k).win = win → (s.cmd k).stage = .active →
    (s.cmd k).since + 1100 * (s.pkg (corePkg (s.cmd k).gc)).wflush ≤ s.now → s.allIssued (s.cmd k) = false →
    ∃ t, exec (.wflushExpiry pkg pos win elt) s = .next t ∧ KeptBytes s t ∧
      ∀ q ∈ s.pkgs, (s.cmd k).inst ∈ ((t.pkg q.1).window win).failed) ∧
  (∀ (s : State) (pkg win : Nat),
    let w := (s.pkg pkg).window win
    w.status = 2 → w.valid = false → s.windowBusy pkg win = false → (s.pkg pkg).heldRounds win = [] →
    ∃ t, exec (.windowTreeFreed pkg win) s = .next t ∧ KeptBytes s t ∧ ((t.pkg pkg).window win).status = 0 ∧
      ((t.pkg pkg).window win).tree = []) ∧
  (∀ (s : State) (pkg win : Nat),
    let w := (s.pkg pkg).window win
    let s1 := s.modWindow pkg win fun x => x.setByte 0x2C (x.fld 0x2C 1 / 2 * 2 + 1)
    (s.pkg pkg).present = true → win < 16 → w.validBit = false → w.status ≠ 2 →
    ∃ t, exec (.windowDeclare pkg win) s = .next t ∧ KeptBytes s t ∧
      let y := (t.pkg pkg).window win
      if s1.badWindow (s1.pkg pkg) win then y.validBit = false ∧ y.status = 1 ∧ y.valid = w.valid
      else y.validBit = true ∧ y.status = 0 ∧ y.valid = true) ∧
  (∀ (s : State) (pkg win : Nat), ((s.pkg pkg).window win).validBit = true →
    ∃ t, exec (.windowClear pkg win) s = .next t ∧ ((t.pkg pkg).window win).validBit = false ∧
      ((t.pkg pkg).window win).valid = false ∧ (t.pkg pkg).heldRounds win = [] ∧
      ((s.pkg pkg).heldRounds win = [] → ((t.pkg pkg).window win).tree = [] ∧ KeptBytes s t) ∧
      ((s.pkg pkg).heldRounds win ≠ [] → ((t.pkg pkg).window win).status = 2)) ∧
  (∀ (s : State) (pkg ctx : Nat) (b : Byte), (s.pkg pkg).present = true → ctx < 256 →
    ∃ t, exec (.controlPageWrite pkg (0x2000 + 16 * ctx + 8) [b] none) s = .next t ∧ KeptBytes s t ∧ (t.pkg pkg).part ctx = b.toNat ∧
      ∀ c, c ≠ ctx → (t.pkg pkg).part c = (s.pkg pkg).part c) ∧
  (∀ (s : State) (n : Nat) (p : Packet) (link : Bool) (unit : Nat), s.net[n]? = some p → p.lost = false →
    let pkg := unit / (if link then 24 else 16)
    let place := crcPlace link unit
    let counted (t : State) : Prop := link = true →
      Sparse.get 0 (t.pkg pkg).linkCtrs (4 * (unit % 24)) = Sparse.get 0 (s.pkg pkg).linkCtrs (4 * (unit % 24)) + 1
    (s.pkg pkg).present = true →
    (∀ eighth, s.passesPlace p link unit = false ∨ eighth = true ∧ p.failsAt place ≠ 7 →
      exec (.flitCrcFailure n eighth link unit) s = .next s) ∧
    (s.passesPlace p link unit = true →
      ∃ t, exec (.flitCrcFailure n false link unit) s = .next t ∧ counted t ∧ KeptBytes s t ∧
        t.net = s.net.set n { p with fails := 16 * place + p.failsAt place % 7 + 1 }) ∧
    (s.passesPlace p link unit = true → p.failsAt place = 7 →
      ∃ t, exec (.flitCrcFailure n true link unit) s = .next t ∧ counted t ∧ t.net = s.net.set n { p with lost := true }))

/-- O45. R291 to R295, R422: a sweep sums the counters of a context; 64 unbalanced sweeps that agree let firmware save the
context and skip what is lost; a route table goes into the idle bank, every endpoint flips once it has nothing outstanding,
and the old bank retires once two sweeps of the domain agree and balance. The model's own readings and choices here: log 87,
88, 89, 93, 116. -/
def Obligations.SweepsAndRoutes : Prop :=
  (∀ (s : State) (pkg ctx : Nat) (domain : Bool), (s.pkg pkg).present = true →
    let key := ctx % 256 + if domain then 256 else 0
    let old := Sparse.get .none (s.pkg pkg).sweeps key
    let ts := s.sweepTotals pkg (BitVec.ofNat 8 ctx) domain
    ∃ t, exec (.sweep pkg ctx domain) s = .next t ∧
      (let w := Sparse.get .none (t.pkg pkg).sweeps key
       w.totals = (ts.flatMap fun q => [q.1, q.2]) ∧ (w.balanced = true ↔ ∀ q ∈ ts.take 4, q.1 = q.2) ∧
       w.same = if old.totals = w.totals then old.same + 1 else 1) ∧
      (old.same ≠ 63 → KeptBytes s t) ∧ t.net = s.net ∧
      (domain = true → (∃ q ∈ s.pkgs, q.2.routing.isSome = true) → s.allFlipped = true →
        (let w := s.oldSweep.next s.oldTotals; 2 ≤ w.same ∧ w.balanced = true) →
        ∀ k, (s.pkg k).routing.isSome = true → (t.pkg k).routing = none ∧ (t.pkg k).bank = !(s.pkg k).bank)) ∧
  (∀ (s : State) (pkg ctx : Nat), ctx < 256 → (s.pkg pkg).st = .ready → (s.pkg pkg).fatalCtxs.getLsbD ctx = false →
    (let w := Sparse.get .none (s.pkg pkg).sweeps ctx; 64 ≤ w.same ∧ w.balanced = false) →
    ∃ t, exec (.contextFatal pkg ctx) s = .next t ∧ KeptBytes s t ∧ (t.pkg pkg).fatalCtxs.getLsbD ctx = true ∧
      (∀ q ∈ t.net, q.lost = true → q.ctx ≠ BitVec.ofNat 8 ctx) ∧
      ∃ r ∈ (t.pkg pkg).preempt, r.resume = false ∧ r.ctxs = [BitVec.ofNat 8 ctx]) ∧
  (∀ (s : State) (entries : List (Nat × Nat)),
    ((∃ q ∈ s.pkgs, q.2.routing ≠ none) → exec (.routeUpdate entries) s = .next s) ∧
    ((∀ q ∈ s.pkgs, q.2.routing = none) →
      ∃ t, exec (.routeUpdate entries) s = .next t ∧ KeptBytes s t ∧
        ∀ k pos, (s.pkg k).present = true → pos < 16 → (t.pkg k).routing = some [] ∧ (t.pkg k).bank = (s.pkg k).bank ∧
          let w := (t.pkg k).switch pos
          let v := (s.pkg k).switch pos
          if (s.pkg k).bank then w.bank0 = bankOf entries (16 * k + pos) ∧ w.bank1 = v.bank1
          else w.bank1 = bankOf entries (16 * k + pos) ∧ w.bank0 = v.bank0)) ∧
  (∀ (s : State) (src : Nat) (l : List Nat),
    let ep := endpoint src
    let pkg := srcPkg src
    (s.pkg pkg).routing = some l → ep ∉ l →
    (s.endpointIdle ep (s.pkg pkg).bank = true →
      ∃ t, exec (.injectionFlip src) s = .next t ∧ KeptBytes s t ∧ (t.pkg pkg).routing = some (l ++ [ep]) ∧
        (∀ cls, cls < 3 → t.genOf src cls = !(s.pkg pkg).bank) ∧
        ∀ q ∈ t.net, endpoint q.src = ep → t.uninjected q = false) ∧
    (s.endpointIdle ep (s.pkg pkg).bank = false → exec (.injectionFlip src) s = .next s))

/-- O46. R297 to R299, R302 to R310, R357, R361, R365: the host's write of a launch window joins the waiting list; a slot goes to
the first request, whose record is refused with its STATUS or accepted; a cast with room and leave to start becomes RUNNING,
in the lowest granules; the end of a quantum and the ends of a cast and of a pour follow. The model's own readings and
choices here: log 37, 47, 48, 49, 52, 53, 57. -/
def Obligations.LaunchesAndCasts : Prop :=
  (∀ (s : State) (pkg hearth : Nat) (word : DWord) (size : Nat),
    let p := s.pkg pkg
    let pa := word.toNat % 2 ^ 50
    let gh := 16 * pkg + hearth
    p.present = true → p.perst = true → p.hostLink = true →
    (p.st = .ready → size = 8 → p.enabled hearth = true → paHost pa = false → pa % 128 = 0 → s.noHome pkg pa = false → isCpage pa = false →
      ((s.hearth gh).waiting.length < 64 →
        ∃ t, exec (.launch pkg hearth word size) s = .next t ∧ KeptBytes s t ∧
          (t.hearth gh).waiting = (s.hearth gh).waiting ++
            [{ ctx := word.extractLsb' 56 8, reserved := decide (word.toNat / 2 ^ 50 % 64 ≠ 0), recPa := pa }]) ∧
      (64 ≤ (s.hearth gh).waiting.length →
        ∃ t q, exec (.launch pkg hearth word size) s = .next t ∧ KeptBytes s t ∧ t.net = s.net ++ [q] ∧ q.tgt = paHearth pa ∧
          q.body = .store [WriteOp.clean (pa + 0x52) 2 0x8009])) ∧
    (p.st ≠ .ready ∨ size ≠ 8 →
      ∃ t, exec (.launch pkg hearth word size) s = .next t ∧
        Sparse.get 0 (t.pkg pkg).hostCtrs 0 = Sparse.get 0 p.hostCtrs 0 + 1 ∧ (t.hearth gh).waiting = (s.hearth gh).waiting)) ∧
  (∀ (s : State) (gh : Nat) (r : LaunchReq),
    let raw : BitVec 1024 := BitVec.ofNat 1024 (s.readLE r.recPa 128)
    let q0 : Pour := { Pour.none with pkg := gh / 16, hearth := gh % 16, ctx := r.ctx, recPa := r.recPa, raw }
    let q : Pour := { q0 with aff := s.affinityWord q0 }
    let code := s.refusal q r.reserved (s.poisoned r.recPa 128)
    s.nextPinning gh = none →
    ((s.hearth gh).waiting.find? fun r => !s.ctxSaved (gh / 16) r.ctx) = some r → (s.hearth gh).slots.length < 64 →
    (code ≠ 0 →
      ∃ t p, exec (.slotGrant gh) s = .next t ∧ KeptBytes s t ∧ (t.hearth gh).waiting = (s.hearth gh).waiting.erase r ∧
        (t.hearth gh).slots = (s.hearth gh).slots ∧ t.pours = s.pours ∧ t.net = s.net ++ [p] ∧
        p.body = .store [WriteOp.clean (r.recPa + 0x52) 2 code]) ∧
    (code = 0 → q.deps = false → q.gangSize = 1 → q.casts ≤ 2 ^ 64 →
      ∃ t, exec (.slotGrant gh) s = .next t ∧ (t.hearth gh).slots = (s.hearth gh).slots ++ [s.nextPour] ∧
        (t.pour s.nextPour).st = .accepted ∧ (t.pour s.nextPour).raw = raw ∧ (t.pour s.nextPour).ncast = q.casts ∧
        (∃ p ∈ t.net, p.body = .store [WriteOp.clean (r.recPa + 0x52) 2 1]) ∧
        ∀ i, i < q.casts → (t.cast (castKey s.nextPour i)).st = .placed)) ∧
  (∀ (s : State) (gh : Nat) (e : QEnt) (u : State),
    let pkg := gh / 16
    let a := Ask.start gh e
    let mw := 1000 * s.charge pkg a
    let covered : Prop := 0 < mw ∧ mw ≤ s.ballastNow pkg
    s.head gh = some e → s.startHead gh e = some u → (s.pour e.pour).unmetered = false →
    (e.resume = true → s.badCasts gh e.casts = none) →
    (s.firstAsk (s.asks pkg) = some a → covered ∨ mw ≤ (s.pkg pkg).bellows.budget →
      ∃ t, exec (.castStart gh) s = .next t ∧ (∀ c ∈ e.casts, (t.cast c).st = .running ∨ (t.cast c).st = .raised) ∧
        (∀ q ∈ (t.hearth gh).pqueue, q.order ≠ e.order) ∧
        (¬ covered → (t.pkg pkg).bellows.budget = (s.pkg pkg).bellows.budget - mw) ∧
        (covered → (t.pkg pkg).bellows.budget = (s.pkg pkg).bellows.budget ∧
          (t.pkg pkg).bellows.soon = (s.pkg pkg).bellows.soon + mw) ∧
        (∀ c gc, e.casts = [c] → e.resume = false → s.anchorFor (s.cast c).pour gh = some gc →
          (t.cast c).anchor = gc ∧
            (t.cast c).granules = granuleBits ((s.freeGranules gc).take (s.pour (s.cast c).pour).granules)) ∧
        (t.pkg pkg).bellows.starts = (s.pkg pkg).bellows.starts + e.casts.length) ∧
    (s.firstAsk (s.asks pkg) ≠ some a ∨ ¬ covered ∧ (s.pkg pkg).bellows.budget < mw → exec (.castStart gh) s = .next s)) ∧
  (∀ (s : State) (gh : Nat) (e : QEnt) (u : State),
    let pkg := gh / 16
    s.head gh = some e → s.startHead gh e = some u → (s.pour e.pour).unmetered = true →
    (e.resume = true → s.badCasts gh e.casts = none) →
    ∃ t, exec (.castStart gh) s = .next t ∧ (∀ c ∈ e.casts, (t.cast c).st = .running ∨ (t.cast c).st = .raised) ∧
      (t.pkg pkg).bellows.pinAdm = (s.pkg pkg).bellows.pinAdm + 1) ∧
  (∀ (s : State) (c : Nat), ((s.cast c).st = .running ∨ (s.cast c).st = .raised) → (s.cast c).quantum = none →
    (s.pour (s.cast c).pour).resident = false → (s.cast c).startedAt + 22000 ≤ s.now →
    s.head (coreHearth (s.cast c).anchor) = none →
    ∃ t, exec (.quantumExpiry c) s = .next t ∧ t.cast c = { s.cast c with quantum := some s.nextOrd } ∧
      (∀ k, k ≠ c → t.cast k = s.cast k) ∧ t.nextOrd = s.nextOrd + 1) ∧
  (∀ (s : State) (c : Nat),
    let x := s.cast c
    let p := s.pour x.pour
    (p.st = .accepted → (x.st = .running ∨ x.st = .raised) → x.parking = false → s.castExited c = true →
      s.castBalanced c = true →
      ∃ t, exec (.castRetirement c) s = .next t ∧ (t.cast c).st = .retired ∧ (t.cast c).psent = true ∧
        (t.pour x.pour).nret = p.nret + 1 ∧
        (p.deps = true → x.psent = false → ∀ k ∈ p.succs x.index, ∃ q ∈ t.net, q.body = .pennant x.pour k)) ∧
    (p.st = .accepted → p.deps = true → x.st = .running → x.parking = false → x.raiser = true → x.psent = false →
      (∀ hk ∈ s.castHoists c, (s.hoist hk).isRaised = true) →
      ∃ t, exec (.earlyPennant c) s = .next t ∧ (t.cast c).st = .raised ∧ (t.cast c).psent = true ∧
        ∀ k ∈ p.succs x.index, ∃ q ∈ t.net, q.body = .pennant x.pour k)) ∧
  (∀ (s : State) (P : Nat),
    let q := s.pour P
    let gh := 16 * q.pkg + q.hearth
    let done := s.settled (seqrSrc gh) (paHearth q.recPa) q.lastSeq
    (q.st = .accepted → q.nret = q.ncast →
      ∃ t p, exec (.pourCompletion P) s = .next t ∧ KeptBytes s t ∧ t.net = s.net ++ [p] ∧
        p.body = .store [WriteOp.clean (q.recPa + 0x52) 2 2] ∧ (t.pour P).st = .finishing) ∧
    (q.st = .killing → s.killQuiet P = true →
      ∃ t p, exec (.pourCompletion P) s = .next t ∧ KeptBytes s t ∧ t.net = s.net ++ [p] ∧
        p.body = .store [WriteOp.clean (q.recPa + 0x52) 2 3] ∧ (t.pour P).st = .stopped) ∧
    (q.st = .finishing ∨ q.st = .stopped → done = true → q.pins = [] →
      ∃ t, exec (.pourCompletion P) s = .next t ∧ KeptBytes s t ∧ P ∉ (t.hearth gh).slots ∧
        (t.pour P).st = (if q.st = .finishing then .done else .killed) ∧
        ∀ pa, q.caddr = some pa → ∃ p, t.net = s.net ++ [p] ∧ p.body = .store [WriteOp.clean pa 8
          (if q.st = .finishing then q.word 0x18 8 else 2 ^ 64 - 1 - q.word 0x18 8)]))

/-- O47. R62, R183, R196, R206, R238, R255 to R257, R311, R312, R341, R350, R352, R353, R384: waits end when what they wait for
has come: a time, a write, a STATUS, a ticket, a mask, the arrivals of a barrier, a binding; the end test of a loop sends its
lanes round again or on; a hoist that has been ready longest takes the place of the one longest active. The model's own
readings and choices here: log 37, 136. -/
def Obligations.WaitsEnd : Prop :=
  (∀ (s : State) (f : Nat),
    let x := s.frag f
    let some_ (due : Wait → Bool) : Prop := ∃ e ∈ x.entries, ∃ w, e.wait = some w ∧ due w = true
    let ends (t : State) (due : Wait → Bool) (woken : Wait → Bool) : Prop :=
      KeptBytes s t ∧ t.hoists = s.hoists ∧ { t.frag f with entries := x.entries, frozen := x.frozen, hinted := x.hinted } = x ∧
      (t.frag f).entries = x.entries.map fun e =>
        match e.wait with | some w => if due w then { e with wait := none, woken := e.woken || woken w } else e | none => e
    (x.onCore = true → some_ (s.waitOver x) →
      ∃ t, exec (.hoistReady f) s = .next t ∧ ends t (s.waitOver x) Wait.ends) ∧
    (let hit (w : Wait) : Bool := match w with | .waita _ _ b => b | _ => false
     x.onCore = true → some_ hit → ∃ t, exec (.waitaWake f) s = .next t ∧ ends t hit fun _ => true) ∧
    (let due (w : Wait) : Bool := match w with | .pourw r => finalStatus (s.readLE (r + 0x52) 2) | _ => false
     x.onCore = true → some_ due → ∃ t, exec (.pourwWake f) s = .next t ∧ ends t due fun _ => false) ∧
    (let due (w : Wait) : Bool := match w with | .ticket pa n => decide (s.readLE pa 8 = n) | _ => false
     x.onCore = true → some_ due → ∃ t, exec (.amrgTicketReady f) s = .next t ∧ ends t due fun _ => false) ∧
    (∀ d, x.pause = some d → d ≤ s.now →
      ∃ t, exec (.pollBackoffExpiry f) s = .next t ∧ KeptBytes s t ∧ t.frag f = { x with pause := none }) ∧
    (∀ d, x.sleep = some d → d ≤ s.now →
      ∃ t, exec (.sleepExpiry f) s = .next t ∧ KeptBytes s t ∧ t.frag f = { x with sleep := none }) ∧
    (∀ e k, x.onCore = true → x.entries = [e] → e.wait = some (.join k) → s.joinDue x.hoist k e.mask = true →
      ∃ t, exec (.joinComplete f) s = .next t ∧ KeptBytes s t ∧ (t.frag f).entries = [{ e with wait := none }]) ∧
    (∀ e k d j next, x.onCore = true → x.trap = none → x.entries = [e] → x.frozen = [] → e.wait = some (.mbind k d j next) →
      s.castOf x ≠ d → ((s.cast (s.castOf x)).ctx k).idle = true → ((s.cast d).ctx j).idle = true →
      (∀ lp ∈ x.loops, lp.stop ≠ e.pc) →
      ∃ t, exec (.mbindEffect f) s = .next t ∧ KeptBytes s t ∧
        (∀ p pc l, (lanesAt (t.frag f).entries p pc).getLsbD l = (e.mask.getLsbD l && decide (p = e.prio ∧ pc = next))) ∧
        ((t.cast (s.castOf x)).ctx k).leads = some (d, j) ∧ ((t.cast d).ctx j).follows = some (s.castOf x, k)) ∧
    (∀ lp, x.live = true → x.loops = [lp] → x.atEnd ≠ [] → (∀ e ∈ x.entries, lp.holds e.pc = false) →
      ∃ t, exec (.loopEndTest f) s = .next t ∧ KeptBytes s t ∧ (t.frag f).atEnd = [] ∧
        (1 < lp.count.toNat → (t.frag f).loops = [{ lp with count := lp.count - 1 }] ∧
          ∀ p pc l, (lanesAt (t.frag f).entries p pc).getLsbD l =
            ((lanesAt x.entries p pc).getLsbD l ||
              ((entryLanes x.atEnd).getLsbD l && decide (p = lp.prio ∧ pc = lp.start)))) ∧
        (lp.count.toNat ≤ 1 → (t.frag f).loops = [] ∧
          ∀ p pc l, (lanesAt (t.frag f).entries p pc).getLsbD l =
            ((lanesAt x.entries p pc).getLsbD l || (lanesAt x.atEnd p pc).getLsbD l)))) ∧
  (∀ (s : State) (c num : Nat), s.barFull c num = true → (s.cast c).parking = false → (s.cast c).st ≠ .parked →
    let b := (s.cast c).bar num
    ∃ t, exec (.barrierOpen c num) s = .next t ∧ KeptBytes s t ∧ (t.cast c).bar num = .idle ∧
      (∀ q ∈ b.arrived, ∀ f ∈ s.hoistFrags (hoistKey c q.1), s.atAnchor (s.frag f) = true → (s.frag f).lanes &&& q.2 ≠ 0 →
        (t.frag f).drain = some (max ((s.frag f).drain.getD 0) (s.core (s.cast c).anchor).sent)) ∧
      (∀ w f, b.waits = [w] → s.hoistFrags w.hoist = [f] → (s.frag f).lanes &&& w.lanes ≠ 0 →
        (s.atAnchor (s.frag f) = true → { t.frag f with drain := (s.frag f).drain } = (s.frag f).passBar w ∧ t.net = s.net) ∧
        (s.atAnchor (s.frag f) = false → { t.frag f with drain := (s.frag f).drain } = s.frag f ∧
          ∃ q, t.net = s.net ++ [q] ∧ q.tgt = 2048 + (s.frag f).gc ∧
            q.body = .opened w.hoist ((s.frag f).lanes &&& w.lanes) w.pc w.next))) ∧
  (∀ (s : State) (gc part j k : Nat),
    let c := s.core gc
    earliest (fun q => Sparse.get 0 c.readyAt q) (s.pendingReady gc part) = some k →
    earliest (fun q => Sparse.get 0 c.activeAt q) (Sparse.get [] c.active part) = some j →
    let due : Prop := Sparse.get 0 c.readyAt k + 512 ≤ s.now ∧
      (Sparse.get 0 c.swapped part = 0 ∨ Sparse.get 0 c.swapped part + 64 ≤ s.now)
    (due →
      ∃ t, exec (.activeSetExchange gc part) s = .next t ∧ KeptBytes s t ∧
        (∀ q, q ∈ Sparse.get [] (t.core gc).active part ↔ (q ∈ Sparse.get [] c.active part ∧ q ≠ j) ∨ q = k) ∧
        Sparse.get 0 (t.core gc).activeAt k = s.now ∧ Sparse.get 0 (t.core gc).readyAt j = s.now ∧
        Sparse.get 0 (t.core gc).swapped part = s.now) ∧
    (¬ due → exec (.activeSetExchange gc part) s = .next s))

/-- O48. R180, R182, R183, R186, R190, R193, R197, R201 to R203, R206, R207: the head of a context whose turn it is runs on its
array with the operand tiles as they stand then; when it ends, it has its effect on the bank, the scratchpad, the lanes or
memory, and retires; a merge retires when its posts are acknowledged. R130, R131, R133, R193, R207, R266: the value of a bank
element after a multiply-accumulate. Integers: the exact sum, wrapped to 32 bits; floating: window sums of one K-block after
another; poison of any term poisons the element. The model's own readings and choices here: log 66, 69, 70, 72, 73. -/
def Obligations.MatrixInstructionsRun : Prop :=
  (
  (∀ (s : State) (gc c : Nat) (k : Bool) (m : MInst),
    let top := ((s.cast c).ctx k).queue
    s.turnOf gc = some (c, k) → (s.cast c).anchor = gc → top.head? = some m → s.partner (c, k) = none →
    ((s.core gc).asleep = false →
      ∃ t m', exec (.matrixStart gc) s = .next t ∧ KeptBytes s t ∧ (t.core gc).running = some (c, k) ∧
        (t.core gc).arrayEnd = s.now + m.op.clocks ∧ ((t.cast c).ctx k).queue = m' :: top.drop 1 ∧
        m' = { m with running := true, a := m'.a, b := m'.b } ∧ (t.cast c).spad = (s.cast c).spad ∧
        ((t.cast c).ctx k).bank = ((s.cast c).ctx k).bank ∧
        ∀ kind da db w ws p, m.op = .mac kind da db w ws p → tilePv da = false → tilePv db = false →
          (∀ ofs, tileOfs da ≤ ofs → ofs < tileEnd da (layoutA kind w da) →
            Sparse.get 0 m'.a.cells ofs = Sparse.get 0 (s.cast c).spad ofs) ∧
          ∀ ofs, tileOfs db ≤ ofs → ofs < tileEnd db (layoutB kind w db) →
            Sparse.get 0 m'.b.cells ofs = Sparse.get 0 (s.cast c).spad ofs) ∧
    ((s.core gc).asleep = true → s.grantOf (corePkg gc) (.wake gc (c, k)) = none → exec (.matrixStart gc) s = .next s)) ∧
  (∀ (s : State) (gc c : Nat) (k : Bool) (m : MInst) (rest : List MInst),
    let x := (s.cast c).ctx k
    let ends (t : State) : Prop := (t.core gc).running = none ∧ (t.core gc).last = some (c, k) ∧
      ((t.cast c).ctx k).queue = rest ∧ ((t.cast c).ctx k).retired = x.retired + 1
    (s.core gc).running = some (c, k) → x.queue = m :: rest → (s.core gc).arrayEnd ≤ s.now →
    (s.cast c).parking = false → s.castHoists c ≠ [] → (∀ r ∈ rest.head?, r.op ≠ .mfree) →
    (∀ kind da db w ws, m.op = .mac kind da db w ws false → m.mate = none →
      let j : MacJob := { kind, da, db, fmt := w, ws, a := m.a, b := m.b }
      ∃ t, exec (.matrixRetire gc) s = .next t ∧ ends t ∧ KeptBytes s t ∧
        ∀ r n, n < 256 → ((t.cast c).ctx k).elem r n =
          if r < tileRows da ∧ n < tileRows db then j.element r n (x.elem r n) else x.elem r n) ∧
    (∀ kind da db w ws d i, m.op = .mac kind da db w ws true → m.mate = some (true, d, i) → d ≠ c → (s.cast d).anchor ≠ gc →
      (s.cast d).parking = false → s.castHoists d ≠ [] → (∀ r ∈ (((s.cast d).ctx i).queue.drop 1).head?, r.op ≠ .mfree) →
      let j : MacJob := { kind, da, db, fmt := w, ws, a := m.a, b := m.b }
      let y := (s.cast d).ctx i
      ∃ t, exec (.matrixRetire gc) s = .next t ∧ ends t ∧ (t.core (s.cast d).anchor).running = none ∧
        ((t.cast d).ctx i).queue = y.queue.drop 1 ∧
        (∀ r n, n < 256 → ((t.cast c).ctx k).elem r n =
          if r < tileRows da ∧ n < tileRows db then j.element r n (x.elem r n) else x.elem r n) ∧
        ∀ r n, n < 256 → ((t.cast d).ctx i).elem r n =
          if r < tileRows da ∧ 256 + n < tileRows db then j.element r (256 + n) (y.elem r n) else y.elem r n) ∧
    (m.op = .aclr → m.mate = none → ∃ t, exec (.matrixRetire gc) s = .next t ∧ ends t ∧ KeptBytes s t ∧
      ∀ r n, ((t.cast c).ctx k).elem r n = (0, false)) ∧
    (∀ ty d, m.op = .alds ty d → m.mate = none → tileK d ≤ 256 → ∃ t, exec (.matrixRetire gc) s = .next t ∧ ends t ∧ KeptBytes s t ∧
      ∀ r n, n < 256 → ((t.cast c).ctx k).elem r n =
        if r < tileRows d ∧ n < tileK d then
          let o := tileOfs d + tileStride d * r + ty.bits / 8 * n
          (loadElem ty (m.a.read o (ty.bits / 8)), m.a.bad o (ty.bits / 8))
        else x.elem r n) ∧
    (∀ ty d w, m.op = .asts ty d w → m.mate = none → tileK d * (ty.bits / 8) ≤ tileStride d → ty.bits = 8 ∨ ty.bits = 16 ∨ ty.bits = 32 →
      ∃ t, exec (.matrixRetire gc) s = .next t ∧ ends t ∧ KeptBytes s t ∧
        (∀ r n b, r < tileRows d → n < tileK d → b < ty.bits / 8 →
          Sparse.get (0 : Byte) (t.cast c).spad (tileOfs d + tileStride d * r + ty.bits / 8 * n + b) =
            (readback ty w (x.elem r n).1).extractLsb' (8 * b) 8) ∧
        ∀ a, a < tileOfs d ∨ tileEnd d (layoutT ty d) ≤ a →
          Sparse.get (0 : Byte) (t.cast c).spad a = Sparse.get (0 : Byte) (s.cast c).spad a) ∧
    (∀ ty reg pos w lanes own, m.op = .ard ty reg pos w lanes own → m.mate = none → (s.hoist m.hoist).live = true → reg < 256 →
      let row := pos.toNat % 128
      let col := pos.toNat / 256 % 256
      let num := pos.toNat / 65536 % 32 + 1
      ∃ t, exec (.matrixRetire gc) s = .next t ∧ ends t ∧ KeptBytes s t ∧
        (∀ l, l < 32 → (t.hoist m.hoist).elem reg l =
          if lanes.getLsbD l ∧ l < num ∧ col + l ≤ 255 then ext32 ty (readback ty w (x.elem row (col + l)).1)
          else (s.hoist m.hoist).elem reg l) ∧
        ∀ f, f ∈ s.hoistFrags m.hoist → (s.frag f).lanes &&& own ≠ 0 → (t.frag f).vempty.getLsbD reg = false) ∧
    (∀ r w so pages ticket, m.op = .amrg r w so pages ticket →
      ∃ t adds z, exec (.matrixRetire gc) s = .next t ∧ KeptBytes s t ∧ (t.core gc).running = none ∧
        t.net = s.net ++ adds ++ [z] ∧ adds.length = recM r * recN r ∧ z.tgt = paHearth ticket ∧
        z.body = .store [WriteOp.clean ticket 8 (recSeq r + 1)] ∧
        (∀ q ∈ adds, q.tgt = paHearth ticket) ∧
        (∀ a b, a < recM r → b < recN r → ∃ q ∈ adds, q.body = .reduction .add (if fmtInt w then .n32 else .f32)
          [{ pa := mergePa pages (recElem r a b), size := 4, val := (x.elem a b).1.setWidth 64, poison := (x.elem a b).2 }]) ∧
        ((t.cast c).ctx k).queue.length = x.queue.length ∧ ((t.cast c).ctx k).retired = x.retired)) ∧
  (∀ (s : State) (gc c : Nat) (k : Bool) (m n : MInst),
    let x := (s.cast c).ctx k
    (s.core gc).running = some (c, k) → x.queue = [m, n] → (s.core gc).arrayEnd ≤ s.now → (s.cast c).parking = false →
    s.castHoists c ≠ [] → m.op = .aclr → m.mate = none → n.op = .mfree →
    ∃ t, exec (.matrixRetire gc) s = .next t ∧ KeptBytes s t ∧ ((t.cast c).ctx k).queue = [] ∧
      ((t.cast c).ctx k).retired = x.retired + 2 ∧ ((t.cast c).ctx k).leads = none ∧
      ∀ d j, x.leads = some (d, j) → (d, j) ≠ (c, k) → ((t.cast d).ctx j).follows = none) ∧
  (∀ (s : State) (gc c : Nat) (k : Bool) (y : Cast), (s.casts.find? fun q => q.2.anchor = gc && s.mergeAcked gc (q.1, k)) = some (c, y) →
    (s.cast c).parking = false → s.castHoists c ≠ [] → (∀ r ∈ (((s.cast c).ctx k).queue.drop 1).head?, r.op ≠ .mfree) →
    ∃ t, exec (.amrgRetire gc k) s = .next t ∧ KeptBytes s t ∧ ((t.cast c).ctx k).retired = ((s.cast c).ctx k).retired + 1 ∧
      ((t.cast c).ctx k).queue = ((s.cast c).ctx k).queue.drop 1)
  ) ∧
  (
  (∀ (j : MacJob) (m n : Nat) (acc : Word × Bool), fmtInt j.fmt = true → j.kind = .mma →
    let a (k : Nat) := intElem j.a (fmtA j.fmt) (tileRow j.da j.ya m) k
    let b (k : Nat) := intElem j.b (fmtB j.fmt) (tileRow j.db j.yb n) k
    let K := tileK j.da
    ((j.element m n acc).2 = true ↔ acc.2 = true ∨ ∃ k, k < K ∧ ((a k).2 = true ∨ (b k).2 = true)) ∧
    ((j.element m n acc).2 = false →
      (j.element m n acc).1 = BitVec.ofInt 32 (acc.1.toInt + ((List.range K).map fun k => (a k).1 * (b k).1).sum))) ∧
  (∀ (j : MacJob) (m n : Nat) (acc : Word × Bool), fmtInt j.fmt = false → tileK j.da ≤ blockSize j.fmt →
    let ps := j.products m n 0 (tileK j.da)
    j.element m n acc = (BitVec.ofNat 32 (windowSum (Fmt.val .fp32 acc.1.toNat :: ps.map Prod.fst)), acc.2 || ps.any Prod.snd)) ∧
  (∀ (c : Cmd) (x : Snap) (n : Nat), fmtInt c.fmt = true →
    let a (k : Nat) := intElem (c.rowBytes (c.wPas n)) (fmtA c.fmt) 0 k
    let b (k : Nat) := intElem x (fmtB c.fmt) 0 k
    ((c.bankResult x n).2 = true ↔ ∃ k, k < c.kk ∧ ((a k).2 = true ∨ (b k).2 = true)) ∧
    ((c.bankResult x n).2 = false →
      (c.bankResult x n).1 = BitVec.ofInt 32 ((List.range c.kk).map fun k => (a k).1 * (b k).1).sum))
  )

/-- O49. R66, R222, R260, R261, R263, R264, R266, R271, R279, R286 to R288, R388: an engine takes the next element of its queue;
a copy writes the segment that it has read; a DRAM row is read at once; a command that ends posts its completion and releases
its pins; the feed element joins its queue; a collective whose participants disagree fails on every package, and a
participant of a failed one ends with status 5 when its source has been read; a barrier ends when all have issued it. The
model's own readings and choices here: log 75, 76, 78, 79, 80, 82, 113, 133. -/
def Obligations.EnginesRun : Prop :=
  (∀ (s : State) (c q : Nat) (e : Engine),
    let x := s.cast c
    let ofs := (x.element (x.queue q) (x.queue q).head).bits.toNat % 2 ^ 23
    let k := s.nextCmd
    let s2 : State := { s.modCast c fun y => y.pop q 1 with nextCmd := k + 1 }
    let c0 := Cmd.new e x.anchor c (s.pour x.pour).ctx (BitVec.ofNat 512 (x.sread ofs 64))
    engineOf (x.queue q).kind = some e → (x.queue q).count ≠ 0 → x.granules ≠ 0 → x.parking = false →
    s.inFlight x.anchor e < (match e with | .copy => 512 | .bank => 32 | .coll => 16) →
    (ofs % 64 ≠ 0 → ∃ t, exec (.engineCommandTake c q) s = .next t ∧ KeptBytes s t ∧ t.cast c = x.pop q 1 ∧
      (t.cmd k).stage = .finishing ∧ (t.cmd k).status = 3) ∧
    (ofs % 64 = 0 → s.spadBytes c < ofs + 64 → ∃ t, exec (.engineCommandTake c q) s = .next t ∧ KeptBytes s t ∧
      t.cast c = x.pop q 1 ∧ (t.cmd k).stage = .finishing ∧ (t.cmd k).status = 2) ∧
    (ofs % 64 = 0 → ofs + 64 ≤ s.spadBytes c →
      (∀ b, s2.checkCmd c0 = .error b → ∃ t, exec (.engineCommandTake c q) s = .next t ∧ KeptBytes s t ∧ t.cast c = x.pop q 1 ∧
        (t.cmd k).stage = .finishing ∧ (t.cmd k).status =
          (match b with | .queue => 5 | .align _ => 3 | .scratch _ => 2 | .access _ => 1 | .partition _ => 4)) ∧
      (∀ d, e = .copy → s2.checkCmd c0 = .ok d → d.eng = .copy → d.unpinned = [] → d.pins = [] →
        ∃ t, exec (.engineCommandTake c q) s = .next t ∧ KeptBytes s t ∧ t.cast c = x.pop q 1 ∧
          t.cmd k = { d with stage := .active }))) ∧
  (∀ (s : State) (k : Nat),
    let c := s.cmd k
    (c.eng = .copy → c.stage = .active → c.asked = false →
      (c.buf = none → s.ctxSaved (corePkg c.gc) c.ctx = true → exec (.copySegment k) s = .next s) ∧
      (c.buf = none → s.ctxSaved (corePkg c.gc) c.ctx = false → c.rowCount ≤ c.row →
        ∃ t, exec (.copySegment k) s = .next t ∧ KeptBytes s t ∧ (t.cmd k).stage = .finishing ∧ (t.cmd k).status = 0) ∧
      (∀ bs, c.buf = some bs → bs.length = c.segment.2.2 → (s.cast c.cast).parking = false →
        ∃ t, exec (.copySegment k) s = .next t ∧ KeptBytes s t ∧ (t.cmd k).buf = none ∧
          (t.cmd k).row = (if c.pos + bs.length < c.len then c.row else c.row + 1) ∧
          (t.cmd k).pos = (if c.pos + bs.length < c.len then c.pos + bs.length else 0) ∧
          (c.dsp = false → ∃ p, t.net = s.net ++ [p] ∧ p.body = .store (payload (c.pa (wrapTo c.segment.1 64)) bs) ∧
            (t.cmd k).posted = c.posted ++ [(p.tgt, p.seq)] ∧ t.casts = s.casts) ∧
          (c.dsp = true → t.net = s.net ∧ ∀ j b, bs[j]? = some b →
            Sparse.get (0 : Byte) (t.cast c.cast).spad (c.segment.1.toNat + j) = b.1))) ∧
    (c.eng = .bank → c.stage = .active → c.asked = false → s.ctxSaved (corePkg c.gc) c.ctx = false →
      ∀ row, row ∈ c.bankRows → (∀ r ∈ c.rows, r.1 ≠ row) →
      let bs := (List.range 1024).map fun j => (s.byte (paOf c.bankHome (dramOfs row j)), s.mark (paOf c.bankHome (dramOfs row j) / 4))
      ∃ t, exec (.bankRowStep k row) s = .next t ∧ KeptBytes s t ∧ (t.cmd k).rows = c.rows ++ [(row, bs)] ∧
        ((∀ r ∈ c.bankRows, r = row ∨ ∃ q ∈ c.rows, q.1 = r) →
          ∃ p, t.net = s.net ++ [p] ∧ p.tgt = 2048 + c.gc ∧
            p.body = .readData k false ({ c with rows := c.rows ++ [(row, bs)] } : Cmd).bankData) ∧
        ((∃ r ∈ c.bankRows, r ≠ row ∧ ∀ q ∈ c.rows, q.1 ≠ r) → t.net = s.net)) ∧
    (c.eng = .bank → c.stage = .results → s.ctxSaved (corePkg c.gc) c.ctx = false → c.ssp = false → ∀ pa,
      s.cmdTranslate c (c.yaddr + 4 * c.pos) .wr = .ok pa →
      let n := min (c.nn - c.pos) ((256 - (c.yaddr + 4 * c.pos) % 256) / 4)
      ∃ t p, exec (.bankResultWrite k) s = .next t ∧ KeptBytes s t ∧ t.net = s.net ++ [p] ∧
        p.body = .store (payload pa (c.resultBytes c.pos n)) ∧ (t.cmd k).pos = c.pos + n ∧
        ((t.cmd k).stage = .finishing ↔ c.nn ≤ c.pos + n)) ∧
    (c.stage = .finishing → s.payloadSettled c = true → (c.eng = .coll ∨ s.ctxSaved (corePkg c.gc) c.ctx = false) →
      ∃ t, exec (.engineCompletion k) s = .next t ∧ (∀ at_ ∈ c.pins, ∃ p ∈ t.net, p.body = .pinDown at_) ∧
        (c.status = 0 → KeptBytes s t) ∧
        (if c.feed then (t.cmd k).stage = .feeding else t.cmd k = .none) ∧
        ∀ pa, c.caddr = some pa → ∃ p, t.net.getLast? = some p ∧ p.body = .engineWrite k pa
          (if c.status = 0 then BitVec.ofNat 64 c.cval
           else if c.cadd then 0x8000000000000000 else ~~~(BitVec.ofNat 64 c.cval)) c.cadd) ∧
    (c.stage = .feeding → s.payloadSettled c = false → exec (.feedPush k) s = .next s) ∧
    (c.stage = .feeding → s.payloadSettled c = true → (s.cast c.cast).parking = false → s.castHoists c.cast ≠ [] → (s.cast c.cast).granules ≠ 0 →
      let q := (s.cast c.cast).queue c.feedq
      let code := match c.eng with | .copy => 1 | .bank => 2 | .coll => 3
      (q.kind = 5 → q.esize = 8 → q.count < q.cap →
        ∃ t, exec (.feedPush k) s = .next t ∧ KeptBytes s t ∧ t.cmd k = .none ∧
          t.cast c.cast = (s.cast c.cast).push c.feedq
            [{ bits := BitVec.ofNat 64 (code * 2 ^ 60 + c.status * 2 ^ 56 + c.cval % 2 ^ 32), poison := false }]) ∧
      (q.kind = 5 → q.esize = 8 → q.cap ≤ q.count → exec (.feedPush k) s = .next s) ∧
      (q.kind ≠ 5 → ∃ t, exec (.feedPush k) s = .next t ∧ t.cmd k = .none ∧
        Sparse.get 0 (t.hearth (coreHearth c.gc)).counters 4 = Sparse.get 0 (s.hearth (coreHearth c.gc)).counters 4 + 1)) ∧
    (c.eng = .coll → c.asked = false → s.collBehind c = false →
      (c.stage = .active → s.disagree c = true → ∃ t, exec (.collectiveCompletion k) s = .next t ∧ KeptBytes s t ∧
        ∀ p, (s.pkg p).present = true → c.inst ∈ ((t.pkg p).window c.win).failed) ∧
      (c.stage = .active → s.broken c = true ∨ (s.disagree c = true ∧ (s.pkg (corePkg c.gc)).present = true) →
        c.sourceDone (s.collWindow c) = true → ∃ t, exec (.collectiveCompletion k) s = .next t ∧ KeptBytes s t ∧
          (t.cmd k).stage = .finishing ∧ (t.cmd k).status = 5) ∧
      (c.stage = .active → s.disagree c = false → s.broken c = false → c.op = 4 →
        (s.allIssued c = true → ∃ t, exec (.collectiveCompletion k) s = .next t ∧ KeptBytes s t ∧
          (t.cmd k).stage = .finishing ∧ (t.cmd k).status = 0) ∧
        (s.allIssued c = false → exec (.collectiveCompletion k) s = .next s)) ∧
      (c.stage = .results → (c.op ≤ 1 → c.dstBytes (s.collWindow c) ≤ c.row) →
        (2 ≤ c.op → c.sendBytes (s.collWindow c) ≤ c.row ∧ ∀ q ∈ s.instance_ c, s.scattered q.2 = true) → ∃ t, exec (.collectiveCompletion k) s = .next t ∧ KeptBytes s t ∧
        (t.cmd k).stage = .finishing ∧ (t.cmd k).status = c.status)) ∧
    (∀ at_ leaf l, c.stage = .pinning → c.unpinned = (at_, leaf) :: l →
      ((s.pin at_ leaf).1 = .busy → ∃ t, exec (.pinRetry k) s = .next t ∧ KeptBytes s t ∧ t.cmd k = c) ∧
      ((s.pin at_ leaf).1 = .failed → ∃ t, exec (.pinRetry k) s = .next t ∧ KeptBytes s t ∧
        (t.cmd k).stage = .finishing ∧ (t.cmd k).status = 1 ∧ (t.cmd k).pins = c.pins) ∧
      (∀ s1, s.pin at_ leaf = (.pinned, s1) →
        (l ≠ [] → ∃ t, exec (.pinRetry k) s = .next t ∧ KeptBytes s1 t ∧
          t.cmd k = { c with unpinned := l, pins := c.pins ++ [at_] }) ∧
        (l = [] → c.eng = .bank → ∃ t p, exec (.pinRetry k) s = .next t ∧ KeptBytes s1 t ∧ t.net = s.net ++ [p] ∧
          p.body = .engineCmd k ∧ (t.cmd k).stage = .sent ∧ (t.cmd k).pins = c.pins ++ [at_]))))

/-- O50. R360 to R368, R371, R373: the end of a window forms the estimate, sets the floor of the next from FALLLIM, lets the
budget grow by RISELIM up to what it may hold, and counts; ballast that covers a charge admits the oldest request out of no
budget, and a pinned pour waits for nothing. The model's own readings and choices here: log 37, 90, 91, 92, 117. -/
def Obligations.BellowsAdmits : Prop :=
  (∀ (s : State) (pkg : Nat), s.windowOver pkg = false → exec (.bellowsWindowEnd pkg) s = .next s) ∧
  (∀ (s : State) (pkg : Nat), s.windowOver pkg = true → s.asks pkg = [] → (∀ gc ∈ s.pkgCores pkg, s.turnOf gc = none) →
    let b := (s.pkg pkg).bellows
    let p := s.programPower pkg
    let bal := meanPower b.balNow (s.now - b.opened)
    let rise := min b.nextRise b.riseCap
    let fall := min b.nextFall b.fallCap
    ∃ t, exec (.bellowsWindowEnd pkg) s = .next t ∧ KeptBytes s t ∧
      let c := (t.pkg pkg).bellows
      c.estW = p + bal ∧ c.prevE = p + bal ∧ c.balW = bal ∧ c.riseLim = rise ∧ c.fallLim = fall ∧
      c.floor = p + bal - 1000 * fall ∧ c.budget = min (b.budget + 1000 * rise) (1000 * rise) ∧ c.windows = b.windows + 1 ∧
      c.balWin = (if b.balNow = 0 then b.balWin else b.balWin + 1) ∧ c.fallOvr = (if b.shortfall then b.fallOvr + 1 else b.fallOvr) ∧
      c.admitted = 0 ∧ c.soon = 0 ∧ c.balNow = 0 ∧ c.opened = s.now ∧
      (p + bal ≤ b.prevE + 1000 * rise → c.rampFlts = b.rampFlts) ∧
      (∀ P k w o, b.prevE + 1000 * rise < p + bal → b.unmet = [(P, k, w, o)] → b.windows ≤ w + 1 → (s.pour P).staged = false →
        (s.pour P).st = .accepted → c.rampFlts = b.rampFlts + 1 ∧ (t.pour P).staged = true) ∧
      ∀ gc ∈ s.pkgCores pkg, (s.core gc).arrayUsed = false → (s.core gc).running = none → (s.core gc).given = none →
        (t.core gc).asleep = true) ∧
  (∀ (s : State) (pkg gc : Nat) (q : Nat × Bool),
    let a := Ask.wake gc q
    let w := (s.pkg pkg).bellows.wakeW
    (s.firstAsk (s.asks pkg) = some a → 1000 * w ≤ s.ballastNow pkg →
      ∃ t, exec (.ballastAdmit pkg) s = .next t ∧ KeptBytes s t ∧ (t.core gc).asleep = false ∧
        (t.pkg pkg).bellows.budget = (s.pkg pkg).bellows.budget ∧
        (t.pkg pkg).bellows.soon = (s.pkg pkg).bellows.soon + 1000 * w ∧
        (t.pkg pkg).bellows.wakes = (s.pkg pkg).bellows.wakes + 1) ∧
    (s.firstAsk (s.asks pkg) = some a → s.ballastNow pkg < 1000 * w → exec (.ballastAdmit pkg) s = .next s) ∧
    ((s.firstAsk ((s.asks pkg).filter fun r => (s.pour (s.askPour r)).unmetered)) = some a →
      ∃ t, exec (.pinnedAdmit pkg) s = .next t ∧ KeptBytes s t ∧ (t.core gc).asleep = false ∧
        (t.pkg pkg).bellows.budget = (s.pkg pkg).bellows.budget - 1000 * w ∧
        (t.pkg pkg).bellows.pinAdm = (s.pkg pkg).bellows.pinAdm + 1 ∧
        (t.pkg pkg).bellows.wakes = (s.pkg pkg).bellows.wakes + 1))

/-- O51. R320, R329, R330, R402, R403, R405, R413, R422: the runner takes requests one at a time; a save stops its contexts, and
is done when nothing of them moves and two sweeps agree; a resume lets them start again; the completion is posted behind
each. The model's own readings and choices here: log 93, 94. -/
def Obligations.PreemptionSavesAndResumes : Prop :=
  (∀ (s : State) (pkg : Nat) (r : PreReq) (rest : List PreReq),
    let p := s.pkg pkg
    p.preempt = r :: rest → p.completing = none →
    (r.resume = false → p.saving = false → ctxSet r.ctxs &&& ~~~p.savedCtxs ≠ 0 →
      ∃ t, exec (.preemptSave pkg) s = .next t ∧ (t.pkg pkg).saving = true ∧
        (t.pkg pkg).savedCtxs = p.savedCtxs ||| ctxSet r.ctxs ∧ (t.pkg pkg).preempt = p.preempt ∧
        ∀ c ∈ s.ctxCasts pkg (ctxSet r.ctxs &&& ~~~p.savedCtxs), s.castExited c = false →
          ((s.cast c).st = .running ∨ (s.cast c).st = .raised) → (t.cast c).parking = true ∨ (t.cast c).st = .parked) ∧
    (r.resume = false → p.saving = false → ctxSet r.ctxs &&& ~~~p.savedCtxs = 0 →
      ∃ t, exec (.preemptSave pkg) s = .next t ∧ KeptBytes s t ∧ (t.pkg pkg).completing = some r ∧ (t.pkg pkg).preempt = rest) ∧
    (r.resume = false → p.saving = true → s.saveDone pkg r.ctxs = true →
      ∃ t, exec (.preemptSave pkg) s = .next t ∧ (t.pkg pkg).completing = some r ∧ (t.pkg pkg).preempt = rest ∧
        (t.pkg pkg).saving = false ∧ (t.pkg pkg).savedCtxs = p.savedCtxs ∧
        ((∀ q ∈ s.pours, q.2.deps = false) → KeptOutside s t)) ∧
    (r.resume = false → p.saving = true → s.saveDone pkg r.ctxs = false → exec (.preemptSave pkg) s = .next s) ∧
    (r.resume = true → p.saving = false → p.st = .ready →
      ∃ t, exec (.preemptResume pkg) s = .next t ∧ (t.pkg pkg).completing = some r ∧ (t.pkg pkg).preempt = rest ∧
        (∀ c ∈ r.ctxs, (t.pkg pkg).savedCtxs.getLsbD c.toNat = false) ∧
        (∀ k, (∀ c ∈ r.ctxs, c.toNat ≠ k) → (t.pkg pkg).savedCtxs.getLsbD k = p.savedCtxs.getLsbD k) ∧
        ∀ c ∈ s.releasable pkg (ctxSet r.ctxs &&& p.savedCtxs), (t.cast c).saved = false)) ∧
  (∀ (s : State) (pkg : Nat) (r : PreReq),
    let p := s.pkg pkg
    p.completing = some r → (r.resume = true ∨ p.dumpCause = 0) →
    ∃ t, exec (.preemptCompletion pkg) s = .next t ∧ KeptBytes s t ∧ (t.pkg pkg).completing = none ∧
      (r.done = none → t.net = s.net) ∧
      ∀ pa, r.done = some pa → ∃ q, t.net = s.net ++ [q] ∧ q.ctx = r.owner ∧
        q.body = .store [WriteOp.clean pa 8 (if r.resume then 2 else 1)]) ∧
  (∀ (s : State) (pkg : Nat) (r : PreReq),
    let p := s.pkg pkg
    p.completing = some r → r.resume = false → r.done = none → p.dumpCause ≠ 0 → p.st = .fatal →
    (∀ c ∈ p.allCtxs, p.savedCtxs.getLsbD c.toNat = true) →
    ∃ t, exec (.preemptCompletion pkg) s = .next t ∧ (t.pkg pkg).st = .dumpReady ∧
      (t.pkg pkg).dumpLen.toNat = (s.dumpBytes pkg).length % 2 ^ 64 ∧
      ∀ k b, (s.dumpBytes pkg)[k]? = some b → t.byte (dumpBase (16 * pkg) + k) = b.1) ∧
  (∀ (s : State) (pkg : Nat) (word : DWord), (s.pkg pkg).present = true →
    ∃ t r, exec (.fwpreq pkg word) s = .next t ∧ KeptBytes s t ∧ (t.pkg pkg).fwpreq = word ∧
      (t.pkg pkg).preempt = (s.pkg pkg).preempt ++ [r] ∧ r.resume = word.getLsbD 8 ∧
      (word.getLsbD 9 = false → r.ctxs = [word.setWidth 8]))

/-- O52. R273, R416, R417, R419, R420 to R422, R424: errors are counted, recorded and, where a value is lost, marked; a
package-fatal one stops the package and saves its contexts; the scrub visits the blocks in turn, and a corrected error is
recorded once in a millisecond; a packet with a header out of range is dropped and counted; the host link trains again. The
model's own readings and choices here: log 86, 96, 97, 98. -/
def Obligations.ErrorsAreRecorded : Prop :=
  (∀ (s : State) (gh : Nat) (fast : Bool), s.hearthOn gh = true → (s.pkg (gh / 16)).st = .ready →
    (∃ t, exec (.scrub gh none fast) s = .next t ∧ KeptBytes s t ∧
      (t.hearth gh).scrubbed = ((s.hearth gh).scrubbed + 1) % 0x60000000) ∧
    (let pa := paOf gh (32 * (s.hearth gh).scrubbed)
     paHost pa = false → paHearth pa = gh → s.noHome (gh / 16) pa = false → paOfs pa < 0xBF0000000 →
     (∃ t, exec (.scrub gh (some true) fast) s = .next t ∧
       (∀ k, k < 8 → t.mark (pa / 32 * 32 / 4 + k) = true) ∧ (∀ a, a / 32 = pa / 32 → t.byte a = s.byte a) ∧
       Sparse.get 0 (t.hearth gh).counters 1 = Sparse.get 0 (s.hearth gh).counters 1 + 1 ∧
       (t.hearth gh).errCount = (s.hearth gh).errCount + 1) ∧
     ∃ t, exec (.scrub gh (some false) fast) s = .next t ∧ (∀ a, a / 32 = pa / 32 → t.byte a = s.byte a) ∧
       Sparse.get 0 (t.hearth gh).counters 0 = Sparse.get 0 (s.hearth gh).counters 0 + 1 ∧
       ((∀ n, (s.hearth gh).noted = some n → n + 1100220 ≤ s.now) →
         (t.hearth gh).errCount = (s.hearth gh).errCount + 1 ∧ (t.hearth gh).noted = some s.now) ∧
       (∀ n, (s.hearth gh).noted = some n → s.now < n + 1099780 → KeptBytes s t ∧ (t.hearth gh).errCount = (s.hearth gh).errCount))) ∧
  (∀ (s : State) (pkg bundle : Nat), (s.pkg pkg).present = true → bundle < 24 →
    ∃ t, exec (.linkRetrain pkg bundle) s = .next t ∧ KeptBytes s t ∧
      Sparse.get 0 (t.pkg pkg).linkCtrs (4 * bundle + 3) = Sparse.get 0 (s.pkg pkg).linkCtrs (4 * bundle + 3) + 1) ∧
  (∀ (s : State) (pkg : Nat) (corrected : Bool), (s.pkg pkg).present = true →
    let k := if corrected then 2 else 3
    ∃ t, exec (.pcieError pkg corrected) s = .next t ∧
      Sparse.get 0 (t.pkg pkg).hostCtrs k = Sparse.get 0 (s.pkg pkg).hostCtrs k + 1 ∧
      (t.hearth (16 * pkg)).errCount = (s.hearth (16 * pkg)).errCount + 1) ∧
  (∀ (s : State) (pkg : Nat),
    let fatal (t : State) (cls : Byte) : Prop := (t.pkg pkg).st = .fatal ∧ (t.pkg pkg).dumpScope = 1 ∧
      ((s.pkg pkg).dumpCause = 0 → (t.pkg pkg).dumpCause = cls) ∧
      (t.hearth (16 * pkg)).errCount = (s.hearth (16 * pkg)).errCount + 1 ∧
      ∃ r ∈ (t.pkg pkg).preempt, r.resume = false ∧ r.ctxs = (s.pkg pkg).allCtxs
    (s.pkg pkg).st = .ready →
    (∃ t, exec (.thermal pkg) s = .next t ∧ fatal t 13) ∧
    (∃ t, exec (.controlCheck pkg) s = .next t ∧ fatal t 12) ∧
    ((s.pkg pkg).hostLink = true → ∃ t, exec (.hostLinkLoss pkg) s = .next t ∧ fatal t 11 ∧ (t.pkg pkg).hostLink = false)) ∧
  (∀ (s : State) (pkg : Nat) (ts : List Turn), s.agenda = .linkUp pkg :: ts → (s.pkg pkg).present = true →
    ∃ t, step s = .next t ∧ KeptBytes s t ∧ (t.pkg pkg).hostLink = true) ∧
  (∀ (s : State) (n sw : Nat) (p : Packet) (ts : List Turn), s.agenda = .badHeader n sw :: ts → s.net[n]? = some p → p.lost = false →
    (s.pkg (sw / 16)).present = true → s.passesPlace p false sw = true →
    ∃ t, step s = .next t ∧ t.net = s.net.set n { p with lost := true } ∧
      Sparse.get 0 ((t.pkg (sw / 16)).switch (sw % 16)).counters 0 =
        Sparse.get 0 ((s.pkg (sw / 16)).switch (sw % 16)).counters 0 + 1)

/-- O53. R425 to R427, R429 to R431: power comes in the order of R430; a host register takes the bytes written to it; a doorbell
runs an image once the boot ROM has verified it, applies a whole configuration or none of it once the contexts that lose a
hearth have been swept twice, copies the dump, writes a report, or resets, and reports its result. The model's own readings
and choices here: log 99, 100, 101, 102. -/
def Obligations.HostBringsThePackageUp : Prop :=
  (∀ (s : State) (pkg : Nat),
    let p := s.pkg pkg
    (p.present = true → exec (.auxRailOn pkg) s = .next (s.setPkg pkg { p with aux := true })) ∧
    (p.aux = true → exec (.powerRailsOn pkg) s = .next (s.setPkg pkg { p with rails := true })) ∧
    (p.aux = false → exec (.powerRailsOn pkg) s = .next s) ∧
    (p.rails = true → p.perst = false → exec (.perstRelease pkg) s = .next (s.setPkg pkg { p with
      perst := true, st := .waitImg, started := s.now, bellows := { p.bellows with opened := s.now } })) ∧
    (p.rails = false → exec (.perstRelease pkg) s = .next s)) ∧
  (∀ (s : State) (pkg : Nat),
    let p := s.pkg pkg
    let ends (t : State) (r : Byte) : Prop := (t.pkg pkg).dbResult = r ∧ (t.pkg pkg).dbBusy = false
    p.present = true → p.perst = true → p.hostLink = true → p.dbBusy = false →
    (p.st ≠ .verify →
      (p.st ≠ .waitImg → p.st ≠ .rejected →
        exec (.doorbellLoadImage pkg) s = .next (s.setPkg pkg { p with dbResult := 0, dbBusy := false })) ∧
      ((p.st = .waitImg ∨ p.st = .rejected) → p.imgAddr.toNat + p.imgLen.toNat ≤ 2 ^ 49 →
        exec (.doorbellLoadImage pkg) s = .next (s.setPkg pkg { p with st := .verify, dbBusy := true }))) ∧
    (p.st ≠ .ready → exec (.doorbellApplyConfiguration pkg) s = .next (s.setPkg pkg { p with dbResult := 3, dbBusy := false })) ∧
    (p.st = .ready → p.cfgAddr.toNat + 1340 ≤ 2 ^ 49 → s.sweptFor pkg (CfgBlock.of (s.hostRead p.cfgAddr.toNat 1340)) ≠ [] →
      ∃ t, exec (.doorbellApplyConfiguration pkg) s = .next t ∧ KeptBytes s t ∧ (t.pkg pkg).dbBusy = true ∧
        (t.pkg pkg).parts = p.parts ∧ (t.pkg pkg).ctxs = p.ctxs) ∧
    (∃ t, exec (.doorbellCopyDump pkg) s = .next t ∧
      (p.st = .fatal → t = s.setPkg pkg { p with dbBusy := true }) ∧
      (p.st ≠ .fatal → p.dumpLen = 0 → t = s.setPkg pkg { p with dbResult := 4, dbBusy := false }) ∧
      (p.st ≠ .fatal → p.dumpLen ≠ 0 → p.dumpAddr.toNat + p.dumpLen.toNat ≤ 2 ^ 49 → ends t 0 ∧
        ∀ k, k < p.dumpLen.toNat → t.byte (2 ^ 49 + p.dumpAddr.toNat + k) = s.byte (dumpBase (16 * pkg) + k))) ∧
    (p.leaf = false ∨ (1024 ≤ p.attests ∧ 32768 ≤ p.otpCtr) →
      exec (.doorbellAttest pkg) s = .next (s.setPkg pkg { p with dbResult := 6, dbBusy := false })) ∧
    (p.leaf = true →
      let q : Pkg := if p.attests < 1024 then p else { p with otpCtr := p.otpCtr + 1, attests := 0 }
      let report := q.report pkg (s.hostRead p.bufAddr.toNat 32)
      p.attests < 1024 ∨ p.otpCtr < 32768 → p.bufAddr.toNat + report.length ≤ 2 ^ 49 →
      ∃ t, exec (.doorbellAttest pkg) s = .next t ∧ ends t 0 ∧ (t.pkg pkg).attests = q.attests + 1 ∧
        (t.pkg pkg).otpCtr = q.otpCtr ∧
        (∀ k, k < 32 → t.byte (2 ^ 49 + p.bufAddr.toNat + k) = s.byte (2 ^ 49 + p.bufAddr.toNat + k)) ∧
        ∀ k b, report[k]? = some b → t.byte (2 ^ 49 + p.bufAddr.toNat + k) = b) ∧
    (∃ t, exec (.doorbellWarmReset pkg) s = .next t ∧ KeptBytes s t ∧ (t.pkg pkg).st = .waitImg ∧ (t.pkg pkg).warm = true ∧
      (t.pkg pkg).launches = p.launches ∧ (t.pkg pkg).savedCtxs = p.savedCtxs ∧ (t.pkg pkg).started = s.now ∧
      (t.pkg pkg).bellows = { Bellows.reset with opened := s.now } ∧ ∀ gc, gc / 128 = pkg → t.core gc = .reset) ∧
    (∃ t, exec (.doorbellColdReset pkg) s = .next t ∧ (t.pkg pkg).st = .waitImg ∧ (t.pkg pkg).launches = 0 ∧
      (t.pkg pkg).savedCtxs = 0 ∧ (∀ gc, gc / 128 = pkg → t.core gc = .reset) ∧
      ∀ a, paHost a = false → paHearth a / 16 = pkg → t.byte a = 0)) ∧
  (∀ (s : State) (pkg : Nat),
    let p := s.pkg pkg
    let image := s.hostRead p.imgAddr.toNat p.imgLen.toNat
    let base := paOf (16 * pkg) 0xBFC000000
    let put := image.take (0xBFFFF0000 - 0xBFC000000)
    pkg < 64 → p.st = .verify →
    (Config.imageVerdict image = 0 →
      ∃ t, exec (.doorbellLoadImage pkg) s = .next t ∧ (t.pkg pkg).dbResult = 0 ∧ (t.pkg pkg).dbBusy = false ∧
        (t.pkg pkg).st = .ready ∧ (t.pkg pkg).fwver = Config.imageVersion image ∧ (t.pkg pkg).fwHash = Config.sha256 image ∧
        (t.pkg pkg).attests = 0 ∧ (p.otpCtr < 32768 → (t.pkg pkg).leaf = true ∧ (t.pkg pkg).otpCtr = p.otpCtr + 1) ∧
        (32768 ≤ p.otpCtr → (t.pkg pkg).leaf = false) ∧
        (∀ k b, put[k]? = some b → t.byte (base + k) = b) ∧
        (∀ a, paHost a = false → paHearth a / 16 = pkg → p.warm = false ∨ 0xBFC000000 ≤ paOfs a →
          a < base ∨ base + put.length ≤ a → t.byte a = 0) ∧
        ∀ a, paHost a = true ∨ paHearth a / 16 ≠ pkg ∨ (p.warm = true ∧ paOfs a < 0xBFC000000) → t.byte a = s.byte a) ∧
    (Config.imageVerdict image ≠ 0 →
      ∃ t, exec (.doorbellLoadImage pkg) s = .next t ∧ KeptBytes s t ∧ (t.pkg pkg).st = .rejected ∧ (t.pkg pkg).dbBusy = false ∧
        (t.pkg pkg).dbResult = if Config.imageVerdict image = 1 then 1 else 2)) ∧
  (∀ (s : State) (pkg : Nat),
    let p := s.pkg pkg
    let bytes := s.hostRead p.cfgAddr.toNat 1340
    let c := CfgBlock.of bytes
    p.present = true → p.perst = true → p.hostLink = true → p.st = .ready → p.cfgAddr.toNat + 1340 ≤ 2 ^ 49 →
    (p.dbBusy = true → (∃ x ∈ s.sweptFor pkg c, (Sparse.get .none p.sweeps (x.toNat % 256 + 256)).same < 2) →
      exec (.doorbellApplyConfiguration pkg) s = .next s) ∧
    ((p.dbBusy = false ∧ s.sweptFor pkg c = []) ∨
        (p.dbBusy = true ∧ ∀ x ∈ s.sweptFor pkg c, 2 ≤ (Sparse.get .none p.sweeps (x.toNat % 256 + 256)).same) →
      (s.cfgOk pkg c = true →
        ∃ t, exec (.doorbellApplyConfiguration pkg) s = .next t ∧ KeptBytes s t ∧ (t.pkg pkg).dbResult = 0 ∧
          (t.pkg pkg).dbBusy = false ∧ (∀ gh, gh < 1024 → (t.pkg pkg).hearthPart gh = (c.parts.getD gh 0xFF).toNat) ∧
          (∀ k, k < 256 → (t.pkg pkg).part k = (c.ctxParts.getD k 0xFF).toNat) ∧
          (t.pkg pkg).managing = BitVec.ofNat 256 c.managing ∧ (t.pkg pkg).wflush = c.wflush ∧
          (t.pkg pkg).bellows.riseCap = c.riseCap ∧ (t.pkg pkg).bellows.fallCap = c.fallCap ∧
          (t.pkg pkg).cfgHash = Config.sha256 bytes) ∧
      (s.cfgOk pkg c = false →
        exec (.doorbellApplyConfiguration pkg) s = .next (s.setPkg pkg { p with dbResult := 3, dbBusy := false })))) ∧
  (∀ (s : State) (pkg : Nat) (v : DWord),
    let p := s.pkg pkg
    p.present = true → p.perst = true → p.hostLink = true →
    exec (.hostRegisterWrite pkg 0x10 v 8) s = .next (s.setPkg pkg { p with imgAddr := v }) ∧
    exec (.hostRegisterWrite pkg 0x18 v 8) s = .next (s.setPkg pkg { p with imgLen := v }) ∧
    exec (.hostRegisterWrite pkg 0x20 v 8) s = .next (s.setPkg pkg { p with cfgAddr := v }) ∧
    exec (.hostRegisterWrite pkg 0x38 v 8) s = .next (s.setPkg pkg { p with dumpAddr := v }) ∧
    exec (.hostRegisterWrite pkg 0x48 v 8) s = .next (s.setPkg pkg { p with bufAddr := v }) ∧
    (p.dbBusy = true → exec (.hostRegisterWrite pkg 0x28 v 4) s = .next (s.hostError pkg)) ∧
    (p.dbBusy = false → p.st ≠ .verify →
      exec (.hostRegisterWrite pkg 0x28 1 4) s = exec (.doorbellLoadImage pkg) s ∧
      exec (.hostRegisterWrite pkg 0x28 2 4) s = exec (.doorbellApplyConfiguration pkg) s) ∧
    exec (.hostRegisterWrite pkg 0x28 4 4) s = exec (.doorbellAttest pkg) s ∧
    exec (.hostRegisterWrite pkg 0x28 5 4) s = exec (.doorbellWarmReset pkg) s ∧
    exec (.hostRegisterWrite pkg 0x28 6 4) s = exec (.doorbellColdReset pkg) s)

/-- O54. R76 to R97: every well-formed instruction has a word, and the bytes of that word, whatever bytes follow it in its fetch
block, decode to that instruction, with every operand and every modifier as it was. -/
def Obligations.EncodeThenDecode : Prop :=
  ∀ i : Instr, WellFormed i →
    ∃ bs, encode i = some bs ∧ (∀ h o, i.head = some (h, o) → bs.length = h.form.bytes) ∧ ∀ rest, decode (bs ++ rest) = .ok i

/-- O55. R78, R97: what decodes is well formed, and its own word is what stands there, so that no bit of a word is dropped and no
two instructions share a word. -/
def Obligations.DecodeThenEncode : Prop :=
  ∀ (bs : List Byte) (i : Instr), decode bs = .ok i → WellFormed i ∧ ∃ es, encode i = some es ∧ es <+: bs

/-- O56. R93 and the encodings that the entries write out: these words stand for these instructions, and these for none. -/
def Obligations.SpecWordsDecode : Prop :=
  let h : Hdr := { form := .f64, gn := false, gp := 0, ea := false, eb := false, ec := false }
  let o : Ops := .bare
  decode (valBytes 8 0x080000238102CC00) =
    .ok (.iadd { h with gn := true, gp := 3 } { o with d := .v 5, a := .v 2, b := .s 7 } .i32 false) ∧
  decode (valBytes 16 0x00003001008000FF0414007F80D080A2) =
    .ok (.icmp { h with form := .f128 } { o with d := .p 1, d2 := .zr, a := .v 1, b := .lit 0x3001 } .n32 .ge
      { merge := .set, inv := false }) ∧
  decode (valBytes 12 0x0450080000080000A1020241) =
    .ok (.ld { h with form := .f96 } { o with d := .v 4, a := .s 2, b := .v 1 } .b32
      { lsel := 1, so := { scope := .domain, order := .relaxed, promote := false, pass := false }, scale := 2, disp := 4 }) ∧
  decode (valBytes 8 0x400401008001810C) =
    .ok (.ffma h { o with d := .v 3, a := .v 0, b := .v 1, c := .v 2 } .f32 .rtz false) ∧
  decode (valBytes 12 0x0000100000040322A20001C1) =
    .ok (.mma { h with form := .f96 } { o with a := .s 4, b := .s 5, c := .v 6 } true false 2) ∧
  decode (valBytes 16 0xFFFFFFC000C800000000007F80000B02) =
    .ok (.bra { h with form := .f128, gp := 2 } { o with b := .lit 0xFFFFFFC0 } false 0x90) ∧
  decode (valBytes 8 0x0004000000000384) = .ok (.rft h o .next) ∧
  decode (valBytes 8 0x348) = .ok (.nop h o) ∧
  decode (valBytes 8 0x4348) = .ok (.nop { h with gn := true } o) ∧
  (∀ i, decode (valBytes 8 0x3) ≠ .ok i) ∧ (∀ i, decode (valBytes 8 0xDC) ≠ .ok i) ∧
  (∀ i, decode (valBytes 8 0x080000238162CC00) ≠ .ok i) ∧ (∀ i, decode (valBytes 4 0x8102CC00) ≠ .ok i)

/-- O57. R34, R77, R97, R296, R312, R313, R344, R384, R396, R418: when a partition's turn comes, after one clock, the entry that
R313 chooses issues. A cause that waits for it is raised first. Otherwise it runs the instruction whose bytes stand at its
PC, in a block that the core keeps or in memory at the translated address, which the core then keeps; it waits for a walk
when there is no translation, raises ACCESS when the block may not be fetched, and ends its pour when the block is poisoned.
A due exchange of the active set comes before the issue, and a hoist that waits leaves it after; Bellows counts what the turn
has moved. The model's own readings and choices here: log 2, 27, 28, 29, 30. -/
def Obligations.StepRunsDecoded : Prop :=
  ∀ (s : State) (gc part : Nat) (ts : List Turn) (is : Issue) (e : Entry),
    let u : State := { s.passClocks 1 with agenda := ts }
    let x := u.frag is.frag
    s.agenda = .issue gc part :: ts ∨ (s.agenda = .together [(gc, part)] :: ts ∧ part ∉ (u.core gc).issued) →
    ((u.fillActive gc part 9).exchange gc part).choose gc part = some is →
    findEntry x.entries is.prio is.pc = some e →
    let i := ({ u with iss := is } : State).bare
    let at_ := is.pc.toNat % 32
    let blk := is.pc.toNat - at_
    let key := icKey (u.ctxOf x) blk
    let kept := Sparse.get none (u.core x.gc).icache key
    let bad := (u.core x.gc).icbad.contains key
    let ends : Prop := (u.pour (u.pourOf x)).st = .accepted →
      ∃ v, step s = .next v ∧ (v.pour (u.pourOf x)).st = .killing
    let fin (v : State) : State := (v.leaveActive gc part).meter u
    ∃ t, Issues u t gc ts is ∧
      (∀ c cs, x.trap = none → x.async = c :: cs →
        step s = .next (fin (((t.dropPins is.frag is.prio is.pc).modFrag is.frag fun y => { y with async := cs }).raise is.frag e c.code
          c.addr e.mask))) ∧
      (x.trap ≠ none ∨ x.async = [] →
        (∀ b, kept = some b → bad = false →
          Runs (step s) t fin x is e ((List.range (32 - at_)).map fun k => b.extractLsb' (8 * (at_ + k)) 8)) ∧
        (∀ b, kept = some b → bad = true → x.trap = none → ends) ∧
        (kept = none →
          (i.translate blk = .miss →
            step s = .next (fin ((t.modFrag is.frag fun y =>
              y.waitAt is.prio is.pc (.walk (u.ctxOf x) (walkPage blk))).afterIssue is))) ∧
          ((i.translate blk = .fail ∨ ∃ leaf pa, i.translate blk = .ok leaf pa ∧ i.fetchable leaf pa = false) →
            step s = .next (fin (((t.dropPins is.frag is.prio is.pc).raise is.frag e 0x05 (BitVec.ofNat 64 blk) e.mask).afterIssue
              is))) ∧
          (∀ leaf pa, i.translate blk = .ok leaf pa → i.fetchable leaf pa = true →
            (u.poisoned pa 32 = true → x.trap = none → ends) ∧
            (u.poisoned pa 32 = false →
              Sparse.get none (t.core x.gc).icache key = some (u.blockAt pa) ∧
              Runs (step s) t fin x is e ((List.range (32 - at_)).map fun k => u.byte (pa + at_ + k))))))

/-- O58. R86: an instruction without a guard-true lane does nothing but move its entry on; those that may raise ILLEGAL whatever
their guard may raise it. Under GATE every lane takes part (R87). -/
def Obligations.GuardFalseOnlyAdvances : Prop :=
  ∀ (n : Instr) (h : Hdr) (o : Ops) (s : State),
    let i := Ix.of s h
    n.head = some (h, o) → (∀ c, n.code = some c → c.pct.extractLsb' 0 2 ≠ Merge.gate.code) → i.g = 0 →
    ∃ t, exec n s = .next t ∧ ((Kept s t i [] ∧ WentOn s t i) ∨ (maybeIllegal n = true ∧ t = i.illegal))

/-- O59. The memory of bytes and its marks keep their canonical form under every step, whichever agent moves. The model's own
readings and choices here: log 7. -/
def Obligations.StepKeepsMemory : Prop :=
  ∀ s t : State, s.memOk = true → step s = .next t → t.memOk = true

/-- O60. R371, R373, R375, R392, R427: after reset the memory is in canonical form; STATE is RESET and no image runs; no context
has a partition, a table or a handler, and none is managing; the rise and fall limits equal their caps, 50 and 75 W/µs, and
the counters of Bellows are zero. The model's own readings and choices here: log 7, 8. -/
def Obligations.ResetState : Prop :=
  let p := State.reset.pkg 0
  State.reset.memOk = true ∧ p.st = .reset ∧ p.fwver = 0 ∧ p.dbBusy = false ∧ p.dumpLen = 0 ∧
  (∀ c, (Sparse.get CtxDesc.none p.ctxs c).part = 0xFF) ∧ (∀ c, (Sparse.get TrapEnt.none p.traps c).handler = 0) ∧
  p.managing = 0 ∧ (∀ h, Sparse.get 0xFF p.parts h = 0xFF) ∧
  p.bellows.riseCap = 50 ∧ p.bellows.fallCap = 75 ∧ p.bellows.riseLim = 50 ∧ p.bellows.fallLim = 75 ∧
  p.bellows.windows = 0 ∧ p.bellows.starts = 0 ∧ p.bellows.wakes = 0 ∧ p.bellows.defers = 0 ∧ p.bellows.pinAdm = 0 ∧
  p.bellows.rampFlts = 0 ∧ p.bellows.balWin = 0 ∧ p.bellows.fallOvr = 0 ∧ ∀ c, Sparse.get 0 p.bellows.ballast c = 0

end Statements
end

