-- ==== Sys2Proof/Laws/Sparse.lean ====
section
/-! SUPPORT. The laws of sparse tables: a read after a write, a read elsewhere, and the canonical form that every write
keeps. -/

namespace Sys2Proof.Sparse

variable {α : Type}

@[simp] theorem get_nil (d : α) (k : Nat) : get d [] k = d := rfl

theorem get_cons (d : α) (k' : Nat) (v : α) (t : List (Nat × α)) (k : Nat) :
    get d ((k', v) :: t) k = if k = k' then v else get d t k := rfl

theorem get_filter (d : α) (l : List (Nat × α)) (p : Nat → Bool) (k : Nat) :
    get d (l.filter fun q => p q.1) k = if p k then get d l k else d := by
  induction l with
  | nil => simp
  | cons q t ih =>
    obtain ⟨k', v⟩ := q
    by_cases hk : k = k'
    · subst hk
      cases hp : p k <;> simp [hp, ih, get_cons]
    · cases hp : p k' <;> simp [hp, ih, get_cons, hk]

/-- Reading a dropped key gives the default, and every other key reads as before. -/
theorem get_erase (d : α) (l : List (Nat × α)) (k j : Nat) :
    get d (erase l k) j = if j = k then d else get d l j := by
  rw [erase, get_filter d l (fun x => decide (k ≠ x)) j]
  by_cases h : j = k
  · simp [h]
  · simp [h, Ne.symm h]

/-- Reading an inserted key gives its value, and every other key reads as before. -/
theorem get_insert (d : α) (l : List (Nat × α)) (k j : Nat) (v : α) :
    get d (insert l k v) j = if j = k then v else get d l j := by
  induction l with
  | nil => simp [insert, get_cons]
  | cons q t ih =>
    obtain ⟨k', v'⟩ := q
    by_cases h1 : k < k'
    · simp [insert, h1, get_cons]
    · by_cases h2 : k = k'
      · subst h2
        by_cases hj : j = k <;> simp [insert, get_cons, hj]
      · by_cases hj : j = k
        · subst hj
          simp [insert, h1, h2, get_cons, ih]
        · simp [insert, h1, h2, get_cons, ih, hj]

/-- Reading a written key gives the value, and every other key reads as before. -/
@[simp] theorem get_set [DecidableEq α] (d : α) (l : List (Nat × α)) (k j : Nat) (v : α) :
    get d (set d l k v) j = if j = k then v else get d l j := by
  unfold set
  by_cases h : v = d
  · simp [h, get_erase]
  · simp [h, get_insert]

theorem above_filter (k : Nat) (l : List (Nat × α)) (p : Nat × α → Bool) (h : above k l = true) :
    above k (l.filter p) = true := by
  simp only [above, List.all_eq_true, List.mem_filter] at *
  intro x hx
  exact h x hx.1

/-- Dropping entries keeps the canonical form. -/
theorem wf_filter [DecidableEq α] (d : α) (l : List (Nat × α)) (p : Nat × α → Bool) (h : wf d l = true) :
    wf d (l.filter p) = true := by
  induction l with
  | nil => rfl
  | cons q t ih =>
    obtain ⟨k, v⟩ := q
    simp only [wf, Bool.and_eq_true] at h
    cases hp : p (k, v)
    · simp [hp, ih h.2]
    · simp only [List.filter_cons, hp, if_true, wf, Bool.and_eq_true]
      exact ⟨⟨h.1.1, above_filter k t p h.1.2⟩, ih h.2⟩

theorem wf_erase [DecidableEq α] (d : α) (l : List (Nat × α)) (k : Nat) (h : wf d l = true) :
    wf d (erase l k) = true := wf_filter d l _ h

theorem above_insert (m : Nat) (l : List (Nat × α)) (k : Nat) (v : α) (hk : m < k) (h : above m l = true) :
    above m (insert l k v) = true := by
  induction l with
  | nil => simp [insert, above, hk]
  | cons q t ih =>
    obtain ⟨k', v'⟩ := q
    simp only [above, List.all_cons, Bool.and_eq_true, decide_eq_true_eq] at h
    by_cases h1 : k < k'
    · simp [insert, h1, above, hk, h.1]
      simpa using h.2
    · by_cases h2 : k = k'
      · subst h2
        simp [insert, above, h.1]
        simpa using h.2
      · have := ih h.2
        simp only [above] at this
        simp [insert, h1, h2, above, h.1]
        simpa using this

theorem above_trans (m k : Nat) (l : List (Nat × α)) (hk : m < k) (h : above k l = true) : above m l = true := by
  simp only [above, List.all_eq_true, decide_eq_true_eq] at *
  intro x hx
  have := h x hx
  omega

/-- Inserting a value that is not the default keeps the canonical form. -/
theorem wf_insert [DecidableEq α] (d : α) (l : List (Nat × α)) (k : Nat) (v : α) (hv : v ≠ d) (h : wf d l = true) :
    wf d (insert l k v) = true := by
  induction l with
  | nil => simp [insert, wf, above, hv]
  | cons q t ih =>
    obtain ⟨k', v'⟩ := q
    simp only [wf, Bool.and_eq_true, decide_eq_true_eq] at h
    by_cases h1 : k < k'
    · have ht := above_trans k k' t h1 h.1.2
      simp only [insert, h1, if_true, wf, Bool.and_eq_true, decide_eq_true_eq]
      refine ⟨⟨hv, ?_⟩, h⟩
      simp only [above, List.all_cons, Bool.and_eq_true, decide_eq_true_eq] at *
      exact ⟨h1, ht⟩
    · by_cases h2 : k = k'
      · subst h2
        simp [insert, wf, hv, h.1.2, h.2]
      · have hlt : k' < k := by omega
        simp only [insert, h1, h2, if_false, wf, Bool.and_eq_true, decide_eq_true_eq]
        exact ⟨⟨h.1.1, above_insert k' t k v hlt h.1.2⟩, ih h.2⟩

/-- Writing a key keeps the canonical form. -/
theorem wf_set [DecidableEq α] (d : α) (l : List (Nat × α)) (k : Nat) (v : α) (h : wf d l = true) :
    wf d (set d l k v) = true := by
  unfold set
  split
  · exact wf_erase d l k h
  · exact wf_insert d l k v (by assumption) h

/-- In canonical form, equal readings are equal tables. -/
theorem get_above [DecidableEq α] (d : α) (l : List (Nat × α)) (k : Nat) (h : above k l = true) : get d l k = d := by
  induction l with
  | nil => rfl
  | cons q t ih =>
    obtain ⟨k', v'⟩ := q
    simp only [above, List.all_cons, Bool.and_eq_true, decide_eq_true_eq] at h
    have hne : k ≠ k' := by omega
    simp only [get_cons, hne, if_false]
    exact ih (by simpa [above] using h.2)

end Sys2Proof.Sparse
end

