-- ==== Sys2Proof/Laws/State.lean ====
section
/-! SUPPORT. One lemma for each field of the state and each update of it: what the update leaves alone is as before, and
what it writes reads as written. -/

namespace Sys2Proof.Machine

variable (s : State) (k j : Nat)

/-! ### Frag -/

@[simp] theorem setFrag_mem (x : Frag) : (s.setFrag k x).mem = s.mem := rfl
@[simp] theorem modFrag_mem (g : Frag → Frag) : (s.modFrag k g).mem = s.mem := rfl
@[simp] theorem setFrag_marks (x : Frag) : (s.setFrag k x).marks = s.marks := rfl
@[simp] theorem modFrag_marks (g : Frag → Frag) : (s.modFrag k g).marks = s.marks := rfl
@[simp] theorem setFrag_hoists (x : Frag) : (s.setFrag k x).hoists = s.hoists := rfl
@[simp] theorem modFrag_hoists (g : Frag → Frag) : (s.modFrag k g).hoists = s.hoists := rfl
@[simp] theorem setFrag_casts (x : Frag) : (s.setFrag k x).casts = s.casts := rfl
@[simp] theorem modFrag_casts (g : Frag → Frag) : (s.modFrag k g).casts = s.casts := rfl
@[simp] theorem setFrag_pours (x : Frag) : (s.setFrag k x).pours = s.pours := rfl
@[simp] theorem modFrag_pours (g : Frag → Frag) : (s.modFrag k g).pours = s.pours := rfl
@[simp] theorem setFrag_cores (x : Frag) : (s.setFrag k x).cores = s.cores := rfl
@[simp] theorem modFrag_cores (g : Frag → Frag) : (s.modFrag k g).cores = s.cores := rfl
@[simp] theorem setFrag_hearths (x : Frag) : (s.setFrag k x).hearths = s.hearths := rfl
@[simp] theorem modFrag_hearths (g : Frag → Frag) : (s.modFrag k g).hearths = s.hearths := rfl
@[simp] theorem setFrag_pkgs (x : Frag) : (s.setFrag k x).pkgs = s.pkgs := rfl
@[simp] theorem modFrag_pkgs (g : Frag → Frag) : (s.modFrag k g).pkgs = s.pkgs := rfl
@[simp] theorem setFrag_cmds (x : Frag) : (s.setFrag k x).cmds = s.cmds := rfl
@[simp] theorem modFrag_cmds (g : Frag → Frag) : (s.modFrag k g).cmds = s.cmds := rfl
@[simp] theorem setFrag_net (x : Frag) : (s.setFrag k x).net = s.net := rfl
@[simp] theorem modFrag_net (g : Frag → Frag) : (s.modFrag k g).net = s.net := rfl
@[simp] theorem setFrag_seqs (x : Frag) : (s.setFrag k x).seqs = s.seqs := rfl
@[simp] theorem modFrag_seqs (g : Frag → Frag) : (s.modFrag k g).seqs = s.seqs := rfl
@[simp] theorem setFrag_sentCnt (x : Frag) : (s.setFrag k x).sentCnt = s.sentCnt := rfl
@[simp] theorem modFrag_sentCnt (g : Frag → Frag) : (s.modFrag k g).sentCnt = s.sentCnt := rfl
@[simp] theorem setFrag_recvCnt (x : Frag) : (s.setFrag k x).recvCnt = s.recvCnt := rfl
@[simp] theorem setFrag_unacked (x : Frag) : (s.setFrag k x).unacked = s.unacked := rfl
@[simp] theorem setFrag_oldSweep (x : Frag) : (s.setFrag k x).oldSweep = s.oldSweep := rfl
@[simp] theorem modFrag_recvCnt (g : Frag → Frag) : (s.modFrag k g).recvCnt = s.recvCnt := rfl
@[simp] theorem modFrag_unacked (g : Frag → Frag) : (s.modFrag k g).unacked = s.unacked := rfl
@[simp] theorem modFrag_oldSweep (g : Frag → Frag) : (s.modFrag k g).oldSweep = s.oldSweep := rfl
@[simp] theorem setFrag_nextFrag (x : Frag) : (s.setFrag k x).nextFrag = s.nextFrag := rfl
@[simp] theorem modFrag_nextFrag (g : Frag → Frag) : (s.modFrag k g).nextFrag = s.nextFrag := rfl
@[simp] theorem setFrag_nextPour (x : Frag) : (s.setFrag k x).nextPour = s.nextPour := rfl
@[simp] theorem modFrag_nextPour (g : Frag → Frag) : (s.modFrag k g).nextPour = s.nextPour := rfl
@[simp] theorem setFrag_nextCmd (x : Frag) : (s.setFrag k x).nextCmd = s.nextCmd := rfl
@[simp] theorem modFrag_nextCmd (g : Frag → Frag) : (s.modFrag k g).nextCmd = s.nextCmd := rfl
@[simp] theorem setFrag_nextOrd (x : Frag) : (s.setFrag k x).nextOrd = s.nextOrd := rfl
@[simp] theorem modFrag_nextOrd (g : Frag → Frag) : (s.modFrag k g).nextOrd = s.nextOrd := rfl
@[simp] theorem setFrag_now (x : Frag) : (s.setFrag k x).now = s.now := rfl
@[simp] theorem modFrag_now (g : Frag → Frag) : (s.modFrag k g).now = s.now := rfl
@[simp] theorem setFrag_iss (x : Frag) : (s.setFrag k x).iss = s.iss := rfl
@[simp] theorem modFrag_iss (g : Frag → Frag) : (s.modFrag k g).iss = s.iss := rfl
@[simp] theorem setFrag_agenda (x : Frag) : (s.setFrag k x).agenda = s.agenda := rfl
@[simp] theorem setFrag_late (x : Frag) : (s.setFrag k x).late = s.late := rfl
@[simp] theorem modFrag_agenda (g : Frag → Frag) : (s.modFrag k g).agenda = s.agenda := rfl
@[simp] theorem modFrag_late (g : Frag → Frag) : (s.modFrag k g).late = s.late := rfl
@[simp] theorem setFrag_frag (x : Frag) : (s.setFrag k x).frag j = if j = k then x else s.frag j := by
  simp [State.setFrag, State.frag]
@[simp] theorem modFrag_frag (g : Frag → Frag) : (s.modFrag k g).frag j = if j = k then g (s.frag k) else s.frag j := by
  simp [State.modFrag]
@[simp] theorem setFrag_hoist (x : Frag) : (s.setFrag k x).hoist j = s.hoist j := rfl
@[simp] theorem modFrag_hoist (g : Frag → Frag) : (s.modFrag k g).hoist j = s.hoist j := rfl
@[simp] theorem setFrag_cast (x : Frag) : (s.setFrag k x).cast j = s.cast j := rfl
@[simp] theorem modFrag_cast (g : Frag → Frag) : (s.modFrag k g).cast j = s.cast j := rfl
@[simp] theorem setFrag_pour (x : Frag) : (s.setFrag k x).pour j = s.pour j := rfl
@[simp] theorem modFrag_pour (g : Frag → Frag) : (s.modFrag k g).pour j = s.pour j := rfl
@[simp] theorem setFrag_core (x : Frag) : (s.setFrag k x).core j = s.core j := rfl
@[simp] theorem modFrag_core (g : Frag → Frag) : (s.modFrag k g).core j = s.core j := rfl
@[simp] theorem setFrag_hearth (x : Frag) : (s.setFrag k x).hearth j = s.hearth j := rfl
@[simp] theorem modFrag_hearth (g : Frag → Frag) : (s.modFrag k g).hearth j = s.hearth j := rfl
@[simp] theorem setFrag_pkg (x : Frag) : (s.setFrag k x).pkg j = s.pkg j := rfl
@[simp] theorem modFrag_pkg (g : Frag → Frag) : (s.modFrag k g).pkg j = s.pkg j := rfl
@[simp] theorem setFrag_cmd (x : Frag) : (s.setFrag k x).cmd j = s.cmd j := rfl
@[simp] theorem modFrag_cmd (g : Frag → Frag) : (s.modFrag k g).cmd j = s.cmd j := rfl
@[simp] theorem setFrag_byte (x : Frag) : (s.setFrag k x).byte j = s.byte j := rfl
@[simp] theorem modFrag_byte (g : Frag → Frag) : (s.modFrag k g).byte j = s.byte j := rfl
@[simp] theorem setFrag_mark (x : Frag) : (s.setFrag k x).mark j = s.mark j := rfl
@[simp] theorem modFrag_mark (g : Frag → Frag) : (s.modFrag k g).mark j = s.mark j := rfl

/-! ### Hoist -/

@[simp] theorem setHoist_mem (x : Hoist) : (s.setHoist k x).mem = s.mem := rfl
@[simp] theorem modHoist_mem (g : Hoist → Hoist) : (s.modHoist k g).mem = s.mem := rfl
@[simp] theorem setHoist_marks (x : Hoist) : (s.setHoist k x).marks = s.marks := rfl
@[simp] theorem modHoist_marks (g : Hoist → Hoist) : (s.modHoist k g).marks = s.marks := rfl
@[simp] theorem setHoist_frags (x : Hoist) : (s.setHoist k x).frags = s.frags := rfl
@[simp] theorem modHoist_frags (g : Hoist → Hoist) : (s.modHoist k g).frags = s.frags := rfl
@[simp] theorem setHoist_casts (x : Hoist) : (s.setHoist k x).casts = s.casts := rfl
@[simp] theorem modHoist_casts (g : Hoist → Hoist) : (s.modHoist k g).casts = s.casts := rfl
@[simp] theorem setHoist_pours (x : Hoist) : (s.setHoist k x).pours = s.pours := rfl
@[simp] theorem modHoist_pours (g : Hoist → Hoist) : (s.modHoist k g).pours = s.pours := rfl
@[simp] theorem setHoist_cores (x : Hoist) : (s.setHoist k x).cores = s.cores := rfl
@[simp] theorem modHoist_cores (g : Hoist → Hoist) : (s.modHoist k g).cores = s.cores := rfl
@[simp] theorem setHoist_hearths (x : Hoist) : (s.setHoist k x).hearths = s.hearths := rfl
@[simp] theorem modHoist_hearths (g : Hoist → Hoist) : (s.modHoist k g).hearths = s.hearths := rfl
@[simp] theorem setHoist_pkgs (x : Hoist) : (s.setHoist k x).pkgs = s.pkgs := rfl
@[simp] theorem modHoist_pkgs (g : Hoist → Hoist) : (s.modHoist k g).pkgs = s.pkgs := rfl
@[simp] theorem setHoist_cmds (x : Hoist) : (s.setHoist k x).cmds = s.cmds := rfl
@[simp] theorem modHoist_cmds (g : Hoist → Hoist) : (s.modHoist k g).cmds = s.cmds := rfl
@[simp] theorem setHoist_net (x : Hoist) : (s.setHoist k x).net = s.net := rfl
@[simp] theorem modHoist_net (g : Hoist → Hoist) : (s.modHoist k g).net = s.net := rfl
@[simp] theorem setHoist_seqs (x : Hoist) : (s.setHoist k x).seqs = s.seqs := rfl
@[simp] theorem modHoist_seqs (g : Hoist → Hoist) : (s.modHoist k g).seqs = s.seqs := rfl
@[simp] theorem setHoist_sentCnt (x : Hoist) : (s.setHoist k x).sentCnt = s.sentCnt := rfl
@[simp] theorem modHoist_sentCnt (g : Hoist → Hoist) : (s.modHoist k g).sentCnt = s.sentCnt := rfl
@[simp] theorem setHoist_recvCnt (x : Hoist) : (s.setHoist k x).recvCnt = s.recvCnt := rfl
@[simp] theorem setHoist_unacked (x : Hoist) : (s.setHoist k x).unacked = s.unacked := rfl
@[simp] theorem setHoist_oldSweep (x : Hoist) : (s.setHoist k x).oldSweep = s.oldSweep := rfl
@[simp] theorem modHoist_recvCnt (g : Hoist → Hoist) : (s.modHoist k g).recvCnt = s.recvCnt := rfl
@[simp] theorem modHoist_unacked (g : Hoist → Hoist) : (s.modHoist k g).unacked = s.unacked := rfl
@[simp] theorem modHoist_oldSweep (g : Hoist → Hoist) : (s.modHoist k g).oldSweep = s.oldSweep := rfl
@[simp] theorem setHoist_nextFrag (x : Hoist) : (s.setHoist k x).nextFrag = s.nextFrag := rfl
@[simp] theorem modHoist_nextFrag (g : Hoist → Hoist) : (s.modHoist k g).nextFrag = s.nextFrag := rfl
@[simp] theorem setHoist_nextPour (x : Hoist) : (s.setHoist k x).nextPour = s.nextPour := rfl
@[simp] theorem modHoist_nextPour (g : Hoist → Hoist) : (s.modHoist k g).nextPour = s.nextPour := rfl
@[simp] theorem setHoist_nextCmd (x : Hoist) : (s.setHoist k x).nextCmd = s.nextCmd := rfl
@[simp] theorem modHoist_nextCmd (g : Hoist → Hoist) : (s.modHoist k g).nextCmd = s.nextCmd := rfl
@[simp] theorem setHoist_nextOrd (x : Hoist) : (s.setHoist k x).nextOrd = s.nextOrd := rfl
@[simp] theorem modHoist_nextOrd (g : Hoist → Hoist) : (s.modHoist k g).nextOrd = s.nextOrd := rfl
@[simp] theorem setHoist_now (x : Hoist) : (s.setHoist k x).now = s.now := rfl
@[simp] theorem modHoist_now (g : Hoist → Hoist) : (s.modHoist k g).now = s.now := rfl
@[simp] theorem setHoist_iss (x : Hoist) : (s.setHoist k x).iss = s.iss := rfl
@[simp] theorem modHoist_iss (g : Hoist → Hoist) : (s.modHoist k g).iss = s.iss := rfl
@[simp] theorem setHoist_agenda (x : Hoist) : (s.setHoist k x).agenda = s.agenda := rfl
@[simp] theorem setHoist_late (x : Hoist) : (s.setHoist k x).late = s.late := rfl
@[simp] theorem modHoist_agenda (g : Hoist → Hoist) : (s.modHoist k g).agenda = s.agenda := rfl
@[simp] theorem modHoist_late (g : Hoist → Hoist) : (s.modHoist k g).late = s.late := rfl
@[simp] theorem setHoist_frag (x : Hoist) : (s.setHoist k x).frag j = s.frag j := rfl
@[simp] theorem modHoist_frag (g : Hoist → Hoist) : (s.modHoist k g).frag j = s.frag j := rfl
@[simp] theorem setHoist_hoist (x : Hoist) : (s.setHoist k x).hoist j = if j = k then x else s.hoist j := by
  simp [State.setHoist, State.hoist]
@[simp] theorem modHoist_hoist (g : Hoist → Hoist) : (s.modHoist k g).hoist j = if j = k then g (s.hoist k) else s.hoist j := by
  simp [State.modHoist]
@[simp] theorem setHoist_cast (x : Hoist) : (s.setHoist k x).cast j = s.cast j := rfl
@[simp] theorem modHoist_cast (g : Hoist → Hoist) : (s.modHoist k g).cast j = s.cast j := rfl
@[simp] theorem setHoist_pour (x : Hoist) : (s.setHoist k x).pour j = s.pour j := rfl
@[simp] theorem modHoist_pour (g : Hoist → Hoist) : (s.modHoist k g).pour j = s.pour j := rfl
@[simp] theorem setHoist_core (x : Hoist) : (s.setHoist k x).core j = s.core j := rfl
@[simp] theorem modHoist_core (g : Hoist → Hoist) : (s.modHoist k g).core j = s.core j := rfl
@[simp] theorem setHoist_hearth (x : Hoist) : (s.setHoist k x).hearth j = s.hearth j := rfl
@[simp] theorem modHoist_hearth (g : Hoist → Hoist) : (s.modHoist k g).hearth j = s.hearth j := rfl
@[simp] theorem setHoist_pkg (x : Hoist) : (s.setHoist k x).pkg j = s.pkg j := rfl
@[simp] theorem modHoist_pkg (g : Hoist → Hoist) : (s.modHoist k g).pkg j = s.pkg j := rfl
@[simp] theorem setHoist_cmd (x : Hoist) : (s.setHoist k x).cmd j = s.cmd j := rfl
@[simp] theorem modHoist_cmd (g : Hoist → Hoist) : (s.modHoist k g).cmd j = s.cmd j := rfl
@[simp] theorem setHoist_byte (x : Hoist) : (s.setHoist k x).byte j = s.byte j := rfl
@[simp] theorem modHoist_byte (g : Hoist → Hoist) : (s.modHoist k g).byte j = s.byte j := rfl
@[simp] theorem setHoist_mark (x : Hoist) : (s.setHoist k x).mark j = s.mark j := rfl
@[simp] theorem modHoist_mark (g : Hoist → Hoist) : (s.modHoist k g).mark j = s.mark j := rfl

/-! ### Cast -/

@[simp] theorem setCast_mem (x : Cast) : (s.setCast k x).mem = s.mem := rfl
@[simp] theorem modCast_mem (g : Cast → Cast) : (s.modCast k g).mem = s.mem := rfl
@[simp] theorem setCast_marks (x : Cast) : (s.setCast k x).marks = s.marks := rfl
@[simp] theorem modCast_marks (g : Cast → Cast) : (s.modCast k g).marks = s.marks := rfl
@[simp] theorem setCast_frags (x : Cast) : (s.setCast k x).frags = s.frags := rfl
@[simp] theorem modCast_frags (g : Cast → Cast) : (s.modCast k g).frags = s.frags := rfl
@[simp] theorem setCast_hoists (x : Cast) : (s.setCast k x).hoists = s.hoists := rfl
@[simp] theorem modCast_hoists (g : Cast → Cast) : (s.modCast k g).hoists = s.hoists := rfl
@[simp] theorem setCast_pours (x : Cast) : (s.setCast k x).pours = s.pours := rfl
@[simp] theorem modCast_pours (g : Cast → Cast) : (s.modCast k g).pours = s.pours := rfl
@[simp] theorem setCast_cores (x : Cast) : (s.setCast k x).cores = s.cores := rfl
@[simp] theorem modCast_cores (g : Cast → Cast) : (s.modCast k g).cores = s.cores := rfl
@[simp] theorem setCast_hearths (x : Cast) : (s.setCast k x).hearths = s.hearths := rfl
@[simp] theorem modCast_hearths (g : Cast → Cast) : (s.modCast k g).hearths = s.hearths := rfl
@[simp] theorem setCast_pkgs (x : Cast) : (s.setCast k x).pkgs = s.pkgs := rfl
@[simp] theorem modCast_pkgs (g : Cast → Cast) : (s.modCast k g).pkgs = s.pkgs := rfl
@[simp] theorem setCast_cmds (x : Cast) : (s.setCast k x).cmds = s.cmds := rfl
@[simp] theorem modCast_cmds (g : Cast → Cast) : (s.modCast k g).cmds = s.cmds := rfl
@[simp] theorem setCast_net (x : Cast) : (s.setCast k x).net = s.net := rfl
@[simp] theorem modCast_net (g : Cast → Cast) : (s.modCast k g).net = s.net := rfl
@[simp] theorem setCast_seqs (x : Cast) : (s.setCast k x).seqs = s.seqs := rfl
@[simp] theorem modCast_seqs (g : Cast → Cast) : (s.modCast k g).seqs = s.seqs := rfl
@[simp] theorem setCast_sentCnt (x : Cast) : (s.setCast k x).sentCnt = s.sentCnt := rfl
@[simp] theorem modCast_sentCnt (g : Cast → Cast) : (s.modCast k g).sentCnt = s.sentCnt := rfl
@[simp] theorem setCast_recvCnt (x : Cast) : (s.setCast k x).recvCnt = s.recvCnt := rfl
@[simp] theorem setCast_unacked (x : Cast) : (s.setCast k x).unacked = s.unacked := rfl
@[simp] theorem setCast_oldSweep (x : Cast) : (s.setCast k x).oldSweep = s.oldSweep := rfl
@[simp] theorem modCast_recvCnt (g : Cast → Cast) : (s.modCast k g).recvCnt = s.recvCnt := rfl
@[simp] theorem modCast_unacked (g : Cast → Cast) : (s.modCast k g).unacked = s.unacked := rfl
@[simp] theorem modCast_oldSweep (g : Cast → Cast) : (s.modCast k g).oldSweep = s.oldSweep := rfl
@[simp] theorem setCast_nextFrag (x : Cast) : (s.setCast k x).nextFrag = s.nextFrag := rfl
@[simp] theorem modCast_nextFrag (g : Cast → Cast) : (s.modCast k g).nextFrag = s.nextFrag := rfl
@[simp] theorem setCast_nextPour (x : Cast) : (s.setCast k x).nextPour = s.nextPour := rfl
@[simp] theorem modCast_nextPour (g : Cast → Cast) : (s.modCast k g).nextPour = s.nextPour := rfl
@[simp] theorem setCast_nextCmd (x : Cast) : (s.setCast k x).nextCmd = s.nextCmd := rfl
@[simp] theorem modCast_nextCmd (g : Cast → Cast) : (s.modCast k g).nextCmd = s.nextCmd := rfl
@[simp] theorem setCast_nextOrd (x : Cast) : (s.setCast k x).nextOrd = s.nextOrd := rfl
@[simp] theorem modCast_nextOrd (g : Cast → Cast) : (s.modCast k g).nextOrd = s.nextOrd := rfl
@[simp] theorem setCast_now (x : Cast) : (s.setCast k x).now = s.now := rfl
@[simp] theorem modCast_now (g : Cast → Cast) : (s.modCast k g).now = s.now := rfl
@[simp] theorem setCast_iss (x : Cast) : (s.setCast k x).iss = s.iss := rfl
@[simp] theorem modCast_iss (g : Cast → Cast) : (s.modCast k g).iss = s.iss := rfl
@[simp] theorem setCast_agenda (x : Cast) : (s.setCast k x).agenda = s.agenda := rfl
@[simp] theorem setCast_late (x : Cast) : (s.setCast k x).late = s.late := rfl
@[simp] theorem modCast_agenda (g : Cast → Cast) : (s.modCast k g).agenda = s.agenda := rfl
@[simp] theorem modCast_late (g : Cast → Cast) : (s.modCast k g).late = s.late := rfl
@[simp] theorem setCast_frag (x : Cast) : (s.setCast k x).frag j = s.frag j := rfl
@[simp] theorem modCast_frag (g : Cast → Cast) : (s.modCast k g).frag j = s.frag j := rfl
@[simp] theorem setCast_hoist (x : Cast) : (s.setCast k x).hoist j = s.hoist j := rfl
@[simp] theorem modCast_hoist (g : Cast → Cast) : (s.modCast k g).hoist j = s.hoist j := rfl
@[simp] theorem setCast_cast (x : Cast) : (s.setCast k x).cast j = if j = k then x else s.cast j := by
  simp [State.setCast, State.cast]
@[simp] theorem modCast_cast (g : Cast → Cast) : (s.modCast k g).cast j = if j = k then g (s.cast k) else s.cast j := by
  simp [State.modCast]
@[simp] theorem setCast_pour (x : Cast) : (s.setCast k x).pour j = s.pour j := rfl
@[simp] theorem modCast_pour (g : Cast → Cast) : (s.modCast k g).pour j = s.pour j := rfl
@[simp] theorem setCast_core (x : Cast) : (s.setCast k x).core j = s.core j := rfl
@[simp] theorem modCast_core (g : Cast → Cast) : (s.modCast k g).core j = s.core j := rfl
@[simp] theorem setCast_hearth (x : Cast) : (s.setCast k x).hearth j = s.hearth j := rfl
@[simp] theorem modCast_hearth (g : Cast → Cast) : (s.modCast k g).hearth j = s.hearth j := rfl
@[simp] theorem setCast_pkg (x : Cast) : (s.setCast k x).pkg j = s.pkg j := rfl
@[simp] theorem modCast_pkg (g : Cast → Cast) : (s.modCast k g).pkg j = s.pkg j := rfl
@[simp] theorem setCast_cmd (x : Cast) : (s.setCast k x).cmd j = s.cmd j := rfl
@[simp] theorem modCast_cmd (g : Cast → Cast) : (s.modCast k g).cmd j = s.cmd j := rfl
@[simp] theorem setCast_byte (x : Cast) : (s.setCast k x).byte j = s.byte j := rfl
@[simp] theorem modCast_byte (g : Cast → Cast) : (s.modCast k g).byte j = s.byte j := rfl
@[simp] theorem setCast_mark (x : Cast) : (s.setCast k x).mark j = s.mark j := rfl
@[simp] theorem modCast_mark (g : Cast → Cast) : (s.modCast k g).mark j = s.mark j := rfl

/-! ### Pour -/

@[simp] theorem setPour_mem (x : Pour) : (s.setPour k x).mem = s.mem := rfl
@[simp] theorem modPour_mem (g : Pour → Pour) : (s.modPour k g).mem = s.mem := rfl
@[simp] theorem setPour_marks (x : Pour) : (s.setPour k x).marks = s.marks := rfl
@[simp] theorem modPour_marks (g : Pour → Pour) : (s.modPour k g).marks = s.marks := rfl
@[simp] theorem setPour_frags (x : Pour) : (s.setPour k x).frags = s.frags := rfl
@[simp] theorem modPour_frags (g : Pour → Pour) : (s.modPour k g).frags = s.frags := rfl
@[simp] theorem setPour_hoists (x : Pour) : (s.setPour k x).hoists = s.hoists := rfl
@[simp] theorem modPour_hoists (g : Pour → Pour) : (s.modPour k g).hoists = s.hoists := rfl
@[simp] theorem setPour_casts (x : Pour) : (s.setPour k x).casts = s.casts := rfl
@[simp] theorem modPour_casts (g : Pour → Pour) : (s.modPour k g).casts = s.casts := rfl
@[simp] theorem setPour_cores (x : Pour) : (s.setPour k x).cores = s.cores := rfl
@[simp] theorem modPour_cores (g : Pour → Pour) : (s.modPour k g).cores = s.cores := rfl
@[simp] theorem setPour_hearths (x : Pour) : (s.setPour k x).hearths = s.hearths := rfl
@[simp] theorem modPour_hearths (g : Pour → Pour) : (s.modPour k g).hearths = s.hearths := rfl
@[simp] theorem setPour_pkgs (x : Pour) : (s.setPour k x).pkgs = s.pkgs := rfl
@[simp] theorem modPour_pkgs (g : Pour → Pour) : (s.modPour k g).pkgs = s.pkgs := rfl
@[simp] theorem setPour_cmds (x : Pour) : (s.setPour k x).cmds = s.cmds := rfl
@[simp] theorem modPour_cmds (g : Pour → Pour) : (s.modPour k g).cmds = s.cmds := rfl
@[simp] theorem setPour_net (x : Pour) : (s.setPour k x).net = s.net := rfl
@[simp] theorem modPour_net (g : Pour → Pour) : (s.modPour k g).net = s.net := rfl
@[simp] theorem setPour_seqs (x : Pour) : (s.setPour k x).seqs = s.seqs := rfl
@[simp] theorem modPour_seqs (g : Pour → Pour) : (s.modPour k g).seqs = s.seqs := rfl
@[simp] theorem setPour_sentCnt (x : Pour) : (s.setPour k x).sentCnt = s.sentCnt := rfl
@[simp] theorem modPour_sentCnt (g : Pour → Pour) : (s.modPour k g).sentCnt = s.sentCnt := rfl
@[simp] theorem setPour_recvCnt (x : Pour) : (s.setPour k x).recvCnt = s.recvCnt := rfl
@[simp] theorem setPour_unacked (x : Pour) : (s.setPour k x).unacked = s.unacked := rfl
@[simp] theorem setPour_oldSweep (x : Pour) : (s.setPour k x).oldSweep = s.oldSweep := rfl
@[simp] theorem modPour_recvCnt (g : Pour → Pour) : (s.modPour k g).recvCnt = s.recvCnt := rfl
@[simp] theorem modPour_unacked (g : Pour → Pour) : (s.modPour k g).unacked = s.unacked := rfl
@[simp] theorem modPour_oldSweep (g : Pour → Pour) : (s.modPour k g).oldSweep = s.oldSweep := rfl
@[simp] theorem setPour_nextFrag (x : Pour) : (s.setPour k x).nextFrag = s.nextFrag := rfl
@[simp] theorem modPour_nextFrag (g : Pour → Pour) : (s.modPour k g).nextFrag = s.nextFrag := rfl
@[simp] theorem setPour_nextPour (x : Pour) : (s.setPour k x).nextPour = s.nextPour := rfl
@[simp] theorem modPour_nextPour (g : Pour → Pour) : (s.modPour k g).nextPour = s.nextPour := rfl
@[simp] theorem setPour_nextCmd (x : Pour) : (s.setPour k x).nextCmd = s.nextCmd := rfl
@[simp] theorem modPour_nextCmd (g : Pour → Pour) : (s.modPour k g).nextCmd = s.nextCmd := rfl
@[simp] theorem setPour_nextOrd (x : Pour) : (s.setPour k x).nextOrd = s.nextOrd := rfl
@[simp] theorem modPour_nextOrd (g : Pour → Pour) : (s.modPour k g).nextOrd = s.nextOrd := rfl
@[simp] theorem setPour_now (x : Pour) : (s.setPour k x).now = s.now := rfl
@[simp] theorem modPour_now (g : Pour → Pour) : (s.modPour k g).now = s.now := rfl
@[simp] theorem setPour_iss (x : Pour) : (s.setPour k x).iss = s.iss := rfl
@[simp] theorem modPour_iss (g : Pour → Pour) : (s.modPour k g).iss = s.iss := rfl
@[simp] theorem setPour_agenda (x : Pour) : (s.setPour k x).agenda = s.agenda := rfl
@[simp] theorem setPour_late (x : Pour) : (s.setPour k x).late = s.late := rfl
@[simp] theorem modPour_agenda (g : Pour → Pour) : (s.modPour k g).agenda = s.agenda := rfl
@[simp] theorem modPour_late (g : Pour → Pour) : (s.modPour k g).late = s.late := rfl
@[simp] theorem setPour_frag (x : Pour) : (s.setPour k x).frag j = s.frag j := rfl
@[simp] theorem modPour_frag (g : Pour → Pour) : (s.modPour k g).frag j = s.frag j := rfl
@[simp] theorem setPour_hoist (x : Pour) : (s.setPour k x).hoist j = s.hoist j := rfl
@[simp] theorem modPour_hoist (g : Pour → Pour) : (s.modPour k g).hoist j = s.hoist j := rfl
@[simp] theorem setPour_cast (x : Pour) : (s.setPour k x).cast j = s.cast j := rfl
@[simp] theorem modPour_cast (g : Pour → Pour) : (s.modPour k g).cast j = s.cast j := rfl
@[simp] theorem setPour_pour (x : Pour) : (s.setPour k x).pour j = if j = k then x else s.pour j := by
  simp [State.setPour, State.pour]
@[simp] theorem modPour_pour (g : Pour → Pour) : (s.modPour k g).pour j = if j = k then g (s.pour k) else s.pour j := by
  simp [State.modPour]
@[simp] theorem setPour_core (x : Pour) : (s.setPour k x).core j = s.core j := rfl
@[simp] theorem modPour_core (g : Pour → Pour) : (s.modPour k g).core j = s.core j := rfl
@[simp] theorem setPour_hearth (x : Pour) : (s.setPour k x).hearth j = s.hearth j := rfl
@[simp] theorem modPour_hearth (g : Pour → Pour) : (s.modPour k g).hearth j = s.hearth j := rfl
@[simp] theorem setPour_pkg (x : Pour) : (s.setPour k x).pkg j = s.pkg j := rfl
@[simp] theorem modPour_pkg (g : Pour → Pour) : (s.modPour k g).pkg j = s.pkg j := rfl
@[simp] theorem setPour_cmd (x : Pour) : (s.setPour k x).cmd j = s.cmd j := rfl
@[simp] theorem modPour_cmd (g : Pour → Pour) : (s.modPour k g).cmd j = s.cmd j := rfl
@[simp] theorem setPour_byte (x : Pour) : (s.setPour k x).byte j = s.byte j := rfl
@[simp] theorem modPour_byte (g : Pour → Pour) : (s.modPour k g).byte j = s.byte j := rfl
@[simp] theorem setPour_mark (x : Pour) : (s.setPour k x).mark j = s.mark j := rfl
@[simp] theorem modPour_mark (g : Pour → Pour) : (s.modPour k g).mark j = s.mark j := rfl

/-! ### Core -/

@[simp] theorem setCore_mem (x : Core) : (s.setCore k x).mem = s.mem := rfl
@[simp] theorem modCore_mem (g : Core → Core) : (s.modCore k g).mem = s.mem := rfl
@[simp] theorem setCore_marks (x : Core) : (s.setCore k x).marks = s.marks := rfl
@[simp] theorem modCore_marks (g : Core → Core) : (s.modCore k g).marks = s.marks := rfl
@[simp] theorem setCore_frags (x : Core) : (s.setCore k x).frags = s.frags := rfl
@[simp] theorem modCore_frags (g : Core → Core) : (s.modCore k g).frags = s.frags := rfl
@[simp] theorem setCore_hoists (x : Core) : (s.setCore k x).hoists = s.hoists := rfl
@[simp] theorem modCore_hoists (g : Core → Core) : (s.modCore k g).hoists = s.hoists := rfl
@[simp] theorem setCore_casts (x : Core) : (s.setCore k x).casts = s.casts := rfl
@[simp] theorem modCore_casts (g : Core → Core) : (s.modCore k g).casts = s.casts := rfl
@[simp] theorem setCore_pours (x : Core) : (s.setCore k x).pours = s.pours := rfl
@[simp] theorem modCore_pours (g : Core → Core) : (s.modCore k g).pours = s.pours := rfl
@[simp] theorem setCore_hearths (x : Core) : (s.setCore k x).hearths = s.hearths := rfl
@[simp] theorem modCore_hearths (g : Core → Core) : (s.modCore k g).hearths = s.hearths := rfl
@[simp] theorem setCore_pkgs (x : Core) : (s.setCore k x).pkgs = s.pkgs := rfl
@[simp] theorem modCore_pkgs (g : Core → Core) : (s.modCore k g).pkgs = s.pkgs := rfl
@[simp] theorem setCore_cmds (x : Core) : (s.setCore k x).cmds = s.cmds := rfl
@[simp] theorem modCore_cmds (g : Core → Core) : (s.modCore k g).cmds = s.cmds := rfl
@[simp] theorem setCore_net (x : Core) : (s.setCore k x).net = s.net := rfl
@[simp] theorem modCore_net (g : Core → Core) : (s.modCore k g).net = s.net := rfl
@[simp] theorem setCore_seqs (x : Core) : (s.setCore k x).seqs = s.seqs := rfl
@[simp] theorem modCore_seqs (g : Core → Core) : (s.modCore k g).seqs = s.seqs := rfl
@[simp] theorem setCore_sentCnt (x : Core) : (s.setCore k x).sentCnt = s.sentCnt := rfl
@[simp] theorem modCore_sentCnt (g : Core → Core) : (s.modCore k g).sentCnt = s.sentCnt := rfl
@[simp] theorem setCore_recvCnt (x : Core) : (s.setCore k x).recvCnt = s.recvCnt := rfl
@[simp] theorem setCore_unacked (x : Core) : (s.setCore k x).unacked = s.unacked := rfl
@[simp] theorem setCore_oldSweep (x : Core) : (s.setCore k x).oldSweep = s.oldSweep := rfl
@[simp] theorem modCore_recvCnt (g : Core → Core) : (s.modCore k g).recvCnt = s.recvCnt := rfl
@[simp] theorem modCore_unacked (g : Core → Core) : (s.modCore k g).unacked = s.unacked := rfl
@[simp] theorem modCore_oldSweep (g : Core → Core) : (s.modCore k g).oldSweep = s.oldSweep := rfl
@[simp] theorem setCore_nextFrag (x : Core) : (s.setCore k x).nextFrag = s.nextFrag := rfl
@[simp] theorem modCore_nextFrag (g : Core → Core) : (s.modCore k g).nextFrag = s.nextFrag := rfl
@[simp] theorem setCore_nextPour (x : Core) : (s.setCore k x).nextPour = s.nextPour := rfl
@[simp] theorem modCore_nextPour (g : Core → Core) : (s.modCore k g).nextPour = s.nextPour := rfl
@[simp] theorem setCore_nextCmd (x : Core) : (s.setCore k x).nextCmd = s.nextCmd := rfl
@[simp] theorem modCore_nextCmd (g : Core → Core) : (s.modCore k g).nextCmd = s.nextCmd := rfl
@[simp] theorem setCore_nextOrd (x : Core) : (s.setCore k x).nextOrd = s.nextOrd := rfl
@[simp] theorem modCore_nextOrd (g : Core → Core) : (s.modCore k g).nextOrd = s.nextOrd := rfl
@[simp] theorem setCore_now (x : Core) : (s.setCore k x).now = s.now := rfl
@[simp] theorem modCore_now (g : Core → Core) : (s.modCore k g).now = s.now := rfl
@[simp] theorem setCore_iss (x : Core) : (s.setCore k x).iss = s.iss := rfl
@[simp] theorem modCore_iss (g : Core → Core) : (s.modCore k g).iss = s.iss := rfl
@[simp] theorem setCore_agenda (x : Core) : (s.setCore k x).agenda = s.agenda := rfl
@[simp] theorem setCore_late (x : Core) : (s.setCore k x).late = s.late := rfl
@[simp] theorem modCore_agenda (g : Core → Core) : (s.modCore k g).agenda = s.agenda := rfl
@[simp] theorem modCore_late (g : Core → Core) : (s.modCore k g).late = s.late := rfl
@[simp] theorem setCore_frag (x : Core) : (s.setCore k x).frag j = s.frag j := rfl
@[simp] theorem modCore_frag (g : Core → Core) : (s.modCore k g).frag j = s.frag j := rfl
@[simp] theorem setCore_hoist (x : Core) : (s.setCore k x).hoist j = s.hoist j := rfl
@[simp] theorem modCore_hoist (g : Core → Core) : (s.modCore k g).hoist j = s.hoist j := rfl
@[simp] theorem setCore_cast (x : Core) : (s.setCore k x).cast j = s.cast j := rfl
@[simp] theorem modCore_cast (g : Core → Core) : (s.modCore k g).cast j = s.cast j := rfl
@[simp] theorem setCore_pour (x : Core) : (s.setCore k x).pour j = s.pour j := rfl
@[simp] theorem modCore_pour (g : Core → Core) : (s.modCore k g).pour j = s.pour j := rfl
@[simp] theorem setCore_core (x : Core) : (s.setCore k x).core j = if j = k then x else s.core j := by
  simp [State.setCore, State.core]
@[simp] theorem modCore_core (g : Core → Core) : (s.modCore k g).core j = if j = k then g (s.core k) else s.core j := by
  simp [State.modCore]
@[simp] theorem setCore_hearth (x : Core) : (s.setCore k x).hearth j = s.hearth j := rfl
@[simp] theorem modCore_hearth (g : Core → Core) : (s.modCore k g).hearth j = s.hearth j := rfl
@[simp] theorem setCore_pkg (x : Core) : (s.setCore k x).pkg j = s.pkg j := rfl
@[simp] theorem modCore_pkg (g : Core → Core) : (s.modCore k g).pkg j = s.pkg j := rfl
@[simp] theorem setCore_cmd (x : Core) : (s.setCore k x).cmd j = s.cmd j := rfl
@[simp] theorem modCore_cmd (g : Core → Core) : (s.modCore k g).cmd j = s.cmd j := rfl
@[simp] theorem setCore_byte (x : Core) : (s.setCore k x).byte j = s.byte j := rfl
@[simp] theorem modCore_byte (g : Core → Core) : (s.modCore k g).byte j = s.byte j := rfl
@[simp] theorem setCore_mark (x : Core) : (s.setCore k x).mark j = s.mark j := rfl
@[simp] theorem modCore_mark (g : Core → Core) : (s.modCore k g).mark j = s.mark j := rfl

/-! ### Hearth -/

@[simp] theorem setHearth_mem (x : Hearth) : (s.setHearth k x).mem = s.mem := rfl
@[simp] theorem modHearth_mem (g : Hearth → Hearth) : (s.modHearth k g).mem = s.mem := rfl
@[simp] theorem setHearth_marks (x : Hearth) : (s.setHearth k x).marks = s.marks := rfl
@[simp] theorem modHearth_marks (g : Hearth → Hearth) : (s.modHearth k g).marks = s.marks := rfl
@[simp] theorem setHearth_frags (x : Hearth) : (s.setHearth k x).frags = s.frags := rfl
@[simp] theorem modHearth_frags (g : Hearth → Hearth) : (s.modHearth k g).frags = s.frags := rfl
@[simp] theorem setHearth_hoists (x : Hearth) : (s.setHearth k x).hoists = s.hoists := rfl
@[simp] theorem modHearth_hoists (g : Hearth → Hearth) : (s.modHearth k g).hoists = s.hoists := rfl
@[simp] theorem setHearth_casts (x : Hearth) : (s.setHearth k x).casts = s.casts := rfl
@[simp] theorem modHearth_casts (g : Hearth → Hearth) : (s.modHearth k g).casts = s.casts := rfl
@[simp] theorem setHearth_pours (x : Hearth) : (s.setHearth k x).pours = s.pours := rfl
@[simp] theorem modHearth_pours (g : Hearth → Hearth) : (s.modHearth k g).pours = s.pours := rfl
@[simp] theorem setHearth_cores (x : Hearth) : (s.setHearth k x).cores = s.cores := rfl
@[simp] theorem modHearth_cores (g : Hearth → Hearth) : (s.modHearth k g).cores = s.cores := rfl
@[simp] theorem setHearth_pkgs (x : Hearth) : (s.setHearth k x).pkgs = s.pkgs := rfl
@[simp] theorem modHearth_pkgs (g : Hearth → Hearth) : (s.modHearth k g).pkgs = s.pkgs := rfl
@[simp] theorem setHearth_cmds (x : Hearth) : (s.setHearth k x).cmds = s.cmds := rfl
@[simp] theorem modHearth_cmds (g : Hearth → Hearth) : (s.modHearth k g).cmds = s.cmds := rfl
@[simp] theorem setHearth_net (x : Hearth) : (s.setHearth k x).net = s.net := rfl
@[simp] theorem modHearth_net (g : Hearth → Hearth) : (s.modHearth k g).net = s.net := rfl
@[simp] theorem setHearth_seqs (x : Hearth) : (s.setHearth k x).seqs = s.seqs := rfl
@[simp] theorem modHearth_seqs (g : Hearth → Hearth) : (s.modHearth k g).seqs = s.seqs := rfl
@[simp] theorem setHearth_sentCnt (x : Hearth) : (s.setHearth k x).sentCnt = s.sentCnt := rfl
@[simp] theorem modHearth_sentCnt (g : Hearth → Hearth) : (s.modHearth k g).sentCnt = s.sentCnt := rfl
@[simp] theorem setHearth_recvCnt (x : Hearth) : (s.setHearth k x).recvCnt = s.recvCnt := rfl
@[simp] theorem setHearth_unacked (x : Hearth) : (s.setHearth k x).unacked = s.unacked := rfl
@[simp] theorem setHearth_oldSweep (x : Hearth) : (s.setHearth k x).oldSweep = s.oldSweep := rfl
@[simp] theorem modHearth_recvCnt (g : Hearth → Hearth) : (s.modHearth k g).recvCnt = s.recvCnt := rfl
@[simp] theorem modHearth_unacked (g : Hearth → Hearth) : (s.modHearth k g).unacked = s.unacked := rfl
@[simp] theorem modHearth_oldSweep (g : Hearth → Hearth) : (s.modHearth k g).oldSweep = s.oldSweep := rfl
@[simp] theorem setHearth_nextFrag (x : Hearth) : (s.setHearth k x).nextFrag = s.nextFrag := rfl
@[simp] theorem modHearth_nextFrag (g : Hearth → Hearth) : (s.modHearth k g).nextFrag = s.nextFrag := rfl
@[simp] theorem setHearth_nextPour (x : Hearth) : (s.setHearth k x).nextPour = s.nextPour := rfl
@[simp] theorem modHearth_nextPour (g : Hearth → Hearth) : (s.modHearth k g).nextPour = s.nextPour := rfl
@[simp] theorem setHearth_nextCmd (x : Hearth) : (s.setHearth k x).nextCmd = s.nextCmd := rfl
@[simp] theorem modHearth_nextCmd (g : Hearth → Hearth) : (s.modHearth k g).nextCmd = s.nextCmd := rfl
@[simp] theorem setHearth_nextOrd (x : Hearth) : (s.setHearth k x).nextOrd = s.nextOrd := rfl
@[simp] theorem modHearth_nextOrd (g : Hearth → Hearth) : (s.modHearth k g).nextOrd = s.nextOrd := rfl
@[simp] theorem setHearth_now (x : Hearth) : (s.setHearth k x).now = s.now := rfl
@[simp] theorem modHearth_now (g : Hearth → Hearth) : (s.modHearth k g).now = s.now := rfl
@[simp] theorem setHearth_iss (x : Hearth) : (s.setHearth k x).iss = s.iss := rfl
@[simp] theorem modHearth_iss (g : Hearth → Hearth) : (s.modHearth k g).iss = s.iss := rfl
@[simp] theorem setHearth_agenda (x : Hearth) : (s.setHearth k x).agenda = s.agenda := rfl
@[simp] theorem setHearth_late (x : Hearth) : (s.setHearth k x).late = s.late := rfl
@[simp] theorem modHearth_agenda (g : Hearth → Hearth) : (s.modHearth k g).agenda = s.agenda := rfl
@[simp] theorem modHearth_late (g : Hearth → Hearth) : (s.modHearth k g).late = s.late := rfl
@[simp] theorem setHearth_frag (x : Hearth) : (s.setHearth k x).frag j = s.frag j := rfl
@[simp] theorem modHearth_frag (g : Hearth → Hearth) : (s.modHearth k g).frag j = s.frag j := rfl
@[simp] theorem setHearth_hoist (x : Hearth) : (s.setHearth k x).hoist j = s.hoist j := rfl
@[simp] theorem modHearth_hoist (g : Hearth → Hearth) : (s.modHearth k g).hoist j = s.hoist j := rfl
@[simp] theorem setHearth_cast (x : Hearth) : (s.setHearth k x).cast j = s.cast j := rfl
@[simp] theorem modHearth_cast (g : Hearth → Hearth) : (s.modHearth k g).cast j = s.cast j := rfl
@[simp] theorem setHearth_pour (x : Hearth) : (s.setHearth k x).pour j = s.pour j := rfl
@[simp] theorem modHearth_pour (g : Hearth → Hearth) : (s.modHearth k g).pour j = s.pour j := rfl
@[simp] theorem setHearth_core (x : Hearth) : (s.setHearth k x).core j = s.core j := rfl
@[simp] theorem modHearth_core (g : Hearth → Hearth) : (s.modHearth k g).core j = s.core j := rfl
@[simp] theorem setHearth_hearth (x : Hearth) : (s.setHearth k x).hearth j = if j = k then x else s.hearth j := by
  simp [State.setHearth, State.hearth]
@[simp] theorem modHearth_hearth (g : Hearth → Hearth) : (s.modHearth k g).hearth j = if j = k then g (s.hearth k) else s.hearth j := by
  simp [State.modHearth]
@[simp] theorem setHearth_pkg (x : Hearth) : (s.setHearth k x).pkg j = s.pkg j := rfl
@[simp] theorem modHearth_pkg (g : Hearth → Hearth) : (s.modHearth k g).pkg j = s.pkg j := rfl
@[simp] theorem setHearth_cmd (x : Hearth) : (s.setHearth k x).cmd j = s.cmd j := rfl
@[simp] theorem modHearth_cmd (g : Hearth → Hearth) : (s.modHearth k g).cmd j = s.cmd j := rfl
@[simp] theorem setHearth_byte (x : Hearth) : (s.setHearth k x).byte j = s.byte j := rfl
@[simp] theorem modHearth_byte (g : Hearth → Hearth) : (s.modHearth k g).byte j = s.byte j := rfl
@[simp] theorem setHearth_mark (x : Hearth) : (s.setHearth k x).mark j = s.mark j := rfl
@[simp] theorem modHearth_mark (g : Hearth → Hearth) : (s.modHearth k g).mark j = s.mark j := rfl

/-! ### Pkg -/

@[simp] theorem setPkg_mem (x : Pkg) : (s.setPkg k x).mem = s.mem := rfl
@[simp] theorem modPkg_mem (g : Pkg → Pkg) : (s.modPkg k g).mem = s.mem := rfl
@[simp] theorem setPkg_marks (x : Pkg) : (s.setPkg k x).marks = s.marks := rfl
@[simp] theorem modPkg_marks (g : Pkg → Pkg) : (s.modPkg k g).marks = s.marks := rfl
@[simp] theorem setPkg_frags (x : Pkg) : (s.setPkg k x).frags = s.frags := rfl
@[simp] theorem modPkg_frags (g : Pkg → Pkg) : (s.modPkg k g).frags = s.frags := rfl
@[simp] theorem setPkg_hoists (x : Pkg) : (s.setPkg k x).hoists = s.hoists := rfl
@[simp] theorem modPkg_hoists (g : Pkg → Pkg) : (s.modPkg k g).hoists = s.hoists := rfl
@[simp] theorem setPkg_casts (x : Pkg) : (s.setPkg k x).casts = s.casts := rfl
@[simp] theorem modPkg_casts (g : Pkg → Pkg) : (s.modPkg k g).casts = s.casts := rfl
@[simp] theorem setPkg_pours (x : Pkg) : (s.setPkg k x).pours = s.pours := rfl
@[simp] theorem modPkg_pours (g : Pkg → Pkg) : (s.modPkg k g).pours = s.pours := rfl
@[simp] theorem setPkg_cores (x : Pkg) : (s.setPkg k x).cores = s.cores := rfl
@[simp] theorem modPkg_cores (g : Pkg → Pkg) : (s.modPkg k g).cores = s.cores := rfl
@[simp] theorem setPkg_hearths (x : Pkg) : (s.setPkg k x).hearths = s.hearths := rfl
@[simp] theorem modPkg_hearths (g : Pkg → Pkg) : (s.modPkg k g).hearths = s.hearths := rfl
@[simp] theorem setPkg_cmds (x : Pkg) : (s.setPkg k x).cmds = s.cmds := rfl
@[simp] theorem modPkg_cmds (g : Pkg → Pkg) : (s.modPkg k g).cmds = s.cmds := rfl
@[simp] theorem setPkg_net (x : Pkg) : (s.setPkg k x).net = s.net := rfl
@[simp] theorem modPkg_net (g : Pkg → Pkg) : (s.modPkg k g).net = s.net := rfl
@[simp] theorem setPkg_seqs (x : Pkg) : (s.setPkg k x).seqs = s.seqs := rfl
@[simp] theorem modPkg_seqs (g : Pkg → Pkg) : (s.modPkg k g).seqs = s.seqs := rfl
@[simp] theorem setPkg_sentCnt (x : Pkg) : (s.setPkg k x).sentCnt = s.sentCnt := rfl
@[simp] theorem modPkg_sentCnt (g : Pkg → Pkg) : (s.modPkg k g).sentCnt = s.sentCnt := rfl
@[simp] theorem setPkg_recvCnt (x : Pkg) : (s.setPkg k x).recvCnt = s.recvCnt := rfl
@[simp] theorem setPkg_unacked (x : Pkg) : (s.setPkg k x).unacked = s.unacked := rfl
@[simp] theorem setPkg_oldSweep (x : Pkg) : (s.setPkg k x).oldSweep = s.oldSweep := rfl
@[simp] theorem modPkg_recvCnt (g : Pkg → Pkg) : (s.modPkg k g).recvCnt = s.recvCnt := rfl
@[simp] theorem modPkg_unacked (g : Pkg → Pkg) : (s.modPkg k g).unacked = s.unacked := rfl
@[simp] theorem modPkg_oldSweep (g : Pkg → Pkg) : (s.modPkg k g).oldSweep = s.oldSweep := rfl
@[simp] theorem setPkg_nextFrag (x : Pkg) : (s.setPkg k x).nextFrag = s.nextFrag := rfl
@[simp] theorem modPkg_nextFrag (g : Pkg → Pkg) : (s.modPkg k g).nextFrag = s.nextFrag := rfl
@[simp] theorem setPkg_nextPour (x : Pkg) : (s.setPkg k x).nextPour = s.nextPour := rfl
@[simp] theorem modPkg_nextPour (g : Pkg → Pkg) : (s.modPkg k g).nextPour = s.nextPour := rfl
@[simp] theorem setPkg_nextCmd (x : Pkg) : (s.setPkg k x).nextCmd = s.nextCmd := rfl
@[simp] theorem modPkg_nextCmd (g : Pkg → Pkg) : (s.modPkg k g).nextCmd = s.nextCmd := rfl
@[simp] theorem setPkg_nextOrd (x : Pkg) : (s.setPkg k x).nextOrd = s.nextOrd := rfl
@[simp] theorem modPkg_nextOrd (g : Pkg → Pkg) : (s.modPkg k g).nextOrd = s.nextOrd := rfl
@[simp] theorem setPkg_now (x : Pkg) : (s.setPkg k x).now = s.now := rfl
@[simp] theorem modPkg_now (g : Pkg → Pkg) : (s.modPkg k g).now = s.now := rfl
@[simp] theorem setPkg_iss (x : Pkg) : (s.setPkg k x).iss = s.iss := rfl
@[simp] theorem modPkg_iss (g : Pkg → Pkg) : (s.modPkg k g).iss = s.iss := rfl
@[simp] theorem setPkg_agenda (x : Pkg) : (s.setPkg k x).agenda = s.agenda := rfl
@[simp] theorem setPkg_late (x : Pkg) : (s.setPkg k x).late = s.late := rfl
@[simp] theorem modPkg_agenda (g : Pkg → Pkg) : (s.modPkg k g).agenda = s.agenda := rfl
@[simp] theorem modPkg_late (g : Pkg → Pkg) : (s.modPkg k g).late = s.late := rfl
@[simp] theorem setPkg_frag (x : Pkg) : (s.setPkg k x).frag j = s.frag j := rfl
@[simp] theorem modPkg_frag (g : Pkg → Pkg) : (s.modPkg k g).frag j = s.frag j := rfl
@[simp] theorem setPkg_hoist (x : Pkg) : (s.setPkg k x).hoist j = s.hoist j := rfl
@[simp] theorem modPkg_hoist (g : Pkg → Pkg) : (s.modPkg k g).hoist j = s.hoist j := rfl
@[simp] theorem setPkg_cast (x : Pkg) : (s.setPkg k x).cast j = s.cast j := rfl
@[simp] theorem modPkg_cast (g : Pkg → Pkg) : (s.modPkg k g).cast j = s.cast j := rfl
@[simp] theorem setPkg_pour (x : Pkg) : (s.setPkg k x).pour j = s.pour j := rfl
@[simp] theorem modPkg_pour (g : Pkg → Pkg) : (s.modPkg k g).pour j = s.pour j := rfl
@[simp] theorem setPkg_core (x : Pkg) : (s.setPkg k x).core j = s.core j := rfl
@[simp] theorem modPkg_core (g : Pkg → Pkg) : (s.modPkg k g).core j = s.core j := rfl
@[simp] theorem setPkg_hearth (x : Pkg) : (s.setPkg k x).hearth j = s.hearth j := rfl
@[simp] theorem modPkg_hearth (g : Pkg → Pkg) : (s.modPkg k g).hearth j = s.hearth j := rfl
@[simp] theorem setPkg_pkg (x : Pkg) : (s.setPkg k x).pkg j = if j = k then x else s.pkg j := by
  simp [State.setPkg, State.pkg]
@[simp] theorem modPkg_pkg (g : Pkg → Pkg) : (s.modPkg k g).pkg j = if j = k then g (s.pkg k) else s.pkg j := by
  simp [State.modPkg]
@[simp] theorem setPkg_cmd (x : Pkg) : (s.setPkg k x).cmd j = s.cmd j := rfl
@[simp] theorem modPkg_cmd (g : Pkg → Pkg) : (s.modPkg k g).cmd j = s.cmd j := rfl
@[simp] theorem setPkg_byte (x : Pkg) : (s.setPkg k x).byte j = s.byte j := rfl
@[simp] theorem modPkg_byte (g : Pkg → Pkg) : (s.modPkg k g).byte j = s.byte j := rfl
@[simp] theorem setPkg_mark (x : Pkg) : (s.setPkg k x).mark j = s.mark j := rfl
@[simp] theorem modPkg_mark (g : Pkg → Pkg) : (s.modPkg k g).mark j = s.mark j := rfl

/-! ### Cmd -/

@[simp] theorem setCmd_mem (x : Cmd) : (s.setCmd k x).mem = s.mem := rfl
@[simp] theorem modCmd_mem (g : Cmd → Cmd) : (s.modCmd k g).mem = s.mem := rfl
@[simp] theorem setCmd_marks (x : Cmd) : (s.setCmd k x).marks = s.marks := rfl
@[simp] theorem modCmd_marks (g : Cmd → Cmd) : (s.modCmd k g).marks = s.marks := rfl
@[simp] theorem setCmd_frags (x : Cmd) : (s.setCmd k x).frags = s.frags := rfl
@[simp] theorem modCmd_frags (g : Cmd → Cmd) : (s.modCmd k g).frags = s.frags := rfl
@[simp] theorem setCmd_hoists (x : Cmd) : (s.setCmd k x).hoists = s.hoists := rfl
@[simp] theorem modCmd_hoists (g : Cmd → Cmd) : (s.modCmd k g).hoists = s.hoists := rfl
@[simp] theorem setCmd_casts (x : Cmd) : (s.setCmd k x).casts = s.casts := rfl
@[simp] theorem modCmd_casts (g : Cmd → Cmd) : (s.modCmd k g).casts = s.casts := rfl
@[simp] theorem setCmd_pours (x : Cmd) : (s.setCmd k x).pours = s.pours := rfl
@[simp] theorem modCmd_pours (g : Cmd → Cmd) : (s.modCmd k g).pours = s.pours := rfl
@[simp] theorem setCmd_cores (x : Cmd) : (s.setCmd k x).cores = s.cores := rfl
@[simp] theorem modCmd_cores (g : Cmd → Cmd) : (s.modCmd k g).cores = s.cores := rfl
@[simp] theorem setCmd_hearths (x : Cmd) : (s.setCmd k x).hearths = s.hearths := rfl
@[simp] theorem modCmd_hearths (g : Cmd → Cmd) : (s.modCmd k g).hearths = s.hearths := rfl
@[simp] theorem setCmd_pkgs (x : Cmd) : (s.setCmd k x).pkgs = s.pkgs := rfl
@[simp] theorem modCmd_pkgs (g : Cmd → Cmd) : (s.modCmd k g).pkgs = s.pkgs := rfl
@[simp] theorem setCmd_net (x : Cmd) : (s.setCmd k x).net = s.net := rfl
@[simp] theorem modCmd_net (g : Cmd → Cmd) : (s.modCmd k g).net = s.net := rfl
@[simp] theorem setCmd_seqs (x : Cmd) : (s.setCmd k x).seqs = s.seqs := rfl
@[simp] theorem modCmd_seqs (g : Cmd → Cmd) : (s.modCmd k g).seqs = s.seqs := rfl
@[simp] theorem setCmd_sentCnt (x : Cmd) : (s.setCmd k x).sentCnt = s.sentCnt := rfl
@[simp] theorem modCmd_sentCnt (g : Cmd → Cmd) : (s.modCmd k g).sentCnt = s.sentCnt := rfl
@[simp] theorem setCmd_recvCnt (x : Cmd) : (s.setCmd k x).recvCnt = s.recvCnt := rfl
@[simp] theorem setCmd_unacked (x : Cmd) : (s.setCmd k x).unacked = s.unacked := rfl
@[simp] theorem setCmd_oldSweep (x : Cmd) : (s.setCmd k x).oldSweep = s.oldSweep := rfl
@[simp] theorem modCmd_recvCnt (g : Cmd → Cmd) : (s.modCmd k g).recvCnt = s.recvCnt := rfl
@[simp] theorem modCmd_unacked (g : Cmd → Cmd) : (s.modCmd k g).unacked = s.unacked := rfl
@[simp] theorem modCmd_oldSweep (g : Cmd → Cmd) : (s.modCmd k g).oldSweep = s.oldSweep := rfl
@[simp] theorem setCmd_nextFrag (x : Cmd) : (s.setCmd k x).nextFrag = s.nextFrag := rfl
@[simp] theorem modCmd_nextFrag (g : Cmd → Cmd) : (s.modCmd k g).nextFrag = s.nextFrag := rfl
@[simp] theorem setCmd_nextPour (x : Cmd) : (s.setCmd k x).nextPour = s.nextPour := rfl
@[simp] theorem modCmd_nextPour (g : Cmd → Cmd) : (s.modCmd k g).nextPour = s.nextPour := rfl
@[simp] theorem setCmd_nextCmd (x : Cmd) : (s.setCmd k x).nextCmd = s.nextCmd := rfl
@[simp] theorem modCmd_nextCmd (g : Cmd → Cmd) : (s.modCmd k g).nextCmd = s.nextCmd := rfl
@[simp] theorem setCmd_nextOrd (x : Cmd) : (s.setCmd k x).nextOrd = s.nextOrd := rfl
@[simp] theorem modCmd_nextOrd (g : Cmd → Cmd) : (s.modCmd k g).nextOrd = s.nextOrd := rfl
@[simp] theorem setCmd_now (x : Cmd) : (s.setCmd k x).now = s.now := rfl
@[simp] theorem modCmd_now (g : Cmd → Cmd) : (s.modCmd k g).now = s.now := rfl
@[simp] theorem setCmd_iss (x : Cmd) : (s.setCmd k x).iss = s.iss := rfl
@[simp] theorem modCmd_iss (g : Cmd → Cmd) : (s.modCmd k g).iss = s.iss := rfl
@[simp] theorem setCmd_agenda (x : Cmd) : (s.setCmd k x).agenda = s.agenda := rfl
@[simp] theorem setCmd_late (x : Cmd) : (s.setCmd k x).late = s.late := rfl
@[simp] theorem modCmd_agenda (g : Cmd → Cmd) : (s.modCmd k g).agenda = s.agenda := rfl
@[simp] theorem modCmd_late (g : Cmd → Cmd) : (s.modCmd k g).late = s.late := rfl
@[simp] theorem setCmd_frag (x : Cmd) : (s.setCmd k x).frag j = s.frag j := rfl
@[simp] theorem modCmd_frag (g : Cmd → Cmd) : (s.modCmd k g).frag j = s.frag j := rfl
@[simp] theorem setCmd_hoist (x : Cmd) : (s.setCmd k x).hoist j = s.hoist j := rfl
@[simp] theorem modCmd_hoist (g : Cmd → Cmd) : (s.modCmd k g).hoist j = s.hoist j := rfl
@[simp] theorem setCmd_cast (x : Cmd) : (s.setCmd k x).cast j = s.cast j := rfl
@[simp] theorem modCmd_cast (g : Cmd → Cmd) : (s.modCmd k g).cast j = s.cast j := rfl
@[simp] theorem setCmd_pour (x : Cmd) : (s.setCmd k x).pour j = s.pour j := rfl
@[simp] theorem modCmd_pour (g : Cmd → Cmd) : (s.modCmd k g).pour j = s.pour j := rfl
@[simp] theorem setCmd_core (x : Cmd) : (s.setCmd k x).core j = s.core j := rfl
@[simp] theorem modCmd_core (g : Cmd → Cmd) : (s.modCmd k g).core j = s.core j := rfl
@[simp] theorem setCmd_hearth (x : Cmd) : (s.setCmd k x).hearth j = s.hearth j := rfl
@[simp] theorem modCmd_hearth (g : Cmd → Cmd) : (s.modCmd k g).hearth j = s.hearth j := rfl
@[simp] theorem setCmd_pkg (x : Cmd) : (s.setCmd k x).pkg j = s.pkg j := rfl
@[simp] theorem modCmd_pkg (g : Cmd → Cmd) : (s.modCmd k g).pkg j = s.pkg j := rfl
@[simp] theorem setCmd_cmd (x : Cmd) : (s.setCmd k x).cmd j = if j = k then x else s.cmd j := by
  simp [State.setCmd, State.cmd]
@[simp] theorem modCmd_cmd (g : Cmd → Cmd) : (s.modCmd k g).cmd j = if j = k then g (s.cmd k) else s.cmd j := by
  simp [State.modCmd]
@[simp] theorem setCmd_byte (x : Cmd) : (s.setCmd k x).byte j = s.byte j := rfl
@[simp] theorem modCmd_byte (g : Cmd → Cmd) : (s.modCmd k g).byte j = s.byte j := rfl
@[simp] theorem setCmd_mark (x : Cmd) : (s.setCmd k x).mark j = s.mark j := rfl
@[simp] theorem modCmd_mark (g : Cmd → Cmd) : (s.modCmd k g).mark j = s.mark j := rfl

/-! ### Bytes and marks -/

@[simp] theorem setByte_marks (b : Byte) : (s.setByte k b).marks = s.marks := rfl
@[simp] theorem setByte_frags (b : Byte) : (s.setByte k b).frags = s.frags := rfl
@[simp] theorem setByte_hoists (b : Byte) : (s.setByte k b).hoists = s.hoists := rfl
@[simp] theorem setByte_casts (b : Byte) : (s.setByte k b).casts = s.casts := rfl
@[simp] theorem setByte_pours (b : Byte) : (s.setByte k b).pours = s.pours := rfl
@[simp] theorem setByte_cores (b : Byte) : (s.setByte k b).cores = s.cores := rfl
@[simp] theorem setByte_hearths (b : Byte) : (s.setByte k b).hearths = s.hearths := rfl
@[simp] theorem setByte_pkgs (b : Byte) : (s.setByte k b).pkgs = s.pkgs := rfl
@[simp] theorem setByte_cmds (b : Byte) : (s.setByte k b).cmds = s.cmds := rfl
@[simp] theorem setByte_net (b : Byte) : (s.setByte k b).net = s.net := rfl
@[simp] theorem setByte_seqs (b : Byte) : (s.setByte k b).seqs = s.seqs := rfl
@[simp] theorem setByte_sentCnt (b : Byte) : (s.setByte k b).sentCnt = s.sentCnt := rfl
@[simp] theorem setByte_recvCnt (b : Byte) : (s.setByte k b).recvCnt = s.recvCnt := rfl
@[simp] theorem setByte_unacked (b : Byte) : (s.setByte k b).unacked = s.unacked := rfl
@[simp] theorem setByte_oldSweep (b : Byte) : (s.setByte k b).oldSweep = s.oldSweep := rfl
@[simp] theorem setByte_nextFrag (b : Byte) : (s.setByte k b).nextFrag = s.nextFrag := rfl
@[simp] theorem setByte_nextPour (b : Byte) : (s.setByte k b).nextPour = s.nextPour := rfl
@[simp] theorem setByte_nextCmd (b : Byte) : (s.setByte k b).nextCmd = s.nextCmd := rfl
@[simp] theorem setByte_nextOrd (b : Byte) : (s.setByte k b).nextOrd = s.nextOrd := rfl
@[simp] theorem setByte_now (b : Byte) : (s.setByte k b).now = s.now := rfl
@[simp] theorem setByte_iss (b : Byte) : (s.setByte k b).iss = s.iss := rfl
@[simp] theorem setByte_agenda (b : Byte) : (s.setByte k b).agenda = s.agenda := rfl
@[simp] theorem setByte_late (b : Byte) : (s.setByte k b).late = s.late := rfl
@[simp] theorem setByte_frag (b : Byte) : (s.setByte k b).frag j = s.frag j := rfl
@[simp] theorem setByte_hoist (b : Byte) : (s.setByte k b).hoist j = s.hoist j := rfl
@[simp] theorem setByte_cast (b : Byte) : (s.setByte k b).cast j = s.cast j := rfl
@[simp] theorem setByte_pour (b : Byte) : (s.setByte k b).pour j = s.pour j := rfl
@[simp] theorem setByte_core (b : Byte) : (s.setByte k b).core j = s.core j := rfl
@[simp] theorem setByte_hearth (b : Byte) : (s.setByte k b).hearth j = s.hearth j := rfl
@[simp] theorem setByte_pkg (b : Byte) : (s.setByte k b).pkg j = s.pkg j := rfl
@[simp] theorem setByte_cmd (b : Byte) : (s.setByte k b).cmd j = s.cmd j := rfl
@[simp] theorem setMark_mem (b : Bool) : (s.setMark k b).mem = s.mem := rfl
@[simp] theorem setMark_frags (b : Bool) : (s.setMark k b).frags = s.frags := rfl
@[simp] theorem setMark_hoists (b : Bool) : (s.setMark k b).hoists = s.hoists := rfl
@[simp] theorem setMark_casts (b : Bool) : (s.setMark k b).casts = s.casts := rfl
@[simp] theorem setMark_pours (b : Bool) : (s.setMark k b).pours = s.pours := rfl
@[simp] theorem setMark_cores (b : Bool) : (s.setMark k b).cores = s.cores := rfl
@[simp] theorem setMark_hearths (b : Bool) : (s.setMark k b).hearths = s.hearths := rfl
@[simp] theorem setMark_pkgs (b : Bool) : (s.setMark k b).pkgs = s.pkgs := rfl
@[simp] theorem setMark_cmds (b : Bool) : (s.setMark k b).cmds = s.cmds := rfl
@[simp] theorem setMark_net (b : Bool) : (s.setMark k b).net = s.net := rfl
@[simp] theorem setMark_seqs (b : Bool) : (s.setMark k b).seqs = s.seqs := rfl
@[simp] theorem setMark_sentCnt (b : Bool) : (s.setMark k b).sentCnt = s.sentCnt := rfl
@[simp] theorem setMark_recvCnt (b : Bool) : (s.setMark k b).recvCnt = s.recvCnt := rfl
@[simp] theorem setMark_unacked (b : Bool) : (s.setMark k b).unacked = s.unacked := rfl
@[simp] theorem setMark_oldSweep (b : Bool) : (s.setMark k b).oldSweep = s.oldSweep := rfl
@[simp] theorem setMark_nextFrag (b : Bool) : (s.setMark k b).nextFrag = s.nextFrag := rfl
@[simp] theorem setMark_nextPour (b : Bool) : (s.setMark k b).nextPour = s.nextPour := rfl
@[simp] theorem setMark_nextCmd (b : Bool) : (s.setMark k b).nextCmd = s.nextCmd := rfl
@[simp] theorem setMark_nextOrd (b : Bool) : (s.setMark k b).nextOrd = s.nextOrd := rfl
@[simp] theorem setMark_now (b : Bool) : (s.setMark k b).now = s.now := rfl
@[simp] theorem setMark_iss (b : Bool) : (s.setMark k b).iss = s.iss := rfl
@[simp] theorem setMark_agenda (b : Bool) : (s.setMark k b).agenda = s.agenda := rfl
@[simp] theorem setMark_late (b : Bool) : (s.setMark k b).late = s.late := rfl
@[simp] theorem setMark_frag (b : Bool) : (s.setMark k b).frag j = s.frag j := rfl
@[simp] theorem setMark_hoist (b : Bool) : (s.setMark k b).hoist j = s.hoist j := rfl
@[simp] theorem setMark_cast (b : Bool) : (s.setMark k b).cast j = s.cast j := rfl
@[simp] theorem setMark_pour (b : Bool) : (s.setMark k b).pour j = s.pour j := rfl
@[simp] theorem setMark_core (b : Bool) : (s.setMark k b).core j = s.core j := rfl
@[simp] theorem setMark_hearth (b : Bool) : (s.setMark k b).hearth j = s.hearth j := rfl
@[simp] theorem setMark_pkg (b : Bool) : (s.setMark k b).pkg j = s.pkg j := rfl
@[simp] theorem setMark_cmd (b : Bool) : (s.setMark k b).cmd j = s.cmd j := rfl
@[simp] theorem setByte_byte (b : Byte) : (s.setByte k b).byte j = if j = k then b else s.byte j := by
  simp [State.setByte, State.byte]
@[simp] theorem setMark_mark (b : Bool) : (s.setMark k b).mark j = if j = k then b else s.mark j := by
  simp [State.setMark, State.mark]
@[simp] theorem setByte_mark (b : Byte) : (s.setByte k b).mark j = s.mark j := rfl
@[simp] theorem setMark_byte (b : Bool) : (s.setMark k b).byte j = s.byte j := rfl
@[simp] theorem bumpSeq_mem : (s.bumpSeq k).mem = s.mem := rfl
@[simp] theorem bumpSeq_marks : (s.bumpSeq k).marks = s.marks := rfl
@[simp] theorem bumpSeq_frags : (s.bumpSeq k).frags = s.frags := rfl
@[simp] theorem bumpSeq_hoists : (s.bumpSeq k).hoists = s.hoists := rfl
@[simp] theorem bumpSeq_casts : (s.bumpSeq k).casts = s.casts := rfl
@[simp] theorem bumpSeq_pours : (s.bumpSeq k).pours = s.pours := rfl
@[simp] theorem bumpSeq_cores : (s.bumpSeq k).cores = s.cores := rfl
@[simp] theorem bumpSeq_hearths : (s.bumpSeq k).hearths = s.hearths := rfl
@[simp] theorem bumpSeq_pkgs : (s.bumpSeq k).pkgs = s.pkgs := rfl
@[simp] theorem bumpSeq_cmds : (s.bumpSeq k).cmds = s.cmds := rfl
@[simp] theorem bumpSeq_net : (s.bumpSeq k).net = s.net := rfl
@[simp] theorem bumpSeq_sentCnt : (s.bumpSeq k).sentCnt = s.sentCnt := rfl
@[simp] theorem bumpSeq_recvCnt : (s.bumpSeq k).recvCnt = s.recvCnt := rfl
@[simp] theorem bumpSeq_unacked : (s.bumpSeq k).unacked = s.unacked := rfl
@[simp] theorem bumpSeq_oldSweep : (s.bumpSeq k).oldSweep = s.oldSweep := rfl
@[simp] theorem bumpSeq_nextFrag : (s.bumpSeq k).nextFrag = s.nextFrag := rfl
@[simp] theorem bumpSeq_nextPour : (s.bumpSeq k).nextPour = s.nextPour := rfl
@[simp] theorem bumpSeq_nextCmd : (s.bumpSeq k).nextCmd = s.nextCmd := rfl
@[simp] theorem bumpSeq_nextOrd : (s.bumpSeq k).nextOrd = s.nextOrd := rfl
@[simp] theorem bumpSeq_now : (s.bumpSeq k).now = s.now := rfl
@[simp] theorem bumpSeq_iss : (s.bumpSeq k).iss = s.iss := rfl
@[simp] theorem bumpSeq_agenda : (s.bumpSeq k).agenda = s.agenda := rfl
@[simp] theorem bumpSeq_late : (s.bumpSeq k).late = s.late := rfl

end Sys2Proof.Machine
end

