-- ==== Sys2Proof/Laws/Memory.lean ====
section
/-! SUPPORT. The laws of memory: what a read gives after a write, what a write leaves alone, and that every memory operation
keeps the canonical form. -/

namespace Sys2Proof.Machine

/-! ### One byte -/

@[simp] theorem byte_setByte (s : State) (a : Nat) (b : Byte) (c : Nat) :
    (s.setByte a b).byte c = if c = a then b else s.byte c := by
  simp [State.byte, State.setByte]

@[simp] theorem mark_setByte (s : State) (a : Nat) (b : Byte) (w : Nat) : (s.setByte a b).mark w = s.mark w := rfl

@[simp] theorem mark_setMark (s : State) (w : Nat) (p : Bool) (v : Nat) :
    (s.setMark w p).mark v = if v = w then p else s.mark v := by
  simp [State.mark, State.setMark]

@[simp] theorem byte_setMark (s : State) (w : Nat) (p : Bool) (c : Nat) : (s.setMark w p).byte c = s.byte c := rfl

/-! ### Several bytes -/

/-- A write of `n` bytes leaves every byte outside them. -/
theorem byte_writeLE_of_outside (n : Nat) : ∀ (s : State) (a v c : Nat), (c < a ∨ a + n ≤ c) →
    (s.writeLE a n v).byte c = s.byte c := by
  induction n with
  | zero => intros; rfl
  | succ n ih =>
    intro s a v c h
    rw [State.writeLE, ih _ _ _ _ (by omega), byte_setByte, if_neg (by omega)]

/-- A write of `n` bytes leaves the bytes of its value, the lowest first (R5). -/
theorem byte_writeLE (n : Nat) : ∀ (s : State) (a v k : Nat), k < n →
    (s.writeLE a n v).byte (a + k) = BitVec.ofNat 8 (v / 256 ^ k) := by
  induction n with
  | zero => intro _ _ _ k h; omega
  | succ n ih =>
    intro s a v k h
    rw [State.writeLE]
    cases k with
    | zero =>
      rw [byte_writeLE_of_outside _ _ _ _ _ (by omega)]
      simp
    | succ k =>
      have := ih (s.setByte a (BitVec.ofNat 8 v)) (a + 1) (v / 256) k (by omega)
      rw [show a + (k + 1) = a + 1 + k by omega, this, Nat.div_div_eq_div_mul, Nat.pow_succ, Nat.mul_comm 256]

@[simp] theorem mark_writeLE (n : Nat) : ∀ (s : State) (a v w : Nat), (s.writeLE a n v).mark w = s.mark w := by
  induction n with
  | zero => intros; rfl
  | succ n ih => intro s a v w; rw [State.writeLE, ih]; rfl

/-- What `n` bytes read depends on those bytes alone. -/
theorem readLE_congr (n : Nat) : ∀ (s t : State) (a : Nat), (∀ k, k < n → t.byte (a + k) = s.byte (a + k)) →
    t.readLE a n = s.readLE a n := by
  induction n with
  | zero => intros; rfl
  | succ n ih =>
    intro s t a h
    rw [State.readLE, State.readLE, show t.byte a = s.byte a from h 0 (by omega),
      ih s t (a + 1) fun k hk => by rw [show a + 1 + k = a + (k + 1) by omega]; exact h (k + 1) (by omega)]

/-- Reading back what has been written. -/
theorem readLE_writeLE (n : Nat) : ∀ (s : State) (a v : Nat), (s.writeLE a n v).readLE a n = v % 256 ^ n := by
  induction n with
  | zero => intro s a v; simp [State.readLE, Nat.mod_one]
  | succ n ih =>
    intro s a v
    rw [State.readLE, State.writeLE, ih, byte_writeLE_of_outside _ _ _ _ _ (by omega), byte_setByte, if_pos rfl]
    rw [Nat.pow_succ, Nat.mul_comm (256 ^ n) 256, Nat.mod_mul]
    simp

/-! ### The canonical form -/

theorem memOk_iff (s : State) : s.memOk = true ↔ Memory.wf s.mem = true ∧ Sparse.wf false s.marks = true := by
  simp [State.memOk]

/-- States with the same memory and the same marks keep the form together. -/
theorem memOk_congr {s t : State} (hm : t.mem = s.mem) (hk : t.marks = s.marks) : t.memOk = s.memOk := by
  simp [State.memOk, hm, hk]

theorem memOk_setByte (s : State) (a : Nat) (b : Byte) (h : s.memOk = true) : (s.setByte a b).memOk = true := by
  rw [memOk_iff] at *
  exact ⟨Sparse.wf_set 0 s.mem a b h.1, h.2⟩

theorem memOk_setMark (s : State) (w : Nat) (p : Bool) (h : s.memOk = true) : (s.setMark w p).memOk = true := by
  rw [memOk_iff] at *
  exact ⟨h.1, Sparse.wf_set false s.marks w p h.2⟩

theorem memOk_writeLE (n : Nat) : ∀ (s : State) (a v : Nat), s.memOk = true → (s.writeLE a n v).memOk = true := by
  induction n with
  | zero => intro s a v h; exact h
  | succ n ih => intro s a v h; exact ih _ _ _ (memOk_setByte s a _ h)

theorem memOk_setMarks (l : List Nat) (f : Nat → Bool) : ∀ s : State, s.memOk = true →
    (l.foldl (fun a w => a.setMark w (f w)) s).memOk = true := by
  induction l with
  | nil => intro s h; exact h
  | cons w t ih => intro s h; exact ih _ (memOk_setMark s w _ h)

@[simp] theorem memOk_wakeWaiters (s : State) (a n : Nat) : (s.wakeWaiters a n).memOk = s.memOk := by
  refine memOk_congr ?_ ?_ <;> rfl

/-- A write to memory keeps the canonical form. -/
theorem memOk_writeMem (s : State) (a n v : Nat) (p : Bool) (h : s.memOk = true) : (s.writeMem a n v p).memOk = true := by
  unfold State.writeMem
  rw [memOk_wakeWaiters]
  exact memOk_writeLE n _ a v (memOk_setMarks _ _ s h)

/-- A byte after a write to memory. -/
theorem byte_writeMem (s : State) (a n v : Nat) (p : Bool) (c : Nat) :
    (s.writeMem a n v p).byte c = (s.writeLE a n v).byte c := by
  have hm : ∀ (l : List Nat) (f : Nat → Bool) (t : State), (l.foldl (fun a w => a.setMark w (f w)) t).mem = t.mem := by
    intro l f
    induction l with
    | nil => intro t; rfl
    | cons w r ih => intro t; rw [List.foldl_cons, ih]; rfl
  have hw : ∀ t : State, (t.wakeWaiters a n).mem = t.mem := by
    intro t
    rfl
  have hl : ∀ (k : Nat) (x y : State) (b u : Nat), x.mem = y.mem → (x.writeLE b k u).mem = (y.writeLE b k u).mem := by
    intro k
    induction k with
    | zero => intro x y b u h; exact h
    | succ k ih => intro x y b u h; exact ih _ _ _ _ (by simp [State.setByte, h])
  unfold State.writeMem State.byte
  rw [hw, hl n _ s a v (hm _ _ s)]

/-- Zeroing DRAM keeps the canonical form (R430, R431). -/
theorem memOk_zeroDram (s : State) (pkg first : Nat) (h : s.memOk = true) : (s.zeroDram pkg first).memOk = true := by
  rw [memOk_iff] at *
  exact ⟨Sparse.wf_filter 0 s.mem _ h.1, Sparse.wf_filter false s.marks _ h.2⟩

/-- The state after reset has the canonical form. -/
theorem memOk_reset : State.reset.memOk = true := by decide

theorem memOk_setFrag (s : State) (f : Nat) (x : Frag) : (s.setFrag f x).memOk = s.memOk := rfl
theorem memOk_setHoist (s : State) (k : Nat) (x : Hoist) : (s.setHoist k x).memOk = s.memOk := rfl
theorem memOk_setCast (s : State) (k : Nat) (x : Cast) : (s.setCast k x).memOk = s.memOk := rfl
theorem memOk_setPour (s : State) (k : Nat) (x : Pour) : (s.setPour k x).memOk = s.memOk := rfl
theorem memOk_setCore (s : State) (k : Nat) (x : Core) : (s.setCore k x).memOk = s.memOk := rfl
theorem memOk_setHearth (s : State) (k : Nat) (x : Hearth) : (s.setHearth k x).memOk = s.memOk := rfl
theorem memOk_setPkg (s : State) (k : Nat) (x : Pkg) : (s.setPkg k x).memOk = s.memOk := rfl
theorem memOk_setCmd (s : State) (k : Nat) (x : Cmd) : (s.setCmd k x).memOk = s.memOk := rfl

/-- An error record keeps the form. -/
theorem memOk_record (s : State) (gh src cls ctx flags cnt addr detail : Nat) (h : s.memOk = true) :
    (s.record gh src cls ctx flags cnt addr detail).memOk = true := by
  unfold State.record State.modHearth
  rw [memOk_setHearth]
  apply memOk_writeMem
  split <;> exact h

/-- A trace record keeps the form. -/
theorem memOk_traceRecord (s : State) (gh src cls ctx addr detail : Nat) (h : s.memOk = true) :
    (s.traceRecord gh src cls ctx addr detail).memOk = true := by
  unfold State.traceRecord
  simp only
  split
  · exact h
  · unfold State.modHearth
    rw [memOk_setHearth]
    exact memOk_writeMem _ _ _ _ _ h

/-! ### Images in a parking area (R51, R404) -/

/-- A cleared range reads zero, and every other byte as before. -/
theorem byte_clearRange (s : State) (pa len a : Nat) :
    (s.clearRange pa len).byte a = if pa ≤ a ∧ a < pa + len then 0 else s.byte a := by
  unfold State.clearRange State.byte
  rw [Sparse.get_filter 0 s.mem (fun a => !decide (pa ≤ a ∧ a < pa + len)) a]
  by_cases h : pa ≤ a ∧ a < pa + len <;> simp [h]

/-- A cleared range has no marks, and every other word keeps its own. -/
theorem mark_clearRange (s : State) (pa len w : Nat) :
    (s.clearRange pa len).mark w = if pa ≤ 4 * w ∧ 4 * w < pa + len then false else s.mark w := by
  unfold State.clearRange State.mark
  rw [Sparse.get_filter false s.marks (fun w => !decide (pa ≤ 4 * w ∧ 4 * w < pa + len)) w]
  by_cases h : pa ≤ 4 * w ∧ 4 * w < pa + len <;> simp [h]

theorem memOk_clearRange (s : State) (pa len : Nat) (h : s.memOk = true) : (s.clearRange pa len).memOk = true := by
  rw [memOk_iff] at *
  exact ⟨Sparse.wf_filter 0 s.mem _ h.1, Sparse.wf_filter false s.marks _ h.2⟩

/-- The fields of an image leave every byte outside it. -/
theorem byte_putPieces (pa len : Nat) (ps : List Piece) : ∀ (s : State) (a : Nat), (a < pa ∨ pa + len ≤ a) →
    (s.putPieces pa len ps).byte a = s.byte a := by
  induction ps with
  | nil => intros; rfl
  | cons q t ih =>
    intro s a h
    rw [State.putPieces, List.foldl_cons, ← State.putPieces, ih _ _ h]
    split
    · rfl
    · exact byte_writeLE_of_outside _ _ _ _ _ (by omega)

theorem mark_putPieces (pa len : Nat) (ps : List Piece) : ∀ (s : State) (w : Nat),
    (s.putPieces pa len ps).mark w = s.mark w := by
  induction ps with
  | nil => intros; rfl
  | cons q t ih =>
    intro s w
    rw [State.putPieces, List.foldl_cons, ← State.putPieces, ih]
    split <;> simp

theorem memOk_putPieces (pa len : Nat) (ps : List Piece) : ∀ s : State, s.memOk = true →
    (s.putPieces pa len ps).memOk = true := by
  induction ps with
  | nil => intro s h; exact h
  | cons q t ih =>
    intro s h
    rw [State.putPieces, List.foldl_cons, ← State.putPieces]
    apply ih
    split
    · exact h
    · exact memOk_writeLE _ _ _ _ h

/-- Where an image goes lies in the parking area of its hearth, apart from every image that stands there. -/
theorem spot_inside {s : State} {gh len pa : Nat} (h : s.spot gh len = some pa) :
    parkingBase gh ≤ pa ∧ pa + len ≤ parkingBase gh + parkingArea ∧ ∀ m ∈ (s.hearth gh).images, m.apart pa len = true := by
  have hmin : ∀ (l : List Nat) (a : Nat), l.foldl min a = a ∨ l.foldl min a ∈ l := by
    intro l
    induction l with
    | nil => intro a; exact .inl rfl
    | cons b t ih =>
      intro a
      rw [List.foldl_cons]
      rcases ih (min a b) with e | e
      · rcases Nat.le_total a b with hab | hab
        · left; rw [e]; exact Nat.min_eq_left hab
        · right; rw [e, Nat.min_eq_right hab]; exact List.mem_cons_self
      · exact .inr (List.mem_cons_of_mem _ e)
  unfold State.spot at h
  simp only at h
  generalize hl : List.filter _ _ = l at h
  cases l with
  | nil => simp [lowest] at h
  | cons a t =>
    simp only [lowest, Option.some.injEq] at h
    have hm : pa ∈ a :: t := by
      rcases hmin t a with e | e
      · rw [← h, e]; exact List.mem_cons_self
      · rw [← h]; exact List.mem_cons_of_mem _ e
    rw [← hl, List.mem_filter] at hm
    have h2 := hm.2
    simp only [Bool.and_eq_true, decide_eq_true_eq, List.all_eq_true] at h2
    exact ⟨h2.1.1, h2.1.2, h2.2⟩

theorem memOk_modHearth (s : State) (gh : Nat) (f : Hearth → Hearth) : (s.modHearth gh f).memOk = s.memOk := rfl
theorem byte_modHearth (s : State) (gh : Nat) (f : Hearth → Hearth) (a : Nat) : (s.modHearth gh f).byte a = s.byte a := rfl
theorem mark_modHearth (s : State) (gh : Nat) (f : Hearth → Hearth) (w : Nat) : (s.modHearth gh f).mark w = s.mark w := rfl

/-- Writing an image keeps the canonical form. -/
theorem memOk_putImage (s : State) (gh : Nat) (o : ImgOwner) (len : Nat) (ps : List Piece) (h : s.memOk = true) :
    (s.putImage gh o len ps).memOk = true := by
  unfold State.putImage
  generalize s.spot gh len = r
  cases r with
  | none => exact h
  | some pa =>
    simp only
    rw [memOk_modHearth]
    exact memOk_putPieces _ _ _ _ (memOk_clearRange _ _ _ h)

/-- Writing an image leaves every byte and every mark outside the parking area of its hearth. -/
theorem putImage_outside (s : State) (gh : Nat) (o : ImgOwner) (len : Nat) (ps : List Piece) :
    (∀ a, (a < parkingBase gh ∨ parkingBase gh + parkingArea ≤ a) → (s.putImage gh o len ps).byte a = s.byte a) ∧
    (∀ w, (4 * w < parkingBase gh ∨ parkingBase gh + parkingArea ≤ 4 * w) → (s.putImage gh o len ps).mark w = s.mark w) := by
  have key := fun pa => @spot_inside s gh len pa
  unfold State.putImage
  generalize s.spot gh len = r at *
  generalize parkingBase gh = b at *
  generalize parkingArea = n at *
  cases r with
  | none => exact ⟨fun _ _ => rfl, fun _ _ => rfl⟩
  | some pa =>
    obtain ⟨h1, h2, -⟩ := key pa rfl
    simp only
    constructor
    · intro a ha
      rw [byte_modHearth, byte_putPieces _ _ _ _ _ (by omega), byte_clearRange, if_neg (by omega)]
    · intro w hw
      rw [mark_modHearth, mark_putPieces, mark_clearRange, if_neg (by omega)]

end Sys2Proof.Machine
end

