-- ==== Sys2Proof/Laws/Ops.lean ====
section
/-! SUPPORT. What the shared operations of the lane-by-lane instructions do: the checks pass exactly when the sources can be
read and the destinations written, a finished instruction leaves its results in its destination, and everything else
stays. -/

namespace Sys2Proof.Machine

open Sys2Proof.Claims

/-! ### Checks -/

theorem guardStop_false (st : Stop) : guardStop false st = .ok () := rfl

theorem checkEmpty_ok (i : Ix) (us : List Use) (h : ∀ u ∈ us, i.isEmpty u.o u.n = false) : i.checkEmpty us = .ok () := by
  induction us with
  | nil => rfl
  | cons u t ih =>
    simp only [Ix.checkEmpty, h u (by simp), Bool.false_eq_true, if_false]
    exact ih fun v hv => h v (by simp [hv])

theorem orLanes_zero (i : Ix) (us : List Use) (m : LaneMask) (h : ∀ u ∈ us, i.poisonLanes u.o u.n m = 0) :
    us.foldl (fun a u => a ||| i.poisonLanes u.o u.n m) 0 = 0 := by
  induction us with
  | nil => rfl
  | cons u t ih =>
    simp only [List.foldl_cons, h u (by simp)]
    exact ih fun v hv => h v (by simp [hv])

/-- The sources can be read: the checks pass. -/
theorem checkSources_ok (i : Ix) (us : List Use) (rd : LaneMask) (h : Readable i us rd) : i.checkSources us rd = .ok () := by
  unfold Ix.checkSources
  rw [checkEmpty_ok i us h.full]
  have h1 : (i.s.debug i.x && us.any fun u => i.anyReg i.x.vabsent i.x.sabsent u.o u.n) = false := by
    cases hd : i.s.debug i.x
    · rfl
    · simpa using h.known hd
  have h2 : ((i.s.trapEnt i.x).tpoison && decide (us.foldl (fun a u => a ||| i.poisonLanes u.o u.n rd) 0 ≠ 0)) = false := by
    cases hp : (i.s.trapEnt i.x).tpoison
    · rfl
    · simpa using orLanes_zero i us rd (h.clean hp)
  simp only [h1, h2, guardStop_false, bind, Except.bind]

theorem checkDests_ok (i : Ix) (d : Opnd) (n : Nat) (h : i.isEmpty d n = false) : i.checkDests [(d, n)] = .ok () := by
  simp [Ix.checkDests, h, guardStop]

theorem maskHome_ok (i : Ix) (d : Opnd) (n : Nat) (h : Writable i d n) : i.maskHome d = .ok () := by
  unfold Ix.maskHome
  split
  · rename_i k
    have := h.home k rfl
    cases hs : i.h.split
    · simp
    · simp [Ix.needAnchor, this hs]
  · rfl

/-- An instruction with a guard-true lane and a body that succeeds. -/
theorem run_ok (i : Ix) (s : State) (h : i.g ≠ 0) : i.run (.ok s) = s := by
  unfold Ix.run
  rw [if_neg h]

/-- A lane-by-lane instruction that may take effect. -/
theorem alu_ok (i : Ix) (hd : Hdr) (o : Ops) (wa wb wc : Wd) (t : Ty) (f : DWord → DWord → DWord → DWord)
    (h : Able i (uses3 hd o wa wb wc) o.d (Ty.regs t)) :
    i.alu hd o wa wb wc t f = i.finish o.d t (i.map3 o wa wb wc f) := by
  unfold Ix.alu
  have h1 : i.checkSources (i.uses hd o wa wb wc) i.g = .ok () := checkSources_ok i _ _ h.reads
  simp only [h1, checkDests_ok i o.d _ h.dest.full, maskHome_ok i o.d _ h.dest, bind, Except.bind, pure, Except.pure]
  exact run_ok i _ h.lanes

/-! ### Going on -/

/-- What going on changes: the frontier and the repeat state of the fragment, and nothing else of it. -/
theorem complete_rest (x : Frag) (prio : BitVec 8) (pc next : DWord) (m : LaneMask) :
    { x.complete prio pc next m with
        entries := x.entries, atEnd := x.atEnd, rep := x.rep, repc := x.repc } = x := by
  unfold Frag.complete
  split
  · split
    · rfl
    · unfold Frag.goNext Frag.take
      split
      · split <;> rfl
      · rfl
  · unfold Frag.goNext Frag.take
    split
    · split <;> rfl
    · rfl

theorem complete_sregs (x : Frag) (prio : BitVec 8) (pc next : DWord) (m : LaneMask) :
    (x.complete prio pc next m).sregs = x.sregs := by
  have h := congrArg Frag.sregs (complete_rest x prio pc next m)
  exact h

theorem complete_spoison (x : Frag) (prio : BitVec 8) (pc next : DWord) (m : LaneMask) :
    (x.complete prio pc next m).spoison = x.spoison := by
  have h := congrArg Frag.spoison (complete_rest x prio pc next m)
  exact h

theorem complete_vabsent (x : Frag) (prio : BitVec 8) (pc next : DWord) (m : LaneMask) :
    (x.complete prio pc next m).vabsent = x.vabsent := by
  have h := congrArg Frag.vabsent (complete_rest x prio pc next m)
  exact h

theorem complete_sabsent (x : Frag) (prio : BitVec 8) (pc next : DWord) (m : LaneMask) :
    (x.complete prio pc next m).sabsent = x.sabsent := by
  have h := congrArg Frag.sabsent (complete_rest x prio pc next m)
  exact h

/-! ### Lanes -/

theorem mem_lanesOf (m : LaneMask) (l : Nat) : l ∈ lanesOf m ↔ m.getLsbD l = true := by
  simp only [lanesOf, List.mem_filter, List.mem_range]
  constructor
  · exact fun h => h.2
  · intro h
    refine ⟨?_, h⟩
    by_contra hc
    rw [BitVec.getLsbD_of_ge m l (by omega)] at h
    exact absurd h (by simp)

theorem lanesOf_ne_nil (m : LaneMask) (h : m ≠ 0) : lanesOf m ≠ [] := by
  intro hn
  apply h
  apply BitVec.eq_of_getLsbD_eq
  intro l _
  have : l ∉ lanesOf m := by simp [hn]
  rw [mem_lanesOf] at this
  simpa using this

theorem lanesOf_eq_cons (m : LaneMask) (h : m ≠ 0) : ∃ t, lanesOf m = lowestLane m :: t := by
  cases hl : lanesOf m with
  | nil => exact absurd hl (lanesOf_ne_nil m h)
  | cons a t => exact ⟨t, by simp [lowestLane, hl]⟩

theorem maskOf_getLsbD (p : Nat → Bool) (l : Nat) (hl : l < 32) : (maskOf p).getLsbD l = p l := by
  have key : ∀ n, (List.range n).foldl (fun a l => if p l then a + 2 ^ l else a) 0 < 2 ^ n ∧
      ∀ l, l < n → ((List.range n).foldl (fun a l => if p l then a + 2 ^ l else a) 0).testBit l = p l := by
    intro n
    induction n with
    | zero => simp
    | succ n ih =>
      rw [List.range_succ, List.foldl_append]
      simp only [List.foldl_cons, List.foldl_nil]
      refine ⟨?_, ?_⟩
      · split <;> (rw [Nat.pow_succ]; omega)
      · intro l hl
        by_cases h : l < n
        · split
          · rw [Nat.add_comm, Nat.testBit_two_pow_add_gt h]
            exact ih.2 l h
          · exact ih.2 l h
        · have hln : l = n := by omega
          subst hln
          split
          · rename_i hp
            rw [Nat.add_comm, Nat.testBit_two_pow_add_eq, Nat.testBit_lt_two_pow ih.1, hp]
            rfl
          · rename_i hp
            rw [Nat.testBit_lt_two_pow ih.1]
            simpa using hp
  unfold maskOf
  rw [BitVec.getLsbD_ofNat]
  simp [hl, (key 32).2 l hl]

theorem getLsbD_bit (w k j : Nat) (hk : k < w) : (BitVec.ofNat w (2 ^ k)).getLsbD j = decide (j = k) := by
  rw [BitVec.getLsbD_ofNat, Nat.testBit_two_pow]
  by_cases h : j = k
  · subst h; simp [hk]
  · simp [h, Ne.symm h]

/-! ### Elements -/

theorem key_inj (a b l m : Nat) (hl : l < 32) (hm : m < 32) : 32 * a + l = 32 * b + m ↔ a = b ∧ l = m := by omega

theorem setElem_elem (h : Hoist) (a b l m : Nat) (w : Word) (p : Bool) (hl : l < 32) (hm : m < 32) :
    (h.setElem a l w p).elem b m = if b = a ∧ m = l then w else h.elem b m := by
  simp only [Hoist.setElem, Hoist.elem, Sparse.get_set, key_inj b a m l hm hl]

theorem setElem_mark (h : Hoist) (a b l m : Nat) (w : Word) (p : Bool) (hl : l < 32) (hm : m < 32) :
    (h.setElem a l w p).elemMark b m = if b = a ∧ m = l then p else h.elemMark b m := by
  simp only [Hoist.setElem, Hoist.elemMark, Sparse.get_set, key_inj b a m l hm hl]

/-- One lane is written: the element or the pair, and nothing else of the hoist. -/
theorem writeLane_elem (h : Hoist) (a b l m : Nat) (t : Ty) (v : Val) (hl : l < 32) (hm : m < 32) :
    (h.writeLane a t l v).elem b m =
      if m = l ∧ b = a then (if t.wide then v.bits.setWidth 32 else ext32 t v.bits)
      else if m = l ∧ b = a + 1 ∧ t.wide = true then v.bits.extractLsb' 32 32
      else h.elem b m := by
  unfold Hoist.writeLane
  cases t.wide
  · simp only [Bool.false_eq_true, if_false, setElem_elem _ _ _ _ _ _ _ hl hm, and_false]
    by_cases h1 : m = l <;> by_cases h2 : b = a <;> simp [h1, h2]
  · simp only [if_true, setElem_elem _ _ _ _ _ _ _ hl hm, and_true]
    by_cases h1 : m = l <;> by_cases h2 : b = a <;> by_cases h3 : b = a + 1 <;> simp [h1, h2, h3]

theorem writeLane_mark (h : Hoist) (a b l m : Nat) (t : Ty) (v : Val) (hl : l < 32) (hm : m < 32) :
    (h.writeLane a t l v).elemMark b m =
      if m = l ∧ b = a then (if t.wide then v.lo else v.poison)
      else if m = l ∧ b = a + 1 ∧ t.wide = true then v.hi else h.elemMark b m := by
  unfold Hoist.writeLane
  cases t.wide
  · simp only [Bool.false_eq_true, if_false, setElem_mark _ _ _ _ _ _ _ hl hm, and_false]
    by_cases h1 : m = l <;> by_cases h2 : b = a <;> simp [h1, h2]
  · simp only [if_true, setElem_mark _ _ _ _ _ _ _ hl hm, and_true]
    by_cases h1 : m = l <;> by_cases h2 : b = a <;> by_cases h3 : b = a + 1 <;> simp [h1, h2, h3]

theorem writeLane_rest (h : Hoist) (a l : Nat) (t : Ty) (v : Val) :
    { h.writeLane a t l v with vregs := h.vregs, vpoison := h.vpoison } = h := by
  unfold Hoist.writeLane
  split <;> rfl

/-- The lanes of a list that are written one after another, with the results of a function of the lane. -/
theorem writeLanes_elem (a : Nat) (t : Ty) (r : Nat → Val) (ls : List Nat) (hls : ∀ l ∈ ls, l < 32) (h : Hoist) (b m : Nat)
    (hm : m < 32) :
    ((ls.map fun l => (l, r l)).foldl (fun (h : Hoist) p => h.writeLane a t p.1 p.2) h).elem b m =
      if m ∈ ls ∧ b = a then (if t.wide then (r m).bits.setWidth 32 else ext32 t (r m).bits)
      else if m ∈ ls ∧ b = a + 1 ∧ t.wide = true then (r m).bits.extractLsb' 32 32
      else h.elem b m := by
  induction ls generalizing h with
  | nil => simp
  | cons l ls ih =>
    simp only [List.map_cons, List.foldl_cons]
    rw [ih (fun x hx => hls x (by simp [hx])), writeLane_elem _ _ _ _ _ _ _ (hls l (by simp)) hm]
    by_cases h1 : m = l
    · subst h1
      by_cases h2 : m ∈ ls <;> by_cases h3 : b = a <;> by_cases h4 : b = a + 1 <;> cases hw : t.wide <;>
        simp [h2, h3, h4]
    · simp [h1]

theorem writeLanes_mark (a : Nat) (t : Ty) (r : Nat → Val) (ls : List Nat) (hls : ∀ l ∈ ls, l < 32) (h : Hoist) (b m : Nat)
    (hm : m < 32) :
    ((ls.map fun l => (l, r l)).foldl (fun (h : Hoist) p => h.writeLane a t p.1 p.2) h).elemMark b m =
      if m ∈ ls ∧ b = a then (if t.wide then (r m).lo else (r m).poison)
      else if m ∈ ls ∧ b = a + 1 ∧ t.wide = true then (r m).hi else h.elemMark b m := by
  induction ls generalizing h with
  | nil => simp
  | cons l ls ih =>
    simp only [List.map_cons, List.foldl_cons]
    rw [ih (fun x hx => hls x (by simp [hx])), writeLane_mark _ _ _ _ _ _ _ (hls l (by simp)) hm]
    by_cases h1 : m = l
    · subst h1
      by_cases h2 : m ∈ ls <;> by_cases h3 : b = a <;> by_cases h4 : b = a + 1 <;> cases hw : t.wide <;>
        simp [h2, h3, h4]
    · simp [h1]

theorem writeLanes_rest (a : Nat) (t : Ty) (rs : List (Nat × Val)) (h : Hoist) :
    { rs.foldl (fun (h : Hoist) p => h.writeLane a t p.1 p.2) h with vregs := h.vregs, vpoison := h.vpoison } = h := by
  induction rs generalizing h with
  | nil => rfl
  | cons p rs ih =>
    have h1 := ih (h.writeLane a t p.1 p.2)
    have h2 := writeLane_rest h a p.1 t p.2
    simp only [List.foldl_cons]
    generalize rs.foldl (fun (h : Hoist) p => h.writeLane a t p.1 p.2) (h.writeLane a t p.1 p.2) = y at *
    cases y
    cases h
    generalize Hoist.writeLane _ a t p.1 p.2 = z at *
    cases z
    simp_all

theorem writeLanes_pred (a : Nat) (t : Ty) (rs : List (Nat × Val)) (h : Hoist) (q : BitVec 4) :
    (rs.foldl (fun (h : Hoist) p => h.writeLane a t p.1 p.2) h).pred q = h.pred q := by
  have h1 := congrArg Hoist.preds (writeLanes_rest a t rs h)
  unfold Hoist.pred
  split
  · rfl
  · exact congrArg (fun x => Sparse.get 0 x q.toNat) h1

theorem setPred_pred (h : Hoist) (p q : BitVec 4) (m b : LaneMask) :
    (h.setPred p m b).pred q = if q = p ∧ p ≠ 0 then (h.pred p &&& ~~~m) ||| (b &&& m) else h.pred q := by
  unfold Hoist.setPred
  by_cases hp : p = 0
  · simp [hp]
  · simp only [hp, if_false, ne_eq, not_false_eq_true, and_true]
    by_cases hq : q = p
    · subst hq
      rw [if_pos rfl]
      conv_lhs => rw [Hoist.pred, if_neg hp]
      rw [Sparse.get_set, if_pos rfl]
    · have hne : q.toNat ≠ p.toNat := fun hc => hq (BitVec.eq_of_toNat_eq hc)
      simp [Hoist.pred, hq, hne]

theorem setPred_rest (h : Hoist) (p : BitVec 4) (m b : LaneMask) :
    { h.setPred p m b with preds := h.preds, pmarks := h.pmarks } = h := by
  unfold Hoist.setPred
  split <;> rfl

theorem getLsbD_clear (v : BitVec 16) (k j : BitVec 4) (h : j ≠ k) :
    (v &&& ~~~(BitVec.ofNat 16 (2 ^ k.toNat))).getLsbD j.toNat = v.getLsbD j.toNat := by
  have hk : k.toNat < 16 := k.isLt
  have hj : j.toNat < 16 := j.isLt
  have hne : j.toNat ≠ k.toNat := fun hc => h (BitVec.eq_of_toNat_eq hc)
  rw [BitVec.getLsbD_and, BitVec.getLsbD_not, getLsbD_bit 16 _ _ hk]
  simp [hj, hne]

theorem setPred_bits (h : Hoist) (p q : BitVec 4) (m b : LaneMask) (hq : q ≠ p) :
    (h.setPred p m b).pmarks.getLsbD q.toNat = h.pmarks.getLsbD q.toNat := by
  unfold Hoist.setPred
  split
  · rfl
  · dsimp only
    split
    · exact getLsbD_clear _ _ _ hq
    · rfl

theorem setMask_bits (h : Hoist) (p q : BitVec 4) (m : LaneMask) (hq : q ≠ p) :
    (h.setMask p m).mmarks.getLsbD q.toNat = h.mmarks.getLsbD q.toNat := getLsbD_clear _ _ _ hq

theorem setPred_elem (h : Hoist) (p : BitVec 4) (m b : LaneMask) (a l : Nat) : (h.setPred p m b).elem a l = h.elem a l := by
  have h1 := congrArg Hoist.vregs (setPred_rest h p m b)
  exact congrArg (fun x => Sparse.get 0 x (32 * a + l)) h1

theorem setPred_mark (h : Hoist) (p : BitVec 4) (m b : LaneMask) (a l : Nat) :
    (h.setPred p m b).elemMark a l = h.elemMark a l := by
  have h1 := congrArg Hoist.vpoison (setPred_rest h p m b)
  exact congrArg (fun x => Sparse.get false x (32 * a + l)) h1

/-! ### A finished instruction -/

/-- The issue stands in its state: its fragment and hoist are the state's. -/
structure Ix.Stands (i : Ix) : Prop where
  frag  : i.x = i.s.frag i.f
  hoist : i.h = i.s.hoist i.x.hoist

theorem of_stands (s : State) (hd : Hdr) : (Ix.of s hd).Stands := ⟨rfl, rfl⟩

@[simp] theorem countUse_hoist (i : Ix) (b : Bool) (s : State) (k : Nat) : (i.countUse b s).hoist k = s.hoist k := by
  unfold Ix.countUse; split <;> rfl

@[simp] theorem countUse_frag (i : Ix) (b : Bool) (s : State) (k : Nat) : (i.countUse b s).frag k = s.frag k := by
  unfold Ix.countUse; split <;> rfl

theorem countUse_core (i : Ix) (b : Bool) (s : State) (c : Nat) :
    { (i.countUse b s).core c with counters := (s.core c).counters } = s.core c := by
  unfold Ix.countUse State.countCore
  split
  · rw [modCore_core]
    split
    · rename_i h; subst h; rfl
    · rfl
  · rfl

theorem countUse_rest (i : Ix) (b : Bool) (s : State) : { i.countUse b s with cores := s.cores } = s := by
  unfold Ix.countUse; split <;> rfl

theorem done_hoist (i : Ix) (s : State) (k : Nat) : (i.done s).hoist k = s.hoist k := rfl

theorem done_frag (i : Ix) (s : State) (f : Nat) :
    (i.done s).frag f = if f = i.f then (s.frag i.f).complete i.e.prio i.e.pc i.next i.e.mask else s.frag f := by
  unfold Ix.done; rw [modFrag_frag]

theorem finish_hoist (i : Ix) (d : Opnd) (t : Ty) (rs : List (Nat × Val)) (k : Nat) :
    (i.finish d t rs).hoist k = (i.write i.s d t rs).hoist k := by
  unfold Ix.finish; rw [done_hoist, countUse_hoist]

theorem finish_frag (i : Ix) (d : Opnd) (t : Ty) (rs : List (Nat × Val)) (f : Nat) :
    (i.finish d t rs).frag f =
      if f = i.f then ((i.write i.s d t rs).frag i.f).complete i.e.prio i.e.pc i.next i.e.mask
      else (i.write i.s d t rs).frag f := by
  unfold Ix.finish; rw [done_frag, countUse_frag, countUse_frag]

/-- A write touches the issuing fragment and its hoist, and nothing else. -/
theorem write_rest (i : Ix) (s : State) (d : Opnd) (t : Ty) (rs : List (Nat × Val)) :
    { i.write s d t rs with frags := s.frags, hoists := s.hoists } = s ∧
    (∀ f, f ≠ i.f → (i.write s d t rs).frag f = s.frag f) ∧
    (∀ k, k ≠ i.x.hoist → (i.write s d t rs).hoist k = s.hoist k) := by
  unfold Ix.write
  split
  · refine ⟨rfl, fun f hf => ?_, fun k hk => ?_⟩
    · simp [hf]
    · simp [hk]
  · split
    · exact ⟨rfl, fun _ _ => rfl, fun _ _ => rfl⟩
    · exact ⟨rfl, fun f hf => by simp [hf], fun _ _ => rfl⟩
  · exact ⟨rfl, fun _ _ => rfl, fun k hk => by simp [hk]⟩
  · split
    · exact ⟨rfl, fun _ _ => rfl, fun _ _ => rfl⟩
    · exact ⟨rfl, fun _ _ => rfl, fun k hk => by simp [hk]⟩
  · exact ⟨rfl, fun _ _ => rfl, fun _ _ => rfl⟩

/-- What a write changes of its fragment: a scalar register and absent marks. -/
theorem write_frag (i : Ix) (s : State) (d : Opnd) (t : Ty) (rs : List (Nat × Val)) :
    { (i.write s d t rs).frag i.f with
        sregs := (s.frag i.f).sregs, spoison := (s.frag i.f).spoison, vabsent := (s.frag i.f).vabsent,
        sabsent := (s.frag i.f).sabsent } = s.frag i.f := by
  unfold Ix.write
  split
  · simp
  · split
    · rfl
    · simp
  · rfl
  · split <;> rfl
  · rfl

theorem hoist_loose_elems (h g : Hoist) (e : { g with vregs := h.vregs, vpoison := h.vpoison } = h) :
    { g with vregs := h.vregs, vpoison := h.vpoison, preds := h.preds, masks := h.masks, pmarks := h.pmarks,
             mmarks := h.mmarks } = h := by
  cases g; cases h; simp_all

theorem hoist_loose_preds (h g : Hoist) (e : { g with preds := h.preds, pmarks := h.pmarks } = h) :
    { g with vregs := h.vregs, vpoison := h.vpoison, preds := h.preds, masks := h.masks, pmarks := h.pmarks,
             mmarks := h.mmarks } = h := by
  cases g; cases h; simp_all

/-- What a write changes of its hoist: elements, predicates and masks, and the marks of the words of both. -/
theorem write_hoist (i : Ix) (s : State) (d : Opnd) (t : Ty) (rs : List (Nat × Val)) :
    { (i.write s d t rs).hoist i.x.hoist with
        vregs := (s.hoist i.x.hoist).vregs, vpoison := (s.hoist i.x.hoist).vpoison,
        preds := (s.hoist i.x.hoist).preds, masks := (s.hoist i.x.hoist).masks,
        pmarks := (s.hoist i.x.hoist).pmarks, mmarks := (s.hoist i.x.hoist).mmarks } = s.hoist i.x.hoist := by
  unfold Ix.write
  split
  · rename_i r
    simp only [modFrag_hoist, modHoist_hoist, if_true]
    exact hoist_loose_elems _ _ (writeLanes_rest (i.areg r.toNat) t rs (s.hoist i.x.hoist))
  · split <;> rfl
  · rename_i q
    simp only [modHoist_hoist, if_true]
    exact hoist_loose_preds _ _ (setPred_rest (s.hoist i.x.hoist) q _ _)
  · split
    · rfl
    · simp [Hoist.setMask]
  · rfl

/-- Marks of predicate and mask words that a write does not name are as before. -/
theorem write_bits (i : Ix) (s : State) (d : Opnd) (t : Ty) (rs : List (Nat × Val)) (q : BitVec 4) :
    (d ≠ .p q → ((i.write s d t rs).hoist i.x.hoist).pmarks.getLsbD q.toNat = (s.hoist i.x.hoist).pmarks.getLsbD q.toNat) ∧
    (d ≠ .m q → ((i.write s d t rs).hoist i.x.hoist).mmarks.getLsbD q.toNat = (s.hoist i.x.hoist).mmarks.getLsbD q.toNat) := by
  unfold Ix.write
  cases d with
  | v r =>
    have h1 := congrArg Hoist.pmarks (writeLanes_rest (i.areg r.toNat) t rs (s.hoist i.x.hoist))
    have h2 := congrArg Hoist.mmarks (writeLanes_rest (i.areg r.toNat) t rs (s.hoist i.x.hoist))
    simp only [modFrag_hoist, modHoist_hoist, if_true]
    exact ⟨fun _ => congrArg (fun x => x.getLsbD q.toNat) h1, fun _ => congrArg (fun x => x.getLsbD q.toNat) h2⟩
  | s r => cases rs <;> exact ⟨fun _ => rfl, fun _ => rfl⟩
  | p r =>
    simp only [modHoist_hoist, if_true]
    refine ⟨fun h => setPred_bits _ _ _ _ _ fun hc => h (by rw [hc]), fun _ => ?_⟩
    have h1 := congrArg Hoist.mmarks (setPred_rest (s.hoist i.x.hoist) r (maskOf fun l => rs.any fun p => decide (p.1 = l))
      (maskOf fun l => rs.any fun p => decide (p.1 = l) && p.2.bits.getLsbD 0))
    exact congrArg (fun x => x.getLsbD q.toNat) h1
  | m r =>
    cases rs with
    | nil => exact ⟨fun _ => rfl, fun _ => rfl⟩
    | cons p rs =>
      simp only [modHoist_hoist, if_true]
      exact ⟨fun _ => rfl, fun h => setMask_bits _ _ _ _ fun hc => h (by rw [hc])⟩
  | _ => exact ⟨fun _ => rfl, fun _ => rfl⟩

/-- The results of a write, as the destination holds them. -/
theorem write_gets (i : Ix) (d : Opnd) (t : Ty) (r : Nat → Val) (hg : i.g ≠ 0) :
    Gets (i.write i.s d t ((lanesOf i.g).map fun l => (l, r l))) i d t r := by
  obtain ⟨rest, hl⟩ := lanesOf_eq_cons i.g hg
  have hlt : ∀ l, i.g.getLsbD l = true → l < 32 := by
    intro l h
    by_contra hc
    rw [BitVec.getLsbD_of_ge i.g l (by omega)] at h
    exact absurd h (by simp)
  have hls : ∀ l ∈ lanesOf i.g, l < 32 := fun l h => hlt l ((mem_lanesOf i.g l).1 h)
  have hany : ∀ (l : Nat) (f : Nat × Val → Bool), i.g.getLsbD l = true →
      (((lanesOf i.g).map fun l => (l, r l)).any fun p => decide (p.1 = l) && f p) = f (l, r l) := by
    intro l f h
    have hm := (mem_lanesOf i.g l).2 h
    cases hf : f (l, r l)
    · rw [Bool.eq_false_iff]
      intro hc
      rw [List.any_eq_true] at hc
      obtain ⟨p, hp, hq⟩ := hc
      obtain ⟨m, _, rfl⟩ := List.mem_map.1 hp
      simp only [Bool.and_eq_true, decide_eq_true_eq] at hq
      obtain ⟨rfl, hq⟩ := hq
      rw [hf] at hq
      exact absurd hq (by simp)
    · rw [List.any_eq_true]
      exact ⟨(l, r l), List.mem_map.2 ⟨l, hm, rfl⟩, by simp [hf]⟩
  unfold Gets Ix.write
  cases d with
  | v q =>
    intro l h
    have hm := (mem_lanesOf i.g l).2 h
    simp only [modFrag_hoist, modHoist_hoist, if_true]
    cases hw : t.wide
    · simp [writeLanes_elem _ _ _ _ hls _ _ _ (hlt l h), writeLanes_mark _ _ _ _ hls _ _ _ (hlt l h), hm, hw]
    · simp [writeLanes_elem _ _ _ _ hls _ _ _ (hlt l h), writeLanes_mark _ _ _ _ hls _ _ _ (hlt l h), hm, hw]
  | s q =>
    rw [hl]
    simp only [List.map_cons, modFrag_frag, if_true, Frag.sreg, Sparse.get_set]
    refine ⟨trivial, ?_⟩
    have h64 : q.toNat < 64 := q.isLt
    have e : (BitVec.ofNat 64 (2 ^ q.toNat)).getLsbD q.toNat = true := by rw [getLsbD_bit 64 _ _ h64]; simp
    cases (r (lowestLane i.g)).poison
    · simp only [Bool.false_eq_true, if_false, BitVec.getLsbD_and, BitVec.getLsbD_not, e, Bool.not_true, Bool.and_false]
    · simp only [if_true, BitVec.getLsbD_or, e, Bool.or_true]
  | p q =>
    intro hq l h
    have h1 := hany l (fun p => p.2.bits.getLsbD 0) h
    have h2 := hany l (fun _ => true) h
    simp only [modHoist_hoist, if_true, setPred_pred, hq, ne_eq, not_false_eq_true, and_self, BitVec.getLsbD_or,
      BitVec.getLsbD_and, BitVec.getLsbD_not, maskOf_getLsbD _ _ (hlt l h), h1]
    simp only [Bool.and_true] at h2
    simp [h2, hlt l h]
  | m q =>
    rw [hl]
    simp [Hoist.setMask]
  | _ => trivial

/-- A finished instruction's destination holds its results. -/
theorem finish_gets (i : Ix) (d : Opnd) (t : Ty) (r : Nat → Val) (hg : i.g ≠ 0) :
    Gets (i.finish d t ((lanesOf i.g).map fun l => (l, r l))) i d t r := by
  have h := write_gets i d t r hg
  unfold Gets at *
  cases d with
  | v q => intro l hl; simpa only [finish_hoist] using h l hl
  | s q =>
    simp only [finish_frag, if_true, Frag.sreg, complete_sregs, complete_spoison] at *
    exact h
  | p q => intro hq l hl; simpa only [finish_hoist] using h hq l hl
  | m q => simpa only [finish_hoist] using h
  | _ => trivial

/-! ### The frame of a finished instruction -/

theorem frag_loose (x y z : Frag) (e1 : { y with entries := x.entries, atEnd := x.atEnd, rep := x.rep, repc := x.repc } = x)
    (e2 : { x with sregs := z.sregs, spoison := z.spoison, vabsent := z.vabsent, sabsent := z.sabsent } = z) :
    { y with entries := z.entries, atEnd := z.atEnd, rep := z.rep, repc := z.repc, sregs := z.sregs, spoison := z.spoison,
             vabsent := z.vabsent, sabsent := z.sabsent } = z := by
  cases x; cases y; cases z; simp_all

theorem maskOf_any (i : Ix) (r : Nat → Val) (l : Nat) (hl : l < 32) :
    (maskOf fun l => ((lanesOf i.g).map fun l => (l, r l)).any fun p => decide (p.1 = l)).getLsbD l = i.g.getLsbD l := by
  rw [maskOf_getLsbD _ _ hl]
  by_cases h : i.g.getLsbD l = true
  · have hm := (mem_lanesOf i.g l).2 h
    rw [h, List.any_eq_true]
    exact ⟨(l, r l), List.mem_map.2 ⟨l, hm, rfl⟩, by simp⟩
  · have hm : l ∉ lanesOf i.g := fun hc => h ((mem_lanesOf i.g l).1 hc)
    simp only [Bool.not_eq_true] at h
    rw [h, List.any_eq_false]
    intro p hp
    obtain ⟨m, hm2, rfl⟩ := List.mem_map.1 hp
    simp only [decide_eq_true_eq]
    rintro rfl
    exact hm hm2

/-- Scalars that a write does not name are as before. -/
theorem write_sregs (i : Ix) (s : State) (d : Opnd) (t : Ty) (rs : List (Nat × Val)) (q : BitVec 6) (h : d ≠ .s q) :
    ((i.write s d t rs).frag i.f).sreg q.toNat = (s.frag i.f).sreg q.toNat ∧
    ((i.write s d t rs).frag i.f).spoison.getLsbD q.toNat = (s.frag i.f).spoison.getLsbD q.toNat := by
  unfold Ix.write
  cases d with
  | v r => simp [Frag.sreg]
  | s r =>
    cases rs with
    | nil => exact ⟨rfl, rfl⟩
    | cons p rs =>
      have hne : q.toNat ≠ r.toNat := fun hc => h (by rw [BitVec.eq_of_toNat_eq hc])
      have hr : r.toNat < 64 := r.isLt
      have hq : q.toNat < 64 := q.isLt
      have e : (BitVec.ofNat 64 (2 ^ r.toNat)).getLsbD q.toNat = false := by rw [getLsbD_bit 64 _ _ hr]; simpa using hne
      simp only [modFrag_frag, if_true, Frag.sreg, Sparse.get_set, hne, if_false, true_and]
      cases p.2.poison
      · simp only [Bool.false_eq_true, if_false, BitVec.getLsbD_and, BitVec.getLsbD_not, e, Bool.not_false, hq,
          decide_true, Bool.and_true]
      · simp only [if_true, BitVec.getLsbD_or, e, Bool.or_false]
  | p r => exact ⟨rfl, rfl⟩
  | m r => cases rs <;> exact ⟨rfl, rfl⟩
  | _ => exact ⟨rfl, rfl⟩

/-- Masks that a write does not name are as before. -/
theorem write_masks (i : Ix) (s : State) (d : Opnd) (t : Ty) (rs : List (Nat × Val)) (q : BitVec 4) (h : d ≠ .m q) :
    Sparse.get 0 ((i.write s d t rs).hoist i.x.hoist).masks q.toNat = Sparse.get 0 (s.hoist i.x.hoist).masks q.toNat := by
  unfold Ix.write
  cases d with
  | v r =>
    have h1 := congrArg Hoist.masks (writeLanes_rest (i.areg r.toNat) t rs (s.hoist i.x.hoist))
    simp only [modFrag_hoist, modHoist_hoist, if_true]
    exact congrArg (fun x => Sparse.get 0 x q.toNat) h1
  | s r => cases rs <;> rfl
  | p r =>
    simp only [modHoist_hoist, if_true]
    have h1 := congrArg Hoist.masks (setPred_rest (s.hoist i.x.hoist) r (maskOf fun l => rs.any fun p => decide (p.1 = l))
      (maskOf fun l => rs.any fun p => decide (p.1 = l) && p.2.bits.getLsbD 0))
    exact congrArg (fun x => Sparse.get 0 x q.toNat) h1
  | m r =>
    cases rs with
    | nil => rfl
    | cons p rs =>
      have hne : q.toNat ≠ r.toNat := fun hc => h (by rw [BitVec.eq_of_toNat_eq hc])
      simp only [Hoist.setMask, modHoist_hoist, if_true, Sparse.get_set, hne, if_false]
  | _ => rfl

/-- Predicates in lanes that a write does not reach are as before. -/
theorem write_preds (i : Ix) (s : State) (d : Opnd) (t : Ty) (r : Nat → Val) (q : BitVec 4) (l : Nat)
    (h : ¬ (i.g.getLsbD l = true ∧ d = .p q)) :
    (((i.write s d t ((lanesOf i.g).map fun l => (l, r l))).hoist i.x.hoist).pred q).getLsbD l =
      ((s.hoist i.x.hoist).pred q).getLsbD l := by
  unfold Ix.write
  cases d with
  | v k => simp only [modFrag_hoist, modHoist_hoist, if_true, writeLanes_pred]
  | s k => cases (lanesOf i.g).map fun l => (l, r l) <;> rfl
  | p k =>
    simp only [modHoist_hoist, if_true, setPred_pred]
    split
    · rename_i hk
      obtain ⟨rfl, hk0⟩ := hk
      have hg : i.g.getLsbD l = false := by
        cases hc : i.g.getLsbD l
        · rfl
        · exact absurd ⟨hc, rfl⟩ h
      by_cases hl : l < 32
      · have hm := maskOf_any i r l hl
        simp only [BitVec.getLsbD_or, BitVec.getLsbD_and, BitVec.getLsbD_not, hm, hg, hl, decide_true, Bool.and_false,
          Bool.or_false, Bool.not_false, Bool.and_true]
      · rw [BitVec.getLsbD_of_ge _ _ (by omega), BitVec.getLsbD_of_ge _ _ (by omega)]
    · rfl
  | m k =>
    cases (lanesOf i.g).map fun l => (l, r l) with
    | nil => rfl
    | cons p rs =>
      simp only [modHoist_hoist, if_true]
      unfold Hoist.pred
      rfl
  | _ => rfl

/-- Elements that a write does not reach are as before. -/
theorem write_elems (i : Ix) (s : State) (d : Opnd) (t : Ty) (r : Nat → Val) (a l : Nat) (hl : l < 32)
    (h : ¬ Written i [(d, Ty.regs t)] a l) :
    ((i.write s d t ((lanesOf i.g).map fun l => (l, r l))).hoist i.x.hoist).elem a l = (s.hoist i.x.hoist).elem a l ∧
    ((i.write s d t ((lanesOf i.g).map fun l => (l, r l))).hoist i.x.hoist).elemMark a l =
      (s.hoist i.x.hoist).elemMark a l := by
  unfold Ix.write
  cases d with
  | v k =>
    have hls : ∀ m ∈ lanesOf i.g, m < 32 := by
      intro m hm
      by_contra hc
      have := (mem_lanesOf i.g m).1 hm
      rw [BitVec.getLsbD_of_ge i.g m (by omega)] at this
      exact absurd this (by simp)
    simp only [modFrag_hoist, modHoist_hoist, if_true, writeLanes_elem _ _ _ _ hls _ _ _ hl,
      writeLanes_mark _ _ _ _ hls _ _ _ hl]
    by_cases hm : l ∈ lanesOf i.g
    · have hg := (mem_lanesOf i.g l).1 hm
      have hn : ¬ (i.areg k.toNat ≤ a ∧ a < i.areg k.toNat + Ty.regs t) := fun hc =>
        h ⟨hg, k, Ty.regs t, by simp, hc.1, hc.2⟩
      have h1 : a ≠ i.areg k.toNat := by
        rintro rfl
        exact hn ⟨Nat.le_refl _, by unfold Ty.regs; split <;> omega⟩
      have h2 : ¬ (a = i.areg k.toNat + 1 ∧ t.wide = true) := by
        rintro ⟨rfl, hw⟩
        exact hn ⟨by omega, by simp [Ty.regs, hw]⟩
      simp [h1, h2]
    · simp [hm]
  | s k => cases (lanesOf i.g).map fun l => (l, r l) <;> exact ⟨rfl, rfl⟩
  | p k =>
    simp only [modHoist_hoist, if_true, setPred_elem, setPred_mark, and_self]
  | m k =>
    cases (lanesOf i.g).map fun l => (l, r l) with
    | nil => exact ⟨rfl, rfl⟩
    | cons p rs => simp [Hoist.setMask, Hoist.elem, Hoist.elemMark]
  | _ => exact ⟨rfl, rfl⟩

theorem finish_state (i : Ix) (d : Opnd) (t : Ty) (rs : List (Nat × Val)) :
    { i.finish d t rs with frags := i.s.frags, hoists := i.s.hoists, cores := i.s.cores } = i.s := by
  have h1 := (write_rest i i.s d t rs).1
  have h2 := countUse_rest i (dropsMark d && rs.any fun r => r.2.poison) (i.write i.s d t rs)
  unfold Ix.finish Ix.done State.modFrag State.setFrag
  generalize i.countUse (dropsMark d && rs.any fun r => r.2.poison) (i.write i.s d t rs) = u at *
  generalize i.write i.s d t rs = w at *
  cases u; cases w; cases hs : i.s
  simp_all

/-- Nothing but the destination, the frontier and the counter of uses changes. -/
theorem finish_kept (i : Ix) (d : Opnd) (t : Ty) (r : Nat → Val) :
    Kept i.s (i.finish d t ((lanesOf i.g).map fun l => (l, r l))) i [(d, Ty.regs t)] := by
  have hst := finish_state i d t ((lanesOf i.g).map fun l => (l, r l))
  have hw := write_rest i i.s d t ((lanesOf i.g).map fun l => (l, r l))
  refine ⟨?_, ?_, ?_, ?_, ?_, ?_, ?_, ?_, ?_, ?_, ?_, ?_, hst⟩
  · intro a
    have := congrArg State.mem hst
    exact congrArg (fun m => Sparse.get 0 m a) this
  · intro a
    have := congrArg State.marks hst
    exact congrArg (fun m => Sparse.get false m a) this
  · intro f hf
    rw [finish_frag, if_neg hf]
    exact hw.2.1 f hf
  · intro k hk
    rw [finish_hoist]
    exact hw.2.2 k hk
  · intro a l hl h
    rw [finish_hoist]
    exact write_elems i i.s d t r a l hl h
  · intro q l h
    rw [finish_hoist]
    exact write_preds i i.s d t r q l fun hc => h ⟨hc.1, Ty.regs t, by simp [hc.2]⟩
  · intro q h
    rw [finish_hoist]
    exact write_masks i i.s d t _ q fun hc => h ⟨Ty.regs t, by simp [hc]⟩
  · intro q
    rw [finish_hoist]
    have hb := write_bits i i.s d t ((lanesOf i.g).map fun l => (l, r l)) q
    exact ⟨fun h => hb.1 fun hc => h ⟨Ty.regs t, by simp [hc]⟩, fun h => hb.2 fun hc => h ⟨Ty.regs t, by simp [hc]⟩⟩
  · rw [finish_hoist]
    exact write_hoist i i.s d t _
  · intro q h
    rw [finish_frag, if_pos rfl]
    unfold Frag.sreg
    rw [complete_sregs, complete_spoison]
    exact write_sregs i i.s d t _ q fun hc => h ⟨Ty.regs t, by simp [hc]⟩
  · rw [finish_frag, if_pos rfl]
    exact frag_loose _ _ _ (complete_rest _ _ _ _ _) (write_frag i i.s d t _)
  · intro c
    have h1 : (i.write i.s d t ((lanesOf i.g).map fun l => (l, r l))).cores = i.s.cores := by
      have h := congrArg State.cores hw.1
      exact h
    have h2 := countUse_core i (dropsMark d && ((lanesOf i.g).map fun l => (l, r l)).any fun r => r.2.poison)
      (i.write i.s d t ((lanesOf i.g).map fun l => (l, r l))) c
    have h3 : (i.write i.s d t ((lanesOf i.g).map fun l => (l, r l))).core c = i.s.core c :=
      congrArg (fun m => Sparse.get Core.reset m c) h1
    unfold Ix.finish Ix.done
    rw [modFrag_core, ← h3]
    exact h2

/-! ### A lane-by-lane instruction -/

/-- Where the lanes go depends on the frontier, the loops and the repeat state alone. -/
theorem complete_entries (x y : Frag) (prio : BitVec 8) (pc next : DWord) (m : LaneMask) (h1 : x.entries = y.entries)
    (h2 : x.loops = y.loops) (h3 : x.rep = y.rep) (h4 : x.repc = y.repc) :
    (x.complete prio pc next m).entries = (y.complete prio pc next m).entries := by
  unfold Frag.complete Frag.repeats
  rw [h3, h4]
  split
  · split
    · exact h1
    · unfold Frag.goNext Frag.take
      simp only [h1, h2]
      split
      · split <;> rfl
      · rfl
  · unfold Frag.goNext Frag.take
    simp only [h1, h2]
    split
    · split <;> rfl
    · rfl

theorem finish_wentOn (i : Ix) (d : Opnd) (t : Ty) (rs : List (Nat × Val)) : WentOn i.s (i.finish d t rs) i := by
  unfold WentOn
  rw [finish_frag, if_pos rfl]
  have h := write_frag i i.s d t rs
  generalize (i.write i.s d t rs).frag i.f = y at *
  generalize i.s.frag i.f = x at *
  exact complete_entries y x _ _ _ _ (by simpa using congrArg Frag.entries h) (by simpa using congrArg Frag.loops h)
    (by simpa using congrArg Frag.rep h) (by simpa using congrArg Frag.repc h)

/-- Results that agree in what the destination keeps are as good. -/
theorem gets_congr (t : State) (i : Ix) (d : Opnd) (ty : Ty) (r r' : Nat → Val) (h : ∀ l, r l = r' l) (hg : Gets t i d ty r) :
    Gets t i d ty r' := by
  have : r = r' := funext h
  rwa [this] at hg

/-- An instruction whose meaning is the lane-by-lane shape with `f` computes `f`. -/
theorem alu_computes (n : Instr) (hd : Hdr) (o : Ops) (wa wb wc : Wd) (ty : Ty) (f : DWord → DWord → DWord → DWord)
    (h : ∀ s, exec n s = .next ((Ix.of s hd).alu hd o wa wb wc ty f)) : Computes n hd o wa wb wc ty f := by
  intro s hs
  refine ⟨_, h s, ?_⟩
  rw [alu_ok _ hd o wa wb wc ty f hs]
  exact ⟨finish_gets _ _ _ _ hs.lanes, finish_kept (Ix.of s hd) _ _ _, finish_wentOn _ _ _ _⟩

/-! ### Predicates -/

theorem writePred_frag (i : Ix) (s : State) (d : Opnd) (m b : LaneMask) (f : Nat) : (i.writePred s d m b).frag f = s.frag f := by
  unfold Ix.writePred; split <;> rfl

theorem writePred_core (i : Ix) (s : State) (d : Opnd) (m b : LaneMask) (c : Nat) : (i.writePred s d m b).core c = s.core c := by
  unfold Ix.writePred; split <;> rfl

theorem writePred_rest (i : Ix) (s : State) (d : Opnd) (m b : LaneMask) :
    { i.writePred s d m b with hoists := s.hoists } = s := by
  unfold Ix.writePred; split <;> rfl

theorem writePred_others (i : Ix) (s : State) (d : Opnd) (m b : LaneMask) (k : Nat) (h : k ≠ i.x.hoist) :
    (i.writePred s d m b).hoist k = s.hoist k := by
  unfold Ix.writePred; split
  · simp [h]
  · rfl

theorem writePred_hoist (i : Ix) (s : State) (d : Opnd) (m b : LaneMask) :
    { (i.writePred s d m b).hoist i.x.hoist with
        preds := (s.hoist i.x.hoist).preds, pmarks := (s.hoist i.x.hoist).pmarks } = s.hoist i.x.hoist := by
  unfold Ix.writePred; split
  · simp only [modHoist_hoist, if_true]
    exact setPred_rest _ _ _ _
  · rfl

theorem writePred_bits (i : Ix) (s : State) (d : Opnd) (m b : LaneMask) (q : BitVec 4) (h : d ≠ .p q) :
    ((i.writePred s d m b).hoist i.x.hoist).pmarks.getLsbD q.toNat = (s.hoist i.x.hoist).pmarks.getLsbD q.toNat := by
  unfold Ix.writePred; split
  · simp only [modHoist_hoist, if_true]
    exact setPred_bits _ _ _ _ _ fun hc => h (by rw [hc])
  · rfl

/-- A predicate after a write of predicates: its lanes of `m` are those of `b`, and everything else is as before. -/
theorem writePred_pred (i : Ix) (s : State) (d : Opnd) (m b : LaneMask) (q : BitVec 4) :
    ((i.writePred s d m b).hoist i.x.hoist).pred q =
      if d = .p q ∧ q ≠ 0 then ((s.hoist i.x.hoist).pred q &&& ~~~m) ||| (b &&& m) else (s.hoist i.x.hoist).pred q := by
  unfold Ix.writePred
  split
  · rename_i p
    simp only [modHoist_hoist, if_true, setPred_pred, Opnd.p.injEq]
    by_cases h : q = p
    · subst h; simp
    · simp [h, Ne.symm h]
  · rename_i h
    have : ¬ (d = .p q ∧ q ≠ 0) := fun hc => h q hc.1
    rw [if_neg this]

theorem merge_bit (m : Merge) (a v q : LaneMask) (l : Nat) :
    (Merge.apply m a v q).getLsbD l = merged m (a.getLsbD l) (v.getLsbD l) (q.getLsbD l) := by
  cases m <;> simp [Merge.apply, merged]

/-- What a finished instruction that writes predicates alone leaves as it was. -/
theorem preds_kept (i : Ix) (d d2 : Opnd) (b b2 : LaneMask) (used : Bool) :
    Kept i.s (i.done (i.countUse used (i.writePred (i.writePred i.s d i.g b) d2 i.g b2))) i [(d, 1), (d2, 1)] := by
  have hr1 := writePred_rest i i.s d i.g b
  have hr2 := writePred_rest i (i.writePred i.s d i.g b) d2 i.g b2
  have hc := countUse_rest i used (i.writePred (i.writePred i.s d i.g b) d2 i.g b2)
  have hh : ∀ k, (i.done (i.countUse used (i.writePred (i.writePred i.s d i.g b) d2 i.g b2))).hoist k =
      (i.writePred (i.writePred i.s d i.g b) d2 i.g b2).hoist k := by
    intro k; rw [done_hoist, countUse_hoist]
  have hw1 := writePred_hoist i i.s d i.g b
  have hw2 := writePred_hoist i (i.writePred i.s d i.g b) d2 i.g b2
  have hst : { i.done (i.countUse used (i.writePred (i.writePred i.s d i.g b) d2 i.g b2)) with
      frags := i.s.frags, hoists := i.s.hoists, cores := i.s.cores } = i.s := by
    unfold Ix.done State.modFrag State.setFrag
    generalize i.countUse used (i.writePred (i.writePred i.s d i.g b) d2 i.g b2) = u at *
    generalize i.writePred (i.writePred i.s d i.g b) d2 i.g b2 = w at *
    generalize i.writePred i.s d i.g b = v at *
    cases u; cases w; cases v; cases hs : i.s
    simp_all
  have hv : ((i.writePred (i.writePred i.s d i.g b) d2 i.g b2).hoist i.x.hoist).vregs = (i.s.hoist i.x.hoist).vregs := by
    have h1 := congrArg Hoist.vregs hw1
    have h2 := congrArg Hoist.vregs hw2
    exact h2.trans h1
  have hp : ((i.writePred (i.writePred i.s d i.g b) d2 i.g b2).hoist i.x.hoist).vpoison = (i.s.hoist i.x.hoist).vpoison := by
    have h1 := congrArg Hoist.vpoison hw1
    have h2 := congrArg Hoist.vpoison hw2
    exact h2.trans h1
  have hm : ((i.writePred (i.writePred i.s d i.g b) d2 i.g b2).hoist i.x.hoist).masks = (i.s.hoist i.x.hoist).masks := by
    have h1 := congrArg Hoist.masks hw1
    have h2 := congrArg Hoist.masks hw2
    exact h2.trans h1
  have hmm : ((i.writePred (i.writePred i.s d i.g b) d2 i.g b2).hoist i.x.hoist).mmarks = (i.s.hoist i.x.hoist).mmarks := by
    have h1 := congrArg Hoist.mmarks hw1
    have h2 := congrArg Hoist.mmarks hw2
    exact h2.trans h1
  refine ⟨?_, ?_, ?_, ?_, ?_, ?_, ?_, ?_, ?_, ?_, ?_, ?_, hst⟩
  · intro a
    have := congrArg State.mem hst
    exact congrArg (fun m => Sparse.get 0 m a) this
  · intro a
    have := congrArg State.marks hst
    exact congrArg (fun m => Sparse.get false m a) this
  · intro f hf
    rw [done_frag, if_neg hf, countUse_frag, writePred_frag, writePred_frag]
  · intro k hk
    rw [hh, writePred_others _ _ _ _ _ _ hk, writePred_others _ _ _ _ _ _ hk]
  · intro a l _ _
    rw [hh]
    exact ⟨congrArg (fun x => Sparse.get 0 x (32 * a + l)) hv, congrArg (fun x => Sparse.get false x (32 * a + l)) hp⟩
  · intro q l h
    rw [hh, writePred_pred, writePred_pred]
    have key : ∀ (e : Opnd) (n : Nat), (e, n) ∈ [(d, 1), (d2, 1)] → ∀ (m c : LaneMask),
        m.getLsbD l = ((i.s.hoist i.x.hoist).pred q).getLsbD l →
        (if e = .p q ∧ q ≠ 0 then (m &&& ~~~i.g) ||| (c &&& i.g) else m).getLsbD l =
          ((i.s.hoist i.x.hoist).pred q).getLsbD l := by
      intro e n he m c hmc
      split
      · rename_i h1
        have hg : i.g.getLsbD l = false := by
          cases hc : i.g.getLsbD l
          · rfl
          · exact absurd ⟨hc, n, h1.1 ▸ he⟩ h
        rw [← hmc]
        by_cases hl : l < 32
        · simp only [BitVec.getLsbD_or, BitVec.getLsbD_and, BitVec.getLsbD_not, hg, hl, decide_true, Bool.and_false,
            Bool.or_false, Bool.not_false, Bool.and_true]
        · rw [BitVec.getLsbD_of_ge _ _ (by omega), BitVec.getLsbD_of_ge _ _ (by omega)]
      · exact hmc
    exact key d2 1 (by simp) _ _ (key d 1 (by simp) _ _ rfl)
  · intro q _
    rw [hh]
    exact congrArg (fun x => Sparse.get 0 x q.toNat) hm
  · intro q
    rw [hh]
    refine ⟨fun h => ?_, fun _ => congrArg (fun x => x.getLsbD q.toNat) hmm⟩
    rw [writePred_bits _ _ _ _ _ _ fun hc => h ⟨1, by simp [hc]⟩, writePred_bits _ _ _ _ _ _ fun hc => h ⟨1, by simp [hc]⟩]
  · rw [hh]
    generalize (i.writePred (i.writePred i.s d i.g b) d2 i.g b2).hoist i.x.hoist = y2 at *
    generalize (i.writePred i.s d i.g b).hoist i.x.hoist = y1 at *
    generalize i.s.hoist i.x.hoist = y0 at *
    cases y2; cases y1; cases y0
    simp_all
  · intro q _
    rw [done_frag, if_pos rfl, countUse_frag, writePred_frag, writePred_frag]
    unfold Frag.sreg
    rw [complete_sregs, complete_spoison]
    exact ⟨rfl, rfl⟩
  · rw [done_frag, if_pos rfl, countUse_frag, writePred_frag, writePred_frag]
    exact frag_loose _ _ _ (complete_rest _ _ _ _ _) rfl
  · intro c
    unfold Ix.done
    rw [modFrag_core]
    have h2 := countUse_core i used (i.writePred (i.writePred i.s d i.g b) d2 i.g b2) c
    rwa [writePred_core, writePred_core] at h2

/-- What the two predicate destinations hold after a finished compare. -/
theorem preds_gets (i : Ix) (d d2 : Opnd) (b b2 : LaneMask) (used : Bool) :
    (d ≠ d2 → GetsPred (i.done (i.countUse used (i.writePred (i.writePred i.s d i.g b) d2 i.g b2))) i d fun l => b.getLsbD l) ∧
    GetsPred (i.done (i.countUse used (i.writePred (i.writePred i.s d i.g b) d2 i.g b2))) i d2 fun l => b2.getLsbD l := by
  have hh : ∀ k, (i.done (i.countUse used (i.writePred (i.writePred i.s d i.g b) d2 i.g b2))).hoist k =
      (i.writePred (i.writePred i.s d i.g b) d2 i.g b2).hoist k := by
    intro k; rw [done_hoist, countUse_hoist]
  have hb : ∀ (m c : LaneMask) (l : Nat), i.g.getLsbD l = true → ((m &&& ~~~i.g) ||| (c &&& i.g)).getLsbD l = c.getLsbD l := by
    intro m c l hg
    simp only [BitVec.getLsbD_or, BitVec.getLsbD_and, BitVec.getLsbD_not, hg, Bool.not_true, Bool.and_false, Bool.and_true,
      Bool.false_or]
  refine ⟨fun hne => ?_, ?_⟩
  · cases d with
    | p q =>
      intro hq l hg
      have hn : ¬ (d2 = .p q ∧ q ≠ 0) := fun hc => hne hc.1.symm
      rw [hh, writePred_pred, if_neg hn, writePred_pred, if_pos ⟨rfl, hq⟩, hb _ _ _ hg]
    | _ => trivial
  · cases d2 with
    | p q =>
      intro hq l hg
      rw [hh, writePred_pred, if_pos ⟨rfl, hq⟩, hb _ _ _ hg]
    | _ => trivial

theorem preds_wentOn (i : Ix) (d d2 : Opnd) (b b2 : LaneMask) (used : Bool) :
    WentOn i.s (i.done (i.countUse used (i.writePred (i.writePred i.s d i.g b) d2 i.g b2))) i := by
  unfold WentOn
  rw [done_frag, if_pos rfl, countUse_frag, writePred_frag, writePred_frag]

/-- The issue of a compare has the same state, fragment, hoist and entry as the plain issue. -/
theorem part_same (i : Ix) (p : Pct) :
    (i.part p).s = i.s ∧ (i.part p).f = i.f ∧ (i.part p).x = i.x ∧ (i.part p).h = i.h ∧ (i.part p).e = i.e ∧
      (i.part p).next = i.next := by
  unfold Ix.part
  split <;> exact ⟨rfl, rfl, rfl, rfl, rfl, rfl⟩

theorem gets_pred_congr (t : State) (i : Ix) (d : Opnd) (b c : Nat → Bool) (h : ∀ l, i.g.getLsbD l = true → b l = c l)
    (hg : GetsPred t i d b) : GetsPred t i d c := by
  cases d with
  | p q => intro hq l hl; rw [hg hq l hl, h l hl]
  | _ => trivial

/-- An instruction whose meaning writes the bit `c` and its complement under a combining type. -/
theorem pct_tests (i : Ix) (hd : Hdr) (o : Ops) (p : Pct) (c : LaneMask) (cb : Nat → Bool) (used : Bool)
    (hc : ∀ l, i.g.getLsbD l = true → c.getLsbD l = cb l) :
    GetsBoth (i.done (i.countUse used (i.writePct i.s hd o p c))) i hd o p cb ∧
    Kept i.s (i.done (i.countUse used (i.writePct i.s hd o p c))) i [(o.d, 1), (o.d2, 1)] ∧
    WentOn i.s (i.done (i.countUse used (i.writePct i.s hd o p c))) i := by
  have hlt : ∀ l, i.g.getLsbD l = true → l < 32 := by
    intro l h
    by_contra hc
    rw [BitVec.getLsbD_of_ge i.g l (by omega)] at h
    exact absurd h (by simp)
  have hv : ∀ l, i.g.getLsbD l = true → (if p.inv then ~~~c else c).getLsbD l = (cb l != p.inv) := by
    intro l hl
    have h1 := hc l hl
    have h2 := hlt l hl
    cases p.inv
    · simp [h1]
    · simp only [if_true, BitVec.getLsbD_not, h1, h2, decide_true, Bool.true_and]
      cases cb l <;> rfl
  unfold Ix.writePct
  refine ⟨?_, preds_kept i _ _ _ _ _, preds_wentOn i _ _ _ _ _⟩
  have hg := preds_gets i o.d o.d2 (Merge.apply p.merge (i.oldPred o.d) (if p.inv then ~~~c else c) (i.h.guard hd))
    (Merge.apply p.merge (i.oldPred o.d2) (~~~(if p.inv then ~~~c else c)) (i.h.guard hd)) used
  refine ⟨fun hne => gets_pred_congr _ _ _ _ _ ?_ (hg.1 hne), gets_pred_congr _ _ _ _ _ ?_ hg.2⟩
  · intro l hl
    rw [merge_bit, hv l hl]
    rfl
  · intro l hl
    rw [merge_bit, BitVec.getLsbD_not, hv l hl]
    simp [hlt l hl, Ix.oldPred]

/-- A lane in the list of results of a function of the lanes. -/
theorem any_result (i : Ix) (r : Nat → Val) (l : Nat) (hl : i.g.getLsbD l = true) :
    (((lanesOf i.g).map fun l => (l, r l)).any fun p => decide (p.1 = l) && p.2.bits.getLsbD 0) = (r l).bits.getLsbD 0 := by
  have hm := (mem_lanesOf i.g l).2 hl
  cases hf : (r l).bits.getLsbD 0
  · rw [Bool.eq_false_iff]
    intro hc
    rw [List.any_eq_true] at hc
    obtain ⟨p, hp, hq⟩ := hc
    obtain ⟨m, _, rfl⟩ := List.mem_map.1 hp
    simp only [Bool.and_eq_true, decide_eq_true_eq] at hq
    obtain ⟨rfl, hq⟩ := hq
    rw [hf] at hq
    exact absurd hq (by simp)
  · rw [List.any_eq_true]
    exact ⟨(l, r l), List.mem_map.2 ⟨l, hm, rfl⟩, by simp only [decide_true, Bool.true_and]; exact hf⟩

/-- An instruction whose meaning is the compare shape with `f` tests `f`. -/
theorem compare_tests (n : Instr) (hd : Hdr) (o : Ops) (p : Pct) (wa wb wc : Wd) (f : DWord → DWord → DWord → Bool)
    (h : ∀ s, exec n s = .next ((Ix.of s hd).compare hd o p wa wb wc f)) :
    Tests n hd o p (uses3 hd o wa wb wc) (laneBit3 o wa wb wc f) := by
  intro s hg hr
  refine ⟨_, h s, ?_⟩
  obtain ⟨h1, h2, h3, h4, h5, h6⟩ := part_same (Ix.of s hd) p
  unfold Ix.compare
  generalize hj : (Ix.of s hd).part p = j at *
  have hcs : j.checkSources (j.uses hd o wa wb wc) j.g = .ok () := checkSources_ok j _ _ hr
  simp only [hcs, bind, Except.bind, pure, Except.pure]
  rw [run_ok j _ hg]
  have hw : ∀ t, WentOn j.s t j → WentOn s t (Ix.of s hd) := by
    intro t ht
    unfold WentOn at *
    rw [h1, h2, h5, h6] at ht
    exact ht
  have hk : ∀ t ds, Kept j.s t j ds → Kept s t j ds := by
    intro t ds ht
    rw [h1] at ht
    exact ht
  have hm := pct_tests j hd o p
    (maskOf fun l => (j.map3 o wa wb wc fun a b c => if f a b c then 1 else 0).any fun r => decide (r.1 = l) && r.2.bits.getLsbD 0)
    (laneBit3 o wa wb wc f j) ((j.map3 o wa wb wc fun a b c => if f a b c then 1 else 0).any fun r => r.2.poison) ?_
  · exact ⟨hm.1, hk _ _ hm.2.1, hw _ hm.2.2⟩
  · intro l hl
    have hl32 : l < 32 := by
      by_contra hc
      rw [BitVec.getLsbD_of_ge j.g l (by omega)] at hl
      exact absurd hl (by simp)
    rw [maskOf_getLsbD _ _ hl32]
    unfold Ix.map3
    rw [any_result j _ l hl]
    unfold laneBit3
    dsimp only
    cases f (j.read o.a wa l).bits (j.read o.b wb l).bits (j.read o.c wc l).bits <;> simp

end Sys2Proof.Machine
end

