-- ==== Sys2Proof/Tests/Slice0.lean ====
section
/-! SUPPORT. The model's own tests: an ill-formed term for each check of well-formedness, words of the manual for each family,
values of the manual's examples, and for each statement a state and operands that meet its hypotheses. Expected results are the
manual's or worked by hand from its rules. -/

namespace Sys2Proof.Tests

open Sys2Proof.Machine Sys2Proof.Claims

set_option Elab.async false

/-! ### Small terms -/

/-- A header of a form, guarded by p0. -/
def hd (f : Form) : Hdr := { form := f, gn := false, gp := 0, ea := false, eb := false, ec := false }

/-- Operands D, A, B and C. -/
def ops (d a b c : Opnd) : Ops := { d, d2 := .none, a, b, c }

/-- No operand but those that are set. -/
def no : Ops := ops .none .none .none .none

/-- The scope-and-order byte of a relaxed access. -/
def plain : ScopeOrder := { scope := .domain, order := .relaxed, promote := false, pass := false }

/-- A memory operand without scale or displacement. -/
def memx : MemX := { lsel := 0, so := plain, scale := 0, disp := 0 }

/-! ### Ill-formed terms -/

theorem test_illformed_shortForm :
    (Instr.iaddc (hd .f64) { ops (.v 1) (.v 2) (.s 3) (.p 1) with d2 := .p 2 } .n32).check = some .shortForm := by decide

theorem test_illformed_badLiteral : (Instr.iadd (hd .f64) (ops (.v 1) (.v 2) (.lit 5) .none) .i32 false).check = some .badLiteral := by decide

theorem test_illformed_queueForm : (Instr.iadd (hd .f64) (ops (.v 1) (.q 2) (.s 3) .none) .i32 false).check = some .queueForm := by decide

theorem test_illformed_reservedSpecifier :
    (Instr.iadd (hd .f64) (ops (.v 1) (.m 12) (.s 3) .none) .i32 false).check = some .reservedSpecifier := by decide

theorem test_illformed_badType : (Instr.iadd (hd .f64) (ops (.v 1) (.v 2) (.s 3) .none) .f32 false).check = some .badType := by decide

theorem test_illformed_badModifier : (Instr.fadd (hd .f64) (ops (.v 1) (.v 2) (.s 3) .none) .f32 .sr false).check = some .badModifier := by decide

theorem test_illformed_badScopeOrder :
    (Instr.ld (hd .f96) (ops (.v 1) (.s 2) .zr .none) .b32 { memx with so := { plain with order := .release } }).check =
      some .badScopeOrder := by decide

theorem test_illformed_oddPair : (Instr.add64 (hd .f64) (ops (.v 1) (.v 2) (.s 3) .none) .i64).check = some .badKind := by decide

theorem test_illformed_missingOperand : (Instr.iadd (hd .f64) (ops (.v 1) (.v 2) .none .none) .i32 false).check = some .badKind := by decide

theorem test_illformed_extraOperand : (Instr.nop (hd .f64) { no with d := .v 1 }).check = some .badKind := by decide

theorem test_illformed_samePredicate :
    (Instr.icmp (hd .f96) { ops (.p 1) (.v 2) (.s 3) .none with d2 := .p 1 } .n32 .ge { merge := .set, inv := false }).check =
      some .samePredicate := by decide

theorem test_illformed_reservedField : (Instr.nop { hd .f64 with ea := true } no).check = some .reservedField := by decide

theorem test_illformed_lsel : (Instr.st (hd .f96) (ops .none (.s 2) .zr (.v 1)) .b32 { memx with lsel := 1 }).check = some .reservedField := by decide

theorem test_illformed_event : (Instr.powerRailsOn 0).check = some .reservedMajor := by decide

/-! ### Words of the manual -/

/-- The word written out in the form's length decodes to the instruction. -/
def wordIs (n w : Nat) (i : Instr) : Bool := decide (decode (valBytes n w) = .ok i)

theorem test_decode_integer : wordIs 8 0x080000238102CC00
    (.iadd { hd .f64 with gn := true, gp := 3 } (ops (.v 5) (.v 2) (.s 7) .none) .i32 false) = true := by decide +kernel

theorem test_decode_compare : wordIs 16 0x00003001008000FF0414007F80D080A2
    (.icmp (hd .f128) { ops (.p 1) (.v 1) (.lit 0x3001) .none with d2 := .zr } .n32 .ge { merge := .set, inv := false }) = true := by
  decide +kernel

theorem test_decode_load : wordIs 12 0x0450080000080000A1020241
    (.ld (hd .f96) (ops (.v 4) (.s 2) (.v 1) .none) .b32 { memx with lsel := 1, scale := 2, disp := 4 }) = true := by decide +kernel

theorem test_decode_float : wordIs 8 0x400401008001810C (.ffma (hd .f64) (ops (.v 3) (.v 0) (.v 1) (.v 2)) .f32 .rtz false) = true := by
  decide +kernel

theorem test_decode_matrix : wordIs 12 0x0000100000040322A20001C1
    (.mma (hd .f96) { no with a := .s 4, b := .s 5, c := .v 6 } true false 2) = true := by decide +kernel

theorem test_decode_branch : wordIs 16 0xFFFFFFC000C800000000007F80000B02
    (.bra { hd .f128 with gp := 2 } { no with b := .lit 0xFFFFFFC0 } false 0x90) = true := by decide +kernel

theorem test_decode_system : wordIs 8 0x0004000000000384 (.rft (hd .f64) no .next) = true := by decide +kernel

theorem test_decode_nop : wordIs 8 0x348 (.nop (hd .f64) no) = true := by decide +kernel

theorem test_decode_lanes : wordIs 12 0xA2000000A2000200C5
    (.bfly (hd .f96) { ops (.v 4) (.v 0) (.s 4) (.v 1) with d2 := .p 2 } false false) = true := by decide +kernel

theorem test_decode_conversion : wordIs 12 0x100000005010008000010181
    (.cvt (hd .f96) (ops (.v 2) (.v 0) .none (.v 1)) .e4m3 .f32 .sr false false) = true := by decide +kernel

theorem test_decode_prune : wordIs 12 0x0E24007F85858601D1
    (.comp48 (hd .f96) { ops (.v 12) (.v 11) (.v 11) .zr with d2 := .v 14 } .i8 false) = true := by decide +kernel

theorem test_decode_sparse : wordIs 12 0x0E000000000024A3A30001C5
    (.mmas (hd .f96) { no with a := .s 6, b := .s 7, c := .s 9 } false false 14 0) = true := by decide +kernel

theorem test_decode_atomic : wordIs 12 0x005008000068008122019659
    (.atom { hd .f96 with gp := 5 } (ops (.v 3) (.s 4) (.v 2) (.v 1)) .b32 .exch { memx with lsel := 1, scale := 2 }) = true := by
  decide +kernel

theorem test_decode_wait : wordIs 12 0x024400FF14007FFFAB8F226D
    (.waita { hd .f96 with gp := 8 } { ops (.v 30) (.s 23) .zr .zr with d2 := .zr } .b64
      { memx with so := { plain with scope := .package, order := .acquire }, disp := 2 }) = true := by decide +kernel

theorem test_decode_fence : wordIs 12 0x4800000000000000002669
    (.fence { hd .f96 with gp := 9 } no { plain with scope := .package, order := .release }) = true := by decide +kernel

theorem test_decode_put : wordIs 12 0x0050000000080B8526269285
    (.puts { hd .f96 with gp := 4 } (ops (.s 13) (.s 12) (.v 10) (.v 23)) .b32 { memx with scale := 2 }) = true := by decide +kernel

theorem test_decode_collective : wordIs 12 0x218000028D (.coll (hd .f96) { no with b := .s 3 } 0) = true := by decide +kernel

theorem test_decode_repeat : wordIs 16 0x4008000000014007F8000031A (.rep (hd .f128) { no with b := .lit 4 } 1 1 0 0) = true := by
  decide +kernel

theorem test_decode_join : wordIs 12 0x800000000005880031D (.join (hd .f96) { no with a := .m 1 } 1) = true := by decide +kernel

theorem test_decode_launch : wordIs 8 0x1B3C (.raise { hd .f64 with gp := 6 } no) = true := by decide +kernel

theorem test_decode_scratch : wordIs 12 0x0100000000A0002A00000381 (.movspWrite (hd .f96) { no with b := .s 20 } 0x28) = true := by
  decide +kernel

/-- A reserved major opcode, a reserved form and a word cut short decode to nothing (R93, R97). -/
theorem test_decode_refuses : (decode (valBytes 8 0x3)).toOption = none ∧ (decode (valBytes 8 0xDC)).toOption = none ∧
    (decode (valBytes 8 0x080000238162CC00)).toOption = none ∧ (decode (valBytes 4 0x8102CC00)).toOption = none := by decide +kernel

/-! ### Small states -/

/-- One hoist of 32 lanes stands at 0x10000 on core 0, its anchor, and issues. -/
def base : State := { State.reset.placed [] with iss := { frag := 0, prio := 0x10, pc := 0x10000 } }

/-- Scalars of the issuing fragment. -/
def setS (rs : List (Nat × DWord)) (s : State) : State := s.modFrag 0 fun x => { x with sregs := rs }

/-- The issuing entry holds the lanes `m` and waits for `w`. -/
def setE (m : LaneMask) (w : Option Wait) (s : State) : State :=
  s.modFrag 0 fun x => { x with entries := [{ prio := 0x10, pc := 0x10000, mask := m, wait := w }] }

/-- What the issuing entry waited for has ended. -/
def wokenState (s : State) : State := s.modFrag 0 fun x => { x with entries := x.entries.map fun e => { e with woken := true } }

/-- Page 1 has its home at hearth 0 and page 2 at hearth 1, both of the partition; s2 and s4 hold their addresses. -/
def mbase : State :=
  (setS [(2, 0x10000), (4, 0x20000)] base).modPkg 0 (fun p => { p with parts := [(0, 0), (1, 0)] }) |>.modCore 0 fun c =>
    { c with tlb := c.tlb ++ [{ ctx := 0, page := 2, bits := 16, leaf := BitVec.ofNat 64 (2 ^ 39 + 0x2001F) }] }

/-- The context has a trap handler at 0x40000. -/
def traps (p : Bool) (s : State) : State :=
  s.modPkg 0 fun x => { x with traps := [(0, { handler := 0x40000, harea := 0, tpoison := p })] }

/-- The context of the issuing fragment is a managing context whose partition is the whole package. -/
def manages (s : State) : State :=
  s.modPkg 0 fun p => { p with managing := 1, parts := (List.range 16).map fun k => (k, 0) }

/-- The registers of a trap taken at 0x50000. -/
def someTrap : TrapRegs :=
  { cause := 0x11, pc := 0x50000, pc0 := 0x50000, prio0 := 0x10, lanes := 0xFF, addr := 0, prio := 0x10, em := 0xFF, scr0 := 0,
    scr1 := 0, scr2 := 0, scr3 := 0 }

/-- The issuing fragment is in handler mode. -/
def inTrap (s : State) : State := s.modFrag 0 fun x => { x with trap := some someTrap }

/-- The issuing fragment's cast has its anchor on core 8, so that the fragment is a visitor. -/
def away (s : State) : State := s.modCast (castKey 0 0) fun c => { c with anchor := 8 }

/-- The pour's record has the byte `b` set at offset `ofs`. -/
def setRec (ofs b : Nat) (s : State) : State :=
  s.modPour 0 fun p => { p with raw := p.raw ||| BitVec.ofNat 1024 (b * 2 ^ (8 * ofs)) }

/-! ### Conditions as tests -/

theorem lanes_all {g : LaneMask} {P : Nat → Prop} (h : ∀ l, l < 32 → g.getLsbD l = true → P l) :
    ∀ l, g.getLsbD l = true → P l := fun l hl => h l (BitVec.lt_of_getLsbD hl) hl

/-- Nothing is empty, the pour is not in debug mode, its context does not trap on poison, and the hoist is whole. -/
def cleanB (i : Ix) : Bool :=
  decide (i.x.vempty = 0) && decide (i.x.sempty = 0) && !i.s.debug i.x && !(i.s.trapEnt i.x).tpoison && !i.h.split

theorem isEmpty_of_clean {i : Ix} (h : cleanB i = true) (o : Opnd) (n : Nat) : i.isEmpty o n = false := by
  simp only [cleanB, Bool.and_eq_true, decide_eq_true_eq] at h
  obtain ⟨⟨⟨⟨hv, hs⟩, -⟩, -⟩, -⟩ := h
  cases o <;> simp [Ix.isEmpty, Ix.anyReg, hv, hs]

theorem readable_clean {i : Ix} (h : cleanB i = true) (us : List Use) (rd : LaneMask) : Readable i us rd := by
  have h2 := h
  simp only [cleanB, Bool.and_eq_true, Bool.not_eq_true'] at h2
  obtain ⟨⟨⟨-, hd⟩, hp⟩, -⟩ := h2
  exact ⟨fun u _ => isEmpty_of_clean h u.o u.n, fun h1 => absurd (hd ▸ h1) (by simp), fun h1 => absurd (hp ▸ h1) (by simp)⟩

theorem writable_clean {i : Ix} (h : cleanB i = true) (d : Opnd) (n : Nat) : Writable i d n := by
  have h2 := h
  simp only [cleanB, Bool.and_eq_true, Bool.not_eq_true'] at h2
  exact ⟨isEmpty_of_clean h d n, fun k _ hs => by rw [h2.2] at hs; cases hs⟩

/-- Some lane is guard-true and nothing stands in the way of operands. -/
def goB (i : Ix) : Bool := cleanB i && decide (i.g ≠ 0)

theorem lanes_of {i : Ix} (h : goB i = true) : i.g ≠ 0 := by
  simp only [goB, Bool.and_eq_true, decide_eq_true_eq] at h; exact h.2

theorem clean_of {i : Ix} (h : goB i = true) : cleanB i = true := by
  simp only [goB, Bool.and_eq_true] at h; exact h.1

theorem able_clean {i : Ix} (h : goB i = true) (us : List Use) (d : Opnd) (n : Nat) : Able i us d n :=
  ⟨lanes_of h, readable_clean (clean_of h) us _, writable_clean (clean_of h) d n⟩

/-- In the small state every instruction guarded by p0 may take effect, whatever its operands. -/
theorem witness_able (f : Form) (us : List Use) (d : Opnd) (n : Nat) : Able (Ix.of base (hd f)) us d n :=
  able_clean (by cases f <;> decide +kernel) us d n

/-! ### States and operands that meet the hypotheses: lanes -/

theorem witness_IntegerArithmetic : Able (Ix.of base (hd .f64)) (uses3 (hd .f64) (ops (.v 1) (.v 2) (.s 3) .zr) .w32 .w32 .w32) (.v 1) 1 :=
  witness_able _ _ _ _

/-- The borders of I8 in the statement about fitting. -/
theorem witness_IntegerArithmetic_fit : Ty.i8 ∈ [Ty.i8, .n8, .i16, .n16, .i24, .n24, .i32, .n32, .i64, .n64] ∧
    tyMin .i8 ≤ 127 ∧ (127 : Int) ≤ tyMax .i8 ∧ (-129 : Int) < tyMin .i8 ∧ tyMax .i8 < 128 := by decide

theorem witness_CarryInstructions : ((Ty.n32 = .i32 ∨ Ty.n32 = .n32) ∧ (Opnd.v 1 ≠ Opnd.p 3)) ∧
    Able (Ix.of base (hd .f96)) (uses3 (hd .f96) { ops (.v 1) (.v 2) (.s 3) (.p 2) with d2 := .p 3 } .w32 .w32 .w32) (.v 1) 1 :=
  ⟨by decide, witness_able _ _ _ _⟩

/-- Bits 0 and 31, and the counts 0 and 32, at which the clauses about fields meet. -/
theorem witness_LogicShiftsAndBitFields :
    Able (Ix.of base (hd .f64)) (uses3 (hd .f64) (ops (.v 2) (.v 4) (.s 3) (.v 6)) (.bw true) (.bw true) (.bw true)) (.v 2) 2 :=
  witness_able _ _ _ _

theorem witness_MovesAndWideArithmetic : ((∀ q, Opnd.v 2 ≠ .q q) ∧ ∀ q, Opnd.s 4 ≠ .q q) ∧
    Able (Ix.of base (hd .f64)) (uses3 (hd .f64) (ops (.v 2) (.s 4) .none .none) (.bw true) (.bw true) (.bw true)) (.v 2) 2 :=
  ⟨⟨fun _ h => (nomatch h), fun _ h => (nomatch h)⟩, witness_able _ _ _ _⟩

theorem witness_MovesAndWideArithmetic_yields : (Ix.of base (hd .f128)).g ≠ 0 ∧ Readable (Ix.of base (hd .f128)) [] (Ix.of base (hd .f128)).g ∧
    Writable (Ix.of base (hd .f128)) (.v 2) 2 :=
  ⟨by decide +kernel, readable_clean (by decide +kernel) _ _, writable_clean (by decide +kernel) _ _⟩

/-- Under SET and AND some lane is guard-true; under GATE the whole entry takes part, whatever its guard. -/
theorem witness_ComparesAndPredicates :
    (∀ p ∈ [Merge.set, .and, .or, .gate].flatMap fun m => [Pct.mk m false, .mk m true], ((Ix.of base (hd .f96)).part p).g ≠ 0) ∧
    ((Ix.of base { hd .f96 with gn := true }).part ⟨.gate, false⟩).g ≠ 0 ∧ ∀ us m, Readable (Ix.of base (hd .f96)) us m :=
  ⟨by decide +kernel, by decide +kernel, readable_clean (by decide +kernel)⟩

/-- Numbers 0x1F and 0x24 stand beside the handler's registers, 0x20 and 0x23 are the first and the last of them. -/
theorem witness_SpecialRegistersAndLanes :
    ((0x20 ≤ (0x13#8).toNat ∧ (0x13#8).toNat ≤ 0x23 → ((Ix.of base (hd .f64)).x.trap).isSome = true) ∧
      (Ix.of base (hd .f64)).g ≠ 0 ∧ Writable (Ix.of base (hd .f64)) (.v 2) 1) ∧
    ((Ix.of (inTrap base) (hd .f64)).x.trap).isSome = true ∧ (Ix.of (inTrap base) (hd .f64)).g ≠ 0 ∧
    (0x20 ≤ (0x20#8).toNat ∧ (0x20#8).toNat ≤ 0x23 ∧ 0x20 ≤ (0x23#8).toNat ∧ (0x23#8).toNat ≤ 0x23 ∧
      (Ix.of base (hd .f64)).x.trap = none) :=
  ⟨⟨by decide, by decide +kernel, writable_clean (by decide +kernel) _ _⟩, by decide +kernel, by decide +kernel, by decide,
    by decide, by decide, by decide, by decide +kernel⟩

theorem witness_SpecialRegistersAndLanes_trap : (Ix.of (inTrap base) (hd .f64)).x.trap = some someTrap := by decide +kernel

/-- RDLANE and WRLANE of a lane that is present. -/
theorem witness_SpecialRegistersAndLanes_present :
    let i := Ix.of base (hd .f64)
    i.x.lanes.getLsbD ((i.read (.s 3) .w32 0).bits.toNat % 32) = true ∧
      Able i (uses3 (hd .f64) (ops (.v 1) (.v 2) (.s 3) .none) (.bw false) .w32 .w32) (.v 1) 1 :=
  ⟨by decide +kernel, witness_able _ _ _ _⟩

theorem witness_LaneExchanges : ((Opnd.v 1 ≠ Opnd.p 2) ∧ (Ix.of base (hd .f96)).g ≠ 0) ∧
    (∀ us m, Readable (Ix.of base (hd .f96)) us m) ∧ ∀ d n, Writable (Ix.of base (hd .f96)) d n :=
  ⟨⟨by decide, by decide +kernel⟩, readable_clean (by decide +kernel), writable_clean (by decide +kernel)⟩

theorem witness_FoldsAndMatch : Opnd.v 1 ≠ Opnd.p 2 ∧
    Able (Ix.of base (hd .f96)) (uses3 (hd .f96) { ops (.v 1) (.v 2) .none .none with d2 := .p 2 } (.bw Ty.b32.wide) .w32 .w32) (.v 1) 1 :=
  ⟨by decide, witness_able _ _ _ _⟩

theorem witness_FloatArithmetic :
    Able (Ix.of base (hd .f64)) (uses3 (hd .f64) (ops (.v 1) (.v 2) (.v 3) (.v 4)) .w32 .w32 .w32) (.v 1) 1 := witness_able _ _ _ _

/-- Rounding is asked of 1.0 of FP32 and of BF16, whose results are finite. -/
theorem witness_RoundingAndExactSums :
    (0x3F800000 < 2 ^ (Fmt.fp32.low + Fmt.fp32.mbits + Fmt.fp32.ebits + 1) ∧ 0x3F800000 % 2 ^ Fmt.fp32.low = 0 ∧
      (Fmt.fp32.val 0x3F800000).rat.isSome = true ∧ (0 : Nat) < 2 ^ 32) ∧
    Fmt.fp32.hasInf = true ∧ (Fmt.fp32.val (Fmt.fp32.round (.fin true 3 (-1)) .rdn false 0)).rat.isSome = true ∧
    (Fmt.fp32.val (Fmt.fp32.round (.fin true 3 (-1)) .rup false 0)).rat.isSome = true ∧
    (Fmt.fp32.val (Fmt.fp32.round (.fin true 3 (-1)) .rtz false 0)).rat.isSome = true := by decide +kernel

/-- The NaN 0x7F800001 and the powers of two 2^−126 and 2^126 of the statement about FRCP. -/
theorem witness_ApproximatedAndPacked :
    (Fmt.isNan .fp32 (0x7F800001 : Word).toNat = true ∧ (1 ≤ 1 ∧ 1 ≤ 253) ∧ (1 ≤ 253 ∧ 253 ≤ 253)) ∧
    Able (Ix.of base (hd .f64)) (uses3 (hd .f64) (ops (.v 1) (.v 2) (.v 3) (.v 4)) .w32 .w32 .w32) (.v 1) 1 :=
  ⟨by decide +kernel, witness_able _ _ _ _⟩

theorem witness_Conversions : ((Opnd.v 1 ≠ Opnd.v 2) ∧ (Ix.of base (hd .f96)).g ≠ 0) ∧
    (∀ us m, Readable (Ix.of base (hd .f96)) us m) ∧ (∀ d n, Writable (Ix.of base (hd .f96)) d n) ∧
    ∀ u ∈ uses3 (hd .f96) { ops (.v 1) (.v 3) (.v 4) .none with d2 := .v 2 } .w32 .w32 .w32,
      (Ix.of base (hd .f96)).isEmpty u.o u.n = false :=
  ⟨⟨by decide, by decide +kernel⟩, readable_clean (by decide +kernel), writable_clean (by decide +kernel),
    fun u _ => isEmpty_of_clean (by decide +kernel) _ _⟩

/-! ### States and operands that meet the hypotheses: memory -/

/-- Every guard-true lane's access is granted. -/
def grantedB (i : Ix) (k : Acc) (size : Nat) (va : Nat → Nat) : Bool :=
  (lanesOf i.g).all fun l => decide (va l % size = 0) && !i.outside (i.pa (va l)) &&
    match i.translate (va l) with | .ok leaf pa => !i.denied k leaf pa | _ => false

theorem granted_of {i : Ix} {k : Acc} {size : Nat} {va : Nat → Nat} (h : grantedB i k size va = true) : Granted i k size va := by
  simp only [grantedB, List.all_eq_true, Bool.and_eq_true, decide_eq_true_eq, Bool.not_eq_true'] at h
  have key : ∀ l, i.g.getLsbD l = true → l ∈ lanesOf i.g := fun l hl => by
    simp [lanesOf, List.mem_filter, hl, BitVec.lt_of_getLsbD hl]
  refine ⟨fun l hl => (h l (key l hl)).1.1, fun l hl => ?_, fun l hl => (h l (key l hl)).1.2⟩
  have h2 := (h l (key l hl)).2
  cases ht : i.translate (va l) with
  | ok leaf pa =>
    rw [ht] at h2
    exact ⟨leaf, by simp [Ix.pa, ht], by simpa [Ix.pa, ht] using h2⟩
  | miss => rw [ht] at h2; simp at h2
  | fail => rw [ht] at h2; simp at h2

/-- A scope-and-order byte without release or promotion asks for nothing at the home. -/
theorem orderly_plain {i : Ix} {write : Bool} {size : Nat} {va : Nat → Nat} (h : i.x.pseq = [])
    (hl : i.s.lateAt i.x.gc = false) : Orderly i plain write size va :=
  ⟨by simp [h], hl, fun h => (nomatch h), fun _ h => absurd h (by simp [Ix.relMark, ScopeOrder.rel, plain]), fun h => (nomatch h)⟩

theorem maypost_plain {i : Ix} {tgts : List Nat} {n : Nat} (h : i.x.pseq = []) (hh : (i.s.core i.x.gc).hints = [])
    (hl : i.s.lateAt i.x.gc = false) : MayPost i plain tgts n :=
  ⟨.inr (by simp [hh]), by simp [h], fun _ => hl, fun h => (nomatch h), fun h => absurd h (by simp [Ix.relMark, ScopeOrder.rel, plain])⟩

/-- The issue of the state with pages at hearths 0 and 1. -/
def mi : Ix := Ix.of mbase (hd .f96)

/-- The memory operand at the address in s2, at hearth 0, and the one at that in s4, at hearth 1. -/
def near (d c : Opnd) : Ops := ops d (.s 2) .zr c
def far (d c : Opnd) : Ops := ops d (.s 4) .zr c

theorem mi_clean : cleanB mi = true := by decide +kernel
theorem mi_lanes : mi.g ≠ 0 := by decide +kernel
theorem mi_pseq : mi.x.pseq = [] := by decide +kernel
theorem mi_late : mi.s.lateAt mi.x.gc = false := by decide +kernel
theorem mi_hints : (mi.s.core mi.x.gc).hints = [] := by decide +kernel
theorem mi_near : HomedAt mi (mi.va (near .none .none) memx 4) mi.here := lanes_all (by decide +kernel)
theorem mi_far : HomedAt mi (mi.va (far .none .none) memx 4) 1 := lanes_all (by decide +kernel)

theorem witness_MemoryAndPins : (3 < 4 ∧ (5 < 6 ∨ 6 + 4 ≤ 5) ∧ (4 ≤ 4 * 1 ∧ 4 * 1 + 4 ≤ 4 + 4) ∧
      (4 * 1 < 6 + 4 ∧ 6 < 4 * 1 + 4 ∧ ¬ (6 ≤ 4 * 1 ∧ 4 * 1 + 4 ≤ 6 + 4) ∧ 0 < 4) ∧ (4 * 1 + 4 ≤ 8 ∨ 8 + 4 ≤ 4 * 1)) := by decide

/-- A leaf with PINS 0, one with 255, and one that has been replaced. -/
theorem witness_MemoryAndPins_leaves :
    let s := State.reset.writeMem 0 8 0x100000000001F false
    let t := State.reset.writeMem 0 8 0x100000000FF1F false
    (((BitVec.ofNat 64 (s.readLE 0 8) : DWord).getLsbD 0 = true ∧ leafPa (BitVec.ofNat 64 (s.readLE 0 8)) = leafPa 0x100000000001F) ∧
      (s.byte 1).toNat < 255) ∧ (t.byte 1).toNat = 255 ∧ 0 < (t.byte 1).toNat ∧
    ¬ leafPa (BitVec.ofNat 64 (s.readLE 0 8)) = leafPa 0x200000000001F := by decide +kernel

theorem witness_LoadsAtTheirHome : (mi.g ≠ 0 ∧ (∀ us, Readable mi us mi.g) ∧ (∀ d n, Writable mi d n) ∧
      Granted mi (.read true) 4 (mi.va (near .none .none) memx 4) ∧ HomedAt mi (mi.va (near .none .none) memx 4) mi.here ∧
      Orderly mi plain false 4 (mi.va (near .none .none) memx 4)) ∧ (mbase.frag mi.f).fills = [] :=
  ⟨⟨mi_lanes, fun _ => readable_clean mi_clean _ _, writable_clean mi_clean, granted_of (by decide +kernel), mi_near,
    orderly_plain mi_pseq mi_late⟩, by decide +kernel⟩

theorem witness_LoadsAtTheirHome_ldx : Granted mi (.read false) (4 * XCount.n .x8) (mi.va (near .none .none) memx (4 * XCount.n .x8)) ∧
    HomedAt mi (mi.va (near .none .none) memx (4 * XCount.n .x8)) mi.here ∧
    Orderly mi plain false (4 * XCount.n .x8) (mi.va (near .none .none) memx (4 * XCount.n .x8)) ∧ isCpage 0x10000 = false :=
  ⟨granted_of (by decide +kernel), lanes_all (by decide +kernel), orderly_plain mi_pseq mi_late, by decide⟩

theorem witness_StoresAtTheirHome : (mi.g ≠ 0 ∧ (∀ us, Readable mi us mi.g) ∧
      Granted mi (.store true) 4 (mi.va (near .none (.v 1)) memx 4) ∧ HomedAt mi (mi.va (near .none (.v 1)) memx 4) mi.here ∧
      MayPost mi plain [] (lanesOf mi.g).length ∧
      ∀ l, mi.g.getLsbD l = true → isCpage (mi.pa (mi.va (near .none (.v 1)) memx 4 l)) = false) ∧
    LastWriter mi 4 (fun l => mi.pa (mi.va (near .none (.v 1)) memx 4 l)) 31 :=
  ⟨⟨mi_lanes, fun _ => readable_clean mi_clean _ _, granted_of (by decide +kernel), lanes_all (by decide +kernel),
    maypost_plain mi_pseq mi_hints mi_late, lanes_all (by decide +kernel)⟩,
    fun m hm hl => absurd (BitVec.lt_of_getLsbD hm) (by omega)⟩

theorem witness_StoresAtTheirHome_stx : Granted mi (.store true) (4 * XCount.n .x2) (mi.va (near .none (.v 2)) memx (4 * XCount.n .x2)) ∧
    HomedAt mi (mi.va (near .none (.v 2)) memx (4 * XCount.n .x2)) mi.here ∧
    MayPost mi plain [] ((lanesOf mi.g).length * XCount.n .x2) ∧
    ∀ l, mi.g.getLsbD l = true → isCpage (mi.pa (mi.va (near .none (.v 2)) memx (4 * XCount.n .x2) l)) = false :=
  ⟨granted_of (by decide +kernel), lanes_all (by decide +kernel), maypost_plain mi_pseq mi_hints mi_late, lanes_all (by decide +kernel)⟩

theorem witness_RemoteStoresArePosted : mi.g ≠ 0 ∧ 1 < 1024 ∧ 1 ≠ mi.here ∧ (∀ us, Readable mi us mi.g) ∧
    Granted mi (.store true) 4 (mi.va (far .none (.v 1)) memx 4) ∧ Granted mi .rmw 4 (mi.va (far .none (.v 1)) memx 4) ∧
    HomedAt mi (mi.va (far .none (.v 1)) memx 4) 1 ∧ MayPost mi plain [1] 0 ∧
    ∀ l, mi.g.getLsbD l = true → (mbase.pkg (corePkg mi.x.gc)).windowAt (mi.pa (mi.va (far .none (.v 1)) memx 4 l)) = none :=
  ⟨mi_lanes, by decide, by decide +kernel, fun _ => readable_clean mi_clean _ _, granted_of (by decide +kernel),
    granted_of (by decide +kernel), lanes_all (by decide +kernel), maypost_plain mi_pseq mi_hints mi_late, lanes_all (by decide +kernel)⟩

theorem witness_AtomicsAtTheirHome : (Ty.n32.bits = 32 ∧ Ty.b64.bits = 64 ∧ Opnd.v 1 ≠ Opnd.p 2) ∧ mi.g ≠ 0 ∧ (∀ us, Readable mi us mi.g) ∧
    (∀ d n, Writable mi d n) ∧ Granted mi .rmw 4 (mi.va (near (.v 1) (.v 2)) memx 4) ∧
    HomedAt mi (mi.va (near (.v 1) (.v 2)) memx 4) mi.here ∧ Orderly mi plain true 4 (mi.va (near (.v 1) (.v 2)) memx 4) ∧
    MayPost mi plain [] (lanesOf mi.g).length ∧
    ∀ l, mi.g.getLsbD l = true → (mbase.pkg (corePkg mi.x.gc)).windowAt (mi.pa (mi.va (near (.v 1) (.v 2)) memx 4 l)) = none :=
  ⟨by decide, mi_lanes, fun _ => readable_clean mi_clean _ _, writable_clean mi_clean, granted_of (by decide +kernel),
    lanes_all (by decide +kernel), orderly_plain mi_pseq mi_late, maypost_plain mi_pseq mi_hints mi_late, lanes_all (by decide +kernel)⟩

/-- The turn of `mi` in which the sequencer accepts local stores to apply them later. -/
def lateIx : Ix := Ix.of { mbase with late := true } (hd .f96)

theorem witness_StoresAndReductionsLate : mbase.late = false ∧ lateIx.s.late = true ∧ lateIx.g ≠ 0 ∧ (∀ us, Readable lateIx us lateIx.g) ∧
    Granted lateIx (.store true) 4 (lateIx.va (near .none (.v 1)) memx 4) ∧ Granted lateIx .rmw 4 (lateIx.va (near .none (.v 1)) memx 4) ∧
    HomedAt lateIx (lateIx.va (near .none (.v 1)) memx 4) lateIx.here ∧ MayPost lateIx plain [] (lanesOf lateIx.g).length ∧
    ∀ l, lateIx.g.getLsbD l = true → (lateIx.s.pkg (corePkg lateIx.x.gc)).windowAt (lateIx.pa (lateIx.va (near .none (.v 1)) memx 4 l)) = none :=
  ⟨by decide +kernel, by decide +kernel, by decide +kernel, fun _ => readable_clean (by decide +kernel) _ _, granted_of (by decide +kernel),
    granted_of (by decide +kernel), lanes_all (by decide +kernel),
    maypost_plain (by decide +kernel) (by decide +kernel) (by decide +kernel), lanes_all (by decide +kernel)⟩

/-- LDS, STS and ATOMS at the first and at the last word of the allocation. -/
theorem witness_ScratchpadAccesses (write : Bool) (us : List Use) :
    ∀ disp ∈ [0, 4 * 16383], let i := Ix.of (setS [(2, disp)] base) (hd .f96)
      SpadOk i us (near (.v 1) (.v 2)) plain 4 write (fun l => (i.ea (near (.v 1) (.v 2)) 0 0 4 l).toNat)
        (i.ea (near (.v 1) (.v 2)) 0 0 4) := by
  intro disp hd'
  have hb : disp = 0 ∨ disp = 4 * 16383 := by simpa using hd'
  rcases hb with rfl | rfl <;>
  exact ⟨by decide +kernel, readable_clean (by decide +kernel) _ _, lanes_all (by decide +kernel), lanes_all (by decide +kernel),
    by decide +kernel, lanes_all (by cases write <;> decide +kernel), fun h => (nomatch h),
    fun _ h => absurd h (by simp [Ix.relMark, ScopeOrder.rel, plain]), fun h => (nomatch h)⟩

theorem witness_FencesWaitsAndHomes :
    (mi.g ≠ 0 ∧ mbase.performed mi.x = true) ∧ Opnd.v 1 ≠ Opnd.p 2 ∧ (∀ us, Readable mi us mi.g) ∧ (∀ d n, Writable mi d n) ∧
    Granted mi .watch 4 (mi.va (near .none .none) memx 4) ∧ Granted mi { Acc.watch with repl := false } 4 (mi.va (near .none .none) memx 4) ∧
    HomedAt mi (mi.va (near .none .none) memx 4) mi.here ∧ Orderly mi plain false 4 (mi.va (near .none .none) memx 4) ∧
    ∀ l, mi.g.getLsbD l = true → mi.translate (wrapTo (mi.ea (near .none .none) 0 0 1 l) 64) ≠ .miss :=
  ⟨⟨mi_lanes, by decide +kernel⟩, by decide, fun _ => readable_clean mi_clean _ _, writable_clean mi_clean, granted_of (by decide +kernel),
    granted_of (by decide +kernel), mi_near, orderly_plain mi_pseq mi_late, lanes_all (by decide +kernel)⟩

/-- WAITA and POLL: memory reads 0, which differs from 1 and equals 0; a woken entry. -/
theorem witness_FencesWaitsAndHomes_wait :
    let ne (i : Ix) (c : Opnd) (l : Nat) : Bool :=
      decide ((i.s.readAt (i.s.ctxOf i.x) (i.pa (i.va (near .none .none) memx 4 l)) 4).bits ≠ (i.expected c .b32 l).bits)
    let i := Ix.of (setS [(2, 0x10000), (5, 1)] mbase) (hd .f96)
    ((lanesOf i.g).any (ne i (.s 5)) = true) ∧ ((lanesOf i.g).any (ne i .zr) = false ∧ i.e.woken = false) ∧
    (Ix.of (wokenState mbase) (hd .f96)).e.woken = true := by decide +kernel

theorem witness_RemoteAccessesMigrate : (mi.g ≠ 0 ∧ mi.g = mi.x.lanes ∧ mi.e.mask = mi.g ∧ 1 < 1024 ∧ 1 ≠ mi.here ∧ mi.x.trap = none) ∧
    (∀ us, Readable mi us mi.g) ∧ (∀ d n, Writable mi d n) ∧ Granted mi (.read true) 4 (mi.va (far .none .none) memx 4) ∧
    Granted mi .go 1 (fun l => wrapTo (mi.ea (far .none .none) 0 0 1 l) 64) ∧
    Granted mi .go 1 (fun l => wrapTo (mi.ea (near .none .none) 0 0 1 l) 64) ∧
    HomedAt mi (mi.va (far .none .none) memx 4) 1 ∧ HomedAt mi (fun l => wrapTo (mi.ea (far .none .none) 0 0 1 l) 64) 1 ∧
    HomedAt mi (fun l => wrapTo (mi.ea (near .none .none) 0 0 1 l) 64) mi.here ∧
    (mbase.lateAt mi.x.gc = false ∧ ∀ e ∈ mi.x.pseq, e.tgt = mi.here → mbase.pendingTo e.src e.tgt e.seq = false) ∧
    (∀ c ∈ (mbase.core mi.x.gc).hints, c.target ≠ 1) :=
  ⟨by decide +kernel, fun _ => readable_clean mi_clean _ _, writable_clean mi_clean, granted_of (by decide +kernel),
    granted_of (by decide +kernel), granted_of (by decide +kernel), mi_far, lanes_all (by decide +kernel),
    lanes_all (by decide +kernel), ⟨mi_late, by rw [mi_pseq]; simp⟩, by
      have h := mi_hints
      have e : (mbase.core mi.x.gc) = mi.s.core mi.x.gc := rfl
      rw [e, h]; simp⟩

/-- GO.ANCHOR at the anchor, and from another core. -/
theorem witness_RemoteAccessesMigrate_anchor :
    base.atAnchor (Ix.of base (hd .f96)).x = true ∧
    (let i := Ix.of (away base) (hd .f96)
     i.g ≠ 0 ∧ i.s.atAnchor i.x = false ∧ i.x.trap = none ∧ i.e.mask = i.x.lanes ∧ i.e.mask ≠ 0 ∧
      ∀ c ∈ (i.s.core i.x.gc).hints, c.target ≠ i.s.anchorOf i.x / 8) := by decide +kernel

/-! ### States and operands that meet the hypotheses: control -/

theorem noPrio_of {i : Ix} (h : i.s.debug i.x = false) (lanes : LaneMask) (pri : BitVec 8) (target : Nat → DWord) :
    NoPrio i lanes pri target := fun hd => by rw [h] at hd; cases hd

theorem inBody_of {i : Ix} (h : i.x.loops = []) : InBody i := fun lp hl => by rw [h] at hl; cases hl

/-- An instruction of core 0 at 0x10000, and one under a loop whose last instruction is another. -/
def ci : Ix := Ix.of (setS [(2, 0x10040), (4, 0x2000000010040), (6, 1)] base) (hd .f128)
def cl : Ix := Ix.of (base.modFrag 0 fun x => { x with loops := [{ count := 2, prio := 0x10, start := 0x10000, stop := 0x10010 }] }) (hd .f128)

theorem ci_clean : cleanB ci = true := by decide +kernel
theorem ci_body : InBody ci := inBody_of (by decide +kernel)

theorem witness_BranchesMoveLanes :
    (ci.g ≠ 0 ∧ (ci.literalTarget { no with b := .lit 0xFFFFFFC0 }).toNat % 4 = 0 ∧ InBody ci ∧ (∀ m p t, NoPrio ci m p t)) ∧
    (Readable ci [{ o := .s 2, n := 2, bit := false }] ci.g ∧
      (∀ l, ci.g.getLsbD l = true → (ci.read (.s 2) (.bw true) l).bits.toNat % 4 = 0) ∧ ci.isEmpty (.v 2) 2 = false ∧
      ∀ k, Opnd.v 2 ≠ .m k) ∧
    (cl.g ≠ 0 ∧ InBody cl ∧ ∀ m p t, NoPrio cl m p t) :=
  ⟨⟨by decide +kernel, by decide +kernel, ci_body, noPrio_of (by decide +kernel)⟩,
    ⟨readable_clean ci_clean _ _, lanes_all (by decide +kernel), isEmpty_of_clean ci_clean _ _, fun _ h => (nomatch h)⟩,
    ⟨by decide +kernel, fun lp hl => by
      have : lp = { count := 2, prio := 0x10, start := 0x10000, stop := 0x10010 } := by
        have e : cl.x.loops = [{ count := 2, prio := 0x10, start := 0x10000, stop := 0x10010 }] := by decide +kernel
        rw [e] at hl; simpa using hl
      subst this; decide +kernel, noPrio_of (by decide +kernel)⟩⟩

/-- CALL raises the base to the last that an allotment of 128 registers allows. -/
theorem witness_CallsAndReturns : let i := Ix.of (setRec 0x31 1 (setS [(2, 0x10040)] base)) (hd .f128)
    let target (_ : Nat) : DWord := i.literalTarget { no with b := .lit 0x40 }
    ((8 : BitVec 3) ≠ 0 ∨ (7 : BitVec 3) ≠ 0) ∧ i.g ≠ 0 ∧ InBody i ∧ i.x.wbase + 8 * 7 + 64 ≤ (i.s.pour (i.s.pourOf i.x)).allot ∧
      (∀ l, i.g.getLsbD l = true → (target l).toNat % 4 = 0) ∧ i.next.toNat < 2 ^ 53 ∧ NoPrio i i.g 0x20 target ∧
      i.s.atAnchor i.x = true ∧ (i.x.handler = true → i.x.frontier = i.g) ∧
      Ix.isEmpty { i with x := { i.x with wbase := i.x.wbase + 8 * 7 } } (.v 2) 2 = false ∧
      Readable i [{ o := .s 2, n := 2, bit := false }] i.g ∧
      (∀ l, i.g.getLsbD l = true → (i.read (.s 2) (.bw true) l).bits.toNat % 4 = 0) :=
  ⟨by decide, by decide +kernel, inBody_of (by decide +kernel), by decide +kernel, lanes_all (by decide +kernel), by decide +kernel,
    noPrio_of (by decide +kernel) _ _ _, by decide +kernel, by decide +kernel, by decide +kernel,
    readable_clean (by decide +kernel) _ _, lanes_all (by decide +kernel)⟩

/-- RET of a link whose shift is 0, and of one whose shift is 1 at window base 8. -/
theorem witness_CallsAndReturns_ret :
    let i0 := Ix.of (setS [(2, 0x200000000010040)] base) (hd .f96)
    let i1 := Ix.of ((setS [(2, 0x2200000000010040)] base).modFrag 0 fun x => { x with wbase := 8 }) (hd .f96)
    let w (i : Ix) (l : Nat) : DWord := (i.read (.s 2) (.bw true) l).bits
    (i0.g ≠ 0 ∧ (∀ l, l < 32 → (w i0 l).toNat / 2 ^ 61 = 0) ∧ 8 * 0 ≤ i0.x.wbase ∧ (∀ l, l < 32 → (w i0 l).toNat % 4 = 0) ∧
      i0.s.atAnchor i0.x = true) ∧
    (i1.g ≠ 0 ∧ (∀ l, l < 32 → (w i1 l).toNat / 2 ^ 61 = 1) ∧ 8 * 1 ≤ i1.x.wbase ∧ (∀ l, l < 32 → (w i1 l).toNat % 4 = 0) ∧
      i1.s.atAnchor i1.x = true ∧ i1.x.handler = false) := by decide +kernel

/-- A state whose core keeps a block with the word of the manual's IADD at 0x10008. -/
def withCode : State :=
  (setS [(6, 1)] base).modCore 0 fun c => { c with icache := [(icKey 0 0x10000, some (BitVec.ofNat 256 (0x080000238102CC00 * 2 ^ 64)))] }

theorem witness_LoopsAndRepeats : let i := Ix.of withCode (hd .f64)
    let nx : Instr := .iadd { hd .f64 with gn := true, gp := 3 } (ops (.v 5) (.v 2) (.s 7) .none) .i32 false
    (i.g ≠ 0 ∧ i.x.loops.length < 4 ∧ (i.uniform (.s 6) .w32).bits.toNat % 2 ^ 24 = 1 ∧ (i.uniform (.s 7) .w32).bits.toNat = 0 ∧
      InBody i ∧ (∀ us m, Readable i us m) ∧ ∀ m p t, NoPrio i m p t) ∧
    (i.instrAt i.next = some nx ∧ repeatable nx { d := strideOf 1, a := strideOf 1, b := strideOf 0, c := strideOf 0 } = true ∧
      repInWindow nx { d := strideOf 1, a := strideOf 1, b := strideOf 0, c := strideOf 0 } 58 = true ∧
      repInWindow nx { d := strideOf 1, a := strideOf 1, b := strideOf 0, c := strideOf 0 } 0 = true) :=
  ⟨⟨by decide +kernel, by decide +kernel, by decide +kernel, by decide +kernel, inBody_of (by decide +kernel),
    readable_clean (by decide +kernel), noPrio_of (by decide +kernel)⟩, by decide +kernel⟩

/-- Lanes that complete an instruction: past it, at the end instruction of a loop, and in a repetition that is not its last and
one that is. -/
theorem witness_LoopsAndRepeats_goOn :
    let e : Entry := { prio := 0x10, pc := 0x10000, mask := 0xFF, wait := none }
    let x : Frag := { base.frag 0 with entries := [e] }
    let lp : LoopEnt := { count := 2, prio := 0x10, start := 0x10000, stop := 0x10000 }
    let r (c : Word) : Frag := { x with rep := some (0x10, 0x10000), repc := c }
    findEntry x.entries e.prio e.pc = some e ∧ x.repeats e.prio e.pc = false ∧
    (∀ lp ∈ x.loops.head?, lp.stop ≠ e.pc) ∧ (∃ q ∈ ({ x with loops := [lp] } : Frag).loops.head?, q.stop = e.pc) ∧
    ((r 0x200).repeats e.prio e.pc = true ∧ (r 0x200).repc.toNat % 256 + 1 < (r 0x200).repc.toNat / 256 % 256) ∧
    ((r 0x201).repeats e.prio e.pc = true ∧ ¬ (r 0x201).repc.toNat % 256 + 1 < (r 0x201).repc.toNat / 256 % 256) := by
  refine ⟨by decide +kernel, by decide +kernel, by decide +kernel, ⟨_, rfl, by decide +kernel⟩, by decide +kernel, by decide +kernel⟩

theorem witness_MasksAndJoins :
    (ci.g ≠ 0 ∧ (∀ us m, Readable ci us m) ∧ (ci.h.split = true → ci.s.atAnchor ci.x = true) ∧ ci.x.handler = false) ∧
    (∀ m : LaneMask, m = 0 → m &&& ~~~ci.g = 0) ∧ (setE 0xF none base |>.frag 0).entries.length = 1 ∧
    (let i := Ix.of ((setE 0xF none base).modHoist 0 fun h => { h with masks := [(1, 0xFF)] }) (hd .f96)
     i.g ≠ 0 ∧ i.x.handler = false ∧ Sparse.get 0 i.h.masks 1 &&& ~~~i.g ≠ 0) ∧
    (let i := Ix.of (base.modHoist 0 fun h => { h with split := true }) (hd .f96)
     i.h.split = true ∧ i.s.atAnchor i.x = true ∧ i.s.performed i.x = true) ∧
    (ci.g &&& ~~~(ci.uniform (.s 6) .w32).bits.setWidth 32 ≠ ci.g ∧ ∃ l, l < 32 ∧ ci.h.exited.getLsbD l = false ∧
      (ci.s.heldLanes ci.x.hoist).getLsbD l = false ∧ (ci.g &&& ~~~(ci.uniform (.s 6) .w32).bits.setWidth 32).getLsbD l = false) :=
  ⟨⟨by decide +kernel, readable_clean ci_clean, by decide +kernel, by decide +kernel⟩, by intro m h; subst h; decide +kernel,
    by decide +kernel, by decide +kernel, by decide +kernel, by decide +kernel, 0, by decide +kernel⟩

/-- EMSET that parks a whole fragment while other lanes of the hoist go on. -/
theorem witness_MasksAndJoins_wholeFragment :
    let i := Ix.of ((setE 0xF none base).modFrag 0 fun x => { x with lanes := 0xF }) (hd .f96)
    let park : LaneMask := i.g &&& ~~~(i.uniform .zr .w32).bits.setWidth 32
    i.g ≠ 0 ∧ i.x.handler = false ∧ i.x.lanes &&& ~~~park = 0 ∧ i.x.pinned = [] ∧
    ∃ l, l < 32 ∧ i.h.exited.getLsbD l = false ∧ (i.s.heldLanes i.x.hoist).getLsbD l = false ∧ park.getLsbD l = false :=
  ⟨by decide +kernel, by decide +kernel, by decide +kernel, by decide +kernel, 31, by decide +kernel⟩

/-- JOIN of a mask that names the lanes that issue it. -/
theorem witness_MasksAndJoins_join :
    let i := Ix.of ((setE 0xF none base).modHoist 0 fun h => { h with masks := [(1, 0xF)] }) (hd .f96)
    let m : LaneMask := Sparse.get 0 i.h.masks 1
    let held := i.s.heldOn i.x.hoist 1 ||| (i.g &&& m)
    i.g ≠ 0 ∧ i.e.mask &&& i.x.lanes ≠ 0 ∧ i.x.handler = false ∧ i.s.atAnchor i.x = true ∧ m &&& ~~~held = 0 ∧
    (∀ f ∈ i.s.joinParts i.x.hoist (held ||| i.e.mask), (i.s.frag f).hasEmpty = false ∧ (i.s.frag f).pinned = []) ∧
    (i.s.joinedPSeq (i.s.joinParts i.x.hoist (held ||| i.e.mask))).length ≤ 4 := by decide +kernel

/-- The state whose barrier 3 has the arrivals, waiting lanes and count given. -/
def withBar (b : Barrier) : State := base.modCast 0 fun c => { c with bars := [(3, b)] }

/-- What a BAR needs: lanes, a release that has nothing to wait for, and a cast that runs. -/
def barReady (i : Ix) : Bool :=
  decide (i.g ≠ 0) && !i.x.handler && (if i.wideScope .cast then i.s.performed i.x else i.s.coreDone i.x) &&
    !i.s.barFull i.h.cast 3 && !(i.s.cast i.h.cast).parking && decide ((i.s.cast i.h.cast).st ≠ .parked)

/-- The arrival of the lanes that issue brings barrier 3 to its count. -/
def barOpens (i : Ix) (o : Opnd) (arv : Bool) : Bool :=
  let b := (i.s.cast i.h.cast).bar 3
  let n := b.count.getD (min ((i.uniform o .w32).bits.toNat % 2048) 1024)
  decide (i.barLanes 3 arv ≠ 0) && decide ((if n = 0 then i.s.aliveLanes i.h.cast else n) ≤
    laneCount (addLanes b.arrived (i.x.hoist % 32) (i.barLanes 3 arv)))

/-- A barrier whose count is not reached (33, and the last that B can give), one whose count is, with B = 0 and with B the number of
lanes; lanes that have arrived already; and a BAR away from the anchor, of lanes that arrive and of lanes that wait. -/
theorem witness_BarriersAndPauses :
    barReady ci = true ∧ Readable ci [{ o := .s 6, n := 1, bit := false }] ci.g ∧ ci.s.atAnchor ci.x = true ∧ ci.g = ci.e.mask ∧
    (∀ c ∈ [(32, true), (0, true), (33, false), (2047, false)], ∀ arv ∈ [true, false],
      let i := Ix.of (setS [(6, BitVec.ofNat 64 c.1)] base) (hd .f64)
      barOpens i (.s 6) arv = c.2 ∧ barReady i = true ∧ ((i.s.cast i.h.cast).bar 3).waits = [] ∧ i.barLanes 3 arv = i.g ∧
        i.g &&& ~~~i.x.lanes = 0 ∧ i.x.hoist / 32 = i.h.cast ∧ i.barLanes 3 arv &&& i.x.lanes ≠ 0) ∧
    (let i := Ix.of (withBar { arrived := [(0, 0xFFFFFFFF)], waits := [], count := some 33 }) (hd .f64)
     barReady i = true ∧ i.barLanes 3 true = 0 ∧ barOpens i .zr true = false) ∧
    (let i := Ix.of (away base) (hd .f64)
     barReady i = true ∧ i.s.atAnchor i.x = false ∧ i.barLanes 3 true ≠ 0 ∧ i.barLanes 3 false ≠ 0) ∧
    (let i := Ix.of ((away (withBar { arrived := [(0, 0xFFFFFFFF)], waits := [], count := some 33 }))) (hd .f64)
     barReady i = true ∧ i.s.atAnchor i.x = false ∧ i.barLanes 3 true = 0) :=
  ⟨by decide +kernel, readable_clean ci_clean _ _, by decide +kernel, by decide +kernel, by decide +kernel, by decide +kernel,
    by decide +kernel, by decide +kernel⟩

/-- EXIT of some lanes, of the last lanes, and away from the anchor; RAISE in a pour without and with dependences. -/
theorem witness_LanesExitAndRaise :
    (let i := Ix.of (setE 0xF none base) (hd .f64)
     i.g ≠ 0 ∧ (i.mustRelease = true → i.s.performed i.x = true) ∧ (i.x.lanes &&& ~~~i.g = 0 → i.x.pinned = []) ∧
      i.s.atAnchor i.x = true ∧ i.x.trap = none ∧ (∀ b ∈ (i.s.cast i.h.cast).bars, ∀ w ∈ b.2.waits, w.hoist = i.x.hoist → w.lanes &&& i.x.lanes = 0) ∧
      i.x.lanes &&& ~~~i.g ≠ 0 ∧ (31 < 32 ∧ i.h.exited.getLsbD 31 = false ∧ (i.s.heldLanes i.x.hoist).getLsbD 31 = false ∧ i.g.getLsbD 31 = false)) ∧
    (let i := Ix.of base (hd .f64)
     i.g ≠ 0 ∧ i.x.pinned = [] ∧ (i.mustRelease = true → i.s.performed i.x = true) ∧ i.s.atAnchor i.x = true ∧ i.h.live = true ∧ i.x.lanes = i.g ∧
      i.s.hoistFrags i.x.hoist = [i.f] ∧ i.h.exited ||| i.g = BitVec.allOnes 32) ∧
    (let i := Ix.of (away base) (hd .f64)
     i.g ≠ 0 ∧ (i.mustRelease = true → i.s.performed i.x = true) ∧ i.x.pinned = [] ∧ i.s.atAnchor i.x = false ∧
      ∀ c ∈ (i.s.core i.x.gc).hints, c.target ≠ i.s.anchorOf i.x / 8) ∧
    (let i := Ix.of base (hd .f64)
     i.g ≠ 0 ∧ i.x.handler = false ∧ ¬ (i.s.pour (i.s.cast i.h.cast).pour).deps = true) ∧
    (let i := Ix.of (setRec 0x36 4 base) (hd .f64)
     i.g ≠ 0 ∧ i.x.handler = false ∧ (i.s.pour (i.s.cast i.h.cast).pour).deps = true ∧ (i.s.cast i.h.cast).psent = false ∧
      (i.h.raised ||| i.h.exited) ≠ BitVec.allOnes 32 ∧ (i.mustRelease = true → i.s.performed i.x = true)) := by decide +kernel

/-- POUR, and POURW of a record whose status is 2, 3, 0x8000 and, last, 0x7FFF. -/
theorem witness_LaunchInstructions :
    (mi.g ≠ 0 ∧ (∀ us m, Readable mi us m) ∧ (∀ d n, Writable mi d n) ∧ Granted mi .rmw 128 (fun _ => (mi.uniform (.s 2) (.bw true)).bits.toNat) ∧
      HomedAt mi (fun _ => (mi.uniform (.s 2) (.bw true)).bits.toNat) mi.here) ∧
    (Granted mi .rmw 128 (fun _ => (mi.uniform (.s 4) (.bw true)).bits.toNat) ∧
      paHearth (mi.pa (mi.uniform (.s 2) (.bw true)).bits.toNat) = mi.here ∧ paHearth (mi.pa (mi.uniform (.s 4) (.bw true)).bits.toNat) ≠ mi.here) ∧
    (mi.wideScope .domain = true → mbase.performed mi.x = true) ∧ (mbase.listFull 0 = false ∧ mbase.listFull 1 = false) ∧
    (mbase.lateAt mi.x.gc = false ∧ ∀ e ∈ mi.x.pseq, e.tgt = mi.here → mbase.pendingTo e.src e.tgt e.seq = false) ∧
    ((∀ k, Opnd.v 1 ≠ .m k) ∧ (∀ k, Opnd.v 1 ≠ .p k)) ∧
    (∀ st ∈ [2, 3, 0x8000], let v := ((mbase.writeMem 0x10052 2 st false).readAt 0 0x10052 2).bits.toNat; v = 2 ∨ v = 3 ∨ 0x8000 ≤ v) ∧
    (let v := ((mbase.writeMem 0x10052 2 0x7FFF false).readAt 0 0x10052 2).bits.toNat; ¬ (v = 2 ∨ v = 3 ∨ 0x8000 ≤ v)) :=
  ⟨⟨mi_lanes, readable_clean mi_clean, writable_clean mi_clean, granted_of (by decide +kernel), lanes_all (by decide +kernel)⟩,
    ⟨granted_of (by decide +kernel), by decide +kernel, by decide +kernel⟩, by decide +kernel, by decide +kernel,
    ⟨mi_late, by rw [mi_pseq]; simp⟩, ⟨fun _ h => (nomatch h), fun _ h => (nomatch h)⟩, by decide +kernel, by decide +kernel⟩

/-! ### States and operands that meet the hypotheses: traps and system instructions -/

/-- No fragment of the small state holds pins. -/
theorem pinned_nil {s : State} (h : ∀ q ∈ s.frags, q.2.pinned = []) (f : Nat) : (s.frag f).pinned = [] := by
  unfold State.frag
  generalize s.frags = l at h
  induction l with
  | nil => rfl
  | cons q t ih =>
    simp only [Sparse.get]
    split
    · exact h q (by simp)
    · exact ih fun r hr => h r (by simp [hr])

/-- TRAP with a handler, and guard-false; a double fault in handler mode, and one without a handler. -/
theorem witness_SoftwareTrapsAndDoubleFaults :
    (let i := Ix.of (traps false base) (hd .f64); i.g ≠ 0 ∧ Trappable i) ∧ (Ix.of base { hd .f64 with gn := true }).g = 0 ∧
    (∀ s ∈ [base, inTrap (traps false base)], let i := Ix.of s (hd .f64)
      i.g ≠ 0 ∧ i.x.gc < 8192 ∧ (i.x.trap ≠ none ∨ (s.trapEnt i.x).handler &&& ~~~3 = 0) ∧ (s.pour (s.pourOf i.x)).st = .accepted ∧
        ofPour (s.pourOf i.x) (s.castOf i.x) = true ∧ ∃ q ∈ s.casts, q.1 = s.castOf i.x) ∧
    ∀ f, (base.frag f).pinned = [] ∧ ((inTrap (traps false base)).frag f).pinned = [] := by
  refine ⟨⟨by decide +kernel, by decide +kernel, by decide +kernel⟩, by decide +kernel, by decide +kernel,
    fun f => ⟨pinned_nil (by decide +kernel) f, pinned_nil (by decide +kernel) f⟩⟩

/-- v2 is empty; its elements in lane 0 are poisoned; v1 is empty. -/
def emptyReg (r : Nat) (s : State) : State := s.modFrag 0 fun x => { x with vempty := BitVec.ofNat 256 (2 ^ r) }

theorem witness_ChecksTrapOrWait :
    let us (h : Hdr) := uses3 h (ops (.v 1) (.v 2) .zr .none) .w32 .w32 .w32
    (∀ e : Bool, let i := Ix.of (traps false (emptyReg 2 base)) { hd .f64 with ea := e }
      i.g ≠ 0 ∧ (∃ u ∈ (us { hd .f64 with ea := e }).head?, i.isEmpty u.o u.n = true ∧ u.bit = e) ∧ i.x.trap = none ∧
        (i.s.trapEnt i.x).handler &&& ~~~3 ≠ 0) ∧
    (let i := Ix.of (emptyReg 1 base) (hd .f64)
     i.g ≠ 0 ∧ (∀ u ∈ us (hd .f64), i.isEmpty u.o u.n = false) ∧ i.isEmpty (.v 1) 1 = true ∧ i.s.debug i.x = false ∧
      (i.s.trapEnt i.x).tpoison = false) ∧
    (let i := Ix.of ((traps false (setRec 0x36 8 base)).modFrag 0 fun x => { x with vabsent := 4 }) (hd .f64)
     i.g ≠ 0 ∧ (∀ u ∈ us (hd .f64), i.isEmpty u.o u.n = false) ∧ i.s.debug i.x = true ∧
      (∃ u ∈ us (hd .f64), i.anyReg i.x.vabsent i.x.sabsent u.o u.n = true) ∧ i.x.trap = none ∧ (i.s.trapEnt i.x).handler &&& ~~~3 ≠ 0) ∧
    (let i := Ix.of ((traps true base).modHoist 0 fun h => { h with vpoison := [(64, true)] }) (hd .f64)
     i.g ≠ 0 ∧ (∀ u ∈ us (hd .f64), i.isEmpty u.o u.n = false) ∧ i.s.debug i.x = false ∧ (i.s.trapEnt i.x).tpoison = true ∧
      i.x.trap = none ∧ (i.s.trapEnt i.x).handler &&& ~~~3 ≠ 0 ∧
      (∀ l, l < 32 → (1 : LaneMask).getLsbD l = (i.g.getLsbD l && i.h.elemMark (i.areg 2) l))) := by decide +kernel

/-- The lanes whose access may not be used are those that the access check names. -/
theorem bad_iff (i : Ix) (k : Acc) (va : Nat) : (i.translate va = .fail ∨
    ∃ leaf pa, i.translate va = .ok leaf pa ∧ i.denied k leaf pa = true) ↔ i.accessBad k va = true := by
  cases h : i.translate va <;> simp [Ix.accessBad, h]

/-- A state whose s2 holds an address that is misaligned, that may not be read (page 3), that is outside the partition (page 4),
and that no translation covers (page 9). -/
def badAt (a : DWord) : Ix := Ix.of ((traps false (setS [(2, a)] mbase)).modCore 0 fun c => { c with
  tlb := c.tlb ++ [{ ctx := 0, page := 3, bits := 16, leaf := 0x30001 }, { ctx := 0, page := 4, bits := 16, leaf := BitVec.ofNat 64 (2 * 2 ^ 39 + 0x4001F) }] })
  (hd .f96)

theorem va_near (i : Ix) (d c : Opnd) (n l : Nat) : i.va (near d c) memx n l = i.va (near d c) memx n 0 := rfl

/-- All lanes of the entry read the address, no handler runs, and one is named. -/
def goodB (i : Ix) : Bool := goB i && decide (i.x.trap = none) && decide ((i.s.trapEnt i.x).handler &&& ~~~3 ≠ 0)

theorem witness_ChecksTrapOrWait_misaligned : let i := badAt 0x10002
    goodB i = true ∧ i.g = BitVec.allOnes 32 ∧ ∀ l, i.va (near (.v 1) .none) memx 4 l % 4 ≠ 0 :=
  ⟨by decide +kernel, by decide +kernel, fun l => by rw [va_near]; decide +kernel⟩

theorem witness_ChecksTrapOrWait_access : let i := badAt 0x30000
    let va := i.va (near (.v 1) .none) memx 4
    goodB i = true ∧ i.g = BitVec.allOnes 32 ∧ (∀ l, va l % 4 = 0) ∧ (∀ l, i.translate (va l) ≠ .miss) ∧
    ∀ l, i.translate (va l) = .fail ∨ ∃ leaf pa, i.translate (va l) = .ok leaf pa ∧ i.denied (.read true) leaf pa = true :=
  ⟨by decide +kernel, by decide +kernel, fun l => by rw [va_near]; decide +kernel, fun l => by rw [va_near]; decide +kernel,
    fun l => by rw [va_near, bad_iff]; decide +kernel⟩

theorem witness_ChecksTrapOrWait_partition : let i := badAt 0x40000
    let va := i.va (near (.v 1) .none) memx 4
    goodB i = true ∧ i.g = BitVec.allOnes 32 ∧ (∀ l, va l % 4 = 0) ∧ (∀ l, i.translate (va l) ≠ .miss) ∧
    (∀ l, ¬ (i.translate (va l) = .fail ∨ ∃ leaf pa, i.translate (va l) = .ok leaf pa ∧ i.denied (.read true) leaf pa = true)) ∧
    ∀ l, i.outside (i.pa (va l)) = true :=
  ⟨by decide +kernel, by decide +kernel, fun l => by rw [va_near]; decide +kernel, fun l => by rw [va_near]; decide +kernel,
    fun l => by rw [va_near, bad_iff]; decide +kernel, fun l => by rw [va_near]; decide +kernel⟩

theorem witness_ChecksTrapOrWait_walk : let i := badAt 0x90000
    let va := i.va (near (.v 1) .none) memx 4
    goodB i = true ∧ (∀ l, va l % 4 = 0) ∧ i.g.getLsbD 0 = true ∧ i.translate (va 0) = .miss ∧ ∀ m, ¬ m < 0 :=
  ⟨by decide +kernel, fun l => by rw [va_near]; decide +kernel, by decide +kernel, by decide +kernel, by omega⟩

/-- The registers 0x1F and 0x2D stand beside those of a handler, 0x20 and 0x2C are the first and the last of them. -/
theorem witness_SystemRegisters :
    (∀ n : BitVec 8, n ∈ [0x13#8, 0x30] → let i := Ix.of base (hd .f96)
      i.g ≠ 0 ∧ (handlerOnly n.toNat = true → i.x.trap ≠ none) ∧ i.isEmpty (.v 2) 2 = false) ∧
    (∀ n : BitVec 8, n ∈ [0x20#8, 0x2C] → (let i := Ix.of (inTrap base) (hd .f96)
      i.g ≠ 0 ∧ (handlerOnly n.toNat = true → i.x.trap ≠ none) ∧ i.isEmpty (.v 2) 2 = false) ∧
      handlerOnly n.toNat = true ∧ (Ix.of base (hd .f96)).x.trap = none) ∧
    (Ix.of (inTrap base) (hd .f96)).x.trap = some someTrap ∧ ∀ us m, Readable (Ix.of (inTrap base) (hd .f96)) us m :=
  ⟨by decide +kernel, by decide +kernel, by decide +kernel, readable_clean (by decide +kernel)⟩

/-- A handler runs, the trapped instruction is one of 8 bytes, and s6 holds another address. -/
def handlerState : State :=
  (inTrap (setS [(6, 0x10040)] base)).modCore 0 fun c => { c with icache := [(icKey 0 0x50000, some (BitVec.ofNat 256 0x348))] }

def hi : Ix := Ix.of handlerState (hd .f64)

theorem witness_ReturnsFromTraps_refused : (Ix.of base (hd .f64)).x.trap = none := by decide +kernel

/-- The three targets; every lane of the handler's only entry returns; the cast may be parked. -/
theorem witness_ReturnsFromTraps : (hi.x.trap = some someTrap ∧ hi.g ≠ 0 ∧ Readable hi [{ o := .s 6, n := 1, bit := false }] hi.g) ∧
    (someTrap.pc.toNat % 4 = 0 ∧ (someTrap.pc + BitVec.ofNat 64 8).toNat % 4 = 0 ∧ (hi.uniform (.s 6) (.bw true)).bits.toNat % 4 = 0) ∧
    (hi.codeAt someTrap.pc ≠ none ∧ hi.lengthAt someTrap.pc = some 8) ∧ (hi.x.entries = [hi.e] ∧ hi.g = hi.e.mask ∧ hi.x.atEnd = []) ∧
    ((handlerState.cast hi.h.cast).wake = false ∧ (handlerState.cast hi.h.cast).st = .running ∧
      (handlerState.cast hi.h.cast).parking = false ∧ hi.x.onCore = true ∧
      hi.here = 16 * (handlerState.pour (hi.h.cast / 2 ^ 64)).pkg + (handlerState.pour (hi.h.cast / 2 ^ 64)).hearth ∧
      ∀ k ∈ handlerState.gangOf hi.h.cast, ∃ f ∈ handlerState.castFrags k, (handlerState.frag f).onCore = true) :=
  ⟨⟨by decide +kernel, by decide +kernel, readable_clean (by decide +kernel) _ _⟩, ⟨by decide, by decide, by decide +kernel⟩,
    ⟨by decide +kernel, by decide +kernel⟩, ⟨by decide +kernel, by decide +kernel, by decide +kernel⟩,
    by decide +kernel, by decide +kernel, by decide +kernel, by decide +kernel, by decide +kernel, by decide +kernel⟩

/-- The cast's launch hearth is hearth 1: HALT and PARK ask it. -/
theorem witness_ReturnsFromTraps_away : ∀ s ∈ [base, handlerState], let i := Ix.of (s.modPour 0 fun p => { p with hearth := 1 }) (hd .f64)
    let gh := 16 * (i.s.pour (i.h.cast / 2 ^ 64)).pkg + (i.s.pour (i.h.cast / 2 ^ 64)).hearth
    i.g ≠ 0 ∧ i.here ≠ gh ∧ gh < 1024 := by decide +kernel

/-- The lanes of p1 return. -/
theorem witness_ReturnsFromTraps_some : let i := Ix.of ((inTrap base).modHoist 0 fun h => { h with preds := [(1, 0xFF)] }) { hd .f64 with gp := 1 }
    i.x.trap = some someTrap ∧ i.g ≠ 0 ∧ i.g ≠ i.e.mask ∧ i.x.loops = [] := by decide +kernel

/-- A wake bit is set. -/
theorem witness_ReturnsFromTraps_wake : let s := base.modCast 0 fun c => { c with wake := true }
    let i := Ix.of s (hd .f64)
    i.g ≠ 0 ∧ i.x.trap = none ∧ (s.cast i.h.cast).wake = true ∧
      i.here = 16 * (s.pour (i.h.cast / 2 ^ 64)).pkg + (s.pour (i.h.cast / 2 ^ 64)).hearth := by decide +kernel

/-- What TLBINV waits for: a packet of the context, a collective at work, and an accepted AMRG; and a context of another partition. -/
theorem witness_Invalidations_uses :
    (let i := Ix.of ((manages base).send (recordSrc 0) 1 0 false (some 0) (.store [])) (hd .f96)
     i.usingPackets .ctx .package 0 ≠ [] ∧ i.x.handler = false ∧ i.s.managing i.x = true ∧ i.e.woken = false) ∧
    (let i := Ix.of { manages base with cmds := [(0, { Cmd.new .coll 0 0 0 0 with stage := .active })] } (hd .f96)
     i.usingCmds .ctx .package 0 ≠ [] ∧ i.s.managing i.x = true) ∧
    (let i := Ix.of ((manages base).modCast 0 fun c => { c with c0 := queued c.c0 (.amrg 0 0 plain [] 0) ⟨0, 0, 0, 0⟩ 0 }) (hd .f96)
     i.usingMerges .ctx .package 0 ≠ [] ∧ i.s.managing i.x = true) ∧
    (let i := Ix.of (manages (traps false (setS [(6, 1)] base))) (hd .f96)
     i.g ≠ 0 ∧ i.s.managing i.x = true ∧ i.e.woken = false ∧ i.x.trap = none ∧ (i.s.trapEnt i.x).handler &&& ~~~3 ≠ 0 ∧
      (i.s.pkg (corePkg i.x.gc)).part ((i.uniform (.s 6) .w32).bits.setWidth 8 : BitVec 8).toNat ≠
        (i.s.pkg (corePkg i.x.gc)).part (i.s.ctxOf i.x).toNat) := by decide +kernel

/-- A managing context invalidates; an unprivileged one may not; a handler invalidates its own context. -/
theorem witness_Invalidations :
    (let i := Ix.of (manages (setS [(2, 0x10000)] base)) (hd .f96)
     i.g ≠ 0 ∧ (i.x.handler = true ∨ i.s.managing i.x = true) ∧ i.e.woken = false ∧ i.s.managing i.x = true ∧ i.s.net = [] ∧ i.s.cmds = [] ∧
      (∀ q ∈ i.s.casts, q.2.c0.queue = [] ∧ q.2.c1.queue = []) ∧
      (let p := i.s.pkg (corePkg i.x.gc); p.part (0 : BitVec 8).toNat = p.part (i.s.ctxOf i.x).toNat)) ∧
    (Ix.of (wokenState (manages base)) (hd .f96)).e.woken = true ∧
    (let i := Ix.of (inTrap base) (hd .f96); i.g ≠ 0 ∧ i.x.handler = true ∧ (i.uniform .zr .w32).bits.setWidth 8 = i.s.ctxOf i.x) ∧
    (let i := Ix.of base (hd .f96); i.x.handler = false ∧ i.s.managing i.x = false) ∧
    ∀ us m, Readable (Ix.of (manages (setS [(2, 0x10000)] base)) (hd .f96)) us m :=
  ⟨by decide +kernel, by decide +kernel, by decide +kernel, by decide +kernel, readable_clean (by decide +kernel)⟩

theorem witness_SystemRequests :
    (let i := Ix.of (inTrap mbase) (hd .f64)
     let a := (i.uniform (.s 4) (.bw true)).bits.toNat
     i.g ≠ 0 ∧ paHearth (i.pa a) < 1024 ∧ (∀ us, Readable i us i.g) ∧ Granted i .go 128 (fun _ => a) ∧
      (∀ c ∈ (i.s.core i.x.gc).hints, c.target ≠ paHearth (i.pa a)) ∧
      (∀ e ∈ i.x.pseq, e.tgt = paHearth (i.pa a) → (e.src = i.x.src ∧ paHearth (i.pa a) ≠ i.here) ∨ i.s.pendingTo e.src e.tgt e.seq = false) ∧
      i.s.performed i.x = true ∧ i.x.handler = true) ∧
    (mi.x.handler = false ∧ mbase.managing mi.x = false ∧ mbase.ownsPackage (corePkg mi.x.gc) (mbase.ctxOf mi.x).toNat = false) ∧
    (let i := Ix.of (manages mbase) (hd .f64)
     i.g ≠ 0 ∧ i.isEmpty (.v 2) 2 = false ∧ i.s.ownsPackage (corePkg i.x.gc) (i.s.ctxOf i.x).toNat = true ∧ i.s.managing i.x = true ∧
      (∀ us, Readable i us i.g) ∧ Granted i (.store false) 8 (fun _ => (i.uniform (.s 2) (.bw true)).bits.toNat) ∧
      (i.s.pkg 0).part ((i.uniform .zr .w32).bits.setWidth 8 : BitVec 8).toNat = (i.s.pkg 0).part (i.s.ctxOf i.x).toNat) :=
  ⟨⟨by decide +kernel, by decide +kernel, fun _ => readable_clean (by decide +kernel) _ _, granted_of (by decide +kernel), by decide +kernel,
    by decide +kernel, by decide +kernel, by decide +kernel⟩, by decide +kernel,
   ⟨by decide +kernel, by decide +kernel, by decide +kernel, by decide +kernel, fun _ => readable_clean (by decide +kernel) _ _,
    granted_of (by decide +kernel), by decide +kernel⟩⟩

/-! ### States and operands that meet the hypotheses: matrix instructions -/

/-- The cast holds both matrix contexts; s4 and s5 hold descriptors of 16 rows of 32 columns at 0 and at 4096, s6 a format word. -/
def mxState (w : DWord) : State :=
  setRec 0x39 0x80 (setS [(4, 0xF83C00800000), (5, 0xF83C00801000), (6, w)] base)

def mxi (w : DWord) : Ix := Ix.of (mxState w) (hd .f96)

theorem ctxOk_mx (w : DWord) (h : goB (mxi w) = true) (k : Bool)
    (h2 : ((mxi w).s.atAnchor (mxi w).x && (mxi w).s.holdsCtx ((mxi w).s.castOf (mxi w).x) k &&
      decide ((((mxi w).s.cast ((mxi w).s.castOf (mxi w).x)).ctx k).follows = none) &&
      decide ((((mxi w).s.cast ((mxi w).s.castOf (mxi w).x)).ctx k).queue.length < 2)) = true) : CtxOk (mxi w) k := by
  simp only [Bool.and_eq_true, decide_eq_true_eq] at h2
  exact ⟨lanes_of h, h2.1.1.1, h2.1.1.2, h2.1.2, h2.2⟩

/-- INT8 operands: dense, with a pruned A, and with weight planes. -/
theorem witness_MatrixInstructionsAreAccepted :
    (∀ k, CtxOk (mxi 0x166) k) ∧ (∀ us, Readable (mxi 0x166) us (mxi 0x166).g) ∧ Votes (mxi 0x166) (.s 6) 0x166 ∧
    (let i := mxi 0x166
     let da := (i.read (.s 4) (.bw true) 0).bits
     let db := (i.read (.s 5) (.bw true) 0).bits
     MacKind.accepts .mma 0x166 = true ∧ extentsOk .mma 0x166 false (tileRows da) (tileRows db) (tileK da) = true ∧
      extentsOk .mma 0x166 true (tileRows da) (tileRows db) (tileK da) = true ∧ tileK da = tileK db ∧
      TileOk i da (layoutA .mma 0x166 da) false ∧ TileOk i db (layoutB .mma 0x166 db) false) ∧
    (Votes (mxi 0x186) (.s 6) 0x186 ∧ MacKind.accepts .mmal 0x186 = true ∧ extentsOk .mmal 0x186 false 16 16 32 = true) := by
  refine ⟨fun k => ctxOk_mx _ (by decide +kernel) k (by cases k <;> decide +kernel), fun _ => readable_clean (by decide +kernel) _ _,
    ⟨lanes_all (by decide +kernel), by decide +kernel⟩,
    ⟨by decide +kernel, by decide +kernel, by decide +kernel, by decide +kernel,
     ⟨by decide +kernel, by decide +kernel, by decide +kernel, by decide +kernel, .inr (by decide +kernel)⟩,
     ⟨by decide +kernel, by decide +kernel, by decide +kernel, by decide +kernel, .inr (by decide +kernel)⟩⟩,
    ⟨lanes_all (by decide +kernel), by decide +kernel⟩, by decide +kernel, by decide +kernel⟩

/-- MMAS: the metadata registers v8 and on hold the indices 0, 1, 2 and 3 of every group. -/
theorem witness_MatrixInstructionsAreAccepted_sparse :
    let i := Ix.of ((mxState 0x566).modHoist 0 fun h => { h with vregs := (List.range 32).map fun l => (256 + l, 0x688688) }) (hd .f96)
    let da := (i.read (.s 4) (.bw true) 0).bits
    let db := (i.read (.s 5) (.bw true) 0).bits
    let n := (tileRows da * tileK da + 511) / 512
    let ws : List Word := (List.range n).flatMap fun r => (List.range 32).map fun l => if i.x.lanes.getLsbD l then i.h.elem (8 + r) l else 0
    MacKind.accepts .mmas 0x566 = true ∧ extentsOk .mmas 0x566 false (tileRows da) (tileRows db) (tileK da) = true ∧
    8 + n ≤ (i.s.pour (i.s.pourOf i.x)).allot ∧ (∀ r, r < n → i.x.vempty.getLsbD (8 + r) = false) ∧ i.s.debug i.x = false ∧
    (i.s.trapEnt i.x).tpoison = false ∧
    ∀ q, q < tileRows da * tileK da / 8 → metaIndex ws q 0 < metaIndex ws q 1 ∧ metaIndex ws q 1 < metaIndex ws q 2 ∧
      metaIndex ws q 2 < metaIndex ws q 3 := by decide +kernel

/-- A paired instruction: context 0 leads context 1 of the other cast of a gang of two. -/
def pairState : State :=
  (setRec 0x28 1 (setRec 0x33 1 (mxState 0x166))).setCast (castKey 0 1) { Cast.fresh with st := .running, started := true, index := 1, anchor := 8 }

def bound : State :=
  (pairState.modCast 0 fun c => { c with c0 := { c.c0 with leads := some (1, true) } }).modCast 1 fun c =>
    { c with c1 := { c.c1 with follows := some (0, false) } }

theorem witness_MatrixInstructionsAreAccepted_pair : let i := Ix.of bound (hd .f96)
    ((i.s.cast 0).ctx false).leads = some (1, true) ∧ (∀ q ∈ ((i.s.cast 0).ctx false).queue, q.op ≠ .mfree) ∧
    ((i.s.cast 1).ctx true).queue.length < 2 ∧ (1 : Nat) ≠ i.s.castOf i.x ∧ i.g ≠ 0 ∧
    i.s.atAnchor i.x = true ∧ i.s.holdsCtx 0 false = true ∧ ((i.s.cast 0).ctx false).follows = none := by decide +kernel

/-- ALDS, ASTS and ARD of B32 elements. -/
theorem witness_MatrixInstructionsAreAccepted_moves :
    let i := Ix.of (mxState 0x166 |>.modFrag 0 fun x => { x with sregs := [(4, 0x183C00800000), (6, 0x166)] }) (hd .f96)
    let d := (i.read (.s 4) (.bw true) 0).bits
    tileRows d ≤ 128 ∧ tileK d ≤ 256 ∧ readbackOk .i32 0x166 = true ∧ i.isEmpty (.v 8) 1 = false ∧ i.areg 8 < 256 ∧
    (∀ w, TileOk i d (layoutT .i32 d) w) :=
  ⟨by decide +kernel, by decide +kernel, by decide +kernel, by decide +kernel, by decide +kernel, fun w =>
    ⟨by decide +kernel, by decide +kernel, by decide +kernel, by cases w <;> decide +kernel, .inr (by cases w <;> decide +kernel)⟩⟩

/-- AMRG: the record at offset 0 names one element at 0x10000 and the ticket at 0x10100, which holds 0. -/
def mergeState (seq : Byte) : State :=
  (setRec 0x39 0x80 (mbase.modFrag 0 fun x => { x with sregs := x.sregs ++ [(6, 0x166)] })).modCast 0 fun c => { c with
    spad := [(2, 1), (9, 1), (10, 1), (16, 4), (20, 1), (22, 1)] ++ if seq = 0 then [] else [(24, seq)] }

theorem witness_MatrixInstructionsAreAccepted_merge : ∀ q : Byte, q ∈ [0#8, 7] →
    let i := Ix.of (mergeState q) (hd .f96)
    let r : BitVec 256 := BitVec.ofNat 256 ((i.s.cast 0).sread 0 32)
    (i.g ≠ 0 ∧ cleanB i = true ∧ i.s.atAnchor i.x = true ∧ i.s.holdsCtx 0 false = true ∧ ((i.s.cast 0).ctx false).follows = none ∧
      ((i.s.cast 0).ctx false).queue.length < 2) ∧
    (0 % 32 = 0 ∧ 0 + 32 ≤ i.s.spadBytes 0 ∧ i.s.tileHeld i.x.hoist false 0 32 = false) ∧
    (1 ≤ recM r ∧ recM r ≤ 128 ∧ 1 ≤ recN r ∧ recN r ≤ 256 ∧ recField r 0x1C 4 = 0 ∧ recDest r % 4 = 0 ∧ recStride r % 4 = 0 ∧
      recTicket r % 8 = 0) ∧
    (∀ a ∈ recHeads r, i.accessBad Acc.rmw a = false ∧ i.translate a ≠ .miss ∧ paHearth (i.pa a) = paHearth (i.pa (recDest r))) ∧
    i.outside (i.pa (recDest r)) = false ∧ (i.s.readLE (i.pa (recTicket r)) 8 = recSeq r ↔ q = 0) := by decide +kernel

/-- AMRG at DOMAIN with a release: everything is performed. -/
theorem witness_MatrixInstructionsAreAccepted_released :
    Released (Ix.of (mergeState 0) (hd .f96)) { scope := .domain, order := .release, promote := false, pass := false } :=
  fun _ => by decide +kernel

theorem tileHeld_of {s : State} {hk : Nat} (h : (s.cast (hk / 32)).accepted hk = []) (w : Bool) (o n : Nat) : s.tileHeld hk w o n = false := by
  simp [State.tileHeld, h]

theorem witness_PruningAndTables :
    (let i := Ix.of base (hd .f96)
     Opnd.v 1 ≠ Opnd.v 2 ∧ i.g ≠ 0 ∧ i.isEmpty (.v 1) 1 = false ∧ i.isEmpty (.v 2) 1 = false ∧ i.s.debug i.x = false ∧
      (i.s.trapEnt i.x).tpoison = false) ∧ ∀ us m, Readable (Ix.of base (hd .f96)) us m :=
  ⟨by decide +kernel, readable_clean (by decide +kernel)⟩

/-- LUTB at the first and at the last place of the allocation. -/
theorem witness_PruningAndTables_lutb : ∀ b ∈ [0, 64512], let i := Ix.of (setS [(6, BitVec.ofNat 64 b)] base) (hd .f96)
    i.g ≠ 0 ∧ i.s.atAnchor i.x = true ∧ b % 32 = 0 ∧ ∀ l, i.g.getLsbD l = true → b + 32 * l + 32 ≤ i.s.spadBytes 0 ∧
      i.s.tileHeld i.x.hoist true (b + 32 * l) 32 = false := by
  intro b hb i
  have hb' : b = 0 ∨ b = 64512 := by simpa using hb
  have hs : i.s.spadBytes 0 = 65536 := by rcases hb' with rfl | rfl <;> decide +kernel
  have hq : (i.s.cast (i.x.hoist / 32)).accepted i.x.hoist = [] := by rcases hb' with rfl | rfl <;> decide +kernel
  refine ⟨by rcases hb' with rfl | rfl <;> decide +kernel, by rcases hb' with rfl | rfl <;> decide +kernel, by omega,
    fun l hl => ⟨?_, tileHeld_of hq _ _ _⟩⟩
  have := BitVec.lt_of_getLsbD hl
  omega

/-- MWAIT with nothing outstanding and with one instruction; MBIND of idle contexts and of one that is bound; MFREE without and
with a binding. -/
theorem witness_BindingsAndMatrixWaits :
    (let i := Ix.of pairState (hd .f96)
     i.g ≠ 0 ∧ i.s.atAnchor i.x = true ∧ (∀ k, i.s.holdsCtx 0 k = true) ∧ (∀ k, ((i.s.cast 0).ctx k).accepted ≤ ((i.s.cast 0).ctx k).retired) ∧
      i.e.woken = false ∧ cleanB i = true ∧ i.s.peerOf 0 1 = 1 ∧ i.s.holdsCtx 1 true = true ∧ (i.s.cast 1).anchor ≠ (i.s.cast 0).anchor ∧
      1 < (i.s.pour (i.s.cast 0).pour).gangSize ∧ ((i.s.cast 0).ctx false).idle = true ∧ ((i.s.cast 1).ctx true).idle = true ∧
      ((i.s.cast 0).ctx false).leads = none ∧ ((i.s.cast 0).ctx false).follows = none) ∧
    (let c := (pairState.modCast 0 fun c => { c with c0 := { c.c0 with accepted := 1 } }).cast 0
     ¬ (c.ctx false).accepted ≤ (c.ctx false).retired) ∧
    (((bound.cast 0).ctx false).idle = false ∧ ((bound.cast 0).ctx false).leads = some (1, true) ∧ ((bound.cast 0).ctx false).queue = [] ∧
      ((bound.cast 0).ctx false).accepted ≤ ((bound.cast 0).ctx false).retired ∧
      ((bound.cast 1).ctx true).accepted ≤ ((bound.cast 1).ctx true).retired) := by decide +kernel

/-! ### States and operands that meet the hypotheses: queues and engines -/

/-- Queue `q` of the cast. -/
def setQ (q : Nat) (bind : DWord) (head tail : Nat) (s : State) : State :=
  s.modCast 0 fun c => { c with queues := [(q, { bind, head, tail })] }

/-- A data queue of 32 words holds nothing, and one whose tail has wrapped holds 32. -/
theorem witness_QueuesAndTheirInstructions :
    let c : Cast := { Cast.fresh with queues := [(1, { bind := 0x2001, head := 0, tail := 0 }), (2, { bind := 0x2001, head := 2 ^ 32 - 1, tail := 31 })] }
    (RingOk (c.queue 1) ∧ (c.queue 1).count + 32 ≤ (c.queue 1).cap) ∧ (RingOk (c.queue 2) ∧ 32 ≤ (c.queue 2).count) ∧
    (badBinding 0x2001 = false ∧ Queue.kind { bind := 0x2001, head := 0, tail := 0 } ≠ 0) :=
  ⟨⟨⟨by decide +kernel, by decide +kernel, by decide +kernel, by decide +kernel, by decide +kernel, by decide +kernel⟩, by decide +kernel⟩,
    ⟨⟨by decide +kernel, by decide +kernel, by decide +kernel, by decide +kernel, by decide +kernel, by decide +kernel⟩, by decide +kernel⟩,
    by decide +kernel⟩

/-- ENQ of 32 lanes into a queue with just enough room, into one with one place too few, and into one that is not bound. -/
theorem witness_QueuesAndTheirInstructions_push :
    let i := Ix.of (setQ 1 0x2001 0 0 base) (hd .f96)
    let x := (i.s.cast (i.s.castOf i.x)).queue 1
    let f := (Ix.of (setQ 1 0x2001 0 1 base) (hd .f96))
    let y := (f.s.cast (f.s.castOf f.x)).queue 1
    let z := (base.cast 0).queue 1
    (i.g ≠ 0 ∧ i.s.atAnchor i.x = true ∧ f.g ≠ 0 ∧ f.s.atAnchor f.x = true) ∧
    (x.kind ∈ [1, 2, 3, 4] ∧ x.esize = 4 ∧ (i.elements (.v 2)).length ≤ x.cap ∧ x.count + (i.elements (.v 2)).length ≤ x.cap) ∧
    (y.kind ∈ [1, 2, 3, 4] ∧ y.esize = 4 ∧ (f.elements (.v 2)).length ≤ y.cap ∧ y.cap < y.count + (f.elements (.v 2)).length) ∧
    (let k := Ix.of (setQ 1 0x2002 0 0 base) (hd .f96)
     engineOf ((k.s.cast 0).queue 1).kind = some .copy ∧ k.s.coreDone k.x = true ∧ k.s.tileHeld k.x.hoist true 0 (k.s.spadBytes 0) = false) ∧
    ¬ z.kind ∈ [1, 2, 3, 4] ∧ ((Ix.of (traps false base) (hd .f96)).x.trap = none ∧
      ((traps false base).trapEnt (Ix.of (traps false base) (hd .f96)).x).handler &&& ~~~3 ≠ 0) := by decide +kernel

theorem witness_QueuesAndTheirInstructions_pop :
    let i := Ix.of (setQ 1 0x2001 0 32 base) (hd .f96)
    let x := (i.s.cast (i.s.castOf i.x)).queue 1
    let f := (Ix.of (setQ 1 0x2001 0 31 base) (hd .f96))
    let y := (f.s.cast (f.s.castOf f.x)).queue 1
    (x.kind ∈ [1, 5] ∧ x.esize = 4 ∧ (i.elements (.v 2)).length ≤ x.cap ∧ (i.elements (.v 2)).length ≤ x.count) ∧
    (y.kind ∈ [1, 5] ∧ y.esize = 4 ∧ (f.elements (.v 2)).length ≤ y.cap ∧ y.count < (f.elements (.v 2)).length) ∧
    (Opnd.v 2 ≠ Opnd.p 3 ∧ i.isEmpty (.v 2) 1 = false ∧ i.s.atAnchor i.x = true ∧ f.s.atAnchor f.x = true) := by decide +kernel

/-- ENQ.BIND of a word that is accepted, over a command queue that is empty and one that is not, and of one that is refused. -/
theorem witness_QueuesAndTheirInstructions_bind :
    let i := Ix.of (setS [(6, 0x2001)] base) (hd .f96)
    let w := (i.read (.s 6) (.bw true) 0).bits
    let x : Queue := { bind := w, head := 0, tail := 0 }
    (i.g ≠ 0 ∧ i.s.atAnchor i.x = true ∧ badBinding w = false ∧ x.kind ≠ 0 ∧ x.base + x.cap * x.esize ≤ i.s.spadBytes 0) ∧
    (let old := ((setQ 1 0x2002 0 0 base).cast 0).queue 1; old.kind = 2 ∧ old.count = 0) ∧
    (let old := ((setQ 1 0x2002 0 1 base).cast 0).queue 1; old.kind = 2 ∧ old.count ≠ 0) ∧ badBinding 0x2006 = true := by decide +kernel

/-- Commands of an engine in flight at core 0. -/
def flying (n : Nat) (e : Engine) (s : State) : State :=
  { s with cmds := (List.range n).map fun k => (k, Cmd.new e 0 0 0 0), nextCmd := n }

/-- The scratchpad holds these bytes. -/
def setSpad (l : List (Nat × Byte)) (s : State) : State := s.modCast 0 fun c => { c with spad := l }

/-- Page 1 of the context is mapped by tables at 0. -/
def tables (leaf : Nat) (s : State) : State :=
  (((s.writeMem 0 8 0x1001 false).writeMem 0x1000 8 0x2001 false).writeMem 0x2000 8 0x3001 false).writeMem 0x3008 8 leaf false

/-- Records at offset 0: a copy of 64 bytes within scratchpad, and a bank command of one row of 32 INT8 elements. -/
def copyRec : List (Nat × Byte) := [(8, 64), (16, 64), (20, 1), (0x38, 0xC)]
def bankRec : List (Nat × Byte) := [(2, 1), (9, 4), (10, 1), (17, 8), (18, 1), (41, 1), (44, 32), (48, 0x66), (49, 1)]
def bankRec2 : List (Nat × Byte) := [(2, 1), (9, 4), (10, 2), (17, 8), (18, 1), (41, 1), (44, 32), (48, 0x66), (49, 1)]
/-- A barrier of window 0. -/
def collRec : List (Nat × Byte) := [(0x20, 1), (0x25, 4)]

/-- A descriptor, by bytes. -/
def rawOf (l : List (Nat × Nat)) : BitVec 512 := BitVec.ofNat 512 (l.foldl (fun a q => a + q.2 * 256 ^ q.1) 0)

/-- Window 0: hearth 0 is its home and its contributor, 32-bit integers, add, from 0x10000. -/
def win0 : Window :=
  { Window.clear with raw := rawOf [(0, 1), (8, 1), (10, 1), (16, 1), (0x1A, 1), (0x21, 0x10), (0x28, 2), (0x2C, 1)], valid := true }

def withWin (w : Window) (s : State) : State := s.modPkg 0 fun p => { p with windows := [(0, w)] }

/-- The command in the record at offset 0 of a state. -/
def cmdOf (e : Engine) (s : State) : Cmd := Cmd.new e 0 0 0 (BitVec.ofNat 512 ((s.cast 0).sread 0 64))

/-- What the checks of a command answer, when they pass. -/
def checked (s : State) (c : Cmd) : Cmd := match s.checkCmd c with | .ok d => d | .error _ => .none

theorem checked_eq {s : State} {c : Cmd} (h : (s.checkCmd c).isOk = true) : s.checkCmd c = .ok (checked s c) := by
  unfold checked
  cases hc : s.checkCmd c with
  | ok d => rfl
  | error e => rw [hc] at h; simp [Except.isOk, Except.toBool] at h

theorem witness_EngineCommandsAreIssued_limit :
    ∀ q ∈ [(Engine.bank, 32), (Engine.coll, 16)], let i := Ix.of (flying q.2 q.1 base) (hd .f96)
      i.g ≠ 0 ∧ i.s.atAnchor i.x = true ∧ q.2 ≤ i.s.inFlight i.x.gc q.1 := by decide +kernel

theorem witness_EngineCommandsAreIssued_space : let i := Ix.of (traps false base) (hd .f96)
    (∀ e : Engine, e ∈ [Engine.copy, .bank, .coll] → i.s.inFlight i.x.gc e < 16) ∧ goodB i = true ∧ i.s.atAnchor i.x = true ∧
    (∀ us m, Readable i us m) ∧ 32 % 64 ≠ 0 ∧ (65536 % 64 = 0 ∧ i.s.spadBytes 0 < 65536 + 64) ∧
    (65472 % 64 = 0 ∧ 65472 + 64 ≤ i.s.spadBytes 0 ∧ i.s.tileHeld i.x.hoist false 65472 64 = false) ∧
    i.s.checkCmd (cmdOf .copy i.s) = .error .queue :=
  ⟨by decide +kernel, by decide +kernel, by decide +kernel, readable_clean (by decide +kernel), by decide, by decide +kernel,
    by decide +kernel, by decide +kernel⟩

/-- A copy whose last byte is the last of the allocation's part that it names. -/
theorem witness_EngineCommandsAreIssued_copy : let s := setSpad copyRec base
    let c0 := cmdOf .copy s
    c0.flags < 4096 ∧ c0.flags / 32 % 8 = 0 ∧ 1 ≤ c0.len ∧ c0.len ≤ 2 ^ 30 ∧ 1 ≤ c0.rowCount ∧ c0.rowCount ≤ 65536 ∧ c0.fld 0x3C 4 = 0 ∧
    c0.feed = false ∧ c0.complAddr % 8 = 0 ∧ c0.complAddr = 0 ∧
    (∀ k, k < c0.rowCount → 0 ≤ c0.srcRow k ∧ c0.srcRow k + c0.len ≤ (s.spadBytes 0 : Int)) ∧
    (∀ k, k < c0.rowCount → 0 ≤ c0.dstRow k ∧ c0.dstRow k + c0.len ≤ (s.spadBytes 0 : Int)) := by decide +kernel

/-- The copy waits for an accepted multiply that has still to read its operands from the bytes that the copy stores to. -/
theorem witness_EngineCommandsAreIssued_copyHeld :
    let i := Ix.of ((setSpad copyRec base).modCast 0 fun c => { c with c0 := queued c.c0 (.mac .mma 0xF83C00800000 0xF83C00801000 0x166 [] false) ⟨0, 0, 0, 0⟩ 0 })
      (hd .f96)
    i.s.checkCmd (cmdOf .copy i.s) = .ok (checked i.s (cmdOf .copy i.s)) ∧ i.copyHeld (checked i.s (cmdOf .copy i.s)) = true :=
  ⟨checked_eq (by decide +kernel), by decide +kernel⟩

/-- How the first pin step of a command ends, and whether no leaf remains after it. -/
def firstPin (s : State) (c : Cmd) : Option (PinStep × Bool) :=
  match c.unpinned with
  | (a, leaf) :: rest => some ((s.pin a leaf).1, rest.isEmpty)
  | [] => none

/-- A bank command with one page, one with W and x on two, and one whose page has 255 pins. -/
theorem witness_EngineCommandsAreIssued_bank :
    (let s := tables 0x1001F (setSpad bankRec base)
     let i := Ix.of s (hd .f96)
     s.checkCmd (cmdOf .bank s) = .ok (checked s (cmdOf .bank s)) ∧ firstPin s (checked s (cmdOf .bank s)) = some (.pinned, true) ∧
      i.x.pinsAt i.e.prio i.e.pc = [] ∧ (i.s.core i.x.gc).hints = [] ∧ i.x.hinted = [] ∧ i.s.performed i.x = true ∧ i.s.coreDone i.x = true) ∧
    (let s := (tables 0x1001F (setSpad bankRec2 base)).writeMem 0x3010 8 0x2001F false
     s.checkCmd (cmdOf .bank s) = .ok (checked s (cmdOf .bank s)) ∧ firstPin s (checked s (cmdOf .bank s)) = some (.pinned, false)) ∧
    (let s := tables 0x1FF1F (setSpad bankRec base)
     s.checkCmd (cmdOf .bank s) = .ok (checked s (cmdOf .bank s)) ∧ firstPin s (checked s (cmdOf .bank s)) = some (.busy, true)) :=
  ⟨⟨checked_eq (by decide +kernel), by decide +kernel⟩,
    ⟨checked_eq (by decide +kernel), by decide +kernel⟩, checked_eq (by decide +kernel), by decide +kernel⟩

theorem witness_EngineCommandsAreIssued_coll : let s := withWin win0 (setSpad collRec base)
    s.checkCmd (cmdOf .coll s) = .ok (checked s (cmdOf .coll s)) := checked_eq (by decide +kernel)

theorem witness_SignalledPuts :
    (mi.g ≠ 0 ∧ 0 < 1024 ∧ 1 < 1024 ∧ (∀ us, Readable mi us mi.g)) ∧
    (Granted mi (.put true) 4 (mi.va (near .none (.v 1)) memx 4) ∧ HomedAt mi (mi.va (near .none (.v 1)) memx 4) 0 ∧ 0 = mi.here) ∧
    (Granted mi (.put true) 4 (mi.va (far .none (.v 1)) memx 4) ∧ HomedAt mi (mi.va (far .none (.v 1)) memx 4) 1 ∧ 1 ≠ mi.here) ∧
    (∀ r ∈ [2, 4], let sig := (mi.read (.s r) (.bw true) 0).bits.toNat
      sig % 8 = 0 ∧ mi.outside (mi.pa sig) = false ∧ mi.accessBad (.put false) sig = false ∧ mi.translate sig ≠ .miss) ∧
    (∀ l, mi.g.getLsbD l = true → isCpage (mi.pa (mi.va (near .none (.v 1)) memx 4 l)) = false) ∧ ∀ t n, MayPost mi plain t n :=
  ⟨⟨mi_lanes, by decide, by decide, fun _ => readable_clean mi_clean _ _⟩,
    ⟨granted_of (by decide +kernel), lanes_all (by decide +kernel), by decide +kernel⟩,
    ⟨granted_of (by decide +kernel), lanes_all (by decide +kernel), by decide +kernel⟩, by decide +kernel, lanes_all (by decide +kernel),
    fun _ _ => maypost_plain mi_pseq mi_hints mi_late⟩

/-! ### States and operands that meet the hypotheses: packets -/

/-- A packet of core 0 to hearth 1, and one to hearth 0. -/
def pkt (b : Body) : Packet :=
  { src := 0, seq := 1, tgt := 1, ctx := 0, pass := false, gen := false, ord := 1, cast := none, lost := false, rel := none, body := b }

/-- The fabric carries one packet. -/
def carrying (p : Packet) (s : State) : State := { s with net := [p] }

/-- A store of two words, the second of which ends at the last byte of a page. -/
def twoWords : List WriteOp := [{ pa := 2 ^ 39, size := 4, val := 7, poison := false }, { pa := 2 ^ 39 + 65532, size := 4, val := 9, poison := true }]

theorem witness_PostedWritesAreApplied :
    (∀ b ∈ [Body.store twoWords, .reduction .add .n32 [{ pa := 2 ^ 39, size := 4, val := 7, poison := false }], .signal (2 ^ 39) [],
        .engineWrite 0 (2 ^ 39) 5 true, .pinDown (2 ^ 39)],
      let s := carrying (pkt b) (mbase.writeMem (2 ^ 39 + 1) 1 255 false)
      s.ready 0 = some (pkt b) ∧ s.noRoom (pkt b) = false ∧ s.refuses (pkt b) = false ∧ 0 < (s.byte (2 ^ 39 + 1)).toNat) ∧
    (∀ w ∈ twoWords, isCpage w.pa = false) ∧ [(1, (7 : Word))] ≠ [] := by decide +kernel

theorem witness_PostedWritesAreApplied_after : let p := pkt (.signal (2 ^ 39) [(1, 1)])
    (carrying p mbase).net[0]? = some p ∧ [(1, (1 : Word))] ≠ [] := by decide +kernel

/-- Context 1 has no partition. -/
theorem witness_PostedWritesAreApplied_refused : let p := { pkt (.store twoWords) with ctx := 1 }
    (carrying p mbase).ready 0 = some p ∧ (carrying p mbase).noRoom p = false ∧ (carrying p mbase).refuses p = true := by decide +kernel

/-- A package that is powered and whose link to its host is up. -/
def linked (s : State) : State := s.modPkg 0 fun p => { p with aux := true, rails := true, perst := true, hostLink := true }

theorem witness_PostedWritesAreApplied_host : let s := linked base
    (s.pkg 0).present = true ∧ (s.pkg 0).perst = true ∧ (s.pkg 0).hostLink = true ∧ [(3 : Byte), 4] ≠ [] ∧
    ∀ pa ∈ [0, 0xBFFFEFFFE], paHost pa = false ∧ paHost (pa + 2 - 1) = false ∧ s.noHome 0 pa = false ∧ s.noHome 0 (pa + 2 - 1) = false ∧
      paHearth pa = paHearth (pa + 2 - 1) ∧ isCpage pa = false ∧ isCpage (pa + 2 - 1) = false ∧ s.hostHolds 0 (paHearth pa) = false ∧
      (s.modPkg 0 fun p => { p with routing := some [] }).hostHolds 0 (paHearth pa) = true := by decide +kernel

/-- The record's flags say DEPS; the scoreboard stands at address 0 of hearth 1, its first entry with PEND 1 or 2. -/
def depState (pend : Nat) : State :=
  ((setRec 0x36 4 mbase).modPour 0 fun p => { p with sbPages := [(0, 2 ^ 39)] }).writeMem (2 ^ 39 + 65) 1 pend false

theorem witness_PostedRequestsAreApplied_pennant : ∀ pend ∈ [1, 2], let s := carrying (pkt (.pennant 0 0)) (depState pend)
    s.ready 0 = some (pkt (.pennant 0 0)) ∧ s.noRoom (pkt (.pennant 0 0)) = false ∧ s.refuses (pkt (.pennant 0 0)) = false ∧
    (s.pour 0).st = .accepted ∧ (s.pour 0).deps = true ∧
    let pa := (s.pour 0).sbPa (sbEntry 0)
    s.poisoned pa 8 = false ∧ (s.byte (pa + 1)).toNat = pend ∧ (s.byte pa).toNat % 8 = 0 := by decide +kernel

/-- A request is at 0x20000, the record of the pour that runs, and one with the key of a command. -/
theorem witness_PostedRequestsAreApplied : (∀ f, (mbase.frag f).pinned = []) ∧
    ∀ b ∈ [Body.release 0 0, .engineCmd 0, .exitNotice 0 0xF0, .arrive 0 3 0 0xF0 8 true 0x10000 0x10008, .pourRequest 0x20000 0 false,
        .parkNote 0 0, .unpark 0x20000 0 0 false, .kill 0x20000 0 false],
      let s := carrying (pkt b) { mbase with cmds := [(0, { Cmd.none with stage := .sent })] }
      s.ready 0 = some (pkt b) ∧ s.noRoom (pkt b) = false ∧ s.refuses (pkt b) = false ∧ (s.pour 0).st = .accepted ∧
      (s.pour 0).gangSize = 1 ∧ (s.cmd 0).stage = .sent ∧ (s.hoist 0).live = true ∧ s.pourAt 0x20000 = some 0 ∧
      (0 : Word).toNat < (s.pour 0).ncast ∧ s.mayActOn ((pkt b).tgt / 16) 0 false (s.pour 0).ctx = true :=
  ⟨pinned_nil (by decide +kernel), by decide +kernel⟩

/-- Eight lanes arrive at a barrier whose count is 8, and at one whose count is 9; a list that holds 63 requests, and one that is full; a
cast whose wake bit is set, and one whose bit is not. -/
theorem witness_PostedRequestsAreApplied_ends :
    (∀ q ∈ [(8, true), (9, false)], (mbase.arriveBar 0 3 { hoist := 0, pc := 0x10000, next := 0x10008, lanes := 0xFF } q.1 true).barFull 0 3 = q.2) ∧
    ((mbase.cast 0).parking = false ∧ (mbase.cast 0).st ≠ .parked ∧ (mbase.cast 0).wake = false ∧
      ((mbase.modCast 0 fun c => { c with wake := true }).cast 0).wake = true) ∧
    ∀ q ∈ [63, 64],
      let s := carrying (pkt (.pourRequest 0x20000 0 false))
        (mbase.modHearth 1 fun h => { h with waiting := List.replicate q { ctx := 0, reserved := false, recPa := 0 } })
      s.ready 0 = some (pkt (.pourRequest 0x20000 0 false)) ∧ s.noRoom (pkt (.pourRequest 0x20000 0 false)) = false ∧
        s.refuses (pkt (.pourRequest 0x20000 0 false)) = false ∧ ((s.hearth 1).waiting.length < 64 ↔ q = 63) := by decide +kernel

/-- A held cast, and one that is not. -/
theorem witness_PostedRequestsAreApplied_held : (mbase.cast (castKey 0 0)).held = false ∧
    ((mbase.modCast (castKey 0 0) fun c => { c with held := true }).cast (castKey 0 0)).held = true := by decide +kernel

theorem witness_MessagesTakeEffect :
    (∀ b ∈ [Body.ack 0 1 1 true, .drainAnswer 0, .stallHint [1, 2], .landing 0, .opened 0 0xF 0x10000 0x10008,
        .parkAnswer 0 0 false, .parkAnswer 0 0 true, .readData 0 false [(1, false), (2, false), (3, false), (4, true)]],
      let p := { pkt b with src := seqrSrc 1, tgt := 2048 }
      (carrying p mbase).ready 0 = some p) ∧
    (∀ b ∈ [Body.ackRequest 0 1 0, .engineRead 0 [2 ^ 39], .drainRequest 0 3 0],
      (carrying (pkt b) mbase).ready 0 = some (pkt b) ∧ (carrying (pkt b) mbase).refuses (pkt b) = false) ∧
    (let p := { pkt (.ackRequest 0 1 0) with ctx := 1 }
     (carrying p mbase).ready 0 = some p ∧ (carrying p mbase).refuses p = true) ∧
    ((mbase.hoistFrags 0).Nodup ∧ ((mbase.modFrag 0 fun x => { x with asking := true }).frag 0).asking = true ∧
      ∀ k ∈ mbase.gangOf 0, ∃ e ∈ mbase.castFrags k, (mbase.frag e).onCore = true) ∧
    (srcOfCore 0 = true ∧ 2048 = 2048 + srcCore 0 ∧ (mbase.frag 0).place = .core (srcCore 0) 0 ∧ srcUnit 0 = 0 ∧
      (mbase.frag 0).live = true ∧ coreSrc (srcCore 0) 0 0 = 0 ∧ (mbase.frag 0).onCore = true) := by decide +kernel

/-- A core whose third packet is not acknowledged has drained to the count of two, not to that of three. -/
theorem witness_MessagesTakeEffect_drained :
    let s := mbase.modCore 0 fun c => { c with unacked := [{ src := 0, tgt := 1, seq := 3, ord := 3, addr := 0, cast := none }] }
    (s.core 0).drainedTo 2 = true ∧ (s.core 0).drainedTo 3 = false := by decide +kernel

/-- A copy segment and a bank result that have been asked for. -/
theorem witness_MessagesTakeEffect_read :
    (let s : State := { base with cmds := [(0, { Cmd.none with eng := .bank, stage := .active })] }
     (s.cmd 0).eng = .bank ∧ (s.cmd 0).stage = .active ∧ 4 * 0 + 4 ≤ [1, 2, 3, 4].length) ∧
    (let s : State := { base with cmds := [(0, { Cmd.none with eng := .copy, stage := .active, asked := true, buf := some [] })] }
     (s.cmd 0).eng = .copy ∧ (s.cmd 0).stage = .active ∧ (s.cmd 0).asked = true ∧ (s.cmd 0).buf = some []) := by decide +kernel

/-- A posted store of core 0 to hearth 1 stands in the queue of switch 0's port to switch 1, and one to another package in that of a
link port. -/
theorem witness_MessagesTakeEffect_hint :
    (let p := pkt (.store twoWords)
     (carrying p mbase).queuedAt 0 0 ((carrying p mbase).port false 0 1) = some p ∧
      ¬ ((carrying p mbase).port false 0 1 = 5 ∨ (carrying p mbase).port false 0 1 = 6)) ∧
    (let p := { pkt (.store twoWords) with tgt := 16 }
     let s := carrying p ((State.setPkg mbase 1 Pkg.reset).modPkg 0 fun k => { k with switches := [(0, { Switch.reset with bank0 := [(16, 6)] })] })
     s.queuedAt 0 0 5 = some p) := by decide +kernel

/-- A core and a sequencer that wait for acknowledgements, for 2,200 clocks, and for one clock less. -/
theorem witness_MessagesTakeEffect_timeout : (∀ q ∈ [(2200, true), (2199, false)],
      let s := { mbase with unacked := [{ src := seqrSrc 1, tgt := 0, seq := 3, ord := 0, addr := 0, cast := none }], now := q.1 }
      ∀ u ∈ s.unackedOf (seqrSrc 1), (u.sentAt + 2200 ≤ s.now ↔ q.2 = true)) ∧
    (let s := mbase.modCore 0 fun c => { c with unacked := [{ src := 0, tgt := 1, seq := 3, ord := 3, addr := 0, cast := none }] }
     ∃ u ∈ s.unackedOf 0, u.src = 0) ∧
    (let s := { mbase with unacked := [{ src := seqrSrc 1, tgt := 0, seq := 3, ord := 0, addr := 0, cast := none }] }
     ∃ u ∈ s.unackedOf (seqrSrc 1), u.src = seqrSrc 1) := by decide +kernel

/-- A refused packet of fragment 0. -/
theorem witness_MessagesTakeEffect_refused :
    let u : Unacked := { src := 0, tgt := 1, seq := 1, ord := 1, addr := 0, cast := none, frag := some 0 }
    let s := mbase.modCore 0 fun c => { c with unacked := [u] }
    ((s.core (srcCore 0)).unacked.find? fun u => u.src = 0 && u.tgt = 1 && u.seq = 1) = some u ∧ u.frag = some 0 := by decide +kernel

/-- The issuing entry waits for the walk of page 1, which its table maps, or of page 9, which nothing maps. -/
theorem witness_MessagesTakeEffect_walk : ∀ q ∈ [(1, true), (9, false)],
    let s := ((tables 0x1001F base).modHearth 0 fun h => { h with walks := [(0, q.1)] }).modFrag 0 fun x =>
      { x with entries := [{ prio := 0x10, pc := 0x10000, mask := 1, wait := some (.walk (BitVec.ofNat 8 0) q.1) }] }
    (BitVec.ofNat 8 0, q.1) ∈ (s.hearth 0).walks.take 64 ∧ (s.frag 0).onCore = true ∧ coreHearth (s.frag 0).gc = 0 ∧
    (∃ e ∈ (s.frag 0).entries, e.wait = some (.walk (BitVec.ofNat 8 0) q.1)) ∧ (s.walk (0 / 16) 0 (q.1 * 65536)).isSome = q.2 := by
  decide +kernel

/-! ### States and operands that meet the hypotheses: fragments, rounds and routes -/

/-- The fragment of core 0 is on its way out of slot 0. -/
def leaving (dest : Nat) (lsel : BitVec 8) (park : Bool) (ps : List PSeq) (s : State) : State :=
  s.modFrag 0 fun x => { x with place := .departing 0 0 dest lsel false park, pseq := ps }

/-- Five entries, of targets whose acknowledgements core 1 has not told. -/
def fiveEntries : List PSeq := (List.range 5).map fun k => { tgt := k + 1, src := coreSrc 1 0 0, seq := 1 }

theorem witness_FragmentsTravel_departs :
    (∀ q ∈ [((0xFF : BitVec 8), false), (0, false), (0, true)], let s := leaving 1 q.1 q.2 [] mbase
      (s.frag 0).live = true ∧ s.mayLeave (s.frag 0) = true ∧ (s.frag 0).place = .departing 0 0 1 q.1 false q.2 ∧
      (s.keptPSeq (s.frag 0)).length ≤ 4 ∧ (s.pour (s.pourOf (s.frag 0))).flag 4 = false ∧ (s.frag 0).pinned = []) ∧
    (let s := leaving 1 0 false fiveEntries mbase
     (s.frag 0).live = true ∧ s.mayLeave (s.frag 0) = true ∧ 4 < (s.keptPSeq (s.frag 0)).length ∧
      ∃ e ∈ s.keptPSeq (s.frag 0), srcCore e.src ≠ 0) := by decide +kernel

/-- A fragment in flight to hearth 1. -/
def ingot (bound : Bool) : Packet := { pkt (.ingot 0 0xFF 1024 bound) with src := coreSrc 0 0 7 }
def flies (s : State) : State := s.modFrag 0 fun x => { x with place := .flight }

/-- Every granule of the cores of hearth 1 belongs to casts anchored there. -/
def crowded (s : State) : State :=
  { s with casts := s.casts ++ (List.range 8).map fun k => (100 + k, { Cast.fresh with anchor := 8 + k, granules := BitVec.allOnes 96 }) }

theorem witness_FragmentsTravel_arrives :
    (let s := carrying (ingot true) (flies mbase)
     s.ready 0 = some (ingot true) ∧ (s.frag 0).live = true ∧ s.mustPark 0 (ingot true).tgt = false ∧ s.refuses (ingot true) = false) ∧
    (let s := carrying (ingot false) (flies mbase)
     s.ready 0 = some (ingot false) ∧ s.refuses (ingot false) = false ∧ (s.pickCore 1).isSome = true ∧ (s.hearth 1).arrivals = [] ∧
      s.pickCore 1 ≠ some (s.anchorOf (s.frag 0))) ∧
    (let s := carrying (ingot false) (crowded (flies mbase))
     s.ready 0 = some (ingot false) ∧ s.refuses (ingot false) = false ∧ s.pickCore 1 = none ∧
      s.spot 1 (s.frag 0).parkedBytes ≠ none) ∧
    (let p := { ingot false with ctx := 1 }
     let s := carrying p (flies mbase)
     s.ready 0 = some p ∧ s.refuses p = true) := by decide +kernel

theorem witness_FragmentsTravel_parked :
    let s := (mbase.modFrag 0 fun x => { x with place := .parked 1 true false }).modHearth 1 fun h => { h with arrivals := [0] }
    (s.hearth 1).arrivals = 0 :: [] ∧ (s.pickCore 1).isSome = true ∧ s.badImage 1 (· = .ingot 0) = none := by decide +kernel

theorem witness_FragmentsTravel_hold :
    let s := mbase.modFrag 0 fun x => { x with pseq := [{ tgt := 0, src := coreSrc 1 0 0, seq := 1 }, { tgt := 1, src := 0, seq := 4 }] }
    (s.frag 0).onCore = true ∧ (∃ e ∈ (s.frag 0).pseq, e.tgt = coreHearth (s.frag 0).gc) ∧
    ∀ e ∈ (s.frag 0).pseq, e.tgt = coreHearth (s.frag 0).gc → s.pendingTo e.src e.tgt e.seq = false := by decide +kernel

/-- Window 0 has its home and its root at hearth 0, whose switch takes ports 1 and 2. -/
def winTree : Window := { win0 with tree := [{ switch := 0, home := 0, ins := [1, 2], out := 0 }] }

/-- A contribution of port 1 at switch 0, and its round as the switch holds it. -/
def elem5 : Contrib := { ofs := 0, round := 0, val := 5, poison := false }
def part1 (g : Byte) : Packet := { pkt (.contribution 0 g 0 1 [elem5] (some false) false) with tgt := 65536, src := hearthSrc 1 5 }
def round2 : Round := { win := 0, home := 0, ofs := 0, round := 0, vals := [{ port := 2, val := 3, poison := false, replace := some false, flushed := false }], since := 0 }
def holding (rs : List Round) (w : Window) (s : State) : State :=
  s.modPkg 0 fun p => { p with windows := [(0, w)], switches := [(0, { Switch.reset with rounds := rs })] }

theorem witness_ReductionRounds_contribution :
    (∀ rs ∈ [[], [round2]], ∀ g ∈ [(0 : Byte), 1], let s := carrying (part1 g) (holding rs winTree mbase)
      let w := ((s.pkg 0).window 0).accepted
      let k := (s.pkg 0).switch 0
      s.ready 0 = some (part1 g) ∧ (w.node 0 0).isSome = true ∧ (w.wgen = g.toNat ↔ g = 0) ∧ w.valid = true ∧
      [elem5].Pairwise (fun x y => (x.ofs, x.round) ≠ (y.ofs, y.round)) ∧ (0, 0, 0, 1, 0) ∉ k.flushed ∧ k.rounds.length + 1 ≤ 8192) ∧
    (let s := carrying (part1 0) (holding [] { winTree with valid := false } mbase)
     let w := ((s.pkg 0).window 0).accepted
     s.ready 0 = some (part1 0) ∧ (w.node 0 0).isSome = true ∧ w.wgen = (0 : Byte).toNat ∧ w.valid = false) ∧
    (∃ q ∈ [1, 2], ∀ v ∈ ([{ port := 1, val := 5, poison := false, replace := some false, flushed := false }] : List RoundVal), v.port ≠ q) ∧
    (let vals := round2.vals ++ [{ port := 1, val := 5, poison := false, replace := some false, flushed := false }]
     (∀ q ∈ [1, 2], ∃ v ∈ vals, v.port = q) ∧ roundReplace vals = some false) := by decide +kernel

theorem witness_ReductionRounds_merged : (∀ r ∈ [0, 1], let p := { pkt (.merged 0 0 0 0 r 5 false false false) with tgt := 0, src := hearthSrc 0 5 }
    let s := carrying p (holding [] winTree mbase)
    let w := ((s.pkg (0 / 16)).window 0).accepted
    s.ready 0 = some p ∧ w.wgen = (0 : Byte).toNat ∧ (w.valid = true ∨ w.tree ≠ []) ∧ (w.landedAt 0 0 = r ↔ r = 0) ∧
      s.refuses p = false ∧ isCpage (paOf 0 0) = false) ∧
    (let p := { pkt (.merged 0 1 0 0 0 5 false false false) with tgt := 0, src := hearthSrc 0 5 }
     let s := carrying p (holding [] winTree mbase)
     s.ready 0 = some p ∧ ((s.pkg (0 / 16)).window 0).accepted.wgen ≠ (1 : Byte).toNat) := by
  decide +kernel

/-- The first partial round of window 0 at switch 0 stands there, and nothing stands in the second place. -/
theorem witness_ReductionRounds_flush : let s := holding [round2] winTree mbase
    (((s.pkg 0).switch 0).rounds.filter fun q => decide (q.win = 0))[0]? = some round2 ∧
    (((s.pkg 0).switch 0).rounds.filter fun q => decide (q.win = 0))[1]? = none ∧
    (((s.pkg 0).window round2.win).node 0 round2.home).map (·.out) = some 0 ∧
    (∀ n ∈ [0, 1], let u : State := { s with now := 1100 * (s.pkg 0).wflush - n }
      (round2.since + 1100 * (u.pkg 0).wflush ≤ u.now ↔ n = 0)) := by decide +kernel

/-- A collective that one of the contributors has not issued. -/
theorem witness_ReductionRounds_collective :
    let s : State := { withWin win0 base with cmds := [(0, { Cmd.none with eng := .coll, stage := .active })], now := 1100 * (base.pkg 0).wflush }
    (0, s.cmd 0) ∈ s.cmds ∧ (((s.pkg 0).switch 0).rounds.filter fun q => decide (q.win = 0))[0]? = none ∧ (s.cmd 0).eng = .coll ∧ (s.cmd 0).win = 0 ∧
    (s.cmd 0).stage = .active ∧ (s.cmd 0).since + 1100 * (s.pkg (corePkg (s.cmd 0).gc)).wflush ≤ s.now ∧ s.allIssued (s.cmd 0) = false := by decide +kernel

theorem witness_ReductionRounds_window :
    (let s := withWin ({ win0 with valid := false }.setByte 0x2C 0 |>.setByte 0x2D 2) base
     ((s.pkg 0).window 0).status = 2 ∧ ((s.pkg 0).window 0).valid = false ∧ s.windowBusy 0 0 = false ∧ (s.pkg 0).heldRounds 0 = []) ∧
    (let s := withWin ({ win0 with valid := false }.setByte 0x2C 0) base
     (s.pkg 0).present = true ∧ ((s.pkg 0).window 0).validBit = false ∧ ((s.pkg 0).window 0).status ≠ 2) ∧
    (∀ rs ∈ [[], [round2]], (((holding rs winTree base).pkg 0).window 0).validBit = true ∧
      (((holding rs winTree base).pkg 0).heldRounds 0 = [] ↔ rs = [])) := by decide +kernel

/-- Contexts 0 and 255, and a packet on its way into switch 0 of package 0, or over the first bundle of the port that leads to package 1, whose
flits have failed there no time and seven times; bundle 23 it does not pass. -/
theorem witness_ReductionRounds_flit : ∀ n ∈ [0, 7],
    (let p := { pkt (.store twoWords) with fails := 16 * crcPlace false 0 + n }
     let s := carrying p mbase
     s.net[0]? = some p ∧ p.lost = false ∧ s.passesPlace p false 0 = true ∧ s.passesPlace p true 23 = false ∧ (s.pkg (0 / 16)).present = true ∧
      (p.failsAt (crcPlace false 0) = 7 ↔ n = 7)) ∧
    (let p := { pkt (.store twoWords) with tgt := 16, fails := 16 * crcPlace true 0 + n }
     let s := carrying p ((State.setPkg mbase 1 Pkg.reset).modPkg 0 fun k => { k with switches := [(0, { Switch.reset with bank0 := [(16, 6)] })] })
     ∃ unit ∈ List.range 24, s.passesPlace p true unit = true ∧ (s.pkg (unit / 24)).present = true ∧ s.net[0]? = some p ∧ p.lost = false) ∧
    (0 < 256 ∧ 255 < 256) := by decide +kernel

/-- The totals of context 0 have stood for 64 sweeps, and are not balanced. -/
theorem witness_SweepsAndRoutes_sweeps :
    let s := mbase.modPkg 0 fun p => { p with sweeps := [(0, { totals := [1, 0], same := 64, quiet := 0, balanced := false })] }
    (s.pkg 0).present = true ∧ (s.pkg 0).st = .ready ∧ (s.pkg 0).fatalCtxs.getLsbD 0 = false ∧
    (let w := Sparse.get .none (s.pkg 0).sweeps 0; 64 ≤ w.same ∧ w.balanced = false) ∧
    (Sparse.get .none (mbase.pkg 0).sweeps 0).same ≠ 63 := by decide +kernel

theorem witness_SweepsAndRoutes_routes :
    (∀ q ∈ mbase.pkgs, q.2.routing = none) ∧
    (let s := mbase.modPkg 0 fun p => { p with routing := some [] }
     (∃ q ∈ s.pkgs, q.2.routing ≠ none) ∧ (s.pkg (srcPkg 0)).routing = some [] ∧ endpoint 0 ∉ ([] : List Nat) ∧
      s.endpointIdle (endpoint 0) (s.pkg (srcPkg 0)).bank = true ∧
      (s.modCore 0 fun c => { c with unacked := [{ src := 0, tgt := 1, seq := 3, ord := 3, addr := 0, cast := none }] }).endpointIdle
        (endpoint 0) false = false) := by decide +kernel

/-- Every endpoint has flipped, and the old generation's counters have balanced in the sweep before. -/
theorem witness_SweepsAndRoutes_retire :
    let s0 := mbase.modPkg 0 fun p => { p with routing := some [] }
    let s := { s0 with oldSweep := { totals := s0.oldTotals.flatMap fun (q : Nat × Nat) => [q.1, q.2], same := 1, quiet := 1, balanced := true } }
    (s.pkg 0).present = true ∧ (∃ q ∈ s.pkgs, q.2.routing.isSome = true) ∧ s.allFlipped = true ∧
      (let w := s.oldSweep.next s.oldTotals; 2 ≤ w.same ∧ w.balanced = true) := by decide +kernel

/-! ### States and operands that meet the hypotheses: launches and casts -/

/-- A launch request for the record at 0x30000. -/
def req : LaunchReq := { ctx := 0, reserved := false, recPa := 0x30000 }

theorem witness_LaunchesAndCasts_launch :
    (let s := linked base
     (s.pkg 0).present = true ∧ (s.pkg 0).perst = true ∧ (s.pkg 0).hostLink = true ∧ (s.pkg 0).st = .ready ∧ (s.pkg 0).enabled 15 = true ∧
      (let pa := (0x30000 : DWord).toNat % 2 ^ 50; paHost pa = false ∧ pa % 128 = 0 ∧ s.noHome 0 pa = false ∧ isCpage pa = false) ∧ (s.hearth 15).waiting.length < 64) ∧
    (let s := (linked base).modHearth 15 fun h => { h with waiting := List.replicate 64 req }
     64 ≤ (s.hearth 15).waiting.length) ∧
    ((linked State.reset).pkg 0).st ≠ .ready ∧ 4 ≠ 8 := by decide +kernel

/-- The request is the first of hearth 0, whose record names the page at 0x10000, or holds a reserved bit. -/
def asking (raw : Nat) : State :=
  ((tables 0x1001F base).writeMem 0x30000 128 raw false).modHearth 0 fun h => { h with waiting := [req] }

def askedPour (s : State) : Pour :=
  { Pour.none with pkg := 0, hearth := 0, ctx := 0, recPa := 0x30000, raw := BitVec.ofNat 1024 (s.readLE 0x30000 128) }

theorem witness_LaunchesAndCasts_grant :
    (let s := asking (placedRecord.toNat + 0x10000 * 2 ^ (8 * 8) + 0x10000 * 2 ^ (8 * 0x58))
     ((s.hearth 0).waiting.find? fun r => !s.ctxSaved (0 / 16) r.ctx) = some req ∧ (s.hearth 0).slots.length < 64 ∧
      s.refusal (askedPour s) req.reserved (s.poisoned 0x30000 128) = 0 ∧ (askedPour s).deps = false ∧ (askedPour s).gangSize = 1 ∧
      (askedPour s).casts ≤ 2 ^ 64) ∧
    (let s := asking (2 ^ (8 * 0x27))
     ((s.hearth 0).waiting.find? fun r => !s.ctxSaved (0 / 16) r.ctx) = some req ∧
      s.refusal (askedPour s) req.reserved (s.poisoned 0x30000 128) ≠ 0) := by decide +kernel

/-- No pour is being pinned; the pour asked for needs no affinity word. -/
theorem witness_LaunchesAndCasts_pinning :
    (asking (placedRecord.toNat + 0x10000 * 2 ^ (8 * 8) + 0x10000 * 2 ^ (8 * 0x58))).nextPinning 0 = none ∧
    (asking (2 ^ (8 * 0x27))).nextPinning 0 = none := by decide +kernel

/-- Cast 1 of the pour is placed, at the head of the queue of hearth 0; its charge is 9 W. -/
def entry : QEnt := { pour := 0, casts := [castKey 0 1], resume := false, order := 3, waited := false }
def queued (w : Nat) : State :=
  (((setRec 0x35 9 base).modPkg 0 fun p => { p with bellows := { p.bellows with budget := w } }).setCast (castKey 0 1)
    { Cast.fresh with st := .placed, index := 1 }).modHearth 0 fun h => { h with pqueue := [entry] }

theorem witness_LaunchesAndCasts_start : ∀ w ∈ [9000, 8999], let s := queued w
    s.head 0 = some entry ∧ (s.startHead 0 entry).isSome = true ∧ (s.pour entry.pour).unmetered = false ∧ entry.resume = false ∧
    s.ballastNow 0 < 9000 ∧
    s.firstAsk (s.asks (0 / 16)) = some (Ask.start 0 entry) ∧
    (1000 * s.charge (0 / 16) (Ask.start 0 entry) ≤ (s.pkg (0 / 16)).bellows.budget ↔ w = 9000) ∧
    entry.casts = [castKey 0 1] ∧ (s.anchorFor (s.cast (castKey 0 1)).pour 0).isSome = true := by decide +kernel

/-- A pour that is not metered. -/
theorem witness_LaunchesAndCasts_unmetered :
    (let s := setRec 0x36 2 (queued 0)
     s.head 0 = some entry ∧ (s.startHead 0 entry).isSome = true ∧ (s.pour entry.pour).unmetered = true) := by decide +kernel

theorem witness_LaunchesAndCasts_quantum : let s := { base with now := 22000 }
    (s.cast 0).startedAt + 22000 ≤ s.now ∧ (s.cast 0).st = .running ∧ (s.cast 0).quantum = none ∧ (s.pour (s.cast 0).pour).resident = false ∧
    s.head (coreHearth (s.cast 0).anchor) = none := by decide +kernel

/-- The cast has neither hoists nor work left; and the cast's hoist has raised. The record of the pour has one dependence
vector, of four casts in a row. -/
def depCast : State :=
  setRec 0x36 4 (setRec 0x26 1 (setRec 0x40 0xFF (setRec 0x28 3 base)))

theorem witness_LaunchesAndCasts_retire :
    (let s := { base with hoists := [], frags := [] }
     (s.pour (s.cast 0).pour).st = .accepted ∧ (s.cast 0).st = .running ∧ (s.cast 0).parking = false ∧ s.castExited 0 = true ∧
      s.castBalanced 0 = true) ∧
    (let s := (depCast.modCast 0 fun c => { c with raiser := true }).modHoist 0 fun h => { h with raised := BitVec.allOnes 32 }
     (s.pour (s.cast 0).pour).st = .accepted ∧ (s.pour (s.cast 0).pour).deps = true ∧ (s.cast 0).st = .running ∧
      (s.cast 0).parking = false ∧ (s.cast 0).raiser = true ∧ (s.cast 0).psent = false ∧
      ∀ hk ∈ s.castHoists 0, (s.hoist hk).isRaised = true) := by decide +kernel

theorem witness_LaunchesAndCasts_end :
    (let s := base.modPour 0 fun p => { p with nret := 1 }
     (s.pour 0).st = .accepted ∧ (s.pour 0).nret = (s.pour 0).ncast) ∧
    (let s := base.modPour 0 fun p => { p with st := .killing }
     (s.pour 0).st = .killing ∧ s.killQuiet 0 = true) ∧
    (∀ st ∈ [PourState.finishing, .stopped], let s := base.modPour 0 fun p => { p with st, caddr := some 0x8000 }
     (s.pour 0).st = st ∧ s.settled (seqrSrc (16 * (s.pour 0).pkg + (s.pour 0).hearth)) (paHearth (s.pour 0).recPa) (s.pour 0).lastSeq = true ∧
      (s.pour 0).pins = [] ∧ (s.pour 0).caddr = some 0x8000) := by decide +kernel

/-! ### States and operands that meet the hypotheses: waits -/

/-- The issuing entry waits for `w`. -/
def waits (w : Wait) (s : State) : State := setE (BitVec.allOnes 32) (some w) s

theorem witness_WaitsEnd_waita : let s := waits (.waita [0] 4 true) base
    (s.frag 0).onCore = true ∧ ∃ e ∈ (s.frag 0).entries, e.wait = some (.waita [0] 4 true) := by decide +kernel

/-- The record at 0x30000 says DONE. -/
def doneState : State := waits (.pourw 0x30000) (base.writeMem 0x30052 2 2 false)

theorem witness_WaitsEnd_pourw : let s := doneState
    (s.frag 0).onCore = true ∧ (∃ e ∈ (s.frag 0).entries, e.wait = some (.pourw 0x30000)) ∧
    finalStatus (s.readLE 0x30052 2) = true := by decide +kernel

theorem witness_WaitsEnd_ticket : let s := waits (.ticket 0x30000 7) (base.writeMem 0x30000 8 7 false)
    (s.frag 0).onCore = true ∧ (∃ e ∈ (s.frag 0).entries, e.wait = some (.ticket 0x30000 7)) ∧
    decide (s.readLE 0x30000 8 = 7) = true := by decide +kernel

/-- A wait for registers that are full. -/
theorem witness_WaitsEnd_ready : let s := waits .full base
    (s.frag 0).onCore = true ∧ (∃ e ∈ (s.frag 0).entries, e.wait = some .full) ∧ s.waitOver (s.frag 0) .full = true := by decide +kernel

/-- POLL and SLEEP at the clock at which they end. -/
theorem witness_WaitsEnd_times : let s := { base.modFrag 0 fun x => { x with pause := some 64, sleep := some 64 } with now := 64 }
    (s.frag 0).pause = some 64 ∧ (s.frag 0).sleep = some 64 ∧ 64 ≤ s.now := by decide +kernel

/-- JOIN whose mask has none but the lanes that wait; MBIND of idle contexts of two casts. -/
theorem witness_WaitsEnd_masks :
    (let s := (waits (.join 1) base).modHoist 0 fun h => { h with masks := [(1, 0xFF)] }
     (s.frag 0).onCore = true ∧ (s.frag 0).entries = [{ prio := 0x10, pc := 0x10000, mask := BitVec.allOnes 32, wait := some (.join 1) }] ∧
      s.joinDue (s.frag 0).hoist 1 (BitVec.allOnes 32) = true) ∧
    (let s := waits (.mbind false 1 true 0x10008) pairState
     (s.frag 0).onCore = true ∧ (s.frag 0).trap = none ∧ (s.frag 0).frozen = [] ∧ (s.frag 0).loops = [] ∧
      (s.frag 0).entries = [{ prio := 0x10, pc := 0x10000, mask := BitVec.allOnes 32, wait := some (.mbind false 1 true 0x10008) }] ∧
      s.castOf (s.frag 0) ≠ 1 ∧ ((s.cast (s.castOf (s.frag 0))).ctx false).idle = true ∧ ((s.cast 1).ctx true).idle = true) := by decide +kernel

/-- A loop with `n` rounds to go when every lane has reached its end. -/
def oneLoop (n : BitVec 24) : LoopEnt := { count := n, prio := 0x10, start := 0x10000, stop := 0x10010 }
def loopState (n : BitVec 24) : State :=
  base.modFrag 0 fun x => { x with
    loops := [oneLoop n], entries := [], atEnd := [{ prio := 0x10, pc := 0x10018, mask := BitVec.allOnes 32, wait := none }] }

theorem witness_WaitsEnd_loop (n : BitVec 24) : ((loopState n).frag 0).live = true ∧ ((loopState n).frag 0).loops = [oneLoop n] ∧
    ((loopState n).frag 0).atEnd.length = 1 ∧ ((loopState n).frag 0).entries = [] := ⟨rfl, rfl, rfl, rfl⟩

theorem witness_WaitsEnd_barrier :
    let w : BarWait := { hoist := 0, pc := 0x10000, next := 0x10008, lanes := 0xFF }
    let full := base.modCast 0 fun c => { c with bars := [(15, { arrived := [(0, 0xFF)], waits := [w], count := some 8 })] }
    ∀ q ∈ [(full, true), (away full, false)], let s := q.1
      s.barFull 0 15 = true ∧ (s.cast 0).parking = false ∧ (s.cast 0).st ≠ .parked ∧ ((s.cast 0).bar 15).waits = [w] ∧
      s.hoistFrags w.hoist = [0] ∧ (s.frag 0).lanes &&& w.lanes ≠ 0 ∧ s.atAnchor (s.frag 0) = q.2 := by decide +kernel

/-- Partition 0 of core 0: slot 9 is ready, and slot 0 active, for 512 and for 511 clocks. -/
theorem witness_WaitsEnd_exchange : ∀ now ∈ [512, 511],
    let s := { ((base.modHoist 0 fun h => { h with slot := 9 }).modFrag 0 fun x => { x with place := .core 0 9 }).modCore 0 fun c =>
      { c with active := [(0, [0])], anchors := [(9, some 0)] } with now }
    let c := s.core 0
    earliest (fun q => Sparse.get 0 c.readyAt q) (s.pendingReady 0 0) = some 9 ∧
    earliest (fun q => Sparse.get 0 c.activeAt q) (Sparse.get [] c.active 0) = some 0 ∧
    ((Sparse.get 0 c.readyAt 9 + 512 ≤ s.now ∧ (Sparse.get 0 c.swapped 0 = 0 ∨ Sparse.get 0 c.swapped 0 + 64 ≤ s.now)) ↔ now = 512) := by
  decide +kernel

/-! ### States and operands that meet the hypotheses: the array and the engines -/

/-- An accepted instruction of hoist 0. -/
def accepted (op : MOp) : MInst := { op, saved := { word := 0, sa := 0, sb := 0, sc := 0 }, hoist := 0, num := 0, running := false, posted := none, a := .none, b := .none, mate := none }

/-- The product of two tiles of 16 rows and 32 columns. -/
def mmaOp (pair : Bool) : MOp := .mac .mma 0xF83C00800000 0xF83C00801000 0x166 [] pair

/-- Context 0 holds one instruction. -/
def withInst (m : MInst) (s : State) : State :=
  s.modCast 0 fun c => { c with c0 := { c.c0 with queue := [m], accepted := 1 } }

/-- The array sleeps, or not; no wake is in the budget. -/
def turn (asleep : Bool) : State :=
  ((withInst (accepted (mmaOp false)) (mxState 0x166)).modCore 0 fun c => { c with asleep }).modPkg 0 fun p =>
    { p with bellows := { p.bellows with budget := 0 } }

theorem witness_MatrixInstructionsRun_start : ∀ b ∈ [false, true], let s := turn b
    s.turnOf 0 = some (0, false) ∧ (s.cast 0).anchor = 0 ∧ ((s.cast 0).ctx false).queue.head? = some (accepted (mmaOp false)) ∧
    s.partner (0, false) = none ∧ (s.core 0).asleep = b ∧ s.grantOf (corePkg 0) (.wake 0 (0, false)) = none := by decide +kernel

/-- The instruction on the array has run its clocks. -/
def onArray (op : MOp) (s : State) : State :=
  (withInst { accepted op with running := true } s).modCore 0 fun c => { c with running := some (0, false), asleep := false }

/-- The first element of ALDS and ASTS of 16 rows of 32 words stands at 0, the rows 128 bytes apart. -/
def wordTile : DWord := 0x183C00800000

theorem witness_MatrixInstructionsRun_retire :
    ∀ op ∈ [mmaOp false, .aclr, .alds .i32 wordTile, .asts .i32 wordTile 0x166, .ard .i32 8 0 0x166 0xFF 0xFF, .amrg 0 0x166 plain [] 0x30000],
      let s := onArray op (mxState 0x166)
      (s.core 0).running = some (0, false) ∧ ((s.cast 0).ctx false).queue = { accepted op with running := true } :: [] ∧
      (s.core 0).arrayEnd ≤ s.now ∧ (s.cast 0).parking = false ∧ (s.castHoists 0).length = 1 ∧ (s.hoist 0).live = true := by decide +kernel

theorem witness_MatrixInstructionsRun_tiles : tileK wordTile ≤ 256 ∧ tileK wordTile * (Ty.i32.bits / 8) ≤ tileStride wordTile ∧
    Ty.i32.bits = 32 := by decide +kernel

/-- The other cast of the gang has a hoist of its own. -/
theorem witness_MatrixInstructionsRun_pair :
    let m : MInst := { accepted (mmaOp true) with running := true, mate := some (true, 1, true) }
    let s := (((withInst m bound).modCore 0 fun c => { c with running := some (0, false), asleep := false }).setHoist 32 (Hoist.new 1 0 0)).modCast 1
      fun c => { c with c1 := { c.c1 with queue := [{ m with mate := some (false, 0, false) }] } }
    (s.core 0).running = some (0, false) ∧ ((s.cast 0).ctx false).queue = [m] ∧ m.mate = some (true, 1, true) ∧ (1 : Nat) ≠ 0 ∧
    (s.cast 1).anchor ≠ 0 ∧ (s.cast 1).parking = false ∧ (s.castHoists 1).length = 1 ∧ (s.castHoists 0).length = 1 ∧
    (∀ r ∈ (((s.cast 1).ctx true).queue.drop 1).head?, r.op ≠ .mfree) := by decide +kernel

/-- ACLR has run its clocks, and MFREE stands behind it. -/
theorem witness_MatrixInstructionsRun_free :
    let m : MInst := { accepted .aclr with running := true }
    let s := (onArray .aclr (mxState 0x166)).modCast 0 fun c => { c with c0 := { c.c0 with queue := [m, { accepted .mfree with num := 1 }] } }
    (s.core 0).running = some (0, false) ∧ ((s.cast 0).ctx false).queue = [m, { accepted .mfree with num := 1 }] ∧
    (s.core 0).arrayEnd ≤ s.now ∧ (s.cast 0).parking = false ∧ (s.castHoists 0).length = 1 ∧ m.mate = none := by decide +kernel

/-- A merge whose posts are acknowledged. -/
theorem witness_MatrixInstructionsRun_merge :
    let s := withInst { accepted (.amrg 0 0x166 plain [] 0x30000) with running := true, posted := some 4 } (mxState 0x166)
    ((s.casts.find? fun q => q.2.anchor = 0 && s.mergeAcked 0 (q.1, false)).map Prod.fst) = some 0 ∧ (s.cast 0).parking = false ∧
    (s.castHoists 0).length = 1 := by decide +kernel

/-- An integer job, and one of FP8 values whose extent is one K-block. -/
def job (w : Word) : MacJob := { kind := .mma, da := 0xF83C00800000, db := 0xF83C00801000, fmt := w, ws := [], a := .none, b := .none }

theorem witness_MatrixElements : fmtInt (job 0x166).fmt = true ∧ (job 0x166).kind = .mma ∧ fmtInt (job 0).fmt = false ∧
    tileK (job 0).da ≤ blockSize (job 0).fmt ∧ fmtInt (cmdOf .bank (setSpad bankRec base)).fmt = true := by decide +kernel

/-- A queue of commands to the copy engine holds one element, the offset `ofs`. -/
def taking (ofs : Nat) (recd : List (Nat × Byte)) (s : State) : State :=
  s.modCast 0 fun c => { c with
    queues := [(1, { bind := 0x800000002002, head := 0, tail := 1 })], spad := recd ++ [(32768, BitVec.ofNat 8 ofs), (32770, BitVec.ofNat 8 (ofs / 65536))] }

/-- A record that is taken; a misaligned one, one beyond the allocation and one that names no length. -/
theorem witness_EnginesRun_take : ∀ q ∈ [(0, copyRec), (0, []), (32, []), (65536, [])], let s := taking q.1 q.2 base
    let x := s.cast 0
    engineOf (x.queue 1).kind = some .copy ∧ (x.queue 1).count ≠ 0 ∧ x.granules ≠ 0 ∧ x.parking = false ∧ s.inFlight x.anchor .copy < 512 ∧
    (x.element (x.queue 1) (x.queue 1).head).bits.toNat % 2 ^ 23 = q.1 := by decide +kernel

/-- What the checks answer at take for the record at the offset. -/
def taken (recd : List (Nat × Byte)) : Except CmdBad Cmd :=
  let s := taking 0 recd base
  let x := s.cast 0
  { s.modCast 0 fun y => y.pop 1 1 with nextCmd := s.nextCmd + 1 }.checkCmd (Cmd.new .copy x.anchor 0 (s.pour x.pour).ctx (BitVec.ofNat 512 (x.sread 0 64)))

theorem witness_EnginesRun_taken : (32 % 64 ≠ 0 ∧ base.spadBytes 0 < 65536 + 64 ∧ 0 + 64 ≤ base.spadBytes 0) ∧ (taken []).isOk = false ∧
    (match taken copyRec with | .ok d => d.eng = .copy ∧ d.unpinned = [] ∧ d.pins = [] | .error _ => False) :=
  ⟨by decide +kernel, by decide +kernel, by
    have h : (match taken copyRec with | .ok d => decide (d.eng = .copy ∧ d.unpinned = [] ∧ d.pins = []) | .error _ => false) = true := by
      decide +kernel
    revert h
    cases taken copyRec with
    | ok d => simp
    | error e => simp⟩

/-- A command of an engine, in the record at offset 0, as command 0. -/
def commanding (c : Cmd) (s : State) : State := { s with cmds := [(0, c)], nextCmd := 1 }

/-- The pieces of a finished copy are settled; its context is saved, which holds no collective back. -/
theorem witness_EnginesRun_saved : let s := (commanding { Cmd.new .coll 0 0 0 0 with stage := .finishing } base).modPkg 0 fun p =>
      { p with savedCtxs := 1 }
    (s.cmd 0).eng = .coll ∧ s.payloadSettled (s.cmd 0) = true ∧ s.ctxSaved (corePkg (s.cmd 0).gc) (s.cmd 0).ctx = true := by decide +kernel

/-- Copies: before the first segment, with the context saved and not; after the last row; and with a segment in hand whose
destination is scratchpad or memory. -/
theorem witness_EnginesRun_copy : let c := cmdOf .copy (setSpad copyRec base)
    (let s := commanding { c with stage := .active } base
     (s.cmd 0).eng = .copy ∧ (s.cmd 0).stage = .active ∧ (s.cmd 0).asked = false ∧ (s.cmd 0).buf = none ∧
      s.ctxSaved (corePkg (s.cmd 0).gc) (s.cmd 0).ctx = false ∧
      (s.modPkg 0 fun p => { p with savedCtxs := 1 }).ctxSaved (corePkg (s.cmd 0).gc) (s.cmd 0).ctx = true) ∧
    c.rowCount ≤ ({ c with row := 1 } : Cmd).row ∧
    (∀ f ∈ [0xC, 4], let d := cmdOf .copy (setSpad (copyRec.dropLast ++ [(0x38, f)]) base)
      (List.replicate 64 ((7 : Byte), false)).length = d.segment.2.2 ∧ (d.dsp = true ↔ f = 0xC)) := by decide +kernel

/-- The bank command whose pages were pinned: two DRAM rows to read, one row read, and its result at page 1. -/
def bankState : State := tables 0x1001F (setSpad bankRec base)
def bankCmd : Cmd := { checked bankState (cmdOf .bank bankState) with stage := .active }

theorem witness_EnginesRun_bank : let s := commanding bankCmd bankState
    (s.cmd 0).eng = .bank ∧ (s.cmd 0).stage = .active ∧ (s.cmd 0).asked = false ∧ s.ctxSaved (corePkg (s.cmd 0).gc) (s.cmd 0).ctx = false ∧
    bankCmd.bankRows = [64, 68] ∧ bankCmd.rows = [] := by decide +kernel

theorem witness_EnginesRun_bank_results : let s := commanding { bankCmd with stage := .results } bankState
    (s.cmd 0).stage = .results ∧ (s.cmd 0).ssp = false ∧ (s.cmdTranslate (s.cmd 0) ((s.cmd 0).yaddr + 4 * (s.cmd 0).pos) .wr).isOk = true := by
  decide +kernel

theorem witness_EnginesRun_end : ∀ e ∈ [Engine.copy, .bank, .coll],
    let s := commanding { Cmd.new e 0 0 0 0 with stage := .finishing, caddr := some 0x8000, pins := [0x3008] } base
    (s.cmd 0).stage = .finishing ∧ s.payloadSettled (s.cmd 0) = true ∧ s.ctxSaved (corePkg (s.cmd 0).gc) (s.cmd 0).ctx = false := by decide +kernel

/-- Feed queues: with room, full, and rebound to another kind. -/
theorem witness_EnginesRun_feed : ∀ q ∈ [((0x2015 : DWord), 0), (0x2015, 32), (0x2001, 0)],
    let s := commanding { Cmd.new .copy 0 0 0 0 with stage := .feeding } (setQ 0 q.1 0 q.2 base)
    let x := (s.cast (s.cmd 0).cast).queue (s.cmd 0).feedq
    (s.cmd 0).stage = .feeding ∧ s.payloadSettled (s.cmd 0) = true ∧ (s.cast (s.cmd 0).cast).parking = false ∧ (s.castHoists (s.cmd 0).cast).length = 1 ∧
    (s.cast (s.cmd 0).cast).granules ≠ 0 ∧ (x.kind = 5 ↔ q.1 = 0x2015) ∧ (q.1 = 0x2015 → x.esize = 8 ∧ x.count = q.2 ∧ x.cap = 32) := by
  decide +kernel

/-- The element waits for a completion word that is still on its way. -/
theorem witness_EnginesRun_feedWaits :
    let s := (commanding { Cmd.new .copy 0 0 0 0 with stage := .feeding, posted := [(1, 1)] } base).send (coreSrc 0 0 1) 1 0 false none (.engineWrite 0 (2 ^ 39) 1 false)
    (s.cmd 0).stage = .feeding ∧ s.payloadSettled (s.cmd 0) = false := by decide +kernel

/-- A barrier that its only contributor has issued, and has not; two parts of one instance that disagree; a failed instance. -/
def barrierCmd : Cmd := { cmdOf .coll (setSpad collRec base) with stage := .active }

theorem witness_EnginesRun_collective :
    (∀ n ∈ [0, 1], let s := commanding barrierCmd (withWin { win0 with insts := [(0, n)] } base)
      (s.cmd 0).eng = .coll ∧ (s.cmd 0).asked = false ∧ s.collBehind (s.cmd 0) = false ∧ (s.cmd 0).stage = .active ∧
      s.disagree (s.cmd 0) = false ∧ s.broken (s.cmd 0) = false ∧ (s.cmd 0).op = 4 ∧ (s.allIssued (s.cmd 0) = true ↔ n = 1)) ∧
    (let s : State := { withWin win0 base with cmds := [(0, barrierCmd), (1, { barrierCmd with raw := barrierCmd.raw ||| (7 <<< 304) })] }
     s.collBehind (s.cmd 0) = false ∧ s.disagree (s.cmd 0) = true ∧ (s.pkg (corePkg (s.cmd 0).gc)).present = true ∧
     (s.cmd 0).sourceDone (s.collWindow (s.cmd 0)) = true) ∧
    (let s := commanding barrierCmd (withWin { win0 with failed := [barrierCmd.inst] } base)
     (s.cmd 0).stage = .active ∧ s.collBehind (s.cmd 0) = false ∧ s.broken (s.cmd 0) = true ∧
     (s.cmd 0).sourceDone (s.collWindow (s.cmd 0)) = true) ∧
    (let s := commanding { barrierCmd with stage := .results, row := 64 } (withWin win0 base)
     (s.cmd 0).stage = .results ∧ 2 ≤ (s.cmd 0).op ∧ (s.cmd 0).sendBytes (s.collWindow (s.cmd 0)) ≤ (s.cmd 0).row ∧
      ∀ q ∈ s.instance_ (s.cmd 0), s.scattered q.2 = true) ∧
    (let c := cmdOf .coll (setSpad [(0x20, 1)] base)
     let s := commanding { c with stage := .results, row := 64 } (withWin win0 base)
     (s.cmd 0).stage = .results ∧ (s.cmd 0).op = 0 ∧ (s.cmd 0).dstBytes (s.collWindow (s.cmd 0)) ≤ (s.cmd 0).row) := by decide +kernel

/-- The pin step of a command that waits for its pins: one succeeds, one finds 255 pins, one finds its leaf changed; one has another
page to pin after it. -/
theorem witness_EnginesRun_pin :
    (∀ q ∈ [((0x1001F : Nat), PinStep.pinned), (0x1FF1F, .busy), (0x2001F, .failed)],
      let s := commanding { bankCmd with stage := .pinning } (tables q.1 (setSpad bankRec base))
      (s.cmd 0).stage = .pinning ∧ (s.cmd 0).eng = .bank ∧ firstPin s (s.cmd 0) = some (q.2, true)) ∧
    (let s0 := (tables 0x1001F (setSpad bankRec2 base)).writeMem 0x3010 8 0x2001F false
     let s := commanding { checked s0 (cmdOf .bank s0) with stage := .pinning } s0
     (s.cmd 0).stage = .pinning ∧ firstPin s (s.cmd 0) = some (.pinned, false)) := by decide +kernel

/-! ### States and operands that meet the hypotheses: Bellows, pre-emption, errors and the host -/

/-- The small state as its first window ends: nothing asks for power. -/
def windowEnds : State := { base with now := 1100 }

theorem witness_BellowsAdmits_window : base.windowOver 0 = false ∧ windowEnds.windowOver 0 = true ∧ windowEnds.asks 0 = [] ∧
    ∀ gc ∈ windowEnds.pkgCores 0, windowEnds.turnOf gc = none := by
  refine ⟨by decide +kernel, by decide +kernel, ?_, by decide +kernel⟩
  exact List.eq_nil_of_length_eq_zero (by decide +kernel)

/-- A cast admitted without leave in the window whose rise is too high. -/
theorem witness_BellowsAdmits_ramp :
    let s := windowEnds.modPkg 0 fun p => { p with bellows := { p.bellows with riseCap := 0, balNow := 10 ^ 12, unmet := [(0, 0, 0, 0)] } }
    let b := (s.pkg 0).bellows
    b.prevE + 1000 * min b.nextRise b.riseCap < s.programPower 0 + meanPower b.balNow (s.now - b.opened) ∧ b.unmet = [(0, 0, 0, 0)] ∧
    b.windows ≤ 0 + 1 ∧ (s.pour 0).staged = false ∧ (s.pour 0).st = .accepted ∧ s.windowOver 0 = true := by
  decide +kernel

/-- Program power that stays as it was leaves the rise within its limit. -/
def steady (s : State) : State := s.modPkg 0 fun p => { p with bellows := { p.bellows with prevE := s.programPower 0 } }
def steadyState : State := steady windowEnds

theorem witness_BellowsAdmits_rise : let b := (steadyState.pkg 0).bellows
    steadyState.programPower 0 + meanPower b.balNow (steadyState.now - b.opened) = b.prevE := by decide +kernel

theorem witness_BellowsAdmits_steady : steadyState.windowOver 0 = true ∧ (steadyState.asks 0).length = 0 ∧
    ∀ gc ∈ steadyState.pkgCores 0, steadyState.turnOf gc = none := by decide +kernel

/-- A floor `n` mW above the power of the clock. -/
def raised (n : Nat) (s : State) : State := s.modPkg 0 fun p => { p with bellows := { p.bellows with floor := s.clockPower 0 + n + 1 } }

/-- The array of core 0 asks for its wake, with ballast that covers it, or with none; and a pour that is not metered. -/
theorem witness_BellowsAdmits_wake :
    (let s := raised 9000 (turn true)
     s.firstAsk (s.asks 0) = some (.wake 0 (0, false)) ∧ 1000 * (s.pkg 0).bellows.wakeW ≤ s.ballastNow 0) ∧
    ((turn true).firstAsk ((turn true).asks 0) = some (.wake 0 (0, false)) ∧
      (turn true).ballastNow 0 < 1000 * ((turn true).pkg 0).bellows.wakeW) ∧
    (let s := setRec 0x36 2 (turn true)
     s.firstAsk ((s.asks 0).filter fun r => (s.pour (s.askPour r)).unmetered) = some (.wake 0 (0, false))) := by decide +kernel

/-- Ballast covers the charge of a cast. -/
theorem witness_LaunchesAndCasts_covered : let s := raised 9000 (queued 0)
    let mw := 1000 * s.charge 0 (Ask.start 0 entry)
    s.head 0 = some entry ∧ (s.startHead 0 entry).isSome = true ∧ s.firstAsk (s.asks 0) = some (Ask.start 0 entry) ∧ 0 < mw ∧
      mw ≤ s.ballastNow 0 := by decide +kernel

/-- A save or resume of context 0. -/
def preReq (resume : Bool) : PreReq := { resume, ctxs := [0], done := some 0x8000, fw := false, owner := 0 }
def preempting (resume saving : Bool) (saved : BitVec 256) (s : State) : State :=
  s.modPkg 0 fun p => { p with preempt := [preReq resume], saving, savedCtxs := saved }

theorem witness_PreemptionSavesAndResumes_begin : let s := preempting false false 0 base
    (s.pkg 0).preempt = preReq false :: [] ∧ (s.pkg 0).completing.isNone = true ∧ (s.pkg 0).saving = false := by decide +kernel

theorem witness_PreemptionSavesAndResumes_fresh : ctxSet (preReq false).ctxs &&& ~~~(0 : BitVec 256) ≠ 0 ∧
    ctxSet (preReq false).ctxs &&& ~~~(1 : BitVec 256) = 0 := by decide +kernel

/-- Every cast of the context is parked, and its last two sweeps agree and are balanced. -/
def stillState : State :=
  preempting false true 1 ((base.modCast 0 fun c => { c with st := .parked }).modPkg 0 fun p =>
    { p with sweeps := [(0, { totals := [0, 0], same := 2, quiet := 2, balanced := true })] })

theorem witness_PreemptionSavesAndResumes_end : (preempting false true 1 base).saveDone 0 [0] = false ∧ stillState.saveDone 0 [0] = true ∧
    (stillState.pkg 0).saving = true ∧ (∀ q ∈ stillState.pours, q.2.deps = false) := by decide +kernel

theorem witness_PreemptionSavesAndResumes_resume : let s := preempting true false 1 base
    (s.pkg 0).preempt = preReq true :: [] ∧ (s.pkg 0).saving = false ∧ (s.pkg 0).st = .ready := by decide +kernel

/-- A running cast of the saved context with a hoist. -/
theorem witness_PreemptionSavesAndResumes_casts : 0 ∈ base.ctxCasts 0 1 ∧ base.castExited 0 = false ∧ (base.cast 0).st = .running := by
  decide +kernel

/-- The dump is written once every context is saved. -/
theorem witness_PreemptionSavesAndResumes_completing :
    (∀ b ∈ [false, true], let s := base.modPkg 0 fun p => { p with completing := some (preReq b) }
      (s.pkg 0).completing = some (preReq b) ∧ (s.pkg 0).dumpCause = 0) ∧
    (let r : PreReq := { preReq false with done := none, fw := true }
     let s := base.modPkg 0 fun p => { p with completing := some r, dumpCause := 12, st := .fatal, savedCtxs := 1 }
     (s.pkg 0).completing = some r ∧ (s.pkg 0).dumpCause ≠ 0 ∧ (s.pkg 0).st = .fatal ∧
      (s.pkg 0).allCtxs.all fun c => (s.pkg 0).savedCtxs.getLsbD c.toNat) ∧
    ((0x100 : DWord).getLsbD 9 = false ∧ (base.pkg 0).present = true) := by decide +kernel

/-- The scrub at the first and at the last block below the region of the records, where no corrected error has been recorded, and one 1 ms
before, or a clock less. -/
theorem witness_ErrorsAreRecorded : ∀ n ∈ [0, 0x5F7FFFFF], let s := base.modHearth 0 fun h => { h with scrubbed := n }
    let pa := paOf 0 (32 * (s.hearth 0).scrubbed)
    s.hearthOn 0 = true ∧ (s.pkg (0 / 16)).st = .ready ∧ paHost pa = false ∧ paHearth pa = 0 ∧ s.noHome (0 / 16) pa = false ∧
      paOfs pa < 0xBF0000000 ∧ (s.hearth 0).noted = none := by decide +kernel

theorem witness_ErrorsAreRecorded_noted : ∀ now ∈ [1100220, 1099779],
    let s : State := { base.modHearth 0 fun h => { h with noted := some 0 } with now }
    (s.hearth 0).noted = some 0 ∧ (0 + 1100220 ≤ s.now ↔ now = 1100220) ∧ (s.now < 0 + 1099780 ↔ now = 1099779) := by decide +kernel

/-- The host link comes up; a header out of range stands in switch 0, which the packet passes. -/
theorem witness_ErrorsAreRecorded_turns :
    (let s : State := { base with agenda := [.linkUp 0] }
     s.agenda = .linkUp 0 :: [] ∧ (s.pkg 0).present = true) ∧
    (let p := pkt (.store twoWords)
     let s : State := { carrying p mbase with agenda := [.badHeader 0 0] }
     s.agenda = .badHeader 0 0 :: [] ∧ s.net[0]? = some p ∧ p.lost = false ∧ (s.pkg (0 / 16)).present = true ∧ s.passesPlace p false 0 = true) := by
  decide +kernel

theorem witness_ErrorsAreRecorded_package : (base.pkg 0).present = true ∧ 23 < 24 ∧ (base.pkg 0).st = .ready ∧
    ((linked base).pkg 0).hostLink = true ∧ (base.pkg 0).dumpCause = 0 := by decide +kernel

theorem witness_HostBringsThePackageUp_power : (State.reset.pkg 0).present = true ∧ (State.reset.pkg 0).aux = false ∧
    ((linked base).pkg 0).aux = true ∧ (State.reset.pkg 0).rails = false ∧
    (((linked base).modPkg 0 fun p => { p with perst := false }).pkg 0).rails = true := by decide +kernel

/-- A package at each of its doorbells; the addresses that it holds are 0, and the lengths of the image and of the dump 64. -/
def bell (st : HostState) (f : Pkg → Pkg) : State := (linked base).modPkg 0 fun p => f { p with st }

theorem witness_HostBringsThePackageUp_doorbells :
    (∀ st ∈ [HostState.waitImg, .rejected, .ready, .fatal, .verify], let p := (bell st id).pkg 0
      p.present = true ∧ p.perst = true ∧ p.hostLink = true ∧ p.dbBusy = false ∧ p.st = st ∧ p.dumpLen = 0 ∧ p.warm = false ∧ 0 < 64 ∧
        p.leaf = false ∧ p.otpCtr < 32768) ∧
    (let p := (bell .waitImg fun p => { p with imgLen := 64 }).pkg 0; p.imgAddr.toNat + p.imgLen.toNat ≤ 2 ^ 49) ∧
    (let p := (bell .ready fun p => { p with dumpLen := 64 }).pkg 0; p.dumpLen ≠ 0 ∧ p.dumpAddr.toNat + p.dumpLen.toNat ≤ 2 ^ 49) ∧
    (let p := (bell .verify fun p => { p with otpCtr := 32768, warm := true, imgLen := 64 }).pkg 0; 32768 ≤ p.otpCtr ∧ p.warm = true ∧ p.st = .verify) ∧
    (let p := (bell .ready fun p => { p with leaf := true, attests := 1023 }).pkg 0; p.leaf = true ∧ p.attests < 1024) ∧
    (let p := (bell .ready fun p => { p with leaf := true, attests := 1024, otpCtr := 32767 }).pkg 0
     p.leaf = true ∧ ¬ p.attests < 1024 ∧ p.otpCtr < 32768) ∧
    (let p := (bell .ready fun p => { p with leaf := true, attests := 1024, otpCtr := 32768 }).pkg 0; 1024 ≤ p.attests ∧ 32768 ≤ p.otpCtr) := by
  decide +kernel

/-- Hearth 1 belongs to partition 1, whose context 5 is swept before a configuration of zeros may take it away. -/
def losing (same : Nat) (busy : Bool) : State := bell .ready fun p => { p with
  parts := [(0, 0), (1, 1)], ctxs := p.ctxs ++ [(5, { CtxDesc.none with part := 1 })], dbBusy := busy
  sweeps := [(261, { totals := [], same, quiet := same, balanced := true })] }

/-- The host's memory at address 0 holds WFLUSH `w`, RISELIM `r` and FALLLIM `f` of a configuration, and zeros. -/
def cfgAt (w r f : Nat) (s : State) : State :=
  ((s.writeMem (hostPa 1312) 4 w false).writeMem (hostPa 1316) 2 r false).writeMem (hostPa 1318) 2 f false

/-- A configuration that gives every hearth and every context to partition 0. -/
def allZero (w r f : Nat) : CfgBlock :=
  { parts := List.replicate 1024 0, ctxParts := List.replicate 256 0, managing := 0, wflush := w, riseCap := r, fallCap := f, reserved := 0 }

theorem getD_zero (m n : Nat) (h : n < m) : (List.replicate m (0 : Byte)).getD n 0xFF = 0 := by
  rw [List.getD_eq_getElem?_getD, List.getElem?_replicate, if_pos h]; rfl

theorem cfg_parts (n : Nat) (h : n < 1024) (w r f : Nat) : (allZero w r f).parts.getD n 0xFF = 0 := getD_zero 1024 n h

theorem cfg_ctxParts (n : Nat) (h : n < 256) (w r f : Nat) : (allZero w r f).ctxParts.getD n 0xFF = 0 := getD_zero 256 n h

theorem read_zero (s : State) (h : s.mem = []) (ha : (s.pkg 0).cfgAddr = 0) :
    CfgBlock.of (s.hostRead (s.pkg 0).cfgAddr.toNat 1340) = allZero 0 0 0 := by
  rw [ha]
  simp only [State.hostRead, State.byte, h]
  decide +kernel

theorem cfg_read : CfgBlock.of ((cfgAt 10 1 1 (bell .ready id)).hostRead ((cfgAt 10 1 1 (bell .ready id)).pkg 0).cfgAddr.toNat 1340) =
    allZero 10 1 1 := by decide +kernel

theorem swept_zero (s : State) (w r f : Nat) : s.sweptFor 0 (allZero w r f) =
    (((List.range 1024).filter fun gh => (s.pkg 0).hearthPart gh ≠ 0).map (s.pkg 0).hearthPart).eraseDups.flatMap (s.pkg 0).partCtxs := by
  have h : (List.range 1024).filter (fun gh => decide ((s.pkg 0).hearthPart gh ≠ ((allZero w r f).parts.getD gh 0xFF).toNat)) =
      (List.range 1024).filter fun gh => (s.pkg 0).hearthPart gh ≠ 0 :=
    List.filter_congr fun gh hg => by rw [cfg_parts gh (List.mem_range.mp hg)]; rfl
  simp only [State.sweptFor]
  rw [h]

theorem losing_swept (n : Nat) (b : Bool) : (losing n b).sweptFor 0 (allZero 0 0 0) = [5] := by
  rw [swept_zero]; exact (show ((((List.range 1024).filter fun gh => ((losing 0 false).pkg 0).hearthPart gh ≠ 0).map
    ((losing 0 false).pkg 0).hearthPart).eraseDups.flatMap ((losing 0 false).pkg 0).partCtxs) = [5] by decide +kernel)

theorem bell_swept (w r f : Nat) : (bell .ready id).sweptFor 0 (allZero w r f) = [] := by rw [swept_zero]; decide +kernel

/-- A configuration that is swept for, before the sweeps, after one and after two; one that is not, and that is refused; and one that is
taken. -/
theorem witness_HostBringsThePackageUp_configuration :
    (∀ q ∈ [(0, false), (1, true), (2, true)], let s := losing q.1 q.2
      (s.pkg 0).st = .ready ∧ (s.pkg 0).cfgAddr.toNat + 1340 ≤ 2 ^ 49 ∧ (s.pkg 0).dbBusy = q.2 ∧
      CfgBlock.of (s.hostRead (s.pkg 0).cfgAddr.toNat 1340) = allZero 0 0 0 ∧ s.sweptFor 0 (allZero 0 0 0) = [5] ∧
      (2 ≤ (Sparse.get .none (s.pkg 0).sweeps ((5 : BitVec 8).toNat % 256 + 256)).same ↔ q.1 = 2)) ∧
    (let s := bell .ready id
     CfgBlock.of (s.hostRead (s.pkg 0).cfgAddr.toNat 1340) = allZero 0 0 0 ∧ s.sweptFor 0 (allZero 0 0 0) = [] ∧ s.cfgOk 0 (allZero 0 0 0) = false) ∧
    (let s := cfgAt 10 1 1 (bell .ready id)
     CfgBlock.of (s.hostRead (s.pkg 0).cfgAddr.toNat 1340) = allZero 10 1 1 ∧ s.sweptFor 0 (allZero 10 1 1) = [] ∧ s.cfgOk 0 (allZero 10 1 1) = true) := by
  refine ⟨fun q hq => ?_, ⟨read_zero _ rfl rfl, ?_, ?_⟩, cfg_read, ?_, ?_⟩
  · have h : q = (0, false) ∨ q = (1, true) ∨ q = (2, true) := by simpa using hq
    refine ⟨?_, ?_, ?_, read_zero _ rfl rfl, losing_swept _ _, ?_⟩ <;> rcases h with rfl | rfl | rfl <;> decide +kernel
  · exact bell_swept _ _ _
  · decide +kernel
  · rw [swept_zero]; exact (swept_zero (bell .ready id) 0 0 0).symm.trans (bell_swept 0 0 0)
  · have h : ∀ gh, gh < 1024 → ((cfgAt 10 1 1 (bell .ready id)).pkg 0).hearthPart gh = 0 ∨ ((cfgAt 10 1 1 (bell .ready id)).pkg 0).hearthPart gh = 0xFF := by
      intro gh _
      have e : ((cfgAt 10 1 1 (bell .ready id)).pkg 0).parts = [(0, 0)] := by decide +kernel
      rw [Pkg.hearthPart, e]
      simp only [Sparse.get]
      split <;> simp
    have h2 : ∀ k, k < 256 → ((cfgAt 10 1 1 (bell .ready id)).pkg 0).part k = 0 ∨
        (cfgAt 10 1 1 (bell .ready id)).pours.any (fun q => q.2.live && q.2.ctx.toNat = k) = false := by decide +kernel
    simp only [State.cfgOk, Bool.and_eq_true, List.all_eq_true, List.mem_range, Bool.or_eq_true, decide_eq_true_eq]
    refine ⟨⟨⟨⟨⟨fun x hx => ?_, fun x hx => ?_⟩, rfl⟩, by decide⟩, fun gh hg => ?_⟩, fun k hk => ?_⟩
    · rw [List.eq_of_mem_replicate hx]; decide
    · rw [List.eq_of_mem_replicate hx]; decide
    · rw [cfg_parts gh hg]
      exact (h gh hg).imp id fun e => by simp [State.hearthFree, e]
    · rw [cfg_ctxParts k hk]
      exact (h2 k hk).imp id fun e => by simpa using e

/-- A report at address 0 ends within host memory, whatever it holds. -/
theorem witness_HostBringsThePackageUp_report (p : Pkg) (nonce : List Byte) : (0 : DWord).toNat + (p.report 0 nonce).length ≤ 2 ^ 49 := by
  have h1 : (p.reportBody 0 nonce).length ≤ 120 := by
    simp only [Pkg.reportBody, fitBytes, leBytes, List.length_append, List.length_map, List.length_range]
    split <;> simp
  have h2 : signatureMax = 17908 := rfl
  simp only [Pkg.report, List.length_append, List.length_take, show (0 : DWord).toNat = 0 from rfl]
  omega

/-- Every verdict on an image is one of the two cases. -/
theorem witness_HostBringsThePackageUp_verdict (bs : List Byte) : Config.imageVerdict bs = 0 ∨ Config.imageVerdict bs ≠ 0 := by omega

/-! ### States and operands that meet the hypotheses: encodings and steps -/

theorem witness_EncodeThenDecode : WellFormed (.iadd { hd .f64 with gn := true, gp := 3 } (ops (.v 5) (.v 2) (.s 7) .none) .i32 false) ∧
    WellFormed (.bra { hd .f128 with gp := 2 } { no with b := .lit 0xFFFFFFC0 } false 0x90) := by
  unfold WellFormed; decide +kernel

theorem witness_DecodeThenEncode : decode (valBytes 8 0x348) = .ok (.nop (hd .f64) no) := by decide +kernel

/-- The entry that issues in the small state, with its block in the core's cache or not. -/
def cached (s : State) : State := s.modCore 0 fun c => { c with icache := [(icKey 0 0x10000, some 0x348)] }

theorem witness_StepRunsDecoded : ∀ s ∈ [base, cached base],
    let is : Issue := { frag := 0, prio := 0x10, pc := 0x10000 }
    let u : State := { s.passClocks 1 with agenda := [] }
    s.agenda = .issue 0 0 :: [] ∧ ((u.fillActive 0 0 9).exchange 0 0).choose 0 0 = some is ∧ (findEntry (u.frag 0).entries 0x10 0x10000).isSome = true ∧
    (u.frag 0).trap = none ∧ (u.frag 0).async = [] ∧ (u.pour (u.pourOf (u.frag 0))).st = .accepted := by decide +kernel

/-- The partition issues in a turn that it shares with others of the clock. -/
theorem witness_StepRunsDecoded_together : let s : State := { base with agenda := [.together [(0, 0)]] }
    let is : Issue := { frag := 0, prio := 0x10, pc := 0x10000 }
    let u : State := { s.passClocks 1 with agenda := [] }
    s.agenda = .together [(0, 0)] :: [] ∧ 0 ∉ (u.core 0).issued ∧ ((u.fillActive 0 0 9).exchange 0 0).choose 0 0 = some is ∧
    (findEntry (u.frag 0).entries 0x10 0x10000).isSome = true ∧ (u.frag 0).trap = none ∧ (u.frag 0).async = [] := by decide +kernel

/-- A kept block whose check has failed, and a poisoned one in memory. -/
theorem witness_StepRunsDecoded_poisoned :
    (let s := (cached base).modCore 0 fun c => { c with icbad := [icKey 0 0x10000] }
     Sparse.get none (s.core 0).icache (icKey 0 0x10000) = some 0x348 ∧ (s.core 0).icbad.contains (icKey 0 0x10000) = true) ∧
    (base.setMark (0x10000 / 4) true).poisoned 0x10000 32 = true := by decide +kernel

/-- The block at the PC: kept, translated and fetchable, with no translation yet, and not executable. -/
theorem witness_StepRunsDecoded_blocks :
    Sparse.get none ((cached base).core 0).icache (icKey 0 0x10000) = some 0x348 ∧ Sparse.get none (base.core 0).icache (icKey 0 0x10000) = none ∧
    (base.bare.translate 0x10000 ≠ .miss ∧ base.bare.translate 0x10000 ≠ .fail ∧ base.poisoned 0x10000 32 = false) ∧
    (base.modCore 0 fun c => { c with tlb := [] }).bare.translate 0x10000 = .miss ∧
    (base.modCore 0 fun c => { c with tlb := [{ ctx := 0, page := 1, bits := 16, leaf := 0x10007 }] }).bare.fetchable 0x10007 0x10000 = false ∧
    base.bare.fetchable 0x1001F 0x10000 = true := by decide +kernel

theorem witness_StepRunsDecoded_async : let s := base.modFrag 0 fun x => { x with async := [{ code := Cause.partition, addr := 0x20000 }] }
    (s.frag 0).trap = none ∧ (s.frag 0).async = { code := Cause.partition, addr := 0x20000 } :: [] := by decide +kernel

theorem witness_GuardFalseOnlyAdvances :
    (Instr.nop { hd .f64 with gn := true } no).head = some ({ hd .f64 with gn := true }, no) ∧
    (Instr.nop { hd .f64 with gn := true } no).code.all (fun c => c.pct.extractLsb' 0 2 ≠ Merge.gate.code) = true ∧ (Ix.of base { hd .f64 with gn := true }).g = 0 := by decide +kernel

theorem witness_StepKeepsMemory : base.memOk = true ∧ (match step (State.reset.placed (valBytes 8 0x348)) with | .next _ => true | _ => false) = true := by
  decide +kernel

/-! ### Values of the manual's examples -/

/-- Elements of vector registers: (register, lane, word). -/
def setV (l : List (Nat × Nat × Word)) (s : State) : State := l.foldl (fun a q => a.modHoist 0 fun h => h.setElem q.1 q.2.1 q.2.2 false) s

/-- The state after an instruction that answers a next state. -/
def after (i : Instr) (s : State) : State := match exec i s with | .next t => t | _ => State.reset

/-- Lane `l` of a register, and the lanes of a predicate, of the hoist. -/
def elemAt (s : State) (r l : Nat) : Word := (s.hoist 0).elem r l
def predAt (s : State) (p : BitVec 4) : LaneMask := (s.hoist 0).pred p

/-- The address of the worked decode in R20. -/
theorem test_addressDecode : paHearth 0x2C8123456700 = 16 * 5 + 9 ∧ paOfs 0x2C8123456700 = 0x123456700 ∧ paHost 0x2C8123456700 = false := by
  decide

/-- R143. -/
theorem test_idot4 : elemAt (after (.idot4 (hd .f64) (ops (.v 4) (.v 1) (.v 2) (.v 3)) true false false)
    (setV [(1, 0, 0x80FF0201), (2, 0, 0x02030405), (3, 0, 10)] base)) 4 0 = 0xFFFFFF14 := by decide +kernel

/-- R147: the table 0xAC selects by C. -/
theorem test_bool3 : elemAt (after (.bool3 (hd .f96) (ops (.v 1) (.v 2) (.v 3) (.v 4)) false 0xAC)
    (setV [(2, 0, 0xAAAAAAAA), (3, 0, 0x12345678), (4, 0, 0xFFFF0000)] base)) 1 0 = 0xAAAA5678 := by decide +kernel

/-- R148. -/
theorem test_bfe : elemAt (after (.bfe (hd .f64) (ops (.v 1) (.v 2) (.v 3) .none) true) (setV [(2, 0, 0xF0A0), (3, 0, 0x406)] base)) 1 0 = 2 ∧
    elemAt (after (.bfe (hd .f64) (ops (.v 1) (.v 2) (.v 3) .none) true) (setV [(2, 0, 0xF0A0), (3, 0, 0x40C)] base)) 1 0 = 0xFFFFFFFF := by
  decide +kernel

/-- The lanes of v0 hold their numbers. -/
def counted : State := setV ((List.range 32).map fun l => (0, l, BitVec.ofNat 32 l)) base

/-- R155: the partner of lane 3, and the fill of lane 7, which has none in its segment of eight. -/
theorem test_xlane_ahead :
    let t := after (.xlane (hd .f128) { ops (.v 24) (.v 0) (.s 2) (.s 3) with d2 := .p 4 } false .ahead 3)
      (setS [(2, 1), (3, 100)] counted)
    elemAt t 24 3 = 4 ∧ elemAt t 24 7 = 100 ∧ (predAt t 4).getLsbD 3 = true ∧ (predAt t 4).getLsbD 7 = false := by decide +kernel

/-- R156: distance 33 pairs the halves. -/
theorem test_bfly : let s := setS [(4, 33)] (setV ((List.range 32).map fun l => (1, l, BitVec.ofNat 32 (32 + l))) counted)
    let lo := after (.bfly (hd .f96) { ops (.v 4) (.v 0) (.s 4) (.v 1) with d2 := .p 2 } false false) s
    let hi := after (.bfly (hd .f96) { ops (.v 4) (.v 0) (.s 4) (.v 1) with d2 := .p 3 } false true) s
    elemAt lo 4 0 = 33 ∧ elemAt lo 4 5 = 36 ∧ predAt lo 2 = BitVec.allOnes 32 ∧ elemAt hi 4 0 = 1 ∧ elemAt hi 4 5 = 4 ∧ predAt hi 3 = 0 := by
  decide +kernel

/-- R157. -/
theorem test_pmask : let s := base.modHoist 0 fun h => { h with preds := [(1, 0x209)] }
    elemAt (after (.pmask (hd .f64) (ops (.v 1) (.p 1) .none .none)) s) 1 7 = 0x209 := by decide +kernel

/-- R158: 2^24 and 1 and 1, each sum a tie that goes to the even neighbour. -/
theorem test_scan :
    let t := after (.scan (hd .f64) (ops (.v 1) (.v 0) .none .none) .f32 .add false)
      (setV [(0, 0, 0x4B800000), (0, 1, 0x3F800000), (0, 2, 0x3F800000)] base)
    elemAt t 1 0 = 0x4B800000 ∧ elemAt t 1 1 = 0x4B800000 ∧ elemAt t 1 2 = 0x4B800000 := by decide +kernel

/-- R159: lanes 0 to 4 of the example; NaNs are equal as patterns, not as numbers. -/
def keys : State := setE 0x1F none (setV [(0, 0, 0x7FC00000), (0, 1, 0x7FC00000), (0, 3, 0x80000000), (0, 4, 0x3F800000), (0, 5, 0x7FC00000)] base)

theorem test_match_bits : let t := after (.matchKeys (hd .f96) { ops (.v 2) (.v 0) .none .none with d2 := .p 1 } .b32 false) keys
    elemAt t 2 0 = 3 ∧ elemAt t 2 2 = 4 ∧ elemAt t 2 3 = 8 ∧ predAt t 1 &&& 0xF = 0xD := by decide +kernel

theorem test_match_numbers : let t := after (.matchKeys (hd .f96) { ops (.v 3) (.v 0) .none .none with d2 := .p 2 } .f32 true) keys
    elemAt t 3 0 = 1 ∧ elemAt t 3 1 = 2 ∧ elemAt t 3 3 = 0xC ∧ predAt t 2 &&& 0xF = 0x7 := by decide +kernel

/-- R87: GATE in an entry of four lanes, p5 = 1, 1, 0, 0, the outcome of the compare 1, 0, 1, 0. -/
theorem test_compare_gate : let s := (setE 0xF none (setV [(0, 0, 1), (0, 2, 1)] base)).modHoist 0 fun h => { h with preds := [(5, 3)] }
    let t := after (.icmp { hd .f96 with gp := 5 } { ops (.p 1) (.v 0) .zr .none with d2 := .p 2 } .n32 .gt { merge := .gate, inv := false }) s
    predAt t 1 = 1 ∧ predAt t 2 = 2 := by decide +kernel

/-- R169: FSIN of one half and FCOS of it. -/
theorem test_fsin : elemAt (after (.fsin (hd .f64) (ops (.v 1) (.v 0) .none .none)) (setV [(0, 0, 0x3F000000)] base)) 1 0 = 0x3F800000 ∧
    elemAt (after (.fcos (hd .f64) (ops (.v 1) (.v 0) .none .none)) (setV [(0, 0, 0x3F000000)] base)) 1 0 = 0 := by decide +kernel

/-- R170. -/
theorem test_pkadd : elemAt (after (.pkadd (hd .f64) (ops (.v 1) (.v 2) (.v 3) .none) false .rne false)
    (setV [(2, 0, 0x7BFF3C00), (3, 0, 0x3C00C100)] base)) 1 0 = 0x7BFFBE00 := by decide +kernel

/-- R124, R126: 0.3 to E4M3, to nearest and downwards. -/
theorem test_cvt : elemAt (after (.cvt (hd .f96) (ops (.v 2) (.v 0) .none .none) .e4m3 .f32 .rne false false) (setV [(0, 0, 0x3E99999A)] base)) 2 0 = 0x2A ∧
    elemAt (after (.cvt (hd .f96) (ops (.v 2) (.v 0) .none .none) .e4m3 .f32 .rdn false false) (setV [(0, 0, 0x3E99999A)] base)) 2 0 = 0x29 := by
  decide +kernel

/-- R134: readback of 70,000.0 as E5M2 and of 300 as I8, without and with saturation. -/
theorem test_readback : readback .e5m2 0 0x4788B800 = 0x7C ∧ readback .e5m2 0x10000 0x4788B800 = 0x7B ∧ readback .i8 0x10166 300 = 0x7F ∧
    (readback .i8 0x166 300).toNat % 256 = 0x2C := by decide +kernel

/-- R131: 1.0 and two products of 2^−24 in one window; and 2^40 with a product that lies below the window. -/
theorem test_window : windowSum [Fmt.val .fp32 0x3F800000, Fmt.val .fp32 0x33800000, Fmt.val .fp32 0x33800000] = 0x3F800001 ∧
    windowSum [Fmt.val .fp32 0x53800000, Fmt.val .fp32 0xB0800000] = 0x53800000 := by decide +kernel

/-- R176 to R178: group 0 of the example. -/
def group0 : State := setV [(0, 0, 0x3F800000), (0, 1, 0xC0200000), (0, 2, 0x3E99999A), (0, 3, 0x40E00000), (0, 5, 0xBDCCCCCD), (0, 6, 0x408CCCCD),
  (0, 7, 0x41100000)] base

theorem test_bscale : elemAt (after (.bscale (hd .f64) (ops (.v 8) (.v 0) .none .none)) group0) 8 3 = 0x90 := by decide +kernel

theorem test_pack4 :
    let t := after (.pack4 (hd .f96) { ops (.v 9) (.v 0) (.v 8) .none with d2 := .v 10 } .rne)
      (setV ((List.range 8).map fun l => (8, l, 0x90)) group0)
    elemAt t 9 7 = 0x758060B1 ∧ elemAt t 10 0 = 0x90 := by decide +kernel

theorem test_unpack4 : elemAt (after (.unpack4 (hd .f64) (ops (.v 1) (.v 2) (.v 3) .none) .f32 3) (setV [(2, 0, 0x758060B1), (3, 0, 0x90)] base)) 1 0 =
    0x40C00000 := by decide +kernel

/-- R199. -/
theorem test_comp48 :
    let t := after (.comp48 (hd .f96) { ops (.v 12) (.v 11) (.v 11) .zr with d2 := .v 14 } .i8 false)
      (setV [(11, 0, 0x0003F905), (11, 1, 0xFD020307)] base)
    elemAt t 12 0 = 0x0703F905 ∧ elemAt t 14 0 = 0x888 := by decide +kernel

/-- R200: entries 0, 7 and 0xF of the table of (3, −5, 7, 2). -/
theorem test_lutb :
    let t := after (.lutb (hd .f96) (ops .none (.v 1) (.s 6) .none) true 0) (setE 1 none (setV [(1, 0, 0x0207FB03)] base))
    (t.cast 0).sread 0 2 = 0xFFF9 ∧ (t.cast 0).sread 14 2 = 3 ∧ (t.cast 0).sread 30 2 = 7 := by decide +kernel

/-- R336: the link word of a CALL whose entry has priority 0x90 and whose return address is 0x401230, in the window that
it opens. -/
theorem test_link : let s := ((setRec 0x31 1 base).modFrag 0 fun x => { x with entries := [{ prio := 0x90, pc := 0x401220, mask := 1, wait := none }] })
    let t := after (.call (hd .f128) { no with d := .v 0, b := .lit 0x40 } 2 0x90 0) { s with iss := { frag := 0, prio := 0x90, pc := 0x401220 } }
    elemAt t 16 0 = 0x00401230 ∧ elemAt t 17 0 = 0x52000000 := by decide +kernel

/-- R250: 2^24 + 1 is a tie. -/
theorem test_atomicAdd : AtomOp.step .add .f32 0x4B800000 0x3F800000 = 0x4B800000 := by decide +kernel

/-- R299: the window word of the example names context 7 and the record at offset 0x10000 of hearth 9. -/
theorem test_launchWord : (0x0700048000010000 : DWord).extractLsb' 56 8 = 7 ∧
    paHearth ((0x0700048000010000 : DWord).toNat % 2 ^ 50) = 9 ∧ paOfs ((0x0700048000010000 : DWord).toNat % 2 ^ 50) = 0x10000 := by decide

/-! ### Images in the parking areas (R45, R46, R404, R418) -/

/-- The fragment and its cast are parking; v3 of lane 2 holds 0xABCD1234, s5 holds 0x77, and byte 40 of the scratchpad 0x5A. -/
def parking : State :=
  ((setS [(5, 0x77)] (setV [(3, 2, 0xABCD1234)] (setRec 0x38 0x80 mbase))).modFrag 0 fun x =>
    { x with place := .departing 0 0 0 0xFF true true }).modCast 0 fun c =>
    { c with
      parking := true, spad := [(40, 0x5A)], queues := [(2, { bind := 1, head := 3, tail := 4 })]
      bars := [(1, { Barrier.idle with arrived := [(0, 0xFF)], count := some 9 })] }

/-- What the last departure leaves. -/
def parked : State := after (.fragmentDeparture 0) parking

theorem witness_ParkingLeavesImages_departs : let s := parking
    let x := s.frag 0
    x.live = true ∧ s.mayLeave x = true ∧ x.place = .departing 0 0 0 0xFF true true ∧ (s.keptPSeq x).length ≤ 4 ∧
    (s.pour (s.pourOf x)).flag 4 = false ∧ s.spot 0 x.parkedForm.parkedBytes ≠ none ∧ x.loops.length ≤ 4 ∧
    Sparse.wf (0 : Word) (s.hoist x.hoist).vregs = true ∧ Sparse.wf (0 : DWord) x.sregs = true ∧ ∀ q ∈ x.sregs, q.1 < 64 := by
  decide +kernel

theorem witness_ParkingLeavesImages_cast : let s := parking.modFrag 0 fun x => { x with place := .parked 0 false true }
    let x := s.cast 0
    s.parkDone 0 = true ∧ (s.pour x.pour).flag 4 = false ∧ s.spot (coreHearth x.anchor) (s.imageBytes 0) ≠ none ∧
    (∀ q ∈ x.queues, q.1 < 16) ∧ (∀ q ∈ x.bars, q.1 < 16 ∧ ∀ r ∈ q.2.arrived, r.1 < 32) ∧
    (x.ctx false).bank = [] ∧ (x.ctx true).bank = [] ∧ (x.ctx false).queue.length = 0 ∧ (x.ctx true).queue.length = 0 ∧
    Sparse.wf (0 : Byte) x.spad = true := by decide +kernel

/-- The first parked arrival of hearth 1, whose ingot holds a poisoned word. -/
def poisonedArrival : State :=
  ((mbase.modFrag 0 fun x => { x with place := .parked 1 true false }).modHearth 1 fun h =>
    { h with arrivals := [0], images := [{ owner := .ingot 0, pa := parkingBase 1, len := 8992 }] }).setMark (parkingBase 1 / 4 + 2247) true

theorem witness_ParkingLeavesImages_arrival : let s := poisonedArrival
    (s.hearth 1).arrivals = 0 :: [] ∧ (s.pickCore 1).isSome = true ∧ s.badImage 1 (· = .ingot 0) = some (parkingBase 1 + 8988) ∧
    (s.pour (s.pourOf (s.frag 0))).st = .accepted := by decide +kernel

/-- The parked cast is the head of its queue again, its image sound or not. -/
def resuming (bad : Bool) : State :=
  let e : QEnt := { pour := 0, casts := [0], resume := true, order := 3, waited := false }
  ((parked.modPkg 0 fun p => { p with bellows := { p.bellows with budget := 9000 } }).modHearth 0 fun h => { h with pqueue := [e] }).setMark
    (parkingBase 0 / 4) bad

theorem witness_ParkingLeavesImages_resumes : ∀ bad ∈ [false, true], let s := resuming bad
    let e : QEnt := { pour := 0, casts := [0], resume := true, order := 3, waited := false }
    s.head 0 = some e ∧ (s.startHead 0 e).isSome = true ∧ (s.pour e.pour).unmetered = false ∧
    s.firstAsk (s.asks 0) = some (Ask.start 0 e) ∧ 1000 * s.charge 0 (Ask.start 0 e) ≤ (s.pkg 0).bellows.budget ∧
    s.badCasts 0 e.casts = (if bad then some (parkingBase 0) else none) ∧ (s.pour e.pour).st = .accepted := by decide +kernel

/-- R45, R46: the header, the PC of the frontier, a register and a scalar of the parked ingot, whose length is that of the
largest ingot (R47). -/
theorem test_parkedIngot : let t := parked
    let a := parkingBase 0
    (t.hearth 0).images.map (fun m => (m.owner, m.len)) =
      [(.ingot 0, 8992), (.cast 0, 2624 + 65536 + 2048), (.anchor 0, 288)] ∧
    t.readLE a 8 = 0xFFFFFFFF00FF0001 ∧ t.readLE (a + 0xB) 3 = 0x232001 ∧ t.readLE (a + 0x40) 8 = 0x10000 ∧
    t.readLE (a + 0x4C) 1 = 0x10 ∧ t.readLE (a + 288 + 4 * (3 * 32 + 2)) 4 = 0xABCD1234 ∧
    t.readLE (a + 288 + 8192 + 8 * 5) 8 = 0x77 := by decide +kernel

/-- R404: the header, a queue, a barrier and the scratchpad of the cast image. -/
theorem test_castImage : let t := parked
    let a := parkingBase 0 + 8992
    t.readLE (a + 0xA) 3 = 0x010001 ∧ t.readLE (a + 0x18) 8 = 2624 + 65536 + 2048 ∧ t.readLE (a + 64 + 32) 16 = 1 + 3 * 2 ^ 64 + 4 * 2 ^ 96 ∧
    t.readLE (a + 320 + 144) 4 = 0xFF ∧ t.readLE (a + 320 + 144 + 128) 2 = 9 ∧ t.readLE (a + 2624 + 40) 1 = 0x5A ∧
    (t.cast 0).st = .parked := by decide +kernel

/-- R405, R418: a resumption frees the images, and a poisoned one ends the pour. -/
theorem test_resume :
    ((after (.castStart 0) (resuming false)).hearth 0).images = [] ∧
    ((after (.castStart 0) (resuming false)).cast 0).st = .running ∧
    ((after (.castStart 0) (resuming true)).pour 0).st = .killing ∧
    ((after (.parkedArrivalPlacement 1) poisonedArrival).pour 0).st = .killing := by decide +kernel

end Sys2Proof.Tests
end

section
/-! The memory of the machine as its writes leave it (R5, R216, R417), and the pin steps on a table entry (R388). -/

namespace Sys2Proof.Machine

/-! ### Bytes after a write -/

/-- Reading back what a write to memory has written. -/
theorem readLE_writeMem (s : State) (pa n v : Nat) (p : Bool) : (s.writeMem pa n v p).readLE pa n = v % 256 ^ n := by
  rw [readLE_congr n (s.writeLE pa n v) _ pa fun k _ => byte_writeMem s pa n v p (pa + k), readLE_writeLE]

/-- The bytes that a write to memory names hold its value, the lowest first (R5). -/
theorem byte_writeMem_inside (s : State) (pa n v : Nat) (p : Bool) (k : Nat) (hk : k < n) :
    (s.writeMem pa n v p).byte (pa + k) = BitVec.ofNat 8 (v / 256 ^ k) := by
  rw [byte_writeMem, byte_writeLE n s pa v k hk]

theorem byte_writeMem_outside (s : State) (pa n v : Nat) (p : Bool) (a : Nat) (ha : a < pa ∨ pa + n ≤ a) :
    (s.writeMem pa n v p).byte a = s.byte a := by
  rw [byte_writeMem, byte_writeLE_of_outside n s pa v a ha]

/-- A write of one byte to memory. -/
theorem byte_writeMem_one (s : State) (pa v : Nat) (p : Bool) (c : Nat) :
    (s.writeMem pa 1 v p).byte c = if c = pa then BitVec.ofNat 8 v else s.byte c := by
  rw [byte_writeMem, State.writeLE, State.writeLE, byte_setByte]

@[simp] theorem byte_dropRecords (s : State) (pa n c : Nat) : (s.dropRecords pa n).byte c = s.byte c := by
  rw [State.dropRecords]
  split
  · rfl
  · exact byte_modHearth ..

@[simp] theorem byte_rewrite (s : State) (pa n v : Nat) (p : Bool) (c : Nat) :
    (s.rewrite pa n v p).byte c = (s.writeMem pa n v p).byte c := by
  simp [State.rewrite]

/-! ### Marks after a write -/

/-- The words that bytes touch are those that share a byte with them. -/
theorem mem_wordsOf (pa n w : Nat) : w ∈ wordsOf pa n ↔ 0 < n ∧ 4 * w < pa + n ∧ pa < 4 * w + 4 := by
  unfold wordsOf
  split
  · next hn => simp [hn]
  · rw [List.mem_map]
    constructor
    · rintro ⟨i, hi, rfl⟩
      rw [List.mem_range] at hi
      omega
    · intro h
      exact ⟨w - pa / 4, by rw [List.mem_range]; omega, by omega⟩

/-- Marks written over a list of words read as written there, and every other word keeps its own. -/
theorem mark_setMarks (f : Nat → Bool) (w : Nat) (l : List Nat) : ∀ s : State,
    (l.foldl (fun a v => a.setMark v (f v)) s).mark w = if w ∈ l then f w else s.mark w := by
  induction l with
  | nil => intro s; rfl
  | cons v t ih =>
    intro s
    rw [List.foldl_cons, ih, mark_setMark]
    by_cases ht : w ∈ t
    · simp [ht]
    · by_cases hv : w = v <;> simp [ht, hv]

@[simp] theorem mark_wakeWaiters (s : State) (pa n w : Nat) : (s.wakeWaiters pa n).mark w = s.mark w := rfl

/-- The marks after a write to memory: those of `markWrite` on the words that it touches, and no other changes (R417). -/
theorem mark_writeMem (s : State) (pa n v : Nat) (p : Bool) (w : Nat) :
    (s.writeMem pa n v p).mark w = if w ∈ wordsOf pa n then markWrite s.mark pa n p w else s.mark w := by
  unfold State.writeMem
  rw [mark_wakeWaiters, mark_writeLE, mark_setMarks (markWrite s.mark pa n p)]

/-- A word that a write covers takes the mark of the value (R417). -/
theorem mark_writeMem_whole (s : State) (pa n v : Nat) (p : Bool) (w : Nat) (hlo : pa ≤ 4 * w) (hhi : 4 * w + 4 ≤ pa + n) :
    (s.writeMem pa n v p).mark w = p := by
  rw [mark_writeMem, if_pos ((mem_wordsOf pa n w).2 (by omega))]
  simp [markWrite, hlo, hhi]

/-- A word of which a write covers a part is only ever marked (R417). -/
theorem mark_writeMem_part (s : State) (pa n v : Nat) (p : Bool) (w : Nat) (hlo : 4 * w < pa + n) (hhi : pa < 4 * w + 4)
    (hpart : ¬ (pa ≤ 4 * w ∧ 4 * w + 4 ≤ pa + n)) (hn : 0 < n) : (s.writeMem pa n v p).mark w = (p || s.mark w) := by
  rw [mark_writeMem, if_pos ((mem_wordsOf pa n w).2 ⟨hn, hlo, hhi⟩)]
  simp [markWrite, hpart]

theorem mark_writeMem_outside (s : State) (pa n v : Nat) (p : Bool) (w : Nat) (hw : 4 * w + 4 ≤ pa ∨ pa + n ≤ 4 * w) :
    (s.writeMem pa n v p).mark w = s.mark w := by
  rw [mark_writeMem, if_neg (by rw [mem_wordsOf]; omega)]

/-! ### The bytes of a number read -/

/-- Byte `k` of the number that `n` bytes read as is the byte at `k` (R5). -/
theorem readLE_div_mod (s : State) (n : Nat) : ∀ a k : Nat, k < n →
    s.readLE a n / 256 ^ k % 256 = (s.byte (a + k)).toNat := by
  induction n with
  | zero => intro _ k h; omega
  | succ n ih =>
    intro a k h
    have hb : (s.byte a).toNat < 256 := (s.byte a).isLt
    rw [State.readLE]
    cases k with
    | zero =>
      simp only [Nat.pow_zero, Nat.div_one, Nat.add_zero]
      omega
    | succ k =>
      have hd : ((s.byte a).toNat + 256 * s.readLE (a + 1) n) / 256 = s.readLE (a + 1) n := by omega
      rw [Nat.pow_succ', ← Nat.div_div_eq_div_mul, hd, ih (a + 1) k (by omega), Nat.add_right_comm, Nat.add_assoc]

/-- PINS of the table entry that stands at an address is its second byte (R380). -/
theorem leafPins_readLE (s : State) (a : Nat) :
    leafPins (BitVec.ofNat 64 (s.readLE a 8)) = (s.byte (a + 1)).toNat := by
  have hb := readLE_div_mod s 8 a 1 (by omega)
  rw [← hb, leafPins, field, BitVec.toNat_ofNat]
  omega

/-! ### Pin steps (R388) -/

/-- The entry at `a` holds a valid leaf of the page that `e` was a leaf of. -/
def State.leafStands (s : State) (a : Nat) (e : DWord) : Prop :=
  (BitVec.ofNat 64 (s.readLE a 8) : DWord).getLsbD 0 = true ∧ leafPa (BitVec.ofNat 64 (s.readLE a 8)) = leafPa e

/-- Where the leaf is still the one translated and PINS is not full, a pin step writes the byte that holds PINS. -/
theorem pin_of_leafStands (s : State) (a : Nat) (e : DWord) (h : s.leafStands a e) (hp : (s.byte (a + 1)).toNat < 255) :
    s.pin a e = (.pinned, s.writeMem (a + 1) 1 ((s.byte (a + 1)).toNat + 1) false) := by
  obtain ⟨hvalid, hpage⟩ := h
  simp only [State.pin, leafPins_readLE, hvalid, hpage, hp, decide_true, Bool.and_self, if_true]

theorem pin_of_full (s : State) (a : Nat) (e : DWord) (hp : (s.byte (a + 1)).toNat = 255) : s.pin a e = (.busy, s) := by
  simp [State.pin, leafPins_readLE, hp]

theorem pin_of_changed (s : State) (a : Nat) (e : DWord) (h : ¬ s.leafStands a e) (hp : (s.byte (a + 1)).toNat < 255) :
    s.pin a e = (.failed, s) := by
  simp only [State.pin, leafPins_readLE, Bool.and_eq_true, decide_eq_true_eq]
  rw [if_neg fun hh => h hh.1, if_neg (by omega)]

/-- An unpin step changes the byte that holds PINS and no other (R388). -/
theorem byte_unpin (s : State) (a c : Nat) :
    (s.unpin a).byte c = if c = a + 1 then BitVec.ofNat 8 (((s.byte (a + 1)).toNat + 255) % 256) else s.byte c := by
  rw [State.unpin, byte_rewrite, byte_writeMem_one]

/-! ### The statement -/

/-- Settles O12: the bytes and the marks of a write are each given by one law of their own, and a pin or an unpin step is a
write of the one byte that holds PINS. -/
theorem memoryAndPins : Obligations.MemoryAndPins := by
  refine ⟨fun s pa n v p => ⟨readLE_writeMem s pa n v p, byte_writeMem_inside s pa n v p, byte_writeMem_outside s pa n v p,
    mark_writeMem_whole s pa n v p, mark_writeMem_part s pa n v p, mark_writeMem_outside s pa n v p⟩,
    fun s a e => ⟨?pinned, pin_of_full s a e, pin_of_changed s a e, ?unpins, ?unpinKeeps⟩⟩
  case pinned =>
    intro hsame hroom
    refine ⟨_, pin_of_leafStands s a e hsame hroom, ?_, ?_⟩
    · rw [byte_writeMem_one, if_pos rfl, BitVec.toNat_ofNat, Nat.mod_eq_of_lt (by omega)]
    · intro b hb
      rw [byte_writeMem_one, if_neg hb]
  case unpins =>
    intro hpos
    have hbyte : (s.byte (a + 1)).toNat < 256 := (s.byte (a + 1)).isLt
    rw [byte_unpin, if_pos rfl, BitVec.toNat_ofNat]
    omega
  case unpinKeeps =>
    intro b hb
    rw [byte_unpin, if_neg hb]

end Sys2Proof.Machine
end

section
/-! SUPPORT. O25 fails as it is stated: it does not say that the keys of the table of fragments are distinct. The state of the
refutation has one number for two fragments, on hoists 0 and 1: what is read by that number is the first, on hoist 0, but the
lanes of hoist 1 that wait at the barrier lead to it as well. -/

namespace Sys2Proof.Machine
open Sys2Proof.Claims

/-- Lane 0 of fragment 0 issues at 0x10000, and lane 1 stands at 0x20000. -/
def twoLanes : Frag :=
  { Tests.base.frag 0 with
    lanes := 3
    entries := [{ prio := 0, pc := 0x10000, mask := 1, wait := none },
      { prio := 0, pc := 0x20000, mask := 2, wait := some (.bar 0) }] }

/-- The barrier has its count of arrivals, and lane 1 of hoist 1 waits at it. -/
def fullBar : Barrier :=
  { arrived := [(0, 1)], waits := [{ hoist := 1, pc := 0x20000, next := 0x20008, lanes := 2 }], count := some 1 }

/-- The number 0 stands for two fragments in the table. -/
def doubledFrag : State :=
  { Tests.base.modCast 0 fun c => { c with bars := [(0, fullBar)] } with
    frags := [(0, twoLanes), (0, { twoLanes with hoist := 1 })]
    iss := { frag := 0, prio := 0, pc := 0x10000 } }

/-- The frontier of fragment 0 after a step. -/
def entriesAfter (r : Host.Outcome State Fault Refusal) : List Entry :=
  match r with
  | .next t => (t.frag 0).entries
  | _ => []

/-- EXIT of lane 0 opens the barrier, and lane 1 of the first fragment goes on with the hoist of the second. -/
theorem entriesAfter_exit_doubledFrag : entriesAfter (exec (.exit (Tests.hd .f64) Tests.no) doubledFrag) =
    [{ prio := 0, pc := 0x20008, mask := 2, wait := none }] := by decide +kernel

/-- Refutes O25: the clause about the lanes that stay (R354) fails where the table of fragments lists one number twice. EXIT of
lane 0 of fragment 0 opens a barrier at which another hoist waits; the second fragment of that number is of that hoist, so that the
opening moves lane 1 of the first from 0x20000 to 0x20008, although no lane of its own hoist waits at a barrier. -/
theorem not_lanesExitAndRaise : ¬ Obligations.LanesExitAndRaise := by
  unfold Obligations.LanesExitAndRaise
  rintro ⟨hExit, -⟩
  obtain ⟨hHome, -, -⟩ := hExit (Tests.hd .f64) Tests.no doubledFrag
  obtain ⟨t, ht, -, -, -, -, hStay⟩ := hHome (by decide +kernel) ⟨by decide +kernel, fun _ => by decide +kernel⟩
    (by decide +kernel) (by decide +kernel) ⟨31, by decide +kernel⟩
  obtain ⟨-, hFront⟩ := hStay (by decide +kernel)
  have hAfter : (t.frag 0).entries = [{ prio := 0, pc := 0x20008, mask := 2, wait := none }] := by
    have h := entriesAfter_exit_doubledFrag
    rw [ht] at h
    exact h
  have h := hFront (by unfold InBody; decide +kernel) (by decide +kernel) 0 0x20000 1
  have hf : (Ix.of doubledFrag (Tests.hd .f64)).f = 0 := by decide +kernel
  rw [hf, hAfter] at h
  revert h
  decide +kernel

end Sys2Proof.Machine
end

section
/-! The rules of sending: the packet that a send puts into the fabric, and what it leaves as it was (R48, R226, R231, R275). -/

namespace Sys2Proof.Machine

/-! ### What sources and homes keep of packets -/

/-- Only the fabric, the numbers of sources, the counters of packets, and what cores and other sources remember of the packets that
they have sent have changed. -/
structure PacketsOnly (s t : State) : Prop where
  cores : ∀ c, { t.core c with sent := (s.core c).sent, unacked := (s.core c).unacked } = s.core c
  rest  : { t with net := s.net, seqs := s.seqs, sentCnt := s.sentCnt, recvCnt := s.recvCnt, cores := s.cores,
                   unacked := s.unacked } = s

namespace PacketsOnly

theorem refl (s : State) : PacketsOnly s s := ⟨fun _ => rfl, rfl⟩

theorem trans {s t u : State} (h : PacketsOnly s t) (k : PacketsOnly t u) : PacketsOnly s u where
  cores c := by
    rw [← h.cores c, ← k.cores c]
  rest := by
    rw [← h.rest, ← k.rest]

theorem ite {s t u : State} {p : Prop} {_ : Decidable p} (h : PacketsOnly s t) (k : PacketsOnly s u) :
    PacketsOnly s (if p then t else u) := by
  split
  · exact h
  · exact k

/-- A core counts and remembers packets. -/
theorem modCore (s : State) (gc : Nat) (g : Core → Core)
    (hg : ∀ c : Core, { g c with sent := c.sent, unacked := c.unacked } = c) : PacketsOnly s (s.modCore gc g) where
  cores c := by
    rw [modCore_core]
    split
    · rename_i e
      rw [e, hg]
    · rfl
  rest := rfl

variable {s t : State} (h : PacketsOnly s t)
include h

theorem mem : t.mem = s.mem := (congrArg State.mem h.rest :)
theorem marks : t.marks = s.marks := (congrArg State.marks h.rest :)
theorem frags : t.frags = s.frags := (congrArg State.frags h.rest :)
theorem hoists : t.hoists = s.hoists := (congrArg State.hoists h.rest :)
theorem casts : t.casts = s.casts := (congrArg State.casts h.rest :)
theorem pours : t.pours = s.pours := (congrArg State.pours h.rest :)
theorem hearths : t.hearths = s.hearths := (congrArg State.hearths h.rest :)
theorem pkgs : t.pkgs = s.pkgs := (congrArg State.pkgs h.rest :)
theorem cmds : t.cmds = s.cmds := (congrArg State.cmds h.rest :)
theorem now : t.now = s.now := (congrArg State.now h.rest :)
theorem byte (a : Nat) : t.byte a = s.byte a := (congrArg (State.byte · a) h.rest :)
theorem mark (w : Nat) : t.mark w = s.mark w := (congrArg (State.mark · w) h.rest :)
theorem frag (f : Nat) : t.frag f = s.frag f := (congrArg (State.frag · f) h.rest :)
theorem hoist (k : Nat) : t.hoist k = s.hoist k := (congrArg (State.hoist · k) h.rest :)
theorem cast (c : Nat) : t.cast c = s.cast c := (congrArg (State.cast · c) h.rest :)
theorem pour (p : Nat) : t.pour p = s.pour p := (congrArg (State.pour · p) h.rest :)
theorem hearth (g : Nat) : t.hearth g = s.hearth g := (congrArg (State.hearth · g) h.rest :)
theorem pkg (p : Nat) : t.pkg p = s.pkg p := (congrArg (State.pkg · p) h.rest :)
theorem cmd (c : Nat) : t.cmd c = s.cmd c := (congrArg (State.cmd · c) h.rest :)

end PacketsOnly

/-! ### Sending -/

/-- The packet that `State.send` puts into the fabric. -/
def State.outgoing (s : State) (src tgt : Nat) (ctx : BitVec 8) (pass : Bool) (cast : Option Nat) (body : Body)
    (rel : Option (Nat × Nat) := none) : Packet :=
  { src, seq := if numbered src body.cls then s.nextSeq src else s.lastSeq src, tgt, ctx, pass, gen := s.genOf src body.cls
    ord := if srcOfCore src && body.cls < 2 then (s.core (srcCore src)).sent + 1 else 0
    cast, lost := false, rel, body }

theorem countLeft_only (s : State) (p : Packet) : PacketsOnly s (s.countLeft p) :=
  .ite (.refl s) ⟨fun _ => rfl, rfl⟩

theorem remember_only (s : State) (u : Unacked) : PacketsOnly s (s.remember u) :=
  .ite (.modCore s _ _ fun _ => rfl) ⟨fun _ => rfl, rfl⟩

@[simp] theorem countLeft_net (s : State) (p : Packet) : (s.countLeft p).net = s.net := by
  unfold State.countLeft; split <;> rfl

@[simp] theorem countLeft_seqs (s : State) (p : Packet) : (s.countLeft p).seqs = s.seqs := by
  unfold State.countLeft; split <;> rfl

@[simp] theorem remember_net (s : State) (u : Unacked) : (s.remember u).net = s.net := by
  unfold State.remember; split <;> rfl

@[simp] theorem remember_seqs (s : State) (u : Unacked) : (s.remember u).seqs = s.seqs := by
  unfold State.remember; split <;> rfl

/-- A packet of a class takes the next number of its source (R48, R274). -/
def State.takeNumber (s : State) (src cls : Nat) : State := if numbered src cls then s.bumpSeq src else s

theorem takeNumber_only (s : State) (src cls : Nat) : PacketsOnly s (s.takeNumber src cls) :=
  .ite ⟨fun _ => rfl, rfl⟩ (.refl s)

section Send

variable (s : State) (src tgt : Nat) (ctx : BitVec 8) (pass : Bool) (cast : Option Nat) (body : Body) (rel : Option (Nat × Nat))

theorem send_only : PacketsOnly s (s.send src tgt ctx pass cast body rel) := by
  let p := s.outgoing src tgt ctx pass cast body rel
  have hNet : PacketsOnly s { s with net := s.net ++ [p] } := ⟨fun _ => rfl, rfl⟩
  have hNum : PacketsOnly s ({ s with net := s.net ++ [p] }.takeNumber src body.cls) := hNet.trans (takeNumber_only ..)
  have hLeft := hNum.trans (countLeft_only _ p)
  have hSent : PacketsOnly s (if srcOfCore src && body.cls < 2 then
      (({ s with net := s.net ++ [p] }.takeNumber src body.cls).countLeft p).modCore (srcCore src) fun c => { c with sent := p.ord }
    else ({ s with net := s.net ++ [p] }.takeNumber src body.cls).countLeft p) :=
    .ite (hLeft.trans (.modCore _ _ _ fun _ => rfl)) hLeft
  exact .ite (hSent.trans (remember_only _ _)) hSent

@[simp] theorem send_net : (s.send src tgt ctx pass cast body rel).net = s.net ++ [s.outgoing src tgt ctx pass cast body rel] := by
  simp [State.send, State.outgoing, apply_ite State.net]

theorem send_seqs : (s.send src tgt ctx pass cast body rel).seqs = (s.takeNumber src body.cls).seqs := by
  simp only [State.send, State.takeNumber, apply_ite State.seqs, remember_seqs, modCore_seqs, countLeft_seqs, ite_self]
  rfl

/-- The number that a source has taken last. -/
theorem send_lastSeq (k : Nat) : (s.send src tgt ctx pass cast body rel).lastSeq k =
    if k = src ∧ numbered src body.cls = true then s.lastSeq src + 1 else s.lastSeq k := by
  unfold State.lastSeq
  rw [send_seqs]
  by_cases hn : numbered src body.cls = true <;>
    by_cases hk : k = src <;> simp [hn, hk, State.takeNumber, State.bumpSeq, State.lastSeq]

theorem outgoing_seq_posted (h : body.cls = 0) :
    (s.outgoing src tgt ctx pass cast body rel).seq = s.lastSeq src + 1 := by
  simp [State.outgoing, State.nextSeq, numbered, h]

end Send

/-! ### Posting -/

theorem noteAddr_only (s : State) (gc src : Nat) (seq : Word) (va f : Nat) : PacketsOnly s (s.noteAddr gc src seq va f) :=
  .modCore s _ _ fun _ => rfl

section Post

variable (i : Ix) (s : State) (home : Nat) (pass : Bool) (body : Body) (rel : Option (Nat × Nat)) (va : Nat)

/-- What posting to a home does to the machine, the posted-sequence entry of the fragment apart. -/
def Ix.postSend : State :=
  let t := s.send i.x.src (i.tgtOf home) (s.ctxOf i.x) pass (some (s.castOf i.x)) body rel
  t.noteAddr i.x.gc i.x.src (t.lastSeq i.x.src) va i.f

/-- The packet of a post. -/
def Ix.postPacket : Packet := s.outgoing i.x.src (i.tgtOf home) (s.ctxOf i.x) pass (some (s.castOf i.x)) body rel

theorem postSend_only : PacketsOnly s (i.postSend s home pass body rel va) := (send_only ..).trans (noteAddr_only ..)

theorem postSend_net : (i.postSend s home pass body rel va).net = s.net ++ [i.postPacket s home pass body rel] := send_net ..

variable (h : home < 1024)
include h

/-- A post to a device hearth sends a packet, and the fragment takes an entry for it (R49, R215). -/
theorem post_eq : i.post s home pass body rel va = (i.postSend s home pass body rel va).modFrag i.f fun x =>
    { x with pseq := recordPSeq x.pseq ⟨home, i.x.src, (i.postSend s home pass body rel va).lastSeq i.x.src⟩ } := by
  unfold Ix.post Ix.postFrom
  rw [if_neg (by omega)]
  rfl

theorem post_net : (i.post s home pass body rel va).net = s.net ++ [i.postPacket s home pass body rel] := by
  rw [post_eq (h := h), modFrag_net, postSend_net]

theorem post_mem : (i.post s home pass body rel va).mem = s.mem := by
  rw [post_eq (h := h), modFrag_mem, (postSend_only ..).mem]

theorem post_marks : (i.post s home pass body rel va).marks = s.marks := by
  rw [post_eq (h := h), modFrag_marks, (postSend_only ..).marks]

theorem post_hoists : (i.post s home pass body rel va).hoists = s.hoists := by
  rw [post_eq (h := h), modFrag_hoists, (postSend_only ..).hoists]

theorem post_casts : (i.post s home pass body rel va).casts = s.casts := by
  rw [post_eq (h := h), modFrag_casts, (postSend_only ..).casts]

theorem postPacket_tgt : (i.postPacket s home pass body rel).tgt = home := if_neg (by omega)

variable (hb : body.cls = 0)
include hb

theorem post_lastSeq : (i.post s home pass body rel va).lastSeq i.x.src = s.lastSeq i.x.src + 1 := by
  have hn : numbered i.x.src body.cls = true := by simp [numbered, hb]
  rw [post_eq (h := h)]
  show (s.send i.x.src (i.tgtOf home) (s.ctxOf i.x) pass (some (s.castOf i.x)) body rel).lastSeq i.x.src = _
  rw [send_lastSeq, if_pos ⟨rfl, hn⟩]

/-- The fragment's entry for the post has its number. -/
theorem post_pseq : ((i.post s home pass body rel va).frag i.f).pseq =
    recordPSeq (s.frag i.f).pseq ⟨home, i.x.src, s.lastSeq i.x.src + 1⟩ := by
  have hseq := post_lastSeq i s home pass body rel va h hb
  rw [post_eq (h := h)] at hseq ⊢
  rw [modFrag_frag, if_pos rfl, (postSend_only ..).frag]
  exact congrArg (fun q => recordPSeq (s.frag i.f).pseq ⟨home, i.x.src, q⟩) hseq

end Post

end Sys2Proof.Machine
end

section
/-! The checks of an access: what makes them pass (R214, R224, R226, R230, R236, R290), the homes of its lanes (R38, R213), and
what a store keeps of lanes that name one location (R218). -/

namespace Sys2Proof.Machine
open Sys2Proof.Claims

/-! ### Lanes that satisfy a condition -/

theorem lanesIf_getLsbD (i : Ix) (p : Nat → Bool) (l : Nat) : (i.lanesIf p).getLsbD l = (i.g.getLsbD l && p l) := by
  by_cases hl : l < 32
  · exact maskOf_getLsbD _ l hl
  · rw [BitVec.getLsbD_of_ge _ l (by omega), BitVec.getLsbD_of_ge i.g l (by omega), Bool.false_and]

theorem lanesIf_all (i : Ix) (p : Nat → Bool) (h : ∀ l, i.g.getLsbD l = true → p l = true) : i.lanesIf p = i.g := by
  apply BitVec.eq_of_getLsbD_eq
  intro l _
  rw [lanesIf_getLsbD]
  cases hg : i.g.getLsbD l
  · rfl
  · simp [h l hg]

theorem lanesIf_none (i : Ix) (p : Nat → Bool) (h : ∀ l, i.g.getLsbD l = true → p l = false) : i.lanesIf p = 0 := by
  apply BitVec.eq_of_getLsbD_eq
  intro l _
  rw [lanesIf_getLsbD]
  cases hg : i.g.getLsbD l
  · simp
  · simp [h l hg]

theorem trapLanes_ok (i : Ix) (cause : BitVec 8) (bad : Nat → Bool) (addr : Nat → Nat)
    (h : ∀ l, i.g.getLsbD l = true → bad l = false) : i.trapLanes cause bad addr = .ok () := by
  simp [Ix.trapLanes, lanesIf_none i bad h, guardStop]

/-! ### Addresses -/

section Granted

variable {i : Ix} {k : Acc} {size : Nat} {va : Nat → Nat} (h : Granted i k size va)
include h

theorem checkAlign_ok : i.checkAlign size va = .ok () :=
  trapLanes_ok i _ _ _ fun l hl => by simp [h.aligned l hl]

theorem checkWalks_ok : i.checkWalks va = .ok () := by
  have hNone : (lanesOf i.g).find? (fun l => i.translate (va l) = .miss) = none := by
    rw [List.find?_eq_none]
    intro l hl
    obtain ⟨leaf, hleaf, -⟩ := h.mapped l ((mem_lanesOf _ _).1 hl)
    simp [hleaf]
  unfold Ix.checkWalks
  rw [hNone]

theorem accessBad_of_granted {l : Nat} (hl : i.g.getLsbD l = true) : i.accessBad k (va l) = false := by
  obtain ⟨leaf, hleaf, hden⟩ := h.mapped l hl
  unfold Ix.accessBad
  rw [hleaf]
  exact hden

/-- An access that is granted passes the checks of R214. -/
theorem checkMem_ok (more : Nat → Bool) (hmore : ∀ l, i.g.getLsbD l = true → more l = false) :
    i.checkMem k size va more = .ok () := by
  have hAccess : i.trapLanes Cause.access (fun l => i.accessBad k (va l) || more l) va = .ok () :=
    trapLanes_ok i _ _ _ fun l hl => by simp [accessBad_of_granted h hl, hmore l hl]
  have hPart : i.trapLanes Cause.partition (fun l => i.outside (i.pa (va l))) va = .ok () := trapLanes_ok i _ _ _ h.inside
  simp only [Ix.checkMem, checkAlign_ok h, checkWalks_ok h, hAccess, hPart, bind, Except.bind]

end Granted

/-! ### Homes -/

section Homes

variable {i : Ix} {va : Nat → Nat} {home : Nat} (h : HomedAt i va home)
include h

/-- The home of a guard-true lane as `Ix.homesOf` counts it. -/
theorem homeCode_of_homedAt {l : Nat} (hl : i.g.getLsbD l = true) :
    (if paHost (i.pa (va l)) then 1024 else paHearth (i.pa (va l))) = home := by
  obtain ⟨hhost, hhome⟩ := h l hl
  simp [hhost, hhome]

/-- All lanes stand at their one home. -/
theorem homedAt_home : i.homedAt (fun l => i.pa (va l)) home = i.g :=
  lanesIf_all i _ fun _ hl => decide_eq_true (homeCode_of_homedAt h hl)

theorem homedAt_other {gh : Nat} (hne : gh ≠ home) : i.homedAt (fun l => i.pa (va l)) gh = 0 :=
  lanesIf_none i _ fun _ hl => decide_eq_false fun e => hne (e.symm.trans (homeCode_of_homedAt h hl))

/-- The homes of the guard-true lanes, counted from 0 to 1024. -/
theorem contains_homes (hg : i.g ≠ 0) (gh : Nat) :
    ((lanesOf i.g).map fun l => if paHost (i.pa (va l)) then 1024 else paHearth (i.pa (va l))).contains gh = decide (gh = home) := by
  have hmap : ((lanesOf i.g).map fun l => if paHost (i.pa (va l)) then 1024 else paHearth (i.pa (va l))) =
      (lanesOf i.g).map fun _ => home :=
    List.map_congr_left fun l hl => homeCode_of_homedAt h ((mem_lanesOf _ _).1 hl)
  rw [hmap]
  obtain ⟨t, ht⟩ := lanesOf_eq_cons _ hg
  rw [ht]
  by_cases e : gh = home <;> simp [e]

theorem homesOf_here (hg : i.g ≠ 0) (hh : home = i.here) : i.homesOf (fun l => i.pa (va l)) = [] := by
  unfold Ix.homesOf
  simp only [contains_homes h hg]
  rw [List.filter_eq_nil_iff]
  intro gh _
  by_cases e : gh = home <;> simp [e, hh]

theorem homesOf_remote (hg : i.g ≠ 0) (hlt : home < 1024) (hh : home ≠ i.here) : i.homesOf (fun l => i.pa (va l)) = [home] := by
  unfold Ix.homesOf
  simp only [contains_homes h hg]
  have hFilter : (fun gh => decide (gh = home) && decide (gh ≠ i.here)) = fun gh => decide (gh = home) := by
    funext gh
    by_cases e : gh = home <;> simp [e, hh]
  rw [hFilter, List.filter_eq, List.count_range, if_pos (by omega)]
  rfl

end Homes

/-! ### Order -/

/-- No stall hint defers an instruction whose homes have none. -/
theorem checkHints_none (i : Ix) (homes : List Nat)
    (h : ∀ c ∈ (i.s.core i.x.gc).hints, homes.contains c.target = true → c.deadline ≤ i.s.now) : i.checkHints homes = .ok () := by
  have hNone : ((i.s.core i.x.gc).hints.find? fun c => homes.contains c.target && decide (i.s.now < c.deadline)) = none := by
    rw [List.find?_eq_none]
    intro c hc
    cases hcont : homes.contains c.target
    · simp
    · have := h c hc hcont
      simp [this]
  unfold Ix.checkHints
  simp only [hNone]

/-- A stall hint defers an instruction once (R290). -/
theorem checkHints_hinted (i : Ix) (homes : List Nat) (h : i.x.hinted.contains (i.e.prio, i.e.pc) = true) :
    i.checkHints homes = .ok () := by
  unfold Ix.checkHints
  simp only [h]
  split <;> rfl

theorem checkRelease_ok {i : Ix} {so : ScopeOrder} (h : Released i so) : i.checkRelease (ScopeOrder.rel so) so.scope = .ok () := by
  unfold Ix.checkRelease
  cases hr : ScopeOrder.rel so
  · rfl
  · simp [h hr, guardStop]

/-- No order holds the packets of a posting instruction back. -/
theorem checkPost_ok {i : Ix} {so : ScopeOrder} {homes : List Nat} {n : Nat} (h : MayPost i so homes n) :
    i.checkPost homes so n = .ok () := by
  have hHints : i.checkHints homes = .ok () := by
    obtain hd | hn := h.hints
    · exact checkHints_hinted i homes hd
    · exact checkHints_none i homes hn
  have hSources : i.checkSources2 (if n = 0 then homes else i.here :: homes) = .ok () := by
    have hNone : (i.x.pseq.any fun e => (if n = 0 then homes else i.here :: homes).contains e.tgt &&
        (e.src ≠ i.x.src || e.tgt = i.here) && i.s.pendingTo e.src e.tgt e.seq) = false := by
      rw [List.any_eq_false]
      intro e he
      by_cases hc : (if n = 0 then homes else i.here :: homes).contains e.tgt = true ∧ (e.src ≠ i.x.src ∨ e.tgt = i.here)
      · rw [h.sources e he hc.1 hc.2]
        simp
      · simp only [Bool.and_eq_true, Bool.or_eq_true, decide_eq_true_eq]
        exact fun hk => hc hk.1
    unfold Ix.checkSources2
    rw [hNone]
    rfl
  have hLate : (decide (n ≠ 0) && i.s.lateAt i.x.gc) = false := by
    by_cases hn : n = 0
    · simp [hn]
    · simp [h.late hn]
  have hRoom : ((i.relMark so).isSome && i.s.recordsFull i.here n) = false := by
    cases hm : (i.relMark so).isSome
    · rfl
    · simp [h.room hm]
  simp only [Ix.checkPost, hHints, hSources, hLate, checkRelease_ok h.release, hRoom, guardStop_false, bind, Except.bind]

/-! ### Writes of lanes -/

theorem lastLanes_zero (pa : Nat → Nat) : lastLanes pa 0 = 0 := by
  unfold lastLanes
  apply BitVec.eq_of_getLsbD_eq
  intro l hl
  rw [maskOf_getLsbD _ l hl]
  simp

theorem storeWrites_zero (pa : Nat → Nat) (size : Nat) (vals : Nat → List Val) : Ix.storeWrites pa size vals 0 = [] := by
  unfold Ix.storeWrites Ix.laneWrites
  rw [lastLanes_zero]
  rfl

theorem laneWrites_zero (pa : Nat → Nat) (size : Nat) (vals : Nat → List Val) : Ix.laneWrites pa size vals 0 = [] := rfl

/-- Lanes with one value each write it at their addresses, in ascending order. -/
theorem laneWrites_single (pa : Nat → Nat) (size : Nat) (v : Nat → Val) (m : LaneMask) :
    Ix.laneWrites pa size (fun l => [v l]) m = (lanesOf m).map fun l => (v l).at_ (pa l) size := by
  unfold Ix.laneWrites
  induction lanesOf m with
  | nil => rfl
  | cons l t ih => simpa using ih

/-- The lanes whose store stays, in ascending order (R218). -/
theorem lanesOf_lastLanes (pa : Nat → Nat) (m : LaneMask) : lanesOf (lastLanes pa m) =
    (lanesOf m).filter fun l => (lanesOf m).all fun k => decide (l < k → pa k ≠ pa l) := by
  unfold lanesOf
  rw [List.filter_filter]
  apply List.filter_congr
  intro l hl
  unfold lastLanes
  rw [maskOf_getLsbD _ l (List.mem_range.1 hl), Bool.and_comm]
  congr 1
  rw [List.not_any_eq_all_not]
  congr 1
  funext k
  by_cases hk : l < k <;> by_cases he : pa k = pa l <;> simp [hk, he]

/-- A store of one value a lane. -/
theorem storeWrites_single (pa : Nat → Nat) (size : Nat) (v : Nat → Val) (m : LaneMask) :
    Ix.storeWrites pa size (fun l => [v l]) m =
      ((lanesOf m).filter fun l => (lanesOf m).all fun k => decide (l < k → pa k ≠ pa l)).map fun l => (v l).at_ (pa l) size := by
  unfold Ix.storeWrites
  rw [laneWrites_single, lanesOf_lastLanes]

end Sys2Proof.Machine
end

section
/-! How an instruction of memory ends: what it leaves as it was when its lanes go on (R231, R331, R346). -/

namespace Sys2Proof.Machine
open Sys2Proof.Claims

/-! ### Counters -/

section CountUse

variable (i : Ix) (b : Bool) (s : State)

theorem countUse_net : (i.countUse b s).net = s.net := (congrArg State.net (countUse_rest i b s) :)
theorem countUse_mem : (i.countUse b s).mem = s.mem := (congrArg State.mem (countUse_rest i b s) :)
theorem countUse_marks : (i.countUse b s).marks = s.marks := (congrArg State.marks (countUse_rest i b s) :)
theorem countUse_hoists : (i.countUse b s).hoists = s.hoists := (congrArg State.hoists (countUse_rest i b s) :)
theorem countUse_casts : (i.countUse b s).casts = s.casts := (congrArg State.casts (countUse_rest i b s) :)

end CountUse

/-! ### Going on -/

theorem complete_pseq (x : Frag) (prio : BitVec 8) (pc next : DWord) (m : LaneMask) :
    (x.complete prio pc next m).pseq = x.pseq := (congrArg Frag.pseq (complete_rest x prio pc next m) :)

theorem complete_place (x : Frag) (prio : BitVec 8) (pc next : DWord) (m : LaneMask) :
    (x.complete prio pc next m).place = x.place := (congrArg Frag.place (complete_rest x prio pc next m) :)

/-- The drain mark is all that an order's end changes (R231). -/
theorem drainAfter_rest (i : Ix) (acq rel : Bool) (sc : Scope) (x : Frag) :
    { i.drainAfter acq rel sc x with drain := x.drain } = x := by
  unfold Ix.drainAfter
  cases rel && i.wideScope sc <;> cases acq <;> cases i.wideScope sc <;> rfl

theorem drainAfter_pseq (i : Ix) (acq rel : Bool) (sc : Scope) (x : Frag) : (i.drainAfter acq rel sc x).pseq = x.pseq :=
  (congrArg Frag.pseq (drainAfter_rest i acq rel sc x) :)

theorem doneFor_pseq (i : Ix) (s : State) (m : LaneMask) (f : Nat) : ((i.doneFor s m).frag f).pseq = (s.frag f).pseq := by
  unfold Ix.doneFor
  split
  · rfl
  · rw [modFrag_frag]
    split
    · rename_i e
      rw [e]
      exact complete_pseq ..
    · rfl

/-- Completing lanes changes the fragments alone. -/
theorem doneFor_rest (i : Ix) (s : State) (m : LaneMask) : { i.doneFor s m with frags := s.frags } = s := by
  unfold Ix.doneFor
  split <;> rfl

theorem posted_rest (i : Ix) (so : ScopeOrder) (s : State) : { i.posted so s with frags := s.frags } = s :=
  (congrArg (fun t : State => { t with frags := s.frags }) (doneFor_rest i (s.modFrag i.f _) i.e.mask) :)

theorem posted_pseq (i : Ix) (so : ScopeOrder) (s : State) : ((i.posted so s).frag i.f).pseq = (s.frag i.f).pseq := by
  unfold Ix.posted
  rw [doneFor_pseq, modFrag_frag, if_pos rfl, drainAfter_pseq]

/-- How a posting instruction leaves the state `u` in which its packets are sent. -/
theorem posted_countUse (i : Ix) (so : ScopeOrder) (b : Bool) (u : State) :
    let t := i.posted so (i.countUse b u)
    t.net = u.net ∧ t.mem = u.mem ∧ t.marks = u.marks ∧ t.hoists = u.hoists ∧ t.casts = u.casts ∧
      (t.frag i.f).pseq = (u.frag i.f).pseq := by
  have h := posted_rest i so (i.countUse b u)
  refine ⟨?_, ?_, ?_, ?_, ?_, ?_⟩
  · exact (congrArg State.net h :).trans (countUse_net ..)
  · exact (congrArg State.mem h :).trans (countUse_mem ..)
  · exact (congrArg State.marks h :).trans (countUse_marks ..)
  · exact (congrArg State.hoists h :).trans (countUse_hoists ..)
  · exact (congrArg State.casts h :).trans (countUse_casts ..)
  · rw [posted_pseq, countUse_frag]

end Sys2Proof.Machine
end

section
/-! O15: a store and a reduction whose lanes have one remote home leave as one posted packet (R48, R49, R215, R218). -/

namespace Sys2Proof.Machine
open Sys2Proof.Claims

/-- No lane at the hearth stores or reduces anything there. -/
theorem storeHere_nil (i : Ix) (body : Body) (rel : Option (Nat × Nat)) (va : Nat) (now : State → State) (h : now i.s = i.s) :
    i.storeHere body [] rel va now = i.s := by
  simp [Ix.storeHere, h]

/-- The lanes that reduce outside every window. -/
theorem plain_eq (i : Ix) {win : Nat → Option Nat} (hWin : ∀ l, i.g.getLsbD l = true → win l = none) :
    { i with g := i.lanesIf fun l => (win l).isNone } = i := by
  rw [lanesIf_all i _ fun l hl => by rw [hWin l hl]; rfl]

section Remote

variable {i : Ix} {h : Hdr} {o : Ops} {x : MemX} {home : Nat} (hg : i.g ≠ 0) (hlt : home < 1024) (hne : home ≠ i.here)
  (hPost : MayPost i x.so [home] 0)
include hg hlt hne hPost

/-- A store of one value a lane to one remote home. -/
theorem store_remote {size regs : Nat} {cpage : Bool} {v : Nat → Val} (hRead : Readable i (memUses h o regs) i.g)
    (hGrant : Granted i (.store cpage) size (i.va o x size)) (hHome : HomedAt i (i.va o x size) home) :
    i.store h o x size size regs cpage (fun l => [v l]) =
      let pa := fun l => i.pa (i.va o x size l)
      i.posted x.so (i.countUse (i.addrPoison o) (i.post i.s home x.so.pass
        (.store (Ix.storeWrites pa size (fun l => [v l]) i.g)) (i.relMark x.so) (i.va o x size (lowestLane i.g)))) := by
  have hSources := checkSources_ok i _ _ hRead
  simp only [memUses] at hSources
  have hMem := checkMem_ok hGrant (fun _ => false) fun _ _ => rfl
  have hLocal := homedAt_other hHome (Ne.symm hne)
  have hThere := homedAt_home hHome
  have hHomes := homesOf_remote hHome hg hlt hne
  unfold Ix.store
  simp only [hSources, hMem, hHomes, hLocal, hThere, storeWrites_zero, List.length_nil, checkPost_ok hPost, bind, Except.bind, pure,
    Except.pure, List.foldl_cons, List.foldl_nil]
  rw [run_ok i _ hg, storeHere_nil i _ _ _ _ rfl]

/-- A reduction outside every window at one remote home. -/
theorem reduce_remote {t : Ty} {op : AtomOp} (hRead : Readable i (memUses h o (Ty.regs t)) i.g)
    (hGrant : Granted i .rmw (t.bits / 8) (i.va o x (t.bits / 8))) (hHome : HomedAt i (i.va o x (t.bits / 8)) home)
    (hWin : ∀ l, i.g.getLsbD l = true → (i.s.pkg (corePkg i.x.gc)).windowAt (i.pa (i.va o x (t.bits / 8) l)) = none) :
    i.reduce h o t op x =
      let pa := fun l => i.pa (i.va o x (t.bits / 8) l)
      i.posted x.so (i.countUse (i.addrPoison o) (i.post i.s home x.so.pass
        (.reduction op t (Ix.laneWrites pa (t.bits / 8) (fun l => [i.read o.c (.bw t.wide) l]) i.g)) (i.relMark x.so)
        (i.va o x (t.bits / 8) (lowestLane i.g)))) := by
  have hSources := checkSources_ok i _ _ hRead
  simp only [memUses] at hSources
  have hMem := fun more => checkMem_ok hGrant more
  have hLocal := homedAt_other hHome (Ne.symm hne)
  have hThere := homedAt_home hHome
  have hHomes := homesOf_remote hHome hg hlt hne
  have hGroups : ((lanesOf i.g).filterMap fun l => ((i.s.pkg (corePkg i.x.gc)).windowAt (i.pa (i.va o x (t.bits / 8) l))).map
      fun k => (k, paHearth (i.pa (i.va o x (t.bits / 8) l)))) = [] := by
    rw [List.filterMap_eq_nil_iff]
    intro l hl
    rw [hWin l ((mem_lanesOf _ _).1 hl)]
    rfl
  have hNo : lanesOf (0 : LaneMask) = [] := by decide
  unfold Ix.reduce
  simp only [hSources, plain_eq i hWin, hHomes, hLocal, hThere, hGroups, laneWrites_zero, hNo, List.length_nil,
    checkPost_ok hPost, bind, Except.bind, pure, Except.pure, List.foldl_cons, List.foldl_nil, List.eraseDups_nil]
  rw [hMem _ fun l hl => by rw [hWin l hl]]
  rw [run_ok i _ hg, storeHere_nil i _ _ _ _ rfl]

end Remote

/-- What the machine holds when one packet has been posted and the instruction has completed. -/
theorem posted_post (i : Ix) (hx : i.x = i.s.frag i.f) (home : Nat) (hlt : home < 1024) (so : ScopeOrder) (used : Bool)
    (body : Body) (hb : body.cls = 0) (rel : Option (Nat × Nat)) (va : Nat) :
    let t := i.posted so (i.countUse used (i.post i.s home so.pass body rel va))
    let p := i.postPacket i.s home so.pass body rel
    t.net = i.s.net ++ [p] ∧ p.src = i.x.src ∧ p.tgt = home ∧ p.seq = i.s.lastSeq i.x.src + 1 ∧ p.pass = so.pass ∧ p.body = body ∧
      (t.frag i.f).pseq = recordPSeq i.x.pseq { tgt := home, src := i.x.src, seq := p.seq } ∧
      (∀ a, t.byte a = i.s.byte a) ∧ (∀ w, t.mark w = i.s.mark w) ∧ t.hoists = i.s.hoists ∧ t.casts = i.s.casts := by
  obtain ⟨hNet, hMem, hMarks, hHoists, hCasts, hPseq⟩ := posted_countUse i so used (i.post i.s home so.pass body rel va)
  have hSeq : (i.postPacket i.s home so.pass body rel).seq = i.s.lastSeq i.x.src + 1 := outgoing_seq_posted _ _ _ _ _ _ _ _ hb
  refine ⟨?_, rfl, postPacket_tgt _ _ _ _ _ _ hlt, hSeq, rfl, rfl, ?_, ?_, ?_, ?_, ?_⟩
  · rw [hNet, post_net _ _ _ _ _ _ _ hlt]
  · rw [hPseq, post_pseq _ _ _ _ _ _ _ hlt hb, hSeq, ← hx]
  · exact fun a => congrArg (Sparse.get 0 · a) (hMem.trans (post_mem _ _ _ _ _ _ _ hlt))
  · exact fun w => congrArg (Sparse.get false · w) (hMarks.trans (post_marks _ _ _ _ _ _ _ hlt))
  · rw [hHoists, post_hoists _ _ _ _ _ _ _ hlt]
  · rw [hCasts, post_casts _ _ _ _ _ _ _ hlt]

/-- Settles O15: the lanes of a store or a reduction leave together, in one post of the fragment's slot. -/
theorem remoteStoresArePosted : Obligations.RemoteStoresArePosted := by
  unfold Obligations.RemoteStoresArePosted
  constructor
  · intro h o ty x home s i size va hg hlt hne hRead hGrant hHome hPost
    obtain ⟨hNet, hSrc, hTgt, hSeq, hPass, hBody, hRest⟩ := posted_post i rfl home hlt x.so (i.addrPoison o) (.store _) rfl
      (i.relMark x.so) (i.va o x size (lowestLane i.g))
    refine ⟨_, _, ?_, hNet, hSrc, hTgt, hSeq, hPass, hBody.trans ?_, hRest⟩
    · exact congrArg Host.Outcome.next (store_remote hg hlt hne hPost hRead hGrant hHome)
    · exact congrArg Body.store (storeWrites_single ..)
  · intro h o ty op x home s i size va hg hlt hne hRead hGrant hHome hPost hWin
    obtain ⟨hNet, hSrc, hTgt, hSeq, hPass, hBody, hRest⟩ := posted_post i rfl home hlt x.so (i.addrPoison o) (.reduction op ty _) rfl
      (i.relMark x.so) (i.va o x size (lowestLane i.g))
    refine ⟨_, _, ?_, hNet, hSrc, hTgt, hSeq, hPass, hBody.trans ?_, hRest⟩
    · exact congrArg Host.Outcome.next (reduce_remote hg hlt hne hPost hRead hGrant hHome hWin)
    · exact congrArg (Body.reduction op ty) (laneWrites_single ..)

end Sys2Proof.Machine
end

section
/-! What a write at a home changes: its bytes and their marks, the waiters on them, and the release records of its location
(R216, R218, R236, R255). -/

namespace Sys2Proof.Machine
open Sys2Proof.Claims

/-! ### What writes leave alone -/

/-- Beside bytes and marks, only waiters on them and release records have changed. -/
structure WritesOnly (s t : State) : Prop where
  frags   : ∀ f, { t.frag f with entries := (s.frag f).entries, frozen := (s.frag f).frozen } = s.frag f
  hearths : ∀ g, { t.hearth g with records := (s.hearth g).records } = s.hearth g
  rest    : { t with mem := s.mem, marks := s.marks, frags := s.frags, hearths := s.hearths } = s

namespace WritesOnly

theorem refl (s : State) : WritesOnly s s := ⟨fun _ => rfl, fun _ => rfl, rfl⟩

theorem trans {s t u : State} (h : WritesOnly s t) (k : WritesOnly t u) : WritesOnly s u where
  frags f := by rw [← h.frags f, ← k.frags f]
  hearths g := by rw [← h.hearths g, ← k.hearths g]
  rest := by rw [← h.rest, ← k.rest]

variable {s t : State} (h : WritesOnly s t)
include h

theorem hoists : t.hoists = s.hoists := (congrArg State.hoists h.rest :)
theorem casts : t.casts = s.casts := (congrArg State.casts h.rest :)
theorem pours : t.pours = s.pours := (congrArg State.pours h.rest :)
theorem cores : t.cores = s.cores := (congrArg State.cores h.rest :)
theorem pkgs : t.pkgs = s.pkgs := (congrArg State.pkgs h.rest :)
theorem cmds : t.cmds = s.cmds := (congrArg State.cmds h.rest :)
theorem net : t.net = s.net := (congrArg State.net h.rest :)
theorem seqs : t.seqs = s.seqs := (congrArg State.seqs h.rest :)
theorem lastSeq (k : Nat) : t.lastSeq k = s.lastSeq k := (congrArg (State.lastSeq · k) h.rest :)

end WritesOnly

/-! ### One write -/

theorem setMarks_only (f : Nat → Bool) (l : List Nat) (s : State) : WritesOnly s (l.foldl (fun a w => a.setMark w (f w)) s) := by
  induction l generalizing s with
  | nil => exact .refl s
  | cons w t ih => exact WritesOnly.trans (t := s.setMark w (f w)) ⟨fun _ => rfl, fun _ => rfl, rfl⟩ (ih _)

theorem writeLE_only (n : Nat) (s : State) (a v : Nat) : WritesOnly s (s.writeLE a n v) := by
  induction n generalizing s a v with
  | zero => exact .refl s
  | succ n ih => exact WritesOnly.trans (t := s.setByte a (BitVec.ofNat 8 v)) ⟨fun _ => rfl, fun _ => rfl, rfl⟩ (ih _ _ _)

/-- A fragment's entries that wait on the bytes are marked. -/
theorem wakeWaiters_frag (s : State) (pa n f : Nat) : (s.wakeWaiters pa n).frag f =
    { s.frag f with entries := (s.frag f).entries.map (Entry.hitBy pa n), frozen := (s.frag f).frozen.map (Entry.hitBy pa n) } := by
  unfold State.wakeWaiters State.frag
  induction s.frags with
  | nil => rfl
  | cons p t ih =>
    simp only [List.map_cons, Sparse.get]
    split
    · rfl
    · exact ih

theorem wakeWaiters_only (s : State) (pa n : Nat) : WritesOnly s (s.wakeWaiters pa n) where
  frags f := by rw [wakeWaiters_frag]
  hearths _ := rfl
  rest := rfl

theorem writeMem_only (s : State) (pa n v : Nat) (p : Bool) : WritesOnly s (s.writeMem pa n v p) :=
  ((setMarks_only _ _ _).trans (writeLE_only _ _ _ _)).trans (wakeWaiters_only _ _ _)

theorem putWrite_only (s : State) (w : WriteOp) : WritesOnly s (s.putWrite w) := by
  unfold State.putWrite
  split
  · exact (writeMem_only ..).trans (writeMem_only ..)
  · exact writeMem_only ..

theorem modRecords_only (s : State) (gh : Nat) (l : List RelRec) : WritesOnly s (s.modHearth gh fun h => { h with records := l }) where
  frags _ := rfl
  hearths g := by
    rw [modHearth_hearth]
    split
    · rename_i e
      rw [e]
    · rfl
  rest := rfl

/-- A write at a home gives it a new list of records, if that is another one. -/
theorem noteRelease_eq (s : State) (gh pa n : Nat) (rel : Option (Nat × Nat)) : ∃ l, s.noteRelease gh pa n rel =
    if l = (s.hearth gh).records then s else s.modHearth gh fun h => { h with records := l } := ⟨_, rfl⟩

theorem noteRelease_only (s : State) (gh pa n : Nat) (rel : Option (Nat × Nat)) : WritesOnly s (s.noteRelease gh pa n rel) := by
  obtain ⟨l, h⟩ := noteRelease_eq s gh pa n rel
  rw [h]
  split
  · exact .refl s
  · exact modRecords_only ..

theorem dropRecords_only (s : State) (pa n : Nat) : WritesOnly s (s.dropRecords pa n) := by
  rw [State.dropRecords]
  split
  · exact .refl s
  · exact modRecords_only ..

theorem rewrite_only (s : State) (pa n v : Nat) (p : Bool) : WritesOnly s (s.rewrite pa n v p) :=
  (writeMem_only ..).trans (dropRecords_only ..)

@[simp] theorem byte_noteRelease (s : State) (gh pa n : Nat) (rel : Option (Nat × Nat)) (a : Nat) :
    (s.noteRelease gh pa n rel).byte a = s.byte a := by
  obtain ⟨l, h⟩ := noteRelease_eq s gh pa n rel
  rw [h]
  split
  · rfl
  · exact byte_modHearth ..

/-- A write leaves the bytes of its value, the lowest first (R5). -/
theorem byte_putWrite_inside (s : State) (w : WriteOp) (k : Nat) (hk : k < w.size) :
    (s.putWrite w).byte (w.pa + k) = BitVec.ofNat 8 (w.val.toNat / 256 ^ k) := by
  unfold State.putWrite
  split
  · rename_i h8
    rw [h8.1] at hk
    by_cases hlow : k < 4
    · rw [byte_writeMem_outside _ _ _ _ _ _ (by omega), byte_writeMem_inside _ _ _ _ _ _ hlow]
    · obtain ⟨j, rfl⟩ : ∃ j, k = 4 + j := ⟨k - 4, by omega⟩
      rw [← Nat.add_assoc, byte_writeMem_inside _ _ _ _ _ _ (by omega), Nat.div_div_eq_div_mul, Nat.pow_add,
        show 2 ^ 32 = 256 ^ 4 by norm_num]
  · exact byte_writeMem_inside _ _ _ _ _ _ hk

theorem byte_putWrite_outside (s : State) (w : WriteOp) (a : Nat) (ha : a < w.pa ∨ w.pa + w.size ≤ a) :
    (s.putWrite w).byte a = s.byte a := by
  unfold State.putWrite
  split
  · rename_i h8
    rw [h8.1] at ha
    rw [byte_writeMem_outside _ _ _ _ _ _ (by omega), byte_writeMem_outside _ _ _ _ _ _ (by omega)]
  · exact byte_writeMem_outside _ _ _ _ _ _ ha

section ApplyWrite

variable (s : State) (ctx : BitVec 8) (w : WriteOp) (rel : Option (Nat × Nat)) (det : Nat) (hpage : isCpage w.pa = false)
include hpage

/-- Outside the control page a write stores its bytes and replaces the record of its location (R216, R236). -/
theorem applyWrite_memory : s.applyWrite ctx w rel det =
    if paHost w.pa then s.putWrite w else (s.putWrite w).noteRelease (paHearth w.pa) w.pa w.size rel := by
  unfold State.applyWrite
  rw [if_neg (by simp [hpage])]

theorem applyWrite_only : WritesOnly s (s.applyWrite ctx w rel det) := by
  rw [applyWrite_memory _ _ _ _ _ hpage]
  split
  · exact putWrite_only ..
  · exact (putWrite_only ..).trans (noteRelease_only ..)

theorem byte_applyWrite (a : Nat) : (s.applyWrite ctx w rel det).byte a = (s.putWrite w).byte a := by
  rw [applyWrite_memory _ _ _ _ _ hpage]
  split
  · rfl
  · exact byte_noteRelease ..

end ApplyWrite

/-! ### The writes of a packet or of an instruction -/

section ApplyWrites

variable (ctx : BitVec 8) (rel : Option (Nat × Nat)) (det : Nat)

theorem applyWrites_only (ws : List WriteOp) (s : State) (hpage : ∀ w ∈ ws, isCpage w.pa = false) :
    WritesOnly s (s.applyWrites ctx ws rel det) := by
  induction ws generalizing s with
  | nil => exact .refl s
  | cons w t ih =>
    exact (applyWrite_only s ctx w rel det (hpage w (by simp))).trans (ih _ fun v hv => hpage v (by simp [hv]))

/-- A byte that no write of the list names is as it was. -/
theorem byte_applyWrites_outside (ws : List WriteOp) (s : State) (a : Nat) (hpage : ∀ w ∈ ws, isCpage w.pa = false)
    (ha : ∀ w ∈ ws, a < w.pa ∨ w.pa + w.size ≤ a) : (s.applyWrites ctx ws rel det).byte a = s.byte a := by
  induction ws generalizing s with
  | nil => rfl
  | cons w t ih =>
    have hw := ih (s.applyWrite ctx w rel det) (fun v hv => hpage v (by simp [hv])) fun v hv => ha v (by simp [hv])
    refine hw.trans ?_
    rw [byte_applyWrite _ _ _ _ _ (hpage w (by simp)), byte_putWrite_outside _ _ _ (ha w (by simp))]

/-- A write behind which no write of the list names its bytes has its value there in the end (R218). -/
theorem holds_applyWrites (before after : List WriteOp) (w : WriteOp) (s : State)
    (hpage : ∀ v ∈ before ++ w :: after, isCpage v.pa = false) (hafter : ∀ v ∈ after, v.pa + v.size ≤ w.pa ∨ w.pa + w.size ≤ v.pa) :
    Holds (s.applyWrites ctx (before ++ w :: after) rel det) w.pa w.size w.val := by
  intro k hk
  unfold State.applyWrites
  rw [List.foldl_append, List.foldl_cons]
  refine (byte_applyWrites_outside ctx rel det after _ _ (fun v hv => hpage v (by simp [hv])) fun v hv => ?_).trans ?_
  · have := hafter v hv
    omega
  · rw [byte_applyWrite _ _ _ _ _ (hpage w (by simp)), byte_putWrite_inside _ _ _ hk]

end ApplyWrites

/-! ### The writes of the lanes of a store -/

/-- Lanes are listed in ascending order. -/
theorem lanesOf_pairwise (m : LaneMask) : (lanesOf m).Pairwise (· < ·) := List.Pairwise.filter _ List.pairwise_lt_range

theorem mem_lastLanes {pa : Nat → Nat} {m : LaneMask} {l : Nat} (h : l ∈ lanesOf (lastLanes pa m)) : m.getLsbD l = true := by
  rw [lanesOf_lastLanes, List.mem_filter] at h
  exact (mem_lanesOf _ _).1 h.1

section LaneStore

variable {i : Ix} {size : Nat} {pa : Nat → Nat} (v : Nat → Val) (ctx : BitVec 8) (rel : Option (Nat × Nat)) (det : Nat) (s : State)
  (hpage : ∀ l, i.g.getLsbD l = true → isCpage (pa l) = false)
include hpage

theorem storeWrites_memory : ∀ w ∈ Ix.storeWrites pa size (fun l => [v l]) i.g, isCpage w.pa = false := by
  unfold Ix.storeWrites
  rw [laneWrites_single]
  intro w hw
  obtain ⟨l, hl, rfl⟩ := List.mem_map.1 hw
  exact hpage l (mem_lastLanes hl)

/-- Bytes of no lane are as they were. -/
theorem byte_storeWrites_outside (a : Nat) (ha : ¬ laneBytes i size pa a) :
    (s.applyWrites ctx (Ix.storeWrites pa size (fun l => [v l]) i.g) rel det).byte a = s.byte a := by
  refine byte_applyWrites_outside ctx rel det _ s a (storeWrites_memory v hpage) fun w hw => ?_
  unfold Ix.storeWrites at hw
  rw [laneWrites_single] at hw
  obtain ⟨l, hl, rfl⟩ := List.mem_map.1 hw
  by_contra hc
  simp only [Val.at_] at hc
  exact ha ⟨l, mem_lastLanes hl, by omega, by omega⟩

/-- The bytes that a lane is the last to store hold its value. -/
theorem holds_storeWrites (l : Nat) (hl : i.g.getLsbD l = true) (hlast : LastWriter i size pa l) :
    Holds (s.applyWrites ctx (Ix.storeWrites pa size (fun l => [v l]) i.g) rel det) (pa l) size (v l).bits := by
  intro k hk
  have hmem : l ∈ lanesOf (lastLanes pa i.g) := by
    rw [lanesOf_lastLanes, List.mem_filter]
    refine ⟨(mem_lanesOf _ _).2 hl, ?_⟩
    rw [List.all_eq_true]
    intro m hm
    have := hlast m ((mem_lanesOf _ _).1 hm)
    simp only [decide_eq_true_eq]
    omega
  obtain ⟨before, after, hsplit⟩ := List.append_of_mem hmem
  have hsorted := lanesOf_pairwise (lastLanes pa i.g)
  rw [hsplit] at hsorted
  have hws : Ix.storeWrites pa size (fun l => [v l]) i.g = (before.map fun l => (v l).at_ (pa l) size) ++
      (v l).at_ (pa l) size :: after.map fun l => (v l).at_ (pa l) size := by
    unfold Ix.storeWrites
    rw [laneWrites_single, hsplit, List.map_append, List.map_cons]
  have hpages := storeWrites_memory (i := i) (size := size) v hpage
  rw [hws] at hpages ⊢
  refine holds_applyWrites ctx rel det _ _ ((v l).at_ (pa l) size) s hpages (fun w hw => ?_) k hk
  obtain ⟨m, hm, rfl⟩ := List.mem_map.1 hw
  have hlt : l < m := (List.pairwise_cons.1 (List.pairwise_append.1 hsorted).2.1).1 m hm
  exact hlast m (mem_lastLanes (by rw [hsplit]; simp [hm])) hlt

end LaneStore

end Sys2Proof.Machine
end

section
/-! O38: PUTS stores its payload, at once or by a posted packet, and posts its signal behind it (R48, R259, R279). -/

namespace Sys2Proof.Machine
open Sys2Proof.Claims

/-- A cause that concerns neither the lanes nor the signal. -/
theorem trapSignal_ok (i : Ix) (cause : BitVec 8) (bad : Nat → Bool) (addr : Nat → Nat) (sigBad : Bool) (sig : Nat)
    (hLanes : ∀ l, i.g.getLsbD l = true → bad l = false) (hSig : sigBad = false) :
    i.trapSignal cause bad addr sigBad sig = .ok () := by
  simp only [Ix.trapSignal, trapLanes_ok i cause bad addr hLanes, hSig, guardStop_false, bind, Except.bind]

/-- The signal of a PUTS may be posted: its address is aligned, translated, granted, and in the partition. -/
structure SignalOk (i : Ix) (sig : Nat) : Prop where
  aligned : sig % 8 = 0
  mapped  : ∃ leaf, i.translate sig = .ok leaf (i.pa sig) ∧ i.denied (.put false) leaf (i.pa sig) = false
  inside  : i.outside (i.pa sig) = false

theorem accessBad_signal {i : Ix} {sig : Nat} (h : SignalOk i sig) : i.accessBad (.put false) sig = false := by
  obtain ⟨leaf, hleaf, hden⟩ := h.mapped
  unfold Ix.accessBad
  rw [hleaf]
  exact hden

theorem signal_translated {i : Ix} {sig : Nat} (h : SignalOk i sig) : i.translate sig ≠ .miss := by
  obtain ⟨leaf, hleaf, -⟩ := h.mapped
  rw [hleaf]
  exact fun e => nomatch e

theorem paHearth_lt (pa : Nat) : paHearth pa < 1024 := Nat.mod_lt _ (by decide)

/-- PUTS after the checks of R214: it posts when no order holds its packets back. -/
def Ix.putsBehind (i : Ix) (o : Ops) (t : Ty) (x : MemX) : Except Stop State := do
  let size := t.bits / 8
  let va := i.va o x size
  let sig := (i.uniform o.d (.bw true)).bits.toNat
  let pa := fun l => i.pa (va l)
  let homes := i.homesOf pa
  let sigHome := paHearth (i.pa sig)
  i.checkPost (homes ++ [sigHome]) x.so (lanesOf (i.homedAt pa i.here)).length
  let rel := i.relMark x.so
  let val := fun l => [i.read o.c (.bw t.wide) l]
  let s1 := i.s.applyWrites (i.s.ctxOf i.x) (Ix.storeWrites pa size val (i.homedAt pa i.here)) rel i.x.src
  let q := homes.foldl (fun q hm =>
    let s' := i.post q.1 hm x.so.pass (.store (Ix.storeWrites pa size val (i.homedAt pa hm))) rel (va (lowestLane (i.homedAt pa hm)))
    (s', if hm = sigHome then q.2 else q.2 ++ [(hm, s'.lastSeq i.x.src)])) (s1, ([] : List (Nat × Word)))
  let s3 := i.post q.1 sigHome x.so.pass (.signal (i.pa sig) q.2) rel sig
  pure (i.posted x.so (i.countUse (i.addrPoison o || i.poisonLanes o.d 1 i.g ≠ 0) s3))

section Puts

variable {i : Ix} {h : Hdr} {o : Ops} {t : Ty} {x : MemX} {home : Nat}

theorem puts_checked (hRead : Readable i (memUses h o (Ty.regs t) ++ [{ o := o.d, n := 1, bit := false }]) i.g)
    (hGrant : Granted i (.put true) (t.bits / 8) (i.va o x (t.bits / 8))) (hSig : SignalOk i (i.uniform o.d (.bw true)).bits.toNat) :
    i.puts h o t x = i.run (i.putsBehind o t x) := by
  have hSources := checkSources_ok i _ _ hRead
  simp only [memUses, List.cons_append, List.nil_append] at hSources
  have hAlign := trapSignal_ok i Cause.align (fun l => i.va o x (t.bits / 8) l % (t.bits / 8) ≠ 0) (i.va o x (t.bits / 8))
    (decide ((i.uniform o.d (.bw true)).bits.toNat % 8 ≠ 0)) (i.uniform o.d (.bw true)).bits.toNat
    (fun l hl => by simp [hGrant.aligned l hl]) (by simp [hSig.aligned])
  have hAccess := trapSignal_ok i Cause.access (fun l => i.accessBad (.put true) (i.va o x (t.bits / 8) l)) (i.va o x (t.bits / 8))
    (i.accessBad (.put false) (i.uniform o.d (.bw true)).bits.toNat) (i.uniform o.d (.bw true)).bits.toNat
    (fun l hl => accessBad_of_granted hGrant hl) (accessBad_signal hSig)
  have hPart := trapSignal_ok i Cause.partition (fun l => i.outside (i.pa (i.va o x (t.bits / 8) l))) (i.va o x (t.bits / 8))
    (i.outside (i.pa (i.uniform o.d (.bw true)).bits.toNat)) (i.uniform o.d (.bw true)).bits.toNat hGrant.inside hSig.inside
  unfold Ix.puts
  simp only [hSources, hAlign, checkWalks_ok hGrant, signal_translated hSig, decide_false, guardStop_false, hAccess, hPart, bind,
    Except.bind, pure, Except.pure]
  rfl

variable (hg : i.g ≠ 0) (hHome : HomedAt i (i.va o x (t.bits / 8)) home)
include hg hHome

/-- PUTS whose payload has its home where the fragment stands. -/
theorem puts_local (hh : home = i.here)
    (hPost : MayPost i x.so [paHearth (i.pa (i.uniform o.d (.bw true)).bits.toNat)] (lanesOf i.g).length) :
    i.run (i.putsBehind o t x) =
      let sig := (i.uniform o.d (.bw true)).bits.toNat
      let ws := Ix.storeWrites (fun l => i.pa (i.va o x (t.bits / 8) l)) (t.bits / 8) (fun l => [i.read o.c (.bw t.wide) l]) i.g
      i.posted x.so (i.countUse (i.addrPoison o || i.poisonLanes o.d 1 i.g ≠ 0)
        (i.post (i.s.applyWrites (i.s.ctxOf i.x) ws (i.relMark x.so) i.x.src)
          (paHearth (i.pa sig)) x.so.pass (.signal (i.pa sig) []) (i.relMark x.so) sig)) := by
  have hThere := homedAt_home hHome
  rw [hh] at hThere
  have hHomes := homesOf_here hHome hg hh
  unfold Ix.putsBehind
  simp only [hHomes, hThere, List.nil_append, checkPost_ok hPost, bind, Except.bind, pure, Except.pure, List.foldl_nil]
  exact run_ok i _ hg

/-- PUTS whose payload has a remote home: two packets, of which the second waits for the first when its home is another. -/
theorem puts_remote (hlt : home < 1024) (hne : home ≠ i.here)
    (hPost : MayPost i x.so [home, paHearth (i.pa (i.uniform o.d (.bw true)).bits.toNat)] 0) :
    i.run (i.putsBehind o t x) =
      let sig := (i.uniform o.d (.bw true)).bits.toNat
      let ws := Ix.storeWrites (fun l => i.pa (i.va o x (t.bits / 8) l)) (t.bits / 8) (fun l => [i.read o.c (.bw t.wide) l]) i.g
      let s1 := i.post i.s home x.so.pass (.store ws) (i.relMark x.so) (i.va o x (t.bits / 8) (lowestLane i.g))
      i.posted x.so (i.countUse (i.addrPoison o || i.poisonLanes o.d 1 i.g ≠ 0)
        (i.post s1 (paHearth (i.pa sig)) x.so.pass
          (.signal (i.pa sig) (if home = paHearth (i.pa sig) then [] else [(home, s1.lastSeq i.x.src)])) (i.relMark x.so) sig)) := by
  have hLocal := homedAt_other hHome (Ne.symm hne)
  have hThere := homedAt_home hHome
  have hHomes := homesOf_remote hHome hg hlt hne
  have hNo : lanesOf (0 : LaneMask) = [] := by decide
  unfold Ix.putsBehind
  simp only [hHomes, hLocal, hThere, hNo, storeWrites_zero, List.length_nil, List.cons_append, List.nil_append, checkPost_ok hPost, bind,
    Except.bind, pure, Except.pure, List.foldl_cons, List.foldl_nil]
  exact run_ok i _ hg

end Puts

/-- Settles O38: the signal is posted behind the payload, which is stored at once where its home is the fragment's own hearth. -/
theorem signalledPuts : Obligations.SignalledPuts := by
  unfold Obligations.SignalledPuts
  intro h o ty x home s i size va pa sig sigHome stored hg hlt hRead hGrant hHome hAligned hMapped hInside
  have hSig : SignalOk i (i.uniform o.d (.bw true)).bits.toNat := ⟨hAligned, hMapped, hInside⟩
  have hExec : exec (.puts h o ty x) s = .next (i.run (i.putsBehind o ty x)) :=
    congrArg Host.Outcome.next (puts_checked hRead hGrant hSig)
  have hSigLt : sigHome < 1024 := paHearth_lt _
  constructor
  · intro hh hPost hPage
    have hRun := puts_local hg hHome hh hPost
    let ws := Ix.storeWrites pa size (fun l => [i.read o.c (.bw ty.wide) l]) i.g
    have hOnly := applyWrites_only (s.ctxOf i.x) (i.relMark x.so) i.x.src ws s (storeWrites_memory _ hPage)
    let u := s.applyWrites (s.ctxOf i.x) ws (i.relMark x.so) i.x.src
    obtain ⟨hNet, hMem, -, hHoists, hCasts, -⟩ := posted_countUse i x.so (i.addrPoison o || i.poisonLanes o.d 1 i.g ≠ 0)
      (i.post u sigHome x.so.pass (.signal (i.pa sig) []) (i.relMark x.so) sig)
    have hByte (a : Nat) := congrArg (Sparse.get (0 : Byte) · a) (hMem.trans (post_mem i u sigHome x.so.pass
      (.signal (i.pa sig) []) (i.relMark x.so) sig hSigLt))
    refine ⟨_, i.postPacket u sigHome x.so.pass (.signal (i.pa sig) []) (i.relMark x.so),
      hExec.trans (congrArg Host.Outcome.next hRun), ?_, rfl, postPacket_tgt _ _ _ _ _ _ hSigLt, ?_, rfl, ?_, ?_, ?_, ?_⟩
    · exact hNet.trans ((post_net i u sigHome x.so.pass _ _ sig hSigLt).trans (congrArg (· ++ _) hOnly.net))
    · exact (outgoing_seq_posted u _ _ _ _ _ _ _ rfl).trans (congrArg (· + 1) (hOnly.lastSeq _))
    · exact hHoists.trans ((post_hoists i u sigHome x.so.pass _ _ sig hSigLt).trans hOnly.hoists)
    · exact hCasts.trans ((post_casts i u sigHome x.so.pass _ _ sig hSigLt).trans hOnly.casts)
    · intro l hl hLast k hk
      exact (hByte _).trans (holds_storeWrites _ (s.ctxOf i.x) (i.relMark x.so) i.x.src s hPage l hl hLast k hk)
    · intro a ha
      exact (hByte a).trans (byte_storeWrites_outside _ (s.ctxOf i.x) (i.relMark x.so) i.x.src s hPage a ha)
  · intro hne hPost
    have hRun := puts_remote hg hHome hlt hne hPost
    let ws := Ix.storeWrites pa size (fun l => [i.read o.c (.bw ty.wide) l]) i.g
    let u := i.post s home x.so.pass (.store ws) (i.relMark x.so) (va (lowestLane i.g))
    let after : List (Nat × Word) := if home = sigHome then [] else [(home, u.lastSeq i.x.src)]
    obtain ⟨hNet, hMem, hMarks, hHoists, hCasts, -⟩ := posted_countUse i x.so (i.addrPoison o || i.poisonLanes o.d 1 i.g ≠ 0)
      (i.post u sigHome x.so.pass (.signal (i.pa sig) after) (i.relMark x.so) sig)
    have hSeq : u.lastSeq i.x.src = s.lastSeq i.x.src + 1 := post_lastSeq i s home x.so.pass (.store ws) _ _ hlt rfl
    have hPacketSeq : (i.postPacket s home x.so.pass (.store ws) (i.relMark x.so)).seq = s.lastSeq i.x.src + 1 :=
      outgoing_seq_posted s _ _ _ _ _ _ _ rfl
    refine ⟨_, i.postPacket s home x.so.pass (.store ws) (i.relMark x.so),
      i.postPacket u sigHome x.so.pass (.signal (i.pa sig) after) (i.relMark x.so),
      hExec.trans (congrArg Host.Outcome.next hRun), ?_, ⟨?_, ?_⟩, ?_, ?_, rfl, postPacket_tgt _ _ _ _ _ _ hlt, hPacketSeq,
      congrArg Body.store (storeWrites_single ..), rfl, postPacket_tgt _ _ _ _ _ _ hSigLt, ?_, ?_⟩
    · refine hNet.trans ((post_net i u sigHome x.so.pass _ _ sig hSigLt).trans ?_)
      rw [show u.net = _ from post_net i s home x.so.pass (.store ws) _ _ hlt, List.append_assoc]
      rfl
    · intro a
      exact congrArg (Sparse.get (0 : Byte) · a) (hMem.trans ((post_mem i u sigHome x.so.pass _ _ sig hSigLt).trans
        (post_mem i s home x.so.pass _ _ _ hlt)))
    · intro w
      exact congrArg (Sparse.get false · w) (hMarks.trans ((post_marks i u sigHome x.so.pass _ _ sig hSigLt).trans
        (post_marks i s home x.so.pass _ _ _ hlt)))
    · exact hHoists.trans ((post_hoists i u sigHome x.so.pass _ _ sig hSigLt).trans (post_hoists i s home x.so.pass _ _ _ hlt))
    · exact hCasts.trans ((post_casts i u sigHome x.so.pass _ _ sig hSigLt).trans (post_casts i s home x.so.pass _ _ _ hlt))
    · refine (outgoing_seq_posted u _ _ _ _ _ _ _ rfl).trans ?_
      rw [hSeq, BitVec.add_assoc]
      rfl
    · show Body.signal (i.pa sig) after = _
      rw [hPacketSeq]
      simp only [after, hSeq]

end Sys2Proof.Machine
end

section
/-! O19: a fragment whose lanes all access one remote home leaves for it, whole, before the access takes effect (R38, R40, R213,
R258). -/

namespace Sys2Proof.Machine
open Sys2Proof.Claims

/-! ### A whole fragment leaves -/

theorem sendLanes_whole (i : Ix) (s : State) (dest : Nat) (lsel : BitVec 8) (anchor : Bool) (aim : Nat)
    (hg : (s.frag i.f).lanes ≠ 0) : i.sendLanes s (s.frag i.f).lanes dest lsel anchor aim =
      s.setFrag i.f { s.frag i.f with
        place := .departing (s.frag i.f).gc (s.frag i.f).slot dest lsel anchor false, mcopy := s.maskCopy (s.frag i.f)
        aim := BitVec.ofNat 64 aim, hinted := [] } := by
  unfold Ix.sendLanes
  rw [if_neg hg]
  exact if_pos rfl

/-- What the machine holds when a whole fragment leaves: only the fragment has changed, and its frontier has not. -/
theorem sendLanes_departs (i : Ix) (hx : i.x = i.s.frag i.f) (dest : Nat) (lsel : BitVec 8) (anchor : Bool) (aim : Nat)
    (hg : i.x.lanes ≠ 0) :
    let t := i.sendLanes i.s i.x.lanes dest lsel anchor aim
    (∀ a, t.byte a = i.s.byte a) ∧ t.hoists = i.s.hoists ∧ t.net = i.s.net ∧
      (t.frag i.f).place = .departing i.x.gc i.x.slot dest lsel anchor false ∧ (t.frag i.f).entries = i.x.entries := by
  rw [hx] at hg ⊢
  rw [sendLanes_whole i i.s dest lsel anchor aim hg]
  refine ⟨fun _ => rfl, rfl, rfl, ?_, ?_⟩ <;> rw [setFrag_frag, if_pos rfl]

/-! ### The checks before it leaves -/

/-- A stall hint on another hearth defers nothing. -/
theorem checkHints_one (i : Ix) (home : Nat) (h : ∀ c ∈ (i.s.core i.x.gc).hints, c.target ≠ home) :
    i.checkHints [home] = .ok () :=
  checkHints_none i _ fun c hc hcont => absurd (by simpa using hcont) (h c hc)

theorem handler_of_trap {x : Frag} (h : x.trap = none) : x.handler = false := by
  simp [Frag.handler, h]

theorem maskHome_at (i : Ix) (d : Opnd) (n : Nat) (lsel : BitVec 4) (h : Writable i d n) : i.maskHome d lsel = .ok () := by
  unfold Ix.maskHome
  split
  · rename_i k
    have := h.home k rfl
    cases hs : i.h.split
    · simp
    · simp [Ix.needAnchor, this hs]
  · rfl

theorem lanesOf_zero : lanesOf (0 : LaneMask) = [] := by decide

theorem recordsAt_zero (i : Ix) (pa : Nat → Nat) (size : Nat) : i.recordsAt pa size 0 = [] := by
  unfold Ix.recordsAt
  rw [lanesOf_zero]
  exact List.filter_eq_nil_iff.2 fun _ _ => Bool.false_ne_true

theorem promoteStop_nil (i : Ix) : i.promoteStop [] = none := rfl

section Visit

variable {i : Ix} {va : Nat → Nat} {home : Nat} (hg : i.g ≠ 0) (hHome : HomedAt i va home)
  (hHints : i.checkHints (i.homesOf fun l => i.pa (va l)) = .ok ())
include hg hHome hHints

/-- Lanes at one remote home leave together, and none stays. -/
theorem migrate_remote (lsel : BitVec 4) (hlt : home < 1024) (hne : home ≠ i.here) (hTrap : i.x.trap = none) :
    i.migrate va (fun l => i.pa (va l)) lsel =
      .ok ({ i with s := i.sendLanes i.s i.g home (lsel.setWidth 8) false (va (lowestLane i.g)), g := 0 }, i.e.mask &&& ~~~i.g) := by
  have hHomes := homesOf_remote hHome hg hlt hne
  rw [hHomes] at hHints
  have hAway : (0 : LaneMask) ||| i.g = i.g := BitVec.zero_or
  have hNone : i.g &&& ~~~i.g = (0 : LaneMask) := by simp
  unfold Ix.migrate
  simp only [hHomes, homedAt_home hHome, hHints, hAway, hNone, handler_of_trap hTrap, Bool.false_and, guardStop_false, bind,
    Except.bind, pure, Except.pure, List.foldl_cons, List.foldl_nil]

/-- Lanes whose home is where the fragment stands stay. -/
theorem migrate_here (lsel : BitVec 4) (hh : home = i.here) : i.migrate va (fun l => i.pa (va l)) lsel = .ok (i, i.e.mask) := by
  have hHomes := homesOf_here hHome hg hh
  rw [hHomes] at hHints
  have hAll (m : LaneMask) : m &&& ~~~(0 : LaneMask) = m := by
    rw [show ~~~(0 : LaneMask) = BitVec.allOnes 32 from rfl, BitVec.and_allOnes]
  unfold Ix.migrate
  simp only [hHomes, hHints, hAll, ne_eq, not_true_eq_false, decide_false, Bool.and_false, guardStop_false, bind, Except.bind, pure,
    Except.pure, List.foldl_nil]

end Visit

section Access

variable {i : Ix} {us : List Use} {ds : List (Opnd × Nat)} {masks : Opnd} {o : Ops} {x : MemX} {acc : Acc} {size unit home : Nat}
  (write : Bool) (perform : Perform) (hg : i.g ≠ 0) (hRead : Readable i us i.g) (hDests : i.checkDests ds = .ok ())
  (hMask : i.maskHome masks x.lsel = .ok ()) (hGrant : Granted i acc size (i.va o x unit)) (hHome : HomedAt i (i.va o x unit) home)
  (hHints : i.checkHints (i.homesOf fun l => i.pa (i.va o x unit l)) = .ok ())
include hg hRead hDests hMask hGrant hHome hHints

/-- An access whose lanes are the whole entry, all at one remote home: they leave, and nothing is performed. -/
theorem visit_remote (hMaskG : i.e.mask = i.g) (hlt : home < 1024) (hne : home ≠ i.here) (hTrap : i.x.trap = none) :
    i.visit us ds masks o x acc size unit write perform =
      i.sendLanes i.s i.g home (x.lsel.setWidth 8) false (i.va o x unit (lowestLane i.g)) := by
  have hMem := checkMem_ok hGrant (fun _ => false) fun _ _ => rfl
  have hLocal := homedAt_other hHome (Ne.symm hne)
  have hStay : i.g &&& ~~~i.g = (0 : LaneMask) := by simp
  have hDone (j : Ix) (s : State) : j.doneFor s 0 = s := if_pos rfl
  unfold Ix.visit
  simp only [checkSources_ok i _ _ hRead, hDests, hMem, hMask, hLocal, migrate_remote hg hHome hHints x.lsel hlt hne hTrap, hMaskG,
    hStay, hDone, recordsAt_zero, ite_self, promoteStop_nil, Ix.checkLocal, if_true, bind, Except.bind, pure, Except.pure]
  exact run_ok i _ hg

/-- An access of lanes that stand at their home and hold nothing back: it is performed, and the entry goes on. -/
theorem visit_here (hh : home = i.here) (hLocal : i.checkLocal i.g write x.so = .ok ()) (hPromote : x.so.promote = false)
    (hPerform : ∀ s pa, perform i s pa = (s, none)) :
    i.visit us ds masks o x acc size unit write perform =
      i.doneFor ((i.countUse (i.addrPoison o) i.s).modFrag i.f fun y => i.drainAfter (ScopeOrder.acq x.so) (ScopeOrder.rel x.so)
        x.so.scope (y.reads (i.recordsAt (fun l => i.pa (i.va o x unit l)) size i.g))) i.e.mask := by
  have hMem := checkMem_ok hGrant (fun _ => false) fun _ _ => rfl
  have hThere := homedAt_home hHome
  rw [hh] at hThere
  unfold Ix.visit
  simp only [checkSources_ok i _ _ hRead, hDests, hMem, hMask, hThere, hLocal, migrate_here hg hHome hHints x.lsel hh, hPromote,
    Bool.false_eq_true, if_false, promoteStop_nil, hg, hPerform, bind, Except.bind, pure, Except.pure]
  exact run_ok i _ hg

end Access

/-- A relaxed read at its home waits for no packet and no store of its own (R50, R226). -/
theorem checkLocal_relaxed (i : Ix) (hg : i.g ≠ 0) (hLate : i.s.lateAt i.x.gc = false)
    (hHold : ∀ e ∈ i.x.pseq, e.tgt = i.here → i.s.pendingTo e.src e.tgt e.seq = false) (so : ScopeOrder)
    (hRel : ScopeOrder.rel so = false) : i.checkLocal i.g false so = .ok () := by
  have hPending : (i.x.pseq.any fun e => e.tgt = i.here && i.s.pendingTo e.src e.tgt e.seq) = false := by
    rw [List.any_eq_false]
    intro e he
    by_cases ht : e.tgt = i.here
    · simp [hHold e he ht]
    · simp [ht]
  have hSources : i.checkSources2 [] = .ok () := by simp [Ix.checkSources2, guardStop]
  simp only [Ix.checkLocal, hg, if_false, Ix.checkHold, hPending, hLate, Bool.or_self, guardStop_false, Bool.false_eq_true, hSources,
    hRel, Ix.checkRelease, Bool.false_and, bind, Except.bind]

/-! ### The anchor -/

theorem needAnchor_home {i : Ix} (h : i.s.atAnchor i.x = true) (lsel : BitVec 4) : i.needAnchor lsel = .ok () := if_pos h

/-- A fragment away from its anchor, which no hint defers, has to leave for it (R40). -/
theorem needAnchor_away {i : Ix} (h : i.s.atAnchor i.x = false) (hTrap : i.x.trap = none)
    (hHints : ∀ c ∈ (i.s.core i.x.gc).hints, c.target ≠ coreHearth (i.s.anchorOf i.x)) (lsel : BitVec 4) :
    i.needAnchor lsel = .error (.anchor lsel) := by
  unfold Ix.needAnchor
  simp only [h, handler_of_trap hTrap, checkHints_one i _ hHints, Bool.false_eq_true, if_false, bind, Except.bind]

/-- A fragment that has to leave for its anchor does so, and nothing of the instruction takes effect. -/
theorem run_anchor {i : Ix} (hg : i.g ≠ 0) (hTrap : i.x.trap = none) (lsel : BitVec 4) : i.run (.error (.anchor lsel)) =
    i.sendLanes i.s i.e.mask (coreHearth (i.s.anchorOf i.x)) (lsel.setWidth 8) true 0 := by
  unfold Ix.run Ix.stop
  rw [if_neg hg]
  simp only [handler_of_trap hTrap, Bool.false_eq_true, if_false]

/-! ### Going on -/

theorem doneFor_frag (i : Ix) (s : State) {m : LaneMask} (hm : m ≠ 0) : (i.doneFor s m).frag i.f =
    { (s.frag i.f).complete i.e.prio i.e.pc i.next m with
        hinted := (s.frag i.f).hinted.filter (· ≠ (i.e.prio, i.e.pc)) } := by
  unfold Ix.doneFor
  rw [if_neg hm, modFrag_frag, if_pos rfl]

/-- Lanes go on from a fragment whose frontier, loops and repeat state are those of the issue. -/
theorem doneFor_wentOn (i : Ix) (s u : State) (hm : i.e.mask ≠ 0) (hEntries : (u.frag i.f).entries = (s.frag i.f).entries)
    (hLoops : (u.frag i.f).loops = (s.frag i.f).loops) (hRep : (u.frag i.f).rep = (s.frag i.f).rep)
    (hRepc : (u.frag i.f).repc = (s.frag i.f).repc) : WentOn s (i.doneFor u i.e.mask) i := by
  unfold WentOn
  rw [doneFor_frag i u hm]
  exact complete_entries _ _ _ _ _ _ hEntries hLoops hRep hRepc

/-- A guard-true lane is a lane of the issuing entry. -/
theorem mask_ne_zero {s : State} {hd : Hdr} (hg : (Ix.of s hd).g ≠ 0) : (Ix.of s hd).e.mask ≠ 0 := by
  intro hm
  apply hg
  show (Ix.of s hd).e.mask &&& _ = 0
  rw [hm]
  exact BitVec.zero_and

/-- A relaxed access that reads records changes the counts of releases that the fragment has read, and nothing else of it. -/
theorem drainAfter_relaxed (i : Ix) (sc : Scope) (x : Frag) : i.drainAfter false false sc x = x := by
  simp [Ix.drainAfter]

/-- What the machine holds when a relaxed access that performs nothing has gone on. -/
theorem visited_relaxed (i : Ix) (hx : i.x = i.s.frag i.f) (hm : i.e.mask ≠ 0) (used : Bool) (sc : Scope) (recs : List RelRec) :
    let t := i.doneFor ((i.countUse used i.s).modFrag i.f fun y => i.drainAfter false false sc (y.reads recs)) i.e.mask
    (∀ a, t.byte a = i.s.byte a) ∧ t.hoists = i.s.hoists ∧ t.net = i.s.net ∧ (t.frag i.f).place = i.x.place ∧ WentOn i.s t i := by
  let u := (i.countUse used i.s).modFrag i.f fun y => i.drainAfter false false sc (y.reads recs)
  have hRest := doneFor_rest i u i.e.mask
  have hFrag : u.frag i.f = (i.s.frag i.f).reads recs := by
    rw [modFrag_frag, if_pos rfl, drainAfter_relaxed, countUse_frag]
  refine ⟨?_, ?_, ?_, ?_, ?_⟩
  · exact fun a => congrArg (Sparse.get (0 : Byte) · a) ((congrArg State.mem hRest :).trans (countUse_mem i used i.s))
  · exact (congrArg State.hoists hRest :).trans (countUse_hoists i used i.s)
  · exact (congrArg State.net hRest :).trans (countUse_net i used i.s)
  · rw [doneFor_frag i u hm, complete_place, hFrag, hx]
    rfl
  · exact doneFor_wentOn i i.s u hm (by rw [hFrag]; rfl) (by rw [hFrag]; rfl) (by rw [hFrag]; rfl) (by rw [hFrag]; rfl)

/-- Only the frontier, the end of the loop, the repeat state and the hints of the issuing fragment change when an entry goes on. -/
theorem doneFor_kept (i : Ix) (hm : i.e.mask ≠ 0) : KeptMem i.s (i.doneFor i.s i.e.mask) i [] nothing nowhere := by
  let x := i.s.frag i.f
  have hRest := complete_rest x i.e.prio i.e.pc i.next i.e.mask
  unfold Ix.doneFor
  rw [if_neg hm]
  exact {
    memory := fun _ _ => rfl
    marks := fun _ _ => rfl
    frags := fun f hf => by
      rw [modFrag_frag, if_neg hf]
      exact ⟨rfl, fun _ => rfl⟩
    hoists := fun _ _ => rfl
    elems := fun _ _ _ _ => ⟨rfl, rfl⟩
    preds := fun _ _ _ => rfl
    masks := fun _ _ => rfl
    bits := fun _ => ⟨fun _ => rfl, fun _ => rfl⟩
    hoist := rfl
    sregs := fun q _ => by
      rw [modFrag_frag, if_pos rfl]
      exact ⟨congrArg (Sparse.get 0 · q.toNat) (complete_sregs ..), congrArg (·.getLsbD q.toNat) (complete_spoison ..)⟩
    frag := by
      rw [modFrag_frag, if_pos rfl]
      exact (congrArg (fun y : Frag => { y with
        entries := x.entries, frozen := x.frozen, atEnd := x.atEnd, rep := x.rep, repc := x.repc, sregs := x.sregs
        spoison := x.spoison, vabsent := x.vabsent, sabsent := x.sabsent, fills := x.fills, vempty := x.vempty, sempty := x.sempty
        drain := x.drain, seen := x.seen, hinted := x.hinted, backoff := x.backoff, pause := x.pause }) hRest :)
    casts := fun _ => rfl
    spads := fun _ _ _ => rfl
    smarks := fun _ _ _ => rfl
    cores := fun _ => rfl
    hearths := fun _ => rfl
    rest := rfl }

/-! ### The obligation -/

/-- Settles O19: the lanes leave by `Ix.sendLanes`, whole because they are all that the fragment has, and GO at its own home
performs nothing. -/
theorem remoteAccessesMigrate : Obligations.RemoteAccessesMigrate := by
  unfold Obligations.RemoteAccessesMigrate
  refine ⟨?_, ?_, ?_⟩
  · intro h o ty x home s i size va hg hWhole hMaskG hlt hne hTrap hRead hWrite hGrant hHome hHints
    have hCheck : i.checkHints (i.homesOf fun l => i.pa (va l)) = .ok () := by
      rw [homesOf_remote hHome hg hlt hne]
      exact checkHints_one _ _ hHints
    refine ⟨_, congrArg Host.Outcome.next (visit_remote false _ hg hRead (checkDests_ok _ _ _ hWrite.full) (maskHome_at _ _ _ _ hWrite)
      hGrant hHome hCheck hMaskG hlt hne hTrap), ?_⟩
    rw [hWhole] at hg ⊢
    exact sendLanes_departs i rfl home _ false _ hg
  · intro h o sc disp lsel home s i va hg hWhole hMaskG hlt hTrap hRead hGrant hHome hStay hHints
    let x : MemX := { lsel, so := { scope := .domain, order := .relaxed, promote := false, pass := false }, scale := sc, disp }
    have hCheck : i.checkHints (i.homesOf fun l => i.pa (va l)) = .ok () := by
      by_cases hh : home = i.here
      · rw [homesOf_here hHome hg hh]
        exact checkHints_none i _ fun _ _ hc => by simp at hc
      · rw [homesOf_remote hHome hg hlt hh]
        exact checkHints_one _ _ hHints
    by_cases hh : home = i.here
    · obtain ⟨hLate, hHold⟩ := hStay hh
      have hLocal : i.checkLocal i.g false x.so = .ok () := checkLocal_relaxed i hg hLate hHold x.so rfl
      have hm := mask_ne_zero hg
      have hRun := visit_here (x := x) (ds := []) (masks := .none) false (fun _ s _ => (s, none)) hg hRead rfl rfl hGrant hHome
        hCheck hh hLocal rfl fun _ _ => rfl
      refine ⟨_, congrArg Host.Outcome.next hRun, ?_⟩
      obtain ⟨hByte, hHoists, hNet, hPlace, hWent⟩ := visited_relaxed i rfl hm (i.addrPoison o) .domain
        (i.recordsAt (fun l => i.pa (va l)) 1 i.g)
      exact ⟨hByte, hHoists, hNet, fun hne => absurd hh hne, fun _ => ⟨hPlace, hWent⟩⟩
    · refine ⟨_, congrArg Host.Outcome.next (visit_remote (x := x) (ds := []) (masks := .none) false _ hg hRead rfl rfl hGrant hHome
        hCheck hMaskG hlt hh hTrap), ?_⟩
      rw [hWhole] at hg ⊢
      obtain ⟨hByte, hHoists, hNet, hPlace, hEntries⟩ := sendLanes_departs i rfl home (lsel.setWidth 8) false
        (va (lowestLane i.x.lanes)) hg
      exact ⟨hByte, hHoists, hNet, fun _ => ⟨hPlace, hEntries⟩, fun e => absurd e hh⟩
  · intro h o lsel s i hg
    have hm := mask_ne_zero hg
    have hExec : exec (.goAnchor h o lsel) s = .next (i.run (i.needAnchor lsel >>= fun _ => pure (i.doneFor s i.e.mask))) := rfl
    constructor
    · intro hAnchor
      refine ⟨i.doneFor s i.e.mask, ?_, doneFor_wentOn i s s hm rfl rfl rfl rfl, doneFor_kept i hm⟩
      rw [hExec, needAnchor_home hAnchor]
      exact congrArg Host.Outcome.next (run_ok i _ hg)
    · intro hAnchor hTrap hWhole _ hHints
      have hLanes : i.x.lanes ≠ 0 := hWhole ▸ hm
      refine ⟨i.sendLanes s i.x.lanes (coreHearth (s.anchorOf i.x)) (lsel.setWidth 8) true 0, ?_,
        sendLanes_departs i rfl _ _ true 0 hLanes⟩
      rw [hExec, needAnchor_away hAnchor hTrap hHints, ← hWhole]
      exact congrArg Host.Outcome.next (run_anchor hg hTrap lsel)

end Sys2Proof.Machine
end

section
/-! The turn of a partition up to the fetch: which parts of the state it moves, and what the fetch finds (R34, R77, R312, R313). -/

namespace Sys2Proof.Machine
open Sys2Proof.Claims

/-! ### The moves of the active set and the choice of an entry -/

/-- Of the machine only the issue that is named has changed, and on the cores of `gcs` the active set and the times and the energy of
issues. -/
structure Rescheduled (s t : State) (gcs : Nat → Prop) : Prop where
  cores  : ∀ c, { t.core c with active := (s.core c).active, activeAt := (s.core c).activeAt, readyAt := (s.core c).readyAt,
                                swapped := (s.core c).swapped, issuedAt := (s.core c).issuedAt, issued := (s.core c).issued,
                                spent := (s.core c).spent } = s.core c
  others : ∀ c, ¬ gcs c → t.core c = s.core c
  form   : ∃ is cs, t = { s with iss := is, cores := cs }

namespace Rescheduled

theorem refl (s : State) (gcs : Nat → Prop) : Rescheduled s s gcs := ⟨fun _ => rfl, fun _ _ => rfl, s.iss, s.cores, rfl⟩

theorem trans {s t u : State} {gcs : Nat → Prop} (h : Rescheduled s t gcs) (k : Rescheduled t u gcs) : Rescheduled s u gcs where
  cores c := by rw [← h.cores c, ← k.cores c]
  others c hc := (k.others c hc).trans (h.others c hc)
  form := by
    obtain ⟨_, _, rfl⟩ := h.form
    obtain ⟨is, cs, rfl⟩ := k.form
    exact ⟨is, cs, rfl⟩

/-- A core's schedule moves. -/
theorem setCore (s : State) {gcs : Nat → Prop} (gc : Nat) (k : Core) (hgc : gcs gc)
    (hk : { k with active := (s.core gc).active, activeAt := (s.core gc).activeAt, readyAt := (s.core gc).readyAt,
                   swapped := (s.core gc).swapped, issuedAt := (s.core gc).issuedAt, issued := (s.core gc).issued,
                   spent := (s.core gc).spent } = s.core gc) : Rescheduled s (s.setCore gc k) gcs where
  cores c := by
    rw [setCore_core]
    split
    · rename_i e
      rw [e, hk]
    · rfl
  others c hc := by
    rw [setCore_core, if_neg]
    rintro rfl
    exact hc hgc
  form := ⟨s.iss, _, rfl⟩

end Rescheduled

theorem fillActive_rescheduled {gcs : Nat → Prop} (gc part : Nat) (hgc : gcs gc) (n : Nat) (s : State) :
    Rescheduled s (s.fillActive gc part n) gcs := by
  induction n generalizing s with
  | zero => exact .refl s gcs
  | succ n ih =>
    have hLeave : Rescheduled s (s.setCore gc { s.core gc with
        active := Sparse.set [] (s.core gc).active part ((Sparse.get [] (s.core gc).active part).filter (s.slotBusy gc)) }) gcs :=
      .setCore s gc _ hgc rfl
    rw [State.fillActive]
    split
    · exact hLeave
    · split
      · refine hLeave.trans (.trans (.setCore _ gc _ hgc ?_) (ih _))
        rw [setCore_core, if_pos rfl]
      · exact hLeave

theorem exchange_rescheduled {gcs : Nat → Prop} (gc part : Nat) (hgc : gcs gc) (s : State) :
    Rescheduled s (s.exchange gc part) gcs := by
  rw [State.exchange]
  split
  · exact .setCore s gc _ hgc rfl
  · exact .refl s gcs

/-- The state in which the entry that `is` names issues: its core has noted the issue. -/
def State.beforeIssue (s : State) (is : Issue) : State :=
  let x := s.frag is.frag
  let lanes := (((findEntry x.entries is.prio is.pc).map fun e => (lanesOf e.mask).length).getD 0)
  ({ s with iss := is } : State).modCore x.gc fun c => { c with
    issuedAt := Sparse.set 0 c.issuedAt x.slot s.now
    issued := (x.slot / 32) :: c.issued
    spent := c.spent + lanes * ((s.pkg (corePkg x.gc)).bellows.wIssue * 10 ^ 6 / 35200) }

theorem beforeIssue_rescheduled {gcs : Nat → Prop} (s : State) (is : Issue) (hgc : gcs (s.frag is.frag).gc) :
    Rescheduled s (s.beforeIssue is) gcs := by
  have hName : Rescheduled s { s with iss := is } gcs := ⟨fun _ => rfl, fun _ _ => rfl, is, s.cores, rfl⟩
  exact hName.trans (.setCore _ (s.frag is.frag).gc _ hgc rfl)

/-- The state in which a partition issues `is` in its turn. -/
def State.turnIssue (s : State) (gc part : Nat) (is : Issue) : State := ((s.fillActive gc part 9).exchange gc part).beforeIssue is

theorem turnIssue_rescheduled (s : State) (gc part : Nat) (is : Issue) :
    Rescheduled s (s.turnIssue gc part is) fun c => c = gc ∨ c = (s.frag is.frag).gc := by
  have h := (fillActive_rescheduled (gcs := fun c => c = gc ∨ c = (s.frag is.frag).gc) gc part (.inl rfl) 9 s).trans
    (exchange_rescheduled gc part (.inl rfl) _)
  refine h.trans (beforeIssue_rescheduled _ is (.inr ?_))
  obtain ⟨_, _, e⟩ := h.form
  rw [e]
  rfl

/-! ### What the fetch sees -/

section Fetch

variable {s t : State} {gcs : Nat → Prop} (h : Rescheduled s t gcs)
include h

theorem Rescheduled.tlb (c : Nat) : (t.core c).tlb = (s.core c).tlb := (congrArg Core.tlb (h.cores c) :)
theorem Rescheduled.hosts (c : Nat) : (t.core c).hosts = (s.core c).hosts := (congrArg Core.hosts (h.cores c) :)
theorem Rescheduled.icache (c : Nat) : (t.core c).icache = (s.core c).icache := (congrArg Core.icache (h.cores c) :)
theorem Rescheduled.icbad (c : Nat) : (t.core c).icbad = (s.core c).icbad := (congrArg Core.icbad (h.cores c) :)

/-- The issue has the fragment, the hoist and the entry that it had before the turn moved anything. -/
theorem Rescheduled.bare : t.bare = { ({ s with iss := t.iss } : State).bare with s := t } := by
  obtain ⟨_, _, rfl⟩ := h.form
  rfl

theorem Rescheduled.translate (va : Nat) : t.bare.translate va = ({ s with iss := t.iss } : State).bare.translate va := by
  have hLookup (c : Nat) (ctx : BitVec 8) : (t.core c).lookup ctx va = (s.core c).lookup ctx va := by
    unfold Core.lookup
    rw [h.tlb]
  have hFail : t.bare.walkFailed va = ({ s with iss := t.iss } : State).bare.walkFailed va := by rw [h.bare]; rfl
  have hCtx : t.bare.s.ctxOf t.bare.x = s.ctxOf (s.frag t.iss.frag) := by
    obtain ⟨_, _, rfl⟩ := h.form
    rfl
  have hx : t.bare.x = s.frag t.iss.frag := by
    obtain ⟨_, _, rfl⟩ := h.form
    rfl
  unfold Ix.translate
  rw [hFail, hCtx, hx]
  show (if _ then Tr.fail else match (t.core _).lookup _ va with | some e => _ | none => _) = _
  rw [hLookup]
  rfl

theorem Rescheduled.fetchable (leaf : DWord) (pa : Nat) :
    t.bare.fetchable leaf pa = ({ s with iss := t.iss } : State).bare.fetchable leaf pa := by
  have hBarred (c ctx : Nat) : t.coreBarred c ctx pa = s.coreBarred c ctx pa := by
    unfold State.coreBarred State.hostAt
    rw [h.hosts]
    obtain ⟨_, _, rfl⟩ := h.form
    rfl
  rw [h.bare]
  show (leafX leaf && !t.coreBarred _ _ pa && _ && _ && _ && _) = _
  rw [hBarred]
  obtain ⟨_, _, rfl⟩ := h.form
  rfl

end Fetch

/-! ### The fetch of an entry (R77) -/

section FetchCases

variable (i : Ix)

/-- The block of an issue that its core keeps. -/
def Ix.keptBlock : Option (BitVec 256) := Sparse.get none (i.s.core i.x.gc).icache (icKey (i.s.ctxOf i.x) (blockOf i.e.pc))

/-- The check of that block has failed. -/
def Ix.keptBad : Bool := (i.s.core i.x.gc).icbad.contains (icKey (i.s.ctxOf i.x) (blockOf i.e.pc))

theorem fetch_kept {b : BitVec 256} (hk : i.keptBlock = some b) :
    i.fetch = if i.keptBad then .poison (i.blockPa (blockOf i.e.pc)) true else .block b false := by
  unfold Ix.keptBlock at hk
  unfold Ix.fetch Ix.keptBad
  simp only [hk]

theorem fetch_miss (hk : i.keptBlock = none) (ht : i.translate (blockOf i.e.pc) = .miss) : i.fetch = .walk := by
  unfold Ix.keptBlock at hk
  unfold Ix.fetch
  simp only [hk, ht]

theorem fetch_access (hk : i.keptBlock = none) (ht : i.translate (blockOf i.e.pc) = .fail ∨
    ∃ leaf pa, i.translate (blockOf i.e.pc) = .ok leaf pa ∧ i.fetchable leaf pa = false) : i.fetch = .access := by
  unfold Ix.keptBlock at hk
  unfold Ix.fetch
  obtain ht | ⟨leaf, pa, ht, hf⟩ := ht
  · simp only [hk, ht]
  · simp only [hk, ht, hf, Bool.not_false, if_true]

theorem fetch_read (hk : i.keptBlock = none) {leaf : DWord} {pa : Nat} (ht : i.translate (blockOf i.e.pc) = .ok leaf pa)
    (hf : i.fetchable leaf pa = true) :
    i.fetch = if i.s.poisoned pa 32 then .poison pa false else .block (i.s.blockAt pa) true := by
  unfold Ix.keptBlock at hk
  unfold Ix.fetch
  simp only [hk, ht, hf, Bool.not_true, Bool.false_eq_true, if_false]

end FetchCases

theorem readLE_lt (s : State) (n : Nat) : ∀ a : Nat, s.readLE a n < 256 ^ n := by
  induction n with
  | zero => intro _; exact Nat.one_pos
  | succ n ih =>
    intro a
    have hb : (s.byte a).toNat < 256 := (s.byte a).isLt
    have hr := ih (a + 1)
    rw [State.readLE, Nat.pow_succ]
    omega

/-- The bytes of a block that stands in memory. -/
theorem blockBytes_blockAt (s : State) (pa ofs : Nat) :
    blockBytes (s.blockAt pa) ofs = (List.range (32 - ofs)).map fun k => s.byte (pa + ofs + k) := by
  unfold blockBytes State.blockAt
  apply List.map_congr_left
  intro k hk
  have hk := List.mem_range.1 hk
  apply BitVec.eq_of_toNat_eq
  have hLow : s.readLE pa 32 < 2 ^ 256 := by
    rw [show (2 : Nat) ^ 256 = 256 ^ 32 by norm_num]
    exact readLE_lt s 32 pa
  have hByte := readLE_div_mod s 32 pa (ofs + k) (by omega)
  rw [BitVec.extractLsb'_toNat, BitVec.toNat_ofNat, Nat.mod_eq_of_lt hLow, Nat.shiftRight_eq_div_pow,
    show 2 ^ (8 * (ofs + k)) = 256 ^ (ofs + k) by rw [Nat.pow_mul], Nat.add_assoc]
  exact hByte

/-! ### What runs (R97, R344) -/

theorem onNext_onNext (r : Host.Outcome State Fault Refusal) (f g : State → State) :
    onNext (onNext r f) g = onNext r fun t => g (f t) := by
  cases r <;> rfl

section Runs

variable (t : State) (fin : State → State) (b : BitVec 256) (hprio : t.bare.e.prio = t.iss.prio) (hpc : t.bare.e.pc = t.iss.pc)
include hprio hpc

/-- The pins of the issuing instruction are dropped. -/
theorem unpinned_state : t.bare.unpinned.s = t.dropPins t.iss.frag t.iss.prio t.iss.pc := by
  unfold Ix.unpinned
  rw [hprio, hpc]
  rfl

/-- The instruction that the entry issues where nothing repeats (R346). -/
theorem issued_once {n : Instr} (h : t.bare.x.repeats t.iss.prio t.iss.pc = false) : t.bare.issued n = .ok n := by
  unfold Ix.issued
  rw [hprio, hpc, h]
  rfl

/-- The repetition that the entry issues (R344, R345). -/
theorem issued_repeat {n : Instr} (h : t.bare.x.repeats t.iss.prio t.iss.pc = true) : t.bare.issued n =
    let st := Strides.ofByte (t.bare.x.repc.toNat / 2 ^ 24)
    let k := t.bare.x.repc.toNat % 256
    if !repeatable n st then .error Cause.illegal
    else if !repInWindow n st k then .error Cause.window
    else match repetition n st k with
      | .ok r => .ok r
      | .error _ => .error Cause.illegal := by
  unfold Ix.issued
  rw [hprio, hpc, h]
  rfl

/-- A block that has been read runs what its bytes from the PC begin with. -/
theorem runBlock_runs : Runs (onNext (onNext (t.bare.runBlock b) fun u => u.afterIssue t.iss) fin) t fin t.bare.x t.iss t.bare.e
    (blockBytes b (t.iss.pc.toNat % 32)) := by
  have hTraps (c : BitVec 8) (r : Host.Outcome State Fault Refusal)
      (h : r = .next (t.bare.unpinned.s.raise t.bare.f t.bare.e c 0 t.bare.e.mask)) :
      onNext (onNext r fun u => u.afterIssue t.iss) fin =
        .next (fin (((t.dropPins t.iss.frag t.iss.prio t.iss.pc).raise t.iss.frag t.bare.e c 0 t.bare.e.mask).afterIssue
          t.iss)) := by
    rw [h, unpinned_state t hprio hpc]
    rfl
  refine ⟨fun n hn hr => ?_, fun n hn hr => ⟨fun hRep => ?_, fun hRep hWin => ?_, fun hRep hWin => ⟨fun m hm => ?_, fun err hm => ?_⟩⟩,
    fun err hd => hTraps _ _ ?_⟩
  · have hIssued := issued_once t hprio hpc (n := n) hr
    unfold Ix.runBlock
    simp only [hpc, hn, hIssued, onNext_onNext]
    rfl
  · refine hTraps Cause.illegal _ ?_
    have hIssued := issued_repeat t hprio hpc (n := n) hr
    unfold Ix.runBlock
    simp only [hpc, hn, hIssued, hRep, Bool.not_false, if_true]
  · refine hTraps Cause.window _ ?_
    have hIssued := issued_repeat t hprio hpc (n := n) hr
    unfold Ix.runBlock
    simp only [hpc, hn, hIssued, hRep, hWin, Bool.not_false, Bool.not_true, Bool.false_eq_true, if_true, if_false]
  · have hIssued := issued_repeat t hprio hpc (n := n) hr
    unfold Ix.runBlock
    simp only [hpc, hn, hIssued, hRep, hWin, hm, Bool.not_true, Bool.false_eq_true, if_false, onNext_onNext]
    rfl
  · refine hTraps Cause.illegal _ ?_
    have hIssued := issued_repeat t hprio hpc (n := n) hr
    unfold Ix.runBlock
    simp only [hpc, hn, hIssued, hRep, hWin, hm, Bool.not_true, Bool.false_eq_true, if_false]
  · unfold Ix.runBlock
    simp only [hpc, hd]
    rfl

end Runs

end Sys2Proof.Machine
end

section
/-! What a kill does to its pour (R414), and what leaves the pours alone. -/

namespace Sys2Proof.Machine
open Sys2Proof.Claims

/-- A part of the state that no step of a fold changes is as before. -/
theorem foldl_keeps {α β : Type} (part : State → β) (f : State → α → State) (h : ∀ s x, part (f s x) = part s) (l : List α)
    (s : State) : part (l.foldl f s) = part s := by
  induction l generalizing s with
  | nil => rfl
  | cons x t ih => exact (ih (f s x)).trans (h s x)

/-! ### The pours -/

theorem record_pours (s : State) (gh src cls ctx flags cnt addr detail : Nat) :
    (s.record gh src cls ctx flags cnt addr detail).pours = s.pours := by
  unfold State.record
  rw [modHearth_pours, (writeMem_only _ _ _ _ _).pours, bumpSeq_pours]
  split <;> rfl

theorem unpin_pours (s : State) (at_ : Nat) : (s.unpin at_).pours = s.pours := (rewrite_only _ _ _ _ _).pours

theorem endFrag_pours (s : State) (f : Nat) : (s.endFrag f).pours = s.pours :=
  foldl_keeps State.pours State.unpin unpin_pours _ s

theorem clearCast_pours (s : State) (c : Nat) : (s.clearCast c).pours = s.pours := by
  unfold State.clearCast
  refine (foldl_keeps State.pours _ ?_ _ _).trans ?_
  · exact fun a gh => modHearth_pours ..
  · rw [modCore_pours]
    exact foldl_keeps State.pours State.endFrag endFrag_pours _ s

/-- KILL applied to a live pour sets its state (R414). -/
theorem beginKill_pours (s : State) (p : Nat) (h : (s.pour p).st.live = true) :
    (s.beginKill p).pours = (s.setPour p { s.pour p with st := .killing, unpinned := [] }).pours := by
  unfold State.beginKill
  rw [if_pos h]
  refine (foldl_keeps State.pours State.clearCast clearCast_pours _ _).trans ?_
  exact foldl_keeps State.pours _ (fun a gh => modHearth_pours ..) _ _

theorem beginKill_killing (s : State) (p : Nat) (h : (s.pour p).st = .accepted) : ((s.beginKill p).pour p).st = .killing := by
  have hPours := beginKill_pours s p (by rw [h]; rfl)
  have hPour : (s.beginKill p).pour p = (s.setPour p { s.pour p with st := .killing, unpinned := [] }).pour p :=
    congrArg (Sparse.get Pour.none · p) hPours
  rw [hPour, setPour_pour, if_pos rfl]

/-! ### What follows an issue -/

theorem queueWalk_pours (s : State) (f : Nat) (prio : BitVec 8) (pc : DWord) : (s.queueWalk f prio pc).pours = s.pours := by
  rw [State.queueWalk]
  split <;> rfl

theorem clearWalks_pours (s : State) (f : Nat) (prio : BitVec 8) (pc : DWord) : (s.clearWalks f prio pc).pours = s.pours := by
  rw [State.clearWalks]
  split
  · rfl
  · split <;> rfl

theorem afterIssue_pours (s : State) (is : Issue) : (s.afterIssue is).pours = s.pours :=
  (clearWalks_pours ..).trans (queueWalk_pours ..)

theorem countFlits_pours (s : State) (gc n : Nat) : (s.countFlits gc n).pours = s.pours := by
  unfold State.countFlits
  split <;> rfl

theorem countBytes_pours (s : State) (gc n : Nat) : (s.countBytes gc n).pours = s.pours := by
  unfold State.countBytes
  split <;> rfl

theorem meter_pours (s old : State) : (s.meter old).pours = s.pours := by
  unfold State.meter
  refine (foldl_keeps State.pours _ ?_ _ _).trans (foldl_keeps State.pours _ (fun a p => countFlits_pours ..) _ _)
  intro a p
  dsimp only
  split <;> split <;> simp only [countBytes_pours, countFlits_pours]

end Sys2Proof.Machine
end

section
/-! O57: what a step does when the turn of a partition comes (R77, R97, R296, R313, R396, R418). -/

namespace Sys2Proof.Machine
open Sys2Proof.Claims

/-! ### The state in which an entry issues -/

/-- An asynchronous cause comes before the instruction (R396). -/
def Ix.asyncFirst (i : Ix) : Bool := decide (i.x.trap = none ∧ i.x.async ≠ [])

/-- The core of an issue keeps a block that its fetch has read now (R77). -/
def Ix.afterFetch (i : Ix) : State :=
  if i.asyncFirst then i.s
  else match i.fetch with
    | .block b true => i.keepBlock b
    | _ => i.s

theorem afterFetch_stale {i : Ix} (h : i.asyncFirst = true ∨ ∀ b, i.fetch ≠ .block b true) : i.afterFetch = i.s := by
  unfold Ix.afterFetch
  split
  · rfl
  · next ha =>
    split
    · next b hb => exact absurd hb ((h.resolve_left ha) b)
    · rfl

theorem afterFetch_fresh {i : Ix} {b : BitVec 256} (ha : i.asyncFirst = false) (h : i.fetch = .block b true) :
    i.afterFetch = i.keepBlock b := by
  unfold Ix.afterFetch
  rw [ha, h]
  rfl

/-- What the schedule and the fetch change is what `Issues` allows. -/
theorem issues_of_rescheduled {u t : State} {gc : Nat} {is : Issue}
    (h : Rescheduled u t fun c => c = gc ∨ c = (u.frag is.frag).gc) (hiss : t.iss = is) : Issues u t gc u.agenda is where
  named := hiss
  agenda := by
    obtain ⟨_, _, rfl⟩ := h.form
    rfl
  cores c := (congrArg (fun k : Core => { k with icache := (u.core c).icache, icbad := (u.core c).icbad }) (h.cores c) :)
  others c h1 h2 := h.others c (by simp [h1, h2])
  rest := by
    obtain ⟨_, _, rfl⟩ := h.form
    rfl

theorem issues_keepBlock {u t : State} {gc : Nat} {is : Issue} {ts : List Turn} (h : Issues u t gc ts is)
    (hx : t.bare.x = u.frag is.frag) (b : BitVec 256) : Issues u (t.bare.keepBlock b) gc ts is := by
  have hCore (c : Nat) : (t.bare.keepBlock b).core c = if c = t.bare.x.gc then
      (t.core t.bare.x.gc).keepBlock (icKey (t.ctxOf t.bare.x) (blockOf t.bare.e.pc)) b else t.core c := modCore_core ..
  refine ⟨h.named, h.agenda, fun c => ?_, fun c h1 h2 => ?_, h.rest⟩
  · rw [hCore]
    split
    · rename_i e
      rw [← e]
      exact h.cores c
    · exact h.cores c
  · rw [hCore, if_neg (by rw [hx]; exact h2)]
    exact h.others c h1 h2

/-! ### A turn -/

section Turn

variable {s : State} {gc part : Nat} {ts : List Turn} {is : Issue}

/-- The turn of a partition takes place after one clock, and Bellows counts what it has moved (R360). -/
theorem step_issueTurn (h : s.agenda = .issue gc part :: ts ∨ (s.agenda = .together [(gc, part)] :: ts ∧
      part ∉ (({ s.passClocks 1 with agenda := ts } : State).core gc).issued)) :
    step s = onNext (({ s.passClocks 1 with agenda := ts } : State).issueTurn gc part) fun v =>
      v.meter { s.passClocks 1 with agenda := ts } := by
  unfold step
  obtain h | ⟨h, hOnce⟩ := h
  · rw [h]
    rfl
  · rw [h]
    have hOne : State.issueAll { s.passClocks 1 with agenda := ts } [(gc, part)] =
        State.issueTurn { s.passClocks 1 with agenda := ts } gc part := by
      unfold State.issueAll
      rw [if_neg (by simpa using hOnce)]
      unfold State.issueAll
      split
      · next e => exact e.symm
      · rfl
    exact congrArg (onNext · _) hOne

/-- The entry that R313 chooses issues. -/
theorem issueTurn_chosen {u : State} (h : ((u.fillActive gc part 9).exchange gc part).choose gc part = some is) :
    u.issueTurn gc part = onNext (((u.fillActive gc part 9).exchange gc part).runEntry is) fun v => v.leaveActive gc part := by
  unfold State.issueTurn
  simp only [h]

/-- An asynchronous cause that waits is raised instead of the instruction (R396). -/
theorem runEntry_async (u : State) {c : Async} {cs : List Async} (hTrap : (u.beforeIssue is).bare.x.trap = none)
    (hAsync : (u.beforeIssue is).bare.x.async = c :: cs) : u.runEntry is =
      .next (((u.beforeIssue is).bare.unpinned.s.modFrag is.frag fun y => { y with async := cs }).raise is.frag
        (u.beforeIssue is).bare.e c.code c.addr (u.beforeIssue is).bare.e.mask) := by
  show (match (u.beforeIssue is).bare.x.trap, (u.beforeIssue is).bare.x.async with | none, c :: cs => _ | _, _ => _) = _
  rw [hTrap, hAsync]
  rfl

theorem runEntry_fetch (u : State) (h : (u.beforeIssue is).bare.asyncFirst = false) :
    u.runEntry is = onNext (u.beforeIssue is).bare.fetchAndRun fun t => t.afterIssue is := by
  show (match (u.beforeIssue is).bare.x.trap, (u.beforeIssue is).bare.x.async with | none, c :: cs => _ | _, _ => _) = _
  unfold Ix.asyncFirst at h
  cases hTrap : (u.beforeIssue is).bare.x.trap with
  | some r => rfl
  | none =>
    cases hAsync : (u.beforeIssue is).bare.x.async with
    | nil => rfl
    | cons c cs => simp [hTrap, hAsync] at h

end Turn

/-! ### A poisoned block -/

/-- A poisoned block ends the pour of a fragment that is not in handler mode (R395, R418). -/
theorem fetchPoison_killing (i : Ix) (pa : Nat) (kept : Bool) (hTrap : i.x.trap = none)
    (h : (i.s.pour (i.s.pourOf i.x)).st = .accepted) : ((i.fetchPoison pa kept).pour (i.s.pourOf i.x)).st = .killing := by
  have hCount (u : State) : (if kept then u.countCore i.x.gc 1 else u.countHearth i.here 1).pours = u.pours := by
    split <;> rfl
  unfold Ix.fetchPoison
  rw [if_neg (by simp [handler_of_trap hTrap])]
  refine beginKill_killing _ _ ?_
  have hPour := congrArg (Sparse.get Pour.none · (i.s.pourOf i.x)) ((hCount _).trans (record_pours i.s i.here (recordSrc i.x.gc)
    (if kept then 4 else 2) (i.s.ctxOf i.x).toNat 2 (if kept then counterNumber 1 i.x.gc 1 else counterNumber 0 i.here 1) pa 0))
  exact (congrArg Pour.st hPour).trans h

/-! ### The obligation -/

theorem findEntry_some {es : List Entry} {prio : BitVec 8} {pc : DWord} {e : Entry} (h : findEntry es prio pc = some e) :
    e.prio = prio ∧ e.pc = pc := by
  have := List.find?_some h
  simpa using this

/-- The address of the block that holds a PC. -/
theorem blockOf_eq (pc : DWord) : blockOf pc = pc.toNat - pc.toNat % 32 := by
  unfold blockOf
  omega

/-- What an entry sees when it issues in a turn is what stood there before the turn. -/
structure Sees (u T : State) (is : Issue) (e : Entry) : Prop where
  frag      : T.bare.x = u.frag is.frag
  entry     : T.bare.e = e
  prio      : e.prio = is.prio
  pc        : e.pc = is.pc
  kept      : T.bare.keptBlock = Sparse.get none (u.core (u.frag is.frag).gc).icache
                (icKey (u.ctxOf (u.frag is.frag)) (is.pc.toNat - is.pc.toNat % 32))
  bad       : T.bare.keptBad = (u.core (u.frag is.frag).gc).icbad.contains
                (icKey (u.ctxOf (u.frag is.frag)) (is.pc.toNat - is.pc.toNat % 32))
  context   : T.ctxOf (u.frag is.frag) = u.ctxOf (u.frag is.frag)
  translate : ∀ va, T.bare.translate va = ({ u with iss := is } : State).bare.translate va
  fetchable : ∀ leaf pa, T.bare.fetchable leaf pa = ({ u with iss := is } : State).bare.fetchable leaf pa
  mem       : T.mem = u.mem ∧ T.marks = u.marks
  pours     : T.pours = u.pours ∧ T.pourOf (u.frag is.frag) = u.pourOf (u.frag is.frag)

theorem turnIssue_sees (u : State) (gc part : Nat) {is : Issue} {e : Entry}
    (h : findEntry (u.frag is.frag).entries is.prio is.pc = some e) : Sees u (u.turnIssue gc part is) is e := by
  have hRes := turnIssue_rescheduled u gc part is
  have hBare : (u.turnIssue gc part is).bare = { ({ u with iss := is } : State).bare with s := u.turnIssue gc part is } := hRes.bare
  have hForm := hRes.form
  have hCaches := hRes.icache
  have hBads := hRes.icbad
  obtain ⟨hprio, hpc⟩ := findEntry_some h
  have hx : (u.turnIssue gc part is).bare.x = u.frag is.frag := by
    rw [hBare]
    rfl
  have he : (u.turnIssue gc part is).bare.e = e := by
    rw [hBare]
    show (findEntry (u.frag is.frag).entries is.prio is.pc).getD _ = e
    rw [h]
    rfl
  have hBlk : blockOf (u.turnIssue gc part is).bare.e.pc = is.pc.toNat - is.pc.toNat % 32 := by
    rw [he, hpc]
    exact blockOf_eq is.pc
  have hCtx : (u.turnIssue gc part is).ctxOf (u.frag is.frag) = u.ctxOf (u.frag is.frag) := by
    obtain ⟨_, _, hT⟩ := hForm
    rw [hT]
    rfl
  have hs : (u.turnIssue gc part is).bare.s = u.turnIssue gc part is := rfl
  refine ⟨hx, he, hprio, hpc, ?_, ?_, hCtx, hRes.translate, hRes.fetchable, ?_, ?_⟩
  · rw [Ix.keptBlock, hBlk, hx, hs, hCtx, hCaches]
  · rw [Ix.keptBad, hBlk, hx, hs, hCtx, hBads]
  · obtain ⟨_, _, hT⟩ := hForm
    rw [hT]
    exact ⟨rfl, rfl⟩
  · obtain ⟨_, _, hT⟩ := hForm
    rw [hT]
    exact ⟨rfl, rfl⟩

theorem poisoned_congr {s t : State} (h : t.marks = s.marks) (pa n : Nat) : t.poisoned pa n = s.poisoned pa n := by
  unfold State.poisoned
  rw [show t.mark = s.mark from funext fun w => congrArg (Sparse.get false · w) h]

theorem blockAt_congr {s t : State} (h : t.mem = s.mem) (pa : Nat) : t.blockAt pa = s.blockAt pa := by
  unfold State.blockAt
  rw [readLE_congr 32 s t pa fun k _ => congrArg (Sparse.get (0 : Byte) · (pa + k)) h]

section Chosen

variable {u T : State} {is : Issue} {e : Entry} (fin : State → State) (hSees : Sees u T is e) (hiss : T.iss = is)
include hSees hiss

/-- A block at the PC runs its instruction, whether the core keeps it or reads it now. -/
theorem runBlock_sees (K : State) (hK : K.bare = { T.bare with s := K }) (hKiss : K.iss = T.iss) (b : BitVec 256)
    (r : Host.Outcome State Fault Refusal) (h : r = onNext (onNext (K.bare.runBlock b) fun v => v.afterIssue is) fin) :
    Runs r K fin (u.frag is.frag) is e (blockBytes b (is.pc.toNat % 32)) := by
  have hx : K.bare.x = u.frag is.frag := by rw [hK]; exact hSees.frag
  have he : K.bare.e = e := by rw [hK]; exact hSees.entry
  have hRuns := runBlock_runs K fin b (by rw [he, hSees.prio, hKiss, hiss]) (by rw [he, hSees.pc, hKiss, hiss])
  rw [hx, he, hKiss, hiss] at hRuns
  rw [h]
  exact hRuns

theorem unpinned_sees : T.bare.unpinned.s = T.dropPins is.frag is.prio is.pc := by
  have h := unpinned_state T (by rw [hSees.entry, hSees.prio, hiss]) (by rw [hSees.entry, hSees.pc, hiss])
  rwa [hiss] at h

end Chosen

/-! ### The ends of a fetch -/

theorem fetchAndRun_poison {i : Ix} {pa : Nat} {b : Bool} (h : i.fetch = .poison pa b) :
    i.fetchAndRun = .next (i.fetchPoison pa b) := by
  unfold Ix.fetchAndRun
  rw [h]

theorem fetchAndRun_kept {i : Ix} {b : BitVec 256} (h : i.fetch = .block b false) : i.fetchAndRun = i.runBlock b := by
  unfold Ix.fetchAndRun
  rw [h]
  rfl

theorem fetchAndRun_read {i : Ix} {b : BitVec 256} (h : i.fetch = .block b true) :
    i.fetchAndRun = Ix.runBlock { i with s := i.keepBlock b } b := by
  unfold Ix.fetchAndRun
  rw [h]
  rfl

theorem fetchAndRun_walk {i : Ix} (h : i.fetch = .walk) : i.fetchAndRun = .next (i.stop (i.walkWait (blockOf i.e.pc))) := by
  unfold Ix.fetchAndRun
  rw [h]

theorem fetchAndRun_access {i : Ix} (h : i.fetch = .access) :
    i.fetchAndRun = .next (i.unpinned.s.raise i.f i.e Cause.access (BitVec.ofNat 64 (blockOf i.e.pc)) i.e.mask) := by
  unfold Ix.fetchAndRun
  rw [h]

/-- The core keeps the block that it has read. -/
theorem keepBlock_kept (i : Ix) (b : BitVec 256) : Sparse.get none ((i.keepBlock b).core i.x.gc).icache
    (icKey (i.s.ctxOf i.x) (blockOf i.e.pc)) = some b := by
  unfold Ix.keepBlock
  rw [modCore_core, if_pos rfl]
  unfold Core.keepBlock
  rw [Sparse.get_set, if_pos rfl]

section Ends

variable {u T : State} {is : Issue} {e : Entry} (hSees : Sees u T is e) (hiss : T.iss = is)
include hSees

theorem blockOf_sees : blockOf T.bare.e.pc = is.pc.toNat - is.pc.toNat % 32 := by
  rw [hSees.entry, hSees.pc]
  exact blockOf_eq is.pc

/-- A block that the core does not keep is read where its translation points. -/
theorem fetch_sees (hk : Sparse.get none (u.core (u.frag is.frag).gc).icache
      (icKey (u.ctxOf (u.frag is.frag)) (is.pc.toNat - is.pc.toNat % 32)) = none) {leaf : DWord} {pa : Nat}
    (hOk : ({ u with iss := is } : State).bare.translate (is.pc.toNat - is.pc.toNat % 32) = .ok leaf pa)
    (hMay : ({ u with iss := is } : State).bare.fetchable leaf pa = true) :
    T.bare.fetch = if u.poisoned pa 32 then .poison pa false else .block (u.blockAt pa) true := by
  have h := fetch_read T.bare (hSees.kept.trans hk) (by rw [blockOf_sees hSees, hSees.translate]; exact hOk)
    ((hSees.fetchable leaf pa).trans hMay)
  rwa [show T.bare.s.poisoned pa 32 = _ from poisoned_congr hSees.mem.2 pa 32,
    show T.bare.s.blockAt pa = _ from blockAt_congr hSees.mem.1 pa] at h

theorem accepted_sees (h : (u.pour (u.pourOf (u.frag is.frag))).st = .accepted) :
    (T.bare.s.pour (T.bare.s.pourOf T.bare.x)).st = .accepted := by
  rw [hSees.frag]
  show (T.pour (T.pourOf _)).st = _
  rw [hSees.pours.2]
  exact (congrArg (fun l => (Sparse.get Pour.none l (u.pourOf (u.frag is.frag))).st) hSees.pours.1).trans h

/-- What follows an issue leaves the pour that a poisoned block has ended (R418). -/
theorem killing_sees (fin : State → State) (hFin : ∀ v, (fin v).pours = v.pours) (pa : Nat) (b : Bool)
    (hTrap : (u.frag is.frag).trap = none) (h : (u.pour (u.pourOf (u.frag is.frag))).st = .accepted) :
    ((fin ((T.bare.fetchPoison pa b).afterIssue is)).pour (u.pourOf (u.frag is.frag))).st = .killing := by
  have hKill := fetchPoison_killing T.bare pa b ((congrArg Frag.trap hSees.frag).trans hTrap) (accepted_sees hSees h)
  rw [hSees.frag, show T.bare.s.pourOf (u.frag is.frag) = _ from hSees.pours.2] at hKill
  have hPours := (hFin _).trans (afterIssue_pours (T.bare.fetchPoison pa b) is)
  exact (congrArg (fun l => (Sparse.get Pour.none l (u.pourOf (u.frag is.frag))).st) hPours).trans hKill

include hiss

/-- The entry waits for a walk of its block's page (R384). -/
theorem walkStop_sees : T.bare.stop (T.bare.walkWait (blockOf T.bare.e.pc)) = T.modFrag is.frag fun y =>
    y.waitAt is.prio is.pc (.walk (u.ctxOf (u.frag is.frag)) (walkPage (is.pc.toNat - is.pc.toNat % 32))) := by
  have hCtx : T.bare.s.ctxOf T.bare.x = u.ctxOf (u.frag is.frag) := by
    rw [hSees.frag]
    exact hSees.context
  have hf : T.bare.f = is.frag := congrArg Issue.frag hiss
  unfold Ix.walkWait Ix.stop
  rw [blockOf_sees hSees, hCtx, hf, hSees.entry, hSees.prio, hSees.pc]
  rfl

end Ends

/-- Settles O57: the turn issues what its fetch has found, and the state in which it issues is `Ix.afterFetch`. -/
theorem stepRunsDecoded : Obligations.StepRunsDecoded := by
  unfold Obligations.StepRunsDecoded
  intro s gc part ts is e u x hAgenda hChoose hEntry i at_ blk key kept bad ends fin
  have hStep : step s = onNext (((u.fillActive gc part 9).exchange gc part).runEntry is) fin := by
    rw [step_issueTurn hAgenda, issueTurn_chosen hChoose, onNext_onNext]
  have hts : u.agenda = ts := rfl
  have hFin (v : State) : (fin v).pours = v.pours := meter_pours ..
  clear_value fin u
  obtain ⟨T, hT⟩ : ∃ T, T = u.turnIssue gc part is := ⟨_, rfl⟩
  have hiss : T.iss = is := by rw [hT]; rfl
  have hSees : Sees u T is e := hT ▸ turnIssue_sees u gc part hEntry
  have hIssues : Issues u T gc ts is := hT ▸ hts ▸ issues_of_rescheduled (turnIssue_rescheduled u gc part is) rfl
  have hUnpinned := unpinned_sees hSees hiss
  have hx : T.bare.x = x := hSees.frag
  refine ⟨T.bare.afterFetch, ?_, fun c cs hTrap hAsync => ?_, fun hNone => ?_⟩
  · unfold Ix.afterFetch
    split
    · exact hIssues
    · split
      · exact issues_keepBlock hIssues hx _
      · exact hIssues
  · have hA : T.bare.asyncFirst = true := by simp [Ix.asyncFirst, hx, hTrap, hAsync]
    have hRun : ((u.fillActive gc part 9).exchange gc part).runEntry is = .next ((T.bare.unpinned.s.modFrag is.frag fun y =>
        { y with async := cs }).raise is.frag T.bare.e c.code c.addr T.bare.e.mask) := by
      rw [← hx, hT] at hTrap hAsync
      rw [hT]
      exact runEntry_async _ hTrap hAsync
    rw [hUnpinned, hSees.entry] at hRun
    rw [hStep, hRun, afterFetch_stale (.inl hA)]
    rfl
  have hA : T.bare.asyncFirst = false := by
    rcases hNone with h | h <;> simp [Ix.asyncFirst, hx, h]
  have hRun : step s = onNext (onNext T.bare.fetchAndRun fun v => v.afterIssue is) fin := by
    rw [hT] at hA
    rw [hStep, hT]
    exact congrArg (onNext · fin) (runEntry_fetch (is := is) ((u.fillActive gc part 9).exchange gc part) hA)
  have hEnds (pa : Nat) (b : Bool) (hFetch : T.bare.fetch = .poison pa b) (hTrap : x.trap = none) : ends := fun hAccepted =>
    ⟨_, by rw [hRun, fetchAndRun_poison hFetch]; rfl, killing_sees hSees fin hFin pa b hTrap hAccepted⟩
  have hf : T.bare.f = is.frag := congrArg Issue.frag hiss
  have hStale (h : ∀ b, T.bare.fetch ≠ .block b true) : T.bare.afterFetch = T := afterFetch_stale (.inr h)
  refine ⟨fun b hk hb => ?_, fun b hk hb hTrap => ?_, fun hk => ⟨fun hMiss => ?_, fun hNo => ?_, fun leaf pa hOk hMay =>
    ⟨fun hPoison hTrap => ?_, fun hClean => ?_⟩⟩⟩
  · have hFetch := fetch_kept T.bare (hSees.kept.trans hk)
    rw [hSees.bad.trans hb, if_neg Bool.false_ne_true] at hFetch
    rw [hStale fun b' h => by rw [hFetch] at h; exact nomatch h]
    exact runBlock_sees fin hSees hiss T rfl rfl b _ (by rw [hRun, fetchAndRun_kept hFetch])
  · have hFetch := fetch_kept T.bare (hSees.kept.trans hk)
    rw [hSees.bad.trans hb, if_pos rfl] at hFetch
    exact hEnds _ _ hFetch hTrap
  · have hFetch := fetch_miss T.bare (hSees.kept.trans hk) (by rw [blockOf_sees hSees, hSees.translate]; exact hMiss)
    rw [hRun, fetchAndRun_walk hFetch, walkStop_sees hSees hiss, hStale fun b' h => by rw [hFetch] at h; exact nomatch h]
    rfl
  · have hFetch := fetch_access T.bare (hSees.kept.trans hk) (by
      rw [blockOf_sees hSees, hSees.translate]
      exact hNo.imp_right fun ⟨leaf, pa, hOk, hBar⟩ => ⟨leaf, pa, hOk, (hSees.fetchable leaf pa).trans hBar⟩)
    rw [hRun, fetchAndRun_access hFetch, hUnpinned, blockOf_sees hSees, hSees.entry,
      hStale fun b' h => (by rw [hFetch] at h; exact nomatch h), hf]
    rfl
  · have hFetch := fetch_sees hSees hk hOk hMay
    rw [hPoison, if_pos rfl] at hFetch
    exact hEnds _ _ hFetch hTrap
  · have hFetch := fetch_sees hSees hk hOk hMay
    rw [hClean, if_neg Bool.false_ne_true] at hFetch
    rw [afterFetch_fresh hA hFetch]
    refine ⟨?_, ?_⟩
    · have hKey := keepBlock_kept T.bare (u.blockAt pa)
      rw [blockOf_sees hSees, hx, show T.bare.s.ctxOf x = _ from hSees.context] at hKey
      exact hKey
    · rw [← blockBytes_blockAt]
      exact runBlock_sees fin hSees hiss (T.bare.keepBlock (u.blockAt pa)) rfl rfl (u.blockAt pa) (step s)
        (by rw [hRun, fetchAndRun_read hFetch]; rfl)

end Sys2Proof.Machine
end

section
/-! What the handlers of completions and control messages do to the parts of the state: taking a packet, answering it, and learning of
acknowledgements (R49, R237, R275, R289, R352). -/

namespace Sys2Proof.Machine
open Sys2Proof.Claims

/-! ### Folds over the state -/

/-- A property that every step of a fold keeps holds after it. -/
theorem foldl_preserves {α : Type} (P : State → Prop) (f : State → α → State) (h : ∀ s x, P s → P (f s x)) (l : List α) (s : State)
    (hs : P s) : P (l.foldl f s) := by
  induction l generalizing s with
  | nil => exact hs
  | cons x l ih => exact ih _ (h s x hs)

theorem PacketsOnly.foldl {α : Type} (f : State → α → State) (h : ∀ s x, PacketsOnly s (f s x)) (l : List α) (s : State) :
    PacketsOnly s (l.foldl f s) :=
  foldl_preserves (PacketsOnly s) f (fun a x ha => ha.trans (h a x)) l s (.refl s)

/-! ### Bytes and marks -/

theorem keptBytes_of_eq {s t : State} (hm : t.mem = s.mem) (hk : t.marks = s.marks) : KeptBytes s t where
  memory a := by rw [State.byte, hm, State.byte]
  marks w := by rw [State.mark, hk, State.mark]

theorem PacketsOnly.keptBytes {s t : State} (h : PacketsOnly s t) : KeptBytes s t := keptBytes_of_eq h.mem h.marks

/-! ### Taking and answering packets -/

theorem answer_only (s : State) (src tgt : Nat) (ctx : BitVec 8) (body : Body) : PacketsOnly s (s.answer src tgt ctx body) :=
  send_only ..

/-- The answer of a completion or a control message. -/
theorem answer_net (s : State) (src tgt : Nat) (ctx : BitVec 8) (body : Body) :
    (s.answer src tgt ctx body).net = s.net ++ [s.outgoing src tgt ctx false none body] := send_net ..

/-- The packet at a position has left the fabric, and its target has counted it. -/
theorem taken_only (s : State) (n : Nat) (p : Packet) : PacketsOnly s ((s.dropPacket n).countRecv p) := ⟨fun _ => rfl, rfl⟩

theorem countRecv_hearth (s : State) (p : Packet) (g : Nat) : (s.countRecv p).hearth g = s.hearth g := rfl

theorem dropPacket_hearth (s : State) (n g : Nat) : (s.dropPacket n).hearth g = s.hearth g := rfl

/-- The answer to a packet that has left the fabric. -/
theorem replies_of_net (s a : State) (n : Nat) (p : Packet) (src tgt : Nat) (ctx : BitVec 8) (body : Body)
    (h : a.net = s.net.eraseIdx n) :
    Replies s ((a.countRecv p).answer src tgt ctx body) n ((a.countRecv p).outgoing src tgt ctx false none body) := by
  rw [Replies, answer_net, ← h]
  rfl

/-! ### Refused packets are counted (R387) -/

@[simp] theorem record_net (s : State) (gh src cls ctx flags cnt addr detail : Nat) :
    (s.record gh src cls ctx flags cnt addr detail).net = s.net := by
  unfold State.record
  rw [modHearth_net, (writeMem_only _ _ _ _ _).net, bumpSeq_net]
  split <;> rfl

theorem record_errCount (s : State) (gh src cls ctx flags cnt addr detail : Nat) :
    ((s.record gh src cls ctx flags cnt addr detail).hearth gh).errCount = (s.hearth gh).errCount + 1 := by
  unfold State.record
  rw [modHearth_hearth, if_pos rfl]

/-- A record leaves the counters but that of lost records. -/
theorem record_counter (s : State) (gh src cls ctx flags cnt addr detail k : Nat) (hk : k ≠ 6) :
    Sparse.get 0 ((s.record gh src cls ctx flags cnt addr detail).hearth gh).counters k =
      Sparse.get 0 (s.hearth gh).counters k := by
  unfold State.record
  rw [modHearth_hearth, if_pos rfl]
  have hw := (writeMem_only ((if 524288 ≤ (s.hearth gh).errCount then s.countHearth gh 6 else s).bumpSeq (2 ^ 32 + src))
    (errBase gh + 32 * ((s.hearth gh).errCount % 524288)) 32
    (recordVal src (s.lastSeq (2 ^ 32 + src) + 1) cls ctx flags cnt (addr % 2 ^ 64) (detail % 2 ^ 64)) false).hearths gh
  refine (congrArg (fun h : Hearth => Sparse.get 0 h.counters k) hw :).trans ?_
  show Sparse.get 0 (State.hearth (if _ then _ else _) gh).counters k = _
  split
  · rw [State.countHearth, modHearth_hearth, if_pos rfl]
    simp [hk]
  · rfl

@[simp] theorem noteRefused_net (s : State) (p : Packet) : (s.noteRefused p).net = s.net := by
  unfold State.noteRefused State.hearthRecord
  rw [record_net]
  rfl

theorem noteRefused_errCount (s : State) (p : Packet) :
    ((s.noteRefused p).hearth p.tgt).errCount = (s.hearth p.tgt).errCount + 1 := by
  unfold State.noteRefused State.hearthRecord
  rw [record_errCount, State.countHearth, modHearth_hearth, if_pos rfl]

theorem noteRefused_counter (s : State) (p : Packet) :
    Sparse.get 0 ((s.noteRefused p).hearth p.tgt).counters 2 = Sparse.get 0 (s.hearth p.tgt).counters 2 + 1 := by
  unfold State.noteRefused State.hearthRecord
  rw [record_counter _ _ _ _ _ _ _ _ _ 2 (by decide), State.countHearth, modHearth_hearth, if_pos rfl]
  simp

/-! ### Ready fragments -/

@[simp] theorem noteReady_frag (s : State) (f k : Nat) : (s.noteReady f).frag k = s.frag k := by
  simp only [State.noteReady]
  split <;> rfl

@[simp] theorem noteReady_frags (s : State) (f : Nat) : (s.noteReady f).frags = s.frags := by
  simp only [State.noteReady]
  split <;> rfl

/-- A fragment that becomes ready changes only the times of its core. -/
theorem noteReady_rest (s : State) (f : Nat) : { s.noteReady f with cores := s.cores } = s := by
  simp only [State.noteReady]
  split <;> rfl

theorem noteReady_tlb (s : State) (f gc : Nat) : ((s.noteReady f).core gc).tlb = (s.core gc).tlb := by
  simp only [State.noteReady]
  split
  · rfl
  · rw [modCore_core]
    split
    · rename_i h
      rw [h]
    · rfl

/-! ### Acknowledgements (R49, R275) -/

theorem countLeft_cores (s : State) (p : Packet) : (s.countLeft p).cores = s.cores := by
  unfold State.countLeft
  split <;> rfl

theorem freeSignals_only (s : State) (src tgt : Nat) (seq : Word) : PacketsOnly s (s.freeSignals src tgt seq) := by
  unfold State.freeSignals
  refine PacketsOnly.trans ?_ (PacketsOnly.foldl _ countLeft_only _ _)
  exact ⟨fun _ => rfl, rfl⟩

theorem freeSignals_cores (s : State) (src tgt : Nat) (seq : Word) : (s.freeSignals src tgt seq).cores = s.cores :=
  foldl_keeps State.cores _ countLeft_cores _ _

/-- A refusal that reaches its source changes fragments and commands only. -/
theorem refusedAt_rest (s : State) (src tgt : Nat) (seq : Word) (addr : DWord) (fr : Option Nat) :
    { s.refusedAt src tgt seq addr fr with frags := s.frags, cmds := s.cmds } = s := by
  unfold State.refusedAt
  split
  · split
    · split <;> rfl
    · rfl
  · refine foldl_preserves (fun a => { a with frags := s.frags, cmds := s.cmds } = s) _ ?_ _ s rfl
    intro a q ha
    split
    · split
      · exact ha
      · exact ha
      · exact ha
    · exact ha

/-- What a refusal adds to a fragment is a cause only. -/
theorem refusedAt_frag (s : State) (src tgt : Nat) (seq : Word) (addr : DWord) (fr : Option Nat) (f : Nat) :
    { (s.refusedAt src tgt seq addr fr).frag f with async := (s.frag f).async } = s.frag f := by
  unfold State.refusedAt
  split
  · split
    · split
      · rw [modFrag_frag]
        split
        · rename_i h
          rw [h]
        · rfl
      · rfl
    · rfl
  · refine foldl_preserves (fun a => { a.frag f with async := (s.frag f).async } = s.frag f) _ ?_ _ s rfl
    intro a q ha
    split
    · split
      · exact ha
      · exact ha
      · exact ha
    · exact ha

/-- The fragment that sent a refused packet from its slot is to raise PARTITION (R387). -/
theorem refusedAt_async (s : State) (src tgt : Nat) (seq : Word) (addr : DWord) (f : Nat) (hu : srcUnit (orderSrc src) = 0)
    (hf : (s.frag f).standsIn (orderSrc src) = true) :
    ∃ a ∈ ((s.refusedAt src tgt seq addr (some f)).frag f).async, a.code = Cause.partition := by
  unfold State.refusedAt
  rw [if_pos hu]
  simp only [hf, if_true, modFrag_frag]
  split
  · rename_i h
    obtain ⟨a, ha, hc⟩ := List.any_eq_true.mp h
    exact ⟨a, ha, by simpa using hc⟩
  · exact ⟨_, List.mem_append_right _ (List.mem_singleton.mpr rfl), rfl⟩

theorem mem_stillUnacked (l : List Unacked) (src tgt : Nat) (seq : Word) (u : Unacked) :
    u ∈ stillUnacked l src tgt seq ↔ u ∈ l ∧ ¬ (u.src = src ∧ u.tgt = tgt ∧ covers seq u.seq = true) := by
  unfold stillUnacked
  rw [List.mem_filter]
  simp [imp_iff_not_or, or_assoc]

section CoreAck

variable (s : State) (src tgt : Nat) (seq : Word) (refused : Bool)

/-- The core of a source forgets what is acknowledged, and the signals behind it are free. -/
def State.forgetAcked : State :=
  (s.modCore (srcCore src) fun c => { c with unacked := stillUnacked c.unacked src tgt seq }).freeSignals src tgt seq

theorem forgetAcked_only : PacketsOnly s (s.forgetAcked src tgt seq) := by
  unfold State.forgetAcked
  refine PacketsOnly.trans (.modCore _ _ _ ?_) (freeSignals_only ..)
  exact fun _ => rfl

theorem forgetAcked_unacked : ((s.forgetAcked src tgt seq).core (srcCore src)).unacked =
    stillUnacked (s.core (srcCore src)).unacked src tgt seq := by
  unfold State.forgetAcked
  rw [State.core, freeSignals_cores]
  show ((s.modCore _ _).core _).unacked = _
  rw [modCore_core, if_pos rfl]

/-- What an acknowledgement does at a core: the packets are forgotten, and a refusal reaches the sender. -/
theorem coreAck_eq : s.coreAck src tgt seq refused =
    let sent := (s.core (srcCore src)).unacked.find? fun u => u.src = src && u.tgt = tgt && u.seq = seq
    if refused then (s.forgetAcked src tgt seq).refusedAt src tgt seq ((sent.map Unacked.addr).getD 0) (sent.bind Unacked.frag)
    else s.forgetAcked src tgt seq := rfl

theorem coreAck_keptBytes : KeptBytes s (s.coreAck src tgt seq refused) := by
  rw [coreAck_eq]
  dsimp only
  split
  · have h := refusedAt_rest (s.forgetAcked src tgt seq) src tgt seq
    exact keptBytes_of_eq ((congrArg State.mem (h _ _) :).trans (forgetAcked_only ..).mem)
      ((congrArg State.marks (h _ _) :).trans (forgetAcked_only ..).marks)
  · exact (forgetAcked_only ..).keptBytes

theorem coreAck_unacked : ((s.coreAck src tgt seq refused).core (srcCore src)).unacked =
    stillUnacked (s.core (srcCore src)).unacked src tgt seq := by
  rw [coreAck_eq, ← forgetAcked_unacked]
  dsimp only
  split
  · have h := refusedAt_rest (s.forgetAcked src tgt seq) src tgt seq
    exact (congrArg (fun t : State => (t.core (srcCore src)).unacked) (h _ _) :)
  · rfl

theorem coreAck_frag (f : Nat) : { (s.coreAck src tgt seq refused).frag f with async := (s.frag f).async } = s.frag f := by
  rw [coreAck_eq, ← (forgetAcked_only s src tgt seq).frag f]
  dsimp only
  split
  · exact refusedAt_frag ..
  · rfl

end CoreAck

/-- A fragment of a core learns of an acknowledgement, unless it does not stand there. -/
def Frag.ackedAt (x : Frag) (gc src tgt : Nat) (seq : Word) : Frag :=
  if x.gc = gc && (match x.place with | .core .. => true | .departing .. => true | _ => false) then x.acked src tgt seq else x

/-- The fragments of a core learn of an acknowledgement (R49). -/
def State.ackFrags (s : State) (gc src tgt : Nat) (seq : Word) : State :=
  { s with frags := s.frags.map fun q => (q.1, q.2.ackedAt gc src tgt seq) }

theorem ackFrags_frag (s : State) (gc src tgt : Nat) (seq : Word) (f : Nat) :
    (s.ackFrags gc src tgt seq).frag f = (s.frag f).ackedAt gc src tgt seq := by
  unfold State.ackFrags State.frag
  induction s.frags with
  | nil => simp [Sparse.get, Frag.ackedAt, Frag.dead]
  | cons p t ih =>
    simp only [List.map_cons, Sparse.get]
    split
    · rfl
    · exact ih

/-- A fragment that stands on the core drops the entries that are acknowledged. -/
theorem ackedAt_of_place (x : Frag) (gc k src tgt : Nat) (seq : Word) (h : x.place = .core gc k) :
    x.ackedAt gc src tgt seq = x.acked src tgt seq := by
  simp [Frag.ackedAt, Frag.gc, h]

/-- An acknowledgement at the core of its source. -/
theorem exec_acknowledgement (s : State) (n : Nat) (p : Packet) (src tgt : Nat) (seq : Word) (refused : Bool)
    (hr : s.ready n = some p) (hb : p.body = .ack src tgt seq refused) (hc : srcOfCore src = true)
    (ht : p.tgt = 2048 + srcCore src) (hlt : p.tgt < 65536) :
    exec (.acknowledgement n) s = .next
      ((((s.dropPacket n).countRecv p).coreAck src tgt seq refused).ackFrags (srcCore src) src tgt seq) := by
  have hp : srcPlace src = p.tgt := by rw [srcPlace, if_pos hc, ht]
  have hs : ((s.dropPacket n).countRecv p).sourceAck src tgt seq refused =
      ((s.dropPacket n).countRecv p).coreAck src tgt seq refused := if_pos hc
  have hg : p.tgt - 2048 = srcCore src := by omega
  have hn : ¬ (p.tgt < 2048 ∨ 65536 ≤ p.tgt) := by omega
  show execAcknowledgement n s = _
  simp only [execAcknowledgement, hr, hb, if_pos hp, if_neg hn, hs, hg, State.ackFrags]
  generalize ((s.dropPacket n).countRecv p).coreAck src tgt seq refused = t
  refine congrArg (fun g => Host.Outcome.next { t with frags := t.frags.map g }) (funext fun q => ?_)
  exact (apply_ite (Prod.mk q.1) _ _ _).symm

end Sys2Proof.Machine
end

section
/-! What completions and control messages bring: data that an engine has asked for, barriers that have opened, acknowledgements asked
for again, walks that end, and gangs that park (R51, R263, R266, R275, R352, R384, R408). -/

namespace Sys2Proof.Machine
open Sys2Proof.Claims

/-! ### Data of engines (R263, R266) -/

theorem resultWords_cons (n : Nat) (b : Byte × Bool) (l : List (Byte × Bool)) (k : Nat) : resultWords (n + 1) (b :: l) k =
    (k, (BitVec.ofNat 32 (leVal ((b :: l).take 4)), ((b :: l).take 4).any Prod.snd)) :: resultWords n ((b :: l).drop 4) (k + 1) := rfl

/-- The results of a bank command have no word before the first. -/
theorem resultWords_before (n : Nat) (bs : List (Byte × Bool)) (k j : Nat) (hj : j < k) :
    Sparse.get (0, false) ((resultWords n bs k).filter fun r => r.2 ≠ (0, false)) j = (0, false) := by
  induction n generalizing bs k with
  | zero => rfl
  | succ n ih =>
    cases bs with
    | nil => rfl
    | cons b bs =>
      rw [resultWords_cons, List.filter_cons]
      split
      · rw [Sparse.get, if_neg (by omega)]
        exact ih _ _ (by omega)
      · exact ih _ _ (by omega)

/-- The words of a bank command's results are the bytes sent, four to a word. -/
theorem resultWords_get (n : Nat) (bs : List (Byte × Bool)) (k j : Nat) (hn : j < n) (hj : 4 * j + 4 ≤ bs.length) :
    Sparse.get (0, false) ((resultWords n bs k).filter fun r => r.2 ≠ (0, false)) (k + j) =
      (BitVec.ofNat 32 (leVal ((bs.drop (4 * j)).take 4)), ((bs.drop (4 * j)).take 4).any Prod.snd) := by
  induction n generalizing bs k j with
  | zero => omega
  | succ n ih =>
    cases bs with
    | nil => simp at hj
    | cons b l =>
      rw [resultWords_cons, List.filter_cons]
      cases j with
      | zero =>
        split
        · rw [Nat.add_zero k, Sparse.get, if_pos rfl]
          rfl
        · rename_i h
          rw [Nat.add_zero k, resultWords_before _ _ (k + 1) k (Nat.lt_succ_self k)]
          exact (by simpa using h : _ = _).symm
      | succ j =>
        have hrest := ih ((b :: l).drop 4) (k + 1) j (by omega) (by rw [List.length_drop]; omega)
        rw [List.drop_drop, show 4 + 4 * j = 4 * (j + 1) by omega, show k + 1 + j = k + (j + 1) by omega] at hrest
        split
        · rw [Sparse.get, if_neg (by omega)]
          exact hrest
        · exact hrest

/-- Data reach a command. -/
def State.received (s : State) (k : Nat) (bs : List (Byte × Bool)) : State :=
  let c := s.cmd k
  match c.eng, c.stage with
  | .bank, .active =>
    s.setCmd k { c with
      results := (resultWords bs.length bs 0).filter fun r => r.2 ≠ (0, false), stage := .results, pos := 0, asked := false }
  | .bank, _ => s
  | _, .done => s
  | _, _ => if c.asked then s.setCmd k { c with buf := c.buf.map fun b => b ++ bs, asked := false } else s

theorem received_rest (s : State) (k : Nat) (bs : List (Byte × Bool)) : { s.received k bs with cmds := s.cmds } = s := by
  unfold State.received
  dsimp only
  split
  · rfl
  · rfl
  · rfl
  · split <;> rfl

theorem received_cmd_other (s : State) (k : Nat) (bs : List (Byte × Bool)) (j : Nat) (hj : j ≠ k) :
    (s.received k bs).cmd j = s.cmd j := by
  unfold State.received
  dsimp only
  split
  · rw [setCmd_cmd, if_neg hj]
  · rfl
  · rfl
  · split
    · rw [setCmd_cmd, if_neg hj]
    · rfl

theorem received_bank (s : State) (k : Nat) (bs : List (Byte × Bool)) (he : (s.cmd k).eng = .bank) (hs : (s.cmd k).stage = .active) :
    (s.received k bs).cmd k = { s.cmd k with
      results := (resultWords bs.length bs 0).filter fun r => r.2 ≠ (0, false), stage := .results, pos := 0, asked := false } := by
  simp only [State.received, he, hs, setCmd_cmd, if_true]

theorem received_copy (s : State) (k : Nat) (bs old : List (Byte × Bool)) (he : (s.cmd k).eng = .copy)
    (hs : (s.cmd k).stage = .active) (ha : (s.cmd k).asked = true) (hb : (s.cmd k).buf = some old) :
    (s.received k bs).cmd k = { s.cmd k with buf := some (old ++ bs), asked := false } := by
  simp only [State.received, he, hs, ha, hb, setCmd_cmd, if_true, Option.map_some]

theorem exec_readData (s : State) (n : Nat) (p : Packet) (k : Nat) (co : Bool) (bs : List (Byte × Bool)) (hr : s.ready n = some p)
    (hb : p.body = .readData k co bs) :
    exec (.readData n) s = .next (((s.dropPacket n).countRecv p).received k bs) := by
  show execReadData n s = _
  simp only [execReadData, hr, hb]
  rfl

/-! ### Barriers that have opened (R352) -/

theorem passFrag_frag (s : State) (w : BarWait) (f k : Nat) :
    (s.passFrag w f).frag k = if k = f then (s.frag f).passBar w else s.frag k := by
  unfold State.passFrag
  rw [modFrag_frag]
  split <;> split <;> simp

/-- A fragment that passes a barrier changes, and the times of its core. -/
theorem passFrag_rest (s : State) (w : BarWait) (f : Nat) : { s.passFrag w f with cores := s.cores, frags := s.frags } = s := by
  unfold State.passFrag
  split
  · exact (congrArg (fun t : State => { t with frags := s.frags }) (noteReady_rest s f) :)
  · rfl

theorem passAway_rest (s : State) (w : BarWait) : { s.passAway w with cores := s.cores, frags := s.frags } = s := by
  unfold State.passAway
  refine foldl_preserves (fun a => { a with cores := s.cores, frags := s.frags } = s) _ ?_ _ s rfl
  intro a f ha
  exact (congrArg (fun t : State => { t with cores := s.cores, frags := s.frags }) (passFrag_rest a w f) :).trans ha

/-- Each fragment of a list without repetitions passes the barrier once. -/
theorem foldl_passFrag_frag (w : BarWait) (l : List Nat) (hl : l.Nodup) (s : State) (k : Nat) :
    (l.foldl (fun a f => a.passFrag w f) s).frag k = if k ∈ l then (s.frag k).passBar w else s.frag k := by
  induction l generalizing s with
  | nil => simp
  | cons f l ih =>
    obtain ⟨hf, hl⟩ := List.nodup_cons.mp hl
    rw [List.foldl_cons, ih hl, passFrag_frag]
    by_cases hk : k = f
    · subst hk
      simp [hf]
    · simp [hk]

theorem passAway_frag (s : State) (w : BarWait) (h : (s.hoistFrags w.hoist).Nodup) (k : Nat) :
    (s.passAway w).frag k = if k ∈ s.hoistFrags w.hoist ∧ (s.frag k).lanes &&& w.lanes ≠ 0 then (s.frag k).passBar w
      else s.frag k := by
  unfold State.passAway
  rw [foldl_passFrag_frag w _ (h.filter _)]
  simp [List.mem_filter]

/-! ### Asking for acknowledgements (R275) -/

/-- A source asks the home of a packet, unless such a request is under way. -/
def State.askFor (n : Nat) (s : State) (u : Unacked) : State :=
  let q : Body := .ackRequest n u.tgt (srcPlace n)
  if (s.net.any fun p => !p.lost && p.body = q) then s else s.answer n u.tgt u.ctx q

theorem askFor_only (n : Nat) (s : State) (u : Unacked) : PacketsOnly s (s.askFor n u) := .ite (.refl s) (answer_only ..)

theorem mem_askFor_net (n : Nat) (s : State) (u : Unacked) (q : Packet) (h : q ∈ s.net) : q ∈ (s.askFor n u).net := by
  unfold State.askFor
  dsimp only
  split
  · exact h
  · rw [answer_net]
    exact List.mem_append_left _ h

/-- After it there is such a request. -/
theorem askFor_asks (n : Nat) (s : State) (u : Unacked) :
    ∃ q ∈ (s.askFor n u).net, q.lost = false ∧ q.body = .ackRequest n u.tgt (srcPlace n) := by
  unfold State.askFor
  dsimp only
  split
  · rename_i h
    obtain ⟨q, hq, hb⟩ := List.any_eq_true.mp h
    exact ⟨q, hq, by simpa using hb⟩
  · rw [answer_net]
    exact ⟨_, List.mem_append_right _ (List.mem_singleton.mpr rfl), rfl, rfl⟩

theorem foldl_askFor_asks (n : Nat) (l : List Unacked) (s : State) (u : Unacked) (hu : u ∈ l) :
    ∃ q ∈ (l.foldl (State.askFor n) s).net, q.lost = false ∧ q.body = .ackRequest n u.tgt (srcPlace n) := by
  induction l generalizing s with
  | nil => exact absurd hu (List.not_mem_nil)
  | cons v l ih =>
    rcases List.mem_cons.mp hu with rfl | hu
    · obtain ⟨q, hq, hb⟩ := askFor_asks n s u
      exact ⟨q, foldl_preserves (fun a => q ∈ a.net) _ (fun a v => mem_askFor_net n a v q) l _ hq, hb⟩
    · exact ih _ hu

theorem askAgain_only (s : State) (n : Nat) : PacketsOnly s (s.askAgain n) := by
  unfold State.askAgain
  refine .ite (.modCore _ _ _ ?_) ⟨fun _ => rfl, rfl⟩
  exact fun _ => rfl

theorem askAgain_net (s : State) (n : Nat) : (s.askAgain n).net = s.net := by
  unfold State.askAgain
  split <;> rfl

theorem exec_ackTimeout (s : State) (n : Nat) :
    exec (.ackTimeout n) s = .next (((s.unackedOf n).filter fun u => u.late n s.now).foldl (State.askFor n) (s.askAgain n)) := rfl

theorem late_iff (u : Unacked) (n now : Nat) : u.late n now = true ↔ u.src = n ∧ u.sentAt + 2200 ≤ now := by
  rw [Unacked.late, ackClocks, Bool.and_eq_true, decide_eq_true_iff, decide_eq_true_iff]

/-! ### Walks that end (R384) -/

section Walk

variable (c : BitVec 8) (v : Nat) (r : Option (DWord × Nat × Nat))

/-- The entry that a walk brings to a TLB. -/
def walkEnt (leaf : DWord) (bits : Nat) : TlbEnt := { ctx := c, page := v * 65536 / 2 ^ bits, bits, leaf }

/-- A fragment that has waited for a walk issues again, with the entry in the TLB of its core. -/
def State.endWalkOf (s : State) (f : Nat) : State :=
  let b := s.noteReady f
  let b' := match r with
    | some (leaf, bits, _) => b.modCore (b.frag f).gc fun k => k.fillTlb (walkEnt c v leaf bits)
    | none => b
  b'.modFrag f fun x => x.walked c v r.isSome

/-- It changes fragments and cores only. -/
theorem endWalkOf_rest (s : State) (f : Nat) : { s.endWalkOf c v r f with cores := s.cores, frags := s.frags } = s := by
  have h := (congrArg (fun t : State => { t with frags := s.frags }) (noteReady_rest s f) :)
  unfold State.endWalkOf
  dsimp only
  split
  · exact h
  · exact h

theorem foldl_endWalkOf_rest (l : List Nat) (s : State) :
    { l.foldl (State.endWalkOf c v r) s with cores := s.cores, frags := s.frags } = s := by
  refine foldl_preserves (fun a => { a with cores := s.cores, frags := s.frags } = s) _ ?_ l s rfl
  intro a f ha
  exact (congrArg (fun t : State => { t with cores := s.cores, frags := s.frags }) (endWalkOf_rest c v r a f) :).trans ha

theorem endWalkOf_frag (s : State) (f k : Nat) :
    (s.endWalkOf c v r f).frag k = if k = f then (s.frag f).walked c v r.isSome else s.frag k := by
  unfold State.endWalkOf
  dsimp only
  rw [modFrag_frag]
  split <;> split <;> simp

theorem mem_fillTlb (k : Core) (t : TlbEnt) : t ∈ (k.fillTlb t).tlb := by
  unfold Core.fillTlb
  split
  · rename_i h
    simpa using h
  · simp

theorem mem_fillTlb_self (k : Core) (t : TlbEnt) (h : t ∈ k.tlb) : k.fillTlb t = k := by
  unfold Core.fillTlb
  rw [if_pos (by simpa using h)]

/-- The core of a fragment that goes on has the entry. -/
theorem endWalkOf_fills (s : State) (f : Nat) (leaf : DWord) (bits at_ : Nat) (hr : r = some (leaf, bits, at_)) :
    walkEnt c v leaf bits ∈ ((s.endWalkOf c v r f).core (s.frag f).gc).tlb := by
  subst hr
  simp only [State.endWalkOf, modFrag_core, modCore_core, noteReady_frag, if_true]
  exact mem_fillTlb ..

theorem endWalkOf_keepsEnt (s : State) (f gc : Nat) (leaf : DWord) (bits at_ : Nat) (hr : r = some (leaf, bits, at_))
    (h : walkEnt c v leaf bits ∈ (s.core gc).tlb) : walkEnt c v leaf bits ∈ ((s.endWalkOf c v r f).core gc).tlb := by
  subst hr
  simp only [State.endWalkOf, modFrag_core, modCore_core]
  split
  · exact mem_fillTlb ..
  · rw [noteReady_tlb]
    exact h

/-- No entry of the fragment waits for the walk. -/
def NotWalking (x : Frag) : Prop := ∀ e ∈ x.entries, e.wait ≠ some (.walk c v)

theorem walked_notWalking (x : Frag) (ok : Bool) : NotWalking c v (x.walked c v ok) := by
  intro e he
  obtain ⟨d, -, rfl⟩ := List.mem_map.mp he
  unfold Entry.release
  split
  · split
    · simp
    · rename_i w hw hn
      rw [hw]
      simpa using hn
  · rename_i hw
    simp [hw]

/-- An entry that has waited for a walk that failed remembers it. -/
theorem walked_badWalk (x : Frag) (e : Entry) (he : e ∈ x.entries) (hw : e.wait = some (.walk c v)) :
    (e.prio, e.pc, v) ∈ (x.walked c v false).badWalk := by
  refine List.mem_append_right _ (List.mem_map.mpr ⟨e, ?_, rfl⟩)
  simp [Frag.walking, he, hw]

theorem mem_walked_badWalk (x : Frag) (ok : Bool) (b : BitVec 8 × DWord × Nat) (h : b ∈ x.badWalk) :
    b ∈ (x.walked c v ok).badWalk := by
  unfold Frag.walked
  dsimp only
  split
  · exact h
  · exact List.mem_append_left _ h

theorem endWalkOf_notWalking (s : State) (f k : Nat) (h : k = f ∨ NotWalking c v (s.frag k)) :
    NotWalking c v ((s.endWalkOf c v r f).frag k) := by
  rw [endWalkOf_frag]
  split
  · exact walked_notWalking c v _ _
  · rename_i hk
    exact h.resolve_left hk

theorem endWalkOf_keepsBad (s : State) (f k : Nat) (b : BitVec 8 × DWord × Nat) (h : b ∈ (s.frag k).badWalk) :
    b ∈ ((s.endWalkOf c v r f).frag k).badWalk := by
  rw [endWalkOf_frag]
  split
  · rename_i hk
    rw [← hk]
    exact mem_walked_badWalk _ _ _ _ _ h
  · exact h

/-- What a walk that ends does to a fragment that has waited for it. -/
structure WalkEnded (x : Frag) (t : State) (k : Nat) : Prop where
  waits : NotWalking c v (t.frag k)
  fills : ∀ leaf bits at_, r = some (leaf, bits, at_) → walkEnt c v leaf bits ∈ (t.core x.gc).tlb
  bad   : r = none → ∀ e ∈ x.entries, e.wait = some (.walk c v) → (e.prio, e.pc, v) ∈ (t.frag k).badWalk

/-- The fragments that have waited all go on. -/
theorem foldl_endWalkOf (l : List Nat) (s : State) (k : Nat) (hk : k ∈ l) :
    WalkEnded c v r (s.frag k) (l.foldl (State.endWalkOf c v r) s) k := by
  induction l generalizing s with
  | nil => exact absurd hk (List.not_mem_nil)
  | cons f l ih =>
    by_cases hf : k = f
    · subst hf
      refine foldl_preserves (fun a => WalkEnded c v r (s.frag k) a k) _ ?_ l _ ⟨?_, ?_, ?_⟩
      · rintro a f ⟨hw, hfill, hbad⟩
        exact ⟨endWalkOf_notWalking _ _ _ _ _ _ (.inr hw),
          fun leaf bits at_ hr => endWalkOf_keepsEnt _ _ _ _ _ _ _ _ at_ hr (hfill leaf bits at_ hr),
          fun hr e he hwait => endWalkOf_keepsBad _ _ _ _ _ _ _ (hbad hr e he hwait)⟩
      · exact endWalkOf_notWalking _ _ _ _ _ _ (.inl rfl)
      · exact fun leaf bits at_ hr => endWalkOf_fills _ _ _ _ _ _ _ at_ hr
      · intro hr e he hw
        rw [endWalkOf_frag, if_pos rfl, hr]
        exact walked_badWalk _ _ _ e he hw
    · have h := ih (s.endWalkOf c v r f) ((List.mem_cons.mp hk).resolve_left hf)
      rwa [endWalkOf_frag, if_neg hf] at h

end Walk

/-- The fragments of a hearth's cores with entries that wait for a walk. -/
def State.walkers (s : State) (gh : Nat) (c : BitVec 8) (v : Nat) : List Nat :=
  (s.frags.filter fun q => q.2.onCore && coreHearth q.2.gc = gh && !(q.2.walking c v).isEmpty).map Prod.fst

theorem exec_tlbWalkComplete (s : State) (gh ctx v : Nat) (h : (BitVec.ofNat 8 ctx, v) ∈ (s.hearth gh).walks.take 64) :
    exec (.tlbWalkComplete gh ctx v) s = .next ((s.walkers gh (BitVec.ofNat 8 ctx) v).foldl
      (State.endWalkOf (BitVec.ofNat 8 ctx) v (s.walk (gh / 16) ctx (v * 65536)))
      (s.modHearth gh fun h => { h with walks := h.walks.filter (· ≠ (BitVec.ofNat 8 ctx, v)) })) := by
  have hw : (s.hearth gh).walksNow.contains (BitVec.ofNat 8 ctx, v) = true := by simpa [Hearth.walksNow] using h
  show execTlbWalkComplete gh ctx v s = _
  simp only [execTlbWalkComplete, hw, Bool.not_true, Bool.false_eq_true, if_false]
  rfl

/-- A fragment in the table stands there. -/
theorem mem_frags_of_live (s : State) (f : Nat) (h : (s.frag f).live = true) : (f, s.frag f) ∈ s.frags := by
  revert h
  unfold State.frag
  induction s.frags with
  | nil => exact fun h => absurd h Bool.false_ne_true
  | cons p t ih =>
    rw [Sparse.get]
    split
    · rename_i hk
      subst hk
      exact fun _ => List.mem_cons_self
    · exact fun h => List.mem_cons_of_mem _ (ih h)

theorem onCore_live (x : Frag) (h : x.onCore = true) : x.live = true := by
  unfold Frag.onCore at h
  split at h
  · exact h
  · cases h

theorem mem_walkers (s : State) (gh : Nat) (c : BitVec 8) (v f : Nat) (hon : (s.frag f).onCore = true)
    (hh : coreHearth (s.frag f).gc = gh) (h : ¬ NotWalking c v (s.frag f)) : f ∈ s.walkers gh c v := by
  refine List.mem_map.mpr ⟨_, List.mem_filter.mpr ⟨mem_frags_of_live s f (onCore_live _ hon), ?_⟩, rfl⟩
  have hne : (s.frag f).walking c v ≠ [] := by
    intro hnil
    refine h fun e he hw => ?_
    have hm : e ∈ (s.frag f).walking c v := by simp [Frag.walking, he, hw]
    rw [hnil] at hm
    exact List.not_mem_nil hm
  simp [hon, hh, hne]

end Sys2Proof.Machine
end

section
/-! The start of a park: the fragments of a cast are to park, and the cast waits for those that stand in a slot (R51, R208). -/

namespace Sys2Proof.Sparse

variable {α : Type}

/-- Inserting a key drops no entry but the one that is read by that key. -/
theorem mem_insert_of_mem (d : α) (l : List (Nat × α)) (k : Nat) (v : α) (q : Nat × α) (h : q ∈ l) :
    q ∈ insert l k v ∨ q = (k, get d l k) := by
  induction l with
  | nil => exact absurd h List.not_mem_nil
  | cons p t ih =>
    obtain ⟨k', v'⟩ := p
    rw [insert, get]
    rcases List.mem_cons.mp h with rfl | ht
    · split
      · simp
      · split
        · rename_i hk
          exact .inr (by rw [hk])
        · simp
    · by_cases h1 : k < k'
      · simp [h1, ht]
      · by_cases h2 : k = k'
        · simp [h2, ht]
        · rw [if_neg h1, if_neg h2, if_neg h2]
          exact (ih ht).imp (List.mem_cons_of_mem _) id

theorem mem_insert_self (l : List (Nat × α)) (k : Nat) (v : α) : (k, v) ∈ insert l k v := by
  induction l with
  | nil => exact List.mem_cons_self
  | cons p t ih =>
    obtain ⟨k', v'⟩ := p
    rw [insert]
    split
    · exact List.mem_cons_self
    · split
      · exact List.mem_cons_self
      · exact List.mem_cons_of_mem _ ih

theorem mem_erase_of_mem (l : List (Nat × α)) (k : Nat) (q : Nat × α) (h : q ∈ l) (hk : q.1 ≠ k) : q ∈ erase l k :=
  List.mem_filter.mpr ⟨h, by simpa using hk.symm⟩

end Sys2Proof.Sparse

namespace Sys2Proof.Machine
open Sys2Proof.Claims

/-! ### Fragments in their slots -/

/-- The fragment stands in a slot of a core: it issues there, or is to leave it. -/
def Frag.inSlot (x : Frag) : Bool :=
  x.live && match x.place with
    | .core .. => true
    | .departing .. => true
    | _ => false

theorem inSlot_live (x : Frag) (h : x.inSlot = true) : x.live = true := by
  unfold Frag.inSlot at h
  exact (Bool.and_eq_true_iff.mp h).1

theorem inSlot_of_onCore (x : Frag) (h : x.onCore = true) : x.inSlot = true := by
  have hl := onCore_live x h
  unfold Frag.onCore at h
  unfold Frag.inSlot
  split at h
  · rename_i hp
    simp [hl, hp]
  · cases h

theorem startPark_live (x : Frag) (a : Nat) : (x.startPark a).live = x.live := by
  unfold Frag.startPark
  split <;> rfl

theorem startPark_hoist (x : Frag) (a : Nat) : (x.startPark a).hoist = x.hoist := by
  unfold Frag.startPark
  split <;> rfl

theorem startPark_inSlot (x : Frag) (a : Nat) : (x.startPark a).inSlot = x.inSlot := by
  unfold Frag.startPark
  split
  · rename_i h
    simp [Frag.inSlot, h]
  · rename_i h
    simp [Frag.inSlot, h]
  · rename_i h
    simp [Frag.inSlot, h]
  · rfl

/-- A cast has a fragment in a slot, so that a park of it is not done. -/
def State.castInSlots (s : State) (c : Nat) : Prop := ∃ e ∈ s.castFrags c, (s.frag e).inSlot = true

theorem parkDone_of_castInSlots (s : State) (c : Nat) (h : s.castInSlots c) : s.parkDone c = false := by
  obtain ⟨e, he, hs⟩ := h
  refine Bool.and_eq_false_iff.mpr (.inr (List.all_eq_false.mpr ⟨e, he, ?_⟩))
  unfold Frag.inSlot at hs
  cases hp : (s.frag e).place <;> simp [hp] at hs ⊢

/-- A park that is not done does not end. -/
theorem finishPark_of_castInSlots (s : State) (c : Nat) (h : s.castInSlots c) : s.finishPark c = s := by
  unfold State.finishPark
  rw [parkDone_of_castInSlots s c h]
  rfl

/-- A cast stands as before where tables and casts of hoists are the same. -/
theorem castInSlots_congr {s t : State} (hf : t.frags = s.frags) (hh : t.hoists = s.hoists) (c : Nat) :
    t.castInSlots c ↔ s.castInSlots c := by
  unfold State.castInSlots State.castFrags State.frag State.hoist
  rw [hf, hh]

/-- A change of a fragment that leaves its hoist and its slot leaves it among those of its cast. -/
theorem castInSlots_modFrag (s : State) (f : Nat) (g : Frag → Frag) (hl : (g (s.frag f)).live = (s.frag f).live)
    (hh : (g (s.frag f)).hoist = (s.frag f).hoist) (hi : (g (s.frag f)).inSlot = (s.frag f).inSlot) (c : Nat) (h : s.castInSlots c) :
    (s.modFrag f g).castInSlots c := by
  obtain ⟨e, he, hs⟩ := h
  refine ⟨e, ?_, ?_⟩
  · obtain ⟨⟨e', x⟩, hx, rfl⟩ := List.mem_map.mp he
    obtain ⟨hmem, hc⟩ := List.mem_filter.mp hx
    by_cases hef : e' = f
    · subst hef
      have hlive : (g (s.frag e')).live = true := by rw [hl]; exact inSlot_live _ hs
      have hne : g (s.frag e') ≠ Frag.dead := fun hd => by rw [hd] at hlive; cases hlive
      have hset : (s.modFrag e' g).frags = Sparse.insert s.frags e' (g (s.frag e')) := if_neg hne
      rcases Sparse.mem_insert_of_mem Frag.dead s.frags e' (g (s.frag e')) (e', x) hmem with hin | heq
      · exact List.mem_map.mpr ⟨(e', x), List.mem_filter.mpr ⟨hset ▸ hin, hc⟩, rfl⟩
      · have hxe : x = s.frag e' := (Prod.mk.inj heq).2
        refine List.mem_map.mpr ⟨(e', g (s.frag e')), List.mem_filter.mpr ⟨hset ▸ Sparse.mem_insert_self .., ?_⟩, rfl⟩
        rw [hxe] at hc
        rw [modFrag_hoist, hl, hh]
        exact hc
    · refine List.mem_map.mpr ⟨(e', x), List.mem_filter.mpr ⟨?_, hc⟩, rfl⟩
      show (e', x) ∈ Sparse.set Frag.dead s.frags f (g (s.frag f))
      unfold Sparse.set
      split
      · exact Sparse.mem_erase_of_mem _ _ _ hmem hef
      · rcases Sparse.mem_insert_of_mem Frag.dead s.frags f (g (s.frag f)) (e', x) hmem with hin | heq
        · exact hin
        · exact absurd (Prod.mk.inj heq).1 hef
  · rw [modFrag_frag]
    split
    · rename_i h
      subst h
      rw [hi]
      exact hs
    · exact hs

/-! ### A cast begins to park -/

/-- A cast and its fragments are to park (R51). -/
def State.startParking (s : State) (c : Nat) : State :=
  let fs := s.castFrags c
  let s1 := fs.foldl (fun a f => a.modFrag f fun y => y.startPark (s.cast c).anchor) (s.modCast c fun y => { y with parking := true })
  { s1 with hearths := s1.hearths.map fun (q : Nat × Hearth) =>
      (q.1, { q.2 with arrivals := q.2.arrivals.filter fun f => !fs.contains f }) }

theorem startParking_keptBytes (s : State) (c : Nat) : KeptBytes s (s.startParking c) := by
  refine keptBytes_of_eq (foldl_keeps State.mem _ ?_ _ _) (foldl_keeps State.marks _ ?_ _ _)
  · exact fun _ _ => rfl
  · exact fun _ _ => rfl

theorem startParking_casts (s : State) (c : Nat) :
    (s.startParking c).casts = (s.modCast c fun y => { y with parking := true }).casts := by
  refine foldl_keeps State.casts _ ?_ _ _
  exact fun _ _ => rfl

theorem startParking_cast (s : State) (c k : Nat) :
    (s.startParking c).cast k = if k = c then { s.cast c with parking := true } else s.cast k := by
  rw [State.cast, startParking_casts]
  exact modCast_cast ..

theorem startParking_castInSlots (s : State) (c k : Nat) (h : s.castInSlots k) : (s.startParking c).castInSlots k := by
  unfold State.startParking
  refine foldl_preserves (fun a => a.castInSlots k) _ ?_ _ _ h
  exact fun a f ha => castInSlots_modFrag a f _ (startPark_live ..) (startPark_hoist ..) (startPark_inSlot ..) k ha

/-- A cast that has a fragment in a slot begins to park and does not end, or parks already. -/
theorem beginPark_of_castInSlots (s : State) (c : Nat) (h : s.castInSlots c) :
    s.beginPark c = if (s.cast c).st ≠ .running ∧ (s.cast c).st ≠ .raised ∨ (s.cast c).parking then s else s.startParking c := by
  unfold State.beginPark
  dsimp only
  split
  · rfl
  · exact finishPark_of_castInSlots _ _ (startParking_castInSlots s c c h)

/-- What the start of parks does: the casts of the list that run park, those that parked before park still, and no byte changes. -/
structure ParkBegun (s t : State) (l : List Nat) : Prop where
  bytes  : KeptBytes s t
  begins : ∀ k ∈ l, (s.cast k).st = .running ∨ (s.cast k).st = .raised → (t.cast k).parking = true
  keeps  : ∀ k, (s.cast k).parking = true → (t.cast k).parking = true

theorem beginPark_st (s : State) (c k : Nat) (h : s.castInSlots c) : ((s.beginPark c).cast k).st = (s.cast k).st := by
  rw [beginPark_of_castInSlots s c h]
  split
  · rfl
  · rw [startParking_cast]
    split
    · rename_i hk
      rw [hk]
    · rfl

theorem beginPark_begun (s : State) (c : Nat) (h : s.castInSlots c) : ParkBegun s (s.beginPark c) [c] := by
  rw [beginPark_of_castInSlots s c h]
  split
  · rename_i hc
    refine ⟨⟨fun _ => rfl, fun _ => rfl⟩, fun k hk hst => ?_, fun _ hp => hp⟩
    rw [List.mem_singleton.mp hk] at hst ⊢
    exact hc.resolve_left fun hn => hst.elim hn.1 hn.2
  · refine ⟨startParking_keptBytes s c, fun k hk _ => ?_, fun k hp => ?_⟩
    · rw [startParking_cast, if_pos (List.mem_singleton.mp hk)]
    · rw [startParking_cast]
      split
      · rfl
      · exact hp

theorem beginPark_castInSlots (s : State) (c k : Nat) (h : s.castInSlots c) (hk : s.castInSlots k) : (s.beginPark c).castInSlots k := by
  rw [beginPark_of_castInSlots s c h]
  split
  · exact hk
  · exact startParking_castInSlots s c k hk

theorem foldl_beginPark (l : List Nat) (s : State) (h : ∀ c ∈ l, s.castInSlots c) : ParkBegun s (l.foldl State.beginPark s) l := by
  induction l generalizing s with
  | nil => exact ⟨⟨fun _ => rfl, fun _ => rfl⟩, fun _ hk => absurd hk List.not_mem_nil, fun _ hp => hp⟩
  | cons c l ih =>
    have hc := h c List.mem_cons_self
    obtain ⟨hbytes, hbegins, hkeeps⟩ := beginPark_begun s c hc
    obtain ⟨hbytes', hbegins', hkeeps'⟩ := ih (s.beginPark c) fun k hk =>
      beginPark_castInSlots s c k hc (h k (List.mem_cons_of_mem _ hk))
    refine ⟨⟨fun a => (hbytes'.memory a).trans (hbytes.memory a), fun w => (hbytes'.marks w).trans (hbytes.marks w)⟩,
      fun k hk hst => ?_, fun k hp => hkeeps' k (hkeeps k hp)⟩
    rcases List.mem_cons.mp hk with rfl | hk
    · exact hkeeps' k (hbegins k (List.mem_singleton.mpr rfl) hst)
    · exact hbegins' k hk (by rwa [beginPark_st s c k hc])

/-! ### The answer of the launch hearth (R408) -/

/-- A fragment that has its answer waits for it no longer. -/
def State.answered (s : State) (f : Nat) : State := (s.noteReady f).modFrag f fun x => { x with asking := false }

theorem answered_rest (s : State) (f : Nat) : { s.answered f with cores := s.cores, frags := s.frags } = s :=
  (congrArg (fun t : State => { t with frags := s.frags }) (noteReady_rest s f) :)

theorem answered_frag (s : State) (f k : Nat) :
    (s.answered f).frag k = if k = f then { s.frag f with asking := false } else s.frag k := by
  rw [State.answered, modFrag_frag, noteReady_frag, noteReady_frag]

theorem answered_castInSlots (s : State) (f c : Nat) (h : s.castInSlots c) : (s.answered f).castInSlots c := by
  refine castInSlots_modFrag _ f _ rfl rfl rfl c ((castInSlots_congr (noteReady_frags s f) ?_ c).mpr h)
  exact (congrArg State.hoists (noteReady_rest s f) :)

theorem exec_landing_parkAnswer (s : State) (n : Nat) (p : Packet) (c f : Nat) (parks : Bool) (hr : s.ready n = some p)
    (hb : p.body = .parkAnswer c f parks) (hl : (s.frag f).live = true) (ha : (s.frag f).asking = true) :
    exec (.landing n) s = .next (if parks then (((s.dropPacket n).countRecv p).answered f).parkGang c
      else ((s.dropPacket n).countRecv p).answered f) := by
  show execLanding n s = _
  simp only [execLanding, hr, hb, hl, ha, Bool.and_self, if_true]
  rfl

/-- The gang of a cast, by its pour. -/
theorem gangOf_congr {s t : State} (h : t.pours = s.pours) (c : Nat) : t.gangOf c = s.gangOf c := by
  unfold State.gangOf State.pour
  rw [h]

end Sys2Proof.Machine
end

section
/-! O41: completions and control messages do what they announce. -/

namespace Sys2Proof.Machine
open Sys2Proof.Claims

/-! ### What each message does, as one state -/

theorem exec_acknowledgementRequest (s : State) (n : Nat) (p : Packet) (src tgt place : Nat) (hr : s.ready n = some p)
    (hb : p.body = .ackRequest src tgt place) :
    exec (.acknowledgementRequest n) s = .next
      (((if s.refuses p then (s.dropPacket n).noteRefused p else s.dropPacket n).countRecv p).answer (tgtSrc tgt) place p.ctx
        (.ack src tgt (Sparse.get 0 (s.hearth tgt).applied src) false)) := by
  show execAcknowledgementRequest n s = _
  simp only [execAcknowledgementRequest, hr, hb]

theorem exec_engineRead (s : State) (n : Nat) (p : Packet) (k : Nat) (pas : List Nat) (hr : s.ready n = some p)
    (hb : p.body = .engineRead k pas) (hok : s.refuses p = false) :
    exec (.engineRead n) s = .next
      (((s.dropPacket n).countRecv p).answer (if p.tgt < 1024 then seqrSrc p.tgt else hostSrc (p.tgt - 1024)) (2048 + srcCore p.src)
        p.ctx (.readData k (srcUnit p.src = 3) (pas.map fun a => (s.byte a, s.mark (a / 4))))) := by
  show execEngineRead n s = _
  simp only [execEngineRead, hr, hb, hok, Bool.false_eq_true, if_false]

theorem exec_drainRequest (s : State) (n : Nat) (p : Packet) (gc count f : Nat) (hr : s.ready n = some p)
    (hb : p.body = .drainRequest gc count f) :
    exec (.drainRequest n) s = .next (if (s.core gc).drainedTo count then
      ((s.dropPacket n).countRecv p).answer (coreSrc gc 0 7) (srcPlace p.src) p.ctx (.drainAnswer f) else s) := by
  show execDrainRequest n s = _
  simp only [execDrainRequest, hr, hb]

/-- A wait of a promoted acquire (R237). -/
def Wait.isPromote : Wait → Bool
  | .promote .. => true
  | _ => false

theorem exec_drainAnswer (s : State) (n : Nat) (p : Packet) (f : Nat) (hr : s.ready n = some p) (hb : p.body = .drainAnswer f)
    (hf : (s.frag f).onCore = true) :
    exec (.drainAnswer n) s = .next
      ((((s.dropPacket n).countRecv p).noteReady f).modFrag f fun x => x.release Wait.isPromote false) := by
  show execDrainAnswer n s = _
  simp only [execDrainAnswer, hr, hb, hf, if_true]
  rfl

theorem release_promote (e : Entry) : e.release Wait.isPromote false =
    match e.wait with | some (.promote ..) => { e with wait := none } | _ => e := by
  unfold Entry.release Wait.isPromote
  cases e.wait with
  | none => rfl
  | some w => cases w <;> simp

/-- A core takes the hint of a switch (R289). -/
def Core.hinted (c : Core) (tgs : List Nat) (now : Nat) : Core :=
  { c with hints := (c.hints.filter fun h => !tgs.contains h.target) ++ tgs.map fun t => { target := t, deadline := now + 4096 } }

theorem mem_hinted (c : Core) (tgs : List Nat) (now : Nat) (h : Hint) : h ∈ (c.hinted tgs now).hints ↔
    (h ∈ c.hints ∧ h.target ∉ tgs) ∨ ∃ tg ∈ tgs, h = { target := tg, deadline := now + 4096 } := by
  simp [Core.hinted, @eq_comm _ h]

theorem exec_stallHint (s : State) (n : Nat) (p : Packet) (tgs : List Nat) (hr : s.ready n = some p) (hb : p.body = .stallHint tgs) :
    exec (.stallHint n) s = .next (((s.dropPacket n).countRecv p).modCore (p.tgt - 2048) fun c => c.hinted tgs s.now) := by
  show execStallHint n s = _
  simp only [execStallHint, hr, hb]
  rfl

theorem exec_landing (s : State) (n : Nat) (p : Packet) (f : Nat) (hr : s.ready n = some p) (hb : p.body = .landing f) :
    exec (.landing n) s = .next ((s.dropPacket n).countRecv p) := by
  show execLanding n s = _
  simp only [execLanding, hr, hb]

theorem exec_landing_opened (s : State) (n : Nat) (p : Packet) (hk : Nat) (lanes : LaneMask) (pc next : DWord)
    (hr : s.ready n = some p) (hb : p.body = .opened hk lanes pc next) :
    exec (.landing n) s = .next (((s.dropPacket n).countRecv p).passAway { hoist := hk, pc, next, lanes }) := by
  show execLanding n s = _
  simp only [execLanding, hr, hb]

theorem exec_stallHintRaise (s : State) (gc switch out : Nat) (p : Packet) (hq : s.queuedAt gc switch out = some p) :
    exec (.stallHintRaise gc switch out) s = .next (s.answer (hearthSrc switch 5) (2048 + gc) p.ctx
      (.stallHint (if out = 5 ∨ out = 6 then s.beyond p.gen switch out else [p.tgt]))) := by
  show execStallHintRaise gc switch out s = _
  simp only [execStallHintRaise, hq]

/-! ### The acknowledgement of a core's packets -/

section Ack

variable (s : State) (src tgt : Nat) (seq : Word) (refused : Bool) (f k : Nat)

/-- A fragment of the core drops what is acknowledged. -/
theorem coreAck_ackFrags_pseq (hp : (s.frag f).place = .core (srcCore src) k) :
    (((s.coreAck src tgt seq refused).ackFrags (srcCore src) src tgt seq).frag f).pseq = ((s.frag f).acked src tgt seq).pseq := by
  have h := coreAck_frag s src tgt seq refused f
  have hplace : ((s.coreAck src tgt seq refused).frag f).place = .core (srcCore src) k :=
    (congrArg Frag.place h :).trans hp
  rw [ackFrags_frag, ackedAt_of_place _ _ _ _ _ _ hplace]
  exact (congrArg (fun x : Frag => (x.acked src tgt seq).pseq) h :)

/-- A fragment whose packet is refused, and that stands in its slot still, is to raise PARTITION (R387). -/
theorem coreAck_ackFrags_async (u : Unacked) (hp : (s.frag f).place = .core (srcCore src) k)
    (hu : ((s.core (srcCore src)).unacked.find? fun u => u.src = src && u.tgt = tgt && u.seq = seq) = some u)
    (hf : u.frag = some f) (hunit : srcUnit src = 0) (hl : (s.frag f).live = true) (hs : coreSrc (srcCore src) k 0 = src) :
    ∃ a ∈ (((s.coreAck src tgt seq true).ackFrags (srcCore src) src tgt seq).frag f).async, a.code = Cause.partition := by
  have ho : orderSrc src = src := by
    rw [orderSrc, hunit]
    rfl
  have hplace : ((s.coreAck src tgt seq true).frag f).place = .core (srcCore src) k :=
    (congrArg Frag.place (coreAck_frag s src tgt seq true f) :).trans hp
  rw [ackFrags_frag, ackedAt_of_place _ _ _ _ _ _ hplace, coreAck_eq]
  simp only [hu, hf, if_true, Option.bind_some]
  refine refusedAt_async _ src tgt seq _ f (by rw [ho, hunit]) ?_
  rw [(forgetAcked_only ..).frag, ho]
  simp [Frag.standsIn, hl, hp, hs]

end Ack

/-- Settles O41: each message is answered, counted or taken as one state that is written out above, and the lemmas about what that
state keeps say the rest. -/
theorem messagesTakeEffect : Obligations.MessagesTakeEffect := by
  unfold Obligations.MessagesTakeEffect
  refine ⟨fun s n p hr => ⟨?ack, ?ackRequest, ?engineRead, ?readData, ?drainRequest, ?drainAnswer, ?stallHint, ?landing, ?opened,
    ?parkAnswer⟩, ?timeout, ?raises, ?lapse, ?walk⟩
  case ack =>
    intro src tgt seq refused hb hc ht hlt
    have hT := taken_only s n p
    have hcore : ((s.dropPacket n).countRecv p).core = s.core := rfl
    have hfrag : ((s.dropPacket n).countRecv p).frag = s.frag := rfl
    refine ⟨_, exec_acknowledgement s n p src tgt seq refused hr hb hc ht hlt, ?_, fun u => ?_, fun f k hp =>
      ⟨coreAck_ackFrags_pseq _ src tgt seq refused f k hp, ?_⟩⟩
    · obtain ⟨hm, hk⟩ := coreAck_keptBytes ((s.dropPacket n).countRecv p) src tgt seq refused
      exact ⟨hm, hk⟩
    · rw [← mem_stillUnacked, ← hcore, ← coreAck_unacked _ src tgt seq refused]
      rfl
    · intro u hu hf hre hunit hl hs
      subst hre
      exact coreAck_ackFrags_async _ src tgt seq f k u hp hu hf hunit hl hs
  case ackRequest =>
    intro src tgt place hb
    refine ⟨_, _, exec_acknowledgementRequest s n p src tgt place hr hb, replies_of_net _ _ _ _ _ _ _ _ ?_, rfl, rfl,
      fun hok => ?_, fun hre => ?_⟩
    · split
      · exact noteRefused_net ..
      · rfl
    · rw [hok]
      exact ((taken_only s n p).trans (answer_only ..)).keptBytes
    · rw [hre, if_pos rfl, (answer_only ..).hearth, countRecv_hearth, noteRefused_counter, noteRefused_errCount, dropPacket_hearth]
      exact ⟨rfl, rfl⟩
  case engineRead =>
    intro k pas hb hok
    exact ⟨_, _, exec_engineRead s n p k pas hr hb hok, ((taken_only s n p).trans (answer_only ..)).keptBytes,
      replies_of_net _ _ _ _ _ _ _ _ rfl, rfl, rfl⟩
  case readData =>
    intro k co bs hb
    have h := received_rest ((s.dropPacket n).countRecv p) k bs
    refine ⟨_, exec_readData s n p k co bs hr hb, keptBytes_of_eq (congrArg State.mem h :) (congrArg State.marks h :),
      (congrArg State.net h :), fun j hj => received_cmd_other _ k bs j hj, fun he hs => ?_, fun old he hs ha hold =>
        received_copy _ k bs old he hs ha hold⟩
    rw [received_bank ((s.dropPacket n).countRecv p) k bs he hs]
    refine ⟨rfl, fun j hj => ?_⟩
    have hw := resultWords_get bs.length bs 0 j (by omega) hj
    rwa [Nat.zero_add] at hw
  case drainRequest =>
    intro gc count f hb
    have hexec := exec_drainRequest s n p gc count f hr hb
    refine ⟨fun hd => ?_, fun hd => ?_⟩
    · rw [if_pos hd] at hexec
      exact ⟨_, _, hexec, ((taken_only s n p).trans (answer_only ..)).keptBytes, replies_of_net _ _ _ _ _ _ _ _ rfl, rfl, rfl⟩
    · rwa [hd] at hexec
  case drainAnswer =>
    intro f hb hf
    have h := noteReady_rest ((s.dropPacket n).countRecv p) f
    refine ⟨_, exec_drainAnswer s n p f hr hb hf, keptBytes_of_eq (congrArg State.mem h :) (congrArg State.marks h :),
      (congrArg State.net h :), ?_⟩
    rw [modFrag_frag, if_pos rfl, noteReady_frag]
    exact List.map_congr_left fun e _ => release_promote e
  case stallHint =>
    intro tgs hb
    refine ⟨_, exec_stallHint s n p tgs hr hb, ⟨fun _ => rfl, fun _ => rfl⟩, rfl, fun h => ?_⟩
    rw [modCore_core, if_pos rfl]
    exact mem_hinted ..
  case landing =>
    intro f hb
    exact ⟨_, exec_landing s n p f hr hb, (taken_only s n p).keptBytes, rfl, rfl⟩
  case opened =>
    intro hk lanes pc next hb hnd
    have h := passAway_rest ((s.dropPacket n).countRecv p) { hoist := hk, pc, next, lanes }
    exact ⟨_, exec_landing_opened s n p hk lanes pc next hr hb, keptBytes_of_eq (congrArg State.mem h :) (congrArg State.marks h :),
      (congrArg State.net h :), passAway_frag ((s.dropPacket n).countRecv p) { hoist := hk, pc, next, lanes } hnd⟩
  case parkAnswer =>
    intro c f parks hb hl ha
    have hexec := exec_landing_parkAnswer s n p c f parks hr hb hl ha
    have h := answered_rest ((s.dropPacket n).countRecv p) f
    have hframe : KeptBytes s (((s.dropPacket n).countRecv p).answered f) :=
      keptBytes_of_eq (congrArg State.mem h :) (congrArg State.marks h :)
    refine ⟨fun hp => ?_, fun hp hgang => ?_⟩
    · subst hp
      refine ⟨_, hexec, hframe, (congrArg State.net h :), (congrArg State.casts h :), ?_, fun e he => ?_⟩
      · exact (answered_frag ..).trans (if_pos rfl)
      · exact (answered_frag ..).trans (if_neg he)
    · subst hp
      have hpours : (((s.dropPacket n).countRecv p).answered f).pours = s.pours := (congrArg State.pours h :)
      obtain ⟨hbytes, hbegins, -⟩ := foldl_beginPark (s.gangOf c) (((s.dropPacket n).countRecv p).answered f) fun k hk => by
        obtain ⟨e, he, hon⟩ := hgang k hk
        exact answered_castInSlots _ f k ⟨e, he, inSlot_of_onCore _ hon⟩
      rw [← gangOf_congr hpours c] at hbytes hbegins
      refine ⟨_, hexec, ⟨fun a => (hbytes.memory a).trans (hframe.memory a), fun w => (hbytes.marks w).trans (hframe.marks w)⟩,
        fun k hk hst => hbegins k ?_ ?_⟩
      · rwa [gangOf_congr hpours]
      · rwa [State.cast, (congrArg State.casts h :)]
  case timeout =>
    intro s n
    refine ⟨_, exec_ackTimeout s n, ?_, fun u hu hsrc hlate => ?_, fun hnone => ?_⟩
    · exact ((askAgain_only s n).trans (.foldl _ (askFor_only n) _ _)).keptBytes
    · exact foldl_askFor_asks n _ _ u (List.mem_filter.mpr ⟨hu, (late_iff u n s.now).mpr ⟨hsrc, hlate⟩⟩)
    · have hnil : ((s.unackedOf n).filter fun u => u.late n s.now) = [] := by
        refine List.filter_eq_nil_iff.mpr fun u hu hlate => ?_
        obtain ⟨hsrc, hl⟩ := (late_iff u n s.now).mp hlate
        exact absurd (hnone u hu hsrc) (by omega)
      rw [hnil]
      exact askAgain_net s n
  case raises =>
    intro s gc switch out p hq
    exact ⟨_, _, exec_stallHintRaise s gc switch out p hq, (answer_only ..).keptBytes, answer_net .., rfl, rfl, rfl⟩
  case lapse =>
    intro s gc target
    refine ⟨_, rfl, ⟨fun _ => rfl, fun _ => rfl⟩, fun h => ?_⟩
    rw [modCore_core, if_pos rfl]
    simp
  case walk =>
    intro s gh ctx v hw
    let c : BitVec 8 := BitVec.ofNat 8 ctx
    let r := s.walk (gh / 16) ctx (v * 65536)
    let s1 := s.modHearth gh fun h => { h with walks := h.walks.filter (· ≠ (c, v)) }
    have hrest := foldl_endWalkOf_rest c v r (s.walkers gh c v) s1
    refine ⟨_, exec_tlbWalkComplete s gh ctx v hw, keptBytes_of_eq (congrArg State.mem hrest :) (congrArg State.marks hrest :), ?_,
      fun f hon hh => ?_⟩
    · rw [State.hearth, (congrArg State.hearths hrest :)]
      show _ ∉ ((s.modHearth gh _).hearth gh).walks
      rw [modHearth_hearth, if_pos rfl]
      simp [c]
    · by_cases hwait : NotWalking c v (s.frag f)
      · refine ⟨?_, fun e he hew => absurd hew (hwait e he)⟩
        exact foldl_preserves (fun a => NotWalking c v (a.frag f)) _
          (fun a g ha => endWalkOf_notWalking c v r a g f (.inr ha)) _ s1 hwait
      · obtain ⟨hwaits, hfills, hbad⟩ := foldl_endWalkOf c v r _ s1 f (mem_walkers s gh c v f hon hh hwait)
        exact ⟨hwaits, fun e he hew => ⟨hfills, fun hn => hbad hn e he hew⟩⟩

end Sys2Proof.Machine
end

section
/-! How a posted packet that its home takes is applied and acknowledged, and what barriers, exits, releases and kills keep of the state
(R42, R275, R307, R325, R352, R414). -/

namespace Sys2Proof.Machine
open Sys2Proof.Claims

/-! ### Applying and acknowledging (R275) -/

/-- The home of a packet keeps its number and counts it. -/
def State.counted (s : State) (p : Packet) : State :=
  (s.modHearth p.tgt fun h => { h with applied := Sparse.set 0 h.applied p.src p.seq }).countRecv p

theorem acknowledge_only (s : State) (p : Packet) (r : Bool) : PacketsOnly (s.counted p) (s.acknowledge p r) := answer_only ..

theorem acknowledge_net (s : State) (p : Packet) (r : Bool) : (s.acknowledge p r).net =
    s.net ++ [(s.counted p).outgoing (tgtSrc p.tgt) (srcPlace p.src) p.ctx false none (.ack p.src p.tgt p.seq r)] := answer_net ..

theorem acknowledge_hearth (s : State) (p : Packet) (r : Bool) (g : Nat) : (s.acknowledge p r).hearth g =
    if g = p.tgt then { s.hearth p.tgt with applied := Sparse.set 0 (s.hearth p.tgt).applied p.src p.seq } else s.hearth g := by
  rw [(acknowledge_only s p r).hearth, State.counted, countRecv_hearth, modHearth_hearth]

section Acknowledge

variable (s : State) (p : Packet) (r : Bool) (k : Nat)

theorem acknowledge_byte : (s.acknowledge p r).byte k = s.byte k := (acknowledge_only ..).byte k
theorem acknowledge_frags : (s.acknowledge p r).frags = s.frags := (acknowledge_only ..).frags
theorem acknowledge_hoist : (s.acknowledge p r).hoist k = s.hoist k := (acknowledge_only ..).hoist k
theorem acknowledge_hoists : (s.acknowledge p r).hoists = s.hoists := (acknowledge_only ..).hoists
theorem acknowledge_cast : (s.acknowledge p r).cast k = s.cast k := (acknowledge_only ..).cast k
theorem acknowledge_pour : (s.acknowledge p r).pour k = s.pour k := (acknowledge_only ..).pour k
theorem acknowledge_cmd : (s.acknowledge p r).cmd k = s.cmd k := (acknowledge_only ..).cmd k

end Acknowledge

/-- A packet that is applied is acknowledged last. -/
theorem answers_acknowledge (s : State) (p : Packet) (r : Bool) : Answers (s.acknowledge p r) p r where
  number := by
    rw [acknowledge_hearth, if_pos rfl]
    exact (Sparse.get_set (0 : Word) _ _ _ _).trans (if_pos rfl)
  ack := by
    rw [acknowledge_net, List.getLast?_concat]
    exact ⟨_, rfl, rfl, rfl, rfl, rfl⟩

theorem acknowledge_keptBytes (s a : State) (p : Packet) (r : Bool) (h : KeptBytes s a) : KeptBytes s (a.acknowledge p r) where
  memory x := ((acknowledge_only a p r).byte x).trans (h.memory x)
  marks w := ((acknowledge_only a p r).mark w).trans (h.marks w)

section Posted

variable {s : State} {n : Nat} {p : Packet} (hr : s.ready n = some p) (hroom : s.noRoom p = false)
include hr hroom

/-- A packet that its home takes is applied to the state without it. -/
theorem applyPosted_some (hok : s.refuses p = false) (f : Packet → State → Option State) (u : State)
    (hf : f p (s.dropPacket n) = some u) : s.applyPosted n f = u.acknowledge p false := by
  simp only [State.applyPosted, hr, hroom, hf, hok, Bool.false_eq_true, if_false]

/-- A packet for which its home has no place waits. -/
theorem applyPosted_none (f : Packet → State → Option State) (hf : f p (s.dropPacket n) = none) : s.applyPosted n f = s := by
  simp only [State.applyPosted, hr, hroom, hf, Bool.false_eq_true, if_false]

end Posted

/-! ### Passing barriers (R352) -/

/-- Only packets and the fragments' places, waits and drains have changed; the pins of fragments are as before. -/
structure PassOnly (s t : State) : Prop where
  pins : ∀ f, (t.frag f).pinned = (s.frag f).pinned
  rest : { t with net := s.net, seqs := s.seqs, sentCnt := s.sentCnt, recvCnt := s.recvCnt, cores := s.cores,
                  unacked := s.unacked, frags := s.frags } = s

namespace PassOnly

theorem refl (s : State) : PassOnly s s := ⟨fun _ => rfl, rfl⟩

theorem trans {s t u : State} (h : PassOnly s t) (k : PassOnly t u) : PassOnly s u where
  pins f := (k.pins f).trans (h.pins f)
  rest := by
    rw [← h.rest, ← k.rest]

theorem foldl {α : Type} (f : State → α → State) (h : ∀ s x, PassOnly s (f s x)) (l : List α) (s : State) :
    PassOnly s (l.foldl f s) :=
  foldl_preserves (PassOnly s) f (fun a x ha => ha.trans (h a x)) l s (.refl s)

variable {s t : State} (h : PassOnly s t)
include h

theorem mem : t.mem = s.mem := (congrArg State.mem h.rest :)
theorem marks : t.marks = s.marks := (congrArg State.marks h.rest :)
theorem hoists : t.hoists = s.hoists := (congrArg State.hoists h.rest :)
theorem casts : t.casts = s.casts := (congrArg State.casts h.rest :)

end PassOnly

theorem PacketsOnly.passOnly {s t : State} (h : PacketsOnly s t) : PassOnly s t where
  pins f := by rw [h.frag]
  rest := by
    obtain ⟨-, hr⟩ := h
    rw [← hr]

theorem passBar_pinned (x : Frag) (w : BarWait) : (x.passBar w).pinned = x.pinned := by
  unfold Frag.passBar
  dsimp only
  split
  · split <;> rfl
  · rfl

theorem passFrag_only (s : State) (w : BarWait) (f : Nat) : PassOnly s (s.passFrag w f) where
  pins k := by
    rw [passFrag_frag]
    split
    · rename_i h
      rw [h, passBar_pinned]
    · rfl
  rest := (congrArg (fun t : State => { t with net := s.net, seqs := s.seqs, sentCnt := s.sentCnt, recvCnt := s.recvCnt,
                                               unacked := s.unacked }) (passFrag_rest s w f) :)

theorem passWait_only (s : State) (w : BarWait) : PassOnly s (s.passWait w) := by
  unfold State.passWait
  refine .foldl _ (fun a f => ?_) _ s
  dsimp only
  split
  · exact passFrag_only ..
  · exact (answer_only ..).passOnly

theorem barAcquire_only (s : State) (c hk : Nat) (lanes : LaneMask) : PassOnly s (s.barAcquire c hk lanes) := by
  unfold State.barAcquire
  dsimp only
  refine .foldl _ ?_ _ s
  refine fun a f => ⟨fun k => ?_, rfl⟩
  rw [modFrag_frag]
  split
  · rename_i h
    rw [h]
  · rfl

/-- The barrier that opens is idle, and its lanes go on; one that is not full, or whose cast parks, stays. -/
theorem openBarrier_cases (s : State) (c num : Nat) : s.openBarrier c num = s ∨
    PassOnly (s.setCast c { s.cast c with bars := Sparse.set .idle (s.cast c).bars num .idle }) (s.openBarrier c num) := by
  unfold State.openBarrier
  dsimp only
  split
  · exact .inl rfl
  · exact .inr (.trans (.foldl _ (fun a q => barAcquire_only ..) _ _) (.foldl _ passWait_only _ _))

theorem openBarrier_opens (s : State) (c num : Nat) (hf : s.barFull c num = true) (hp : (s.cast c).parking = false)
    (hs : (s.cast c).st ≠ .parked) : ((s.openBarrier c num).cast c).bar num = .idle := by
  have ho : PassOnly (s.setCast c { s.cast c with bars := Sparse.set .idle (s.cast c).bars num .idle }) (s.openBarrier c num) := by
    unfold State.openBarrier
    dsimp only
    rw [if_neg (by simp [hf, hp, hs])]
    exact .trans (.foldl _ (fun a q => barAcquire_only ..) _ _) (.foldl _ passWait_only _ _)
  rw [State.cast, ho.casts]
  show ((s.setCast c _).cast c).bar num = _
  rw [setCast_cast, if_pos rfl]
  show Sparse.get Barrier.idle (Sparse.set Barrier.idle (s.cast c).bars num Barrier.idle) num = _
  rw [Sparse.get_set, if_pos rfl]

theorem openBarrier_not (s : State) (c num : Nat) (hf : s.barFull c num = false) : s.openBarrier c num = s := by
  unfold State.openBarrier
  dsimp only
  rw [if_pos (by simp [hf])]

/-- A barrier that is tried changes neither memory nor hoists nor the pins of fragments. -/
theorem openBarrier_kept (s : State) (c num : Nat) : (s.openBarrier c num).mem = s.mem ∧ (s.openBarrier c num).marks = s.marks ∧
    (s.openBarrier c num).hoists = s.hoists ∧ ∀ f, ((s.openBarrier c num).frag f).pinned = (s.frag f).pinned := by
  rcases openBarrier_cases s c num with h | h
  · rw [h]
    exact ⟨rfl, rfl, rfl, fun _ => rfl⟩
  · exact ⟨h.mem, h.marks, h.hoists, h.pins⟩

/-! ### Fragments that end without pins (R42, R388) -/

/-- Memory is as in `s`, and no fragment holds a pin. -/
structure Unpinned (s t : State) : Prop where
  mem   : t.mem = s.mem
  marks : t.marks = s.marks
  pins  : ∀ f, (t.frag f).pinned = []

theorem Unpinned.keptBytes {s t : State} (h : Unpinned s t) : KeptBytes s t := keptBytes_of_eq h.mem h.marks

/-- A fragment without pins ends without a write. -/
theorem endFrag_eq (s : State) (f : Nat) (h : (s.frag f).pinned = []) :
    s.endFrag f = (s.modCore (s.frag f).gc fun c => c.dropVisitor f).setFrag f .dead := by
  have hp : (s.frag f).pinsHeld = [] := by rw [Frag.pinsHeld, h]; rfl
  unfold State.endFrag
  rw [hp]
  rfl

theorem endFrag_unpinned (s a : State) (f : Nat) (h : Unpinned s a) : Unpinned s (a.endFrag f) := by
  rw [endFrag_eq a f (h.pins f)]
  refine ⟨h.mem, h.marks, fun k => ?_⟩
  rw [setFrag_frag]
  split
  · rfl
  · exact h.pins k

theorem endFrag_hoists (s : State) (f : Nat) (h : (s.frag f).pinned = []) : (s.endFrag f).hoists = s.hoists := by
  rw [endFrag_eq s f h]
  rfl

/-! ### Lanes that have exited (R42, R354) -/

/-- Besides, hoist `hk` has at least the exited lanes `m` and its mask registers are `ms`. -/
structure LanesGone (s : State) (hk : Nat) (m : LaneMask) (ms : Tab LaneMask) (t : State) : Prop extends Unpinned s t where
  exited : ∀ l, m.getLsbD l = true → (t.hoist hk).exited.getLsbD l = true
  masks  : (t.hoist hk).masks = ms

section LanesGone

variable {s a : State} {hk : Nat} {m : LaneMask} {ms : Tab LaneMask} (h : LanesGone s hk m ms a)
include h

/-- What changes neither memory nor hoists nor pins keeps them. -/
theorem LanesGone.of_same {b : State} (hm : b.mem = a.mem) (hk' : b.marks = a.marks) (hh : b.hoists = a.hoists)
    (hp : ∀ f, (b.frag f).pinned = (a.frag f).pinned) : LanesGone s hk m ms b where
  mem := hm.trans h.mem
  marks := hk'.trans h.marks
  pins f := (hp f).trans (h.pins f)
  exited := by rw [State.hoist, hh]; exact h.exited
  masks := by rw [State.hoist, hh]; exact h.masks

/-- A change of hoists that clears no exited lane and leaves the mask registers keeps them. -/
theorem LanesGone.modHoist (k : Nat) (g : Hoist → Hoist) (hm : ∀ x, (g x).masks = x.masks)
    (he : ∀ x l, x.exited.getLsbD l = true → l < 32 → (g x).exited.getLsbD l = true) : LanesGone s hk m ms (a.modHoist k g) where
  mem := h.mem
  marks := h.marks
  pins := h.pins
  exited l hl := by
    rw [modHoist_hoist]
    split
    · rename_i hkk
      subst hkk
      exact he _ l (h.exited l hl) (BitVec.lt_of_getLsbD hl)
    · exact h.exited l hl
  masks := by
    rw [modHoist_hoist]
    split
    · rename_i hkk
      subst hkk
      exact (hm _).trans h.masks
    · exact h.masks

end LanesGone

/-- Writes of elements leave masks and exited lanes. -/
theorem setElems_masks (l : List (Nat × Word × Bool)) (x : Hoist) :
    (l.foldl (fun h p => h.setElem (p.1 / 32) (p.1 % 32) p.2.1 p.2.2) x).masks = x.masks ∧
      (l.foldl (fun h p => h.setElem (p.1 / 32) (p.1 % 32) p.2.1 p.2.2) x).exited = x.exited := by
  induction l generalizing x with
  | nil => exact ⟨rfl, rfl⟩
  | cons p l ih => exact ih _

section LanesGone

variable {s a : State} {hk : Nat} {m : LaneMask} {ms : Tab LaneMask} (h : LanesGone s hk m ms a)
include h

theorem LanesGone.applyFill (f : Nat) : LanesGone s hk m ms (a.applyFill f) := by
  unfold State.applyFill
  dsimp only
  split
  · exact h
  · rename_i w rest _
    have hw := h.modHoist (a.frag f).hoist
      (fun x => w.vregs.foldl (fun h p => h.setElem (p.1 / 32) (p.1 % 32) p.2.1 p.2.2) x)
      (fun x => (setElems_masks w.vregs x).1) (fun x l hl _ => by rw [(setElems_masks w.vregs x).2]; exact hl)
    refine hw.of_same rfl rfl rfl fun k => ?_
    rw [modFrag_frag]
    split
    · rename_i hkf
      subst hkf
      split <;> rfl
    · rfl

theorem LanesGone.endFrag (f : Nat) : LanesGone s hk m ms (a.endFrag f) where
  toUnpinned := endFrag_unpinned s a f h.toUnpinned
  exited := by rw [State.hoist, endFrag_hoists a f (h.pins f)]; exact h.exited
  masks := by rw [State.hoist, endFrag_hoists a f (h.pins f)]; exact h.masks

theorem LanesGone.leaveFrag (f : Nat) : LanesGone s hk m ms (a.leaveFrag f) :=
  (foldl_preserves (LanesGone s hk m ms) (fun b _ => b.applyFill f) (fun _ _ hb => hb.applyFill f) (a.frag f).fills a h).endFrag f

/-- What changes casts alone keeps them. -/
theorem LanesGone.of_casts {b : State} (hb : { b with casts := a.casts } = a) : LanesGone s hk m ms b :=
  h.of_same (congrArg State.mem hb :) (congrArg State.marks hb :) (congrArg State.hoists hb :)
    fun f => (congrArg (fun t : State => (t.frag f).pinned) hb :)

end LanesGone

theorem unbind_casts (s : State) (c : Nat) (k : Bool) : { s.unbind c k with casts := s.casts } = s := by
  unfold State.unbind
  split
  · split
    · unfold State.endBinding
      split <;> rfl
    · rfl
  · rfl

theorem freeBindings_casts (s : State) (c : Nat) : { s.freeBindings c with casts := s.casts } = s := by
  unfold State.freeBindings
  split
  · exact (congrArg (fun t : State => { t with casts := s.casts }) (unbind_casts _ c true) :).trans (unbind_casts s c false)
  · rfl

/-- A gang that gives its room back changes casts alone. -/
theorem settleCast_casts (s : State) (c : Nat) : { s.settleCast c with casts := s.casts } = s := by
  unfold State.settleCast
  dsimp only
  split
  · refine foldl_preserves (fun a => { a with casts := s.casts } = s) _ ?_ _ _ (freeBindings_casts s c)
    exact fun _ _ ha => ha
  · exact freeBindings_casts s c

section LanesGone

variable {s a : State} {hk : Nat} {m : LaneMask} {ms : Tab LaneMask} (h : LanesGone s hk m ms a)
include h

theorem LanesGone.settleCast (c : Nat) : LanesGone s hk m ms (a.settleCast c) := h.of_casts (settleCast_casts a c)

theorem LanesGone.checkHoistExit (k : Nat) : LanesGone s hk m ms (a.checkHoistExit k) := by
  unfold State.checkHoistExit
  dsimp only
  split
  · have hLeft := foldl_preserves (LanesGone s hk m ms) _ (fun _ f hb => hb.leaveFrag f) (a.hoistFrags k) a h
    have hEnded := hLeft.modHoist k (fun x => { x with live := false, held := 0, exited := BitVec.allOnes 32 }) (fun _ => rfl)
      (fun _ l _ hl => by rw [BitVec.getLsbD_allOnes]; simpa using hl)
    refine LanesGone.settleCast ?_ _
    exact hEnded.of_same rfl rfl rfl fun _ => rfl
  · exact h

theorem LanesGone.endHoist (k : Nat) : LanesGone s hk m ms (a.endHoist k) := by
  unfold State.endHoist
  split
  · exact h
  · exact h.checkHoistExit k

theorem LanesGone.settleSplit (k : Nat) : LanesGone s hk m ms (a.settleSplit k) := by
  unfold State.settleSplit
  split
  · exact h.modHoist k _ (fun _ => rfl) fun _ _ hl _ => hl
  · exact h

theorem LanesGone.openBarriers (c : Nat) : LanesGone s hk m ms (a.openBarriers c) :=
  foldl_preserves (LanesGone s hk m ms) _ (fun b k hb => by
    obtain ⟨hm, hk', hh, hp⟩ := openBarrier_kept b c k
    exact hb.of_same hm hk' hh hp) _ a h

end LanesGone

/-- The mask registers of a hoist when lanes have exited: their bits are clear in m0 to m11. -/
theorem exitLanes_mask (x : Hoist) (m : LaneMask) (k : Nat) (hk : k < 12) :
    Sparse.get 0 (x.exitLanes m).masks k = Sparse.get 0 x.masks k &&& ~~~m := by
  have hfold : ∀ n, ∀ t : Tab LaneMask, Sparse.get 0 ((List.range n).foldl
      (fun t k => Sparse.set 0 t k (Sparse.get 0 t k &&& ~~~m)) t) k =
      if k < n then Sparse.get 0 t k &&& ~~~m else Sparse.get 0 t k := by
    intro n t
    induction n with
    | zero => rfl
    | succ n ih =>
      rw [List.range_succ, List.foldl_append, List.foldl_cons, List.foldl_nil, Sparse.get_set]
      by_cases hkn : k = n
      · subst hkn
        rw [if_pos rfl, ih, if_neg (Nat.lt_irrefl k), if_pos (Nat.lt_succ_self k)]
      · rw [if_neg hkn, ih]
        have hiff : k < n ↔ k < n + 1 := by omega
        simp only [hiff]
  rw [Hoist.exitLanes, hfold 12, if_pos hk]

/-! ### Pours that begin to end (R414) -/

theorem clearCast_unpinned (s a : State) (c : Nat) (h : Unpinned s a) : Unpinned s (a.clearCast c) := by
  unfold State.clearCast
  dsimp only
  have hEnded := foldl_preserves (Unpinned s) _ (fun b f hb => endFrag_unpinned s b f hb)
    ((a.frags.filter fun q => (a.hoist q.2.hoist).cast = c).map Prod.fst) a h
  have hAll := foldl_preserves (Unpinned s) (fun (b : State) gh => b.modHearth gh fun h => { h with
      arrivals := h.arrivals.filter fun f => !((a.frags.filter fun q => (a.hoist q.2.hoist).cast = c).map Prod.fst).contains f,
      images := h.images.filter fun m => !m.ofCast c ((a.frags.filter fun q => (a.hoist q.2.hoist).cast = c).map Prod.fst) })
    (fun b gh hb => ⟨hb.mem, hb.marks, hb.pins⟩)
  obtain ⟨hm, hk, hp⟩ := hAll _ (State.modCore _ (a.cast c).anchor fun k => k.dropCast c) ⟨hEnded.mem, hEnded.marks, hEnded.pins⟩
  exact ⟨hm, hk, hp⟩

theorem beginKill_unpinned (s a : State) (P : Nat) (h : Unpinned s a) : Unpinned s (a.beginKill P) := by
  unfold State.beginKill
  dsimp only
  split
  · have hQueues := foldl_preserves (Unpinned s)
      (fun (b : State) gh => b.modHearth gh fun h => { h with pqueue := h.pqueue.filter fun e => e.pour ≠ P })
      (fun b gh hb => ⟨hb.mem, hb.marks, hb.pins⟩) (a.hearths.map Prod.fst)
      (a.setPour P { a.pour P with st := .killing, unpinned := [] }) ⟨h.mem, h.marks, h.pins⟩
    obtain ⟨hm, hk, hp⟩ := foldl_preserves (Unpinned s) _ (fun b c hb => clearCast_unpinned s b c hb)
      ((a.casts.filter fun c => c.2.pour = P ∧ ofPour P c.1).map Prod.fst) _ hQueues
    exact ⟨hm, hk, hp⟩
  · exact h

/-- A part of a hearth that holds no records of releases, no queue, no parked arrivals and no images. -/
structure Aside {β : Type} (part : Hearth → β) : Prop where
  records : ∀ h l, part { h with records := l } = part h
  pqueue  : ∀ h l, part { h with pqueue := l } = part h
  parked  : ∀ h l m, part { h with arrivals := l, images := m } = part h

theorem aside_waiting : Aside Hearth.waiting := ⟨fun _ _ => rfl, fun _ _ => rfl, fun _ _ _ => rfl⟩

theorem aside_errCount : Aside Hearth.errCount := ⟨fun _ _ => rfl, fun _ _ => rfl, fun _ _ _ => rfl⟩

section Aside

variable {β : Type} (part : Hearth → β)

/-- A change of a hearth that leaves a part of it. -/
theorem modHearth_part (s : State) (k : Nat) (f : Hearth → Hearth) (hf : ∀ x, part (f x) = part x) (g : Nat) :
    part ((s.modHearth k f).hearth g) = part (s.hearth g) := by
  rw [modHearth_hearth]
  split
  · rename_i h
    rw [hf, h]
  · rfl

variable (hp : Aside part)
include hp

theorem WritesOnly.aside {s t : State} (h : WritesOnly s t) (g : Nat) : part (t.hearth g) = part (s.hearth g) :=
  (hp.records _ _).symm.trans (congrArg part (h.hearths g))

theorem endFrag_part (s : State) (f g : Nat) : part ((s.endFrag f).hearth g) = part (s.hearth g) :=
  foldl_keeps (fun a => part (a.hearth g)) State.unpin (fun _ _ => (rewrite_only ..).aside part hp g) _ s

theorem clearCast_part (s : State) (c g : Nat) : part ((s.clearCast c).hearth g) = part (s.hearth g) := by
  unfold State.clearCast
  refine (foldl_keeps (fun a => part (a.hearth g)) _ ?_ _ _).trans ?_
  · exact fun a gh => modHearth_part part a gh _ (by exact fun x => hp.parked x _ _) g
  · exact foldl_keeps (fun a => part (a.hearth g)) State.endFrag (fun a f => endFrag_part part hp a f g) _ s

/-- A pour that begins to end leaves it. -/
theorem beginKill_part (s : State) (P g : Nat) : part ((s.beginKill P).hearth g) = part (s.hearth g) := by
  unfold State.beginKill
  dsimp only
  split
  · refine (foldl_keeps (fun a => part (a.hearth g)) State.clearCast (fun a c => clearCast_part part hp a c g) _ _).trans ?_
    refine (foldl_keeps (fun a => part (a.hearth g)) _ ?_ _ _).trans rfl
    exact fun a gh => modHearth_part part a gh _ (by exact fun x => hp.pqueue x _) g
  · rfl

end Aside

end Sys2Proof.Machine
end

section
/-! O40: the requests that travel as posted packets take effect where they arrive. -/

namespace Sys2Proof.Machine
open Sys2Proof.Claims

/-! ### Pennants and releases (R307, R320, R325, R326) -/

theorem byte_rewrite_one (s : State) (pa v : Nat) (p : Bool) (c : Nat) :
    (s.rewrite pa 1 v p).byte c = if c = pa then BitVec.ofNat 8 v else s.byte c := by
  rw [byte_rewrite, byte_writeMem_one]

theorem readLE_one (s : State) (a : Nat) : s.readLE a 1 = (s.byte a).toNat := by
  simp [State.readLE]

/-- A release of a DEPS pour travels as a packet. -/
theorem releaseCast_deps (s : State) (P c at_ : Nat) (hd : (s.pour P).deps = true) :
    (∀ a, (s.releaseCast P c at_).byte a = s.byte a) ∧ (s.releaseCast P c at_).pours = s.pours ∧
      ∃ r ∈ (s.releaseCast P c at_).net, r.body = .release P c := by
  unfold State.releaseCast
  dsimp only
  rw [if_pos hd]
  refine ⟨fun a => ((send_only ..).byte a).trans ?_, (send_only ..).pours.trans ?_, ?_⟩
  · split <;> rfl
  · split <;> rfl
  · rw [send_net]
    exact ⟨_, List.mem_append_right _ (List.mem_singleton.mpr rfl), rfl⟩

/-- The entry of a cast that is released, and the count of the pour's releases (R325). -/
def State.entryUp (s : State) (P c : Nat) : State :=
  let a := (s.pour P).sbPa (sbEntry c)
  (s.rewrite a 1 (s.readLE a 1 + 1) false).modPour P fun x => { x with nrel := x.nrel + 1 }

theorem entryUp_byte (s : State) (P c x : Nat) : (s.entryUp P c).byte x =
    if x = (s.pour P).sbPa (sbEntry c) then BitVec.ofNat 8 ((s.byte ((s.pour P).sbPa (sbEntry c))).toNat + 1) else s.byte x := by
  unfold State.entryUp
  dsimp only
  rw [modPour_byte, byte_rewrite_one, readLE_one]

theorem entryUp_pour (s : State) (P c : Nat) : (s.entryUp P c).pour P = { s.pour P with nrel := (s.pour P).nrel + 1 } := by
  have h : ∀ a v, (s.rewrite a 1 v false).pour P = s.pour P := fun a v => by rw [State.pour, (rewrite_only ..).pours, State.pour]
  unfold State.entryUp
  dsimp only
  rw [modPour_pour, if_pos rfl, h]

/-- The home of an entry that it releases: STATE goes up, the release is sent, and NREL goes up (R325). -/
structure EntryReleased (s t : State) (P c : Nat) : Prop where
  byte : ∀ x, t.byte x = (s.entryUp P c).byte x
  sent : ∃ r ∈ t.net, r.body = .release P c
  nrel : (t.pour P).nrel = (s.pour P).nrel + 1

theorem releaseEntry_eq (s : State) (P c gh : Nat) : s.releaseEntry P c gh =
    ((s.entryUp P c).releaseCast P c gh).send (seqrSrc gh) (paHearth ((s.pour P).sbPa 8)) (s.pour P).ctx false none
      (.reduction .add .n64 [WriteOp.clean ((s.pour P).sbPa 8) 8 1]) := by
  unfold State.releaseEntry State.entryUp
  rfl

theorem releaseEntry_released (s : State) (P c gh : Nat) (hd : (s.pour P).deps = true) :
    EntryReleased s (s.releaseEntry P c gh) P c := by
  have hpour := entryUp_pour s P c
  obtain ⟨hbyte, hpours, r, hmem, hr⟩ := releaseCast_deps (s.entryUp P c) P c gh (by rw [hpour]; exact hd)
  have hlast : PacketsOnly ((s.entryUp P c).releaseCast P c gh) (s.releaseEntry P c gh) := by
    rw [releaseEntry_eq]
    exact send_only ..
  refine ⟨fun x => (hlast.byte x).trans (hbyte x), ⟨r, ?_, hr⟩, ?_⟩
  · rw [releaseEntry_eq, send_net]
    exact List.mem_append_left _ hmem
  · rw [hlast.pour, State.pour, hpours, ← State.pour, hpour]

/-- A pennant that finds its entry clean: PEND falls, and at 0 the cast is released. -/
theorem applyPennant_clean (s : State) (P c gh : Nat) (hs : (s.pour P).st = .accepted)
    (hp : s.poisoned ((s.pour P).sbPa (sbEntry c)) 8 = false) :
    let pa := (s.pour P).sbPa (sbEntry c)
    let pend := ((s.byte (pa + 1)).toNat + 255) % 256
    let s1 := s.rewrite (pa + 1) 1 pend false
    s.applyPennant P c gh = if pend = 0 ∧ (s.byte pa).toNat % 8 = 0 then s1.releaseEntry P c gh else s1 := by
  simp only [State.applyPennant, readLE_one, hs, hp, ne_eq, not_true_eq_false, if_false, Bool.false_eq_true]

/-- PEND of an entry has fallen, at 0 its cast has been released, and nothing else has been written (R325). -/
structure PennantApplied (s t : State) (P c : Nat) (pa pend state : Nat) : Prop where
  falls  : (t.byte (pa + 1)).toNat = (pend + 255) % 256
  others : ∀ a, a ≠ pa → a ≠ pa + 1 → t.byte a = s.byte a
  waits  : pend ≠ 1 ∨ state % 8 ≠ 0 → t.byte pa = s.byte pa ∧ t.net = s.net
  frees  : pend = 1 → state % 8 = 0 → (t.byte pa).toNat = (state + 1) % 256 ∧ (∃ r ∈ t.net, r.body = .release P c) ∧
             (t.pour P).nrel = (s.pour P).nrel + 1

theorem applyPennant_applied (s : State) (P c gh : Nat) (hs : (s.pour P).st = .accepted) (hd : (s.pour P).deps = true)
    (hp : s.poisoned ((s.pour P).sbPa (sbEntry c)) 8 = false) :
    PennantApplied s (s.applyPennant P c gh) P c ((s.pour P).sbPa (sbEntry c))
      (s.byte ((s.pour P).sbPa (sbEntry c) + 1)).toNat (s.byte ((s.pour P).sbPa (sbEntry c))).toNat := by
  have heq := applyPennant_clean s P c gh hs hp
  obtain ⟨pa, hpa⟩ : ∃ pa, (s.pour P).sbPa (sbEntry c) = pa := ⟨_, rfl⟩
  rw [hpa] at heq ⊢
  dsimp only at heq
  have hlt : (s.byte (pa + 1)).toNat < 256 := (s.byte (pa + 1)).isLt
  obtain ⟨v, hv⟩ : ∃ v, ((s.byte (pa + 1)).toNat + 255) % 256 = v := ⟨_, rfl⟩
  rw [hv] at heq
  have hfall : ∀ a, (s.rewrite (pa + 1) 1 v false).byte a = if a = pa + 1 then BitVec.ofNat 8 v else s.byte a :=
    fun a => byte_rewrite_one ..
  have hvByte : (BitVec.ofNat 8 v).toNat = v := by
    rw [BitVec.toNat_ofNat]
    omega
  have hpours : (s.rewrite (pa + 1) 1 v false).pour P = s.pour P := by
    rw [State.pour, (rewrite_only ..).pours, State.pour]
  by_cases hz : v = 0 ∧ (s.byte pa).toNat % 8 = 0
  · rw [if_pos hz] at heq
    obtain ⟨hbyte, hsent, hnrel⟩ := releaseEntry_released (s.rewrite (pa + 1) 1 v false) P c gh (by rw [hpours]; exact hd)
    simp only [← heq, entryUp_byte, hpours, hpa] at hbyte hsent hnrel
    have hSelf : pa ≠ pa + 1 := by omega
    refine ⟨?_, fun a ha ha1 => ?_, fun hne => ?_, fun _ _ => ⟨?_, hsent, hnrel⟩⟩
    · rw [hbyte, if_neg hSelf.symm, hfall, if_pos rfl, hvByte, hv]
    · rw [hbyte, if_neg ha, hfall, if_neg ha1]
    · rcases hne with h | h
      · omega
      · exact absurd hz.2 h
    · rw [hbyte, if_pos rfl, hfall, if_neg hSelf, BitVec.toNat_ofNat]
  · rw [if_neg hz] at heq
    rw [heq]
    refine ⟨?_, fun a _ ha1 => ?_, fun _ => ⟨?_, (rewrite_only ..).net⟩, fun h1 h2 => absurd ⟨by omega, h2⟩ hz⟩
    · rw [hfall, if_pos rfl, hvByte, hv]
    · rw [hfall, if_neg ha1]
    · rw [hfall, if_neg (by omega)]

theorem postWrites_only (s : State) (gh : Nat) (ctx : BitVec 8) (ws : List WriteOp) : PacketsOnly s (s.postWrites gh ctx ws) := by
  cases ws with
  | nil => exact .refl s
  | cons w ws =>
    unfold State.postWrites
    exact send_only ..

/-- A cast that changes its state without a trace: a packet may tell its entry (R323). -/
theorem setCastState_only (s : State) (gh c : Nat) (st : CastState)
    (h : ((s.pour (s.cast c).pour).flag 4 && decide (3 ≤ st.code)) = false) :
    PacketsOnly (s.modCast c fun x => { x with st }) (s.setCastState gh c st) := by
  unfold State.setCastState
  dsimp only
  rw [modCast_cast, if_pos rfl, modCast_pour, h, if_neg Bool.false_ne_true]
  split
  · exact postWrites_only ..
  · exact .refl _

theorem castKey_div (P c : Nat) (h : c < 2 ^ 64) : castKey P c / 2 ^ 64 = P := by
  rw [castKey, Nat.mul_comm, Nat.mul_add_div (by decide), Nat.div_eq_of_lt h, Nat.add_zero]

theorem castKey_mod (P c : Nat) (h : c < 2 ^ 64) : castKey P c % 2 ^ 64 = c := by
  rw [castKey, Nat.mul_comm, Nat.mul_add_mod, Nat.mod_eq_of_lt h]

/-- A cast of its own gang. -/
theorem gangOf_single (s : State) (P c : Nat) (hg : (s.pour P).gangSize = 1) (hc : c < 2 ^ 64) :
    s.gangOf (castKey P c) = [castKey P c] := by
  simp only [State.gangOf, castKey_div P c hc, castKey_mod P c hc, hg, Pour.gangBase]
  simp

/-- A cast that arrives. -/
def State.released (s : State) (P c : Nat) : State :=
  { s.modCast (castKey P c) fun x => { x with st := .released, pour := P, index := c, released := s.nextOrd } with
    nextOrd := s.nextOrd + 1 }

theorem released_cast (s : State) (P c : Nat) : (s.released P c).cast (castKey P c) =
    { s.cast (castKey P c) with st := .released, pour := P, index := c, released := s.nextOrd } := by
  have h : (s.released P c).cast = (s.modCast (castKey P c) fun x =>
    { x with st := .released, pour := P, index := c, released := s.nextOrd }).cast := rfl
  rw [h, modCast_cast, if_pos rfl]

/-- A cast that is alone in its gang is placed as it arrives. -/
theorem arrive_single (s : State) (P c gh : Nat) (hs : (s.pour P).st = .accepted) (hg : (s.pour P).gangSize = 1) (hc : c < 2 ^ 64) :
    s.arrive P c gh = ((s.released P c).setCastState gh (castKey P c) .placed).enqueue gh P [castKey P c] false := by
  have hgang : (s.released P c).gangOf (castKey P c) = [castKey P c] := gangOf_single _ P c hg hc
  have hall : ([castKey P c].all fun k => ((s.released P c).cast k).st = .released ∧ ((s.released P c).cast k).pour = P) = true := by
    simp [released_cast]
  show (if (s.pour P).st ≠ .accepted then s
    else if ((s.released P c).gangOf (castKey P c)).all fun k =>
        ((s.released P c).cast k).st = .released ∧ ((s.released P c).cast k).pour = P then
      (((s.released P c).gangOf (castKey P c)).foldl (fun a k => a.setCastState gh k .placed) (s.released P c)).enqueue gh P
        ((s.released P c).gangOf (castKey P c)) false
    else s.released P c) = _
  rw [if_neg (not_not.mpr hs), hgang, if_pos hall]
  rfl

/-- An entry that joins a queue changes the hearth alone, and the order of entries. -/
theorem enqueue_rest (s : State) (gh P : Nat) (l : List Nat) (r : Bool) :
    { s.enqueue gh P l r with hearths := s.hearths, nextOrd := s.nextOrd } = s := by
  unfold State.enqueue
  split <;> rfl

theorem enqueue_pqueue (s : State) (gh P c : Nat) (l : List Nat) (r : Bool) : ((s.enqueue gh P (c :: l) r).hearth gh).pqueue =
    (s.hearth gh).pqueue ++ [{ pour := P, casts := c :: l, resume := r, order := s.nextOrd, waited := false }] := by
  have h : (s.enqueue gh P (c :: l) r).hearth gh = (s.modHearth gh fun k => { k with
    pqueue := k.pqueue ++ [{ pour := P, casts := c :: l, resume := r, order := s.nextOrd, waited := false }] }).hearth gh := rfl
  rw [h, modHearth_hearth, if_pos rfl]

theorem arrive_single_cast (s : State) (P c gh : Nat) (hs : (s.pour P).st = .accepted) (hg : (s.pour P).gangSize = 1)
    (hc : c < 2 ^ 64) : (s.arrive P c gh).cast (castKey P c) =
      { s.cast (castKey P c) with st := .placed, pour := P, index := c, released := s.nextOrd } := by
  have hplaced := setCastState_only (s.released P c) gh (castKey P c) .placed (by simp [CastState.code])
  rw [arrive_single s P c gh hs hg hc]
  have hcast : ∀ u : State, (u.enqueue gh P [castKey P c] false).cast (castKey P c) = u.cast (castKey P c) := fun u =>
    (congrArg (fun t : State => t.cast (castKey P c)) (enqueue_rest u gh P [castKey P c] false) :)
  rw [hcast, hplaced.cast, modCast_cast, if_pos rfl, released_cast]

/-- It joins the placement queue of its hearth. -/
theorem arrive_single_pqueue (s : State) (P c gh : Nat) (hs : (s.pour P).st = .accepted) (hg : (s.pour P).gangSize = 1)
    (hc : c < 2 ^ 64) : ((s.arrive P c gh).hearth gh).pqueue = (s.hearth gh).pqueue ++
      [{ pour := P, casts := [castKey P c], resume := false, order := s.nextOrd + 1, waited := false }] := by
  have hplaced := setCastState_only (s.released P c) gh (castKey P c) .placed (by simp [CastState.code])
  have hq : ((s.released P c).setCastState gh (castKey P c) .placed).hearth gh = s.hearth gh := hplaced.hearth gh
  have ho : ((s.released P c).setCastState gh (castKey P c) .placed).nextOrd = s.nextOrd + 1 :=
    (congrArg State.nextOrd hplaced.rest :)
  rw [arrive_single s P c gh hs hg hc]
  rw [enqueue_pqueue, hq, ho]

/-! ### Lanes that arrive at a barrier (R352) -/

theorem barArrive_live (s : State) (cast num : Nat) (w : BarWait) (count : Nat) (sync : Bool) (h : (s.hoist w.hoist).live = true) :
    s.barArrive cast num w count sync = (s.arriveBar cast num w count sync).openBarrier cast num := if_pos h

theorem arriveBar_cast (s : State) (cast num : Nat) (w : BarWait) (count : Nat) (sync : Bool) :
    ((s.arriveBar cast num w count sync).cast cast).parking = (s.cast cast).parking ∧
      ((s.arriveBar cast num w count sync).cast cast).st = (s.cast cast).st := by
  unfold State.arriveBar
  dsimp only
  rw [setCast_cast, if_pos rfl]
  exact ⟨rfl, rfl⟩

/-! ### PARK, UNPARK and KILL at the launch hearth (R408, R409, R414) -/

/-- A cast is no longer saved. -/
def State.unsave (s : State) (k : Nat) : State := s.modCast k fun y => { y with saved := false }

theorem unsave_held (s : State) (j k : Nat) : ((s.unsave j).cast k).held = (s.cast k).held := by
  rw [State.unsave, modCast_cast]
  split
  · rename_i h
    rw [h]
  · rfl

/-- A gang that returns to its queue has its casts no longer saved, or stays. -/
theorem requeueGang_cases (s : State) (c : Nat) : s.requeueGang c = s ∨
    ∃ gh P, ∃ l : List Nat, s.requeueGang c = (l.foldl State.unsave s).enqueue gh P l true := by
  unfold State.requeueGang
  dsimp only
  split
  · exact .inl rfl
  · exact .inr ⟨_, _, _, rfl⟩

theorem requeueGang_kept (s : State) (c : Nat) : KeptBytes s (s.requeueGang c) ∧
    ∀ k, ((s.requeueGang c).cast k).held = (s.cast k).held := by
  rcases requeueGang_cases s c with h | ⟨gh, P, l, h⟩
  · rw [h]
    exact ⟨⟨fun _ => rfl, fun _ => rfl⟩, fun _ => rfl⟩
  · have hrest := enqueue_rest (l.foldl State.unsave s) gh P l true
    rw [← h] at hrest
    refine ⟨keptBytes_of_eq ?_ ?_, fun k => ?_⟩
    · exact (congrArg State.mem hrest :).trans (foldl_keeps State.mem State.unsave (fun _ _ => rfl) l s)
    · exact (congrArg State.marks hrest :).trans (foldl_keeps State.marks State.unsave (fun _ _ => rfl) l s)
    · exact (congrArg (fun t : State => (t.cast k).held) hrest :).trans
        (foldl_keeps (fun a => (a.cast k).held) State.unsave (fun a j => unsave_held a j k) l s)

theorem unpark_kept (s : State) (P i : Nat) : KeptBytes s (s.unpark P i) ∧
    ((s.cast (castKey P i)).held = false → (s.unpark P i).cast (castKey P i) = { s.cast (castKey P i) with wake := true }) ∧
    ((s.cast (castKey P i)).held = true → ((s.unpark P i).cast (castKey P i)).held = false) := by
  have hcast : ((s.modCast (castKey P i) fun y => { y with held := false }).cast (castKey P i)).held = false := by
    rw [modCast_cast, if_pos rfl]
  unfold State.unpark
  dsimp only
  by_cases hheld : (s.cast (castKey P i)).held = true
  · rw [if_pos hheld]
    refine ⟨?_, fun h => absurd (hheld.symm.trans h) (by decide), fun _ => ?_⟩
    · split
      · split
        · exact ⟨fun _ => rfl, fun _ => rfl⟩
        · obtain ⟨hm, hk⟩ := (requeueGang_kept (s.modCast (castKey P i) fun y => { y with held := false }) (castKey P i)).1
          exact ⟨hm, hk⟩
      · exact ⟨fun _ => rfl, fun _ => rfl⟩
    · split
      · split
        · rw [modCast_cast, if_pos rfl]
          exact hcast
        · rw [(requeueGang_kept ..).2]
          exact hcast
      · exact hcast
  · rw [if_neg hheld]
    refine ⟨⟨fun _ => rfl, fun _ => rfl⟩, fun _ => ?_, fun h => absurd h hheld⟩
    rw [modCast_cast, if_pos rfl]

theorem takePark_fst (s : State) (c : Nat) : (s.takePark c).1 = !(s.cast c).wake := by
  unfold State.takePark
  split
  · rename_i h
    rw [h]
    rfl
  · rename_i h
    rw [Bool.not_eq_true] at h
    rw [h]
    rfl

/-- The launch hearth consumes the wake bit, or sets the held bit. -/
theorem takePark_cast (s : State) (c : Nat) : (((s.takePark c).2).cast c).wake = false ∧
    ((s.cast c).wake = false → (((s.takePark c).2).cast c).held = true) := by
  unfold State.takePark
  by_cases h : (s.cast c).wake = true
  · rw [if_pos h, modCast_cast, if_pos rfl]
    exact ⟨rfl, fun hn => absurd (h.symm.trans hn) (by decide)⟩
  · rw [if_neg h, modCast_cast, if_pos rfl]
    exact ⟨by simpa using h, fun _ => rfl⟩

theorem takePark_keptBytes (s : State) (c : Nat) : KeptBytes s (s.takePark c).2 := by
  unfold State.takePark
  split
  · exact ⟨fun _ => rfl, fun _ => rfl⟩
  · exact ⟨fun _ => rfl, fun _ => rfl⟩

/-- KILL removes the waiting requests of a record that its issuer may act on. -/
def State.unlist (s : State) (gh recPa : Nat) (issuer : BitVec 8) (managing : Bool) : State :=
  s.modHearth gh fun h =>
    { h with waiting := h.waiting.filter fun r => r.recPa ≠ recPa || !s.mayActOn (gh / 16) issuer managing r.ctx }

/-- KILL at its home: the requests are removed, and a live pour begins to end. -/
def State.kill (s : State) (gh recPa : Nat) (issuer : BitVec 8) (managing : Bool) : State :=
  match s.pourAt recPa with
  | some P =>
    if s.mayActOn (gh / 16) issuer managing (s.pour P).ctx then (s.unlist gh recPa issuer managing).beginKill P
    else s.unlist gh recPa issuer managing
  | none => s.unlist gh recPa issuer managing

theorem kill_cases (s : State) (gh recPa : Nat) (issuer : BitVec 8) (managing : Bool) :
    s.kill gh recPa issuer managing = s.unlist gh recPa issuer managing ∨
      ∃ P, s.kill gh recPa issuer managing = (s.unlist gh recPa issuer managing).beginKill P := by
  unfold State.kill
  split
  · split
    · exact .inr ⟨_, rfl⟩
    · exact .inl rfl
  · exact .inl rfl

theorem kill_keptBytes (s : State) (gh recPa : Nat) (issuer : BitVec 8) (managing : Bool) (h : ∀ f, (s.frag f).pinned = []) :
    KeptBytes s (s.kill gh recPa issuer managing) := by
  have hu : Unpinned s (s.unlist gh recPa issuer managing) := ⟨rfl, rfl, h⟩
  rcases kill_cases s gh recPa issuer managing with hk | ⟨P, hk⟩
  · rw [hk]
    exact hu.keptBytes
  · rw [hk]
    exact (beginKill_unpinned s _ P hu).keptBytes

theorem mem_kill_waiting (s : State) (gh recPa : Nat) (issuer : BitVec 8) (managing : Bool) (r : LaunchReq)
    (hr : r ∈ ((s.kill gh recPa issuer managing).hearth gh).waiting) : r ∈ (s.hearth gh).waiting ∧
      (r.recPa = recPa → s.mayActOn (gh / 16) issuer managing r.ctx = false) := by
  have hlist : r ∈ ((s.unlist gh recPa issuer managing).hearth gh).waiting := by
    rcases kill_cases s gh recPa issuer managing with hk | ⟨P, hk⟩
    · rwa [hk] at hr
    · rwa [hk, beginKill_part Hearth.waiting aside_waiting] at hr
  rw [State.unlist, modHearth_hearth, if_pos rfl] at hlist
  obtain ⟨hm, hok⟩ := List.mem_filter.mp hlist
  refine ⟨hm, fun he => ?_⟩
  simpa [he] using hok

theorem kill_killing (s : State) (gh recPa : Nat) (issuer : BitVec 8) (managing : Bool) (P : Nat) (hP : s.pourAt recPa = some P)
    (hok : s.mayActOn (gh / 16) issuer managing (s.pour P).ctx = true) (hs : (s.pour P).st = .accepted) :
    ((s.kill gh recPa issuer managing).pour P).st = .killing := by
  rw [State.kill, hP]
  dsimp only
  rw [if_pos hok]
  exact beginKill_killing _ P hs

/-! ### The statement -/

/-- Settles O40: each packet is applied as one state that is written out above and acknowledged last, and the lemmas about that state say
what has changed. -/
theorem postedRequestsAreApplied : Obligations.PostedRequestsAreApplied := by
  unfold Obligations.PostedRequestsAreApplied
  intro s n p hr hroom hok
  refine ⟨?pennant, ?release, ?engine, ?exit, ?arrive, ?pour, ?park, ?unpark, ?kill⟩
  case pennant =>
    intro P c hb hs hd pa pend state hclean
    have hexec : exec (.pennant n) s = .next (((s.dropPacket n).applyPennant P c p.tgt).acknowledge p false) :=
      congrArg Host.Outcome.next (applyPosted_some hr hroom hok _ _ (by rw [hb]))
    obtain ⟨hpend, hothers, hwaits, hfrees⟩ := applyPennant_applied (s.dropPacket n) P c p.tgt hs hd hclean
    have hbyte := acknowledge_byte ((s.dropPacket n).applyPennant P c p.tgt) p false
    refine ⟨_, hexec, answers_acknowledge .., (congrArg BitVec.toNat (hbyte _)).trans hpend,
      fun a ha ha1 => (hbyte a).trans (hothers a ha ha1), fun hne => ?_, fun h1 h2 => ?_⟩
    · obtain ⟨hkept, hnet⟩ := hwaits hne
      refine ⟨(hbyte _).trans hkept, ?_⟩
      rw [acknowledge_net, List.dropLast_concat, hnet]
      rfl
    · obtain ⟨hup, ⟨r, hmem, hrb⟩, hnrel⟩ := hfrees h1 h2
      refine ⟨(congrArg BitVec.toNat (hbyte _)).trans hup, ⟨r, ?_, hrb⟩, ?_⟩
      · rw [acknowledge_net]
        exact List.mem_append_left _ hmem
      · rw [acknowledge_pour]
        exact hnrel
  case release =>
    intro P c hb hs hg hc
    have hexec : exec (.castRelease n) s = .next (((s.dropPacket n).arrive P c p.tgt).acknowledge p false) :=
      congrArg Host.Outcome.next (applyPosted_some hr hroom hok _ _ (by rw [hb]))
    have hcast : (((s.dropPacket n).arrive P c p.tgt).acknowledge p false).cast (castKey P c) =
        { s.cast (castKey P c) with st := .placed, pour := P, index := c, released := s.nextOrd } :=
      (acknowledge_cast ..).trans (arrive_single_cast (s.dropPacket n) P c p.tgt hs hg hc)
    refine ⟨_, hexec, answers_acknowledge .., ?_, ?_, ?_, ?_⟩
    · rw [hcast]
    · rw [hcast]
    · rw [hcast]
    · rw [acknowledge_hearth, if_pos rfl]
      exact arrive_single_pqueue (s.dropPacket n) P c p.tgt hs hg hc
  case engine =>
    intro k hb hs
    have hexec : exec (.engineCommand n) s =
        .next (((s.dropPacket n).modCmd k fun c => { c with stage := .active }).acknowledge p false) :=
      congrArg Host.Outcome.next (applyPosted_some hr hroom hok _ _ (by
        rw [hb]
        exact congrArg some (if_pos hs)))
    refine ⟨_, hexec, answers_acknowledge .., acknowledge_keptBytes _ _ _ _ ⟨fun _ => rfl, fun _ => rfl⟩, ?_, fun j hj => ?_⟩
    · rw [acknowledge_cmd, modCmd_cmd, if_pos rfl]
      rfl
    · rw [acknowledge_cmd, modCmd_cmd, if_neg hj]
      rfl
  case exit =>
    intro hk lanes hb hl hp
    let a := ((((s.dropPacket n).modHoist hk fun h => h.exitLanes lanes).settleSplit hk).endHoist hk).openBarriers (hk / 32)
    have hexec : exec (.exitNotice n) s = .next (a.acknowledge p false) :=
      congrArg Host.Outcome.next (applyPosted_some hr hroom hok _ _ (by
        rw [hb]
        exact if_pos hl))
    have hstart : LanesGone s hk ((s.hoist hk).exited ||| lanes) ((s.hoist hk).exitLanes lanes).masks
        ((s.dropPacket n).modHoist hk fun h => h.exitLanes lanes) := by
      refine ⟨⟨rfl, rfl, hp⟩, fun l hl => ?_, ?_⟩
      · rw [modHoist_hoist, if_pos rfl]
        exact hl
      · rw [modHoist_hoist, if_pos rfl]
        rfl
    have hend : LanesGone s hk ((s.hoist hk).exited ||| lanes) ((s.hoist hk).exitLanes lanes).masks a :=
      ((hstart.settleSplit hk).endHoist hk).openBarriers (hk / 32)
    refine ⟨_, hexec, answers_acknowledge .., acknowledge_keptBytes _ _ _ _ hend.keptBytes, ?_, fun k hk12 => ?_⟩
    · rw [acknowledge_hoist]
      exact hend.exited
    · rw [acknowledge_hoist, hend.masks, exitLanes_mask _ _ _ hk12]
  case arrive =>
    intro cast num hk lanes count sync pc next hb hl u
    have hexec : exec (.postedStore n) s = .next (((u.dropPacket n).openBarrier cast num).acknowledge p false) :=
      congrArg Host.Outcome.next (applyPosted_some hr hroom hok _ _ (by
        rw [hb]
        exact congrArg some (barArrive_live (s.dropPacket n) cast num _ count sync hl)))
    obtain ⟨hm, hk', hh, -⟩ := openBarrier_kept (u.dropPacket n) cast num
    obtain ⟨hpark, hst⟩ := arriveBar_cast s cast num { hoist := hk, pc, next, lanes } count sync
    refine ⟨_, hexec, answers_acknowledge .., acknowledge_keptBytes _ _ _ _ (keptBytes_of_eq hm hk'),
      (acknowledge_hoists ..).trans hh, fun hf => ?_, fun hf hp hs => ?_⟩
    · rw [openBarrier_not (u.dropPacket n) cast num hf, acknowledge_cast, acknowledge_frags]
      exact ⟨rfl, rfl⟩
    · rw [acknowledge_cast]
      exact openBarrier_opens (u.dropPacket n) cast num hf (hpark.trans hp) fun h => hs (hst.symm.trans h)
  case pour =>
    intro recPa ctx res hb
    refine ⟨fun hlt => ?_, fun hge => ?_⟩
    · have hexec : exec (.postedStore n) s = .next (((s.dropPacket n).addRequest p.tgt ctx recPa).acknowledge p false) :=
        congrArg Host.Outcome.next (applyPosted_some hr hroom hok _ _ (by
          rw [hb]
          exact if_neg (Nat.not_le.mpr hlt)))
      refine ⟨_, hexec, answers_acknowledge .., acknowledge_keptBytes _ _ _ _ ⟨fun _ => rfl, fun _ => rfl⟩, ?_⟩
      rw [acknowledge_hearth, if_pos rfl, State.addRequest, modHearth_hearth, if_pos rfl]
      rfl
    · exact congrArg Host.Outcome.next (applyPosted_none hr hroom _ (by
        rw [hb]
        exact if_pos hge))
  case park =>
    intro c f hb
    have hexec : exec (.postedStore n) s = .next (((s.dropPacket n).parkAsked c f p).acknowledge p false) :=
      congrArg Host.Outcome.next (applyPosted_some hr hroom hok _ _ (by rw [hb]))
    have hask : PacketsOnly ((s.dropPacket n).takePark c).2 ((s.dropPacket n).parkAsked c f p) := answer_only ..
    have hcast : (((s.dropPacket n).parkAsked c f p).acknowledge p false).cast c = (((s.dropPacket n).takePark c).2).cast c :=
      (acknowledge_cast ..).trans (hask.cast c)
    obtain ⟨hwake, hheld⟩ := takePark_cast (s.dropPacket n) c
    obtain ⟨hm, hk⟩ := takePark_keptBytes (s.dropPacket n) c
    refine ⟨_, ((s.dropPacket n).takePark c).2.outgoing (seqrSrc p.tgt) (srcPlace p.src) p.ctx false none
      (.parkAnswer c f ((s.dropPacket n).takePark c).1), hexec, answers_acknowledge .., acknowledge_keptBytes _ _ _ _ ?_, ?_, ?_, ?_, ?_⟩
    · exact ⟨fun a => (hask.byte a).trans (hm a), fun w => (hask.mark w).trans (hk w)⟩
    · rw [acknowledge_net, State.parkAsked, answer_net]
      exact List.mem_append_left _ (List.mem_append_right _ (List.mem_singleton.mpr rfl))
    · rfl
    · exact congrArg (Body.parkAnswer c f) (takePark_fst (s.dropPacket n) c)
    · rw [hcast]
      exact ⟨hwake, hheld⟩
  case unpark =>
    intro recPa index issuer managing P hb hP hi hmay
    have hexec : exec (.unparkApply n) s = .next (((s.dropPacket n).unpark P index.toNat).acknowledge p false) :=
      congrArg Host.Outcome.next (applyPosted_some hr hroom hok _ _ (by
        have hP' : (s.dropPacket n).pourAt recPa = some P := hP
        rw [hb]
        dsimp only
        rw [hP']
        exact if_pos ⟨hi, hmay⟩))
    obtain ⟨⟨hm, hk⟩, hfree, hheld⟩ := unpark_kept (s.dropPacket n) P index.toNat
    refine ⟨_, hexec, answers_acknowledge .., acknowledge_keptBytes _ _ _ _ ⟨hm, hk⟩, ?_⟩
    rw [acknowledge_cast]
    exact ⟨hfree, hheld⟩
  case kill =>
    intro recPa issuer managing hb hp
    have hexec : exec (.killApply n) s = .next (((s.dropPacket n).kill p.tgt recPa issuer managing).acknowledge p false) :=
      congrArg Host.Outcome.next (applyPosted_some hr hroom hok _ _ (by
        rw [hb]
        unfold State.kill
        show (match s.pourAt recPa with | some P => _ | none => _) = some (match s.pourAt recPa with | some P => _ | none => _)
        cases s.pourAt recPa with
        | none => rfl
        | some P => exact (apply_ite some _ _ _).symm))
    obtain ⟨hm, hk⟩ := kill_keptBytes (s.dropPacket n) p.tgt recPa issuer managing hp
    refine ⟨_, hexec, answers_acknowledge .., acknowledge_keptBytes _ _ _ _ ⟨hm, hk⟩, fun r hr => ?_, fun P hP hmay hs => ?_⟩
    · rw [acknowledge_hearth, if_pos rfl] at hr
      exact mem_kill_waiting (s.dropPacket n) _ _ _ _ r hr
    · rw [acknowledge_pour]
      exact kill_killing (s.dropPacket n) p.tgt recPa issuer managing P hP hmay hs

end Sys2Proof.Machine
end

section
/-! The parking areas: what the fields of an image read, that images stand apart, and that nothing outside the areas changes
(R51, R404, R432). -/

namespace Sys2Proof.Machine
open Sys2Proof.Claims

/-! ### The fields of an image -/

/-- A field of `n` bytes at `o` has the value `v` or has no byte in common with any piece. -/
def Alone (ps : List Piece) (o n v : Nat) : Prop := ∀ q ∈ ps, q = ⟨o, n, v⟩ ∨ q.ofs + q.size ≤ o ∨ o + n ≤ q.ofs

/-- Every piece lies between two offsets. -/
def Within (lo hi : Nat) (ps : List Piece) : Prop := ∀ q ∈ ps, lo ≤ q.ofs ∧ q.ofs + q.size ≤ hi

theorem alone_append {ps qs : List Piece} {o n v : Nat} (hp : Alone ps o n v) (hq : Alone qs o n v) : Alone (ps ++ qs) o n v :=
  fun q h => (List.mem_append.mp h).elim (hp q) (hq q)

theorem within_append {lo hi : Nat} {ps qs : List Piece} (hp : Within lo hi ps) (hq : Within lo hi qs) : Within lo hi (ps ++ qs) :=
  fun q h => (List.mem_append.mp h).elim (hp q) (hq q)

theorem Within.mono {lo hi lo' hi' : Nat} {ps : List Piece} (h : Within lo hi ps) (hl : lo' ≤ lo) (hh : hi ≤ hi') :
    Within lo' hi' ps := fun q hq => ⟨hl.trans (h q hq).1, (h q hq).2.trans hh⟩

/-- Pieces that lie elsewhere leave a field alone. -/
theorem Within.alone {lo hi o n v : Nat} {ps : List Piece} (h : Within lo hi ps) (hd : hi ≤ o ∨ o + n ≤ lo) : Alone ps o n v := by
  intro q hq
  obtain ⟨h1, h2⟩ := h q hq
  omega

theorem within_map {α : Type} {lo hi : Nat} (l : List α) (f : α → Piece) (h : ∀ x ∈ l, lo ≤ (f x).ofs ∧ (f x).ofs + (f x).size ≤ hi) :
    Within lo hi (l.map f) := by
  intro q hq
  obtain ⟨x, hx, rfl⟩ := List.mem_map.mp hq
  exact h x hx

theorem within_flatMap {α : Type} {lo hi : Nat} (l : List α) (f : α → List Piece) (h : ∀ x ∈ l, Within lo hi (f x)) :
    Within lo hi (l.flatMap f) := by
  intro q hq
  obtain ⟨x, hx, hq⟩ := List.mem_flatMap.mp hq
  exact h x hx q hq

/-- Pieces numbered along a list. -/
theorem mem_zipWith_range {α β : Type} (l : List α) (f : Nat → α → β) (n : Nat) (b : β)
    (h : b ∈ (List.range n).zipWith f l) : ∃ k x, k < n ∧ l[k]? = some x ∧ b = f k x := by
  obtain ⟨k, hk, rfl⟩ := List.mem_iff_getElem.mp h
  rw [List.length_zipWith, List.length_range] at hk
  refine ⟨k, l[k], by omega, List.getElem?_eq_getElem (by omega), ?_⟩
  simp

/-- What the bytes of a field read, when the pieces have been put on zeros. -/
theorem readLE_putPieces {pa len o n v : Nat} (ps : List Piece) (hfit : o + n ≤ len) (halone : Alone ps o n v) (s : State)
    (hs : s.readLE (pa + o) n = v % 256 ^ n ∨ s.readLE (pa + o) n = 0 ∧ (v = 0 ∨ ⟨o, n, v⟩ ∈ ps)) :
    (s.putPieces pa len ps).readLE (pa + o) n = v % 256 ^ n := by
  induction ps generalizing s with
  | nil =>
    rcases hs with hs | ⟨hs, hv | hm⟩
    · exact hs
    · rw [hv, Nat.zero_mod]
      exact hs
    · exact absurd hm List.not_mem_nil
  | cons q t ih =>
    rw [State.putPieces, List.foldl_cons, ← State.putPieces]
    refine ih (fun p hp => halone p (List.mem_cons_of_mem _ hp)) _ ?_
    by_cases hq : q = ⟨o, n, v⟩
    · subst hq
      left
      split
      · rename_i hskip
        have hv : v = 0 := by
          simp only at hskip
          omega
        rcases hs with hs | ⟨hs, -⟩
        · exact hs
        · rw [hs, hv, Nat.zero_mod]
      · exact readLE_writeLE ..
    · have hapart := (halone q List.mem_cons_self).resolve_left hq
      have hread : (if q.val = 0 ∨ len < q.ofs + q.size then s else s.writeLE (pa + q.ofs) q.size q.val).readLE (pa + o) n =
          s.readLE (pa + o) n := by
        split
        · rfl
        · exact readLE_congr _ _ _ _ fun k hk => byte_writeLE_of_outside _ _ _ _ _ (by omega)
      rw [hread]
      refine hs.imp id fun ⟨h0, hv⟩ => ⟨h0, hv.imp id fun hm => (List.mem_cons.mp hm).resolve_left (Ne.symm hq)⟩

theorem readLE_zero (n : Nat) (s : State) (a : Nat) (h : ∀ k, k < n → s.byte (a + k) = 0) : s.readLE a n = 0 := by
  induction n generalizing a with
  | zero => rfl
  | succ n ih =>
    have h0 : s.byte a = 0 := h 0 (by omega)
    rw [State.readLE, ih (a + 1) fun k hk => by rw [Nat.add_assoc, Nat.add_comm 1 k]; exact h (k + 1) (by omega), h0]
    rfl

/-! ### Images -/

section PutImage

variable (s : State) (gh : Nat) (owner : ImgOwner) (len pa : Nat) (ps : List Piece) (h : s.spot gh len = some pa)

theorem writeLE_rest (n : Nat) (s : State) (a v : Nat) : { s.writeLE a n v with mem := s.mem } = s := by
  induction n generalizing s a v with
  | zero => rfl
  | succ n ih => exact (congrArg (fun t : State => { t with mem := s.mem }) (ih (s.setByte a (BitVec.ofNat 8 v)) (a + 1) (v / 256)) :)

theorem putPieces_rest : { s.putPieces pa len ps with mem := s.mem } = s := by
  refine foldl_preserves (fun a => { a with mem := s.mem } = s) _ ?_ ps s rfl
  intro a q ha
  split
  · exact ha
  · exact (congrArg (fun t : State => { t with mem := s.mem }) (writeLE_rest q.size a (pa + q.ofs) q.val) :).trans ha

/-- An image that is written changes memory, marks and hearths. -/
theorem putImage_rest : { s.putImage gh owner len ps with mem := s.mem, marks := s.marks, hearths := s.hearths } = s := by
  unfold State.putImage
  split
  · rename_i pa _
    exact (congrArg (fun t : State => { t with marks := s.marks, mem := s.mem, hearths := s.hearths })
      (putPieces_rest (s.clearRange pa len) len pa ps) :)
  · rfl

include h

theorem putImage_eq : s.putImage gh owner len ps =
    ((s.clearRange pa len).putPieces pa len ps).modHearth gh fun h => { h with images := h.images ++ [{ owner, pa, len }] } := by
  rw [State.putImage, h]

theorem putImage_images : ((s.putImage gh owner len ps).hearth gh).images = (s.hearth gh).images ++ [({ owner, pa, len } : Image)] := by
  have hh : ((s.clearRange pa len).putPieces pa len ps).hearths = s.hearths :=
    (congrArg State.hearths (putPieces_rest (s.clearRange pa len) len pa ps) :)
  rw [putImage_eq s gh owner len pa ps h, modHearth_hearth, if_pos rfl, State.hearth, hh, State.hearth]

/-- A field of the image. -/
theorem readLE_putImage {o n v : Nat} (hfit : o + n ≤ len) (halone : Alone ps o n v) (hput : v = 0 ∨ ⟨o, n, v⟩ ∈ ps) :
    (s.putImage gh owner len ps).readLE (pa + o) n = v % 256 ^ n := by
  rw [putImage_eq s gh owner len pa ps h]
  refine Eq.trans (readLE_congr _ _ _ _ fun k _ => byte_modHearth ..) (readLE_putPieces ps hfit halone _ (.inr ⟨?_, hput⟩))
  refine readLE_zero _ _ _ fun k hk => ?_
  rw [byte_clearRange, if_pos (by omega)]

end PutImage

/-! ### Areas (R432) -/

/-- The parking areas of two hearths have no address in common. -/
theorem areas_apart {g g' a : Nat} (h : parkingBase g ≤ a ∧ a < parkingBase g + parkingArea)
    (h' : parkingBase g' ≤ a ∧ a < parkingBase g' + parkingArea) : g = g' := by
  simp only [parkingBase, parkingArea, paOf] at h h'
  omega

/-- An address outside every area is outside that of a hearth. -/
theorem outside_area (g a : Nat) (h : paOfs a < 0xBC0000000 ∨ 0xBF0000000 ≤ paOfs a) :
    a < parkingBase g ∨ parkingBase g + parkingArea ≤ a := by
  simp only [parkingBase, parkingArea, paOf, paOfs] at *
  omega

/-- Only parking areas have been written, and the images that stood in them stand there as before. -/
structure ImagesAdded (s t : State) : Prop where
  outside : KeptOutside s t
  stays   : ∀ gh, ∀ m ∈ (s.hearth gh).images, parkingBase gh ≤ m.pa → m.pa + m.len ≤ parkingBase gh + parkingArea →
              m ∈ (t.hearth gh).images ∧ ∀ a, m.pa ≤ a → a < m.pa + m.len → t.byte a = s.byte a

namespace ImagesAdded

theorem of_same {s t : State} (hm : t.mem = s.mem) (hk : t.marks = s.marks) (hi : ∀ g, (t.hearth g).images = (s.hearth g).images) :
    ImagesAdded s t where
  outside := ⟨fun a _ => by rw [State.byte, hm, State.byte], fun w _ => by rw [State.mark, hk, State.mark]⟩
  stays g m hmem _ _ := ⟨by rwa [hi], fun a _ _ => by rw [State.byte, hm, State.byte]⟩

theorem refl (s : State) : ImagesAdded s s := .of_same rfl rfl fun _ => rfl

theorem trans {s t u : State} (h : ImagesAdded s t) (k : ImagesAdded t u) : ImagesAdded s u where
  outside := ⟨fun a ha => (k.outside.memory a ha).trans (h.outside.memory a ha),
    fun w hw => (k.outside.marks w hw).trans (h.outside.marks w hw)⟩
  stays g m hm h1 h2 := by
    obtain ⟨ht, hbt⟩ := h.stays g m hm h1 h2
    obtain ⟨hu, hbu⟩ := k.stays g m ht h1 h2
    exact ⟨hu, fun a ha hb => (hbu a ha hb).trans (hbt a ha hb)⟩

theorem foldl {α : Type} (f : State → α → State) (h : ∀ s x, ImagesAdded s (f s x)) (l : List α) (s : State) :
    ImagesAdded s (l.foldl f s) :=
  foldl_preserves (ImagesAdded s) f (fun a x ha => ha.trans (h a x)) l s (.refl s)

end ImagesAdded

/-- A field of an image that stands in its area reads as before. -/
theorem ImagesAdded.readLE {s t : State} (h : ImagesAdded s t) {gh : Nat} {m : Image} (hm : m ∈ (s.hearth gh).images)
    (hlo : parkingBase gh ≤ m.pa) (hhi : m.pa + m.len ≤ parkingBase gh + parkingArea) {o n : Nat} (hfit : o + n ≤ m.len) :
    t.readLE (m.pa + o) n = s.readLE (m.pa + o) n :=
  readLE_congr _ _ _ _ fun k hk => (h.stays gh m hm hlo hhi).2 _ (by omega) (by omega)

theorem putImage_added (s : State) (gh : Nat) (owner : ImgOwner) (len : Nat) (ps : List Piece) :
    ImagesAdded s (s.putImage gh owner len ps) where
  outside := by
    obtain ⟨hb, hk⟩ := putImage_outside s gh owner len ps
    exact ⟨fun a ha => hb a (outside_area gh a ha), fun w hw => hk w (outside_area gh (4 * w) hw)⟩
  stays g m hm hlo hhi := by
    cases hspot : s.spot gh len with
    | none =>
      have he : s.putImage gh owner len ps = s := by rw [State.putImage, hspot]
      rw [he]
      exact ⟨hm, fun _ _ _ => rfl⟩
    | some pa =>
      obtain ⟨hin, hend, hapart⟩ := spot_inside hspot
      have hh : ((s.clearRange pa len).putPieces pa len ps).hearths = s.hearths :=
        (congrArg State.hearths (putPieces_rest (s.clearRange pa len) len pa ps) :)
      rw [putImage_eq s gh owner len pa ps hspot]
      refine ⟨?_, fun a ha hb => ?_⟩
      · rw [modHearth_hearth]
        split
        · rename_i hg
          subst hg
          rw [State.hearth, hh]
          exact List.mem_append_left _ hm
        · rw [State.hearth, hh]
          exact hm
      · have hout : a < pa ∨ pa + len ≤ a := by
          by_cases hg : g = gh
          · subst hg
            have hap := hapart m hm
            simp only [Image.apart, decide_eq_true_eq] at hap
            omega
          · by_contra hc
            exact hg (areas_apart (a := a) (by omega) (by omega))
        rw [byte_modHearth, byte_putPieces _ _ _ _ _ hout, byte_clearRange, if_neg (by omega)]

/-! ### Casts that have parked (R51, R404) -/

theorem numberImage_added (s : State) (gc : Nat) : ImagesAdded s (s.numberImage gc) := .of_same rfl rfl fun _ => rfl

/-- The images of a cast's anchor slots. -/
theorem putAnchors_added (s : State) (c gc gh : Nat) (l : List Nat) : ImagesAdded s (l.foldl (fun a hk =>
    (a.putImage gh (.anchor hk) (anchorBytes (a.pour (a.cast c).pour).allot) (a.anchorPieces hk (a.imageSeq gc))).numberImage gc) s) :=
  .foldl _ (fun a _ => (putImage_added a ..).trans (numberImage_added ..)) l s

/-- The image of a cast itself. -/
def State.putWhole (s : State) (c : Nat) : State :=
  let gc := (s.cast c).anchor
  (s.putImage (coreHearth gc) (.cast c) (s.imageBytes c) (s.castPieces c (s.imageSeq gc))).numberImage gc

theorem putCast_after (s : State) (c : Nat) : ImagesAdded (s.putWhole c) (s.putCast c) := putAnchors_added ..

theorem putWhole_added (s : State) (c : Nat) : ImagesAdded s (s.putWhole c) :=
  (putImage_added ..).trans (numberImage_added ..)

theorem putCast_casts (s : State) (c : Nat) : (s.putCast c).casts = s.casts := by
  refine (foldl_keeps State.casts _ ?_ _ _).trans (congrArg State.casts (putImage_rest ..) :)
  exact fun a hk => (congrArg State.casts (putImage_rest a ..) :)

theorem putCast_pours (s : State) (c : Nat) : (s.putCast c).pours = s.pours := by
  refine (foldl_keeps State.pours _ ?_ _ _).trans (congrArg State.pours (putImage_rest ..) :)
  exact fun a hk => (congrArg State.pours (putImage_rest a ..) :)

theorem enqueue_images (s : State) (gh P : Nat) (l : List Nat) (r : Bool) (g : Nat) :
    ((s.enqueue gh P l r).hearth g).images = (s.hearth g).images := by
  cases l with
  | nil => rfl
  | cons c l =>
    have h : (s.enqueue gh P (c :: l) r).hearth = (s.modHearth gh fun k => { k with
      pqueue := k.pqueue ++ [{ pour := P, casts := c :: l, resume := r, order := s.nextOrd, waited := false }] }).hearth := rfl
    rw [h]
    exact modHearth_part Hearth.images s gh _ (by exact fun _ => rfl) g

theorem requeueGang_images (s : State) (c g : Nat) : ((s.requeueGang c).hearth g).images = (s.hearth g).images := by
  rcases requeueGang_cases s c with h | ⟨gh, P, l, h⟩
  · rw [h]
  · rw [h, enqueue_images]
    exact foldl_keeps (fun a => (a.hearth g).images) State.unsave (fun _ _ => rfl) l s

theorem requeueGang_added (s : State) (c : Nat) : ImagesAdded s (s.requeueGang c) where
  outside := ⟨fun a _ => (requeueGang_kept s c).1.memory a, fun w _ => (requeueGang_kept s c).1.marks w⟩
  stays g m hm _ _ := ⟨by rwa [requeueGang_images], fun a _ _ => (requeueGang_kept s c).1.memory a⟩

theorem PacketsOnly.imagesAdded {s t : State} (h : PacketsOnly s t) : ImagesAdded s t :=
  .of_same h.mem h.marks fun g => by rw [h.hearth]

end Sys2Proof.Machine
end

section
/-! A cast that parks: its image, its state, and what its hearth keeps (R51, R404). -/

namespace Sys2Proof.Machine
open Sys2Proof.Claims

/-! ### The end of a park -/

/-- A cast that has been written gives up its room on a core. -/
def State.leaveRoom (s : State) (c gc ord : Nat) (saved : Bool) : State :=
  { (s.modCore gc fun k => { k.dropCast c with given := k.given.filter fun q => q.1 ≠ c }).modCast c fun y =>
      { y with parking := false, granules := 0, quantum := none, parkedAt := ord, saved := saved && !y.held, resuming := false }
    with nextOrd := ord + 1 }

theorem leaveRoom_cast (s : State) (c gc ord : Nat) (saved : Bool) : (s.leaveRoom c gc ord saved).cast c =
    { s.cast c with parking := false, granules := 0, quantum := none, parkedAt := ord, saved := saved && !(s.cast c).held
                    resuming := false } := by
  have hc : (s.leaveRoom c gc ord saved).cast = (s.modCast c fun y =>
    { y with parking := false, granules := 0, quantum := none, parkedAt := ord, saved := saved && !y.held
             resuming := false }).cast := rfl
  rw [hc, modCast_cast, if_pos rfl]

theorem leaveRoom_added (s : State) (c gc ord : Nat) (saved : Bool) : ImagesAdded s (s.leaveRoom c gc ord saved) :=
  .of_same rfl rfl fun _ => rfl

theorem leaveRoom_pour (s : State) (c gc ord : Nat) (saved : Bool) (P : Nat) : (s.leaveRoom c gc ord saved).pour P = s.pour P := rfl

/-- The context of a cast is saved on its package. -/
def State.castSaved (s : State) (c : Nat) : Bool :=
  s.ctxSaved (coreHearth (s.cast c).anchor / 16) (s.pour (s.cast c).pour).ctx

/-- A cast leaves its images and gives up its room. -/
def State.giveUp (s : State) (c : Nat) : State := (s.putCast c).leaveRoom c (s.cast c).anchor s.nextOrd (s.castSaved c)

/-- A park that is done: the cast is written, gives up its room, and its gang may return to its queue. -/
theorem finishPark_done (s : State) (c : Nat) (h : s.parkDone c = true) : s.finishPark c =
    let t := (s.giveUp c).setCastState (coreHearth (s.cast c).anchor) c .parked
    if s.castSaved c then t else t.requeueGang c := by
  unfold State.finishPark
  rw [h]
  rfl

theorem finishPark_not (s : State) (c : Nat) (h : s.parkDone c = false) : s.finishPark c = s := by
  unfold State.finishPark
  rw [h]
  rfl

theorem giveUp_cast (s : State) (c : Nat) : ((s.giveUp c).cast c).granules = 0 ∧ ((s.giveUp c).cast c).pour = (s.cast c).pour := by
  rw [State.giveUp, leaveRoom_cast]
  refine ⟨rfl, ?_⟩
  show ((s.putCast c).cast c).pour = _
  rw [State.cast, putCast_casts, State.cast]

theorem giveUp_added (s : State) (c : Nat) : ImagesAdded (s.putCast c) (s.giveUp c) := leaveRoom_added ..

theorem giveUp_pour (s : State) (c P : Nat) : (s.giveUp c).pour P = s.pour P := by
  rw [State.giveUp, leaveRoom_pour, State.pour, putCast_pours, State.pour]

theorem modCast_added (s : State) (c : Nat) (g : Cast → Cast) : ImagesAdded s (s.modCast c g) := .of_same rfl rfl fun _ => rfl

theorem unsave_room (s : State) (j k : Nat) :
    ((s.unsave j).cast k).st = (s.cast k).st ∧ ((s.unsave j).cast k).granules = (s.cast k).granules := by
  rw [State.unsave, modCast_cast]
  split
  · rename_i h
    rw [h]
    exact ⟨rfl, rfl⟩
  · exact ⟨rfl, rfl⟩

/-- A gang that returns to its queue keeps the states of its casts, and their room. -/
theorem requeueGang_room (s : State) (c k : Nat) :
    ((s.requeueGang c).cast k).st = (s.cast k).st ∧ ((s.requeueGang c).cast k).granules = (s.cast k).granules := by
  rcases requeueGang_cases s c with h | ⟨gh, P, l, h⟩
  · rw [h]
    exact ⟨rfl, rfl⟩
  · have hrest := enqueue_rest (l.foldl State.unsave s) gh P l true
    rw [← h] at hrest
    refine ⟨?_, ?_⟩
    · exact (congrArg (fun t : State => (t.cast k).st) hrest :).trans
        (foldl_keeps (fun a => (a.cast k).st) State.unsave (fun a j => (unsave_room a j k).1) l s)
    · exact (congrArg (fun t : State => (t.cast k).granules) hrest :).trans
        (foldl_keeps (fun a => (a.cast k).granules) State.unsave (fun a j => (unsave_room a j k).2) l s)

section Done

variable (s : State) (c : Nat) (hp : (s.pour (s.cast c).pour).flag 4 = false)
include hp

/-- The state of the cast, without a trace. -/
theorem giveUp_parked : PacketsOnly ((s.giveUp c).modCast c fun x => { x with st := .parked })
    ((s.giveUp c).setCastState (coreHearth (s.cast c).anchor) c .parked) := by
  refine setCastState_only _ _ _ _ ?_
  rw [(giveUp_cast s c).2, giveUp_pour, hp, Bool.false_and]

/-- What the end of a park adds behind the image of the cast. -/
theorem finishPark_after (h : s.parkDone c = true) : ImagesAdded (s.putWhole c) (s.finishPark c) := by
  have hparked : ImagesAdded (s.putWhole c) ((s.giveUp c).setCastState (coreHearth (s.cast c).anchor) c .parked) :=
    ((putCast_after s c).trans (giveUp_added s c)).trans
      ((modCast_added ..).trans (giveUp_parked s c hp).imagesAdded)
  rw [finishPark_done s c h]
  dsimp only
  split
  · exact hparked
  · exact hparked.trans (requeueGang_added ..)

/-- A park that ends, or does not, writes parking areas only, and images stay. -/
theorem finishPark_added : ImagesAdded s (s.finishPark c) := by
  cases h : s.parkDone c with
  | false =>
    rw [finishPark_not s c h]
    exact .refl s
  | true => exact (putWhole_added s c).trans (finishPark_after s c hp h)

/-- The cast is parked, and has no room. -/
theorem finishPark_cast (h : s.parkDone c = true) :
    ((s.finishPark c).cast c).st = .parked ∧ ((s.finishPark c).cast c).granules = 0 := by
  have hcast : ((s.giveUp c).setCastState (coreHearth (s.cast c).anchor) c .parked).cast c =
      { (s.giveUp c).cast c with st := .parked } := by
    rw [(giveUp_parked s c hp).cast, modCast_cast, if_pos rfl]
  rw [finishPark_done s c h]
  dsimp only
  split
  · rw [hcast]
    exact ⟨rfl, (giveUp_cast s c).1⟩
  · obtain ⟨hst, hgr⟩ := requeueGang_room ((s.giveUp c).setCastState (coreHearth (s.cast c).anchor) c .parked) c c
    rw [hst, hgr, hcast]
    exact ⟨rfl, (giveUp_cast s c).1⟩

end Done

end Sys2Proof.Machine
end

section
/-! The fields of the image of a parked cast (R404): its header, and its scratchpad. -/

namespace Sys2Proof.Sparse

variable {α : Type} [DecidableEq α]

/-- In a table in canonical form every entry is what its key reads as. -/
theorem get_of_mem {d : α} {l : List (Nat × α)} (h : wf d l = true) {q : Nat × α} (hq : q ∈ l) : get d l q.1 = q.2 := by
  induction l with
  | nil => exact absurd hq List.not_mem_nil
  | cons p t ih =>
    obtain ⟨k, v⟩ := p
    simp only [wf, Bool.and_eq_true] at h
    obtain ⟨⟨-, habove⟩, ht⟩ := h
    rcases List.mem_cons.mp hq with rfl | hq
    · exact if_pos rfl
    · have hlt := List.all_eq_true.mp habove q hq
      rw [decide_eq_true_eq] at hlt
      rw [get, if_neg (by omega), ih ht hq]

omit [DecidableEq α] in
/-- What a key reads as, if it is not the default, stands in the table. -/
theorem mem_of_get_ne {d : α} (l : List (Nat × α)) (k : Nat) (h : get d l k ≠ d) : (k, get d l k) ∈ l := by
  induction l with
  | nil => exact absurd rfl h
  | cons p t ih =>
    obtain ⟨k', v⟩ := p
    rw [get] at h ⊢
    split
    · rename_i hk
      rw [hk]
      exact List.mem_cons_self
    · rename_i hk
      rw [if_neg hk] at h
      exact List.mem_cons_of_mem _ (ih h)

end Sys2Proof.Sparse

namespace Sys2Proof.Machine
open Sys2Proof.Claims

/-! ### Pieces in a list -/

theorem within_nil (lo hi : Nat) : Within lo hi [] := fun _ h => absurd h List.not_mem_nil

theorem within_cons {p : Piece} {ps : List Piece} {lo hi : Nat} (hp : lo ≤ p.ofs ∧ p.ofs + p.size ≤ hi) (h : Within lo hi ps) :
    Within lo hi (p :: ps) := fun q hq => (List.mem_cons.mp hq).elim (fun e => e ▸ hp) (h q)

theorem within_flatten {lo hi : Nat} (l : List (List Piece)) (h : ∀ ps ∈ l, Within lo hi ps) : Within lo hi l.flatten := by
  intro q hq
  obtain ⟨ps, hps, hq⟩ := List.mem_flatten.mp hq
  exact h ps hps q hq

theorem within_zipWith_range {α : Type} {lo hi : Nat} (n : Nat) (l : List α) (f : Nat → α → Piece)
    (h : ∀ k x, k < n → l[k]? = some x → lo ≤ (f k x).ofs ∧ (f k x).ofs + (f k x).size ≤ hi) :
    Within lo hi ((List.range n).zipWith f l) := by
  intro q hq
  obtain ⟨k, x, hk, hx, rfl⟩ := mem_zipWith_range l f n q hq
  exact h k x hk hx

theorem within_flatten_zipWith_range {α : Type} {lo hi : Nat} (n : Nat) (l : List α) (f : Nat → α → List Piece)
    (h : ∀ k x, k < n → l[k]? = some x → Within lo hi (f k x)) : Within lo hi ((List.range n).zipWith f l).flatten := by
  refine within_flatten _ fun ps hps => ?_
  obtain ⟨k, x, hk, hx, rfl⟩ := mem_zipWith_range l f n ps hps
  exact h k x hk hx

/-- A table whose entries are written one after another from an offset on, `w` bytes each. -/
def tablePieces {β : Type} (l : List (Nat × β)) (ofs w : Nat) (f : β → Nat) : List Piece :=
  l.map fun q => { ofs := ofs + w * q.1, size := w, val := f q.2 }

section Table

variable {β : Type} [DecidableEq β] (d : β) (l : List (Nat × β)) (ofs w : Nat) (f : β → Nat)

theorem alone_tablePieces (hwf : Sparse.wf d l = true) (k : Nat) :
    Alone (tablePieces l ofs w f) (ofs + w * k) w (f (Sparse.get d l k)) := by
  intro p hp
  obtain ⟨q, hq, rfl⟩ := List.mem_map.mp hp
  rcases Nat.lt_trichotomy q.1 k with hlt | rfl | hlt
  · have := Nat.mul_le_mul_left w (Nat.succ_le_of_lt hlt)
    rw [Nat.mul_succ] at this
    exact .inr (.inl (by show ofs + w * q.1 + w ≤ _; omega))
  · left
    rw [Sparse.get_of_mem hwf hq]
  · have := Nat.mul_le_mul_left w (Nat.succ_le_of_lt hlt)
    rw [Nat.mul_succ] at this
    exact .inr (.inr (by show _ ≤ ofs + w * q.1; omega))

omit [DecidableEq β] in
theorem put_tablePieces (hd : f d = 0) (k : Nat) :
    f (Sparse.get d l k) = 0 ∨ (⟨ofs + w * k, w, f (Sparse.get d l k)⟩ : Piece) ∈ tablePieces l ofs w f := by
  by_cases h : Sparse.get d l k = d
  · left
    rw [h, hd]
  · exact .inr (List.mem_map.mpr ⟨_, Sparse.mem_of_get_ne l k h, rfl⟩)

omit [DecidableEq β] in
theorem within_tablePieces (m : Nat) (h : ∀ q ∈ l, q.1 < m) : Within ofs (ofs + w * m) (tablePieces l ofs w f) := by
  refine within_map _ _ fun q hq => ⟨Nat.le_add_right .., ?_⟩
  have := Nat.mul_le_mul_left w (Nat.succ_le_of_lt (h q hq))
  rw [Nat.mul_succ] at this
  show ofs + w * q.1 + w ≤ _
  omega

end Table

/-! ### The parts of a cast image (R404) -/

/-- The header of a cast image. -/
def State.castHead (s : State) (c : Nat) (seq : Word) : List Piece :=
  let x := s.cast c
  let p := s.pour x.pour
  let bit (b : Bool) (k : Nat) : Nat := if b then k else 0
  [{ ofs := 0, size := 4, val := p.count }, { ofs := 4, size := 4, val := x.index }, { ofs := 8, size := 1, val := p.ctx.toNat },
   { ofs := 9, size := 1, val := x.anchor % 128 }, { ofs := 0xA, size := 1, val := p.spad / 65536 },
   { ofs := 0xB, size := 1, val := p.banks }, { ofs := 0xC, size := 1, val := p.hoists },
   { ofs := 0xD, size := 1, val := bit x.psent 1 + bit x.wake 2 + bit x.held 4 + bit (p.flag 0) 8 },
   { ofs := 0xE, size := 1, val := x.pending.length },
   { ofs := 0xF, size := 1, val := bit x.c0.leads.isSome 1 + bit x.c1.leads.isSome 2 + bit x.c0.follows.isSome 4 +
                                   bit x.c1.follows.isSome 8 },
   { ofs := 0x10, size := 4, val := seq.toNat }, { ofs := 0x14, size := 2, val := s.bindPeer c x.c0 },
   { ofs := 0x16, size := 2, val := s.bindPeer c x.c1 }, { ofs := 0x18, size := 8, val := s.imageBytes c }]

/-- The queue heads of a cast image. -/
def Cast.queuePieces (x : Cast) : List Piece :=
  x.queues.flatMap fun q =>
    [{ ofs := 64 + 16 * q.1, size := 8, val := q.2.bind.toNat }, { ofs := 72 + 16 * q.1, size := 4, val := q.2.head },
     { ofs := 76 + 16 * q.1, size := 4, val := q.2.tail }]

/-- The barriers of a cast image. -/
def Cast.barPieces (x : Cast) : List Piece :=
  x.bars.flatMap fun q =>
    q.2.arrived.map (fun r => { ofs := 320 + 144 * q.1 + 4 * r.1, size := 4, val := r.2.toNat }) ++
      [{ ofs := 448 + 144 * q.1, size := 2, val := q.2.count.getD 0 }]

/-- The banks of a cast image. -/
def State.bankPieces (s : State) (c : Nat) : List Piece :=
  (if 1 ≤ s.imageBanks c then (s.cast c).c0.pieces 2624 else []) ++
    if 2 ≤ s.imageBanks c then (s.cast c).c1.pieces (2624 + 135168) else []

/-- The matrix instructions of a cast image. -/
def State.pendPieces (s : State) (c : Nat) : List Piece :=
  ((List.range (s.cast c).pending.length).zipWith (fun k q => pendingPieces (s.pendingOfs c + 16448 * k) q.1 q.2)
    (s.cast c).pending).flatten

theorem castPieces_eq (s : State) (c : Nat) (seq : Word) : s.castPieces c seq =
    s.castHead c seq ++ ((s.cast c).queuePieces ++ (s.cast c).barPieces ++ s.bankPieces c ++ s.pendPieces c) ++
      (tablePieces (s.cast c).spad (s.spadOfs c) 1 BitVec.toNat ++
        bitPieces (s.spadOfs c + (s.pour (s.cast c).pour).spad) (markedAt (s.cast c).spoison)) := by
  simp only [tablePieces, Nat.one_mul, State.bankPieces, List.append_assoc]
  rw [State.castPieces]
  simp only [List.append_assoc]
  rfl

/-- The numbers in a cast's tables are in range: 16 queues, 16 barriers of 32 hoists, banks of 32,768 words, and matrix instructions
with 4,096 metadata words at most (R54, R74, R180, R352). -/
structure CastTables (x : Cast) : Prop where
  queues : ∀ q ∈ x.queues, q.1 < 16
  bars   : ∀ q ∈ x.bars, q.1 < 16 ∧ ∀ r ∈ q.2.arrived, r.1 < 32
  ctxs   : ∀ k, (∀ q ∈ (x.ctx k).bank, q.1 < 32768) ∧ (∀ q ∈ (x.ctx k).marks, q.1 < 32768) ∧
             ∀ m ∈ (x.ctx k).queue, (MOp.metaWords m.op).length ≤ 4096

theorem within_castHead (s : State) (c : Nat) (seq : Word) : Within 0 64 (s.castHead c seq) := by
  intro q hq
  simp only [State.castHead, List.mem_cons, List.not_mem_nil, or_false] at hq
  rcases hq with rfl | rfl | rfl | rfl | rfl | rfl | rfl | rfl | rfl | rfl | rfl | rfl | rfl | rfl <;> simp

theorem within_bitPieces (ofs : Nat) (ks : List Nat) (m : Nat) (h : ∀ k ∈ ks, k < 8 * m) : Within ofs (ofs + m) (bitPieces ofs ks) := by
  refine within_map _ _ fun k hk => ⟨Nat.le_add_right .., ?_⟩
  have := h k hk
  show ofs + k / 8 + 1 ≤ ofs + m
  omega

theorem alone_bitPieces (ofs : Nat) (ks : List Nat) (o n v : Nat) (h : o + n ≤ ofs) : Alone (bitPieces ofs ks) o n v := by
  intro q hq
  obtain ⟨k, -, rfl⟩ := List.mem_map.mp hq
  exact .inr (.inr (h.trans (Nat.le_add_right ..)))

theorem mem_markedAt {t : Tab Bool} {k : Nat} (h : k ∈ markedAt t) : ∃ q ∈ t, q.1 = k := by
  obtain ⟨q, hq, rfl⟩ := List.mem_map.mp h
  exact ⟨q, (List.mem_filter.mp hq).1, rfl⟩

theorem within_ctxPieces (m : MCtx) (ofs : Nat) (hb : ∀ q ∈ m.bank, q.1 < 32768) (hm : ∀ q ∈ m.marks, q.1 < 32768) :
    Within ofs (ofs + 135168) (m.pieces ofs) := by
  refine within_append ?_ ?_
  · exact (within_tablePieces m.bank ofs 4 BitVec.toNat 32768 hb).mono (Nat.le_refl _) (by omega)
  · refine (within_bitPieces (ofs + 131072) (markedAt m.marks) 4096 fun k hk => ?_).mono (by omega) (by omega)
    obtain ⟨q, hq, rfl⟩ := mem_markedAt hk
    exact hm q hq

theorem within_pendingPieces (ofs : Nat) (k : Bool) (q : Nat × MInst) (h : (MOp.metaWords q.2.op).length ≤ 4096) :
    Within ofs (ofs + 16448) (pendingPieces ofs k q) := by
  refine within_append ?_ (within_zipWith_range _ _ _ fun j w hj _ => ⟨?_, ?_⟩)
  · intro p hp
    simp only [List.mem_cons, List.not_mem_nil, or_false] at hp
    rcases hp with rfl | rfl | rfl | rfl | rfl | rfl <;> simp
  · show ofs ≤ ofs + 64 + 4 * j
    omega
  · show ofs + 64 + 4 * j + 4 ≤ _
    omega

theorem mem_pending {m : MCtx} {q : Nat × MInst} (h : q ∈ m.pending) : q.2 ∈ m.queue :=
  (List.of_mem_zip (List.mem_filter.mp h).1).2

/-- The byte that counts the banks of a cast, and its length. -/
theorem alone_castHead (s : State) (c : Nat) (seq : Word) :
    Alone (s.castHead c seq) 0xB 1 (s.pour (s.cast c).pour).banks ∧ Alone (s.castHead c seq) 0x18 8 (s.imageBytes c) := by
  refine ⟨?_, ?_⟩ <;>
  · intro q hq
    simp only [State.castHead, List.mem_cons, List.not_mem_nil, or_false] at hq
    rcases hq with rfl | rfl | rfl | rfl | rfl | rfl | rfl | rfl | rfl | rfl | rfl | rfl | rfl | rfl <;> simp

theorem mem_castPieces_of_head {s : State} {c : Nat} {seq : Word} {q : Piece} (h : q ∈ s.castHead c seq) :
    q ∈ s.castPieces c seq := by
  rw [castPieces_eq]
  exact List.mem_append_left _ (List.mem_append_left _ h)

section Parts

variable (s : State) (c : Nat) (h : CastTables (s.cast c))
include h

theorem within_pendPieces : Within (s.pendingOfs c) (s.spadOfs c) (s.pendPieces c) := by
  refine within_flatten_zipWith_range _ _ _ fun k q hk hq => ?_
  have hm : (MOp.metaWords q.2.2.op).length ≤ 4096 := by
    rcases List.mem_append.mp (List.mem_of_getElem? hq) with hm | hm
    · obtain ⟨r, hr, rfl⟩ := List.mem_map.mp hm
      exact (h.ctxs false).2.2 r.2 (mem_pending hr)
    · obtain ⟨r, hr, rfl⟩ := List.mem_map.mp hm
      exact (h.ctxs true).2.2 r.2 (mem_pending hr)
  refine (within_pendingPieces _ q.1 q.2 hm).mono (by omega) ?_
  rw [State.spadOfs]
  omega

theorem within_castBody : Within 64 (s.spadOfs c)
    ((s.cast c).queuePieces ++ (s.cast c).barPieces ++ s.bankPieces c ++ s.pendPieces c) := by
  have hpend : s.pendingOfs c ≤ s.spadOfs c := Nat.le_add_right ..
  have hofs : s.pendingOfs c = 2624 + 135168 * s.imageBanks c := rfl
  refine within_append (within_append (within_append ?_ ?_) ?_) ((within_pendPieces s c h).mono (by omega) (Nat.le_refl _))
  · refine within_flatMap _ _ fun q hq => ?_
    have := h.queues q hq
    intro p hp
    simp only [List.mem_cons, List.not_mem_nil, or_false] at hp
    rcases hp with rfl | rfl | rfl
    · exact ⟨by simp, by show 64 + 16 * q.1 + 8 ≤ _; omega⟩
    · exact ⟨by show 64 ≤ 72 + 16 * q.1; omega, by show 72 + 16 * q.1 + 4 ≤ _; omega⟩
    · exact ⟨by show 64 ≤ 76 + 16 * q.1; omega, by show 76 + 16 * q.1 + 4 ≤ _; omega⟩
  · refine within_flatMap _ _ fun q hq => ?_
    obtain ⟨hq16, harr⟩ := h.bars q hq
    refine within_append (within_map _ _ fun r hr => ?_) (within_cons ?_ (within_nil _ _))
    · have := harr r hr
      exact ⟨by show 64 ≤ 320 + 144 * q.1 + 4 * r.1; omega, by show 320 + 144 * q.1 + 4 * r.1 + 4 ≤ _; omega⟩
    · exact ⟨by show 64 ≤ 448 + 144 * q.1; omega, by show 448 + 144 * q.1 + 2 ≤ _; omega⟩
  · refine within_append ?_ ?_
    · split
      · obtain ⟨hb, hm, -⟩ := h.ctxs false
        exact (within_ctxPieces _ 2624 hb hm).mono (by omega) (by omega)
      · exact within_nil _ _
    · split
      · obtain ⟨hb, hm, -⟩ := h.ctxs true
        exact (within_ctxPieces _ (2624 + 135168) hb hm).mono (by omega) (by omega)
      · exact within_nil _ _

/-- A field of the header is written alone. -/
theorem alone_castPieces_head (seq : Word) {o n v : Nat} (hh : Alone (s.castHead c seq) o n v) (hlt : o + n ≤ 64) :
    Alone (s.castPieces c seq) o n v := by
  have h64 : 64 ≤ s.spadOfs c := by
    rw [State.spadOfs, State.pendingOfs]
    omega
  rw [castPieces_eq]
  refine alone_append (alone_append hh ((within_castBody s c h).alone (.inr hlt))) (alone_append ?_ (alone_bitPieces _ _ _ _ _ (by omega)))
  intro q hq
  obtain ⟨r, -, rfl⟩ := List.mem_map.mp hq
  exact .inr (.inr (by show o + n ≤ s.spadOfs c + 1 * r.1; omega))

/-- A byte of the scratchpad is written alone. -/
theorem alone_castPieces_spad (seq : Word) (hwf : Sparse.wf (0 : Byte) (s.cast c).spad = true) (a : Nat)
    (ha : a < (s.pour (s.cast c).pour).spad) :
    Alone (s.castPieces c seq) (s.spadOfs c + a) 1 (Sparse.get (0 : Byte) (s.cast c).spad a).toNat := by
  have h64 : 64 ≤ s.spadOfs c := by
    rw [State.spadOfs, State.pendingOfs]
    omega
  have hspad := alone_tablePieces (0 : Byte) (s.cast c).spad (s.spadOfs c) 1 BitVec.toNat hwf a
  rw [Nat.one_mul] at hspad
  rw [castPieces_eq]
  exact alone_append (alone_append ((within_castHead s c seq).alone (.inl (by omega))) ((within_castBody s c h).alone (.inl (by omega))))
    (alone_append hspad (alone_bitPieces _ _ _ _ _ (by omega)))

end Parts

/-- The image of a cast holds the number of its banks, its length, and its scratchpad. -/
theorem putWhole_fields (s : State) (c pa : Nat) (h : CastTables (s.cast c)) (hwf : Sparse.wf (0 : Byte) (s.cast c).spad = true)
    (hspot : s.spot (coreHearth (s.cast c).anchor) (s.imageBytes c) = some pa) :
    (s.putWhole c).readLE (pa + 0xB) 1 = (s.pour (s.cast c).pour).banks % 256 ∧
      (s.putWhole c).readLE (pa + 0x18) 8 = s.imageBytes c % 2 ^ 64 ∧
      ∀ a, a < (s.pour (s.cast c).pour).spad →
        (s.putWhole c).byte (pa + s.spadOfs c + a) = Sparse.get (0 : Byte) (s.cast c).spad a := by
  have hlen : s.imageBytes c = s.spadOfs c + (s.pour (s.cast c).pour).spad + (s.pour (s.cast c).pour).spad / 32 := rfl
  have h64 : 64 ≤ s.spadOfs c := by
    rw [State.spadOfs, State.pendingOfs]
    omega
  obtain ⟨hbanks, hbytes⟩ := alone_castHead s c (s.imageSeq (s.cast c).anchor)
  refine ⟨?_, ?_, fun a ha => ?_⟩
  · exact readLE_putImage s _ _ _ pa _ hspot (o := 0xB) (n := 1) (by omega) (alone_castPieces_head s c h _ hbanks (by omega))
      (.inr (mem_castPieces_of_head (by simp [State.castHead])))
  · exact readLE_putImage s _ _ _ pa _ hspot (o := 0x18) (n := 8) (by omega) (alone_castPieces_head s c h _ hbytes (by omega))
      (.inr (mem_castPieces_of_head (by simp [State.castHead])))
  · have hput := put_tablePieces (0 : Byte) (s.cast c).spad (s.spadOfs c) 1 BitVec.toNat rfl a
    rw [Nat.one_mul] at hput
    have hread := readLE_putImage s _ (.cast c) _ pa _ hspot (o := s.spadOfs c + a) (n := 1) (by omega)
      (alone_castPieces_spad s c h (s.imageSeq (s.cast c).anchor) hwf a ha) (hput.imp id fun hm => by
        rw [castPieces_eq]
        exact List.mem_append_right _ (List.mem_append_left _ hm))
    rw [readLE_one, Nat.pow_one, Nat.mod_eq_of_lt (BitVec.isLt _)] at hread
    rw [Nat.add_assoc]
    exact BitVec.eq_of_toNat_eq hread

end Sys2Proof.Machine
end

section
/-! The fields of a parked ingot (R45, R46, R51): its header, the registers of its window, and its scalars. -/

namespace Sys2Proof.Machine
open Sys2Proof.Claims

/-! ### The place of a lane among the lanes of a mask -/

/-- How many lanes of a mask come before a lane. -/
def lanePos (m : LaneMask) (l : Nat) : Nat := ((lanesOf m).filter fun j => decide (j < l)).length

/-- In a rising list, so many elements come before one as its index says. -/
theorem length_filter_lt {L : List Nat} (hs : L.Pairwise (· < ·)) {k l : Nat} (h : L[k]? = some l) :
    (L.filter fun j => decide (j < l)).length = k := by
  induction L generalizing k with
  | nil => simp at h
  | cons a t ih =>
    obtain ⟨ha, ht⟩ := List.pairwise_cons.mp hs
    cases k with
    | zero =>
      have hal : a = l := by simpa using h
      subst hal
      rw [List.filter_cons, if_neg (by simp), List.length_eq_zero_iff, List.filter_eq_nil_iff]
      intro b hb
      have := ha b hb
      simp
      omega
    | succ k =>
      have hl : t[k]? = some l := by simpa using h
      have hlt := ha l (List.mem_of_getElem? hl)
      rw [List.filter_cons, if_pos (by simpa using hlt), List.length_cons, ih ht hl]

theorem lanePos_eq {m : LaneMask} {k l : Nat} (h : (lanesOf m)[k]? = some l) : lanePos m l = k :=
  length_filter_lt (lanesOf_pairwise m) h

theorem lanePos_lt {m : LaneMask} {l : Nat} (h : m.getLsbD l = true) : lanePos m l < (lanesOf m).length := by
  obtain ⟨k, hk, hl⟩ := List.mem_iff_getElem.mp ((mem_lanesOf m l).mpr h)
  rwa [lanePos_eq (List.getElem?_eq_some_iff.mpr ⟨hk, hl⟩)]

/-- A lane of a mask is known by its place. -/
theorem eq_of_lanePos {m : LaneMask} {k l l' : Nat} (h : (lanesOf m)[k]? = some l) (h' : m.getLsbD l' = true)
    (he : lanePos m l' = k) : l' = l := by
  obtain ⟨k', hk', hl'⟩ := List.mem_iff_getElem.mp ((mem_lanesOf m l').mpr h')
  have hk : lanePos m l' = k' := lanePos_eq (List.getElem?_eq_some_iff.mpr ⟨hk', hl'⟩)
  rw [← he, hk, List.getElem?_eq_getElem hk', hl'] at h
  exact Option.some.inj h

/-! ### The registers of a window (R46) -/

section Regs

variable (h : Hoist) (base : Nat) (lanes : LaneMask) (ofs : Nat)

theorem mem_regPieces {n : Nat} {p : Piece} (hp : p ∈ h.regPieces base n lanes ofs) : ∃ q ∈ h.vregs, ∃ r, r < n ∧
    q.1 / 32 = base + r ∧ lanes.getLsbD (q.1 % 32) = true ∧
      p = ⟨ofs + 4 * (r * (lanesOf lanes).length + lanePos lanes (q.1 % 32)), 4, q.2.toNat⟩ := by
  obtain ⟨q, hq, he⟩ := List.mem_filterMap.mp hp
  dsimp only at he
  split at he
  · rename_i hc
    obtain ⟨h1, h2, h3⟩ := hc
    exact ⟨q, hq, q.1 / 32 - base, by omega, by omega, h3, (Option.some.inj he).symm⟩
  · cases he

theorem place_lt {r n c k : Nat} (hr : r < n) (hk : k < c) : r * c + k < n * c := by
  calc r * c + k < r * c + c := by omega
    _ = (r + 1) * c := by rw [Nat.add_mul, Nat.one_mul]
    _ ≤ n * c := Nat.mul_le_mul_right c hr

theorem within_regPieces (n : Nat) :
    Within ofs (ofs + 4 * (n * (lanesOf lanes).length)) (h.regPieces base n lanes ofs) := by
  intro p hp
  obtain ⟨q, -, r, hr, -, hl, rfl⟩ := mem_regPieces h base lanes ofs hp
  have := place_lt hr (lanePos_lt hl)
  exact ⟨Nat.le_add_right .., by show ofs + 4 * _ + 4 ≤ _; omega⟩

/-- Places of different registers or lanes are different. -/
theorem place_inj {r r' c k k' : Nat} (hk : k < c) (hk' : k' < c) (h : r * c + k = r' * c + k') : r = r' ∧ k = k' := by
  have hr : ∀ a b : Nat, b < c → (a * c + b) / c = a := fun a b hb => by
    rw [Nat.mul_comm, Nat.mul_add_div (by omega), Nat.div_eq_of_lt hb, Nat.add_zero]
  have hrr : r = r' := by rw [← hr r k hk, h, hr r' k' hk']
  subst hrr
  omega

variable (n r k l : Nat) (hr : r < n) (hk : (lanesOf lanes)[k]? = some l)
include hk

/-- An element of a register of the window, as a field. -/
theorem alone_regPieces (hwf : Sparse.wf (0 : Word) h.vregs = true) :
    Alone (h.regPieces base n lanes ofs) (ofs + 4 * (r * (lanesOf lanes).length + k)) 4 (h.elem (base + r) l).toNat := by
  intro p hp
  obtain ⟨q, hq, r', -, hreg, hl, rfl⟩ := mem_regPieces h base lanes ofs hp
  have hkc : k < (lanesOf lanes).length := (List.getElem?_eq_some_iff.mp hk).1
  by_cases he : r' * (lanesOf lanes).length + lanePos lanes (q.1 % 32) = r * (lanesOf lanes).length + k
  · obtain ⟨hr', hpos⟩ := place_inj (lanePos_lt hl) hkc he
    have hlane := eq_of_lanePos hk hl hpos
    left
    have hq1 : q.1 = 32 * (base + r) + l := by omega
    have hval : h.elem (base + r) l = q.2 := by rw [Hoist.elem, ← hq1, Sparse.get_of_mem hwf hq]
    rw [he, hval]
  · right
    show ofs + 4 * _ + 4 ≤ ofs + 4 * _ ∨ ofs + 4 * _ + 4 ≤ ofs + 4 * _
    omega

include hr

theorem put_regPieces : (h.elem (base + r) l).toNat = 0 ∨
    (⟨ofs + 4 * (r * (lanesOf lanes).length + k), 4, (h.elem (base + r) l).toNat⟩ : Piece) ∈ h.regPieces base n lanes ofs := by
  by_cases hz : h.elem (base + r) l = 0
  · left
    rw [hz]
    rfl
  · right
    have hlane : lanes.getLsbD l = true := (mem_lanesOf _ _).mp (List.mem_of_getElem? hk)
    have hl32 : l < 32 := BitVec.lt_of_getLsbD hlane
    have hdiv : (32 * (base + r) + l) / 32 = base + r := by omega
    have hmod : (32 * (base + r) + l) % 32 = l := by omega
    refine List.mem_filterMap.mpr ⟨_, Sparse.mem_of_get_ne h.vregs _ hz, ?_⟩
    dsimp only
    rw [hdiv, hmod, if_pos ⟨by omega, by omega, hlane⟩, Nat.add_sub_cancel_left, show
      ((lanesOf lanes).filter fun j => decide (j < l)).length = k from lanePos_eq hk]
    rfl

end Regs

/-! ### The parts of an ingot (R45, R46) -/

/-- The hidden state of an ingot in front of its mask registers. -/
def Frag.statePieces (x : Frag) : List Piece :=
  let e := x.carried.headD { prio := 0, pc := 0, mask := 0, wait := none }
  [{ ofs := 0x40, size := 8, val := e.pc.toNat }, { ofs := 0x48, size := 4, val := e.mask.toNat },
   { ofs := 0x4C, size := 1, val := e.prio.toNat }, { ofs := 0x4D, size := 1, val := x.wbase / 8 },
   { ofs := 0x4E, size := 1, val := x.loops.length }, { ofs := 0x50, size := 4, val := x.repc.toNat }]

/-- The loop stack of an ingot. -/
def Frag.loopPieces (x : Frag) : List Piece :=
  ((List.range x.loops.length).zipWith (fun k (e : LoopEnt) => e.pieces (0x88 + 20 * k)) x.loops).flatten

/-- The entries of an ingot behind the first. -/
def Frag.entryPieces (x : Frag) : List Piece :=
  ((List.range (x.carried.length - 1)).zipWith (fun k (e : Entry) =>
    let o := 800 + 256 * (lanesOf x.lanes).length + 16 * k
    [{ ofs := o, size := 8, val := e.pc.toNat }, { ofs := o + 8, size := 4, val := e.mask.toNat },
     { ofs := o + 12, size := 1, val := e.prio.toNat }]) (x.carried.drop 1)).flatten

section Ingot

variable (s : State) (f : Nat) (anchor : Bool) (sender : Nat) (seq : Word)

/-- The pieces of an ingot from its hidden state to its predicates. -/
def State.hiddenPieces (s : State) (f : Nat) (anchor : Bool) : List Piece :=
  let x := s.frag f
  let h := s.hoist x.hoist
  x.statePieces ++ maskPieces (if h.split && !anchor then x.mcopy else h.masks) ++ x.loopPieces ++ h.predPieces x.lanes

/-- The header of a parked ingot. -/
def State.ingotTop (s : State) (f sender : Nat) (seq : Word) : List Piece :=
  let x := s.frag f
  s.ingotHead 1 x.hoist x.lanes x.carried.length x.parkedBytes sender seq x.pseq

theorem ingotPieces_eq : s.ingotPieces f anchor sender seq =
    s.ingotTop f sender seq ++ s.hiddenPieces f anchor ++ (s.hoist (s.frag f).hoist).regPieces (s.frag f).wbase 64 (s.frag f).lanes 288 ++
      (tablePieces (s.frag f).sregs (288 + 256 * (lanesOf (s.frag f).lanes).length) 8 BitVec.toNat ++ (s.frag f).entryPieces) := by
  rw [State.ingotPieces]
  dsimp only [tablePieces, State.hiddenPieces]
  simp only [List.append_assoc]
  rfl

theorem within_hiddenPieces (hloops : (s.frag f).loops.length ≤ 4) : Within 0x40 288 (s.hiddenPieces f anchor) := by
  refine within_append (within_append (within_append ?_ ?_) ?_) ?_
  · intro q hq
    simp only [Frag.statePieces, List.mem_cons, List.not_mem_nil, or_false] at hq
    rcases hq with rfl | rfl | rfl | rfl | rfl | rfl <;> simp
  · refine within_map _ _ fun k hk => ?_
    have := List.mem_range.mp hk
    exact ⟨by show 0x40 ≤ 0x58 + 4 * k; omega, by show 0x58 + 4 * k + 4 ≤ 288; omega⟩
  · refine within_flatten_zipWith_range _ _ _ fun k e hk _ => ?_
    intro q hq
    simp only [LoopEnt.pieces, List.mem_cons, List.not_mem_nil, or_false] at hq
    rcases hq with rfl | rfl | rfl
    · exact ⟨by show 0x40 ≤ 0x88 + 20 * k; omega, by show 0x88 + 20 * k + 4 ≤ 288; omega⟩
    · exact ⟨by show 0x40 ≤ 0x88 + 20 * k + 4; omega, by show 0x88 + 20 * k + 4 + 8 ≤ 288; omega⟩
    · exact ⟨by show 0x40 ≤ 0x88 + 20 * k + 12; omega, by show 0x88 + 20 * k + 12 + 8 ≤ 288; omega⟩
  · refine within_map _ _ fun k hk => ?_
    have := List.mem_range.mp hk
    exact ⟨by show 0x40 ≤ 224 + 4 * k; omega, by show 224 + 4 * k + 4 ≤ 288; omega⟩

theorem alone_entryPieces (x : Frag) (o n v : Nat) (h : o + n ≤ 800 + 256 * (lanesOf x.lanes).length) : Alone x.entryPieces o n v := by
  intro q hq
  obtain ⟨ps, hps, hq⟩ := List.mem_flatten.mp hq
  obtain ⟨k, e, -, -, rfl⟩ := mem_zipWith_range _ _ _ _ hps
  simp only [List.mem_cons, List.not_mem_nil, or_false] at hq
  refine .inr (.inr ?_)
  rcases hq with rfl | rfl | rfl
  · show o + n ≤ 800 + 256 * (lanesOf x.lanes).length + 16 * k
    omega
  · show o + n ≤ 800 + 256 * (lanesOf x.lanes).length + 16 * k + 8
    omega
  · show o + n ≤ 800 + 256 * (lanesOf x.lanes).length + 16 * k + 12
    omega

/-- The fields of the header in front of its posted-sequence entries. -/
def State.ingotFixed (s : State) (f sender : Nat) (seq : Word) : List Piece :=
  let x := s.frag f
  let h := s.hoist x.hoist
  let c := s.cast h.cast
  let p := s.pour c.pour
  let flag (b : Bool) (k : Nat) : Nat := if b then k else 0
  [{ ofs := 0, size := 1, val := 1 }, { ofs := 1, size := 1, val := p.ctx.toNat }, { ofs := 2, size := 1, val := 0xFF },
   { ofs := 3, size := 1, val := flag (p.flag 3) 1 + flag h.split 2 + flag (p.flag 4) 4 },
   { ofs := 4, size := 4, val := x.lanes.toNat }, { ofs := 8, size := 1, val := c.anchor / 128 },
   { ofs := 9, size := 1, val := c.anchor % 128 }, { ofs := 0xA, size := 1, val := h.slot },
   { ofs := 0xB, size := 1, val := x.carried.length }, { ofs := 0xC, size := 2, val := x.parkedBytes },
   { ofs := 0xE, size := 2, val := sender }, { ofs := 0x10, size := 4, val := p.count }, { ofs := 0x14, size := 4, val := seq.toNat },
   { ofs := 0x18, size := 8, val := workId p c.index h.index 0 }]

theorem ingotTop_eq : s.ingotTop f sender seq = s.ingotFixed f sender seq ++
    (List.range (s.frag f).pseq.length).zipWith (fun k e => { ofs := 0x20 + 8 * k, size := 8, val := e.word }) (s.frag f).pseq := rfl

/-- The kind of an ingot, its lanes and its sender, as fields. -/
theorem alone_ingotFixed : Alone (s.ingotFixed f sender seq) 0 1 1 ∧
    Alone (s.ingotFixed f sender seq) 4 4 (s.frag f).lanes.toNat ∧ Alone (s.ingotFixed f sender seq) 0xE 2 sender := by
  refine ⟨?_, ?_, ?_⟩ <;>
  · intro q hq
    simp only [State.ingotFixed, List.mem_cons, List.not_mem_nil, or_false] at hq
    rcases hq with rfl | rfl | rfl | rfl | rfl | rfl | rfl | rfl | rfl | rfl | rfl | rfl | rfl | rfl <;> simp

theorem within_ingotTop (hp : (s.frag f).pseq.length ≤ 4) : Within 0 0x40 (s.ingotTop f sender seq) := by
  rw [ingotTop_eq]
  refine within_append ?_ (within_zipWith_range _ _ _ fun k e hk _ => ⟨Nat.zero_le _, by show 0x20 + 8 * k + 8 ≤ 0x40; omega⟩)
  intro q hq
  simp only [State.ingotFixed, List.mem_cons, List.not_mem_nil, or_false] at hq
  rcases hq with rfl | rfl | rfl | rfl | rfl | rfl | rfl | rfl | rfl | rfl | rfl | rfl | rfl | rfl <;> simp

/-- An ingot has room for its header, its predicates, its registers and its scalars. -/
theorem parkedBytes_ge (x : Frag) : 800 + 256 * (lanesOf x.lanes).length ≤ x.parkedBytes := by
  rw [Frag.parkedBytes]
  omega

/-- What a fragment keeps in range: 4 loops, 4 posted-sequence entries and 64 scalars at most, and tables in their one form (R45, R46). -/
structure FragTables (s : State) (f : Nat) : Prop where
  loops : (s.frag f).loops.length ≤ 4
  pseq  : (s.frag f).pseq.length ≤ 4
  vregs : Sparse.wf (0 : Word) (s.hoist (s.frag f).hoist).vregs = true
  sregs : Sparse.wf (0 : DWord) (s.frag f).sregs = true
  below : ∀ q ∈ (s.frag f).sregs, q.1 < 64

variable (h : FragTables s f)
include h

theorem alone_ingot_head {o n v : Nat} (hf : Alone (s.ingotFixed f sender seq) o n v) (hlt : o + n ≤ 0x20) :
    Alone (s.ingotPieces f anchor sender seq) o n v := by
  have htop : Alone (s.ingotTop f sender seq) o n v := by
    rw [ingotTop_eq]
    refine alone_append hf fun q hq => ?_
    obtain ⟨k, e, -, -, rfl⟩ := mem_zipWith_range _ _ _ q hq
    exact .inr (.inr (by show o + n ≤ 0x20 + 8 * k; omega))
  rw [ingotPieces_eq]
  exact alone_append (alone_append (alone_append htop ((within_hiddenPieces s f anchor h.loops).alone (.inr (by omega))))
    ((within_regPieces _ _ _ _ _).alone (.inr (by omega))))
    (alone_append ((within_tablePieces _ _ _ _ 64 h.below).alone (.inr (by omega))) (alone_entryPieces _ _ _ _ (by omega)))

theorem alone_ingot_reg {r k l : Nat} (hr : r < 64) (hk : (lanesOf (s.frag f).lanes)[k]? = some l) :
    Alone (s.ingotPieces f anchor sender seq) (288 + 4 * (r * (lanesOf (s.frag f).lanes).length + k)) 4
      ((s.hoist (s.frag f).hoist).elem ((s.frag f).wbase + r) l).toNat := by
  have hlt := place_lt hr (List.getElem?_eq_some_iff.mp hk).1
  rw [ingotPieces_eq]
  exact alone_append (alone_append (alone_append ((within_ingotTop s f sender seq h.pseq).alone (.inl (by omega)))
    ((within_hiddenPieces s f anchor h.loops).alone (.inl (by omega)))) (alone_regPieces _ _ _ _ 64 r k l hk h.vregs))
    (alone_append ((within_tablePieces _ _ _ _ 64 h.below).alone (.inr (by omega))) (alone_entryPieces _ _ _ _ (by omega)))

theorem alone_ingot_sreg {r : Nat} (hr : r < 64) :
    Alone (s.ingotPieces f anchor sender seq) (288 + 256 * (lanesOf (s.frag f).lanes).length + 8 * r) 8 ((s.frag f).sreg r).toNat := by
  rw [ingotPieces_eq]
  exact alone_append (alone_append (alone_append ((within_ingotTop s f sender seq h.pseq).alone (.inl (by omega)))
    ((within_hiddenPieces s f anchor h.loops).alone (.inl (by omega)))) ((within_regPieces _ _ _ _ _).alone (.inl (by omega))))
    (alone_append (alone_tablePieces (0 : DWord) _ _ 8 BitVec.toNat h.sregs r) (alone_entryPieces _ _ _ _ (by omega)))

/-- What the ingot of a fragment reads, from its first byte on (R45, R46, R51). -/
structure IngotReads (s t : State) (f sender pa : Nat) : Prop where
  kind   : t.readLE pa 1 = 1
  lanes  : t.readLE (pa + 4) 4 = (s.frag f).lanes.toNat
  sender : t.readLE (pa + 0xE) 2 = sender % 2 ^ 16
  regs   : ∀ r k l, r < 64 → (lanesOf (s.frag f).lanes)[k]? = some l →
             t.readLE (pa + 288 + 4 * (r * (lanesOf (s.frag f).lanes).length + k)) 4 =
               ((s.hoist (s.frag f).hoist).elem ((s.frag f).wbase + r) l).toNat
  sregs  : ∀ r, r < 64 → t.readLE (pa + 288 + 256 * (lanesOf (s.frag f).lanes).length + 8 * r) 8 = ((s.frag f).sreg r).toNat

theorem putIngot_reads (gh pa : Nat) (hspot : s.spot gh (s.frag f).parkedBytes = some pa) :
    IngotReads s (s.putIngot f gh anchor sender seq) f sender pa := by
  have hge := parkedBytes_ge (s.frag f)
  obtain ⟨hKind, hLanes, hSender⟩ := alone_ingotFixed s f sender seq
  have hput : ∀ {o n v : Nat}, o + n ≤ (s.frag f).parkedBytes → Alone (s.ingotPieces f anchor sender seq) o n v →
      (v = 0 ∨ (⟨o, n, v⟩ : Piece) ∈ s.ingotPieces f anchor sender seq) →
      (s.putIngot f gh anchor sender seq).readLE (pa + o) n = v % 256 ^ n :=
    fun ho ha hp => readLE_putImage s gh (.ingot f) _ pa _ hspot ho ha hp
  have hfixed : ∀ q ∈ s.ingotFixed f sender seq, q ∈ s.ingotPieces f anchor sender seq := fun q hq => by
    rw [ingotPieces_eq, ingotTop_eq]
    exact List.mem_append_left _ (List.mem_append_left _ (List.mem_append_left _ (List.mem_append_left _ hq)))
  refine ⟨?_, ?_, ?_, fun r k l hr hk => ?_, fun r hr => ?_⟩
  · exact hput (o := 0) (n := 1) (by omega) (alone_ingot_head s f anchor sender seq h hKind (by omega))
      (.inr (hfixed _ (by simp [State.ingotFixed])))
  · refine (hput (o := 4) (n := 4) (by omega) (alone_ingot_head s f anchor sender seq h hLanes (by omega))
      (.inr (hfixed _ (by simp [State.ingotFixed])))).trans (Nat.mod_eq_of_lt ?_)
    exact (s.frag f).lanes.isLt
  · exact hput (o := 0xE) (n := 2) (by omega) (alone_ingot_head s f anchor sender seq h hSender (by omega))
      (.inr (hfixed _ (by simp [State.ingotFixed])))
  · have hlt := place_lt hr (List.getElem?_eq_some_iff.mp hk).1
    rw [Nat.add_assoc]
    refine (hput (by omega) (alone_ingot_reg s f anchor sender seq h hr hk)
      ((put_regPieces _ _ _ 288 64 r k l hr hk).imp id fun hm => ?_)).trans (Nat.mod_eq_of_lt (BitVec.isLt _))
    rw [ingotPieces_eq]
    exact List.mem_append_left _ (List.mem_append_right _ hm)
  · rw [Nat.add_assoc, Nat.add_assoc, ← Nat.add_assoc 288]
    refine (hput (by omega) (alone_ingot_sreg s f anchor sender seq h hr)
      ((put_tablePieces (0 : DWord) _ (288 + 256 * (lanesOf (s.frag f).lanes).length) 8 BitVec.toNat rfl r).imp id
        fun hm => ?_)).trans (Nat.mod_eq_of_lt (BitVec.isLt _))
    rw [ingotPieces_eq]
    exact List.mem_append_right _ (List.mem_append_left _ hm)

end Ingot

end Sys2Proof.Machine
end

section
/-! Fragments and casts that park, and poisoned images (R45, R51, R404, R418). -/

namespace Sys2Proof.Machine
open Sys2Proof.Claims

/-! ### A fragment parks (R45, R46, R51) -/

/-- A fragment as it stands in a parking area. -/
def Frag.parkedAs (x : Frag) (l : List PSeq) (pl : Place) : Frag := { x.parkedForm with pseq := l, drain := none, place := pl }

theorem parkedForm_parkedAs (x : Frag) (l : List PSeq) (pl : Place) :
    { ({ x with pseq := l, drain := none } : Frag).parkedForm with place := pl } = x.parkedAs l pl := by
  cases h : x.trap <;> simp only [Frag.parkedAs, Frag.parkedForm, h]

/-- A park changes neither lanes nor window, nor scalars, nor loops, nor the hoist. -/
theorem parkedForm_kept (x : Frag) : x.parkedForm.lanes = x.lanes ∧ x.parkedForm.wbase = x.wbase ∧ x.parkedForm.sregs = x.sregs ∧
    x.parkedForm.loops = x.loops ∧ x.parkedForm.hoist = x.hoist := by
  cases h : x.trap <;> simp only [Frag.parkedForm, h, and_self]

theorem dropAllPins_none (s : State) (f : Nat) (h : (s.frag f).pinned = []) : s.dropAllPins f = s := by
  unfold State.dropAllPins Frag.pinsHeld
  rw [h]
  rfl

section Park

variable (s : State) (f gc : Nat) (anchor : Bool)

/-- A fragment stands in no slot any more, with the predecessors that it keeps. -/
def State.outOfSlot (s : State) (f gc : Nat) : State :=
  ((s.setFrag f { s.frag f with pseq := s.keptPSeq (s.frag f), drain := none }).modCore gc fun c => c.dropVisitor f).numberImage gc

theorem outOfSlot_frag : (s.outOfSlot f gc).frag f = { s.frag f with pseq := s.keptPSeq (s.frag f), drain := none } := by
  have hset : (s.outOfSlot f gc).frag f = (s.setFrag f { s.frag f with pseq := s.keptPSeq (s.frag f), drain := none }).frag f := rfl
  rw [hset, setFrag_frag, if_pos rfl]

/-- A fragment has left its slot, to be parked at the hearth of its core. -/
def State.leftSlot (s : State) (f gc : Nat) (anchor : Bool) : State :=
  (s.outOfSlot f gc).modFrag f fun y => { y.parkedForm with place := .parked (coreHearth gc) false anchor }

theorem leftSlot_frag : (s.leftSlot f gc anchor).frag f =
    (s.frag f).parkedAs (s.keptPSeq (s.frag f)) (.parked (coreHearth gc) false anchor) := by
  rw [State.leftSlot, modFrag_frag, if_pos rfl, outOfSlot_frag, parkedForm_parkedAs]

theorem leftSlot_added : ImagesAdded s (s.leftSlot f gc anchor) := .of_same rfl rfl fun _ => rfl

theorem leftSlot_spot (len : Nat) : (s.leftSlot f gc anchor).spot (coreHearth gc) len = s.spot (coreHearth gc) len := rfl

theorem leftSlot_hoist (k : Nat) : (s.leftSlot f gc anchor).hoist k = s.hoist k := rfl

/-- The ingot of the fragment stands in the parking area. -/
def State.parkedThere (s : State) (f gc : Nat) (anchor : Bool) : State :=
  (s.leftSlot f gc anchor).putIngot f (coreHearth gc) anchor gc (s.imageSeq gc)

theorem parkedThere_hoist (k : Nat) : (s.parkedThere f gc anchor).hoist k = s.hoist k :=
  (congrArg (fun t : State => t.hoist k) (putImage_rest (s.leftSlot f gc anchor) ..) :)

theorem parkedThere_cast (c : Nat) : (s.parkedThere f gc anchor).cast c = s.cast c :=
  (congrArg (fun t : State => t.cast c) (putImage_rest (s.leftSlot f gc anchor) ..) :)

theorem parkedThere_pour (P : Nat) : (s.parkedThere f gc anchor).pour P = s.pour P :=
  (congrArg (fun t : State => t.pour P) (putImage_rest (s.leftSlot f gc anchor) ..) :)

theorem parkedThere_frag : (s.parkedThere f gc anchor).frag f =
    (s.frag f).parkedAs (s.keptPSeq (s.frag f)) (.parked (coreHearth gc) false anchor) :=
  (congrArg (fun t : State => t.frag f) (putImage_rest (s.leftSlot f gc anchor) ..) :).trans (leftSlot_frag ..)

variable (hf : (s.pour (s.pourOf (s.frag f))).flag 4 = false)
include hf

/-- A parked fragment of a pour without a trace leaves none. -/
theorem parkedThere_untraced : (s.parkedThere f gc anchor).traceFrag f (coreHearth gc) 0x82 = s.parkedThere f gc anchor := by
  have hhoist : ((s.frag f).parkedAs (s.keptPSeq (s.frag f)) (.parked (coreHearth gc) false anchor)).hoist = (s.frag f).hoist :=
    (parkedForm_kept (s.frag f)).2.2.2.2
  have hpour : (s.parkedThere f gc anchor).pour ((s.parkedThere f gc anchor).pourOf ((s.parkedThere f gc anchor).frag f)) =
      s.pour (s.pourOf (s.frag f)) := by
    rw [parkedThere_frag, parkedThere_pour, State.pourOf, State.castOf, hhoist, parkedThere_hoist, parkedThere_cast]
    rfl
  unfold State.traceFrag
  dsimp only
  rw [hpour, hf]
  rfl

/-- A fragment that may leave parks where it stands, and its cast with it. -/
theorem exec_fragmentDeparture_park (slot dest : Nat) (lsel : BitVec 8) (hl : (s.frag f).live = true)
    (hmay : s.mayLeave (s.frag f) = true) (hp : (s.frag f).place = .departing gc slot dest lsel anchor true)
    (hpseq : (s.keptPSeq (s.frag f)).length ≤ 4) (hpins : (s.frag f).pinned = []) :
    exec (.fragmentDeparture f) s = .next ((s.parkedThere f gc anchor).finishPark (s.castOf (s.frag f))) := by
  have hdrop : (s.setFrag f { s.frag f with pseq := s.keptPSeq (s.frag f), drain := none }).dropAllPins f =
      s.setFrag f { s.frag f with pseq := s.keptPSeq (s.frag f), drain := none } :=
    dropAllPins_none _ _ (by rw [setFrag_frag, if_pos rfl]; exact hpins)
  have hpark : (s.outOfSlot f gc).parkFrag f (coreHearth gc) false anchor gc (s.imageSeq gc) = s.parkedThere f gc anchor :=
    parkedThere_untraced s f gc anchor hf
  show execFragmentDeparture f s = _
  unfold execFragmentDeparture
  dsimp only
  split
  · rename_i hplace
    cases hp.symm.trans hplace
    rw [if_neg (by simp [hl, hmay]), if_neg (Nat.not_lt.mpr hpseq), if_pos rfl, hdrop]
    exact congrArg (fun t : State => Host.Outcome.next (t.finishPark (s.castOf (s.frag f)))) hpark
  · rename_i hplace
    exact absurd hp (hplace _ _ _ _ _ _)

end Park

/-! ### A poisoned image ends its pour (R418) -/

theorem poisonedEntry_errCount (s : State) (P gh pa : Nat) :
    ((s.poisonedEntry P gh pa).hearth gh).errCount = (s.hearth gh).errCount + 1 := by
  unfold State.poisonedEntry
  rw [beginKill_part Hearth.errCount aside_errCount, record_errCount]
  exact congrArg (· + 1) (modHearth_part Hearth.errCount s gh _ (by exact fun _ => rfl) gh)

theorem poisonedEntry_killing (s : State) (P gh pa : Nat) (h : (s.pour P).st = .accepted) :
    ((s.poisonedEntry P gh pa).pour P).st = .killing := by
  refine beginKill_killing _ P ?_
  rw [State.pour, record_pours]
  exact h

end Sys2Proof.Machine
end

section
/-! What a fragment and a cast that park leave, and what a poisoned arrival does (R45, R51, R404, R418). -/

namespace Sys2Proof.Machine
open Sys2Proof.Claims

/-! ### The ingot of a parked fragment (R45, R46, R51) -/

/-- An ingot reads as before behind images that are added. -/
theorem IngotReads.added {s t u : State} {f sender gh pa : Nat} (h : IngotReads s t f sender pa) (k : ImagesAdded t u)
    (hm : ({ owner := .ingot f, pa, len := (s.frag f).parkedBytes } : Image) ∈ (t.hearth gh).images)
    (hlo : parkingBase gh ≤ pa) (hhi : pa + (s.frag f).parkedBytes ≤ parkingBase gh + parkingArea) : IngotReads s u f sender pa := by
  have hge := parkedBytes_ge (s.frag f)
  have hread : ∀ {o n : Nat}, o + n ≤ (s.frag f).parkedBytes → u.readLE (pa + o) n = t.readLE (pa + o) n :=
    fun hfit => k.readLE hm hlo hhi hfit
  refine ⟨?_, ?_, ?_, fun r i l hr hi => ?_, fun r hr => ?_⟩
  · exact (hread (o := 0) (by omega)).trans h.kind
  · exact (hread (by omega)).trans h.lanes
  · exact (hread (by omega)).trans h.sender
  · have hlt := place_lt hr (List.getElem?_eq_some_iff.mp hi).1
    rw [← h.regs r i l hr hi, Nat.add_assoc]
    exact hread (by omega)
  · rw [← h.sregs r hr, Nat.add_assoc, Nat.add_assoc]
    exact hread (by omega)

section Departs

variable (s : State) (f gc : Nat) (anchor : Bool)

theorem parkedAs_bytes (x : Frag) (l : List PSeq) (pl : Place) : (x.parkedAs l pl).parkedBytes = x.parkedForm.parkedBytes := rfl

/-- A fragment that has left its slot keeps its tables. -/
theorem leftSlot_tables (hpseq : (s.keptPSeq (s.frag f)).length ≤ 4) (hloops : (s.frag f).loops.length ≤ 4)
    (hv : Sparse.wf (0 : Word) (s.hoist (s.frag f).hoist).vregs = true) (hs : Sparse.wf (0 : DWord) (s.frag f).sregs = true)
    (hlt : ∀ q ∈ (s.frag f).sregs, q.1 < 64) : FragTables (s.leftSlot f gc anchor) f := by
  obtain ⟨-, -, hsregs, hlps, hhoist⟩ := parkedForm_kept (s.frag f)
  refine ⟨?_, ?_, ?_, ?_, ?_⟩ <;> rw [leftSlot_frag]
  · exact (congrArg List.length hlps :).trans_le hloops
  · exact hpseq
  · rw [leftSlot_hoist]
    exact (congrArg (fun k => Sparse.wf (0 : Word) (s.hoist k).vregs) hhoist :).trans hv
  · exact (congrArg (Sparse.wf (0 : DWord)) hsregs :).trans hs
  · intro q hq
    exact hlt q (hsregs ▸ hq)

theorem parkedThere_added : ImagesAdded s (s.parkedThere f gc anchor) := (leftSlot_added ..).trans (putImage_added ..)

/-- A fragment that parks has the lanes, the window and the scalars that it had. -/
theorem leftSlot_carries : ((s.leftSlot f gc anchor).frag f).lanes = (s.frag f).lanes ∧
    ((s.leftSlot f gc anchor).frag f).wbase = (s.frag f).wbase ∧ ((s.leftSlot f gc anchor).frag f).sregs = (s.frag f).sregs ∧
    ((s.leftSlot f gc anchor).frag f).hoist = (s.frag f).hoist := by
  obtain ⟨hlanes, hwbase, hsregs, -, hhoist⟩ := parkedForm_kept (s.frag f)
  rw [leftSlot_frag]
  exact ⟨hlanes, hwbase, hsregs, hhoist⟩

/-- What the ingot of a fragment that has left its slot reads is what the fragment had. -/
theorem IngotReads.ofLeft {s t : State} {f gc pa : Nat} {anchor : Bool} (h : IngotReads (s.leftSlot f gc anchor) t f gc pa) :
    IngotReads s t f gc pa := by
  obtain ⟨hlanes, hwbase, hsregs, hhoist⟩ := leftSlot_carries s f gc anchor
  obtain ⟨hk, hl, hs, hregs, hsc⟩ := h
  rw [hlanes] at hl hregs hsc
  rw [hwbase, hhoist, leftSlot_hoist] at hregs
  refine ⟨hk, hl, hs, hregs, fun r hr => ?_⟩
  rw [hsc r hr, Frag.sreg, hsregs, Frag.sreg]

/-- A parked ingot stands in the area of its hearth, and holds what the fragment had. -/
theorem parkedThere_reads {pa : Nat} (h : FragTables (s.leftSlot f gc anchor) f)
    (hspot : s.spot (coreHearth gc) (s.frag f).parkedForm.parkedBytes = some pa) :
    ({ owner := .ingot f, pa, len := (s.frag f).parkedForm.parkedBytes } : Image) ∈
        ((s.parkedThere f gc anchor).hearth (coreHearth gc)).images ∧
      ∀ t, ImagesAdded (s.parkedThere f gc anchor) t → IngotReads s t f gc pa := by
  have hbytes : ((s.leftSlot f gc anchor).frag f).parkedBytes = (s.frag f).parkedForm.parkedBytes := by
    rw [leftSlot_frag, parkedAs_bytes]
  have hspot' : (s.leftSlot f gc anchor).spot (coreHearth gc) ((s.leftSlot f gc anchor).frag f).parkedBytes = some pa := by
    rw [hbytes, leftSlot_spot, hspot]
  have himg : ({ owner := .ingot f, pa, len := ((s.leftSlot f gc anchor).frag f).parkedBytes } : Image) ∈
      ((s.parkedThere f gc anchor).hearth (coreHearth gc)).images := by
    rw [State.parkedThere, State.putIngot, putImage_images _ _ _ _ pa _ hspot']
    exact List.mem_append_right _ List.mem_cons_self
  obtain ⟨hlo, hhi, -⟩ := spot_inside hspot'
  refine ⟨hbytes ▸ himg, fun t ht => ?_⟩
  exact ((putIngot_reads (s.leftSlot f gc anchor) f anchor gc (s.imageSeq gc) h (coreHearth gc) pa hspot').added ht himg hlo hhi).ofLeft

end Departs

/-- O43, a fragment that parks. -/
theorem departs_leavesIngot (s : State) (f gc slot dest : Nat) (lsel : BitVec 8) (anchor : Bool) (hl : (s.frag f).live = true)
    (hmay : s.mayLeave (s.frag f) = true) (hp : (s.frag f).place = .departing gc slot dest lsel anchor true)
    (hpseq : (s.keptPSeq (s.frag f)).length ≤ 4) (hf : (s.pour (s.pourOf (s.frag f))).flag 4 = false)
    (hpins : (s.frag f).pinned = []) (hspot : s.spot (coreHearth gc) (s.frag f).parkedForm.parkedBytes ≠ none)
    (htab : FragTables (s.leftSlot f gc anchor) f) :
    ∃ t pa, exec (.fragmentDeparture f) s = .next t ∧ ImagesAdded s t ∧
      ({ owner := .ingot f, pa, len := (s.frag f).parkedForm.parkedBytes } : Image) ∈ (t.hearth (coreHearth gc)).images ∧
      parkingBase (coreHearth gc) ≤ pa ∧ pa + (s.frag f).parkedForm.parkedBytes ≤ parkingBase (coreHearth gc) + parkingArea ∧
      IngotReads s t f gc pa := by
  obtain ⟨pa, hpa⟩ := Option.ne_none_iff_exists'.mp hspot
  obtain ⟨hlo, hhi, -⟩ := spot_inside hpa
  obtain ⟨himg, hreads⟩ := parkedThere_reads s f gc anchor htab hpa
  have hdone : ImagesAdded (s.parkedThere f gc anchor) ((s.parkedThere f gc anchor).finishPark (s.castOf (s.frag f))) := by
    refine finishPark_added _ _ ?_
    rw [parkedThere_pour, parkedThere_cast]
    exact hf
  exact ⟨_, pa, exec_fragmentDeparture_park s f gc anchor hf slot dest lsel hl hmay hp hpseq hpins,
    (parkedThere_added s f gc anchor).trans hdone, (hdone.stays _ _ himg hlo hhi).1, hlo, hhi, hreads _ hdone⟩

/-! ### The image of a parked cast (R404) -/

/-- O43, a cast that parks. -/
theorem parks_leavesImage (s : State) (c : Nat) (h : s.parkDone c = true) (hp : (s.pour (s.cast c).pour).flag 4 = false)
    (hspot : s.spot (coreHearth (s.cast c).anchor) (s.imageBytes c) ≠ none) (htab : CastTables (s.cast c))
    (hwf : Sparse.wf (0 : Byte) (s.cast c).spad = true) :
    ∃ pa, ({ owner := .cast c, pa, len := s.imageBytes c } : Image) ∈ ((s.finishPark c).hearth (coreHearth (s.cast c).anchor)).images ∧
      (s.finishPark c).readLE (pa + 0xB) 1 = (s.pour (s.cast c).pour).banks % 256 ∧
      (s.finishPark c).readLE (pa + 0x18) 8 = s.imageBytes c % 2 ^ 64 ∧
      ∀ a, a < (s.pour (s.cast c).pour).spad →
        (s.finishPark c).byte (pa + s.spadOfs c + a) = Sparse.get (0 : Byte) (s.cast c).spad a := by
  obtain ⟨pa, hpa⟩ := Option.ne_none_iff_exists'.mp hspot
  obtain ⟨hlo, hhi, -⟩ := spot_inside hpa
  obtain ⟨hbanks, hbytes, hspad⟩ := putWhole_fields s c pa htab hwf hpa
  have himg : ({ owner := .cast c, pa, len := s.imageBytes c } : Image) ∈
      ((s.putWhole c).hearth (coreHearth (s.cast c).anchor)).images := by
    refine (putImage_images s _ _ _ pa _ hpa).symm ▸ ?_
    exact List.mem_append_right _ List.mem_cons_self
  have hafter := finishPark_after s c hp h
  have hlen : s.imageBytes c = s.spadOfs c + (s.pour (s.cast c).pour).spad + (s.pour (s.cast c).pour).spad / 32 := rfl
  have h64 : 64 ≤ s.spadOfs c := by
    rw [State.spadOfs, State.pendingOfs]
    omega
  refine ⟨pa, (hafter.stays _ _ himg hlo hhi).1, ?_, ?_, fun a ha => ?_⟩
  · exact (hafter.readLE himg hlo hhi (by simp only; omega)).trans hbanks
  · exact (hafter.readLE himg hlo hhi (by simp only; omega)).trans hbytes
  · exact ((hafter.stays _ _ himg hlo hhi).2 _ (by simp only; omega) (by simp only; omega)).trans (hspad a ha)

/-! ### A poisoned arrival (R418) -/

theorem exec_parkedArrivalPlacement_bad {s : State} {gh f gc pa : Nat} {r : List Nat} (harr : (s.hearth gh).arrivals = f :: r)
    (hpick : s.pickCore gh = some gc) (hbad : s.badImage gh (· = .ingot f) = some pa) :
    exec (.parkedArrivalPlacement gh) s = .next (s.poisonedEntry (s.pourOf (s.frag f)) gh pa) := by
  show execParkedArrivalPlacement gh s = _
  simp only [execParkedArrivalPlacement, harr, hpick, hbad]

end Sys2Proof.Machine
end

section
/-! A head of a queue that has room has it whatever Bellows counts (R308, R405): what a start depends on, and what it leaves. -/

namespace Sys2Proof.Machine
open Sys2Proof.Claims

/-! ### The room that casts find (R29, R75, R309) -/

/-- Two states have the same clock, casts, pours and hoists, and the same room on every core. -/
structure SameRoom (s t : State) : Prop where
  now      : t.now = s.now
  casts    : t.casts = s.casts
  pours    : t.pours = s.pours
  hoists   : t.hoists = s.hoists
  anchors  : ∀ gc, (t.core gc).anchors = (s.core gc).anchors
  visitors : ∀ gc, (t.core gc).visitors = (s.core gc).visitors
  blocks   : ∀ gc, (t.core gc).blocks = (s.core gc).blocks

namespace SameRoom

theorem refl (s : State) : SameRoom s s := ⟨rfl, rfl, rfl, rfl, fun _ => rfl, fun _ => rfl, fun _ => rfl⟩

theorem symm {s t : State} (h : SameRoom s t) : SameRoom t s :=
  ⟨h.now.symm, h.casts.symm, h.pours.symm, h.hoists.symm, fun gc => (h.anchors gc).symm, fun gc => (h.visitors gc).symm,
    fun gc => (h.blocks gc).symm⟩

theorem trans {s t u : State} (h : SameRoom s t) (k : SameRoom t u) : SameRoom s u :=
  ⟨k.now.trans h.now, k.casts.trans h.casts, k.pours.trans h.pours, k.hoists.trans h.hoists, fun gc => (k.anchors gc).trans (h.anchors gc),
    fun gc => (k.visitors gc).trans (h.visitors gc), fun gc => (k.blocks gc).trans (h.blocks gc)⟩

/-- Only parts that no room depends on have changed, cores apart. -/
theorem of_cores {s t : State} (hn : t.now = s.now) (hc : t.casts = s.casts) (hp : t.pours = s.pours) (hh : t.hoists = s.hoists)
    (hk : t.cores = s.cores) : SameRoom s t :=
  ⟨hn, hc, hp, hh, fun gc => by rw [State.core, hk, State.core], fun gc => by rw [State.core, hk, State.core],
    fun gc => by rw [State.core, hk, State.core]⟩

end SameRoom

theorem PacketsOnly.sameRoom {s t : State} (h : PacketsOnly s t) : SameRoom s t :=
  ⟨(congrArg State.now h.rest :), (congrArg State.casts h.rest :), (congrArg State.pours h.rest :), (congrArg State.hoists h.rest :),
    fun gc => (congrArg Core.anchors (h.cores gc) :), fun gc => (congrArg Core.visitors (h.cores gc) :),
    fun gc => (congrArg Core.blocks (h.cores gc) :)⟩

theorem WritesOnly.sameRoom {s t : State} (h : WritesOnly s t) : SameRoom s t :=
  .of_cores (congrArg State.now h.rest :) (congrArg State.casts h.rest :) (congrArg State.pours h.rest :) (congrArg State.hoists h.rest :)
    (congrArg State.cores h.rest :)

/-- A change of a core that leaves its slots and its blocks. -/
theorem modCore_sameRoom (s : State) (gc : Nat) (f : Core → Core) (ha : ∀ k, (f k).anchors = k.anchors)
    (hv : ∀ k, (f k).visitors = k.visitors) (hb : ∀ k, (f k).blocks = k.blocks) : SameRoom s (s.modCore gc f) := by
  refine ⟨rfl, rfl, rfl, rfl, ?_, ?_, ?_⟩ <;> intro g <;> rw [modCore_core] <;> split
  · rename_i h
    rw [ha, h]
  · rfl
  · rename_i h
    rw [hv, h]
  · rfl
  · rename_i h
    rw [hb, h]
  · rfl

section Congr

variable {s t : State} (h : SameRoom s t)
include h

theorem SameRoom.cast (c : Nat) : t.cast c = s.cast c := by rw [State.cast, h.casts, State.cast]

theorem SameRoom.pour (p : Nat) : t.pour p = s.pour p := by rw [State.pour, h.pours, State.pour]

theorem SameRoom.hoist (k : Nat) : t.hoist k = s.hoist k := by rw [State.hoist, h.hoists, State.hoist]

theorem SameRoom.castHoists (c : Nat) : t.castHoists c = s.castHoists c := by rw [State.castHoists, h.hoists, State.castHoists]

theorem SameRoom.freeGranules (gc : Nat) : t.freeGranules gc = s.freeGranules gc := by
  simp only [State.freeGranules, State.castGranules, Core.visitorGranules, h.casts, h.blocks]

theorem SameRoom.slotFree (gc k : Nat) : (t.core gc).slotFree k = (s.core gc).slotFree k := by
  simp only [Core.slotFree, h.anchors, h.visitors]

theorem SameRoom.freeSlots (gc part : Nat) : (t.core gc).freeSlots part = (s.core gc).freeSlots part :=
  congrArg (List.filter · _) (funext fun k => h.slotFree gc k)

theorem SameRoom.holdsOn (p gc : Nat) : t.holdsOn p gc = s.holdsOn p gc := by rw [State.holdsOn, h.casts, State.holdsOn]

theorem SameRoom.heldBack (p gc : Nat) : t.heldBack p gc = s.heldBack p gc := by
  simp only [State.heldBack, h.holdsOn, h.pours]

theorem SameRoom.banksUsed (gc : Nat) : t.banksUsed gc = s.banksUsed gc := by
  simp only [State.banksUsed, h.casts, h.pour]

theorem SameRoom.ownSlotsFree (c : Nat) : t.ownSlotsFree c = s.ownSlotsFree c := by
  simp only [State.ownSlotsFree, h.castHoists, h.cast, h.hoist, h.slotFree]

/-- A cast that can return to its core in one state can in the other (R52, R308). -/
theorem SameRoom.canReturn (c : Nat) : t.canReturn c = s.canReturn c := by
  simp only [State.canReturn, h.cast, h.pour, h.heldBack, h.freeGranules, h.banksUsed, h.ownSlotsFree, h.freeSlots]

theorem SameRoom.modCast (c : Nat) (g : Cast → Cast) : SameRoom (s.modCast c g) (t.modCast c g) where
  now := h.now
  casts := by
    show Sparse.set Cast.fresh t.casts c (g (t.cast c)) = Sparse.set Cast.fresh s.casts c (g (s.cast c))
    rw [h.casts, h.cast]
  pours := h.pours
  hoists := h.hoists
  anchors := h.anchors
  visitors := h.visitors
  blocks := h.blocks

theorem SameRoom.takeGranules (c gc : Nat) : SameRoom (s.takeGranules c gc) (t.takeGranules c gc) := by
  unfold State.takeGranules
  dsimp only
  rw [h.cast, h.pour, h.freeGranules]
  exact h.modCast c _

end Congr

end Sys2Proof.Machine
end

section
/-! Resumption (R52, R308, R330, R405): the room of a cast that resumes, and the images that it has read. -/

namespace Sys2Proof.Machine
open Sys2Proof.Claims

/-! ### What leaves the room of the casts, and adds no image -/

/-- No hearth has an image that it did not have. -/
def FewerImages (s t : State) : Prop := ∀ g, ∀ m ∈ (t.hearth g).images, m ∈ (s.hearth g).images

theorem FewerImages.refl (s : State) : FewerImages s s := fun _ _ hm => hm

theorem FewerImages.trans {s t u : State} (h : FewerImages s t) (k : FewerImages t u) : FewerImages s u :=
  fun g m hm => h g m (k g m hm)

theorem FewerImages.foldl {α : Type} (f : State → α → State) (h : ∀ s x, FewerImages s (f s x)) (l : List α) (s : State) :
    FewerImages s (l.foldl f s) :=
  foldl_preserves (FewerImages s) f (fun a x ha => ha.trans (h a x)) l s (.refl s)

theorem modHearth_fewer (s : State) (gh : Nat) (f : Hearth → Hearth) (hf : ∀ h, ∀ m ∈ (f h).images, m ∈ h.images) :
    FewerImages s (s.modHearth gh f) := by
  intro g m hm
  rw [modHearth_hearth] at hm
  split at hm
  · rename_i h
    exact h ▸ hf _ m hm
  · exact hm

/-- The casts have the room that they had, and no image is new. -/
structure RoomLeft (s t : State) : Prop where
  room   : SameRoom s t
  images : FewerImages s t

namespace RoomLeft

theorem refl (s : State) : RoomLeft s s := ⟨.refl s, .refl s⟩

theorem trans {s t u : State} (h : RoomLeft s t) (k : RoomLeft t u) : RoomLeft s u := ⟨h.room.trans k.room, h.images.trans k.images⟩

theorem foldl {α : Type} (f : State → α → State) (h : ∀ s x, RoomLeft s (f s x)) (l : List α) (s : State) :
    RoomLeft s (l.foldl f s) :=
  foldl_preserves (RoomLeft s) f (fun a x ha => ha.trans (h a x)) l s (.refl s)

/-- A change of a hearth that adds no image. -/
theorem modHearth (s : State) (gh : Nat) (f : Hearth → Hearth) (hf : ∀ h, ∀ m ∈ (f h).images, m ∈ h.images) :
    RoomLeft s (s.modHearth gh f) := ⟨.of_cores rfl rfl rfl rfl rfl, modHearth_fewer s gh f hf⟩

end RoomLeft

theorem PacketsOnly.roomLeft {s t : State} (h : PacketsOnly s t) : RoomLeft s t :=
  ⟨h.sameRoom, fun g _ => by rw [h.hearth g]; exact id⟩

theorem WritesOnly.roomLeft {s t : State} (h : WritesOnly s t) : RoomLeft s t :=
  ⟨h.sameRoom, fun g _ hm => (congrArg Hearth.images (h.hearths g) :) ▸ hm⟩

theorem dropImages_roomLeft (s : State) (gh : Nat) (p : ImgOwner → Bool) : RoomLeft s (s.dropImages gh p) :=
  .modHearth s gh _ fun _ _ hm => (List.mem_filter.mp hm).1

theorem bumpSeq_roomLeft (s : State) (k : Nat) : RoomLeft s (s.bumpSeq k) := ⟨.of_cores rfl rfl rfl rfl rfl, .refl s⟩

/-- A record that a hearth writes, with the number that it takes. -/
theorem written_roomLeft (s : State) (k pa n v gh : Nat) (f : Hearth → Hearth) (hf : ∀ h, (f h).images = h.images) :
    RoomLeft s (((s.bumpSeq k).writeMem pa n v false).modHearth gh f) :=
  ((bumpSeq_roomLeft s k).trans (writeMem_only ..).roomLeft).trans (.modHearth _ gh f fun h _ hm => (hf h) ▸ hm)

theorem traceRecord_roomLeft (s : State) (gh src cls ctx addr detail : Nat) :
    RoomLeft s (s.traceRecord gh src cls ctx addr detail) := by
  unfold State.traceRecord
  dsimp only
  split
  · exact .modHearth s gh _ fun _ _ hm => hm
  · exact written_roomLeft s _ _ _ _ gh _ fun _ => rfl

/-- A record that a hearth traces under a condition. -/
theorem traceIf_roomLeft (s : State) (b : Bool) (gh src cls ctx addr detail : Nat) :
    RoomLeft s (if b then s.traceRecord gh src cls ctx addr detail else s) := by
  split
  · exact traceRecord_roomLeft ..
  · exact .refl s

/-- A cast changes its state: its hearth traces it, and tells its entry. -/
theorem setCastState_roomLeft (s : State) (gh c : Nat) (st : CastState) :
    RoomLeft (s.modCast c fun x => { x with st }) (s.setCastState gh c st) := by
  unfold State.setCastState
  extract_lets s1 x p s2
  have htrace : RoomLeft s1 s2 := traceIf_roomLeft ..
  split
  · exact htrace.trans (postWrites_only ..).roomLeft
  · exact htrace

theorem readmit_roomLeft (s : State) (f : Nat) : RoomLeft s (s.readmit f) := by
  unfold State.readmit
  dsimp only
  split
  · rename_i gh _
    split
    · have hset (a : State) (x : Frag) : RoomLeft a (a.setFrag f x) := ⟨.of_cores rfl rfl rfl rfl rfl, .refl _⟩
      split
      · exact (dropImages_roomLeft ..).trans (hset _ _)
      · refine ((dropImages_roomLeft ..).trans (hset _ _)).trans ⟨modCore_sameRoom _ _ _ ?_ ?_ ?_, .refl _⟩
        · exact fun _ => rfl
        · exact fun _ => rfl
        · exact fun _ => rfl
    · exact .refl s
  · split
    · exact .refl s
    · exact .trans (t := s.setFrag f _) ⟨.of_cores rfl rfl rfl rfl rfl, .refl _⟩ (.modHearth _ _ _ fun _ _ hm => hm)
  · exact .refl s

/-! ### A cast resumes -/

/-- Two folds over a list, whose steps keep two states alike. -/
theorem SameRoom.foldl {α : Type} (f g : State → α → State) (h : ∀ a b x, SameRoom a b → SameRoom (f a x) (g b x)) (l : List α)
    (s t : State) (k : SameRoom s t) : SameRoom (l.foldl f s) (l.foldl g t) := by
  induction l generalizing s t with
  | nil => exact k
  | cons x l ih => exact ih _ _ (h s t x k)

/-- A hoist has its slot of a core again. -/
def State.takeSlot (s : State) (gc now hk : Nat) : State :=
  s.modCore gc fun k => { k with
    anchors := Sparse.set none k.anchors (s.hoist hk).slot (some hk)
    readyAt := Sparse.set 0 k.readyAt (s.hoist hk).slot now
    issuedAt := Sparse.set 0 k.issuedAt (s.hoist hk).slot 0 }

/-- A cast has its granules again. -/
def State.takeCore (s : State) (c gc now : Nat) : State :=
  (s.takeGranules c gc).modCast c fun x => { x with quantum := none, held := false, saved := false, startedAt := now, resuming := true }

/-- A cast has its room again. -/
def State.takeRoom (s : State) (c gc now : Nat) : State :=
  ((s.takeCore c gc now).castHoists c).foldl (fun a hk => a.takeSlot gc now hk) (s.takeCore c gc now)

/-- A cast that has its room runs, or goes on with its pennant, and its fragments are admitted. -/
def State.goOn (s : State) (gh c : Nat) : State :=
  (((s.setCastState gh c (if (s.cast c).psent then .raised else .running)).retireFrees (c, false)).retireFrees (c, true)).admitResumed c

/-- The images that a cast reads as it resumes: its own, and those of its anchor slots. -/
def State.wholeImage (s : State) (c : Nat) (o : ImgOwner) : Bool := match o with | .ingot _ => false | _ => s.readsAt c o

theorem resumeCast_eq (s : State) (gh c : Nat) :
    s.resumeCast gh c = ((s.dropImages gh (s.wholeImage c)).takeRoom c (s.cast c).anchor s.now).goOn gh c := rfl

section Congr

variable {s t : State} (h : SameRoom s t)
include h

theorem SameRoom.takeSlot (gc now hk : Nat) : SameRoom (s.takeSlot gc now hk) (t.takeSlot gc now hk) := by
  refine ⟨h.now, h.casts, h.pours, h.hoists, ?_, ?_, ?_⟩ <;> intro g <;>
    simp only [State.takeSlot, modCore_core, h.hoist] <;> split
  · simp only [h.anchors]
  · exact h.anchors g
  · exact h.visitors gc
  · exact h.visitors g
  · exact h.blocks gc
  · exact h.blocks g

theorem SameRoom.takeCore (c gc now : Nat) : SameRoom (s.takeCore c gc now) (t.takeCore c gc now) :=
  (h.takeGranules c gc).modCast c _

theorem SameRoom.takeRoom (c gc now : Nat) : SameRoom (s.takeRoom c gc now) (t.takeRoom c gc now) := by
  have hcore := h.takeCore c gc now
  rw [State.takeRoom, State.takeRoom, hcore.castHoists]
  exact SameRoom.foldl _ _ (fun a b hk k => k.takeSlot gc now hk) _ _ _ hcore

theorem SameRoom.setCastState (gh c : Nat) (st : CastState) : SameRoom (s.setCastState gh c st) (t.setCastState gh c st) :=
  ((setCastState_roomLeft s gh c st).room.symm.trans (h.modCast c _)).trans (setCastState_roomLeft t gh c st).room

theorem SameRoom.modCtx (c : Nat) (k : Bool) (f : MCtx → MCtx) : SameRoom (s.modCtx c k f) (t.modCtx c k f) := h.modCast c _

theorem SameRoom.endBinding (c : Nat) (k : Bool) : SameRoom (s.endBinding c k) (t.endBinding c k) := by
  unfold State.endBinding
  rw [h.cast]
  split
  · exact (h.modCtx ..).modCtx ..
  · exact h

/-- One FREE at the head of a context retires, or none stands there. -/
theorem SameRoom.retireFrees (q : Nat × Bool) : SameRoom (s.retireFrees q) (t.retireFrees q) := by
  have hone {a b : State} (k : SameRoom a b) :
      SameRoom (if ((a.cast q.1).ctx q.2).freeDue then (a.endBinding q.1 q.2).popInst q else a)
        (if ((b.cast q.1).ctx q.2).freeDue then (b.endBinding q.1 q.2).popInst q else b) := by
    rw [k.cast]
    split
    · exact (k.endBinding ..).modCtx ..
    · exact k
  exact hone (hone h)

theorem SameRoom.admitResumed (c : Nat) : SameRoom (s.admitResumed c) (t.admitResumed c) := by
  have hadmit (a : State) (l : List Nat) : SameRoom a (l.foldl State.readmit a) := (RoomLeft.foldl _ readmit_roomLeft l a).room
  unfold State.admitResumed
  dsimp only
  rw [h.cast]
  split
  · exact ((hadmit _ _).symm.trans (h.modCast c _)).trans (hadmit _ _)
  · exact h

theorem SameRoom.goOn (gh c : Nat) : SameRoom (s.goOn gh c) (t.goOn gh c) := by
  rw [State.goOn, State.goOn, h.cast]
  exact (((h.setCastState ..).retireFrees ..).retireFrees ..).admitResumed c

/-- A cast that resumes in one state does so in the other. -/
theorem SameRoom.resumeCast (gh c : Nat) : SameRoom (s.resumeCast gh c) (t.resumeCast gh c) := by
  have hdrop : SameRoom (s.dropImages gh (s.wholeImage c)) (t.dropImages gh (t.wholeImage c)) :=
    ((dropImages_roomLeft ..).room.symm.trans h).trans (dropImages_roomLeft ..).room
  rw [resumeCast_eq, resumeCast_eq, h.cast, h.now]
  exact (hdrop.takeRoom ..).goOn gh c

end Congr

/-- Casts that find their room one after another in one state find it in the other. -/
theorem SameRoom.startCasts (gh : Nat) (cs : List Nat) {s t : State} (h : SameRoom s t)
    (hs : (s.startCasts gh true cs).isSome = true) : (t.startCasts gh true cs).isSome = true := by
  induction cs generalizing s t with
  | nil => rfl
  | cons c cs ih =>
    simp only [State.startCasts, if_true, h.canReturn] at hs ⊢
    split at hs
    · rename_i hc
      rw [if_pos hc]
      exact ih (h.resumeCast gh c) hs
    · exact absurd hs (by simp)

/-! ### The images that have been read (R405) -/

theorem takeRoom_fewer (s : State) (c gc now : Nat) : FewerImages s (s.takeRoom c gc now) :=
  .trans (t := s.takeCore c gc now) (.refl _) (.foldl (fun a hk => a.takeSlot gc now hk) (fun a _ => .refl a) _ _)

theorem retireFrees_fewer (s : State) (q : Nat × Bool) : FewerImages s (s.retireFrees q) := by
  have hbind (a : State) : FewerImages a ((a.endBinding q.1 q.2).popInst q) := by
    unfold State.endBinding
    split
    · exact .refl a
    · exact .refl a
  have hone (a : State) : FewerImages a (if ((a.cast q.1).ctx q.2).freeDue then (a.endBinding q.1 q.2).popInst q else a) := by
    split
    · exact hbind a
    · exact .refl a
  exact (hone s).trans (hone _)

theorem admitResumed_fewer (s : State) (c : Nat) : FewerImages s (s.admitResumed c) := by
  unfold State.admitResumed
  dsimp only
  split
  · exact .trans (t := s.modCast c fun y => { y with resuming := false }) (.refl s) (RoomLeft.foldl _ readmit_roomLeft _ _).images
  · exact .refl s

theorem goOn_fewer (s : State) (gh c : Nat) : FewerImages s (s.goOn gh c) := by
  have hstate (st : CastState) : FewerImages s (s.setCastState gh c st) :=
    .trans (t := s.modCast c fun x => { x with st }) (.refl s) (setCastState_roomLeft ..).images
  exact (((hstate _).trans (retireFrees_fewer _ _)).trans (retireFrees_fewer _ _)).trans (admitResumed_fewer _ c)

theorem resumeCast_fewer (s : State) (gh c : Nat) : FewerImages (s.dropImages gh (s.wholeImage c)) (s.resumeCast gh c) := by
  rw [resumeCast_eq]
  exact FewerImages.trans (takeRoom_fewer _ _ _ _) (goOn_fewer _ _ _)

/-- A cast that has resumed has no image any more. -/
theorem resumeCast_images (s : State) (gh c : Nat) : ∀ m ∈ ((s.resumeCast gh c).hearth gh).images, m.owner ≠ .cast c := by
  intro m hm ho
  have hkept := resumeCast_fewer s gh c gh m hm
  rw [State.dropImages, modHearth_hearth, if_pos rfl] at hkept
  have hnot := (List.mem_filter.mp hkept).2
  rw [ho] at hnot
  simp [State.wholeImage, State.readsAt] at hnot

/-- Casts that have resumed have no images any more. -/
theorem startCasts_images (gh : Nat) (cs : List Nat) {s t : State} (h : s.startCasts gh true cs = some t) :
    FewerImages s t ∧ ∀ c ∈ cs, ∀ m ∈ (t.hearth gh).images, m.owner ≠ .cast c := by
  induction cs generalizing s with
  | nil =>
    cases h
    exact ⟨.refl _, fun _ hc => absurd hc List.not_mem_nil⟩
  | cons c cs ih =>
    simp only [State.startCasts, if_true] at h
    split at h
    · obtain ⟨hfewer, hgone⟩ := ih h
      have hread : FewerImages s (s.resumeCast gh c) :=
        FewerImages.trans (dropImages_roomLeft s gh (s.wholeImage c)).images (resumeCast_fewer s gh c)
      refine ⟨FewerImages.trans hread hfewer, fun k hk m hm => ?_⟩
      rcases List.mem_cons.mp hk with rfl | hk
      · exact resumeCast_images s gh k m (hfewer gh m hm)
      · exact hgone k hk m hm
    · exact absurd h (by simp)

/-! ### The head of a queue -/

/-- The head of a queue leaves it. -/
theorem startHead_eq (s : State) (gh : Nat) (e : QEnt) : s.startHead gh e =
    ((s.modHearth gh fun h => { h with pqueue := h.pqueue.filter fun q => q.order ≠ e.order }).startCasts gh e.resume e.casts).map
      fun t => t.modPour e.pour fun p => { p with admits := p.admits ++ e.casts } := rfl

/-- A head that resumes in one state does so in the other. -/
theorem SameRoom.startHead {s t : State} (h : SameRoom s t) (gh : Nat) (e : QEnt) (hr : e.resume = true)
    (hs : (s.startHead gh e).isSome = true) : (t.startHead gh e).isSome = true := by
  have hqueue : SameRoom (s.modHearth gh fun h => { h with pqueue := h.pqueue.filter fun q => q.order ≠ e.order })
      (t.modHearth gh fun h => { h with pqueue := h.pqueue.filter fun q => q.order ≠ e.order }) :=
    ⟨h.now, h.casts, h.pours, h.hoists, h.anchors, h.visitors, h.blocks⟩
  rw [startHead_eq, Option.isSome_map, hr] at hs ⊢
  exact hqueue.startCasts gh e.casts hs

/-- The casts of a head that has resumed have no images any more. -/
theorem startHead_images {s t : State} {gh : Nat} {e : QEnt} (hr : e.resume = true) (h : s.startHead gh e = some t) :
    ∀ c ∈ e.casts, ∀ m ∈ (t.hearth gh).images, m.owner ≠ .cast c := by
  rw [startHead_eq, hr] at h
  obtain ⟨u, hu, rfl⟩ := Option.map_eq_some_iff.mp h
  exact (startCasts_images gh e.casts hu).2

end Sys2Proof.Machine
end

section
/-! O43: parked fragments and casts leave images, which end their pour when poisoned. -/

namespace Sys2Proof.Machine
open Sys2Proof.Claims

/-! ### The start of a head that has its grant (R308, R361, R405) -/

/-- Bellows counts an admission. -/
def State.charged (s : State) (pkg : Nat) (g : Grant) (a : Ask) : State :=
  s.modBellows pkg fun b => b.granted g (1000 * s.charge pkg a) (s.askPour a) a (s.askCasts a) (s.askWaited a)

theorem charged_room (s : State) (pkg : Nat) (g : Grant) (a : Ask) : SameRoom s (s.charged pkg g a) := .of_cores rfl rfl rfl rfl rfl

/-- The oldest eligible request of a metered pour, whose charge the budget holds, is granted. -/
theorem grantOf_some {s : State} {pkg : Nat} {a : Ask} (hm : (s.pour (s.askPour a)).unmetered = false)
    (hfirst : s.firstAsk (s.asks pkg) = some a) (hb : 1000 * s.charge pkg a ≤ (s.pkg pkg).bellows.budget) :
    ∃ g, s.grantOf pkg a = some g := by
  unfold State.grantOf
  dsimp only
  rw [hm, if_neg Bool.false_ne_true, if_neg (not_not.mpr hfirst), if_pos hb]
  split
  · exact ⟨_, rfl⟩
  · exact ⟨_, rfl⟩

section Start

variable {s u : State} {gh : Nat} {e : QEnt} (hhead : s.head gh = some e) (hstart : s.startHead gh e = some u)
  (hm : (s.pour e.pour).unmetered = false) (hfirst : s.firstAsk (s.asks (gh / 16)) = some (.start gh e))
  (hb : 1000 * s.charge (gh / 16) (.start gh e) ≤ (s.pkg (gh / 16)).bellows.budget)
include hhead hstart hm hfirst hb

/-- A head with room and with its grant is carried out. -/
theorem exec_castStart_granted :
    ∃ g, exec (.castStart gh) s = .next ((s.charged (gh / 16) g (.start gh e)).carryOut (.start gh e)) := by
  obtain ⟨g, hg⟩ := grantOf_some (a := .start gh e) hm hfirst hb
  have hask : s.startAsk gh = some (.start gh e) := by simp only [State.startAsk, hhead, hstart, Option.isSome_some, if_true]
  refine ⟨g, ?_⟩
  show execCastStart gh s = _
  unfold execCastStart
  simp only [hask, hg]
  rfl

variable (hr : e.resume = true)
include hr

/-- O43, images that are sound: they are gone once the casts have resumed. -/
theorem resumes_dropsImages (hsound : s.badCasts gh e.casts = none) :
    ∃ t, exec (.castStart gh) s = .next t ∧ ∀ c ∈ e.casts, ∀ m ∈ (t.hearth gh).images, m.owner ≠ .cast c := by
  obtain ⟨g, hexec⟩ := exec_castStart_granted hhead hstart hm hfirst hb
  have hroom : ((s.charged (gh / 16) g (.start gh e)).startHead gh e).isSome = true :=
    (charged_room ..).startHead gh e hr (by rw [hstart]; rfl)
  obtain ⟨t, ht⟩ := Option.isSome_iff_exists.mp hroom
  have hsound' : (s.charged (gh / 16) g (.start gh e)).badCasts gh e.casts = none := hsound
  refine ⟨t, hexec.trans ?_, startHead_images hr ht⟩
  rw [State.carryOut, hr, if_pos rfl, hsound', ht]
  rfl

/-- O43, a poisoned image: it ends the pour. -/
theorem resumes_poisoned {pa : Nat} (hbad : s.badCasts gh e.casts = some pa) (hacc : (s.pour e.pour).st = .accepted) :
    ∃ t, exec (.castStart gh) s = .next t ∧ (t.pour e.pour).st = .killing ∧
      (t.hearth gh).errCount = (s.hearth gh).errCount + 1 := by
  obtain ⟨g, hexec⟩ := exec_castStart_granted hhead hstart hm hfirst hb
  have hbad' : (s.charged (gh / 16) g (.start gh e)).badCasts gh e.casts = some pa := hbad
  refine ⟨_, hexec.trans ?_, poisonedEntry_killing (s.charged (gh / 16) g (.start gh e)) e.pour gh pa hacc,
    poisonedEntry_errCount (s.charged (gh / 16) g (.start gh e)) e.pour gh pa⟩
  rw [State.carryOut, hr, if_pos rfl, hbad']

end Start

/-! ### The obligation -/

/-- Settles O43: what the ingot and the cast image read, by their pieces, which lie apart; what later images leave; and that a
head which has room has it still when Bellows has counted it. -/
theorem parkingLeavesImages : Obligations.ParkingLeavesImages := by
  unfold Obligations.ParkingLeavesImages
  refine ⟨?_, ?_, ?_, ?_⟩
  · intro s f gc slot dest lsel anchor x gh len n hl hmay hp hpseq hf hpins hspot hloops hv hs hlt
    obtain ⟨t, pa, hexec, hadd, himg, hlo, hhi, hreads⟩ := departs_leavesIngot s f gc slot dest lsel anchor hl hmay hp hpseq hf hpins
      hspot (leftSlot_tables s f gc anchor hpseq hloops hv hs hlt)
    exact ⟨t, pa, hexec, hadd.outside, himg, hlo, hhi, hreads.kind, hreads.lanes, hreads.sender, hreads.regs, hreads.sregs⟩
  · intro s c x p gh hdone hp hspot hqueues hbars hctxs hwf
    obtain ⟨pa, himg, hbanks, hbytes, hspad⟩ := parks_leavesImage s c hdone hp hspot ⟨hqueues, hbars, hctxs⟩ hwf
    exact ⟨pa, (finishPark_added s c hp).outside, himg, hbanks, hbytes, hspad, finishPark_cast s c hp hdone⟩
  · intro s gh f gc pa r harr hpick hbad hacc
    exact ⟨_, exec_parkedArrivalPlacement_bad harr hpick hbad, poisonedEntry_killing s _ gh pa hacc,
      poisonedEntry_errCount s _ gh pa⟩
  · intro s gh e u pkg a hhead hstart hm hr hfirst hb
    exact ⟨resumes_dropsImages hhead hstart hm hfirst hb hr, fun pa => resumes_poisoned hhead hstart hm hfirst hb hr⟩

end Sys2Proof.Machine
end

section
/-! An issue that does not take effect: its entry waits (R61, R62), or a trap is taken for its lanes (R394). -/

namespace Sys2Proof.Machine
open Sys2Proof.Claims

/-! ### The entry that issues -/

/-- With a guard-true lane, the entry that issues is the one of the frontier that the state names. -/
theorem findEntry_of_lanes {s : State} {hd : Hdr} (hg : (Ix.of s hd).g ≠ 0) :
    findEntry (Ix.of s hd).x.entries (Ix.of s hd).e.prio (Ix.of s hd).e.pc = some (Ix.of s hd).e := by
  have hmask := mask_ne_zero hg
  cases hf : findEntry (s.frag s.iss.frag).entries s.iss.prio s.iss.pc with
  | none => simp [Ix.of, hf] at hmask
  | some e =>
    have he : e.prio = s.iss.prio ∧ e.pc = s.iss.pc := by simpa using List.find?_some hf
    simp [Ix.of, hf, he]

/-- When all its lanes leave it, the first entry at a priority and PC is gone. -/
theorem takeLanes_findEntry {prio : BitVec 8} {pc : DWord} {e : Entry} : ∀ {es : List Entry},
    findEntry es prio pc = some e → takeLanes es prio pc e.mask = es.erase e
  | [], h => by simp [findEntry] at h
  | a :: t, h => by
    by_cases ha : a.prio = prio ∧ a.pc = pc
    · have hae : a = e := by simpa [findEntry, ha] using h
      subst hae
      simp [takeLanes, ha]
    · have ht : findEntry t prio pc = some e := by simpa [findEntry, ha] using h
      have hne : a ≠ e := by
        rintro rfl
        exact ha (by simpa using List.find?_some ht)
      rw [takeLanes, if_neg ha, takeLanes_findEntry ht, List.erase_cons_tail (by simpa using hne)]

/-! ### How the issue ends -/

section Stops

variable {s : State} {hd : Hdr} (hg : (Ix.of s hd).g ≠ 0)
include hg

theorem run_wait (w : Wait) : (Ix.of s hd).run (.error (.wait w)) =
    s.setFrag (Ix.of s hd).f ((Ix.of s hd).x.waitAt (Ix.of s hd).e.prio (Ix.of s hd).e.pc w) := if_neg hg

theorem run_trap (c : BitVec 8) (a : DWord) (l : LaneMask) : (Ix.of s hd).run (.error (.trap c a l)) =
    s.raise (Ix.of s hd).f (Ix.of s hd).e c a l := if_neg hg

/-- A fragment that can take a trap takes it (R394). -/
theorem run_trap_enters (hTrap : Trappable (Ix.of s hd)) (c : BitVec 8) (a : DWord) (l : LaneMask) :
    Enters s ((Ix.of s hd).run (.error (.trap c a l))) (Ix.of s hd) c a l := by
  obtain ⟨hNone, hHandler⟩ := hTrap
  have hRaise : s.raise (Ix.of s hd).f (Ix.of s hd).e c a l = s.setFrag (Ix.of s hd).f { (Ix.of s hd).x with
      trap := some { cause := c.setWidth 32, pc := (Ix.of s hd).e.pc, pc0 := (Ix.of s hd).e.pc, prio0 := (Ix.of s hd).e.prio
                     lanes := l, addr := a, prio := (Ix.of s hd).e.prio, em := (Ix.of s hd).e.mask
                     scr0 := 0, scr1 := 0, scr2 := 0, scr3 := 0 }
      frozen := takeLanes (Ix.of s hd).x.entries (Ix.of s hd).e.prio (Ix.of s hd).e.pc (Ix.of s hd).e.mask
      frozenEnd := (Ix.of s hd).x.atEnd, atEnd := []
      entries := [{ prio := 0xFF, pc := (s.trapEnt (Ix.of s hd).x).handler &&& ~~~3, mask := (Ix.of s hd).e.mask, wait := none }] } := by
    have hNone' : (s.frag (Ix.of s hd).f).trap = none := hNone
    unfold State.raise
    simp only [hNone']
    exact if_neg hHandler
  rw [run_trap hg, hRaise]
  refine ⟨by rw [setFrag_frag, if_pos rfl], fun p pc k => ?_⟩
  rw [setFrag_frag, if_pos rfl, takeLanes_findEntry (findEntry_of_lanes hg)]
  simp

end Stops

end Sys2Proof.Machine
end

section
/-! Writes of predicates alone, as many as an instruction makes: what they reach and what they leave (R57, R87). -/

namespace Sys2Proof.Machine
open Sys2Proof.Claims

/-- Nothing has changed but the predicates among the destinations `ds`, in the guard-true lanes of the issuing hoist, and the marks of
their words. -/
structure PredsWritten (i : Ix) (ds : List (Opnd × Nat)) (s t : State) : Prop where
  rest   : { t with hoists := s.hoists } = s
  hoists : ∀ k, k ≠ i.x.hoist → t.hoist k = s.hoist k
  hoist  : { t.hoist i.x.hoist with preds := (s.hoist i.x.hoist).preds, pmarks := (s.hoist i.x.hoist).pmarks } = s.hoist i.x.hoist
  preds  : ∀ q l, ¬ (i.g.getLsbD l = true ∧ ∃ n, (Opnd.p q, n) ∈ ds) →
    ((t.hoist i.x.hoist).pred q).getLsbD l = ((s.hoist i.x.hoist).pred q).getLsbD l
  bits   : ∀ q : BitVec 4, ¬ (∃ n, (Opnd.p q, n) ∈ ds) →
    (t.hoist i.x.hoist).pmarks.getLsbD q.toNat = (s.hoist i.x.hoist).pmarks.getLsbD q.toNat

namespace PredsWritten

variable {i : Ix} {ds : List (Opnd × Nat)}

theorem refl (s : State) : PredsWritten i ds s s := ⟨rfl, fun _ _ => rfl, rfl, fun _ _ _ => rfl, fun _ _ => rfl⟩

theorem trans {s t u : State} (h : PredsWritten i ds s t) (k : PredsWritten i ds t u) : PredsWritten i ds s u where
  rest := by rw [← h.rest, ← k.rest]
  hoists j hj := (k.hoists j hj).trans (h.hoists j hj)
  hoist := by rw [← h.hoist, ← k.hoist]
  preds q l hq := (k.preds q l hq).trans (h.preds q l hq)
  bits q hq := (k.bits q hq).trans (h.bits q hq)

/-- One write of a destination of `ds`, in the guard-true lanes. -/
theorem writePred (s : State) {d : Opnd} {n : Nat} (hd : (d, n) ∈ ds) (b : LaneMask) :
    PredsWritten i ds s (i.writePred s d i.g b) where
  rest := writePred_rest i s d i.g b
  hoists k hk := writePred_others i s d i.g b k hk
  hoist := writePred_hoist i s d i.g b
  preds q l hq := by
    rw [writePred_pred]
    split
    · next hdq =>
      have hl : i.g.getLsbD l = false := Bool.eq_false_iff.2 fun hc => hq ⟨hc, n, hdq.1 ▸ hd⟩
      by_cases h32 : l < 32
      · simp only [BitVec.getLsbD_or, BitVec.getLsbD_and, BitVec.getLsbD_not, hl, h32, decide_true, Bool.and_false, Bool.or_false,
          Bool.not_false, Bool.and_true]
      · rw [BitVec.getLsbD_of_ge _ _ (by omega), BitVec.getLsbD_of_ge _ _ (by omega)]
    · rfl
  bits q hq := writePred_bits i s d i.g b q fun hc => hq ⟨n, hc ▸ hd⟩

theorem foldl {α : Type} (f : State → α → State) (l : List α) (h : ∀ a ∈ l, ∀ s, PredsWritten i ds s (f s a)) (s : State) :
    PredsWritten i ds s (l.foldl f s) := by
  induction l generalizing s with
  | nil => exact refl s
  | cons a l ih =>
    exact (h a List.mem_cons_self s).trans (ih (fun b hb => h b (List.mem_cons_of_mem a hb)) _)

variable {s t : State} (h : PredsWritten i ds s t)
include h

theorem frag (f : Nat) : t.frag f = s.frag f := (congrArg (State.frag · f) h.rest :)
theorem core (c : Nat) : t.core c = s.core c := (congrArg (State.core · c) h.rest :)

theorem countUse (used : Bool) : { i.countUse used t with hoists := s.hoists, cores := s.cores } = s := by
  have hCores : t.cores = s.cores := (congrArg State.cores h.rest :)
  rw [← hCores]
  exact (congrArg (fun u : State => { u with hoists := s.hoists }) (countUse_rest i used t)).trans h.rest

/-- An instruction that ends with such writes leaves everything else as it was. -/
theorem kept (used : Bool) : Kept s (i.done (i.countUse used t)) i ds where
  memory a := (congrArg (State.byte · a) (h.countUse used) :)
  marks w := (congrArg (State.mark · w) (h.countUse used) :)
  frags f hf := by rw [done_frag, if_neg hf, countUse_frag, h.frag]
  hoists k hk := by rw [done_hoist, countUse_hoist, h.hoists k hk]
  elems a l _ _ := by
    rw [done_hoist, countUse_hoist]
    exact ⟨(congrArg (Hoist.elem · a l) h.hoist :), (congrArg (Hoist.elemMark · a l) h.hoist :)⟩
  preds q l hq := by
    rw [done_hoist, countUse_hoist]
    exact h.preds q l hq
  masks q _ := by
    rw [done_hoist, countUse_hoist]
    exact (congrArg (fun x => Sparse.get 0 x.masks q.toNat) h.hoist :)
  bits q := by
    rw [done_hoist, countUse_hoist]
    exact ⟨h.bits q, fun _ => (congrArg (fun x => x.mmarks.getLsbD q.toNat) h.hoist :)⟩
  hoist := by
    rw [done_hoist, countUse_hoist]
    exact hoist_loose_preds _ _ h.hoist
  sregs q _ := by
    rw [done_frag, if_pos rfl, countUse_frag, h.frag]
    unfold Frag.sreg
    rw [complete_sregs, complete_spoison]
    exact ⟨rfl, rfl⟩
  frag := by
    rw [done_frag, if_pos rfl, countUse_frag, h.frag]
    exact frag_loose _ _ _ (complete_rest _ _ _ _ _) rfl
  cores c := by
    rw [← h.core c]
    exact countUse_core i used t c
  rest := (congrArg (fun u : State => { u with frags := s.frags }) (h.countUse used) :)

theorem wentOn (used : Bool) : WentOn s (i.done (i.countUse used t)) i := by
  unfold WentOn
  rw [done_frag, if_pos rfl, countUse_frag, h.frag]

end PredsWritten

/-- The guard-true lanes of a predicate that has been written hold its new bits. -/
theorem getsPred_writePred (i : Ix) (s : State) (d : Opnd) (b : LaneMask) : GetsPred (i.writePred s d i.g b) i d fun l => b.getLsbD l := by
  cases d with
  | p q =>
    intro hq l hl
    rw [writePred_pred, if_pos ⟨rfl, hq⟩]
    simp [hl]
  | _ => trivial

/-- What predicates hold depends on the issuing hoist alone. -/
theorem getsPred_of_hoist {i : Ix} {d : Opnd} {c : Nat → Bool} {t u : State} (h : u.hoist i.x.hoist = t.hoist i.x.hoist)
    (hGets : GetsPred t i d c) : GetsPred u i d c := by
  cases d with
  | p q => simpa only [GetsPred, h] using hGets
  | _ => trivial

theorem getsPred_done {i : Ix} {d : Opnd} {c : Nat → Bool} {t : State} (used : Bool) (h : GetsPred t i d c) :
    GetsPred (i.done (i.countUse used t)) i d c :=
  getsPred_of_hoist (by rw [done_hoist, countUse_hoist]) h

end Sys2Proof.Machine
end

section
/-! O6: special registers, single lanes, and predicates that are packed and unpacked (R71, R72, R149, R150, R154, R157). -/

namespace Sys2Proof.Machine
open Sys2Proof.Claims

/-! ### A number put together of bits -/

theorem sum_bits_lt (p : Nat → Bool) (n : Nat) : (List.range n).foldl (fun a j => if p j then a + 2 ^ j else a) 0 < 2 ^ n := by
  induction n with
  | zero => simp
  | succ n ih =>
    rw [List.range_succ, List.foldl_append, Nat.pow_succ]
    simp only [List.foldl_cons, List.foldl_nil]
    split <;> omega

theorem testBit_sum_bits (p : Nat → Bool) (n k : Nat) :
    ((List.range n).foldl (fun a j => if p j then a + 2 ^ j else a) 0).testBit k = (decide (k < n) && p k) := by
  induction n with
  | zero => simp
  | succ n ih =>
    have hlt := sum_bits_lt p n
    rw [List.range_succ, List.foldl_append]
    simp only [List.foldl_cons, List.foldl_nil]
    generalize (List.range n).foldl (fun a j => if p j then a + 2 ^ j else a) 0 = a at ih hlt
    rcases Nat.lt_trichotomy k n with hk | rfl | hk
    · have hk' : k < n + 1 := by omega
      split
      · rw [Nat.add_comm, Nat.testBit_two_pow_add_gt hk, ih]
        simp [hk, hk']
      · rw [ih]
        simp [hk, hk']
    · split
      · next hp => rw [Nat.add_comm, Nat.testBit_two_pow_add_eq, Nat.testBit_lt_two_pow hlt]; simp [hp]
      · next hp => rw [Nat.testBit_lt_two_pow hlt]; simpa using hp
    · have hpow : 2 ^ (n + 1) ≤ 2 ^ k := Nat.pow_le_pow_right (by omega) hk
      have hsucc : 2 ^ (n + 1) = 2 * 2 ^ n := Nat.pow_succ'
      rw [Nat.testBit_lt_two_pow (by split <;> omega)]
      simp [show ¬ k < n + 1 by omega]

/-- Bit `k` of the packed predicates of a lane is its predicate `k` (R154). -/
theorem getLsbD_packed (h : Hoist) (l k : Nat) : (BitVec.ofNat 64 (h.packed l)).getLsbD k =
    (decide (k < 16) && (h.pred (BitVec.ofNat 4 k)).getLsbD l) := by
  rw [BitVec.getLsbD_ofNat, Hoist.packed, testBit_sum_bits]
  by_cases hk : k < 16
  · simp [show k < 64 by omega]
  · simp [hk]

/-! ### Instructions that write one destination -/

/-- An instruction that comes to its end with the results `r` of the guard-true lanes. -/
theorem finish_yields {n : Instr} {s : State} {hd : Hdr} {d : Opnd} {ty : Ty} {r : Nat → Val} (hg : (Ix.of s hd).g ≠ 0)
    (h : exec n s = .next ((Ix.of s hd).finish d ty ((lanesOf (Ix.of s hd).g).map fun l => (l, r l)))) :
    ∃ t, exec n s = .next t ∧ Gets t (Ix.of s hd) d ty r ∧ Kept s t (Ix.of s hd) [(d, Ty.regs ty)] ∧ WentOn s t (Ix.of s hd) :=
  ⟨_, h, finish_gets _ _ _ _ hg, finish_kept (Ix.of s hd) _ _ _, finish_wentOn _ _ _ _⟩

theorem foldl_or_zero {α : Type} (l : List α) (f : α → LaneMask) (h : ∀ a ∈ l, f a = 0) : l.foldl (fun m a => m ||| f a) 0 = 0 := by
  induction l with
  | nil => rfl
  | cons a l ih =>
    rw [List.foldl_cons, h a List.mem_cons_self]
    exact ih fun b hb => h b (List.mem_cons_of_mem a hb)

/-- Sources that are each read in lanes of their own pass their checks when those that are read at all can be. -/
theorem checkReads_ok (i : Ix) (all : List (Use × LaneMask)) (h : ∀ u ∈ all, u.2 ≠ 0 → Readable i [u.1] u.2) :
    i.checkReads all = .ok () := by
  have hRead (u) (hu : u ∈ all.filter fun u => u.2 ≠ 0) : Readable i [u.1] u.2 := by
    rw [List.mem_filter, decide_eq_true_eq] at hu
    exact h u hu.1 hu.2
  unfold Ix.checkReads
  generalize all.filter (fun u => u.2 ≠ 0) = us at hRead
  have hEmpty : i.checkEmpty (us.map Prod.fst) = .ok () := by
    refine checkEmpty_ok i _ fun v hv => ?_
    obtain ⟨u, hu, rfl⟩ := List.mem_map.1 hv
    exact (hRead u hu).full u.1 List.mem_cons_self
  have hKnown : (i.s.debug i.x && us.any fun u => i.anyReg i.x.vabsent i.x.sabsent u.1.o u.1.n) = false := by
    cases hDebug : i.s.debug i.x
    · rfl
    · rw [Bool.true_and, List.any_eq_false]
      intro u hu
      rw [(hRead u hu).known hDebug u.1 List.mem_cons_self]
      exact Bool.false_ne_true
  have hClean : ((i.s.trapEnt i.x).tpoison &&
      decide (us.foldl (fun a u => a ||| i.poisonLanes u.1.o u.1.n u.2) 0 ≠ 0)) = false := by
    cases hPoison : (i.s.trapEnt i.x).tpoison
    · rfl
    · rw [foldl_or_zero us _ fun u hu => (hRead u hu).clean hPoison u.1 List.mem_cons_self]
      rfl
  simp only [hEmpty, hKnown, hClean, guardStop_false, bind, Except.bind]

/-! ### Special registers (R71, R72, R149) -/

theorem exec_movs {h : Hdr} {o : Ops} {n : BitVec 8} {s : State}
    (hMode : 0x20 ≤ n.toNat ∧ n.toNat ≤ 0x23 → ((Ix.of s h).x.trap).isSome = true) (hg : (Ix.of s h).g ≠ 0)
    (hDest : Writable (Ix.of s h) o.d (Ty.regs (if wideSpecial n then .b64 else .n32))) :
    exec (.movs h o n) s = .next ((Ix.of s h).finish o.d (if wideSpecial n then .b64 else .n32)
      ((lanesOf (Ix.of s h).g).map fun l => (l, Val.ofNat ((Ix.of s h).special n.toNat l)))) := by
  have hLegal : ¬ (handlerReg n.toNat && !(Ix.of s h).x.handler) = true := by
    simp only [handlerReg, Frag.handler, Bool.and_eq_true, decide_eq_true_eq, Bool.not_eq_true']
    rintro ⟨hn, hNone⟩
    rw [hMode hn] at hNone
    cases hNone
  show execMovs h o n s = _
  unfold execMovs
  simp only [if_neg hLegal, checkDests_ok _ _ _ hDest.full, maskHome_ok _ _ _ hDest, bind, Except.bind, pure, Except.pure,
    run_ok _ _ hg]

theorem exec_movs_illegal {h : Hdr} {o : Ops} {n : BitVec 8} {s : State} (hlo : 0x20 ≤ n.toNat) (hhi : n.toNat ≤ 0x23)
    (hTrap : (Ix.of s h).x.trap = none) :
    exec (.movs h o n) s = .next (s.raise (Ix.of s h).f (Ix.of s h).e Cause.illegal 0 (Ix.of s h).e.mask) := by
  have hIllegal : (handlerReg n.toNat && !(Ix.of s h).x.handler) = true := by
    simp [handlerReg, handler_of_trap hTrap, hlo, hhi]
  show execMovs h o n s = _
  unfold execMovs
  simp only [if_pos hIllegal]
  rfl

/-- The work identifier is built of the lane, the hoist and the coordinates, each above the widths of those before it (R30, R71). -/
theorem special_workId (i : Ix) (l : Nat) :
    let w (k : Nat) : Nat := (i.s.pour (i.s.cast i.h.cast).pour).word (0x20 + k) 1
    i.special 0x06 l = (l + i.h.index * 2 ^ w 0 + i.special 0x02 l * 2 ^ (w 0 + w 1) + i.special 0x03 l * 2 ^ (w 0 + w 1 + w 2) +
      i.special 0x04 l * 2 ^ (w 0 + w 1 + w 2 + w 3) + i.special 0x05 l * 2 ^ (w 0 + w 1 + w 2 + w 3 + w 4)) % 2 ^ 64 := by
  simp [Ix.special, workId, Pour.fieldBit, List.range_succ]

theorem special_size (i : Ix) (l : Nat) : i.special 0x0B l = (if (i.s.pkg (i.x.gc / 128)).grade = .p576 then 96 else 128) ∧
    i.special 0x0C l = (if (i.s.pkg (i.x.gc / 128)).grade = .p576 then 12 else 16) := by
  by_cases hGrade : (i.s.pkg (i.x.gc / 128)).grade = .p576 <;> simp [Ix.special, Pkg.short, corePkg, hGrade]

theorem special_trap (i : Ix) (l : Nat) (t : TrapRegs) (h : i.x.trap = some t) : i.special 0x20 l = t.cause.toNat ∧
    i.special 0x21 l = t.pc.toNat ∧ i.special 0x22 l = t.lanes.toNat ∧ i.special 0x23 l = t.addr.toNat := by
  simp [Ix.special, h]

/-! ### Single lanes (R150) -/

theorem laneBit_getLsbD {j : Nat} (hj : j < 32) (k : Nat) : (laneBit j).getLsbD k = decide (k = j) := getLsbD_bit 32 j k hj

theorem lanesOf_laneBit {j : Nat} (hj : j < 32) : lanesOf (laneBit j) = [j] := by
  unfold lanesOf
  simp only [laneBit_getLsbD hj]
  rw [List.filter_eq, List.count_range, if_pos hj]
  rfl

/-- What a lane by number gives: its element, or zero when it is not present (R139, R150). -/
theorem readLane_also (i : Ix) (o : Opnd) (w : Wd) (j : Nat) (p : Bool) : (i.readLane o w j).also p =
    if i.x.lanes.getLsbD j then { bits := (i.read o w j).bits, poison := (i.read o w j).poison || p } else { bits := 0, poison := p } := by
  unfold Ix.readLane Ix.present
  split <;> simp [Val.also, Val.zero]

theorem exec_rdlane {h : Hdr} {o : Ops} {w : Bool} {s : State} (hg : (Ix.of s h).g ≠ 0)
    (hA : laneBit (((Ix.of s h).read o.b .w32 0).bits.toNat % 32) &&& (Ix.of s h).x.lanes ≠ 0 →
      Readable (Ix.of s h) [{ o := o.a, n := (Wd.bw w).regs, bit := h.ea }]
        (laneBit (((Ix.of s h).read o.b .w32 0).bits.toNat % 32) &&& (Ix.of s h).x.lanes))
    (hB : Readable (Ix.of s h) [{ o := o.b, n := 1, bit := h.eb }] (Ix.of s h).g)
    (hDest : Writable (Ix.of s h) o.d (Ty.regs (bwTy w))) :
    exec (.rdlane h o w) s = .next ((Ix.of s h).finish o.d (bwTy w) ((lanesOf (Ix.of s h).g).map fun l =>
      (l, ((Ix.of s h).readLane o.a (.bw w) (((Ix.of s h).read o.b .w32 0).bits.toNat % 32)).also
        ((Ix.of s h).read o.b .w32 0).poison))) := by
  have hReads : (Ix.of s h).checkReads [({ o := o.a, n := (Wd.bw w).regs, bit := h.ea },
      laneBit (((Ix.of s h).read o.b .w32 0).bits.toNat % 32) &&& (Ix.of s h).x.lanes),
      ({ o := o.b, n := 1, bit := h.eb }, (Ix.of s h).g)] = .ok () :=
    checkReads_ok _ _ <| List.forall_mem_cons.2 ⟨hA, List.forall_mem_cons.2 ⟨fun _ => hB, by simp⟩⟩
  show execRdlane h o w s = _
  unfold execRdlane
  simp only [Ix.uniform, hReads, checkDests_ok _ _ _ hDest.full, maskHome_ok _ _ _ hDest, bind, Except.bind, pure, Except.pure,
    run_ok _ _ hg]

/-- The issue as if lane `j` alone were guard-true, when it is present, and none otherwise. -/
def Ix.onlyLane (i : Ix) (j : Nat) : Ix := { i with g := if i.x.lanes.getLsbD j then laneBit j else 0 }

theorem lanesOf_onlyLane (i : Ix) {j : Nat} (hj : j < 32) (v : Val) :
    ((lanesOf (i.onlyLane j).g).map fun l => (l, v)) = if i.present j then [(j, v)] else [] := by
  unfold Ix.onlyLane Ix.present
  split
  · rw [lanesOf_laneBit hj]
    rfl
  · rw [lanesOf_zero]
    rfl

/-- WRLANE is a finished instruction of the lane that it writes. -/
theorem exec_wrlane {h : Hdr} {o : Ops} {w : Bool} {s : State}
    (hAble : Able (Ix.of s h) (uses3 h o (.bw w) .w32 .w32) o.d (Ty.regs (bwTy w))) :
    let one := (Ix.of s h).onlyLane (((Ix.of s h).read o.b .w32 0).bits.toNat % 32)
    exec (.wrlane h o w) s = .next (one.finish o.d (bwTy w) ((lanesOf one.g).map fun l =>
      (l, ((Ix.of s h).read o.a (.bw w) 0).also ((Ix.of s h).read o.b .w32 0).poison))) := by
  have hReads : (Ix.of s h).checkSources ((Ix.of s h).uses h o (.bw w) .w32 .w32) (Ix.of s h).g = .ok () :=
    checkSources_ok _ _ _ hAble.reads
  intro one
  show execWrlane h o w s = _
  unfold execWrlane
  simp only [Ix.uniform, hReads, checkDests_ok _ _ _ hAble.dest.full, bind, Except.bind, pure, Except.pure,
    run_ok _ _ hAble.lanes]
  rw [lanesOf_onlyLane _ (Nat.mod_lt _ (by decide))]
  rfl

/-! ### Predicates packed and unpacked (R154, R157) -/

theorem exec_pmask {h : Hdr} {o : Ops} {s : State} (hg : (Ix.of s h).g ≠ 0)
    (hReads : Readable (Ix.of s h) (uses3 h o .w32 .w32 .w32) (Ix.of s h).g) (hDest : Writable (Ix.of s h) o.d 1) :
    exec (.pmask h o) s = .next ((Ix.of s h).finish o.d .b32 ((lanesOf (Ix.of s h).g).map fun l =>
      (l, { bits := ((Ix.of s h).g &&& (Ix.of s h).predOf o.a).setWidth 64, poison := (Ix.of s h).bitMark o.a }))) := by
  have hSources : (Ix.of s h).checkSources ((Ix.of s h).uses h o .w32 .w32 .w32) (Ix.of s h).g = .ok () :=
    checkSources_ok _ _ _ hReads
  show execPmask h o s = _
  unfold execPmask
  simp only [hSources, checkDests_ok _ _ _ hDest.full, maskHome_ok _ _ _ hDest, bind, Except.bind, pure, Except.pure,
    run_ok _ _ hg]

theorem exec_pmov_pack {h : Hdr} {o : Ops} {s : State} (hg : (Ix.of s h).g ≠ 0)
    (hReads : Readable (Ix.of s h) allPreds (Ix.of s h).g) (hDest : Writable (Ix.of s h) o.d 1) :
    exec (.pmov h o .pack) s = .next ((Ix.of s h).finish o.d .b32 ((lanesOf (Ix.of s h).g).map fun l =>
      (l, { bits := BitVec.ofNat 64 ((Ix.of s h).h.packed l), poison := allPreds.any fun u => (Ix.of s h).bitMark u.o }))) := by
  show execPmov h o .pack s = _
  unfold execPmov
  simp only [checkSources_ok _ _ _ hReads, checkDests_ok _ _ _ hDest.full, maskHome_ok _ _ _ hDest, bind, Except.bind, pure,
    Except.pure, run_ok _ _ hg]

/-- The bit that PMOV.BIT takes of its source in a lane (R154). -/
def Ix.pickedBit (i : Ix) (o : Opnd) (l : Nat) : Bool :=
  (i.read o .w32 l).bits.getLsbD (match o with | .s _ => l | .m _ => l | _ => 0)

theorem exec_pmov_bit {h : Hdr} {o : Ops} {s : State} (hg : (Ix.of s h).g ≠ 0)
    (hReads : Readable (Ix.of s h) (uses3 h o .w32 .w32 .w32) (Ix.of s h).g) :
    ∃ used, exec (.pmov h o .bit) s = .next ((Ix.of s h).done ((Ix.of s h).countUse used
      ((Ix.of s h).writePred s o.d (Ix.of s h).g (maskOf ((Ix.of s h).pickedBit o.a))))) := by
  have hSources : (Ix.of s h).checkSources ((Ix.of s h).uses h o .w32 .w32 .w32) (Ix.of s h).g = .ok () :=
    checkSources_ok _ _ _ hReads
  refine ⟨(lanesOf (Ix.of s h).g).any fun l => ((Ix.of s h).read o.a .w32 l).poison, ?_⟩
  show execPmov h o .bit s = _
  unfold execPmov
  simp only [hSources, bind, Except.bind, pure, Except.pure, run_ok _ _ hg]
  cases o.a <;> rfl

/-- PMOV.UNPACK writes the sixteen predicates one after another (R154). -/
def Ix.unpack (i : Ix) (o : Opnd) (n : Nat) : State :=
  (List.range n).foldl (fun a k =>
    i.writePred a (.p (BitVec.ofNat 4 k)) i.g (maskOf fun l => (i.read o .w32 l).bits.getLsbD k)) i.s

theorem exec_pmov_unpack {h : Hdr} {o : Ops} {s : State} (hg : (Ix.of s h).g ≠ 0)
    (hReads : Readable (Ix.of s h) (uses3 h o .w32 .w32 .w32) (Ix.of s h).g) :
    ∃ used, exec (.pmov h o .unpack) s = .next ((Ix.of s h).done ((Ix.of s h).countUse used ((Ix.of s h).unpack o.a 16))) := by
  have hSources : (Ix.of s h).checkSources ((Ix.of s h).uses h o .w32 .w32 .w32) (Ix.of s h).g = .ok () :=
    checkSources_ok _ _ _ hReads
  refine ⟨(lanesOf (Ix.of s h).g).any fun l => ((Ix.of s h).read o.a .w32 l).poison, ?_⟩
  show execPmov h o .unpack s = _
  unfold execPmov
  simp only [hSources, bind, Except.bind, pure, Except.pure, run_ok _ _ hg]
  rfl

theorem unpack_written (i : Ix) (o : Opnd) :
    PredsWritten i ((List.range 16).map fun k => (.p (BitVec.ofNat 4 k), 1)) i.s (i.unpack o 16) :=
  PredsWritten.foldl (fun a k => i.writePred a (.p (BitVec.ofNat 4 k)) i.g (maskOf fun l => (i.read o .w32 l).bits.getLsbD k)) _
    (fun _ hk s => PredsWritten.writePred s (n := 1) (List.mem_map_of_mem (f := fun k => (Opnd.p (BitVec.ofNat 4 k), 1)) hk) _) _

/-- Of the first `n` predicates each holds its own bit of the source, and p0 none. -/
theorem unpack_pred (i : Ix) (o : Opnd) {q : BitVec 4} (hq : q ≠ 0) {l : Nat} (hl : i.g.getLsbD l = true) (n : Nat) (hn : n ≤ 16)
    (hqn : q.toNat < n) : (((i.unpack o n).hoist i.x.hoist).pred q).getLsbD l = (i.read o .w32 l).bits.getLsbD q.toNat := by
  have hl32 : l < 32 := BitVec.lt_of_getLsbD hl
  induction n with
  | zero => omega
  | succ n ih =>
    unfold Ix.unpack
    rw [List.range_succ, List.foldl_append, List.foldl_cons, List.foldl_nil, ← Ix.unpack, writePred_pred]
    by_cases hqe : q.toNat = n
    · have hop : Opnd.p (BitVec.ofNat 4 n) = .p q := by rw [← hqe, BitVec.ofNat_toNat, BitVec.setWidth_eq]
      rw [if_pos ⟨hop, hq⟩]
      simp [hl, maskOf_getLsbD _ l hl32, hqe]
    · have hop : Opnd.p (BitVec.ofNat 4 n) ≠ .p q := by
        intro hc
        rw [Opnd.p.injEq] at hc
        rw [← hc, BitVec.toNat_ofNat] at hqe
        omega
      rw [if_neg fun hc => hop hc.1]
      exact ih (by omega) (by omega)

/-! ### The obligation -/

/-- Settles O6: each instruction comes to its end with results that are written out above, WRLANE as one of the lane that it
writes, and the predicates of PMOV are the bits of its number. -/
theorem specialRegistersAndLanes : Obligations.SpecialRegistersAndLanes := by
  unfold Obligations.SpecialRegistersAndLanes
  refine ⟨⟨?movs, ?illegal, ?values⟩, ?rdlane, ?wrlane, ?pmask, ?bit, ?pack, ?unpack⟩
  case movs =>
    intro h o n s hMode hg hDest
    exact finish_yields hg (exec_movs hMode hg hDest)
  case illegal =>
    intro h o n s hlo hhi hTrap
    exact exec_movs_illegal hlo hhi hTrap
  case values =>
    intro h s l i c p
    have hSize := special_size i l
    exact ⟨rfl, rfl, rfl, rfl, rfl, rfl, special_workId i l, hSize.1, hSize.2, rfl, rfl, rfl, rfl, rfl, rfl, rfl, rfl, rfl, rfl, rfl,
      special_trap i l⟩
  case rdlane =>
    intro h o w s i j hg hA hB hDest
    obtain ⟨t, ht, hGets, hKept, hWent⟩ := finish_yields hg (exec_rdlane hg hA hB hDest)
    exact ⟨t, ht, gets_congr _ _ _ _ _ _ (fun _ => readLane_also i o.a (.bw w) j _) hGets, hKept, hWent⟩
  case wrlane =>
    intro h o w s hAble i j one
    have hj : j < 32 := Nat.mod_lt _ (by decide)
    refine ⟨_, exec_wrlane hAble, fun hPresent => finish_gets one _ _ _ ?_, finish_kept one _ _ _, finish_wentOn one _ _ _⟩
    show (if i.x.lanes.getLsbD j then laneBit j else 0) ≠ 0
    rw [if_pos hPresent]
    intro hz
    have := lanesOf_laneBit hj
    rw [hz, lanesOf_zero] at this
    cases this
  case pmask =>
    intro h o s hg hReads hDest
    exact finish_yields hg (exec_pmask hg hReads hDest)
  case bit =>
    intro h o s hg hReads
    obtain ⟨used, hexec⟩ := exec_pmov_bit hg hReads
    have hWritten := PredsWritten.writePred (i := Ix.of s h) s (List.mem_singleton.2 rfl : (o.d, 1) ∈ [(o.d, 1)])
      (maskOf ((Ix.of s h).pickedBit o.a))
    refine ⟨_, hexec, ?_, hWritten.kept used, hWritten.wentOn used⟩
    exact gets_pred_congr _ _ _ _ _ (fun l hl => maskOf_getLsbD _ l (BitVec.lt_of_getLsbD hl))
      (getsPred_done used (getsPred_writePred _ _ _ _))
  case pack =>
    intro h o
    refine ⟨fun i l => BitVec.ofNat 64 (i.h.packed l), fun s hg hReads hDest => ?_, fun i l k => getLsbD_packed i.h l k⟩
    exact finish_yields hg (exec_pmov_pack hg hReads hDest)
  case unpack =>
    intro h o s hg hReads
    obtain ⟨used, hexec⟩ := exec_pmov_unpack hg hReads
    have hWritten := unpack_written (Ix.of s h) o.a
    refine ⟨_, hexec, fun q => getsPred_done used ?_, hWritten.kept used, hWritten.wentOn used⟩
    exact fun hq l hl => unpack_pred _ _ hq hl 16 (Nat.le_refl _) q.isLt

end Sys2Proof.Machine
end

section
/-! O28: the checks of register sources and of addresses, which trap or wait in their order (R61, R62, R112, R214, R384, R386, R392). -/

namespace Sys2Proof.Machine
open Sys2Proof.Claims

/-! ### Register sources and destinations -/

theorem checkSources_empty (i : Ix) {u : Use} (us : List Use) (rd : LaneMask) (h : i.isEmpty u.o u.n = true) :
    i.checkSources (u :: us) rd = .error (if u.bit then .trap Cause.empty 0 i.g else .wait .full) := by
  simp only [Ix.checkSources, Ix.checkEmpty, if_pos h, bind, Except.bind]

section Full

variable {i : Ix} {us : List Use} (hFull : ∀ u ∈ us, i.isEmpty u.o u.n = false) (rd : LaneMask)
include hFull

theorem checkSources_absent (hDebug : i.s.debug i.x = true)
    (hAbsent : ∃ u ∈ us, i.anyReg i.x.vabsent i.x.sabsent u.o u.n = true) :
    i.checkSources us rd = .error (.trap Cause.absent 0 i.g) := by
  simp only [Ix.checkSources, checkEmpty_ok i us hFull, hDebug, List.any_eq_true.2 hAbsent, Bool.and_self, guardStop, if_true, bind,
    Except.bind]

theorem checkSources_poison (hDebug : i.s.debug i.x = false) (hPoison : (i.s.trapEnt i.x).tpoison = true) {m : LaneMask}
    (hm : us.foldl (fun a u => a ||| i.poisonLanes u.o u.n rd) 0 = m) (hne : m ≠ 0) :
    i.checkSources us rd = .error (.trap Cause.poison 0 m) := by
  simp only [Ix.checkSources, checkEmpty_ok i us hFull, hDebug, hPoison, hm, hne, Bool.false_and, Bool.true_and, guardStop,
    Bool.false_eq_true, if_false, ne_eq, not_false_eq_true, decide_true, if_true, bind, Except.bind]

/-- Outside debug mode, in a context that does not trap on poison, full sources can be read. -/
theorem readable_of_full (hDebug : i.s.debug i.x = false) (hPoison : (i.s.trapEnt i.x).tpoison = false) : Readable i us rd :=
  ⟨hFull, fun h => absurd (hDebug ▸ h) Bool.false_ne_true, fun h => absurd (hPoison ▸ h) Bool.false_ne_true⟩

end Full

theorem checkDests_empty (i : Ix) (d : Opnd) (n : Nat) (h : i.isEmpty d n = true) : i.checkDests [(d, n)] = .error (.wait .full) := by
  simp [Ix.checkDests, h, guardStop]

/-- An operand whose first register is empty is empty whatever its type. -/
theorem isEmpty_regs (i : Ix) (d : Opnd) (t : Ty) (h : i.isEmpty d 1 = true) : i.isEmpty d (Ty.regs t) = true := by
  cases d with
  | v r =>
    have hpos : 0 < Ty.regs t := by unfold Ty.regs; split <;> omega
    obtain ⟨k, hk, hbit⟩ := List.any_eq_true.1 h
    rw [List.mem_range] at hk
    exact List.any_eq_true.2 ⟨k, List.mem_range.2 (by omega), hbit⟩
  | _ => exact h

/-- The lanes in which a 32-bit source is poisoned are those that read a poisoned value. -/
theorem poisonLanes_getLsbD (i : Ix) (o : Opnd) (m : LaneMask) {l : Nat} (hl : l < 32) :
    (i.poisonLanes o 1 m).getLsbD l = (m.getLsbD l && (i.read o .w32 l).poison) := by
  cases o with
  | v r => simp [Ix.poisonLanes, Ix.read, Ix.vval, Wd.w32, maskOf_getLsbD _ l hl]
  | s r => cases h : i.x.spoison.getLsbD r.toNat <;> simp [Ix.poisonLanes, Ix.read, h]
  | p r => cases h : i.bitMark (.p r) <;> simp [Ix.poisonLanes, Ix.read, h]
  | m r => cases h : i.bitMark (.m r) <;> simp [Ix.poisonLanes, Ix.read, h]
  | _ => simp [Ix.poisonLanes, Ix.read, Ix.bitMark, Val.zero]

/-! ### A lane-by-lane instruction that does not take effect -/

section Alu

variable {i : Ix} {hd : Hdr} {o : Ops} {wa wb wc : Wd} {t : Ty} {f : DWord → DWord → DWord → DWord}

theorem alu_stopped {st : Stop} (h : i.checkSources (uses3 hd o wa wb wc) i.g = .error st) :
    i.alu hd o wa wb wc t f = i.run (.error st) := by
  have hUses : i.checkSources (i.uses hd o wa wb wc) i.g = .error st := h
  simp only [Ix.alu, hUses, bind, Except.bind]

theorem alu_destEmpty (hReads : Readable i (uses3 hd o wa wb wc) i.g) (hDest : i.isEmpty o.d (Ty.regs t) = true) :
    i.alu hd o wa wb wc t f = i.run (.error (.wait .full)) := by
  have hSources : i.checkSources (i.uses hd o wa wb wc) i.g = .ok () := checkSources_ok i _ _ hReads
  simp only [Ix.alu, hSources, checkDests_empty i _ _ hDest, bind, Except.bind]

end Alu

/-! ### Addresses (R214, R384) -/

/-- A trap for the lanes `m` that satisfy a condition. -/
theorem trapLanes_stop (i : Ix) (cause : BitVec 8) (bad : Nat → Bool) (addr : Nat → Nat) {m : LaneMask} (hne : m ≠ 0)
    (h : ∀ l, l < 32 → (m.getLsbD l = true ↔ i.g.getLsbD l = true ∧ bad l = true)) :
    i.trapLanes cause bad addr = .error (.trap cause (BitVec.ofNat 64 (addr (lowestLane m))) m) := by
  have hm : i.lanesIf bad = m := by
    apply BitVec.eq_of_getLsbD_eq
    intro l hl
    rw [lanesIf_getLsbD, Bool.eq_iff_iff, Bool.and_eq_true, h l hl]
  simp only [Ix.trapLanes, hm, guardStop, ne_eq, hne, not_false_eq_true, decide_true, if_true]

/-- The lowest guard-true lane without a translation waits for its walk. -/
theorem checkWalks_miss (i : Ix) (va : Nat → Nat) {l : Nat} (hl : i.g.getLsbD l = true) (hMiss : i.translate (va l) = .miss)
    (hLow : ∀ m, m < l → i.g.getLsbD m = true → i.translate (va m) ≠ .miss) : i.checkWalks va = .error (i.walkWait (va l)) := by
  have hFirst : (lanesOf i.g).find? (fun l => i.translate (va l) = .miss) = some l := by
    unfold lanesOf
    rw [List.find?_filter, List.find?_range_eq_some]
    refine ⟨by simp [hl, hMiss], List.mem_range.2 (BitVec.lt_of_getLsbD hl), fun m hm => ?_⟩
    cases hg : i.g.getLsbD m
    · rfl
    · simpa using hLow m hm hg
  unfold Ix.checkWalks
  rw [hFirst]

theorem checkWalks_mapped (i : Ix) (va : Nat → Nat) (h : ∀ l, i.g.getLsbD l = true → i.translate (va l) ≠ .miss) :
    i.checkWalks va = .ok () := by
  have hNone : (lanesOf i.g).find? (fun l => i.translate (va l) = .miss) = none := by
    rw [List.find?_eq_none]
    intro l hl
    simpa using h l ((mem_lanesOf _ _).1 hl)
  unfold Ix.checkWalks
  rw [hNone]

section CheckMem

variable {i : Ix} {k : Acc} {size : Nat} {va : Nat → Nat} {m : LaneMask}

theorem checkMem_align (hne : m ≠ 0) (h : ∀ l, l < 32 → (m.getLsbD l = true ↔ i.g.getLsbD l = true ∧ va l % size ≠ 0)) :
    i.checkMem k size va = .error (.trap Cause.align (BitVec.ofNat 64 (va (lowestLane m))) m) := by
  have hStop : i.checkAlign size va = _ := trapLanes_stop i Cause.align _ va hne (by simpa using h)
  simp only [Ix.checkMem, hStop, bind, Except.bind]

variable (hAlign : ∀ l, i.g.getLsbD l = true → ¬ va l % size ≠ 0)
include hAlign

theorem checkAlign_of_aligned : i.checkAlign size va = .ok () :=
  trapLanes_ok i _ _ _ fun l hl => by simpa using hAlign l hl

theorem checkMem_walk {l : Nat} (hl : i.g.getLsbD l = true) (hMiss : i.translate (va l) = .miss)
    (hLow : ∀ m, m < l → i.g.getLsbD m = true → i.translate (va m) ≠ .miss) :
    i.checkMem k size va = .error (i.walkWait (va l)) := by
  simp only [Ix.checkMem, checkAlign_of_aligned hAlign, checkWalks_miss i va hl hMiss hLow, bind, Except.bind]

variable (hWalk : ∀ l, i.g.getLsbD l = true → ¬ i.translate (va l) = .miss)
include hWalk

theorem checkMem_access (hne : m ≠ 0) (h : ∀ l, l < 32 → (m.getLsbD l = true ↔ i.g.getLsbD l = true ∧ i.accessBad k (va l) = true)) :
    i.checkMem k size va = .error (.trap Cause.access (BitVec.ofNat 64 (va (lowestLane m))) m) := by
  have hStop := trapLanes_stop i Cause.access (fun l => i.accessBad k (va l) || false) va hne (by simpa using h)
  simp only [Ix.checkMem, checkAlign_of_aligned hAlign, checkWalks_mapped i va hWalk, hStop, bind, Except.bind]

theorem checkMem_partition (hAccess : ∀ l, i.g.getLsbD l = true → ¬ i.accessBad k (va l) = true) (hne : m ≠ 0)
    (h : ∀ l, l < 32 → (m.getLsbD l = true ↔ i.g.getLsbD l = true ∧ i.outside (i.pa (va l)) = true)) :
    i.checkMem k size va = .error (.trap Cause.partition (BitVec.ofNat 64 (va (lowestLane m))) m) := by
  have hGranted : i.trapLanes Cause.access (fun l => i.accessBad k (va l) || false) va = .ok () :=
    trapLanes_ok i _ _ _ fun l hl => by simpa using hAccess l hl
  simp only [Ix.checkMem, checkAlign_of_aligned hAlign, checkWalks_mapped i va hWalk, hGranted,
    trapLanes_stop i Cause.partition _ va hne h, bind, Except.bind]

end CheckMem

/-- LD ends as its checks of addresses end it when its registers are ready. -/
theorem exec_ld_stopped {h : Hdr} {o : Ops} {ty : Ty} {x : MemX} {s : State} {st : Stop}
    (hReads : Readable (Ix.of s h) (memUses h o 0) (Ix.of s h).g) (hDest : Writable (Ix.of s h) o.d (Ty.regs ty))
    (hMem : (Ix.of s h).checkMem (.read true) (ty.bits / 8) ((Ix.of s h).va o x (ty.bits / 8)) = .error st) :
    exec (.ld h o ty x) s = .next ((Ix.of s h).run (.error st)) := by
  show execLd h o ty x s = _
  unfold execLd Ix.visit
  simp only [checkSources_ok _ _ _ hReads, checkDests_ok _ _ _ hDest.full, hMem, bind, Except.bind]

/-! ### The obligation -/

/-- Settles O28: IADD stops at the first check of its registers that fails, and LD at the first check of its addresses; a stop is a
wait of the entry or a trap that it takes. -/
theorem checksTrapOrWait : Obligations.ChecksTrapOrWait := by
  unfold Obligations.ChecksTrapOrWait
  refine ⟨?registers, ?addresses⟩
  case registers =>
    intro h o t sat s i us run hg
    have hStopped (st : Stop) (hChecks : i.checkSources us i.g = .error st) : run = .next (i.run (.error st)) :=
      congrArg Host.Outcome.next (alu_stopped hChecks)
    refine ⟨?traps, ?waits, ?dest, ?absent, ?poison⟩
    case traps =>
      intro u hu hEmpty hBit hTrap
      obtain rfl : _ = u := Option.some.inj hu
      refine ⟨_, hStopped _ (checkSources_empty i _ _ hEmpty), ?_⟩
      rw [hBit]
      exact run_trap_enters hg hTrap _ _ _
    case waits =>
      intro u hu hEmpty hBit
      obtain rfl : _ = u := Option.some.inj hu
      rw [hStopped _ (checkSources_empty i _ _ hEmpty), hBit]
      exact congrArg Host.Outcome.next (run_wait hg _)
    case dest =>
      intro hFull hDest hDebug hPoison _
      have hAlu := alu_destEmpty (f := fun a b _ => fit t sat (intVal t a + intVal t b)) (readable_of_full hFull i.g hDebug hPoison)
        (isEmpty_regs i o.d t hDest)
      exact congrArg Host.Outcome.next (hAlu.trans (run_wait hg _))
    case absent =>
      intro hFull hDebug hAbsent hTrap
      exact ⟨_, hStopped _ (checkSources_absent hFull _ hDebug hAbsent), run_trap_enters hg hTrap _ _ _⟩
    case poison =>
      intro hFull hDebug hPoison hTrap m hm hne
      have hLanes : us.foldl (fun a u => a ||| i.poisonLanes u.o u.n i.g) 0 = m := by
        apply BitVec.eq_of_getLsbD_eq
        intro l hl
        have hBit (o : Opnd) := poisonLanes_getLsbD i o i.g hl
        rw [hm l hl]
        show (0#32 ||| i.poisonLanes o.a 1 i.g ||| i.poisonLanes o.b 1 i.g ||| i.poisonLanes o.c 1 i.g).getLsbD l = _
        simp only [BitVec.getLsbD_or, hBit, BitVec.getLsbD_zero, Bool.false_or, Bool.and_or_distrib_left]
      exact ⟨_, hStopped _ (checkSources_poison hFull _ hDebug hPoison hLanes hne), run_trap_enters hg hTrap _ _ _⟩
  case addresses =>
    intro h o ty x s i size va mis bad out only none_ hg hReads hDest hTrap
    have hBad (l : Nat) : bad l ↔ i.accessBad (.read true) (va l) = true := Tests.bad_iff i _ _
    refine ⟨?align, ?access, ?partition, ?walk⟩
    case align =>
      rintro m ⟨hne, hm⟩
      exact ⟨_, exec_ld_stopped hReads hDest (checkMem_align hne hm), run_trap_enters hg hTrap _ _ _⟩
    case access =>
      rintro m hAlign hWalk ⟨hne, hm⟩
      simp only [hBad] at hm
      exact ⟨_, exec_ld_stopped hReads hDest (checkMem_access hAlign hWalk hne hm), run_trap_enters hg hTrap _ _ _⟩
    case partition =>
      rintro m hAlign hWalk hAccess ⟨hne, hm⟩
      have hAccess' (l : Nat) (hl : i.g.getLsbD l = true) : ¬ i.accessBad (.read true) (va l) = true :=
        fun hc => hAccess l hl ((hBad l).2 hc)
      exact ⟨_, exec_ld_stopped hReads hDest (checkMem_partition hAlign hWalk hAccess' hne hm), run_trap_enters hg hTrap _ _ _⟩
    case walk =>
      intro l hAlign hl hMiss hLow
      rw [exec_ld_stopped hReads hDest (checkMem_walk hAlign hl hMiss hLow)]
      exact congrArg Host.Outcome.next (run_wait hg _)

end Sys2Proof.Machine
end

section
/-! The bytes and marks of scratchpad as its writes leave them (R219, R417), and queues as first-in, first-out rings of them (R64,
R65, R67). -/

namespace Sys2Proof.Machine
open Sys2Proof.Claims

/-! ### Scratchpad as a memory -/

/-- The scratchpad of a cast as the memory of a machine in which nothing waits, so that what holds of the writes of memory holds of
those of scratchpad. -/
def Cast.memory (c : Cast) : State := { State.reset with mem := c.spad, marks := c.spoison, frags := [] }

theorem sread_memory (c : Cast) (n : Nat) : ∀ ofs : Nat, c.sread ofs n = c.memory.readLE ofs n := by
  induction n with
  | zero => intro _; rfl
  | succ n ih => intro ofs; rw [Cast.sread, State.readLE, ih]; rfl

theorem spoisoned_memory (c : Cast) (ofs n : Nat) : c.spoisoned ofs n = c.memory.poisoned ofs n := rfl

theorem writeLE_eq (n : Nat) : ∀ (s : State) (a v : Nat), s.writeLE a n v = { s with mem := spadWrite s.mem a n v } := by
  induction n with
  | zero => intros; rfl
  | succ n ih => intro s a v; rw [State.writeLE, ih]; rfl

theorem setMarks_eq (f : Nat → Bool) (l : List Nat) : ∀ s : State,
    l.foldl (fun a w => a.setMark w (f w)) s = { s with marks := l.foldl (fun m w => Sparse.set false m w (f w)) s.marks } := by
  induction l with
  | nil => intro s; rfl
  | cons w l ih => intro s; rw [List.foldl_cons, ih]; rfl

theorem memory_swriteOne (c : Cast) (ofs n v : Nat) (p : Bool) : (c.swriteOne ofs n v p).memory = c.memory.writeMem ofs n v p := by
  simp only [State.writeMem, setMarks_eq (markWrite c.memory.mark ofs n p), writeLE_eq]
  rfl

/-- A value written to scratchpad is written as memory would write it. -/
theorem memory_swrite (c : Cast) (ofs n : Nat) (v : Val) :
    (c.swrite ofs n v.bits.toNat v.lo v.hi).memory = c.memory.putWrite (v.at_ ofs n) := by
  unfold Cast.swrite State.putWrite Val.at_
  split
  · rw [memory_swriteOne, memory_swriteOne]
  · rw [memory_swriteOne]

theorem swrite_queues (c : Cast) (ofs n v : Nat) (p hi : Bool) : (c.swrite ofs n v p hi).queues = c.queues := by
  unfold Cast.swrite
  split <;> rfl

/-! ### The marks that a value leaves -/

/-- A write leaves the mark of every word that it does not touch. -/
theorem mark_putWrite_outside (s : State) (w : WriteOp) (k : Nat) (h : 4 * k + 4 ≤ w.pa ∨ w.pa + w.size ≤ 4 * k) :
    (s.putWrite w).mark k = s.mark k := by
  unfold State.putWrite
  split
  · rename_i h8
    rw [h8.1] at h
    rw [mark_writeMem_outside _ _ _ _ _ _ (by omega), mark_writeMem_outside _ _ _ _ _ _ (by omega)]
  · exact mark_writeMem_outside _ _ _ _ _ _ h

/-- The low word of a value of whole words takes its low mark (R417). -/
theorem mark_putWrite_low (s : State) {w : WriteOp} {k : Nat} (hpa : w.pa = 4 * k) (hsize : 4 ≤ w.size) :
    (s.putWrite w).mark k = w.poison := by
  unfold State.putWrite
  split
  · rw [mark_writeMem_outside _ _ _ _ _ _ (by omega), mark_writeMem_whole _ _ _ _ _ _ (by omega) (by omega)]
  · exact mark_writeMem_whole _ _ _ _ _ _ (by omega) (by omega)

/-- The high word of a value of two words takes its high mark (R417). -/
theorem mark_putWrite_high (s : State) {w : WriteOp} {k : Nat} (hpa : w.pa = 4 * k) (hsize : w.size = 8) :
    (s.putWrite w).mark (k + 1) = w.poisonHi := by
  unfold State.putWrite
  split
  · exact mark_writeMem_whole _ _ _ _ _ _ (by omega) (by omega)
  · next h =>
    rw [mark_writeMem_whole _ _ _ _ _ _ (by omega) (by omega)]
    exact (not_not.1 fun hne => h ⟨hsize, hne⟩).symm

theorem poisoned_word (s : State) (k : Nat) : s.poisoned (4 * k) 4 = s.mark k := by
  rw [Bool.eq_iff_iff, State.poisoned, List.any_eq_true]
  simp only [mem_wordsOf]
  constructor
  · rintro ⟨j, hj, hm⟩
    obtain rfl : j = k := by omega
    exact hm
  · exact fun hm => ⟨k, by omega, hm⟩

theorem poisoned_words (s : State) (k : Nat) : s.poisoned (4 * k) 8 = (s.mark k || s.mark (k + 1)) := by
  rw [Bool.eq_iff_iff, State.poisoned, List.any_eq_true, Bool.or_eq_true]
  simp only [mem_wordsOf]
  constructor
  · rintro ⟨j, hj, hm⟩
    obtain rfl | rfl : j = k ∨ j = k + 1 := by omega
    · exact .inl hm
    · exact .inr hm
  · rintro (hm | hm)
    · exact ⟨k, by omega, hm⟩
    · exact ⟨k + 1, by omega, hm⟩

/-! ### Elements of scratchpad -/

/-- A value read back from whole words of scratchpad is the element written, with a mark for each word (R417). -/
theorem sval_swrite (c : Cast) {ofs n : Nat} (v : Val) (hofs : ofs % 4 = 0) (hn : n = 4 ∨ n = 8) :
    (c.swrite ofs n v.bits.toNat v.lo v.hi).sval ofs n = elementOf n v := by
  obtain ⟨k, rfl⟩ : ∃ k, ofs = 4 * k := ⟨ofs / 4, by omega⟩
  have hRead : (c.swrite (4 * k) n v.bits.toNat v.lo v.hi).sread (4 * k) n = v.bits.toNat % 256 ^ n := by
    rw [sread_memory, memory_swrite, ← readLE_writeLE n c.memory (4 * k)]
    exact readLE_congr n _ _ _ fun j hj =>
      (byte_putWrite_inside _ (v.at_ (4 * k) n) j hj).trans (byte_writeLE n _ _ _ j hj).symm
  have hLow : (c.memory.putWrite (v.at_ (4 * k) n)).mark k = v.lo := mark_putWrite_low _ rfl (by show 4 ≤ n; omega)
  obtain rfl | rfl := hn
  · simp [Cast.sval, elementOf, hRead, spoisoned_memory, memory_swrite, poisoned_word, hLow]
  · have hHigh : (c.memory.putWrite (v.at_ (4 * k) 8)).mark (k + 1) = v.hi := mark_putWrite_high _ rfl rfl
    simp [Cast.sval, elementOf, Val.pair, hRead, spoisoned_memory, memory_swrite, poisoned_words, poisoned_word, hLow, hHigh,
      show 4 * k + 4 = 4 * (k + 1) by omega]

/-- A value depends on the bytes and the marks of the words that it touches alone. -/
theorem sval_congr {c d : Cast} {ofs n : Nat} (hByte : ∀ k, k < n → d.memory.byte (ofs + k) = c.memory.byte (ofs + k))
    (hMark : ∀ w ∈ wordsOf ofs n, d.memory.mark w = c.memory.mark w) : d.sval ofs n = c.sval ofs n := by
  have hPoison (a m : Nat) (ha : ∀ w ∈ wordsOf a m, w ∈ wordsOf ofs n) : d.spoisoned a m = c.spoisoned a m := by
    rw [spoisoned_memory, spoisoned_memory, State.poisoned, State.poisoned, Bool.eq_iff_iff, List.any_eq_true, List.any_eq_true]
    exact exists_congr fun w => and_congr_right fun hw => by rw [hMark w (ha w hw)]
  have hRead : d.sread ofs n = c.sread ofs n := by rw [sread_memory, sread_memory, readLE_congr n _ _ _ hByte]
  have hWhole := hPoison ofs n fun _ => id
  unfold Cast.sval
  rw [hRead, hWhole]
  split
  · next h8 =>
    subst h8
    rw [hPoison ofs 4 fun w hw => by rw [mem_wordsOf] at *; omega, hPoison (ofs + 4) 4 fun w hw => by rw [mem_wordsOf] at *; omega]
  · rfl

theorem sval_setQueue (c : Cast) (q : Nat) (x : Queue) (ofs n : Nat) : (c.setQueue q x).sval ofs n = c.sval ofs n :=
  sval_congr (fun _ _ => rfl) fun _ _ => rfl

/-- A write of whole words of scratchpad leaves the values of the words beside them. -/
theorem sval_swrite_outside (c : Cast) {a n b m : Nat} (v : Val) (ha : a % 4 = 0) (hn : n % 4 = 0)
    (h : b + m ≤ a ∨ a + n ≤ b) : (c.swrite a n v.bits.toNat v.lo v.hi).sval b m = c.sval b m := by
  apply sval_congr
  · intro k hk
    rw [memory_swrite]
    exact byte_putWrite_outside _ _ _ (by show b + k < a ∨ a + n ≤ b + k; omega)
  · intro w hw
    rw [mem_wordsOf] at hw
    rw [memory_swrite]
    exact mark_putWrite_outside _ _ _ (by show 4 * w + 4 ≤ a ∨ a + n ≤ 4 * w; omega)

/-! ### Slots of a ring -/

theorem Queue.cap_lt (x : Queue) : x.cap < 2 ^ 16 := Nat.mod_lt _ (by decide)

theorem Queue.esize_cases (x : Queue) : x.esize = 4 ∨ x.esize = 8 := by
  unfold Queue.esize
  split <;> simp

/-- Where a ring position lies depends on it modulo the capacity alone. -/
theorem Queue.slot_congr {x : Queue} {j k : Nat} (h : j % x.cap = k % x.cap) : x.slot j = x.slot k := by
  rw [Queue.slot, Queue.slot, h]

theorem Queue.slot_aligned {x : Queue} (hBase : x.base % 8 = 0) (k : Nat) : x.slot k % 4 = 0 := by
  unfold Queue.slot
  obtain h | h := x.esize_cases <;> rw [h] <;> omega

/-- Different ring positions lie apart. -/
theorem Queue.slot_disjoint {x : Queue} {j k : Nat} (h : j % x.cap ≠ k % x.cap) :
    x.slot j + x.esize ≤ x.slot k ∨ x.slot k + x.esize ≤ x.slot j := by
  unfold Queue.slot
  obtain hlt | hlt := Nat.lt_or_gt_of_ne h
  · have := Nat.mul_le_mul_right x.esize (show j % x.cap + 1 ≤ k % x.cap from hlt)
    rw [Nat.succ_mul] at this
    omega
  · have := Nat.mul_le_mul_right x.esize (show k % x.cap + 1 ≤ j % x.cap from hlt)
    rw [Nat.succ_mul] at this
    omega

/-! ### A ring in order -/

namespace RingInOrder

variable {x : Queue} (hx : RingOk x)
include hx

theorem tail_eq : x.tail = (x.head + x.count) % 2 ^ 32 := by
  have hh := hx.head
  have ht := hx.tail
  unfold Queue.count
  omega

/-- The counters' width is a multiple of the capacity, so that a ring position survives their wrapping (R404). -/
theorem mod_mod (k : Nat) : k % 2 ^ 32 % x.cap = k % x.cap := Nat.mod_mod_of_dvd k hx.cap

theorem slot_tail : x.slot x.tail = x.slot (x.head + x.count) :=
  Queue.slot_congr (by rw [tail_eq hx, mod_mod hx])

/-- The elements that a queue holds lie apart from the slot at its tail while it has room. -/
theorem slot_apart {k : Nat} (hk : k < x.count) (hroom : x.count < x.cap) :
    x.slot (x.head + k) + x.esize ≤ x.slot x.tail ∨ x.slot x.tail + x.esize ≤ x.slot (x.head + k) := by
  rw [slot_tail hx]
  apply Queue.slot_disjoint
  intro heq
  have hmod : k ≡ x.count [MOD x.cap] := Nat.ModEq.add_left_cancel' x.head heq
  exact absurd (Nat.ModEq.eq_of_lt_of_lt hmod (by omega) hroom) (by omega)

theorem count_tail_succ (hroom : x.count < x.cap) : Queue.count { x with tail := (x.tail + 1) % 2 ^ 32 } = x.count + 1 := by
  have hh := hx.head
  have ht := hx.tail
  have hc := x.cap_lt
  unfold Queue.count at *
  show ((x.tail + 1) % 2 ^ 32 + 2 ^ 32 - x.head) % 2 ^ 32 = _
  omega

theorem count_head_add {n : Nat} (hn : n ≤ x.count) : Queue.count { x with head := (x.head + n) % 2 ^ 32 } = x.count - n := by
  have hh := hx.head
  have ht := hx.tail
  have hc := hx.count
  have hb := x.cap_lt
  unfold Queue.count at *
  show (x.tail + 2 ^ 32 - (x.head + n) % 2 ^ 32) % 2 ^ 32 = _
  omega

/-- A ring with room is in order with its tail one further. -/
theorem tail_succ (hroom : x.count < x.cap) : RingOk { x with tail := (x.tail + 1) % 2 ^ 32 } :=
  { hx with
    tail := Nat.mod_lt _ (by decide)
    count := by rw [count_tail_succ hx hroom]; exact hroom }

/-- A ring is in order with its head past elements that it holds. -/
theorem head_add {n : Nat} (hn : n ≤ x.count) : RingOk { x with head := (x.head + n) % 2 ^ 32 } :=
  { hx with
    head := Nat.mod_lt _ (by decide)
    count := by rw [count_head_add hx hn]; exact (Nat.sub_le _ _).trans hx.count }

end RingInOrder

/-! ### Pushes and pops -/

@[simp] theorem queue_setQueue (c : Cast) (q : Nat) (x : Queue) (k : Nat) :
    (c.setQueue q x).queue k = if k = q then x else c.queue k := by
  simp [Cast.queue, Cast.setQueue]

theorem queue_swrite (c : Cast) (ofs n v : Nat) (p hi : Bool) (k : Nat) : (c.swrite ofs n v p hi).queue k = c.queue k := by
  rw [Cast.queue, swrite_queues]
  rfl

/-- The cast after one element is put at the tail of queue `q`. -/
def Cast.pushOne (c : Cast) (q : Nat) (v : Val) : Cast := c.push q [v]

theorem push_cons (c : Cast) (q : Nat) (v : Val) (vs : List Val) : c.push q (v :: vs) = (c.pushOne q v).push q vs := rfl

section PushOne

variable (c : Cast) (q : Nat) (v : Val)

theorem queue_pushOne (k : Nat) :
    (c.pushOne q v).queue k = if k = q then { c.queue q with tail := ((c.queue q).tail + 1) % 2 ^ 32 } else c.queue k := by
  simp [Cast.pushOne, Cast.push, queue_swrite]

theorem sval_pushOne (ofs n : Nat) :
    (c.pushOne q v).sval ofs n =
      (c.swrite ((c.queue q).slot (c.queue q).tail) (c.queue q).esize v.bits.toNat v.lo v.hi).sval ofs n :=
  sval_setQueue ..

variable {c q} (hx : RingOk (c.queue q)) (hroom : (c.queue q).count < (c.queue q).cap)
include hx hroom

theorem count_pushOne : ((c.pushOne q v).queue q).count = (c.queue q).count + 1 := by
  rw [queue_pushOne, if_pos rfl]
  exact RingInOrder.count_tail_succ hx hroom

theorem ringOk_pushOne : RingOk ((c.pushOne q v).queue q) := by
  rw [queue_pushOne, if_pos rfl]
  exact RingInOrder.tail_succ hx hroom

/-- An element pushed stands after those that the queue held, which stay as they were. -/
theorem contents_pushOne : contents (c.pushOne q v) q = contents c q ++ [elementOf (c.queue q).esize v] := by
  let x := c.queue q
  have hAligned : x.slot x.tail % 4 = 0 := Queue.slot_aligned hx.base _
  have hSize : x.esize = 4 ∨ x.esize = 8 := x.esize_cases
  have hWhole : x.esize % 4 = 0 := by omega
  have hOld (k : Nat) (hk : k < x.count) :
      (c.pushOne q v).sval (x.slot (x.head + k)) x.esize = c.sval (x.slot (x.head + k)) x.esize := by
    rw [sval_pushOne]
    exact sval_swrite_outside c v hAligned hWhole (RingInOrder.slot_apart hx hk hroom)
  have hNew : (c.pushOne q v).sval (x.slot (x.head + x.count)) x.esize = elementOf x.esize v := by
    rw [sval_pushOne, ← RingInOrder.slot_tail hx]
    exact sval_swrite c v hAligned hSize
  unfold contents Cast.heads
  rw [count_pushOne v hx hroom, queue_pushOne, if_pos rfl, List.range_succ, List.map_append]
  exact congrArg₂ _ (List.map_congr_left fun k hk => hOld k (List.mem_range.1 hk)) (congrArg (fun e => [e]) hNew)

end PushOne

/-- Elements pushed stand in their order after those that the queue held (R65, R67). -/
theorem push_ring (q : Nat) (vs : List Val) : ∀ c : Cast, RingOk (c.queue q) →
    (c.queue q).count + vs.length ≤ (c.queue q).cap →
    RingOk ((c.push q vs).queue q) ∧ contents (c.push q vs) q = contents c q ++ vs.map (elementOf (c.queue q).esize) ∧
      ∀ k, k ≠ q → (c.push q vs).queue k = c.queue k := by
  induction vs with
  | nil => exact fun c hx _ => ⟨hx, (List.append_nil _).symm, fun _ _ => rfl⟩
  | cons v vs ih =>
    intro c hx hroom
    rw [List.length_cons] at hroom
    have hFree : (c.queue q).count < (c.queue q).cap := by omega
    have hBind : ((c.pushOne q v).queue q).cap = (c.queue q).cap ∧ ((c.pushOne q v).queue q).esize = (c.queue q).esize := by
      rw [queue_pushOne, if_pos rfl]
      exact ⟨rfl, rfl⟩
    obtain ⟨hRing, hContents, hOthers⟩ := ih (c.pushOne q v) (ringOk_pushOne v hx hFree)
      (by rw [count_pushOne v hx hFree, hBind.1]; omega)
    refine ⟨hRing, ?_, fun k hk => ?_⟩
    · rw [push_cons, hContents, contents_pushOne v hx hFree, hBind.2, List.append_assoc]
      rfl
    · rw [push_cons, hOthers k hk, queue_pushOne, if_neg hk]

/-- A pop takes the first elements of the queue and leaves the others (R65, R67). -/
theorem pop_ring (c : Cast) (q n : Nat) (hx : RingOk (c.queue q)) (hn : n ≤ (c.queue q).count) :
    RingOk ((c.pop q n).queue q) ∧ c.heads q n = (contents c q).take n ∧ contents (c.pop q n) q = (contents c q).drop n ∧
      (c.pop q n).spad = c.spad ∧ ∀ k, k ≠ q → (c.pop q n).queue k = c.queue k := by
  have hQueue : (c.pop q n).queue q = { c.queue q with head := ((c.queue q).head + n) % 2 ^ 32 } := by simp [Cast.pop]
  refine ⟨?ring, ?taken, ?left, rfl, ?others⟩
  case ring =>
    rw [hQueue]
    exact RingInOrder.head_add hx hn
  case taken => rw [contents, Cast.heads, Cast.heads, ← List.map_take, List.take_range, Nat.min_eq_left hn]
  case left =>
    have hSlot (k : Nat) : (c.queue q).slot (((c.queue q).head + n) % 2 ^ 32 + k) = (c.queue q).slot ((c.queue q).head + (n + k)) :=
      Queue.slot_congr (by rw [Nat.add_mod, RingInOrder.mod_mod hx, ← Nat.add_mod, Nat.add_assoc])
    have hElement (k : Nat) : (c.pop q n).element ((c.pop q n).queue q) (((c.pop q n).queue q).head + k) =
        c.element (c.queue q) ((c.queue q).head + (n + k)) := by
      rw [hQueue]
      exact (sval_setQueue ..).trans (congrArg (fun a => c.sval a (c.queue q).esize) (hSlot k))
    have hCount : ((c.pop q n).queue q).count = (c.queue q).count - n := by
      rw [hQueue]
      exact RingInOrder.count_head_add hx hn
    apply List.ext_getElem
    · simp [contents, Cast.heads, hCount]
    · intro k hk hk'
      simp [contents, Cast.heads, hElement]
  case others =>
    intro k hk
    simp [Cast.pop, hk]

/-- A binding word that is accepted makes an empty ring in order (R64). -/
theorem ringOk_of_binding {w : DWord} (hGood : badBinding w = false) (hBound : Queue.kind { bind := w, head := 0, tail := 0 } ≠ 0) :
    RingOk { bind := w, head := 0, tail := 0 } ∧ Queue.count { bind := w, head := 0, tail := 0 } = 0 := by
  simp only [badBinding, Bool.or_eq_false_iff, Bool.and_eq_false_iff, decide_eq_false_iff_not, not_or, Bool.not_eq_false',
    List.any_eq_true, List.mem_range, decide_eq_true_eq] at hGood
  obtain ⟨-, hUnbound | ⟨⟨-, hBase, hSmall, -⟩, k, hk, hCap⟩⟩ := hGood
  · simp [hBound] at hUnbound
  · have hCount : Queue.count { bind := w, head := 0, tail := 0 } = 0 := by simp [Queue.count]
    exact ⟨{ cap := by rw [hCap]; exact Nat.pow_dvd_pow 2 (by omega)
             size := by omega
             base := by omega
             head := Nat.two_pow_pos 32
             tail := Nat.two_pow_pos 32
             count := by omega }, hCount⟩

end Sys2Proof.Machine
end

section
/-! What the instructions of queues leave as it was: the frame of a push and of a pop, up to the end of the instruction (R64 to R67,
R231, R236). -/

namespace Sys2Proof.Machine
open Sys2Proof.Claims

/-! ### Records of releases -/

/-- Nothing has changed but the records of releases. -/
structure RecordsChanged (s t : State) : Prop where
  rest  : { t with cores := s.cores } = s
  cores : ∀ c, { t.core c with records := (s.core c).records } = s.core c

namespace RecordsChanged

theorem refl (s : State) : RecordsChanged s s := ⟨rfl, fun _ => rfl⟩

theorem trans {s t u : State} (h : RecordsChanged s t) (k : RecordsChanged t u) : RecordsChanged s u where
  rest := by rw [← h.rest, ← k.rest]
  cores c := by rw [← h.cores c, ← k.cores c]

theorem modCore (s : State) (gc : Nat) (l : List RelRec) : RecordsChanged s (s.modCore gc fun c => { c with records := l }) where
  rest := rfl
  cores c := by
    rw [modCore_core]
    split
    · next h => rw [h]
    · rfl

theorem noteSpad (s : State) (gc cast ofs n : Nat) (rel : Option (Nat × Nat)) : RecordsChanged s (s.noteSpad gc cast ofs n rel) := by
  obtain ⟨l, hl⟩ : ∃ l, s.noteSpad gc cast ofs n rel =
      if l = (s.core gc).records then s else s.modCore gc fun c => { c with records := l } := ⟨_, rfl⟩
  rw [hl]
  split
  · exact refl s
  · exact modCore s gc l

/-- A push changes the cast of its queue and the records of releases on the elements' bytes (R236). -/
theorem pushQueue (s : State) (c q : Nat) (vs : List Val) : RecordsChanged (s.modCast c fun k => k.push q vs) (s.pushQueue c q vs) := by
  unfold State.pushQueue
  generalize s.modCast c (fun k => k.push q vs) = t
  generalize List.range vs.length = ks
  dsimp only
  induction ks generalizing t with
  | nil => exact refl t
  | cons k ks ih => exact (noteSpad ..).trans (ih _)

end RecordsChanged

/-! ### What a queue's instruction has done before it goes on -/

/-- Nothing has changed of a fragment that decides where its lanes go on. -/
structure SameFront (x y : Frag) : Prop where
  entries : y.entries = x.entries
  loops   : y.loops = x.loops
  rep     : y.rep = x.rep
  repc    : y.repc = x.repc

theorem SameFront.of_eq {x y : Frag} (h : y = x) : SameFront x y := h ▸ ⟨rfl, rfl, rfl, rfl⟩

theorem SameFront.trans {x y z : Frag} (h : SameFront x y) (k : SameFront y z) : SameFront x z :=
  ⟨k.entries.trans h.entries, k.loops.trans h.loops, k.rep.trans h.rep, k.repc.trans h.repc⟩

/-- An instruction of a queue has changed what it may, and its lanes have still to go on. -/
structure QueueUsed (s t : State) (i : Ix) : Prop where
  kept  : KeptQueue s t i
  front : SameFront (s.frag i.f) (t.frag i.f)

namespace QueueUsed

variable {s t : State} {i : Ix}

theorem refl (s : State) (i : Ix) : QueueUsed s s i :=
  ⟨⟨fun _ _ => rfl, fun _ _ => rfl, fun _ => rfl, rfl⟩, .of_eq rfl⟩

/-- The queue's cast may change. -/
theorem modCast (s : State) (i : Ix) (g : Cast → Cast) : QueueUsed s (s.modCast (s.castOf i.x) g) i :=
  ⟨⟨fun _ _ => rfl, fun c hc => by rw [modCast_cast, if_neg hc], fun _ => rfl, rfl⟩, .of_eq rfl⟩

variable (h : QueueUsed s t i)
include h

/-- A further change of the issuing fragment, of hoists, and of counters and records of releases alone. -/
theorem step {u : State} (hFrags : ∀ f, f ≠ i.f → u.frag f = t.frag f) (hFront : SameFront (t.frag i.f) (u.frag i.f))
    (hCores : ∀ c, { u.core c with counters := (t.core c).counters, records := (t.core c).records } = t.core c)
    (hRest : { u with frags := t.frags, hoists := t.hoists, cores := t.cores } = t) : QueueUsed s u i where
  kept := {
    frags := fun f hf => (hFrags f hf).trans (h.kept.frags f hf)
    casts := fun c hc => Eq.trans (congrArg (State.cast · c) hRest :) (h.kept.casts c hc)
    cores := fun c => by rw [← h.kept.cores c, ← hCores c]
    rest := by rw [← h.kept.rest, ← hRest] }
  front := h.front.trans hFront

theorem records {u : State} (hu : RecordsChanged t u) : QueueUsed s u i :=
  h.step (fun f _ => (congrArg (State.frag · f) hu.rest :)) (.of_eq (congrArg (State.frag · i.f) hu.rest :))
    (fun c => (congrArg (fun k : Core => { k with counters := (t.core c).counters }) (hu.cores c) :))
    (congrArg (fun u : State => { u with frags := t.frags, hoists := t.hoists }) hu.rest :)

theorem countUse (used : Bool) : QueueUsed s (i.countUse used t) i :=
  h.step (fun f _ => countUse_frag i used t f) (.of_eq (countUse_frag i used t i.f))
    (fun c => (congrArg (fun k : Core => { k with records := (t.core c).records }) (countUse_core i used t c) :))
    (congrArg (fun u : State => { u with frags := t.frags, hoists := t.hoists }) (countUse_rest i used t) :)

theorem writePred (d : Opnd) (b : LaneMask) : QueueUsed s (i.writePred t d i.g b) i :=
  h.step (fun f _ => writePred_frag i t d i.g b f) (.of_eq (writePred_frag i t d i.g b i.f))
    (fun c => by rw [writePred_core])
    (congrArg (fun u : State => { u with frags := t.frags, cores := t.cores }) (writePred_rest i t d i.g b) :)

theorem write (d : Opnd) (ty : Ty) (rs : List (Nat × Val)) : QueueUsed s (i.write t d ty rs) i := by
  obtain ⟨hRest, hFrags, -⟩ := write_rest i t d ty rs
  have hFrag := write_frag i t d ty rs
  refine h.step hFrags ⟨(congrArg Frag.entries hFrag :), (congrArg Frag.loops hFrag :), (congrArg Frag.rep hFrag :),
    (congrArg Frag.repc hFrag :)⟩ (fun c => ?_) (congrArg (fun u : State => { u with cores := t.cores }) hRest :)
  rw [show (i.write t d ty rs).core c = t.core c from (congrArg (State.core · c) hRest :)]

theorem afterIssue (e : Option Engine) : QueueUsed s (i.afterIssue e t) i := by
  unfold Ix.afterIssue
  split
  · have hDrain := drainAfter_rest i false true Engine.coll.relScope (t.frag i.f)
    refine h.step (fun f hf => by rw [modFrag_frag, if_neg hf]) ?_ (fun _ => rfl) rfl
    rw [modFrag_frag, if_pos rfl]
    exact ⟨(congrArg Frag.entries hDrain :), (congrArg Frag.loops hDrain :), (congrArg Frag.rep hDrain :),
      (congrArg Frag.repc hDrain :)⟩
  · exact h

/-- Its lanes go on past the instruction, and nothing else changes any more. -/
theorem done : WentOn s (i.done t) i ∧ KeptQueue s (i.done t) i where
  left := by
    unfold WentOn
    rw [done_frag, if_pos rfl]
    exact complete_entries _ _ _ _ _ _ h.front.entries h.front.loops h.front.rep h.front.repc
  right := {
    frags := fun f hf => by rw [done_frag, if_neg hf, h.kept.frags f hf]
    casts := h.kept.casts
    cores := h.kept.cores
    rest := h.kept.rest }

end QueueUsed

/-! ### What destinations hold at the end -/

/-- What destinations hold depends on the issuing hoist and on the scalar registers of the fragment alone. -/
theorem gets_done {i : Ix} {t : State} {d : Opnd} {ty : Ty} {r : Nat → Val} (h : Gets t i d ty r) : Gets (i.done t) i d ty r := by
  cases d with
  | s q =>
    simp only [Gets, done_frag, if_pos, Frag.sreg, complete_sregs, complete_spoison] at *
    exact h
  | _ => exact h

theorem gets_countUse {i : Ix} {t : State} {d : Opnd} {ty : Ty} {r : Nat → Val} (used : Bool) (h : Gets t i d ty r) :
    Gets (i.countUse used t) i d ty r := by
  unfold Gets at *
  simpa only [countUse_hoist, countUse_frag] using h

/-- A predicate written leaves what another destination holds. -/
theorem gets_writePred {i : Ix} {t : State} {d d2 : Opnd} {ty : Ty} {r : Nat → Val} (hne : d ≠ d2) (b : LaneMask)
    (h : Gets t i d ty r) : Gets (i.writePred t d2 i.g b) i d ty r := by
  have hHoist := writePred_hoist i t d2 i.g b
  have hElem (a l : Nat) : ((i.writePred t d2 i.g b).hoist i.x.hoist).elem a l = (t.hoist i.x.hoist).elem a l ∧
      ((i.writePred t d2 i.g b).hoist i.x.hoist).elemMark a l = (t.hoist i.x.hoist).elemMark a l :=
    ⟨(congrArg (Hoist.elem · a l) hHoist :), (congrArg (Hoist.elemMark · a l) hHoist :)⟩
  cases d with
  | v q =>
    intro l hl
    simpa only [hElem] using h l hl
  | s q => simpa only [Gets, writePred_frag] using h
  | p q =>
    intro hq l hl
    rw [writePred_pred, if_neg fun hc => hne hc.1.symm]
    exact h hq l hl
  | m q => exact (congrArg (fun x => Sparse.get 0 x.masks q.toNat) hHoist : _ = Sparse.get 0 (t.hoist i.x.hoist).masks q.toNat).trans h
  | _ => trivial

/-- A predicate reports true in every guard-true lane. -/
theorem getsPred_all (i : Ix) (s : State) (d : Opnd) : GetsPred (i.writePred s d i.g i.g) i d fun _ => true := by
  have h := getsPred_writePred i s d i.g
  cases d with
  | p q => exact fun hq l hl => (h hq l hl).trans hl
  | _ => trivial

/-- A predicate reports false in every guard-true lane. -/
theorem getsPred_none (i : Ix) (s : State) (d : Opnd) : GetsPred (i.writePred s d i.g 0) i d fun _ => false := by
  have h := getsPred_writePred i s d 0
  cases d with
  | p q => exact fun hq l hl => (h hq l hl).trans BitVec.getLsbD_zero
  | _ => trivial

end Sys2Proof.Machine
end

section
/-! O36: the checks of pushes and pops, and the instructions that make them (R64 to R67, R151, R190, R239, R268 to R270). -/

namespace Sys2Proof.Machine
open Sys2Proof.Claims

/-! ### Checks -/

theorem guardStop_true (st : Stop) : guardStop true st = .error st := rfl

/-- A check that passes leaves the rest of the body. The parentheses keep `simp` rewriting with the equation, where the kernel would
otherwise compare the two sides and evaluate the counters of a ring. -/
theorem ok_bind {α β : Type} (a : α) (f : α → Except Stop β) : (Except.ok a >>= f) = f a := (rfl)

/-- A check that stops ends the body. -/
theorem error_bind {α β : Type} (st : Stop) (f : α → Except Stop β) : (Except.error st >>= f) = .error st := (rfl)

section CheckQueue

variable (i : Ix) {x : Queue} {kinds : List Nat} {sz n : Nat}

theorem queueBad_iff : (!kinds.contains x.kind || x.esize ≠ sz || decide (x.cap < n)) = true ↔ ¬ Allows x kinds sz n := by
  simp only [Allows, Bool.or_eq_true, Bool.not_eq_true', List.contains_eq_mem, decide_eq_false_iff_not, decide_eq_true_eq,
    not_and_or, Nat.not_le, or_assoc]

theorem checkQueue_ok (h : Allows x kinds sz n) : i.checkQueue x kinds sz n = .ok () := by
  unfold Ix.checkQueue
  rw [Bool.eq_false_iff.2 fun hBad => queueBad_iff.1 hBad h, guardStop_false]

theorem checkQueue_bad (h : ¬ Allows x kinds sz n) : i.checkQueue x kinds sz n = .error (.trap Cause.queue 0 i.g) := by
  unfold Ix.checkQueue
  rw [queueBad_iff.2 h, guardStop_true]

end CheckQueue

/-- The engines are those of the kinds of command queues (R66). -/
theorem engineOf_isSome (k : Nat) : (engineOf k).isSome = true ↔ k = 2 ∨ k = 3 ∨ k = 4 := by
  unfold engineOf
  split
  · simp
  · simp
  · simp
  · next h2 h3 h4 => simpa using ⟨h2, h3, h4⟩

/-- The scope of an engine's release finds its writes done (R239). -/
theorem checkRelease_engine (i : Ix) (e : Option Engine) (h : ∀ k, e = some k → IssueFree i k) :
    i.checkRelease e.isSome ((e.map Engine.relScope).getD .core) = .ok () := by
  cases e with
  | none => rfl
  | some k =>
    have hFree := h k rfl
    cases k <;> simpa [Ix.checkRelease, IssueFree, Ix.wideScope, Engine.relScope, guardStop] using hFree

/-- No tile holds the elements of the ring positions from `k`. -/
theorem ringHeld_false {i : Ix} {write : Bool} {x : Queue} {k n : Nat} (h : RingFree i write x k n) :
    ((List.range n).any fun j => i.s.tileHeld i.x.hoist write (x.slot (k + j)) x.esize) = false := by
  rw [List.any_eq_false]
  intro j hj
  rw [h j (List.mem_range.1 hj)]
  exact Bool.false_ne_true

/-! ### Pushes -/

section Push

variable {i : Ix} {q : BitVec 4} {o : Opnd} {w : Bool} {x : Queue} (hx : (i.s.cast (i.s.castOf i.x)).queue q.toNat = x)
include hx

theorem pushTo_bad (h : ¬ Allows x [1, 2, 3, 4] (if w then 8 else 4) (i.elements o).length) :
    i.pushTo q o w = .error (.trap Cause.queue 0 i.g) := by
  simp only [Ix.pushTo, hx, checkQueue_bad i h, error_bind]

variable (hAllows : Allows x [1, 2, 3, 4] (if w then 8 else 4) (i.elements o).length)
include hAllows

theorem pushTo_full (hFull : x.cap < x.count + (i.elements o).length) : i.pushTo q o w = .error (.wait (.queue q)) := by
  simp only [Ix.pushTo, hx, checkQueue_ok i hAllows, decide_eq_true hFull, guardStop_true, ok_bind, error_bind]

/-- A push of elements for which there is room, and which nothing holds back. -/
theorem pushTo_ok (hRoom : x.count + (i.elements o).length ≤ x.cap) (hRing : RingFree i true x x.tail (i.elements o).length)
    (hEngine : ∀ e, engineOf x.kind = some e → IssueFree i e)
    (hTiles : engineOf x.kind = some .copy → i.s.tileHeld i.x.hoist true 0 (i.s.spadBytes (i.s.castOf i.x)) = false) :
    ∃ u, i.pushTo q o w = .ok u ∧ QueueUsed i.s u i ∧ u.hoists = i.s.hoists ∧
      u.cast (i.s.castOf i.x) = (i.s.cast (i.s.castOf i.x)).push q.toNat ((i.elements o).map (i.read o (.bw w))) := by
  generalize hvs : (i.elements o).map (i.read o (.bw w)) = vs
  have hCopy : (decide (engineOf x.kind = some .copy) && i.s.tileHeld i.x.hoist true 0 (i.s.spadBytes (i.s.castOf i.x))) = false := by
    by_cases hc : engineOf x.kind = some .copy
    · rw [hTiles hc, Bool.and_false]
    · rw [decide_eq_false hc, Bool.false_and]
  have hPush := RecordsChanged.pushQueue i.s (i.s.castOf i.x) q.toNat vs
  have hAfter (t : State) : (i.afterIssue (engineOf x.kind) t).hoists = t.hoists ∧ (i.afterIssue (engineOf x.kind) t).casts = t.casts := by
    unfold Ix.afterIssue
    split <;> exact ⟨rfl, rfl⟩
  refine ⟨i.afterIssue (engineOf x.kind) (i.s.pushQueue (i.s.castOf i.x) q.toNat vs), ?ok,
    ((QueueUsed.modCast i.s i _).records hPush).afterIssue _, ?hoists, ?cast⟩
  case ok =>
    simp only [Ix.pushTo, hx, hvs, checkQueue_ok i hAllows, decide_eq_false (Nat.not_lt.2 hRoom), checkRelease_engine i _ hEngine,
      ringHeld_false hRing, hCopy, guardStop_false, ok_bind, pure, Except.pure]
  case hoists => exact (hAfter _).1.trans (congrArg State.hoists hPush.rest :)
  case cast =>
    have hCast : (i.s.pushQueue (i.s.castOf i.x) q.toNat vs).cast (i.s.castOf i.x) =
      (i.s.modCast (i.s.castOf i.x) fun k => k.push q.toNat vs).cast (i.s.castOf i.x) :=
      (congrArg (State.cast · (i.s.castOf i.x)) hPush.rest :)
    rw [State.cast, (hAfter _).2]
    exact hCast.trans (by rw [modCast_cast, if_pos rfl])

end Push

/-! ### Pops -/

section Pop

variable {i : Ix} {q : BitVec 4} {d : Opnd} {w bit : Bool} {x : Queue} (hx : (i.s.cast (i.s.castOf i.x)).queue q.toNat = x)
  (hAllows : Allows x [1, 5] (if w then 8 else 4) (i.elements d).length)
include hx hAllows

theorem popFrom_few (hFew : x.count < (i.elements d).length) :
    i.popFrom q d w bit = .error (if bit then .trap Cause.empty 0 i.g else .wait (.queue q)) := by
  simp only [Ix.popFrom, hx, checkQueue_ok i hAllows, decide_eq_true hFew, guardStop_true, ok_bind, error_bind]

theorem popFrom_ok (hHeld : (i.elements d).length ≤ x.count) (hRing : RingFree i false x x.head (i.elements d).length) :
    i.popFrom q d w bit = .ok ((i.elements d).zip ((i.s.cast (i.s.castOf i.x)).heads q.toNat (i.elements d).length),
      i.s.modCast (i.s.castOf i.x) fun k => k.pop q.toNat (i.elements d).length) := by
  simp only [Ix.popFrom, hx, checkQueue_ok i hAllows, decide_eq_false (Nat.not_lt.2 hHeld), ringHeld_false hRing, guardStop_false,
    ok_bind, pure, Except.pure]

end Pop

/-- A pop takes an element for each guard-true lane, or one for the lowest of them (R65). -/
theorem elements_cases (i : Ix) (d : Opnd) : i.elements d = lanesOf i.g ∨ i.elements d = [lowestLane i.g] := by
  cases d with
  | v r => exact .inl rfl
  | p r => exact .inl rfl
  | _ => exact .inr rfl

/-- A list without repetition paired with another pairs each of its items with the one that stands at the same place. -/
theorem zip_eq_map_idxOf {ls : List Nat} {vs : List Val} (hNodup : ls.Nodup) (hLength : vs.length = ls.length) (z : Val) :
    ls.zip vs = ls.map fun l => (l, vs.getD (ls.idxOf l) z) := by
  apply List.ext_getElem
  · simp [hLength]
  · intro k hk hk'
    have hkl : k < ls.length := by simpa using hk'
    simp [hNodup.idxOf_getElem k hkl, List.getElem?_eq_getElem (show k < vs.length by omega)]

/-- The elements popped, each with the lane that it is for. -/
theorem zip_elements {i : Ix} (hg : i.g ≠ 0) (d : Opnd) {vs : List Val} (hLength : vs.length = (i.elements d).length) :
    (i.elements d).zip vs = (i.elements d).map fun l => (l, vs.getD ((lanesOf i.g).idxOf l) .zero) := by
  obtain h | h := elements_cases i d
  · rw [h] at hLength ⊢
    exact zip_eq_map_idxOf ((lanesOf_pairwise i.g).imp Nat.ne_of_lt) hLength .zero
  · obtain ⟨rest, hLanes⟩ := lanesOf_eq_cons i.g hg
    rw [h] at hLength ⊢
    rw [zip_eq_map_idxOf (List.nodup_singleton _) hLength .zero, hLanes]
    simp

/-- A destination takes no more than the results of its elements. -/
theorem write_elements {i : Ix} (hg : i.g ≠ 0) (s : State) (d : Opnd) (ty : Ty) (r : Nat → Val) :
    i.write s d ty ((i.elements d).map fun l => (l, r l)) = i.write s d ty ((lanesOf i.g).map fun l => (l, r l)) := by
  obtain ⟨rest, hLanes⟩ := lanesOf_eq_cons i.g hg
  cases d with
  | s q => simp [Ix.write, Ix.elements, hLanes]
  | m q => simp [Ix.write, Ix.elements, hLanes]
  | _ => rfl

/-- What stands in a destination when the elements of a pop have been written to it. -/
theorem popped_write {s : State} {hd : Hdr} (hg : (Ix.of s hd).g ≠ 0) (q : BitVec 4) (d : Opnd) (ty : Ty) :
    let i := Ix.of s hd
    let c := s.castOf i.x
    let n := (i.elements d).length
    let u := i.write (s.modCast c fun k => k.pop q.toNat n) d ty ((i.elements d).zip ((s.cast c).heads q.toNat n))
    QueueUsed s u i ∧ u.cast c = (s.cast c).pop q.toNat n ∧
      Gets u i d ty fun l => ((s.cast c).heads q.toNat n).getD ((lanesOf i.g).idxOf l) .zero := by
  intro i c n u
  refine ⟨(QueueUsed.modCast s i _).write d ty _, ?cast, ?gets⟩
  case cast =>
    obtain ⟨hRest, -, -⟩ := write_rest i (s.modCast c fun k => k.pop q.toNat n) d ty ((i.elements d).zip ((s.cast c).heads q.toNat n))
    have hCast : u.cast c = (s.modCast c fun k => k.pop q.toNat n).cast c := (congrArg (State.cast · c) hRest :)
    rw [hCast, modCast_cast, if_pos rfl]
  case gets =>
    have hLength : ((s.cast c).heads q.toNat n).length = (i.elements d).length := by simp [Cast.heads, n]
    show Gets (i.write _ d ty _) i d ty _
    rw [zip_elements hg d hLength, write_elements hg]
    exact write_gets { i with s := s.modCast c fun k => k.pop q.toNat n } d ty _ hg

end Sys2Proof.Machine
end

section
/-! O36: ENQ and MOV push, DEQ and MOV pop, ENQ.BIND binds and QSTAT describes a queue (R64 to R67, R147, R151, R268 to R270). -/

namespace Sys2Proof.Machine
open Sys2Proof.Claims

/-! ### The instructions that push -/

section Push

variable {h : Hdr} {o : Ops} {w : Bool} {lsel q : BitVec 4} {s : State} (hd : o.d = .q q)
  (hReads : Readable (Ix.of s h) [{ o := o.a, n := if w then 2 else 1, bit := h.ea }] (Ix.of s h).g)
  (hAnchor : s.atAnchor (Ix.of s h).x = true)

/-- The body of a push that may wait: the elements are put, and the lanes go on. -/
def Ix.pushBody (i : Ix) (q : BitVec 4) (a : Opnd) (w : Bool) : Except Stop State :=
  i.pushTo q a w >>= fun t => pure (i.done t)

/-- The body of a push that reports whether there was room (R268). -/
def Ix.pushReportBody (i : Ix) (q : BitVec 4) (a d2 : Opnd) (w : Bool) (x : Queue) : Except Stop State :=
  if x.cap < x.count + (i.elements a).length then pure (i.done (i.writePred i.s d2 i.g 0))
  else i.pushTo q a w >>= fun t => pure (i.done (i.writePred t d2 i.g i.g))

include hReads in
/-- A push reads its one source. -/
theorem checkSources_pushed : (Ix.of s h).checkSources [{ o := o.a, n := (Wd.bw w).regs, bit := h.ea }] (Ix.of s h).g = .ok () :=
  checkSources_ok _ _ _ hReads

include hReads in
/-- The sources that MOV has not do not hold it back. -/
theorem checkSources_mov : (Ix.of s h).checkSources ((Ix.of s h).uses h { o with b := .none, c := .none } (.bw w) .w32 .w32)
    (Ix.of s h).g = .ok () := by
  apply checkSources_ok
  exact {
    full := by
      simp only [Ix.uses, List.forall_mem_cons]
      exact ⟨hReads.full _ List.mem_cons_self, rfl, rfl, nofun⟩
    known := fun hDebug => by
      simp only [Ix.uses, List.forall_mem_cons]
      exact ⟨hReads.known hDebug _ List.mem_cons_self, rfl, rfl, nofun⟩
    clean := fun hTraps => by
      simp only [Ix.uses, List.forall_mem_cons]
      exact ⟨hReads.clean hTraps _ List.mem_cons_self, rfl, rfl, nofun⟩ }

include hd hReads hAnchor

theorem exec_enq : exec (.enq h o w false lsel) s = .next ((Ix.of s h).run ((Ix.of s h).pushBody q o.a w)) := by
  show execEnq h o w false lsel s = _
  simp only [execEnq, hd, queueNum, checkSources_pushed hReads, needAnchor_home hAnchor, ok_bind, Bool.false_eq_true, if_false,
    Ix.pushBody]

theorem exec_mov_push : exec (.mov h { o with b := .none, c := .none } w lsel) s =
    .next ((Ix.of s h).run ((Ix.of s h).pushBody q o.a w)) := by
  have hPush : execMov h { o with b := .none, c := .none } w lsel s = .next ((Ix.of s h).run do
      (Ix.of s h).checkSources ((Ix.of s h).uses h { o with b := .none, c := .none } (.bw w) .w32 .w32) (Ix.of s h).g
      (Ix.of s h).needAnchor lsel
      let t ← (Ix.of s h).pushTo q o.a w
      pure ((Ix.of s h).done t)) := by
    unfold execMov
    rw [hd]
  show execMov h _ w lsel s = _
  rw [hPush]
  simp only [checkSources_mov hReads, needAnchor_home hAnchor, ok_bind, Ix.pushBody]

variable {x : Queue} (hx : (s.cast (s.castOf (Ix.of s h).x)).queue q.toNat = x)
include hx

theorem exec_enq_nb (hAllows : Allows x [1, 2, 3, 4] (if w then 8 else 4) ((Ix.of s h).elements o.a).length) :
    exec (.enq h o w true lsel) s = .next ((Ix.of s h).run ((Ix.of s h).pushReportBody q o.a o.d2 w x)) := by
  have hQueue : ((Ix.of s h).s.cast ((Ix.of s h).s.castOf (Ix.of s h).x)).queue q.toNat = x := hx
  show execEnq h o w true lsel s = _
  simp only [execEnq, hd, queueNum, checkSources_pushed hReads, needAnchor_home hAnchor, ok_bind, if_true, hQueue,
    checkQueue_ok _ hAllows, Ix.pushReportBody]

theorem exec_enq_bad (nb : Bool) (hBad : ¬ Allows x [1, 2, 3, 4] (if w then 8 else 4) ((Ix.of s h).elements o.a).length) :
    exec (.enq h o w nb lsel) s = .next ((Ix.of s h).run (.error (.trap Cause.queue 0 (Ix.of s h).g))) := by
  have hQueue : ((Ix.of s h).s.cast ((Ix.of s h).s.castOf (Ix.of s h).x)).queue q.toNat = x := hx
  cases nb
  · rw [exec_enq hd hReads hAnchor, Ix.pushBody, pushTo_bad hx hBad]
    rfl
  · show execEnq h o w true lsel s = _
    simp only [execEnq, hd, queueNum, checkSources_pushed hReads, needAnchor_home hAnchor, ok_bind, if_true, hQueue,
      checkQueue_bad _ hBad, error_bind]

end Push

/-! ### The instructions that pop -/

section Pop

variable {h : Hdr} {o : Ops} {w : Bool} {lsel q : BitVec 4} {s : State} (ha : o.a = .q q)
  (hDest : (Ix.of s h).isEmpty o.d (Ty.regs (bwTy w)) = false) (hAnchor : s.atAnchor (Ix.of s h).x = true)

/-- The body of a pop that waits or traps without elements: the results are written, and the lanes go on. -/
def Ix.popBody (i : Ix) (q : BitVec 4) (d : Opnd) (w bit : Bool) : Except Stop State :=
  i.popFrom q d w bit >>= fun r => pure (({ i with s := r.2 } : Ix).finish d (bwTy w) r.1)

/-- The body of a pop that reports whether there were elements (R269). -/
def Ix.popReportBody (i : Ix) (q : BitVec 4) (d d2 : Opnd) (w : Bool) (x : Queue) : Except Stop State :=
  if x.count < (i.elements d).length then pure (i.done (i.writePred i.s d2 i.g 0))
  else i.popFrom q d w false >>= fun r => pure (i.done (i.writePred
    (i.countUse (dropsMark d && r.1.any fun p => p.2.poison) (i.write r.2 d (bwTy w) r.1)) d2 i.g i.g))

include ha hDest hAnchor

theorem exec_deq : exec (.deq h o w false lsel) s = .next ((Ix.of s h).run ((Ix.of s h).popBody q o.d w h.ea)) := by
  have hDests : (Ix.of s h).checkDests [(o.d, Ty.regs (if w then .b64 else .b32))] = .ok () := checkDests_ok _ _ _ hDest
  show execDeq h o w false lsel s = _
  simp only [execDeq, ha, queueNum, hDests, needAnchor_home hAnchor, ok_bind, Bool.false_eq_true, if_false, Ix.popBody, bwTy]

theorem exec_mov_pop (hNot : ∀ k, o.d ≠ .q k) :
    exec (.mov h o w lsel) s = .next ((Ix.of s h).run ((Ix.of s h).popBody q o.d w h.ea)) := by
  have hDests := checkDests_ok _ _ _ hDest
  have hPop : execMov h o w lsel s = .next ((Ix.of s h).run do
      (Ix.of s h).checkDests [(o.d, Ty.regs (bwTy w))]
      (Ix.of s h).needAnchor lsel
      let r ← (Ix.of s h).popFrom q o.d w h.ea
      pure (({ Ix.of s h with s := r.2 } : Ix).finish o.d (bwTy w) r.1)) := by
    unfold execMov
    rw [ha]
    cases hd : o.d with
    | q k => exact absurd hd (hNot k)
    | _ => rfl
  show execMov h o w lsel s = _
  rw [hPop]
  simp only [hDests, needAnchor_home hAnchor, ok_bind, Ix.popBody]

theorem exec_deq_nb {x : Queue} (hx : (s.cast (s.castOf (Ix.of s h).x)).queue q.toNat = x)
    (hAllows : Allows x [1, 5] (if w then 8 else 4) ((Ix.of s h).elements o.d).length) :
    exec (.deq h o w true lsel) s = .next ((Ix.of s h).run ((Ix.of s h).popReportBody q o.d o.d2 w x)) := by
  have hDests : (Ix.of s h).checkDests [(o.d, Ty.regs (if w then .b64 else .b32))] = .ok () := checkDests_ok _ _ _ hDest
  have hQueue : ((Ix.of s h).s.cast ((Ix.of s h).s.castOf (Ix.of s h).x)).queue q.toNat = x := hx
  show execDeq h o w true lsel s = _
  simp only [execDeq, ha, queueNum, hDests, needAnchor_home hAnchor, ok_bind, if_true, hQueue, checkQueue_ok _ hAllows,
    Ix.popReportBody, bwTy]

end Pop

/-! ### QSTAT and ENQ.BIND -/

theorem exec_qstat {h : Hdr} {o : Ops} {f : QField} {lsel q : BitVec 4} {s : State} (ha : o.a = .q q) (hg : (Ix.of s h).g ≠ 0)
    (hDest : (Ix.of s h).isEmpty o.d (Ty.regs (if f = .bind then .b64 else .n32)) = false)
    (hAnchor : s.atAnchor (Ix.of s h).x = true) :
    exec (.qstat h o f lsel) s = .next ((Ix.of s h).finish o.d (if f = .bind then .b64 else .n32) ((lanesOf (Ix.of s h).g).map fun l =>
      (l, { bits := Queue.stat ((s.cast (s.castOf (Ix.of s h).x)).queue q.toNat) f, poison := false }))) := by
  show execQstat h o f lsel s = _
  simp only [execQstat, ha, queueNum, checkDests_ok _ _ _ hDest, needAnchor_home hAnchor, ok_bind, pure, Except.pure, run_ok _ _ hg]
  rfl

section Bind

variable {h : Hdr} {o : Ops} {lsel q : BitVec 4} {s : State} {x : Queue}

/-- The end of a binding whose word is in order: it waits for a command queue that still holds elements (R268). -/
def Ix.bindBody (i : Ix) (q : BitVec 4) (a : Opnd) (x : Queue) : Except Stop State :=
  let old := (i.s.cast (i.s.castOf i.x)).queue q.toNat
  guardStop ((engineOf old.kind).isSome && old.count ≠ 0) (.wait (.queue q)) >>= fun _ =>
    pure (i.done (i.countUse (i.poisonLanes a 1 i.g ≠ 0)
      (i.s.modCast (i.s.castOf i.x) fun c => c.setQueue q.toNat (if x.kind = 0 then .unbound else x))))

variable (hd : o.d = .q q) (hReads : Readable (Ix.of s h) [{ o := o.a, n := 1, bit := h.ea }] (Ix.of s h).g)
  (hAnchor : s.atAnchor (Ix.of s h).x = true) (hx : { bind := ((Ix.of s h).read o.a (.bw true) 0).bits, head := 0, tail := 0 } = x)
include hd hReads hAnchor hx

/-- At the anchor the word is read and checked before the queue that it replaces. -/
theorem exec_enqBind (hGood : badBinding x.bind = false)
    (hFits : x.kind ≠ 0 → x.base + x.cap * x.esize ≤ s.spadBytes (s.castOf (Ix.of s h).x)) :
    exec (.enqBind h o lsel) s = .next ((Ix.of s h).run ((Ix.of s h).bindBody q o.a x)) := by
  have hRoom : (decide (x.kind ≠ 0) && decide ((Ix.of s h).s.spadBytes ((Ix.of s h).s.castOf (Ix.of s h).x) < x.base + x.cap * x.esize)) =
      false := by
    by_cases hk : x.kind = 0
    · rw [decide_eq_false (not_not.2 hk), Bool.false_and]
    · exact (congrArg _ (decide_eq_false (Nat.not_lt.2 (hFits hk)))).trans (Bool.and_false _)
  have hBind : badBinding ((Ix.of s h).read o.a (.bw true) 0).bits = false := by
    subst hx
    exact hGood
  have hHome : (Ix.of s h).s.atAnchor (Ix.of s h).x = true := hAnchor
  show execEnqBind h o lsel s = _
  simp only [execEnqBind, hd, queueNum, Ix.anchored, if_pos hHome, pure, Except.pure, ok_bind, checkSources_ok _ _ _ hReads,
    Ix.uniform, hBind, hx, hRoom, guardStop_false, Ix.bindBody]

theorem exec_enqBind_bad (hBad : badBinding x.bind = true) :
    exec (.enqBind h o lsel) s = .next ((Ix.of s h).run (.error (.trap Cause.queue 0 (Ix.of s h).g))) := by
  have hBind : badBinding ((Ix.of s h).read o.a (.bw true) 0).bits = true := by
    subst hx
    exact hBad
  have hHome : (Ix.of s h).s.atAnchor (Ix.of s h).x = true := hAnchor
  show execEnqBind h o lsel s = _
  simp only [execEnqBind, hd, queueNum, Ix.anchored, if_pos hHome, pure, Except.pure, ok_bind, checkSources_ok _ _ _ hReads,
    Ix.uniform, hBind, guardStop_true, error_bind]

end Bind
end Sys2Proof.Machine
end

section
/-! O36: queues and their instructions (R64 to R67, R151, R268 to R270). -/

namespace Sys2Proof.Machine
open Sys2Proof.Claims

/-! ### How pushes and pops end -/

/-- An instruction that reports that it could do nothing has done nothing else. -/
theorem reported_none (s : State) (h : Hdr) (d2 : Opnd) :
    let i := Ix.of s h
    let t := i.done (i.writePred s d2 i.g 0)
    GetsPred t i d2 (fun _ => false) ∧ WentOn s t i ∧ KeptQueue s t i ∧ t.cast (s.castOf i.x) = s.cast (s.castOf i.x) := by
  intro i t
  obtain ⟨hWent, hKept⟩ := ((QueueUsed.refl s i).writePred d2 0).done
  exact ⟨getsPred_of_hoist (done_hoist ..) (getsPred_none i s d2), hWent, hKept,
    (congrArg (State.cast · (s.castOf i.x)) (writePred_rest i s d2 i.g 0) :)⟩

section Ends

variable {h : Hdr} {s : State} (hg : (Ix.of s h).g ≠ 0)
include hg

theorem run_pushBody {q : BitVec 4} {a : Opnd} {w : Bool} {u : State} (hPush : (Ix.of s h).pushTo q a w = .ok u) :
    (Ix.of s h).run ((Ix.of s h).pushBody q a w) = (Ix.of s h).done u := by
  rw [Ix.pushBody, hPush, ok_bind]
  exact run_ok _ _ hg

theorem run_pushReportBody {q : BitVec 4} {a d2 : Opnd} {w : Bool} {x : Queue} {u : State}
    (hRoom : x.count + ((Ix.of s h).elements a).length ≤ x.cap) (hPush : (Ix.of s h).pushTo q a w = .ok u) :
    (Ix.of s h).run ((Ix.of s h).pushReportBody q a d2 w x) =
      (Ix.of s h).done ((Ix.of s h).writePred u d2 (Ix.of s h).g (Ix.of s h).g) := by
  rw [Ix.pushReportBody, if_neg (Nat.not_lt.2 hRoom), hPush, ok_bind]
  exact run_ok _ _ hg

theorem run_pushReportBody_full {q : BitVec 4} {a d2 : Opnd} {w : Bool} {x : Queue}
    (hFull : x.cap < x.count + ((Ix.of s h).elements a).length) :
    (Ix.of s h).run ((Ix.of s h).pushReportBody q a d2 w x) = (Ix.of s h).done ((Ix.of s h).writePred s d2 (Ix.of s h).g 0) := by
  rw [Ix.pushReportBody, if_pos hFull]
  exact run_ok _ _ hg

end Ends

section Push

variable {h : Hdr} {o : Ops} {w : Bool} {lsel q : BitVec 4} {s : State} {x : Queue} (hd : o.d = .q q) (hg : (Ix.of s h).g ≠ 0)
  (hReads : Readable (Ix.of s h) [{ o := o.a, n := if w then 2 else 1, bit := h.ea }] (Ix.of s h).g)
  (hAnchor : s.atAnchor (Ix.of s h).x = true) (hx : (s.cast (s.castOf (Ix.of s h).x)).queue q.toNat = x)
  (hAllows : Allows x [1, 2, 3, 4] (if w then 8 else 4) ((Ix.of s h).elements o.a).length)
include hd hg hReads hAnchor hx hAllows

/-- ENQ, waiting or reporting, with its push made. -/
theorem enq_pushed (nb : Bool) (hRoom : x.count + ((Ix.of s h).elements o.a).length ≤ x.cap) {u : State}
    (hPush : (Ix.of s h).pushTo q o.a w = .ok u) (hUsed : QueueUsed s u (Ix.of s h)) (hHoists : u.hoists = s.hoists) :
    let i := Ix.of s h
    ∃ t, exec (.enq h o w nb lsel) s = .next t ∧ t.cast (s.castOf i.x) = u.cast (s.castOf i.x) ∧ WentOn s t i ∧ KeptQueue s t i ∧
      (nb = false → t.hoists = s.hoists) ∧ (nb = true → GetsPred t i o.d2 fun _ => true) := by
  intro i
  cases nb with
  | false =>
    obtain ⟨hWent, hKept⟩ := hUsed.done
    exact ⟨i.done u, (exec_enq hd hReads hAnchor).trans (congrArg _ (run_pushBody hg hPush)), rfl, hWent, hKept, fun _ => hHoists, nofun⟩
  | true =>
    obtain ⟨hWent, hKept⟩ := (hUsed.writePred o.d2 i.g).done
    exact ⟨i.done (i.writePred u o.d2 i.g i.g),
      (exec_enq_nb hd hReads hAnchor hx hAllows).trans (congrArg _ (run_pushReportBody hg hRoom hPush)),
      (congrArg (State.cast · (s.castOf i.x)) (writePred_rest i u o.d2 i.g i.g) :), hWent, hKept, nofun,
      fun _ => getsPred_of_hoist (done_hoist ..) (getsPred_all i u o.d2)⟩

/-- ENQ that finds too little room waits, or reports it. -/
theorem enq_full (nb : Bool) (hFull : x.cap < x.count + ((Ix.of s h).elements o.a).length) :
    let i := Ix.of s h
    (nb = false → exec (.enq h o w nb lsel) s = .next (s.setFrag i.f (i.x.waitAt i.e.prio i.e.pc (.queue q)))) ∧
    (nb = true → ∃ t, exec (.enq h o w nb lsel) s = .next t ∧ GetsPred t i o.d2 (fun _ => false) ∧ WentOn s t i ∧ KeptQueue s t i ∧
      t.cast (s.castOf i.x) = s.cast (s.castOf i.x)) := by
  intro i
  constructor
  · rintro rfl
    rw [exec_enq hd hReads hAnchor, Ix.pushBody, pushTo_full hx hAllows hFull, error_bind, run_wait hg]
  · rintro rfl
    exact ⟨_, (exec_enq_nb hd hReads hAnchor hx hAllows).trans (congrArg _ (run_pushReportBody_full hg hFull)), reported_none s h o.d2⟩

end Push

section Pop

variable {h : Hdr} {o : Ops} {w : Bool} {lsel q : BitVec 4} {s : State} {x : Queue} (hg : (Ix.of s h).g ≠ 0)
  (hx : (s.cast (s.castOf (Ix.of s h).x)).queue q.toNat = x)
  (hAllows : Allows x [1, 5] (if w then 8 else 4) ((Ix.of s h).elements o.d).length)

/-- The element that a lane gets of those at the head of a queue: the lanes take them in their order (R65). -/
def Ix.headOf (i : Ix) (q : BitVec 4) (d : Opnd) (l : Nat) : Val :=
  ((i.s.cast (i.s.castOf i.x)).heads q.toNat (i.elements d).length).getD ((lanesOf i.g).idxOf l) .zero

include hg hx hAllows

/-- A pop that writes its elements and goes on. -/
theorem run_popBody {bit : Bool} (hHeld : ((Ix.of s h).elements o.d).length ≤ x.count)
    (hRing : RingFree (Ix.of s h) false x x.head ((Ix.of s h).elements o.d).length) :
    let i := Ix.of s h
    ∃ t, i.run (i.popBody q o.d w bit) = t ∧ t.cast (s.castOf i.x) = (s.cast (s.castOf i.x)).pop q.toNat (i.elements o.d).length ∧
      Gets t i o.d (bwTy w) (i.headOf q o.d) ∧ WentOn s t i ∧ KeptQueue s t i := by
  intro i
  obtain ⟨hUsed, hCast, hGets⟩ := popped_write hg q o.d (bwTy w)
  obtain ⟨hWent, hKept⟩ := (hUsed.countUse (dropsMark o.d && _)).done
  refine ⟨_, ?run, ?cast, gets_done (gets_countUse _ hGets), hWent, hKept⟩
  case run =>
    rw [Ix.popBody, popFrom_ok hx hAllows hHeld hRing, ok_bind]
    exact run_ok _ _ hg
  case cast => exact Eq.trans (congrArg (State.cast · (s.castOf i.x)) (countUse_rest i _ _) :) hCast

/-- A pop that writes its elements and reports that there were enough. -/
theorem run_popReportBody {d2 : Opnd} (hne : o.d ≠ d2) (hHeld : ((Ix.of s h).elements o.d).length ≤ x.count)
    (hRing : RingFree (Ix.of s h) false x x.head ((Ix.of s h).elements o.d).length) :
    let i := Ix.of s h
    ∃ t, i.run (i.popReportBody q o.d d2 w x) = t ∧
      t.cast (s.castOf i.x) = (s.cast (s.castOf i.x)).pop q.toNat (i.elements o.d).length ∧
      Gets t i o.d (bwTy w) (i.headOf q o.d) ∧ WentOn s t i ∧ KeptQueue s t i ∧ GetsPred t i d2 fun _ => true := by
  intro i
  obtain ⟨hUsed, hCast, hGets⟩ := popped_write hg q o.d (bwTy w)
  obtain ⟨hWent, hKept⟩ := ((hUsed.countUse (dropsMark o.d && _)).writePred d2 i.g).done
  refine ⟨_, ?run, ?cast, gets_done (gets_writePred hne _ (gets_countUse _ hGets)), hWent, hKept,
    getsPred_of_hoist (done_hoist ..) (getsPred_all i _ d2)⟩
  case run =>
    rw [Ix.popReportBody, if_neg (Nat.not_lt.2 hHeld), popFrom_ok hx hAllows hHeld hRing, ok_bind]
    exact run_ok _ _ hg
  case cast =>
    exact Eq.trans (congrArg (State.cast · (s.castOf i.x)) (writePred_rest i _ d2 i.g i.g) :)
      (Eq.trans (congrArg (State.cast · (s.castOf i.x)) (countUse_rest i _ _) :) hCast)

variable (ha : o.a = .q q) (hDest : (Ix.of s h).isEmpty o.d (Ty.regs (bwTy w)) = false) (hAnchor : s.atAnchor (Ix.of s h).x = true)
include ha hDest hAnchor

/-- DEQ that finds too few elements reports it, waits, or traps as its empty bit says (R269). -/
theorem deq_few (nb : Bool) (hFew : x.count < ((Ix.of s h).elements o.d).length) :
    let i := Ix.of s h
    (nb = true → ∃ t, exec (.deq h o w nb lsel) s = .next t ∧ GetsPred t i o.d2 (fun _ => false) ∧ WentOn s t i ∧ KeptQueue s t i ∧
      t.cast (s.castOf i.x) = s.cast (s.castOf i.x)) ∧
    (nb = false → h.ea = false → exec (.deq h o w nb lsel) s = .next (s.setFrag i.f (i.x.waitAt i.e.prio i.e.pc (.queue q)))) ∧
    (nb = false → h.ea = true → Trappable i → ∃ t, exec (.deq h o w nb lsel) s = .next t ∧ Enters s t i Cause.empty 0 i.g) := by
  intro i
  have hStop (hWaits : nb = false) : exec (.deq h o w nb lsel) s =
      .next (i.run (.error (if h.ea then .trap Cause.empty 0 i.g else .wait (.queue q)))) := by
    rw [hWaits, exec_deq ha hDest hAnchor, Ix.popBody, popFrom_few hx hAllows hFew, error_bind]
  refine ⟨?reports, ?waits, ?traps⟩
  case reports =>
    rintro rfl
    refine ⟨_, (exec_deq_nb ha hDest hAnchor hx hAllows).trans (congrArg _ ?_), reported_none s h o.d2⟩
    rw [Ix.popReportBody, if_pos hFew]
    exact run_ok _ _ hg
  case waits =>
    intro hWaits hBit
    rw [hStop hWaits, hBit]
    exact congrArg _ (run_wait hg _)
  case traps =>
    intro hWaits hBit hTrap
    refine ⟨_, hStop hWaits, ?_⟩
    rw [hBit]
    exact run_trap_enters hg hTrap _ _ _

end Pop

/-! ### Bindings -/

section Bind

variable {h : Hdr} {o : Ops} {q : BitVec 4} {s : State} {x old : Queue} (hg : (Ix.of s h).g ≠ 0)
  (hOld : (s.cast (s.castOf (Ix.of s h).x)).queue q.toNat = old)
include hg hOld

/-- A binding word replaces what the queue was, unless that was a command queue with elements (R64, R268). -/
theorem run_bindBody (hIdle : old.kind = 2 ∨ old.kind = 3 ∨ old.kind = 4 → old.count = 0) :
    let i := Ix.of s h
    ∃ t, i.run (i.bindBody q o.a x) = t ∧ WentOn s t i ∧ KeptQueue s t i ∧ t.hoists = s.hoists ∧
      t.cast (s.castOf i.x) = (s.cast (s.castOf i.x)).setQueue q.toNat (if x.kind = 0 then .unbound else x) := by
  intro i
  have hFree : ((engineOf old.kind).isSome && decide (old.count ≠ 0)) = false := by
    cases hEngine : (engineOf old.kind).isSome
    · rfl
    · rw [hIdle ((engineOf_isSome _).1 hEngine)]
      rfl
  have hQueue : (i.s.cast (i.s.castOf i.x)).queue q.toNat = old := hOld
  obtain ⟨hWent, hKept⟩ := ((QueueUsed.modCast s i fun c => c.setQueue q.toNat (if x.kind = 0 then .unbound else x)).countUse
    (i.poisonLanes o.a 1 i.g ≠ 0)).done
  refine ⟨_, ?run, hWent, hKept, (congrArg State.hoists (countUse_rest i _ _) :), ?cast⟩
  case run =>
    simp only [Ix.bindBody, hQueue, hFree, guardStop_false, ok_bind]
    exact run_ok _ _ hg
  case cast =>
    refine Eq.trans (congrArg (State.cast · (s.castOf i.x)) (countUse_rest i _ _) :) ?_
    rw [modCast_cast, if_pos rfl]

theorem run_bindBody_held (hEngine : old.kind = 2 ∨ old.kind = 3 ∨ old.kind = 4) (hCount : old.count ≠ 0) :
    let i := Ix.of s h
    i.run (i.bindBody q o.a x) = s.setFrag i.f (i.x.waitAt i.e.prio i.e.pc (.queue q)) := by
  intro i
  have hHeld : ((engineOf old.kind).isSome && decide (old.count ≠ 0)) = true := by
    rw [(engineOf_isSome _).2 hEngine, decide_eq_true hCount]
    rfl
  have hQueue : (i.s.cast (i.s.castOf i.x)).queue q.toNat = old := hOld
  simp only [Ix.bindBody, hQueue, hHeld, guardStop_true, error_bind]
  exact run_wait hg _

end Bind

/-! ### The obligation -/

/-- Settles O36: a ring takes and gives its elements in order, by induction on the elements pushed; the instructions push and pop it at
the anchor, and stop at the first of their checks that fails. -/
theorem queuesAndTheirInstructions : Obligations.QueuesAndTheirInstructions := by
  unfold Obligations.QueuesAndTheirInstructions
  refine ⟨⟨fun c q vs hx hRoom => push_ring q vs c hx hRoom, pop_ring, fun w => ringOk_of_binding⟩, ?push, ?pop, ?stat, ?bind⟩
  case push =>
    intro h o w nb lsel q hd s i c x vs hg hReads hAnchor
    have hLength : vs.length = (i.elements o.a).length := List.length_map _
    rw [hLength]
    refine ⟨?made, fun hAllows hFull => enq_full hd hg hReads hAnchor rfl hAllows nb hFull, ?bad⟩
    case made =>
      intro hAllows hRoom hRing hEngine hTiles
      obtain ⟨u, hPush, hUsed, hHoists, hCast⟩ := pushTo_ok (i := i) rfl hAllows hRoom hRing hEngine hTiles
      obtain ⟨t, hExec, hEnq, hEnds⟩ := enq_pushed hd hg hReads hAnchor rfl hAllows nb hRoom hPush hUsed hHoists (lsel := lsel)
      obtain ⟨hWent, hKept⟩ := hUsed.done
      exact ⟨⟨t, hExec, hEnq.trans hCast, hEnds⟩, i.done u,
        (exec_mov_push hd hReads hAnchor).trans (congrArg _ (run_pushBody hg hPush)), hCast, hWent, hKept, hHoists⟩
    case bad =>
      intro hBad hTrap
      exact ⟨_, exec_enq_bad hd hReads hAnchor rfl nb hBad, run_trap_enters hg hTrap _ _ _⟩
  case pop =>
    intro h o w nb lsel q ha s i c x n ty got hg hDest hAnchor hNot
    refine ⟨?made, fun hAllows hFew => deq_few hg rfl hAllows ha hDest hAnchor nb hFew⟩
    intro hAllows hHeld hRing
    obtain ⟨t, hRun, hCast, hGets, hWent, hKept⟩ := run_popBody (bit := h.ea) hg rfl hAllows hHeld hRing
    constructor
    · intro hne
      cases nb with
      | false =>
        exact ⟨t, (exec_deq ha hDest hAnchor).trans (congrArg _ hRun), hCast, hGets, hWent, hKept, nofun⟩
      | true =>
        obtain ⟨u, hReport, hCast', hGets', hWent', hKept', hPred⟩ :=
          run_popReportBody hg rfl hAllows (hne.resolve_right Bool.noConfusion) hHeld hRing
        exact ⟨u, (exec_deq_nb ha hDest hAnchor rfl hAllows).trans (congrArg _ hReport), hCast', hGets', hWent', hKept', fun _ => hPred⟩
    · exact ⟨t, (exec_mov_pop ha hDest hAnchor hNot).trans (congrArg _ hRun), hCast, hGets, hWent, hKept⟩
  case stat =>
    intro h o f lsel q ha s i x ty hg hDest hAnchor
    obtain ⟨t, hExec, hGets, hKept, hWent⟩ := finish_yields hg (exec_qstat ha hg hDest hAnchor)
    exact ⟨t, hExec, hKept, hWent, hGets⟩
  case bind =>
    intro h o lsel q hd s i c w x old hg hReads hAnchor
    refine ⟨?bound, ?held, ?bad⟩
    case bound =>
      intro hGood hFits hIdle
      obtain ⟨t, hRun, hEnds⟩ := run_bindBody (o := o) (x := x) hg rfl hIdle
      exact ⟨t, (exec_enqBind hd hReads hAnchor rfl hGood hFits).trans (congrArg _ hRun), hEnds⟩
    case held =>
      intro hGood hFits hEngine hCount
      exact (exec_enqBind hd hReads hAnchor rfl hGood hFits).trans (congrArg _ (run_bindBody_held hg rfl hEngine hCount))
    case bad =>
      intro hBad hTrap
      exact ⟨_, exec_enqBind_bad hd hReads hAnchor rfl hBad, run_trap_enters hg hTrap _ _ _⟩

end Sys2Proof.Machine
end

section
/-! O55: the bytes of a number, the word of its fields (R5, R76, R79 to R81), and what the decoder takes from them. -/

namespace Sys2Proof

/-! ### Bytes of a number -/

theorem valBytes_bytesVal : ∀ l : List Byte, valBytes l.length (bytesVal l) = l
  | [] => rfl
  | b :: t => by
    have hb : b.toNat < 256 := b.isLt
    have hHead : BitVec.ofNat 8 (bytesVal (b :: t)) = b := by
      apply BitVec.eq_of_toNat_eq
      rw [BitVec.toNat_ofNat, bytesVal]
      omega
    have hTail : bytesVal (b :: t) / 256 = bytesVal t := by
      rw [bytesVal]
      omega
    rw [List.length_cons, valBytes, hHead, hTail, valBytes_bytesVal t]

theorem bytesVal_lt : ∀ l : List Byte, bytesVal l < 256 ^ l.length
  | [] => Nat.one_pos
  | b :: t => by
    have hb : b.toNat < 256 := b.isLt
    have ht := bytesVal_lt t
    rw [bytesVal, List.length_cons, Nat.pow_succ]
    omega

/-- The lowest bits of the number are those of the first byte. -/
theorem extractLsb'_bytesVal (b : Byte) (t : List Byte) :
    (BitVec.ofNat 128 (bytesVal (b :: t))).extractLsb' 0 2 = b.extractLsb' 0 2 := by
  apply BitVec.eq_of_toNat_eq
  simp only [BitVec.extractLsb'_toNat, BitVec.toNat_ofNat, Nat.shiftRight_zero, bytesVal]
  omega

/-! ### The word of the fields -/

theorem code_ofCode {c : BitVec 2} {f : Form} (h : Form.ofCode c = some f) : c = f.code := by
  unfold Form.ofCode at h
  split at h
  · next h0 => cases h; exact h0
  · split at h
    · next h1 => cases h; exact h1
    · split at h
      · next h2 => cases h; exact h2
      · cases h

theorem ofBool_getLsbD (w : BitVec 128) (k : Nat) : BitVec.ofBool (w.getLsbD k) = w.extractLsb' k 1 := by
  apply BitVec.eq_of_getLsbD_eq
  intro i hi
  obtain rfl : i = 0 := by omega
  simp

/-- The bits of a number above its length are zero. -/
theorem getLsbD_above {w : BitVec 128} {n : Nat} (hw : w.toNat < 2 ^ n) (k : Nat) (h : n ≤ k) : w.getLsbD k = false := by
  rw [← BitVec.testBit_toNat]
  exact Nat.testBit_lt_two_pow (hw.trans_le (Nat.pow_le_pow_right (by omega) h))

theorem extractLsb'_above {w : BitVec 128} {n : Nat} (hw : w.toNat < 2 ^ n) (s len : Nat) (h : n ≤ s) : w.extractLsb' s len = 0#len := by
  apply BitVec.eq_of_getLsbD_eq
  intro i _
  simp [getLsbD_above hw (s + i) (by omega)]

/-- The fields that a form lacks are those of the zero bits above its word (R79 to R81). -/
theorem ofWord_eq (f : Form) (w : BitVec 128) (hw : w.toNat < 2 ^ (8 * f.bytes)) :
    Fields.ofWord f w = { Fields.ofWord .f128 w with form := f } := by
  have hField := extractLsb'_above hw
  have hBit := getLsbD_above hw
  cases f with
  | f64 =>
    simp only [Fields.ofWord, hField 64 8 (by decide), hField 72 3 (by decide), hField 75 4 (by decide),
      hField 79 8 (by decide), hField 88 8 (by decide), hField 96 32 (by decide), hBit 87 (by decide)]
    rfl
  | f96 =>
    simp only [Fields.ofWord, hField 96 32 (by decide)]
    rfl
  | f128 => rfl

theorem word_ofWord {f : Form} {w : BitVec 128} (hw : w.toNat < 2 ^ (8 * f.bytes)) (hf : w.extractLsb' 0 2 = f.code) :
    (Fields.ofWord f w).word = w := by
  rw [ofWord_eq f w hw]
  simp only [Fields.word, Fields.ofWord, ofBool_getLsbD, ← hf, reduceCtorEq, decide_true,
    Bool.true_and, if_true, ne_eq, not_false_eq_true]
  simp only [BitVec.extractLsb'_append_extractLsb'_eq_extractLsb']
  exact BitVec.extractLsb'_eq_self

/-! ### What decodes -/

/-- What the decoder reads from fields is a well-formed term with those fields. -/
theorem fields_of_decode {f : Fields} {i : Instr} (h : f.decode = .ok i) : WellFormed i ∧ i.fields = some f := by
  simp only [Fields.decode, bind, Except.bind] at h
  split at h
  · cases h
  split at h
  · cases h
  split at h
  · cases h
  split at h
  · cases h
  split at h
  · cases h
  next hOk =>
    split at h
    · cases h
    next g hFields =>
      split at h
      · next hSame =>
        cases h
        exact ⟨hOk, hSame ▸ hFields⟩
      · cases h

/-- What the decoder reads from bytes it reads from the fields of the word that the first of them make, as many as LEN says. -/
theorem word_of_decode {bs : List Byte} {i : Instr} (h : decode bs = .ok i) : ∃ f : Form, f.bytes ≤ bs.length ∧
    (BitVec.ofNat 128 (bytesVal (bs.take f.bytes))).extractLsb' 0 2 = f.code ∧
    (Fields.ofWord f (BitVec.ofNat 128 (bytesVal (bs.take f.bytes)))).decode = .ok i := by
  cases bs with
  | nil => cases h
  | cons b t =>
    simp only [decode] at h
    split at h
    · cases h
    · next f hForm =>
      split at h
      · cases h
      · next hLong =>
        obtain ⟨n, hn⟩ : ∃ n, f.bytes = n + 1 := by cases f <;> exact ⟨_, rfl⟩
        refine ⟨f, by omega, ?_, h⟩
        rw [hn, List.take_succ_cons, extractLsb'_bytesVal, code_ofCode hForm]

/-- The word of the fields that bytes make has those bytes (R5, R79 to R81). -/
theorem valBytes_word {f : Form} {l : List Byte} (hLength : l.length = f.bytes)
    (hForm : (BitVec.ofNat 128 (bytesVal l)).extractLsb' 0 2 = f.code) :
    valBytes f.bytes (Fields.ofWord f (BitVec.ofNat 128 (bytesVal l))).word.toNat = l := by
  have hVal : bytesVal l < 2 ^ (8 * f.bytes) := by
    have hLt := bytesVal_lt l
    rwa [hLength, show 256 = 2 ^ 8 from rfl, ← Nat.pow_mul] at hLt
  have hNat : (BitVec.ofNat 128 (bytesVal l)).toNat = bytesVal l :=
    (BitVec.toNat_ofNat ..).trans (Nat.mod_eq_of_lt (hVal.trans_le (Nat.pow_le_pow_right (by omega) (by cases f <;> decide))))
  rw [word_ofWord (hNat.symm ▸ hVal) hForm, hNat, ← hLength, valBytes_bytesVal]

/-- Settles O55: the decoder takes a term only where its fields are those of the word, and the bits of the word are its fields. -/
theorem decodeThenEncode : Obligations.DecodeThenEncode := by
  intro bs i h
  obtain ⟨f, hLong, hForm, hFields⟩ := word_of_decode h
  obtain ⟨hWell, hSome⟩ := fields_of_decode hFields
  have hAccepts : accepts i = none := hWell
  refine ⟨hWell, bs.take f.bytes, ?_, List.take_prefix ..⟩
  simp only [encode, hAccepts, hSome]
  exact congrArg some (valBytes_word (List.length_take_of_le hLong) hForm)

end Sys2Proof
end

section
/-! O56: the words that the manual writes out, by the model's own tests of the decoder (R93). -/

namespace Sys2Proof

/-- A word that the tests find to be an instruction decodes to it. -/
theorem decode_of_wordIs {n w : Nat} {i : Instr} (h : Tests.wordIs n w i = true) : decode (valBytes n w) = .ok i := of_decide_eq_true h

theorem decode_ne_ok {bs : List Byte} (h : (decode bs).toOption = none) (i : Instr) : decode bs ≠ .ok i := by
  intro hOk
  rw [hOk] at h
  cases h

/-- A guard that negates p0 is a guard like any other (R86). -/
theorem decode_nop_negated : decode (valBytes 8 0x4348) = .ok (.nop { Tests.hd .f64 with gn := true } Tests.no) := by decide +kernel

/-- Settles O56: each word is one that the decoder has been run on. -/
theorem specWordsDecode : Obligations.SpecWordsDecode := by
  obtain ⟨hLength, hMajor, hSpecifier, hShort⟩ := Tests.test_decode_refuses
  exact ⟨decode_of_wordIs Tests.test_decode_integer, decode_of_wordIs Tests.test_decode_compare,
    decode_of_wordIs Tests.test_decode_load, decode_of_wordIs Tests.test_decode_float, decode_of_wordIs Tests.test_decode_matrix,
    decode_of_wordIs Tests.test_decode_branch, decode_of_wordIs Tests.test_decode_system, decode_of_wordIs Tests.test_decode_nop,
    decode_nop_negated, decode_ne_ok hLength, decode_ne_ok hMajor, decode_ne_ok hSpecifier, decode_ne_ok hShort⟩

end Sys2Proof
end

section
/-! O58: an instruction without a guard-true lane (R86, R87). -/

namespace Sys2Proof.Machine
open Sys2Proof.Claims

theorem run_idle {i : Ix} (hg : i.g = 0) (body : Except Stop State) : i.run body = i.done i.s := if_pos hg

theorem runIf_idle {i : Ix} (hg : i.g = 0) (ok : Bool) (body : Except Stop State) :
    i.runIf ok body = i.done i.s ∨ i.runIf ok body = i.illegal := by
  cases ok with
  | true => exact .inl (run_idle hg body)
  | false => exact .inr rfl

theorem illegal_or_idle {i : Ix} (hg : i.g = 0) (bad : Bool) (body : Except Stop State) :
    (if bad then .next i.illegal else .next (i.run body) : Host.Outcome State Fault Refusal) = .next (i.done i.s) ∨
      (if bad then .next i.illegal else .next (i.run body) : Host.Outcome State Fault Refusal) = .next i.illegal := by
  cases bad with
  | true => exact .inr rfl
  | false => exact .inl (congrArg Host.Outcome.next (run_idle hg body))

/-- Going on alone changes nothing but the place where the entry's lanes are. -/
theorem done_only (s : State) (h : Hdr) : Kept s ((Ix.of s h).done s) (Ix.of s h) [] ∧ WentOn s ((Ix.of s h).done s) (Ix.of s h) :=
  have hSame : PredsWritten (Ix.of s h) [] s s := .refl s
  ⟨hSame.kept false, hSame.wentOn false⟩

theorem part_of_ne_gate {i : Ix} {p : Pct} (h : p.code.extractLsb' 0 2 ≠ Merge.gate.code) : i.part p = i := by
  obtain ⟨m, inv⟩ := p
  cases m with
  | gate => cases inv <;> exact absurd rfl h
  | _ => rfl

theorem run_part_idle {i : Ix} {p : Pct} (h : p.code.extractLsb' 0 2 ≠ Merge.gate.code) (hg : i.g = 0) (body : Except Stop State) :
    (i.part p).run body = i.done i.s := by
  rw [part_of_ne_gate h]
  exact run_idle hg body

/-- What an instruction without a guard-true lane does (R86). -/
theorem exec_idle {n : Instr} {h : Hdr} {o : Ops} {s : State} (hHead : n.head = some (h, o))
    (hGate : ∀ c, n.code = some c → c.pct.extractLsb' 0 2 ≠ Merge.gate.code) (hg : (Ix.of s h).g = 0) :
    exec n s = .next ((Ix.of s h).done s) ∨ (maybeIllegal n = true ∧ exec n s = .next (Ix.of s h).illegal) := by
  cases n with
  | nop => cases hHead; exact .inl rfl
  | iadd | isub | iaddc | isubb | ineg | iabs | imin | imax | imul24 | imad24 | imul | imulhi | imad | idot4 | isad | iclamp
  | and | or | xor | not | andn | bool3 | shl | shr | sar | rotl | funnel | bfe | bfi | popc | clz | brev | ctz
  | sel | add64 | sub64 | lea | shl64 | shr64 | rdlane | wrlane | xlane | bfly | pmask | scan | lfold | matchKeys
  | fadd | fsub | fmul | ffma | fmin | fmax | frnd | frcp | frsq | fsqrt | fexp2 | flog2 | fsin | fcos | ftanh | fdiv | fldexp
  | pkadd | pkmul | pkfma | pkmin | pkmax | pkcmp | fdot2 | fdot4 | cvt | pack8 | pack4 | unpack8 | unpack4 | bscale | hash32
  | mma | mmas | mmal | lutb | comp48 | aclr | alds | asts | amrg | mbind | mfree | mwait | ard
  | ld | st | lds | sts | ldx | stx | atom | atoms | red | cas | fence | waita | poll | home | go | goAnchor
  | cpy | puts | bkop | coll | enq | enqBind | deq | qstat
  | bra | brx | call | callx | ret | loop | join | leave | waitm | mset | emset | bar | yield | exit | raise
  | pour | pourw | trap | bkpt | sleep | park | unpark =>
    cases hHead
    exact .inl (congrArg _ (run_idle hg _))
  | icmp | icmp64 | pbool | ltest | fcmp =>
    cases hHead
    exact .inl (congrArg _ (run_part_idle (hGate _ rfl) hg _))
  | fclass _ _ _ val =>
    cases hHead
    cases val with
    | true => exact .inl (congrArg _ (run_idle hg _))
    | false => exact .inl (congrArg _ (run_part_idle (hGate _ rfl) hg _))
  | mov _ _ w lsel =>
    cases hHead
    left
    change execMov h o w lsel s = _
    unfold execMov
    split <;> exact congrArg _ (run_idle hg _)
  | movi _ _ _ hi =>
    cases hHead
    cases hi <;> exact .inl (congrArg _ (run_idle hg _))
  | pmov _ _ mode =>
    cases hHead
    cases mode <;> exact .inl (congrArg _ (run_idle hg _))
  | movs | rep =>
    cases hHead
    exact (illegal_or_idle hg _ _).imp_right fun hIllegal => ⟨rfl, hIllegal⟩
  | movspRead | movspWrite | rft | tlbinv | icinv | govset | errrd | halt | preq | kill =>
    cases hHead
    exact (runIf_idle hg _ _).imp (congrArg _) fun hIllegal => ⟨rfl, congrArg _ hIllegal⟩
  | _ => cases hHead

/-- Settles O58: without a guard-true lane an instruction goes on as it is, or is ILLEGAL for its whole entry. -/
theorem guardFalseOnlyAdvances : Obligations.GuardFalseOnlyAdvances := by
  intro n h o s i hHead hGate hg
  rcases exec_idle hHead hGate hg with hDone | ⟨hMay, hIllegal⟩
  · exact ⟨_, hDone, .inl (done_only s h)⟩
  · exact ⟨_, hIllegal, .inr ⟨hMay, rfl⟩⟩

end Sys2Proof.Machine
end

section
/-! SUPPORT. O24 fails as it is stated, for the reason for which O25 does: it does not say that the keys of the table of fragments are
distinct. In the state of the refutation one number stands for a fragment of hoist 0, whose lane issues BAR, and for one of hoist 1;
hoist 1 has a wait at the barrier, from the same address to another, and when the barrier opens that wait, the older one, takes the lane. -/

namespace Sys2Proof.Machine
open Sys2Proof.Claims

/-- Lane 0 is all of fragment 0, and issues at 0x10000. -/
def oneLane : Frag :=
  { Tests.base.frag 0 with lanes := 1, entries := [{ prio := 0, pc := 0x10000, mask := 1, wait := none }] }

/-- A barrier that opens with one arrival, and at which hoist 1 waits. -/
def olderWait : Barrier :=
  { arrived := [], waits := [{ hoist := 1, pc := 0x10000, next := 0x20000, lanes := 1 }], count := some 1 }

/-- The number 0 stands for fragments of hoists 0 and 1. -/
def doubledAtBar : State :=
  { Tests.base.modCast 0 fun c => { c with bars := [(0, olderWait)] } with
    frags := [(0, oneLane), (0, { oneLane with hoist := 1 })]
    iss := { frag := 0, prio := 0, pc := 0x10000 } }

/-- Where fragment 0 stands after a step. -/
def placesAfter (r : Host.Outcome State Fault Refusal) : List Entry :=
  match r with
  | .next t => (t.frag 0).entries ++ (t.frag 0).atEnd
  | _ => []

/-- BAR of lane 0 opens the barrier, and the lane goes on where the wait of hoist 1 goes, to 0x20000. -/
theorem placesAfter_bar_doubledAtBar : placesAfter (exec (.bar (Tests.hd .f64) Tests.no 0 false) doubledAtBar) =
    [{ prio := 0, pc := 0x20000, mask := 1, wait := none }] := by decide +kernel

/-- Refutes O24: the clause about the lanes that wait when the barrier opens (R352) fails where the table of fragments lists one number
twice. BAR under SYNC of lane 0 of fragment 0, on hoist 0, opens a barrier at which hoist 1 waits; the second fragment of that number is
of hoist 1, so that the opening moves lane 0 to 0x20000, the next PC of that wait, and not to its own, 0x10008. -/
theorem not_barriersAndPauses : ¬ Obligations.BarriersAndPauses := by
  unfold Obligations.BarriersAndPauses
  rintro ⟨hBar, -⟩
  obtain ⟨-, hOpens, -⟩ := hBar (Tests.hd .f64) Tests.no 0 false doubledAtBar (by decide +kernel)
    (Tests.readable_clean (by decide +kernel) _ _) (by decide +kernel) (by decide +kernel) (by decide +kernel) (by decide +kernel)
    (by decide +kernel)
  obtain ⟨t, ht, -, -, -, -, -, hPass, -⟩ := hOpens (by decide +kernel) (by decide +kernel)
  have hPlaces : (t.frag 0).entries ++ (t.frag 0).atEnd = [{ prio := 0, pc := 0x20000, mask := 1, wait := none }] := by
    have h := placesAfter_bar_doubledAtBar
    rw [ht] at h
    exact h
  have hNext := hPass rfl (by decide +kernel) (by decide +kernel) (by decide +kernel) 0 (by decide +kernel)
  have hFrag : (Ix.of doubledAtBar (Tests.hd .f64)).f = 0 := by decide +kernel
  rw [hFrag, hPlaces] at hNext
  revert hNext
  decide +kernel

end Sys2Proof.Machine
end

section
/-! O9, first part: the exact arithmetic of values (R127), as the arithmetic of the rationals they stand for. -/

namespace Sys2Proof.Machine

/-! ### Values as rationals -/

theorem ratOf_false (m : Nat) (e : Int) : FV.ratOf false m e = m * (2 : ℚ) ^ e := by simp [FV.ratOf]

theorem ratOf_true (m : Nat) (e : Int) : FV.ratOf true m e = -(m * (2 : ℚ) ^ e) := by simp [FV.ratOf]

@[simp] theorem ratOf_zero (neg : Bool) (e : Int) : FV.ratOf neg 0 e = 0 := by simp [FV.ratOf]

theorem ratOf_not (neg : Bool) (m : Nat) (e : Int) : FV.ratOf (!neg) m e = -FV.ratOf neg m e := by
  cases neg <;> simp [ratOf_false, ratOf_true]

theorem ratOf_false_nonneg (m : Nat) (e : Int) : 0 ≤ FV.ratOf false m e := by rw [ratOf_false]; positivity

theorem abs_ratOf (neg : Bool) (m : Nat) (e : Int) : |FV.ratOf neg m e| = FV.ratOf false m e := by
  cases neg
  · exact abs_of_nonneg (ratOf_false_nonneg m e)
  · rw [← Bool.not_false, ratOf_not, abs_neg, abs_of_nonneg (ratOf_false_nonneg m e)]

/-- A mantissa in units of a smaller power of two. -/
theorem mul_zpow_of_le {e k : Int} (m : Nat) (h : k ≤ e) : (m : ℚ) * 2 ^ e = ((m * 2 ^ (e - k).toNat : Nat) : ℚ) * 2 ^ k := by
  obtain ⟨n, rfl⟩ := Int.le.dest h
  rw [zpow_add₀ two_ne_zero, add_sub_cancel_left, Int.toNat_natCast]
  push_cast
  rw [zpow_natCast]
  ring

/-- A mantissa in units of a larger power of two, as a fraction. -/
theorem mul_zpow_eq_div {e q : Int} (m : Nat) (h : e ≤ q) : (m : ℚ) * 2 ^ e = m / ((2 ^ (q - e).toNat : Nat) : ℚ) * 2 ^ q := by
  obtain ⟨n, rfl⟩ := Int.le.dest h
  rw [zpow_add₀ two_ne_zero, add_sub_cancel_left, Int.toNat_natCast, zpow_natCast]
  push_cast
  field_simp

/-- A mantissa in units of a smaller power of two, with its sign. -/
theorem signedAt_mul_zpow {neg : Bool} {m : Nat} {e k : Int} (h : k ≤ e) : (signedAt neg m e k : ℚ) * 2 ^ k = FV.ratOf neg m e := by
  have hMag := mul_zpow_of_le m h
  push_cast at hMag
  cases neg
  · simp [signedAt, ratOf_false, hMag]
  · simp [signedAt, ratOf_true, hMag]

theorem ratOf_natAbs (x c : Int) : FV.ratOf (decide (x < 0)) x.natAbs c = x * (2 : ℚ) ^ c := by
  rcases lt_or_ge x 0 with hx | hx
  · simp [hx, ratOf_true, Nat.cast_natAbs, abs_of_neg]
  · simp [hx.not_gt, ratOf_false, Nat.cast_natAbs, abs_of_nonneg hx]

/-! ### Sums and products -/

/-- The integer sum of two values in units of the smaller of their powers of two. -/
def sumAt (a : Bool) (m : Nat) (e : Int) (b : Bool) (n : Nat) (k : Int) : Int :=
  signedAt a m e (min e k) + signedAt b n k (min e k)

theorem sumAt_mul_zpow (a : Bool) (m : Nat) (e : Int) (b : Bool) (n : Nat) (k : Int) :
    (sumAt a m e b n k : ℚ) * 2 ^ min e k = FV.ratOf a m e + FV.ratOf b n k := by
  rw [sumAt, Int.cast_add, add_mul, signedAt_mul_zpow (min_le_left e k), signedAt_mul_zpow (min_le_right e k)]

theorem sumAt_eq_zero_iff (a : Bool) (m : Nat) (e : Int) (b : Bool) (n : Nat) (k : Int) :
    sumAt a m e b n k = 0 ↔ FV.ratOf a m e + FV.ratOf b n k = 0 := by
  rw [← sumAt_mul_zpow, mul_eq_zero, Int.cast_eq_zero]
  exact ⟨.inl, fun h => h.resolve_right (zpow_ne_zero _ two_ne_zero)⟩

theorem add_fin_of_eq_zero {a b : Bool} {m n : Nat} {e k : Int} (rdn : Bool) (h : FV.ratOf a m e + FV.ratOf b n k = 0) :
    FV.add rdn (.fin a m e) (.fin b n k) = .fin (rdn || (decide (m = 0 ∧ n = 0) && a && b)) 0 0 :=
  if_pos ((sumAt_eq_zero_iff a m e b n k).mpr h)

theorem add_fin_of_ne_zero {a b : Bool} {m n : Nat} {e k : Int} (rdn : Bool) (h : FV.ratOf a m e + FV.ratOf b n k ≠ 0) :
    FV.add rdn (.fin a m e) (.fin b n k) =
      .fin (decide (sumAt a m e b n k < 0)) (sumAt a m e b n k).natAbs (min e k) :=
  if_neg (mt (sumAt_eq_zero_iff a m e b n k).mp h)

theorem rat_add (rdn a : Bool) (m : Nat) (e : Int) (b : Bool) (n : Nat) (k : Int) :
    (FV.add rdn (.fin a m e) (.fin b n k)).rat = some (FV.ratOf a m e + FV.ratOf b n k) := by
  by_cases h : FV.ratOf a m e + FV.ratOf b n k = 0
  · rw [add_fin_of_eq_zero rdn h, FV.rat, ratOf_zero, h]
  · rw [add_fin_of_ne_zero rdn h, FV.rat, ratOf_natAbs, sumAt_mul_zpow]

/-- A difference is the sum with the opposite value, but for the sign of an exact zero (log 26). -/
theorem sub_fin_of_eq {a b : Bool} {m n : Nat} {e k : Int} (rdn : Bool) (h : FV.ratOf a m e = FV.ratOf b n k) :
    FV.sub rdn (.fin a m e) (.fin b n k) = .fin rdn 0 0 := by
  rw [FV.sub, FV.negate, add_fin_of_eq_zero rdn (by rw [ratOf_not, h, add_neg_cancel])]
  rfl

theorem sub_fin_of_ne {a b : Bool} {m n : Nat} {e k : Int} (rdn : Bool) (h : FV.ratOf a m e ≠ FV.ratOf b n k) :
    FV.sub rdn (.fin a m e) (.fin b n k) = FV.add rdn (.fin a m e) (.fin (!b) n k) := by
  have hSum : FV.ratOf a m e + FV.ratOf (!b) n k ≠ 0 := by
    rw [ratOf_not, ← sub_eq_add_neg]
    exact sub_ne_zero.mpr h
  rw [FV.sub, FV.negate, add_fin_of_ne_zero rdn hSum]
  exact if_neg (mt Int.natAbs_eq_zero.mp (mt (sumAt_eq_zero_iff a m e (!b) n k).mp hSum))

theorem rat_sub (rdn a : Bool) (m : Nat) (e : Int) (b : Bool) (n : Nat) (k : Int) :
    (FV.sub rdn (.fin a m e) (.fin b n k)).rat = some (FV.ratOf a m e - FV.ratOf b n k) := by
  by_cases h : FV.ratOf a m e = FV.ratOf b n k
  · rw [sub_fin_of_eq rdn h, FV.rat, ratOf_zero, h, sub_self]
  · rw [sub_fin_of_ne rdn h, rat_add, ratOf_not, sub_eq_add_neg]

theorem rat_mul (a : Bool) (m : Nat) (e : Int) (b : Bool) (n : Nat) (k : Int) :
    (FV.mul (.fin a m e) (.fin b n k)).rat = some (FV.ratOf a m e * FV.ratOf b n k) := by
  have hSign : (if (a != b) = true then (-1 : ℚ) else 1) = (if a then -1 else 1) * (if b then -1 else 1) := by
    cases a <;> cases b <;> simp
  rw [FV.mul, FV.rat, FV.ratOf, FV.ratOf, FV.ratOf, hSign, Nat.cast_mul, zpow_add₀ two_ne_zero]
  ring_nf

theorem rat_negate (a : Bool) (m : Nat) (e : Int) : (FV.negate (.fin a m e)).rat = some (-FV.ratOf a m e) :=
  congrArg some (ratOf_not a m e)

theorem rat_ldexp (a : Bool) (m : Nat) (e n : Int) :
    (FV.ldexp (.fin a m e) n).rat = some (FV.ratOf a m e * (2 : ℚ) ^ n) := by
  rw [FV.ldexp, FV.rat, FV.ratOf, FV.ratOf, zpow_add₀ two_ne_zero]
  ring_nf

/-! ### Special values -/

theorem add_nan (rdn : Bool) (x : FV) : FV.add rdn x .nan = .nan := by cases x <;> rfl

theorem mul_nan (x : FV) : FV.mul x .nan = .nan := by cases x <;> rfl

/-- The sign of a sum of zeros (log 26). -/
theorem neg_add_zeros (rdn a : Bool) (e : Int) (b : Bool) (k : Int) :
    (FV.add rdn (.fin a 0 e) (.fin b 0 k)).neg = (rdn || (a && b)) := by
  rw [add_fin_of_eq_zero rdn (by simp), FV.neg]
  simp

end Sys2Proof.Machine
end

section
/-! O9, second part: a code as the fields of its format (R114 to R117), MaxFinite among the values, and the code of a value that the
format holds (R124). -/

namespace Sys2Proof.Machine

/-! ### The fields of a code -/

/-- The code of a sign, an exponent field and a mantissa field. -/
def Fmt.pack (f : Fmt) (neg : Bool) (ex mant : Nat) : Nat := f.signBit neg + (ex * 2 ^ f.mbits + mant) * 2 ^ f.low

/-- Whether the exponent field and the mantissa field are of a finite value (R115, R117). -/
structure Fmt.FiniteFields (f : Fmt) (ex mant : Nat) : Prop where
  exponent : ex < 2 ^ f.ebits
  mantissa : mant < 2 ^ f.mbits
  notInf : f.hasInf = true → ex ≠ 2 ^ f.ebits - 1
  notNan : f = .e4m3 → ex = 15 → mant ≠ 7

section Fields

variable {f : Fmt} {neg : Bool} {ex mant : Nat}

theorem pack_eq (f : Fmt) (neg : Bool) (ex mant : Nat) :
    f.pack neg ex mant = 2 ^ f.low * (mant + 2 ^ f.mbits * (ex + 2 ^ f.ebits * neg.toNat)) := by
  cases neg <;> simp [Fmt.pack, Fmt.signBit, pow_add] <;> ring

theorem pack_div_low (f : Fmt) (neg : Bool) (ex mant : Nat) :
    f.pack neg ex mant / 2 ^ f.low = mant + 2 ^ f.mbits * (ex + 2 ^ f.ebits * neg.toNat) := by
  rw [pack_eq, Nat.mul_div_cancel_left _ (by positivity)]

theorem val_pack (hEx : ex < 2 ^ f.ebits) (hMant : mant < 2 ^ f.mbits) : f.val (f.pack neg ex mant) =
    if f.hasInf && ex = 2 ^ f.ebits - 1 then (if mant = 0 then .inf neg else .nan)
    else if f = .e4m3 && ex = 15 && mant = 7 then .nan
    else if ex = 0 then .fin neg mant (f.emin - f.mbits)
    else .fin neg (2 ^ f.mbits + mant) ((ex : Int) - f.bias - f.mbits) := by
  have hRest : (mant + 2 ^ f.mbits * (ex + 2 ^ f.ebits * neg.toNat)) / 2 ^ f.mbits = ex + 2 ^ f.ebits * neg.toNat := by
    rw [Nat.add_mul_div_left _ _ (by positivity), Nat.div_eq_of_lt hMant, Nat.zero_add]
  have hSign : (ex + 2 ^ f.ebits * neg.toNat) / 2 ^ f.ebits = neg.toNat := by
    rw [Nat.add_mul_div_left _ _ (by positivity), Nat.div_eq_of_lt hEx, Nat.zero_add]
  have hNeg : decide (neg.toNat % 2 = 1) = neg := by cases neg <;> rfl
  simp only [Fmt.val, pack_div_low, pow_add, ← Nat.div_div_eq_div_mul, hRest, hSign, hNeg, Nat.add_mul_mod_self_left,
    Nat.mod_eq_of_lt hMant, Nat.mod_eq_of_lt hEx]

theorem val_pack_of_finite (h : f.FiniteFields ex mant) : f.val (f.pack neg ex mant) =
    if ex = 0 then .fin neg mant (f.emin - f.mbits) else .fin neg (2 ^ f.mbits + mant) ((ex : Int) - f.bias - f.mbits) := by
  rw [val_pack h.exponent h.mantissa, if_neg (by simpa using h.notInf), if_neg (by simpa using h.notNan)]

/-- What is not of a finite value has no rational. -/
theorem finiteFields_of_rat (hEx : ex < 2 ^ f.ebits) (hMant : mant < 2 ^ f.mbits)
    (h : (f.val (f.pack neg ex mant)).rat.isSome = true) : f.FiniteFields ex mant := by
  rw [val_pack hEx hMant] at h
  refine ⟨hEx, hMant, fun hInf hTop => ?_, fun hFmt hTop hOnes => ?_⟩
  · by_cases h0 : mant = 0 <;> simp [hInf, hTop, h0, FV.rat] at h
  · subst hFmt hTop hOnes
    simp [Fmt.hasInf, FV.rat] at h

theorem infCode_eq_pack (f : Fmt) (neg : Bool) : f.infCode neg = f.pack neg (2 ^ f.ebits - 1) 0 := by
  rw [Fmt.infCode, Fmt.pack, pow_add]
  ring

theorem val_infCode (h : f.hasInf = true) (neg : Bool) : f.val (f.infCode neg) = .inf neg := by
  rw [infCode_eq_pack, val_pack (Nat.sub_lt (by positivity) Nat.one_pos) (by positivity), if_pos (by simp [h]), if_pos rfl]

theorem signBit_eq_pack (f : Fmt) (neg : Bool) : f.signBit neg = f.pack neg 0 0 := by simp [Fmt.pack]

theorem finiteFields_subnormal (hMant : mant < 2 ^ f.mbits) : f.FiniteFields 0 mant :=
  ⟨by positivity, hMant, fun hInf => by cases f <;> decide +revert, fun _ h => by omega⟩

theorem val_signBit (f : Fmt) (neg : Bool) : f.val (f.signBit neg) = .fin neg 0 (f.emin - f.mbits) := by
  rw [signBit_eq_pack, val_pack_of_finite (finiteFields_subnormal (by positivity)), if_pos rfl]

/-- Every code of the format's width, with zeros below the mantissa, has its fields. -/
theorem exists_pack {c : Nat} (hWidth : c < 2 ^ (f.low + f.mbits + f.ebits + 1)) (hLow : c % 2 ^ f.low = 0) :
    ∃ neg ex mant, ex < 2 ^ f.ebits ∧ mant < 2 ^ f.mbits ∧ c = f.pack neg ex mant := by
  obtain ⟨x, rfl⟩ := Nat.dvd_of_mod_eq_zero hLow
  have hx : x / 2 ^ f.mbits / 2 ^ f.ebits < 2 := by
    rw [Nat.div_div_eq_div_mul, ← pow_add]
    refine Nat.div_lt_of_lt_mul (Nat.lt_of_mul_lt_mul_left (a := 2 ^ f.low) ?_)
    calc 2 ^ f.low * x < 2 ^ (f.low + f.mbits + f.ebits + 1) := hWidth
      _ = 2 ^ f.low * (2 ^ (f.mbits + f.ebits) * 2) := by ring
  have hSign : (decide (x / 2 ^ f.mbits / 2 ^ f.ebits = 1)).toNat = x / 2 ^ f.mbits / 2 ^ f.ebits := by
    generalize x / 2 ^ f.mbits / 2 ^ f.ebits = y at hx ⊢
    interval_cases y <;> rfl
  refine ⟨decide (x / 2 ^ f.mbits / 2 ^ f.ebits = 1), x / 2 ^ f.mbits % 2 ^ f.ebits, x % 2 ^ f.mbits,
    Nat.mod_lt _ (by positivity), Nat.mod_lt _ (by positivity), ?_⟩
  rw [pack_eq, hSign, Nat.mod_add_div, Nat.mod_add_div]

end Fields

/-! ### MaxFinite -/

theorem maxFin_bounds (f : Fmt) : 2 ^ f.mbits ≤ f.maxFin.1 ∧ f.maxFin.1 < 2 ^ (f.mbits + 1) ∧ f.emin - f.mbits < f.maxFin.2 := by
  cases f <;> decide

theorem exceeds_iff (f : Fmt) (m : Nat) (e : Int) :
    f.exceeds m e = true ↔ (f.maxFin.1 : ℚ) * 2 ^ f.maxFin.2 < m * 2 ^ e := by
  rw [mul_zpow_of_le f.maxFin.1 (min_le_right e f.maxFin.2), mul_zpow_of_le m (min_le_left e f.maxFin.2), 
    mul_lt_mul_iff_left₀ (by positivity), Nat.cast_lt]
  exact decide_eq_true_iff

/-- A mantissa of full width outweighs a mantissa of at most that width with a smaller exponent. -/
theorem mul_zpow_lt_of_lt {w m n : Nat} {d e : Int} (hm : m < 2 ^ (w + 1)) (hn : 2 ^ w ≤ n) (h : d < e) :
    (m : ℚ) * 2 ^ d < n * 2 ^ e := by
  have hm' : (m : ℚ) < 2 ^ (w + 1) := mod_cast hm
  have hn' : (2 : ℚ) ^ w ≤ n := mod_cast hn
  calc (m : ℚ) * 2 ^ d < 2 ^ (w + 1) * 2 ^ d := by gcongr
    _ = 2 ^ w * 2 ^ (d + 1) := by rw [zpow_add_one₀ two_ne_zero]; ring
    _ ≤ n * 2 ^ e := by
      gcongr
      · exact one_le_two
      · exact h

/-- Mantissas of full width compare as their exponents, and then as they are. -/
theorem exceeds_normal_iff {f : Fmt} {n : Nat} (e : Int) (hLow : 2 ^ f.mbits ≤ n) (hHigh : n < 2 ^ (f.mbits + 1)) :
    f.exceeds n e = true ↔ f.maxFin.2 < e ∨ (e = f.maxFin.2 ∧ f.maxFin.1 < n) := by
  obtain ⟨hMaxLow, hMaxHigh, -⟩ := maxFin_bounds f
  rw [exceeds_iff]
  rcases lt_trichotomy e f.maxFin.2 with h | rfl | h
  · simp [(mul_zpow_lt_of_lt hHigh hMaxLow h).not_gt, h.not_gt, h.ne]
  · simp [mul_lt_mul_iff_left₀ (zpow_pos (two_pos (α := ℚ)) f.maxFin.2)]
  · simp [mul_zpow_lt_of_lt hMaxHigh hLow h, h]

theorem exceeds_subnormal {f : Fmt} {n : Nat} (hn : n < 2 ^ f.mbits) : f.exceeds n (f.emin - f.mbits) = false := by
  obtain ⟨hMaxLow, -, hMaxExp⟩ := maxFin_bounds f
  have hWide : n < 2 ^ (f.mbits + 1) := hn.trans (Nat.pow_lt_pow_succ Nat.one_lt_two)
  rw [← Bool.not_eq_true, exceeds_iff]
  exact (mul_zpow_lt_of_lt hWide hMaxLow hMaxExp).not_gt

theorem exceeds_maxFin (f : Fmt) : f.exceeds f.maxFin.1 f.maxFin.2 = false := by
  rw [← Bool.not_eq_true, exceeds_iff]
  exact lt_irrefl _

/-- A normal value exceeds MaxFinite exactly if its fields are not those of a finite value. -/
theorem exceeds_normal_eq_false_iff {f : Fmt} {ex mant : Nat} (hMant : mant < 2 ^ f.mbits) :
    f.exceeds (2 ^ f.mbits + mant) ((ex : Int) - f.bias - f.mbits) = false ↔ f.FiniteFields ex mant := by
  have hFields : f.FiniteFields ex mant ↔
      ex < 2 ^ f.ebits ∧ (f.hasInf = true → ex ≠ 2 ^ f.ebits - 1) ∧ (f = .e4m3 → ex = 15 → mant ≠ 7) :=
    ⟨fun ⟨hEx, _, hInf, hNan⟩ => ⟨hEx, hInf, hNan⟩, fun ⟨hEx, hInf, hNan⟩ => ⟨hEx, hMant, hInf, hNan⟩⟩
  rw [← Bool.not_eq_true, exceeds_normal_iff _ (Nat.le_add_right _ _) (by omega), hFields]
  cases f <;> simp [Fmt.maxFin, Fmt.mbits, Fmt.ebits, Fmt.bias, Fmt.hasInf] at hMant ⊢ <;> omega

/-! ### The code of a value that the format holds -/

theorem log2_two_pow_add {w m : Nat} (h : m < 2 ^ w) : Nat.log2 (2 ^ w + m) = w :=
  (Nat.log2_eq_iff (by positivity)).mpr ⟨Nat.le_add_right _ _, by omega⟩

theorem encode_zero (f : Fmt) (neg : Bool) (e : Int) : f.encode neg 0 e = f.signBit neg := by simp [Fmt.encode]

theorem encode_subnormal {f : Fmt} {m : Nat} (neg : Bool) (h : m < 2 ^ f.mbits) :
    f.encode neg m (f.emin - f.mbits) = f.pack neg 0 m := by
  by_cases h0 : m = 0
  · rw [h0, encode_zero, signBit_eq_pack]
  · have hLog : Nat.log2 m < f.mbits := (Nat.log2_lt h0).mpr h
    have hBelow : (Nat.log2 m : Int) + (f.emin - f.mbits) < f.emin := by omega
    simp [Fmt.encode, Fmt.pack, h0, hBelow, scale2]

theorem encode_normal {f : Fmt} {ex mant : Nat} (neg : Bool) (hEx : ex ≠ 0) (hMant : mant < 2 ^ f.mbits) :
    f.encode neg (2 ^ f.mbits + mant) ((ex : Int) - f.bias - f.mbits) = f.pack neg ex mant := by
  have hAbove : ¬ (ex : Int) - f.bias < f.emin := by rw [Fmt.emin]; omega
  simp [Fmt.encode, Fmt.pack, log2_two_pow_add hMant, hAbove, scale2]

/-- A mantissa that rounding has carried to the next power of two. -/
theorem encode_carry {f : Fmt} {e : Int} (neg : Bool) (h : f.emin - f.mbits ≤ e) :
    f.encode neg (2 ^ (f.mbits + 1)) e = f.encode neg (2 ^ f.mbits) (e + 1) := by
  have hAbove' : ¬ (f.mbits : Int) + (e + 1) < f.emin := by omega
  have hHalf : 2 ^ (f.mbits + 1) / 2 = 2 ^ f.mbits := by omega
  have hSame : (f.mbits : Int) + 1 + e = f.mbits + (e + 1) := by ring
  simp [Fmt.encode, Nat.log2_two_pow, hAbove', hSame, scale2, hHalf]

/-- What stands on the grid of the format: at most mbits + 1 bits, or one more for a carry, in a quantum that is the least one or
that the mantissa fills. -/
structure Fmt.OnGrid (f : Fmt) (m : Nat) (e : Int) : Prop where
  width : m ≤ 2 ^ (f.mbits + 1)
  quantum : f.emin - f.mbits ≤ e
  full : m < 2 ^ f.mbits → e = f.emin - f.mbits

theorem rat_val_encode_normal {f : Fmt} {m : Nat} {e : Int} (neg : Bool) (hLow : 2 ^ f.mbits ≤ m) (hHigh : m < 2 ^ (f.mbits + 1))
    (hQuantum : f.emin - f.mbits ≤ e) (hMax : f.exceeds m e = false) :
    (f.val (f.encode neg m e)).rat = some (FV.ratOf neg m e) := by
  obtain ⟨mant, rfl⟩ := Nat.exists_eq_add_of_le hLow
  obtain ⟨ex, hEx⟩ := Int.eq_ofNat_of_zero_le (show 0 ≤ e + f.bias + f.mbits by rw [Fmt.emin] at hQuantum; omega)
  obtain rfl : e = (ex : Int) - f.bias - f.mbits := by omega
  have hEx0 : ex ≠ 0 := by rw [Fmt.emin] at hQuantum; omega
  have hMant : mant < 2 ^ f.mbits := by omega
  rw [encode_normal neg hEx0 hMant, val_pack_of_finite ((exceeds_normal_eq_false_iff hMant).mp hMax), if_neg hEx0, FV.rat]

/-- The code of a value of the format's grid up to MaxFinite stands for that value (R124). -/
theorem rat_val_encode {f : Fmt} {m : Nat} {e : Int} (neg : Bool) (hGrid : f.OnGrid m e) (hMax : f.exceeds m e = false) :
    (f.val (f.encode neg m e)).rat = some (FV.ratOf neg m e) := by
  obtain ⟨hWidth, hQuantum, hFull⟩ := hGrid
  rcases lt_or_ge m (2 ^ f.mbits) with hSub | hLow
  · rw [hFull hSub, encode_subnormal neg hSub, val_pack_of_finite (finiteFields_subnormal hSub), if_pos rfl, FV.rat]
  rcases hWidth.lt_or_eq with hHigh | rfl
  · exact rat_val_encode_normal neg hLow hHigh hQuantum hMax
  · have hDouble : ((2 ^ (f.mbits + 1) : Nat) : ℚ) * 2 ^ e = ((2 ^ f.mbits : Nat) : ℚ) * 2 ^ (e + 1) := by
      rw [zpow_add_one₀ two_ne_zero]
      push_cast
      ring
    have hLess : 2 ^ f.mbits < 2 ^ (f.mbits + 1) := Nat.pow_lt_pow_succ Nat.one_lt_two
    have hMax' : f.exceeds (2 ^ f.mbits) (e + 1) = false := by
      rwa [← Bool.not_eq_true, exceeds_iff, ← hDouble, ← exceeds_iff, Bool.not_eq_true]
    rw [encode_carry neg hQuantum, rat_val_encode_normal neg le_rfl hLess (by omega) hMax', FV.ratOf, FV.ratOf, mul_assoc,
      mul_assoc, hDouble]

theorem rat_val_maxCode (f : Fmt) (neg : Bool) : (f.val (f.maxCode neg)).rat = some (FV.ratOf neg f.maxFin.1 f.maxFin.2) := by
  obtain ⟨hLow, hHigh, hExp⟩ := maxFin_bounds f
  exact rat_val_encode_normal neg hLow hHigh hExp.le (exceeds_maxFin f)

end Sys2Proof.Machine
end

section
/-! O9, third part: rounding (R124, R125), the side of the exact value on which it ends, and the obligation. -/

namespace Sys2Proof.Machine

/-! ### The quantum and the rounded mantissa -/

/-- The exponent of the quantum in which a value is rounded: the last bit of its mantissa, or of the subnormal numbers (R124). -/
def Fmt.quantum (f : Fmt) (m : Nat) (e : Int) : Int := max ((Nat.log2 m : Int) + e) f.emin - f.mbits

theorem round_fin {m : Nat} (f : Fmt) (neg : Bool) (hm : m ≠ 0) (e : Int) (mode : Rm) (sat : Bool) (rnd : Nat) :
    f.round (.fin neg m e) mode sat rnd =
      if f.exceeds (roundQ mode neg m e (f.quantum m e) rnd) (f.quantum m e) then f.overflow neg mode sat
      else f.encode neg (roundQ mode neg m e (f.quantum m e) rnd) (f.quantum m e) := if_neg hm

theorem roundQ_of_le {e q : Int} (mode : Rm) (neg : Bool) (m rnd : Nat) (h : q ≤ e) :
    roundQ mode neg m e q rnd = m * 2 ^ (e - q).toNat := if_pos h

/-- Below the quantum the rounded mantissa is the lower neighbour or the next, as `roundsUp` says of some lower neighbour and
remainder: those of the division, or far below the quantum 0 and one that stands for any fraction. -/
theorem roundQ_of_lt {m : Nat} {e q : Int} (mode : Rm) (neg : Bool) (rnd : Nat) (hm : m ≠ 0) (h : e < q) : ∃ rem den,
    (rem = 0 → m % 2 ^ (q - e).toNat = 0) ∧ roundQ mode neg m e q rnd =
      m / 2 ^ (q - e).toNat + (roundsUp mode neg (m / 2 ^ (q - e).toNat) rem den rnd).toNat := by
  by_cases hFar : Nat.log2 m + 40 < (q - e).toNat
  · have hZero : m / 2 ^ (q - e).toNat = 0 := Nat.div_eq_of_lt ((Nat.log2_lt hm).mp (by omega))
    refine ⟨1, 2 ^ 40, by simp, ?_⟩
    rw [roundQ, if_neg h.not_ge, if_pos hFar, hZero]
    cases roundsUp mode neg 0 1 (2 ^ 40) rnd <;> simp [hm]
  · refine ⟨m % 2 ^ (q - e).toNat, 2 ^ (q - e).toNat, id, ?_⟩
    rw [roundQ, if_neg h.not_ge, if_neg hFar]
    cases hUp : roundsUp mode neg (m / 2 ^ (q - e).toNat) (m % 2 ^ (q - e).toNat) (2 ^ (q - e).toNat) rnd <;> simp [hUp]

/-- A value below 2^(w + 1) quanta is rounded to at most as much. -/
theorem roundQ_le_two_pow {m w : Nat} {e q : Int} (mode : Rm) (neg : Bool) (rnd : Nat) (hm : m ≠ 0)
    (hWidth : (Nat.log2 m : Int) + e ≤ q + w) : roundQ mode neg m e q rnd ≤ 2 ^ (w + 1) := by
  have hHigh : m < 2 ^ (Nat.log2 m + 1) := Nat.lt_log2_self
  rcases le_or_gt q e with h | h
  · rw [roundQ_of_le mode neg m rnd h]
    calc m * 2 ^ (e - q).toNat ≤ 2 ^ (Nat.log2 m + 1) * 2 ^ (e - q).toNat := Nat.mul_le_mul_right _ hHigh.le
      _ = 2 ^ (Nat.log2 m + 1 + (e - q).toNat) := (pow_add ..).symm
      _ ≤ 2 ^ (w + 1) := Nat.pow_le_pow_right two_pos (by omega)
  · obtain ⟨rem, den, -, hRound⟩ := roundQ_of_lt mode neg rnd hm h
    have hDiv : m / 2 ^ (q - e).toNat < 2 ^ (w + 1) := by
      refine Nat.div_lt_of_lt_mul (hHigh.trans_le ?_)
      rw [← pow_add]
      exact Nat.pow_le_pow_right two_pos (by omega)
    have hBit := Bool.toNat_le (roundsUp mode neg (m / 2 ^ (q - e).toNat) rem den rnd)
    omega

/-- A value of at least 2^w quanta is rounded to at least as much. -/
theorem two_pow_le_roundQ {m w : Nat} {e q : Int} (mode : Rm) (neg : Bool) (rnd : Nat) (hm : m ≠ 0)
    (hWidth : q + w ≤ (Nat.log2 m : Int) + e) : 2 ^ w ≤ roundQ mode neg m e q rnd := by
  have hLow : 2 ^ Nat.log2 m ≤ m := Nat.log2_self_le hm
  rcases le_or_gt q e with h | h
  · rw [roundQ_of_le mode neg m rnd h]
    calc 2 ^ w ≤ 2 ^ (Nat.log2 m + (e - q).toNat) := Nat.pow_le_pow_right two_pos (by omega)
      _ = 2 ^ Nat.log2 m * 2 ^ (e - q).toNat := pow_add ..
      _ ≤ m * 2 ^ (e - q).toNat := Nat.mul_le_mul_right _ hLow
  · obtain ⟨rem, den, -, hRound⟩ := roundQ_of_lt mode neg rnd hm h
    have hDiv : 2 ^ w ≤ m / 2 ^ (q - e).toNat := by
      rw [Nat.le_div_iff_mul_le (by positivity), ← pow_add]
      exact (Nat.pow_le_pow_right two_pos (by omega)).trans hLow
    omega

/-- Rounding ends on the grid of the format. -/
theorem onGrid_roundQ {m : Nat} (f : Fmt) (hm : m ≠ 0) (e : Int) (mode : Rm) (neg : Bool) (rnd : Nat) :
    f.OnGrid (roundQ mode neg m e (f.quantum m e) rnd) (f.quantum m e) := by
  have hq : f.quantum m e = max ((Nat.log2 m : Int) + e) f.emin - f.mbits := rfl
  refine ⟨roundQ_le_two_pow mode neg rnd hm (by omega), by omega, fun hSmall => ?_⟩
  by_contra hNormal
  exact hSmall.not_ge (two_pow_le_roundQ mode neg rnd hm (by omega))

/-! ### Values that the format holds -/

/-- A value on its own quantum, up to MaxFinite, is rounded to its own code. -/
theorem round_of_quantum {f : Fmt} {m : Nat} {e : Int} (neg : Bool) (hm : m ≠ 0) (hQuantum : f.quantum m e = e)
    (hMax : f.exceeds m e = false) (mode : Rm) (sat : Bool) (rnd : Nat) :
    f.round (.fin neg m e) mode sat rnd = f.encode neg m e := by
  have hExact : roundQ mode neg m e e rnd = m := by simp [roundQ_of_le mode neg m rnd le_rfl]
  rw [round_fin f neg hm, hQuantum, hExact, hMax]
  rfl

theorem quantum_subnormal {f : Fmt} {m : Nat} (hm : m ≠ 0) (h : m < 2 ^ f.mbits) :
    f.quantum m (f.emin - f.mbits) = f.emin - f.mbits := by
  have hLog : Nat.log2 m < f.mbits := (Nat.log2_lt hm).mpr h
  rw [Fmt.quantum]
  omega

theorem quantum_normal {f : Fmt} {ex mant : Nat} (hEx : ex ≠ 0) (h : mant < 2 ^ f.mbits) :
    f.quantum (2 ^ f.mbits + mant) ((ex : Int) - f.bias - f.mbits) = (ex : Int) - f.bias - f.mbits := by
  rw [Fmt.quantum, log2_two_pow_add h, Fmt.emin]
  omega

/-- R124: the code of a finite value is what its value is rounded to, in every mode. -/
theorem round_val_pack {f : Fmt} {ex mant : Nat} (neg : Bool) (h : f.FiniteFields ex mant) (mode : Rm) (sat : Bool) (rnd : Nat) :
    f.round (f.val (f.pack neg ex mant)) mode sat rnd = f.pack neg ex mant := by
  rw [val_pack_of_finite h]
  have hMant := h.mantissa
  by_cases hEx : ex = 0
  · subst hEx
    by_cases hm : mant = 0
    · subst hm
      exact (signBit_eq_pack f neg)
    · rw [if_pos rfl, round_of_quantum neg hm (quantum_subnormal hm hMant) (exceeds_subnormal hMant), encode_subnormal neg hMant]
  · rw [if_neg hEx, round_of_quantum neg (by positivity) (quantum_normal hEx hMant) ((exceeds_normal_eq_false_iff hMant).mpr h),
      encode_normal neg hEx hMant]

/-! ### Directed rounding -/

/-- The mode takes a value of the sign toward zero. -/
def TowardZero (mode : Rm) (neg : Bool) : Prop := mode = .rtz ∨ mode = .rdn ∧ neg = false ∨ mode = .rup ∧ neg = true

/-- The mode takes a value of the sign away from zero. -/
def AwayFromZero (mode : Rm) (neg : Bool) : Prop := mode = .rdn ∧ neg = true ∨ mode = .rup ∧ neg = false

section Directed

variable {mode : Rm} {neg : Bool}

theorem TowardZero.roundsUp (h : TowardZero mode neg) (lo rem den rnd : Nat) : roundsUp mode neg lo rem den rnd = false := by
  rcases h with rfl | ⟨rfl, rfl⟩ | ⟨rfl, rfl⟩ <;> rfl

theorem AwayFromZero.roundsUp (h : AwayFromZero mode neg) (lo rem den rnd : Nat) :
    roundsUp mode neg lo rem den rnd = decide (rem ≠ 0) := by
  rcases h with ⟨rfl, rfl⟩ | ⟨rfl, rfl⟩ <;> rfl

theorem roundQ_le_of_towardZero {m : Nat} (h : TowardZero mode neg) (hm : m ≠ 0) (e q : Int) (rnd : Nat) :
    (roundQ mode neg m e q rnd : ℚ) * 2 ^ q ≤ m * 2 ^ e := by
  rcases le_or_gt q e with hq | hq
  · rw [roundQ_of_le mode neg m rnd hq, mul_zpow_of_le m hq]
  · obtain ⟨rem, den, -, hRound⟩ := roundQ_of_lt mode neg rnd hm hq
    rw [hRound, h.roundsUp, Bool.toNat_false, add_zero, mul_zpow_eq_div m hq.le]
    gcongr
    exact Nat.cast_div_le

theorem le_roundQ_of_awayFromZero {m : Nat} (h : AwayFromZero mode neg) (hm : m ≠ 0) (e q : Int) (rnd : Nat) :
    (m : ℚ) * 2 ^ e ≤ roundQ mode neg m e q rnd * 2 ^ q := by
  rcases le_or_gt q e with hq | hq
  · rw [roundQ_of_le mode neg m rnd hq, mul_zpow_of_le m hq]
  · obtain ⟨rem, den, hRem, hRound⟩ := roundQ_of_lt mode neg rnd hm hq
    rw [hRound, h.roundsUp, mul_zpow_eq_div m hq.le]
    have hUpper : m ≤ (m / 2 ^ (q - e).toNat + (decide (rem ≠ 0)).toNat) * 2 ^ (q - e).toNat := by
      by_cases hr : rem = 0
      · simp [hr, Nat.div_mul_cancel (Nat.dvd_of_mod_eq_zero (hRem hr))]
      · simp [hr, mul_comm, (Nat.lt_mul_div_succ m (Nat.two_pow_pos (q - e).toNat)).le]
    gcongr
    rw [div_le_iff₀ (by positivity)]
    exact mod_cast hUpper

/-- Beyond MaxFinite, toward zero, the code is MaxFinite with the sign, and in E4M3 the NaN (R125). -/
theorem overflow_of_towardZero (f : Fmt) (h : TowardZero mode neg) :
    f.overflow neg mode false = if f = .e4m3 then 0x7F else f.maxCode neg := by
  rcases h with rfl | ⟨rfl, rfl⟩ | ⟨rfl, rfl⟩ <;> cases f <;> rfl

/-- Beyond MaxFinite, away from zero, a format with infinities gives an infinity (R125). -/
theorem overflow_of_awayFromZero {f : Fmt} (h : AwayFromZero mode neg) (hInf : f.hasInf = true) :
    f.overflow neg mode false = f.infCode neg := by
  rcases h with ⟨rfl, rfl⟩ | ⟨rfl, rfl⟩ <;> cases f <;> simp [Fmt.hasInf, Fmt.overflow] at hInf ⊢

section Result

variable {f : Fmt} {m : Nat} {e : Int} {rnd : Nat} {r : ℚ}

/-- A rounded result that is a rational is on the grid, or is what overflow gives. -/
theorem rat_val_round_cases {sat : Bool} (hm : m ≠ 0) (hr : (f.val (f.round (.fin neg m e) mode sat rnd)).rat = some r) :
    r = FV.ratOf neg (roundQ mode neg m e (f.quantum m e) rnd) (f.quantum m e) ∨
      f.exceeds (roundQ mode neg m e (f.quantum m e) rnd) (f.quantum m e) = true ∧
        (f.val (f.overflow neg mode sat)).rat = some r := by
  rw [round_fin f neg hm] at hr
  split at hr
  · exact .inr ⟨‹_›, hr⟩
  · rw [rat_val_encode neg (onGrid_roundQ f hm e mode neg rnd) (Bool.eq_false_of_not_eq_true ‹_›)] at hr
    exact .inl (Option.some.inj hr).symm

theorem rat_val_round_zero {sat : Bool} (hr : (f.val (f.round (.fin neg 0 e) mode sat rnd)).rat = some r) : r = 0 := by
  rw [show f.round (.fin neg 0 e) mode sat rnd = f.signBit neg from rfl, val_signBit, FV.rat, ratOf_zero] at hr
  exact (Option.some.inj hr).symm

theorem round_towardZero (h : TowardZero mode neg) (hr : (f.val (f.round (.fin neg m e) mode false rnd)).rat = some r) :
    ∃ n k, r = FV.ratOf neg n k ∧ (n : ℚ) * 2 ^ k ≤ m * 2 ^ e := by
  by_cases hm : m = 0
  · subst hm
    exact ⟨0, 0, by rw [rat_val_round_zero hr, ratOf_zero], by simp⟩
  have hDown := roundQ_le_of_towardZero h hm e (f.quantum m e) rnd
  rcases rat_val_round_cases hm hr with hGrid | ⟨hMax, hOver⟩
  · exact ⟨_, _, hGrid, hDown⟩
  · rw [overflow_of_towardZero f h] at hOver
    by_cases hf : f = .e4m3
    · subst hf
      rw [if_pos rfl, show Fmt.val .e4m3 0x7F = .nan by decide] at hOver
      cases hOver
    · rw [if_neg hf, rat_val_maxCode] at hOver
      exact ⟨_, _, (Option.some.inj hOver).symm, ((exceeds_iff f _ _).mp hMax).le.trans hDown⟩

theorem round_awayFromZero (h : AwayFromZero mode neg) (hInf : f.hasInf = true)
    (hr : (f.val (f.round (.fin neg m e) mode false rnd)).rat = some r) :
    ∃ n k, r = FV.ratOf neg n k ∧ (m : ℚ) * 2 ^ e ≤ n * 2 ^ k := by
  by_cases hm : m = 0
  · subst hm
    exact ⟨0, 0, by rw [rat_val_round_zero hr, ratOf_zero], by simp⟩
  rcases rat_val_round_cases hm hr with hGrid | ⟨-, hOver⟩
  · exact ⟨_, _, hGrid, le_roundQ_of_awayFromZero h hm e (f.quantum m e) rnd⟩
  · rw [overflow_of_awayFromZero h hInf, val_infCode hInf] at hOver
    cases hOver

/-- R124: RDN never gives more than the exact value. -/
theorem round_rdn_le (hInf : f.hasInf = true) (hr : (f.val (f.round (.fin neg m e) .rdn false rnd)).rat = some r) :
    r ≤ FV.ratOf neg m e := by
  cases neg
  · obtain ⟨n, k, rfl, hLe⟩ := round_towardZero (.inr (.inl ⟨rfl, rfl⟩)) hr
    rwa [ratOf_false, ratOf_false]
  · obtain ⟨n, k, rfl, hLe⟩ := round_awayFromZero (.inl ⟨rfl, rfl⟩) hInf hr
    rwa [ratOf_true, ratOf_true, neg_le_neg_iff]

/-- R124: RUP never gives less than the exact value. -/
theorem le_round_rup (hInf : f.hasInf = true) (hr : (f.val (f.round (.fin neg m e) .rup false rnd)).rat = some r) :
    FV.ratOf neg m e ≤ r := by
  cases neg
  · obtain ⟨n, k, rfl, hLe⟩ := round_awayFromZero (.inr ⟨rfl, rfl⟩) hInf hr
    rwa [ratOf_false, ratOf_false]
  · obtain ⟨n, k, rfl, hLe⟩ := round_towardZero (.inr (.inr ⟨rfl, rfl⟩)) hr
    rwa [ratOf_true, ratOf_true, neg_le_neg_iff]

/-- R124: RTZ never gives more than the exact value in magnitude. -/
theorem abs_round_rtz_le (hr : (f.val (f.round (.fin neg m e) .rtz false rnd)).rat = some r) : |r| ≤ |FV.ratOf neg m e| := by
  obtain ⟨n, k, rfl, hLe⟩ := round_towardZero (.inl rfl) hr
  rwa [abs_ratOf, abs_ratOf, ratOf_false, ratOf_false]

end Result

end Directed

/-! ### The obligation -/

/-- Settles O9: sums are the integer sums in the smaller power of two, a code that is finite is the one code of its value, and a
mantissa that is rounded toward or away from zero stays on that side, on the grid of the format or beyond MaxFinite. -/
theorem roundingAndExactSums : Obligations.RoundingAndExactSums := by
  unfold Obligations.RoundingAndExactSums
  refine ⟨⟨rat_add, rat_sub, rat_mul, rat_negate, rat_ldexp, fun _ => rfl, fun _ _ => rfl,
    fun rdn x => ⟨rfl, add_nan rdn x, rfl, mul_nan x⟩, fun a e b k => ⟨neg_add_zeros true a e b k, neg_add_zeros false a e b k⟩,
    fun rdn a b m e n k h => by rw [sub_fin_of_eq rdn h, FV.neg], fun _ _ _ _ => rfl, fun _ _ _ _ _ _ => rfl⟩,
    fun f c hWidth hLow hRat rm sat rnd _ => ?_, fun f neg m e rnd r hr hInf => round_rdn_le hInf hr,
    fun f neg m e rnd r hr hInf => le_round_rup hInf hr, fun f neg m e rnd r hr => abs_round_rtz_le hr⟩
  obtain ⟨neg, ex, mant, hEx, hMant, rfl⟩ := exists_pack hWidth hLow
  exact round_val_pack neg (finiteFields_of_rat hEx hMant hRat) rm sat rnd

end Sys2Proof.Machine
end

section
/-! Integers and the words that hold them (R138): `wrapTo` and `signedVal` are the conversions of bit vectors. -/

namespace Sys2Proof.Machine
open Sys2Proof.Claims

/-! ### Numbers as bit vectors -/

theorem wrapTo_eq_toNat (x : Int) (w : Nat) : wrapTo x w = (BitVec.ofInt w x).toNat := by
  simp [wrapTo, BitVec.toNat_ofInt]

theorem signedVal_eq_toInt (x : Nat) {w : Nat} (hw : 0 < w) : signedVal x w = (BitVec.ofNat w x).toInt := by
  have hHalf : 2 ^ w = 2 * 2 ^ (w - 1) := (mul_pow_sub_one hw.ne' 2).symm
  rw [BitVec.toInt_eq_toNat_cond, BitVec.toNat_ofNat, signedVal]
  refine if_congr (by omega) rfl ?_
  push_cast
  rfl

theorem ty_bits_pos (t : Ty) : 0 < t.bits := by cases t <;> decide
theorem ty_bits_le (t : Ty) : t.bits ≤ 64 := by cases t <;> decide

/-- The integer that a bit pattern of a type stands for (R138). -/
def patternInt (t : Ty) (v : BitVec t.bits) : Int := if Ty.signed t then v.toInt else v.toNat

theorem intVal_eq_patternInt (t : Ty) (x : DWord) : intVal t x = patternInt t (x.setWidth t.bits) := by
  rw [intVal, patternInt, signedVal_eq_toInt _ (ty_bits_pos t), BitVec.ofNat_toNat, BitVec.toNat_setWidth]

theorem wrapTy_eq_setWidth (t : Ty) (x : Int) : wrapTy t x = (BitVec.ofInt t.bits x).setWidth 64 := by
  rw [wrapTy, wrapTo_eq_toNat, BitVec.ofNat_toNat]

/-- Wrap keeps the low bits of the type (R138). -/
theorem intVal_wrapTy (t : Ty) (x : Int) : intVal t (wrapTy t x) = patternInt t (BitVec.ofInt t.bits x) := by
  rw [intVal_eq_patternInt, wrapTy_eq_setWidth, BitVec.setWidth_setWidth_of_le _ (ty_bits_le t), BitVec.setWidth_eq]

@[simp] theorem lo_toNat (x : DWord) : (lo x).toNat = x.toNat % 2 ^ 32 := BitVec.toNat_setWidth ..

/-! ### Ranges of the integer types -/

theorem tyMin_le_tyMax (t : Ty) : tyMin t ≤ tyMax t := by
  have hHalf : (0 : Int) < 2 ^ (t.bits - 1) := by positivity
  have hFull : (0 : Int) < 2 ^ t.bits := by positivity
  unfold tyMin tyMax
  split <;> omega

theorem patternInt_mem_range (t : Ty) (v : BitVec t.bits) : tyMin t ≤ patternInt t v ∧ patternInt t v ≤ tyMax t := by
  unfold patternInt tyMin tyMax
  split
  · exact ⟨BitVec.le_toInt v, BitVec.toInt_le⟩
  · have hLt : (v.toNat : Int) < 2 ^ t.bits := by exact_mod_cast v.isLt
    omega

theorem patternInt_ofInt_sub_emod (t : Ty) (x : Int) : (patternInt t (BitVec.ofInt t.bits x) - x) % 2 ^ t.bits = 0 := by
  rw [← Int.dvd_iff_emod_eq_zero]
  unfold patternInt
  split
  · rw [BitVec.toInt_ofInt]
    exact_mod_cast Int.dvd_bmod_sub_self
  · have hPos : (0 : Int) < 2 ^ t.bits := by positivity
    rw [← wrapTo_eq_toNat, wrapTo, Int.toNat_of_nonneg (Int.emod_nonneg _ hPos.ne'), ← dvd_neg, neg_sub]
    exact Int.dvd_self_sub_emod

theorem patternInt_ofInt_of_mem {t : Ty} {x : Int} (hLow : tyMin t ≤ x) (hHigh : x ≤ tyMax t) :
    patternInt t (BitVec.ofInt t.bits x) = x := by
  unfold patternInt
  unfold tyMin at hLow
  unfold tyMax at hHigh
  cases hSigned : Ty.signed t
  · simp only [hSigned, Bool.false_eq_true, if_false] at hLow hHigh ⊢
    rw [← wrapTo_eq_toNat, wrapTo, Int.emod_eq_of_lt hLow (by omega), Int.toNat_of_nonneg hLow]
  · simp only [hSigned, if_true] at hLow hHigh ⊢
    exact BitVec.toInt_ofInt_eq_self (ty_bits_pos t) hLow (by omega)

theorem intVal_fit_of_mem {t : Ty} {x : Int} (hLow : tyMin t ≤ x) (hHigh : x ≤ tyMax t) (sat : Bool) :
    intVal t (fit t sat x) = x := by
  have hClamp : max (tyMin t) (min (tyMax t) x) = x := by omega
  rw [fit, clampTy, hClamp, ite_self, intVal_wrapTy, patternInt_ofInt_of_mem hLow hHigh]

theorem intVal_fit_below {t : Ty} {x : Int} (h : x < tyMin t) : intVal t (fit t true x) = tyMin t := by
  have hRange := tyMin_le_tyMax t
  have hClamp : max (tyMin t) (min (tyMax t) x) = tyMin t := by omega
  rw [fit, if_pos rfl, clampTy, hClamp, intVal_wrapTy, patternInt_ofInt_of_mem le_rfl hRange]

theorem intVal_fit_above {t : Ty} {x : Int} (h : tyMax t < x) : intVal t (fit t true x) = tyMax t := by
  have hRange := tyMin_le_tyMax t
  have hClamp : max (tyMin t) (min (tyMax t) x) = tyMax t := by omega
  rw [fit, if_pos rfl, clampTy, hClamp, intVal_wrapTy, patternInt_ofInt_of_mem hRange le_rfl]

/-! ### Operands and results -/

/-- The low bits of a type are those of the integer they stand for. -/
theorem ofInt_intVal (t : Ty) (x : DWord) : BitVec.ofInt t.bits (intVal t x) = x.setWidth t.bits := by
  rw [intVal_eq_patternInt, patternInt]
  split
  · exact BitVec.ofInt_toInt
  · rw [BitVec.ofInt_natCast, BitVec.ofNat_toNat, BitVec.setWidth_eq]

/-- A signed operand in more bits is the sign extension of its low ones. -/
theorem ofInt_intVal_signed {t : Ty} (h : Ty.signed t = true) (w : Nat) (x : DWord) :
    BitVec.ofInt w (intVal t x) = (x.setWidth t.bits).signExtend w := by
  rw [intVal_eq_patternInt, patternInt, if_pos h, BitVec.signExtend]

theorem ofInt_intVal_unsigned {t : Ty} (h : Ty.signed t = false) (w : Nat) (x : DWord) :
    BitVec.ofInt w (intVal t x) = (x.setWidth t.bits).setWidth w := by
  rw [intVal_eq_patternInt, patternInt, h, if_neg Bool.false_ne_true, BitVec.ofInt_natCast, BitVec.ofNat_toNat]

theorem low32_eq_up {x : Int} {p : Word} (h : BitVec.ofInt 32 x = p) : low32 x = up p := by
  rw [low32, wrapTo_eq_toNat, BitVec.ofNat_toNat, h]
  rfl

theorem low32_add_word {x : Int} {p : Word} (h : BitVec.ofInt 32 x = p) (c : DWord) :
    low32 (x + (c.toNat % 2 ^ 32 : Nat)) = up (p + lo c) := by
  apply low32_eq_up
  rw [BitVec.ofInt_add, BitVec.ofInt_natCast, ← lo_toNat, BitVec.ofNat_toNat, BitVec.setWidth_eq, h]

/-- The high 32 bits of an integer in `w` bits. -/
theorem high32_eq_up {x : Int} {w k : Nat} {p : BitVec w} (hw : w = k + 32) (h : BitVec.ofInt w x = p) :
    BitVec.ofNat 64 (wrapTo x w / 2 ^ k) = up (p.extractLsb' k 32) := by
  subst hw
  have hLt : p.toNat / 2 ^ k < 2 ^ 32 := Nat.div_lt_of_lt_mul (by rw [← Nat.pow_add]; exact p.isLt)
  apply BitVec.eq_of_toNat_eq
  rw [wrapTo_eq_toNat, h, up, BitVec.toNat_ofNat, BitVec.toNat_setWidth, BitVec.extractLsb'_toNat, Nat.shiftRight_eq_div_pow,
    Nat.mod_eq_of_lt hLt]

theorem byteOf_eq (x : DWord) (k : Nat) (signed : Bool) :
    byteOf x k signed = if signed then (x.extractLsb' (8 * k) 8).toInt else (x.extractLsb' (8 * k) 8).toNat := by
  have hByte : BitVec.ofNat 8 (x.toNat / 2 ^ (8 * k) % 256) = x.extractLsb' (8 * k) 8 := by
    apply BitVec.eq_of_toNat_eq
    simp [Nat.shiftRight_eq_div_pow]
  simp only [byteOf, signedVal_eq_toInt _ (show 0 < 8 by decide), hByte]
  simp [Nat.shiftRight_eq_div_pow]

end Sys2Proof.Machine
end

section
/-! O1: integer arithmetic (R138, R141, R143). -/

namespace Sys2Proof.Machine
open Sys2Proof.Claims

/-- The lane-by-lane shape computes any function that agrees with its own. -/
theorem alu_computes_of_eq {n : Instr} {hd : Hdr} {o : Ops} {wa wb wc : Wd} {ty : Ty} {f g : DWord → DWord → DWord → DWord}
    (h : ∀ s, exec n s = .next ((Ix.of s hd).alu hd o wa wb wc ty f)) (hfg : ∀ a b c, f a b c = g a b c) :
    Computes n hd o wa wb wc ty g := by
  obtain rfl : f = g := funext fun a => funext fun b => funext fun c => hfg a b c
  exact alu_computes n hd o wa wb wc ty f h

/-- The products of 32-bit types are those of the words (R141). -/
theorem ofInt_mul_words {t : Ty} (h : t.bits = 32) (a b : DWord) : BitVec.ofInt 32 (intVal t a * intVal t b) = lo a * lo b := by
  have hWord (x : DWord) : BitVec.ofInt 32 (intVal t x) = lo x := by
    have hLow := ofInt_intVal t x
    rw [h] at hLow
    exact hLow
  rw [BitVec.ofInt_mul, hWord, hWord]

/-- The products of signed operands in `w` bits are those of their sign extensions. -/
theorem ofInt_mul_signed {t : Ty} (h : Ty.signed t = true) (w : Nat) (a b : DWord) :
    BitVec.ofInt w (intVal t a * intVal t b) = (a.setWidth t.bits).signExtend w * (b.setWidth t.bits).signExtend w := by
  rw [BitVec.ofInt_mul, ofInt_intVal_signed h, ofInt_intVal_signed h]

theorem ofInt_mul_unsigned {t : Ty} (h : Ty.signed t = false) (w : Nat) (a b : DWord) :
    BitVec.ofInt w (intVal t a * intVal t b) = (a.setWidth t.bits).setWidth w * (b.setWidth t.bits).setWidth w := by
  rw [BitVec.ofInt_mul, ofInt_intVal_unsigned h, ofInt_intVal_unsigned h]

theorem bits_of_word {t : Ty} (h : t = .i32 ∨ t = .n32) : t.bits = 32 := by rcases h with rfl | rfl <;> rfl

/-- ISAD adds the distance of A and B to C modulo 2³² (R141). -/
theorem low32_distance (x y : Int) (c : DWord) :
    low32 ((if x < y then y - x else x - y) + (c.toNat % 2 ^ 32 : Nat)) = BitVec.ofInt 64 ((|x - y| + (lo c).toNat) % 2 ^ 32) := by
  have hAbs : (if x < y then y - x else x - y) = |x - y| := by
    split
    · rw [abs_of_neg (by omega)]
      omega
    · rw [abs_of_nonneg (by omega)]
  have hMod : 0 ≤ (|x - y| + ((lo c).toNat : Int)) % 2 ^ 32 := Int.emod_nonneg _ (by decide)
  rw [hAbs, ← lo_toNat, low32, wrapTo, ← BitVec.ofInt_natCast, Int.toNat_of_nonneg hMod]

/-- The four products of IDOT4, byte by byte (R143). -/
theorem dot4_eq (sa sb : Bool) (a b c : DWord) :
    (List.range 4).foldl (fun acc k => acc + byteOf a k sa * byteOf b k sb) (signedVal c.toNat 32) =
      (lo c).toInt + byteOf a 0 sa * byteOf b 0 sb + byteOf a 1 sa * byteOf b 1 sb + byteOf a 2 sa * byteOf b 2 sb +
        byteOf a 3 sa * byteOf b 3 sb := by
  rw [signedVal_eq_toInt _ (by decide), BitVec.ofNat_toNat]
  rfl

/-- Settles O1: each instruction is the lane-by-lane shape with a function of integers, and that of each product is one of bit
vectors; Wrap and Clamp are conversions between bit vectors and integers. -/
theorem integerArithmetic : Obligations.IntegerArithmetic := by
  unfold Obligations.IntegerArithmetic
  refine ⟨⟨?iadd, ?isub, ?ineg, ?iabs, ?imin, ?imax, ?iclamp, ?imul, ?imad, ?imulhiN, ?imulhiI, ?imul24N, ?imul24I, ?imul24HiN,
    ?imul24HiI, ?imad24N, ?imad24I, ?isad, ?idot4⟩, ?fits⟩
  case iadd => exact fun h o t sat => alu_computes _ _ _ _ _ _ _ _ fun _ => rfl
  case isub => exact fun h o t sat => alu_computes _ _ _ _ _ _ _ _ fun _ => rfl
  case ineg =>
    refine fun h o t sat => alu_computes_of_eq (fun _ => rfl) fun a _ _ => ?_
    rw [zero_sub]
  case iabs =>
    refine fun h o t sat => alu_computes_of_eq (fun _ => rfl) fun a _ _ => congrArg (fit t sat) ?_
    split
    · exact (abs_of_neg ‹_›).symm
    · exact (abs_of_nonneg (by omega)).symm
  case imin => exact fun h o t => alu_computes_of_eq (fun _ => rfl) fun a b _ => congrArg (wrapTy t) (min_def _ _)
  case imax => exact fun h o t => alu_computes_of_eq (fun _ => rfl) fun a b _ => congrArg (wrapTy t) (max_def _ _)
  case iclamp => exact fun h o t => alu_computes _ _ _ _ _ _ _ _ fun _ => rfl
  case imul =>
    exact fun h o t ht => alu_computes_of_eq (fun _ => rfl) fun a b _ => low32_eq_up (ofInt_mul_words (bits_of_word ht) a b)
  case imad =>
    exact fun h o t ht => alu_computes_of_eq (fun _ => rfl) fun a b c => low32_add_word (ofInt_mul_words (bits_of_word ht) a b) c
  case imulhiN => exact fun h o => alu_computes_of_eq (fun _ => rfl) fun a b _ => high32_eq_up rfl (ofInt_mul_unsigned rfl 64 a b)
  case imulhiI => exact fun h o => alu_computes_of_eq (fun _ => rfl) fun a b _ => high32_eq_up rfl (ofInt_mul_signed rfl 64 a b)
  case imul24N => exact fun h o => alu_computes_of_eq (fun _ => rfl) fun a b _ => low32_eq_up (ofInt_mul_unsigned rfl 32 a b)
  case imul24I => exact fun h o => alu_computes_of_eq (fun _ => rfl) fun a b _ => low32_eq_up (ofInt_mul_signed rfl 32 a b)
  case imul24HiN => exact fun h o => alu_computes_of_eq (fun _ => rfl) fun a b _ => high32_eq_up rfl (ofInt_mul_unsigned rfl 48 a b)
  case imul24HiI => exact fun h o => alu_computes_of_eq (fun _ => rfl) fun a b _ => high32_eq_up rfl (ofInt_mul_signed rfl 48 a b)
  case imad24N => exact fun h o => alu_computes_of_eq (fun _ => rfl) fun a b c => low32_add_word (ofInt_mul_unsigned rfl 32 a b) c
  case imad24I => exact fun h o => alu_computes_of_eq (fun _ => rfl) fun a b c => low32_add_word (ofInt_mul_signed rfl 32 a b) c
  case isad => exact fun h o t => alu_computes_of_eq (fun _ => rfl) fun a b c => low32_distance _ _ c
  case idot4 =>
    refine fun h o sa sb sat => alu_computes_of_eq (fun _ => rfl) fun a b c => ?_
    rw [dot4_eq]
    simp only [byteOf_eq]
  case fits =>
    refine fun t _ => ⟨fun x => ?range, fun x => ?wraps, fun x hLow hHigh sat => intVal_fit_of_mem hLow hHigh sat,
      fun x => intVal_fit_below, fun x => intVal_fit_above⟩
    case range =>
      rw [intVal_eq_patternInt]
      exact patternInt_mem_range t _
    case wraps =>
      have hWrap : fit t false x = wrapTy t x := if_neg Bool.false_ne_true
      rw [hWrap, intVal_wrapTy]
      exact patternInt_ofInt_sub_emod t x

end Sys2Proof.Machine
end

section
/-! Writes after an instruction has ended: predicates beside its destination (R142, R155, R156, R159), and counts of uses (R417). -/

namespace Sys2Proof.Machine
open Sys2Proof.Claims

section After

variable {i : Ix} {s t u : State} {ds es : List (Opnd × Nat)}

theorem written_mono (h : ∀ d ∈ ds, d ∈ es) {a l : Nat} (hw : Written i ds a l) : Written i es a l := by
  obtain ⟨hl, q, n, hq, hlo, hhi⟩ := hw
  exact ⟨hl, q, n, h _ hq, hlo, hhi⟩

/-- What leaves everything but some destinations leaves everything but more of them. -/
theorem kept_mono (h : ∀ d ∈ ds, d ∈ es) (hk : Kept s t i ds) : Kept s t i es where
  memory := hk.memory
  marks := hk.marks
  frags := hk.frags
  hoists := hk.hoists
  elems a l hl hw := hk.elems a l hl fun hc => hw (written_mono h hc)
  preds q l hq := hk.preds q l fun ⟨hl, n, hn⟩ => hq ⟨hl, n, h _ hn⟩
  masks q hq := hk.masks q fun ⟨n, hn⟩ => hq ⟨n, h _ hn⟩
  bits q := ⟨fun hq => (hk.bits q).1 fun ⟨n, hn⟩ => hq ⟨n, h _ hn⟩, fun hq => (hk.bits q).2 fun ⟨n, hn⟩ => hq ⟨n, h _ hn⟩⟩
  hoist := hk.hoist
  sregs q hq := hk.sregs q fun ⟨n, hn⟩ => hq ⟨n, h _ hn⟩
  frag := hk.frag
  cores := hk.cores
  rest := hk.rest

/-- Writes of predicates after an instruction has ended. -/
theorem kept_predsWritten (hk : Kept s t i ds) (hp : PredsWritten i ds t u) : Kept s u i ds where
  memory a := (congrArg (State.byte · a) hp.rest :).trans (hk.memory a)
  marks w := (congrArg (State.mark · w) hp.rest :).trans (hk.marks w)
  frags f hf := (hp.frag f).trans (hk.frags f hf)
  hoists k hk' := (hp.hoists k hk').trans (hk.hoists k hk')
  elems a l hl hw := by
    obtain ⟨hElem, hMark⟩ := hk.elems a l hl hw
    exact ⟨(congrArg (Hoist.elem · a l) hp.hoist :).trans hElem, (congrArg (Hoist.elemMark · a l) hp.hoist :).trans hMark⟩
  preds q l hq := (hp.preds q l hq).trans (hk.preds q l hq)
  masks q hq := (congrArg (fun x => Sparse.get 0 x.masks q.toNat) hp.hoist :).trans (hk.masks q hq)
  bits q := ⟨fun hq => (hp.bits q hq).trans ((hk.bits q).1 hq),
    fun hq => (congrArg (fun x => x.mmarks.getLsbD q.toNat) hp.hoist :).trans ((hk.bits q).2 hq)⟩
  hoist := by
    rw [← hk.hoist, ← hp.hoist]
  sregs q hq := by
    rw [hp.frag]
    exact hk.sregs q hq
  frag := by
    rw [hp.frag]
    exact hk.frag
  cores c := by
    rw [hp.core]
    exact hk.cores c
  rest := by
    rw [← hk.rest, ← hp.rest]

theorem kept_countUse (used : Bool) (hk : Kept s t i ds) : Kept s (i.countUse used t) i ds where
  memory a := (congrArg (State.byte · a) (countUse_rest i used t) :).trans (hk.memory a)
  marks w := (congrArg (State.mark · w) (countUse_rest i used t) :).trans (hk.marks w)
  frags f hf := by rw [countUse_frag, hk.frags f hf]
  hoists k hk' := by rw [countUse_hoist, hk.hoists k hk']
  elems := by simpa only [countUse_hoist] using hk.elems
  preds := by simpa only [countUse_hoist] using hk.preds
  masks := by simpa only [countUse_hoist] using hk.masks
  bits := by simpa only [countUse_hoist] using hk.bits
  hoist := by rw [countUse_hoist, hk.hoist]
  sregs := by simpa only [countUse_frag] using hk.sregs
  frag := by rw [countUse_frag, hk.frag]
  cores c := by
    rw [← hk.cores c, ← countUse_core i used t c]
  rest := (congrArg (fun u : State => { u with frags := s.frags, hoists := s.hoists, cores := s.cores })
    (countUse_rest i used t) :).trans hk.rest

end After

/-- What an instruction with a value for D and a bit for D2 in each lane leaves behind. -/
def EndsWith (s t : State) (i : Ix) (d d2 : Opnd) (ty : Ty) (r : Nat → Val) (c : Nat → Bool) : Prop :=
  (d ≠ d2 → Gets t i d ty r) ∧ GetsPred t i d2 c ∧ Kept s t i [(d, Ty.regs ty), (d2, 1)] ∧ WentOn s t i

/-- A write of predicates after the end of an instruction, and a count of uses of its own. -/
theorem finish_then_preds (i : Ix) (d d2 : Opnd) (ty : Ty) (r : Nat → Val) {b : LaneMask} {c : Nat → Bool} (used : Bool)
    (hg : i.g ≠ 0) (hc : ∀ l, i.g.getLsbD l = true → b.getLsbD l = c l) :
    EndsWith i.s (i.countUse used (i.writePred (i.finish d ty ((lanesOf i.g).map fun l => (l, r l))) d2 i.g b)) i d d2 ty r c := by
  refine ⟨fun hne => gets_countUse used (gets_writePred hne _ (finish_gets i d ty r hg)), ?_, ?_, ?_⟩
  · exact getsPred_of_hoist (countUse_hoist ..) (gets_pred_congr _ _ _ _ _ hc (getsPred_writePred _ _ _ _))
  · have hPlain : Kept i.s (i.finish d ty ((lanesOf i.g).map fun l => (l, r l))) i [(d, Ty.regs ty), (d2, 1)] :=
      kept_mono (by simp) (finish_kept i d ty r)
    exact kept_countUse used (kept_predsWritten hPlain (.writePred _ (n := 1) (by simp) _))
  · unfold WentOn
    rw [countUse_frag, writePred_frag]
    exact finish_wentOn i d ty _

/-- The end of an issue and a write of predicates are of different parts of the state. -/
theorem done_writePred (i : Ix) (t : State) (d : Opnd) (m b : LaneMask) :
    i.done (i.writePred t d m b) = i.writePred (i.done t) d m b := by
  cases d <;> rfl

theorem done_countUse (i : Ix) (used : Bool) (t : State) : i.done (i.countUse used t) = i.countUse used (i.done t) := by
  cases used <;> rfl

theorem countUse_writePred (i : Ix) (used : Bool) (t : State) (d : Opnd) (m b : LaneMask) :
    i.countUse used (i.writePred t d m b) = i.writePred (i.countUse used t) d m b := by
  cases used <;> cases d <;> rfl

/-- A use that one of two destinations drops is counted for the first, or else for the second. -/
theorem countUse_either (i : Ix) (used x y : Bool) (t : State) :
    i.countUse (used && (x || y)) t = i.countUse (!x && y && used) (i.countUse (x && used) t) := by
  cases x <;> cases y <;> cases used <;> rfl

theorem finish2_ends (i : Ix) (d d2 : Opnd) (ty : Ty) (r : Nat → Val) {b : LaneMask} {c : Nat → Bool} (hg : i.g ≠ 0)
    (hc : ∀ l, i.g.getLsbD l = true → b.getLsbD l = c l) :
    EndsWith i.s (i.finish2 d d2 ty ((lanesOf i.g).map fun l => (l, r l)) b) i d d2 ty r c := by
  have hSplit : i.finish2 d d2 ty ((lanesOf i.g).map fun l => (l, r l)) b =
      i.countUse false (i.writePred (i.finish d ty ((lanesOf i.g).map fun l => (l, r l))) d2 i.g b) := done_writePred ..
  rw [hSplit]
  exact finish_then_preds i d d2 ty r false hg hc

/-- An instruction that may take effect passes the checks of its sources and of its destination. -/
theorem run_checked {i : Ix} {us : List Use} {d : Opnd} {n : Nat} (hAble : Able i us d n) (t : State) :
    (i.run do
      i.checkSources us i.g
      i.checkDests [(d, n)]
      i.maskHome d
      pure t) = t := by
  simp only [checkSources_ok _ _ _ hAble.reads, checkDests_ok _ _ _ hAble.dest.full, maskHome_ok _ _ _ hAble.dest, bind,
    Except.bind, pure, Except.pure, run_ok _ _ hAble.lanes]

/-- Of the entries of the guard-true lanes the one of lane `l` is the lane's own. -/
theorem any_lane {α : Type} (g : LaneMask) (f : Nat → α) (p : α → Bool) (l : Nat) :
    (((lanesOf g).map fun l => (l, f l)).any fun r => decide (r.1 = l) && p r.2) = (g.getLsbD l && p (f l)) := by
  rw [Bool.eq_iff_iff]
  simp only [List.any_map, List.any_eq_true, Function.comp_apply, mem_lanesOf, Bool.and_eq_true, decide_eq_true_eq]
  exact ⟨fun ⟨m, hm, hml, hp⟩ => hml ▸ ⟨hm, hp⟩, fun ⟨hl, hp⟩ => ⟨l, hl, rfl, hp⟩⟩

end Sys2Proof.Machine
end

section
/-! O2: IADDC and ISUBB (R142). -/

namespace Sys2Proof.Machine
open Sys2Proof.Claims

/-- An operand that is read as 32 bits is a word. -/
theorem read_word_lt (i : Ix) (o : Opnd) (l : Nat) : (i.read o .w32 l).bits.toNat < 2 ^ 32 := by
  have hWord (w : Word) : (w.setWidth 64).toNat < 2 ^ 32 := by
    rw [BitVec.toNat_setWidth_of_le (by decide)]
    exact w.isLt
  cases o with
  | v r => exact hWord _
  | s r => exact hWord _
  | p r =>
    show (if (i.h.pred r).getLsbD l then 1 else 0 : DWord).toNat < 2 ^ 32
    split <;> decide
  | m r => exact hWord _
  | lit w => exact hWord _
  | _ => exact (by decide : (0 : Nat) < 2 ^ 32)

theorem lo_read_toNat (i : Ix) (o : Opnd) (l : Nat) : (lo (i.read o .w32 l).bits).toNat = (i.read o .w32 l).bits.toNat := by
  rw [lo_toNat, Nat.mod_eq_of_lt (read_word_lt i o l)]

section Carry

variable {h : Hdr} {o : Ops} {t : Ty} {s : State}

/-- What a carry form computes in a lane: the value for D and the bit for D2. -/
def carryAt (i : Ix) (o : Ops) (f : Nat → Nat → Nat → Nat × Bool) (l : Nat) : Nat × Bool :=
  f (i.read o.a .w32 l).bits.toNat (i.read o.b .w32 l).bits.toNat (if (i.predOf o.c).getLsbD l then 1 else 0)

/-- The mark of the result of a carry form. -/
def carryMark (i : Ix) (o : Ops) (l : Nat) : Bool := (i.read o.a .w32 l).poison || (i.read o.b .w32 l).poison || i.bitMark o.c

/-- The results of a carry form over the guard-true lanes, as the model lists them. -/
def carryResults (i : Ix) (o : Ops) (f : Nat → Nat → Nat → Nat × Bool) : List (Nat × (Nat × Bool) × Bool) :=
  (lanesOf i.g).map fun l => (l, carryAt i o f l, carryMark i o l)

/-- The values that a carry form writes to D. -/
def carryVal (i : Ix) (o : Ops) (f : Nat → Nat → Nat → Nat × Bool) (l : Nat) : Val :=
  { bits := BitVec.ofNat 64 (carryAt i o f l).1, poison := carryMark i o l }

theorem carryResults_vals (i : Ix) (o : Ops) (f : Nat → Nat → Nat → Nat × Bool) :
    (carryResults i o f).map (fun r => (r.1, ({ bits := BitVec.ofNat 64 r.2.1.1, poison := r.2.2 } : Val))) =
      (lanesOf i.g).map fun l => (l, carryVal i o f l) := List.map_map ..

theorem carryResults_bits (i : Ix) (o : Ops) (f : Nat → Nat → Nat → Nat × Bool) {l : Nat} (hl : i.g.getLsbD l = true) :
    (maskOf fun l => (carryResults i o f).any fun r => r.1 = l && r.2.1.2).getLsbD l = (carryAt i o f l).2 := by
  rw [maskOf_getLsbD _ l (BitVec.lt_of_getLsbD hl)]
  refine (any_lane i.g (fun l => (carryAt i o f l, carryMark i o l)) (fun r => r.1.2) l).trans ?_
  rw [hl, Bool.true_and]

theorem carryResults_used (i : Ix) (o : Ops) (f : Nat → Nat → Nat → Nat × Bool) :
    ((lanesOf i.g).map fun l => (l, carryVal i o f l)).any (fun r => r.2.poison) = (carryResults i o f).any fun r => r.2.2 := by
  rw [List.any_map, carryResults, List.any_map]
  rfl

/-- A carry form ends with its values in D and its bits in D2; a mark that D2 alone drops is counted after it. -/
theorem carryOp_eq (f : Nat → Nat → Nat → Nat × Bool) (hAble : Able (Ix.of s h) (uses3 h o .w32 .w32 .w32) o.d 1) :
    let i := Ix.of s h
    carryOp h o t f s = i.countUse (!dropsMark o.d && dropsMark o.d2 && (carryResults i o f).any fun r => r.2.2)
      (i.writePred (i.finish o.d t ((lanesOf i.g).map fun l => (l, carryVal i o f l))) o.d2 i.g
        (maskOf fun l => (carryResults i o f).any fun r => r.1 = l && r.2.1.2)) := by
  intro i
  unfold Ix.finish
  rw [carryResults_used, ← done_writePred, ← countUse_writePred, ← done_countUse, ← countUse_either, ← carryResults_vals]
  exact run_checked hAble _

/-- A carry form that may take effect leaves its values in D and its bits in D2. -/
theorem carryOp_ends (f : Nat → Nat → Nat → Nat × Bool) (hTy : t = .i32 ∨ t = .n32)
    (hAble : Able (Ix.of s h) (uses3 h o .w32 .w32 .w32) o.d 1) {r : Nat → Val} {c : Nat → Bool}
    (hr : ∀ l, carryVal (Ix.of s h) o f l = r l) (hc : ∀ l, (carryAt (Ix.of s h) o f l).2 = c l) :
    (o.d ≠ o.d2 → Gets (carryOp h o t f s) (Ix.of s h) o.d t r) ∧ GetsPred (carryOp h o t f s) (Ix.of s h) o.d2 c ∧
      Kept s (carryOp h o t f s) (Ix.of s h) [(o.d, 1), (o.d2, 1)] ∧ WentOn s (carryOp h o t f s) (Ix.of s h) := by
  obtain rfl : carryVal (Ix.of s h) o f = r := funext hr
  have hRegs : Ty.regs t = 1 := by rcases hTy with rfl | rfl <;> rfl
  have hEnds := finish_then_preds (Ix.of s h) o.d o.d2 t (carryVal (Ix.of s h) o f)
    (!dropsMark o.d && dropsMark o.d2 && (carryResults (Ix.of s h) o f).any fun r => r.2.2) hAble.lanes
    fun l hl => (carryResults_bits _ _ _ hl).trans (hc l)
  rw [← carryOp_eq f hAble, EndsWith, hRegs] at hEnds
  exact hEnds

end Carry

/-- Settles O2: both forms are carry forms, over operands that are words; the borrow form adds 2³³ before it subtracts, which
changes nothing modulo 2³². -/
theorem carryInstructions : Obligations.CarryInstructions := by
  unfold Obligations.CarryInstructions
  intro h o t hTy s hAble i a b c mark
  have ha (l : Nat) : (i.read o.a .w32 l).bits.toNat = a l := (lo_read_toNat i o.a l).symm
  have hb (l : Nat) : (i.read o.b .w32 l).bits.toNat = b l := (lo_read_toNat i o.b l).symm
  refine ⟨⟨_, rfl, carryOp_ends _ hTy hAble (fun l => ?addBits) fun l => ?carry⟩, _, rfl,
    carryOp_ends _ hTy hAble (fun l => ?subBits) fun l => ?borrow⟩
  case addBits =>
    unfold carryVal carryAt
    rw [ha, hb]
    rfl
  case carry =>
    unfold carryAt
    rw [ha, hb]
  case subBits =>
    have hDiff : ((a l + 2 ^ 33 - b l - c l) % 2 ^ 32 : Nat) = ((a l : Int) - b l - c l) % 2 ^ 32 := by
      have hbLt : b l < 2 ^ 32 := (lo (i.read o.b .w32 l).bits).isLt
      have hcLt : c l ≤ 1 := by
        unfold c
        split <;> omega
      omega
    unfold carryVal carryAt
    rw [ha, hb, ← hDiff, BitVec.ofInt_natCast]
    rfl
  case borrow =>
    unfold carryAt
    rw [ha, hb]

end Sys2Proof.Machine
end

section
/-! O3: logic, shifts, bit fields and bit counts (R144 to R146), each as an operation on the bits of a word. -/

namespace Sys2Proof.Machine
open Sys2Proof.Claims

/-! ### Truth tables (R144) -/

theorem getLsbD_foldl_or (p : Nat → Bool) (g : Nat → DWord) (l : List Nat) (m : DWord) (j : Nat) :
    (l.foldl (fun acc k => if p k then acc ||| g k else acc) m).getLsbD j =
      (m.getLsbD j || l.any fun k => p k && (g k).getLsbD j) := by
  induction l generalizing m with
  | nil => simp
  | cons k l ih =>
    rw [List.foldl_cons, ih, List.any_cons]
    cases p k <;> simp [Bool.or_assoc]

/-- Bit `k` of a table of three sources is the entry that their bits name (R144). -/
theorem getLsbD_tableOf (f : BitVec 8) (a b c : DWord) {k : Nat} (hk : k < 64) : (tableOf f a b c).getLsbD k =
    f.getLsbD ((if a.getLsbD k then 1 else 0) + (if b.getLsbD k then 2 else 0) + (if c.getLsbD k then 4 else 0)) := by
  unfold tableOf
  rw [getLsbD_foldl_or]
  simp only [apply_ite (BitVec.getLsbD · k), BitVec.getLsbD_and, BitVec.getLsbD_not, hk, decide_true, Bool.true_and]
  cases a.getLsbD k <;> cases b.getLsbD k <;> cases c.getLsbD k <;> simp [List.range_succ, Nat.testBit]

/-! ### Shifts (R145) -/

/-- The count of a shift of `w` bits: modulo the width with WRAP (R145). -/
def shiftCount (w : Nat) (wrap : Bool) (n : Nat) : Nat := if wrap then n % w else n

theorem shiftLeft_eq {w : Nat} (x : BitVec w) (wrap : Bool) (n : Nat) :
    shiftLeft w wrap x.toNat n = (x <<< shiftCount w wrap n).toNat := by
  show (if w ≤ shiftCount w wrap n then 0 else x.toNat * 2 ^ shiftCount w wrap n % 2 ^ w) = _
  split
  · rw [BitVec.shiftLeft_eq_zero ‹_›]
    rfl
  · rw [BitVec.toNat_shiftLeft, Nat.shiftLeft_eq]

theorem shiftRight_eq {w : Nat} (x : BitVec w) (wrap : Bool) (n : Nat) :
    shiftRight w wrap x.toNat n = (x >>> shiftCount w wrap n).toNat := by
  show (if w ≤ shiftCount w wrap n then 0 else x.toNat / 2 ^ shiftCount w wrap n) = _
  split
  · rw [BitVec.ushiftRight_eq_zero ‹_›]
    rfl
  · rw [BitVec.toNat_ushiftRight, Nat.shiftRight_eq_div_pow]

/-- Past the sign bit an arithmetic shift gives the sign again. -/
theorem sshiftRight_min {w : Nat} (hw : 0 < w) (x : BitVec w) (n : Nat) : x.sshiftRight (min n (w - 1)) = x.sshiftRight n := by
  apply BitVec.eq_of_getLsbD_eq
  intro i hi
  rw [BitVec.getLsbD_sshiftRight, BitVec.getLsbD_sshiftRight]
  by_cases hn : n ≤ w - 1
  · rw [Nat.min_eq_left hn]
  · rw [Nat.min_eq_right (by omega), if_neg (show ¬ n + i < w by omega)]
    split
    · have hZero : i = 0 := by omega
      rw [hZero, Nat.add_zero, BitVec.msb_eq_getLsbD_last]
    · rfl

theorem shiftArith_eq {w : Nat} (hw : 0 < w) (x : BitVec w) (wrap : Bool) (n : Nat) :
    shiftArith w wrap x.toNat n = (x.sshiftRight (shiftCount w wrap n)).toNat := by
  rw [← sshiftRight_min hw, shiftArith, wrapTo_eq_toNat, signedVal_eq_toInt _ hw, BitVec.ofNat_toNat, BitVec.setWidth_eq,
    BitVec.sshiftRight, Int.shiftRight_eq_div_pow]
  simp [shiftCount]

/-- The bits that a rotation brings round fill the place of those that it shifts up (R144). -/
theorem rotl_eq (x : Word) (n : Nat) :
    x.toNat * 2 ^ (n % 32) % 2 ^ 32 + x.toNat / 2 ^ (32 - n % 32) = (x.rotateLeft (n % 32)).toNat := by
  have hCount : n % 32 < 32 := Nat.mod_lt _ (by decide)
  rw [BitVec.toNat_rotateLeft, Nat.mod_mod]
  generalize n % 32 = k at hCount
  have hFull : 2 ^ 32 = 2 ^ k * 2 ^ (32 - k) := by rw [← Nat.pow_add, Nat.add_sub_cancel' hCount.le]
  have hLow : x.toNat / 2 ^ (32 - k) < 2 ^ k := Nat.div_lt_of_lt_mul (by rw [Nat.mul_comm, ← hFull]; exact x.isLt)
  have hHigh : x.toNat * 2 ^ k % 2 ^ 32 = (x.toNat % 2 ^ (32 - k)) <<< k := by
    rw [hFull, Nat.mul_comm, Nat.mul_mod_mul_left, Nat.shiftLeft_eq, Nat.mul_comm]
  rw [Nat.shiftLeft_eq, hHigh, Nat.shiftRight_eq_div_pow, Nat.shiftLeft_add_eq_or_of_lt hLow]

theorem toNat_append_words (c a : Word) : (c ++ a : DWord).toNat = c.toNat * 2 ^ 32 + a.toNat := by
  rw [BitVec.toNat_append, ← Nat.shiftLeft_add_eq_or_of_lt a.isLt, Nat.shiftLeft_eq]

theorem lo_toNat_mod_32 (b : DWord) : (lo b).toNat % 32 = b.toNat % 32 := by
  rw [lo_toNat, Nat.mod_mod_of_dvd _ (by decide)]

/-- The upper half of the shifted pair (R145). -/
theorem funnel_left (v : DWord) (n : Nat) :
    BitVec.ofNat 64 (v.toNat * 2 ^ n / 2 ^ 32 % 2 ^ 32) = up ((v <<< n).extractLsb' 32 32) := by
  apply BitVec.eq_of_toNat_eq
  simp only [up, BitVec.toNat_ofNat, BitVec.toNat_setWidth, BitVec.extractLsb'_toNat, BitVec.toNat_shiftLeft, Nat.shiftLeft_eq,
    Nat.shiftRight_eq_div_pow]
  omega

theorem funnel_right (v : DWord) (n : Nat) : BitVec.ofNat 64 (v.toNat / 2 ^ n % 2 ^ 32) = up ((v >>> n).setWidth 32) := by
  apply BitVec.eq_of_toNat_eq
  simp only [up, BitVec.toNat_ofNat, BitVec.toNat_setWidth, BitVec.toNat_ushiftRight, Nat.shiftRight_eq_div_pow]

/-! ### Bit fields (R146) -/

theorem setWidth_ofInt {m n : Nat} (h : n ≤ m) (x : Int) : (BitVec.ofInt m x).setWidth n = BitVec.ofInt n x := by
  apply BitVec.eq_of_toNat_eq
  rw [BitVec.toNat_setWidth, ← wrapTo_eq_toNat, ← wrapTo_eq_toNat, wrapTo, wrapTo]
  have hNonneg (k : Nat) : 0 ≤ x % 2 ^ k := Int.emod_nonneg _ (by positivity)
  zify
  rw [Int.toNat_of_nonneg (hNonneg m), Int.toNat_of_nonneg (hNonneg n), Int.emod_emod_of_dvd _ (pow_dvd_pow 2 h)]

/-- The position of a field in B, at most 32 (R146). -/
def fieldPos (b : DWord) : Nat := min (b.toNat % 256) 32
/-- The size of a field in B, at most 32 (R146). -/
def fieldSize (b : DWord) : Nat := min (b.toNat / 256 % 256) 32

theorem fieldSize_le (b : DWord) : fieldSize b ≤ 32 := Nat.min_le_right ..

theorem bfeOf_unsigned (a b : DWord) : bfeOf false a.toNat b.toNat = ((lo a >>> fieldPos b).setWidth (fieldSize b)).toNat := by
  have hField : wrapTo (((a.toNat % 2 ^ 32 : Nat) : Int) / 2 ^ fieldPos b) (fieldSize b) =
      ((lo a >>> fieldPos b).setWidth (fieldSize b)).toNat := by
    rw [← lo_toNat, BitVec.toNat_setWidth, BitVec.toNat_ushiftRight, Nat.shiftRight_eq_div_pow, wrapTo]
    norm_cast
  show (if fieldSize b = 0 then 0 else wrapTo (((a.toNat % 2 ^ 32 : Nat) : Int) / 2 ^ fieldPos b) (fieldSize b)) = _
  rw [hField]
  split
  · next hSize => rw [hSize, BitVec.toNat_of_zero_length rfl]
  · rfl

theorem bfeOf_signed (a b : DWord) :
    bfeOf true a.toNat b.toNat = ((((lo a).sshiftRight (fieldPos b)).setWidth (fieldSize b)).signExtend 32).toNat := by
  have hField : BitVec.ofInt (fieldSize b) (signedVal a.toNat 32 / 2 ^ fieldPos b) =
      ((lo a).sshiftRight (fieldPos b)).setWidth (fieldSize b) := by
    rw [BitVec.sshiftRight, setWidth_ofInt (fieldSize_le b), signedVal_eq_toInt _ (by decide), BitVec.ofNat_toNat,
      Int.shiftRight_eq_div_pow]
    norm_cast
  show (if fieldSize b = 0 then 0
    else wrapTo (signedVal (wrapTo (signedVal a.toNat 32 / 2 ^ fieldPos b) (fieldSize b)) (fieldSize b)) 32) = _
  split
  · next hSize =>
    rw [hSize, BitVec.eq_nil (BitVec.setWidth 0 _)]
    rfl
  · next hSize =>
    rw [wrapTo_eq_toNat, wrapTo_eq_toNat, hField, signedVal_eq_toInt _ (Nat.pos_of_ne_zero hSize), BitVec.ofNat_toNat,
      BitVec.setWidth_eq, BitVec.signExtend]

theorem getLsbD_bfe_unsigned (a b : DWord) {k : Nat} (hk : k < 32) : (BitVec.ofNat 64 (bfeOf false a.toNat b.toNat)).getLsbD k =
    (decide (k < fieldSize b) && (lo a).getLsbD (fieldPos b + k)) := by
  rw [bfeOf_unsigned, BitVec.ofNat_toNat, BitVec.getLsbD_setWidth, BitVec.getLsbD_setWidth, BitVec.getLsbD_ushiftRight]
  simp [show k < 64 by omega]

/-- Bit `k` of a word shifted arithmetically, which keeps its sign bit. -/
theorem getLsbD_sshiftRight_word (x : Word) (p : Nat) {k : Nat} (hk : k < 32) :
    (x.sshiftRight p).getLsbD k = x.getLsbD (min (p + k) 31) := by
  rw [BitVec.getLsbD_sshiftRight, BitVec.msb_eq_getLsbD_last]
  by_cases hIn : p + k < 32
  · rw [if_pos hIn, Nat.min_eq_left (by omega)]
    simp [hk]
  · rw [if_neg hIn, Nat.min_eq_right (by omega)]
    simp [hk]

theorem getLsbD_bfe_signed (a b : DWord) {k : Nat} (hk : k < 32) : (BitVec.ofNat 64 (bfeOf true a.toNat b.toNat)).getLsbD k =
    (decide (fieldSize b ≠ 0) && (lo a).getLsbD (min (fieldPos b + (if k < fieldSize b then k else fieldSize b - 1)) 31)) := by
  have hSize := fieldSize_le b
  rw [bfeOf_signed, BitVec.ofNat_toNat, BitVec.getLsbD_setWidth, BitVec.getLsbD_signExtend, BitVec.msb_setWidth,
    BitVec.getLsbD_setWidth]
  simp only [hk, show k < 64 by omega, decide_true, Bool.true_and]
  by_cases hIn : k < fieldSize b
  · rw [if_pos hIn, if_pos hIn, getLsbD_sshiftRight_word _ _ hk]
    simp [hIn, show fieldSize b ≠ 0 by omega]
  · rw [if_neg hIn, if_neg hIn]
    by_cases hNone : fieldSize b = 0
    · simp [hNone]
    · rw [getLsbD_sshiftRight_word _ _ (by omega)]
      simp [hNone, Nat.pos_of_ne_zero hNone]

/-- BFI takes the bits of the field from A and the others from C. -/
theorem getLsbD_bfi (a b c : DWord) {k : Nat} (hk : k < 32) : (BitVec.ofNat 64 (bfiOf a.toNat b.toNat c.toNat)).getLsbD k =
    if b.toNat % 256 ≤ k ∧ k < b.toNat % 256 + b.toNat / 256 % 256 then a.getLsbD (k - b.toNat % 256) else c.getLsbD k := by
  rw [BitVec.getLsbD_ofNat, bfiOf, testBit_sum_bits]
  simp only [hk, show k < 64 by omega, decide_true, Bool.true_and]
  rfl

/-! ### Counts of bits (R144) -/

theorem popcount_eq_countP (w : Nat) (a : DWord) : popcount w a.toNat = (List.range w).countP fun k => a.getLsbD k :=
  (List.countP_eq_length_filter ..).symm

theorem leadingZeros_le (w x : Nat) : leadingZeros w x ≤ w := by
  unfold leadingZeros
  split <;> omega

theorem testBit_leadingZeros {w x k : Nat} (hLow : w - leadingZeros w x ≤ k) (hk : k < w) : x.testBit k = false := by
  have hBit : (x % 2 ^ w).testBit k = x.testBit k := by rw [Nat.testBit_mod_two_pow]; simp [hk]
  rw [← hBit]
  unfold leadingZeros at hLow
  by_cases hZero : x % 2 ^ w = 0
  · rw [hZero, Nat.zero_testBit]
  · rw [if_neg hZero] at hLow
    have hTop : Nat.log2 (x % 2 ^ w) < w := (Nat.log2_lt hZero).2 (Nat.mod_lt _ (by positivity))
    exact Nat.testBit_lt_two_pow ((Nat.log2_lt hZero).1 (by omega))

theorem testBit_below_leadingZeros {w x : Nat} (h : leadingZeros w x < w) : x.testBit (w - 1 - leadingZeros w x) = true := by
  unfold leadingZeros at *
  by_cases hZero : x % 2 ^ w = 0
  · rw [if_pos hZero] at h
    omega
  · rw [if_neg hZero]
    have hTop : Nat.log2 (x % 2 ^ w) < w := (Nat.log2_lt hZero).2 (Nat.mod_lt _ (by positivity))
    have hBit := Nat.testBit_log2 hZero
    rw [Nat.testBit_mod_two_pow, Bool.and_eq_true] at hBit
    rw [show w - 1 - (w - 1 - Nat.log2 (x % 2 ^ w)) = Nat.log2 (x % 2 ^ w) by omega]
    exact hBit.2

/-- The number of trailing zeros is the place of the lowest bit that is set, or the width. -/
theorem trailingZeros_spec (w x : Nat) : trailingZeros w x ≤ w ∧ (∀ k, k < trailingZeros w x → x.testBit k = false) ∧
    (trailingZeros w x < w → x.testBit (trailingZeros w x) = true) := by
  unfold trailingZeros
  cases hFind : (List.range w).find? fun k => x.testBit k with
  | none =>
    rw [List.find?_range_eq_none] at hFind
    refine ⟨le_rfl, fun k hk => ?_, fun hLt => absurd hLt (lt_irrefl w)⟩
    simpa using hFind k hk
  | some g =>
    obtain ⟨hSet, hRange, hBelow⟩ := List.find?_range_eq_some.1 hFind
    refine ⟨(List.mem_range.1 hRange).le, fun k hk => ?_, fun _ => hSet⟩
    simpa using hBelow k hk

theorem testBit_bitReverse (w x : Nat) {k : Nat} (hk : k < w) : (bitReverse w x).testBit k = x.testBit (w - 1 - k) := by
  unfold bitReverse
  rw [testBit_sum_bits]
  simp [hk]

/-! ### The obligation -/

section Shifts

variable {n : Instr} {h : Hdr} {o : Ops} {f : Nat → Nat → Nat}

/-- A shift of 32 bits that is one of words computes it. -/
theorem shift32_computes (g : Word → Nat → Word) (hExec : ∀ s, exec n s = .next (shift32 h o f s))
    (hf : ∀ x k, f x.toNat k = (g x k).toNat) : Computes n h o .w32 .w32 .w32 .b32 fun a b _ => up (g (lo a) (lo b).toNat) := by
  refine alu_computes_of_eq hExec fun a b _ => ?_
  rw [← lo_toNat, ← lo_toNat, hf, BitVec.ofNat_toNat]
  rfl

theorem shift64_computes (g : DWord → Nat → DWord)
    (hExec : ∀ s, exec n s = .next (wideOp h o .b64 (fun a b => BitVec.ofNat 64 (f a.toNat (b.toNat % 2 ^ 32))) s))
    (hf : ∀ x k, f x.toNat k = (g x k).toNat) : Computes n h o (.of .b64) (.of .b64) .w32 .b64 fun a b _ => g a (lo b).toNat := by
  refine alu_computes_of_eq hExec fun a b _ => ?_
  show BitVec.ofNat 64 (f a.toNat (b.toNat % 2 ^ 32)) = _
  rw [← lo_toNat, hf, BitVec.ofNat_toNat, BitVec.setWidth_eq]

end Shifts

/-- A count of bits of the low half or of the whole of A. -/
def countOf (w64 : Bool) (f : Nat → Nat → Nat) (a : DWord) : Nat := f (if w64 then 64 else 32) a.toNat

theorem countOp_computes {n : Instr} {h : Hdr} {o : Ops} {w64 : Bool} {f : Nat → Nat → Nat}
    (hExec : ∀ s, exec n s = .next (countOp h o w64 f s)) :
    Computes n h o (.bw w64) .w32 .w32 .n32 fun a _ _ => BitVec.ofNat 64 (countOf w64 f a) := alu_computes _ _ _ _ _ _ _ _ hExec

/-- Settles O3: each instruction is the lane-by-lane shape with a function of bits, and the arithmetic that the model writes it with
is that function. -/
theorem logicShiftsAndBitFields : Obligations.LogicShiftsAndBitFields := by
  unfold Obligations.LogicShiftsAndBitFields
  refine ⟨⟨?and, ?or, ?xor, ?not, ?andn, ?bool3, ?shl, ?shr, ?sar, ?rotl, ?funnelLeft, ?funnelRight, ?shl64, ?shr64, ?sar64⟩,
    ?bfe, ?bfeSigned, ?bfi, ?popc, ?clz, ?ctz, ?brev⟩
  case and => exact fun h o w => alu_computes _ _ _ _ _ _ _ _ fun _ => rfl
  case or => exact fun h o w => alu_computes _ _ _ _ _ _ _ _ fun _ => rfl
  case xor => exact fun h o w => alu_computes _ _ _ _ _ _ _ _ fun _ => rfl
  case not => exact fun h o w => alu_computes _ _ _ _ _ _ _ _ fun _ => rfl
  case andn => exact fun h o w => alu_computes _ _ _ _ _ _ _ _ fun _ => rfl
  case bool3 => exact fun h o w f => ⟨tableOf f, alu_computes _ _ _ _ _ _ _ _ fun _ => rfl, fun a b c k => getLsbD_tableOf f a b c⟩
  case shl => exact fun h o wrap => shift32_computes (· <<< shiftCount 32 wrap ·) (fun _ => rfl) (shiftLeft_eq · wrap)
  case shr => exact fun h o wrap => shift32_computes (· >>> shiftCount 32 wrap ·) (fun _ => rfl) (shiftRight_eq · wrap)
  case sar => exact fun h o wrap =>
    shift32_computes (·.sshiftRight <| shiftCount 32 wrap ·) (fun _ => rfl) (shiftArith_eq (by decide) · wrap)
  case rotl => exact fun h o => shift32_computes (fun x k => x.rotateLeft (k % 32)) (fun _ => rfl) rotl_eq
  case funnelLeft =>
    refine fun h o => alu_computes_of_eq (fun _ => rfl) fun a b c => ?_
    rw [← funnel_left, toNat_append_words, lo_toNat, lo_toNat, lo_toNat_mod_32]
    exact congrArg (BitVec.ofNat 64) (if_pos rfl)
  case funnelRight =>
    refine fun h o => alu_computes_of_eq (fun _ => rfl) fun a b c => ?_
    rw [← funnel_right, toNat_append_words, lo_toNat, lo_toNat, lo_toNat_mod_32]
    exact congrArg (BitVec.ofNat 64) (if_neg Bool.false_ne_true)
  case shl64 => exact fun h o wrap => shift64_computes (· <<< shiftCount 64 wrap ·) (fun _ => rfl) (shiftLeft_eq · wrap)
  case shr64 => exact fun h o wrap => shift64_computes (· >>> shiftCount 64 wrap ·) (fun _ => rfl) (shiftRight_eq · wrap)
  case sar64 => exact fun h o wrap =>
    shift64_computes (·.sshiftRight <| shiftCount 64 wrap ·) (fun _ => rfl) (shiftArith_eq (by decide) · wrap)
  case bfe => exact fun h o => ⟨_, alu_computes _ _ _ _ _ _ _ _ fun _ => rfl, fun a b _ _ => getLsbD_bfe_unsigned a b⟩
  case bfeSigned => exact fun h o => ⟨_, alu_computes _ _ _ _ _ _ _ _ fun _ => rfl, fun a b _ _ => getLsbD_bfe_signed a b⟩
  case bfi => exact fun h o => ⟨_, alu_computes _ _ _ _ _ _ _ _ fun _ => rfl, fun a b c _ => getLsbD_bfi a b c⟩
  case popc =>
    refine fun h o w => alu_computes_of_eq (fun _ => rfl) fun a _ _ => ?_
    rw [popcount_eq_countP]
  case clz =>
    refine fun h o w => ⟨countOf w leadingZeros, countOp_computes fun _ => rfl, fun a => ?_⟩
    exact ⟨leadingZeros_le _ _, fun _ => testBit_leadingZeros, testBit_below_leadingZeros⟩
  case ctz => exact fun h o w => ⟨countOf w trailingZeros, countOp_computes fun _ => rfl, fun a => trailingZeros_spec _ _⟩
  case brev =>
    refine fun h o w => ⟨_, alu_computes _ _ _ _ _ _ _ _ fun _ => rfl, fun a k hk => ?_⟩
    have hWide : k < 64 := by
      refine hk.trans_le ?_
      split <;> decide
    rw [BitVec.getLsbD_ofNat, testBit_bitReverse _ _ hk]
    simp only [hWide, decide_true, Bool.true_and]
    rfl

end Sys2Proof.Machine
end

section
/-! SUPPORT. O4 fails as it is stated: it does not say that source B of MOVI is a literal, as R148 has it. MOVI.HI takes B as one
value of the issue, that of lane 0, and the statement asks for the value of each lane; a vector register, which the decoder refuses
there, holds different ones. -/

namespace Sys2Proof.Machine
open Sys2Proof.Claims

/-- The small state with 1 in lane 1 of v4, and 0 in every other lane. -/
def unevenB : State := Tests.base.modHoist 0 fun x => x.setElem ((Ix.of Tests.base (Tests.hd .f64)).areg 4) 1 1 false

/-- MOVI.HI to v2 and v3 with v4 as its source. -/
def movHigh : Instr := .movi (Tests.hd .f64) (Tests.ops (.v 2) .none (.v 4) .none) true true

/-- What lane 1 of the register above D holds after a step. -/
def highAfter (r : Host.Outcome State Fault Refusal) : Option Word :=
  match r with
  | .next t => some ((t.hoist 0).elem ((Ix.of Tests.base (Tests.hd .f64)).areg 3) 1)
  | _ => none

/-- Lane 1 receives the element of lane 0. -/
theorem highAfter_movHigh : highAfter (exec movHigh unevenB) = some 0 := by decide +kernel

/-- Refutes O4: the clause about MOVI.HI (R148) fails for a vector register as source B. v4 holds 1 in lane 1 and 0 in lane 0;
lane 1 of v3 receives 0, and the statement asks for 1. -/
theorem not_movesAndWideArithmetic : ¬ Obligations.MovesAndWideArithmetic := by
  unfold Obligations.MovesAndWideArithmetic
  rintro ⟨-, -, hHigh, -⟩
  have hClean : Tests.cleanB (Ix.of unevenB (Tests.hd .f64)) = true := by decide +kernel
  obtain ⟨t, ht, hGets, -⟩ := hHigh (Tests.hd .f64) (Tests.ops (.v 2) .none (.v 4) .none) true (.inr ⟨2, rfl, rfl⟩) unevenB
    (by decide +kernel) (Tests.readable_clean hClean _ _) (Tests.writable_clean hClean _ _)
  have hStep := highAfter_movHigh
  rw [show exec movHigh unevenB = .next t from ht] at hStep
  obtain ⟨-, hLane, -⟩ := hGets 1 (by decide +kernel)
  have hWant := (Option.some.inj hStep).symm.trans hLane
  revert hWant
  decide +kernel

end Sys2Proof.Machine
end

section
/-! O5: compares and predicate logic (R87, R152, R153, R157, R166, R167, R170). -/

namespace Sys2Proof.Machine
open Sys2Proof.Claims

/-- An instruction that writes predicates alone checks its sources alone. -/
theorem run_read {i : Ix} {us : List Use} {rd : LaneMask} (hg : i.g ≠ 0) (hReads : Readable i us rd) (t : State) :
    (i.run do
      i.checkSources us rd
      pure t) = t := by
  simp only [checkSources_ok _ _ _ hReads, bind, Except.bind, pure, Except.pure, run_ok _ _ hg]

/-- The issue of an instruction under a combining type that comes to its end with the lanes' bits in `c` (R87). -/
def Ix.endPct (i : Ix) (hd : Hdr) (o : Ops) (p : Pct) (us : List Use) (used : Bool) (c : LaneMask) : State :=
  i.run do
    i.checkSources us i.g
    pure (i.done (i.countUse used (i.writePct i.s hd o p c)))

/-- Such an instruction tests the bits. -/
theorem endPct_tests {n : Instr} {hd : Hdr} {o : Ops} {p : Pct} {us : List Use} {used : Ix → Bool} {c : Ix → LaneMask}
    {bit : Ix → Nat → Bool}
    (h : ∀ s, exec n s = .next (((Ix.of s hd).part p).endPct hd o p us (used ((Ix.of s hd).part p)) (c ((Ix.of s hd).part p))))
    (hBit : ∀ i : Ix, i.g ≠ 0 → ∀ l, i.g.getLsbD l = true → (c i).getLsbD l = bit i l) : Tests n hd o p us bit := by
  intro s hg hReads
  refine ⟨_, h s, ?_⟩
  obtain ⟨hs, hf, -, -, he, hNext⟩ := part_same (Ix.of s hd) p
  generalize (Ix.of s hd).part p = j at *
  obtain ⟨hGets, hKept, hWent⟩ := pct_tests j hd o p (c j) (bit j) (used j) (hBit j hg)
  have hKept' (t : State) (ds : List (Opnd × Nat)) (hk : Kept j.s t j ds) : Kept s t j ds := by
    rw [hs] at hk
    exact hk
  have hWent' (t : State) (hw : WentOn j.s t j) : WentOn s t (Ix.of s hd) := by
    unfold WentOn at *
    rw [hs, hf, he, hNext] at hw
    exact hw
  unfold Ix.endPct
  rw [run_read hg hReads]
  exact ⟨hGets, hKept' _ _ hKept, hWent' _ hWent⟩

theorem codeOf_two_pow (k : Nat) : codeOf (2 ^ k) = 1#64 <<< k := by
  apply BitVec.eq_of_toNat_eq
  rw [codeOf, BitVec.toNat_ofNat, BitVec.toNat_shiftLeft, Nat.shiftLeft_eq, BitVec.toNat_ofNat, Nat.one_mod, Nat.one_mul]

/-! ### LTEST (R157) -/

theorem getLsbD_everywhere {c : Bool} {l : Nat} (hl : l < 32) : (if c then BitVec.allOnes 32 else 0 : LaneMask).getLsbD l = c := by
  cases c
  · exact BitVec.getLsbD_zero
  · rw [if_pos rfl, BitVec.getLsbD_allOnes, decide_eq_true hl]

theorem lanesOf_and (g p : LaneMask) : lanesOf (g &&& p) = (lanesOf g).filter fun l => p.getLsbD l := by
  unfold lanesOf
  rw [List.filter_filter]
  refine List.filter_congr fun l _ => ?_
  rw [BitVec.getLsbD_and, Bool.and_comm]

theorem and_eq_left_iff (g p : LaneMask) : g &&& p = g ↔ ∀ l ∈ lanesOf g, p.getLsbD l = true := by
  simp only [mem_lanesOf]
  constructor
  · intro h l hl
    rw [← h, BitVec.getLsbD_and, Bool.and_eq_true] at hl
    exact hl.2
  · intro h
    apply BitVec.eq_of_getLsbD_eq
    intro l _
    rw [BitVec.getLsbD_and, Bool.and_eq_left_iff_imp]
    exact h l

theorem and_ne_zero_iff (g p : LaneMask) : g &&& p ≠ 0 ↔ ∃ l ∈ lanesOf g, p.getLsbD l = true := by
  constructor
  · intro h
    obtain ⟨rest, hLanes⟩ := lanesOf_eq_cons _ h
    rw [lanesOf_and] at hLanes
    have hLow : lowestLane (g &&& p) ∈ (lanesOf g).filter fun l => p.getLsbD l := by rw [hLanes]; exact List.mem_cons_self
    exact ⟨_, List.mem_filter.1 hLow⟩
  · rintro ⟨l, hl, hp⟩ hZero
    have hMem : l ∈ lanesOf (g &&& p) := by
      rw [lanesOf_and]
      exact List.mem_filter.2 ⟨hl, hp⟩
    rw [hZero, lanesOf_zero] at hMem
    cases hMem

section LTest

variable (i : Ix) (o : Ops)

theorem ltest_every : i.ltest o .every = (lanesOf i.g).all fun l => (i.predOf o.a).getLsbD l := by
  rw [Bool.eq_iff_iff, List.all_eq_true, ← and_eq_left_iff]
  exact decide_eq_true_iff

theorem ltest_some : i.ltest o .some = (lanesOf i.g).any fun l => (i.predOf o.a).getLsbD l := by
  rw [Bool.eq_iff_iff, List.any_eq_true, ← and_ne_zero_iff]
  exact decide_eq_true_iff

theorem ltest_odd : i.ltest o .odd = decide (((lanesOf i.g).countP fun l => (i.predOf o.a).getLsbD l) % 2 = 1) := by
  rw [List.countP_eq_length_filter, ← lanesOf_and]
  rfl

/-- All values are those of the lowest lane exactly when any two are equal. -/
theorem all_eq_lowest {α : Type} [DecidableEq α] {g : LaneMask} (hg : g ≠ 0) (f : Nat → α) :
    ((lanesOf g).all fun l => decide (f l = f (lowestLane g))) = decide (∀ l ∈ lanesOf g, ∀ m ∈ lanesOf g, f l = f m) := by
  obtain ⟨rest, hLanes⟩ := lanesOf_eq_cons g hg
  have hLow : lowestLane g ∈ lanesOf g := by rw [hLanes]; exact List.mem_cons_self
  rw [Bool.eq_iff_iff, List.all_eq_true, decide_eq_true_iff]
  simp only [decide_eq_true_iff]
  exact ⟨fun h l hl m hm => (h l hl).trans (h m hm).symm, fun h l hl => h l hl _ hLow⟩

variable {i} in
theorem ltest_tests {h : Hdr} {p : Pct} {test : LTest} {bit : Ix → Bool} (hBit : ∀ i : Ix, i.g ≠ 0 → i.ltest o test = bit i) :
    Tests (.ltest h o test p) h o p (uses3 h o (Wd.bw (decide (test = .same64))) .w32 .w32) fun i _ => bit i :=
  endPct_tests (used := fun i => decide (i.poisonLanes o.a (Wd.bw (decide (test = .same64))).regs i.g ≠ 0))
    (c := fun i => if i.ltest o test then BitVec.allOnes 32 else 0) (fun _ => rfl)
    fun i hg _ hl => (getLsbD_everywhere (BitVec.lt_of_getLsbD hl)).trans (hBit i hg)

end LTest

/-! ### PKCMP (R170) -/

/-- The bits of PKCMP for element `e`. -/
def Ix.packedBits (i : Ix) (o : Ops) (m : Fmt) (cond : Cond) (e : Nat) : LaneMask :=
  maskOf fun l => FV.cond cond (m.val (halfOf (i.read o.a .w32 l).bits e)) (m.val (halfOf (i.read o.b .w32 l).bits e))

theorem halfOf_eq (x : DWord) (e : Nat) : halfOf x e = (x.extractLsb' (16 * e) 16).toNat := by
  rw [halfOf, BitVec.extractLsb'_toNat, Nat.shiftRight_eq_div_pow]

theorem exec_pkcmp {h : Hdr} {o : Ops} {bf : Bool} {cond : Cond} {s : State} (hg : (Ix.of s h).g ≠ 0)
    (hReads : Readable (Ix.of s h) (uses3 h o .w32 .w32 .w32) (Ix.of s h).g) :
    ∃ used, exec (.pkcmp h o bf cond) s = .next ((Ix.of s h).done ((Ix.of s h).countUse used
      ((Ix.of s h).writePred ((Ix.of s h).writePred s o.d (Ix.of s h).g ((Ix.of s h).packedBits o (halfFmt bf) cond 0)) o.d2
        (Ix.of s h).g ((Ix.of s h).packedBits o (halfFmt bf) cond 1)))) :=
  ⟨_, congrArg Host.Outcome.next (run_read hg hReads _)⟩

/-! ### PBOOL (R153) -/

/-- The bits of PBOOL: each the entry of the table that three predicates name. -/
def Ix.tableBits (i : Ix) (o : Ops) (f : BitVec 8) : LaneMask :=
  (tableOf f ((i.predOf o.a).setWidth 64) ((i.predOf o.b).setWidth 64) ((i.predOf o.c).setWidth 64)).setWidth 32

theorem getLsbD_tableBits (i : Ix) (o : Ops) (f : BitVec 8) {l : Nat} (hl : l < 32) : (i.tableBits o f).getLsbD l =
    f.getLsbD ((if (i.predOf o.a).getLsbD l then 1 else 0) + (if (i.predOf o.b).getLsbD l then 2 else 0) +
      (if (i.predOf o.c).getLsbD l then 4 else 0)) := by
  rw [Ix.tableBits, BitVec.getLsbD_setWidth, getLsbD_tableOf _ _ _ _ (by omega)]
  simp only [BitVec.getLsbD_setWidth, hl, show l < 64 by omega, decide_true, Bool.true_and]

/-! ### The obligation -/

/-- Settles O5: all but PKCMP end with their bits under the combining type, whatever the rule by which they find them, and PKCMP
writes the outcomes of its two elements. -/
theorem comparesAndPredicates : Obligations.ComparesAndPredicates := by
  unfold Obligations.ComparesAndPredicates
  refine ⟨?icmp, ?icmp64, ?fcmp, ?fclass, ?fclassVal, ?pbool, ?every, ?some, ?odd, ?same32, ?same64, ?pkcmp⟩
  case icmp => exact fun h o t cond p => compare_tests _ _ _ _ _ _ _ _ fun _ => rfl
  case icmp64 => exact fun h o t cond p => compare_tests _ _ _ _ _ _ _ _ fun _ => rfl
  case fcmp => exact fun h o t cond p => compare_tests _ _ _ _ _ _ _ _ fun _ => rfl
  case fclass => exact fun h o t p => compare_tests _ _ _ _ _ _ _ _ fun _ => rfl
  case fclassVal => exact fun h o t p => alu_computes_of_eq (fun _ => rfl) fun a _ _ => codeOf_two_pow _
  case pbool =>
    exact fun h o f p => endPct_tests (used := fun i => i.bitMark o.a || i.bitMark o.b || i.bitMark o.c)
      (c := fun i => i.tableBits o f) (fun _ => rfl) fun i _ l hl => getLsbD_tableBits i o f (BitVec.lt_of_getLsbD hl)
  case every => exact fun h o p => ltest_tests o fun i _ => ltest_every i o
  case some => exact fun h o p => ltest_tests o fun i _ => ltest_some i o
  case odd => exact fun h o p => ltest_tests o fun i _ => ltest_odd i o
  case same32 => exact fun h o p => ltest_tests o fun i hg => all_eq_lowest hg fun l => (i.read o.a .w32 l).bits
  case same64 => exact fun h o p => ltest_tests o fun i hg => all_eq_lowest hg fun l => (i.read o.a (.bw true) l).bits
  case pkcmp =>
    intro h o bf cond s hg hReads i m bit
    obtain ⟨used, hExec⟩ := exec_pkcmp (bf := bf) (cond := cond) hg hReads
    have hBit (e l : Nat) (hl : i.g.getLsbD l = true) : (i.packedBits o m cond e).getLsbD l = bit e l := by
      rw [Ix.packedBits, maskOf_getLsbD _ l (BitVec.lt_of_getLsbD hl), halfOf_eq, halfOf_eq]
    obtain ⟨hFirst, hSecond⟩ := preds_gets i o.d o.d2 (i.packedBits o m cond 0) (i.packedBits o m cond 1) used
    exact ⟨_, hExec, fun hne => gets_pred_congr _ _ _ _ _ (hBit 0) (hFirst hne), gets_pred_congr _ _ _ _ _ (hBit 1) hSecond,
      preds_kept i o.d o.d2 _ _ used, preds_wentOn i o.d o.d2 _ _ used⟩

end Sys2Proof.Machine
end

section
/-! O7: exchanges between lanes, folds over them and lanes of one key (R139, R155, R156, R158, R159). -/

namespace Sys2Proof.Machine
open Sys2Proof.Claims

/-! ### Exchanges (R139, R155, R156) -/

/-- An instruction with three sources, each read in lanes of its own, passes its checks. -/
theorem run_readsOfOwnLanes {i : Ix} {ua ub uc : Use} {ma mb mc : LaneMask} {d : Opnd} {n : Nat} (hg : i.g ≠ 0)
    (hA : ma ≠ 0 → Readable i [ua] ma) (hB : Readable i [ub] mb) (hC : mc ≠ 0 → Readable i [uc] mc) (hDest : Writable i d n)
    (t : State) :
    (i.run do
      i.checkReads [(ua, ma), (ub, mb), (uc, mc)]
      i.checkDests [(d, n)]
      i.maskHome d
      pure t) = t := by
  have hReads : ∀ u ∈ [(ua, ma), (ub, mb), (uc, mc)], u.2 ≠ 0 → Readable i [u.1] u.2 := by
    simp only [List.forall_mem_cons]
    exact ⟨hA, fun _ => hB, hC, by simp⟩
  simp only [checkReads_ok _ _ hReads, checkDests_ok _ _ _ hDest.full, maskHome_ok _ _ _ hDest, bind, Except.bind, pure,
    Except.pure, run_ok _ _ hg]

/-- The mask of lanes that satisfy equal conditions. -/
theorem maskOf_congr {p q : Nat → Bool} (h : ∀ l, p l = q l) : maskOf p = maskOf q := congrArg maskOf (funext h)

/-- An instruction that comes to its end with a value for D and a bit for D2 in each lane. -/
theorem finish2_yields {n : Instr} {s : State} {hd : Hdr} {d d2 : Opnd} {ty : Ty} {r : Nat → Val} {b : LaneMask} {c : Nat → Bool}
    (hg : (Ix.of s hd).g ≠ 0)
    (h : exec n s = .next ((Ix.of s hd).finish2 d d2 ty ((lanesOf (Ix.of s hd).g).map fun l => (l, r l)) b))
    (hc : ∀ l, (Ix.of s hd).g.getLsbD l = true → b.getLsbD l = c l) :
    ∃ t, exec n s = .next t ∧ EndsWith s t (Ix.of s hd) d d2 ty r c := ⟨_, h, finish2_ends (Ix.of s hd) d d2 ty r hg hc⟩

section Xlane

variable (i : Ix) (o : Ops) (w : Bool) (mode : XlaneMode) (seg : BitVec 3)

/-- The partner of a lane under XLANE (R155). -/
def Ix.xlanePartner (l : Nat) : Option Nat := partner mode (2 ^ seg.toNat) l ((i.read o.b .w32 l).bits.toNat % 2 ^ 32)

/-- What a lane takes from its partner, or without one from C (R155). -/
def Ix.takeFrom (p : Option Nat) (l : Nat) : Val :=
  (match p with
    | some j => i.readLane o.a (.bw w) j
    | none => i.read o.c (.bw w) l).also (i.read o.b .w32 l).poison

/-- Whether there is a partner and it is guard-true. -/
def Ix.partnerTrue (p : Option Nat) : Bool := match p with | some j => i.g.getLsbD j | none => false

/-- The partners that are read. -/
def Ix.xlaneRead : LaneMask :=
  maskOf fun j => i.present j && (lanesOf i.g).any fun l => decide (i.xlanePartner o mode seg l = some j)

/-- The lanes that have no partner. -/
def Ix.xlaneAlone : LaneMask := maskOf fun l => i.g.getLsbD l && decide (i.xlanePartner o mode seg l = none)

/-- The guard-true lanes with their partners, as the model lists them. -/
def Ix.xlanePairs : List (Nat × Option Nat) := (lanesOf i.g).map fun l => (l, i.xlanePartner o mode seg l)

theorem xlanePairs_read :
    (maskOf fun j => i.present j && (i.xlanePairs o mode seg).any fun p => decide (p.2 = some j)) = i.xlaneRead o mode seg :=
  maskOf_congr fun j => congrArg (i.present j && ·) (List.any_map ..)

theorem xlanePairs_alone :
    (maskOf fun l => (i.xlanePairs o mode seg).any fun p => decide (p.1 = l) && p.2.isNone) = i.xlaneAlone o mode seg := by
  refine maskOf_congr fun l => (any_lane i.g (i.xlanePartner o mode seg) Option.isNone l).trans (congrArg (i.g.getLsbD l && ·) ?_)
  cases i.xlanePartner o mode seg l <;> rfl

theorem xlanePairs_true {l : Nat} (hl : i.g.getLsbD l = true) :
    (maskOf fun l => (i.xlanePairs o mode seg).any fun p => decide (p.1 = l) && i.partnerTrue p.2).getLsbD l =
      i.partnerTrue (i.xlanePartner o mode seg l) := by
  rw [maskOf_getLsbD _ l (BitVec.lt_of_getLsbD hl)]
  exact (any_lane i.g (i.xlanePartner o mode seg) i.partnerTrue l).trans (by rw [hl, Bool.true_and])

theorem xlanePairs_values : (i.xlanePairs o mode seg).map (fun p => (p.1, i.takeFrom o w p.2 p.1)) =
    (lanesOf i.g).map fun l => (l, i.takeFrom o w (i.xlanePartner o mode seg l) l) := List.map_map ..

end Xlane

theorem exec_xlane {h : Hdr} {o : Ops} {w : Bool} {mode : XlaneMode} {seg : BitVec 3} {s : State} (hg : (Ix.of s h).g ≠ 0)
    (hA : (Ix.of s h).xlaneRead o mode seg ≠ 0 →
      Readable (Ix.of s h) [{ o := o.a, n := (Wd.bw w).regs, bit := h.ea }] ((Ix.of s h).xlaneRead o mode seg))
    (hB : Readable (Ix.of s h) [{ o := o.b, n := 1, bit := h.eb }] (Ix.of s h).g)
    (hC : (Ix.of s h).xlaneAlone o mode seg ≠ 0 →
      Readable (Ix.of s h) [{ o := o.c, n := (Wd.bw w).regs, bit := h.ec }] ((Ix.of s h).xlaneAlone o mode seg))
    (hDest : Writable (Ix.of s h) o.d (Ty.regs (bwTy w))) :
    exec (.xlane h o w mode seg) s = .next ((Ix.of s h).finish2 o.d o.d2 (bwTy w)
      ((lanesOf (Ix.of s h).g).map fun l => (l, (Ix.of s h).takeFrom o w ((Ix.of s h).xlanePartner o mode seg l) l))
      (maskOf fun l => ((Ix.of s h).xlanePairs o mode seg).any fun p => decide (p.1 = l) && (Ix.of s h).partnerTrue p.2)) := by
  rw [← xlanePairs_read] at hA
  rw [← xlanePairs_alone] at hC
  rw [← xlanePairs_values]
  exact congrArg Host.Outcome.next (run_readsOfOwnLanes hg hA hB hC hDest _)

section Bfly

variable (i : Ix) (o : Ops) (w hi : Bool)

/-- The distance of BFLY (R156). -/
def Ix.bflyDistance : Nat := (i.read o.b .w32 0).bits.toNat % 64

/-- The element that a lane receives: those below 32 are A's, and the others C's (R156). -/
def Ix.bflyElement (l : Nat) : Nat := (if hi then 32 + l else l) ^^^ i.bflyDistance o

/-- What a lane receives: zero, where the lane of the element is not present (R139). -/
def Ix.bflyValue (l : Nat) : Val :=
  (i.readLane (if i.bflyElement o hi l < 32 then o.a else o.c) (.bw w) (i.bflyElement o hi l % 32)).also (i.read o.b .w32 0).poison

/-- The lanes of A, or of C, that are read. -/
def Ix.bflyRead (lower : Bool) : LaneMask := maskOf fun j => i.x.lanes.getLsbD j &&
  (lanesOf i.g).any fun l => decide (i.bflyElement o hi l % 32 = j) && (decide (i.bflyElement o hi l < 32) == lower)

/-- The bit of D2: whether the lane's element is the lower one of its pair. -/
def Ix.bflyBit (l : Nat) : Bool :=
  decide (i.bflyDistance o = 0) || !((if hi then 32 + l else l).testBit (Nat.log2 (i.bflyDistance o)))

end Bfly

theorem exec_bfly {h : Hdr} {o : Ops} {w hi : Bool} {s : State} (hg : (Ix.of s h).g ≠ 0)
    (hA : (Ix.of s h).bflyRead o hi true ≠ 0 →
      Readable (Ix.of s h) [{ o := o.a, n := (Wd.bw w).regs, bit := h.ea }] ((Ix.of s h).bflyRead o hi true))
    (hC : (Ix.of s h).bflyRead o hi false ≠ 0 →
      Readable (Ix.of s h) [{ o := o.c, n := (Wd.bw w).regs, bit := h.ec }] ((Ix.of s h).bflyRead o hi false))
    (hB : Readable (Ix.of s h) [{ o := o.b, n := 1, bit := h.eb }] (Ix.of s h).g)
    (hDest : Writable (Ix.of s h) o.d (Ty.regs (bwTy w))) :
    exec (.bfly h o w hi) s = .next ((Ix.of s h).finish2 o.d o.d2 (bwTy w)
      ((lanesOf (Ix.of s h).g).map fun l => (l, (Ix.of s h).bflyValue o w hi l)) (maskOf ((Ix.of s h).bflyBit o hi))) := by
  have hElement (l : Nat) : (if hi then 32 else 0) + l = if hi then 32 + l else l := by
    cases hi
    · exact Nat.zero_add l
    · rfl
  show execBfly h o w hi s = _
  unfold execBfly
  simp only [hElement]
  exact congrArg Host.Outcome.next (run_readsOfOwnLanes hg hA hB hC hDest _)

/-! ### Folds (R158) -/

theorem words_read_word (i : Ix) (o : Opnd) (l : Nat) : (i.read o .w32 l).words = none := by cases o <;> rfl

/-- The fold of a list of values in its order, from the first. -/
def foldBits (op : FoldOp) (t : Ty) (vs : List Val) : DWord :=
  match vs with
  | [] => FoldOp.identity op t
  | v :: rest => rest.foldl (fun x y => FoldOp.step op t x y.bits) v.bits

theorem foldBits_concat (op : FoldOp) (t : Ty) {vs : List Val} (h : vs ≠ []) (v : Val) :
    foldBits op t (vs ++ [v]) = FoldOp.step op t (foldBits op t vs) v.bits := by
  cases vs with
  | nil => exact absurd rfl h
  | cons u us => exact List.foldl_concat ..

/-- A fold as one value, poisoned when one that it folds is. -/
def foldVal (op : FoldOp) (t : Ty) (vs : List Val) : Val := { bits := foldBits op t vs, poison := vs.any Val.poison }

/-- What a running fold holds after `vs`: nothing yet, or their fold. -/
def foldState (op : FoldOp) (t : Ty) (vs : List Val) : Option Val := if vs = [] then none else some (foldVal op t vs)

theorem foldState_getD (op : FoldOp) (t : Ty) (vs : List Val) :
    (foldState op t vs).getD { bits := FoldOp.identity op t, poison := false } = foldVal op t vs := by
  cases vs <;> rfl

/-- One more value joins the fold of those before it. -/
theorem foldRun_cons (op : FoldOp) (t : Ty) (excl : Bool) (vs : List Val) (l : Nat) {v : Val} (hv : v.words = none)
    (rest : List (Nat × Val)) :
    foldRun op t excl (foldState op t vs) ((l, v) :: rest) =
      ((l, foldVal op t (if excl then vs else vs ++ [v])) :: (foldRun op t excl (foldState op t (vs ++ [v])) rest).1,
        (foldRun op t excl (foldState op t (vs ++ [v])) rest).2) := by
  obtain ⟨bits, poison, words⟩ := v
  subst hv
  simp only [foldRun, foldState_getD]
  cases vs with
  | nil => cases excl <;> simp [foldState, foldVal, foldBits]
  | cons u us => cases excl <;> simp [foldState, foldVal, foldBits, Bool.or_assoc]

/-- In ascending order the lanes below a lane are those before it. -/
theorem filter_before {pre suf : List Nat} {l : Nat} (h : (pre ++ l :: suf).Pairwise (· < ·)) (excl : Bool) :
    ((pre ++ l :: suf).filter fun m => if excl then decide (m < l) else decide (m ≤ l)) = if excl then pre else pre ++ [l] := by
  rw [List.pairwise_append, List.pairwise_cons] at h
  obtain ⟨-, ⟨hAfter, -⟩, hBefore⟩ := h
  have hPre (m : Nat) (hm : m ∈ pre) : m < l := hBefore m hm l List.mem_cons_self
  rw [List.filter_append, List.filter_cons]
  cases excl
  · rw [List.filter_eq_self.2 fun m hm => by simpa using (hPre m hm).le,
      List.filter_eq_nil_iff.2 fun m hm => by simpa using hAfter m hm]
    simp
  · rw [List.filter_eq_self.2 fun m hm => by simpa using hPre m hm,
      List.filter_eq_nil_iff.2 fun m hm => by simpa using (hAfter m hm).le]
    simp

/-- The running results over ascending lanes: the fold of the lanes up to each, or below it, and at the end of all (R158). -/
theorem foldRun_append (op : FoldOp) (t : Ty) (excl : Bool) {v : Nat → Val} (hv : ∀ l, (v l).words = none) (suf : List Nat) :
    ∀ pre : List Nat, (pre ++ suf).Pairwise (· < ·) →
      foldRun op t excl (foldState op t (pre.map v)) (suf.map fun l => (l, v l)) =
        (suf.map fun l => (l, foldVal op t (((pre ++ suf).filter fun m => if excl then decide (m < l) else decide (m ≤ l)).map v)),
          foldState op t ((pre ++ suf).map v)) := by
  induction suf with
  | nil =>
    intro pre _
    rw [List.append_nil]
    rfl
  | cons l suf ih =>
    intro pre hSorted
    have hRest := ih (pre ++ [l]) (by rwa [List.append_assoc])
    rw [List.append_assoc, List.singleton_append, List.map_append, List.map_singleton] at hRest
    rw [List.map_cons, foldRun_cons op t excl (pre.map v) l (hv l), hRest, List.map_cons, filter_before hSorted]
    cases excl <;> simp

/-- The values of A that a lane's result folds: those of the guard-true lanes up to it, or below it. -/
def Ix.scanned (i : Ix) (o : Opnd) (excl : Bool) (l : Nat) : List Val :=
  ((lanesOf i.g).filter fun m => if excl then decide (m < l) else decide (m ≤ l)).map fun m => i.read o .w32 m

theorem foldRun_column (i : Ix) (o : Opnd) (op : FoldOp) (t : Ty) (excl : Bool) : foldRun op t excl none (i.column o) =
    ((lanesOf i.g).map fun l => (l, foldVal op t (i.scanned o excl l)),
      foldState op t ((lanesOf i.g).map fun m => i.read o .w32 m)) :=
  foldRun_append op t excl (words_read_word i o) (lanesOf i.g) [] (lanesOf_pairwise i.g)

/-- A fold as SCAN and LFOLD write it (R158). -/
def foldResult (op : FoldOp) (t : Ty) (vs : List Val) : Val := { bits := foldOut t (foldBits op t vs), poison := vs.any Val.poison }

/-- A destination that can be written at a type can be written with one register. -/
theorem writable_one {i : Ix} {d : Opnd} {t : Ty} (h : Writable i d (Ty.regs t)) : Writable i d 1 where
  full := Bool.eq_false_of_not_eq_true fun hc => Bool.false_ne_true (h.full.symm.trans (isEmpty_regs i d t hc))
  home := h.home

section Folds

variable {h : Hdr} {o : Ops} {t : Ty} {op : FoldOp} {s : State} (hAble : Able (Ix.of s h) (uses3 h o .w32 .w32 .w32) o.d 1)
include hAble

theorem exec_scan (excl : Bool) : exec (.scan h o t op excl) s =
    .next ((Ix.of s h).finish o.d t ((lanesOf (Ix.of s h).g).map fun l =>
      (l, foldResult op t ((Ix.of s h).scanned o.a excl l)))) := by
  have hResults : (foldRun op t excl none ((Ix.of s h).column o.a)).1.map
      (fun r => (r.1, ({ r.2 with bits := foldOut t r.2.bits } : Val))) =
      (lanesOf (Ix.of s h).g).map fun l => (l, foldResult op t ((Ix.of s h).scanned o.a excl l)) := by
    rw [foldRun_column]
    exact List.map_map ..
  rw [← hResults]
  exact congrArg Host.Outcome.next (run_checked hAble _)

theorem exec_lfold : exec (.lfold h o t op) s =
    .next ((Ix.of s h).finish o.d t ((lanesOf (Ix.of s h).g).map fun l =>
      (l, foldResult op t ((lanesOf (Ix.of s h).g).map fun m => (Ix.of s h).read o.a .w32 m)))) := by
  have hAll : ((foldRun op t false none ((Ix.of s h).column o.a)).2).getD .zero =
      foldVal op t ((lanesOf (Ix.of s h).g).map fun m => (Ix.of s h).read o.a .w32 m) := by
    rw [foldRun_column, foldState, if_neg (by simpa using lanesOf_ne_nil _ hAble.lanes)]
    rfl
  show execLfold h o t op s = _
  unfold execLfold
  simp only [hAll]
  exact congrArg Host.Outcome.next (run_checked hAble _)

end Folds

/-! ### Lanes of one key (R159) -/

section Match

variable (i : Ix) (o : Opnd) (t : Ty) (num : Bool)

theorem getLsbD_mask_bits (m : LaneMask) (k : Nat) : (m.setWidth 64 : DWord).getLsbD k = m.getLsbD k := by
  rw [BitVec.getLsbD_setWidth, Bool.and_eq_right_iff_imp]
  intro hk
  have := BitVec.lt_of_getLsbD hk
  simp only [decide_eq_true_eq]
  omega

/-- Whether lane `m` is lane `l` or has its key. -/
def Ix.sameKey (l m : Nat) : Bool := decide (m = l) ||
  keysEqual t num (i.read o (.bw t.wide) m).bits (i.read o (.bw t.wide) l).bits

/-- The guard-true lanes with the key of a lane. -/
def Ix.keyGroup (l : Nat) : LaneMask := maskOf fun m => i.g.getLsbD m && i.sameKey o t num l m

theorem keyGroup_getLsbD (l m : Nat) : (i.keyGroup o t num l).getLsbD m = (i.g.getLsbD m && i.sameKey o t num l m) := by
  by_cases hm : m < 32
  · exact maskOf_getLsbD _ m hm
  · rw [BitVec.getLsbD_of_ge _ _ (by omega), BitVec.getLsbD_of_ge _ _ (by omega), Bool.false_and]

theorem lowestLane_eq_iff {m : LaneMask} {l : Nat} (hl : m.getLsbD l = true) :
    lowestLane m = l ↔ ∀ k, m.getLsbD k = true → l ≤ k := by
  have hne : m ≠ 0 := by
    rintro rfl
    exact Bool.false_ne_true (BitVec.getLsbD_zero.symm.trans hl)
  obtain ⟨rest, hLanes⟩ := lanesOf_eq_cons m hne
  have hSorted := lanesOf_pairwise m
  simp only [← mem_lanesOf, hLanes, List.pairwise_cons, List.mem_cons] at hl hSorted ⊢
  constructor
  · rintro rfl k (rfl | hk)
    · exact le_rfl
    · exact (hSorted.1 k hk).le
  · intro hLow
    rcases hl with rfl | hl
    · rfl
    · exact absurd (hSorted.1 l hl) (hLow _ (.inl rfl)).not_gt

/-- A lane of G is the lowest of its group exactly when no lower lane of G has its key. -/
theorem lowest_keyGroup {l : Nat} (hl : i.g.getLsbD l = true) : decide (lowestLane (i.keyGroup o t num l) = l) =
    (lanesOf i.g).all fun m => decide (l ≤ m) || !i.sameKey o t num l m := by
  have hSelf : (i.keyGroup o t num l).getLsbD l = true := by simp [keyGroup_getLsbD, hl, Ix.sameKey]
  rw [Bool.eq_iff_iff, decide_eq_true_iff, lowestLane_eq_iff hSelf, List.all_eq_true]
  simp only [keyGroup_getLsbD, mem_lanesOf, Bool.and_eq_true, Bool.or_eq_true, decide_eq_true_iff, Bool.not_eq_true']
  refine forall_congr' fun m => ⟨fun hLow hm => ?_, fun hLow ⟨hm, hSame⟩ => ?_⟩
  · by_cases hSame : i.sameKey o t num l m = true
    · exact .inl (hLow ⟨hm, hSame⟩)
    · exact .inr (Bool.eq_false_of_not_eq_true hSame)
  · exact (hLow hm).resolve_right (by simp [hSame])

end Match

theorem exec_matchKeys {h : Hdr} {o : Ops} {t : Ty} {num : Bool} {s : State}
    (hAble : Able (Ix.of s h) (uses3 h o (.bw t.wide) .w32 .w32) o.d 1) :
    let i := Ix.of s h
    exec (.matchKeys h o t num) s = .next (i.finish2 o.d o.d2 .b32 ((lanesOf i.g).map fun l => (l, {
      bits := (i.keyGroup o.a t num l).setWidth 64, poison := (lanesOf i.g).any fun m => (i.read o.a (.bw t.wide) m).poison }))
      (maskOf fun l => lowestLane (i.keyGroup o.a t num l) = l)) :=
  congrArg Host.Outcome.next (run_checked hAble _)

/-! ### The obligation -/

/-- Settles O7: the exchanges and MATCH end with a value for D and a bit for D2 in each lane, and a running fold over ascending
lanes holds the fold of the lanes before. -/
theorem laneExchangesAndFolds : Obligations.LaneExchangesAndFolds := by
  unfold Obligations.LaneExchangesAndFolds
  refine ⟨⟨?xlane, ?bfly⟩, ?scan, ?lfold, ?matchKeys⟩
  case xlane =>
    intro h o w mode seg s i n dist base from' rd alone hg hA hB hC hDest
    have hFrom (l : Nat) : i.xlanePartner o mode seg l = from' l := by
      show partner mode n l ((i.read o.b .w32 l).bits.toNat % 2 ^ 32) = _
      rw [← lo_toNat]
      cases mode with
      | back => exact if_congr (by rw [Nat.add_comm]) rfl rfl
      | _ => rfl
    have hRead : i.xlaneRead o mode seg = rd := by
      simp only [Ix.xlaneRead, hFrom]
      rfl
    have hAlone : i.xlaneAlone o mode seg = alone := by
      simp only [Ix.xlaneAlone, hFrom]
      rfl
    rw [← hRead] at hA
    rw [← hAlone] at hC
    obtain ⟨t, ht, hGets, hBits, hRest⟩ :=
      finish2_yields hg (exec_xlane hg hA hB hC hDest) fun l hl => xlanePairs_true i o mode seg hl
    refine ⟨t, ht, fun hne => gets_congr _ _ _ _ _ _ (fun l => ?_) (hGets hne),
      gets_pred_congr _ _ _ _ _ (fun l _ => ?_) hBits, hRest⟩
    · show i.takeFrom o w (i.xlanePartner o mode seg l) l = _
      rw [hFrom]
      rfl
    · show i.partnerTrue (i.xlanePartner o mode seg l) = _
      rw [hFrom]
      rfl
  case bfly =>
    intro h o w hi s i k el rd hg hA hC hB hDest
    exact finish2_yields hg (exec_bfly hg hA hC hB hDest) fun l hl => maskOf_getLsbD _ l (BitVec.lt_of_getLsbD hl)
  case scan =>
    intro h o t op excl s hg hReads hDest
    exact finish_yields hg (exec_scan ⟨hg, hReads, writable_one hDest⟩ excl)
  case lfold =>
    intro h o t op s hg hReads hDest
    exact finish_yields hg (exec_lfold ⟨hg, hReads, writable_one hDest⟩)
  case matchKeys =>
    intro h o t num s hne hAble i same
    obtain ⟨u, hu, hGets, hBits, hRest⟩ := finish2_yields hAble.lanes (exec_matchKeys hAble) fun l hl =>
      (maskOf_getLsbD _ l (BitVec.lt_of_getLsbD hl)).trans (lowest_keyGroup i o.a t num hl)
    have hGroup (l m : Nat) : ((i.keyGroup o.a t num l).setWidth 64 : DWord).getLsbD m = (i.g.getLsbD m && same l m) :=
      (getLsbD_mask_bits _ m).trans (keyGroup_getLsbD i o.a t num l m)
    exact ⟨u, hu, ⟨_, hGroup, hGets hne⟩, hBits, hRest⟩

end Sys2Proof.Machine
end

section
/-! O8: one exact function, rounded once (R161 to R165). -/

namespace Sys2Proof.Machine
open Sys2Proof.Claims

/-- The exponent of FLDEXP is a word's integer (R164). -/
theorem signedVal_word (b : DWord) : signedVal b.toNat 32 = (lo b).toInt := by
  rw [signedVal_eq_toInt _ (by decide), BitVec.ofNat_toNat, lo]

/-- Settles O8: each instruction is the lane-by-lane shape with the function that the rule names, and FLDEXP reads its exponent as an
integer of 32 bits. -/
theorem floatArithmetic : Obligations.FloatArithmetic := by
  unfold Obligations.FloatArithmetic
  refine ⟨?fadd, ?fsub, ?fmul, ?ffma, ?fmin, ?fmax, ?frnd, ?fsqrt, ?fdiv, ?fldexp⟩
  case fadd => exact fun h o t rm sat => alu_computes _ _ _ _ _ _ _ _ fun _ => rfl
  case fsub => exact fun h o t rm sat => alu_computes _ _ _ _ _ _ _ _ fun _ => rfl
  case fmul => exact fun h o t rm sat => alu_computes _ _ _ _ _ _ _ _ fun _ => rfl
  case ffma => exact fun h o t rm sat => alu_computes _ _ _ _ _ _ _ _ fun _ => rfl
  case fmin => exact fun h o t nanp => alu_computes _ _ _ _ _ _ _ _ fun _ => rfl
  case fmax => exact fun h o t nanp => alu_computes _ _ _ _ _ _ _ _ fun _ => rfl
  case frnd => exact fun h o t rm => alu_computes _ _ _ _ _ _ _ _ fun _ => rfl
  case fsqrt => exact fun h o rm sat => alu_computes _ _ _ _ _ _ _ _ fun _ => rfl
  case fdiv => exact fun h o rm sat => alu_computes _ _ _ _ _ _ _ _ fun _ => rfl
  case fldexp =>
    refine fun h o t rm sat => alu_computes_of_eq (fun _ => rfl) fun a b _ => ?_
    rw [signedVal_word]

end Sys2Proof.Machine
end

section
/-! The width of codes (R114, R124, R125): what Round gives fits in its format. -/

namespace Sys2Proof.Machine

/-- The bits of a code of the format, with its low zeros. -/
def Fmt.width (f : Fmt) : Nat := f.low + f.mbits + f.ebits + 1

theorem pack_lt {f : Fmt} {ex mant : Nat} (neg : Bool) (hEx : ex < 2 ^ f.ebits) (hMant : mant < 2 ^ f.mbits) :
    f.pack neg ex mant < 2 ^ f.width := by
  have hSign : ex + 2 ^ f.ebits * neg.toNat < 2 ^ (f.ebits + 1) := by
    cases neg
    · exact hEx.trans (Nat.pow_lt_pow_succ Nat.one_lt_two)
    · rw [Bool.toNat_true, pow_succ]
      omega
  have hFields : mant + 2 ^ f.mbits * (ex + 2 ^ f.ebits * neg.toNat) < 2 ^ f.mbits * 2 ^ (f.ebits + 1) :=
    calc mant + 2 ^ f.mbits * (ex + 2 ^ f.ebits * neg.toNat)
        < 2 ^ f.mbits * (ex + 2 ^ f.ebits * neg.toNat + 1) := by rw [Nat.mul_succ]; omega
      _ ≤ 2 ^ f.mbits * 2 ^ (f.ebits + 1) := Nat.mul_le_mul_left _ hSign
  rw [pack_eq]
  calc _ < 2 ^ f.low * (2 ^ f.mbits * 2 ^ (f.ebits + 1)) := Nat.mul_lt_mul_of_pos_left hFields (by positivity)
    _ = 2 ^ f.width := by rw [Fmt.width, ← pow_add, ← pow_add]; congr 1; omega

theorem signBit_lt (f : Fmt) (neg : Bool) : f.signBit neg < 2 ^ f.width := by
  rw [signBit_eq_pack]
  exact pack_lt neg (by positivity) (by positivity)

theorem infCode_lt (f : Fmt) (neg : Bool) : f.infCode neg < 2 ^ f.width := by
  rw [infCode_eq_pack]
  exact pack_lt neg (Nat.sub_lt (by positivity) Nat.one_pos) (by positivity)

theorem canonNan_lt (f : Fmt) : f.canonNan < 2 ^ f.width := by cases f <;> decide

/-- Factors of two belong to the mantissa or to the exponent alike. -/
theorem exceeds_mul_two_pow (f : Fmt) (m k : Nat) (e : Int) : f.exceeds (m * 2 ^ k) e = f.exceeds m (e + k) := by
  rw [Bool.eq_iff_iff, exceeds_iff, exceeds_iff, mul_zpow_of_le m (Int.le_add_of_nonneg_right (Int.natCast_nonneg k)),
    add_sub_cancel_left, Int.toNat_natCast]

theorem encode_normal_lt {f : Fmt} {m : Nat} {e : Int} (neg : Bool) (hLow : 2 ^ f.mbits ≤ m) (hHigh : m < 2 ^ (f.mbits + 1))
    (hQuantum : f.emin - f.mbits ≤ e) (hMax : f.exceeds m e = false) : f.encode neg m e < 2 ^ f.width := by
  obtain ⟨mant, rfl⟩ := Nat.exists_eq_add_of_le hLow
  obtain ⟨ex, hEx⟩ := Int.eq_ofNat_of_zero_le (show 0 ≤ e + f.bias + f.mbits by rw [Fmt.emin] at hQuantum; omega)
  obtain rfl : e = (ex : Int) - f.bias - f.mbits := by omega
  have hMant : mant < 2 ^ f.mbits := by omega
  rw [encode_normal neg (by rw [Fmt.emin] at hQuantum; omega) hMant]
  exact pack_lt neg ((exceeds_normal_eq_false_iff hMant).mp hMax).exponent hMant

theorem encode_lt {f : Fmt} {m : Nat} {e : Int} (neg : Bool) (hGrid : f.OnGrid m e) (hMax : f.exceeds m e = false) :
    f.encode neg m e < 2 ^ f.width := by
  obtain ⟨hWidth, hQuantum, hFull⟩ := hGrid
  rcases lt_or_ge m (2 ^ f.mbits) with hSub | hLow
  · rw [hFull hSub, encode_subnormal neg hSub]
    exact pack_lt neg (by positivity) hSub
  rcases hWidth.lt_or_eq with hHigh | rfl
  · exact encode_normal_lt neg hLow hHigh hQuantum hMax
  · rw [pow_succ, ← pow_one 2, ← pow_mul, one_mul, exceeds_mul_two_pow] at hMax
    rw [encode_carry neg hQuantum]
    exact encode_normal_lt neg le_rfl (Nat.pow_lt_pow_succ Nat.one_lt_two) (by omega) hMax

theorem maxCode_lt (f : Fmt) (neg : Bool) : f.maxCode neg < 2 ^ f.width := by
  obtain ⟨hLow, hHigh, hExp⟩ := maxFin_bounds f
  exact encode_normal_lt neg hLow hHigh hExp.le (exceeds_maxFin f)

/-- Beyond MaxFinite a format gives MaxFinite or an infinity with the sign, or the NaN of E4M3 (R125). -/
theorem overflow_cases (f : Fmt) (neg : Bool) (mode : Rm) (sat : Bool) :
    f.overflow neg mode sat = f.maxCode neg ∨ f.overflow neg mode sat = f.infCode neg ∨ f.overflow neg mode sat = f.canonNan := by
  cases sat with
  | true => exact .inl rfl
  | false =>
    cases f with
    | e4m3 => exact .inr (.inr rfl)
    | e2m1 => exact .inl rfl
    | _ => cases mode <;> cases neg <;> simp [Fmt.overflow]

theorem overflow_lt (f : Fmt) (neg : Bool) (mode : Rm) (sat : Bool) : f.overflow neg mode sat < 2 ^ f.width := by
  rcases overflow_cases f neg mode sat with h | h | h <;> rw [h]
  · exact maxCode_lt f neg
  · exact infCode_lt f neg
  · exact canonNan_lt f

/-- What Round gives fits in the format. -/
theorem round_lt (f : Fmt) (x : FV) (mode : Rm) (sat : Bool) (rnd : Nat) : f.round x mode sat rnd < 2 ^ f.width := by
  cases x with
  | nan => exact canonNan_lt f
  | inf neg =>
    rw [Fmt.round]
    split
    · exact infCode_lt f neg
    · exact overflow_lt f neg mode sat
  | fin neg m e =>
    by_cases hm : m = 0
    · subst hm
      exact signBit_lt f neg
    · rw [round_fin f neg hm]
      split
      · exact overflow_lt f neg mode sat
      · exact encode_lt neg (onGrid_roundQ f hm e mode neg rnd) (Bool.eq_false_of_not_eq_true ‹_›)

/-- FMIN and FMAX give one of their operands, or the NaN (R165). -/
theorem minMax_lt {f : Fmt} {a b n : Nat} (isMax nanp : Bool) (hNan : f.canonNan < n) (ha : a < n) (hb : b < n) :
    f.minMax isMax nanp a b < n := by
  unfold Fmt.minMax
  repeat' split
  all_goals assumption

end Sys2Proof.Machine
end

section
/-! O10, first part: the values of the approximated functions that R168 decides. -/

namespace Sys2Proof.Machine
open Sys2Proof.Claims

/-! ### NaN -/

theorem val_of_isNan {a : Word} (h : Fmt.isNan .fp32 a.toNat = true) : Fmt.val .fp32 a.toNat = .nan := of_decide_eq_true h

/-- Where a function takes no choice, the monotonic one made of it does not either. -/
theorem risingChoice_of_decided {f : (Word → Word) → Word → Nat} {a : Word} {n : Nat} (h : ∀ free, f free a = n)
    (free : Word → Word) : risingChoice f free a = n := by
  rw [risingChoice, h, h]
  exact if_pos rfl

theorem frcpOf_nan {a : Word} (h : Fmt.isNan .fp32 a.toNat = true) : frcpOf a = 0x7FC00000 := by
  rw [frcpOf, val_of_isNan h]
  rfl

theorem frsqOf_nan {a : Word} (h : Fmt.isNan .fp32 a.toNat = true) : frsqOf a = 0x7FC00000 := by
  rw [frsqOf, val_of_isNan h]
  rfl

theorem fsinOf_nan {a : Word} (h : Fmt.isNan .fp32 a.toNat = true) : fsinOf a = 0x7FC00000 := by
  rw [fsinOf, val_of_isNan h]
  rfl

theorem fcosOf_nan {a : Word} (h : Fmt.isNan .fp32 a.toNat = true) : fcosOf a = 0x7FC00000 := by
  rw [fcosOf, val_of_isNan h]
  rfl

theorem fexp2Of_nan {a : Word} (h : Fmt.isNan .fp32 a.toNat = true) : fexp2Of a = 0x7FC00000 := by
  refine risingChoice_of_decided (fun free => ?_) _
  rw [fexp2With, val_of_isNan h]
  rfl

theorem flog2Of_nan {a : Word} (h : Fmt.isNan .fp32 a.toNat = true) : flog2Of a = 0x7FC00000 := by
  refine risingChoice_of_decided (fun free => ?_) _
  rw [flog2With, val_of_isNan h]
  rfl

theorem ftanhOf_nan {a : Word} (h : Fmt.isNan .fp32 a.toNat = true) : ftanhOf a = 0x7FC00000 := by
  refine risingChoice_of_decided (fun free => ?_) _
  rw [ftanhWith, val_of_isNan h]
  rfl

/-! ### Powers of two under FRCP -/

/-- A whole number of quanta is rounded to itself. -/
theorem roundQ_exact {m : Nat} (neg : Bool) (hm : m ≠ 0) (k : Nat) (e : Int) (rnd : Nat) :
    roundQ .rne neg (m * 2 ^ k) e (e + k) rnd = m := by
  rcases Nat.eq_zero_or_pos k with rfl | hk
  · simp [roundQ_of_le]
  have hLow : 2 ^ k ≤ m * 2 ^ k := Nat.le_mul_of_pos_left _ (Nat.pos_of_ne_zero hm)
  have hLog : k ≤ Nat.log2 (m * 2 ^ k) := (Nat.le_log2 (by positivity)).mpr hLow
  have hShift : (e + k - e).toNat = k := by omega
  have hDown : roundsUp .rne neg m 0 (2 ^ k) rnd = false := by simp [roundsUp, (Nat.two_pow_pos k).ne]
  rw [roundQ, if_neg (by omega), hShift, if_neg (by omega), Nat.mul_div_cancel _ (by positivity), Nat.mul_mod_left]
  exact if_neg (Bool.not_eq_true _ ▸ hDown)

/-- A power of two among the normal numbers is rounded to its own code, however its mantissa is written. -/
theorem round_two_pow {f : Fmt} {ex k : Nat} {e : Int} (neg : Bool) (hEx : ex ≠ 0) (hFields : f.FiniteFields ex 0)
    (he : e + k = ex - f.bias - f.mbits) (sat : Bool) (rnd : Nat) :
    f.round (.fin neg (2 ^ (f.mbits + k)) e) .rne sat rnd = f.pack neg ex 0 := by
  have hQuantum : f.quantum (2 ^ (f.mbits + k)) e = e + k := by
    rw [Fmt.quantum, Nat.log2_two_pow, Fmt.emin]
    omega
  have hMax : f.exceeds (2 ^ f.mbits) (e + k) = false := by
    rw [he]
    exact (exceeds_normal_eq_false_iff hFields.mantissa).mpr hFields
  have hCode : f.encode neg (2 ^ f.mbits) (e + k) = f.pack neg ex 0 := by
    rw [he]
    exact encode_normal neg hEx hFields.mantissa
  rw [round_fin f neg (by positivity), hQuantum, pow_add, roundQ_exact neg (by positivity), hMax, hCode]
  rfl

/-- The fields of a power of two of FP32. -/
theorem finiteFields_two_pow {e : Nat} (h : e ≤ 254) : Fmt.fp32.FiniteFields e 0 :=
  ⟨by change e < 256; omega, by decide, fun _ => by change e ≠ 255; omega, nofun⟩

theorem pack_two_pow (e : Nat) : Fmt.pack .fp32 false e 0 = e * 2 ^ 23 := by simp [Fmt.pack, Fmt.signBit, Fmt.mbits, Fmt.low]

theorem val_two_pow {e : Nat} (h0 : 1 ≤ e) (h : e ≤ 254) :
    Fmt.val .fp32 (e * 2 ^ 23) = .fin false (2 ^ 23) ((e : Int) - 127 - 23) := by
  rw [← pack_two_pow, val_pack_of_finite (finiteFields_two_pow h), if_neg (by omega)]
  rfl

/-- The quotient that stands for the reciprocal of a power of two. -/
theorem one_div_two_pow (e : Int) : (FV.fin false 1 0).div (.fin false (2 ^ 23) e) = .fin false (2 ^ (23 + 18)) (-e - 64) := by
  have hExp : 0 - e - (40 + Nat.log2 (2 ^ 23) : Nat) - 1 = -e - 64 := by
    rw [Nat.log2_two_pow]
    omega
  simp only [FV.div, hExp]
  rfl

/-- FRCP is exact at powers of two (R168). -/
theorem frcpOf_two_pow (e : Nat) (h0 : 1 ≤ e) (h : e ≤ 253) : frcpOf (BitVec.ofNat 32 (e * 2 ^ 23)) = (254 - e) * 2 ^ 23 := by
  have hNat : (BitVec.ofNat 32 (e * 2 ^ 23)).toNat = e * 2 ^ 23 := by
    rw [BitVec.toNat_ofNat]
    omega
  have hExp : -((e : Int) - 127 - 23) - 64 + (18 : Nat) = (254 - e : Nat) - Fmt.fp32.bias - Fmt.fp32.mbits := by
    simp only [Fmt.bias, Fmt.mbits]
    omega
  have hFields : Fmt.fp32.FiniteFields (254 - e) 0 := finiteFields_two_pow (by omega)
  have hMax : Fmt.fp32.exceeds (2 ^ (23 + 18)) (-((e : Int) - 127 - 23) - 64) = false := by
    rw [pow_add, exceeds_mul_two_pow, hExp]
    exact (exceeds_normal_eq_false_iff (by positivity)).mpr hFields
  rw [frcpOf, hNat, val_two_pow h0 (by omega)]
  simp only [one_div_two_pow, hMax]
  rw [if_neg (by decide), if_pos (by decide)]
  exact (round_two_pow false (by omega) hFields hExp false 0).trans (pack_two_pow _)

end Sys2Proof.Machine
end

section
/-! O10, second part: packed elements (R169), small dot products (R171), and the obligation. -/

namespace Sys2Proof.Machine
open Sys2Proof.Claims

/-! ### Elements of operands and of results -/

theorem div_mod_eq_extractLsb' (x : DWord) (k n : Nat) : x.toNat / 2 ^ k % 2 ^ n = (x.extractLsb' k n).toNat := by
  rw [BitVec.extractLsb'_toNat, Nat.shiftRight_eq_div_pow]

theorem code32_eq (x : DWord) : code32 x = (lo x).toNat := (lo_toNat x).symm

theorem toNat_append_eq {m n : Nat} (x : BitVec m) (y : BitVec n) : (x ++ y).toNat = x.toNat * 2 ^ n + y.toNat := by
  rw [BitVec.toNat_append, ← Nat.shiftLeft_add_eq_or_of_lt y.isLt, Nat.shiftLeft_eq]

/-- Two codes of 16 bits as one packed value (R169). -/
theorem codeOf_both16 {f : Nat → Nat} (h : ∀ e, f e < 2 ^ 16) : codeOf (f 0 + 2 ^ 16 * f 1) = both16 f := by
  have h0 := h 0
  have h1 := h 1
  apply BitVec.eq_of_toNat_eq
  rw [codeOf, both16, up, BitVec.toNat_ofNat, BitVec.toNat_setWidth_of_le (by decide), toNat_append_eq, BitVec.toNat_ofNat,
    BitVec.toNat_ofNat]
  omega

/-! ### Packed elements (R169) -/

theorem halfFmt_width (bf : Bool) : (halfFmt bf).width = 16 := by cases bf <;> rfl

section Packed

variable {n : Instr} {h : Hdr} {o : Ops} {bf : Bool}

theorem packedOp_computes (f : Nat → Nat → Nat → Nat) (hExec : ∀ s, exec n s = .next (packedOp h o bf f s))
    (hf : ∀ a b c, a < 2 ^ 16 → b < 2 ^ 16 → f a b c < 2 ^ 16) :
    Computes n h o .w32 .w32 .w32 (halfTy bf) fun a b c => both16 fun e =>
      f (a.extractLsb' (16 * e) 16).toNat (b.extractLsb' (16 * e) 16).toNat (c.extractLsb' (16 * e) 16).toNat := by
  refine alu_computes_of_eq hExec fun a b c => ?_
  rw [← codeOf_both16 fun e => hf _ _ _ (BitVec.isLt _) (BitVec.isLt _)]
  simp only [halfOf_eq]

/-- An exact function of packed elements is rounded in each. -/
theorem packedRounded_computes {rm : Rm} {sat : Bool} (g : FV → FV → FV → FV)
    (hExec : ∀ s, exec n s = .next (packedRounded h o bf rm sat g s)) :
    Computes n h o .w32 .w32 .w32 (halfTy bf) fun a b c => both16 fun e =>
      let v (x : DWord) : FV := (halfFmt bf).val (x.extractLsb' (16 * e) 16).toNat
      (halfFmt bf).round (g (v a) (v b) (v c)) rm sat 0 :=
  packedOp_computes (fun a b c => (halfFmt bf).round (g ((halfFmt bf).val a) ((halfFmt bf).val b) ((halfFmt bf).val c)) rm sat 0)
    hExec fun _ _ _ _ _ => halfFmt_width bf ▸ round_lt (halfFmt bf) _ rm sat 0

/-- The smaller or the larger of packed elements stands in each. -/
theorem packedMinMax_computes {isMax nanp : Bool}
    (hExec : ∀ s, exec n s = .next (packedOp h o bf (fun a b _ => (halfFmt bf).minMax isMax nanp a b) s)) :
    Computes n h o .w32 .w32 .w32 (halfTy bf) fun a b _ => both16 fun e =>
      (halfFmt bf).minMax isMax nanp (a.extractLsb' (16 * e) 16).toNat (b.extractLsb' (16 * e) 16).toNat :=
  packedOp_computes (fun a b _ => (halfFmt bf).minMax isMax nanp a b) hExec fun _ _ _ =>
    minMax_lt isMax nanp (halfFmt_width bf ▸ canonNan_lt (halfFmt bf))

end Packed

/-! ### The obligation -/

/-- Settles O10: the decided values are those of the model's functions at their arguments, FRCP at the powers of two is a rounding
that loses nothing, and what the packed instructions round fits in its element. -/
theorem approximatedAndPacked : Obligations.ApproximatedAndPacked := by
  unfold Obligations.ApproximatedAndPacked
  refine ⟨⟨?frcp, ?frsq, ?fexp2, ?flog2, ?fsin, ?fcos, ?ftanh⟩, ?pkadd, ?pkmul, ?pkfma, ?pkmin, ?pkmax, ?fdot2, ?fdot4⟩
  case frcp =>
    exact ⟨frcpOf, fun h o => alu_computes _ _ _ _ _ _ _ _ fun _ => rfl, fun _ => frcpOf_nan, by decide +kernel, by decide +kernel,
      by decide +kernel, by decide +kernel, frcpOf_two_pow⟩
  case frsq =>
    refine ⟨frsqOf, fun h o => alu_computes _ _ _ _ _ _ _ _ fun _ => rfl, fun _ => frsqOf_nan, ?_⟩
    decide +kernel
  case fexp2 =>
    refine ⟨fexp2Of, fun h o => alu_computes _ _ _ _ _ _ _ _ fun _ => rfl, fun _ => fexp2Of_nan, ?_⟩
    decide +kernel
  case flog2 =>
    refine ⟨flog2Of, fun h o => alu_computes _ _ _ _ _ _ _ _ fun _ => rfl, fun _ => flog2Of_nan, ?_⟩
    decide +kernel
  case fsin =>
    refine ⟨fsinOf, fun h o => alu_computes _ _ _ _ _ _ _ _ fun _ => rfl, fun _ => fsinOf_nan, ?_⟩
    decide +kernel
  case fcos =>
    refine ⟨fcosOf, fun h o => alu_computes _ _ _ _ _ _ _ _ fun _ => rfl, fun _ => fcosOf_nan, ?_⟩
    decide +kernel
  case ftanh =>
    refine ⟨ftanhOf, fun h o => alu_computes _ _ _ _ _ _ _ _ fun _ => rfl, fun _ => ftanhOf_nan, ?_⟩
    decide +kernel
  case pkadd => exact fun h o bf rm sat => packedRounded_computes (fun a b _ => a.add (rm = .rdn) b) fun _ => rfl
  case pkmul => exact fun h o bf rm sat => packedRounded_computes (fun a b _ => a.mul b) fun _ => rfl
  case pkfma => exact fun h o bf rm sat => packedRounded_computes (fun a b c => (a.mul b).add (rm = .rdn) c) fun _ => rfl
  case pkmin => exact fun h o bf nanp => packedMinMax_computes fun _ => rfl
  case pkmax => exact fun h o bf nanp => packedMinMax_computes fun _ => rfl
  case fdot2 =>
    refine fun h o bf rm sat => alu_computes_of_eq (fun _ => rfl) fun a b c => ?_
    simp only [div_mod_eq_extractLsb', code32_eq]
    rfl
  case fdot4 =>
    refine fun h o e5 rm sat balt => alu_computes_of_eq (fun _ => rfl) fun a b c => ?_
    simp only [div_mod_eq_extractLsb', code32_eq]
    rfl

end Sys2Proof.Machine
end

section
/-! Two destinations written one after another (R177). -/

namespace Sys2Proof.Machine
open Sys2Proof.Claims

theorem regs_narrow {ty : Ty} (h : ty.wide = false) : Ty.regs ty = 1 := by
  rw [Ty.regs, h]
  rfl

theorem kept_refl (s : State) (i : Ix) (ds : List (Opnd × Nat)) : Kept s s i ds where
  memory _ := rfl
  marks _ := rfl
  frags _ _ := rfl
  hoists _ _ := rfl
  elems _ _ _ _ := ⟨rfl, rfl⟩
  preds _ _ _ := rfl
  masks _ _ := rfl
  bits _ := ⟨fun _ => rfl, fun _ => rfl⟩
  hoist := rfl
  sregs _ _ := ⟨rfl, rfl⟩
  frag := rfl
  cores _ := rfl
  rest := rfl

section Writes

variable {i : Ix} {s t : State} {ds : List (Opnd × Nat)} {d : Opnd} {ty : Ty}

/-- The end of an issue moves the entry's lanes and nothing else. -/
theorem kept_done (hk : Kept s t i ds) : Kept s (i.done t) i ds where
  memory := hk.memory
  marks := hk.marks
  frags f hf := by
    rw [done_frag, if_neg hf]
    exact hk.frags f hf
  hoists := hk.hoists
  elems := hk.elems
  preds := hk.preds
  masks := hk.masks
  bits := hk.bits
  hoist := hk.hoist
  sregs q hq := by
    rw [done_frag, if_pos rfl, Frag.sreg, complete_sregs, complete_spoison]
    exact hk.sregs q hq
  frag := by
    rw [done_frag, if_pos rfl]
    exact (congrArg (fun x : Frag => { x with
      entries := (s.frag i.f).entries, atEnd := (s.frag i.f).atEnd, rep := (s.frag i.f).rep, repc := (s.frag i.f).repc,
      sregs := (s.frag i.f).sregs, spoison := (s.frag i.f).spoison, vabsent := (s.frag i.f).vabsent,
      sabsent := (s.frag i.f).sabsent }) (complete_rest (t.frag i.f) _ _ _ _) :).trans hk.frag
  cores := hk.cores
  rest := hk.rest

/-- A write of a destination leaves what other writes have left. -/
theorem kept_write (hk : Kept s t i ds) (hd : (d, Ty.regs ty) ∈ ds) (r : Nat → Val) :
    Kept s (i.write t d ty ((lanesOf i.g).map fun l => (l, r l))) i ds := by
  obtain ⟨hRest, hFrags, hHoists⟩ := write_rest i t d ty ((lanesOf i.g).map fun l => (l, r l))
  exact {
    memory := fun a => (congrArg (State.byte · a) hRest :).trans (hk.memory a)
    marks := fun w => (congrArg (State.mark · w) hRest :).trans (hk.marks w)
    frags := fun f hf => (hFrags f hf).trans (hk.frags f hf)
    hoists := fun k hk' => (hHoists k hk').trans (hk.hoists k hk')
    elems := fun a l hl hw => by
      have hOther : ¬ Written i [(d, Ty.regs ty)] a l := fun hc => hw (written_mono (by simpa using hd) hc)
      obtain ⟨hElem, hMark⟩ := write_elems i t d ty r a l hl hOther
      obtain ⟨hElem', hMark'⟩ := hk.elems a l hl hw
      exact ⟨hElem.trans hElem', hMark.trans hMark'⟩
    preds := fun q l hq => (write_preds i t d ty r q l fun hc => hq ⟨hc.1, _, hc.2 ▸ hd⟩).trans (hk.preds q l hq)
    masks := fun q hq => (write_masks i t d ty _ q fun hc => hq ⟨_, hc ▸ hd⟩).trans (hk.masks q hq)
    bits := fun q => by
      obtain ⟨hPred, hMask⟩ := write_bits i t d ty ((lanesOf i.g).map fun l => (l, r l)) q
      obtain ⟨hPred', hMask'⟩ := hk.bits q
      exact ⟨fun hq => (hPred fun hc => hq ⟨_, hc ▸ hd⟩).trans (hPred' hq),
        fun hq => (hMask fun hc => hq ⟨_, hc ▸ hd⟩).trans (hMask' hq)⟩
    hoist := by
      rw [← hk.hoist, ← write_hoist i t d ty]
    sregs := fun q hq => by
      obtain ⟨hReg, hMark⟩ := write_sregs i t d ty ((lanesOf i.g).map fun l => (l, r l)) q fun hc => hq ⟨_, hc ▸ hd⟩
      obtain ⟨hReg', hMark'⟩ := hk.sregs q hq
      exact ⟨hReg.trans hReg', hMark.trans hMark'⟩
    frag := by
      rw [← hk.frag, ← write_frag i t d ty]
    cores := fun c => by
      have hCore : (i.write t d ty ((lanesOf i.g).map fun l => (l, r l))).core c = t.core c := (congrArg (State.core · c) hRest :)
      rw [hCore]
      exact hk.cores c
    rest := (congrArg (fun u : State => { u with frags := s.frags, hoists := s.hoists, cores := s.cores }) hRest :).trans hk.rest }

/-- A write leaves what another destination, of 32 bits, holds. -/
theorem gets_write {e : Opnd} {te : Ty} {r v : Nat → Val} (hne : d ≠ e) (hTy : ty.wide = false) (hTe : te.wide = false)
    (h : Gets t i d ty r) : Gets (i.write t e te ((lanesOf i.g).map fun l => (l, v l))) i d ty r := by
  cases d with
  | v q =>
    intro l hl
    have hOther : ¬ Written i [(e, Ty.regs te)] (i.areg q.toNat) l := by
      rintro ⟨-, p, n, hp, hLow, hHigh⟩
      obtain ⟨rfl, rfl⟩ : Opnd.v p = e ∧ n = Ty.regs te := by simpa using hp
      rw [Ix.areg, Ix.areg] at hLow hHigh
      rw [regs_narrow hTe] at hHigh
      exact hne (congrArg Opnd.v (BitVec.eq_of_toNat_eq (by omega)))
    obtain ⟨hElem, hMark⟩ := write_elems i t e te v _ l (BitVec.lt_of_getLsbD hl) hOther
    have hHeld := h l hl
    rw [hTy, if_neg Bool.false_ne_true] at hHeld ⊢
    rwa [hElem, hMark]
  | s q =>
    obtain ⟨hReg, hMark⟩ := write_sregs i t e te ((lanesOf i.g).map fun l => (l, v l)) q hne.symm
    rw [Gets, hReg, hMark]
    exact h
  | p q =>
    intro hq l hl
    rw [write_preds i t e te v q l fun hc => hne hc.2.symm]
    exact h hq l hl
  | m q =>
    rw [Gets, write_masks i t e te _ q hne.symm]
    exact h
  | _ => trivial

/-- Where the lanes go does not depend on what destinations hold. -/
theorem wentOn_done (h : { t.frag i.f with
    sregs := (s.frag i.f).sregs, spoison := (s.frag i.f).spoison, vabsent := (s.frag i.f).vabsent,
    sabsent := (s.frag i.f).sabsent } = s.frag i.f) : WentOn s (i.done t) i := by
  unfold WentOn
  rw [done_frag, if_pos rfl]
  exact complete_entries _ _ _ _ _ _ (congrArg Frag.entries h :) (congrArg Frag.loops h :) (congrArg Frag.rep h :)
    (congrArg Frag.repc h :)

end Writes

/-- An instruction that writes two destinations of 32 bits, one after the other, and then goes on. -/
theorem two_writes (i : Ix) {d e : Opnd} {td te : Ty} (r v : Nat → Val) (used : Bool) (hg : i.g ≠ 0) (hne : d ≠ e)
    (hd : td.wide = false) (he : te.wide = false) :
    let t := i.done (i.write (i.countUse used (i.write i.s d td ((lanesOf i.g).map fun l => (l, r l)))) e te
      ((lanesOf i.g).map fun l => (l, v l)))
    Gets t i d td r ∧ Gets t i e te v ∧ Kept i.s t i [(d, 1), (e, 1)] ∧ WentOn i.s t i := by
  have hFirst := gets_countUse used (write_gets i d td r hg)
  generalize hw : i.countUse used (i.write i.s d td ((lanesOf i.g).map fun l => (l, r l))) = w at hFirst ⊢
  have hKept : Kept i.s w i [(d, 1), (e, 1)] :=
    hw ▸ kept_countUse used (kept_write (kept_refl i.s i _) (by simp [regs_narrow hd]) r)
  have hFrag : w.frag i.f = (i.write i.s d td ((lanesOf i.g).map fun l => (l, r l))).frag i.f := by
    rw [← hw, countUse_frag]
  refine ⟨gets_done (gets_write hne hd he hFirst), gets_done (write_gets { i with s := w } e te v hg),
    kept_done (kept_write hKept (by simp [regs_narrow he]) v), wentOn_done ?_⟩
  exact (congrArg (fun x : Frag => { x with
    sregs := (i.s.frag i.f).sregs, spoison := (i.s.frag i.f).spoison, vabsent := (i.s.frag i.f).vabsent,
    sabsent := (i.s.frag i.f).sabsent }) (write_frag i w e te _) :).trans (hFrag ▸ write_frag i i.s d td _)

end Sys2Proof.Machine
end

section
/-! O11: conversions, FP8 and block-scaled FP4 packing, and HASH32 (R172 to R179). -/

namespace Sys2Proof.Machine
open Sys2Proof.Claims

/-! ### FP8 packing (R174) -/

theorem fp8_width (e5 : Bool) : (fp8 e5).width = 8 := by cases e5 <;> rfl

/-- Two codes of 8 bits in the upper or in the lower half of a word, beside a half of another. -/
theorem codeOf_bytes {p q : Nat} (hp : p < 2 ^ 8) (hq : q < 2 ^ 8) (c : DWord) (hi : Bool) :
    codeOf (if hi then (p * 2 ^ 8 + q) * 2 ^ 16 + halfOf c 0 else halfOf c 1 * 2 ^ 16 + (p * 2 ^ 8 + q)) =
      if hi then up (BitVec.ofNat 8 p ++ BitVec.ofNat 8 q ++ (lo c).setWidth 16)
      else up ((lo c).extractLsb' 16 16 ++ BitVec.ofNat 8 p ++ BitVec.ofNat 8 q) := by
  have hLow : halfOf c 0 = ((lo c).setWidth 16).toNat := by
    rw [BitVec.toNat_setWidth, lo_toNat, halfOf]
    omega
  have hHigh : halfOf c 1 = ((lo c).extractLsb' 16 16).toNat := by
    rw [BitVec.extractLsb'_toNat, Nat.shiftRight_eq_div_pow, lo_toNat, halfOf]
    omega
  apply BitVec.eq_of_toNat_eq
  cases hi
  · have hHalf := ((lo c).extractLsb' 16 16).isLt
    simp only [Bool.false_eq_true, if_false, codeOf, up, hHigh, BitVec.toNat_ofNat, BitVec.toNat_setWidth, toNat_append_eq]
    omega
  · have hHalf := ((lo c).setWidth 16).isLt
    simp only [if_true, codeOf, up, hLow, BitVec.toNat_ofNat, BitVec.toNat_setWidth, toNat_append_eq]
    omega

/-! ### Groups of eight lanes (R176, R177) -/

section Group

variable (i : Ix) (o : Opnd) (l : Nat)

/-- The values of the eight elements of a lane's group. -/
def Ix.groupValues : List FV := (List.range 8).map fun k => Fmt.val .fp32 (lo (i.readLane o .w32 (8 * (l / 8) + k)).bits).toNat

/-- Whether one of them is poisoned. -/
def Ix.groupMark : Bool := (List.range 8).any fun k => (i.readLane o .w32 (8 * (l / 8) + k)).poison

theorem group8_values : (i.group8 o l).map (fun v => Fmt.val .fp32 (code32 v.bits)) = i.groupValues o l := by
  simp only [code32_eq, Ix.group8, Ix.groupValues, List.map_map, Function.comp_def]

theorem group8_mark : (i.group8 o l).any Val.poison = i.groupMark o l := List.any_map ..

end Group

theorem exec_bscale {h : Hdr} {o : Ops} {s : State} (hg : (Ix.of s h).g ≠ 0)
    (hReads : Readable (Ix.of s h) (uses3 h o .w32 .w32 .w32) (Ix.of s h).groupLanes) (hDest : Writable (Ix.of s h) o.d 1) :
    exec (.bscale h o) s = .next ((Ix.of s h).finish o.d .n8 ((lanesOf (Ix.of s h).g).map fun l =>
      (l, { bits := codeOf (blockScale ((Ix.of s h).groupValues o.a l)), poison := (Ix.of s h).groupMark o.a l }))) := by
  have hSources : (Ix.of s h).checkSources ((Ix.of s h).uses h o .w32 .w32 .w32) (Ix.of s h).groupLanes = .ok () :=
    checkSources_ok _ _ _ hReads
  show execBscale h o s = _
  unfold execBscale
  simp only [hSources, checkDests_ok _ _ _ hDest.full, maskHome_ok _ _ _ hDest, group8_values, group8_mark, bind, Except.bind,
    pure, Except.pure, run_ok _ _ hg]

/-! ### PACK4 (R177) -/

section Block

variable (i : Ix) (o : Ops) (rm : Rm) (l : Nat)

/-- The block of a lane's group under the lane's scale, and whether a NaN poisons it. -/
def Ix.packedBlock : Nat × Bool := pack4Block ((i.read o.b .w32 l).bits.toNat % 256) rm (i.groupValues o.a l)

/-- The mark of both results. -/
def Ix.blockMark : Bool := i.groupMark o.a l || (i.read o.b .w32 l).poison

/-- What D receives. -/
def Ix.blockVal : Val := { bits := codeOf (i.packedBlock o rm l).1, poison := i.blockMark o l }

/-- What D2 receives: the scale that is to be stored. -/
def Ix.storedScale : Val :=
  { bits := codeOf (if (i.packedBlock o rm l).2 then 0xFF else (i.read o.b .w32 l).bits.toNat % 256), poison := i.blockMark o l }

end Block

theorem checkDests_two {i : Ix} {d e : Opnd} {m n : Nat} (hd : Writable i d m) (he : Writable i e n) :
    i.checkDests [(d, m), (e, n)] = .ok () := by
  simp [Ix.checkDests, hd.full, he.full, guardStop]

/-- PACK4 passes its checks: sources read in the lanes of the groups and in the guard-true lanes, and two destinations. -/
theorem run_twoDests {i : Ix} {us : List Use} {ua ub : Use} {d e : Opnd} {m n : Nat} (hg : i.g ≠ 0)
    (hFull : ∀ u ∈ us, i.isEmpty u.o u.n = false) (hA : Readable i [ua] i.groupLanes) (hB : Readable i [ub] i.g)
    (hD : Writable i d m) (hE : Writable i e n) (t : State) :
    (i.run do
      i.checkEmpty us
      i.checkSources [ua] i.groupLanes
      i.checkSources [ub] i.g
      i.checkDests [(d, m), (e, n)]
      i.maskHome d
      i.maskHome e
      pure t) = t := by
  simp only [checkEmpty_ok _ _ hFull, checkSources_ok _ _ _ hA, checkSources_ok _ _ _ hB, checkDests_two hD hE,
    maskHome_ok _ _ _ hD, maskHome_ok _ _ _ hE, bind, Except.bind, pure, Except.pure, run_ok _ _ hg]

theorem exec_pack4 {h : Hdr} {o : Ops} {rm : Rm} {s : State} (hg : (Ix.of s h).g ≠ 0)
    (hFull : ∀ u ∈ uses3 h o .w32 .w32 .w32, (Ix.of s h).isEmpty u.o u.n = false)
    (hA : Readable (Ix.of s h) [{ o := o.a, n := 1, bit := h.ea }] (Ix.of s h).groupLanes)
    (hB : Readable (Ix.of s h) [{ o := o.b, n := 1, bit := h.eb }] (Ix.of s h).g)
    (hD : Writable (Ix.of s h) o.d 1) (hD2 : Writable (Ix.of s h) o.d2 1) :
    let i := Ix.of s h
    ∃ used, exec (.pack4 h o rm) s = .next (i.done (i.write (i.countUse used (i.write i.s o.d .b32
      ((lanesOf i.g).map fun l => (l, i.blockVal o rm l)))) o.d2 .n8 ((lanesOf i.g).map fun l => (l, i.storedScale o rm l)))) := by
  intro i
  refine ⟨(dropsMark o.d || dropsMark o.d2) && (lanesOf i.g).any fun l => i.blockMark o l, ?_⟩
  show execPack4 h o rm s = _
  unfold execPack4
  simp only [group8_values, group8_mark, List.map_map, List.any_map]
  exact congrArg Host.Outcome.next (run_twoDests hg hFull hA hB hD hD2 _)

/-! ### UNPACK4 (R178) -/

/-- What UNPACK4 gives in a lane: the element of A under the scale of B. -/
def Ix.unpacked (i : Ix) (o : Ops) (t : Ty) (elt : BitVec 3) (l : Nat) : Val :=
  let sc := (i.read o.b .w32 l).bits.toNat % 256
  let x := Fmt.val .e2m1 ((i.read o.a .w32 l).bits.extractLsb' (4 * elt.toNat) 4).toNat
  { bits := codeOf (if sc = 0 then 0 else if sc = 0xFF then (Fmt.ofTy t).canonNan
      else (Fmt.ofTy t).round (x.mul (e3m5 sc)) .rne false 0)
    poison := (i.read o.a .w32 l).poison || (i.read o.b .w32 l).poison || decide (sc = 0xFF) }

theorem exec_unpack4 {h : Hdr} {o : Ops} {t : Ty} {elt : BitVec 3} {s : State} (hg : (Ix.of s h).g ≠ 0)
    (hReads : Readable (Ix.of s h) (uses3 h o .w32 .w32 .w32) (Ix.of s h).g) (hDest : Writable (Ix.of s h) o.d (Ty.regs t)) :
    exec (.unpack4 h o t elt) s = .next ((Ix.of s h).finish o.d t ((lanesOf (Ix.of s h).g).map fun l =>
      (l, (Ix.of s h).unpacked o t elt l))) := by
  have hElement (x : DWord) : x.toNat / 2 ^ (4 * elt.toNat) % 16 = (x.extractLsb' (4 * elt.toNat) 4).toNat :=
    div_mod_eq_extractLsb' x _ 4
  show execUnpack4 h o t elt s = _
  unfold execUnpack4
  simp only [hElement]
  exact congrArg Host.Outcome.next (run_checked ⟨hg, hReads, writable_one hDest⟩ _)

/-! ### HASH32 (R179) -/

/-- One round of the hash before the rounds that are left. -/
def hashStep (rest : Nat → Nat → Nat) (x k : Nat) : Nat :=
  let y := (x ^^^ k) * 0x2C1B3C6D % 2 ^ 32
  rest (y ^^^ (y / 2 ^ 15)) ((k + 0x9E3779B9) % 2 ^ 32)

theorem hash32_succ (n : Nat) : hash32 (n + 1) = hashStep (hash32 n) := rfl

/-- One round of the hash on words. -/
def hashRound (x k : Word) : Word :=
  let y := (x ^^^ k) * 0x2C1B3C6D
  y ^^^ (y >>> 15)

theorem hashStep_words (rest : Nat → Nat → Nat) (x k : Word) :
    hashStep rest x.toNat k.toNat = rest (hashRound x k).toNat (k + 0x9E3779B9).toNat := by
  have hKey : (k + 0x9E3779B9).toNat = (k.toNat + 0x9E3779B9) % 2 ^ 32 := BitVec.toNat_add ..
  have hProduct : ((x ^^^ k) * 0x2C1B3C6D).toNat = (x.toNat ^^^ k.toNat) * 0x2C1B3C6D % 2 ^ 32 := by
    rw [BitVec.toNat_mul, BitVec.toNat_xor]
    rfl
  rw [hashStep, hKey, hashRound, BitVec.toNat_xor, BitVec.toNat_ushiftRight, hProduct, Nat.shiftRight_eq_div_pow]

/-- Four rounds of the hash on words. -/
theorem hash32_four (x k : Word) : codeOf (hash32 4 x.toNat k.toNat) =
    up (hashRound (hashRound (hashRound (hashRound x k) (k + 0x9E3779B9)) (k + 0x9E3779B9 + 0x9E3779B9))
      (k + 0x9E3779B9 + 0x9E3779B9 + 0x9E3779B9)) := by
  rw [hash32_succ 3, hashStep_words, hash32_succ 2, hashStep_words, hash32_succ 1, hashStep_words, hash32_succ 0, hashStep_words]
  exact BitVec.ofNat_toNat ..

/-! ### The obligation -/

/-- Settles O11: CVT, PACK8, UNPACK8 and HASH32 are the lane-by-lane shape with functions of bit vectors, BSCALE and UNPACK4 end with
a value for D in each lane, and PACK4 writes D and then D2. -/
theorem conversions : Obligations.Conversions := by
  unfold Obligations.Conversions
  refine ⟨?cvt, ?pack8, ?unpack8, ?bscale, ?pack4, ?unpack4, ?hash32⟩
  case cvt =>
    refine fun h o t src rm sat tfp => alu_computes_of_eq (fun _ => rfl) fun a b c => ?_
    rw [code32_eq]
    rfl
  case pack8 =>
    refine fun h o e5 rm sat hi => alu_computes_of_eq (fun _ => rfl) fun a b c => ?_
    have hByte (x : DWord) : (fp8 e5).round (Fmt.val .fp32 (lo x).toNat) rm sat 0 < 2 ^ 8 :=
      fp8_width e5 ▸ round_lt (fp8 e5) _ rm sat 0
    simp only [code32_eq]
    exact codeOf_bytes (hByte b) (hByte a) c hi
  case unpack8 =>
    refine fun h o t b e5 => alu_computes_of_eq (fun _ => rfl) fun a _ _ => ?_
    rw [div_mod_eq_extractLsb']
  case bscale =>
    intro h o s i member hg hReads hDest
    exact finish_yields hg (exec_bscale hg hReads hDest)
  case pack4 =>
    intro h o rm s hne i member mark block hg hFull hA hB hD hD2
    obtain ⟨used, hExec⟩ := exec_pack4 (rm := rm) hg hFull hA hB hD hD2
    exact ⟨_, hExec, two_writes i (i.blockVal o rm) (i.storedScale o rm) used hg hne rfl rfl⟩
  case unpack4 =>
    intro h o t elt s hg hReads hDest
    exact finish_yields hg (exec_unpack4 hg hReads hDest)
  case hash32 =>
    refine fun h o => alu_computes_of_eq (fun _ => rfl) fun a b _ => ?_
    rw [code32_eq, code32_eq]
    exact hash32_four (lo a) (lo b)

end Sys2Proof.Machine
end

section
/-! SUPPORT. O35 fails as it is stated: an MBIND that waits for its contexts is to leave everything but its own entry, yet the use of a
poisoned register for its rank is counted when it issues (R417, R419). The state of the refutation reads rank 1 from a poisoned scalar,
in a context that does not trap on poison, and names a context that is already bound. -/

namespace Sys2Proof.Machine
open Sys2Proof.Claims

/-- Context 0 of cast 0 already leads context 1 of the cast of rank 1, and s2 holds that rank, poisoned. -/
def poisonedRank : State := Tests.bound.modFrag 0 fun x => { x with sregs := [(2, 1)], spoison := 4 }

/-- MBIND of context 0 to context 1 of the cast whose rank s2 holds. -/
def rebind : Instr := .mbind (Tests.hd .f96) { Tests.no with b := .s 2 } false true 0

/-- The uses of poison that core 0 has counted after a step. -/
def usesAfter (r : Host.Outcome State Fault Refusal) : Option Nat :=
  match r with
  | .next t => some (Sparse.get 0 (t.core 0).counters 2)
  | _ => none

/-- MBIND waits, and the poisoned rank is counted. -/
theorem usesAfter_rebind : usesAfter (exec rebind poisonedRank) = some 1 := by decide +kernel

theorem usesAfter_poisonedRank : usesAfter (.next poisonedRank) = some 0 := by decide +kernel

/-- A fragment that changes leaves what the core has counted. -/
theorem usesAfter_setFrag (s : State) (f : Nat) (x : Frag) : usesAfter (.next (s.setFrag f x)) = usesAfter (.next s) := rfl

/-- Refutes O35: the clause about an MBIND that waits (R196) fails where its rank is poisoned. Core 0 then counts one use of poison more
than before, although nothing but the waiting entry is to have changed. -/
theorem not_bindingsAndMatrixWaits : ¬ Obligations.BindingsAndMatrixWaits := by
  unfold Obligations.BindingsAndMatrixWaits
  rintro ⟨-, hBind, -⟩
  obtain ⟨-, hWaits⟩ := hBind (Tests.hd .f96) { Tests.no with b := .s 2 } false true 0 poisonedRank
  obtain ⟨t, hExec, rfl⟩ := hWaits
    ⟨by decide +kernel, by decide +kernel, ⟨by decide +kernel, fun h => absurd h (by decide +kernel), fun h => absurd h (by decide +kernel)⟩,
      by decide +kernel, by decide +kernel, by decide +kernel, by decide +kernel, by decide +kernel⟩
    (by decide +kernel)
  have hCounted := usesAfter_rebind
  rw [rebind, hExec, usesAfter_setFrag, usesAfter_poisonedRank] at hCounted
  exact absurd hCounted (by decide)

end Sys2Proof.Machine
end

section
/-! The checks of a matrix instruction at its anchor, and what makes each of them pass (R181, R182, R184 to R190, R194). -/

namespace Sys2Proof.Machine
open Sys2Proof.Claims

/-! ### Contexts and operands -/

/-- At the anchor an instruction waits for what it needs there, and then makes its checks once (R40, R188). -/
theorem anchored_home {α : Type} {i : Ix} (h : i.s.atAnchor i.x = true) (lsel : BitVec 4) (room : Except Stop Unit)
    (checks : Except Stop α) : i.anchored lsel room checks = room >>= fun _ => checks := by
  unfold Ix.anchored
  rw [if_pos h]

theorem checkFormat_ok (i : Ix) {bad : Bool} (h : bad = false) : i.checkFormat bad = .ok () := by
  rw [Ix.checkFormat, h, guardStop_false]

/-- The operands of a matrix instruction can be read. -/
theorem checkOperands_ok {i : Ix} {us : List Use} (h : Readable i us i.g) : i.checkOperands us = .ok () := by
  have hKnown : (i.s.debug i.x && us.any fun u => i.anyReg i.x.vabsent i.x.sabsent u.o u.n) = false := by
    cases hDebug : i.s.debug i.x
    · rfl
    · simpa using h.known hDebug
  have hClean : ((i.s.trapEnt i.x).tpoison && us.any fun u => i.poisonLanes u.o u.n i.g ≠ 0) = false := by
    cases hPoison : (i.s.trapEnt i.x).tpoison
    · rfl
    · simpa using h.clean hPoison
  simp only [Ix.checkOperands, checkEmpty_ok i us h.full, hKnown, hClean, guardStop_false, ok_bind]

/-- The guard-true lanes agree on a legal format word (R189). -/
theorem vote_ok {i : Ix} {o : Opnd} {w : Word} (hg : i.g ≠ 0) (h : Votes i o w) : i.vote o = .ok w := by
  obtain ⟨hWord, hLegal⟩ := h
  have hLowest : (i.read o .w32 (lowestLane i.g)).word = w := by
    obtain ⟨rest, hLanes⟩ := lanesOf_eq_cons _ hg
    exact hWord _ ((mem_lanesOf _ _).1 (by rw [hLanes]; exact List.mem_cons_self))
  have hNone : (i.lanesIf fun l => (i.read o .w32 l).word ≠ w) = 0 :=
    lanesIf_none _ _ fun l hl => decide_eq_false (not_not.2 (hWord l hl))
  simp only [Ix.vote, hLowest, hNone, checkFormat_ok i (bad := !fmtLegal w) (by rw [hLegal]; rfl), ne_eq, not_true, decide_false,
    guardStop_false, ok_bind, pure, Except.pure]

theorem MCtx.full_of_room {m : MCtx} (h : m.queue.length < 2) : m.full = false := decide_eq_false (by omega)

/-- Where no MFREE stands in the queue, an instruction accepted next finds the binding of now (R198). -/
theorem MCtx.leader_of_unfreed {m : MCtx} (h : ∀ q ∈ m.queue, q.op ≠ .mfree) : m.leader = m.leads := by
  unfold MCtx.leader
  rw [if_neg]
  simpa using h

/-- A context that follows none and has a free place lets an instruction in; a paired one needs a place in the follower's queue
too (R182, R196, R197). -/
theorem checkRoom_ok {i : Ix} {k pair : Bool} (h : CtxOk i k)
    (hFar : pair = true → ∀ d j, ((i.s.cast (i.s.castOf i.x)).ctx k).leader = some (d, j) → ((i.s.cast d).ctx j).queue.length < 2) :
    i.checkRoom k pair = .ok () := by
  have hOwn := MCtx.full_of_room h.room
  unfold Ix.checkRoom
  dsimp only
  cases pair
  · cases ((i.s.cast (i.s.castOf i.x)).ctx k).leader <;> simp [h.free, hOwn, guardStop]
  · cases hLeader : ((i.s.cast (i.s.castOf i.x)).ctx k).leader with
    | none => simp [h.free, hOwn, guardStop]
    | some q => simp [h.free, hOwn, MCtx.full_of_room (hFar rfl q.1 q.2 hLeader), guardStop]

/-! ### Tiles -/

section Tiles

variable {i : Ix} {d : DWord} {y : Layout} {write : Bool} (h : TileOk i d y write)
include h

theorem badStride_of_tileOk : badStride d y = false := by
  obtain ⟨hNonzero, hRow⟩ := h.stride
  exact decide_eq_false (by omega)

theorem checkTileAlign_ok : i.checkTileAlign d = .ok () := by
  rw [Ix.checkTileAlign, decide_eq_false (not_not.2 h.align), guardStop_false]

theorem checkTile_ok : i.checkTile d y write = .ok () := by
  have hPeer := h.peer
  have hInside := decide_eq_false (Nat.not_lt.2 h.inside)
  unfold Ix.checkTile
  cases hPv : tilePv d
  · rw [hPv, if_neg Bool.false_ne_true] at hPeer
    simp only [hPeer, hInside, ne_eq, not_true, decide_false, Bool.false_eq_true, if_false, Bool.or_false, guardStop_false]
  · rw [hPv, if_pos rfl] at hPeer
    simp only [hPeer.1, decide_eq_false (Nat.not_le.2 hPeer.2), hInside, if_true, Bool.or_false, guardStop_false]

theorem checkTileHeld_ok : i.checkTileHeld d y write = .ok () := by
  unfold Ix.checkTileHeld
  obtain ⟨hPv, hPeer⟩ | hFree := h.held
  · simp [hPv, hPeer, pure, Except.pure]
  · rw [Ix.checkHeld, hFree]
    exact ite_self _

end Tiles

/-! ### Metadata of MMAS -/

/-- The words of the metadata registers of a base, lane by lane, absent lanes zero (R194). -/
theorem metadata_ok {i : Ix} {first : Nat} {da : DWord} (hRun : i.x.wbase + first + metaRegs da ≤ (i.s.pour (i.s.pourOf i.x)).allot)
    (hFull : ∀ r, r < metaRegs da → i.x.vempty.getLsbD (i.x.wbase + first + r) = false)
    (hKnown : i.s.debug i.x = true → ∀ r, r < metaRegs da → i.x.vabsent.getLsbD (i.x.wbase + first + r) = false)
    (hClean : (i.s.trapEnt i.x).tpoison = true → ∀ r, r < metaRegs da → ∀ l, i.x.lanes.getLsbD l = true →
      i.h.elemMark (i.x.wbase + first + r) l = false) :
    i.metadata first da = .ok (i.metaWords first (metaRegs da)) := by
  have hEmpty : (((List.range (metaRegs da)).map (i.x.wbase + first + ·)).any i.x.vempty.getLsbD) = false := by simpa using hFull
  have hAbsent : (i.s.debug i.x && ((List.range (metaRegs da)).map (i.x.wbase + first + ·)).any i.x.vabsent.getLsbD) = false := by
    cases hDebug : i.s.debug i.x
    · rfl
    · simpa using hKnown hDebug
  have hPoison : ((i.s.trapEnt i.x).tpoison && ((List.range (metaRegs da)).map (i.x.wbase + first + ·)).any fun r =>
      (lanesOf i.x.lanes).any (i.h.elemMark r)) = false := by
    cases hTraps : (i.s.trapEnt i.x).tpoison
    · rfl
    · simpa [mem_lanesOf] using hClean hTraps
  simp only [Ix.metadata, Ix.checkRun, decide_eq_false (Nat.not_lt.2 hRun), hEmpty, hAbsent, hPoison, guardStop_false, ok_bind, pure,
    Except.pure]

/-- The indices of every group rise (R194). -/
theorem checkMeta_ok (i : Ix) {ws : List Word} {groups : Nat} (h : ∀ q, q < groups → metaRises ws q = true) :
    i.checkMeta ws groups = .ok () := by
  have hNone : (maskOf fun l => (List.range groups).any fun q => q % 32 = l && !metaRises ws q) = 0 := by
    apply BitVec.eq_of_getLsbD_eq
    intro l hl
    rw [maskOf_getLsbD _ l hl]
    refine (List.any_eq_false.2 fun q hq => ?_).trans BitVec.getLsbD_zero.symm
    simp [h q (List.mem_range.1 hq)]
  simp only [Ix.checkMeta, hNone, ne_eq, not_true, decide_false, guardStop_false]

end Sys2Proof.Machine
end

section
/-! The acceptance of a matrix instruction: what joins the queue of its context, and what stays as it was (R182, R197, R404). -/

namespace Sys2Proof.Machine
open Sys2Proof.Claims

/-! ### What an instruction has done before it is accepted -/

/-- Nothing has changed but counters, and the empty registers and the drain mark of the issuing fragment. -/
structure OperandsTaken (s u : State) (i : Ix) : Prop where
  frags : ∀ f, f ≠ i.f → u.frag f = s.frag f
  frag  : { u.frag i.f with drain := (s.frag i.f).drain, vempty := (s.frag i.f).vempty } = s.frag i.f
  cores : ∀ c, { u.core c with counters := (s.core c).counters } = s.core c
  rest  : { u with frags := s.frags, cores := s.cores } = s

namespace OperandsTaken

theorem refl (s : State) (i : Ix) : OperandsTaken s s i := ⟨fun _ _ => rfl, rfl, fun _ => rfl, rfl⟩

/-- Uses of poisoned operands are counted (R417). -/
theorem countUse (s : State) (i : Ix) (used : Bool) : OperandsTaken s (i.countUse used s) i where
  frags f _ := countUse_frag i used s f
  frag := by rw [countUse_frag]
  cores := countUse_core i used s
  rest := (congrArg (fun u : State => { u with frags := s.frags }) (countUse_rest i used s) :)

variable {s u : State} {i : Ix} (h : OperandsTaken s u i)
include h

theorem cast (c : Nat) : u.cast c = s.cast c := (congrArg (State.cast · c) h.rest :)

theorem modFrag (g : Frag → Frag) (hg : ∀ x, { g x with drain := x.drain, vempty := x.vempty } = x) :
    OperandsTaken s (u.modFrag i.f g) i where
  frags f hf := by rw [modFrag_frag, if_neg hf, h.frags f hf]
  frag := by
    rw [modFrag_frag, if_pos rfl]
    exact (congrArg (fun x : Frag => { x with drain := (s.frag i.f).drain, vempty := (s.frag i.f).vempty }) (hg (u.frag i.f)) :).trans
      h.frag
  cores := h.cores
  rest := h.rest

end OperandsTaken

/-! ### Acceptance -/

@[simp] theorem acceptInst_cast (s : State) (c : Nat) (k : Bool) (op : MOp) (saved : MWord) (hk : Nat)
    (mate : Option (Bool × Nat × Bool)) (e : Nat) : (s.acceptInst c k op saved hk mate).cast e =
      if e = c then (s.cast c).setCtx k (queued ((s.cast c).ctx k) op saved hk mate) else s.cast e := modCast_cast ..

theorem acceptInst_rest (s : State) (c : Nat) (k : Bool) (op : MOp) (saved : MWord) (hk : Nat) (mate : Option (Bool × Nat × Bool)) :
    { s.acceptInst c k op saved hk mate with casts := s.casts } = s := rfl

/-- The lanes go on where the issuing fragment said they would, whatever became of its drain mark and of its empty registers. -/
theorem OperandsTaken.wentOn {s u v : State} {i : Ix} (h : OperandsTaken s u i) (hv : v.frag i.f = u.frag i.f) :
    WentOn s (i.done v) i := by
  unfold WentOn
  rw [done_frag, if_pos rfl, hv]
  exact complete_entries _ _ _ _ _ _ (congrArg Frag.entries h.frag :) (congrArg Frag.loops h.frag :) (congrArg Frag.rep h.frag :)
    (congrArg Frag.repc h.frag :)

/-- An instruction whose operands have been taken is accepted. -/
theorem accepted_of_taken {s u : State} {hd : Hdr} {k : Bool} {op : MOp} {saved : MWord} (h : OperandsTaken s u (Ix.of s hd))
    (hFull : (∀ ty r p w l m, op ≠ .ard ty r p w l m) → (u.frag (Ix.of s hd).f).vempty = (s.frag (Ix.of s hd).f).vempty)
    (hDrain : (∀ r w so p n, op ≠ .amrg r w so p n) → (u.frag (Ix.of s hd).f).drain = (s.frag (Ix.of s hd).f).drain) :
    Accepted s ((Ix.of s hd).accepted k op saved u) (Ix.of s hd) k op saved := by
  generalize hi : Ix.of s hd = i at *
  have hs : i.s = s := by rw [← hi]; rfl
  have hFrag : (i.accepted k op saved u).frag i.f = (u.frag i.f).complete i.e.prio i.e.pc i.next i.e.mask := by
    rw [Ix.accepted, done_frag, if_pos rfl]
    rfl
  have hComplete := complete_rest (u.frag i.f) i.e.prio i.e.pc i.next i.e.mask
  exact {
    queue := by
      show (u.acceptInst (i.s.castOf i.x) k op saved i.x.hoist none).cast _ = _
      rw [acceptInst_cast, hs, if_pos rfl, h.cast]
    casts := fun c hc => by
      show (u.acceptInst (i.s.castOf i.x) k op saved i.x.hoist none).cast _ = _
      rw [acceptInst_cast, hs, if_neg hc, h.cast]
    went := h.wentOn rfl
    frags := fun f hf => by
      rw [Ix.accepted, done_frag, if_neg hf]
      exact h.frags f hf
    frag := by
      rw [hFrag]
      exact (congrArg (fun x : Frag => { x with
        entries := (s.frag i.f).entries, atEnd := (s.frag i.f).atEnd, rep := (s.frag i.f).rep, repc := (s.frag i.f).repc
        drain := (s.frag i.f).drain, vempty := (s.frag i.f).vempty }) hComplete :).trans
        (congrArg (fun x : Frag => { x with
          entries := (s.frag i.f).entries, atEnd := (s.frag i.f).atEnd, rep := (s.frag i.f).rep, repc := (s.frag i.f).repc })
          h.frag :)
    full := fun hop => by
      rw [hFrag]
      exact (congrArg Frag.vempty hComplete :).trans (hFull hop)
    drain := fun hop => by
      rw [hFrag]
      exact (congrArg Frag.drain hComplete :).trans (hDrain hop)
    cores := h.cores
    rest := (congrArg (fun u : State => { u with casts := s.casts }) h.rest :) }

/-- An instruction that counts the uses of poison and changes nothing else of its fragment is accepted. -/
theorem accepted_countUse (s : State) (hd : Hdr) (k : Bool) (op : MOp) (saved : MWord) (used : Bool) :
    Accepted s ((Ix.of s hd).accepted k op saved ((Ix.of s hd).countUse used s)) (Ix.of s hd) k op saved :=
  accepted_of_taken (.countUse s _ used) (fun _ => by rw [countUse_frag]) (fun _ => by rw [countUse_frag])

end Sys2Proof.Machine
end

section
/-! O33, first part: MMA, MMAS and MMAL, alone and paired (R182, R186 to R189, R192, R194, R197). -/

namespace Sys2Proof.Machine
open Sys2Proof.Claims

/-! ### The checks -/

/-- Nothing holds a multiply-accumulate instruction back at its anchor: its descriptors `da` and `db`, its metadata `ws` and its format
word `w` pass the checks of R188, and its queue has room, a paired one's follower's too. -/
structure MacReady (i : Ix) (h : Hdr) (o : Ops) (kind : MacKind) (k pair : Bool) (first : Nat) (da db : DWord) (ws : List Word)
    (w : Word) : Prop where
  descA   : (i.uniform o.a (.bw true)).bits = da
  descB   : (i.uniform o.b (.bw true)).bits = db
  ctx     : CtxOk i k
  reads   : Readable i (uses3 h o .w32 .w32 .w32) i.g
  votes   : Votes i o.c w
  accepts : kind.accepts w = true
  extents : extentsOk kind w pair (tileRows da) (tileRows db) (tileK da) = true
  depth   : tileK da = tileK db
  tileA   : TileOk i da (layoutA kind w da) false
  tileB   : TileOk i db (layoutB kind w db) false
  words   : (if kind = .mmas then i.metadata first da else .ok []) = .ok ws
  rises   : (if kind = .mmas then i.checkMeta ws (metaGroups da) else .ok ()) = .ok ()
  leads   : pair = true → ∃ d j, ((i.s.cast (i.s.castOf i.x)).ctx k).leader = some (d, j) ∧ ((i.s.cast d).ctx j).queue.length < 2

section Ready

variable {i : Ix} {h : Hdr} {o : Ops} {kind : MacKind} {k pair : Bool} {first : Nat} {da db : DWord} {ws : List Word} {w : Word}
  (hr : MacReady i h o kind k pair first da db ws w)
include hr

theorem macRoom_ok : i.checkRoom k pair = .ok () := by
  refine checkRoom_ok hr.ctx fun hPair d j hLeader => ?_
  obtain ⟨d', j', hLeader', hRoom⟩ := hr.leads hPair
  obtain ⟨rfl, rfl⟩ : d' = d ∧ j' = j := by simpa [hLeader'] using hLeader
  exact hRoom

theorem macFormat_ok : i.checkFormat (!kind.accepts w || !i.s.holdsCtx (i.s.castOf i.x) k ||
    !extentsOk kind w pair (tileRows da) (tileRows db) (tileK da) || decide (tileK da ≠ tileK db) || badStride da (layoutA kind w da) ||
    badStride db (layoutB kind w db) || (pair && ((i.s.cast (i.s.castOf i.x)).ctx k).leader.isNone)) = .ok () := by
  have hLeads : (pair && ((i.s.cast (i.s.castOf i.x)).ctx k).leader.isNone) = false := by
    cases pair
    · rfl
    · obtain ⟨d, j, hLeader, -⟩ := hr.leads rfl
      rw [hLeader]
      rfl
  apply checkFormat_ok
  simp only [hr.accepts, hr.ctx.holds, hr.extents, decide_eq_false (not_not.2 hr.depth), badStride_of_tileOk hr.tileA,
    badStride_of_tileOk hr.tileB, hLeads, Bool.not_true, Bool.or_false]

theorem macChecks_ok : i.macChecks h o kind k pair first = .ok (da, db, ws, w) := by
  have hUses : i.checkOperands [{ o := o.a, n := 1, bit := h.ea }, { o := o.b, n := 1, bit := h.eb }, i.useC h o] = .ok () :=
    checkOperands_ok hr.reads
  have hWords := hr.words
  unfold Ix.macChecks
  simp only [hUses, hr.descA, hr.descB, vote_ok hr.ctx.lanes hr.votes, macFormat_ok hr, checkTileAlign_ok hr.tileA,
    checkTileAlign_ok hr.tileB, checkTile_ok hr.tileA, checkTile_ok hr.tileB, if_pos hr.ctx.anchor, ok_bind, pure, Except.pure]
  by_cases hKind : kind = .mmas
  · rw [if_pos hKind] at hWords
    rw [if_neg (not_not.2 hKind), hWords, ok_bind]
  · rw [if_neg hKind] at hWords
    rw [if_pos hKind, Except.ok.inj hWords]

/-- A multiply-accumulate instruction that nothing holds back is accepted, and the uses of poison are counted. -/
theorem mac_ok (lsel : BitVec 4) (ins : Instr) : ∃ used, i.mac h o kind k pair first lsel ins =
    i.done ((i.countUse used i.s).acceptMac (i.s.castOf i.x) k pair (.mac kind da db w ws pair) (i.saved ins o) i.x.hoist) := by
  refine ⟨i.poisonLanes o.a 1 i.g ≠ 0 || i.poisonLanes o.b 1 i.g ≠ 0 || i.poisonLanes o.c 1 i.g ≠ 0, ?_⟩
  have hRises := hr.rises
  unfold Ix.mac
  simp only [anchored_home hr.ctx.anchor, macRoom_ok hr, macChecks_ok hr, checkTileHeld_ok hr.tileA, checkTileHeld_ok hr.tileB, ok_bind,
    pure, Except.pure]
  by_cases hKind : kind = .mmas
  · rw [if_pos hKind] at hRises
    rw [if_pos hKind, hRises, ok_bind, run_ok _ _ hr.ctx.lanes]
  · rw [if_neg hKind, run_ok _ _ hr.ctx.lanes]

end Ready

/-! ### Acceptance -/

/-- A single instruction joins one queue. -/
theorem acceptMac_single (s : State) (c : Nat) (k : Bool) (op : MOp) (saved : MWord) (hk : Nat) :
    s.acceptMac c k false op saved hk = s.acceptInst c k op saved hk none := rfl

/-- A paired instruction joins the queues of the leader and of the follower (R197). -/
theorem acceptMac_pair {s : State} {c d : Nat} {k j : Bool} (op : MOp) (saved : MWord) (hk : Nat)
    (hLeader : ((s.cast c).ctx k).leader = some (d, j)) : s.acceptMac c k true op saved hk =
      (s.acceptInst c k op saved hk (some (true, d, j))).acceptInst d j op saved hk (some (false, c, k)) := by
  unfold State.acceptMac
  rw [hLeader]

theorem countUse_cast (i : Ix) (used : Bool) (s : State) (c : Nat) : (i.countUse used s).cast c = s.cast c :=
  (OperandsTaken.countUse s i used).cast c

/-- What the acceptance of a paired instruction leaves in both contexts, and elsewhere. -/
theorem paired_accepted {s : State} {hd : Hdr} {k j : Bool} {d : Nat} {op : MOp} {saved : MWord} (used : Bool)
    (hLeader : ((s.cast (s.castOf (Ix.of s hd).x)).ctx k).leader = some (d, j)) (hne : d ≠ s.castOf (Ix.of s hd).x) :
    let i := Ix.of s hd
    let c := s.castOf i.x
    let t := i.done ((i.countUse used s).acceptMac c k true op saved i.x.hoist)
    WentOn s t i ∧ { t with frags := s.frags, casts := s.casts, cores := s.cores } = s ∧
      t.cast c = (s.cast c).setCtx k (queued ((s.cast c).ctx k) op saved i.x.hoist (some (true, d, j))) ∧
      t.cast d = (s.cast d).setCtx j (queued ((s.cast d).ctx j) op saved i.x.hoist (some (false, c, k))) ∧
      ∀ e, e ≠ c → e ≠ d → t.cast e = s.cast e := by
  intro i c t
  have hTaken := OperandsTaken.countUse s i used
  have hAccept := acceptMac_pair op saved i.x.hoist (s := i.countUse used s) (c := c) (k := k) (d := d) (j := j)
    (by rw [countUse_cast]; exact hLeader)
  have hCast (e : Nat) : t.cast e = (((i.countUse used s).acceptInst c k op saved i.x.hoist (some (true, d, j))).acceptInst d j op saved
      i.x.hoist (some (false, c, k))).cast e := (congrArg (State.cast · e) hAccept :)
  refine ⟨hTaken.wentOn ?_, ?_, ?_, ?_, fun e hc hd => ?_⟩
  · rw [hAccept]
    rfl
  · show { (i.countUse used s).acceptMac c k true op saved i.x.hoist with frags := s.frags, casts := s.casts, cores := s.cores } = s
    rw [hAccept]
    exact (congrArg (fun u : State => { u with casts := s.casts }) hTaken.rest :)
  · rw [hCast, acceptInst_cast, if_neg hne.symm, acceptInst_cast, if_pos rfl, countUse_cast]
  · rw [hCast, acceptInst_cast, if_pos rfl, acceptInst_cast, if_neg hne, countUse_cast]
  · rw [hCast, acceptInst_cast, if_neg hd, acceptInst_cast, if_neg hc, countUse_cast]

end Sys2Proof.Machine
end

section
/-! O33, second part: ACLR, ALDS, ASTS and ARD (R201 to R203), and AMRG with its ticket (R205, R206). -/

namespace Sys2Proof.Machine
open Sys2Proof.Claims

/-! ### ACLR, ALDS, ASTS and ARD -/

/-- A context instruction alone waits for no other queue. -/
theorem soleRoom_ok {i : Ix} {k : Bool} (h : CtxOk i k) : i.checkRoom k false = .ok () := checkRoom_ok h nofun

section Moves

variable {h : Hdr} {o : Ops} {k : Bool} {s : State} (hCtx : CtxOk (Ix.of s h) k) (lsel : BitVec 4)
include hCtx

theorem exec_aclr : exec (.aclr h o k lsel) s =
    .next ((Ix.of s h).accepted k .aclr ((Ix.of s h).saved (.aclr h o k lsel) o) s) := by
  show execAclr h o k lsel s = _
  simp only [execAclr, anchored_home hCtx.anchor, soleRoom_ok hCtx, checkFormat_ok _ (congrArg (!·) hCtx.holds), ok_bind, pure,
    Except.pure, run_ok _ _ hCtx.lanes]
  rfl

/-- The descriptor of a tile of ALDS or ASTS has legal extents and a legal stride (R186, R202). -/
theorem moveFormat_ok {d : DWord} {y : Layout} {write : Bool} (hRows : tileRows d ≤ 128) (hCols : tileK d ≤ 256)
    (hTile : TileOk (Ix.of s h) d y write) : (!(Ix.of s h).s.holdsCtx ((Ix.of s h).s.castOf (Ix.of s h).x) k ||
      decide (128 < tileRows d ∨ 256 < tileK d) || badStride d y) = false := by
  rw [hCtx.holds, decide_eq_false (by omega), badStride_of_tileOk hTile]
  rfl

variable {ty : Ty} {d : DWord} {w : Word}

theorem exec_alds (hDesc : ((Ix.of s h).uniform o.a (.bw true)).bits = d)
    (hReads : Readable (Ix.of s h) [{ o := o.a, n := 1, bit := h.ea }] (Ix.of s h).g) (hRows : tileRows d ≤ 128) (hCols : tileK d ≤ 256)
    (hTile : TileOk (Ix.of s h) d (layoutT ty d) false) : ∃ used, exec (.alds h o ty k lsel) s =
      .next ((Ix.of s h).accepted k (.alds ty d) ((Ix.of s h).saved (.alds h o ty k lsel) o) ((Ix.of s h).countUse used s)) := by
  refine ⟨(Ix.of s h).poisonLanes o.a 1 (Ix.of s h).g ≠ 0, ?_⟩
  show execAlds h o ty k lsel s = _
  simp only [execAlds, hDesc, anchored_home hCtx.anchor, soleRoom_ok hCtx, checkOperands_ok hReads,
    checkFormat_ok _ (moveFormat_ok hCtx hRows hCols hTile), checkTileAlign_ok hTile, checkTile_ok hTile, checkTileHeld_ok hTile, ok_bind,
    pure, Except.pure, run_ok _ _ hCtx.lanes]
  rfl

theorem exec_asts (hDesc : ((Ix.of s h).uniform o.a (.bw true)).bits = d)
    (hReads : Readable (Ix.of s h) [{ o := o.a, n := 1, bit := h.ea }, { o := o.c, n := 1, bit := h.ec }] (Ix.of s h).g)
    (hVotes : Votes (Ix.of s h) o.c w) (hBack : readbackOk ty w = true) (hRows : tileRows d ≤ 128) (hCols : tileK d ≤ 256)
    (hTile : TileOk (Ix.of s h) d (layoutT ty d) true) : ∃ used, exec (.asts h o ty k lsel) s =
      .next ((Ix.of s h).accepted k (.asts ty d w) ((Ix.of s h).saved (.asts h o ty k lsel) o) ((Ix.of s h).countUse used s)) := by
  refine ⟨(Ix.of s h).poisonLanes o.a 1 (Ix.of s h).g ≠ 0 || (Ix.of s h).poisonLanes o.c 1 (Ix.of s h).g ≠ 0, ?_⟩
  have hUses : (Ix.of s h).checkOperands [{ o := o.a, n := 1, bit := h.ea }, (Ix.of s h).useC h o] = .ok () := checkOperands_ok hReads
  have hFormat := moveFormat_ok hCtx hRows hCols hTile
  show execAsts h o ty k lsel s = _
  simp only [execAsts, hDesc, anchored_home hCtx.anchor, soleRoom_ok hCtx, hUses, vote_ok hCtx.lanes hVotes, hBack, Bool.not_true,
    Bool.false_or, checkFormat_ok _ hFormat, checkTileAlign_ok hTile, checkTile_ok hTile, checkTileHeld_ok hTile, ok_bind, pure,
    Except.pure, run_ok _ _ hCtx.lanes]
  rfl

/-- The state in which the destination of an ARD is empty and the uses of poison are counted. -/
def Ix.awaiting (i : Ix) (reg : Nat) (used : Bool) (s : State) : State :=
  (i.countUse used s).modFrag i.f fun x => { x with vempty := x.vempty ||| regBits reg 1 }

theorem exec_ard {q : BitVec 6} (hd : o.d = .v q)
    (hReads : Readable (Ix.of s h) [{ o := o.b, n := 1, bit := h.eb }, { o := o.c, n := 1, bit := h.ec }] (Ix.of s h).g)
    (hVotes : Votes (Ix.of s h) o.c w) (hBack : readbackOk ty w = true) (hDest : (Ix.of s h).isEmpty o.d 1 = false) :
    ∃ used, exec (.ard h o ty k lsel) s = .next ((Ix.of s h).accepted k
      (.ard ty ((Ix.of s h).areg q.toNat) (lo ((Ix.of s h).read o.b .w32 0).bits) w (Ix.of s h).g (Ix.of s h).x.lanes)
      ((Ix.of s h).saved (.ard h o ty k lsel) o) ((Ix.of s h).awaiting ((Ix.of s h).areg q.toNat) used s)) := by
  refine ⟨(Ix.of s h).poisonLanes o.b 1 (Ix.of s h).g ≠ 0 || (Ix.of s h).poisonLanes o.c 1 (Ix.of s h).g ≠ 0, ?_⟩
  have hUses : (Ix.of s h).checkOperands [{ o := o.b, n := 1, bit := h.eb }, (Ix.of s h).useC h o] = .ok () := checkOperands_ok hReads
  have hDests : (Ix.of s h).checkDests [(.v q, 1)] = .ok () := checkDests_ok _ _ _ (hd ▸ hDest)
  have hFormat : (!(Ix.of s h).s.holdsCtx ((Ix.of s h).s.castOf (Ix.of s h).x) k) = false := congrArg (!·) hCtx.holds
  show execArd h o ty k lsel s = _
  simp only [execArd, anchored_home hCtx.anchor, soleRoom_ok hCtx, hUses, hDests, vote_ok hCtx.lanes hVotes, hBack, Bool.not_true,
    Bool.false_or, checkFormat_ok _ hFormat, ok_bind, hd, pure, Except.pure, run_ok _ _ hCtx.lanes]
  rfl

end Moves

/-- An ARD whose destination is empty from then on is accepted (R203). -/
theorem accepted_awaiting (s : State) (h : Hdr) (k : Bool) (ty : Ty) (reg r : Nat) (pos w : Word) (l m : LaneMask) (saved : MWord)
    (used : Bool) : Accepted s ((Ix.of s h).accepted k (.ard ty r pos w l m) saved ((Ix.of s h).awaiting reg used s)) (Ix.of s h) k
      (.ard ty r pos w l m) saved :=
  accepted_of_taken ((OperandsTaken.countUse s _ used).modFrag _ fun _ => rfl) (fun hop => absurd rfl (hop ty r pos w l m)) fun _ => by
    rw [Ix.awaiting, modFrag_frag, if_pos rfl, countUse_frag]

theorem regBits_one_getLsbD {a r : Nat} (hr : r < 256) : (regBits r 1).getLsbD a = decide (a = r) := by
  show ((0 : BitVec 256) ||| BitVec.ofNat 256 (2 ^ r)).getLsbD a = _
  exact (congrArg (BitVec.getLsbD · a) BitVec.zero_or).trans (getLsbD_bit 256 _ _ hr)

/-- The registers that are empty once an ARD is accepted. -/
theorem vempty_awaiting (s : State) (h : Hdr) (k : Bool) (op : MOp) (saved : MWord) (used : Bool) {reg : Nat} (hReg : reg < 256) (a : Nat) :
    (((Ix.of s h).accepted k op saved ((Ix.of s h).awaiting reg used s)).frag (Ix.of s h).f).vempty.getLsbD a =
      ((Ix.of s h).x.vempty.getLsbD a || decide (a = reg)) := by
  have hFrag := complete_rest (((Ix.of s h).awaiting reg used s).frag (Ix.of s h).f) (Ix.of s h).e.prio (Ix.of s h).e.pc (Ix.of s h).next
    (Ix.of s h).e.mask
  rw [Ix.accepted, done_frag, if_pos rfl, ← regBits_one_getLsbD hReg, ← BitVec.getLsbD_or]
  refine congrArg (BitVec.getLsbD · a) ((congrArg Frag.vempty hFrag :).trans ?_)
  rw [Ix.awaiting, modFrag_frag, if_pos rfl, countUse_frag]
  rfl

/-! ### AMRG -/

/-- Every destination address of a merge, and its ticket, is translated, may be used and has the home of the destination, so that
none of them stops the merge (R205). -/
theorem mergeHeads_ok {i : Ix} {heads : List Nat} {home : Nat} (h : ∀ a ∈ heads, ∃ leaf, i.translate a = .ok leaf (i.pa a) ∧
    i.denied Acc.rmw leaf (i.pa a) = false ∧ paHearth (i.pa a) = home) :
    (heads.find? fun a => i.translate a = .miss) = none ∧ heads.find? (i.mergeBad home) = none := by
  simp only [List.find?_eq_none]
  constructor <;> intro a ha <;> obtain ⟨leaf, hLeaf, hGranted, hHome⟩ := h a ha
  · simp [hLeaf]
  · simp [Ix.mergeBad, hLeaf, hGranted, hHome]

/-- The state in which an AMRG joins its queue: the uses of poison are counted, and a release of its scope has been made (R231). -/
def Ix.released (i : Ix) (so : ScopeOrder) (used : Bool) (s : State) : State :=
  (i.countUse used s).modFrag i.f (i.drainAfter false (ScopeOrder.rel so) so.scope)

/-- An AMRG that has made its release is accepted. -/
theorem accepted_released (s : State) (h : Hdr) (k : Bool) (r : BitVec 256) (w : Word) (so : ScopeOrder) (pages : List (Nat × Nat))
    (ticket : Nat) (saved : MWord) (used : Bool) : Accepted s ((Ix.of s h).accepted k (.amrg r w so pages ticket) saved
      ((Ix.of s h).released so used s)) (Ix.of s h) k (.amrg r w so pages ticket) saved :=
  accepted_of_taken ((OperandsTaken.countUse s _ used).modFrag _ fun x =>
      (congrArg (fun y : Frag => { y with vempty := x.vempty }) (drainAfter_rest ..) :))
    (fun _ => by
      rw [Ix.released, modFrag_frag, if_pos rfl, countUse_frag]
      exact (congrArg Frag.vempty (drainAfter_rest ..) :))
    fun hop => absurd rfl (hop r w so pages ticket)

/-- The end of an AMRG whose record is in order: it waits for its ticket, and is accepted then (R206). -/
def Ix.mergeBody (i : Ix) (k : Bool) (op : MOp) (saved : MWord) (so : ScopeOrder) (used : Bool) (ticket seq : Nat) : Except Stop State :=
  guardStop (i.s.readLE ticket 8 ≠ seq) (.wait (.ticket ticket seq)) >>= fun _ => pure (i.accepted k op saved (i.released so used i.s))

theorem exec_amrg {h : Hdr} {o : Ops} {k : Bool} {so : ScopeOrder} {lsel : BitVec 4} {w : Word} {s : State} {ofs : Nat} {r : BitVec 256}
    (hOfs : ((Ix.of s h).read o.b .w32 0).bits.toNat % 2 ^ 23 = ofs)
    (hRecord : BitVec.ofNat 256 ((s.cast (s.castOf (Ix.of s h).x)).sread ofs 32) = r) (hCtx : CtxOk (Ix.of s h) k)
    (hReads : Readable (Ix.of s h) [{ o := o.b, n := 1, bit := h.eb }, { o := o.c, n := 1, bit := h.ec }] (Ix.of s h).g)
    (hVotes : Votes (Ix.of s h) o.c w) (hAligned : ofs % 32 = 0) (hInside : ofs + 32 ≤ s.spadBytes (s.castOf (Ix.of s h).x))
    (hFree : s.tileHeld (Ix.of s h).x.hoist false ofs 32 = false)
    (hFields : ¬ (recM r = 0 ∨ 128 < recM r ∨ recN r = 0 ∨ 256 < recN r ∨ recField r 0x1C 4 ≠ 0))
    (hDest : recDest r % 4 = 0) (hStride : recStride r % 4 = 0) (hTicket : recTicket r % 8 = 0)
    (hHeads : ∀ a ∈ recHeads r, ∃ leaf, (Ix.of s h).translate a = .ok leaf ((Ix.of s h).pa a) ∧
      (Ix.of s h).denied Acc.rmw leaf ((Ix.of s h).pa a) = false ∧
      paHearth ((Ix.of s h).pa a) = paHearth ((Ix.of s h).pa (recDest r)))
    (hOutside : (Ix.of s h).outside ((Ix.of s h).pa (recDest r)) = false) (hReleased : Released (Ix.of s h) so) :
    ∃ used, exec (.amrg h o k so lsel) s = .next ((Ix.of s h).run ((Ix.of s h).mergeBody k
      (.amrg r w so ((recHeads r).map fun a => (a / 65536, (Ix.of s h).pa a / 65536 * 65536)) ((Ix.of s h).pa (recTicket r)))
      ((Ix.of s h).saved (.amrg h o k so lsel) o) so used ((Ix.of s h).pa (recTicket r)) (recSeq r))) := by
  refine ⟨(Ix.of s h).poisonLanes o.b 1 (Ix.of s h).g ≠ 0 || (Ix.of s h).poisonLanes o.c 1 (Ix.of s h).g ≠ 0, ?_⟩
  have hUses : (Ix.of s h).checkOperands [{ o := o.b, n := 1, bit := h.eb }, (Ix.of s h).useC h o] = .ok () := checkOperands_ok hReads
  have hHolds : (!(Ix.of s h).s.holdsCtx ((Ix.of s h).s.castOf (Ix.of s h).x) k) = false := congrArg (!·) hCtx.holds
  have hBounds : decide ((Ix.of s h).s.spadBytes ((Ix.of s h).s.castOf (Ix.of s h).x) < ofs + 32) = false :=
    decide_eq_false (Nat.not_lt.2 hInside)
  have hHeld : (Ix.of s h).checkHeld false ofs 32 = .ok () := by
    rw [Ix.checkHeld, show (Ix.of s h).s.tileHeld _ _ _ _ = false from hFree, guardStop_false]
  have hRec : BitVec.ofNat 256 (((Ix.of s h).s.cast ((Ix.of s h).s.castOf (Ix.of s h).x)).sread ofs 32) = r := hRecord
  obtain ⟨hMapped, hGranted⟩ := mergeHeads_ok hHeads
  show execAmrg h o k so lsel s = _
  simp only [execAmrg, Ix.uniform, hOfs, anchored_home hCtx.anchor, soleRoom_ok hCtx, hUses, vote_ok hCtx.lanes hVotes,
    checkFormat_ok _ hHolds, hAligned, hBounds, hHeld, hRec, checkFormat_ok _ (decide_eq_false hFields), hDest, hStride, hTicket, hMapped,
    hGranted, hOutside, checkRelease_ok hReleased, ne_eq, not_true, decide_false, guardStop_false, ok_bind,
    pure, Except.pure, walkPage, Ix.mergeBody, Ix.released]

end Sys2Proof.Machine
end

section
/-! O33: matrix instructions are accepted with their operands, and AMRG with its ticket (R182 to R206). -/

namespace Sys2Proof.Machine
open Sys2Proof.Claims

/-- The multiply-accumulate instruction of a kind. -/
def MacKind.instr (kind : MacKind) (h : Hdr) (o : Ops) (k pair : Bool) (first : BitVec 6) (lsel : BitVec 4) : Instr :=
  match kind with
  | .mma => .mma h o k pair lsel
  | .mmas => .mmas h o k pair first lsel
  | .mmal => .mmal h o k pair lsel

/-- The three kinds share one meaning; only MMAS names metadata registers, from `first` on. -/
theorem exec_macInstr (kind : MacKind) (h : Hdr) (o : Ops) (k pair : Bool) (first : BitVec 6) (lsel : BitVec 4) (s : State) :
    exec (kind.instr h o k pair first lsel) s = .next ((Ix.of s h).mac h o kind k pair (if kind = .mmas then first.toNat else 0) lsel
      (kind.instr h o k pair first lsel)) := by
  cases kind <;> rfl

/-- The metadata as an instruction of a kind takes them: MMAS alone has any (R194). -/
def Ix.macWords (i : Ix) (kind : MacKind) (first : Nat) (da : DWord) : List Word :=
  if kind = .mmas then i.metaWords first (metaRegs da) else []

/-- The metadata registers of an MMAS lie in the allotment and can be read, and the indices of every group rise (R188, R194). -/
structure MetaReady (i : Ix) (first : Nat) (da : DWord) : Prop where
  run   : i.x.wbase + first + metaRegs da ≤ (i.s.pour (i.s.pourOf i.x)).allot
  full  : ∀ r, r < metaRegs da → i.x.vempty.getLsbD (i.x.wbase + first + r) = false
  known : i.s.debug i.x = true → ∀ r, r < metaRegs da → i.x.vabsent.getLsbD (i.x.wbase + first + r) = false
  clean : (i.s.trapEnt i.x).tpoison = true → ∀ r, r < metaRegs da → ∀ l, i.x.lanes.getLsbD l = true →
    i.h.elemMark (i.x.wbase + first + r) l = false
  rises : ∀ q, q < metaGroups da → metaRises (i.metaWords first (metaRegs da)) q = true

theorem macWords_ok {i : Ix} {kind : MacKind} {first : Nat} {da : DWord} (h : kind = .mmas → MetaReady i first da) :
    (if kind = .mmas then i.metadata (if kind = .mmas then first else 0) da else .ok []) = .ok (i.macWords kind first da) ∧
    (if kind = .mmas then i.checkMeta (i.macWords kind first da) (metaGroups da) else .ok ()) = .ok () := by
  unfold Ix.macWords
  by_cases hKind : kind = .mmas
  · have hm := h hKind
    simp only [if_pos hKind]
    exact ⟨metadata_ok hm.run hm.full hm.known hm.clean, checkMeta_ok i hm.rises⟩
  · simp only [if_neg hKind, and_self]

/-- Settles O33: every check of a matrix instruction at its anchor passes, and what is left is its acceptance; a paired one joins two
queues, the destination of ARD is empty, and AMRG waits for its ticket first. -/
theorem matrixInstructionsAreAccepted : Obligations.MatrixInstructionsAreAccepted := by
  unfold Obligations.MatrixInstructionsAreAccepted
  refine ⟨?mac, ⟨?aclr, ?alds, ?asts, ?ard⟩, ?amrg⟩
  case mac =>
    intro h o k pair first lsel kind w s i c da db ya n base ws op instr hCtx hReads hVotes hAccepts hExtents hDepth hTileA hTileB hMeta
    have hWs : ws = i.macWords kind first.toNat da := rfl
    have hInstr : instr = kind.instr h o k pair first lsel := by cases kind <;> rfl
    obtain ⟨hWords, hRises⟩ := macWords_ok (i := i) (kind := kind) (first := first.toNat) (da := da) fun hKind => by
      obtain ⟨hRun, hFull, hKnown, hClean, hRise⟩ := hMeta hKind
      have hTaken : ws = i.metaWords first.toNat (metaRegs da) := hWs.trans (if_pos hKind)
      exact ⟨hRun, hFull, hKnown, hClean, fun q hq => decide_eq_true (hTaken ▸ hRise q hq)⟩
    have hReady (hLeads : pair = true → ∃ d j, ((i.s.cast (i.s.castOf i.x)).ctx k).leader = some (d, j) ∧
        ((i.s.cast d).ctx j).queue.length < 2) :
        MacReady i h o kind k pair (if kind = .mmas then first.toNat else 0) da db ws w :=
      ⟨rfl, rfl, hCtx, hReads, hVotes, hAccepts, hExtents, hDepth, hTileA, hTileB, hWords, hRises, hLeads⟩
    rw [hInstr]
    refine ⟨fun hSole => ?sole, fun d j hPair hLead hUnfreed hFar hne => ?paired⟩
    case sole =>
      subst hSole
      obtain ⟨used, hMac⟩ := mac_ok (hReady nofun) lsel (kind.instr h o k false first lsel)
      exact ⟨_, (exec_macInstr ..).trans (congrArg _ hMac), accepted_countUse s h k _ _ used⟩
    case paired =>
      subst hPair
      have hLeader : ((s.cast c).ctx k).leader = some (d, j) := (MCtx.leader_of_unfreed hUnfreed).trans hLead
      obtain ⟨used, hMac⟩ := mac_ok (hReady fun _ => ⟨d, j, hLeader, hFar⟩) lsel (kind.instr h o k true first lsel)
      exact ⟨_, (exec_macInstr ..).trans (congrArg _ hMac), paired_accepted used hLeader hne⟩
  case aclr =>
    intro h o k lsel s i hCtx
    exact ⟨_, exec_aclr hCtx lsel, accepted_countUse s h k _ _ false⟩
  case alds =>
    intro h o ty k lsel s i d hCtx hReads hRows hCols hTile
    obtain ⟨used, hExec⟩ := exec_alds hCtx lsel rfl hReads hRows hCols hTile
    exact ⟨_, hExec, accepted_countUse s h k _ _ used⟩
  case asts =>
    intro h o ty k lsel w s i d hCtx hReads hVotes hBack hRows hCols hTile
    obtain ⟨used, hExec⟩ := exec_asts hCtx lsel rfl hReads hVotes hBack hRows hCols hTile
    exact ⟨_, hExec, accepted_countUse s h k _ _ used⟩
  case ard =>
    intro h o ty k lsel w q hd s i hCtx hReads hVotes hBack hDest hReg
    obtain ⟨used, hExec⟩ := exec_ard hCtx lsel hd hReads hVotes hBack hDest
    exact ⟨_, hExec, accepted_awaiting .., fun a _ => vempty_awaiting s h k _ _ used hReg a⟩
  case amrg =>
    intro h o k so lsel w s i c ofs r home ticket op hCtx hReads hVotes hAligned hInside hFree hM hM' hN hN' hZero hDest hStride hTicket
      hHeads hOutside hReleased
    have hFields : ¬ (recM r = 0 ∨ 128 < recM r ∨ recN r = 0 ∨ 256 < recN r ∨ recField r 0x1C 4 ≠ 0) := by
      rw [hZero]
      omega
    obtain ⟨used, hExec⟩ := exec_amrg (lsel := lsel) rfl rfl hCtx hReads hVotes hAligned hInside hFree hFields hDest hStride hTicket
      hHeads hOutside hReleased
    refine ⟨fun hReady => ⟨_, hExec, ?_⟩, fun hWaits => hExec.trans (congrArg _ ?_)⟩
    · have hBody : i.s.readLE ticket 8 = recSeq r := hReady
      rw [Ix.mergeBody, decide_eq_false (not_not.2 hBody), guardStop_false, ok_bind]
      exact (run_ok i _ hCtx.lanes).symm ▸ accepted_released ..
    · have hBody : i.s.readLE ticket 8 ≠ recSeq r := hWaits
      rw [Ix.mergeBody, decide_eq_true hBody, guardStop_true, error_bind]
      exact run_wait hCtx.lanes _

end Sys2Proof.Machine
end

section
/-! O34, first part: which four elements of eight COMP48 keeps (R199). The elements of a group stand in one linear order, the larger
magnitude first and then the lower index, and those with fewer than four before them are kept. -/

namespace Sys2Proof.Machine
open Sys2Proof.Claims

/-! ### The least four of eight -/

section Rank

variable {α : Type} [LinearOrder α] {f : Nat → α}

/-- How many of the first eight come before the one at `i`. -/
def rankOf (f : Nat → α) (i : Nat) : Nat := {j ∈ Finset.range 8 | f j < f i}.card

/-- The indices of the first four of eight. -/
def firstFour (f : Nat → α) : List Nat := (List.range 8).filter fun i => decide (rankOf f i < 4)

theorem rankOf_lt {i j : Nat} (hi : i < 8) (h : f i < f j) : rankOf f i < rankOf f j :=
  Finset.card_lt_card (Finset.ssubset_iff_of_subset (fun k hk => by
    obtain ⟨hk, hLt⟩ := Finset.mem_filter.1 hk
    exact Finset.mem_filter.2 ⟨hk, hLt.trans h⟩) |>.2
    ⟨i, Finset.mem_filter.2 ⟨Finset.mem_range.2 hi, h⟩, fun hk => lt_irrefl _ (Finset.mem_filter.1 hk).2⟩)

theorem rankOf_lt_eight {i : Nat} (hi : i < 8) : rankOf f i < 8 :=
  (Finset.card_lt_card (Finset.filter_ssubset (p := (f · < f i)).2 ⟨i, Finset.mem_range.2 hi, lt_irrefl _⟩)).trans_eq (Finset.card_range 8)

theorem rankOf_injOn (hf : Function.Injective f) : Set.InjOn (rankOf f) (Finset.range 8) := by
  intro i hi j hj h
  rw [Finset.coe_range, Set.mem_Iio] at hi hj
  rcases lt_trichotomy (f i) (f j) with hLt | hEq | hLt
  · exact absurd h (rankOf_lt hi hLt).ne
  · exact hf hEq
  · exact absurd h (rankOf_lt hj hLt).ne'

/-- Every rank is taken. -/
theorem image_rankOf (hf : Function.Injective f) : (Finset.range 8).image (rankOf f) = Finset.range 8 := by
  refine Finset.eq_of_subset_of_card_le (fun r hr => ?_) (Finset.card_image_of_injOn (rankOf_injOn hf)).ge
  obtain ⟨i, hi, rfl⟩ := Finset.mem_image.1 hr
  exact Finset.mem_range.2 (rankOf_lt_eight (Finset.mem_range.1 hi))

theorem firstFour_length (hf : Function.Injective f) : (firstFour f).length = 4 := by
  calc (firstFour f).length
      _ = {i ∈ Finset.range 8 | rankOf f i < 4}.card := rfl
      _ = ({i ∈ Finset.range 8 | rankOf f i < 4}.image (rankOf f)).card :=
        (Finset.card_image_of_injOn ((rankOf_injOn hf).mono (Finset.coe_subset.2 (Finset.filter_subset _ _)))).symm
      _ = {r ∈ (Finset.range 8).image (rankOf f) | r < 4}.card := by rw [Finset.filter_image]
      _ = 4 := by rw [image_rankOf hf]; rfl

theorem mem_firstFour {i : Nat} : i ∈ firstFour f ↔ i < 8 ∧ rankOf f i < 4 := by simp [firstFour]

theorem firstFour_sorted : (firstFour f).Pairwise (· < ·) := List.pairwise_lt_range.filter _

/-- One of the first four comes before every other. -/
theorem firstFour_before (hf : Function.Injective f) {i j : Nat} (hi : i ∈ firstFour f) (hj : j < 8) (hOut : j ∉ firstFour f) :
    f i < f j := by
  rw [mem_firstFour] at hi hOut
  rcases lt_trichotomy (f i) (f j) with hLt | hEq | hLt
  · exact hLt
  · exact absurd (hf hEq ▸ hi) hOut
  · exact absurd ⟨hj, (rankOf_lt hj hLt).trans hi.2⟩ hOut

end Rank

/-! ### The order of the elements -/

/-- A finite magnitude as an exact number. -/
def FV.size : FV → ℚ
  | .fin _ m e => FV.ratOf false m e
  | _ => 0

/-- What orders the magnitudes of elements: the class, and the value in it. -/
def compKey (t : Ty) (e : Nat) : ℕ ×ₗ ℚ := toLex ((compMag t e).1, (compMag t e).2.size)

/-- The place of the element `a` at index `i` in its group: the larger magnitude first, then the lower index (R199). -/
def compPlace (t : Ty) (e : Nat → Nat) (i : Nat) : (ℕ ×ₗ ℚ)ᵒᵈ ×ₗ ℕ := toLex (OrderDual.toDual (compKey t (e i)), i)

theorem compPlace_injective (t : Ty) (e : Nat → Nat) : Function.Injective (compPlace t e) := fun _ _ h =>
  (Prod.mk.inj (toLex.injective h)).2

/-- The magnitude of an element is a number that is not negative, or the zero that stands for an infinity or a NaN. -/
theorem compMag_fin (t : Ty) (e : Nat) : ∃ m x, (compMag t e).2 = .fin false m x := by
  unfold compMag
  split
  · exact ⟨_, _, rfl⟩
  · exact ⟨_, _, rfl⟩
  · split <;> exact ⟨_, _, rfl⟩

theorem lt_fin_iff (m n : Nat) (e k : Int) :
    FV.lt (.fin false m e) (.fin false n k) = true ↔ FV.ratOf false m e < FV.ratOf false n k := by
  have hPos : (0 : ℚ) < 2 ^ min e k := by positivity
  rw [← signedAt_mul_zpow (min_le_left e k), ← signedAt_mul_zpow (min_le_right e k), mul_lt_mul_iff_of_pos_right hPos, Int.cast_lt]
  exact decide_eq_true_iff

theorem compMag_lt_iff (t : Ty) (a b : Nat) :
    (compMag t a).2.lt (compMag t b).2 = true ↔ (compMag t a).2.size < (compMag t b).2.size := by
  obtain ⟨m, x, ha⟩ := compMag_fin t a
  obtain ⟨n, y, hb⟩ := compMag_fin t b
  rw [ha, hb]
  exact lt_fin_iff m n x y

/-- The order in which R199 keeps elements is the order of their places. -/
theorem compBefore_iff (t : Ty) (e : Nat → Nat) (i j : Nat) :
    compBefore t (e i) (e j) i j = true ↔ compPlace t e i < compPlace t e j := by
  have hLess := compMag_lt_iff t (e j) (e i)
  have hMore := compMag_lt_iff t (e i) (e j)
  simp only [compBefore, compPlace, compKey, Prod.Lex.toLex_lt_toLex, OrderDual.toDual_lt_toDual, EmbeddingLike.apply_eq_iff_eq,
    Prod.mk.injEq, Bool.or_eq_true, Bool.and_eq_true, decide_eq_true_eq, Bool.not_eq_true', ← Bool.not_eq_true, hLess, hMore]
  grind

theorem compKeep_eq (t : Ty) (e : Nat → Nat) : compKeep t ((List.range 8).map e) = firstFour (compPlace t e) := by
  refine List.filter_congr fun i hi => ?_
  have hAt (j : Nat) (hj : j ∈ List.range 8) : ((List.range 8).map e).getD j 0 = e j := by
    rw [List.getD_eq_getElem?_getD, List.getElem?_map, List.getElem?_range (List.mem_range.1 hj)]
    rfl
  have hFilter : ((List.range 8).filter fun j => j ≠ i && compBefore t (((List.range 8).map e).getD j 0)
      (((List.range 8).map e).getD i 0) j i) = (List.range 8).filter fun j => decide (compPlace t e j < compPlace t e i) := by
    refine List.filter_congr fun j hj => ?_
    rw [hAt j hj, hAt i hi, Bool.eq_iff_iff, Bool.and_eq_true, compBefore_iff, decide_eq_true_eq, decide_eq_true_eq]
    exact ⟨And.right, fun hLt => ⟨fun h => (h ▸ hLt).false, hLt⟩⟩
  rw [hFilter]
  rfl

end Sys2Proof.Machine
end

section
/-! O34, second part: COMP48 (R139, R199). -/

namespace Sys2Proof.Machine
open Sys2Proof.Claims

section Comp48

variable (i : Ix) (o : Ops) (t : Ty) (hi : Bool) (l : Nat)

/-- A byte of a word of lane `j`; of a lane that is not present it is zero (R139). -/
def Ix.laneByte (j : Nat) (src : Opnd) (k : Nat) : Nat :=
  if i.x.lanes.getLsbD j then (i.read src .w32 j).bits.toNat / 2 ^ (8 * k) % 256 else 0

/-- Element `k` of the group of lane `l`. -/
def Ix.groupElem (k : Nat) : Nat :=
  i.laneByte (2 * (l % 16) + k / 4) (if l < 16 then o.a else o.b) (k % 4)

/-- Whether a word of the group of lane `l` is poisoned. -/
def Ix.pairMark : Bool :=
  let src := if l < 16 then o.a else o.b
  (i.readLane src .w32 (2 * (l % 16))).poison || (i.readLane src .w32 (2 * (l % 16) + 1)).poison

/-- The indices of the elements that lane `l` keeps. -/
def Ix.keptOf : List Nat := firstFour (compPlace t (i.groupElem o l))

/-- What D receives: the kept elements. -/
def Ix.keptElems : Val :=
  { bits := BitVec.ofNat 64 (i.groupElem o l ((i.keptOf o t l).getD 0 0) + i.groupElem o l ((i.keptOf o t l).getD 1 0) * 2 ^ 8 +
      i.groupElem o l ((i.keptOf o t l).getD 2 0) * 2 ^ 16 + i.groupElem o l ((i.keptOf o t l).getD 3 0) * 2 ^ 24)
    poison := i.pairMark o l }

/-- The 12 bits of four indices. -/
def metaBits (ks : List Nat) : BitVec 12 :=
  BitVec.ofNat 12 (ks.getD 0 0 + ks.getD 1 0 * 8 + ks.getD 2 0 * 64 + ks.getD 3 0 * 512)

/-- What D2 receives: C with the indices in one of its groups of 12 bits. -/
def Ix.keptMeta : Val :=
  let c := lo (i.read o.c .w32 l).bits
  { bits := up (if hi then c.extractLsb' 24 8 ++ metaBits (i.keptOf o t l) ++ c.extractLsb' 0 12
      else c.extractLsb' 12 20 ++ metaBits (i.keptOf o t l))
    poison := i.pairMark o l || (i.read o.c .w32 l).poison }

/-! ### The elements of a group -/

theorem readLane_word_lt (src : Opnd) (j : Nat) : (i.readLane src .w32 j).bits.toNat < 2 ^ 32 := by
  unfold Ix.readLane
  split
  · exact read_word_lt i src j
  · exact (by decide : (0 : Nat) < 2 ^ 32)

theorem laneByte_eq (j : Nat) (src : Opnd) (k : Nat) :
    i.laneByte j src k = (i.readLane src .w32 j).bits.toNat / 2 ^ (8 * k) % 256 := by
  unfold Ix.laneByte Ix.readLane Ix.present
  split
  · rfl
  · simp [Val.zero]

/-- The bytes of two words, one after the other. -/
theorem byte_of_pair {x : Nat} (y : Nat) (hx : x < 2 ^ 32) {k : Nat} (hk : k < 8) :
    (x + y * 2 ^ 32) / 2 ^ (8 * k) % 256 = (if k < 4 then x else y) / 2 ^ (8 * (k % 4)) % 256 := by
  interval_cases k <;> simp only [Nat.reduceMul, Nat.reduceMod, Nat.reducePow, Nat.reduceLT, if_true, if_false] <;> omega

theorem compSources_elems : ((List.range 8).map fun k => ((i.compSources o l).1.bits.toNat +
    (i.compSources o l).2.bits.toNat * 2 ^ 32) / 2 ^ (8 * k) % 256) = (List.range 8).map (i.groupElem o l) := by
  refine List.map_congr_left fun k hk => ?_
  have hk := List.mem_range.1 hk
  rw [Ix.groupElem, laneByte_eq, Ix.compSources, byte_of_pair _ (readLane_word_lt i _ _) hk]
  by_cases hLow : k < 4
  · rw [if_pos hLow, show k / 4 = 0 by omega, add_zero]
  · rw [if_neg hLow, show k / 4 = 1 by omega]

/-! ### The indices of a lane -/

theorem keptOf_length : (i.keptOf o t l).length = 4 := firstFour_length (compPlace_injective t _)

theorem keptOf_lt {k : Nat} (hk : k ∈ i.keptOf o t l) : k < 8 := (mem_firstFour.1 hk).1

theorem keptOf_getD_lt (j : Nat) : (i.keptOf o t l).getD j 0 < 8 := by
  by_cases hj : j < (i.keptOf o t l).length
  · rw [List.getD_eq_getElem _ _ hj]
    exact keptOf_lt i o t l (List.getElem_mem hj)
  · rw [List.getD_eq_default _ _ (Nat.le_of_not_lt hj)]
    decide

/-! ### The two results -/

theorem sum_four (f : Nat → Nat) : (List.range 4).foldl (fun n j => n + f j) 0 = f 0 + f 1 + f 2 + f 3 := by
  simp [List.range_succ]

theorem compPack_eq (es ks : List Nat) : compPack es ks = es.getD (ks.getD 0 0) 0 + es.getD (ks.getD 1 0) 0 * 2 ^ 8 +
    es.getD (ks.getD 2 0) 0 * 2 ^ 16 + es.getD (ks.getD 3 0) 0 * 2 ^ 24 := by
  rw [compPack, sum_four]
  simp only [Nat.reduceMul, pow_zero, mul_one]

theorem compMeta_eq (ks : List Nat) :
    compMeta ks = ks.getD 0 0 + ks.getD 1 0 * 8 + ks.getD 2 0 * 64 + ks.getD 3 0 * 512 := by
  rw [compMeta, sum_four]
  simp only [Nat.reduceMul, Nat.reducePow, mul_one]

theorem compKeep_group : compKeep t ((List.range 8).map (i.groupElem o l)) = i.keptOf o t l := compKeep_eq t _

theorem compPack_group : compPack ((List.range 8).map (i.groupElem o l)) (i.keptOf o t l) =
    i.groupElem o l ((i.keptOf o t l).getD 0 0) + i.groupElem o l ((i.keptOf o t l).getD 1 0) * 2 ^ 8 +
      i.groupElem o l ((i.keptOf o t l).getD 2 0) * 2 ^ 16 + i.groupElem o l ((i.keptOf o t l).getD 3 0) * 2 ^ 24 := by
  have hAt (j : Nat) : ((List.range 8).map (i.groupElem o l)).getD ((i.keptOf o t l).getD j 0) 0 =
      i.groupElem o l ((i.keptOf o t l).getD j 0) := by
    rw [List.getD_eq_getElem?_getD, List.getElem?_map, List.getElem?_range (keptOf_getD_lt i o t l j)]
    rfl
  rw [compPack_eq, hAt, hAt, hAt, hAt]

/-- A field of 12 bits of a word, replaced. -/
theorem fieldOf_word {m : Nat} (hm : m < 2 ^ 12) (c : Word) (hi : Bool) :
    BitVec.ofNat 64 (if hi then c.toNat - c.toNat / 2 ^ 12 % 2 ^ 12 * 2 ^ 12 + m * 2 ^ 12 else c.toNat - c.toNat % 2 ^ 12 + m) =
      up (if hi then c.extractLsb' 24 8 ++ BitVec.ofNat 12 m ++ c.extractLsb' 0 12 else c.extractLsb' 12 20 ++ BitVec.ofNat 12 m) := by
  have hc := c.isLt
  apply BitVec.eq_of_toNat_eq
  cases hi <;> simp only [Bool.false_eq_true, if_false, if_true, up, BitVec.toNat_ofNat, BitVec.toNat_setWidth, toNat_append_eq,
    BitVec.extractLsb'_toNat, Nat.shiftRight_eq_div_pow] <;> omega

theorem compMeta_lt : compMeta (i.keptOf o t l) < 2 ^ 12 := by
  have h0 := keptOf_getD_lt i o t l 0
  have h1 := keptOf_getD_lt i o t l 1
  have h2 := keptOf_getD_lt i o t l 2
  have h3 := keptOf_getD_lt i o t l 3
  rw [compMeta_eq]
  omega

theorem compMeta_group :
    ({ bits := BitVec.ofNat 64 (if hi
          then (i.read o.c .w32 l).bits.toNat - (i.read o.c .w32 l).bits.toNat / 2 ^ 12 % 2 ^ 12 * 2 ^ 12 +
            compMeta (i.keptOf o t l) * 2 ^ 12
          else (i.read o.c .w32 l).bits.toNat - (i.read o.c .w32 l).bits.toNat % 2 ^ 12 + compMeta (i.keptOf o t l))
       poison := (i.compSources o l).1.poison || (i.compSources o l).2.poison || (i.read o.c .w32 l).poison } : Val) =
      i.keptMeta o t hi l := by
  rw [← lo_read_toNat, fieldOf_word (compMeta_lt i o t l), compMeta_eq]
  rfl

end Comp48

/-! ### The instruction -/

theorem exec_comp48 {h : Hdr} {o : Ops} (t : Ty) (hi : Bool) {s : State} (hg : (Ix.of s h).g ≠ 0)
    (hFull : ∀ u ∈ uses3 h o .w32 .w32 .w32, (Ix.of s h).isEmpty u.o u.n = false) (hD : (Ix.of s h).isEmpty o.d 1 = false)
    (hD2 : (Ix.of s h).isEmpty o.d2 1 = false) (hDebug : s.debug (Ix.of s h).x = false)
    (hPoison : (s.trapEnt (Ix.of s h).x).tpoison = false) :
    let i := Ix.of s h
    exec (.comp48 h o t hi) s = .next (i.done (i.write (i.write s o.d .b32 ((lanesOf i.g).map fun l => (l, i.keptElems o t l)))
      o.d2 .b32 ((lanesOf i.g).map fun l => (l, i.keptMeta o t hi l)))) := by
  intro i
  have hRead (u : Use) (hu : u ∈ uses3 h o .w32 .w32 .w32) (rd : LaneMask) : i.checkSources [u] rd = .ok () :=
    checkSources_ok _ _ _ (readable_of_full (fun v hv => List.mem_singleton.1 hv ▸ hFull u hu) rd hDebug hPoison)
  have hA := hRead { o := o.a, n := 1, bit := h.ea } (by simp [uses3, Wd.regs, Wd.w32])
  have hB := hRead { o := o.b, n := 1, bit := h.eb } (by simp [uses3, Wd.regs, Wd.w32])
  have hC := hRead (i.useC h o) (by simp [uses3, Ix.useC, Wd.regs, Wd.w32])
  have hDests : i.checkDests [(o.d, 1), (o.d2, 1)] = .ok () := by simp [Ix.checkDests, i, hD, hD2, guardStop]
  have hUses : i.checkEmpty (i.uses h o .w32 .w32 .w32) = .ok () := checkEmpty_ok _ _ hFull
  show execComp48 h o t hi s = _
  unfold execComp48
  simp only [show Ix.of s h = i from rfl, hUses, hA, hB, hC, hDests, ok_bind, compSources_elems, compKeep_group,
    compPack_group, compMeta_group, List.map_map, Function.comp_def, pure, Except.pure]
  exact congrArg Host.Outcome.next (run_ok i _ hg)

/-- COMP48 keeps the first four elements of eight of each lane, and writes them and their indices (R199). -/
theorem comp48_keeps (h : Hdr) (o : Ops) (t : Ty) (hi : Bool) (s : State) :
    let i := Ix.of s h
    o.d ≠ o.d2 → i.g ≠ 0 → (∀ u ∈ uses3 h o .w32 .w32 .w32, i.isEmpty u.o u.n = false) → i.isEmpty o.d 1 = false →
    i.isEmpty o.d2 1 = false → s.debug i.x = false → (s.trapEnt i.x).tpoison = false →
    ∃ u, exec (.comp48 h o t hi) s = .next u ∧ WentOn s u i ∧ Kept s u i [(o.d, 1), (o.d2, 1)] ∧
      Gets u i o.d .b32 (i.keptElems o t) ∧ Gets u i o.d2 .b32 (i.keptMeta o t hi) := by
  intro i hne hg hFull hD hD2 hDebug hPoison
  obtain ⟨hElems, hMeta, hKept, hWent⟩ := two_writes i (td := .b32) (te := .b32) (i.keptElems o t) (i.keptMeta o t hi) false hg hne
    rfl rfl
  exact ⟨_, exec_comp48 t hi hg hFull hD hD2 hDebug hPoison, hWent, hKept, hElems, hMeta⟩

/-- The elements kept come before the others in the order of R199. -/
theorem keptOf_before (i : Ix) (o : Ops) (t : Ty) (l : Nat) {a b : Nat} (ha : a ∈ i.keptOf o t l) (hb : b < 8)
    (hOut : b ∉ i.keptOf o t l) : compBefore t (i.groupElem o l a) (i.groupElem o l b) a b = true :=
  (compBefore_iff t _ a b).2 (firstFour_before (compPlace_injective t _) ha hb hOut)

end Sys2Proof.Machine
end

section
/-! O34, third part: the table of LUTB, sixteen signed sums of four activations (R121, R200). -/

namespace Sys2Proof.Machine
open Sys2Proof.Claims

/-! ### Digits of a number -/

/-- The number whose digits in base 2^16 are `f 0` to `f (n - 1)`. -/
def ofWords16 (f : Nat → Nat) (n : Nat) : Nat := (List.range n).foldl (fun a x => a + f x * 2 ^ (16 * x)) 0

theorem ofWords16_succ (f : Nat → Nat) (n : Nat) : ofWords16 f (n + 1) = ofWords16 f n + f n * 2 ^ (16 * n) := by
  rw [ofWords16, List.range_succ, List.foldl_append]
  rfl

section Digits

variable {f : Nat → Nat} (hf : ∀ x, f x < 2 ^ 16)
include hf

theorem ofWords16_lt (n : Nat) : ofWords16 f n < 2 ^ (16 * n) := by
  induction n with
  | zero => exact Nat.one_pos
  | succ n ih =>
    rw [ofWords16_succ]
    calc ofWords16 f n + f n * 2 ^ (16 * n)
        < 2 ^ (16 * n) + f n * 2 ^ (16 * n) := by gcongr
      _ = (f n + 1) * 2 ^ (16 * n) := by ring
      _ ≤ 2 ^ 16 * 2 ^ (16 * n) := by
        gcongr
        exact hf n
      _ = 2 ^ (16 * (n + 1)) := by ring

theorem ofWords16_digit {n x : Nat} (hx : x < n) : ofWords16 f n / 2 ^ (16 * x) % 2 ^ 16 = f x := by
  induction n with
  | zero => exact absurd hx (Nat.not_lt_zero x)
  | succ n ih =>
    rw [ofWords16_succ]
    rcases Nat.lt_succ_iff_lt_or_eq.1 hx with hLow | rfl
    · obtain ⟨k, rfl⟩ := Nat.exists_eq_add_of_lt hLow
      have hSplit : f (x + k + 1) * 2 ^ (16 * (x + k + 1)) = 2 ^ (16 * x) * (2 ^ 16 * (f (x + k + 1) * 2 ^ (16 * k))) := by ring
      rw [hSplit, Nat.add_mul_div_left _ _ (by positivity), Nat.add_mul_mod_self_left, ih hLow]
    · rw [Nat.add_mul_div_right _ _ (by positivity), Nat.div_eq_of_lt (ofWords16_lt hf x), zero_add, Nat.mod_eq_of_lt (hf x)]

end Digits

/-! ### The entries -/

/-- An activation of a word. -/
def activation (signed : Bool) (w : DWord) (t : Nat) : Int :=
  let x : BitVec 8 := w.extractLsb' (8 * t) 8
  if signed then x.toInt else x.toNat

/-- The signed sum of four activations that entry `x` of the table is to hold. -/
def signedSum (a : Nat → Int) (x : Nat) : Int :=
  (if x.testBit 0 then a 0 else - a 0) + (if x.testBit 1 then a 1 else - a 1) + (if x.testBit 2 then a 2 else - a 2) +
    (if x.testBit 3 then a 3 else - a 3)

theorem lutEntry_eq (a : Nat → Int) (x : Nat) : lutEntry a x = signedSum a x := by
  have hTerm (n : Int) (t : Nat) :
      (if x / 2 ^ t % 2 = 1 then n + a t else n - a t) = n + (if x.testBit t then a t else - a t) := by
    rw [Nat.testBit_eq_decide_div_mod_eq]
    by_cases hBit : x / 2 ^ t % 2 = 1 <;> simp [hBit, sub_eq_add_neg]
  simp only [lutEntry, hTerm, signedSum, List.range_succ, List.range_zero, List.nil_append, List.cons_append, List.foldl_cons,
    List.foldl_nil, zero_add]

theorem activation_bounds (signed : Bool) (w : DWord) (t : Nat) : -255 ≤ activation signed w t ∧ activation signed w t ≤ 255 := by
  have hNat := (w.extractLsb' (8 * t) 8).isLt
  have hLow := BitVec.le_toInt (w.extractLsb' (8 * t) 8)
  have hHigh := BitVec.toInt_lt (x := w.extractLsb' (8 * t) 8)
  unfold activation
  cases signed
  · rw [if_neg Bool.false_ne_true]
    omega
  · rw [if_pos rfl]
    omega

theorem signedSum_bounds (signed : Bool) (w : DWord) (x : Nat) :
    -1020 ≤ signedSum (activation signed w) x ∧ signedSum (activation signed w) x ≤ 1020 := by
  have hTerm (t : Nat) : -255 ≤ (if x.testBit t then activation signed w t else - activation signed w t) ∧
      (if x.testBit t then activation signed w t else - activation signed w t) ≤ 255 := by
    obtain ⟨hLow, hHigh⟩ := activation_bounds signed w t
    split <;> omega
  have h0 := hTerm 0
  have h1 := hTerm 1
  have h2 := hTerm 2
  have h3 := hTerm 3
  unfold signedSum
  omega

/-- The activations that the table is made of are the bytes of the word (R200). -/
theorem lutTable_eq (signed : Bool) (w : DWord) :
    lutTable signed w.toNat = ofWords16 (fun x => wrapTo (signedSum (activation signed w) x) 16) 16 := by
  have hByte : (fun t => if signed then signedVal (w.toNat / 2 ^ (8 * t)) 8 else ((w.toNat / 2 ^ (8 * t) % 256 : Nat) : Int)) =
      activation signed w := by
    funext t
    have hBits : w.extractLsb' (8 * t) 8 = BitVec.ofNat 8 (w.toNat / 2 ^ (8 * t)) := by
      rw [← Nat.shiftRight_eq_div_pow]
      rfl
    rw [activation, hBits, signedVal_eq_toInt _ (by decide), BitVec.toNat_ofNat]
  simp only [lutTable, hByte, lutEntry_eq]
  rfl

/-- Entry `x` of the table is the signed sum (R121, R200). -/
theorem lutTable_entry (signed : Bool) (w : DWord) {x : Nat} (hx : x < 16) :
    (BitVec.ofNat 16 (lutTable signed w.toNat / 2 ^ (16 * x) % 2 ^ 16)).toInt = signedSum (activation signed w) x := by
  obtain ⟨hLow, hHigh⟩ := signedSum_bounds signed w x
  rw [lutTable_eq, ofWords16_digit (fun _ => by rw [wrapTo_eq_toNat]; exact BitVec.isLt _) hx, wrapTo_eq_toNat, BitVec.ofNat_toNat,
    BitVec.setWidth_eq, BitVec.toInt_ofInt_eq_self (by decide) (by omega) (by omega)]

end Sys2Proof.Machine
end

section
/-! O34, fourth part: the scratchpad after the tables of the lanes have been written, one after another (R200, R219, R417). -/

namespace Sys2Proof.Machine
open Sys2Proof.Claims

/-! ### Reading what a list of writes has left -/

section Fold

variable {σ β : Type} {step : σ → Nat → σ} {read : σ → β} {ls : List Nat}

/-- What no write changes is read as before. -/
theorem read_foldl_other (h : ∀ s, ∀ m ∈ ls, read (step s m) = read s) (s : σ) : read (ls.foldl step s) = read s := by
  induction ls generalizing s with
  | nil => rfl
  | cons m ms ih =>
    rw [List.foldl_cons, ih fun s k hk => h s k (List.mem_cons_of_mem _ hk), h s m List.mem_cons_self]

/-- What the write of one lane leaves, and no other lane's write changes, is read as that lane left it. -/
theorem read_foldl_at {l : Nat} {v : β} (hAt : ∀ s, read (step s l) = v) (hOther : ∀ s m, m ≠ l → read (step s m) = read s)
    (hl : l ∈ ls) (s : σ) : read (ls.foldl step s) = v := by
  induction ls generalizing s with
  | nil => exact absurd hl List.not_mem_nil
  | cons m ms ih =>
    rw [List.foldl_cons]
    by_cases hTail : l ∈ ms
    · exact ih hTail _
    · obtain rfl : l = m := (List.mem_cons.1 hl).resolve_right hTail
      rw [read_foldl_other fun s k hk => hOther s k fun hkl => hTail (hkl ▸ hk), hAt]

end Fold

/-! ### One table -/

section Table

variable (k : Cast) (ofs v : Nat) (p : Bool)

theorem swrite_table : k.swrite ofs 32 v p = k.swriteOne ofs 32 v p := if_neg fun h => absurd h.1 (by decide)

theorem spad_table_inside {y : Nat} (hy : y < 32) :
    Sparse.get (0 : Byte) (k.swrite ofs 32 v p).spad (ofs + y) = BitVec.ofNat 8 (v / 256 ^ y) := by
  rw [swrite_table]
  exact (congrArg (State.byte · (ofs + y)) (memory_swriteOne k ofs 32 v p) :).trans (byte_writeMem_inside _ _ _ _ _ _ hy)

theorem spad_table_outside {a : Nat} (ha : a < ofs ∨ ofs + 32 ≤ a) :
    Sparse.get (0 : Byte) (k.swrite ofs 32 v p).spad a = Sparse.get (0 : Byte) k.spad a := by
  rw [swrite_table]
  exact (congrArg (State.byte · a) (memory_swriteOne k ofs 32 v p) :).trans (byte_writeMem_outside _ _ _ _ _ _ ha)

theorem smark_table_inside {w : Nat} (hLow : ofs ≤ 4 * w) (hHigh : 4 * w + 4 ≤ ofs + 32) :
    (k.swrite ofs 32 v p).smark w = p := by
  rw [swrite_table]
  exact (congrArg (State.mark · w) (memory_swriteOne k ofs 32 v p) :).trans (mark_writeMem_whole _ _ _ _ _ _ hLow hHigh)

theorem smark_table_outside {w : Nat} (hw : 4 * w + 4 ≤ ofs ∨ ofs + 32 ≤ 4 * w) :
    (k.swrite ofs 32 v p).smark w = k.smark w := by
  rw [swrite_table]
  exact (congrArg (State.mark · w) (memory_swriteOne k ofs 32 v p) :).trans (mark_writeMem_outside _ _ _ _ _ _ hw)

end Table

/-- The mark of a byte is that of its word. -/
theorem spoisoned_byte (k : Cast) (a : Nat) : k.spoisoned a 1 = k.smark (a / 4) := by
  rw [Bool.eq_iff_iff, Cast.spoisoned, List.any_eq_true]
  simp only [mem_wordsOf]
  constructor
  · rintro ⟨w, hw, hMark⟩
    obtain rfl : w = a / 4 := by omega
    exact hMark
  · exact fun hMark => ⟨a / 4, by omega, hMark⟩

theorem sread_two (k : Cast) (a : Nat) : k.sread a 2 =
    (Sparse.get (0 : Byte) k.spad a).toNat + 256 * (Sparse.get (0 : Byte) k.spad (a + 1)).toNat := rfl

/-! ### The tables of the lanes -/

/-- A scratchpad once each lane of `ls` has stored its 32 bytes `v l` with the mark `p l`, at `b` and 32 times its number. -/
def Cast.withTables (k : Cast) (b : Nat) (v : Nat → Nat) (p : Nat → Bool) (ls : List Nat) : Cast :=
  ls.foldl (fun k l => k.swrite (b + 32 * l) 32 (v l) (p l)) k

section Tables

variable (k : Cast) {b : Nat} (v : Nat → Nat) (p : Nat → Bool) {ls : List Nat}

theorem withTables_byte {l y : Nat} (hl : l ∈ ls) (hy : y < 32) :
    Sparse.get (0 : Byte) (k.withTables b v p ls).spad (b + 32 * l + y) = BitVec.ofNat 8 (v l / 256 ^ y) :=
  read_foldl_at (read := fun k : Cast => Sparse.get (0 : Byte) k.spad (b + 32 * l + y))
    (fun k => spad_table_inside k _ _ _ hy) (fun k m hm => spad_table_outside k _ _ _ (by omega)) hl k

theorem withTables_byte_other {a : Nat} (ha : ∀ l ∈ ls, ¬ (b + 32 * l ≤ a ∧ a < b + 32 * l + 32)) :
    Sparse.get (0 : Byte) (k.withTables b v p ls).spad a = Sparse.get (0 : Byte) k.spad a :=
  read_foldl_other (read := fun k : Cast => Sparse.get (0 : Byte) k.spad a)
    (fun k l hl => spad_table_outside k _ _ _ (by have := ha l hl; omega)) k

/-- The tables are whole words. -/
theorem withTables_mark (hb : b % 32 = 0) {l w : Nat} (hl : l ∈ ls) (hLow : b + 32 * l ≤ 4 * w) (hHigh : 4 * w < b + 32 * l + 32) :
    (k.withTables b v p ls).smark w = p l :=
  read_foldl_at (read := fun k : Cast => k.smark w) (fun k => smark_table_inside k _ _ _ hLow (by omega))
    (fun k m hm => smark_table_outside k _ _ _ (by omega)) hl k

theorem withTables_mark_other {w : Nat} (hb : b % 32 = 0) (hw : ∀ l ∈ ls, ¬ (b + 32 * l ≤ 4 * w ∧ 4 * w < b + 32 * l + 32)) :
    (k.withTables b v p ls).smark w = k.smark w :=
  read_foldl_other (read := fun k : Cast => k.smark w)
    (fun k l hl => smark_table_outside k _ _ _ (by have := hw l hl; omega)) k

theorem withTables_rest : { k.withTables b v p ls with spad := k.spad, spoison := k.spoison } = k :=
  read_foldl_other (read := fun c : Cast => { c with spad := k.spad, spoison := k.spoison })
    (fun c l _ => by rw [swrite_table]; rfl) k

/-- A half word read back from the table of a lane. -/
theorem withTables_sread {l x : Nat} (hl : l ∈ ls) (hx : x < 16) :
    (k.withTables b v p ls).sread (b + 32 * l + 2 * x) 2 = v l / 2 ^ (16 * x) % 2 ^ 16 := by
  have hLow := withTables_byte k (b := b) v p hl (show 2 * x < 32 by omega)
  have hHigh := withTables_byte k (b := b) v p hl (show 2 * x + 1 < 32 by omega)
  have hBase : 256 ^ (2 * x) = 2 ^ (16 * x) := by rw [show 256 = 2 ^ 8 from rfl, ← pow_mul]; congr 1; omega
  rw [sread_two, hLow, add_assoc (b + 32 * l), hHigh, pow_succ, ← Nat.div_div_eq_div_mul, hBase, BitVec.toNat_ofNat, BitVec.toNat_ofNat]
  omega

end Tables

/-! ### The machine -/

/-- Nothing has changed but the scratchpad side of one cast, which is now `k`, and the records of releases. -/
structure CastReplaced (s t : State) (c : Nat) (k : Cast) : Prop where
  cast  : ∀ d, t.cast d = if d = c then k else s.cast d
  cores : ∀ g, { t.core g with records := (s.core g).records } = s.core g
  rest  : { t with casts := s.casts, cores := s.cores } = s

namespace CastReplaced

theorem refl (s : State) (c : Nat) : CastReplaced s s c (s.cast c) where
  cast d := by
    split
    · next h => rw [h]
    · rfl
  cores _ := rfl
  rest := rfl

theorem trans {s t u : State} {c : Nat} {k m : Cast} (h : CastReplaced s t c k) (g : CastReplaced t u c m) : CastReplaced s u c m where
  cast d := by
    rw [g.cast, h.cast]
    split <;> rfl
  cores q := (congrArg (fun x : Core => { x with records := (s.core q).records }) (g.cores q) :).trans (h.cores q)
  rest := (congrArg (fun x : State => { x with casts := s.casts, cores := s.cores }) g.rest :).trans h.rest

/-- One write of a cast's scratchpad, noted among the records of its bytes (R236). -/
theorem noted (s : State) (gc c ofs n : Nat) (g : Cast → Cast) :
    CastReplaced s ((s.modCast c g).noteSpad gc c ofs n none) c (g (s.cast c)) :=
  have hNoted := RecordsChanged.noteSpad (s.modCast c g) gc c ofs n none
  { cast := fun d => (congrArg (State.cast · d) hNoted.rest :).trans (modCast_cast ..)
    cores := hNoted.cores
    rest := (congrArg (fun x : State => { x with casts := s.casts }) hNoted.rest :) }

/-- Writes of a cast's scratchpad, one after another. -/
theorem foldl (gc c n : Nat) (at_ : Nat → Nat) (g : Cast → Nat → Cast) (ls : List Nat) (s : State) :
    CastReplaced s (ls.foldl (fun s l => (s.modCast c fun k => g k l).noteSpad gc c (at_ l) n none) s) c (ls.foldl g (s.cast c)) := by
  induction ls generalizing s with
  | nil => exact refl s c
  | cons l ls ih =>
    have hFirst := noted s gc c (at_ l) n fun k => g k l
    have hRest := ih ((s.modCast c fun k => g k l).noteSpad gc c (at_ l) n none)
    rw [hFirst.cast, if_pos rfl] at hRest
    exact hFirst.trans hRest

end CastReplaced

end Sys2Proof.Machine
end

section
/-! O34: COMP48 keeps four of eight elements, and LUTB writes signed sums (R199, R200). -/

namespace Sys2Proof.Machine
open Sys2Proof.Claims

/-! ### What LUTB leaves as it was -/

section Going

variable {s u : State} {c : Nat} {k : Cast} (h : CastReplaced s u c k) (i : Ix) (used : Bool)
include h

theorem CastReplaced.frag (f : Nat) : u.frag f = s.frag f := (congrArg (State.frag · f) h.rest :)

/-- The casts once the instruction has gone on. -/
theorem CastReplaced.done_cast (d : Nat) : (i.done (i.countUse used u)).cast d = if d = c then k else s.cast d :=
  (countUse_cast i used u d).trans (h.cast d)

theorem CastReplaced.done_issued : (i.done (i.countUse used u)).frag i.f =
    (s.frag i.f).complete i.e.prio i.e.pc i.next i.e.mask := by
  rw [done_frag, if_pos rfl, countUse_frag, h.frag]

/-- Nothing else changes when the scratchpad of one cast is replaced and the instruction goes on. -/
theorem CastReplaced.kept {P : Nat → Prop} (hCast : { k with spad := (s.cast c).spad, spoison := (s.cast c).spoison } = s.cast c)
    (hByte : ∀ a, ¬ P a → Sparse.get (0 : Byte) k.spad a = Sparse.get (0 : Byte) (s.cast c).spad a)
    (hMark : ∀ w, (∀ a, P a → a / 4 ≠ w) → k.smark w = (s.cast c).smark w) :
    KeptMem s (i.done (i.countUse used u)) i [] nothing (fun d a => d = c ∧ P a) := by
  let x := s.frag i.f
  have hIssued := h.done_issued i used
  have hComplete := complete_rest x i.e.prio i.e.pc i.next i.e.mask
  have hRest : { i.done (i.countUse used u) with frags := s.frags, casts := s.casts, cores := s.cores } = s := by
    have hUse := congrArg (fun v : State => { v with frags := s.frags, casts := s.casts, cores := s.cores }) (countUse_rest i used u)
    exact (hUse :).trans (congrArg (fun v : State => { v with frags := s.frags }) h.rest :)
  exact {
    memory := fun a _ => (congrArg (State.byte · a) hRest :)
    marks := fun w _ => (congrArg (State.mark · w) hRest :)
    frags := fun f hf => by
      rw [done_frag, if_neg hf, countUse_frag, h.frag]
      exact ⟨rfl, fun _ => rfl⟩
    hoists := fun j _ => (congrArg (State.hoist · j) hRest :)
    elems := fun a l _ _ => ⟨(congrArg (fun v : State => (v.hoist i.x.hoist).elem a l) hRest :),
      (congrArg (fun v : State => (v.hoist i.x.hoist).elemMark a l) hRest :)⟩
    preds := fun q l _ => (congrArg (fun v : State => ((v.hoist i.x.hoist).pred q).getLsbD l) hRest :)
    masks := fun q _ => (congrArg (fun v : State => Sparse.get 0 (v.hoist i.x.hoist).masks q.toNat) hRest :)
    bits := fun q => ⟨fun _ => (congrArg (fun v : State => (v.hoist i.x.hoist).pmarks.getLsbD q.toNat) hRest :),
      fun _ => (congrArg (fun v : State => (v.hoist i.x.hoist).mmarks.getLsbD q.toNat) hRest :)⟩
    hoist := (congrArg (fun v : State => { v.hoist i.x.hoist with
      vregs := (s.hoist i.x.hoist).vregs, vpoison := (s.hoist i.x.hoist).vpoison, preds := (s.hoist i.x.hoist).preds
      masks := (s.hoist i.x.hoist).masks, pmarks := (s.hoist i.x.hoist).pmarks, mmarks := (s.hoist i.x.hoist).mmarks }) hRest :)
    sregs := fun q _ => by
      rw [hIssued]
      exact ⟨congrArg (Sparse.get 0 · q.toNat) (complete_sregs ..), congrArg (·.getLsbD q.toNat) (complete_spoison ..)⟩
    frag := by
      rw [hIssued]
      exact (congrArg (fun y : Frag => { y with
        entries := x.entries, frozen := x.frozen, atEnd := x.atEnd, rep := x.rep, repc := x.repc, sregs := x.sregs
        spoison := x.spoison, vabsent := x.vabsent, sabsent := x.sabsent, fills := x.fills, vempty := x.vempty, sempty := x.sempty
        drain := x.drain, seen := x.seen, hinted := x.hinted, backoff := x.backoff, pause := x.pause }) hComplete :)
    casts := fun d => by
      rw [h.done_cast]
      split
      · next hd => exact hd ▸ hCast
      · rfl
    spads := fun d a hOut => by
      rw [h.done_cast]
      split
      · next hd => exact hd ▸ hByte a fun hp => hOut ⟨hd, hp⟩
      · rfl
    smarks := fun d w hOut => by
      rw [h.done_cast]
      split
      · next hd => exact hd ▸ hMark w fun a hp => hOut a ⟨hd, hp⟩
      · rfl
    cores := fun q => (congrArg (fun y : Core => { y with counters := (s.core q).counters, records := (s.core q).records })
      (countUse_core i used u q) :).trans (congrArg (fun y : Core => { y with counters := (s.core q).counters }) (h.cores q) :)
    hearths := fun g => (congrArg (fun v : State => { v.hearth g with records := (s.hearth g).records }) hRest :)
    rest := (congrArg (fun v : State => { v with
      mem := s.mem, marks := s.marks, hoists := s.hoists, hearths := s.hearths }) hRest :) }

end Going

/-! ### LUTB (R200) -/

section Lutb

variable (i : Ix) (o : Ops) (signed : Bool)

/-- Where the tables of the lanes begin. -/
def Ix.tableBase : Nat := (i.read o.b .w32 0).bits.toNat % 2 ^ 23

/-- The machine with the tables stored. -/
def Ix.tablesStored : State :=
  (lanesOf i.g).foldl (fun s l => (s.modCast (i.s.castOf i.x) fun k =>
    k.swrite (i.tableBase o + 32 * l) 32 (lutTable signed (i.read o.a .w32 l).bits.toNat) (i.read o.a .w32 l).poison).noteSpad i.x.gc
      (i.s.castOf i.x) (i.tableBase o + 32 * l) 32 none) i.s

/-- The scratchpad of the anchor with them. -/
def Ix.tables : Cast :=
  (i.s.cast (i.s.castOf i.x)).withTables (i.tableBase o) (fun l => lutTable signed (i.read o.a .w32 l).bits.toNat)
    (fun l => (i.read o.a .w32 l).poison) (lanesOf i.g)

theorem tablesStored_replaced : CastReplaced i.s (i.tablesStored o signed) (i.s.castOf i.x) (i.tables o signed) :=
  CastReplaced.foldl i.x.gc (i.s.castOf i.x) 32 (fun l => i.tableBase o + 32 * l) (fun k l => k.swrite (i.tableBase o + 32 * l) 32
    (lutTable signed (i.read o.a .w32 l).bits.toNat) (i.read o.a .w32 l).poison) (lanesOf i.g) i.s

end Lutb

theorem exec_lutb {h : Hdr} {o : Ops} (signed : Bool) (lsel : BitVec 4) {s : State} (hg : (Ix.of s h).g ≠ 0)
    (hAnchor : s.atAnchor (Ix.of s h).x = true)
    (hReads : Readable (Ix.of s h) [{ o := o.a, n := 1, bit := h.ea }, { o := o.b, n := 1, bit := h.eb }] (Ix.of s h).g)
    (hAlign : (Ix.of s h).tableBase o % 32 = 0)
    (hInside : ∀ l, (Ix.of s h).g.getLsbD l = true →
      (Ix.of s h).tableBase o + 32 * l + 32 ≤ s.spadBytes (s.castOf (Ix.of s h).x))
    (hFree : ∀ l, (Ix.of s h).g.getLsbD l = true →
      s.tileHeld (Ix.of s h).x.hoist true ((Ix.of s h).tableBase o + 32 * l) 32 = false) :
    ∃ used, exec (.lutb h o signed lsel) s =
      .next ((Ix.of s h).done ((Ix.of s h).countUse used ((Ix.of s h).tablesStored o signed))) := by
  generalize hi : Ix.of s h = i at *
  obtain rfl : i.s = s := by rw [← hi]; rfl
  have hTrap : i.trapLanes Cause.scratch (fun l => decide (i.s.spadBytes (i.s.castOf i.x) < i.tableBase o + 32 * l + 32))
      (fun l => i.tableBase o + 32 * l) = .ok () :=
    trapLanes_ok _ _ _ _ fun l hl => decide_eq_false (Nat.not_lt.2 (hInside l hl))
  have hHeld : ((lanesOf i.g).any fun l => i.s.tileHeld i.x.hoist true (i.tableBase o + 32 * l) 32) = false :=
    List.any_eq_false.2 fun l hl => by rw [hFree l ((mem_lanesOf _ _).1 hl)]; exact Bool.false_ne_true
  refine ⟨decide (i.poisonLanes o.b 1 i.g ≠ 0), ?_⟩
  show execLutb h o signed lsel i.s = _
  unfold execLutb
  rw [hi]
  simp only [Ix.uniform, ← Ix.tableBase.eq_1, anchored_home hAnchor, checkOperands_ok hReads, decide_eq_false (not_not.2 hAlign),
    guardStop_false, hTrap, hHeld, ok_bind, pure, Except.pure]
  exact congrArg Host.Outcome.next (run_ok i _ hg)

/-- LUTB stores the tables of the guard-true lanes at the anchor, and goes on (R200). -/
theorem lutb_stores (h : Hdr) (o : Ops) (signed : Bool) (lsel : BitVec 4) (s : State) :
    let i := Ix.of s h
    let c := s.castOf i.x
    let b := i.tableBase o
    i.g ≠ 0 → s.atAnchor i.x = true → Readable i [{ o := o.a, n := 1, bit := h.ea }, { o := o.b, n := 1, bit := h.eb }] i.g →
    b % 32 = 0 → (∀ l, i.g.getLsbD l = true → b + 32 * l + 32 ≤ s.spadBytes c ∧
      s.tileHeld i.x.hoist true (b + 32 * l) 32 = false) →
    ∃ t, exec (.lutb h o signed lsel) s = .next t ∧ WentOn s t i ∧
      KeptMem s t i [] nothing (fun d p => d = c ∧ laneBytes i 32 (fun l => b + 32 * l) p) ∧ t.cast c = i.tables o signed := by
  intro i c b hg hAnchor hReads hAlign hTiles
  obtain ⟨used, hExec⟩ := exec_lutb signed lsel hg hAnchor hReads hAlign (fun l hl => (hTiles l hl).1) (fun l hl => (hTiles l hl).2)
  have hStored := tablesStored_replaced i o signed
  refine ⟨_, hExec, ?_, hStored.kept i used (withTables_rest ..) (fun a ha => ?_) (fun w hw => ?_), ?_⟩
  · exact congrArg Frag.entries (hStored.done_issued i used)
  · exact withTables_byte_other _ _ _ fun l hl hIn => ha ⟨l, (mem_lanesOf _ _).1 hl, hIn⟩
  · refine withTables_mark_other _ _ _ hAlign fun l hl hIn => ?_
    exact hw (4 * w) ⟨l, (mem_lanesOf _ _).1 hl, hIn⟩ (by omega)
  · rw [hStored.done_cast]
    exact if_pos rfl

/-! ### The obligation -/

/-- Settles O34: the elements of a group stand in one linear order of which COMP48 keeps the least four, and the tables of LUTB are
disjoint whole words of scratchpad, so that each lane's bytes are read back as that lane stored them. -/
theorem pruningAndTables : Obligations.PruningAndTables := by
  unfold Obligations.PruningAndTables
  refine ⟨?_, ?_⟩
  · intro h o t hi _ s i el e mark hne hg _ _ _ _ hFull hD hD2 hDebug hPoison
    obtain ⟨u, hExec, hWent, hKept, hElems, hMeta⟩ := comp48_keeps h o t hi s hne hg hFull hD hD2 hDebug hPoison
    exact ⟨u, i.keptOf o t, hExec, hWent, hKept, fun l _ => ⟨keptOf_length i o t l, firstFour_sorted, fun _ => keptOf_lt i o t l,
      fun _ ha _ hb hOut => keptOf_before i o t l ha hb hOut⟩, hElems, hMeta⟩
  · intro h o signed lsel s i c b a hg hAnchor hReads hAlign hTiles
    obtain ⟨t, hExec, hWent, hKept, hCast⟩ := lutb_stores h o signed lsel s hg hAnchor hReads hAlign hTiles
    refine ⟨t, hExec, hWent, hKept, fun l hl x hx => ?_, fun l hl x hx => ?_⟩
    · rw [hCast, Ix.tables, show b = i.tableBase o from rfl, withTables_sread _ _ _ ((mem_lanesOf _ _).2 hl) hx]
      exact lutTable_entry signed _ hx
    · rw [hCast, spoisoned_byte]
      exact withTables_mark _ _ _ hAlign ((mem_lanesOf _ _).2 hl) (by show b + 32 * l ≤ _; omega) (by show _ < b + 32 * l + 32; omega)

end Sys2Proof.Machine
end

section
/-! SUPPORT. Every function of the model that gives a state keeps the canonical form of memory (R216). One rule for each function, by the
parts that the function is made of: those that write bytes or marks keep the form by the laws of `Laws/Memory.lean`, and the others
leave memory as it is. -/

namespace Sys2Proof.Machine

/-! ### The form, and what keeps it -/

/-- The canonical form of memory, as a proposition. -/
def State.MemOk (s : State) : Prop := s.memOk = true

/-- What a body gives where it takes effect meets a condition. -/
inductive BodyOk {α : Type} (P : α → Prop) : Except Stop α → Prop
  | ok {a} (h : P a) : BodyOk P (.ok a)
  | error {e} : BodyOk P (.error e)

/-- The state that may be given keeps the canonical form. -/
inductive SomeOk : Option State → Prop
  | some {t} (h : t.MemOk) : SomeOk (some t)
  | none : SomeOk none

/-- The next state of a step keeps the canonical form. -/
inductive OutcomeOk : Host.Outcome State Fault Refusal → Prop
  | next {t} (h : t.MemOk) : OutcomeOk (.next t)
  | fault {r} : OutcomeOk (.fault r)
  | refused {r} : OutcomeOk (.refused r)

variable {s : State} {i : Ix}

/-- What else of the state changes does not matter. -/
theorem State.MemOk.others (h : s.MemOk) {frags hoists casts pours cores hearths pkgs cmds net seqs sentCnt recvCnt unacked oldSweep
    nextFrag nextPour nextCmd nextOrd now iss late agenda} :
    (State.mk s.mem s.marks frags hoists casts pours cores hearths pkgs cmds net seqs sentCnt recvCnt unacked oldSweep nextFrag nextPour
      nextCmd nextOrd now iss late agenda).MemOk := h

theorem State.MemOk.ite {p : Prop} [Decidable p] {a b : State} (ha : a.MemOk) (hb : b.MemOk) : (if p then a else b).MemOk := by
  split
  · exact ha
  · exact hb

theorem State.MemOk.iteFst {α : Type} {p : Prop} [Decidable p] {a b : State × α} (ha : a.1.MemOk) (hb : b.1.MemOk) :
    (if p then a else b).1.MemOk := by
  split
  · exact ha
  · exact hb

theorem State.MemOk.iteSnd {α : Type} {p : Prop} [Decidable p] {a b : α × State} (ha : a.2.MemOk) (hb : b.2.MemOk) :
    (if p then a else b).2.MemOk := by
  split
  · exact ha
  · exact hb

theorem State.MemOk.foldl {α : Type} {f : State → α → State} {l : List α} (h : s.MemOk) (hf : ∀ t a, t.MemOk → (f t a).MemOk) :
    (l.foldl f s).MemOk :=
  List.foldlRecOn l f h fun t ht a _ => hf t a ht

theorem State.MemOk.foldlFst {α β : Type} {f : State × β → α → State × β} {l : List α} {q : State × β} (h : q.1.MemOk)
    (hf : ∀ t a, t.1.MemOk → (f t a).1.MemOk) : (l.foldl f q).1.MemOk :=
  List.foldlRecOn (motive := fun t => t.1.MemOk) l f h fun t ht a _ => hf t a ht

theorem State.MemOk.of_snd {β : Type} {q : β × State} {t : State} {b : β} (hq : q.2.MemOk) (h : q = (b, t)) : t.MemOk := by
  subst h
  exact hq

/-- The lanes that take part in a lane test do not matter. -/
theorem State.MemOk.part {p} (h : i.s.MemOk) : (i.part p).s.MemOk := by
  unfold Ix.part
  split
  · exact h
  · exact h

theorem BodyOk.ite {α : Type} {P : α → Prop} {p : Prop} [Decidable p] {a b : Except Stop α} (ha : BodyOk P a) (hb : BodyOk P b) :
    BodyOk P (if p then a else b) := by
  split
  · exact ha
  · exact hb

/-- Behind a check. -/
theorem BodyOk.bind {α β : Type} {P : β → Prop} {x : Except Stop α} {f : α → Except Stop β} (hf : ∀ a, BodyOk P (f a)) :
    BodyOk P (x >>= f) := by
  cases x with
  | ok a => exact hf a
  | error => exact .error

/-- Behind a part that gives a state itself. -/
theorem BodyOk.bindOk {α β : Type} {Q : α → Prop} {P : β → Prop} {x : Except Stop α} {f : α → Except Stop β} (hx : BodyOk Q x)
    (hf : ∀ a, Q a → BodyOk P (f a)) : BodyOk P (x >>= f) := by
  cases hx with
  | ok h => exact hf _ h
  | error => exact .error

theorem SomeOk.ite {p : Prop} [Decidable p] {a b : Option State} (ha : SomeOk a) (hb : SomeOk b) : SomeOk (if p then a else b) := by
  split
  · exact ha
  · exact hb

theorem SomeOk.map {r : Option State} {f : State → State} (h : SomeOk r) (hf : ∀ t, t.MemOk → (f t).MemOk) : SomeOk (r.map f) := by
  cases h with
  | some ht => exact .some (hf _ ht)
  | none => exact .none

theorem SomeOk.getD {r : Option State} (h : SomeOk r) (hs : s.MemOk) : (r.getD s).MemOk := by
  cases h with
  | some ht => exact ht
  | none => exact hs

theorem OutcomeOk.ite {p : Prop} [Decidable p] {a b : Host.Outcome State Fault Refusal} (ha : OutcomeOk a) (hb : OutcomeOk b) :
    OutcomeOk (if p then a else b) := by
  split
  · exact ha
  · exact hb

theorem OutcomeOk.onNext {r : Host.Outcome State Fault Refusal} {f : State → State} (h : OutcomeOk r)
    (hf : ∀ t, t.MemOk → (f t).MemOk) : OutcomeOk (onNext r f) := by
  cases h with
  | next ht => exact .next (hf _ ht)
  | fault => exact .fault
  | refused => exact .refused

/-! ### Parts of the state, memory, records, ends and traps -/

theorem State.MemOk.setFrag {f x} (h : s.MemOk) : (s.setFrag f x).MemOk := .others h
theorem State.MemOk.setHoist {k x} (h : s.MemOk) : (s.setHoist k x).MemOk := .others h
theorem State.MemOk.setCast {c x} (h : s.MemOk) : (s.setCast c x).MemOk := .others h
theorem State.MemOk.setPour {p x} (h : s.MemOk) : (s.setPour p x).MemOk := .others h
theorem State.MemOk.setCore {gc x} (h : s.MemOk) : (s.setCore gc x).MemOk := .others h
theorem State.MemOk.setHearth {gh x} (h : s.MemOk) : (s.setHearth gh x).MemOk := .others h
theorem State.MemOk.setPkg {p x} (h : s.MemOk) : (s.setPkg p x).MemOk := .others h
theorem State.MemOk.setCmd {c x} (h : s.MemOk) : (s.setCmd c x).MemOk := .others h
theorem State.MemOk.modFrag {f g} (h : s.MemOk) : (s.modFrag f g).MemOk := .setFrag h
theorem State.MemOk.modHoist {k g} (h : s.MemOk) : (s.modHoist k g).MemOk := .setHoist h
theorem State.MemOk.modCast {c g} (h : s.MemOk) : (s.modCast c g).MemOk := .setCast h
theorem State.MemOk.modPour {p g} (h : s.MemOk) : (s.modPour p g).MemOk := .setPour h
theorem State.MemOk.modCore {gc g} (h : s.MemOk) : (s.modCore gc g).MemOk := .setCore h
theorem State.MemOk.modHearth {gh g} (h : s.MemOk) : (s.modHearth gh g).MemOk := .setHearth h
theorem State.MemOk.modPkg {p g} (h : s.MemOk) : (s.modPkg p g).MemOk := .setPkg h
theorem State.MemOk.modCmd {c g} (h : s.MemOk) : (s.modCmd c g).MemOk := .setCmd h
theorem State.MemOk.writeLE {pa n v} (h : s.MemOk) : (s.writeLE pa n v).MemOk := memOk_writeLE n s pa v h
theorem State.MemOk.setMark {w b} (h : s.MemOk) : (s.setMark w b).MemOk := memOk_setMark s w b h
theorem State.MemOk.wakeWaiters {pa n} (h : s.MemOk) : (s.wakeWaiters pa n).MemOk := .others h

theorem State.MemOk.writeMem {pa n v poison} (h : s.MemOk) : (s.writeMem pa n v poison).MemOk :=
  .wakeWaiters (.writeLE (.foldl h fun _ _ ht => .setMark ht))

theorem State.MemOk.dropRecords {pa n} (h : s.MemOk) : (s.dropRecords pa n).MemOk := .ite h (.modHearth h)
theorem State.MemOk.rewrite {pa n v poison} (h : s.MemOk) : (s.rewrite pa n v poison).MemOk := .dropRecords (.writeMem h)
theorem State.MemOk.unpin {at_} (h : s.MemOk) : (s.unpin at_).MemOk := .rewrite h
theorem State.MemOk.countCore {gc ctr} (h : s.MemOk) : (s.countCore gc ctr).MemOk := .modCore h
theorem State.MemOk.countHearth {gh ctr} (h : s.MemOk) : (s.countHearth gh ctr).MemOk := .modHearth h
theorem State.MemOk.countSwitch {pkg sw ctr} (h : s.MemOk) : (s.countSwitch pkg sw ctr).MemOk := .modPkg h
theorem State.MemOk.bumpSeq {src} (h : s.MemOk) : (s.bumpSeq src).MemOk := .others h

theorem State.MemOk.record {gh src cls ctx flags cnt addr detail} (h : s.MemOk) :
    (s.record gh src cls ctx flags cnt addr detail).MemOk :=
  .modHearth (.writeMem (.bumpSeq (.ite (.countHearth h) h)))

theorem State.MemOk.traceRecord {gh src cls ctx addr detail} (h : s.MemOk) : (s.traceRecord gh src cls ctx addr detail).MemOk :=
  .ite (.countHearth h) (.modHearth (.writeMem (.bumpSeq h)))

theorem State.MemOk.dropPins {f prio pc} (h : s.MemOk) : (s.dropPins f prio pc).MemOk :=
  .ite h (.foldl (.modFrag h) fun _ _ ht => .unpin ht)

theorem State.MemOk.dropAllPins {f} (h : s.MemOk) : (s.dropAllPins f).MemOk := .ite h (.foldl (.modFrag h) fun _ _ ht => .unpin ht)
theorem State.MemOk.endFrag {f} (h : s.MemOk) : (s.endFrag f).MemOk := .setFrag (.modCore (.foldl h fun _ _ ht => .unpin ht))

theorem State.MemOk.clearCast {c} (h : s.MemOk) : (s.clearCast c).MemOk :=
  .others (.foldl (.modCore (.foldl h fun _ _ ht => .endFrag ht)) fun _ _ ht => .modHearth ht)

theorem State.MemOk.beginKill {p} (h : s.MemOk) : (s.beginKill p).MemOk :=
  .ite (.others (.foldl (.foldl (.setPour h) fun _ _ ht => .modHearth ht) fun _ _ ht => .clearCast ht)) h

theorem State.MemOk.doubleFault {f first firstPc second secondPc} (h : s.MemOk) :
    (s.doubleFault f first firstPc second secondPc).MemOk :=
  .beginKill (.record (.countCore h))

theorem State.MemOk.raise {f e cause addr lanes} (h : s.MemOk) : (s.raise f e cause addr lanes).MemOk := by
  dsimp only [State.raise]
  split
  · exact .doubleFault h
  · exact .ite (.doubleFault h) (.setFrag h)

/-! ### Operands -/

theorem State.MemOk.done (h : s.MemOk) : (i.done s).MemOk := .modFrag h

theorem State.MemOk.write {o t rs} (h : s.MemOk) : (i.write s o t rs).MemOk := by
  dsimp only [Ix.write]
  split
  · exact .modFrag (.modHoist h)
  · split
    · exact h
    · exact .modFrag h
  · exact .modHoist h
  · split
    · exact h
    · exact .modHoist h
  · exact h

theorem State.MemOk.writePred {o m b} (h : s.MemOk) : (i.writePred s o m b).MemOk := by
  dsimp only [Ix.writePred]
  split
  · exact .modHoist h
  · exact h

theorem State.MemOk.countUse {used} (h : s.MemOk) : (i.countUse used s).MemOk := .ite (.countCore h) h

/-! ### Masks and flags -/

theorem State.MemOk.writePct {hd o p c} (h : s.MemOk) : (i.writePct s hd o p c).MemOk := .writePred (.writePred h)

/-! ### The end of an issue -/

theorem State.MemOk.sendLanes {lanes dest lsel anchor aim} (h : s.MemOk) : (i.sendLanes s lanes dest lsel anchor aim).MemOk :=
  .ite h (.ite (.setFrag h) (.modHoist (.setFrag (.setFrag (.others h)))))

theorem State.MemOk.stop {st} (h : i.s.MemOk) : (i.stop st).MemOk := by
  dsimp only [Ix.stop]
  split
  · exact .modFrag h
  · exact .raise h
  · exact .ite (.raise h) (.sendLanes h)

theorem State.MemOk.illegal (h : i.s.MemOk) : i.illegal.MemOk := .raise h

theorem State.MemOk.run {body} (h : i.s.MemOk) (hb : BodyOk State.MemOk body) : (i.run body).MemOk := by
  refine .ite (.done h) ?_
  cases hb with
  | ok ht => exact ht
  | error => exact .stop h

theorem State.MemOk.finish {o t rs} (h : i.s.MemOk) : (i.finish o t rs).MemOk := .done (.countUse (.write h))
theorem State.MemOk.finish2 {o d2 t rs b} (h : i.s.MemOk) : (i.finish2 o d2 t rs b).MemOk := .done (.writePred (.countUse (.write h)))

theorem State.MemOk.alu {hd o wa wb wc t f} (h : i.s.MemOk) : (i.alu hd o wa wb wc t f).MemOk :=
  .run h (.bind fun _ => .bind fun _ => .bind fun _ => .ok (.finish h))

theorem State.MemOk.compare {hd o p wa wb wc f} (h : i.s.MemOk) : (i.compare hd o p wa wb wc f).MemOk :=
  .run (.part h) (.bind fun _ => .ok (.done (.countUse (.writePct (.part h)))))

/-! ### Queues -/

theorem State.MemOk.noteSpad {gc cast ofs n rel_} (h : s.MemOk) : (s.noteSpad gc cast ofs n rel_).MemOk := .ite h (.modCore h)
theorem State.MemOk.pushQueue {c q vs} (h : s.MemOk) : (s.pushQueue c q vs).MemOk := .foldl (.modCast h) fun _ _ ht => .noteSpad ht

/-! ### Integer instructions -/

theorem State.MemOk.intOp2 {hd o t r f} (h : s.MemOk) : (intOp2 hd o t r f s).MemOk := .alu h
theorem State.MemOk.intOp3 {hd o t r f} (h : s.MemOk) : (intOp3 hd o t r f s).MemOk := .alu h
theorem State.MemOk.intOp1 {hd o t f} (h : s.MemOk) : (intOp1 hd o t f s).MemOk := .alu h

theorem State.MemOk.carryOp {hd o t f} (h : s.MemOk) : (carryOp hd o t f s).MemOk :=
  .run h (.bind fun _ => .bind fun _ => .bind fun _ => .ok (.done (.countUse (.writePred (.write h)))))

theorem State.MemOk.logic2 {hd o w64 f} (h : s.MemOk) : (logic2 hd o w64 f s).MemOk := .alu h
theorem State.MemOk.shift32 {hd o f} (h : s.MemOk) : (shift32 hd o f s).MemOk := .alu h
theorem State.MemOk.countOp {hd o w64 f} (h : s.MemOk) : (countOp hd o w64 f s).MemOk := .alu h

theorem OutcomeOk.execMovi {hd o w64 hi} (h : s.MemOk) : OutcomeOk (execMovi hd o w64 hi s) := by
  dsimp only [Machine.execMovi]
  refine .next (.ite (.run h (.bind fun _ => .ok ?_)) (.alu h))
  split
  · exact .finish h
  · exact .finish h

theorem State.MemOk.wideOp {hd o t f} (h : s.MemOk) : (wideOp hd o t f s).MemOk := .alu h

theorem OutcomeOk.execPmov {hd o mode} (h : s.MemOk) : OutcomeOk (execPmov hd o mode s) := by
  dsimp only [Machine.execPmov]
  refine .next ?_
  split
  · exact .run h (.bind fun _ => .ok (.done (.countUse (.writePred h))))
  · exact .run h (.bind fun _ => .bind fun _ => .bind fun _ => .ok (.finish h))
  · exact .run h (.bind fun _ => .ok (.done (.countUse (.foldl h fun _ _ ht => .writePred ht))))

/-! ### Bindings and room of casts -/

theorem State.MemOk.modCtx {c k f} (h : s.MemOk) : (s.modCtx c k f).MemOk := .modCast h

theorem State.MemOk.endBinding {c k} (h : s.MemOk) : (s.endBinding c k).MemOk := by
  dsimp only [State.endBinding]
  split
  · exact .modCtx (.modCtx h)
  · exact h

theorem State.MemOk.unbind {c k} (h : s.MemOk) : (s.unbind c k).MemOk := by
  dsimp only [State.unbind]
  split
  · exact .ite (.endBinding h) h
  · exact h

theorem State.MemOk.freeBindings {c} (h : s.MemOk) : (s.freeBindings c).MemOk := .ite (.unbind (.unbind h)) h
theorem State.MemOk.popInst {q} (h : s.MemOk) : (s.popInst q).MemOk := .modCtx h

theorem State.MemOk.retireFrees {q} (h : s.MemOk) : (s.retireFrees q).MemOk :=
  .ite (.popInst (.endBinding (.ite (.popInst (.endBinding h)) h))) (.ite (.popInst (.endBinding h)) h)

theorem State.MemOk.settleCast {c} (h : s.MemOk) : (s.settleCast c).MemOk :=
  .ite (.foldl (.freeBindings h) fun _ _ ht => .modCast ht) (.freeBindings h)

/-! ### Pins -/

theorem State.MemOk.pin {at_ e} (h : s.MemOk) : (s.pin at_ e).2.MemOk := .iteSnd (.writeMem h) (.iteSnd h h)

/-! ### Packets -/

theorem State.MemOk.countSent {p} (h : s.MemOk) : (s.countSent p).MemOk := .others h
theorem State.MemOk.countRecv {p} (h : s.MemOk) : (s.countRecv p).MemOk := .others h
theorem State.MemOk.countLeft {p} (h : s.MemOk) : (s.countLeft p).MemOk := .ite h (.countSent h)
theorem State.MemOk.remember {u} (h : s.MemOk) : (s.remember u).MemOk := .ite (.modCore h) (.others h)

/-- A packet sent is one more in flight, counted and, where it is posted, remembered until it is acknowledged. -/
theorem State.MemOk.send {src tgt ctx pass cast body rel_} (h : s.MemOk) : (s.send src tgt ctx pass cast body rel_).MemOk := by
  unfold State.send
  extract_lets num seq gc counted ord gen p s1 s2 s3
  have h2 : s2.MemOk := .countLeft (.ite (.bumpSeq (.others h)) (.others h))
  have h3 : s3.MemOk := .ite (.modCore h2) h2
  exact .ite (.remember h3) h3

theorem State.MemOk.noteAddr {gc src seq va f} (h : s.MemOk) : (s.noteAddr gc src seq va f).MemOk := .modCore h
theorem State.MemOk.answer {src tgt ctx body} (h : s.MemOk) : (s.answer src tgt ctx body).MemOk := .send h
theorem State.MemOk.dropPacket {n} (h : s.MemOk) : (s.dropPacket n).MemOk := .others h
theorem State.MemOk.leaveNow {f g} (h : s.MemOk) : (s.leaveNow f g).MemOk := .foldl (.others h) fun _ _ ht => .countLeft ht

theorem State.MemOk.hearthRecord {gh cls ctx cnt addr detail} (h : s.MemOk) : (s.hearthRecord gh cls ctx cnt addr detail).MemOk :=
  .record h

/-! ### Switches -/

theorem State.MemOk.modWindow {pkg k f} (h : s.MemOk) : (s.modWindow pkg k f).MemOk := .modPkg h

theorem State.MemOk.windowEvent {pkg pos ctr ctx pa} (h : s.MemOk) : (s.windowEvent pkg pos ctr ctx pa).MemOk :=
  .record (.countSwitch h)

theorem State.MemOk.forwardRound {pkg pos r cut} (h : s.MemOk) : (s.forwardRound pkg pos r cut).MemOk := by
  dsimp only [State.forwardRound]
  split
  · exact h
  · refine .ite (.send (.ite (.windowEvent h) h)) ?_
    split
    · exact h
    · exact .send h

theorem State.MemOk.modSwitch {pkg pos f} (h : s.MemOk) : (s.modSwitch pkg pos f).MemOk := .modPkg h

theorem State.MemOk.flushRound {pkg pos r} (h : s.MemOk) : (s.flushRound pkg pos r).MemOk :=
  .forwardRound (.windowEvent (.modSwitch h))

theorem State.MemOk.joinRound {pkg pos r v} (h : s.MemOk) : (s.joinRound pkg pos r v).MemOk :=
  .ite (.windowEvent h) (.ite (.forwardRound (.modSwitch h)) (.modSwitch h))

theorem State.MemOk.declareWindow {pkg k} (h : s.MemOk) : (s.declareWindow pkg k).MemOk :=
  .ite (.modWindow (.modWindow h)) (.modPkg (.modWindow (.modWindow h)))

theorem State.MemOk.clearWindow {pkg k} (h : s.MemOk) : (s.clearWindow pkg k).MemOk :=
  .ite (.modWindow (.modWindow h)) (.foldl (.modWindow (.modWindow h)) fun _ _ ht => .flushRound ht)

/-! ### The control page -/

theorem State.MemOk.cpRefuse {pkg who ofs det} (h : s.MemOk) : (s.cpRefuse pkg who ofs det).MemOk := .hearthRecord (.countHearth h)

theorem State.MemOk.hostChanged {pkg ctx old} (h : s.MemOk) : (s.hostChanged pkg ctx old).MemOk :=
  .ite (.foldl h fun _ _ ht => .modCore ht) h

theorem State.MemOk.requestPreempt {pkg r} (h : s.MemOk) : (s.requestPreempt pkg r).MemOk := .modPkg h
theorem State.MemOk.fwRequest {pkg word} (h : s.MemOk) : (s.fwRequest pkg word).MemOk := .requestPreempt (.setPkg h)

theorem State.MemOk.writeWindow {pkg k who ofs det bs} (h : s.MemOk) : (s.writeWindow pkg k who ofs det bs).MemOk := by
  dsimp only [State.writeWindow]
  refine .ite (.cpRefuse h) (.ite ?_ ?_)
  · split
    · exact .ite (.cpRefuse h) (.clearWindow h)
    · exact .cpRefuse h
  · split
    · exact .modWindow h
    · exact .ite (.ite h (.declareWindow (.modWindow h))) (.modWindow h)

theorem State.MemOk.cpWrite {pkg who ofs bytes det} (h : s.MemOk) : (s.cpWrite pkg who ofs bytes det).MemOk :=
  .ite (.writeWindow h) (.ite (.cpRefuse h) (.ite (.ite h (.fwRequest h)) (.ite (.modPkg h) (.ite (.hostChanged (.modPkg h))
    (.modPkg h)))))

/-! ### Accesses -/

theorem State.MemOk.doneFor {m} (h : s.MemOk) : (i.doneFor s m).MemOk := .ite h (.modFrag h)
theorem State.MemOk.askAcks {gc ctx l} (h : s.MemOk) : (s.askAcks gc ctx l).MemOk := .foldl h fun _ _ ht => .ite ht (.answer ht)
theorem State.MemOk.askDrain {gc count} (h : i.s.MemOk) : (i.askDrain gc count).MemOk := .send (.modFrag h)
theorem State.MemOk.noteRelease {gh pa n rel_} (h : s.MemOk) : (s.noteRelease gh pa n rel_).MemOk := .ite h (.modHearth h)
theorem State.MemOk.putWrite {w} (h : s.MemOk) : (s.putWrite w).MemOk := .ite (.writeMem (.writeMem h)) (.writeMem h)

theorem State.MemOk.applyWrite {ctx w rel_ det} (h : s.MemOk) : (s.applyWrite ctx w rel_ det).MemOk :=
  .ite (.cpWrite h) (.ite (.putWrite h) (.noteRelease (.putWrite h)))

theorem State.MemOk.applyWrites {ctx ws rel_ det} (h : s.MemOk) : (s.applyWrites ctx ws rel_ det).MemOk :=
  .foldl h fun _ _ ht => .applyWrite ht

theorem State.MemOk.applyReductions {op t ws rel_} (h : s.MemOk) : (s.applyReductions op t ws rel_).MemOk :=
  .foldl h fun _ _ ht => .applyWrite ht

theorem State.MemOk.pendVec {r n rs} (h : s.MemOk) : (i.pendVec s r n rs).MemOk := .modFrag h

theorem State.MemOk.pend {o t rs} (h : s.MemOk) : (i.pend s o t rs).MemOk := by
  dsimp only [Ix.pend]
  split
  · exact .pendVec h
  · split
    · exact h
    · exact .modFrag h
  · exact .write h

theorem State.MemOk.applyFill {f} (h : s.MemOk) : (s.applyFill f).MemOk := by
  dsimp only [State.applyFill]
  split
  · exact h
  · exact .modFrag (.modHoist h)

theorem State.MemOk.leaveFrag {f} (h : s.MemOk) : (s.leaveFrag f).MemOk := .endFrag (.foldl h fun _ _ ht => .applyFill ht)

/-! ### Instructions with queues -/

theorem State.MemOk.afterIssue {e} (h : s.MemOk) : (i.afterIssue e s).MemOk := by
  dsimp only [Ix.afterIssue]
  split
  · exact .modFrag h
  · exact h

theorem BodyOk.pushTo {q o w64} (h : i.s.MemOk) : BodyOk State.MemOk (i.pushTo q o w64) :=
  .bind fun _ => .bind fun _ => .bind fun _ => .bind fun _ => .bind fun _ => .ok (.afterIssue (.pushQueue h))

theorem BodyOk.popFrom {q d w64 bit} (h : i.s.MemOk) : BodyOk (fun r => r.2.MemOk) (i.popFrom q d w64 bit) :=
  .bind fun _ => .bind fun _ => .bind fun _ => .ok (.modCast h)

theorem OutcomeOk.execMov {hd o w64 lsel} (h : s.MemOk) : OutcomeOk (execMov hd o w64 lsel s) := by
  dsimp only [Machine.execMov]
  refine .next ?_
  split
  · exact .run h (.bind fun _ => .bind fun _ => .bindOk (.pushTo h) fun _ ht => .ok (.done ht))
  · exact .run h (.bind fun _ => .bind fun _ => .bindOk (.popFrom h) fun _ ht => .ok (.finish ht))
  · exact .logic2 h

/-! ### Posting and accesses that migrate -/

theorem State.MemOk.postFrom {src home pass body rel_ va} (h : s.MemOk) : (i.postFrom s src home pass body rel_ va).MemOk :=
  .ite (.noteAddr (.send h)) (.modFrag (.noteAddr (.send h)))

theorem State.MemOk.post {home pass body rel_ va} (h : s.MemOk) : (i.post s home pass body rel_ va).MemOk := .postFrom h

theorem State.MemOk.storeHere {body ws rel_ va now} (h : i.s.MemOk) (hn : ∀ t, t.MemOk → (now t).MemOk) :
    (i.storeHere body ws rel_ va now).MemOk := .ite (.postFrom h) (hn _ h)

theorem State.MemOk.posted {so} (h : s.MemOk) : (i.posted so s).MemOk := .doneFor (.modFrag h)

theorem State.MemOk.store {hd o x size unit regs cpage vals} (h : i.s.MemOk) : (i.store hd o x size unit regs cpage vals).MemOk :=
  .run h (.bind fun _ => .bind fun _ => .bind fun _ => .ok (.posted (.countUse (.foldl
    (.storeHere h fun _ ht => .applyWrites ht) fun _ _ ht => .post ht))))

theorem State.MemOk.contribute {src gh k home ctx cast es replace} (h : s.MemOk) :
    (s.contribute src gh k home ctx cast es replace).MemOk :=
  .modWindow (.countSent (.ite (.bumpSeq (.others h)) (.others h)))

theorem State.MemOk.reduce {hd o t op x} (h : i.s.MemOk) : (i.reduce hd o t op x).MemOk :=
  .run h (.bind fun _ => .bind fun _ => .bind fun _ => .ok (.posted (.countUse (.foldl (.foldl
    (.storeHere h fun _ ht => .applyReductions ht) fun _ _ ht => .post ht) fun _ _ ht => .contribute ht))))

theorem State.MemOk.puts {hd o t x} (h : i.s.MemOk) : (i.puts hd o t x).MemOk := by
  refine .run h (.bind fun _ => .bind fun _ => .bind fun _ => .bind fun _ => .bind fun _ => .bind fun _ => .bind fun _ => ?_)
  dsimp only
  exact .ok (.posted (.countUse (.post (.foldlFst (.applyWrites h) fun _ _ ht => .post ht))))

theorem BodyOk.migrate {va pa lsel} (h : i.s.MemOk) : BodyOk (fun r => r.1.s.MemOk) (i.migrate va pa lsel) := by
  refine .bind fun _ => .bind fun _ => .ok ?_
  dsimp only
  exact .foldl h fun _ _ ht => .sendLanes ht

/-- An access to memory keeps the form when what it performs on its local lanes does. -/
theorem State.MemOk.visit {us ds masks o x acc size unit write perform} (h : i.s.MemOk)
    (hp : ∀ j t pa, j.s.MemOk → t.MemOk → (perform j t pa).1.MemOk) :
    (i.visit us ds masks o x acc size unit write perform).MemOk := by
  refine .run h (.bind fun _ => .bind fun _ => .bind fun _ => .bind fun _ => .bind fun _ => ?_)
  dsimp only
  split
  · exact .ok (.askDrain h)
  · refine .bindOk (.migrate h) fun _ hj => .ite (.ok (.doneFor hj)) ?_
    split
    · exact .ok (.modFrag (hp _ _ _ hj (.countUse hj)))
    · exact .ok (.doneFor (.modFrag (hp _ _ _ hj (.countUse hj))))

theorem State.MemOk.rmwLanes {ctx pa size rel_ f} (h : s.MemOk) : (i.rmwLanes s ctx pa size rel_ f).1.MemOk := by
  refine State.MemOk.foldlFst h fun q l hq => ?_
  dsimp only
  split
  · exact .applyWrite hq
  · exact hq

/-! ### Memory instructions -/

theorem OutcomeOk.execLdx {hd o n x} (h : s.MemOk) : OutcomeOk (execLdx hd o n x s) := by
  dsimp only [Machine.execLdx]
  refine .next (.visit h fun _ _ _ _ ht => ?_)
  split
  · exact .pendVec ht
  · exact ht

theorem OutcomeOk.execAtom {hd o t op x} (h : s.MemOk) : OutcomeOk (execAtom hd o t op x s) :=
  .next (.visit h fun _ _ _ _ ht => .pend (.countUse (.rmwLanes ht)))

theorem OutcomeOk.execCas {hd o t x} (h : s.MemOk) : OutcomeOk (execCas hd o t x s) :=
  .next (.visit h fun _ _ _ _ ht => .pend (.writePred (.countUse (.rmwLanes ht))))

theorem State.MemOk.spad {us ds masks o x size write perform} (h : i.s.MemOk)
    (hp : ∀ j t at_, j.s.MemOk → t.MemOk → (perform j t at_).MemOk) :
    (i.spad us ds masks o x size write perform).MemOk := by
  refine .run h (.bind fun _ => .bind fun _ => .bind fun _ => .bind fun _ => .bind fun _ => .bind fun _ => .bind fun _ =>
    .bind fun _ => ?_)
  dsimp only
  split
  · exact .ok (.askDrain h)
  · exact .ok (.done (.modFrag (.ite (.foldl (hp _ _ _ h (.countUse h)) fun _ _ hs => .noteSpad hs) (hp _ _ _ h (.countUse h)))))

theorem OutcomeOk.execHome {hd o scale disp} (h : s.MemOk) : OutcomeOk (execHome hd o scale disp s) :=
  .next (.run h (.bind fun _ => .bind fun _ => .bind fun _ => .bind fun _ => .ok (.doneFor (.countUse (.write h)))))

/-! ### Fetch -/

theorem State.MemOk.keepBlock {b} (h : i.s.MemOk) : (i.keepBlock b).MemOk := .modCore h

/-! ### Ready hoists -/

theorem State.MemOk.noteReady {f} (h : s.MemOk) : (s.noteReady f).MemOk := .ite h (.modCore h)

/-! ### Control instructions -/

theorem OutcomeOk.execBrx {hd o pri} (h : s.MemOk) : OutcomeOk (execBrx hd o pri s) :=
  .next (.run h (.bind fun _ => .bind fun _ => .bind fun _ => .bind fun _ => .bind fun _ => .ok (.modFrag (.countUse (.write h)))))

theorem State.MemOk.shiftLanes {base to_} (h : s.MemOk) : (i.shiftLanes s base to_).MemOk :=
  .ite (.modFrag h) (.ite (.setFrag h) (.modHoist (.setFrag (.setFrag (.others h)))))

theorem BodyOk.callTo {o sh pri lsel t} (h : i.s.MemOk) : BodyOk State.MemOk (i.callTo o sh pri lsel t) :=
  .bind fun _ => .bind fun _ => .bind fun _ => .bind fun _ => .bind fun _ => .bind fun _ => .bind fun _ => .bind fun _ => .ok
    (.shiftLanes (.write h))

theorem OutcomeOk.execRet {hd o lsel} (h : s.MemOk) : OutcomeOk (execRet hd o lsel s) :=
  .next (.run h (.bind fun _ => .bind fun _ => .bind fun _ => .bind fun _ => .bind fun _ => .bind fun _ => .ite (.ok (.shiftLanes
    (.countUse h))) (.bind fun _ => .ok (.shiftLanes (.countUse h)))))

theorem OutcomeOk.execLoop {hd o pri} (h : s.MemOk) : OutcomeOk (execLoop hd o pri s) :=
  .next (.run h (.bind fun _ => .bind fun _ => .bind fun _ => .bind fun _ => .ok (.modFrag (.countUse h))))

theorem OutcomeOk.execRep {hd o sd sa sb sc} (h : s.MemOk) : OutcomeOk (execRep hd o sd sa sb sc s) :=
  .ite (.next (.illegal h)) (.next (.run h (.bind fun _ => .bind fun _ => .bind fun _ => .ok (.modFrag (.countUse h)))))

theorem State.MemOk.settleSplit {hk} (h : s.MemOk) : (s.settleSplit hk).MemOk := .ite (.modHoist h) h

theorem State.MemOk.joinAll {k lanes} (h : i.s.MemOk) : (i.joinAll k lanes).MemOk := by
  dsimp only [Ix.joinAll]
  split
  · exact h
  · exact .settleSplit (.modHoist (.setFrag (.foldl (.foldl h fun _ _ ht => .dropAllPins ht) fun _ _ ht => .setFrag ht)))

theorem State.MemOk.joinAsks {lanes} (h : s.MemOk) : (i.joinAsks lanes s).MemOk := .ite (.askAcks h) h

theorem State.MemOk.checkHoistExit {hk} (h : s.MemOk) : (s.checkHoistExit hk).MemOk :=
  .ite (.settleCast (.modCore (.modHoist (.foldl h fun _ _ ht => .leaveFrag ht)))) h

theorem State.MemOk.endHoist {hk} (h : s.MemOk) : (s.endHoist hk).MemOk := .ite h (.checkHoistExit h)
theorem BodyOk.exitRelease {t} (h : t.MemOk) : BodyOk State.MemOk (i.exitRelease t) := .bind fun _ => .ok h

theorem OutcomeOk.execJoin {hd o lsel} (h : s.MemOk) : OutcomeOk (execJoin hd o lsel s) :=
  .next (.run h (.bind fun _ => .bind fun _ => .ite (.ite (.ok (.joinAsks (.modFrag h))) (.ok (.joinAll h))) (.exitRelease
    (.checkHoistExit (.modFrag h)))))

theorem State.MemOk.setMask {k m} (h : s.MemOk) : (i.setMask s k m).MemOk := .modHoist h

theorem OutcomeOk.execEmset {hd o lsel} (h : s.MemOk) : OutcomeOk (execEmset hd o lsel s) :=
  .next (.run h (.bind fun _ => .bind fun _ => .bind fun _ => .bind fun _ => .exitRelease (.checkHoistExit (.ite (.leaveFrag
    (.modHoist (.modFrag (.countUse (.setMask h))))) (.modHoist (.modFrag (.countUse (.setMask h))))))))

theorem State.MemOk.passFrag {w f} (h : s.MemOk) : (s.passFrag w f).MemOk := .modFrag (.ite (.noteReady h) h)
theorem State.MemOk.passWait {w} (h : s.MemOk) : (s.passWait w).MemOk := .foldl h fun _ _ ht => .ite (.passFrag ht) (.answer ht)
theorem State.MemOk.passAway {w} (h : s.MemOk) : (s.passAway w).MemOk := .foldl h fun _ _ ht => .passFrag ht

theorem State.MemOk.barAcquire {cast hk lanes} (h : s.MemOk) : (s.barAcquire cast hk lanes).MemOk :=
  .foldl h fun _ _ ht => .modFrag ht

theorem State.MemOk.openBarrier {cast num} (h : s.MemOk) : (s.openBarrier cast num).MemOk :=
  .ite h (.foldl (.foldl (.setCast h) fun _ _ ht => .barAcquire ht) fun _ _ ht => .passWait ht)

theorem State.MemOk.arriveBar {cast num w count sync} (h : s.MemOk) : (s.arriveBar cast num w count sync).MemOk := .setCast h
theorem State.MemOk.openBarriers {cast} (h : s.MemOk) : (s.openBarriers cast).MemOk := .foldl h fun _ _ ht => .openBarrier ht
theorem State.MemOk.arrive {num count arv} (h : s.MemOk) : (i.arrive s num count arv).MemOk := .ite h (.ite (.arriveBar h) (.send h))

theorem OutcomeOk.execBar {hd o num arv} (h : s.MemOk) : OutcomeOk (execBar hd o num arv s) := by
  refine .next (.run h (.bind fun _ => .bind fun _ => .bind fun _ => ?_))
  split
  · exact .ok (.openBarrier h)
  next j hj =>
    obtain ⟨e, -, rfl⟩ := Option.map_eq_some_iff.1 hj
    exact .ok (.openBarrier (.modFrag (.arrive (.countUse (.openBarrier h)))))

/-! ### Images of parked work -/

theorem State.MemOk.clearRange {pa len} (h : s.MemOk) : (s.clearRange pa len).MemOk := memOk_clearRange s pa len h

theorem State.MemOk.putPieces {pa len ps} (h : s.MemOk) : (s.putPieces pa len ps).MemOk :=
  .foldl h fun _ _ ht => .ite ht (.writeLE ht)

theorem State.MemOk.putImage {gh owner len ps} (h : s.MemOk) : (s.putImage gh owner len ps).MemOk := by
  dsimp only [State.putImage]
  split
  · exact .modHearth (.putPieces (.clearRange h))
  · exact h

theorem State.MemOk.dropImages {gh p} (h : s.MemOk) : (s.dropImages gh p).MemOk := .modHearth h
theorem State.MemOk.numberImage {gc} (h : s.MemOk) : (s.numberImage gc).MemOk := .bumpSeq h
theorem State.MemOk.putIngot {f gh anchor sender seq} (h : s.MemOk) : (s.putIngot f gh anchor sender seq).MemOk := .putImage h

theorem State.MemOk.putCast {c} (h : s.MemOk) : (s.putCast c).MemOk :=
  .foldl (.numberImage (.putImage h)) fun _ _ ht => .numberImage (.putImage ht)

/-! ### Room on cores and parking -/

theorem State.MemOk.takeGranules {c gc} (h : s.MemOk) : (s.takeGranules c gc).MemOk := .modCast h

theorem State.MemOk.fillResv {p gc} (h : s.MemOk) : (s.fillResv p gc).MemOk := by
  dsimp only [State.fillResv]
  refine .ite h ?_
  split
  · exact .setPour h
  · exact h

theorem State.MemOk.postWrites {gh ctx ws} (h : s.MemOk) : (s.postWrites gh ctx ws).MemOk := by
  dsimp only [State.postWrites]
  split
  · exact h
  · exact .send h

theorem State.MemOk.setCastState {gh c st} (h : s.MemOk) : (s.setCastState gh c st).MemOk :=
  .ite (.postWrites (.ite (.traceRecord (.modCast h)) (.modCast h))) (.ite (.traceRecord (.modCast h)) (.modCast h))

theorem State.MemOk.enqueue {gh p casts resume} (h : s.MemOk) : (s.enqueue gh p casts resume).MemOk := .ite h (.others (.modHearth h))
theorem State.MemOk.newHoist {c hd} (h : s.MemOk) : (s.newHoist c hd).MemOk := .others (.modCore (.setFrag (.setHoist h)))

theorem State.MemOk.newCast {gh c gc} (h : s.MemOk) : (s.newCast gh c gc).MemOk :=
  .setCastState (.ite (.others (.foldl (.modCast (.fillResv (.takeGranules h))) fun _ _ ht => .newHoist ht)) (.foldl (.modCast
    (.fillResv (.takeGranules h))) fun _ _ ht => .newHoist ht))

theorem State.MemOk.readmit {f} (h : s.MemOk) : (s.readmit f).MemOk := by
  dsimp only [State.readmit]
  split
  · exact .ite (.ite (.setFrag (.dropImages h)) (.modCore (.setFrag (.dropImages h)))) h
  · exact .ite h (.modHearth (.setFrag h))
  · exact h

theorem State.MemOk.admitResumed {c} (h : s.MemOk) : (s.admitResumed c).MemOk :=
  .ite (.foldl (.modCast h) fun _ _ ht => .readmit ht) h

theorem State.MemOk.resumeCast {gh c} (h : s.MemOk) : (s.resumeCast gh c).MemOk :=
  .admitResumed (.retireFrees (.retireFrees (.setCastState (.foldl (.modCast (.takeGranules
    (.dropImages h))) fun _ _ ht => .modCore ht))))

theorem SomeOk.startCasts {gh resume cs} (h : s.MemOk) : SomeOk (s.startCasts gh resume cs) := by
  induction cs generalizing s with
  | nil => exact .some h
  | cons c cs ih =>
    unfold State.startCasts
    refine .ite (.ite (ih (.resumeCast h)) .none) ?_
    split
    · exact ih (.newCast h)
    · exact .none

theorem SomeOk.startHead {gh e} (h : s.MemOk) : SomeOk (s.startHead gh e) :=
  .map (.startCasts (.modHearth h)) fun _ ht => .modPour ht

theorem State.MemOk.requeueGang {c} (h : s.MemOk) : (s.requeueGang c).MemOk := .ite h (.enqueue (.foldl h fun _ _ ht => .modCast ht))

theorem State.MemOk.finishPark {c} (h : s.MemOk) : (s.finishPark c).MemOk :=
  .ite h (.ite (.setCastState (.others (.modCast (.modCore (.putCast h))))) (.requeueGang (.setCastState (.others (.modCast (.modCore
    (.putCast h)))))))

theorem State.MemOk.beginPark {c} (h : s.MemOk) : (s.beginPark c).MemOk :=
  .ite h (.finishPark (.others (.foldl (.modCast h) fun _ _ ht => .modFrag ht)))

theorem State.MemOk.parkGang {c} (h : s.MemOk) : (s.parkGang c).MemOk := .foldl h fun _ _ ht => .beginPark ht

theorem State.MemOk.makePlace {gh} (h : s.MemOk) : (s.makePlace gh).MemOk := by
  dsimp only [State.makePlace]
  split
  · exact h
  · refine .ite h ?_
    split
    · exact .parkGang h
    · exact h

/-! ### The pour record -/

theorem State.MemOk.postStatus {gh ctx recPa v} (h : s.MemOk) : (s.postStatus gh ctx recPa v).MemOk := .postWrites h

theorem State.MemOk.arriveOf {p i gh} (h : s.MemOk) : (s.arrive p i gh).MemOk :=
  .ite h (.ite (.enqueue (.foldl (.others (.modCast h)) fun _ _ ht => .setCastState ht)) (.others (.modCast h)))

theorem State.MemOk.releaseCast {p i at_} (h : s.MemOk) : (s.releaseCast p i at_).MemOk :=
  .ite (.send (.ite (.countHearth h) h)) (.arriveOf (.ite (.countHearth h) h))

theorem State.MemOk.releaseEntry {p i gh} (h : s.MemOk) : (s.releaseEntry p i gh).MemOk :=
  .send (.releaseCast (.modPour (.rewrite h)))

theorem State.MemOk.postBoard {p} (h : s.MemOk) : (s.postBoard p).MemOk := .foldl h fun _ _ ht => .ite ht (.modPour (.postWrites ht))

theorem State.MemOk.releaseFirst {p} (h : s.MemOk) : (s.releaseFirst p).MemOk :=
  .ite (.foldl h fun _ _ ht => .releaseEntry ht) (.foldl h fun _ _ ht => .releaseCast ht)

theorem State.MemOk.beginPour {p} (h : s.MemOk) : (s.beginPour p).MemOk :=
  .ite (.postBoard (.postStatus (.modPkg (.setPour h)))) (.releaseFirst (.postStatus (.modPkg (.setPour h))))

theorem State.MemOk.startBoard {p} (h : s.MemOk) : (s.startBoard p).MemOk := .releaseFirst (.modPour h)

theorem State.MemOk.pinBoard {p} (h : s.MemOk) : (s.pinBoard p).MemOk := by
  dsimp only [State.pinBoard]
  split
  · exact .beginPour h
  · split
    next hr => exact .ite (.beginPour (.setPour (.of_snd (.pin h) hr))) (.setPour (.of_snd (.pin h) hr))
    · exact h
    · exact .postStatus (.modHearth (.foldl (.setPour h) fun _ _ ht => .unpin ht))

theorem State.MemOk.accept {gh r} (h : s.MemOk) : (s.accept gh r).MemOk :=
  .ite (.postStatus (.modHearth h)) (.ite (.beginPour (.modHearth (.others (.setPour (.modHearth h))))) (.modHearth (.others
    (.setPour (.modHearth h)))))

/-! ### Engine commands -/

theorem State.MemOk.unpinCmd {c} (h : s.MemOk) : (s.unpinCmd c).MemOk := .foldl h fun _ _ ht => .send ht

theorem State.MemOk.askRead {k pas} (h : s.MemOk) : (s.askRead k pas).MemOk := by
  dsimp only [State.askRead]
  split
  · exact h
  · exact .ite (.ite h (.setCmd h)) (.send (.setCmd h))

theorem State.MemOk.startCmd {k} (h : s.MemOk) : (s.startCmd k).MemOk := by
  dsimp only [State.startCmd]
  split
  · exact .setCmd h
  · exact .send (.setCmd h)
  · exact .setCmd (.modWindow h)

theorem State.MemOk.acceptCmd {c used} (h : s.MemOk) : (i.acceptCmd s c used).MemOk :=
  .done (.countUse (.afterIssue (.startCmd (.ite (.others (.setCmd h)) (.foldl (.modFrag (.others
    (.setCmd h))) fun _ _ ht => .unpin ht)))))

theorem BodyOk.pinCommand {c used} (h : i.s.MemOk) : BodyOk State.MemOk (i.pinCommand c used) := by
  dsimp only [Ix.pinCommand]
  split
  · exact .ok (.acceptCmd h)
  · split
    next hr => exact .ite (.ok (.acceptCmd (.of_snd (.pin h) hr))) (.ok (.modFrag (.of_snd (.pin h) hr)))
    · exact .error
    · exact .error

theorem BodyOk.issueCommand {hd o lsel e} (h : i.s.MemOk) : BodyOk State.MemOk (i.issueCommand hd o lsel e) := by
  dsimp only [Ix.issueCommand]
  refine .bind fun _ => .bind fun _ => ?_
  split
  · exact .error
  · exact .bind fun _ => .bind fun _ => .bind fun _ => .pinCommand h

theorem State.MemOk.command {hd o lsel e} (h : i.s.MemOk) : (i.command hd o lsel e).MemOk := by
  refine .run h ?_
  split
  · exact .ok (.stop (.dropPins h))
  · exact .issueCommand h

theorem State.MemOk.pinCmd {k} (h : s.MemOk) : (s.pinCmd k).MemOk := by
  dsimp only [State.pinCmd]
  split
  · exact .startCmd h
  · split
    next hr => exact .ite (.startCmd (.setCmd (.of_snd (.pin h) hr))) (.setCmd (.of_snd (.pin h) hr))
    · exact .setCmd h
    · exact .setCmd h

theorem OutcomeOk.execEngineCommandTake {cast queue} (h : s.MemOk) : OutcomeOk (execEngineCommandTake cast queue s) := by
  dsimp only [Machine.execEngineCommandTake]
  refine .next ?_
  split
  · exact h
  · refine .ite h ?_
    split
    · exact .setCmd (.others (.modCast h))
    · split
      · exact .setCmd (.others (.modCast h))
      · exact .pinCmd (.setCmd (.others (.modCast h)))

theorem OutcomeOk.execEnq {hd o w64 nb lsel} (h : s.MemOk) : OutcomeOk (execEnq hd o w64 nb lsel s) :=
  .next (.run h (.bind fun _ => .bind fun _ => .ite (.bind fun _ => .ite (.ok (.done (.writePred h))) (.bindOk
    (.pushTo h) fun _ ht => .ok (.done (.writePred ht)))) (.bindOk (.pushTo h) fun _ ht => .ok (.done ht))))

theorem OutcomeOk.execDeq {hd o w64 nb lsel} (h : s.MemOk) : OutcomeOk (execDeq hd o w64 nb lsel s) :=
  .next (.run h (.bind fun _ => .bind fun _ => .ite (.bind fun _ => .ite (.ok (.done (.writePred h))) (.bindOk
    (.popFrom h) fun _ ht => .ok (.done (.writePred (.countUse (.write ht)))))) (.bindOk (.popFrom h) fun _ ht => .ok (.finish ht))))

/-! ### Float instructions -/

theorem State.MemOk.floatOp {hd o t f} (h : s.MemOk) : (floatOp hd o t f s).MemOk := .alu h

theorem State.MemOk.roundedOp {hd o t rm sat f} (h : s.MemOk) : (roundedOp hd o t rm sat f s).MemOk := by
  unfold Machine.roundedOp
  exact .floatOp h

theorem State.MemOk.approxOp {hd o f} (h : s.MemOk) : (approxOp hd o f s).MemOk := .alu h
theorem State.MemOk.packedOp {hd o bf f} (h : s.MemOk) : (packedOp hd o bf f s).MemOk := .alu h

theorem State.MemOk.packedRounded {hd o bf rm sat f} (h : s.MemOk) : (packedRounded hd o bf rm sat f s).MemOk := by
  unfold Machine.packedRounded
  exact .packedOp h

theorem State.MemOk.dotOp {hd o n w fa fb rm sat} (h : s.MemOk) : (dotOp hd o n w fa fb rm sat s).MemOk := .alu h

theorem OutcomeOk.execPack4 {hd o rm} (h : s.MemOk) : OutcomeOk (execPack4 hd o rm s) :=
  .next (.run h (.bind fun _ => .bind fun _ => .bind fun _ => .bind fun _ => .bind fun _ => .bind fun _ => .ok (.done (.write
    (.countUse (.write h))))))

/-! ### Launch and the ends of waits and casts -/

theorem OutcomeOk.execExit {hd x} (h : s.MemOk) : OutcomeOk (execExit hd x s) :=
  .next (.run h (.bind fun _ => .ite (.ite (.bindOk (.exitRelease (.checkHoistExit (.settleSplit (.modHoist (.ite (.leaveFrag
    (.setFrag h)) (.setFrag h)))))) fun _ ht => .ok (.openBarriers ht)) (.ok (.send (.ite (.ite (.leaveFrag (.setFrag h))
    (.setFrag h)) (.modHoist (.ite (.leaveFrag (.setFrag h)) (.setFrag h))))))) (.bind fun _ => .ite (.bindOk (.exitRelease
    (.checkHoistExit (.settleSplit (.modHoist (.ite (.leaveFrag (.setFrag h)) (.setFrag h)))))) fun _ ht => .ok (.openBarriers ht))
    (.ok (.send (.ite (.ite (.leaveFrag (.setFrag h)) (.setFrag h)) (.modHoist (.ite (.leaveFrag (.setFrag h)) (.setFrag h)))))))))

theorem OutcomeOk.execRaise {hd x} (h : s.MemOk) : OutcomeOk (execRaise hd x s) :=
  .next (.run h (.bind fun _ => .ite (.ok (.done h)) (.bind fun _ => .ok (.done (.ite (.modFrag (.modCast (.modHoist h))) (.modCast
    (.modHoist h)))))))

theorem State.MemOk.addRequest {gh ctx recPa} (h : s.MemOk) : (s.addRequest gh ctx recPa).MemOk := .modHearth h

theorem OutcomeOk.execPour {hd o} (h : s.MemOk) : OutcomeOk (execPour hd o s) :=
  .next (.run h (.bind fun _ => .bind fun _ => .bind fun _ => .bind fun _ => .bind fun _ => .bind fun _ => .bind fun _ => .ok (.done
    (.modFrag (.countUse (.ite (.addRequest h) (.send h)))))))

theorem State.MemOk.countHost {pkg ctr} (h : s.MemOk) : (s.countHost pkg ctr).MemOk := .modPkg h
theorem State.MemOk.hostError {pkg} (h : s.MemOk) : (s.hostError pkg).MemOk := .record (.countHost h)

theorem State.MemOk.launchWrite {pkg hearth word size} (h : s.MemOk) : (s.launchWrite pkg hearth word size).MemOk :=
  .ite h (.ite (.hostError h) (.ite (.postStatus h) (.modHearth h)))

theorem OutcomeOk.execSlotGrant {gh} (h : s.MemOk) : OutcomeOk (execSlotGrant gh s) := by
  dsimp only [Machine.execSlotGrant]
  refine .next ?_
  split
  · exact .ite (.startBoard h) (.pinBoard h)
  · split
    · exact .ite (.accept h) h
    · exact h

theorem State.MemOk.fillActive {gc part n} (h : s.MemOk) : (s.fillActive gc part n).MemOk := by
  induction n generalizing s with
  | zero => exact h
  | succ n ih =>
    unfold State.fillActive
    refine .ite (.setCore h) ?_
    split
    · exact ih (.setCore (.setCore h))
    · exact .setCore h

theorem State.MemOk.leaveActive {gc part} (h : s.MemOk) : (s.leaveActive gc part).MemOk := .modCore h

theorem State.MemOk.exchange {gc part} (h : s.MemOk) : (s.exchange gc part).MemOk := by
  dsimp only [State.exchange]
  split
  · exact .setCore h
  · exact h

theorem OutcomeOk.execPollBackoffExpiry {f} (h : s.MemOk) : OutcomeOk (execPollBackoffExpiry f s) := by
  dsimp only [Machine.execPollBackoffExpiry]
  refine .next ?_
  split
  · exact .ite (.setFrag (.noteReady h)) h
  · exact h

theorem OutcomeOk.execSleepExpiry {f} (h : s.MemOk) : OutcomeOk (execSleepExpiry f s) := by
  dsimp only [Machine.execSleepExpiry]
  refine .next ?_
  split
  · exact .ite (.setFrag (.noteReady h)) h
  · exact h

theorem OutcomeOk.execJoinComplete {f} (h : s.MemOk) : OutcomeOk (execJoinComplete f s) := by
  dsimp only [Machine.execJoinComplete]
  refine .next (.ite h ?_)
  split
  · exact .setFrag (.noteReady h)
  · exact .endHoist h

theorem State.MemOk.sendPennant {c} (h : s.MemOk) : (s.sendPennant c).MemOk :=
  .ite (.modCast h) (.foldl (.modCast h) fun _ _ ht => .send ht)

theorem OutcomeOk.execCastRetirement {cast} (h : s.MemOk) : OutcomeOk (execCastRetirement cast s) :=
  .next (.ite h (.settleCast (.ite (.send (.modPour (.setCastState (.modCast (.ite h (.sendPennant h)))))) (.modPour (.setCastState
    (.modCast (.ite h (.sendPennant h))))))))

theorem State.MemOk.freePour {p st} (h : s.MemOk) : (s.freePour p st).MemOk :=
  .setPour (.modHearth (.foldl h fun _ _ ht => .unpin ht))

theorem State.MemOk.postCompletion {p v} (h : s.MemOk) : (s.postCompletion p v).MemOk := by
  dsimp only [State.postCompletion]
  split
  · exact .postWrites h
  · exact h

theorem OutcomeOk.execPourCompletion {pour} (h : s.MemOk) : OutcomeOk (execPourCompletion pour s) := by
  dsimp only [Machine.execPourCompletion]
  refine .next ?_
  split
  · exact .ite (.modPour (.postStatus h)) h
  · exact .ite (.freePour (.postCompletion h)) h
  · exact .ite (.modPour (.postStatus h)) h
  · exact .ite (.freePour (.postCompletion h)) h
  · exact h

/-! ### Matrix instructions -/

theorem State.MemOk.acceptInst {c k op saved hk mate} (h : s.MemOk) : (s.acceptInst c k op saved hk mate).MemOk := .modCtx h
theorem State.MemOk.accepted {k op saved} (h : s.MemOk) : (i.accepted k op saved s).MemOk := .done (.acceptInst h)

theorem State.MemOk.acceptMac {c k pair op saved hk} (h : s.MemOk) : (s.acceptMac c k pair op saved hk).MemOk := by
  dsimp only [State.acceptMac]
  split
  · exact .acceptInst (.acceptInst h)
  · exact .acceptInst h

theorem State.MemOk.mac {hd o kind k pair first lsel ins} (h : i.s.MemOk) : (i.mac hd o kind k pair first lsel ins).MemOk :=
  .run h (.bind fun _ => .ite (.bind fun _ => .bind fun _ => .bind fun _ => .ok (.done (.acceptMac (.countUse h))))
    (.bind fun _ => .bind fun _ => .ok (.done (.acceptMac (.countUse h)))))

theorem OutcomeOk.execLutb {hd o signed lsel} (h : s.MemOk) : OutcomeOk (execLutb hd o signed lsel s) :=
  .next (.run h (.bind fun _ => .bind fun _ => .ok (.done (.countUse (.foldl h fun _ _ ht => .noteSpad (.modCast ht))))))

theorem OutcomeOk.execComp48 {hd o t hi} (h : s.MemOk) : OutcomeOk (execComp48 hd o t hi s) :=
  .next (.run h (.bind fun _ => .bind fun _ => .bind fun _ => .bind fun _ => .bind fun _ => .ok (.done (.write (.write h)))))

theorem OutcomeOk.execArd {hd o t ctx lsel} (h : s.MemOk) : OutcomeOk (execArd hd o t ctx lsel s) := by
  dsimp only [Machine.execArd]
  refine .next (.run h (.bind fun _ => ?_))
  split
  · exact .ok (.accepted (.modFrag (.countUse h)))
  · exact .ok (.done h)

theorem OutcomeOk.execAmrg {hd o ctx so lsel} (h : s.MemOk) : OutcomeOk (execAmrg hd o ctx so lsel s) := by
  dsimp only [Machine.execAmrg]
  refine .next (.run h (.bind fun _ => .bind fun _ => .bind fun _ => .bind fun _ => .bind fun _ => .bind fun _ => ?_))
  split
  · exact .error
  · split
    · exact .error
    · exact .bind fun _ => .bind fun _ => .bind fun _ => .ok (.accepted (.modFrag (.countUse h)))

theorem State.MemOk.bind {c k d j} (h : s.MemOk) : (s.bind c k d j).MemOk := .modCtx (.modCtx h)

theorem OutcomeOk.execMbind {hd o ctx pctx lsel} (h : s.MemOk) : OutcomeOk (execMbind hd o ctx pctx lsel s) :=
  .next (.run h (.bind fun _ => .ite (.ok (.done (.bind (.countUse h)))) (.ok (.modFrag (.countUse h)))))

theorem OutcomeOk.execMbindEffect {f} (h : s.MemOk) : OutcomeOk (execMbindEffect f s) := by
  dsimp only [Machine.execMbindEffect]
  refine .next (.ite h ?_)
  split
  · exact .bind (.setFrag (.noteReady h))
  · exact h

/-! ### The engines at work -/

theorem State.MemOk.postPayload {k pa ctx pass bs} (h : s.MemOk) : (s.postPayload k pa ctx pass bs).MemOk := .modCmd (.send h)
theorem State.MemOk.spadPayload {c ofs bs} (h : s.MemOk) : (s.spadPayload c ofs bs).MemOk := .noteSpad (.modCast h)
theorem State.MemOk.finishCmd {k status} (h : s.MemOk) : (s.finishCmd k status).MemOk := .modCmd h

theorem State.MemOk.beginSegment {k} (h : s.MemOk) : (s.beginSegment k).MemOk := by
  dsimp only [State.beginSegment]
  split
  · exact .finishCmd h
  · exact .ite (.setCmd h) (.askRead (.setCmd h))

theorem State.MemOk.writeSegment {k bs} (h : s.MemOk) : (s.writeSegment k bs).MemOk :=
  .finishPark (.modCmd (.ite (.spadPayload h) (.postPayload h)))

theorem OutcomeOk.execCopySegment {cmd} (h : s.MemOk) : OutcomeOk (execCopySegment cmd s) := by
  dsimp only [Machine.execCopySegment]
  refine .next (.ite h ?_)
  split
  · exact .ite h (.ite (.finishCmd h) (.ite h (.beginSegment h)))
  · exact .ite (.askRead h) (.writeSegment h)

theorem OutcomeOk.execBankResultWrite {cmd} (h : s.MemOk) : OutcomeOk (execBankResultWrite cmd s) := by
  dsimp only [Machine.execBankResultWrite]
  refine .next (.ite h (.ite (.ite h (.finishCmd (.spadPayload h))) ?_))
  split
  · exact .finishCmd h
  · exact .ite (.finishCmd (.modCmd (.postPayload h))) (.modCmd (.postPayload h))

theorem State.MemOk.failInstance {win inst} (h : s.MemOk) : (s.failInstance win inst).MemOk := .foldl h fun _ _ ht => .modWindow ht

theorem State.MemOk.contributeSegment {k bs} (h : s.MemOk) : (s.contributeSegment k bs).MemOk :=
  .modCmd (.foldl h fun _ _ ht => .contribute ht)

theorem State.MemOk.takeSegment {k bs} (h : s.MemOk) : (s.takeSegment k bs).MemOk := .modCmd (.ite (.contributeSegment h) (.setCmd h))

theorem State.MemOk.scatter {k} (h : s.MemOk) : (s.scatter k).MemOk := by
  dsimp only [State.scatter]
  split
  · exact h
  · exact .modCmd (.postPayload h)

theorem State.MemOk.deliver {k} (h : s.MemOk) : (s.deliver k).MemOk := by
  dsimp only [State.deliver]
  refine .ite (.finishCmd h) ?_
  split
  · exact .askRead h
  · exact .ite (.askRead h) (.modCmd (.postPayload h))

theorem State.MemOk.readSource {k} (h : s.MemOk) : (s.readSource k).MemOk := by
  dsimp only [State.readSource]
  split
  · exact .askRead h
  · exact .ite (.askRead h) (.takeSegment h)

theorem OutcomeOk.execCollectiveCompletion {cmd} (h : s.MemOk) : OutcomeOk (execCollectiveCompletion cmd s) := by
  dsimp only [Machine.execCollectiveCompletion]
  refine .next (.ite h ?_)
  split
  · exact .ite (.readSource (.ite (.failInstance h) h)) (.ite (.finishCmd (.ite (.failInstance h) h)) (.ite (.ite (.finishCmd (.ite
      (.failInstance h) h)) (.ite (.failInstance h) h)) (.ite (.ite (.modCmd (.ite (.failInstance h) h)) (.ite (.failInstance h) h))
      (.ite (.ite (.failInstance h) h) (.ite (.finishCmd (.ite (.failInstance h) h)) (.modCmd (.ite (.failInstance h) h)))))))
  · exact .ite (.deliver h) (.ite (.scatter h) (.ite (.finishCmd h) h))
  · exact h

theorem State.MemOk.landRound {win home ofs round flushed} (h : s.MemOk) : (s.landRound win home ofs round flushed).MemOk := by
  dsimp only [State.landRound]
  refine .foldl h fun _ _ ht => .ite ht ?_
  split
  · exact .ite (.failInstance (.modCmd ht)) (.modCmd ht)
  · exact ht

theorem State.MemOk.abandon {win} (h : s.MemOk) : (s.abandon win).MemOk := .foldl h fun _ _ ht => .ite (.failInstance ht) ht
theorem State.MemOk.engineError {c} (h : s.MemOk) : (s.engineError c).MemOk := .hearthRecord (.countHearth h)
theorem State.MemOk.endCmd {k} (h : s.MemOk) : (s.endCmd k).MemOk := .settleCast (.setCmd h)

theorem OutcomeOk.execEngineCompletion {cmd} (h : s.MemOk) : OutcomeOk (execEngineCompletion cmd s) := by
  dsimp only [Machine.execEngineCompletion]
  refine .next (.ite h (.ite (.modCmd ?_) (.endCmd ?_)))
  · split
    · exact .modCmd (.send (.ite (.engineError (.modCmd (.unpinCmd h))) (.modCmd (.unpinCmd h))))
    · exact .ite (.engineError (.modCmd (.unpinCmd h))) (.modCmd (.unpinCmd h))
  · split
    · exact .modCmd (.send (.ite (.engineError (.modCmd (.unpinCmd h))) (.modCmd (.unpinCmd h))))
    · exact .ite (.engineError (.modCmd (.unpinCmd h))) (.modCmd (.unpinCmd h))

/-! ### The array at work -/

theorem State.MemOk.startHeadInst {q} (h : s.MemOk) : (s.startHeadInst q).MemOk := by
  dsimp only [State.startHeadInst]
  split
  · exact h
  · exact .modCore (.modCtx h)

theorem State.MemOk.giveTurn {gc q} (h : s.MemOk) : (s.giveTurn gc q).MemOk := by
  dsimp only [State.giveTurn]
  split
  · exact .startHeadInst h
  · exact .ite (.startHeadInst (.startHeadInst h)) (.modCore h)

theorem State.MemOk.postMerge {gc c x r w so pages ticket} (h : s.MemOk) : (s.postMerge gc c x r w so pages ticket).MemOk :=
  .send (.foldl h fun _ _ ht => .send ht)

theorem State.MemOk.freeArray {gc q} (h : s.MemOk) : (s.freeArray gc q).MemOk := .modCore h

theorem State.MemOk.instEffect {q m} (h : s.MemOk) : (s.instEffect q m).MemOk := by
  dsimp only [State.instEffect]
  split
  · split
    · exact .ite (.modCtx (.modCtx h)) (.modCtx h)
    · exact .modCtx h
  · exact .modCtx h
  · exact .modCtx h
  · exact .noteSpad (.modCast h)
  · exact .ite h (.foldl (.modHoist h) fun _ _ ht => .ite ht (.ite (.modFrag ht) (.modFrag ht)))
  · exact h
  · exact h

theorem State.MemOk.afterRetire {q} (h : s.MemOk) : (s.afterRetire q).MemOk :=
  .settleCast (.admitResumed (.finishPark (.ite h (.retireFrees h))))

theorem OutcomeOk.execMatrixRetire {gc} (h : s.MemOk) : OutcomeOk (execMatrixRetire gc s) := by
  dsimp only [Machine.execMatrixRetire]
  refine .next ?_
  split
  · exact h
  · split
    · exact .freeArray h
    · refine .ite h ?_
      split
      · exact .freeArray (.modCtx (.postMerge h))
      · split
        · exact .afterRetire (.afterRetire (.freeArray (.freeArray (.popInst (.popInst (.instEffect h))))))
        · exact h
        · exact .afterRetire (.freeArray (.popInst (.instEffect h)))

theorem OutcomeOk.execAmrgRetire {gc ctx} (h : s.MemOk) : OutcomeOk (execAmrgRetire gc ctx s) := by
  dsimp only [Machine.execAmrgRetire]
  refine .next ?_
  split
  · exact .afterRetire (.popInst h)
  · exact h

/-! ### System instructions -/

theorem State.MemOk.runIf {ok body} (h : i.s.MemOk) (hb : BodyOk State.MemOk body) : (i.runIf ok body).MemOk :=
  .ite (.run h hb) (.illegal h)

theorem BodyOk.returnFrom {hd o tgt} (h : i.s.MemOk) : BodyOk State.MemOk (i.returnFrom hd o tgt) := by
  dsimp only [Ix.returnFrom]
  refine .bind fun _ => ?_
  split
  · exact .ok h
  · exact .bind fun _ => .ok (.modFrag (.countUse h))

theorem State.MemOk.takePark {c} (h : s.MemOk) : (s.takePark c).2.MemOk := .iteSnd (.modCast h) (.modCast h)

theorem State.MemOk.park (h : s.MemOk) : (i.park s).MemOk :=
  .ite (.ite (.parkGang (.takePark h)) (.takePark h)) (.modFrag (.post h))

theorem State.MemOk.parkAnswered {c f parks} (h : s.MemOk) : (s.parkAnswered c f parks).MemOk :=
  .ite (.parkGang (.modFrag (.noteReady h))) (.modFrag (.noteReady h))

theorem State.MemOk.dropTlb {ext sc a b} (h : s.MemOk) : (i.dropTlb s ext sc a b).MemOk := .others h

theorem State.MemOk.reissue {ext sc b} (h : s.MemOk) : (i.reissue s ext sc b).MemOk :=
  .foldl h fun _ _ ht => .ite (.modFrag (.noteReady ht)) ht

theorem OutcomeOk.execTlbinv {hd o ext sc} (h : s.MemOk) : OutcomeOk (execTlbinv hd o ext sc s) :=
  .next (.runIf h (.ite (.ok (.done h)) (.bind fun _ => .ite (.ok (.done (.reissue (.dropTlb (.countUse h))))) (.ok (.modFrag
    (.reissue (.dropTlb (.countUse h))))))))

theorem State.MemOk.dropIcache {ext sc a b} (h : s.MemOk) : (i.dropIcache s ext sc a b).MemOk := .others h

theorem OutcomeOk.execUnpark {hd o} (h : s.MemOk) : OutcomeOk (execUnpark hd o s) :=
  .next (.run h (.bind fun _ => .bind fun _ => .bind fun _ => .ok (.done (.modFrag (.post (.countUse h))))))

theorem OutcomeOk.execPreq {hd o resume all} (h : s.MemOk) : OutcomeOk (execPreq hd o resume all s) := by
  dsimp only [Machine.execPreq]
  refine .next (.runIf h (.bind fun _ => .bind fun _ => .bind fun _ => ?_))
  split
  · exact .bind fun _ => .ok (.done (.requestPreempt (.countUse h)))
  · exact .ok (.done (.requestPreempt (.countUse h)))

/-! ### Fragments on their way and packets as they are applied -/

theorem State.MemOk.traceFrag {f gh code} (h : s.MemOk) : (s.traceFrag f gh code).MemOk := .ite (.traceRecord h) h
theorem State.MemOk.noteRefused {p} (h : s.MemOk) : (s.noteRefused p).MemOk := .hearthRecord (.countHearth h)
theorem State.MemOk.settleAt {f gc slot} (h : s.MemOk) : (s.settleAt f gc slot).MemOk := .modCore (.modFrag h)

theorem State.MemOk.admitOn {f gc} (h : s.MemOk) : (s.admitOn f gc).MemOk := by
  dsimp only [State.admitOn]
  refine .ite (.settleAt h) ?_
  split
  · split
    · exact .settleAt (.setCore h)
    · exact h
  · exact h

theorem State.MemOk.parkFrag {f gh arrival anchor sender seq} (h : s.MemOk) : (s.parkFrag f gh arrival anchor sender seq).MemOk :=
  .traceFrag (.ite (.modHearth (.putIngot (.modFrag h))) (.putIngot (.modFrag h)))

theorem State.MemOk.takeIn {f gh bound sender seq} (h : s.MemOk) : (s.takeIn f gh bound sender seq).MemOk := by
  dsimp only [State.takeIn]
  refine .ite (.finishPark (.parkFrag h)) (.ite (.settleAt h) (.ite (.parkFrag h) ?_))
  split
  · exact .admitOn h
  · exact h

theorem State.MemOk.takeBack {f gc seq} (h : s.MemOk) : (s.takeBack f gc seq).MemOk :=
  .ite (.takeIn h) (.ite (.admitOn h) (.parkFrag h))

theorem State.MemOk.liveSet {x lsel} (h : s.MemOk) : (s.liveSet x lsel).2.2.2.MemOk := by
  dsimp only [State.liveSet]
  split
  · exact h
  · split
    · split
      · exact .countCore h
      · split
        · exact .countCore h
        · exact h
    · exact .countCore h

theorem State.MemOk.migrateFrag {f dest lsel anchor} (h : s.MemOk) : (s.migrateFrag f dest lsel anchor).MemOk :=
  .traceFrag (.send (.modCore (.setFrag (.modHoist (.liveSet h)))))

theorem OutcomeOk.execFragmentDeparture {f} (h : s.MemOk) : OutcomeOk (execFragmentDeparture f s) := by
  dsimp only [Machine.execFragmentDeparture]
  refine .next ?_
  split
  · exact .ite h (.ite (.askAcks (.setFrag h)) (.ite (.finishPark (.parkFrag (.numberImage (.modCore (.dropAllPins (.setFrag h))))))
      (.migrateFrag (.dropAllPins (.setFrag h)))))
  · exact h

theorem State.MemOk.landed {p f} (h : s.MemOk) : (s.landed p f).MemOk := .answer (.countRecv h)

theorem OutcomeOk.execIngotArrival {n} (h : s.MemOk) : OutcomeOk (execIngotArrival n s) := by
  dsimp only [Machine.execIngotArrival]
  refine .next ?_
  split
  · split
    · exact .ite (.landed (.dropPacket h)) (.ite (.takeBack (.modFrag (.landed (.noteRefused (.dropPacket h))))) (.ite (.ite h
        (.others (.countHearth h))) (.takeIn (.landed (.traceFrag (.dropPacket h))))))
    · exact h
  · exact h

theorem State.MemOk.poisonedEntry {pour gh pa} (h : s.MemOk) : (s.poisonedEntry pour gh pa).MemOk :=
  .beginKill (.record (.countHearth h))

theorem OutcomeOk.execParkedArrivalPlacement {gh} (h : s.MemOk) : OutcomeOk (execParkedArrivalPlacement gh s) := by
  dsimp only [Machine.execParkedArrivalPlacement]
  refine .next ?_
  split
  · split
    · exact .poisonedEntry h
    · exact .admitOn (.modHearth (.dropImages h))
  · exact h

theorem State.MemOk.acknowledge {p refused} (h : s.MemOk) : (s.acknowledge p refused).MemOk := .answer (.countRecv (.modHearth h))

/-- A posted packet applied: the state in which the packet is gone, or what its effect makes of it, with the answer to its source. -/
theorem State.MemOk.applyPosted {n f} (h : s.MemOk) (hf : ∀ p t, t.MemOk → SomeOk (f p t)) : (s.applyPosted n f).MemOk := by
  unfold State.applyPosted
  split
  · exact h
  · refine .ite h ?_
    next p _ =>
    have hd : (s.dropPacket n).MemOk := .dropPacket h
    have hs := hf p _ hd
    split
    · exact h
    next hr =>
      rw [hr] at hs
      cases hs with
      | some ht => exact .ite (.acknowledge (.noteRefused hd)) (.acknowledge ht)

theorem State.MemOk.barArrive {cast num w count sync} (h : s.MemOk) : (s.barArrive cast num w count sync).MemOk :=
  .ite (.openBarrier (.arriveBar h)) h

theorem State.MemOk.parkAsked {c f p} (h : s.MemOk) : (s.parkAsked c f p).MemOk := .answer (.takePark h)

theorem OutcomeOk.execPostedStore {n} (h : s.MemOk) : OutcomeOk (execPostedStore n s) := by
  dsimp only [Machine.execPostedStore]
  refine .next (.applyPosted h fun _ _ ht => ?_)
  split
  · exact .some (.applyWrites ht)
  · exact .some (.barArrive ht)
  · exact .ite .none (.some (.addRequest ht))
  · exact .some (.parkAsked ht)
  · exact .none

theorem OutcomeOk.execPostedReduction {n} (h : s.MemOk) : OutcomeOk (execPostedReduction n s) := by
  dsimp only [Machine.execPostedReduction]
  refine .next (.applyPosted h fun _ _ ht => ?_)
  split
  · exact .some (.applyReductions ht)
  · exact .some (.unpin ht)
  · exact .none

theorem State.MemOk.addWord {ctx pa v rel_} (h : s.MemOk) : (s.addWord ctx pa v rel_).MemOk := .applyWrites h

theorem OutcomeOk.execSignalAdd {n} (h : s.MemOk) : OutcomeOk (execSignalAdd n s) := by
  dsimp only [Machine.execSignalAdd]
  refine .next (.applyPosted h fun _ _ ht => ?_)
  split
  · exact .some (.addWord ht)
  · exact .none

theorem State.MemOk.applyPennant {pour cast gh} (h : s.MemOk) : (s.applyPennant pour cast gh).MemOk :=
  .ite h (.ite (.poisonedEntry h) (.ite (.releaseEntry (.rewrite h)) (.rewrite h)))

theorem OutcomeOk.execPennant {n} (h : s.MemOk) : OutcomeOk (execPennant n s) := by
  dsimp only [Machine.execPennant]
  refine .next (.applyPosted h fun _ _ ht => ?_)
  split
  · exact .some (.applyPennant ht)
  · exact .none

theorem OutcomeOk.execCastRelease {n} (h : s.MemOk) : OutcomeOk (execCastRelease n s) := by
  dsimp only [Machine.execCastRelease]
  refine .next (.applyPosted h fun _ _ ht => ?_)
  split
  · exact .some (.arriveOf ht)
  · exact .none

theorem OutcomeOk.execEngineCompletionWrite {n} (h : s.MemOk) : OutcomeOk (execEngineCompletionWrite n s) := by
  dsimp only [Machine.execEngineCompletionWrite]
  refine .next (.applyPosted h fun _ _ ht => ?_)
  split
  · exact .some (.addWord ht)
  · exact .some (.applyWrites ht)
  · exact .none

theorem OutcomeOk.execEngineCommand {n} (h : s.MemOk) : OutcomeOk (execEngineCommand n s) := by
  dsimp only [Machine.execEngineCommand]
  refine .next (.applyPosted h fun _ _ ht => ?_)
  split
  · exact .some (.ite (.modCmd ht) ht)
  · exact .none

theorem OutcomeOk.execExitNotice {n} (h : s.MemOk) : OutcomeOk (execExitNotice n s) := by
  dsimp only [Machine.execExitNotice]
  refine .next (.applyPosted h fun _ _ ht => ?_)
  split
  · exact .ite (.some (.openBarriers (.endHoist (.settleSplit (.modHoist ht))))) (.some ht)
  · exact .none

theorem State.MemOk.hostBytes {pa bytes ep} (h : s.MemOk) : (s.hostBytes pa bytes ep).MemOk :=
  .foldl h fun _ _ ht => .noteRelease (.writeMem ht)

theorem State.MemOk.hostPacket {pkg gh} (h : s.MemOk) : (s.hostPacket pkg gh).2.MemOk := .remember (.countSent (.bumpSeq h))

theorem OutcomeOk.execHostWrite {pkg pa bytes ep} (h : s.MemOk) : OutcomeOk (execHostWrite pkg pa bytes ep s) :=
  .next (.ite h (.ite (.hostError (.ite (.countHost h) h)) (.ite (.send (.ite (.countHost h) h)) (.acknowledge (.hostBytes (.remember
    (.countSent (.bumpSeq (.ite (.countHost h) h)))))))))

theorem State.MemOk.freeSignals {src tgt seq} (h : s.MemOk) : (s.freeSignals src tgt seq).MemOk :=
  .foldl (.others h) fun _ _ ht => .countLeft ht

theorem State.MemOk.refusedAt {src tgt seq addr frag} (h : s.MemOk) : (s.refusedAt src tgt seq addr frag).MemOk := by
  dsimp only [State.refusedAt]
  refine .ite ?_ (.foldl h fun _ _ ht => .ite ?_ ht)
  · split
    · exact .ite (.modFrag h) h
    · exact h
  · split
    · exact ht
    · exact .modCmd ht
    · exact .finishCmd ht

theorem State.MemOk.coreAck {src tgt seq refused} (h : s.MemOk) : (s.coreAck src tgt seq refused).MemOk :=
  .ite (.refusedAt (.freeSignals (.modCore h))) (.freeSignals (.modCore h))

theorem State.MemOk.sourceAck {src tgt seq refused} (h : s.MemOk) : (s.sourceAck src tgt seq refused).MemOk :=
  .ite (.coreAck h) (.others h)

theorem OutcomeOk.execAcknowledgement {n} (h : s.MemOk) : OutcomeOk (execAcknowledgement n s) := by
  dsimp only [Machine.execAcknowledgement]
  refine .next ?_
  split
  · split
    · exact .ite (.ite (.sourceAck (.countRecv (.dropPacket h))) (.countRecv (.dropPacket h))) (.others (.ite (.sourceAck (.countRecv
        (.dropPacket h))) (.countRecv (.dropPacket h))))
    · exact h
  · exact h

theorem State.MemOk.askAgain {src} (h : s.MemOk) : (s.askAgain src).MemOk := .ite (.modCore h) (.others h)

theorem OutcomeOk.execAcknowledgementRequest {n} (h : s.MemOk) : OutcomeOk (execAcknowledgementRequest n s) := by
  dsimp only [Machine.execAcknowledgementRequest]
  refine .next ?_
  split
  · split
    · exact .answer (.countRecv (.ite (.noteRefused (.dropPacket h)) (.dropPacket h)))
    · exact h
  · exact h

theorem OutcomeOk.execEngineRead {n} (h : s.MemOk) : OutcomeOk (execEngineRead n s) := by
  dsimp only [Machine.execEngineRead]
  refine .next ?_
  split
  · split
    · exact .ite (.modCmd (.noteRefused (.countRecv (.dropPacket h)))) (.answer (.countRecv (.dropPacket h)))
    · exact h
  · exact h

theorem OutcomeOk.execReadData {n} (h : s.MemOk) : OutcomeOk (execReadData n s) := by
  dsimp only [Machine.execReadData]
  refine .next ?_
  split
  · split
    · split
      · exact .setCmd (.countRecv (.dropPacket h))
      · exact .countRecv (.dropPacket h)
      · exact .countRecv (.dropPacket h)
      · exact .ite (.setCmd (.countRecv (.dropPacket h))) (.countRecv (.dropPacket h))
    · exact h
  · exact h

theorem OutcomeOk.execDrainRequest {n} (h : s.MemOk) : OutcomeOk (execDrainRequest n s) := by
  dsimp only [Machine.execDrainRequest]
  refine .next ?_
  split
  · split
    · exact .ite (.answer (.countRecv (.dropPacket h))) h
    · exact h
  · exact h

theorem OutcomeOk.execDrainAnswer {n} (h : s.MemOk) : OutcomeOk (execDrainAnswer n s) := by
  dsimp only [Machine.execDrainAnswer]
  refine .next ?_
  split
  · split
    · exact .ite (.modFrag (.noteReady (.countRecv (.dropPacket h)))) (.countRecv (.dropPacket h))
    · exact h
  · exact h

theorem OutcomeOk.execLanding {n} (h : s.MemOk) : OutcomeOk (execLanding n s) := by
  dsimp only [Machine.execLanding]
  refine .next ?_
  split
  · split
    · exact .countRecv (.dropPacket h)
    · exact .ite (.parkAnswered (.countRecv (.dropPacket h))) (.countRecv (.dropPacket h))
    · exact .passAway (.countRecv (.dropPacket h))
    · exact h
  · exact h

theorem OutcomeOk.execStallHintRaise {gc switch out} (h : s.MemOk) : OutcomeOk (execStallHintRaise gc switch out s) := by
  dsimp only [Machine.execStallHintRaise]
  refine .next ?_
  split
  · exact .answer h
  · exact h

theorem OutcomeOk.execStallHint {n} (h : s.MemOk) : OutcomeOk (execStallHint n s) := by
  dsimp only [Machine.execStallHint]
  refine .next ?_
  split
  · split
    · exact .modCore (.countRecv (.dropPacket h))
    · exact h
  · exact h

theorem OutcomeOk.execTlbWalkComplete {gh ctx vpage} (h : s.MemOk) : OutcomeOk (execTlbWalkComplete gh ctx vpage s) := by
  dsimp only [Machine.execTlbWalkComplete]
  refine .next (.ite h (.foldl (.modHearth h) fun _ _ ht => .modFrag ?_))
  split
  · exact .modCore (.noteReady ht)
  · exact .noteReady ht

theorem State.MemOk.unpark {p index} (h : s.MemOk) : (s.unpark p index).MemOk :=
  .ite (.ite (.ite (.modCast (.modCast h)) (.requeueGang (.modCast h))) (.modCast h)) (.modCast h)

theorem OutcomeOk.execUnparkApply {n} (h : s.MemOk) : OutcomeOk (execUnparkApply n s) := by
  dsimp only [Machine.execUnparkApply]
  refine .next (.applyPosted h fun _ _ ht => ?_)
  split
  · split
    · exact .ite (.some (.unpark ht)) (.some ht)
    · exact .some ht
  · exact .none

theorem OutcomeOk.execKillApply {n} (h : s.MemOk) : OutcomeOk (execKillApply n s) := by
  dsimp only [Machine.execKillApply]
  refine .next (.applyPosted h fun _ _ ht => ?_)
  split
  · split
    · exact .ite (.some (.beginKill (.modHearth ht))) (.some (.modHearth ht))
    · exact .some (.modHearth ht)
  · exact .none

/-! ### Rounds of reduction windows -/

theorem State.MemOk.passFlushed {pkg pos r v} (h : s.MemOk) : (s.passFlushed pkg pos r v).MemOk :=
  .ite (.windowEvent h) (.flushRound h)

theorem State.MemOk.takeElem {pkg pos win home port valid replace flushed e} (h : s.MemOk) :
    (s.takeElem pkg pos win home port valid replace flushed e).MemOk :=
  .ite (.joinRound h) (.passFlushed h)

theorem OutcomeOk.execContribution {n} (h : s.MemOk) : OutcomeOk (execContribution n s) := by
  dsimp only [Machine.execContribution]
  refine .next ?_
  split
  · split
    · exact .ite (.windowEvent (.countRecv (.dropPacket h))) (.ite h (.foldl (.countRecv (.dropPacket h)) fun _ _ ht => .takeElem ht))
    · exact h
  · exact h

theorem OutcomeOk.execMergedResult {n} (h : s.MemOk) : OutcomeOk (execMergedResult n s) := by
  dsimp only [Machine.execMergedResult]
  refine .next ?_
  split
  · split
    · exact .ite (.answer (.windowEvent (.countRecv (.dropPacket h)))) (.ite h (.answer (.landRound (.ite (.noteRefused (.modWindow
        (.countRecv (.dropPacket h)))) (.applyWrites (.modWindow (.countRecv (.dropPacket h))))))))
    · exact h
  · exact h

theorem OutcomeOk.execWflushExpiry {pkg switch win elt} (h : s.MemOk) : OutcomeOk (execWflushExpiry pkg switch win elt s) := by
  dsimp only [Machine.execWflushExpiry]
  refine .next ?_
  split
  · exact .ite (.flushRound h) h
  · exact .abandon h

theorem State.MemOk.countLink {pkg bundle ctr} (h : s.MemOk) : (s.countLink pkg bundle ctr).MemOk := .modPkg h
theorem State.MemOk.losePacket {n p} (h : s.MemOk) : (s.losePacket n p).MemOk := .others h

theorem OutcomeOk.execFlitCrcFailure {n eighth link unit} (h : s.MemOk) : OutcomeOk (execFlitCrcFailure n eighth link unit s) := by
  dsimp only [Machine.execFlitCrcFailure]
  refine .next ?_
  split
  · exact .ite h (.ite (.ite (.countLink (.others (.ite (.countLink h) h))) (.countSwitch (.others (.ite (.countLink h) h))))
      (.record (.losePacket (.ite (.countLink (.ite (.countLink h) h)) (.countSwitch (.ite (.countLink h) h))))))
  · exact h

theorem State.MemOk.badHeader {n sw} (h : s.MemOk) : (s.badHeader n sw).MemOk := by
  dsimp only [State.badHeader]
  split
  · exact .ite h (.record (.losePacket (.countSwitch h)))
  · exact h

theorem State.MemOk.imbalanceRecord {pkg ctx ts} (h : s.MemOk) : (s.imbalanceRecord pkg ctx ts).MemOk := .hearthRecord h
theorem State.MemOk.retireRoutes (h : s.MemOk) : (s.retireRoutes).MemOk := .others h

theorem State.MemOk.sweepRoutes (h : s.MemOk) : (s.sweepRoutes).MemOk :=
  .ite (.ite (.others (.retireRoutes (.others h))) (.others h)) h

theorem OutcomeOk.execSweep {pkg ctx domain} (h : s.MemOk) : OutcomeOk (execSweep pkg ctx domain s) :=
  .next (.ite h (.ite (.sweepRoutes (.ite (.imbalanceRecord (.modPkg h)) (.modPkg h))) (.ite (.imbalanceRecord (.modPkg h))
    (.modPkg h))))

theorem State.MemOk.giveUpRead {k} (h : s.MemOk) : (s.giveUpRead k).MemOk := .modCmd h

theorem State.MemOk.skipPosted {p} (h : s.MemOk) : (s.skipPosted p).MemOk :=
  .ite (.countHearth (.ite (.modHearth h) h)) (.ite (.modHearth h) h)

theorem State.MemOk.skipLost {p} (h : s.MemOk) : (s.skipLost p).MemOk := by
  dsimp only [State.skipLost]
  split
  · exact .countHearth (.setFrag (.countRecv h))
  · exact .countHearth (.modWindow (.countRecv h))
  · exact .countHearth (.giveUpRead (.countRecv h))
  · exact .giveUpRead (.countRecv h)
  · exact .countHearth (.countRecv h)
  · exact .modFrag (.countRecv h)
  · exact .skipPosted (.modFrag (.countRecv h))
  · exact .ite (.skipPosted (.countRecv h)) (.countRecv h)

theorem OutcomeOk.execInjectionFlip {source} (h : s.MemOk) : OutcomeOk (execInjectionFlip source s) := by
  dsimp only [Machine.execInjectionFlip]
  refine .next ?_
  split
  · exact .ite h (.leaveNow (.modPkg h))
  · exact h

/-! ### Bellows -/

theorem State.MemOk.modBellows {pkg f} (h : s.MemOk) : (s.modBellows pkg f).MemOk := .modPkg h

theorem State.MemOk.ballastClock {pkg} (h : s.MemOk) : (s.ballastClock pkg).MemOk :=
  .ite h (.ite (.ite (.modBellows h) h) (.foldl (.ite (.modBellows h) h) fun _ _ ht => .ite (.modCore ht) (.modBellows
    (.modCore ht))))

theorem State.MemOk.plainClocks {n} (h : s.MemOk) : (s.plainClocks n).MemOk := .others h

theorem State.MemOk.ballastClocks {n} (h : s.MemOk) : (s.ballastClocks n).MemOk := by
  induction n generalizing s with
  | zero => exact h
  | succ n ih => exact ih (.plainClocks (.foldl h fun _ _ ht => .ballastClock ht))

theorem State.MemOk.passClocks {n} (h : s.MemOk) : (s.passClocks n).MemOk := .ite (.ballastClocks h) (.plainClocks h)
theorem State.MemOk.countBytes {gc n} (h : s.MemOk) : (s.countBytes gc n).MemOk := .ite h (.modCore h)
theorem State.MemOk.countFlits {gc n} (h : s.MemOk) : (s.countFlits gc n).MemOk := .ite h (.modCore h)

theorem State.MemOk.meter {old} (h : s.MemOk) : (s.meter old).MemOk :=
  .foldl (.foldl h fun _ _ ht => .countFlits ht) fun _ _ ht => .ite (.countBytes (.ite (.countFlits ht) ht)) (.ite
    (.countFlits ht) ht)

theorem State.MemOk.carryOut {a} (h : s.MemOk) : (s.carryOut a).MemOk := by
  unfold State.carryOut
  split
  · split
    · exact .poisonedEntry h
    · exact SomeOk.getD (.startHead h) h
  · exact .modCore h

theorem State.MemOk.admitAsk {pkg g a} (h : s.MemOk) : (s.admitAsk pkg g a).MemOk := .carryOut (.modBellows h)

theorem State.MemOk.admitAll {pkg n} (h : s.MemOk) : (s.admitAll pkg n).MemOk := by
  induction n generalizing s with
  | zero => exact h
  | succ n ih =>
    unfold State.admitAll
    split
    · split
      · exact ih (.admitAsk h)
      · exact h
    · exact h

theorem OutcomeOk.execCastStart {gh} (h : s.MemOk) : OutcomeOk (execCastStart gh s) := by
  dsimp only [Machine.execCastStart]
  refine .next ?_
  split
  · split
    · exact .admitAsk h
    · exact h
  · exact .makePlace h

theorem OutcomeOk.execMatrixStart {gc} (h : s.MemOk) : OutcomeOk (execMatrixStart gc s) := by
  dsimp only [Machine.execMatrixStart]
  refine .next ?_
  split
  · refine .ite ?_ (.giveTurn h)
    split
    · exact .giveTurn (.admitAsk h)
    · exact h
  · exact h

theorem OutcomeOk.execBallastAdmit {pkg} (h : s.MemOk) : OutcomeOk (execBallastAdmit pkg s) := by
  dsimp only [Machine.execBallastAdmit]
  refine .next ?_
  split
  · exact .ite (.admitAsk h) h
  · exact h

theorem OutcomeOk.execPinnedAdmit {pkg} (h : s.MemOk) : OutcomeOk (execPinnedAdmit pkg s) := by
  dsimp only [Machine.execPinnedAdmit]
  refine .next ?_
  split
  · exact .admitAsk h
  · exact h

theorem State.MemOk.rampFault {pkg pour casts} (h : s.MemOk) : (s.rampFault pkg pour casts).MemOk := by
  dsimp only [State.rampFault]
  split
  · split
    · exact .modFrag (.modPour (.modBellows h))
    · exact .modPour (.modBellows h)
  · exact .modPour (.modBellows h)

theorem State.MemOk.markWaited {pkg} (h : s.MemOk) : (s.markWaited pkg).MemOk := by
  dsimp only [State.markWaited]
  refine .foldl (.foldl h fun _ _ ht => .ite (.modCore ht) ht) fun _ _ ht => ?_
  split
  · exact .modHearth ht
  · exact .modCore ht

theorem OutcomeOk.execBellowsWindowEnd {pkg} (h : s.MemOk) : OutcomeOk (execBellowsWindowEnd pkg s) := by
  unfold Machine.execBellowsWindowEnd
  extract_lets b cs s1 head b' late s2 s3 s4
  have h2 : s2.MemOk := .modBellows (.markWaited h)
  have h3 : s3.MemOk := .ite (.foldl h2 fun _ _ ht => .ite ht (.rampFault ht)) h2
  have h4 : s4.MemOk := .foldl h3 fun _ _ ht => .modCore ht
  exact .next (.ite (.admitAll h4) h)

/-! ### Pre-emption -/

theorem State.MemOk.putBytes {pa bs} (h : s.MemOk) : (s.putBytes pa bs).MemOk := .foldl h fun _ _ ht => .writeMem ht

theorem State.MemOk.writeDump {pkg} (h : s.MemOk) : (s.writeDump pkg).MemOk := by
  unfold State.writeDump
  exact .modPkg (.putBytes h)

theorem State.MemOk.markSaved {pkg m v} (h : s.MemOk) : (s.markSaved pkg m v).MemOk := .foldl h fun _ _ ht => .writeMem ht
theorem State.MemOk.parkVisitors {pkg m} (h : s.MemOk) : (s.parkVisitors pkg m).MemOk := .others (.foldl h fun _ _ ht => .modFrag ht)

theorem State.MemOk.beginSave {pkg fresh} (h : s.MemOk) : (s.beginSave pkg fresh).MemOk :=
  .parkVisitors (.foldl (.modPkg h) fun _ _ ht => .ite ht (.beginPark ht))

theorem State.MemOk.putEngines {pkg ctxs} (h : s.MemOk) : (s.putEngines pkg ctxs).MemOk :=
  .foldl h fun _ _ ht => .foldl ht fun _ _ ht => .foldl ht fun _ _ ht => .ite ht (.putImage ht)

theorem State.MemOk.dropEngines {pkg m} (h : s.MemOk) : (s.dropEngines pkg m).MemOk := .foldl h fun _ _ ht => .dropImages ht

theorem OutcomeOk.execPreemptSave {pkg} (h : s.MemOk) : OutcomeOk (execPreemptSave pkg s) := by
  dsimp only [Machine.execPreemptSave]
  refine .next ?_
  split
  · exact .ite h (.ite (.ite (.modPkg (.putEngines (.markSaved h))) h) (.ite (.modPkg h) (.beginSave h)))
  · exact h

theorem State.MemOk.releaseParked {c} (h : s.MemOk) : (s.releaseParked c).MemOk := .requeueGang (.modCast h)
theorem State.MemOk.admitVisitors {pkg m} (h : s.MemOk) : (s.admitVisitors pkg m).MemOk := .foldl h fun _ _ ht => .readmit ht

theorem OutcomeOk.execPreemptResume {pkg} (h : s.MemOk) : OutcomeOk (execPreemptResume pkg s) := by
  dsimp only [Machine.execPreemptResume]
  refine .next ?_
  split
  · exact .ite h (.admitVisitors (.foldl (.modPkg (.dropEngines (.markSaved h))) fun _ _ ht => .releaseParked ht))
  · exact h

theorem OutcomeOk.execPreemptCompletion {pkg} (h : s.MemOk) : OutcomeOk (execPreemptCompletion pkg s) := by
  dsimp only [Machine.execPreemptCompletion]
  refine .next ?_
  split
  · refine .ite (.writeDump ?_) ?_
    · split
      · exact .postWrites (.modPkg h)
      · exact .modPkg h
    · split
      · exact .postWrites (.modPkg h)
      · exact .modPkg h
  · exact h

/-! ### Errors and bring-up -/

theorem State.MemOk.packageFatal {pkg cls cnt} (h : s.MemOk) : (s.packageFatal pkg cls cnt).MemOk :=
  .ite (.ite (.modPkg (.record h)) (.record h)) h

theorem State.MemOk.linkUp {pkg} (h : s.MemOk) : (s.linkUp pkg).MemOk := .ite (.modPkg h) h

theorem State.MemOk.dramError {pa lost fast} (h : s.MemOk) : (s.dramError pa lost fast).MemOk :=
  .ite h (.ite (.ite (.modHearth (.record (.countHearth h))) (.countHearth h)) (.ite (.packageFatal (.record (.countHearth
    (.foldl h fun _ _ ht => .setMark ht)))) (.record (.countHearth (.foldl h fun _ _ ht => .setMark ht)))))

theorem State.MemOk.sramEvent {gc lost fast} (h : s.MemOk) : (s.sramEvent gc lost fast).MemOk :=
  .ite (.record (.countCore h)) (.ite (.modCore (.record (.countCore h))) (.countCore h))

theorem State.MemOk.softError {w lost fast} (h : s.MemOk) : (s.softError w lost fast).MemOk := by
  dsimp only [State.softError]
  split
  · exact .dramError h
  · exact .ite h (.sramEvent (.ite (.modCast h) h))
  · split
    · exact .ite h (.sramEvent (.ite (.modHoist h) h))
    · exact h
  · exact .ite h (.sramEvent (.ite (.setFrag h) h))
  · exact .ite h (.sramEvent (.ite (.modCtx h) h))
  · split
    · exact .ite h (.sramEvent (.ite (.modHoist h) h))
    · exact h
  · split
    · exact .ite h (.sramEvent (.ite (.modHoist h) h))
    · exact h
  · exact .ite h (.sramEvent (.ite (.modCore h) h))
  · exact .ite h (.sramEvent (.ite (.modCore h) h))

theorem OutcomeOk.execScrub {gh bad fast} (h : s.MemOk) : OutcomeOk (execScrub gh bad fast s) := by
  dsimp only [Machine.execScrub]
  refine .next (.ite h (.modHearth ?_))
  split
  · exact .dramError h
  · exact h

theorem State.MemOk.zeroDram {pkg first} (h : s.MemOk) : (s.zeroDram pkg first).MemOk := memOk_zeroDram s pkg first h

theorem State.MemOk.resetPkg {pkg warm} (h : s.MemOk) : (s.resetPkg pkg warm).MemOk :=
  .ite (.modPkg (.others h)) (.zeroDram (.modPkg (.others h)))

theorem State.MemOk.dbEnd {pkg r} (h : s.MemOk) : (s.dbEnd pkg r).MemOk := .modPkg h

theorem State.MemOk.doorbell {pkg f} (h : s.MemOk) (hf : ∀ t, t.MemOk → (f t).MemOk) : (s.doorbell pkg f).MemOk :=
  .ite h (.ite (.hostError h) (hf _ h))

theorem State.MemOk.placeImage {pkg image} (h : s.MemOk) : (s.placeImage pkg image).MemOk := .putBytes (.zeroDram h)
theorem State.MemOk.loadImage {pkg} (h : s.MemOk) : (s.loadImage pkg).MemOk := .ite (.dbEnd h) (.ite (.dbEnd h) (.modPkg h))

theorem State.MemOk.verifyImage {pkg} (h : s.MemOk) : (s.verifyImage pkg).MemOk := by
  dsimp only [State.verifyImage]
  split
  · exact .dbEnd (.modPkg (.placeImage h))
  · exact .dbEnd (.modPkg h)

theorem State.MemOk.applyConfig {pkg} (h : s.MemOk) : (s.applyConfig pkg).MemOk :=
  .ite (.dbEnd h) (.ite (.dbEnd h) (.ite (.modPkg h) (.ite h (.ite (.dbEnd (.modPkg h)) (.dbEnd h)))))

theorem State.MemOk.copyDump {pkg} (h : s.MemOk) : (s.copyDump pkg).MemOk :=
  .ite (.modPkg h) (.ite (.dbEnd h) (.ite (.dbEnd h) (.dbEnd (.putBytes h))))

theorem State.MemOk.attest {pkg} (h : s.MemOk) : (s.attest pkg).MemOk := by
  dsimp only [State.attest]
  split
  · exact .dbEnd h
  · exact .ite (.dbEnd h) (.dbEnd (.modPkg (.putBytes h)))

theorem OutcomeOk.execHostRegisterWrite {pkg offset value size} (h : s.MemOk) : OutcomeOk
    (execHostRegisterWrite pkg offset value size s) := by
  dsimp only [Machine.execHostRegisterWrite]
  refine .next (.ite h (.ite (.modPkg h) (.ite (.modPkg h) (.ite (.modPkg h) (.ite (.modPkg h) (.ite (.modPkg h) (.ite ?_ (.ite
    (.launchWrite h) (.hostError h)))))))))
  split
  · exact .doorbell h fun _ ht => .loadImage ht
  · exact .doorbell h fun _ ht => .applyConfig ht
  · exact .doorbell h fun _ ht => .copyDump ht
  · exact .doorbell h fun _ ht => .attest ht
  · exact .doorbell h fun _ ht => .resetPkg ht
  · exact .doorbell h fun _ ht => .resetPkg ht
  · exact .hostError h

/-! ### Every instruction and event -/

theorem OutcomeOk.exec {n} (h : s.MemOk) : OutcomeOk (exec n s) := by
  unfold Machine.exec
  cases n with
  | idot4 | bool3 | funnel | bfe | bfi | lea | fldexp | cvt | pack8 | unpack8 | hash32 => exact .next (.alu h)
  | iadd | isub | imin | imax | imul24 | imul | imulhi => exact .next (.intOp2 h)
  | sel | rdlane | pmask | scan | lfold | unpack4 | bscale => exact .next (.run h (.bind fun _ => .bind fun _ => .bind fun _ => .ok
    (.finish h)))
  | frcp | frsq | fexp2 | flog2 | fsin | fcos | ftanh => exact .next (.approxOp h)
  | and | or | xor | not | andn | brev => exact .next (.logic2 h)
  | fadd | fsub | fmul | ffma | fsqrt | fdiv => exact .next (.roundedOp h)
  | imad24 | imad | isad | iclamp => exact .next (.intOp3 h)
  | shl | shr | sar | rotl => exact .next (.shift32 h)
  | add64 | sub64 | shl64 | shr64 => exact .next (.wideOp h)
  | hoistReady | waitaWake | pourwWake | amrgTicketReady => exact .next (.ite (.setFrag (.noteReady h)) h)
  | popc | clz | ctz => exact .next (.countOp h)
  | icmp | icmp64 | fcmp => exact .next (.compare h)
  | xlane | bfly | matchKeys => exact .next (.run h (.bind fun _ => .bind fun _ => .bind fun _ => .ok (.finish2 h)))
  | fmin | fmax | frnd => exact .next (.floatOp h)
  | pkadd | pkmul | pkfma => exact .next (.packedRounded h)
  | mma | mmas | mmal => exact .next (.mac h)
  | cpy | bkop | coll => exact .next (.command h)
  | auxRailOn | powerRailsOn | perstRelease => exact .next (.ite (.modPkg h) h)
  | iaddc | isubb => exact .next (.carryOp h)
  | ineg | iabs => exact .next (.intOp1 h)
  | pbool | ltest => exact .next (.run (.part h) (.bind fun _ => .ok (.done (.countUse (.writePct (.part h))))))
  | wrlane | qstat => exact .next (.run h (.bind fun _ => .bind fun _ => .ok (.finish h)))
  | pkmin | pkmax => exact .next (.packedOp h)
  | fdot2 | fdot4 => exact .next (.dotOp h)
  | alds | asts => exact .next (.run h (.bind fun _ => .bind fun _ => .ok (.accepted (.countUse h))))
  | st | stx => exact .next (.store h)
  | trap | bkpt => exact .next (.run h .error)
  | doorbellWarmReset | doorbellColdReset => exact .next (.doorbell h fun _ ht => .resetPkg ht)
  | thermal | controlCheck => exact .next (.packageFatal h)
  | mov => exact .execMov h
  | movi => exact .execMovi h
  | pmov => exact .execPmov h
  | movs => exact .ite (.next (.illegal h)) (.next (.run h (.bind fun _ => .bind fun _ => .ok (.finish h))))
  | fclass => exact .ite (.next (.alu h)) (.next (.compare h))
  | pkcmp => exact .next (.run h (.bind fun _ => .ok (.done (.countUse (.writePred (.writePred h))))))
  | pack4 => exact .execPack4 h
  | lutb => exact .execLutb h
  | comp48 => exact .execComp48 h
  | aclr => exact .next (.run h (.bind fun _ => .ok (.accepted h)))
  | amrg => exact .execAmrg h
  | mbind => exact .execMbind h
  | mfree => exact .next (.run h (.bind fun _ => .ok (.retireFrees (.accepted h))))
  | mwait => exact .next (.run h (.bind fun _ => .bind fun _ => .ok (.done h)))
  | ard => exact .execArd h
  | ld => exact .next (.visit h fun _ _ _ _ ht => .pend (.countUse ht))
  | lds => exact .next (.spad h fun _ _ _ _ ht => .pend (.countUse ht))
  | sts => exact .next (.spad h fun _ _ _ _ ht => .modCast ht)
  | ldx => exact .execLdx h
  | atom => exact .execAtom h
  | atoms => exact .next (.spad h fun _ _ _ _ ht => .pend (.countUse (.foldlFst ht fun _ _ ht => .modCast ht)))
  | red => exact .next (.reduce h)
  | cas => exact .execCas h
  | fence => exact .next (.run h (.bind fun _ => .ok (.done (.modFrag h))))
  | waita => exact .next (.visit h fun _ _ _ _ ht => .iteFst ht (.writePred (.write (.countUse ht))))
  | poll => exact .next (.visit h fun _ _ _ _ ht => .modFrag (.writePred (.write (.countUse ht))))
  | home => exact .execHome h
  | go => exact .next (.visit h fun _ _ _ _ ht => ht)
  | goAnchor => exact .next (.run h (.bind fun _ => .ok (.doneFor h)))
  | puts => exact .next (.puts h)
  | enq => exact .execEnq h
  | enqBind => exact .next (.run h (.bind fun _ => .bind fun _ => .ok (.done (.countUse (.modCast h)))))
  | deq => exact .execDeq h
  | bra => exact .next (.run h (.bind fun _ => .bind fun _ => .bind fun _ => .ok (.modFrag h)))
  | brx => exact .execBrx h
  | call => exact .next (.run h (.callTo h))
  | callx => exact .next (.run h (.bind fun _ => .bindOk (.callTo h) fun _ ht => .ok (.countUse ht)))
  | ret => exact .execRet h
  | loop => exact .execLoop h
  | rep => exact .execRep h
  | join => exact .execJoin h
  | leave => exact .next (.run h (.bind fun _ => .ok (.done (.setMask h))))
  | waitm => exact .next (.run h (.bind fun _ => .bind fun _ => .bind fun _ => .ok (.done h)))
  | mset => exact .next (.run h (.bind fun _ => .bind fun _ => .ok (.done (.countUse (.setMask h)))))
  | emset => exact .execEmset h
  | bar => exact .execBar h
  | yield => exact .next (.run h (.ok (.done (.modCore h))))
  | exit => exact .execExit h
  | raise => exact .execRaise h
  | pour => exact .execPour h
  | pourw => exact .next (.visit h fun _ _ _ _ ht => .iteFst (.write ht) ht)
  | nop => exact .next (.done h)
  | sleep => exact .next (.run h (.bind fun _ => .ok (.ite (.done (.countUse h)) (.modFrag (.done (.countUse h))))))
  | movspRead => exact .next (.runIf h (.bind fun _ => .ok (.finish h)))
  | movspWrite => exact .next (.runIf h (.bind fun _ => .ok (.done (.modFrag (.countUse h)))))
  | rft => exact .next (.runIf h (.returnFrom h))
  | tlbinv => exact .execTlbinv h
  | icinv => exact .next (.runIf h (.bind fun _ => .ok (.done (.dropIcache (.countUse h)))))
  | park => exact .next (.run h (.bind fun _ => .ok (.park (.done h))))
  | unpark => exact .execUnpark h
  | govset => exact .next (.runIf h (.bind fun _ => .bind fun _ => .ok (.done (.write (.modPkg (.countUse h))))))
  | errrd => exact .next (.runIf h (.bind fun _ => .bind fun _ => .ok (.done (.write (.countUse h)))))
  | halt => exact .next (.runIf h (.bindOk (.returnFrom h) fun _ ht => .ok (.park ht)))
  | preq => exact .execPreq h
  | kill => exact .next (.runIf h (.bind fun _ => .bind fun _ => .ok (.done (.post (.countUse h)))))
  | fragmentDeparture => exact .execFragmentDeparture h
  | ingotArrival => exact .execIngotArrival h
  | parkedArrivalPlacement => exact .execParkedArrivalPlacement h
  | holdRelease => exact .next (.ite (.ite (.setFrag h) (.setFrag (.noteReady h))) h)
  | postedStore => exact .execPostedStore h
  | postedReduction => exact .execPostedReduction h
  | signalAdd => exact .execSignalAdd h
  | pennant => exact .execPennant h
  | castRelease => exact .execCastRelease h
  | engineCompletionWrite => exact .execEngineCompletionWrite h
  | engineCommand => exact .execEngineCommand h
  | hostWrite => exact .execHostWrite h
  | exitNotice => exact .execExitNotice h
  | engineRead => exact .execEngineRead h
  | drainRequest => exact .execDrainRequest h
  | acknowledgement => exact .execAcknowledgement h
  | readData => exact .execReadData h
  | drainAnswer => exact .execDrainAnswer h
  | stallHint => exact .execStallHint h
  | landing => exact .execLanding h
  | acknowledgementRequest => exact .execAcknowledgementRequest h
  | contribution => exact .execContribution h
  | mergedResult => exact .execMergedResult h
  | ackTimeout => exact .next (.foldl (.askAgain h) fun _ _ ht => .ite ht (.answer ht))
  | flitCrcFailure => exact .execFlitCrcFailure h
  | stallHintRaise => exact .execStallHintRaise h
  | stallHintLapse => exact .next (.modCore h)
  | wflushExpiry => exact .execWflushExpiry h
  | windowTreeFreed => exact .next (.ite (.modWindow h) h)
  | sweep => exact .execSweep h
  | contextFatal => exact .next (.ite (.requestPreempt (.modPkg (.foldl (.others h) fun _ _ ht => .skipLost ht))) h)
  | routeUpdate => exact .next (.ite h (.others h))
  | injectionFlip => exact .execInjectionFlip h
  | launch => exact .next (.launchWrite h)
  | slotGrant => exact .execSlotGrant h
  | castStart => exact .execCastStart h
  | quantumExpiry => exact .next (.ite (.makePlace (.others (.modCast h))) h)
  | activeSetExchange => exact .next (.exchange h)
  | pollBackoffExpiry => exact .execPollBackoffExpiry h
  | sleepExpiry => exact .execSleepExpiry h
  | joinComplete => exact .execJoinComplete h
  | barrierOpen => exact .next (.openBarrier h)
  | loopEndTest => exact .next (.ite (.setFrag h) h)
  | castRetirement => exact .execCastRetirement h
  | earlyPennant => exact .next (.ite (.setCastState (.sendPennant h)) h)
  | pourCompletion => exact .execPourCompletion h
  | unparkApply => exact .execUnparkApply h
  | killApply => exact .execKillApply h
  | matrixStart => exact .execMatrixStart h
  | matrixRetire => exact .execMatrixRetire h
  | mbindEffect => exact .execMbindEffect h
  | amrgRetire => exact .execAmrgRetire h
  | engineCommandTake => exact .execEngineCommandTake h
  | copySegment => exact .execCopySegment h
  | bankRowStep => exact .next (.ite h (.ite (.answer (.setCmd h)) (.setCmd h)))
  | bankResultWrite => exact .execBankResultWrite h
  | engineCompletion => exact .execEngineCompletion h
  | feedPush => exact .next (.ite h (.ite (.endCmd (.engineError h)) (.ite h (.endCmd (.pushQueue h)))))
  | collectiveCompletion => exact .execCollectiveCompletion h
  | tlbWalkComplete => exact .execTlbWalkComplete h
  | pinRetry => exact .next (.ite (.pinCmd h) h)
  | bellowsWindowEnd => exact .execBellowsWindowEnd h
  | ballastAdmit => exact .execBallastAdmit h
  | pinnedAdmit => exact .execPinnedAdmit h
  | preemptSave => exact .execPreemptSave h
  | preemptResume => exact .execPreemptResume h
  | preemptCompletion => exact .execPreemptCompletion h
  | fwpreq => exact .next (.ite (.fwRequest h) h)
  | windowDeclare => exact .next (.ite h (.declareWindow h))
  | windowClear => exact .next (.ite (.clearWindow h) h)
  | controlPageWrite => exact .next (.ite h (.cpWrite h))
  | doorbellLoadImage => exact .next (.ite (.verifyImage h) (.doorbell h fun _ ht => .loadImage ht))
  | doorbellApplyConfiguration => exact .next (.ite (.applyConfig h) (.doorbell h fun _ ht => .applyConfig ht))
  | doorbellCopyDump => exact .next (.ite (.copyDump h) h)
  | doorbellAttest => exact .next (.doorbell h fun _ ht => .attest ht)
  | hostRegisterWrite => exact .execHostRegisterWrite h
  | hostLinkLoss => exact .next (.ite (.modPkg (.packageFatal h)) h)
  | scrub => exact .execScrub h
  | linkRetrain => exact .next (.ite (.countLink h) h)
  | pcieError => exact .next (.ite (.record (.countHost h)) h)

/-! ### The issue of an entry -/

theorem State.MemOk.queueWalk {f prio pc} (h : s.MemOk) : (s.queueWalk f prio pc).MemOk := by
  dsimp only [State.queueWalk]
  split
  · exact .modHearth h
  · exact h

theorem State.MemOk.clearWalks {f prio pc} (h : s.MemOk) : (s.clearWalks f prio pc).MemOk := by
  dsimp only [State.clearWalks]
  split
  · exact h
  · exact .ite h (.setFrag h)

theorem State.MemOk.afterIssueOf {is} (h : s.MemOk) : (s.afterIssue is).MemOk := .clearWalks (.queueWalk h)

theorem State.MemOk.fetchPoison {pa kept} (h : i.s.MemOk) : (i.fetchPoison pa kept).MemOk :=
  .ite (.raise h) (.beginKill (.ite (.countCore (.record h)) (.countHearth (.record h))))

theorem State.MemOk.countAccess {n t} (h : t.MemOk) : (i.countAccess n t).MemOk := by
  dsimp only [Ix.countAccess]
  split
  · exact .ite (.countBytes h) h
  · exact h

theorem OutcomeOk.runBlock {b} (h : i.s.MemOk) : OutcomeOk (i.runBlock b) := by
  dsimp only [Ix.runBlock]
  split
  · exact .next (.illegal (.dropPins h))
  · split
    · exact .next (.raise (.dropPins h))
    · exact .onNext (.exec h) fun _ ht => .countAccess ht

theorem OutcomeOk.fetchAndRun (h : i.s.MemOk) : OutcomeOk i.fetchAndRun := by
  dsimp only [Ix.fetchAndRun]
  split
  · exact .next (.stop h)
  · exact .next (.raise (.dropPins h))
  · exact .next (.fetchPoison h)
  · exact .ite (.runBlock (.keepBlock h)) (.runBlock h)

theorem OutcomeOk.runEntry {is} (h : s.MemOk) : OutcomeOk (s.runEntry is) := by
  dsimp only [State.runEntry]
  split
  · exact .next (.raise (.modFrag (.dropPins (.modCore (.others h)))))
  · exact .onNext (.fetchAndRun (.modCore (.others h))) fun _ ht => .afterIssueOf ht

theorem OutcomeOk.issueTurn {gc part} (h : s.MemOk) : OutcomeOk (s.issueTurn gc part) := by
  have h1 : ((s.fillActive gc part 9).exchange gc part).MemOk := .exchange (.fillActive h)
  dsimp only [State.issueTurn]
  split
  · exact .onNext (.runEntry h1) fun _ ht => .leaveActive ht
  · exact .next h1

theorem OutcomeOk.issueAll {ps} (h : s.MemOk) : OutcomeOk (s.issueAll ps) := by
  induction ps generalizing s with
  | nil => exact .next h
  | cons q l ih =>
    unfold State.issueAll
    refine .ite (ih h) ?_
    have ht := issueTurn (gc := q.1) (part := q.2) h
    split
    next hr =>
      rw [hr] at ht
      cases ht with
      | next ht => exact ih ht
    · exact ht

theorem OutcomeOk.issueLate {gc part} (h : s.MemOk) : OutcomeOk (s.issueLate gc part) :=
  .onNext (.issueTurn (.others h)) fun _ ht => .others ht

theorem OutcomeOk.eventTurn {i} (h : s.MemOk) : OutcomeOk (s.eventTurn i) := by
  dsimp only [State.eventTurn]
  split
  · exact .fault
  · exact .exec h

theorem OutcomeOk.move {t} (h : s.MemOk) : OutcomeOk (s.move t) := by
  dsimp only [State.move]
  split
  · exact .issueTurn h
  · exact .issueLate h
  · exact .issueAll h
  · exact .next (.badHeader h)
  · exact .next (.linkUp h)
  · exact .next (.applyFill h)
  · exact .next (.passClocks h)
  · exact .next (.softError h)
  · exact .eventTurn h

theorem OutcomeOk.turn {t} (h : s.MemOk) : OutcomeOk (s.turn t) := .onNext (.move h) fun _ ht => .meter ht

/-! ### One step -/

theorem OutcomeOk.step (h : s.MemOk) : OutcomeOk (step s) := by
  dsimp only [Machine.step]
  split
  · exact .turn (.others (.passClocks h))
  · exact .turn (.passClocks h)

/-! ### The obligation -/

/-- Settles O59: the rules of every function of the model, composed. -/
theorem stepKeepsMemory : Obligations.StepKeepsMemory := by
  unfold Obligations.StepKeepsMemory
  intro s t h hStep
  have hOk : OutcomeOk (step s) := .step h
  rw [hStep] at hOk
  cases hOk with
  | next ht => exact ht

end Sys2Proof.Machine
end

section
/-! SUPPORT. What an instruction of memory leaves as it was (`KeptMem`), as a relation that its parts satisfy one after another: counting
a use, changing the issuing fragment, writing a destination, replacing the scratchpad of a cast, and going on. -/

namespace Sys2Proof.Claims
open Sys2Proof.Machine

/-- The fragment `x` with all that an instruction of memory may change of it taken from `z`. -/
def issuerLike (x z : Frag) : Frag :=
  { x with
    entries := z.entries, frozen := z.frozen, atEnd := z.atEnd, rep := z.rep, repc := z.repc, sregs := z.sregs, spoison := z.spoison
    vabsent := z.vabsent, sabsent := z.sabsent, fills := z.fills, vempty := z.vempty, sempty := z.sempty, drain := z.drain
    seen := z.seen, hinted := z.hinted, backoff := z.backoff, pause := z.pause }

/-- The hoist `x` with the registers, predicates and masks of `z`. -/
def hoistLike (x z : Hoist) : Hoist :=
  { x with vregs := z.vregs, vpoison := z.vpoison, preds := z.preds, masks := z.masks, pmarks := z.pmarks, mmarks := z.mmarks }

section KeptMem

variable {s t u : State} {i : Ix} {ds : List (Opnd × Nat)} {P : Nat → Prop} {Q : Nat → Nat → Prop}

theorem KeptMem.trans (h : KeptMem s t i ds P Q) (k : KeptMem t u i ds P Q) : KeptMem s u i ds P Q where
  memory a ha := (k.memory a ha).trans (h.memory a ha)
  marks w hw := (k.marks w hw).trans (h.marks w hw)
  frags f hf :=
    ⟨(congrArg (fun x : Frag => { x with entries := (s.frag f).entries, frozen := (s.frag f).frozen }) (k.frags f hf).1 :).trans
      (h.frags f hf).1, fun hNone => ((k.frags f hf).2 hNone).trans ((h.frags f hf).2 hNone)⟩
  hoists j hj := (k.hoists j hj).trans (h.hoists j hj)
  elems a l hl hw := ⟨(k.elems a l hl hw).1.trans (h.elems a l hl hw).1, (k.elems a l hl hw).2.trans (h.elems a l hl hw).2⟩
  preds q l hq := (k.preds q l hq).trans (h.preds q l hq)
  masks q hq := (k.masks q hq).trans (h.masks q hq)
  bits q := ⟨fun hq => ((k.bits q).1 hq).trans ((h.bits q).1 hq), fun hq => ((k.bits q).2 hq).trans ((h.bits q).2 hq)⟩
  hoist := (congrArg (hoistLike · (s.hoist i.x.hoist)) k.hoist :).trans h.hoist
  sregs q hq := ⟨(k.sregs q hq).1.trans (h.sregs q hq).1, (k.sregs q hq).2.trans (h.sregs q hq).2⟩
  frag := (congrArg (issuerLike · (s.frag i.f)) k.frag :).trans h.frag
  casts c := (congrArg (fun x : Cast => { x with spad := (s.cast c).spad, spoison := (s.cast c).spoison }) (k.casts c) :).trans (h.casts c)
  spads c a ha := (k.spads c a ha).trans (h.spads c a ha)
  smarks c w hw := (k.smarks c w hw).trans (h.smarks c w hw)
  cores c := (congrArg (fun x : Core => { x with counters := (s.core c).counters, records := (s.core c).records }) (k.cores c) :).trans
    (h.cores c)
  hearths g := (congrArg (fun x : Hearth => { x with records := (s.hearth g).records }) (k.hearths g) :).trans (h.hearths g)
  rest := (congrArg (fun x : State => { x with
    mem := s.mem, marks := s.marks, frags := s.frags, hoists := s.hoists, casts := s.casts, cores := s.cores
    hearths := s.hearths }) k.rest :).trans h.rest

/-- More destinations and more bytes may change. -/
theorem KeptMem.mono {ds' : List (Opnd × Nat)} {P' : Nat → Prop} {Q' : Nat → Nat → Prop} (h : KeptMem s t i ds P Q)
    (hds : ∀ d ∈ ds, d ∈ ds') (hP : ∀ a, P a → P' a) (hQ : ∀ c a, Q c a → Q' c a) : KeptMem s t i ds' P' Q' where
  memory a ha := h.memory a fun hp => ha (hP a hp)
  marks w hw := h.marks w fun a hp => hw a (hP a hp)
  frags f hf := ⟨(h.frags f hf).1, fun hNone => (h.frags f hf).2 fun a hp => hNone a (hP a hp)⟩
  hoists := h.hoists
  elems a l hl hw := h.elems a l hl fun ⟨hg, q, n, hm, hr⟩ => hw ⟨hg, q, n, hds _ hm, hr⟩
  preds q l hq := h.preds q l fun ⟨hg, n, hm⟩ => hq ⟨hg, n, hds _ hm⟩
  masks q hq := h.masks q fun ⟨n, hm⟩ => hq ⟨n, hds _ hm⟩
  bits q := ⟨fun hq => (h.bits q).1 fun ⟨n, hm⟩ => hq ⟨n, hds _ hm⟩, fun hq => (h.bits q).2 fun ⟨n, hm⟩ => hq ⟨n, hds _ hm⟩⟩
  hoist := h.hoist
  sregs q hq := h.sregs q fun ⟨n, hm⟩ => hq ⟨n, hds _ hm⟩
  frag := h.frag
  casts := h.casts
  spads c a ha := h.spads c a fun hq => ha (hQ c a hq)
  smarks c w hw := h.smarks c w fun a hq => hw a (hQ c a hq)
  cores := h.cores
  hearths := h.hearths
  rest := h.rest

/-- A part of the instruction that changes nothing of memory and of its destinations, within one that may. -/
theorem KeptMem.of_none (h : KeptMem s t i [] nothing nowhere) : KeptMem s t i ds P Q :=
  h.mono (fun _ hd => absurd hd List.not_mem_nil) (fun _ ha => ha.elim) fun _ _ ha => ha.elim

/-- A state that differs in the issuing fragment alone. -/
theorem KeptMem.of_frag (hRest : { t with frags := s.frags } = s) (hFrags : ∀ f, f ≠ i.f → t.frag f = s.frag f)
    (hSregs : (t.frag i.f).sregs = (s.frag i.f).sregs) (hSpoison : (t.frag i.f).spoison = (s.frag i.f).spoison)
    (hFrag : issuerLike (t.frag i.f) (s.frag i.f) = s.frag i.f) : KeptMem s t i [] nothing nowhere where
  memory a _ := (congrArg (State.byte · a) hRest :)
  marks w _ := (congrArg (State.mark · w) hRest :)
  frags f hf := by
    rw [hFrags f hf]
    exact ⟨rfl, fun _ => rfl⟩
  hoists j _ := (congrArg (State.hoist · j) hRest :)
  elems a l _ _ := ⟨(congrArg (fun v : State => (v.hoist i.x.hoist).elem a l) hRest :),
    (congrArg (fun v : State => (v.hoist i.x.hoist).elemMark a l) hRest :)⟩
  preds q l _ := (congrArg (fun v : State => ((v.hoist i.x.hoist).pred q).getLsbD l) hRest :)
  masks q _ := (congrArg (fun v : State => Sparse.get 0 (v.hoist i.x.hoist).masks q.toNat) hRest :)
  bits q := ⟨fun _ => (congrArg (fun v : State => (v.hoist i.x.hoist).pmarks.getLsbD q.toNat) hRest :),
    fun _ => (congrArg (fun v : State => (v.hoist i.x.hoist).mmarks.getLsbD q.toNat) hRest :)⟩
  hoist := (congrArg (fun v : State => hoistLike (v.hoist i.x.hoist) (s.hoist i.x.hoist)) hRest :)
  sregs q _ := ⟨congrArg (Sparse.get 0 · q.toNat) hSregs, congrArg (·.getLsbD q.toNat) hSpoison⟩
  frag := hFrag
  casts c := (congrArg (fun v : State => { v.cast c with spad := (s.cast c).spad, spoison := (s.cast c).spoison }) hRest :)
  spads c a _ := (congrArg (fun v : State => Sparse.get (0 : Byte) (v.cast c).spad a) hRest :)
  smarks c w _ := (congrArg (fun v : State => (v.cast c).smark w) hRest :)
  cores c := (congrArg (fun v : State => { v.core c with counters := (s.core c).counters, records := (s.core c).records }) hRest :)
  hearths g := (congrArg (fun v : State => { v.hearth g with records := (s.hearth g).records }) hRest :)
  rest := (congrArg (fun v : State => { v with
    mem := s.mem, marks := s.marks, hoists := s.hoists, casts := s.casts, cores := s.cores, hearths := s.hearths }) hRest :)

theorem KeptMem.refl (s : State) (i : Ix) : KeptMem s s i [] nothing nowhere := .of_frag rfl (fun _ _ => rfl) rfl rfl rfl

/-- A change of the issuing fragment. -/
theorem KeptMem.modFrag (s : State) (i : Ix) (g : Frag → Frag) (hSregs : (g (s.frag i.f)).sregs = (s.frag i.f).sregs)
    (hSpoison : (g (s.frag i.f)).spoison = (s.frag i.f).spoison) (hFrag : issuerLike (g (s.frag i.f)) (s.frag i.f) = s.frag i.f) :
    KeptMem s (s.modFrag i.f g) i [] nothing nowhere := by
  have hf : (s.modFrag i.f g).frag i.f = g (s.frag i.f) := by rw [modFrag_frag, if_pos rfl]
  refine .of_frag rfl (fun f h => by rw [modFrag_frag, if_neg h]) ?_ ?_ ?_
  · rw [hf, hSregs]
  · rw [hf, hSpoison]
  · rw [hf, hFrag]

/-- A state that differs in counters and records of cores alone. -/
theorem KeptMem.of_cores (i : Ix) (hRest : { t with cores := s.cores } = s)
    (hCores : ∀ c, { t.core c with counters := (s.core c).counters, records := (s.core c).records } = s.core c) :
    KeptMem s t i [] nothing nowhere :=
  have hFrags : t.frags = s.frags := (congrArg State.frags hRest :)
  have hFrag (f : Nat) : t.frag f = s.frag f := (congrArg (fun l => State.frag { s with frags := l } f) hFrags :)
  have hSame : KeptMem s { t with cores := s.cores } i [] nothing nowhere := by
    rw [hRest]
    exact .refl s i
  { hSame with
    cores := hCores
    frags := fun f _ => by
      rw [hFrag]
      exact ⟨rfl, fun _ => rfl⟩
    rest := (congrArg (fun v : State => { v with
      mem := s.mem, marks := s.marks, frags := s.frags, hoists := s.hoists, casts := s.casts, hearths := s.hearths }) hRest :) }

theorem KeptMem.countUse (i : Ix) (used : Bool) (s : State) : KeptMem s (i.countUse used s) i [] nothing nowhere :=
  .of_cores i (countUse_rest i used s) fun c =>
    (congrArg (fun k : Core => { k with records := (s.core c).records }) (countUse_core i used s c) :)

/-- The drain mark and the counts of releases that the fragment has read. -/
theorem KeptMem.drainAfter (i : Ix) (s : State) (acq rel : Bool) (sc : Scope) (recs : List RelRec) :
    KeptMem s (s.modFrag i.f fun y => i.drainAfter acq rel sc (y.reads recs)) i [] nothing nowhere := by
  have hRest := drainAfter_rest i acq rel sc ((s.frag i.f).reads recs)
  refine .modFrag s i _ ?_ ?_ ?_
  · exact (congrArg Frag.sregs hRest :)
  · exact (congrArg Frag.spoison hRest :)
  · exact (congrArg (issuerLike · (s.frag i.f)) hRest :)

/-- Lanes go on (R331, R346). -/
theorem KeptMem.doneFor (i : Ix) (s : State) (m : LaneMask) : KeptMem s (i.doneFor s m) i [] nothing nowhere := by
  have hRest := complete_rest (s.frag i.f) i.e.prio i.e.pc i.next m
  unfold Ix.doneFor
  split
  · exact .refl s i
  · exact .modFrag s i _ (complete_sregs ..) (complete_spoison ..) (congrArg (issuerLike · (s.frag i.f)) hRest :)

theorem KeptMem.done (i : Ix) (s : State) : KeptMem s (i.done s) i [] nothing nowhere := by
  have hRest := complete_rest (s.frag i.f) i.e.prio i.e.pc i.next i.e.mask
  refine .modFrag s i _ (complete_sregs ..) (complete_spoison ..) ?_
  exact (congrArg (issuerLike · (s.frag i.f)) hRest :)

/-- A write of results to a destination (R54 to R58). -/
theorem KeptMem.write (i : Ix) (s : State) (d : Opnd) (ty : Ty) (r : Nat → Val) :
    KeptMem s (i.write s d ty ((lanesOf i.g).map fun l => (l, r l))) i [(d, Ty.regs ty)] nothing nowhere := by
  obtain ⟨hRest, hFrags, hHoists⟩ := write_rest i s d ty ((lanesOf i.g).map fun l => (l, r l))
  have hFrag := write_frag i s d ty ((lanesOf i.g).map fun l => (l, r l))
  exact {
    memory := fun a _ => (congrArg (State.byte · a) hRest :)
    marks := fun w _ => (congrArg (State.mark · w) hRest :)
    frags := fun f hf => by
      rw [hFrags f hf]
      exact ⟨rfl, fun _ => rfl⟩
    hoists := hHoists
    elems := fun a l hl hw => write_elems i s d ty r a l hl hw
    preds := fun q l hq => write_preds i s d ty r q l fun ⟨hg, hd⟩ => hq ⟨hg, Ty.regs ty, by simp [hd]⟩
    masks := fun q hq => write_masks i s d ty _ q fun hd => hq ⟨Ty.regs ty, by simp [hd]⟩
    bits := fun q => ⟨fun hq => (write_bits i s d ty _ q).1 fun hd => hq ⟨Ty.regs ty, by simp [hd]⟩,
      fun hq => (write_bits i s d ty _ q).2 fun hd => hq ⟨Ty.regs ty, by simp [hd]⟩⟩
    hoist := write_hoist i s d ty _
    sregs := fun q hq => write_sregs i s d ty _ q fun hd => hq ⟨Ty.regs ty, by simp [hd]⟩
    frag := (congrArg (issuerLike · (s.frag i.f)) hFrag :)
    casts := fun c => (congrArg (fun v : State => { v.cast c with spad := (s.cast c).spad, spoison := (s.cast c).spoison }) hRest :)
    spads := fun c a _ => (congrArg (fun v : State => Sparse.get (0 : Byte) (v.cast c).spad a) hRest :)
    smarks := fun c w _ => (congrArg (fun v : State => (v.cast c).smark w) hRest :)
    cores := fun c => (congrArg (fun v : State => { v.core c with
      counters := (s.core c).counters, records := (s.core c).records }) hRest :)
    hearths := fun g => (congrArg (fun v : State => { v.hearth g with records := (s.hearth g).records }) hRest :)
    rest := (congrArg (fun v : State => { v with
      mem := s.mem, marks := s.marks, casts := s.casts, cores := s.cores, hearths := s.hearths }) hRest :) }

/-- The scratchpad of a cast is replaced, beside the bytes `B` as it was. -/
theorem KeptMem.of_spad {c : Nat} {k : Cast} {B : Nat → Prop} (h : CastReplaced s t c k) (i : Ix)
    (hCast : { k with spad := (s.cast c).spad, spoison := (s.cast c).spoison } = s.cast c)
    (hByte : ∀ a, ¬ B a → Sparse.get (0 : Byte) k.spad a = Sparse.get (0 : Byte) (s.cast c).spad a)
    (hMark : ∀ w, (∀ a, B a → a / 4 ≠ w) → k.smark w = (s.cast c).smark w) :
    KeptMem s t i [] nothing (fun d a => d = c ∧ B a) :=
  have hRest := h.rest
  have hFrags : t.frags = s.frags := (congrArg State.frags hRest :)
  have hFrag (f : Nat) : t.frag f = s.frag f := (congrArg (fun l => State.frag { s with frags := l } f) hFrags :)
  have hSame : KeptMem s { t with casts := s.casts, cores := s.cores } i [] nothing (fun d a => d = c ∧ B a) := by
    rw [hRest]
    exact (KeptMem.refl s i).of_none
  { hSame with
    frags := fun f _ => by
      rw [hFrag]
      exact ⟨rfl, fun _ => rfl⟩
    casts := fun d => by
      rw [h.cast]
      split
      · next hd => exact hd ▸ hCast
      · rfl
    spads := fun d a hOut => by
      rw [h.cast]
      split
      · next hd => exact hd ▸ hByte a fun hp => hOut ⟨hd, hp⟩
      · rfl
    smarks := fun d w hOut => by
      rw [h.cast]
      split
      · next hd => exact hd ▸ hMark w fun a hp => hOut a ⟨hd, hp⟩
      · rfl
    cores := fun q => (congrArg (fun y : Core => { y with counters := (s.core q).counters }) (h.cores q) :)
    rest := (congrArg (fun v : State => { v with
      mem := s.mem, marks := s.marks, frags := s.frags, hoists := s.hoists, hearths := s.hearths }) hRest :) }

end KeptMem

end Sys2Proof.Claims
end

section
/-! SUPPORT. The register write of a load that is still to come (R60): what its destination holds once it is made, and that going on
leaves it to come. -/

namespace Sys2Proof.Machine
open Sys2Proof.Claims

/-! ### What a pending write depends on -/

/-- The registers of the issuing fragment and the register writes still to come to them are as before. -/
structure SameRegs (s t : State) (i : Ix) : Prop where
  hoists  : t.hoists = s.hoists
  hoist   : (t.frag i.f).hoist = (s.frag i.f).hoist
  fills   : (t.frag i.f).fills = (s.frag i.f).fills
  sregs   : (t.frag i.f).sregs = (s.frag i.f).sregs
  spoison : (t.frag i.f).spoison = (s.frag i.f).spoison

namespace SameRegs

variable {s t u : State} {i : Ix}

theorem trans (h : SameRegs s t i) (k : SameRegs t u i) : SameRegs s u i :=
  ⟨k.hoists.trans h.hoists, k.hoist.trans h.hoist, k.fills.trans h.fills, k.sregs.trans h.sregs, k.spoison.trans h.spoison⟩

/-- A state with the fragments and hoists of another. -/
theorem of_eq (hHoists : t.hoists = s.hoists) (hFrag : t.frag i.f = s.frag i.f) : SameRegs s t i := by
  refine ⟨hHoists, ?_, ?_, ?_, ?_⟩ <;> rw [hFrag]

/-- A change of the issuing fragment. -/
theorem modFrag (s : State) (i : Ix) (g : Frag → Frag) (hHoist : (g (s.frag i.f)).hoist = (s.frag i.f).hoist)
    (hFills : (g (s.frag i.f)).fills = (s.frag i.f).fills) (hSregs : (g (s.frag i.f)).sregs = (s.frag i.f).sregs)
    (hSpoison : (g (s.frag i.f)).spoison = (s.frag i.f).spoison) : SameRegs s (s.modFrag i.f g) i := by
  refine ⟨rfl, ?_, ?_, ?_, ?_⟩ <;> rwa [modFrag_frag, if_pos rfl]

theorem drainAfter (i : Ix) (s : State) (acq rel : Bool) (sc : Scope) (recs : List RelRec) :
    SameRegs s (s.modFrag i.f fun y => i.drainAfter acq rel sc (y.reads recs)) i := by
  have hRest := drainAfter_rest i acq rel sc ((s.frag i.f).reads recs)
  exact .modFrag s i _ (congrArg Frag.hoist hRest :) (congrArg Frag.fills hRest :) (congrArg Frag.sregs hRest :)
    (congrArg Frag.spoison hRest :)

theorem doneFor (i : Ix) (s : State) (m : LaneMask) : SameRegs s (i.doneFor s m) i := by
  have hRest := complete_rest (s.frag i.f) i.e.prio i.e.pc i.next m
  unfold Ix.doneFor
  split
  · exact .of_eq rfl rfl
  · exact .modFrag s i _ (congrArg Frag.hoist hRest :) (congrArg Frag.fills hRest :) (congrArg Frag.sregs hRest :)
      (congrArg Frag.spoison hRest :)

theorem done (i : Ix) (s : State) : SameRegs s (i.done s) i := by
  have hRest := complete_rest (s.frag i.f) i.e.prio i.e.pc i.next i.e.mask
  exact .modFrag s i _ (congrArg Frag.hoist hRest :) (congrArg Frag.fills hRest :) (congrArg Frag.sregs hRest :)
    (congrArg Frag.spoison hRest :)

end SameRegs

/-! ### Making a register write -/

/-- The fragment once the register write `w` is made, with `rest` still to come. -/
def Frag.filled (y : Frag) (w : Fill) (rest : List Fill) : Frag :=
  let y1 : Frag := { y with fills := rest, vempty := y.vempty &&& ~~~w.empty, vabsent := y.vabsent &&& ~~~w.empty }
  match w.sreg with
  | none => y1
  | some (r, v, p) =>
    let b : BitVec 64 := BitVec.ofNat 64 (2 ^ r.toNat)
    { y1 with
      sregs := Sparse.set 0 y1.sregs r.toNat v
      spoison := if p then y1.spoison ||| b else y1.spoison &&& ~~~b
      sempty := y1.sempty &&& ~~~b
      sabsent := y1.sabsent &&& ~~~b }

/-- The hoist once the elements of `w` are written. -/
def Hoist.filled (h : Hoist) (w : Fill) : Hoist := w.vregs.foldl (fun h p => h.setElem (p.1 / 32) (p.1 % 32) p.2.1 p.2.2) h

theorem applyFill_nil {s : State} {f : Nat} (h : (s.frag f).fills = []) : s.applyFill f = s := by
  unfold State.applyFill
  simp only [h]

theorem applyFill_cons {s : State} {f : Nat} {w : Fill} {rest : List Fill} (h : (s.frag f).fills = w :: rest) :
    s.applyFill f = (s.modHoist (s.frag f).hoist fun x => x.filled w).modFrag f fun y => y.filled w rest := by
  unfold State.applyFill
  simp only [h]
  rfl

theorem applyFill_frag {s : State} {f : Nat} {w : Fill} {rest : List Fill} (h : (s.frag f).fills = w :: rest) :
    (s.applyFill f).frag f = (s.frag f).filled w rest := by
  rw [applyFill_cons h, modFrag_frag, if_pos rfl, modHoist_frag]

theorem applyFill_hoist {s : State} {f : Nat} {w : Fill} {rest : List Fill} (h : (s.frag f).fills = w :: rest) :
    (s.applyFill f).hoist (s.frag f).hoist = (s.hoist (s.frag f).hoist).filled w := by
  rw [applyFill_cons h, modFrag_hoist, modHoist_hoist, if_pos rfl]

/-- The registers of a fragment and the scalars of a write to it are all that the results of making the write depend on. -/
theorem SameRegs.gets {s t : State} {i : Ix} (h : SameRegs s t i) (hHoist : (s.frag i.f).hoist = i.x.hoist) {d : Opnd} {ty : Ty}
    {r : Nat → Val} (hGets : Gets (s.applyFill i.f) i d ty r) : Gets (t.applyFill i.f) i d ty r := by
  have hSame (k : Nat) : t.hoist k = s.hoist k := congrArg (Sparse.get _ · k) h.hoists
  have hRegs : (t.applyFill i.f).hoist i.x.hoist = (s.applyFill i.f).hoist i.x.hoist ∧
      ((t.applyFill i.f).frag i.f).sregs = ((s.applyFill i.f).frag i.f).sregs ∧
      ((t.applyFill i.f).frag i.f).spoison = ((s.applyFill i.f).frag i.f).spoison := by
    cases hw : (s.frag i.f).fills with
    | nil =>
      rw [applyFill_nil hw, applyFill_nil (h.fills.trans hw)]
      exact ⟨hSame _, h.sregs, h.spoison⟩
    | cons w rest =>
      have hw' := h.fills.trans hw
      have hs := applyFill_hoist hw
      have ht := applyFill_hoist hw'
      rw [hHoist] at hs
      rw [h.hoist, hHoist] at ht
      rw [hs, ht, applyFill_frag hw, applyFill_frag hw', hSame]
      refine ⟨rfl, ?_, ?_⟩ <;> unfold Frag.filled <;> rw [h.sregs, h.spoison] <;> cases w.sreg <;> rfl
  obtain ⟨hVec, hSregs, hSpoison⟩ := hRegs
  unfold Gets Frag.sreg at *
  rwa [hVec, hSregs, hSpoison]

/-! ### The elements of a pending write -/

/-- Elements written one after another: an element that is written with one value alone holds it. -/
theorem setElems_get {a l : Nat} (hl : l < 32) {w : Word} {p : Bool} (ls : List (Nat × Word × Bool)) (h : Hoist)
    (hMem : (32 * a + l, w, p) ∈ ls) (hOnly : ∀ q ∈ ls, q.1 = 32 * a + l → q.2 = (w, p)) :
    let h' := ls.foldl (fun h p => h.setElem (p.1 / 32) (p.1 % 32) p.2.1 p.2.2) h
    h'.elem a l = w ∧ h'.elemMark a l = p := by
  induction ls using List.reverseRecOn with
  | nil => exact absurd hMem List.not_mem_nil
  | append_singleton ls q ih =>
    have hq : q.1 % 32 < 32 := Nat.mod_lt _ (by decide)
    rw [List.foldl_append, List.foldl_cons, List.foldl_nil]
    dsimp only
    rw [setElem_elem _ _ _ _ _ _ _ hq hl, setElem_mark _ _ _ _ _ _ _ hq hl]
    by_cases hKey : q.1 = 32 * a + l
    · have hVal := hOnly q (by simp) hKey
      rw [if_pos (by omega), if_pos (by omega), hVal]
      exact ⟨rfl, rfl⟩
    · rw [if_neg (by omega), if_neg (by omega)]
      have hIn : (32 * a + l, w, p) ∈ ls := by
        obtain hIn | hLast := List.mem_append.1 hMem
        · exact hIn
        · rw [List.mem_singleton] at hLast
          exact absurd (congrArg Prod.fst hLast).symm hKey
      exact ih hIn fun r hr => hOnly r (by simp [hr])

/-- The write of `n` vector registers from window register `r`. -/
def Ix.vecFill (i : Ix) (r n : Nat) (rs : List (Nat × List Val)) : Fill :=
  { vregs := rs.flatMap fun p => (List.range n).zip p.2 |>.map fun q => (32 * (i.areg r + q.1) + p.1, q.2.word, q.2.poison)
    empty := regBits (i.areg r) n, sreg := none }

section PendVec

variable (i : Ix) (s : State) (r n : Nat) (rs : List (Nat × List Val))

theorem pendVec_eq : i.pendVec s r n rs =
    s.modFrag i.f fun x => { x with vempty := x.vempty ||| (i.vecFill r n rs).empty, fills := x.fills ++ [i.vecFill r n rs] } := rfl

theorem pendVec_kept : KeptMem s (i.pendVec s r n rs) i [] nothing nowhere := by
  rw [pendVec_eq]
  exact .modFrag s i _ rfl rfl rfl

theorem pendVec_fills (hFills : (s.frag i.f).fills = []) : ((i.pendVec s r n rs).frag i.f).fills = [i.vecFill r n rs] := by
  rw [pendVec_eq, modFrag_frag, if_pos rfl, hFills]
  rfl

theorem pendVec_hoist : ((i.pendVec s r n rs).frag i.f).hoist = (s.frag i.f).hoist := by
  rw [pendVec_eq, modFrag_frag, if_pos rfl]

end PendVec

/-- Each lane's words, in the registers from `r`. -/
theorem vecFill_elem (i : Ix) (r n : Nat) (vals : Nat → List Val) (h : Hoist) {j l : Nat} (hj : j < n) (hl : i.g.getLsbD l = true)
    {v : Val} (hv : (vals l)[j]? = some v) :
    let h' := h.filled (i.vecFill r n ((lanesOf i.g).map fun l => (l, vals l)))
    h'.elem (i.areg r + j) l = v.word ∧ h'.elemMark (i.areg r + j) l = v.poison := by
  refine setElems_get (BitVec.lt_of_getLsbD hl) _ h ?_ ?_
  · refine List.mem_flatMap.2 ⟨(l, vals l), List.mem_map.2 ⟨l, (mem_lanesOf _ _).2 hl, rfl⟩, List.mem_map.2 ⟨(j, v), ?_, rfl⟩⟩
    exact List.mem_of_getElem? (List.getElem?_zip_eq_some.2 ⟨List.getElem?_range hj, hv⟩)
  · rintro q hq hKey
    obtain ⟨p, hp, hq⟩ := List.mem_flatMap.1 hq
    obtain ⟨m, hm, rfl⟩ := List.mem_map.1 hp
    obtain ⟨⟨k, x⟩, hz, rfl⟩ := List.mem_map.1 hq
    have hm32 : m < 32 := BitVec.lt_of_getLsbD ((mem_lanesOf _ _).1 hm)
    have hl32 : l < 32 := BitVec.lt_of_getLsbD hl
    obtain ⟨b, hb⟩ := List.getElem?_of_mem hz
    obtain ⟨hk, hx⟩ := List.getElem?_zip_eq_some.1 hb
    dsimp only at hKey hk hx ⊢
    obtain ⟨hbn, hbk⟩ := List.getElem?_eq_some_iff.1 hk
    rw [List.getElem_range] at hbk
    obtain ⟨rfl, rfl⟩ : m = l ∧ k = j := by omega
    rw [hbk, hv, Option.some.injEq] at hx
    rw [hx]

/-! ### The destination of a load -/

section Pend

variable (i : Ix) (s : State) (d : Opnd) (ty : Ty) (r : Nat → Val)

/-- The words that a lane's result of a type is written as. -/
def pendWords (ty : Ty) (v : Val) : List Val :=
  if ty.wide then v.halves else [{ v with bits := (ext32 ty v.bits).setWidth 64 }]

theorem pend_vector (q : BitVec 6) : i.pend s (.v q) ty ((lanesOf i.g).map fun l => (l, r l)) =
    i.pendVec s q.toNat (Ty.regs ty) ((lanesOf i.g).map fun l => (l, pendWords ty (r l))) := by
  unfold Ix.pend
  rw [List.map_map]
  rfl

/-- The write of a scalar register. -/
def scalarFill (q : BitVec 6) (ty : Ty) (v : Val) : Fill := { vregs := [], empty := 0, sreg := some (q, ext64 ty v.bits, v.poison) }

/-- The fragment with it still to come. -/
def Frag.pendScalar (x : Frag) (q : BitVec 6) (w : Fill) : Frag :=
  { x with sempty := x.sempty ||| BitVec.ofNat 64 (2 ^ q.toNat), fills := x.fills ++ [w] }

theorem pend_scalar (hg : i.g ≠ 0) (q : BitVec 6) : i.pend s (.s q) ty ((lanesOf i.g).map fun l => (l, r l)) =
    s.modFrag i.f fun x => x.pendScalar q (scalarFill q ty (r (lowestLane i.g))) := by
  obtain ⟨rest, hl⟩ := lanesOf_eq_cons i.g hg
  unfold Ix.pend
  rw [hl]
  rfl

theorem pend_other (hv : ∀ q, d ≠ .v q) (hs : ∀ q, d ≠ .s q) (rs : List (Nat × Val)) : i.pend s d ty rs = i.write s d ty rs := by
  cases d with
  | v q => exact absurd rfl (hv q)
  | s q => exact absurd rfl (hs q)
  | _ => rfl

/-- A load changes nothing but what it has still to write, and a predicate or a mask. -/
theorem pend_kept (hg : i.g ≠ 0) :
    KeptMem s (i.pend s d ty ((lanesOf i.g).map fun l => (l, r l))) i [(d, Ty.regs ty)] nothing nowhere := by
  cases d with
  | v q =>
    rw [pend_vector]
    exact (pendVec_kept ..).of_none
  | s q =>
    rw [pend_scalar i s ty r hg]
    exact KeptMem.of_none (.modFrag s i _ rfl rfl rfl)
  | _ =>
    rw [pend_other i s _ ty (by simp) (by simp)]
    exact KeptMem.write ..

theorem write_cast (rs : List (Nat × Val)) (c : Nat) : (i.write s d ty rs).cast c = s.cast c :=
  (congrArg (State.cast · c) (write_rest i s d ty rs).1 :)

/-- No cast changes. -/
theorem pend_cast (hg : i.g ≠ 0) (c : Nat) : (i.pend s d ty ((lanesOf i.g).map fun l => (l, r l))).cast c = s.cast c := by
  cases d with
  | v q => rfl
  | s q => rw [pend_scalar i s ty r hg, modFrag_cast]
  | _ =>
    rw [pend_other i s _ ty (by simp) (by simp)]
    exact write_cast ..

theorem pend_hoist (hg : i.g ≠ 0) : ((i.pend s d ty ((lanesOf i.g).map fun l => (l, r l))).frag i.f).hoist = (s.frag i.f).hoist :=
  (congrArg Frag.hoist (pend_kept i s d ty r hg).frag :)

/-- One mark set or cleared. -/
theorem getLsbD_marked (x : BitVec 64) {b : BitVec 64} {k : Nat} (hb : b.getLsbD k = true) (hk : k < 64) (p : Bool) :
    (if p then x ||| b else x &&& ~~~b).getLsbD k = p := by
  cases p <;> simp [hb, hk]

/-- A 64-bit result as a register pair. -/
theorem word_high (x : DWord) : (x.ushiftRight 32).setWidth 32 = x.extractLsb' 32 32 := by
  apply BitVec.eq_of_getLsbD_eq
  intro k hk
  simp [hk]

/-- Results of a destination that has no empty bit are there at once. -/
theorem write_gets_at (hg : i.g ≠ 0) : Gets (i.write s d ty ((lanesOf i.g).map fun l => (l, r l))) i d ty r :=
  write_gets { i with s } d ty r hg

theorem write_fills (rs : List (Nat × Val)) : ((i.write s d ty rs).frag i.f).fills = (s.frag i.f).fills :=
  (congrArg Frag.fills (write_frag i s d ty rs) :)

variable (hg : i.g ≠ 0) (hFills : (s.frag i.f).fills = []) (hHoist : (s.frag i.f).hoist = i.x.hoist)

include hg hFills in
/-- The scalar destination of a load, once the write is made. -/
theorem pend_gets_scalar (q : BitVec 6) :
    Gets ((i.pend s (.s q) ty ((lanesOf i.g).map fun l => (l, r l))).applyFill i.f) i (.s q) ty r := by
  let w := scalarFill q ty (r (lowestLane i.g))
  have hFrag : (s.modFrag i.f fun x => x.pendScalar q w).frag i.f = (s.frag i.f).pendScalar q w := by rw [modFrag_frag, if_pos rfl]
  have hMade := applyFill_frag (rest := []) (by rw [hFrag, Frag.pendScalar, hFills]; rfl)
  rw [pend_scalar i s ty r hg]
  unfold Gets Frag.sreg
  dsimp only
  rw [hMade]
  constructor
  · exact (Sparse.get_set ..).trans (if_pos rfl)
  · exact getLsbD_marked _ ((getLsbD_bit 64 _ _ q.isLt).trans (decide_eq_true rfl)) q.isLt _

include hFills hHoist in
/-- The vector destination of a load, once the write is made. -/
theorem pend_gets_vector (q : BitVec 6) :
    Gets ((i.pend s (.v q) ty ((lanesOf i.g).map fun l => (l, r l))).applyFill i.f) i (.v q) ty r := by
  have hMade := applyFill_hoist (pendVec_fills i s q.toNat (Ty.regs ty) ((lanesOf i.g).map fun l => (l, pendWords ty (r l))) hFills)
  rw [pendVec_hoist, hHoist] at hMade
  rw [pend_vector]
  intro l hl
  rw [hMade]
  have hElem (j : Nat) (v : Val) (hj : j < Ty.regs ty) (hv : (pendWords ty (r l))[j]? = some v) :=
    vecFill_elem i q.toNat (Ty.regs ty) (fun l => pendWords ty (r l)) (s.hoist i.x.hoist) hj hl hv
  cases hw : ty.wide
  · obtain ⟨hBits, hMark⟩ := hElem 0 { r l with bits := (ext32 ty (r l).bits).setWidth 64 } (by simp [Ty.regs, hw])
      (by simp [pendWords, hw])
    exact ⟨hBits.trans (by simp [Val.word]), hMark⟩
  · obtain ⟨hBits, hMark⟩ := hElem 0 { bits := (r l).bits, poison := (r l).lo } (by simp [Ty.regs, hw])
      (by simp [pendWords, hw, Val.halves])
    obtain ⟨hHigh, hMarkHigh⟩ := hElem 1 { bits := (r l).bits.ushiftRight 32, poison := (r l).hi } (by simp [Ty.regs, hw])
      (by simp [pendWords, hw, Val.halves])
    exact ⟨hBits, hHigh.trans (word_high _), hMark, hMarkHigh⟩

include hg hFills hHoist in
/-- The destination of a load holds the results once the register write is made (R60, R247). -/
theorem pend_gets : Gets ((i.pend s d ty ((lanesOf i.g).map fun l => (l, r l))).applyFill i.f) i d ty r := by
  cases d with
  | v q => exact pend_gets_vector i s ty r hFills hHoist q
  | s q => exact pend_gets_scalar i s ty r hg hFills q
  | _ =>
    rw [pend_other i s _ ty (by simp) (by simp), applyFill_nil ((write_fills ..).trans hFills)]
    exact write_gets_at i s _ ty r hg

omit s in
/-- What a load gives its destination in a state that has gone on. -/
theorem loads_of_pend {s u t : State} (hg : i.g ≠ 0) (hHoist : (s.frag i.f).hoist = i.x.hoist) (hFrag : u.frag i.f = s.frag i.f)
    (hRegs : SameRegs (i.pend u d ty ((lanesOf i.g).map fun l => (l, r l))) t i) : Loads s t i d ty r := by
  intro hFills
  rw [← hFrag] at hHoist hFills
  exact hRegs.gets ((pend_hoist i u d ty r hg).trans hHoist) (pend_gets i u d ty r hg hFills hHoist)

end Pend

end Sys2Proof.Machine
end

section
/-! O13: loads at their home (R213, R216, R247). What an access does whose lanes all stand at their home and which no order holds back;
then LD and LDX. -/

namespace Sys2Proof.Machine
open Sys2Proof.Claims

/-! ### An access at its home -/

section Orderly

variable {i : Ix} {so : ScopeOrder} {write : Bool} {size : Nat} {va : Nat → Nat} (h : Orderly i so write size va)
include h

/-- No order holds the access back (R50, R224, R226, R230, R236). -/
theorem checkLocal_orderly (hg : i.g ≠ 0) : i.checkLocal i.g write so = .ok () := by
  have hPending : (i.x.pseq.any fun e => e.tgt = i.here && i.s.pendingTo e.src e.tgt e.seq) = false := by
    rw [List.any_eq_false]
    intro e he
    by_cases ht : e.tgt = i.here
    · simp [h.hold e he ht]
    · simp [ht]
  have hSources : i.checkSources2 (if write then [i.here] else []) = .ok () := by
    have hNone : (i.x.pseq.any fun e => (if write then [i.here] else []).contains e.tgt &&
        (e.src ≠ i.x.src || e.tgt = i.here) && i.s.pendingTo e.src e.tgt e.seq) = false := by
      rw [List.any_eq_false]
      intro e he
      cases write
      · simp
      · by_cases ht : e.tgt = i.here
        · simp [h.hold e he ht]
        · simp [ht]
    unfold Ix.checkSources2
    rw [hNone]
    rfl
  have hRoom : (write && (i.relMark so).isSome && i.s.recordsFull i.here (lanesOf i.g).length) = false := by
    cases hw : write
    · rfl
    · cases hm : (i.relMark so).isSome
      · rfl
      · simp [h.room hw hm]
  simp only [Ix.checkLocal, hg, if_false, Ix.checkHold, hPending, h.late, Bool.or_self, guardStop_false, hSources,
    checkRelease_ok h.release, hRoom, bind, Except.bind]

/-- No record that a PROMOTE acquire meets has still to drain (R237). -/
theorem promoteStop_orderly :
    i.promoteStop (if so.promote then i.recordsAt (fun l => i.pa (va l)) size i.g else []) = none := by
  cases hp : so.promote
  · rfl
  · unfold Ix.promoteStop
    rw [if_pos rfl, List.find?_eq_none.2 fun r hr => by simp [h.promote hp r hr]]
    rfl

end Orderly

section AtHome

variable {i : Ix} {us : List Use} {ds : List (Opnd × Nat)} {masks : Opnd} {o : Ops} {x : MemX} {acc : Acc} {size unit : Nat}
  {write : Bool} {perform : Perform} (hg : i.g ≠ 0) (hRead : Readable i us i.g) (hDests : i.checkDests ds = .ok ())
  (hMask : i.maskHome masks x.lsel = .ok ()) (hGrant : Granted i acc size (i.va o x unit))
  (hHome : HomedAt i (i.va o x unit) i.here) (hOrder : Orderly i x.so write size (i.va o x unit))
include hg hRead hDests hMask hGrant hHome hOrder

/-- An access at its home that no order holds back is performed, and its entry goes on (R38, R213). -/
theorem visit_performs {u : State}
    (hPerform : perform i (i.countUse (i.addrPoison o) i.s) (fun l => i.pa (i.va o x unit l)) = (u, none)) :
    i.visit us ds masks o x acc size unit write perform =
      i.doneFor (u.modFrag i.f fun y => i.drainAfter (ScopeOrder.acq x.so) (ScopeOrder.rel x.so) x.so.scope
        (y.reads (i.recordsAt (fun l => i.pa (i.va o x unit l)) size i.g))) i.e.mask := by
  have hMem := checkMem_ok hGrant (fun _ => false) fun _ _ => rfl
  have hHints : i.checkHints (i.homesOf fun l => i.pa (i.va o x unit l)) = .ok () := by
    rw [homesOf_here hHome hg rfl]
    exact checkHints_none i [] fun _ _ h => absurd h Bool.false_ne_true
  unfold Ix.visit
  simp only [checkSources_ok i _ _ hRead, hDests, hMem, hMask, homedAt_home hHome, checkLocal_orderly hOrder hg,
    promoteStop_orderly hOrder, migrate_here hg hHome hHints x.lsel rfl, hg, if_false, hPerform, bind, Except.bind, pure, Except.pure]
  exact run_ok i _ hg

end AtHome

/-! ### Going on -/

/-- An access goes on: the drain mark and the counts of releases are set, and the lanes are at the next instruction. -/
def Ix.leaves (i : Ix) (so : ScopeOrder) (recs : List RelRec) (u : State) : State :=
  i.doneFor (u.modFrag i.f fun y => i.drainAfter (ScopeOrder.acq so) (ScopeOrder.rel so) so.scope (y.reads recs)) i.e.mask

theorem leaves_kept (i : Ix) (so : ScopeOrder) (recs : List RelRec) (u : State) :
    KeptMem u (i.leaves so recs u) i [] nothing nowhere := (KeptMem.drainAfter ..).trans (KeptMem.doneFor ..)

theorem leaves_regs (i : Ix) (so : ScopeOrder) (recs : List RelRec) (u : State) : SameRegs u (i.leaves so recs u) i :=
  (SameRegs.drainAfter ..).trans (SameRegs.doneFor ..)

/-! ### What is read at a home -/

/-- What is read of a control page depends on packages and hearths alone. -/
theorem cpRead_congr {s t : State} (hPkgs : t.pkgs = s.pkgs) (hHearths : t.hearths = s.hearths) (pkg : Nat) (who : Option (BitVec 8))
    (n : Nat) : ∀ ofs, t.cpRead pkg who ofs n = s.cpRead pkg who ofs n := by
  have hByte (ofs : Nat) : t.cpByte pkg who ofs = s.cpByte pkg who ofs := by
    unfold State.cpByte State.ringDesc State.pkg State.hearth
    rw [hPkgs, hHearths]
  induction n with
  | zero => exact fun _ => rfl
  | succ n ih => exact fun ofs => by rw [State.cpRead, State.cpRead, hByte, ih]

/-- A use of poison that is counted changes no value that is read. -/
theorem readAt_countUse (i : Ix) (used : Bool) (s : State) (ctx : BitVec 8) (pa n : Nat) :
    (i.countUse used s).readAt ctx pa n = s.readAt ctx pa n := by
  have hRest := countUse_rest i used s
  have hPage := cpRead_congr (s := s) (t := i.countUse used s) (congrArg State.pkgs hRest :) (congrArg State.hearths hRest :)
  have hBytes (m : Nat) : ∀ a, (i.countUse used s).readLE a m = s.readLE a m := fun a =>
    readLE_congr m _ _ a fun k _ => (congrArg (State.byte · (a + k)) hRest :)
  have hMarks (a m : Nat) : (i.countUse used s).poisoned a m = s.poisoned a m := (congrArg (State.poisoned · a m) hRest :)
  unfold State.readAt
  simp only [hPage, hBytes, hMarks]

theorem ctxOf_countUse (i : Ix) (used : Bool) (s : State) (x : Frag) : (i.countUse used s).ctxOf x = s.ctxOf x :=
  (congrArg (State.ctxOf · x) (countUse_rest i used s) :)

/-! ### LD and LDX -/

section Load

variable {h : Hdr} {o : Ops} {x : MemX} {s : State} {n : Nat} {acc : Acc} {size : Nat} (hg : (Ix.of s h).g ≠ 0)
  (hRead : Readable (Ix.of s h) (memUses h o 0) (Ix.of s h).g) (hWrite : Writable (Ix.of s h) o.d n)
  (hGrant : Granted (Ix.of s h) acc size ((Ix.of s h).va o x size))
  (hHome : HomedAt (Ix.of s h) ((Ix.of s h).va o x size) (Ix.of s h).here)
  (hOrder : Orderly (Ix.of s h) x.so false size ((Ix.of s h).va o x size))
include hg hRead hWrite hGrant hHome hOrder

/-- A load at its home ends in the state that it is performed with, and goes on. -/
theorem load_leaves {perform : Perform} {u : State}
    (hPerform : perform (Ix.of s h) ((Ix.of s h).countUse ((Ix.of s h).addrPoison o) s)
      (fun l => (Ix.of s h).pa ((Ix.of s h).va o x size l)) = (u, none)) :
    (Ix.of s h).visit (memUses h o 0) [(o.d, n)] o.d o x acc size size false perform = (Ix.of s h).leaves x.so
      ((Ix.of s h).recordsAt (fun l => (Ix.of s h).pa ((Ix.of s h).va o x size l)) size (Ix.of s h).g) u :=
  visit_performs hg hRead (checkDests_ok _ _ _ hWrite.full) (maskHome_at _ _ _ _ hWrite) hGrant hHome hOrder hPerform

end Load

/-- LD at its home (R247). -/
theorem exec_ld (h : Hdr) (o : Ops) (ty : Ty) (x : MemX) (s : State) :
    let i := Ix.of s h
    let size := ty.bits / 8
    let va := i.va o x size
    i.g ≠ 0 → Readable i (memUses h o 0) i.g → Writable i o.d (Ty.regs ty) → Granted i (.read true) size va →
    HomedAt i va i.here → Orderly i x.so false size va →
    ∃ used recs, exec (.ld h o ty x) s = .next (i.leaves x.so recs (i.pend (i.countUse used (i.countUse (i.addrPoison o) s)) o.d ty
      ((lanesOf i.g).map fun l => (l, s.readAt (s.ctxOf i.x) (i.pa (va l)) size)))) := by
  intro i size va hg hRead hWrite hGrant hHome hOrder
  refine ⟨dropsMark o.d && ((lanesOf i.g).map fun l => (l, s.readAt (s.ctxOf i.x) (i.pa (va l)) size)).any fun r => r.2.poison, _,
    congrArg Host.Outcome.next (load_leaves hg hRead hWrite hGrant hHome hOrder ?_)⟩
  simp only [readAt_countUse, ctxOf_countUse]
  rfl

/-- LDX at its home: its words are still to be written to vector registers, and go to no other destination (R247). -/
theorem exec_ldx (h : Hdr) (o : Ops) (n : XCount) (x : MemX) (s : State) :
    let i := Ix.of s h
    let k := XCount.n n
    let va := i.va o x (4 * k)
    i.g ≠ 0 → Readable i (memUses h o 0) i.g → Writable i o.d k → Granted i (.read false) (4 * k) va →
    HomedAt i va i.here → Orderly i x.so false (4 * k) va →
    ∃ recs, (∀ q, o.d = .v q → exec (.ldx h o n x) s = .next (i.leaves x.so recs
        (i.pendVec (i.countUse (i.addrPoison o) s) q.toNat k ((lanesOf i.g).map fun l =>
          (l, (List.range k).map fun w => s.readAt (s.ctxOf i.x) (i.pa (va l) + 4 * w) 4))))) ∧
      ((∀ q, o.d ≠ .v q) → exec (.ldx h o n x) s = .next (i.leaves x.so recs (i.countUse (i.addrPoison o) s))) := by
  intro i k va hg hRead hWrite hGrant hHome hOrder
  refine ⟨i.recordsAt (fun l => i.pa (va l)) (4 * k) i.g, fun q hd => ?_, fun hd => ?_⟩ <;>
    refine congrArg Host.Outcome.next (load_leaves hg hRead hWrite hGrant hHome hOrder ?_)
  · simp only [readAt_countUse, ctxOf_countUse, hd]
    rfl
  · split
    · next q hq => exact absurd hq (hd q)
    · rfl

/-- The words of LDX, once they are written. -/
theorem leaves_elem (i : Ix) (so : ScopeOrder) (recs : List RelRec) (u : State) (r n : Nat) (vals : Nat → List Val)
    (hFills : (u.frag i.f).fills = []) (hHoist : (u.frag i.f).hoist = i.x.hoist) {j l : Nat} (hj : j < n) (hl : i.g.getLsbD l = true)
    {v : Val} (hv : (vals l)[j]? = some v) :
    let t := i.leaves so recs (i.pendVec u r n ((lanesOf i.g).map fun l => (l, vals l)))
    ((t.applyFill i.f).hoist i.x.hoist).elem (i.areg r + j) l = v.word ∧
      ((t.applyFill i.f).hoist i.x.hoist).elemMark (i.areg r + j) l = v.poison := by
  intro t
  have hRegs := leaves_regs i so recs (i.pendVec u r n ((lanesOf i.g).map fun l => (l, vals l)))
  have hMade := applyFill_hoist (hRegs.fills.trans (pendVec_fills i u r n _ hFills))
  rw [hRegs.hoist, pendVec_hoist, hHoist] at hMade
  rw [hMade]
  exact vecFill_elem i r n vals _ hj hl hv

/-- Window registers follow each other in the allotment. -/
theorem areg_add (i : Ix) (r j : Nat) : i.areg (r + j) = i.areg r + j := (Nat.add_assoc ..).symm

/-! ### The obligation -/

/-- Settles O13: a load at its home is performed as its lanes are read, with the registers of its destination still to be written, and
goes on; making the write gives the destination the values read, and nothing else has changed. -/
theorem loadsAtTheirHome : Obligations.LoadsAtTheirHome := by
  unfold Obligations.LoadsAtTheirHome
  refine ⟨?_, ?_, ?_⟩
  · intro h o ty x s i size va hg hRead hWrite hGrant hHome hOrder
    obtain ⟨used, recs, hExec⟩ := exec_ld h o ty x s hg hRead hWrite hGrant hHome hOrder
    have hFrag : (i.countUse used (i.countUse (i.addrPoison o) s)).frag i.f = s.frag i.f := by
      rw [countUse_frag, countUse_frag]
    refine ⟨_, hExec, loads_of_pend i o.d ty _ hg rfl hFrag (leaves_regs ..), ?_⟩
    exact ((KeptMem.countUse ..).of_none.trans (KeptMem.countUse ..).of_none).trans
      ((pend_kept _ _ _ _ _ hg).trans (leaves_kept ..).of_none)
  · intro h o n x s i k va hg hRead hWrite hGrant hHome hOrder
    obtain ⟨recs, hVec, hOther⟩ := exec_ldx h o n x s hg hRead hWrite hGrant hHome hOrder
    have hFrag : (i.countUse (i.addrPoison o) s).frag i.f = s.frag i.f := countUse_frag ..
    have hUse : KeptMem s (i.countUse (i.addrPoison o) s) i [(o.d, k)] nothing nowhere := (KeptMem.countUse ..).of_none
    by_cases hd : ∃ q, o.d = .v q
    · obtain ⟨q, hq⟩ := hd
      refine ⟨_, hVec q hq, fun q' hq' j hj l hl hFills => ?_, ?_⟩
      · obtain rfl : q = q' := Opnd.v.inj (hq.symm.trans hq')
        rw [areg_add]
        refine leaves_elem i x.so recs _ q.toNat k _ (by rw [hFrag, hFills]) (by rw [hFrag]; rfl) hj hl ?_
        rw [List.getElem?_map, List.getElem?_range hj]
        rfl
      · exact (hUse.trans (pendVec_kept ..).of_none).trans (leaves_kept ..).of_none
    · have hNone : ∀ q, o.d ≠ .v q := fun q hq => hd ⟨q, hq⟩
      exact ⟨_, hOther hNone, fun q hq => absurd hq (hNone q), hUse.trans (leaves_kept ..).of_none⟩
  · intro s ctx pa n hPage
    unfold State.readAt
    rw [if_neg (by simp [hPage])]
    exact ⟨rfl, rfl⟩

end Sys2Proof.Machine
end

section
/-! SUPPORT. O14 fails as it is stated: it speaks of ST of every type, E2M1 among them, which the decoder gives no ST (R246). Its 4 bits
are no whole byte, so that the store is one of no byte at all. It stores nothing and still counts as a write for those who wait on bytes
around its address, while the statement keeps every other fragment as it was where nothing is stored. -/

namespace Sys2Proof.Machine
open Sys2Proof.Claims

/-- Page 0 is translated to 0x10000, a page of hearth 0, and lane 0 of fragment 1 waits on the 8 bytes from 0xFFFC, which lie around
that address. -/
def watchedPage : State :=
  let s := Tests.mbase.modCore 0 fun c =>
    { c with tlb := { ctx := 0, page := 0, bits := 16, leaf := BitVec.ofNat 64 (0x10000 + 0x1F) } :: c.tlb }
  s.setFrag 1 { s.frag 0 with entries := [{ prio := 0, pc := 0x20000, mask := 1, wait := some (.waita [0xFFFC] 8 false) }] }

/-- The issue of the store of no byte. -/
def emptyStore : Ix := Ix.of watchedPage (Tests.hd .f96)

/-- The operands of a store of v1 at the virtual address 0. -/
def atZero : Ops := Tests.ops .none .zr .zr (.v 1)

/-- The entries of fragment 1 after a step. -/
def watchersAfter (r : Host.Outcome State Fault Refusal) : List Entry :=
  match r with
  | .next t => (t.frag 1).entries
  | _ => []

/-- The wait has seen a write. -/
theorem watchersAfter_emptyStore : watchersAfter (exec (.st (Tests.hd .f96) atZero .e2m1 Tests.memx) watchedPage) =
    [{ prio := 0, pc := 0x20000, mask := 1, wait := some (.waita [0xFFFC] 8 true) }] := by decide +kernel

/-- Refutes O14: ST of E2M1, whose size is 0 bytes, stores no byte at 0x10000 and marks the wait of fragment 1 on the bytes from 0xFFFC
as one that has seen a write, where the statement has that fragment unchanged because no byte is stored. -/
theorem not_storesAtTheirHome : ¬ Obligations.StoresAtTheirHome := by
  unfold Obligations.StoresAtTheirHome
  rintro ⟨hSt, -⟩
  have hPseq : emptyStore.x.pseq = [] := by decide +kernel
  have hHints : (emptyStore.s.core emptyStore.x.gc).hints = [] := by decide +kernel
  have hLate : emptyStore.s.lateAt emptyStore.x.gc = false := by decide +kernel
  obtain ⟨hLocal, -⟩ := hSt (Tests.hd .f96) atZero .e2m1 Tests.memx watchedPage (by decide +kernel)
    (Tests.readable_clean (by decide +kernel) _ _) (Tests.granted_of (by decide +kernel)) (Tests.lanes_all (by decide +kernel))
    (Tests.maypost_plain hPseq hHints hLate)
  obtain ⟨t, ht, -, hKept⟩ := hLocal (by decide +kernel) (Tests.lanes_all (by decide +kernel))
  have hNone : ∀ a, ¬ laneBytes emptyStore (Ty.e2m1.bits / 8)
      (fun l => emptyStore.pa (emptyStore.va atZero Tests.memx (Ty.e2m1.bits / 8) l)) a := by
    rintro a ⟨l, -, hLow, hHigh⟩
    exact absurd hHigh (Nat.not_lt.2 hLow)
  have hSame := (hKept.frags 1 (by decide +kernel)).2 hNone
  have hMarked := watchersAfter_emptyStore
  rw [ht] at hMarked
  have hWaits := (congrArg Frag.entries hSame).symm.trans hMarked
  revert hWaits
  decide +kernel

end Sys2Proof.Machine
end

section
/-! SUPPORT. The scratchpad of a cast as lanes write it one after another (R219, R248, R251): which bytes change, what the last writer of a
byte leaves there, and what a lane reads behind the lanes below it. -/

namespace Sys2Proof.Machine
open Sys2Proof.Claims

/-! ### What writes of a scratchpad change -/

/-- Of a cast only the bytes `B` of its scratchpad and the marks of their words have changed. -/
structure SpadOnly (c k : Cast) (B : Nat → Prop) : Prop where
  rest  : { k with spad := c.spad, spoison := c.spoison } = c
  bytes : ∀ a, ¬ B a → Sparse.get (0 : Byte) k.spad a = Sparse.get (0 : Byte) c.spad a
  marks : ∀ w, (∀ a, B a → a / 4 ≠ w) → k.smark w = c.smark w

theorem SpadOnly.refl (c : Cast) (B : Nat → Prop) : SpadOnly c c B := ⟨rfl, fun _ _ => rfl, fun _ _ => rfl⟩

theorem SpadOnly.trans {c k m : Cast} {B : Nat → Prop} (h : SpadOnly c k B) (g : SpadOnly k m B) : SpadOnly c m B where
  rest := (congrArg (fun x : Cast => { x with spad := c.spad, spoison := c.spoison }) g.rest :).trans h.rest
  bytes a ha := (g.bytes a ha).trans (h.bytes a ha)
  marks w hw := (g.marks w hw).trans (h.marks w hw)

/-- A value is written at an offset. -/
def Cast.put (c : Cast) (ofs n : Nat) (v : Val) : Cast := c.swrite ofs n v.bits.toNat v.lo v.hi

theorem put_rest (c : Cast) (ofs n : Nat) (v : Val) : { c.put ofs n v with spad := c.spad, spoison := c.spoison } = c := by
  unfold Cast.put Cast.swrite
  split <;> rfl

/-- The mark of a word none of whose bytes is written. -/
theorem mark_putWrite_beside (s : State) (w : WriteOp) (k : Nat) (h : ∀ a, w.pa ≤ a → a < w.pa + w.size → a / 4 ≠ k) :
    (s.putWrite w).mark k = s.mark k := by
  by_cases hSize : w.size = 0
  · unfold State.putWrite
    rw [if_neg (by omega), mark_writeMem, if_neg (by rw [mem_wordsOf]; omega)]
  · refine mark_putWrite_outside s w k ?_
    by_contra hIn
    exact h (max w.pa (4 * k)) (by omega) (by omega) (by omega)

theorem put_byte_inside (c : Cast) (ofs n : Nat) (v : Val) {k : Nat} (hk : k < n) :
    Sparse.get (0 : Byte) (c.put ofs n v).spad (ofs + k) = BitVec.ofNat 8 (v.bits.toNat / 256 ^ k) :=
  (congrArg (State.byte · (ofs + k)) (memory_swrite c ofs n v) :).trans (byte_putWrite_inside _ (v.at_ ofs n) k hk)

theorem put_byte_outside (c : Cast) (ofs n : Nat) (v : Val) {a : Nat} (ha : a < ofs ∨ ofs + n ≤ a) :
    Sparse.get (0 : Byte) (c.put ofs n v).spad a = Sparse.get (0 : Byte) c.spad a :=
  (congrArg (State.byte · a) (memory_swrite c ofs n v) :).trans (byte_putWrite_outside _ (v.at_ ofs n) a ha)

theorem put_only (c : Cast) (ofs n : Nat) (v : Val) {B : Nat → Prop} (hB : ∀ a, ofs ≤ a → a < ofs + n → B a) :
    SpadOnly c (c.put ofs n v) B where
  rest := put_rest c ofs n v
  bytes a ha := put_byte_outside c ofs n v (by by_contra h; exact ha (hB a (by omega) (by omega)))
  marks w hw := (congrArg (State.mark · w) (memory_swrite c ofs n v) :).trans
    (mark_putWrite_beside _ (v.at_ ofs n) w fun a hLow hHigh => hw a (hB a hLow hHigh))

/-! ### Lanes that write one after another -/

/-- Lanes write `n` bytes each at their offsets, one after another: `val c l` is what lane `l` writes in the scratchpad `c`. -/
def Cast.putLanes (c : Cast) (at_ : Nat → Nat) (n : Nat) (val : Cast → Nat → Val) (ls : List Nat) : Cast :=
  ls.foldl (fun c l => c.put (at_ l) n (val c l)) c

section PutLanes

variable (c : Cast) (at_ : Nat → Nat) (n : Nat) (val : Cast → Nat → Val)

theorem putLanes_append (ls : List Nat) (l : Nat) : c.putLanes at_ n val (ls ++ [l]) =
    (c.putLanes at_ n val ls).put (at_ l) n (val (c.putLanes at_ n val ls) l) := by
  simp [Cast.putLanes]

theorem putLanes_only {B : Nat → Prop} (ls : List Nat) (hB : ∀ l ∈ ls, ∀ a, at_ l ≤ a → a < at_ l + n → B a) :
    SpadOnly c (c.putLanes at_ n val ls) B := by
  induction ls using List.reverseRecOn with
  | nil => exact .refl c B
  | append_singleton ls l ih =>
    rw [putLanes_append]
    exact (ih fun m hm => hB m (by simp [hm])).trans (put_only _ _ _ _ (hB l (by simp)))

/-- The bytes behind which no lane writes hold what their lane has written (R218). -/
theorem putLanes_byte (before after : List Nat) (l : Nat) (hAfter : ∀ m ∈ after, at_ m + n ≤ at_ l ∨ at_ l + n ≤ at_ m) {k : Nat}
    (hk : k < n) : Sparse.get (0 : Byte) (c.putLanes at_ n val (before ++ l :: after)).spad (at_ l + k) =
      BitVec.ofNat 8 ((val (c.putLanes at_ n val before) l).bits.toNat / 256 ^ k) := by
  induction after using List.reverseRecOn with
  | nil =>
    rw [putLanes_append]
    exact put_byte_inside _ _ _ _ hk
  | append_singleton after m ih =>
    have hm := hAfter m (by simp)
    rw [← List.cons_append, ← List.append_assoc, putLanes_append, put_byte_outside _ _ _ _ (by omega)]
    exact ih fun j hj => hAfter j (by simp [hj])

end PutLanes

/-! ### The lanes below a lane -/

/-- In a list of lanes in ascending order those before a lane are those below it. -/
theorem filter_below {before after : List Nat} {l : Nat} (h : (before ++ l :: after).Pairwise (· < ·)) :
    (before ++ l :: after).filter (fun m => decide (m < l)) = before := by
  obtain ⟨-, hTail, hCross⟩ := List.pairwise_append.1 h
  have hAbove := (List.pairwise_cons.1 hTail).1
  rw [List.filter_append, List.filter_eq_self.2 fun m hm => decide_eq_true (hCross m hm l (by simp)),
    List.filter_eq_nil_iff.2 fun m hm => ?_, List.append_nil]
  obtain rfl | hm := List.mem_cons.1 hm
  · simp
  · have := hAbove m hm
    simp only [decide_eq_true_eq]
    omega

/-- A lane stands between those below it and those above it. -/
theorem lanes_split {ls : List Nat} (h : ls.Pairwise (· < ·)) {l : Nat} (hl : l ∈ ls) :
    ∃ after, ls = ls.filter (fun m => decide (m < l)) ++ l :: after ∧ ∀ m ∈ after, l < m := by
  obtain ⟨before, after, rfl⟩ := List.append_of_mem hl
  refine ⟨after, by rw [filter_below h], (List.pairwise_cons.1 (List.pairwise_append.1 h).2.1).1⟩

/-! ### Read-modify-writes of lanes -/

/-- Values that no reader tells apart: their bits and their marks are equal. -/
structure Val.Like (x y : Val) : Prop where
  bits   : x.bits = y.bits
  poison : x.poison = y.poison
  lo     : x.lo = y.lo
  hi     : x.hi = y.hi

theorem Val.Like.refl (x : Val) : x.Like x := ⟨rfl, rfl, rfl, rfl⟩

/-- A destination that holds results holds any that are like them. -/
theorem gets_like {t : State} {i : Ix} {d : Opnd} {ty : Ty} {r r' : Nat → Val} (hg : i.g ≠ 0)
    (h : ∀ l, i.g.getLsbD l = true → (r l).Like (r' l)) (hGets : Gets t i d ty r) : Gets t i d ty r' := by
  have hLow : i.g.getLsbD (lowestLane i.g) = true := by
    obtain ⟨rest, hl⟩ := lanesOf_eq_cons i.g hg
    exact (mem_lanesOf _ _).1 (by rw [hl]; simp)
  cases d with
  | v q =>
    intro l hl
    have hSame := h l hl
    rw [← hSame.bits, ← hSame.poison, ← hSame.lo, ← hSame.hi]
    exact hGets l hl
  | s q =>
    have hSame := h _ hLow
    show _ = ext64 ty (r' (lowestLane i.g)).bits ∧ _ = (r' (lowestLane i.g)).poison
    rw [← hSame.bits, ← hSame.poison]
    exact hGets
  | p q =>
    intro hq l hl
    rw [← (h l hl).bits]
    exact hGets hq l hl
  | m q =>
    show _ = ext32 ty (r' (lowestLane i.g)).bits
    rw [← (h _ hLow).bits]
    exact hGets
  | _ => trivial

/-- A value of one mark that fits in the element is read back as it was written. -/
theorem elementOf_like {n : Nat} {bits : DWord} {p : Bool} (hBits : bits.toNat < 256 ^ n) :
    (elementOf n { bits, poison := p }).Like { bits, poison := p } := by
  have hSame : BitVec.ofNat 64 (bits.toNat % 256 ^ n) = bits := by
    rw [Nat.mod_eq_of_lt hBits, BitVec.ofNat_toNat, BitVec.setWidth_eq]
  unfold elementOf
  dsimp only
  rw [hSame]
  split
  · exact ⟨rfl, Bool.or_self p, rfl, rfl⟩
  · exact .refl _

section Modify

variable (c : Cast) (at_ : Nat → Nat) {n : Nat} (hn : n = 4 ∨ n = 8) (step : DWord → Nat → DWord) (mark : Nat → Bool)

/-- What a read-modify-write of lane `l` leaves where it has fetched `x`. -/
def modified (step : DWord → Nat → DWord) (mark : Nat → Bool) (x : Val) (l : Nat) : Val :=
  { bits := step x.bits l, poison := x.poison || mark l }

/-- The lanes of a list read, modify and write, one after another. -/
def Cast.modifyLanes (c : Cast) (at_ : Nat → Nat) (n : Nat) (step : DWord → Nat → DWord) (mark : Nat → Bool) (ls : List Nat) : Cast :=
  c.putLanes at_ n (fun c l => modified step mark (c.sval (at_ l) n) l) ls

theorem sval_lt (ofs : Nat) : (c.sval ofs n).bits.toNat < 256 ^ n := by
  show (BitVec.ofNat 64 (c.sread ofs n)).toNat < _
  rw [BitVec.toNat_ofNat, sread_memory]
  exact (Nat.mod_le _ _).trans_lt (readLE_lt _ _ _)

theorem modifyLanes_append (ls : List Nat) (l : Nat) : c.modifyLanes at_ n step mark (ls ++ [l]) =
    (c.modifyLanes at_ n step mark ls).put (at_ l) n (modified step mark ((c.modifyLanes at_ n step mark ls).sval (at_ l) n) l) :=
  putLanes_append ..

theorem modified_congr {x y : Val} (h : x.Like y) (l : Nat) : modified step mark x l = modified step mark y l := by
  unfold modified
  rw [h.bits, h.poison]

variable (hStep : ∀ x l, x.toNat < 256 ^ n → (step x l).toNat < 256 ^ n)
include hn

include hStep in
/-- What a read-modify-write leaves is read back. -/
theorem sval_put_modified (k : Cast) {ofs : Nat} (hOfs : ofs % 4 = 0) (l : Nat) :
    ((k.put ofs n (modified step mark (k.sval ofs n) l)).sval ofs n).Like (modified step mark (k.sval ofs n) l) := by
  unfold Cast.put
  rw [sval_swrite k _ hOfs hn]
  exact elementOf_like (hStep _ _ (sval_lt k ofs))

include hStep in
/-- A lane fetches what the lanes before it that name its location have left there, one after another (R251). -/
theorem fetched_modifyLanes {a : Nat} (ls : List Nat) (hAlign : ∀ m ∈ ls, at_ m % 4 = 0)
    (hApart : ∀ m ∈ ls, at_ m = a ∨ at_ m + n ≤ a ∨ a + n ≤ at_ m) :
    ((c.modifyLanes at_ n step mark ls).sval a n).Like
      ((ls.filter fun m => decide (at_ m = a)).foldl (modified step mark) (c.sval a n)) := by
  induction ls using List.reverseRecOn with
  | nil => exact .refl _
  | append_singleton ls m ih =>
    have hBefore := ih (fun j hj => hAlign j (by simp [hj])) fun j hj => hApart j (by simp [hj])
    have hm := hAlign m (by simp)
    rw [List.filter_append, List.foldl_append, modifyLanes_append]
    by_cases hSame : at_ m = a
    · have hOne : [m].filter (fun j => decide (at_ j = a)) = [m] := by simp [hSame]
      rw [hOne, List.foldl_cons, List.foldl_nil, ← modified_congr step mark hBefore m, ← hSame]
      exact sval_put_modified hn step mark hStep _ hm m
    · have hNone : [m].filter (fun j => decide (at_ j = a)) = [] := by simp [hSame]
      rw [hNone, List.foldl_nil]
      have hApartM := hApart m (by simp)
      unfold Cast.put
      rw [sval_swrite_outside _ _ hm (by omega) (by omega)]
      exact hBefore

end Modify

end Sys2Proof.Machine
end

section
/-! O17: accesses to scratchpad at the anchor core (R213, R219, R220, R247 to R251). -/

namespace Sys2Proof.Machine
open Sys2Proof.Claims

/-! ### An access at the anchor -/

/-- The offset of a lane as a scratchpad address. -/
def Ix.spadAt (i : Ix) (o : Ops) (x : MemX) (size l : Nat) : Nat := (i.ea o x.scale x.disp size l).toNat

/-- The records of the writes of the lanes of G (R236). -/
def Ix.noteLanes (i : Ix) (so : ScopeOrder) (at_ : Nat → Nat) (size : Nat) (u : State) : State :=
  (lanesOf i.g).foldl (fun s l => s.noteSpad i.x.gc (i.s.castOf i.x) (at_ l) size (i.relMark so)) u

/-- The records of the anchor core that an access meets (R237). -/
def Ix.spadRecords (i : Ix) (at_ : Nat → Nat) (size : Nat) : List RelRec :=
  (i.s.core i.x.gc).records.filter fun r => (lanesOf i.g).any fun l => meets r.pa r.size (spadKey (i.s.castOf i.x) (at_ l)) size

/-- An access to scratchpad goes on: the drain mark and the counts of releases are set, and the lanes are at the next instruction. -/
def Ix.returns (i : Ix) (so : ScopeOrder) (recs : List RelRec) (u : State) : State :=
  i.done (u.modFrag i.f fun y => i.drainAfter (ScopeOrder.acq so) (ScopeOrder.rel so) so.scope (y.reads recs))

theorem returns_kept (i : Ix) (so : ScopeOrder) (recs : List RelRec) (u : State) :
    KeptMem u (i.returns so recs u) i [] nothing nowhere := (KeptMem.drainAfter ..).trans (KeptMem.done ..)

theorem returns_regs (i : Ix) (so : ScopeOrder) (recs : List RelRec) (u : State) : SameRegs u (i.returns so recs u) i :=
  (SameRegs.drainAfter ..).trans (SameRegs.done ..)

theorem returns_cast (i : Ix) (so : ScopeOrder) (recs : List RelRec) (u : State) (c : Nat) :
    (i.returns so recs u).cast c = u.cast c := rfl

theorem noteLanes_records (i : Ix) (so : ScopeOrder) (at_ : Nat → Nat) (size : Nat) (u : State) :
    RecordsChanged u (i.noteLanes so at_ size u) := by
  unfold Ix.noteLanes
  induction lanesOf i.g generalizing u with
  | nil => exact .refl u
  | cons l ls ih => exact (RecordsChanged.noteSpad ..).trans (ih _)

theorem noteLanes_kept (i : Ix) (so : ScopeOrder) (at_ : Nat → Nat) (size : Nat) (u : State) :
    KeptMem u (i.noteLanes so at_ size u) i [] nothing nowhere :=
  have hNoted := noteLanes_records i so at_ size u
  .of_cores i hNoted.rest fun c => (congrArg (fun k : Core => { k with counters := (u.core c).counters }) (hNoted.cores c) :)

theorem noteLanes_regs (i : Ix) (so : ScopeOrder) (at_ : Nat → Nat) (size : Nat) (u : State) :
    SameRegs u (i.noteLanes so at_ size u) i :=
  have hRest := (noteLanes_records i so at_ size u).rest
  .of_eq (congrArg State.hoists hRest :) (congrArg (State.frag · i.f) hRest :)

theorem noteLanes_cast (i : Ix) (so : ScopeOrder) (at_ : Nat → Nat) (size : Nat) (u : State) (c : Nat) :
    (i.noteLanes so at_ size u).cast c = u.cast c :=
  (congrArg (State.cast · c) (noteLanes_records i so at_ size u).rest :)

section SpadOk

variable {i : Ix} {us : List Use} {o : Ops} {x : MemX} {size : Nat} {write : Bool}
  (h : SpadOk i us o x.so size write (i.spadAt o x size) (i.ea o x.scale x.disp size))
include h

theorem checkSpad_ok : i.checkSpad size (i.ofs o x size) = .ok () := by
  have hAlign (addr : Nat → Nat) : i.trapLanes Cause.align (fun l => decide (i.ofs o x size l % size ≠ 0)) addr = .ok () :=
    trapLanes_ok i _ _ _ fun l hl => decide_eq_false (not_not.2 (h.aligned l hl))
  have hInside (addr : Nat → Nat) : i.trapLanes Cause.scratch (fun l => decide (i.ofs o x size l < 0 ∨
      (i.s.spadBytes (i.s.castOf i.x) : Int) < i.ofs o x size l + size)) addr = .ok () :=
    trapLanes_ok i _ _ _ fun l hl => decide_eq_false fun hOut => by
      obtain ⟨hLow, hHigh⟩ := h.bounds l hl
      change i.ea o x.scale x.disp size l < 0 ∨ _ < i.ea o x.scale x.disp size l + size at hOut
      omega
  unfold Ix.checkSpad
  simp only [hAlign, hInside, bind, Except.bind]

theorem tiles_free : ((lanesOf i.g).any fun l => i.s.tileHeld i.x.hoist write (i.ofs o x size l).toNat size) = false :=
  List.any_eq_false.2 fun l hl => by
    have hFree := h.free l ((mem_lanesOf _ _).1 hl)
    change i.s.tileHeld i.x.hoist write (i.ofs o x size l).toNat size = false at hFree
    simp [hFree]

theorem spadRoom : (write && (i.relMark x.so).isSome && i.s.spadFull i.x.gc (lanesOf i.g).length) = false := by
  cases hw : write
  · rfl
  · cases hm : (i.relMark x.so).isSome
    · rfl
    · simp [h.room hw hm]

theorem promoteStop_spad : i.promoteStop (if x.so.promote then i.spadRecords (i.spadAt o x size) size else []) = none := by
  cases hp : x.so.promote
  · rfl
  · have hDrained : ∀ r ∈ i.spadRecords (i.spadAt o x size) size, (i.s.core r.gc).drainedTo r.count = true := by
      intro r hr
      obtain ⟨hIn, hMeets⟩ := List.mem_filter.1 hr
      obtain ⟨l, hl, hMeet⟩ := List.any_eq_true.1 hMeets
      exact h.promote hp r hIn ⟨l, (mem_lanesOf _ _).1 hl, hMeet⟩
    unfold Ix.promoteStop
    rw [if_pos rfl, List.find?_eq_none.2 fun r hr => by simp [hDrained r hr]]
    rfl

/-- An access to scratchpad that nothing holds back is performed at the anchor, and its entry goes on (R219, R220). -/
theorem spad_performs {ds : List (Opnd × Nat)} {masks : Opnd} (hDests : i.checkDests ds = .ok ())
    (hMask : i.maskHome masks x.lsel = .ok ()) {perform : Ix → State → (Nat → Nat) → State} {u : State}
    (hPerform : perform i (i.countUse (i.addrPoison o) i.s) (i.spadAt o x size) = u) :
    i.spad us ds masks o x size write perform = i.returns x.so (i.spadRecords (i.spadAt o x size) size)
      (if write then i.noteLanes x.so (i.spadAt o x size) size u else u) := by
  have hPromote := promoteStop_spad h
  have hFree := tiles_free h
  unfold Ix.spadRecords Ix.spadAt at hPromote
  unfold Ix.ofs at hFree
  unfold Ix.spad
  simp only [checkSources_ok i _ _ h.reads, hDests, checkSpad_ok h, hMask, needAnchor_home h.anchor, hFree,
    checkRelease_ok h.release, spadRoom h, guardStop_false, Ix.ofs, hPromote, bind, Except.bind, pure, Except.pure]
  rw [run_ok i _ h.lanes, ← hPerform]
  rfl

/-- A lane's offset is a multiple of the size (R214). -/
theorem spadAt_aligned {l : Nat} (hl : i.g.getLsbD l = true) : size ∣ i.spadAt o x size l := by
  have hDvd : (size : Int) ∣ i.ea o x.scale x.disp size l := Int.dvd_of_emod_eq_zero (h.aligned l hl)
  have hNat : ((i.spadAt o x size l : Nat) : Int) = i.ea o x.scale x.disp size l := Int.toNat_of_nonneg (h.bounds l hl).1
  exact Int.natCast_dvd_natCast.1 (hNat ▸ hDvd)

end SpadOk

/-- Aligned locations of one size are one, or lie apart. -/
theorem aligned_apart {n a b : Nat} (ha : n ∣ a) (hb : n ∣ b) : b = a ∨ b + n ≤ a ∨ a + n ≤ b := by
  obtain ⟨p, rfl⟩ := ha
  obtain ⟨q, rfl⟩ := hb
  obtain hlt | rfl | hgt := Nat.lt_trichotomy q p
  · exact .inr (.inl (Nat.mul_succ n q ▸ Nat.mul_le_mul_left n hlt))
  · exact .inl rfl
  · exact .inr (.inr (Nat.mul_succ n p ▸ Nat.mul_le_mul_left n hgt))

theorem countUse_castOf (i : Ix) (used : Bool) (s : State) (x : Frag) : (i.countUse used s).castOf x = s.castOf x :=
  (congrArg (State.castOf · x) (countUse_rest i used s) :)

/-! ### Writes of the anchor's scratchpad -/

theorem CastReplaced.modCast (s : State) (c : Nat) (g : Cast → Cast) : CastReplaced s (s.modCast c g) c (g (s.cast c)) :=
  ⟨fun _ => modCast_cast .., fun _ => rfl, rfl⟩

/-- The scratchpad of a cast is written, and nothing beside the bytes `B` changes. -/
theorem KeptMem.of_put {s t : State} {c : Nat} {k : Cast} {B : Nat → Prop} {ds : List (Opnd × Nat)} (i : Ix) (used : Bool)
    (h : CastReplaced (i.countUse used s) t c k) (hOnly : SpadOnly (s.cast c) k B) :
    KeptMem s t i ds nothing (fun d a => d = c ∧ B a) := by
  rw [← countUse_cast i used s c] at hOnly
  exact (KeptMem.countUse i used s).of_none.trans
    ((KeptMem.of_spad h i hOnly.rest hOnly.bytes hOnly.marks).mono (fun _ hd => absurd hd List.not_mem_nil) (fun _ => id) fun _ _ => id)

/-- The bytes that lanes write are bytes of lanes. -/
theorem laneBytes_of_lane {i : Ix} {size : Nat} {at_ : Nat → Nat} {l : Nat} (hl : i.g.getLsbD l = true) (a : Nat) (hLow : at_ l ≤ a)
    (hHigh : a < at_ l + size) : laneBytes i size at_ a := ⟨l, hl, hLow, hHigh⟩

/-! ### LDS -/

/-- LDS at the anchor (R247). -/
theorem exec_lds (h : Hdr) (o : Ops) (ty : Ty) (x : MemX) (s : State) :
    let i := Ix.of s h
    let size := ty.bits / 8
    SpadOk i (memUses h o 0) o x.so size false (i.spadAt o x size) (i.ea o x.scale x.disp size) → Writable i o.d (Ty.regs ty) →
    ∃ used recs, exec (.lds h o ty x) s = .next (i.returns x.so recs (i.pend (i.countUse used (i.countUse (i.addrPoison o) s)) o.d ty
      ((lanesOf i.g).map fun l => (l, (s.cast (s.castOf i.x)).sval (i.spadAt o x size l) size)))) := by
  intro i size hOk hWrite
  refine ⟨dropsMark o.d && ((lanesOf i.g).map fun l => (l, (s.cast (s.castOf i.x)).sval (i.spadAt o x size l) size)).any
    fun r => r.2.poison, _, congrArg Host.Outcome.next (spad_performs hOk (checkDests_ok _ _ _ hWrite.full)
      (maskHome_at _ _ _ _ hWrite) ?_)⟩
  simp only [State.spadRead, countUse_cast, countUse_castOf]
  rfl

/-! ### STS -/

/-- What the lanes of a store write. -/
def Ix.stored (i : Ix) (o : Ops) (ty : Ty) (_ : Cast) (l : Nat) : Val := i.read o.c (.bw ty.wide) l

/-- STS at the anchor: of the lanes that name one location the highest writes it (R218, R248). -/
theorem exec_sts (h : Hdr) (o : Ops) (ty : Ty) (x : MemX) (s : State) :
    let i := Ix.of s h
    let size := ty.bits / 8
    let at_ := i.spadAt o x size
    SpadOk i (memUses h o (Ty.regs ty)) o x.so size true at_ (i.ea o x.scale x.disp size) →
    ∃ recs u, CastReplaced (i.countUse (i.addrPoison o) s) u (s.castOf i.x)
        ((s.cast (s.castOf i.x)).putLanes at_ size (i.stored o ty) (lanesOf (lastLanes at_ i.g))) ∧
      exec (.sts h o ty x) s = .next (i.returns x.so recs (i.noteLanes x.so at_ size u)) := by
  intro i size at_ hOk
  have hWritten := CastReplaced.modCast (i.countUse (i.addrPoison o) s) (s.castOf i.x)
    fun c => c.putLanes at_ size (i.stored o ty) (lanesOf (lastLanes at_ i.g))
  rw [countUse_cast] at hWritten
  refine ⟨_, _, hWritten, congrArg Host.Outcome.next (spad_performs hOk rfl rfl ?_)⟩
  simp only [countUse_castOf]
  rfl

/-! ### ATOMS -/

/-- A lane fetches from the scratchpad of a cast, and writes what it has modified. -/
def fetchAndModify (c : Nat) (at_ : Nat → Nat) (n : Nat) (step : DWord → Nat → DWord) (mark : Nat → Bool)
    (q : State × List (Nat × Val)) (l : Nat) : State × List (Nat × Val) :=
  let cur := (q.1.cast c).sval (at_ l) n
  (q.1.modCast c fun k => k.put (at_ l) n (modified step mark cur l), q.2 ++ [(l, cur)])

/-- What lane `l` fetches: the value that the lanes of `ls` below it leave. -/
def Cast.fetchedBehind (k : Cast) (at_ : Nat → Nat) (n : Nat) (step : DWord → Nat → DWord) (mark : Nat → Bool) (ls : List Nat) (l : Nat) :
    Val := (k.modifyLanes at_ n step mark (ls.filter fun m => decide (m < l))).sval (at_ l) n

/-- Lanes in ascending order that fetch and modify: the scratchpad that they leave, and what each has fetched. -/
theorem fetchAndModify_lanes (s : State) (c : Nat) (at_ : Nat → Nat) (n : Nat) (step : DWord → Nat → DWord) (mark : Nat → Bool)
    (ls : List Nat) (hSorted : ls.Pairwise (· < ·)) :
    let q := ls.foldl (fetchAndModify c at_ n step mark) (s, [])
    CastReplaced s q.1 c ((s.cast c).modifyLanes at_ n step mark ls) ∧
      q.2 = ls.map fun l => (l, (s.cast c).fetchedBehind at_ n step mark ls l) := by
  induction ls using List.reverseRecOn with
  | nil => exact ⟨.refl s c, rfl⟩
  | append_singleton ls l ih =>
    obtain ⟨hBefore, -, hCross⟩ := List.pairwise_append.1 hSorted
    obtain ⟨hPad, hList⟩ := ih hBefore
    have hCur := (hPad.cast c).trans (if_pos rfl)
    dsimp only
    rw [List.foldl_append, List.foldl_cons, List.foldl_nil]
    generalize ls.foldl (fetchAndModify c at_ n step mark) (s, []) = q at *
    constructor
    · have hPut := hPad.trans (CastReplaced.modCast q.1 c fun k =>
        k.put (at_ l) n (modified step mark ((q.1.cast c).sval (at_ l) n) l))
      rw [modifyLanes_append, ← hCur]
      exact hPut
    · have hBelow : (ls ++ [l]).filter (fun m => decide (m < l)) = ls := filter_below hSorted
      have hLast : (s.cast c).fetchedBehind at_ n step mark (ls ++ [l]) l = (q.1.cast c).sval (at_ l) n := by
        rw [Cast.fetchedBehind, hBelow, hCur]
      have hOthers : (ls.map fun m => (m, (s.cast c).fetchedBehind at_ n step mark (ls ++ [l]) m)) = q.2 := by
        rw [hList]
        refine List.map_congr_left fun m hm => ?_
        have hAbove : ¬ l < m := Nat.lt_asymm (hCross m hm l (by simp))
        rw [Cast.fetchedBehind, Cast.fetchedBehind, List.filter_append, List.filter_singleton]
        simp [hAbove]
      rw [List.map_append, hOthers, List.map_singleton, hLast]
      rfl

/-- What an operation of ATOMS makes of the fetched bits in a lane. -/
def Ix.atomStep (i : Ix) (o : Ops) (ty : Ty) (op : AtomOp) (b : DWord) (l : Nat) : DWord :=
  AtomOp.step op ty b (i.read o.c (.bw ty.wide) l).bits

/-- The mark of a lane's operand. -/
def Ix.atomMark (i : Ix) (o : Ops) (ty : Ty) (l : Nat) : Bool := (i.read o.c (.bw ty.wide) l).poison

/-- ATOMS at the anchor: each lane fetches behind those below it (R249 to R251). -/
theorem exec_atoms (h : Hdr) (o : Ops) (ty : Ty) (op : AtomOp) (x : MemX) (s : State) :
    let i := Ix.of s h
    let size := ty.bits / 8
    let at_ := i.spadAt o x size
    let k := s.cast (s.castOf i.x)
    SpadOk i (memUses h o (Ty.regs ty)) o x.so size true at_ (i.ea o x.scale x.disp size) → Writable i o.d (Ty.regs ty) →
    ∃ used recs u, CastReplaced (i.countUse (i.addrPoison o) s) u (s.castOf i.x)
        (k.modifyLanes at_ size (i.atomStep o ty op) (i.atomMark o ty) (lanesOf i.g)) ∧
      exec (.atoms h o ty op x) s = .next (i.returns x.so recs (i.noteLanes x.so at_ size (i.pend (i.countUse used u) o.d ty
        ((lanesOf i.g).map fun l => (l, k.fetchedBehind at_ size (i.atomStep o ty op) (i.atomMark o ty) (lanesOf i.g) l))))) := by
  intro i size at_ k hOk hWrite
  let q := (lanesOf i.g).foldl (fetchAndModify (s.castOf i.x) at_ size (i.atomStep o ty op) (i.atomMark o ty))
    (i.countUse (i.addrPoison o) s, [])
  obtain ⟨hPad, hList⟩ : CastReplaced _ q.1 _ _ ∧ q.2 = _ := fetchAndModify_lanes (i.countUse (i.addrPoison o) s) (s.castOf i.x)
    at_ size (i.atomStep o ty op) (i.atomMark o ty) (lanesOf i.g) (lanesOf_pairwise i.g)
  rw [countUse_cast] at hPad hList
  rw [← hList]
  refine ⟨dropsMark o.d && q.2.any fun p => p.2.poison, _, q.1, hPad, congrArg Host.Outcome.next
    (spad_performs hOk (checkDests_ok _ _ _ hWrite.full) (maskHome_at _ _ _ _ hWrite) ?_)⟩
  dsimp only
  rw [show i.s = s from rfl, countUse_castOf]
  rfl

/-! ### The values of read-modify-writes -/

theorem wrapTy_lt {ty : Ty} (h : ty.bits = 32) (z : Int) : (wrapTy ty z).toNat < 2 ^ 32 := by
  unfold wrapTy wrapTo
  rw [h, BitVec.toNat_ofNat]
  exact (Nat.mod_le _ _).trans_lt (by omega)

theorem ofNat_lt {m n : Nat} (h : m < n) : (BitVec.ofNat 64 m).toNat < n := by
  rw [BitVec.toNat_ofNat]
  exact (Nat.mod_le _ _).trans_lt h

/-- A step on 32-bit values has a 32-bit result. -/
theorem atomStep_lt (op : AtomOp) {ty : Ty} (h : ty.bits = 32) {a b : DWord} (ha : a.toNat < 2 ^ 32) (hb : b.toNat < 2 ^ 32) :
    (AtomOp.step op ty a b).toNat < 2 ^ 32 := by
  have hMod (z : DWord) : z.toNat % 2 ^ 32 < 2 ^ 32 := Nat.mod_lt _ (by decide)
  have hNan : Fmt.canonNan .fp32 < 2 ^ 32 := by decide
  cases op with
  | add =>
    unfold AtomOp.step FoldOp.step
    dsimp only
    split
    · exact ofNat_lt (round_lt .fp32 _ _ _ _)
    · exact wrapTy_lt h _
  | min =>
    unfold AtomOp.step FoldOp.step
    dsimp only
    split
    · exact ofNat_lt (minMax_lt _ _ hNan (hMod a) (hMod b))
    · exact wrapTy_lt h _
  | max =>
    unfold AtomOp.step FoldOp.step
    dsimp only
    split
    · exact ofNat_lt (minMax_lt _ _ hNan (hMod a) (hMod b))
    · exact wrapTy_lt h _
  | and => exact (BitVec.toNat_and a b).symm ▸ Nat.and_lt_two_pow _ hb
  | or => exact (BitVec.toNat_or a b).symm ▸ Nat.or_lt_two_pow ha hb
  | xor => exact (BitVec.toNat_xor a b).symm ▸ Nat.xor_lt_two_pow ha hb
  | exch => exact hb

/-- An operand read as 32 bits. -/
theorem read_lt (i : Ix) (o : Opnd) (l : Nat) : (i.read o (.bw false) l).bits.toNat < 2 ^ 32 := by
  have hWord (w : Word) : (w.setWidth 64).toNat < 2 ^ 32 := by
    rw [BitVec.toNat_setWidth]
    exact (Nat.mod_le _ _).trans_lt w.isLt
  cases o with
  | p q =>
    show (if _ then _ else _ : DWord).toNat < _
    split <;> decide
  | v q => exact hWord _
  | s q => exact hWord _
  | m q => exact hWord _
  | lit w => exact hWord w
  | _ => exact Nat.two_pow_pos 32

/-- A step of ATOMS keeps to the size of its type. -/
theorem atomStep_fits (i : Ix) (o : Ops) {ty : Ty} (op : AtomOp) (hTy : ty.bits = 32 ∨ ty.bits = 64) (b : DWord) (l : Nat)
    (hb : b.toNat < 256 ^ (ty.bits / 8)) : (i.atomStep o ty op b l).toNat < 256 ^ (ty.bits / 8) := by
  obtain h32 | h64 := hTy
  · rw [h32] at hb ⊢
    have hWide : ty.wide = false := by simp [Ty.wide, h32]
    unfold Ix.atomStep
    rw [hWide]
    exact atomStep_lt op h32 hb (read_lt i o.c l)
  · rw [h64]
    exact (i.atomStep o ty op b l).isLt

/-! ### What the lanes leave -/

/-- The last lane that stores to its bytes is a lane whose store stays. -/
theorem lastWriter_stays {i : Ix} {size : Nat} {at_ : Nat → Nat} (hSize : 0 < size) {l : Nat} (hl : i.g.getLsbD l = true)
    (hLast : LastWriter i size at_ l) : l ∈ lanesOf (lastLanes at_ i.g) := by
  rw [lanesOf_lastLanes, List.mem_filter, List.all_eq_true]
  refine ⟨(mem_lanesOf _ _).2 hl, fun m hm => decide_eq_true fun hlt hSame => ?_⟩
  have := hLast m ((mem_lanesOf _ _).1 hm) hlt
  omega

/-- Among lanes in ascending order the last that writes to its bytes leaves its value there. -/
theorem putLanes_last (c : Cast) (i : Ix) (at_ : Nat → Nat) (n : Nat) (val : Cast → Nat → Val) {ls : List Nat}
    (hSorted : ls.Pairwise (· < ·)) (hLanes : ∀ m ∈ ls, i.g.getLsbD m = true) {l : Nat} (hl : l ∈ ls) (hLast : LastWriter i n at_ l)
    {k : Nat} (hk : k < n) : Sparse.get (0 : Byte) (c.putLanes at_ n val ls).spad (at_ l + k) =
      BitVec.ofNat 8 ((val (c.putLanes at_ n val (ls.filter fun m => decide (m < l))) l).bits.toNat / 256 ^ k) := by
  obtain ⟨after, hSplit, hAbove⟩ := lanes_split hSorted hl
  have hAfter : ∀ m ∈ after, at_ m + n ≤ at_ l ∨ at_ l + n ≤ at_ m := fun m hm =>
    hLast m (hLanes m (by rw [hSplit]; simp [hm])) (hAbove m hm)
  rw [← putLanes_byte c at_ n val _ after l hAfter hk, ← hSplit]

/-- What a lane fetches is what the lanes below it that name its location make of the value there. -/
theorem fetchedBehind_like (k : Cast) {i : Ix} {n : Nat} (hn : n = 4 ∨ n = 8) {at_ : Nat → Nat} {step : DWord → Nat → DWord}
    {mark : Nat → Bool} (hStep : ∀ b l, b.toNat < 256 ^ n → (step b l).toNat < 256 ^ n)
    (hAlign : ∀ l, i.g.getLsbD l = true → n ∣ at_ l) {l : Nat} (hl : i.g.getLsbD l = true) :
    (k.fetchedBehind at_ n step mark (lanesOf i.g) l).Like
      ((earlier i at_ l).foldl (modified step mark) (k.sval (at_ l) n)) := by
  have hEarlier : earlier i at_ l = ((lanesOf i.g).filter fun m => decide (m < l)).filter fun m => decide (at_ m = at_ l) := by
    unfold earlier
    rw [List.filter_filter]
    refine List.filter_congr fun m _ => ?_
    rw [Bool.decide_and, Bool.and_comm]
  have hLane {m : Nat} (hm : m ∈ (lanesOf i.g).filter fun m => decide (m < l)) : n ∣ at_ m :=
    hAlign m ((mem_lanesOf _ _).1 (List.mem_filter.1 hm).1)
  rw [hEarlier]
  refine fetched_modifyLanes k at_ hn step mark hStep _ (fun m hm => ?_) fun m hm => aligned_apart (hAlign l hl) (hLane hm)
  have h4 : 4 ∣ n := by omega
  exact Nat.mod_eq_zero_of_dvd (h4.trans (hLane hm))

/-! ### The obligation -/

/-- Settles O17: an access to scratchpad is performed at the anchor, its lanes one after another, and goes on; a lane that reads, modifies
and writes fetches what the lanes below it that name its location have left, because aligned locations are one or lie apart. -/
theorem scratchpadAccesses : Obligations.ScratchpadAccesses := by
  unfold Obligations.ScratchpadAccesses
  refine ⟨?_, ?_, ?_⟩
  · intro h o ty x s i size at_ hOk hWrite
    obtain ⟨used, recs, hExec⟩ := exec_lds h o ty x s hOk hWrite
    have hFrag : (i.countUse used (i.countUse (i.addrPoison o) s)).frag i.f = s.frag i.f := by
      rw [countUse_frag, countUse_frag]
    refine ⟨_, hExec, loads_of_pend i o.d ty _ hOk.lanes rfl hFrag (returns_regs ..), ?_⟩
    exact ((KeptMem.countUse ..).of_none.trans (KeptMem.countUse ..).of_none).trans
      ((pend_kept _ _ _ _ _ hOk.lanes).trans (returns_kept ..).of_none)
  · intro h o ty x s i size at_ hOk
    obtain ⟨recs, u, hPad, hExec⟩ := exec_sts h o ty x s hOk
    refine ⟨_, hExec, fun l hl hLast k hk => ?_, ?_⟩
    · rw [returns_cast, noteLanes_cast, hPad.cast, if_pos rfl]
      exact putLanes_last _ i at_ size (i.stored o ty) (lanesOf_pairwise _) (fun m hm => mem_lastLanes hm)
        (lastWriter_stays (by omega) hl hLast) hLast hk
    · have hOnly := putLanes_only (s.cast (s.castOf i.x)) at_ size (i.stored o ty) (B := laneBytes i size at_)
        (lanesOf (lastLanes at_ i.g)) fun l hl => laneBytes_of_lane (mem_lastLanes hl)
      exact (KeptMem.of_put i (i.addrPoison o) hPad hOnly).trans ((noteLanes_kept ..).of_none.trans (returns_kept ..).of_none)
  · intro h o ty op x hTy s i size at_ v after fetched hOk hWrite
    obtain ⟨used, recs, u, hPad, hExec⟩ := exec_atoms h o ty op x s hOk hWrite
    have hFrag : (i.countUse used u).frag i.f = s.frag i.f := by rw [countUse_frag, hPad.frag, countUse_frag]
    have hn : size = 4 ∨ size = 8 := by omega
    have hLike {l : Nat} (hl : i.g.getLsbD l = true) := fetchedBehind_like (s.cast (s.castOf i.x)) hn
      (atomStep_fits i o op hTy) (mark := i.atomMark o ty) (fun _ => spadAt_aligned hOk) hl
    refine ⟨_, hExec, fun hFills => ?_, fun l hl hLast k hk => ?_, ?_⟩
    · refine gets_like hOk.lanes (fun l hl => hLike hl) (loads_of_pend i o.d ty _ hOk.lanes rfl hFrag ?_ hFills)
      exact (noteLanes_regs ..).trans (returns_regs ..)
    · rw [returns_cast, noteLanes_cast, pend_cast _ _ _ _ _ hOk.lanes, countUse_cast, hPad.cast, if_pos rfl, Cast.modifyLanes]
      refine (putLanes_last _ i at_ size _ (lanesOf_pairwise _) (fun m hm => (mem_lanesOf _ _).1 hm) ((mem_lanesOf _ _).2 hl) hLast
        hk).trans ?_
      exact congrArg (fun y : Val => BitVec.ofNat 8 (y.bits.toNat / 256 ^ k)) (modified_congr _ _ (hLike hl) l)
    · have hOnly := putLanes_only (s.cast (s.castOf i.x)) at_ size
        (fun c l => modified (i.atomStep o ty op) (i.atomMark o ty) (c.sval (at_ l) size) l) (B := laneBytes i size at_) (lanesOf i.g)
        fun l hl => laneBytes_of_lane ((mem_lanesOf _ _).1 hl)
      exact ((KeptMem.of_put i (i.addrPoison o) hPad hOnly).trans (KeptMem.countUse ..).of_none).trans
        (((pend_kept _ _ _ _ _ hOk.lanes).mono (fun _ => id) (fun _ ha => ha) fun _ _ ha => ha.elim).trans
          ((noteLanes_kept ..).of_none.trans (returns_kept ..).of_none))

end Sys2Proof.Machine
end
